-- ==== Sys2Proof/Word.lean ====
section
/-!
DEFINITION. The plain data types of the machine: words, rows, lane masks, addresses and the one sparse table type.
-/

namespace Sys2Proof

/-- A byte of memory. -/
abbrev Byte := BitVec 8

/-- A 64-bit scalar register or queue entry (R97, R98). -/
abbrev Word := BitVec 64

/-- A vector row: 128 lanes of W36 or 256 lanes of W18 (R205). -/
abbrev Row := BitVec 4608

/-- A lane mask (R206). -/
abbrev Mask := BitVec 256

/-- A virtual byte address (R32). -/
abbrev VAddr := BitVec 56

/-- A sparse table: keys strictly rising, and no entry equal to the table's default value. -/
abbrev Tbl (α : Type) := List (Nat × α)

/-- A table whose entries may be absent: the default value is `none`. -/
abbrev OTbl (α : Type) := Tbl (Option α)

end Sys2Proof
end

