-- ==== Sys2Proof/Syntax.lean ====
section
/-!
DEFINITION. The whole syntax: operands, and one constructor of `Instr` per row of spec/opcode_table.json (instruction words and the machine's own events).
-/

namespace Sys2Proof

/-- The four engine streams, numbered SC 0, LD 1, CX 2, ST 3 (R94). -/
inductive Strm where
  | sc | ld | cx | st
  deriving DecidableEq, Repr

/-- The guarding predicate of PRED: `neg` is bit [51], `p` names p0 to p7 (R36). -/
structure Guard where
  neg : Bool
  p : BitVec 3
  deriving DecidableEq, Repr

/-- A source operand: the codes of R37, with IMM8 (R43) and the wide literal (R41) as source B. -/
inductive Src where
  /-- s0 to s31 -/
  | s (n : BitVec 5)
  /-- a0 to a15 -/
  | a (n : BitVec 4)
  /-- m0 to m7: pops the next block (LD and ST) -/
  | m (n : BitVec 3)
  /-- pop the scalar queue from a stream -/
  | pop (q : Strm)
  /-- peek the scalar queue from a stream -/
  | peek (q : Strm)
  | zero
  | one
  /-- the lane index -/
  | lane
  /-- core coordinate, code 0x43 -/
  | coordCore
  /-- die coordinate, code 0x44 -/
  | coordDie
  /-- stage number, code 0x45 -/
  | stage
  /-- job index, code 0x46 -/
  | jobIdx
  /-- iteration count of l0, code 0x47 -/
  | iter
  /-- small constant: code 0x50 + c, worth c − 8 -/
  | const (c : BitVec 4)
  /-- v0 to v127 (CX) -/
  | v (n : BitVec 7)
  /-- IMM8 of an F-R word with I = 1 -/
  | imm (i : BitVec 8)
  /-- the literal of a wide word -/
  | lit (l : BitVec 32)
  deriving DecidableEq, Repr

/-- A register named by DST (R38). -/
inductive Reg where
  | s (n : BitVec 5)
  | a (n : BitVec 4)
  | v (n : BitVec 7)
  /-- predicate destination, codes 0x00 to 0x07 -/
  | p (n : BitVec 3)
  /-- lane-mask destination, codes 0x10 to 0x1F -/
  | k (n : BitVec 4)
  deriving DecidableEq, Repr

/-- The delivery of a result (R39): the register in DST, if DMASK bit [42] is set, and the queues: bit 0 to SC, 1 to LD,
2 to CX, 3 to ST, 4 the outgoing vector queue. -/
structure Dest where
  reg : Option Reg
  qs : BitVec 5
  deriving DecidableEq, Repr

/-- The scopes of R171. -/
inductive Scope where
  | strm | core | die | mod | dom
  deriving DecidableEq, Repr

/-- The rounding modes of R70. -/
inductive Rnd where
  | rne | rtz | rup | rdn | rna | rsto | rto
  deriving DecidableEq, Repr

/-- The full-empty qualifier of R44. -/
inductive Fe where
  | none | fe | fec
  deriving DecidableEq, Repr

/-- Conditions of CMP, FCMP and VCMP (R110, R113, R217). -/
inductive Cond where
  | eq | ne | lt | le | gt | ge | ltu | leu | gtu | geu
  deriving DecidableEq, Repr

/-- Guard, delivery and two sources: the common shape of the F-R instructions. -/
structure ROps where
  g : Guard
  d : Dest
  a : Src
  b : Src
  deriving DecidableEq, Repr

/-- F-R with one source A. -/
structure ROps1 where
  g : Guard
  d : Dest
  a : Src
  deriving DecidableEq, Repr

/-- Predicate logic (R131). -/
structure POps where
  g : Guard
  d : Dest
  na : Bool
  pa : BitVec 3
  nb : Bool
  pb : BitVec 3
  deriving DecidableEq, Repr

/-- F-B: link and offset (R42). -/
structure BOps where
  g : Guard
  d : Dest
  off : BitVec 32
  deriving DecidableEq, Repr

/-- The queue tests of R132. -/
inductive QTest where
  | ready (q : Strm)
  | space (q : Strm)
  | vready
  | vspace
  | exited (q : Strm)
  deriving DecidableEq, Repr

/-- Directions of FCVT (R114); a memory-format code stands in SRCB. -/
inductive CvtKind where
  | itof | utof
  | ftoi (r : Rnd)
  | ftou (r : Rnd)
  | tomem (f : BitVec 8) (r : Rnd)
  | frommem (f : BitVec 8)
  deriving DecidableEq, Repr

/-- The address part of F-M (R44): base, and index or wide byte offset. -/
structure MAddr where
  base : Src
  idx : Src
  deriving DecidableEq, Repr

/-- A scalar load (LD, LDA). -/
structure LdOps where
  g : Guard
  d : Dest
  at_ : MAddr
  scope : Scope
  fe : Fe
  zf : Bool
  sz : BitVec 2
  deriving DecidableEq, Repr

/-- A vector load (VLD, VLDX); `lw` selects 256 W18 lanes. -/
structure VldOps where
  g : Guard
  push : Bool
  at_ : MAddr
  fmt : BitVec 5
  scope : Scope
  fe : Fe
  zf : Bool
  lw : Bool
  deriving DecidableEq, Repr

/-- A scalar store (ST, STL). -/
structure StOps where
  g : Guard
  data : Src
  at_ : MAddr
  scope : Scope
  fe : Fe
  sz : BitVec 2
  deriving DecidableEq, Repr

/-- A vector store (VST, VSTX, the row form of GST). -/
structure VstOps where
  g : Guard
  at_ : MAddr
  fmt : BitVec 5
  rnd : Rnd
  scope : Scope
  fe : Fe
  lw : Bool
  deriving DecidableEq, Repr

/-- GST: a scalar from s or a, or a row (R159, R167). -/
inductive GstOps where
  | scalar (g : Guard) (data : Src) (at_ : MAddr) (sz : BitVec 2)
  | row (g : Guard) (at_ : MAddr) (fmt : BitVec 5) (rnd : Rnd) (lw : Bool)
  deriving DecidableEq, Repr

/-- FESET and FECLR (R170): count source and address. -/
structure FeOps where
  g : Guard
  cnt : Src
  at_ : MAddr
  deriving DecidableEq, Repr

/-- L1WB and L1INV: one line, or every line (R170). -/
structure L1Ops where
  g : Guard
  all : Bool
  at_ : MAddr
  deriving DecidableEq, Repr

/-- Kinds of FENCE (R194). -/
inductive FenceKind where
  | full | acq | rel
  deriving DecidableEq, Repr

/-- An integer atomic (R198): DST is operand and destination. -/
structure AOps where
  g : Guard
  d : Dest
  at_ : MAddr
  scope : Scope
  dbl : Bool
  deriving DecidableEq, Repr

/-- AFADD: FMT 0, 1 or 2 (R198). -/
structure AfOps where
  g : Guard
  d : Dest
  at_ : MAddr
  scope : Scope
  fmt : BitVec 2
  rnd : Rnd
  deriving DecidableEq, Repr

/-- A vector instruction of majors 0x60 and 0x61 (R211): guard, delivery, sources, LW and governing mask. -/
structure VOps where
  g : Guard
  d : Dest
  a : Src
  b : Src
  lw : Bool
  k : BitVec 4
  deriving DecidableEq, Repr

/-- A vector instruction with one source. -/
structure VOps1 where
  g : Guard
  d : Dest
  a : Src
  lw : Bool
  k : BitVec 4
  deriving DecidableEq, Repr

/-- Selectors of VEXT and VINS (R215, R216). -/
inductive LaneSel where
  | img | flt | int
  deriving DecidableEq, Repr

/-- Directions of VROT (R215). -/
inductive RotDir where
  | rot | dn | up
  deriving DecidableEq, Repr

/-- Forms of VCVT (R219); `hi` selects the upper half of the W18 row. -/
inductive VCvtKind where
  | f36f18 (hi : Bool) | f18f36 (hi : Bool)
  | f36i36 (r : Rnd) | i36f36
  | f18i18 (r : Rnd) | i18f18
  | i36i18 (hi : Bool) | i18i36 (hi : Bool)
  deriving DecidableEq, Repr

/-- Formats named by X of VQNT, VDQ and VBMAX (R220). -/
inductive QFmt where
  | bf16 | fp16 | e4m3 | e5m2 | e2m3 | e3m2 | e2m1 | int8
  | fd (n : BitVec 3)
  deriving DecidableEq, Repr

/-- Operations of the reduction slot and of VSCAN (R227, R229). -/
inductive RedOp where
  | sum | max | min
  deriving DecidableEq, Repr

/-- The reset values of VRMOV `.clr` (R228). -/
inductive ClrVal where
  | z | ninf | pinf
  deriving DecidableEq, Repr

/-- The special functions of R231. -/
inductive SfuFn where
  | exp2 | log2 | rcp | rsqrt | sqrt | tanh | sigmoid | gelu | silu | softplus
  deriving DecidableEq, Repr

/-- Format-table selection of an array command: entry FT, or entry l0 mod 16 (R251). -/
inductive FtSel where
  | ft (n : BitVec 4)
  | ftl
  deriving DecidableEq, Repr

/-- MMA (R256). -/
structure MmaOps where
  g : Guard
  sel : FtSel
  acc : Bool
  a : Src
  b : Src
  ta : Bool
  tb : Bool
  ks : BitVec 7
  deriving DecidableEq, Repr

/-- MMAS: N-of-8 sparse A (R254, R256). -/
structure MmasOps where
  g : Guard
  sel : FtSel
  acc : Bool
  a : Src
  b : Src
  tb : Bool
  sp : BitVec 2
  ks : BitVec 7
  deriving DecidableEq, Repr

/-- A command with a non-blocking form: `nb = some p` writes its outcome to predicate p (R45). -/
structure COps where
  g : Guard
  d : Dest
  a : Src
  b : Src
  nb : Option (BitVec 3)
  deriving DecidableEq, Repr

/-- A command that names a timeline counter. -/
structure CtrOps where
  g : Guard
  d : Dest
  ctr : BitVec 4
  a : Src
  b : Src
  nb : Option (BitVec 3)
  deriving DecidableEq, Repr

/-- TLRD selectors (R200). -/
inductive TlSel where
  | done | iss | errn | acqs
  deriving DecidableEq, Repr

/-- STEST conditions (R168). -/
inductive STest where
  | bound | ready | done
  deriving DecidableEq, Repr

/-- A custom-major word: its fields reach the routine unchanged (R46, R271). -/
structure CustomOps where
  major : BitVec 8
  sub : BitVec 4
  g : Guard
  dmask : BitVec 6
  dst : BitVec 8
  srca : BitVec 8
  srcb : BitVec 8
  mod : BitVec 16
  lit : Option (BitVec 32)
  deriving DecidableEq, Repr

/-- What another module asks of this one (R389, R334): a read, a write of bytes, or an atomic on n bytes. -/
inductive RemoteOp where
  | read (n : Nat)
  | write (bytes : List Byte)
  | atomic (sub : Nat) (fmt : Nat) (rnd : Rnd) (n : Nat) (d : Word) (cmp : Word)
  deriving DecidableEq, Repr

/-- What an SPDM request on the DOE mailbox asks (R419). -/
inductive SpdmOp where
  /-- get measurements -/
  | measurements
  /-- establish a session -/
  | session
  /-- install a tenant key in a key slot (R378), inside a session -/
  | tenantKey (slot : Nat)
  /-- install a partition key in a key id (R390), inside a session -/
  | partitionKey (key : Nat)
  deriving DecidableEq, Repr

/-- Where an uncorrectable word stands: at a LOCAL address in HBM or in the memory-side cache, or in the scratchpad of a core or the
cluster scratchpad of a bay at an offset (R158, R385, R393). -/
inductive ErrAt where
  | hbm (loc : Nat)
  | cache (loc : Nat)
  | spad (core off : Nat)
  | cluster (bay off : Nat)
  deriving DecidableEq, Repr

/-- The instruction set: the words of R47, then the machine's own events. -/
inductive Instr where
  -- major 0x00
  | nop (g : Guard)
  | trap (g : Guard) (b : Src)
  | bkpt (g : Guard)
  | yield (g : Guard) (n : BitVec 3)
  | exit (g : Guard)
  | rdv (g : Guard)
  | rendezvousRelease (core : Nat)
  | pmark (g : Guard) (b : Src)
  | sysrd (g : Guard) (d : Dest) (srn : BitVec 7)
  | syswr (g : Guard) (srn : BitVec 7) (b : Src)
  | cntrd (o : ROps1) (die : Bool)
  -- major 0x01
  | br (o : BOps)
  | brl (o : BOps)
  | bri (g : Guard) (a : Src) (b : Src)
  | bril (o : ROps)
  -- major 0x02
  | loop (g : Guard) (l : BitVec 2) (n : Src) (len : BitVec 16)
  | mloop (g : Guard) (l : BitVec 2) (n : Src) (stg : BitVec 3) (rv : BitVec 5) (len : BitVec 16)
  | lbrk (g : Guard) (l : BitVec 2)
  | rep (g : Guard) (n : BitVec 16) (sd : Bool) (sa : Bool) (sb : Bool) (stride : BitVec 2)
  -- major 0x03
  | pand (o : POps)
  | por (o : POps)
  | pxor (o : POps)
  | pandn (o : POps)
  | pmov (g : Guard) (d : Dest) (na : Bool) (pa : BitVec 3)
  | qtest (g : Guard) (d : Dest) (t : QTest)
  -- major 0x10
  | add (o : ROps)
  | sub (o : ROps)
  | mul (o : ROps)
  | mulh (o : ROps)
  | mulhu (o : ROps)
  | div (o : ROps)
  | divu (o : ROps)
  | rem (o : ROps)
  | remu (o : ROps)
  | madd (o : ROps)
  | lea (o : ROps) (sh : BitVec 4)
  -- major 0x11
  | and (o : ROps)
  | or (o : ROps)
  | xor (o : ROps)
  | andn (o : ROps)
  | shl (o : ROps)
  | shr (o : ROps)
  | sra (o : ROps)
  | rot (o : ROps)
  | clz (o : ROps1)
  | popc (o : ROps1)
  | bext (o : ROps) (len : BitVec 7)
  | bins (o : ROps) (len : BitVec 7)
  -- major 0x12
  | min (o : ROps)
  | max (o : ROps)
  | minu (o : ROps)
  | maxu (o : ROps)
  | sel (o : ROps) (neg : Bool) (p : BitVec 3)
  | mov (g : Guard) (d : Dest) (b : Src)
  -- major 0x13
  | cmp (o : ROps) (c : Cond)
  -- major 0x14
  | fadd (o : ROps)
  | fsub (o : ROps)
  | fmul (o : ROps)
  | ffma (o : ROps)
  | fmin (o : ROps)
  | fmax (o : ROps)
  | fcmp (o : ROps) (c : Cond) (x : Bool)
  | fcvt (o : ROps1) (k : CvtKind)
  | frnd (o : ROps1) (r : Rnd)
  -- majors 0x30 and 0x31
  | ld (o : LdOps)
  | vld (o : VldOps)
  | vldx (o : VldOps)
  | pref (g : Guard) (at_ : MAddr) (scope : Scope) (mc : Bool)
  | st (o : StOps)
  | vst (o : VstOps)
  | vstx (o : VstOps)
  | gst (o : GstOps)
  | galleryArrival (id : Nat)
  -- major 0x32
  | sbind (g : Guard) (m : BitVec 3) (b : Src) (data : Bool)
  | streamBlockFetch (core : Nat) (str : Strm) (m : BitVec 3)
  | snext (g : Guard) (m : BitVec 3) (b : Src)
  | stest (g : Guard) (d : Dest) (m : BitVec 3) (c : STest)
  | sdrop (g : Guard) (m : BitVec 3)
  -- major 0x33
  | tlook (g : Guard) (d : Dest) (b : Src)
  | tset (g : Guard) (a : Src) (b : Src)
  | tinv (g : Guard) (all : Bool) (a : Src)
  -- major 0x34
  | feset (o : FeOps)
  | feclr (o : FeOps)
  | fetest (g : Guard) (d : Dest) (at_ : MAddr)
  | l1wb (o : L1Ops)
  | l1inv (o : L1Ops)
  -- majors 0x38 to 0x3B
  | fence (g : Guard) (k : FenceKind) (scope : Scope)
  | aadd (o : AOps)
  | amin (o : AOps)
  | amax (o : AOps)
  | aand (o : AOps)
  | aor (o : AOps)
  | axor (o : AOps)
  | axch (o : AOps)
  | acas (o : AOps)
  | afadd (o : AfOps)
  | lda (o : LdOps)
  | stl (o : StOps)
  | waitt (o : CtrOps)
  | tlrd (g : Guard) (d : Dest) (ctr : BitVec 4) (sel : TlSel)
  | tladv (g : Guard) (d : Dest) (ctr : BitVec 4) (b : Src) (scope : Scope)
  -- major 0x60
  | vadd (o : VOps)
  | vsub (o : VOps)
  | vmul (o : VOps)
  | vfma (o : VOps)
  | vmin (o : VOps) (int : Bool)
  | vmax (o : VOps) (int : Bool)
  | vabs (o : VOps1) (int : Bool)
  | vneg (o : VOps1) (int : Bool)
  -- major 0x61
  | vand (o : VOps)
  | vor (o : VOps)
  | vxor (o : VOps)
  | vshl (o : VOps)
  | vshr (o : VOps) (sra : Bool)
  | viadd (o : VOps)
  | vimul (o : VOps)
  -- major 0x62
  | vmov (o : VOps1) (int : Bool)
  | vbcst (o : VOps)
  | vsel (o : VOps) (int : Bool)
  | vshuf (o : VOps)
  | vrot (o : VOps) (dir : RotDir)
  | vext (o : VOps) (sel : LaneSel)
  | vins (o : VOps) (sel : LaneSel)
  -- major 0x63
  | vcmp (o : VOps) (c : Cond) (int : Bool) (x : Bool)
  | kand (g : Guard) (d : Dest) (ka : BitVec 4) (kb : BitVec 4)
  | kor (g : Guard) (d : Dest) (ka : BitVec 4) (kb : BitVec 4)
  | knot (g : Guard) (d : Dest) (ka : BitVec 4)
  | kpopc (g : Guard) (d : Dest) (ka : BitVec 4) (lw : Bool) (k : BitVec 4)
  -- major 0x64
  | vcvt (o : ROps1) (k : BitVec 4) (c : VCvtKind)
  | vqnt (o : ROps) (k : BitVec 4) (f : QFmt) (r : Rnd)
  | vdq (o : ROps) (k : BitVec 4) (f : QFmt)
  | vbmax (o : ROps1) (k : BitVec 4) (f : QFmt)
  -- major 0x65
  | vred (g : Guard) (a : Src) (lw : Bool) (k : BitVec 4) (rl : BitVec 2) (op : RedOp) (int : Bool)
  | vredLanding (core : Nat)
  | vrmov (g : Guard) (d : Dest) (rl : BitVec 2) (clr : Option ClrVal)
  | vscan (o : VOps1) (op : RedOp) (int : Bool) (excl : Bool)
  -- majors 0x66 and 0x67
  | vsfu (o : VOps1) (f : SfuFn)
  | vsmax (o : VOps1)
  | vrng (g : Guard) (d : Dest) (unif : Bool) (lw : Bool) (k : BitVec 4)
  | noiseGrant (bay : Nat)
  | resultDelivery (core : Nat) (str : Strm)
  -- majors 0x80 to 0x83
  | lease (g : Guard) (nb : Option (BitVec 3))
  | leaseGrant (bay : Nat)
  | lrel (g : Guard)
  | mma (o : MmaOps)
  | mmas (o : MmasOps)
  | mzero (g : Guard) (acc : Bool)
  | kStepEntry (bay : Nat)
  | sparsityStallTimeout (bay : Nat)
  | arrayCommandComplete (core : Nat)
  | mfmt (g : Guard) (n : BitVec 4) (b : Src)
  | mscl (g : Guard) (n : BitVec 3) (flt : Bool) (b : Src)
  | msq (g : Guard) (n : BitVec 2) (a : Src) (b : Src)
  | mret (g : Guard) (d : Dest) (ctr : BitVec 4) (acc : Bool) (a : Src) (b : Src)
  | retirementStart (core : Nat)
  | retirementComplete (core : Nat)
  -- majors 0x90 and 0xC0 to 0xFF
  | wcsld (o : COps) (n : BitVec 8)
  | wbind (g : Guard) (a : Src) (b : Src)
  | wunb (g : Guard) (all : Bool) (a : Src)
  | wcsrd (g : Guard) (a : Src) (b : Src) (n : BitVec 8)
  | wstat (g : Guard) (d : Dest) (b : Src) (sel : BitVec 2)
  | customOpcode (o : CustomOps)
  | microStep (core : Nat)
  | pageFetch (core : Nat)
  -- major 0xA0
  | ltag (o : COps)
  | lfree (g : Guard) (a : Src)
  | ldesc (g : Guard) (a : Src) (b : Src)
  | lsend (g : Guard) (row : BitVec 7) (b : Src) (nb : Option (BitVec 3))
  | lstat (g : Guard) (d : Dest) (a : Src)
  | lorph (g : Guard) (d : Dest) (a : Src)
  | fragmentArrival (id : Nat)
  | fragmentAnswer (id : Nat)
  | fragmentResend (id : Nat)
  | overflowReadback (id : Nat)
  | landingDelivery (id : Nat)
  | orphanTimeout (id : Nat)
  -- major 0xA8 and the chain entries
  | cego (o : CtrOps)
  | cestop (g : Guard)
  | cestat (g : Guard) (d : Dest)
  | chainCopy (core : Nat)
  | chainLoop (core : Nat)
  | chainIf (core : Nat)
  | chainWait (core : Nat)
  | chainSignal (core : Nat)
  | chainNotify (core : Nat)
  | chainEnd (core : Nat)
  -- major 0xA9 and the collective steps
  | ctab (g : Guard) (a : Src) (b : Src)
  | ctile (g : Guard) (d : Dest) (ctr : BitVec 4) (a : Src) (b : Src)
  | tileFireComplete (ctx : Nat) (tile : Nat)
  | cringSet (g : Guard) (a : Src) (b : Src)
  | cringDone (g : Guard) (d : Dest) (a : Src)
  | cringStat (g : Guard) (d : Dest) (a : Src)
  | rslotReq (g : Guard) (d : Dest) (a : Src) (b : Src)
  | rslotRel (g : Guard) (a : Src)
  | rslotAnswer (ctx : Nat) (ch : Nat) (slot : Option (BitVec 16))
  | stepSend (ctx : Nat) (ch : Nat)
  | stepRecv (ctx : Nat) (ch : Nat)
  | stepReduce (ctx : Nat) (ch : Nat)
  | stepWaitf (ctx : Nat) (ch : Nat)
  | stepNext (ctx : Nat) (ch : Nat)
  | fabricAckTimeout (ctx : Nat) (ch : Nat)
  | stepWaitTimeout (ctx : Nat) (ch : Nat)
  | staggerRelease (ctx : Nat) (ch : Nat)
  -- memory and waiting
  | instructionFetch (core : Nat) (str : Strm)
  | memoryAccessPerformed (core : Nat) (str : Strm)
  | lateFault (core : Nat) (str : Strm)
  | storeAck (core : Nat) (id : Nat)
  | homeRequestApply (base : Nat)
  | queueDeadlock (core : Nat) (str : Strm)
  | timelineWaitTimeout (core : Nat) (str : Strm)
  | fullEmptyTimeout (core : Nat) (str : Strm)
  | drawWaitTimeout (core : Nat) (str : Strm)
  | wcsldWaitTimeout (core : Nat)
  | landingCreditTimeout (core : Nat)
  -- launch
  | jobStart (core : Nat)
  | jobCompletion (core : Nat)
  | operatorRecord (q : Nat)
  | collectiveRecord (q : Nat)
  | waitRecord (q : Nat)
  | waitRecordPoll (rec : Nat)
  | signalRecord (q : Nat)
  | tiletabRecord (q : Nat)
  | csimageRecord (q : Nat)
  | rslotRecord (q : Nat)
  | recordReady (rec : Nat)
  | chunkHandout (part : Nat)
  | recordCompletion (rec : Nat)
  | timeSliceExpiry (core : Nat)
  -- faults and contexts
  | newelElection (part : Nat)
  | preemptionStopComplete (core : Nat)
  | contextRestore (core : Nat)
  | yieldDeadline (ctx : Nat)
  | refreshWindowEnd (base : Nat)
  -- main memory
  | shootdownComplete (fn : Nat)
  | migrationCopy (fn : Nat)
  -- partitions, host and firmware
  | repartitionDone
  -- power and observation
  | governorInterval
  | profilingSliceEnd (part : Nat)
  | traceRecordWrite (core : Nat)
  -- asked of the module from outside: the host, firmware, other modules, faults of the hardware
  | fabricLineArrival (pa : Word) (line : BitVec 1024)
  | fabricLinkFailure (port : Nat)
  | staggerMessage (group : BitVec 16) (nslot : Nat) (step : Nat)
  | remoteRequest (pa : Word) (op : RemoteOp)
  | noiseHealthFail (bay : Nat)
  | kick (fn : Nat) (q : Nat) (tail : BitVec 16)
  | dieFence (die : Nat)
  | boundaryFailure (dieA : Nat) (dieB : Nat)
  | faultReply (fn : Nat)
  | archStateError (core : Nat) (detail : Word)
  | hbmUncorrectable (loc : ErrAt)
  | correctableError (unit : BitVec 8) (die : BitVec 16) (loc : BitVec 32) (addr : Word)
  | rowActivation (base : Nat) (bank : Nat) (row : Nat) (key : BitVec 4)
  | tsdGo (fn : Nat)
  | migStart (fn : Nat)
  | migEnd (fn : Nat)
  | migAbort (fn : Nat)
  | cxlMemRead (fn : Nat) (off : Nat) (n : Nat)
  | cxlMemWrite (fn : Nat) (off : Nat) (bytes : List Byte)
  | pcfgGo (new : BitVec 3)
  | ctxCreate (fn : Nat) (cmd : BitVec 512)
  | ctxDestroy (fn : Nat) (cmd : BitVec 512)
  | qCreate (fn : Nat) (cmd : BitVec 512)
  | qDestroy (fn : Nat) (cmd : BitVec 512)
  | qPolicy (fn : Nat) (cmd : BitVec 512)
  | ctxPolicy (fn : Nat) (cmd : BitVec 512)
  | preempt (fn : Nat) (cmd : BitVec 512)
  | ctxResume (fn : Nat) (cmd : BitVec 512)
  | vfAssign (fn : Nat) (cmd : BitVec 512)
  | modnum (fn : Nat) (cmd : BitVec 512)
  | fwreg (fn : Nat) (cmd : BitVec 512)
  | pwrstagSend (fn : Nat) (cmd : BitVec 512)
  | cxlwin (fn : Nat) (cmd : BitVec 512)
  | keyid (fn : Nat) (cmd : BitVec 512)
  | tdispLockInterface (fn : Nat)
  | spdmRequest (op : SpdmOp)
  | moduleReset (code : BitVec 8)
  | hostLinkTraining (lanes : Nat) (rate : Nat)
  | prfReq (fn : Nat)
  | prfRel (fn : Nat)
  | dbgStop (fn : Nat)
  | dbgResume (fn : Nat)
  | registerWrite (fn : Nat) (off : Nat) (val : Word)
  | noiseHealthRecover (bay : Nat)
  | functionReset (fn : Nat)
  | tdispStartInterface (fn : Nat)
  | tdispStopInterface (fn : Nat)
  deriving DecidableEq, Repr

end Sys2Proof
end

