-- ==== Sys2Proof/WellFormed.lean ====
section
/-!
DEFINITION. Well-formed instruction words: what every operand position, delivery and modifier may hold on each stream (R36 to R48 and each entry's own limits).
-/

namespace Sys2Proof

/-- PRED = 0b1000 is reserved (R36). -/
def Guard.wf (g : Guard) : Bool := !(g.neg && g.p == 0)

/-- The scalar source codes of R106 on a stream: no lane index, no v register, no queue of the stream itself, m codes on LD
and ST only. -/
def Src.isScalar (str : Strm) : Src → Bool
  | .m _ => str == .ld || str == .st
  | .pop q => q != str
  | .peek q => q != str
  | .lane => false
  | .v _ => false
  | .imm _ => false
  | .lit _ => false
  | _ => true

/-- The codes of a vector operand position (R208). -/
def Src.isVec : Src → Bool
  | .m _ => false
  | .pop q => q == .ld
  | .peek q => q == .ld
  | .imm _ => false
  | .lit _ => false
  | _ => true

/-- A vector register or the vector queue (R215). -/
def Src.isVecReg : Src → Bool
  | .v _ => true
  | .pop q => q == .ld
  | .peek q => q == .ld
  | _ => false

/-- Store data: s, a or a small constant (R159). -/
def Src.isData : Src → Bool
  | .s _ => true
  | .a _ => true
  | .const _ => true
  | _ => false

/-- An operand of an array command: a vector row or an even scalar register (R45). -/
def Src.isArr : Src → Bool
  | .v _ => true
  | .s n => n.getLsbD 0 == false
  | _ => false

/-- A scalar source B that may be the wide literal (R41) or IMM8 (R43). -/
def Src.isScalarB (str : Strm) (wide imm : Bool) : Src → Bool
  | .lit _ => wide
  | .imm _ => imm
  | x => x.isScalar str

/-- A vector source B that may be the wide literal (R48). -/
def Src.isVecB (wide : Bool) : Src → Bool
  | .lit _ => wide
  | x => x.isVec

/-- The scalar-queue number bit of a stream in `Dest.qs` (R39, R94). -/
def Strm.num : Strm → Nat
  | .sc => 0
  | .ld => 1
  | .cx => 2
  | .st => 3

/-- No result: DMASK 0 (R39). -/
def Dest.isNone (d : Dest) : Bool := d.reg == none && d.qs == 0

/-- A scalar result (R38, R39): s or a, and scalar queues other than the stream's own. -/
def Dest.isScalar (str : Strm) (d : Dest) : Bool :=
  (match d.reg with
   | none => true
   | some (.s _) => true
   | some (.a _) => true
   | _ => false)
  && !d.qs.getLsbD str.num && !d.qs.getLsbD 4

/-- A predicate result (R38, R110). -/
def Dest.isPred (str : Strm) (d : Dest) : Bool :=
  (match d.reg with
   | none => true
   | some (.p _) => true
   | _ => false)
  && !d.qs.getLsbD str.num && !d.qs.getLsbD 4

/-- A vector result on CX (R211): v, and the outgoing vector queue. -/
def Dest.isVec (d : Dest) : Bool :=
  (match d.reg with
   | none => true
   | some (.v _) => true
   | _ => false)
  && (d.qs &&& 15 == 0)

/-- A lane-mask result (R211): a mask, and no queue. -/
def Dest.isMask (d : Dest) : Bool :=
  (match d.reg with
   | none => true
   | some (.k _) => true
   | _ => false)
  && d.qs == 0

def ROps.wf (str : Strm) (wide : Bool) (o : ROps) : Bool :=
  o.g.wf && o.d.isScalar str && o.a.isScalar str && o.b.isScalarB str wide wide

/-- `ROps` of an instruction that reads DST (R106). -/
def ROps.wfD (str : Strm) (o : ROps) : Bool := o.wf str true && o.d.reg.isSome

def ROps1.wf (str : Strm) (o : ROps1) : Bool := o.g.wf && o.d.isScalar str && o.a.isScalar str

def POps.wf (str : Strm) (o : POps) : Bool := o.g.wf && o.d.isPred str

def BOps.wf (str : Strm) (o : BOps) : Bool := o.g.wf && o.d.isScalar str

def MAddr.wf (str : Strm) (o : MAddr) : Bool := o.base.isScalar str && o.idx.isScalarB str true false

/-- Codes 25 to 31 are reserved (R44). -/
def fmtOk (f : BitVec 5) : Bool := f.toNat < 25

/-- Memory formats of 8 bits or more, as far as decode knows (R159). -/
def fmtWide (f : BitVec 5) : Bool :=
  fmtOk f && !(f == 5 || f == 6 || f == 7 || f == 10 || f == 11)

/-- RND must be 0 on image stores (R78). -/
def rndOk (f : BitVec 5) (r : Rnd) : Bool := !(f == 15 || f == 16) || r == .rne

def LdOps.wf (str : Strm) (o : LdOps) : Bool :=
  (str == .ld || str == .sc) && o.g.wf && o.d.isScalar str && o.at_.wf str

def VldOps.wf (str : Strm) (o : VldOps) : Bool :=
  str == .ld && o.g.wf && o.at_.wf str && fmtOk o.fmt

def StOps.wf (str : Strm) (o : StOps) : Bool :=
  (str == .st || str == .sc) && o.g.wf && o.data.isData && o.at_.wf str && o.fe != .fec

def VstOps.wf (str : Strm) (o : VstOps) : Bool :=
  str == .st && o.g.wf && o.at_.wf str && fmtOk o.fmt && rndOk o.fmt o.rnd && o.fe != .fec

def GstOps.wf (str : Strm) : GstOps → Bool
  | .scalar g data at_ _ =>
    str == .st && g.wf && at_.wf str && (match data with
      | .s _ => true
      | .a _ => true
      | _ => false)
  | .row g at_ fmt rnd _ => str == .st && g.wf && at_.wf str && fmtOk fmt && rndOk fmt rnd

def FeOps.wf (str : Strm) (o : FeOps) : Bool :=
  str == .ld && o.g.wf && o.cnt.isData && o.at_.wf str

/-- The `.all` forms have SRCA, SRCB and the literal 0 (R170). -/
def L1Ops.wf (str : Strm) (o : L1Ops) : Bool :=
  (str == .ld || str == .st) && o.g.wf && o.at_.wf str
  && (!o.all || (o.at_.base == .s 0 && (o.at_.idx == .s 0 || o.at_.idx == .lit 0)))

def AOps.wf (str : Strm) (o : AOps) : Bool :=
  str == .sc && o.g.wf && o.d.isScalar str && o.d.reg.isSome && o.at_.wf str

def AfOps.wf (str : Strm) (o : AfOps) : Bool :=
  str == .sc && o.g.wf && o.d.isScalar str && o.at_.wf str && o.fmt != 3
  && (match o.d.reg with
      | some (.s _) => true
      | _ => false)

def VOps.wf (str : Strm) (o : VOps) : Bool :=
  str == .cx && o.g.wf && o.d.isVec && o.a.isVec && o.b.isVecB true

def VOps1.wf (str : Strm) (o : VOps1) : Bool :=
  str == .cx && o.g.wf && o.d.isVec && o.a.isVec

/-- F-C: PD is 0 where NB = 0; a source B that may be the literal. -/
def COps.wf (str : Strm) (o : COps) : Bool :=
  o.g.wf && o.d.isScalar str && o.a.isScalar str && o.b.isScalarB str true false

def CtrOps.wf (str : Strm) (o : CtrOps) : Bool :=
  o.g.wf && o.d.isScalar str && o.a.isScalar str && o.b.isScalarB str true false

def VCvtKind.isWiden : VCvtKind → Bool
  | .f18f36 _ => true
  | .i18i36 _ => true
  | _ => false

/-- Formats of FCVT X = 4 and 5: 0 to 14, 16 and 17 to 24 (R114). -/
def cvtFmtOk (f : BitVec 8) : Bool := f.toNat < 25 && f != 15

def CvtKind.wf : CvtKind → Bool
  | .tomem f r => cvtFmtOk f && (f != 16 || r == .rne)
  | .frommem f => cvtFmtOk f
  | _ => true

/-- The number of a system register that SYSRD may name (R117 and the chapters' tables). -/
def srnRead (n : BitVec 7) : Bool :=
  let k := n.toNat
  k == 0x00 || k == 0x01 || (0x08 ≤ k && k ≤ 0x15) || k == 0x18 || k == 0x19 || (0x20 ≤ k && k ≤ 0x38)
  || (0x40 ≤ k && k ≤ 0x44) || (0x50 ≤ k && k ≤ 0x53) || k == 0x58 || k == 0x59 || (0x60 ≤ k && k ≤ 0x6F)

/-- A register that the owning stream may write: asr, rngc, rngp (R117, R235). -/
def srnOwn (n : BitVec 7) : Bool :=
  let k := n.toNat
  k == 0x00 || k == 0x18 || k == 0x19

/-- A register that only SC may write (R117, R284, R428, R436, R439). -/
def srnSc (n : BitVec 7) : Bool :=
  let k := n.toNat
  (0x08 ≤ k && k ≤ 0x0F) || (0x40 ≤ k && k ≤ 0x44) || (0x50 ≤ k && k ≤ 0x53) || k == 0x58 || k == 0x59
  || (0x60 ≤ k && k ≤ 0x6F)

/-- The queue test of R132 names a queue its stream may test. -/
def QTest.wf (str : Strm) : QTest → Bool
  | .ready q => q != str
  | .space q => q != str
  | .vready => str == .cx
  | .vspace => str == .ld || str == .cx
  | .exited q => q != str

/-- Conditions of FCMP and VCMP: the first six; `.x` with eq and ne only (R113, R217). -/
def condX (c : Cond) (x : Bool) : Bool :=
  match c with
  | .eq => true
  | .ne => true
  | .lt => !x
  | .le => !x
  | .gt => !x
  | .ge => !x
  | _ => false

/-- A lease.nb names p1 to p7 (R241). -/
def leaseNb : Option (BitVec 3) → Bool
  | none => true
  | some p => p != 0

/-- An instruction word that stream `str` may issue. The machine's events are not words: they are not well-formed for any
stream. -/
def Instr.wf (str : Strm) : Instr → Bool
  | .nop g => g.wf
  | .trap g b => g.wf && b.isScalarB str true true
  | .bkpt g => g.wf
  | .yield g _ => g.wf
  | .exit g => g.wf
  | .rdv g => g.wf
  | .pmark g b => g.wf && b.isScalarB str true true
  | .sysrd g d srn => g.wf && d.isScalar str && srnRead srn
  | .syswr g srn b => g.wf && b.isScalarB str true true && (srnOwn srn || (srnSc srn && str == .sc))
  | .cntrd o _ => o.wf str
  | .br o => o.wf str && o.d.isNone
  | .brl o => o.wf str
  | .bri g a b => g.wf && a.isScalar str && b.isScalar str
  | .bril o => o.wf str false
  | .loop g _ n len => g.wf && n.isScalar str && 4 ≤ len.toNat
  | .mloop g _ n stg rv len =>
    g.wf && n.isScalar str && stg != 7 && rv.toNat ≤ 16 && (rv == 0 || str == .cx) && 4 ≤ len.toNat
  | .lbrk g _ => g.wf
  | .rep g n sd sa sb stride => g.wf && 1 ≤ n.toNat && n.toNat ≤ 64 && (sd || sa || sb || stride == 0)
  | .pand o => o.wf str
  | .por o => o.wf str
  | .pxor o => o.wf str
  | .pandn o => o.wf str
  | .pmov g d _ _ => g.wf && d.isPred str
  | .qtest g d t => g.wf && d.isPred str && t.wf str
  | .add o => o.wf str true
  | .sub o => o.wf str true
  | .mul o => o.wf str true
  | .mulh o => o.wf str true
  | .mulhu o => o.wf str true
  | .div o => o.wf str true
  | .divu o => o.wf str true
  | .rem o => o.wf str true
  | .remu o => o.wf str true
  | .madd o => o.wfD str
  | .lea o _ => o.wf str true
  | .and o => o.wf str true
  | .or o => o.wf str true
  | .xor o => o.wf str true
  | .andn o => o.wf str true
  | .shl o => o.wf str true
  | .shr o => o.wf str true
  | .sra o => o.wf str true
  | .rot o => o.wf str true
  | .clz o => o.wf str
  | .popc o => o.wf str
  | .bext o len => o.wf str true && 1 ≤ len.toNat && len.toNat ≤ 64
  | .bins o len => o.wfD str && 1 ≤ len.toNat && len.toNat ≤ 64
  | .min o => o.wf str true
  | .max o => o.wf str true
  | .minu o => o.wf str true
  | .maxu o => o.wf str true
  | .sel o _ _ => o.wf str true
  | .mov g d b => g.wf && d.isScalar str && b.isScalarB str true true
  | .cmp o _ => o.g.wf && o.d.isPred str && o.a.isScalar str && o.b.isScalarB str true true
  | .fadd o => o.wf str true
  | .fsub o => o.wf str true
  | .fmul o => o.wf str true
  | .ffma o => o.wfD str
  | .fmin o => o.wf str true
  | .fmax o => o.wf str true
  | .fcmp o c x => o.g.wf && o.d.isPred str && o.a.isScalar str && o.b.isScalarB str true true && condX c x
  | .fcvt o k => o.wf str && k.wf
  | .frnd o _ => o.wf str
  | .ld o => o.wf str
  | .vld o => o.wf str
  | .vldx o => o.wf str && fmtWide o.fmt && o.fe == .none
  | .pref g at_ _ _ => str == .ld && g.wf && at_.wf str
  | .st o => o.wf str
  | .vst o => o.wf str
  | .vstx o => o.wf str && fmtWide o.fmt && o.fe == .none
  | .gst o => o.wf str
  | .sbind g _ b data => (str == .ld || (str == .st && !data)) && g.wf && b.isScalarB str true true
  | .snext g _ b => (str == .ld || str == .st) && g.wf && b.isScalar str
  | .stest g d _ _ => (str == .ld || str == .st) && g.wf && d.isPred str
  | .sdrop g _ => (str == .ld || str == .st) && g.wf
  | .tlook g d b => str == .ld && g.wf && d.isScalar str && b.isScalarB str true true
  | .tset g a b => str == .ld && g.wf && a.isScalar str && b.isScalarB str true true
  | .tinv g all a => str == .ld && g.wf && a.isScalar str && (!all || a == .s 0)
  | .feset o => o.wf str
  | .feclr o => o.wf str
  | .fetest g d at_ => str == .ld && g.wf && d.isPred str && at_.wf str
  | .l1wb o => o.wf str
  | .l1inv o => o.wf str
  | .fence g _ _ => g.wf
  | .aadd o => o.wf str
  | .amin o => o.wf str
  | .amax o => o.wf str
  | .aand o => o.wf str
  | .aor o => o.wf str
  | .axor o => o.wf str
  | .axch o => o.wf str
  | .acas o => o.wf str && (match o.d.reg with
      | some (.s n) => n.getLsbD 0 == false
      | _ => false)
  | .afadd o => o.wf str
  | .lda o => o.wf str && o.fe == .none
  | .stl o => o.wf str && o.fe == .none
  | .waitt o => o.wf str && o.d.isNone
  | .tlrd g d _ _ => g.wf && d.isScalar str
  | .tladv g d _ b _ => g.wf && d.isScalar str && b.isScalarB str true false
  | .vadd o => o.wf str
  | .vsub o => o.wf str
  | .vmul o => o.wf str
  | .vfma o => o.wf str && o.d.reg.isSome
  | .vmin o _ => o.wf str
  | .vmax o _ => o.wf str
  | .vabs o _ => o.wf str
  | .vneg o _ => o.wf str
  | .vand o => o.wf str
  | .vor o => o.wf str
  | .vxor o => o.wf str
  | .vshl o => o.wf str
  | .vshr o _ => o.wf str
  | .viadd o => o.wf str
  | .vimul o => o.wf str
  | .vmov o _ => o.wf str
  | .vbcst o => str == .cx && o.g.wf && o.d.isVec && o.a.isVecReg && o.b.isScalarB str true false
  | .vsel o _ => o.wf str
  | .vshuf o => o.wf str && o.a.isVecReg
  | .vrot o _ => str == .cx && o.g.wf && o.d.isVec && o.a.isVecReg && o.b.isScalarB str true false
  | .vext o _ => str == .cx && o.g.wf && o.d.isScalar str && o.a.isVecReg && o.b.isScalarB str true false && o.k == 0
  | .vins o _ =>
    str == .cx && o.g.wf && o.d.isVec && o.d.reg.isSome && o.a.isScalar str && o.b.isScalarB str true false && o.k == 0
  | .vcmp o c _ x => str == .cx && o.g.wf && o.d.isMask && o.a.isVec && o.b.isVecB true && condX c x
  | .kand g d _ _ => str == .cx && g.wf && d.isMask
  | .kor g d _ _ => str == .cx && g.wf && d.isMask
  | .knot g d _ => str == .cx && g.wf && d.isMask
  | .kpopc g d _ _ _ => str == .cx && g.wf && d.isScalar str
  | .vcvt o _ _ => str == .cx && o.g.wf && o.d.isVec && o.a.isVec
  | .vqnt o _ _ _ => str == .cx && o.g.wf && o.d.isVec && o.a.isVec && o.b.isVecB true
  | .vdq o _ _ => str == .cx && o.g.wf && o.d.isVec && o.a.isVec && o.b.isVecB true
  | .vbmax o _ _ => str == .cx && o.g.wf && o.d.isVec && o.a.isVec
  | .vred g a _ _ _ _ _ => str == .cx && g.wf && a.isVec
  | .vrmov g d _ _ => str == .cx && g.wf && d.isScalar str
  | .vscan o _ _ _ => o.wf str
  | .vsfu o _ => o.wf str
  | .vsmax o => o.wf str
  | .vrng g d _ _ _ => str == .cx && g.wf && d.isVec
  | .lease g nb => str == .cx && g.wf && leaseNb nb
  | .lrel g => str == .cx && g.wf
  | .mma o => str == .cx && o.g.wf && o.a.isArr && o.b.isArr
  | .mmas o => str == .cx && o.g.wf && o.a.isArr && o.b.isArr && o.sp != 0
  | .mzero g _ => str == .cx && g.wf
  | .mfmt g _ b => str == .cx && g.wf && b.isScalarB str true false
  | .mscl g _ _ b => str == .cx && g.wf && b.isScalarB str true false
  | .msq g _ a b => str == .cx && g.wf && a.isScalar str && b.isData
  | .mret g d _ _ a b => str == .cx && g.wf && d.isScalar str && a.isScalar str && b.isScalar str
  | .wcsld o _ => str == .sc && o.wf str
  | .wbind g a b => str == .sc && g.wf && a.isScalar str && b.isScalarB str true false
  | .wunb g all a => str == .sc && g.wf && a.isScalar str && (!all || a == .s 0)
  | .wcsrd g a b _ => str == .sc && g.wf && a.isScalar str && b.isScalarB str true false
  | .wstat g d b w => str == .sc && g.wf && d.isScalar str && b.isScalar str && w != 3 && (w == 0 || b == .s 0)
  | .customOpcode o =>
    str == .cx && o.g.wf && 0xC0 ≤ o.major.toNat && !o.dmask.getLsbD 3 && (o.lit == none || o.srcb == 0)
  | .ltag o => str == .sc && o.wf str && o.a == .s 0
  | .lfree g a => str == .sc && g.wf && a.isScalar str
  | .ldesc g a b => str == .sc && g.wf && a.isScalar str && b.isScalarB str true false
  | .lsend g row b _ => str == .cx && g.wf && row.toNat % 8 == 0 && b.isScalarB str true false
  | .lstat g d a => str == .sc && g.wf && d.isScalar str && a.isScalar str
  | .lorph g d a => str == .sc && g.wf && d.isScalar str && a.isScalar str
  | .cego o => str == .sc && o.wf str
  | .cestop g => str == .sc && g.wf
  | .cestat g d => str == .sc && g.wf && d.isScalar str
  | .ctab g a b => str == .sc && g.wf && a.isScalar str && b.isScalarB str true false
  | .ctile g d _ a b => str == .sc && g.wf && d.isScalar str && a.isScalar str && b.isScalarB str true false
  | .cringSet g a b => str == .sc && g.wf && a.isScalar str && b.isScalarB str true false
  | .cringDone g d a => str == .sc && g.wf && d.isScalar str && a.isScalar str
  | .cringStat g d a => str == .sc && g.wf && d.isScalar str && a.isScalar str
  | .rslotReq g d a b => str == .sc && g.wf && d.isScalar str && a.isScalar str && b.isScalarB str true false
  | .rslotAnswer .. => false
  | .rslotRel g a => str == .sc && g.wf && a.isScalar str
  | .rendezvousRelease .. => false
  | .galleryArrival .. => false
  | .streamBlockFetch .. => false
  | .vredLanding .. => false
  | .noiseGrant .. => false
  | .resultDelivery .. => false
  | .leaseGrant .. => false
  | .kStepEntry .. => false
  | .sparsityStallTimeout .. => false
  | .arrayCommandComplete .. => false
  | .retirementStart .. => false
  | .retirementComplete .. => false
  | .microStep .. => false
  | .pageFetch .. => false
  | .fragmentArrival .. => false
  | .fragmentAnswer .. => false
  | .fragmentResend .. => false
  | .overflowReadback .. => false
  | .landingDelivery .. => false
  | .orphanTimeout .. => false
  | .chainCopy .. => false
  | .chainLoop .. => false
  | .chainIf .. => false
  | .chainWait .. => false
  | .chainSignal .. => false
  | .chainNotify .. => false
  | .chainEnd .. => false
  | .tileFireComplete .. => false
  | .stepSend .. => false
  | .stepRecv .. => false
  | .stepReduce .. => false
  | .stepWaitf .. => false
  | .stepNext .. => false
  | .fabricLineArrival .. => false
  | .fabricAckTimeout .. => false
  | .stepWaitTimeout .. => false
  | .fabricLinkFailure .. => false
  | .staggerMessage .. => false
  | .staggerRelease .. => false
  | .instructionFetch .. => false
  | .memoryAccessPerformed .. => false
  | .lateFault .. => false
  | .storeAck .. => false
  | .homeRequestApply .. => false
  | .remoteRequest .. => false
  | .queueDeadlock .. => false
  | .timelineWaitTimeout .. => false
  | .fullEmptyTimeout .. => false
  | .drawWaitTimeout .. => false
  | .wcsldWaitTimeout .. => false
  | .landingCreditTimeout .. => false
  | .noiseHealthFail .. => false
  | .jobStart .. => false
  | .jobCompletion .. => false
  | .kick .. => false
  | .operatorRecord .. => false
  | .collectiveRecord .. => false
  | .waitRecord .. => false
  | .waitRecordPoll .. => false
  | .signalRecord .. => false
  | .tiletabRecord .. => false
  | .csimageRecord .. => false
  | .rslotRecord .. => false
  | .recordReady .. => false
  | .chunkHandout .. => false
  | .recordCompletion .. => false
  | .timeSliceExpiry .. => false
  | .dieFence .. => false
  | .boundaryFailure .. => false
  | .newelElection .. => false
  | .preemptionStopComplete .. => false
  | .contextRestore .. => false
  | .yieldDeadline .. => false
  | .faultReply .. => false
  | .archStateError .. => false
  | .hbmUncorrectable .. => false
  | .correctableError .. => false
  | .rowActivation .. => false
  | .refreshWindowEnd .. => false
  | .tsdGo .. => false
  | .shootdownComplete .. => false
  | .migStart .. => false
  | .migrationCopy .. => false
  | .migEnd .. => false
  | .migAbort .. => false
  | .cxlMemRead .. => false
  | .cxlMemWrite .. => false
  | .pcfgGo .. => false
  | .repartitionDone => false
  | .ctxCreate .. => false
  | .ctxDestroy .. => false
  | .qCreate .. => false
  | .qDestroy .. => false
  | .qPolicy .. => false
  | .ctxPolicy .. => false
  | .preempt .. => false
  | .ctxResume .. => false
  | .vfAssign .. => false
  | .modnum .. => false
  | .fwreg .. => false
  | .pwrstagSend .. => false
  | .cxlwin .. => false
  | .keyid .. => false
  | .tdispLockInterface .. => false
  | .spdmRequest .. => false
  | .moduleReset .. => false
  | .hostLinkTraining .. => false
  | .governorInterval => false
  | .prfReq .. => false
  | .prfRel .. => false
  | .profilingSliceEnd .. => false
  | .dbgStop .. => false
  | .dbgResume .. => false
  | .registerWrite .. => false
  | .noiseHealthRecover .. => false
  | .functionReset .. => false
  | .tdispStartInterface .. => false
  | .tdispStopInterface .. => false
  | .traceRecordWrite .. => false

end Sys2Proof
end

