-- ==== Sys2Proof/Decode.lean ====
section
/-!
DEFINITION. Decoding of instruction words by the checks of R46, from the layouts of R35 and R42 to R45 and the map of R47, and the encoder written from the same tables.
-/

namespace Sys2Proof

/-! ### The common layout (R35) -/

/-- The fields of an instruction word and its literal (R35). -/
structure Fields where
  op : BitVec 8
  sub : BitVec 4
  pred : BitVec 4
  dmask : BitVec 6
  w : Bool
  r40 : Bool
  dst : BitVec 8
  srca : BitVec 8
  srcb : BitVec 8
  mod : BitVec 16
  lit : BitVec 32
  deriving DecidableEq, Repr

/-- The fields of a word, R35. -/
def Fields.ofWord (w : BitVec 64) (lit : BitVec 32) : Fields where
  op := w.extractLsb' 56 8
  sub := w.extractLsb' 52 4
  pred := w.extractLsb' 48 4
  dmask := w.extractLsb' 42 6
  w := w.getLsbD 41
  r40 := w.getLsbD 40
  dst := w.extractLsb' 32 8
  srca := w.extractLsb' 24 8
  srcb := w.extractLsb' 16 8
  mod := w.extractLsb' 0 16
  lit := lit

/-- The word of the fields, R35. -/
def Fields.word (f : Fields) : BitVec 64 :=
  f.op ++ f.sub ++ f.pred ++ f.dmask ++ BitVec.ofBool f.w ++ BitVec.ofBool f.r40 ++ f.dst ++ f.srca ++ f.srcb ++ f.mod

/-! MOD of F-R (R43), F-M (R44), F-X and F-C (R45). -/

def Fields.x (f : Fields) : BitVec 4 := f.mod.extractLsb' 12 4
def Fields.y (f : Fields) : BitVec 3 := f.mod.extractLsb' 9 3
def Fields.i (f : Fields) : Bool := f.mod.getLsbD 8
def Fields.low (f : Fields) : BitVec 8 := f.mod.extractLsb' 0 8
def Fields.fmt (f : Fields) : BitVec 5 := f.mod.extractLsb' 11 5
def Fields.rnd (f : Fields) : BitVec 3 := f.mod.extractLsb' 8 3
def Fields.scope (f : Fields) : BitVec 3 := f.mod.extractLsb' 5 3
def Fields.fe (f : Fields) : BitVec 2 := f.mod.extractLsb' 3 2
def Fields.zf (f : Fields) : Bool := f.mod.getLsbD 2
def Fields.sz (f : Fields) : BitVec 2 := f.mod.extractLsb' 0 2
def Fields.ts (f : Fields) : Bool := f.mod.getLsbD 15
def Fields.ftn (f : Fields) : BitVec 4 := f.mod.extractLsb' 11 4
def Fields.sp (f : Fields) : BitVec 2 := f.mod.extractLsb' 9 2
def Fields.tb (f : Fields) : Bool := f.mod.getLsbD 8
def Fields.ta (f : Fields) : Bool := f.mod.getLsbD 7
def Fields.ks (f : Fields) : BitVec 7 := f.mod.extractLsb' 0 7
def Fields.ctr (f : Fields) : BitVec 4 := f.mod.extractLsb' 12 4
def Fields.nb (f : Fields) : Bool := f.mod.getLsbD 11
def Fields.pd (f : Fields) : BitVec 3 := f.mod.extractLsb' 8 3
def Fields.aux (f : Fields) : BitVec 8 := f.mod.extractLsb' 0 8

/-- MOD of F-R with I = 0 (R43): X, Y and K. -/
def modR (x : BitVec 4) (y : BitVec 3) (k : BitVec 4) : BitVec 16 := x ++ y ++ 0#5 ++ k
/-- MOD of F-R with I = 1 (R43): X, Y and IMM8. -/
def modI (x : BitVec 4) (y : BitVec 3) (imm : BitVec 8) : BitVec 16 := x ++ y ++ 1#1 ++ imm
/-- MOD of F-M (R44). -/
def modM (fmt : BitVec 5) (rnd scope : BitVec 3) (fe : BitVec 2) (zf : Bool) (sz : BitVec 2) : BitVec 16 :=
  fmt ++ rnd ++ scope ++ fe ++ BitVec.ofBool zf ++ sz
/-- MOD of F-X (R45). -/
def modX (ts : Bool) (ft : BitVec 4) (sp : BitVec 2) (tb ta : Bool) (ks : BitVec 7) : BitVec 16 :=
  BitVec.ofBool ts ++ ft ++ sp ++ BitVec.ofBool tb ++ BitVec.ofBool ta ++ ks
/-- MOD of F-C (R45). -/
def modC (ctr : BitVec 4) (nb : Bool) (pd : BitVec 3) (aux : BitVec 8) : BitVec 16 :=
  ctr ++ BitVec.ofBool nb ++ pd ++ aux

/-! ### Operand codes (R37, R38) -/

/-- The stream of a queue code's low two bits (R94). -/
def Strm.ofNum (n : BitVec 2) : Strm :=
  if n == 0 then .sc else if n == 1 then .ld else if n == 2 then .cx else .st

/-- The two bits that number a stream (R94). -/
def Strm.bits (q : Strm) : BitVec 2 := BitVec.ofNat 2 q.num

/-- The operand a code names (R37); `none` for the reserved codes 0x48 to 0x4F and 0x60 to 0x7F. -/
def Src.ofCode (c : BitVec 8) : Option Src :=
  let n := c.toNat
  if n < 0x20 then some (.s (c.extractLsb' 0 5))
  else if n < 0x30 then some (.a (c.extractLsb' 0 4))
  else if n < 0x38 then some (.m (c.extractLsb' 0 3))
  else if n < 0x3C then some (.pop (Strm.ofNum (c.extractLsb' 0 2)))
  else if n < 0x40 then some (.peek (Strm.ofNum (c.extractLsb' 0 2)))
  else if n == 0x40 then some .zero
  else if n == 0x41 then some .one
  else if n == 0x42 then some .lane
  else if n == 0x43 then some .coordCore
  else if n == 0x44 then some .coordDie
  else if n == 0x45 then some .stage
  else if n == 0x46 then some .jobIdx
  else if n == 0x47 then some .iter
  else if n < 0x50 then none
  else if n < 0x60 then some (.const (c.extractLsb' 0 4))
  else if n < 0x80 then none
  else some (.v (c.extractLsb' 0 7))

/-- The code of an operand (R37); an immediate and a literal leave the field 0x00 (R41, R43). -/
def Src.code : Src → BitVec 8
  | .s n => 0#3 ++ n
  | .a n => 0x2#4 ++ n
  | .m n => 0b00110#5 ++ n
  | .pop q => 0b001110#6 ++ q.bits
  | .peek q => 0b001111#6 ++ q.bits
  | .zero => 0x40
  | .one => 0x41
  | .lane => 0x42
  | .coordCore => 0x43
  | .coordDie => 0x44
  | .stage => 0x45
  | .jobIdx => 0x46
  | .iter => 0x47
  | .const c => 0x5#4 ++ c
  | .v n => 1#1 ++ n
  | .imm _ => 0
  | .lit _ => 0

/-- The operand a legal code names. -/
def srcOf (c : BitVec 8) : Src := (Src.ofCode c).getD .zero

def Reg.code : Reg → BitVec 8
  | .s n => 0#3 ++ n
  | .a n => 0x2#4 ++ n
  | .v n => 1#1 ++ n
  | .p n => 0#5 ++ n
  | .k n => 0x1#4 ++ n

/-- The s, a or v register a DST code names (R38). -/
def Reg.ofCode (c : BitVec 8) : Reg :=
  if c.toNat < 0x20 then .s (c.extractLsb' 0 5)
  else if c.toNat < 0x30 then .a (c.extractLsb' 0 4)
  else .v (c.extractLsb' 0 7)

/-- DMASK of a delivery (R39). -/
def Dest.dmask (d : Dest) : BitVec 6 := d.qs ++ BitVec.ofBool d.reg.isSome

/-- DST of a delivery: 0x00 where DMASK[42] = 0 (R39). -/
def Dest.code (d : Dest) : BitVec 8 :=
  match d.reg with
  | none => 0
  | some r => r.code

/-- The queue bits of DMASK (R39). -/
def Fields.qs (f : Fields) : BitVec 5 := f.dmask.extractLsb' 1 5

/-- DMASK[42] (R39). -/
def Fields.d0 (f : Fields) : Bool := f.dmask.getLsbD 0

def Fields.dest (f : Fields) : Dest := ⟨if f.d0 then some (Reg.ofCode f.dst) else none, f.qs⟩
def Fields.pdest (f : Fields) : Dest := ⟨if f.d0 then some (.p (f.dst.extractLsb' 0 3)) else none, f.qs⟩
def Fields.kdest (f : Fields) : Dest := ⟨if f.d0 then some (.k (f.dst.extractLsb' 0 4)) else none, f.qs⟩

/-! ### Small enumerations -/

def Guard.code (g : Guard) : BitVec 4 := BitVec.ofBool g.neg ++ g.p
def Fields.g (f : Fields) : Guard := ⟨f.pred.getLsbD 3, f.pred.extractLsb' 0 3⟩

def Scope.code : Scope → BitVec 3
  | .strm => 0
  | .core => 1
  | .die => 2
  | .mod => 3
  | .dom => 4

def Scope.ofCode (c : BitVec 3) : Scope :=
  if c == 0 then .strm else if c == 1 then .core else if c == 2 then .die else if c == 3 then .mod else .dom

def Rnd.code : Rnd → BitVec 3
  | .rne => 0
  | .rtz => 1
  | .rup => 2
  | .rdn => 3
  | .rna => 4
  | .rsto => 5
  | .rto => 6

def Rnd.ofCode (c : BitVec 3) : Rnd :=
  if c == 0 then .rne else if c == 1 then .rtz else if c == 2 then .rup else if c == 3 then .rdn
  else if c == 4 then .rna else if c == 5 then .rsto else .rto

def Fe.code : Fe → BitVec 2
  | .none => 0
  | .fe => 1
  | .fec => 2

def Fe.ofCode (c : BitVec 2) : Fe := if c == 0 then .none else if c == 1 then .fe else .fec

def Cond.code : Cond → BitVec 4
  | .eq => 0
  | .ne => 1
  | .lt => 2
  | .le => 3
  | .gt => 4
  | .ge => 5
  | .ltu => 6
  | .leu => 7
  | .gtu => 8
  | .geu => 9

def Cond.ofCode (c : BitVec 4) : Cond :=
  if c == 0 then .eq else if c == 1 then .ne else if c == 2 then .lt else if c == 3 then .le else if c == 4 then .gt
  else if c == 5 then .ge else if c == 6 then .ltu else if c == 7 then .leu else if c == 8 then .gtu else .geu

def FenceKind.code : FenceKind → BitVec 5
  | .full => 0
  | .acq => 1
  | .rel => 2

def FenceKind.ofCode (c : BitVec 5) : FenceKind := if c == 0 then .full else if c == 1 then .acq else .rel

def SfuFn.code : SfuFn → BitVec 4
  | .exp2 => 0
  | .log2 => 1
  | .rcp => 2
  | .rsqrt => 3
  | .sqrt => 4
  | .tanh => 5
  | .sigmoid => 6
  | .gelu => 7
  | .silu => 8
  | .softplus => 9

def SfuFn.ofCode (c : BitVec 4) : SfuFn :=
  if c == 0 then .exp2 else if c == 1 then .log2 else if c == 2 then .rcp else if c == 3 then .rsqrt
  else if c == 4 then .sqrt else if c == 5 then .tanh else if c == 6 then .sigmoid else if c == 7 then .gelu
  else if c == 8 then .silu else .softplus

def QFmt.code : QFmt → BitVec 4
  | .bf16 => 0
  | .fp16 => 1
  | .e4m3 => 2
  | .e5m2 => 3
  | .e2m3 => 4
  | .e3m2 => 5
  | .e2m1 => 6
  | .int8 => 7
  | .fd n => 1#1 ++ n

def QFmt.ofCode (c : BitVec 4) : QFmt :=
  if c == 0 then .bf16 else if c == 1 then .fp16 else if c == 2 then .e4m3 else if c == 3 then .e5m2
  else if c == 4 then .e2m3 else if c == 5 then .e3m2 else if c == 6 then .e2m1 else if c == 7 then .int8
  else .fd (c.extractLsb' 0 3)

def RedOp.code : RedOp → BitVec 2
  | .sum => 0
  | .max => 1
  | .min => 2

def RedOp.ofCode (c : BitVec 2) : RedOp := if c == 0 then .sum else if c == 1 then .max else .min

def STest.code : STest → BitVec 4
  | .bound => 0
  | .ready => 1
  | .done => 2

def STest.ofCode (c : BitVec 4) : STest := if c == 0 then .bound else if c == 1 then .ready else .done

def TlSel.code : TlSel → BitVec 8
  | .done => 0
  | .iss => 1
  | .errn => 2
  | .acqs => 3

def TlSel.ofCode (c : BitVec 8) : TlSel :=
  if c == 0 then .done else if c == 1 then .iss else if c == 2 then .errn else .acqs

def RotDir.code : RotDir → BitVec 4
  | .rot => 0
  | .dn => 1
  | .up => 2

def RotDir.ofCode (c : BitVec 4) : RotDir := if c == 0 then .rot else if c == 1 then .dn else .up

/-- X of VEXT (R215). -/
def LaneSel.codeE : LaneSel → BitVec 4
  | .img => 0
  | .flt => 1
  | .int => 2

def LaneSel.ofCodeE (c : BitVec 4) : LaneSel := if c == 0 then .img else if c == 1 then .flt else .int

/-- X of VINS (R215). -/
def LaneSel.codeI : LaneSel → BitVec 4
  | .flt => 0
  | .int => 1
  | .img => 2

def LaneSel.ofCodeI (c : BitVec 4) : LaneSel := if c == 0 then .flt else if c == 1 then .int else .img

def ClrVal.code : ClrVal → BitVec 3
  | .z => 0
  | .ninf => 1
  | .pinf => 2

def ClrVal.ofCode (c : BitVec 3) : ClrVal := if c == 0 then .z else if c == 1 then .ninf else .pinf

/-- X and Y of VCVT (R219). -/
def VCvtKind.codes : VCvtKind → BitVec 4 × BitVec 3
  | .f36f18 h => (if h then 1 else 0, 0)
  | .f18f36 h => (if h then 3 else 2, 0)
  | .f36i36 r => (4, r.code)
  | .i36f36 => (5, 0)
  | .f18i18 r => (6, r.code)
  | .i18f18 => (7, 0)
  | .i36i18 h => (if h then 9 else 8, 0)
  | .i18i36 h => (if h then 11 else 10, 0)

def VCvtKind.ofCodes (x : BitVec 4) (y : BitVec 3) : VCvtKind :=
  if x == 0 then .f36f18 false else if x == 1 then .f36f18 true
  else if x == 2 then .f18f36 false else if x == 3 then .f18f36 true
  else if x == 4 then .f36i36 (Rnd.ofCode y) else if x == 5 then .i36f36
  else if x == 6 then .f18i18 (Rnd.ofCode y) else if x == 7 then .i18f18
  else if x == 8 then .i36i18 false else if x == 9 then .i36i18 true
  else if x == 10 then .i18i36 false else .i18i36 true

/-- X, SRCB and Y of FCVT (R114). -/
def CvtKind.codes : CvtKind → BitVec 4 × BitVec 8 × BitVec 3
  | .itof => (0, 0, 0)
  | .utof => (1, 0, 0)
  | .ftoi r => (2, 0, r.code)
  | .ftou r => (3, 0, r.code)
  | .tomem f r => (4, f, r.code)
  | .frommem f => (5, f, 0)

def CvtKind.ofCodes (x : BitVec 4) (f : BitVec 8) (y : BitVec 3) : CvtKind :=
  if x == 0 then .itof else if x == 1 then .utof else if x == 2 then .ftoi (Rnd.ofCode y)
  else if x == 3 then .ftou (Rnd.ofCode y) else if x == 4 then .tomem f (Rnd.ofCode y) else .frommem f

/-- X and SRCA of QTEST (R132). -/
def QTest.codes : QTest → BitVec 4 × BitVec 8
  | .ready q => (0, 0b001110#6 ++ q.bits)
  | .space q => (1, 0b001110#6 ++ q.bits)
  | .vready => (2, 0x39)
  | .vspace => (3, 0)
  | .exited q => (4, 0b001110#6 ++ q.bits)

def QTest.ofCodes (x : BitVec 4) (a : BitVec 8) : QTest :=
  let q := Strm.ofNum (a.extractLsb' 0 2)
  if x == 0 then .ready q else if x == 1 then .space q else if x == 2 then .vready
  else if x == 3 then .vspace else .exited q

/-! ### Rows of the opcode map (R47) -/

/-- The formats of R42. -/
inductive Form where
  | r | b | l | m | x | c | u
  deriving DecidableEq, Repr

/-- What an operand field takes; `zeroBy r` is 0x00 in an entry that names the reason r of any other value. -/
inductive SPos where
  | zero | zeroBy (r : Nat) | scalar | vec | vecReg | data | arr | mask | pred | mreg | raw
  deriving DecidableEq, Repr

/-- What the DST field takes: a destination (read where DMASK[42] = 1), or a field of the entry's own;
`zeroBy r` as for `SPos`. -/
inductive DPos where
  | zero | zeroBy (r : Nat) | scalar | vec | pred | mask | data | loop | acc | vq | gst | raw
  deriving DecidableEq, Repr

/-- The kind of result, for check 7 (R39, R211). -/
inductive Res where
  | none | scalar | pred | vec | mask | vld | custom
  deriving DecidableEq, Repr

/-- One instruction of the map: format, eligible streams, whether W and I are allowed, what each field takes, the result, whether
DST is read, the entry's own failing checks by reason, and the instruction. -/
structure OpRow where
  form : Form
  streams : List Strm
  wide : Bool
  dst : DPos
  a : SPos
  b : SPos
  res : Res
  rdst : Bool
  chk : Strm → Fields → List Nat
  build : Fields → Instr

def bad (r : Nat) (c : Bool) : List Nat := if c then [r] else []

/-- Source B: the literal of a wide word, IMM8 of an F-R word with I = 1, or the operand code (R41, R43). -/
def Fields.bM (f : Fields) : Src := if f.w then .lit f.lit else srcOf f.srcb
def Fields.bR (f : Fields) : Src := if f.w then .lit f.lit else if f.i then .imm f.low else srcOf f.srcb
def Fields.aS (f : Fields) : Src := srcOf f.srca
def Fields.bS (f : Fields) : Src := srcOf f.srcb
def Fields.rops (f : Fields) : ROps := ⟨f.g, f.dest, f.aS, f.bR⟩
def Fields.props (f : Fields) : ROps := ⟨f.g, f.pdest, f.aS, f.bR⟩
def Fields.rops1 (f : Fields) : ROps1 := ⟨f.g, f.dest, f.aS⟩
def Fields.maddr (f : Fields) : MAddr := ⟨f.aS, f.bM⟩
def Fields.pops (f : Fields) : POps :=
  ⟨f.g, f.pdest, f.x.getLsbD 0, f.srca.extractLsb' 0 3, f.x.getLsbD 1, f.srcb.extractLsb' 0 3⟩
def Fields.bops (f : Fields) : BOps := ⟨f.g, f.dest, f.srca ++ f.srcb ++ f.mod⟩
def Fields.ldops (f : Fields) : LdOps :=
  ⟨f.g, f.dest, f.maddr, Scope.ofCode f.scope, Fe.ofCode f.fe, f.zf, f.sz⟩
def Fields.vldops (f : Fields) : VldOps :=
  ⟨f.g, f.dmask.getLsbD 5, f.maddr, f.fmt, Scope.ofCode f.scope, Fe.ofCode f.fe, f.zf, f.sz.getLsbD 0⟩
def Fields.stops (f : Fields) : StOps :=
  ⟨f.g, srcOf f.dst, f.maddr, Scope.ofCode f.scope, Fe.ofCode f.fe, f.sz⟩
def Fields.vstops (f : Fields) : VstOps :=
  ⟨f.g, f.maddr, f.fmt, Rnd.ofCode f.rnd, Scope.ofCode f.scope, Fe.ofCode f.fe, f.sz.getLsbD 0⟩
def Fields.aops (f : Fields) : AOps := ⟨f.g, f.dest, f.maddr, Scope.ofCode f.scope, f.sz.getLsbD 0⟩
def Fields.vops (f : Fields) : VOps := ⟨f.g, f.dest, f.aS, f.bM, f.y.getLsbD 0, f.low.extractLsb' 0 4⟩
def Fields.vops1 (f : Fields) : VOps1 := ⟨f.g, f.dest, f.aS, f.y.getLsbD 0, f.low.extractLsb' 0 4⟩
def Fields.k (f : Fields) : BitVec 4 := f.low.extractLsb' 0 4
def Fields.nbp (f : Fields) : Option (BitVec 3) := if f.nb then some f.pd else none
def Fields.cops (f : Fields) : COps := ⟨f.g, f.dest, f.aS, f.bM, f.nbp⟩
def Fields.ctrops (f : Fields) : CtrOps := ⟨f.g, f.dest, f.ctr, f.aS, f.bM, f.nbp⟩
def Fields.sel (f : Fields) : FtSel := if f.ts then .ftl else .ft f.ftn
def Fields.mmaops (f : Fields) : MmaOps := ⟨f.g, f.sel, f.dst.getLsbD 0, f.aS, f.bS, f.ta, f.tb, f.ks⟩
def Fields.mmasops (f : Fields) : MmasOps := ⟨f.g, f.sel, f.dst.getLsbD 0, f.aS, f.bS, f.tb, f.sp, f.ks⟩
def Fields.custom (f : Fields) : CustomOps :=
  ⟨f.op, f.sub, f.g, f.dmask, f.dst, f.srca, f.srcb, f.mod, if f.w then some f.lit else none⟩
/-- SRN of SYSRD and SYSWR (R116). -/
def Fields.srn (f : Fields) : BitVec 7 := f.x ++ f.y

/-! The entries' own checks. -/

def noChk : Strm → Fields → List Nat := fun _ _ => []
/-- X and Y within what the entry assigns: reason 8 (R106). -/
def xy8 (p : BitVec 4 → BitVec 3 → Bool) : Strm → Fields → List Nat := fun _ f => bad 8 (!p f.x f.y)
def xy0 : Strm → Fields → List Nat := xy8 fun x y => x == 0 && y == 0
/-- An entry that declares X and Y zero without a reason: reason 4 (R133). -/
def xyZ : Strm → Fields → List Nat := fun _ f => bad 4 (f.x != 0 || f.y != 0)
/-- MOD 0 apart from what the entry shows: with I = 1, refused by check 5, MOD[7:0] too (R133). -/
def modZ (y : Bool) : Strm → Fields → List Nat := fun _ f => bad 4 (f.x != 0 || (!y && f.y != 0) || (f.i && f.low != 0))
/-- L = X × 8 + Y from 1 to 64 (R108). -/
def Fields.len (f : Fields) : BitVec 7 := f.x ++ f.y
def lenChk : Strm → Fields → List Nat := fun _ f => bad 8 (f.len == 0 || 64 < f.len.toNat)
/-- The common limits of F-M (R44). -/
def memChk (f : Fields) : List Nat := bad 8 (25 ≤ f.fmt.toNat || f.rnd == 7 || 5 ≤ f.scope.toNat || f.fe == 3)
def ldChk : Strm → Fields → List Nat := fun _ f => bad 8 (f.fmt != 0 || f.rnd != 0)
def vldChk (fe wide : Bool) : Strm → Fields → List Nat := fun _ f =>
  bad 8 (f.rnd != 0 || 2 ≤ f.sz.toNat || (!fe && f.fe != 0) || (wide && !fmtWide f.fmt))
def prefChk : Strm → Fields → List Nat := fun _ f =>
  bad 8 (f.fmt != 0 || f.rnd != 0 || f.fe != 0 || f.zf || 2 ≤ f.sz.toNat)
def stChk : Strm → Fields → List Nat := fun _ f => bad 8 (f.fmt != 0 || f.rnd != 0 || f.fe == 2 || f.zf)
def isImage (x : BitVec 5) : Bool := x == 15 || x == 16
def vstChk (fe wide : Bool) : Strm → Fields → List Nat := fun _ f =>
  bad 8 (f.zf || 2 ≤ f.sz.toNat || f.fe == 2 || (!fe && f.fe != 0) || (wide && !fmtWide f.fmt)
    || (isImage f.fmt && f.rnd != 0))
def gstChk : Strm → Fields → List Nat := fun _ f =>
  bad 8 (f.zf || f.fe != 0 || f.scope != 0)
  ++ (if f.dst == 0x3A then bad 8 (2 ≤ f.sz.toNat || (isImage f.fmt && f.rnd != 0)) else bad 8 (f.fmt != 0 || f.rnd != 0))
def feChk : Strm → Fields → List Nat := fun _ f =>
  bad 4 (f.fmt != 0 || f.rnd != 0 || f.scope != 0 || f.fe != 0 || f.zf || f.sz != 0)
def l1Chk : Strm → Fields → List Nat := fun _ f =>
  bad 4 (f.fmt != 0 || f.rnd != 0 || f.scope != 0 || f.fe != 0 || f.zf) ++ bad 8 (2 ≤ f.sz.toNat)
  ++ bad 4 (f.sz == 1 && (f.srca != 0 || f.srcb != 0 || (f.w && f.lit != 0)))
def sbChk (lim : Nat) : Strm → Fields → List Nat := fun _ f =>
  bad 4 (f.y != 0 || (lim == 0 && f.x != 0)) ++ bad 8 (lim < f.x.toNat)
/-- TLOOK, TSET: X and Y 0; TINV: X 0 or 1, SRCA 0x00 for `.all` (R169). -/
def tinvChk : Strm → Fields → List Nat := fun _ f =>
  bad 4 (f.y != 0 || (f.x == 1 && f.srca != 0)) ++ bad 8 (1 < f.x.toNat)
def fenceChk : Strm → Fields → List Nat := fun _ f =>
  bad 8 (2 < f.fmt.toNat) ++ bad 4 (f.rnd != 0 || f.fe != 0 || f.zf || f.sz != 0)
def atomChk : Strm → Fields → List Nat := fun _ f =>
  bad 8 (f.fmt != 0 || f.rnd != 0 || f.fe != 0 || f.zf || f.sz.toNat < 2) ++ bad 7 (!f.d0)
def casChk : Strm → Fields → List Nat := fun s f => atomChk s f ++ bad 6 (0x20 ≤ f.dst.toNat || f.dst.getLsbD 0)
def afaddChk : Strm → Fields → List Nat := fun _ f =>
  bad 8 (f.fe != 0 || f.zf || !((f.fmt == 0 && f.sz == 2) || (f.fmt == 1 && f.sz == 1) || (f.fmt == 2 && f.sz == 1)))
  ++ bad 7 (!f.d0) ++ bad 6 (0x20 ≤ f.dst.toNat)
def ldaChk : Strm → Fields → List Nat := fun _ f => bad 8 (f.fmt != 0 || f.rnd != 0 || f.fe != 0)
def stlChk : Strm → Fields → List Nat := fun _ f => bad 8 (f.fmt != 0 || f.rnd != 0 || f.fe != 0 || f.zf)
/-- F-C of an entry whose closing sentence names reason 8: CTR, NB and AUX limits. PD nonzero with NB = 0 is reason 4 where the
entry allows NB (R45), else the entry's 8. -/
def cChk (ctr nb : Bool) (aux : BitVec 8 → Bool) : Strm → Fields → List Nat := fun _ f =>
  bad 8 ((!ctr && f.ctr != 0) || (!nb && (f.nb || f.pd != 0)) || !aux f.aux) ++ bad 4 (nb && !f.nb && f.pd != 0)
/-- Vector entries: largest X, whether INT, Y[2] and K are assigned (R211). -/
def vChk (xmax : Nat) (int y2 k : Bool) : Strm → Fields → List Nat := fun _ f =>
  bad 8 (xmax < f.x.toNat || (!int && f.y.getLsbD 1) || (!y2 && f.y.getLsbD 2) || (!k && f.k != 0))
def also (p q : Strm → Fields → List Nat) : Strm → Fields → List Nat := fun s f => p s f ++ q s f
def need7 : Strm → Fields → List Nat := fun _ f => bad 7 (!f.d0)

/-- DST of CRING and RSLOT: a scalar destination in the forms that have one, else 0x00, reason 6 (R345). -/
def formDst (has : Bool) (f : Fields) : List Nat :=
  if !has then bad 6 (f.dst != 0) else if f.d0 then bad 6 (0x30 ≤ f.dst.toNat) else bad 4 (f.dst != 0)

/-- Major 0x00 of R47. -/
def rows00 (sub : Nat) : Option OpRow :=
  match sub with
  | 0 => some ⟨.r, [.sc, .ld, .cx, .st], false, .zero, .zero, .zero, .none, false, (modZ false), fun f => .nop f.g⟩
  | 1 => some ⟨.r, [.sc, .ld, .cx, .st], true, .zero, .zero, .scalar, .none, false, xyZ, fun f => .trap f.g f.bR⟩
  | 2 => some ⟨.r, [.sc, .ld, .cx, .st], false, .zero, .zero, .zero, .none, false, (modZ false), fun f => .bkpt f.g⟩
  | 3 => some ⟨.r, [.sc, .ld, .cx, .st], false, .zero, .zero, .zero, .none, false, (modZ true), fun f => .yield f.g f.y⟩
  | 4 => some ⟨.r, [.sc, .ld, .cx, .st], false, .zero, .zero, .zero, .none, false, (modZ false), fun f => .exit f.g⟩
  | 5 => some ⟨.r, [.sc, .ld, .cx, .st], false, .zero, .zero, .zero, .none, false, (modZ false), fun f => .rdv f.g⟩
  | 6 => some ⟨.r, [.sc, .ld, .cx, .st], true, .zeroBy 6, .zeroBy 6, .scalar, .none, false, xy0, fun f => .pmark f.g f.bR⟩
  | 7 => some ⟨.r, [.sc, .ld, .cx, .st], false, .scalar, .zero, .zero, .scalar, false, (fun _ f => bad 8 (!srnRead f.srn)), fun f => .sysrd f.g f.dest f.srn⟩
  | 8 => some ⟨.r, [.sc, .ld, .cx, .st], true, .zero, .zero, .scalar, .none, false, (fun s f => bad 3 (srnSc f.srn && s != .sc) ++ bad 8 (!srnOwn f.srn && !srnSc f.srn)), fun f => .syswr f.g f.srn f.bR⟩
  | 9 => some ⟨.r, [.sc, .ld, .cx, .st], false, .scalar, .zeroBy 6, .scalar, .scalar, false, (xy8 fun x y => x.toNat < 2 && y == 0), fun f => .cntrd ⟨f.g, f.dest, f.bS⟩ (f.x.getLsbD 0)⟩
  | _ => none

/-- Major 0x01 of R47. -/
def rows01 (sub : Nat) : Option OpRow :=
  match sub with
  | 0 => some ⟨.b, [.sc, .ld, .cx, .st], false, .zero, .raw, .raw, .none, false, noChk, fun f => .br f.bops⟩
  | 1 => some ⟨.b, [.sc, .ld, .cx, .st], false, .scalar, .raw, .raw, .scalar, false, noChk, fun f => .brl f.bops⟩
  | 2 => some ⟨.r, [.sc, .ld, .cx, .st], false, .zero, .scalar, .scalar, .none, false, (fun _ f => bad 4 (f.x != 0 || f.y != 0 || (f.i && f.low != 0))), fun f => .bri f.g f.aS f.bS⟩
  | 3 => some ⟨.r, [.sc, .ld, .cx, .st], false, .scalar, .scalar, .scalar, .scalar, false, (fun _ f => bad 4 (f.x != 0 || f.y != 0 || (f.i && f.low != 0))), fun f => .bril ⟨f.g, f.dest, f.aS, f.bS⟩⟩
  | _ => none

/-- Major 0x02 of R47. -/
def rows02 (sub : Nat) : Option OpRow :=
  match sub with
  | 0 => some ⟨.l, [.sc, .ld, .cx, .st], false, .loop, .scalar, .zero, .none, false, (fun _ f => bad 8 (f.mod.toNat < 4)), fun f => .loop f.g (f.dst.extractLsb' 0 2) f.aS f.mod⟩
  | 1 => some ⟨.l, [.sc, .ld, .cx, .st], false, .loop, .scalar, .raw, .none, false, (fun s f => bad 8 (f.mod.toNat < 4 || f.srcb.extractLsb' 5 3 == 7 || 16 < (f.srcb.extractLsb' 0 5).toNat || (f.srcb.extractLsb' 0 5 != 0 && s != .cx))), fun f => .mloop f.g (f.dst.extractLsb' 0 2) f.aS (f.srcb.extractLsb' 5 3) (f.srcb.extractLsb' 0 5) f.mod⟩
  | 2 => some ⟨.l, [.sc, .ld, .cx, .st], false, .loop, .zero, .zero, .none, false, (fun _ f => bad 4 (f.mod != 0)), fun f => .lbrk f.g (f.dst.extractLsb' 0 2)⟩
  | 3 => some ⟨.l, [.sc, .ld, .cx, .st], false, .zero, .zero, .raw, .none, false, (fun _ f => bad 8 (f.mod == 0 || 64 < f.mod.toNat) ++ bad 4 (f.srcb.extractLsb' 5 3 != 0 || (f.srcb.extractLsb' 0 3 == 0 && f.srcb.extractLsb' 3 2 != 0))), fun f => .rep f.g f.mod (f.srcb.getLsbD 0) (f.srcb.getLsbD 1) (f.srcb.getLsbD 2) (f.srcb.extractLsb' 3 2)⟩
  | _ => none

/-- Major 0x03 of R47. -/
def rows03 (sub : Nat) : Option OpRow :=
  match sub with
  | 0 => some ⟨.r, [.sc, .ld, .cx, .st], false, .pred, .pred, .pred, .pred, false, (xy8 fun x y => x.toNat < 4 && y == 0), fun f => .pand f.pops⟩
  | 1 => some ⟨.r, [.sc, .ld, .cx, .st], false, .pred, .pred, .pred, .pred, false, (xy8 fun x y => x.toNat < 4 && y == 0), fun f => .por f.pops⟩
  | 2 => some ⟨.r, [.sc, .ld, .cx, .st], false, .pred, .pred, .pred, .pred, false, (xy8 fun x y => x.toNat < 4 && y == 0), fun f => .pxor f.pops⟩
  | 3 => some ⟨.r, [.sc, .ld, .cx, .st], false, .pred, .pred, .pred, .pred, false, (xy8 fun x y => x.toNat < 4 && y == 0), fun f => .pandn f.pops⟩
  | 4 => some ⟨.r, [.sc, .ld, .cx, .st], false, .pred, .pred, .zero, .pred, false, (xy8 fun x y => x.toNat < 2 && y == 0), fun f => .pmov f.g f.pdest (f.x.getLsbD 0) (f.srca.extractLsb' 0 3)⟩
  | 5 => some ⟨.r, [.sc, .ld, .cx, .st], false, .pred, .raw, .zero, .pred, false, (fun s f => bad 4 (f.y != 0) ++ bad 8 (4 < f.x.toNat) ++ bad 6 (f.x.toNat ≤ 4 && ((QTest.ofCodes f.x f.srca).codes.2 != f.srca || !(QTest.ofCodes f.x f.srca).wf s))), fun f => .qtest f.g f.pdest (QTest.ofCodes f.x f.srca)⟩
  | _ => none

/-- Major 0x10 of R47. -/
def rows10 (sub : Nat) : Option OpRow :=
  match sub with
  | 0 => some ⟨.r, [.sc, .ld, .cx, .st], true, .scalar, .scalar, .scalar, .scalar, false, xy0, fun f => .add f.rops⟩
  | 1 => some ⟨.r, [.sc, .ld, .cx, .st], true, .scalar, .scalar, .scalar, .scalar, false, xy0, fun f => .sub f.rops⟩
  | 2 => some ⟨.r, [.sc, .ld, .cx, .st], true, .scalar, .scalar, .scalar, .scalar, false, xy0, fun f => .mul f.rops⟩
  | 3 => some ⟨.r, [.sc, .ld, .cx, .st], true, .scalar, .scalar, .scalar, .scalar, false, xy0, fun f => .mulh f.rops⟩
  | 4 => some ⟨.r, [.sc, .ld, .cx, .st], true, .scalar, .scalar, .scalar, .scalar, false, xy0, fun f => .mulhu f.rops⟩
  | 5 => some ⟨.r, [.sc, .ld, .cx, .st], true, .scalar, .scalar, .scalar, .scalar, false, xy0, fun f => .div f.rops⟩
  | 6 => some ⟨.r, [.sc, .ld, .cx, .st], true, .scalar, .scalar, .scalar, .scalar, false, xy0, fun f => .divu f.rops⟩
  | 7 => some ⟨.r, [.sc, .ld, .cx, .st], true, .scalar, .scalar, .scalar, .scalar, false, xy0, fun f => .rem f.rops⟩
  | 8 => some ⟨.r, [.sc, .ld, .cx, .st], true, .scalar, .scalar, .scalar, .scalar, false, xy0, fun f => .remu f.rops⟩
  | 9 => some ⟨.r, [.sc, .ld, .cx, .st], true, .scalar, .scalar, .scalar, .scalar, true, xy0, fun f => .madd f.rops⟩
  | 10 => some ⟨.r, [.sc, .ld, .cx, .st], true, .scalar, .scalar, .scalar, .scalar, false, (xy8 fun _ y => y == 0), fun f => .lea f.rops f.x⟩
  | _ => none

/-- Major 0x11 of R47. -/
def rows11 (sub : Nat) : Option OpRow :=
  match sub with
  | 0 => some ⟨.r, [.sc, .ld, .cx, .st], true, .scalar, .scalar, .scalar, .scalar, false, xy0, fun f => .and f.rops⟩
  | 1 => some ⟨.r, [.sc, .ld, .cx, .st], true, .scalar, .scalar, .scalar, .scalar, false, xy0, fun f => .or f.rops⟩
  | 2 => some ⟨.r, [.sc, .ld, .cx, .st], true, .scalar, .scalar, .scalar, .scalar, false, xy0, fun f => .xor f.rops⟩
  | 3 => some ⟨.r, [.sc, .ld, .cx, .st], true, .scalar, .scalar, .scalar, .scalar, false, xy0, fun f => .andn f.rops⟩
  | 4 => some ⟨.r, [.sc, .ld, .cx, .st], true, .scalar, .scalar, .scalar, .scalar, false, xy0, fun f => .shl f.rops⟩
  | 5 => some ⟨.r, [.sc, .ld, .cx, .st], true, .scalar, .scalar, .scalar, .scalar, false, xy0, fun f => .shr f.rops⟩
  | 6 => some ⟨.r, [.sc, .ld, .cx, .st], true, .scalar, .scalar, .scalar, .scalar, false, xy0, fun f => .sra f.rops⟩
  | 7 => some ⟨.r, [.sc, .ld, .cx, .st], true, .scalar, .scalar, .scalar, .scalar, false, xy0, fun f => .rot f.rops⟩
  | 8 => some ⟨.r, [.sc, .ld, .cx, .st], false, .scalar, .scalar, .zero, .scalar, false, xy0, fun f => .clz f.rops1⟩
  | 9 => some ⟨.r, [.sc, .ld, .cx, .st], false, .scalar, .scalar, .zero, .scalar, false, xy0, fun f => .popc f.rops1⟩
  | 10 => some ⟨.r, [.sc, .ld, .cx, .st], true, .scalar, .scalar, .scalar, .scalar, false, lenChk, fun f => .bext f.rops f.len⟩
  | 11 => some ⟨.r, [.sc, .ld, .cx, .st], true, .scalar, .scalar, .scalar, .scalar, true, lenChk, fun f => .bins f.rops f.len⟩
  | _ => none

/-- Major 0x12 of R47. -/
def rows12 (sub : Nat) : Option OpRow :=
  match sub with
  | 0 => some ⟨.r, [.sc, .ld, .cx, .st], true, .scalar, .scalar, .scalar, .scalar, false, xy0, fun f => .min f.rops⟩
  | 1 => some ⟨.r, [.sc, .ld, .cx, .st], true, .scalar, .scalar, .scalar, .scalar, false, xy0, fun f => .max f.rops⟩
  | 2 => some ⟨.r, [.sc, .ld, .cx, .st], true, .scalar, .scalar, .scalar, .scalar, false, xy0, fun f => .minu f.rops⟩
  | 3 => some ⟨.r, [.sc, .ld, .cx, .st], true, .scalar, .scalar, .scalar, .scalar, false, xy0, fun f => .maxu f.rops⟩
  | 4 => some ⟨.r, [.sc, .ld, .cx, .st], true, .scalar, .scalar, .scalar, .scalar, false, (xy8 fun x _ => x.toNat < 2), fun f => .sel f.rops (f.x.getLsbD 0) f.y⟩
  | 5 => some ⟨.r, [.sc, .ld, .cx, .st], true, .scalar, .zero, .scalar, .scalar, false, xy0, fun f => .mov f.g f.dest f.bR⟩
  | _ => none

/-- Major 0x13 of R47. -/
def rows13 (sub : Nat) : Option OpRow :=
  match sub with
  | 0 => some ⟨.r, [.sc, .ld, .cx, .st], true, .pred, .scalar, .scalar, .pred, false, (xy8 fun x y => x.toNat < 10 && y == 0), fun f => .cmp f.props (Cond.ofCode f.x)⟩
  | _ => none

/-- Major 0x14 of R47. -/
def rows14 (sub : Nat) : Option OpRow :=
  match sub with
  | 0 => some ⟨.r, [.sc, .ld, .cx, .st], true, .scalar, .scalar, .scalar, .scalar, false, xy0, fun f => .fadd f.rops⟩
  | 1 => some ⟨.r, [.sc, .ld, .cx, .st], true, .scalar, .scalar, .scalar, .scalar, false, xy0, fun f => .fsub f.rops⟩
  | 2 => some ⟨.r, [.sc, .ld, .cx, .st], true, .scalar, .scalar, .scalar, .scalar, false, xy0, fun f => .fmul f.rops⟩
  | 3 => some ⟨.r, [.sc, .ld, .cx, .st], true, .scalar, .scalar, .scalar, .scalar, true, xy0, fun f => .ffma f.rops⟩
  | 4 => some ⟨.r, [.sc, .ld, .cx, .st], true, .scalar, .scalar, .scalar, .scalar, false, xy0, fun f => .fmin f.rops⟩
  | 5 => some ⟨.r, [.sc, .ld, .cx, .st], true, .scalar, .scalar, .scalar, .scalar, false, xy0, fun f => .fmax f.rops⟩
  | 6 => some ⟨.r, [.sc, .ld, .cx, .st], true, .pred, .scalar, .scalar, .pred, false, (xy8 fun x y => x.toNat < 6 && y.toNat < 2 && (y == 0 || x.toNat < 2)), fun f => .fcmp f.props (Cond.ofCode f.x) (f.y.getLsbD 0)⟩
  | 7 => some ⟨.r, [.sc, .ld, .cx, .st], false, .scalar, .scalar, .raw, .scalar, false, (fun _ f => bad 4 (f.x.toNat < 4 && f.srcb != 0) ++ bad 8 (5 < f.x.toNat || f.y == 7 || ((f.x == 0 || f.x == 1 || f.x == 5) && f.y != 0) || ((f.x == 4 || f.x == 5) && !cvtFmtOk f.srcb) || (f.x == 4 && f.srcb == 16 && f.y != 0))), fun f => .fcvt f.rops1 (CvtKind.ofCodes f.x f.srcb f.y)⟩
  | 8 => some ⟨.r, [.sc, .ld, .cx, .st], false, .scalar, .scalar, .zero, .scalar, false, (xy8 fun x y => x == 0 && y != 7), fun f => .frnd f.rops1 (Rnd.ofCode f.y)⟩
  | _ => none

/-- Major 0x30 of R47. -/
def rows30 (sub : Nat) : Option OpRow :=
  match sub with
  | 0 => some ⟨.m, [.ld, .sc], true, .scalar, .scalar, .scalar, .scalar, false, ldChk, fun f => .ld f.ldops⟩
  | 1 => some ⟨.m, [.ld], true, .zeroBy 6, .scalar, .scalar, .vld, false, (vldChk true false), fun f => .vld f.vldops⟩
  | 2 => some ⟨.m, [.ld], true, .zeroBy 6, .scalar, .scalar, .vld, false, (vldChk false true), fun f => .vldx f.vldops⟩
  | 3 => some ⟨.m, [.ld], true, .zeroBy 6, .scalar, .scalar, .none, false, prefChk, fun f => .pref f.g f.maddr (Scope.ofCode f.scope) (f.sz.getLsbD 0)⟩
  | _ => none

/-- Major 0x31 of R47. -/
def rows31 (sub : Nat) : Option OpRow :=
  match sub with
  | 0 => some ⟨.m, [.st, .sc], true, .data, .scalar, .scalar, .none, false, stChk, fun f => .st f.stops⟩
  | 1 => some ⟨.m, [.st], true, .vq, .scalar, .scalar, .none, false, (vstChk true false), fun f => .vst f.vstops⟩
  | 2 => some ⟨.m, [.st], true, .vq, .scalar, .scalar, .none, false, (vstChk false true), fun f => .vstx f.vstops⟩
  | 3 => some ⟨.m, [.st], true, .gst, .scalar, .scalar, .none, false, gstChk, fun f => .gst (if f.dst == 0x3A then .row f.g f.maddr f.fmt (Rnd.ofCode f.rnd) (f.sz.getLsbD 0) else .scalar f.g (srcOf f.dst) f.maddr f.sz)⟩
  | _ => none

/-- Major 0x32 of R47. -/
def rows32 (sub : Nat) : Option OpRow :=
  match sub with
  | 0 => some ⟨.r, [.ld, .st], true, .zero, .mreg, .scalar, .none, false, (also (sbChk 1) fun s f => bad 8 (f.x == 1 && s == .st)), fun f => .sbind f.g (f.srca.extractLsb' 0 3) f.bR (f.x.getLsbD 0)⟩
  | 1 => some ⟨.r, [.ld, .st], false, .zero, .mreg, .scalar, .none, false, (sbChk 0), fun f => .snext f.g (f.srca.extractLsb' 0 3) f.bS⟩
  | 2 => some ⟨.r, [.ld, .st], false, .pred, .mreg, .zero, .pred, false, (sbChk 2), fun f => .stest f.g f.pdest (f.srca.extractLsb' 0 3) (STest.ofCode f.x)⟩
  | 3 => some ⟨.r, [.ld, .st], false, .zero, .mreg, .zero, .none, false, (sbChk 0), fun f => .sdrop f.g (f.srca.extractLsb' 0 3)⟩
  | _ => none

/-- Major 0x33 of R47. -/
def rows33 (sub : Nat) : Option OpRow :=
  match sub with
  | 0 => some ⟨.r, [.ld], true, .scalar, .zero, .scalar, .scalar, false, xyZ, fun f => .tlook f.g f.dest f.bR⟩
  | 1 => some ⟨.r, [.ld], true, .zero, .scalar, .scalar, .none, false, xyZ, fun f => .tset f.g f.aS f.bR⟩
  | 2 => some ⟨.r, [.ld], false, .zero, .scalar, .zero, .none, false, tinvChk, fun f => .tinv f.g (f.x.getLsbD 0) f.aS⟩
  | _ => none

/-- Major 0x34 of R47. -/
def rows34 (sub : Nat) : Option OpRow :=
  match sub with
  | 0 => some ⟨.m, [.ld], true, .data, .scalar, .scalar, .none, false, feChk, fun f => .feset ⟨f.g, srcOf f.dst, f.maddr⟩⟩
  | 1 => some ⟨.m, [.ld], true, .data, .scalar, .scalar, .none, false, feChk, fun f => .feclr ⟨f.g, srcOf f.dst, f.maddr⟩⟩
  | 2 => some ⟨.m, [.ld], true, .pred, .scalar, .scalar, .pred, false, feChk, fun f => .fetest f.g f.pdest f.maddr⟩
  | 3 => some ⟨.m, [.ld, .st], true, .zero, .scalar, .scalar, .none, false, l1Chk, fun f => .l1wb ⟨f.g, f.sz.getLsbD 0, f.maddr⟩⟩
  | 4 => some ⟨.m, [.ld, .st], true, .zero, .scalar, .scalar, .none, false, l1Chk, fun f => .l1inv ⟨f.g, f.sz.getLsbD 0, f.maddr⟩⟩
  | _ => none

/-- Major 0x38 of R47. -/
def rows38 (sub : Nat) : Option OpRow :=
  match sub with
  | 0 => some ⟨.m, [.sc, .ld, .cx, .st], false, .zero, .zero, .zero, .none, false, fenceChk, fun f => .fence f.g (FenceKind.ofCode f.fmt) (Scope.ofCode f.scope)⟩
  | _ => none

/-- Major 0x39 of R47. -/
def rows39 (sub : Nat) : Option OpRow :=
  match sub with
  | 0 => some ⟨.m, [.sc], true, .scalar, .scalar, .scalar, .scalar, true, atomChk, fun f => .aadd f.aops⟩
  | 1 => some ⟨.m, [.sc], true, .scalar, .scalar, .scalar, .scalar, true, atomChk, fun f => .amin f.aops⟩
  | 2 => some ⟨.m, [.sc], true, .scalar, .scalar, .scalar, .scalar, true, atomChk, fun f => .amax f.aops⟩
  | 3 => some ⟨.m, [.sc], true, .scalar, .scalar, .scalar, .scalar, true, atomChk, fun f => .aand f.aops⟩
  | 4 => some ⟨.m, [.sc], true, .scalar, .scalar, .scalar, .scalar, true, atomChk, fun f => .aor f.aops⟩
  | 5 => some ⟨.m, [.sc], true, .scalar, .scalar, .scalar, .scalar, true, atomChk, fun f => .axor f.aops⟩
  | 6 => some ⟨.m, [.sc], true, .scalar, .scalar, .scalar, .scalar, true, atomChk, fun f => .axch f.aops⟩
  | 7 => some ⟨.m, [.sc], true, .scalar, .scalar, .scalar, .scalar, true, casChk, fun f => .acas f.aops⟩
  | 8 => some ⟨.m, [.sc], true, .scalar, .scalar, .scalar, .scalar, true, afaddChk, fun f => .afadd ⟨f.g, f.dest, f.maddr, Scope.ofCode f.scope, f.fmt.extractLsb' 0 2, Rnd.ofCode f.rnd⟩⟩
  | _ => none

/-- Major 0x3A of R47. -/
def rows3A (sub : Nat) : Option OpRow :=
  match sub with
  | 0 => some ⟨.m, [.ld, .sc], true, .scalar, .scalar, .scalar, .scalar, false, ldaChk, fun f => .lda f.ldops⟩
  | 1 => some ⟨.m, [.st, .sc], true, .data, .scalar, .scalar, .none, false, stlChk, fun f => .stl f.stops⟩
  | _ => none

/-- Major 0x3B of R47. -/
def rows3B (sub : Nat) : Option OpRow :=
  match sub with
  | 0 => some ⟨.c, [.sc, .ld, .cx, .st], true, .zeroBy 8, .scalar, .scalar, .none, false, (cChk true true fun x => x == 0), fun f => .waitt f.ctrops⟩
  | 1 => some ⟨.c, [.sc, .ld, .cx, .st], false, .scalar, .zeroBy 8, .zeroBy 8, .scalar, false, (cChk true false fun x => x.toNat < 4), fun f => .tlrd f.g f.dest f.ctr (TlSel.ofCode f.aux)⟩
  | 2 => some ⟨.c, [.sc, .ld, .cx, .st], true, .scalar, .zeroBy 8, .scalar, .scalar, false, (cChk true false fun x => x.toNat < 5), fun f => .tladv f.g f.dest f.ctr f.bM (Scope.ofCode (f.aux.extractLsb' 0 3))⟩
  | _ => none

/-- Major 0x60 of R47. -/
def rows60 (sub : Nat) : Option OpRow :=
  match sub with
  | 0 => some ⟨.r, [.cx], true, .vec, .vec, .vec, .vec, false, (vChk 0 false false true), fun f => .vadd f.vops⟩
  | 1 => some ⟨.r, [.cx], true, .vec, .vec, .vec, .vec, false, (vChk 0 false false true), fun f => .vsub f.vops⟩
  | 2 => some ⟨.r, [.cx], true, .vec, .vec, .vec, .vec, false, (vChk 0 false false true), fun f => .vmul f.vops⟩
  | 3 => some ⟨.r, [.cx], true, .vec, .vec, .vec, .vec, true, (vChk 0 false false true), fun f => .vfma f.vops⟩
  | 4 => some ⟨.r, [.cx], true, .vec, .vec, .vec, .vec, false, (vChk 0 true false true), fun f => .vmin f.vops (f.y.getLsbD 1)⟩
  | 5 => some ⟨.r, [.cx], true, .vec, .vec, .vec, .vec, false, (vChk 0 true false true), fun f => .vmax f.vops (f.y.getLsbD 1)⟩
  | 6 => some ⟨.r, [.cx], false, .vec, .vec, .zero, .vec, false, (vChk 0 true false true), fun f => .vabs f.vops1 (f.y.getLsbD 1)⟩
  | 7 => some ⟨.r, [.cx], false, .vec, .vec, .zero, .vec, false, (vChk 0 true false true), fun f => .vneg f.vops1 (f.y.getLsbD 1)⟩
  | _ => none

/-- Major 0x61 of R47. -/
def rows61 (sub : Nat) : Option OpRow :=
  match sub with
  | 0 => some ⟨.r, [.cx], true, .vec, .vec, .vec, .vec, false, (vChk 0 false false true), fun f => .vand f.vops⟩
  | 1 => some ⟨.r, [.cx], true, .vec, .vec, .vec, .vec, false, (vChk 0 false false true), fun f => .vor f.vops⟩
  | 2 => some ⟨.r, [.cx], true, .vec, .vec, .vec, .vec, false, (vChk 0 false false true), fun f => .vxor f.vops⟩
  | 3 => some ⟨.r, [.cx], true, .vec, .vec, .vec, .vec, false, (vChk 0 false false true), fun f => .vshl f.vops⟩
  | 4 => some ⟨.r, [.cx], true, .vec, .vec, .vec, .vec, false, (vChk 1 false false true), fun f => .vshr f.vops (f.x.getLsbD 0)⟩
  | 5 => some ⟨.r, [.cx], true, .vec, .vec, .vec, .vec, false, (vChk 0 false false true), fun f => .viadd f.vops⟩
  | 6 => some ⟨.r, [.cx], true, .vec, .vec, .vec, .vec, false, (vChk 0 false false true), fun f => .vimul f.vops⟩
  | _ => none

/-- Major 0x62 of R47. -/
def rows62 (sub : Nat) : Option OpRow :=
  match sub with
  | 0 => some ⟨.r, [.cx], false, .vec, .vec, .zero, .vec, false, (vChk 0 true false true), fun f => .vmov f.vops1 (f.y.getLsbD 1)⟩
  | 1 => some ⟨.r, [.cx], true, .vec, .vecReg, .scalar, .vec, false, (vChk 0 false false true), fun f => .vbcst f.vops⟩
  | 2 => some ⟨.r, [.cx], true, .vec, .vec, .vec, .vec, false, (vChk 0 true false true), fun f => .vsel f.vops (f.y.getLsbD 1)⟩
  | 3 => some ⟨.r, [.cx], true, .vec, .vecReg, .vec, .vec, false, (vChk 0 false false true), fun f => .vshuf f.vops⟩
  | 4 => some ⟨.r, [.cx], true, .vec, .vecReg, .scalar, .vec, false, (vChk 2 false false true), fun f => .vrot f.vops (RotDir.ofCode f.x)⟩
  | 5 => some ⟨.r, [.cx], true, .scalar, .vecReg, .scalar, .scalar, false, (vChk 2 false false false), fun f => .vext f.vops (LaneSel.ofCodeE f.x)⟩
  | 6 => some ⟨.r, [.cx], true, .vec, .scalar, .scalar, .vec, true, (vChk 2 false false false), fun f => .vins f.vops (LaneSel.ofCodeI f.x)⟩
  | _ => none

/-- Major 0x63 of R47. -/
def rows63 (sub : Nat) : Option OpRow :=
  match sub with
  | 0 => some ⟨.r, [.cx], true, .mask, .vec, .vec, .mask, false, (also (vChk 5 true true true) fun _ f => bad 8 (f.y.getLsbD 2 && 1 < f.x.toNat)), fun f => .vcmp ⟨f.g, f.kdest, f.aS, f.bM, f.y.getLsbD 0, f.k⟩ (Cond.ofCode f.x) (f.y.getLsbD 1) (f.y.getLsbD 2)⟩
  | 1 => some ⟨.r, [.cx], false, .mask, .mask, .mask, .mask, false, (also (vChk 0 false false false) fun _ f => bad 8 (f.y != 0)), fun f => .kand f.g f.kdest (f.srca.extractLsb' 0 4) (f.srcb.extractLsb' 0 4)⟩
  | 2 => some ⟨.r, [.cx], false, .mask, .mask, .mask, .mask, false, (also (vChk 0 false false false) fun _ f => bad 8 (f.y != 0)), fun f => .kor f.g f.kdest (f.srca.extractLsb' 0 4) (f.srcb.extractLsb' 0 4)⟩
  | 3 => some ⟨.r, [.cx], false, .mask, .mask, .zero, .mask, false, (also (vChk 0 false false false) fun _ f => bad 8 (f.y != 0)), fun f => .knot f.g f.kdest (f.srca.extractLsb' 0 4)⟩
  | 4 => some ⟨.r, [.cx], false, .scalar, .mask, .zero, .scalar, false, (vChk 0 false false true), fun f => .kpopc f.g f.dest (f.srca.extractLsb' 0 4) (f.y.getLsbD 0) f.k⟩
  | _ => none

/-- Major 0x64 of R47. DEDUCED (log entry 81): R220 wants Y[2] 0 for all three of its instructions while R222 makes Y the rounding mode
0 to 6 of VQNT; the whole of Y[2:0] is the mode there, and only 7 is illegal. -/
def rows64 (sub : Nat) : Option OpRow :=
  match sub with
  | 0 => some ⟨.r, [.cx], false, .vec, .vec, .zero, .vec, false, (fun _ f => bad 8 (11 < f.x.toNat || f.y == 7 || (f.x != 4 && f.x != 6 && f.y != 0))), fun f => .vcvt f.rops1 f.k (VCvtKind.ofCodes f.x f.y)⟩
  | 1 => some ⟨.r, [.cx], true, .vec, .vec, .vec, .vec, false, (fun _ f => bad 8 (f.y == 7)), fun f => .vqnt ⟨f.g, f.dest, f.aS, f.bM⟩ f.k (QFmt.ofCode f.x) (Rnd.ofCode f.y)⟩
  | 2 => some ⟨.r, [.cx], true, .vec, .vec, .vec, .vec, false, (fun _ f => bad 8 (f.y != 0)), fun f => .vdq ⟨f.g, f.dest, f.aS, f.bM⟩ f.k (QFmt.ofCode f.x)⟩
  | 3 => some ⟨.r, [.cx], false, .vec, .vec, .zero, .vec, false, (fun _ f => bad 8 (f.y != 0)), fun f => .vbmax f.rops1 f.k (QFmt.ofCode f.x)⟩
  | _ => none

/-- Major 0x65 of R47. -/
def rows65 (sub : Nat) : Option OpRow :=
  match sub with
  | 0 => some ⟨.r, [.cx], false, .zero, .vec, .zero, .none, false, (also (vChk 15 true false true) fun _ f => bad 8 (f.x.extractLsb' 0 2 == 3)), fun f => .vred f.g f.aS (f.y.getLsbD 0) f.k (f.x.extractLsb' 2 2) (RedOp.ofCode (f.x.extractLsb' 0 2)) (f.y.getLsbD 1)⟩
  | 1 => some ⟨.r, [.cx], false, .scalar, .zero, .zero, .scalar, false, (fun _ f => bad 8 (f.x.getLsbD 3 || 2 < f.y.toNat || (f.y != 0 && !f.x.getLsbD 2) || f.k != 0)), fun f => .vrmov f.g f.dest (f.x.extractLsb' 0 2) (if f.x.getLsbD 2 then some (ClrVal.ofCode f.y) else none)⟩
  | 2 => some ⟨.r, [.cx], false, .vec, .vec, .zero, .vec, false, (vChk 2 true true true), fun f => .vscan f.vops1 (RedOp.ofCode (f.x.extractLsb' 0 2)) (f.y.getLsbD 1) (f.y.getLsbD 2)⟩
  | _ => none

/-- Major 0x66 of R47. -/
def rows66 (sub : Nat) : Option OpRow :=
  match sub with
  | 0 => some ⟨.r, [.cx], false, .vec, .vec, .zero, .vec, false, (vChk 9 false false true), fun f => .vsfu f.vops1 (SfuFn.ofCode f.x)⟩
  | 1 => some ⟨.r, [.cx], false, .vec, .vec, .zero, .vec, false, (vChk 0 false false true), fun f => .vsmax f.vops1⟩
  | _ => none

/-- Major 0x67 of R47. -/
def rows67 (sub : Nat) : Option OpRow :=
  match sub with
  | 0 => some ⟨.r, [.cx], false, .vec, .zero, .zero, .vec, false, (vChk 1 false false true), fun f => .vrng f.g f.dest (f.x.getLsbD 0) (f.y.getLsbD 0) f.k⟩
  | _ => none

/-- Major 0x80 of R47. -/
def rows80 (sub : Nat) : Option OpRow :=
  match sub with
  | 0 => some ⟨.c, [.cx], false, .zeroBy 8, .zeroBy 8, .zeroBy 8, .none, false, (fun _ f => bad 8 (f.ctr != 0 || f.aux != 0 || f.nb == (f.pd == 0))), fun f => .lease f.g f.nbp⟩
  | 1 => some ⟨.c, [.cx], false, .zeroBy 8, .zeroBy 8, .zeroBy 8, .none, false, (cChk false false fun x => x == 0), fun f => .lrel f.g⟩
  | _ => none

/-- Major 0x81 of R47. -/
def rows81 (sub : Nat) : Option OpRow :=
  match sub with
  | 0 => some ⟨.x, [.cx], false, .acc, .arr, .arr, .none, false, (fun _ f => bad 4 (f.sp != 0)), fun f => .mma f.mmaops⟩
  | 1 => some ⟨.x, [.cx], false, .acc, .arr, .arr, .none, false, (fun _ f => bad 8 (f.sp == 0 || f.ta)), fun f => .mmas f.mmasops⟩
  | 2 => some ⟨.x, [.cx], false, .acc, .zero, .zero, .none, false, (fun _ f => bad 4 (f.mod != 0)), fun f => .mzero f.g (f.dst.getLsbD 0)⟩
  | _ => none

/-- Major 0x82 of R47. -/
def rows82 (sub : Nat) : Option OpRow :=
  match sub with
  | 0 => some ⟨.c, [.cx], true, .zeroBy 6, .zeroBy 6, .scalar, .none, false, (cChk false false fun x => x.toNat < 16), fun f => .mfmt f.g (f.aux.extractLsb' 0 4) f.bM⟩
  | 1 => some ⟨.c, [.cx], true, .zeroBy 6, .zeroBy 6, .scalar, .none, false, (cChk false false fun x => x.toNat < 16), fun f => .mscl f.g (f.aux.extractLsb' 0 3) (f.aux.getLsbD 3) f.bM⟩
  | 2 => some ⟨.c, [.cx], false, .zeroBy 6, .scalar, .data, .none, false, (cChk false false fun x => x.toNat < 4), fun f => .msq f.g (f.aux.extractLsb' 0 2) f.aS f.bS⟩
  | _ => none

/-- Major 0x83 of R47. -/
def rows83 (sub : Nat) : Option OpRow :=
  match sub with
  | 0 => some ⟨.c, [.cx], false, .scalar, .scalar, .scalar, .scalar, false, (fun _ f => bad 4 (f.nb || f.pd != 0 || 1 < f.aux.toNat)), fun f => .mret f.g f.dest f.ctr (f.aux.getLsbD 0) f.aS f.bS⟩
  | _ => none

/-- Major 0x90 of R47. -/
def rows90 (sub : Nat) : Option OpRow :=
  match sub with
  | 0 => some ⟨.c, [.sc], true, .scalar, .scalar, .scalar, .scalar, false, (cChk false true fun _ => true), fun f => .wcsld f.cops f.aux⟩
  | 1 => some ⟨.c, [.sc], true, .zeroBy 6, .scalar, .scalar, .none, false, (cChk false false fun x => x == 0), fun f => .wbind f.g f.aS f.bM⟩
  | 2 => some ⟨.c, [.sc], false, .zeroBy 6, .scalar, .zeroBy 6, .none, false, (also (cChk false false fun x => x.toNat < 2) fun _ f => bad 6 (f.aux == 1 && f.srca != 0)), fun f => .wunb f.g (f.aux.getLsbD 0) f.aS⟩
  | 3 => some ⟨.c, [.sc], true, .zeroBy 6, .scalar, .scalar, .none, false, (cChk false false fun _ => true), fun f => .wcsrd f.g f.aS f.bM f.aux⟩
  | 4 => some ⟨.c, [.sc], false, .scalar, .zeroBy 6, .scalar, .scalar, false, (also (cChk false false fun x => x.toNat < 3) fun _ f => bad 6 (f.aux != 0 && f.srcb != 0)), fun f => .wstat f.g f.dest f.bS (f.aux.extractLsb' 0 2)⟩
  | _ => none

/-- Major 0xA0 of R47. -/
def rowsA0 (sub : Nat) : Option OpRow :=
  match sub with
  | 0 => some ⟨.c, [.sc], true, .scalar, .zeroBy 6, .scalar, .scalar, false, (cChk false true fun x => x == 0), fun f => .ltag ⟨f.g, f.dest, .s 0, f.bM, f.nbp⟩⟩
  | 1 => some ⟨.c, [.sc], false, .zeroBy 6, .scalar, .zeroBy 6, .none, false, (cChk false false fun x => x == 0), fun f => .lfree f.g f.aS⟩
  | 2 => some ⟨.c, [.sc], true, .zeroBy 6, .scalar, .scalar, .none, false, (cChk false false fun x => x == 0), fun f => .ldesc f.g f.aS f.bM⟩
  | 3 => some ⟨.c, [.cx], true, .zeroBy 6, .raw, .scalar, .none, false, (also (cChk false true fun x => x == 0) fun _ f => bad 6 (!f.srca.getLsbD 7 || f.srca.extractLsb' 0 3 != 0)), fun f => .lsend f.g (f.srca.extractLsb' 0 7) f.bM f.nbp⟩
  | 4 => some ⟨.c, [.sc], false, .scalar, .scalar, .zeroBy 6, .scalar, false, (cChk false false fun x => x == 0), fun f => .lstat f.g f.dest f.aS⟩
  | 5 => some ⟨.c, [.sc], false, .scalar, .scalar, .zeroBy 6, .scalar, false, (cChk false false fun x => x == 0), fun f => .lorph f.g f.dest f.aS⟩
  | _ => none

/-- Major 0xA8 of R47. -/
def rowsA8 (sub : Nat) : Option OpRow :=
  match sub with
  | 0 => some ⟨.c, [.sc], true, .scalar, .scalar, .scalar, .scalar, false, (cChk true true fun x => x == 0), fun f => .cego f.ctrops⟩
  | 1 => some ⟨.c, [.sc], false, .zeroBy 6, .zeroBy 6, .zeroBy 6, .none, false, (cChk false false fun x => x == 0), fun f => .cestop f.g⟩
  | 2 => some ⟨.c, [.sc], false, .scalar, .zeroBy 6, .zeroBy 6, .scalar, false, (cChk false false fun x => x == 0), fun f => .cestat f.g f.dest⟩
  | _ => none

/-- Major 0xA9 of R47. -/
def rowsA9 (sub : Nat) : Option OpRow :=
  match sub with
  | 0 => some ⟨.c, [.sc], true, .zeroBy 6, .scalar, .scalar, .none, false, (cChk false false fun x => x == 0), fun f => .ctab f.g f.aS f.bM⟩
  | 1 => some ⟨.c, [.sc], true, .scalar, .scalar, .scalar, .scalar, false, (cChk true false fun x => x == 0), fun f => .ctile f.g f.dest f.ctr f.aS f.bM⟩
  | 2 => some ⟨.c, [.sc], true, .raw, .scalar, .scalar, .scalar, false, (also (cChk false false fun x => x.toNat < 3) fun _ f => formDst (f.aux != 0) f ++ bad 7 (f.aux == 0 && f.dmask != 0) ++ bad 6 (f.aux != 0 && !f.w && f.srcb != 0)), fun f => (if f.aux == 0 then .cringSet f.g f.aS f.bM else if f.aux == 1 then .cringDone f.g f.dest f.aS else .cringStat f.g f.dest f.aS)⟩
  | 3 => some ⟨.c, [.sc], true, .raw, .scalar, .scalar, .scalar, false, (also (cChk false false fun x => x.toNat < 2) fun _ f => formDst (f.aux != 1) f ++ bad 7 (f.aux == 1 && f.dmask != 0) ++ bad 6 (f.aux == 1 && !f.w && f.srcb != 0)), fun f => (if f.aux == 0 then .rslotReq f.g f.dest f.aS f.bM else .rslotRel f.g f.aS)⟩
  | _ => none

/-- Majors 0xC0 to 0xFF: every SUB is passed to the bound routine (R46, R47). -/
def rowsCustom : Option OpRow :=
  some ⟨.u, [.cx], true, .raw, .raw, .raw, .custom, false, noChk, fun f => .customOpcode f.custom⟩

/-- The majors of R47: `none` where the major is unassigned, else its minor opcodes. -/
def major (op : Nat) : Option (Nat → Option OpRow) :=
  match op with
  | 0x00 => some rows00
  | 0x01 => some rows01
  | 0x02 => some rows02
  | 0x03 => some rows03
  | 0x10 => some rows10
  | 0x11 => some rows11
  | 0x12 => some rows12
  | 0x13 => some rows13
  | 0x14 => some rows14
  | 0x30 => some rows30
  | 0x31 => some rows31
  | 0x32 => some rows32
  | 0x33 => some rows33
  | 0x34 => some rows34
  | 0x38 => some rows38
  | 0x39 => some rows39
  | 0x3A => some rows3A
  | 0x3B => some rows3B
  | 0x60 => some rows60
  | 0x61 => some rows61
  | 0x62 => some rows62
  | 0x63 => some rows63
  | 0x64 => some rows64
  | 0x65 => some rows65
  | 0x66 => some rows66
  | 0x67 => some rows67
  | 0x80 => some rows80
  | 0x81 => some rows81
  | 0x82 => some rows82
  | 0x83 => some rows83
  | 0x90 => some rows90
  | 0xA0 => some rowsA0
  | 0xA8 => some rowsA8
  | 0xA9 => some rowsA9
  | _ => if 0xC0 ≤ op then some (fun _ => rowsCustom) else none

/-! ### The decode checks (R46) -/

/-- Reasons for a source field. -/
def srcBad (p : SPos) (str : Strm) (c : BitVec 8) : List Nat :=
  let ok (q : Src → Bool) : List Nat :=
    match Src.ofCode c with
    | some x => bad 6 (!q x)
    | none => [6]
  match p with
  | .zero => bad 4 (c != 0)
  | .zeroBy r => bad r (c != 0)
  | .scalar => ok (·.isScalar str)
  | .vec => ok Src.isVec
  | .vecReg => ok Src.isVecReg
  | .data => ok Src.isData
  | .arr => ok Src.isArr
  | .mask => bad 6 (c.extractLsb' 4 4 != 1)
  | .pred => bad 6 (8 ≤ c.toNat)
  | .mreg => bad 6 (c.extractLsb' 3 5 != 6 || !(str == .ld || str == .st))
  | .raw => []

/-- Reasons for the DST field: a destination is read where DMASK[42] = 1, and is 0x00 elsewhere (R39). -/
def dstBad (p : DPos) (rd : Bool) (c : BitVec 8) : List Nat :=
  let dest (ok : Bool) : List Nat := if rd then bad 6 (!ok) else bad 4 (c != 0)
  match p with
  | .zero => bad 4 (c != 0)
  | .zeroBy r => bad r (c != 0)
  | .scalar => dest (c.toNat < 0x30)
  | .vec => dest (c.getLsbD 7)
  | .pred => dest (c.toNat < 8)
  | .mask => dest (c.extractLsb' 4 4 == 1)
  | .data => bad 6 (!(c.toNat < 0x30 || c.extractLsb' 4 4 == 5))
  | .loop => bad 4 (4 ≤ c.toNat)
  | .acc => bad 6 (1 < c.toNat)
  | .vq => bad 6 (c != 0x3A)
  | .gst => bad 6 (!(c.toNat < 0x30 || c == 0x3A))
  | .raw => []

/-- Reason 7: DMASK against the result and the stream (R39). -/
def dmaskBad (r : Res) (str : Strm) (m : BitVec 6) : List Nat :=
  bad 7 (m.getLsbD (str.num + 1) ||
    (match r with
     | .none => m != 0
     | .scalar => m.getLsbD 5
     | .pred => m.getLsbD 5
     | .vec => m.extractLsb' 1 4 != 0
     | .mask => m != 0 && m != 1
     | .vld => m != 0 && m != 0x20
     | .custom => false))

/-- Reason 4 of the format's own fields: MOD[7:4] and K of F-R (R43), FT under TS = 1 (R45). -/
def formBad (row : OpRow) (f : Fields) : List Nat :=
  match row.form with
  | .r => bad 4 (!f.i && (f.low.extractLsb' 4 4 != 0 || (f.k != 0 && f.op.extractLsb' 3 5 != 0b01100)))
  | .x => bad 4 (f.ts && f.ftn != 0)
  | .m => memChk f
  | _ => []

/-- Reason 5: W and I only where allowed, and then SRCB 0x00 (R41, R43). -/
def wideBad (row : OpRow) (f : Fields) : List Nat :=
  let wOk := row.wide && (match row.form with
    | .r => true
    | .m => true
    | .c => true
    | .u => true
    | _ => false)
  let i := row.form == .r && f.i
  let iOk := row.wide && f.op.extractLsb' 3 5 != 0b01100
  bad 5 ((f.w && !wOk) || (i && (!iOk || f.w)) || ((f.w || i) && f.srcb != 0))

/-- Every reason of R46 whose check the word fails, for its row of the map. -/
def reasons (str : Strm) (row : OpRow) (f : Fields) : List Nat :=
  let lit := (f.w && row.form != .l) || (row.form == .r && f.i) || row.form == .b
  bad 3 (!row.streams.contains str)
  ++ bad 4 (f.r40 || f.pred == 8)
  ++ formBad row f
  ++ wideBad row f
  ++ dstBad row.dst f.d0 f.dst
  ++ srcBad row.a str f.srca
  ++ (if lit then [] else srcBad row.b str f.srcb)
  ++ dmaskBad row.res str f.dmask
  ++ bad 7 (row.rdst && !f.d0)
  ++ row.chk str f

/-- The first check that fails: the smallest reason (R46). -/
def firstReason : List Nat → Option Nat
  | [] => none
  | r :: rs =>
    match firstReason rs with
    | none => some r
    | some q => some (if r ≤ q then r else q)

/-- Decoding of fields on a stream: the instruction, or the reason of trap 0x01 (R46). -/
def decodeFields (str : Strm) (f : Fields) : Except Nat Instr :=
  match major f.op.toNat with
  | none => .error 1
  | some m =>
    match m f.sub.toNat with
    | none => .error 2
    | some row =>
      match firstReason (reasons str row f) with
      | some r => .error r
      | none => .ok (row.build f)

/-- Decoding of a word and the 32 bits after it on a stream (R46). -/
def decode (str : Strm) (w : BitVec 64) (lit : BitVec 32) : Except Nat Instr :=
  decodeFields str (Fields.ofWord w lit)

/-- Bytes of an instruction word: 12 with W = 1, else 8 (R32). -/
def wordSize (w : BitVec 64) : Nat := if w.getLsbD 41 then 12 else 8

/-! ### The encoder -/

/-- Fields of a word without a literal. -/
def mk (op : BitVec 8) (sub : BitVec 4) (g : Guard) (dmask : BitVec 6) (dst srca srcb : BitVec 8) (mod : BitVec 16) : Fields :=
  ⟨op, sub, g.code, dmask, false, false, dst, srca, srcb, mod, 0⟩

/-- Source B of F-M and F-C and of vector words: the wide form for a literal (R41). -/
def Fields.withB (f : Fields) : Src → Fields
  | .lit l => { f with w := true, srcb := 0, lit := l }
  | b => { f with srcb := b.code }

/-- Source B of F-R: IMM8 sets I (R43). -/
def Fields.withBR (f : Fields) : Src → Fields
  | .lit l => { f with w := true, srcb := 0, lit := l }
  | .imm i => { f with srcb := 0, mod := modI f.x f.y i }
  | b => { f with srcb := b.code }

def encR (op : BitVec 8) (sub : BitVec 4) (o : ROps) (x : BitVec 4) (y : BitVec 3) : Fields :=
  (mk op sub o.g o.d.dmask o.d.code o.a.code 0 (modR x y 0)).withBR o.b
def encR1 (op : BitVec 8) (sub : BitVec 4) (o : ROps1) (srcb : BitVec 8) (x : BitVec 4) (y : BitVec 3) : Fields :=
  mk op sub o.g o.d.dmask o.d.code o.a.code srcb (modR x y 0)
def encP (sub : BitVec 4) (o : POps) : Fields :=
  mk 0x03 sub o.g o.d.dmask o.d.code (0#5 ++ o.pa) (0#5 ++ o.pb)
    (modR (0#2 ++ BitVec.ofBool o.nb ++ BitVec.ofBool o.na) 0 0)
def encB (sub : BitVec 4) (o : BOps) : Fields :=
  mk 0x01 sub o.g o.d.dmask o.d.code (o.off.extractLsb' 24 8) (o.off.extractLsb' 16 8) (o.off.extractLsb' 0 16)
def encLd (op : BitVec 8) (o : LdOps) : Fields :=
  (mk op 0 o.g o.d.dmask o.d.code o.at_.base.code 0 (modM 0 0 o.scope.code o.fe.code o.zf o.sz)).withB o.at_.idx
def encVld (sub : BitVec 4) (o : VldOps) : Fields :=
  (mk 0x30 sub o.g (BitVec.ofBool o.push ++ 0#5) 0 o.at_.base.code 0
    (modM o.fmt 0 o.scope.code o.fe.code o.zf (0#1 ++ BitVec.ofBool o.lw))).withB o.at_.idx
def encSt (op : BitVec 8) (sub : BitVec 4) (o : StOps) : Fields :=
  (mk op sub o.g 0 o.data.code o.at_.base.code 0 (modM 0 0 o.scope.code o.fe.code false o.sz)).withB o.at_.idx
def encVst (sub : BitVec 4) (o : VstOps) : Fields :=
  (mk 0x31 sub o.g 0 0x3A o.at_.base.code 0
    (modM o.fmt o.rnd.code o.scope.code o.fe.code false (0#1 ++ BitVec.ofBool o.lw))).withB o.at_.idx
def encGst : GstOps → Fields
  | .scalar g data at_ sz => (mk 0x31 3 g 0 data.code at_.base.code 0 (modM 0 0 0 0 false sz)).withB at_.idx
  | .row g at_ fmt rnd lw =>
    (mk 0x31 3 g 0 0x3A at_.base.code 0 (modM fmt rnd.code 0 0 false (0#1 ++ BitVec.ofBool lw))).withB at_.idx
def encFe (sub : BitVec 4) (o : FeOps) : Fields :=
  (mk 0x34 sub o.g 0 o.cnt.code o.at_.base.code 0 0).withB o.at_.idx
def encL1 (sub : BitVec 4) (o : L1Ops) : Fields :=
  (mk 0x34 sub o.g 0 0 o.at_.base.code 0 (modM 0 0 0 0 false (0#1 ++ BitVec.ofBool o.all))).withB o.at_.idx
def encA (sub : BitVec 4) (o : AOps) : Fields :=
  (mk 0x39 sub o.g o.d.dmask o.d.code o.at_.base.code 0 (modM 0 0 o.scope.code 0 false (1#1 ++ BitVec.ofBool o.dbl))).withB o.at_.idx
def encV (op : BitVec 8) (sub : BitVec 4) (o : VOps) (x : BitVec 4) (y2 int : Bool) : Fields :=
  (mk op sub o.g o.d.dmask o.d.code o.a.code 0
    (modR x (BitVec.ofBool y2 ++ BitVec.ofBool int ++ BitVec.ofBool o.lw) o.k)).withB o.b
def encV1 (op : BitVec 8) (sub : BitVec 4) (o : VOps1) (x : BitVec 4) (y2 int : Bool) : Fields :=
  mk op sub o.g o.d.dmask o.d.code o.a.code 0 (modR x (BitVec.ofBool y2 ++ BitVec.ofBool int ++ BitVec.ofBool o.lw) o.k)
def encC (op : BitVec 8) (sub : BitVec 4) (g : Guard) (d : Dest) (ctr : BitVec 4) (a b : Src) (nb : Option (BitVec 3))
    (aux : BitVec 8) : Fields :=
  (mk op sub g d.dmask d.code a.code 0 (modC ctr nb.isSome (nb.getD 0) aux)).withB b

/-- No delivery (R39). -/
def Dest.none_ : Dest := ⟨none, 0⟩

/-- SRCA 0x00 where an entry reads no source A. -/
def noSrc : Src := .s 0

/-- The fields of an instruction word; `none` for the machine's events, which have no word. -/
def encodeFields : Instr → Option Fields
  | .nop g => some (mk 0x00 0 g 0 0 0 0 0)
  | .trap g b => some ((mk 0x00 1 g 0 0 0 0 0).withBR b)
  | .bkpt g => some (mk 0x00 2 g 0 0 0 0 0)
  | .yield g n => some (mk 0x00 3 g 0 0 0 0 (modR 0 n 0))
  | .exit g => some (mk 0x00 4 g 0 0 0 0 0)
  | .rdv g => some (mk 0x00 5 g 0 0 0 0 0)
  | .pmark g b => some ((mk 0x00 6 g 0 0 0 0 0).withBR b)
  | .sysrd g d srn => some (mk 0x00 7 g d.dmask d.code 0 0 (modR (srn.extractLsb' 3 4) (srn.extractLsb' 0 3) 0))
  | .syswr g srn b => some ((mk 0x00 8 g 0 0 0 0 (modR (srn.extractLsb' 3 4) (srn.extractLsb' 0 3) 0)).withBR b)
  | .cntrd o die => some (mk 0x00 9 o.g o.d.dmask o.d.code 0 o.a.code (modR (0#3 ++ BitVec.ofBool die) 0 0))
  | .br o => some (encB 0 o)
  | .brl o => some (encB 1 o)
  | .bri g a b => some (mk 0x01 2 g 0 0 a.code b.code 0)
  | .bril o => some (mk 0x01 3 o.g o.d.dmask o.d.code o.a.code o.b.code 0)
  | .loop g l n len => some (mk 0x02 0 g 0 (0#6 ++ l) n.code 0 len)
  | .mloop g l n stg rv len => some (mk 0x02 1 g 0 (0#6 ++ l) n.code (stg ++ rv) len)
  | .lbrk g l => some (mk 0x02 2 g 0 (0#6 ++ l) 0 0 0)
  | .rep g n sd sa sb stride =>
    some (mk 0x02 3 g 0 0 0 (0#3 ++ stride ++ BitVec.ofBool sb ++ BitVec.ofBool sa ++ BitVec.ofBool sd) n)
  | .pand o => some (encP 0 o)
  | .por o => some (encP 1 o)
  | .pxor o => some (encP 2 o)
  | .pandn o => some (encP 3 o)
  | .pmov g d na pa => some (mk 0x03 4 g d.dmask d.code (0#5 ++ pa) 0 (modR (0#3 ++ BitVec.ofBool na) 0 0))
  | .qtest g d t => some (mk 0x03 5 g d.dmask d.code t.codes.2 0 (modR t.codes.1 0 0))
  | .add o => some (encR 0x10 0 o 0 0)
  | .sub o => some (encR 0x10 1 o 0 0)
  | .mul o => some (encR 0x10 2 o 0 0)
  | .mulh o => some (encR 0x10 3 o 0 0)
  | .mulhu o => some (encR 0x10 4 o 0 0)
  | .div o => some (encR 0x10 5 o 0 0)
  | .divu o => some (encR 0x10 6 o 0 0)
  | .rem o => some (encR 0x10 7 o 0 0)
  | .remu o => some (encR 0x10 8 o 0 0)
  | .madd o => some (encR 0x10 9 o 0 0)
  | .lea o sh => some (encR 0x10 10 o sh 0)
  | .and o => some (encR 0x11 0 o 0 0)
  | .or o => some (encR 0x11 1 o 0 0)
  | .xor o => some (encR 0x11 2 o 0 0)
  | .andn o => some (encR 0x11 3 o 0 0)
  | .shl o => some (encR 0x11 4 o 0 0)
  | .shr o => some (encR 0x11 5 o 0 0)
  | .sra o => some (encR 0x11 6 o 0 0)
  | .rot o => some (encR 0x11 7 o 0 0)
  | .clz o => some (encR1 0x11 8 o 0 0 0)
  | .popc o => some (encR1 0x11 9 o 0 0 0)
  | .bext o len => some (encR 0x11 10 o (len.extractLsb' 3 4) (len.extractLsb' 0 3))
  | .bins o len => some (encR 0x11 11 o (len.extractLsb' 3 4) (len.extractLsb' 0 3))
  | .min o => some (encR 0x12 0 o 0 0)
  | .max o => some (encR 0x12 1 o 0 0)
  | .minu o => some (encR 0x12 2 o 0 0)
  | .maxu o => some (encR 0x12 3 o 0 0)
  | .sel o neg p => some (encR 0x12 4 o (0#3 ++ BitVec.ofBool neg) p)
  | .mov g d b => some (encR 0x12 5 ⟨g, d, noSrc, b⟩ 0 0)
  | .cmp o c => some (encR 0x13 0 o c.code 0)
  | .fadd o => some (encR 0x14 0 o 0 0)
  | .fsub o => some (encR 0x14 1 o 0 0)
  | .fmul o => some (encR 0x14 2 o 0 0)
  | .ffma o => some (encR 0x14 3 o 0 0)
  | .fmin o => some (encR 0x14 4 o 0 0)
  | .fmax o => some (encR 0x14 5 o 0 0)
  | .fcmp o c x => some (encR 0x14 6 o c.code (0#2 ++ BitVec.ofBool x))
  | .fcvt o k => some (encR1 0x14 7 o k.codes.2.1 k.codes.1 k.codes.2.2)
  | .frnd o r => some (encR1 0x14 8 o 0 0 r.code)
  | .ld o => some (encLd 0x30 o)
  | .vld o => some (encVld 1 o)
  | .vldx o => some (encVld 2 o)
  | .pref g at_ scope mc =>
    some ((mk 0x30 3 g 0 0 at_.base.code 0 (modM 0 0 scope.code 0 false (0#1 ++ BitVec.ofBool mc))).withB at_.idx)
  | .st o => some (encSt 0x31 0 o)
  | .vst o => some (encVst 1 o)
  | .vstx o => some (encVst 2 o)
  | .gst o => some (encGst o)
  | .sbind g m b data => some ((mk 0x32 0 g 0 0 (0b00110#5 ++ m) 0 (modR (0#3 ++ BitVec.ofBool data) 0 0)).withBR b)
  | .snext g m b => some (mk 0x32 1 g 0 0 (0b00110#5 ++ m) b.code 0)
  | .stest g d m c => some (mk 0x32 2 g d.dmask d.code (0b00110#5 ++ m) 0 (modR c.code 0 0))
  | .sdrop g m => some (mk 0x32 3 g 0 0 (0b00110#5 ++ m) 0 0)
  | .tlook g d b => some ((mk 0x33 0 g d.dmask d.code 0 0 0).withBR b)
  | .tset g a b => some ((mk 0x33 1 g 0 0 a.code 0 0).withBR b)
  | .tinv g all a => some (mk 0x33 2 g 0 0 a.code 0 (modR (0#3 ++ BitVec.ofBool all) 0 0))
  | .feset o => some (encFe 0 o)
  | .feclr o => some (encFe 1 o)
  | .fetest g d at_ => some ((mk 0x34 2 g d.dmask d.code at_.base.code 0 0).withB at_.idx)
  | .l1wb o => some (encL1 3 o)
  | .l1inv o => some (encL1 4 o)
  | .fence g k scope => some (mk 0x38 0 g 0 0 0 0 (modM k.code 0 scope.code 0 false 0))
  | .aadd o => some (encA 0 o)
  | .amin o => some (encA 1 o)
  | .amax o => some (encA 2 o)
  | .aand o => some (encA 3 o)
  | .aor o => some (encA 4 o)
  | .axor o => some (encA 5 o)
  | .axch o => some (encA 6 o)
  | .acas o => some (encA 7 o)
  | .afadd o =>
    some ((mk 0x39 8 o.g o.d.dmask o.d.code o.at_.base.code 0
      (modM (0#3 ++ o.fmt) o.rnd.code o.scope.code 0 false (if o.fmt == 0 then 2 else 1))).withB o.at_.idx)
  | .lda o => some (encLd 0x3A o)
  | .stl o => some (encSt 0x3A 1 o)
  | .waitt o => some (encC 0x3B 0 o.g o.d o.ctr o.a o.b o.nb 0)
  | .tlrd g d ctr w => some (encC 0x3B 1 g d ctr noSrc noSrc none w.code)
  | .tladv g d ctr b scope => some (encC 0x3B 2 g d ctr noSrc b none (0#5 ++ scope.code))
  | .vadd o => some (encV 0x60 0 o 0 false false)
  | .vsub o => some (encV 0x60 1 o 0 false false)
  | .vmul o => some (encV 0x60 2 o 0 false false)
  | .vfma o => some (encV 0x60 3 o 0 false false)
  | .vmin o int => some (encV 0x60 4 o 0 false int)
  | .vmax o int => some (encV 0x60 5 o 0 false int)
  | .vabs o int => some (encV1 0x60 6 o 0 false int)
  | .vneg o int => some (encV1 0x60 7 o 0 false int)
  | .vand o => some (encV 0x61 0 o 0 false false)
  | .vor o => some (encV 0x61 1 o 0 false false)
  | .vxor o => some (encV 0x61 2 o 0 false false)
  | .vshl o => some (encV 0x61 3 o 0 false false)
  | .vshr o sra => some (encV 0x61 4 o (0#3 ++ BitVec.ofBool sra) false false)
  | .viadd o => some (encV 0x61 5 o 0 false false)
  | .vimul o => some (encV 0x61 6 o 0 false false)
  | .vmov o int => some (encV1 0x62 0 o 0 false int)
  | .vbcst o => some (encV 0x62 1 o 0 false false)
  | .vsel o int => some (encV 0x62 2 o 0 false int)
  | .vshuf o => some (encV 0x62 3 o 0 false false)
  | .vrot o dir => some (encV 0x62 4 o dir.code false false)
  | .vext o w => some (encV 0x62 5 o w.codeE false false)
  | .vins o w => some (encV 0x62 6 o w.codeI false false)
  | .vcmp o c int x => some (encV 0x63 0 o c.code x int)
  | .kand g d ka kb => some (mk 0x63 1 g d.dmask d.code (0x1#4 ++ ka) (0x1#4 ++ kb) 0)
  | .kor g d ka kb => some (mk 0x63 2 g d.dmask d.code (0x1#4 ++ ka) (0x1#4 ++ kb) 0)
  | .knot g d ka => some (mk 0x63 3 g d.dmask d.code (0x1#4 ++ ka) 0 0)
  | .kpopc g d ka lw k => some (mk 0x63 4 g d.dmask d.code (0x1#4 ++ ka) 0 (modR 0 (0#2 ++ BitVec.ofBool lw) k))
  | .vcvt o k c => some (mk 0x64 0 o.g o.d.dmask o.d.code o.a.code 0 (modR c.codes.1 c.codes.2 k))
  | .vqnt o k w r => some ((mk 0x64 1 o.g o.d.dmask o.d.code o.a.code 0 (modR w.code r.code k)).withB o.b)
  | .vdq o k w => some ((mk 0x64 2 o.g o.d.dmask o.d.code o.a.code 0 (modR w.code 0 k)).withB o.b)
  | .vbmax o k w => some (mk 0x64 3 o.g o.d.dmask o.d.code o.a.code 0 (modR w.code 0 k))
  | .vred g a lw k rl op int =>
    some (mk 0x65 0 g 0 0 a.code 0 (modR (rl ++ op.code) (0#1 ++ BitVec.ofBool int ++ BitVec.ofBool lw) k))
  | .vrmov g d rl clr =>
    some (mk 0x65 1 g d.dmask d.code 0 0
      (modR (0#1 ++ BitVec.ofBool clr.isSome ++ rl) (match clr with
        | none => 0
        | some c => c.code) 0))
  | .vscan o op int excl => some (encV1 0x65 2 o (0#2 ++ op.code) excl int)
  | .vsfu o w => some (encV1 0x66 0 o w.code false false)
  | .vsmax o => some (encV1 0x66 1 o 0 false false)
  | .vrng g d unif lw k =>
    some (mk 0x67 0 g d.dmask d.code 0 0 (modR (0#3 ++ BitVec.ofBool unif) (0#2 ++ BitVec.ofBool lw) k))
  | .lease g nb => some (encC 0x80 0 g .none_ 0 noSrc noSrc nb 0)
  | .lrel g => some (encC 0x80 1 g .none_ 0 noSrc noSrc none 0)
  | .mma o => some (mk 0x81 0 o.g 0 (0#7 ++ BitVec.ofBool o.acc) o.a.code o.b.code (match o.sel with
      | .ft n => modX false n 0 o.tb o.ta o.ks
      | .ftl => modX true 0 0 o.tb o.ta o.ks))
  | .mmas o => some (mk 0x81 1 o.g 0 (0#7 ++ BitVec.ofBool o.acc) o.a.code o.b.code (match o.sel with
      | .ft n => modX false n o.sp o.tb false o.ks
      | .ftl => modX true 0 o.sp o.tb false o.ks))
  | .mzero g acc => some (mk 0x81 2 g 0 (0#7 ++ BitVec.ofBool acc) 0 0 0)
  | .mfmt g n b => some (encC 0x82 0 g .none_ 0 noSrc b none (0#4 ++ n))
  | .mscl g n flt b => some (encC 0x82 1 g .none_ 0 noSrc b none (0#4 ++ BitVec.ofBool flt ++ n))
  | .msq g n a b => some (encC 0x82 2 g .none_ 0 a b none (0#6 ++ n))
  | .mret g d ctr acc a b => some (encC 0x83 0 g d ctr a b none (0#7 ++ BitVec.ofBool acc))
  | .wcsld o n => some (encC 0x90 0 o.g o.d 0 o.a o.b o.nb n)
  | .wbind g a b => some (encC 0x90 1 g .none_ 0 a b none 0)
  | .wunb g all a => some (encC 0x90 2 g .none_ 0 a noSrc none (0#7 ++ BitVec.ofBool all))
  | .wcsrd g a b n => some (encC 0x90 3 g .none_ 0 a b none n)
  | .wstat g d b w => some (encC 0x90 4 g d 0 noSrc b none (0#6 ++ w))
  | .customOpcode o =>
    some ⟨o.major, o.sub, o.g.code, o.dmask, o.lit.isSome, false, o.dst, o.srca, o.srcb, o.mod, o.lit.getD 0⟩
  | .ltag o => some (encC 0xA0 0 o.g o.d 0 noSrc o.b o.nb 0)
  | .lfree g a => some (encC 0xA0 1 g .none_ 0 a noSrc none 0)
  | .ldesc g a b => some (encC 0xA0 2 g .none_ 0 a b none 0)
  | .lsend g row b nb =>
    some ((mk 0xA0 3 g 0 0 (1#1 ++ row) 0 (modC 0 nb.isSome (nb.getD 0) 0)).withB b)
  | .lstat g d a => some (encC 0xA0 4 g d 0 a noSrc none 0)
  | .lorph g d a => some (encC 0xA0 5 g d 0 a noSrc none 0)
  | .cego o => some (encC 0xA8 0 o.g o.d o.ctr o.a o.b o.nb 0)
  | .cestop g => some (encC 0xA8 1 g .none_ 0 noSrc noSrc none 0)
  | .cestat g d => some (encC 0xA8 2 g d 0 noSrc noSrc none 0)
  | .ctab g a b => some (encC 0xA9 0 g .none_ 0 a b none 0)
  | .ctile g d ctr a b => some (encC 0xA9 1 g d ctr a b none 0)
  | .cringSet g a b => some (encC 0xA9 2 g .none_ 0 a b none 0)
  | .cringDone g d a => some (encC 0xA9 2 g d 0 a noSrc none 1)
  | .cringStat g d a => some (encC 0xA9 2 g d 0 a noSrc none 2)
  | .rslotReq g d a b => some (encC 0xA9 3 g d 0 a b none 0)
  | .rslotRel g a => some (encC 0xA9 3 g .none_ 0 a noSrc none 1)
  | .rendezvousRelease .. => none
  | .galleryArrival .. => none
  | .streamBlockFetch .. => none
  | .vredLanding .. => none
  | .noiseGrant .. => none
  | .resultDelivery .. => none
  | .leaseGrant .. => none
  | .kStepEntry .. => none
  | .sparsityStallTimeout .. => none
  | .arrayCommandComplete .. => none
  | .retirementStart .. => none
  | .retirementComplete .. => none
  | .microStep .. => none
  | .pageFetch .. => none
  | .fragmentArrival .. => none
  | .fragmentAnswer .. => none
  | .fragmentResend .. => none
  | .overflowReadback .. => none
  | .landingDelivery .. => none
  | .orphanTimeout .. => none
  | .chainCopy .. => none
  | .chainLoop .. => none
  | .chainIf .. => none
  | .chainWait .. => none
  | .chainSignal .. => none
  | .chainNotify .. => none
  | .chainEnd .. => none
  | .tileFireComplete .. => none
  | .rslotAnswer .. => none
  | .stepSend .. => none
  | .stepRecv .. => none
  | .stepReduce .. => none
  | .stepWaitf .. => none
  | .stepNext .. => none
  | .fabricLineArrival .. => none
  | .fabricAckTimeout .. => none
  | .stepWaitTimeout .. => none
  | .fabricLinkFailure .. => none
  | .staggerMessage .. => none
  | .staggerRelease .. => none
  | .instructionFetch .. => none
  | .memoryAccessPerformed .. => none
  | .lateFault .. => none
  | .storeAck .. => none
  | .homeRequestApply .. => none
  | .remoteRequest .. => none
  | .queueDeadlock .. => none
  | .timelineWaitTimeout .. => none
  | .fullEmptyTimeout .. => none
  | .drawWaitTimeout .. => none
  | .wcsldWaitTimeout .. => none
  | .landingCreditTimeout .. => none
  | .noiseHealthFail .. => none
  | .jobStart .. => none
  | .jobCompletion .. => none
  | .kick .. => none
  | .operatorRecord .. => none
  | .collectiveRecord .. => none
  | .waitRecord .. => none
  | .waitRecordPoll .. => none
  | .signalRecord .. => none
  | .tiletabRecord .. => none
  | .csimageRecord .. => none
  | .rslotRecord .. => none
  | .recordReady .. => none
  | .chunkHandout .. => none
  | .recordCompletion .. => none
  | .timeSliceExpiry .. => none
  | .dieFence .. => none
  | .boundaryFailure .. => none
  | .newelElection .. => none
  | .preemptionStopComplete .. => none
  | .contextRestore .. => none
  | .yieldDeadline .. => none
  | .faultReply .. => none
  | .archStateError .. => none
  | .hbmUncorrectable .. => none
  | .correctableError .. => none
  | .rowActivation .. => none
  | .refreshWindowEnd .. => none
  | .tsdGo .. => none
  | .shootdownComplete .. => none
  | .migStart .. => none
  | .migrationCopy .. => none
  | .migEnd .. => none
  | .migAbort .. => none
  | .cxlMemRead .. => none
  | .cxlMemWrite .. => none
  | .pcfgGo .. => none
  | .repartitionDone => none
  | .ctxCreate .. => none
  | .ctxDestroy .. => none
  | .qCreate .. => none
  | .qDestroy .. => none
  | .qPolicy .. => none
  | .ctxPolicy .. => none
  | .preempt .. => none
  | .ctxResume .. => none
  | .vfAssign .. => none
  | .modnum .. => none
  | .fwreg .. => none
  | .pwrstagSend .. => none
  | .cxlwin .. => none
  | .keyid .. => none
  | .tdispLockInterface .. => none
  | .spdmRequest .. => none
  | .moduleReset .. => none
  | .hostLinkTraining .. => none
  | .governorInterval => none
  | .prfReq .. => none
  | .prfRel .. => none
  | .profilingSliceEnd .. => none
  | .dbgStop .. => none
  | .dbgResume .. => none
  | .registerWrite .. => none
  | .noiseHealthRecover .. => none
  | .functionReset .. => none
  | .tdispStartInterface .. => none
  | .tdispStopInterface .. => none
  | .traceRecordWrite .. => none

/-- The word of an instruction and its literal (0 where it is not wide). -/
def encode (i : Instr) : Option (BitVec 64 × BitVec 32) :=
  (encodeFields i).map fun f => (f.word, f.lit)

/-- The instruction the decoder reads from the bits `w` of a table row: the word in bits 63..0 and the literal in bits 95..64, for
the first stream of SC, LD, CX, ST that may issue it. -/
def decodeTableWord (_nbits w : Nat) : Option Instr :=
  let word := BitVec.ofNat 64 w
  let lit := BitVec.ofNat 32 (w >>> 64)
  match decode .sc word lit with
  | .ok i => some i
  | .error _ =>
    match decode .ld word lit with
    | .ok i => some i
    | .error _ =>
      match decode .cx word lit with
      | .ok i => some i
      | .error _ =>
        match decode .st word lit with
        | .ok i => some i
        | .error _ => none

end Sys2Proof
end

