-- ==== Sys2Proof/Config.lean ====
section
/-!
DEFINITION. What one implementation fixes and what the spec leaves open: opaque constants without a body, applied to the
draw counter of the state or to the operands they depend on. Nothing can be proved of their values.
-/

namespace Sys2Proof

/-- A free choice between two allowed behaviours, by draw number (log entries 8 and 9). -/
opaque Config.freeBit : Nat → Bool

/-- A free choice among several allowed behaviours, by draw number (log entry 8). -/
opaque Config.freeNat : Nat → Nat

/-- A free byte, by draw number: what another module's memory holds (log entry 15). -/
opaque Config.freeByte : Nat → Byte

/-- A free 64-bit value, by draw number. -/
opaque Config.freeWord : Nat → Word

/-- Which of the results that R91 allows a special function returns, by function, width (W18) and operand image (log entry 10). -/
opaque Config.sfuPick : SfuFn → Bool → Nat → Nat

/-- The 16-bit draw at a position of a bay's conditioned noise source (R234, log entry 11). -/
opaque Config.noise : Nat → Nat → BitVec 16

/-- The 16-byte block that results where a block written under one key version is read under another, by both versions, the number of
the block and the stored plaintext (R390, log entry 12). -/
opaque Config.crossKey : Nat → Nat → Nat → BitVec 128 → BitVec 128

/-- The HBM row number that holds a line, by line number (R385, log entry 20). -/
opaque Config.hbmRow : Nat → Nat

/-- The control-store ROM: the 128-bit word at each of the 8,192 addresses (R268, log entry 13). -/
opaque Config.rom : Nat → BitVec 128

/-- The ROM identifier less 1: R301 makes the identifier nonzero (log entry 13). -/
opaque Config.romIdPred : Fin 18446744073709551615

/-- The ROM identifier, a nonzero value (R301). -/
def Config.romId : Word := BitVec.ofNat 64 (Config.romIdPred.val + 1)

/-- The SHA-512 digest of the firmware image in the module's flash (R418, R419, log entry 13). -/
opaque Config.fwDigest : BitVec 512

/-- Byte i of the ciphertext or tag of a context image, by context, save counter and position (R377, log entry 14). -/
opaque Config.sealByte : Nat → Nat → Nat → Byte

/-- The draws on module power that the governor reads, by draw number, in mW (R420, log entry 16). -/
opaque Config.drawPower : Nat → Nat

/-- The filler steps the governor asks for in an interval, by draw number (R422, log entry 16). -/
opaque Config.filler : Nat → Nat

/-- The core a chunk is placed on among those that can take it, by draw number (R362, log entry 18). -/
opaque Config.placement : Nat → Nat

end Sys2Proof
end

