-- ==== Sys2Proof/Machine/State.lean ====
section
/-!
DEFINITION. The machine's state as plain data: every register, queue, table, engine and record the spec gives the module, and its value after reset.
-/

namespace Sys2Proof.Machine

/-- Bytes of a memory by address: strictly rising addresses, no entry equal to 0, what an unlisted byte reads as (log entry 5). -/
abbrev Memory := List Host.Cell

/-! ### Streams (R94 to R103, R118 to R137) -/

/-- What an instruction held at issue waits for (R118), with the flag or class of R433. -/
inductive Wait where
  /-- no free entry in queue `q` (R99) -/
  | push (q : Nat)
  /-- empty or unfilled head of queue `q` (R100) -/
  | pop (q : Nat)
  /-- empty stream register (R156) -/
  | streamReg
  /-- full-empty granules of n bytes at this scratchpad offset (R149) -/
  | granule (off : Nat) (n : Nat)
  /-- timeline counter tN; `above` while n exceeds ISS (R191) -/
  | counter (n : Nat) (above : Bool)
  /-- rendezvous (R136) -/
  | rdv
  /-- array lease (R239) -/
  | lease
  /-- landing-port credit (R308) -/
  | credit
  /-- a landing answer, descriptor or resolution (R308, R319, R321) -/
  | landing
  /-- sparsity-queue space (R259) -/
  | sparsity
  /-- control-store page (R290) -/
  | page
  /-- pinned page under a WCSLD (R292) -/
  | pin
  /-- noise draws (R234) -/
  | draw
  /-- a cluster bank that the array reads in this cycle (R147) -/
  | bank
  /-- any other unit, reservation or acknowledgement (R433 BUSY) -/
  | busy
  deriving DecidableEq, Repr

/-- An active hardware loop (R124, R134). -/
structure LoopEnt where
  ctr : BitVec 2
  start : VAddr
  fin : VAddr
  count : Nat
  /-- an MLOOP (R128) with its stage count, region and kernel index -/
  mloop : Bool
  stages : Nat
  rv : Nat
  kernel : Nat
  /-- whether the KIND 2 record of the iteration has been written (R437) -/
  traced : Bool
  deriving DecidableEq, Repr

/-- A REP in force: its next target's repeat count, the repeat k, steps and stride (R126, R134). -/
structure RepSt where
  count : Nat
  k : Nat
  sd : Bool
  sa : Bool
  sb : Bool
  stride : Nat
  deriving DecidableEq, Repr

/-- Words fetched for a stream and not yet issued (R33, R34). -/
structure Fetched where
  pc : VAddr
  word : BitVec 64
  lit : BitVec 32
  deriving DecidableEq, Repr

/-- An issuer suspended on a translation fault (R371): the address, the trap ring index of its record, and the reply. -/
structure Susp where
  va : Nat
  idx : Nat
  /-- `some true` a refusal, `some false` a retry recorded while the context is held -/
  reply : Option Bool
  /-- the fault was late (R373) -/
  late : Bool := false
  deriving DecidableEq, Repr

/-- The piece of memory one part of an access touches: byte values with the mask of bits written (R57). -/
structure Piece where
  addr : Nat
  bytes : List (Byte × Byte)
  deriving DecidableEq, Repr

/-- What a logged memory access still has to do (R373). -/
inductive LogOp where
  /-- scalar load of n bytes for the reserved queue entries -/
  | ld (addr : Nat) (n : Nat)
  /-- row load: element addresses, format, captured descriptor, lanes -/
  | vld (addrs : List Nat) (packed : Bool) (fmt : Nat) (desc : BitVec 32) (lw : Bool)
  /-- stores -/
  | st (pieces : List Piece)
  /-- an atomic by its SUB and format (R198), with its operands and its draw -/
  | atomic (addr : Nat) (n : Nat) (sub : Nat) (fmt : Nat) (rnd : Rnd) (d : Word) (cmp : Word) (draw : Nat)
  /-- a gallery store on its way, by its identifier (R153) -/
  | gst (id : Nat)
  /-- nothing: the entry of an instruction that trapped only holds the row it popped (R370) -/
  | held
  deriving DecidableEq, Repr

/-- An operand-log entry (R373). -/
structure LogEnt where
  id : Nat
  pc : VAddr
  word : BitVec 64
  lit : BitVec 32
  repk : Nat
  scope : Scope
  op : LogOp
  /-- queue numbers of the entries reserved for it (R99) -/
  fills : List Nat
  /-- the popped row, where there is one -/
  row : Option Row
  /-- scalar values popped by it, in the order of R40 (R369) -/
  pops : List Word := []
  /-- the register it still has to write -/
  reg : Option Reg := none
  /-- uncorrectable elements read as zero (R158) -/
  zf : Bool := false
  /-- the acquire that follows the load of an LDA (R197) -/
  acq : Option Scope := none
  /-- the request that an atomic on another module has sent (R199) -/
  sent : Option Nat := none
  deriving DecidableEq, Repr

/-- The 64-byte pattern descriptor of R155, also a copy-engine pattern (R326). -/
structure Pattern where
  base : BitVec 56
  str0 : BitVec 64
  str1 : BitVec 64
  str2 : BitVec 64
  str3 : BitVec 64
  cnt0 : BitVec 32
  cnt1 : BitVec 32
  cnt2 : BitVec 32
  cnt3 : BitVec 32
  blk : BitVec 16
  deriving DecidableEq, Repr

/-- A fetched block: its bytes, or `none` where its fetch met a fault that its pop raises (R156). -/
structure Block where
  index : Nat
  bytes : Option (List Byte)
  deriving DecidableEq, Repr

/-- A bound stream register (R155, R156). -/
structure MReg where
  data : Bool
  pat : Pattern
  pos : Nat
  buf : List Block
  deriving DecidableEq, Repr

/-- One engine stream's registers and sequencing state (R97, R134). -/
structure Stream where
  /-- program counter (R32) -/
  pc : VAddr := 0
  /-- entry address (R353, R379) -/
  entry : VAddr := 0
  /-- s0 to s31 (R97) -/
  s : Tbl Word := []
  /-- a0 to a15 (R97) -/
  a : Tbl Word := []
  /-- p0 to p7; bit 0 is hard-wired true (R97) -/
  p : BitVec 8 := 1
  /-- m0 to m7 (R155) -/
  m : OTbl MReg := []
  /-- arithmetic status (R79) -/
  asr : Word := 0
  /-- draw-ring registers (R235) -/
  rngc : Word := 0
  rngp : Word := 0
  /-- active loops, innermost first (R124) -/
  loops : List LoopEnt := []
  rep : Option RepSt := none
  /-- RDV instructions issued (R136) -/
  rdv : Nat := 0
  rdvWait : Bool := false
  exited : Bool := false
  /-- it has acted a YIELD: the restore address of the pair it read (R379, R380) -/
  yielded : Option VAddr := none
  fetched : Option Fetched := none
  /-- the wait in progress and its consecutive cycles (R102, R149, R191, R234, R292, R308) -/
  wait : Option (Wait × Nat) := none
  susp : Option Susp := none
  /-- stopped at an instruction boundary for a pre-emption, a stop or a hold (R375) -/
  stopped : Bool := false
  /-- a trap of this stream is recorded: it issues nothing more (R370) -/
  trapped : Bool := false
  /-- the next issue is not checked against the watchpoints (R372) -/
  wpSkip : Bool := false
  /-- operand log, oldest first (R373) -/
  log : List LogEnt := []
  /-- results that have not filled their reserved entries yet: the cycle from which they may, the reservation, the value (R99) -/
  returned : List (Nat × Nat × (Word ⊕ Row)) := []
  /-- kept log entries are re-issued before anything else (R374) -/
  replay : Bool := false
  /-- stores whose acknowledgement the release in progress waits for (R178, R185) -/
  unacked : List Nat := []
  /-- a FENCE of kind rel at strm or core scope: entries of the log with a smaller identifier come before every later store (R177) -/
  relAt : Nat := 0
  /-- a satisfied WAITT, or a passed rendezvous: loads of the log with a smaller identifier come before every later access (R177) -/
  acqAt : Nat := 0
  /-- the queue-wait counter (R102) -/
  qwait : Nat := 0
  /-- draws of earlier grants for the instruction that waits for more (R234) -/
  drawn : List Nat := []
  /-- clock summaries of the writes its loads returned since its last acquire (R182) -/
  seen : Tbl Nat := []
  /-- the release of a waiting FENCE or STL has made its L1 action and waits for acknowledgements (R185, R195) -/
  relDone : Bool := false
  /-- outcome of a non-blocking command decided outside the stream: lease, send or slot answer -/
  answer : Option Word := none
  deriving DecidableEq, Repr

/-- An entry of a scalar queue: filled, or reserved by the log entry of this identifier (R99). -/
inductive QEnt where
  | full (w : Word)
  | resv (id : Nat)
  deriving DecidableEq, Repr

/-- An entry of a vector queue (R98, R99). -/
inductive VEnt where
  | full (r : Row)
  | resv (id : Nat)
  deriving DecidableEq, Repr

/-- A timeline counter (R187): `early` lists the numbers completed out of order (R188). -/
structure TCtr where
  iss : Word := 0
  done : Word := 0
  errn : Word := 0
  acqs : Scope := .strm
  early : List Nat := []
  deriving DecidableEq, Repr

/-- A TLADV whose release has not completed (R203): the numbers it took, the log entries still to perform, and then the
acknowledgements still to come. -/
structure Adv where
  strm : Strm
  ctr : BitVec 4
  first : Nat
  n : Nat
  scope : Scope
  log : List Nat
  acks : List Nat
  deriving DecidableEq, Repr

/-- A VRED in flight: its latch, operation and tree result (R226, R227). -/
structure RedLand where
  time : Nat
  rl : BitVec 2
  op : RedOp
  int : Bool
  /-- float: W36 image, or `none` for an absent row -/
  flt : Option (BitVec 36)
  /-- integer: exact value and sticky -/
  ival : Option (Int × Bool)
  nv : Bool
  deriving DecidableEq, Repr

/-- What a micro step that waits has sampled and reserved (R282 items 2 and 3). -/
structure MicroSample where
  /-- its condition, and the latch of a drain -/
  holds : Bool
  latch : BitVec 36
  /-- the latch that the drain cleared, and what has landed in it since -/
  cleared : Option (BitVec 2)
  landed : List RedLand := []
  /-- entries of the CX→ST queue reserved for it, once made -/
  resv : Option (List Nat) := none
  deriving DecidableEq, Repr

/-- A routine in progress on CX (R271, R294). -/
structure Micro where
  upc : BitVec 14
  steps : Nat
  mt : Tbl Word
  vt : Tbl Row
  mlc : BitVec 16
  res : Word
  ag : Tbl Word
  as_ : Tbl (BitVec 32)
  entry : Word
  ops : CustomOps
  pc : VAddr
  word : BitVec 64
  /-- array staging, never saved (R280) -/
  stageA : Tbl Row
  stageB : Tbl Row
  feed : Bool
  /-- the step now waiting has been counted (R288) -/
  counted : Bool
  /-- cycle from which each result may be read: vt rows 0 to 3, mt registers 8 to 15 (R458) -/
  ready : Tbl Nat
  /-- the RETIRE step has been made: the invocation retires in this cycle, when its result is delivered (R237, R271) -/
  ending : Option Nat
  /-- what the step now waiting has sampled and reserved -/
  sample : Option MicroSample := none
  deriving DecidableEq, Repr

/-- Where a retired row or a copied block goes: the scratchpad, the cluster region, or translated memory as physical pieces (R262, R327). -/
inductive RowDst where
  | spad (off : Nat)
  | cluster (off : Nat)
  | phys (ps : List (Nat × Nat))
  deriving DecidableEq, Repr

/-- A chain held by the copy engine (R325, R329). -/
structure Chain where
  head : Nat
  ctr : BitVec 4
  num : Word
  /-- its NOTIFY has completed the number (R327) -/
  notified : Bool := false
  deriving DecidableEq, Repr

/-- The copy engine's saved state (R329). -/
structure CopyEng where
  chains : List Chain := []
  entry : Nat := 0
  block : Nat := 0
  lc : Tbl Nat := []
  lca : BitVec 4 := 0
  wait : Option (Wait × Nat) := none
  susp : Option Susp := none
  stopped : Bool := false
  trapped : Bool := false
  unacked : List Nat := []
  /-- clock summaries of the writes its reads returned since its last acquire (R182) -/
  seen : Tbl Nat := []
  /-- the entry that the engine has read and is at (R325) -/
  cur : Option (BitVec 256) := none
  /-- the patterns of the COPY it is at (R327) -/
  pats : Option (Pattern × Pattern) := none
  /-- the block in flight: where its remaining bytes go, and these bytes -/
  flight : Option (RowDst × List Byte) := none
  /-- the release of the SIGNAL or NOTIFY it is at has been made, and the number that a SIGNAL has taken (R203, R327) -/
  relDone : Bool := false
  sigNum : Option Nat := none
  /-- a CESTOP waits for the block in flight, and then for the release of the completions it makes (R189, R332) -/
  stopReq : Bool := false
  stopRel : Bool := false
  deriving DecidableEq, Repr

/-- What a CX instruction uses, as far as groups and banks go (R104, R105): registers, predicates and masks it reads and writes by
key, queues it names, physical rows it reads through a port, and its places. -/
structure CxUse where
  reads : List Nat
  writes : List Nat
  queues : List Nat
  rows : List Nat
  /-- in majors 0x80 to 0x83 -/
  matrix : Bool
  /-- lane-pipe occupancy of 1 (R237) -/
  lane : Bool
  /-- a `VRED` that its predicate lets run: the reduction slot accepts one in a cycle (R226) -/
  red : Bool
  /-- in a major that never joins a group -/
  alone : Bool
  deriving DecidableEq, Repr

/-- A running job: its parameters, per-job registers, queues and streams (R29, R31). -/
structure Job where
  ctx : Nat
  queue : Nat
  rid : Nat
  chunk : Nat
  first : Word
  count : Word
  die : Word
  stage : BitVec 6
  lease : Bool
  maxrd : Nat
  /-- gwin0 to gwin3 (R154) -/
  gwin : Tbl Word
  /-- cluster-region size in bytes (R139) -/
  cpsz : Nat
  fd : Tbl (BitVec 32)
  ft : Tbl (BitVec 32)
  g : Tbl Word
  sq : Tbl (List (BitVec 512))
  t : Tbl TCtr
  /-- TLADV releases in progress, oldest first (R203) -/
  adv : List Adv
  /-- l0 to l3 and their holders (R123) -/
  l : Tbl Word
  lhold : OTbl Strm
  uwv : Word
  uwin : Tbl Word
  v : Tbl Row
  /-- k1 to k15; k0 reads all ones (R97) -/
  k : Tbl Mask
  rl : Tbl (BitVec 36)
  redl : List RedLand
  /-- rotation bases of rows and masks, and the region in force (R130) -/
  rrbV : Nat
  rrbK : Nat
  rvR : Nat
  /-- chain depth, open chain, saved grant (R243, R244, R265) -/
  rd : Nat
  co : Bool
  lh : Bool
  /-- scalar queues by number 4x + y (R98) -/
  q : Tbl (List QEnt)
  vqLd : List VEnt
  vqCx : List VEnt
  micro : Option Micro
  ce : CopyEng
  /-- cycle at which each CX result may first be read: rows 0 to 127, masks 128 to 143, s 144 to 175, a 176 to 191,
  predicates 192 to 199 (R237) -/
  ready : Tbl Nat
  /-- the use of the instruction that CX issued first in its group of this cycle (R105) -/
  cxFirst : Option CxUse
  /-- CX issues its next group from this cycle on (R105) -/
  cxFrom : Nat
  sc : Stream
  ld : Stream
  cx : Stream
  st : Stream
  /-- the job started (JOB_START) at this cycle, for the time slice (R364) -/
  since : Nat
  deriving DecidableEq, Repr

/-! ### Local memory (R138 to R170) -/

/-- An L1 line (R143): physical line address with key, valid and dirty byte masks, scopes, and the fill's clock (R182). -/
structure L1Line where
  pa : Nat
  data : BitVec 1024
  vb : BitVec 128
  db : BitVec 128
  ws : Scope
  fs : Scope
  ctx : Nat
  clk : Tbl Nat
  /-- the way of the unified array that holds it (R140, R452) -/
  way : Nat := 0
  deriving DecidableEq, Repr

/-- A translation-cache entry (R398): ASID, page base, log2 of the page size and the leaf. -/
structure TlbEnt where
  asid : Nat
  va : Nat
  lg : Nat
  pte : Word
  deriving DecidableEq, Repr

/-- A physical control-store page (R291, R292): context, slot, words with refusal marks, pin, loading, last use. -/
structure Page where
  ctx : Nat
  slot : Nat
  words : Tbl (BitVec 128)
  pinned : Bool
  loading : Bool
  used : Nat
  /-- to be invalidated once its pin ends (R298) -/
  stale : Bool
  deriving DecidableEq, Repr

/-- The core-tier observation registers of one context on one core (R428, R436, R439). -/
structure Obs where
  ctx : Nat := 0
  cnt : Tbl (BitVec 48) := []
  csel : Tbl Word := []
  wp : Tbl Word := []
  trc : Word := 0
  trp : Word := 0
  /-- trace records not yet in memory, oldest first, at most 8 (R437) -/
  buf : List (BitVec 256) := []
  deriving DecidableEq, Repr

/-! ### The matrix array (R238 to R266) -/

/-- An operand of an array command: vector rows from F, a cluster pair (base, row pitch, tile pitch, rotation), or the staging rows. -/
inductive ArrSrc where
  | rows (f : Nat)
  | cluster (base : Nat) (rp : Nat) (tp : Nat) (rot : Nat)
  | staged (rows : Tbl Row)
  deriving DecidableEq, Repr

/-- A scale captured at issue (R252, R192). -/
inductive ScaleCap where
  | none
  | tensor (w : BitVec 36)
  | block (base : Nat) (pitch : Nat)
  deriving DecidableEq, Repr

/-- What an array command does: multiply (dense, or sparse with N of 8 elements), zero a region, or retire it. -/
inductive ArrKind where
  | mma (sparse : Nat)
  | mzero
  | mret (desc : BitVec 256) (fd : BitVec 32) (ctr : BitVec 4) (num : Word) (rows : List RowDst) (draws : List Nat)
  deriving DecidableEq, Repr

/-- An issued array command or MRET with everything captured at issue (R192, R240, R242). -/
structure ArrCmd where
  id : Nat
  kind : ArrKind
  acc : Bool
  a : ArrSrc
  b : ArrSrc
  ta : Bool
  tb : Bool
  ks : Nat
  afmt : Nat
  bfmt : Nat
  afd : BitVec 32
  bfd : BitVec 32
  ascale : ScaleCap
  bscale : ScaleCap
  w18 : Bool
  int : Bool
  sq : BitVec 2
  issued : Nat
  pc : VAddr
  word : BitVec 64
  /-- the vector rows its operands read (R247) -/
  reads : List Nat
  /-- K-steps (or groups) already entered -/
  step : Nat
  /-- cycle in which it completes, once its last step entered or its retirement ran -/
  completes : Option Nat
  /-- it left the queue, and the cycle in which it did: its slot is free from the next one (R242) -/
  left : Bool
  leftAt : Nat := 0
  nv : Bool
  /-- flags of its retirement, for CX's status at completion (R262) -/
  flg : BitVec 6 := 0
  /-- lines of a retirement sent and not applied yet (R262) -/
  acks : List Nat
  deriving DecidableEq, Repr

/-! ### Landings (R303 to R323) -/

/-- The state of one tag index (R304, R322). -/
structure TagSt where
  alloc : Bool := false
  gen : BitVec 4 := 0
  owner : Nat := 0
  orphaned : Bool := false
  desc : Option (BitVec 256) := none
  oq : Bool := false
  ls : Bool := false
  flg : BitVec 6 := 0
  dlv : BitVec 16 := 0
  orc : BitVec 16 := 0
  deriving DecidableEq, Repr

/-- Where an operand's data stands (R309): a slot of the landing, or an entry of the context's overflow area. -/
inductive OpPlace where
  | slot
  | overflow (entry : Nat)
  deriving DecidableEq, Repr

/-- A fragment as it was sent: its operand, the descriptor of a custom format its sender read (R192), and the clock of its
sender's die (R182, R314). -/
structure Parcel where
  ctx : Nat
  tag : BitVec 32
  fi : Nat
  src : Nat
  fd : BitVec 32
  clk : Tbl Nat
  rows : BitVec 36864
  deriving DecidableEq, Repr

/-- An operand in a landing (R309); its rows stand in memory while its place is the overflow area. -/
structure Operand where
  id : Nat
  landing : Nat
  p : Parcel
  place : OpPlace
  /-- the cycle in which its timer expires -/
  expire : Nat
  /-- orphaned, with its WHY, and waiting for room in the orphan queue or the overflow area (R312) -/
  stuck : Option (BitVec 8) := none
  /-- its orphan record is queued, while its rows stay in the slot for want of an overflow entry (R312) -/
  queued : Bool := false
  susp : Option Susp := none
  deriving DecidableEq, Repr

/-- A combine or a result on its way to its destination parts (R310, R311). -/
structure Delivery where
  id : Nat
  landing : Nat
  p : Parcel
  /-- the second operand, while the spilled first one in this overflow entry is read back (R310) -/
  pending : Option (Nat × Parcel) := none
  nv : Bool
  /-- destination parts still to be served: module core numbers, or 1,024 for the members of a gallery -/
  parts : List Nat
  /-- the overflow entry of a spilled operand, kept for the result while a part holds a saved job (R311) -/
  back : Option Nat := none
  /-- where a result held for saved parts stands (R311) -/
  held : Option OpPlace := none
  /-- parts being written, the delivered bytes, and how many of them have landed -/
  going : List Nat := []
  bytes : List Byte := []
  pos : Nat := 0
  susp : Option Susp := none
  deriving DecidableEq, Repr

/-- A record of an orphan queue: its owner, its place in the owner's ring, the overflow entry of its rows, or `none` while operand
`op` keeps them in its slot, and its tag (R312, R313). -/
structure Orphan where
  owner : Nat
  slot : Nat
  entry : Option Nat
  op : Nat
  tag : BitVec 32
  deriving DecidableEq, Repr

/-- A fragment held by a landing port (R308). -/
structure Frag where
  id : Nat
  p : Parcel
  nb : Bool
  bounced : Bool
  /-- sent and not yet answered -/
  flying : Bool
  susp : Option Susp := none
  deriving DecidableEq, Repr

/-- One landing (R303, R309). -/
structure Landing where
  ops : List Operand := []
  /-- arrivals not yet handled: the port, the fragment and the cycle in which it was last looked at; and the port served first (R309) -/
  arrived : List (Nat × Nat × Nat) := []
  nextPort : Nat := 0
  lastSpill : Option Nat := none
  lastArrival : Option Nat := none
  deriving DecidableEq, Repr

/-! ### Launch, contexts and saved jobs (R349 to R386) -/

/-- The parameters of a job in a shadow bank (R29, R363). -/
structure Launch where
  rid : Nat
  chunk : Nat
  args : Tbl Word
  /-- the yielded streams of a yielded chunk, with their restore addresses (R380) -/
  yielded : Option (List (Option VAddr))
  /-- the core it has to be placed on (R376, R380) -/
  core : Option Nat
  deriving DecidableEq, Repr

/-- A gang on a die: the record, its slots, members still running, idle members (R152). -/
structure Gang where
  rid : Nat
  slots : Nat
  members : List Nat
  idle : List Nat
  deriving DecidableEq, Repr

/-- Why a core is being stopped (R375, R372, R438). -/
inductive StopKind where
  | preempt
  | stop
  | hold
  deriving DecidableEq, Repr

/-- The status of a context (R372, R383). -/
inductive CtxStatus where
  | live
  | stopped
  | held
  | dead
  deriving DecidableEq, Repr

/-- The last trap recorded on a core in a cycle, for MORE and CAUSE2 (R382). -/
structure LastTrap where
  time : Nat
  prio : Nat
  cause : BitVec 8
  /-- its place in the ring; none where LOST counted it -/
  recAt : Option Nat
  more : Bool
  /-- the status its context had before it -/
  prev : CtxStatus
  deriving DecidableEq, Repr

/-- One core (R22, R29). -/
structure Core where
  job : Option Job := none
  shadow : Option Launch := none
  lastCtx : Option Nat := none
  /-- scratchpad ways, of 16 KiB (R140) -/
  ways : Nat := 0
  spad : Memory := []
  /-- scratchpad granules that hold an uncorrectable byte (R158) -/
  spadBad : Tbl Bool := []
  /-- full granules (R148), and those of the end of the previous cycle (R149) -/
  fe : Tbl Bool := []
  feOld : Tbl Bool := []
  /-- tag-table slots (R151) -/
  tags : OTbl (BitVec 56) := []
  /-- L1 lines, most recently used first (R143) -/
  l1 : List L1Line := []
  /-- core translation cache (R398) -/
  tlb : List TlbEnt := []
  /-- physical control-store pages by number (R291) -/
  pages : OTbl Page := []
  obs : Obs := {}
  /-- issued array commands and MRETs, oldest first (R242) -/
  arr : List ArrCmd := []
  credits : Nat := 4
  /-- fragments the port holds, oldest first (R308) -/
  frags : List Frag := []
  /-- cached descriptors by tag (R308) -/
  dcache : List (BitVec 32) := []
  /-- first cycle in which the special-function unit is free (R230) -/
  sfuFree : Nat := 0
  /-- a stop in progress (R375) -/
  stopping : Option StopKind := none
  /-- the cycle from which the streams obey the stop: what meets it in its own cycle still issues (R382) -/
  stopFrom : Nat := 0
  lastTrap : Option LastTrap := none
  /-- WCSLD in progress: slots loading, its image writes not yet applied, and the first cycle in which it may end (R298) -/
  wcsld : Option (List Nat × List Nat × Nat) := none
  /-- held idle for a gang's record (R152) -/
  gangIdle : Option Nat := none
  /-- a start delayed by zero filling or write-back ends at this cycle (R141, R142) -/
  startAt : Option Nat := none
  deriving DecidableEq, Repr

/-- A cluster region of a record in a bay (R146). -/
structure Region where
  rid : Nat
  ctx : Nat
  base : Nat
  size : Nat
  /-- the record's first job in the bay has not started: the region is still to be filled -/
  fresh : Bool
  deriving DecidableEq, Repr

/-- A core's request for the array (R239, R241). -/
inductive LeaseReq where
  | idle
  | wait
  | nb
  | granted
  | refused
  deriving DecidableEq, Repr

/-- One bay (R24, R239). -/
structure Bay where
  /-- arbiter pointer P -/
  p : Nat := 0
  /-- core within the bay that holds the grant -/
  holder : Option Nat := none
  gc : Nat := 0
  grantEnd : Option Nat := none
  req : List (Nat × LeaseReq) := []
  /-- cluster scratchpad bytes, and the 16-byte granules that hold an uncorrectable one (R158) -/
  mem : Memory := []
  memBad : Tbl Bool := []
  regions : List Region := []
  /-- core whose command is entering the array, and the cycle of the last entry (R240) -/
  entering : Option Nat := none
  lastEntry : Option Nat := none
  stalled : Nat := 0
  /-- the cycle of the array's last reads of the cluster scratchpad, and the banks they took (R147) -/
  bankAt : Nat := 0
  banks : List Nat := []
  /-- noise source (R234) -/
  noiseOk : Bool := true
  /-- draws taken from the source, the core served next, requests and the request granted in this cycle: 8 × core within
  the bay + stream number, 4 for the retirement unit -/
  noisePtr : Nat := 0
  noiseNext : Nat := 0
  noiseReq : List Nat := []
  noiseGrant : Option Nat := none
  deriving DecidableEq, Repr

/-- A gallery write in flight (R153). -/
structure Gallery where
  id : Nat
  arrive : Nat
  die : Nat
  src : Nat
  members : List Nat
  pieces : List Piece
  deriving DecidableEq, Repr

/-- A bank of die counters: values and selectors (R428). -/
structure DCnt where
  cnt : Tbl (BitVec 48) := []
  sel : Tbl Word := []
  deriving DecidableEq, Repr

/-- One compute die. -/
structure Die where
  /-- vector clock (R182) -/
  clock : Tbl Nat := []
  tlb : List TlbEnt := []
  gangs : List Gang := []
  /-- gallery stores accepted in a cycle: the cycle, rows and scalars (R153) -/
  galCycle : Nat := 0
  galRows : Nat := 0
  galScalars : Nat := 0
  /-- cores whose GST waits for acceptance, each with whether it stores a row, and the core served first (R153) -/
  galWait : List (Nat × Bool) := []
  galNext : Nat := 0
  /-- the physical function's counters, and those of a lease holder (R428, R434) -/
  pf : DCnt := {}
  lease : DCnt := {}
  fenced : Bool := false
  deriving DecidableEq, Repr

/-- A write on its way to a home, withheld until its predecessors are applied (R182, R183). -/
structure HomeReq where
  id : Nat
  die : Nat
  /-- the sender's epoch and clock (R182) -/
  epoch : Nat
  clock : Tbl Nat
  /-- core and unit to acknowledge: streams 0 to 3, copy engine 4, none 5, another unit by its line number 6 -/
  core : Nat
  unit_ : Nat
  pa : Nat
  bytes : List (Byte × Byte)
  ctx : Nat
  asid : Nat
  deriving DecidableEq, Repr

/-- One base die: withheld requests, memory-side cache and watch ranges (R183, R391, R405, R440). -/
structure Base where
  reqs : List HomeReq := []
  /-- memory-side cache sets: lines (line number, key, owner context), most recently used first -/
  msc : Tbl (List (Nat × Nat × Nat)) := []
  /-- activation counts by (bank, row), and throttled (bank, key) with the time of the last activation -/
  acts : List (Nat × Nat × Nat) := []
  throttled : List (Nat × Nat × Nat) := []
  mwctl : Tbl Word := []
  mwhit : Tbl Word := []
  /-- correctable-error locations: unit, number, times, reported, and whether it took the place of a dropped one (R386) -/
  errs : List (Nat × Nat × List Nat × Bool × Bool) := []
  deriving DecidableEq, Repr

/-- A collective running on a channel (R336 to R338). -/
structure Coll where
  rid : Nat
  buf : Nat
  blen : Nat
  fmt : Nat
  comb : Nat
  rnd : Rnd
  prog : Nat
  len : Nat
  step : Nat
  /-- its number, once the first step has issued -/
  num : Option Word
  /-- the step word it is at, once read -/
  word : Option Word := none
  /-- the lines of the SEND it is at stand at their ports -/
  sending : Bool := false
  needSlot : Bool
  /-- its first step has fixed the main program, which uses the slot (R342, R343) -/
  usesSlot : Bool := false
  fallback : Nat
  flen : Nat
  waited : Nat
  /-- lines sent and not acknowledged, with the cycle sent -/
  lines : List (Nat × Nat)
  susp : Option Susp
  /-- a satisfied wait held back by a stagger message until this cycle (R344) -/
  release : Option Nat
  deriving DecidableEq, Repr

/-- A channel (R335, R336, R347). -/
structure Chan where
  set : Bool := false
  rbase : Nat := 0
  nslot : Nat := 0
  slog : Nat := 0
  /-- peer table: ring base and channel of each peer -/
  peers : List (Nat × Nat) := []
  ctr : TCtr := {}
  flg : BitVec 6 := 0
  slot : Option (BitVec 16) := none
  slotRel : Bool := false
  /-- armed by a stagger message: delay in cycles (R344) -/
  armed : Option Nat := none
  coll : Option Coll := none
  /-- an RSLOT request whose answer is awaited: by a core, or by a record -/
  asking : Option (Option Nat × Option Nat) := none
  deriving DecidableEq, Repr

/-- A tile fire in flight (R341). -/
structure Fire where
  tile : Nat
  /-- the record and the chunk of the job whose counter it completes -/
  rid : Nat
  chunk : Nat
  ctr : BitVec 4
  num : Word
  /-- the channel whose SEQ stamps the tile, and the cycle in which its lines were sent -/
  ch : Nat
  sent : Nat
  lines : List Nat
  deriving DecidableEq, Repr

/-- A job saved in the context's image (R377). -/
structure Saved where
  core : Nat
  job : Job
  ways : Nat
  spad : Memory
  spadBad : Tbl Bool := []
  fe : Tbl Bool
  tags : OTbl (BitVec 56)
  frags : List Frag
  /-- returned as yielded: no image section (R380) -/
  rid : Nat
  chunk : Nat
  deriving DecidableEq, Repr

/-- A cluster region saved with a context (R146). -/
structure SavedRegion where
  bay : Nat
  rid : Nat
  size : Nat
  mem : Memory
  bad : Tbl Bool := []
  deriving DecidableEq, Repr

/-- A context (R31, R304, R324, R369, R394, R414). -/
structure Ctx where
  fn : Nat
  asid : Nat
  root : Nat
  part : Nat
  pool : Nat
  trapa : Nat
  landa : Nat
  ovfn : Nat
  savea : Nat
  savesz : Nat
  kslot : Nat
  /-- landing slot quota (R303) -/
  quota : Nat := 1024
  coop : Bool := false
  status : CtxStatus := .live
  /-- pending pre-empt request with its yield deadline in cycles, for a cooperative context (R379) -/
  yieldBy : Option Nat := none
  /-- a debug stop waits for the context's next job (R438) -/
  dbgWait : Bool := false
  dbgHeld : Bool := false
  /-- control store (R269, R289) -/
  image : Option Nat := none
  slots : BitVec 8 := 0
  bind : Tbl Word := []
  tags : Tbl TagSt := []
  chans : Tbl Chan := []
  ttab : Option (Nat × Nat) := none
  stamps : Tbl Word := []
  fires : List Fire := []
  /-- overflow entries in use (R303) -/
  ovf : List Nat := []
  /-- orphan records, oldest first, and the records each owner's queue has had (R312) -/
  orphans : List Orphan := []
  orphCount : Tbl Nat := []
  /-- save counter (R378) -/
  saveCtr : Nat := 0
  /-- an image has to be written; jobs in the image that stands in the save area (R377, R461) -/
  imgDue : Bool := false
  imgJobs : Nat := 0
  /-- version of the tenant key that sealed the image (R378) -/
  imgKey : Nat := 0
  /-- saved jobs and regions, and the ciphertext length of the image in the save area (R377) -/
  saved : List Saved := []
  /-- the context's observation registers of cores that run another context's job (R428, R436, R439) -/
  obs : Tbl Obs := []
  savedRegions : List SavedRegion := []
  clen : Nat := 0
  /-- sealed bytes after the header: ciphertext, tag and regions -/
  imgLen : Nat := 0
  /-- a save or a restore waits for a missing translation (R461) -/
  susp : Option Susp := none
  deriving DecidableEq, Repr

/-- The life of a record (R356 to R367). -/
inductive RecState where
  | waiting
  | ready
  | running
  | done (status : BitVec 8)
  deriving DecidableEq, Repr

/-- A record read by the front end (R352 to R355): its 128 bytes and what was read with it. -/
structure Rec where
  queue : Nat
  idx : Nat
  bytes : BitVec 1024
  state : RecState
  prio : BitVec 3
  irq : Bool
  /-- tile-operand declarations: base, length, W (R354) -/
  decls : List (Nat × Nat × Bool)
  /-- format-state block (R353) -/
  fsb : BitVec 768
  /-- entries read for a CSIMAGE record -/
  bind : List Word
  /-- next chunk, chunks running with their core, returned chunks, reissued count -/
  next : Nat
  running : List (Nat × Nat)
  returned : List Launch
  reissued : Nat
  lost : Bool
  /-- order in which it became ready -/
  order : Nat
  info : Word
  susp : Option Susp
  /-- it had an incomplete predecessor when it was read: its jobs see what those wrote (R359) -/
  after : Bool := false
  deriving DecidableEq, Repr

/-- A submission queue (R349, R350). -/
structure Queue where
  fn : Nat
  q : Nat
  ctx : Nat
  k : Nat
  prio : BitVec 3
  vec : Nat
  subr : Nat
  cmpr : Nat
  head : BitVec 16 := 0
  tail : BitVec 16 := 0
  /-- completion entries written (index and phase, R367) -/
  compl : Nat := 0
  /-- time slice in µs (R364) -/
  slice : Nat := 10000
  /-- reading of the ring suspended or closed -/
  susp : Option Susp := none
  closed : Bool := false
  /-- failed records whose dependants may stand among the next so many records of the ring (R360) -/
  bad : List (Nat × Rec) := []
  deriving DecidableEq, Repr

/-- A partition's ready pool and newel (R361, R362, R366). -/
structure Pool where
  newel : Option Nat := none
  /-- the queue that was at the head last, and the record whose chunks are being handed out (R362) -/
  lastQueue : Nat := 0
  head : Option Nat := none
  /-- candidacies seen, and the cycle of the decision (R366) -/
  cands : List Nat := []
  decide_ : Option Nat := none
  /-- key ids assigned (R407) -/
  keys : List Nat := []
  /-- profiling lease: function, slice in ms, exclusive now, slice end (R434) -/
  prf : Option (Nat × Nat × Bool × Nat) := none
  deriving DecidableEq, Repr

/-- The TDISP state of a virtual function's interface (R416). -/
inductive Tdisp where
  | unlocked
  | locked
  | run
  | error
  deriving DecidableEq, Repr

/-- A migration in progress (R401 to R404). -/
structure Mig where
  src : Nat
  srcKey : Nat
  dst : Nat
  dstKey : Nat
  size : Nat
  copied : Nat
  /-- a shoot-down was requested by this function since STATE became copied, and has completed -/
  asked : Bool
  shot : Bool
  deriving DecidableEq, Repr

/-- A host function's registers (R399, R401, R412, R413, R415, R428, R434, R438). -/
structure Fn where
  part : Option Nat := none
  tsdaddr : Word := 0
  tsdctl : Word := 0
  /-- address spaces of the shoot-down in progress (R399, R400) -/
  tsd : Option (List Nat) := none
  migsrc : Word := 0
  migdst : Word := 0
  migctl : Word := 0
  mig : Option Mig := none
  mbox : BitVec 512 := 0
  /-- the context that a CTX_DESTROY has torn down, and its address space: the answer waits for its accesses on their way (R400) -/
  ending : Option (Nat × Nat) := none
  mres : Word := 0
  frctx : Word := 0
  frply : Word := 0
  errbase : Word := 0
  errhead : Word := 0
  errtail : Word := 0
  dcdie : Word := 0
  prfctl : Word := 0
  dbgctl : Word := 0
  /-- CXL.mem window: partition, key, log2 size, offset (R412) -/
  window : Option (Nat × Nat × Nat × Nat) := none
  tdisp : Tdisp := .unlocked
  /-- a lock request waits for the end of a repartition (R410) -/
  lockWait : Bool := false
  deriving DecidableEq, Repr

/-- A request that left for another module, awaiting its acknowledgement (R185, R334): its sender with the epoch of its die, and
what it asks (R389). -/
structure Out where
  id : Nat
  ctx : Nat
  core : Nat
  die : Nat
  epoch : Nat
  pa : Nat
  op : RemoteOp
  deriving DecidableEq, Repr

/-- A line that stands at a fabric port for another module or the switch: its sender is a channel by its number, or a tile fire by 64 plus
its tile (R334). -/
structure PortLine where
  port : Nat
  ctx : Nat
  sender : Nat
  out : Out
  deriving DecidableEq, Repr

/-- The issuing slot of the current step: core, stream, its words, and the pops made so far (R40, R370). -/
structure Cur where
  core : Nat
  strm : Strm
  pc : VAddr
  word : BitVec 64
  lit : BitVec 32
  size : Nat
  repk : Nat
  pops : List Word
  poppedRow : Option Row
  /-- the second instruction of a CX group (R105) -/
  second : Bool := false
  /-- on CX, what the instruction uses (R104, R105) -/
  use : Option CxUse := none
  deriving DecidableEq, Repr

/-- The whole module. -/
structure State where
  /-- cycles since module reset (log entry 1) -/
  now : Nat
  /-- streams still to issue in this cycle (log entry 2) -/
  turn : List (Nat × Strm)
  /-- the turns are those of loads that waited for granules filled in this cycle (R149) -/
  waking : Bool
  /-- events of the outside world, consumed in order (log entry 3) -/
  inputs : List Instr
  /-- the machine's own events with their cycle and whether they precede the streams' issue -/
  due : List (Nat × Bool × Instr)
  cur : Option Cur
  /-- the model's own: counter of free values drawn -/
  free : Nat
  /-- the model's own: next identifier -/
  ids : Nat
  cores : Tbl Core
  bays : Tbl Bay
  dies : Tbl Die
  bases : Tbl Base
  landings : Tbl Landing
  galleries : List Gallery
  deliveries : List Delivery
  /-- HBM bytes by LOCAL address (R388) -/
  hbm : Memory
  /-- clock of the last write to each line (R182) -/
  lineClk : Tbl (Tbl Nat)
  /-- key under which the ciphertext of each written block of 16 bytes stands, plus 1 (R390) -/
  lineKey : Tbl Nat
  /-- poisoned lines with the UNIT of the error plus 1: 1 for an HBM row, 2 for the memory-side cache (R385, R393) -/
  poison : Tbl Nat
  ctxs : OTbl Ctx
  nextCtx : Nat
  queues : OTbl Queue
  recs : OTbl Rec
  nextRec : Nat
  pools : Tbl Pool
  fns : Tbl Fn
  /-- layout in force, NEW, STATUS and RUN of PCFG (R408) -/
  pcfg : Word
  /-- a repartition in progress: when firmware looks at the queues or, once it has torn the partitions down, when the zero fill ends; the
  layout code it goes to; and whether it has torn them down (R409) -/
  repart : Option (Nat × Nat × Bool)
  /-- module number, once assigned (R25) -/
  modnum : Option Nat
  /-- installed keys: a version number for each key id and tenant slot, 0 none (R390, R378) -/
  keyVer : Tbl Nat
  tenantVer : Tbl Nat
  /-- firmware registers (R386, R405, R424 to R427) -/
  ecwin : Nat
  ecthr : Nat
  hrthr : Nat
  pwrlim : Word
  pwrgrp : Word
  pwrstag : Word
  pwrstat : Word
  /-- governed power in mW (R420) -/
  power : Nat
  throttle : Bool
  /-- fabric counters and selectors (R428) -/
  fcnt : Tbl (BitVec 48)
  fsel : Tbl Word
  /-- boot status (R415), firmware running, SPDM session (R418, R419) -/
  boot : BitVec 32
  session : Bool
  /-- host link lanes and rate in GT/s (R411) -/
  link : Nat × Nat
  /-- failed grid boundaries (R20) -/
  failed : List (Nat × Nat)
  /-- outputs: MSI-X (function, vector), CXL read replies, remote requests, fabric lines, filler steps -/
  msix : List (Nat × Nat)
  cxlOut : List (List (Option Byte))
  /-- measurements answered to SPDM requests: firmware digest, ROM identifier, CUR, key-id assignment (R419) -/
  spdmOut : List (List Nat)
  /-- stagger messages sent to the other modules of the domain: group, slot count and step (R344, R426) -/
  stagOut : List (BitVec 16 × Nat × Nat)
  remote : List Out
  /-- lines waiting for their turn at the fabric ports (R334) -/
  ports : List PortLine
  deriving DecidableEq, Repr

/-- The machine stops with a fault only here. -/
inductive Fault where
  /-- Raised by a stream instruction executed with no issuing stream set or no job on the issuing core; no run of the
  machine reaches it, since `step` sets the issuer first. Safe: the machine has no such step. -/
  | noIssuer
  deriving DecidableEq, Repr

/-- An instruction refused by the model. -/
inductive Refusal where
  /-- Answered by a dispatch arm whose instruction has no meaning yet, by mnemonic. Safe: nothing is claimed of it. -/
  | notModelled (mnemonic : String)
  deriving DecidableEq, Repr

/-- The module right after module reset (R6, R418): no context, no job, memory unlisted, every register at the reset value
the spec states, and at the value log entry 6 names where it states none. -/
def State.reset : State where
  now := 0
  turn := []
  waking := false
  inputs := []
  due := []
  cur := none
  free := 0
  ids := 0
  cores := []
  bays := []
  dies := []
  bases := []
  landings := []
  galleries := []
  deliveries := []
  hbm := []
  lineClk := []
  lineKey := []
  poison := []
  ctxs := []
  nextCtx := 1
  queues := []
  recs := []
  nextRec := 0
  pools := []
  fns := []
  pcfg := 0
  repart := none
  modnum := none
  keyVer := []
  tenantVer := []
  ecwin := 86400
  ecthr := 3
  hrthr := 8192
  pwrlim := 0x000003E8000007D0
  pwrgrp := 0
  pwrstag := 0
  pwrstat := 0
  power := 0
  throttle := false
  fcnt := []
  fsel := []
  boot := 0
  session := false
  link := (8, 64)
  failed := []
  msix := []
  cxlOut := []
  spdmOut := []
  stagOut := []
  remote := []
  ports := []

end Sys2Proof.Machine
end

