-- ==== Sys2Proof/Machine/Tbl.lean ====
section
/-!
DEFINITION. Sparse tables and byte memories: reading, writing and the canonical form, little-endian values and packed elements (R3, R57).
-/

namespace Sys2Proof.Machine

/-- The entry at key k, or the default `d` where none is listed. -/
def tget (d : α) : Tbl α → Nat → α
  | [], _ => d
  | (k, v) :: t, i => if k = i then v else tget d t i

/-- A table without the entries at key k. -/
def tdel : Tbl α → Nat → Tbl α
  | [], _ => []
  | (k, v) :: t, i => if k = i then tdel t i else (k, v) :: tdel t i

/-- A table with v at key i, placed in key order; v is not the default. -/
def tins : Tbl α → Nat → α → Tbl α
  | [], i, x => [(i, x)]
  | (k, v) :: t, i, x =>
    if i < k then (i, x) :: (k, v) :: t else if k = i then (i, x) :: t else (k, v) :: tins t i x

/-- Set key i to x: writing the default value removes the entry. -/
def tput [DecidableEq α] (d : α) (t : Tbl α) (i : Nat) (x : α) : Tbl α :=
  if x = d then tdel t i else tins t i x

/-- The keys rise strictly from above `lo`, and no entry is the default. -/
def twfFrom [DecidableEq α] (d : α) : Nat → Tbl α → Bool
  | _, [] => true
  | lo, (k, v) :: t => decide (lo ≤ k) && decide (v ≠ d) && twfFrom d (k + 1) t

/-- The canonical form of a table. -/
def twf [DecidableEq α] (d : α) (t : Tbl α) : Bool := twfFrom d 0 t

/-- The canonical form of a memory: addresses strictly rising, no entry equal to what an unlisted byte reads as. -/
def Memory.wf (m : Memory) : Bool := twf (0 : Byte) m

/-- One byte of a memory; an unlisted byte reads as 0 (log entry 5). -/
def readByte (m : Memory) (a : Nat) : Byte := tget 0 m a

/-- Write one byte. -/
def writeByte (m : Memory) (a : Nat) (b : Byte) : Memory := tput 0 m a b

/-- n bytes from address a. -/
def readBytes (m : Memory) (a n : Nat) : List Byte := (List.range n).map (fun i => readByte m (a + i))

/-- Write bytes from address a on. -/
def writeBytes (m : Memory) (a : Nat) : List Byte → Memory
  | [] => m
  | b :: bs => writeBytes (writeByte m a b) (a + 1) bs

/-- Write the masked bits of each byte from address a on; a byte with mask 0 is left alone (R57). -/
def writeMasked (m : Memory) (a : Nat) : List (Byte × Byte) → Memory
  | [] => m
  | (b, k) :: bs =>
    let m' := if k = 0 then m else writeByte m a ((readByte m a &&& ~~~k) ||| (b &&& k))
    writeMasked m' (a + 1) bs

/-- Fill n bytes from address a with zeros. -/
def zeroBytes (m : Memory) (a : Nat) : Nat → Memory
  | 0 => m
  | n + 1 => zeroBytes (writeByte m a 0) (a + 1) n

/-- The bytes of a memory outside [a, b) are kept, those inside read as 0. -/
def clearRange (m : Memory) (a b : Nat) : Memory := m.filter (fun c => c.1 < a || b ≤ c.1)

/-- The little-endian value of bytes (R3). -/
def leNat : List Byte → Nat
  | [] => 0
  | b :: bs => b.toNat + leNat bs * 256

/-- n little-endian bytes of a value. -/
def leBytes (v : Nat) : Nat → List Byte
  | 0 => []
  | n + 1 => BitVec.ofNat 8 v :: leBytes (v / 256) n

/-- Element i of w bits of a packed run whose bits are `bits` (R57). -/
def elemAt (bits w i : Nat) : Nat := (bits >>> (w * i)) % 2 ^ w

/-- Bytes a packed run of n elements of w bits touches. -/
def runBytes (w n : Nat) : Nat := (w * n + 7) / 8

/-- A packed run as bytes with the mask of the bits it writes (R57). -/
def packRun (w : Nat) (es : List Nat) : List (Byte × Byte) :=
  let n := runBytes w es.length
  (leBytes (packBits' w es) n).zip (leBytes (2 ^ (w * es.length) - 1) n)
where
  /-- The elements as one number. -/
  packBits' (w : Nat) : List Nat → Nat
    | [] => 0
    | b :: bs => b % 2 ^ w + (packBits' w bs) <<< w

/-- Bytes written whole. -/
def fullMask (bs : List Byte) : List (Byte × Byte) := bs.map (fun b => (b, 0xFF))

/-- The first element that satisfies p, and the list without it. -/
def takeFirstBy (p : α → Bool) : List α → Option (α × List α)
  | [] => none
  | x :: xs => if p x then some (x, xs) else (takeFirstBy p xs).map (fun r => (r.1, x :: r.2))

/-- A list with each element that satisfies p replaced by f of it. -/
def mapIf (p : α → Bool) (f : α → α) (l : List α) : List α := l.map (fun x => if p x then f x else x)

/-- The order of the machine's events within one cycle: those before the streams' issue, then the others, the scratchpad
writers in the order of R150. -/
def dueRank (early : Bool) (i : Instr) : Nat :=
  if early then 0
  else
    match i with
    | .chainCopy _ => 2
    | .landingDelivery _ => 3
    | .galleryArrival _ => 4
    | _ => 1

/-- An event queue sorted by time and rank: inserted after the entries of the same place. -/
def dueInsert (l : List (Nat × Bool × Instr)) (e : Nat × Bool × Instr) : List (Nat × Bool × Instr) :=
  match l with
  | [] => [e]
  | x :: xs =>
    if e.1 < x.1 || (e.1 == x.1 && decide (dueRank e.2.1 e.2.2 < dueRank x.2.1 x.2.2)) then e :: x :: xs
    else x :: dueInsert xs e

end Sys2Proof.Machine
end

