-- ==== Sys2Proof/Machine/Access.lean ====
section
/-!
DEFINITION. Accessors of the state: cores, jobs, streams, dies, contexts and partitions, free draws, posted events, interrupts and the event counters (R23, R97, R406, R428 to R431).
-/

namespace Sys2Proof.Machine

/-! ### Streams, cores, dies -/

/-- The number of a stream: SC 0, LD 1, CX 2, ST 3 (R94). -/
def strmNum : Strm → Nat
  | .sc => 0
  | .ld => 1
  | .cx => 2
  | .st => 3

/-- The four streams in number order. -/
def allStrms : List Strm := [.sc, .ld, .cx, .st]

/-- The scope code of R171. -/
def scopeNum : Scope → Nat
  | .strm => 0
  | .core => 1
  | .die => 2
  | .mod => 3
  | .dom => 4

/-- The wider of two scopes. -/
def scopeMax (a b : Scope) : Scope := if scopeNum a < scopeNum b then b else a

/-- Does the scope reach the die or further? -/
def scopeWide (a : Scope) : Bool := decide (2 ≤ scopeNum a)

/-- A stream of a job. -/
def Job.strm (j : Job) : Strm → Stream
  | .sc => j.sc
  | .ld => j.ld
  | .cx => j.cx
  | .st => j.st

/-- A job with one stream replaced. -/
def Job.setStrm (j : Job) (x : Strm) (v : Stream) : Job :=
  match x with
  | .sc => { j with sc := v }
  | .ld => { j with ld := v }
  | .cx => { j with cx := v }
  | .st => { j with st := v }

/-- A core of the module by module core number (R23). -/
def State.core (s : State) (c : Nat) : Core := tget {} s.cores c

/-- Replace a core. -/
def State.setCore (s : State) (c : Nat) (k : Core) : State := { s with cores := tput {} s.cores c k }

/-- Change a core. -/
def State.modCore (s : State) (c : Nat) (f : Core → Core) : State := s.setCore c (f (s.core c))

/-- Change the job a core runs, where it runs one. -/
def State.modJob (s : State) (c : Nat) (f : Job → Job) : State :=
  s.modCore c (fun k => { k with job := k.job.map f })

/-- Change one stream of the job a core runs. -/
def State.modStrm (s : State) (c : Nat) (x : Strm) (f : Stream → Stream) : State :=
  s.modJob c (fun j => j.setStrm x (f (j.strm x)))

/-- The die of a core. -/
def coreDie (c : Nat) : Nat := c / 16

/-- The module bay number of a core. -/
def coreBay (c : Nat) : Nat := c / 4

/-- A bay by module bay number. -/
def State.bay (s : State) (b : Nat) : Bay := tget {} s.bays b

/-- Change a bay. -/
def State.modBay (s : State) (b : Nat) (f : Bay → Bay) : State :=
  { s with bays := tput {} s.bays b (f (s.bay b)) }

/-- A compute die. -/
def State.die (s : State) (d : Nat) : Die := tget {} s.dies d

/-- Change a die. -/
def State.modDie (s : State) (d : Nat) (f : Die → Die) : State :=
  { s with dies := tput {} s.dies d (f (s.die d)) }

/-- A base die. -/
def State.base (s : State) (b : Nat) : Base := tget {} s.bases b

/-- Change a base die. -/
def State.modBase (s : State) (b : Nat) (f : Base → Base) : State :=
  { s with bases := tput {} s.bases b (f (s.base b)) }

/-- A context. -/
def State.ctx? (s : State) (n : Nat) : Option Ctx := tget none s.ctxs n

/-- Change a context that exists. -/
def State.modCtx (s : State) (n : Nat) (f : Ctx → Ctx) : State :=
  match s.ctx? n with
  | none => s
  | some x => { s with ctxs := tput none s.ctxs n (some (f x)) }

/-- A queue by its module index. -/
def State.queue? (s : State) (n : Nat) : Option Queue := tget none s.queues n

/-- Change a queue that exists. -/
def State.modQueue (s : State) (n : Nat) (f : Queue → Queue) : State :=
  match s.queue? n with
  | none => s
  | some x => { s with queues := tput none s.queues n (some (f x)) }

/-- A record. -/
def State.rec? (s : State) (n : Nat) : Option Rec := tget none s.recs n

/-- Change a record that exists. -/
def State.modRec (s : State) (n : Nat) (f : Rec → Rec) : State :=
  match s.rec? n with
  | none => s
  | some x => { s with recs := tput none s.recs n (some (f x)) }

/-- A host function. -/
def State.fn (s : State) (f : Nat) : Fn := tget {} s.fns f

/-- Change a function. -/
def State.modFn (s : State) (n : Nat) (f : Fn → Fn) : State :=
  { s with fns := tput {} s.fns n (f (s.fn n)) }

/-- A partition's pool, by its lowest die. -/
def State.pool (s : State) (p : Nat) : Pool := tget {} s.pools p

/-- Change a pool. -/
def State.modPool (s : State) (p : Nat) (f : Pool → Pool) : State :=
  { s with pools := tput {} s.pools p (f (s.pool p)) }

/-- A landing by module landing number. -/
def State.landing (s : State) (n : Nat) : Landing := tget {} s.landings n

/-- Change a landing. -/
def State.modLanding (s : State) (n : Nat) (f : Landing → Landing) : State :=
  { s with landings := tput {} s.landings n (f (s.landing n)) }

/-- A channel of a context. -/
def Ctx.chan (x : Ctx) (n : Nat) : Chan := tget {} x.chans n

/-- Change a channel of a context. -/
def State.modChan (s : State) (n ch : Nat) (f : Chan → Chan) : State :=
  s.modCtx n (fun x => { x with chans := tput {} x.chans ch (f (x.chan ch)) })

/-- A landing tag of a context, by tag index. -/
def Ctx.tag (x : Ctx) (n : Nat) : TagSt := tget {} x.tags n

/-- Change a tag of a context. -/
def State.modTag (s : State) (n ix : Nat) (f : TagSt → TagSt) : State :=
  s.modCtx n (fun x => { x with tags := tput {} x.tags ix (f (x.tag ix)) })

/-! ### Partitions (R406 to R408) -/

/-- The layouts of R406: lowest die and number of dies of each partition. -/
def layoutParts (code : Nat) : List (Nat × Nat) :=
  match code with
  | 0 => [(0, 64)]
  | 1 => [(0, 32), (32, 32)]
  | 2 => [(0, 16), (16, 16), (32, 16), (48, 16)]
  | 3 => [(0, 32), (32, 16), (48, 16)]
  | 4 => [(0, 16), (16, 16), (32, 32)]
  | _ => []

/-- The layout in force. -/
def State.layout (s : State) : List (Nat × Nat) := layoutParts (s.pcfg.toNat % 8)

/-- The partition (lowest die, number of dies) that holds a die. -/
def State.partOf (s : State) (die : Nat) : Nat × Nat :=
  (s.layout.find? (fun p => p.1 ≤ die && die < p.1 + p.2)).getD (0, 64)

/-- Dies of the partition with this lowest die; 0 where the layout has no such partition. -/
def State.partDies (s : State) (p : Nat) : Nat :=
  ((s.layout.find? (fun q => q.1 == p)).map (·.2)).getD 0

/-! ### Free draws, identifiers, events, interrupts -/

/-- Draw a free choice. -/
def State.drawBit (s : State) : Bool × State := (Config.freeBit s.free, { s with free := s.free + 1 })

/-- Draw a free number. -/
def State.drawNat (s : State) : Nat × State := (Config.freeNat s.free, { s with free := s.free + 1 })

/-- Draw a free 64-bit value. -/
def State.drawWord (s : State) : Word × State := (Config.freeWord s.free, { s with free := s.free + 1 })

/-- A new identifier. -/
def State.newId (s : State) : Nat × State := (s.ids, { s with ids := s.ids + 1 })

/-- Post an event of the machine for a cycle, after the streams' issue. -/
def State.post (s : State) (t : Nat) (i : Instr) : State := { s with due := dueInsert s.due (t, false, i) }

/-- Post an event for a cycle, before the streams' issue. -/
def State.postEarly (s : State) (t : Nat) (i : Instr) : State := { s with due := dueInsert s.due (t, true, i) }

/-- Post an event for the current cycle. -/
def State.postNow (s : State) (i : Instr) : State := s.post s.now i

/-- Is this event already posted? -/
def State.posted (s : State) (i : Instr) : Bool := s.due.any (fun e => e.2.2 == i)

/-- Post an event unless it is already posted. -/
def State.postOnce (s : State) (t : Nat) (i : Instr) : State := if s.posted i then s else s.post t i

/-- Raise an MSI-X vector of a function (R415). -/
def State.raise (s : State) (fn vec : Nat) : State := { s with msix := s.msix ++ [(fn, vec)] }

/-- Front-end time in ns since module reset: one cycle is 0.625 ns (R4). -/
def State.timeNs (s : State) : Nat := s.now * 5 / 8

/-- Front-end time in µs. -/
def State.timeUs (s : State) : Nat := s.now / 1600

/-- Cycles in a number of µs. -/
def usCycles (us : Nat) : Nat := us * 1600

/-! ### Event counters (R428 to R431) -/

/-- QUAL of a selector (R429). -/
def selQual (w : Word) : Nat := (w.toNat >>> 38) % 1024

/-- EN of a selector. -/
def selEn (w : Word) : Bool := w.getLsbD 62

/-- One counter with its selector after n events of a code in one cycle (R431): value, selector, interrupt. -/
def countOne (sel : Word) (v : BitVec 48) (code : Nat) (qual : Nat → Nat) : Word × BitVec 48 × Bool :=
  if selEn sel && sel.toNat % 65536 == code then
    let n := qual (selQual sel)
    if v.toNat + n < 2 ^ 48 then (sel, v + BitVec.ofNat 48 n, false)
    else (sel ||| (1#64 <<< 63), v + BitVec.ofNat 48 n, sel.getLsbD 61)
  else (sel, v, false)

/-- Count over a bank of counters 0 to n − 1: selectors, values, and how many interrupts. -/
def countBank (code : Nat) (qual : Nat → Nat) : Nat → Tbl Word → Tbl (BitVec 48) → Tbl Word × Tbl (BitVec 48) × Nat
  | 0, sel, cnt => (sel, cnt, 0)
  | n + 1, sel, cnt =>
    let (sel', cnt', k) := countBank code qual n sel cnt
    let (w, v, irq) := countOne (tget 0 sel' n) (tget 0 cnt' n) code qual
    (tput 0 sel' n w, tput 0 cnt' n v, k + irq.toNat)

/-- The function that owns a context. -/
def State.ctxFn (s : State) (n : Nat) : Nat := ((s.ctx? n).map (·.fn)).getD 0

/-- Raise a vector k times. -/
def State.raiseN (s : State) (fn vec : Nat) : Nat → State
  | 0 => s
  | k + 1 => (s.raise fn vec).raiseN fn vec k

/-- Count a core event for the context whose job runs there; `qual` maps QUAL to the number of events. -/
def State.countCore (s : State) (c code : Nat) (qual : Nat → Nat) : State :=
  let k := s.core c
  match k.job with
  | none => s
  | some j =>
    if k.obs.csel.isEmpty then s
    else
      let (sel, cnt, irq) := countBank code qual 8 k.obs.csel k.obs.cnt
      (s.setCore c { k with obs := { k.obs with csel := sel, cnt := cnt } }).raiseN (s.ctxFn j.ctx) 1 irq

/-- Count a die event whose owner is a context: in the lease holder's counters during its exclusive slices, else in the
physical function's (R428, R434). -/
def State.countDie (s : State) (d ctx code : Nat) (qual : Nat → Nat) : State :=
  let k := s.die d
  let fn := s.ctxFn ctx
  -- what no context owns is counted by no one (R428, R431)
  if (s.ctx? ctx).isNone then s else
  match (s.pool (s.partOf d).1).prf with
  | some (h, _, ex, _) =>
    if ex && fn == h && !k.lease.sel.isEmpty then
      let (sel, cnt, irq) := countBank code qual 16 k.lease.sel k.lease.cnt
      (s.modDie d (fun x => { x with lease := { cnt := cnt, sel := sel } })).raiseN h 1 irq
    else s
  | none =>
    if fn == 0 && !k.pf.sel.isEmpty then
      let (sel, cnt, irq) := countBank code qual 16 k.pf.sel k.pf.cnt
      (s.modDie d (fun x => { x with pf := { cnt := cnt, sel := sel } })).raiseN 0 1 irq
    else s

/-- Count a module event in the fabric counters. -/
def State.countMod (s : State) (code : Nat) (qual : Nat → Nat) : State :=
  if s.fsel.isEmpty then s
  else
    let (sel, cnt, irq) := countBank code qual 32 s.fsel s.fcnt
    { s with fsel := sel, fcnt := cnt }.raiseN 0 1 irq

/-- The QUAL of an event without qualifier, counted n times. -/
def qualAny (n : Nat) : Nat → Nat := fun _ => n

/-- The QUAL that selects one of several units by a bit. -/
def qualBit (i : Nat) : Nat → Nat := fun q => (q.testBit i).toNat

end Sys2Proof.Machine
end

