-- ==== Sys2Proof/Machine/Memory.lean ====
section
/-!
DEFINITION. Main memory at its homes, keys and poison, the table walk and the translation caches, the L1, and the local aperture (R138 to R158, R173 to R186, R388 to R398).
-/

namespace Sys2Proof.Machine

/-! ### Physical addresses (R388) -/

/-- Key id of a physical address. -/
def paKey (pa : Nat) : Nat := pa / 2 ^ 60 % 16
/-- Module of a physical address. -/
def paMod (pa : Nat) : Nat := pa / 2 ^ 47 % 8192
/-- LOCAL of a physical address. -/
def paLocal (pa : Nat) : Nat := pa % 2 ^ 41

/-- This module's number; 0 until firmware assigns it (log entry 6). -/
def State.ownMod (s : State) : Nat := s.modnum.getD 0

/-- First LOCAL value a partition owns, by its lowest die. -/
def partBase (p : Nat) : Nat := p / 16 * 2 ^ 39

/-- Bytes a partition of n dies owns. -/
def partSize (n : Nat) : Nat := n / 16 * 2 ^ 39

/-- The partition that owns a LOCAL value. -/
def State.partOfLocal (s : State) (l : Nat) : Nat × Nat := s.partOf (l / 2 ^ 39 * 16)

/-- Is a partition's die set left by the repartition in progress (R408)? Its rings and windows are closed (R409, R410). -/
def State.closed (s : State) (p : Nat) : Bool :=
  match s.repart with
  | some (_, new, _) => !(layoutParts new).contains (p, s.partDies p)
  | none => false

/-- Do the fabric ports of a partition refuse every new request, from step 4 of R409 on? -/
def State.portsShut (s : State) (p : Nat) : Bool := s.closed p && (s.repart.map (·.2.2)).getD false

/-- Is the key id assigned to the partition (R388)? -/
def State.keyOk (s : State) (p key : Nat) : Bool := (s.pool p).keys.contains key

/-- The three conditions of R388 for a partition. -/
def State.physOk (s : State) (p pa : Nat) : Bool :=
  let l := paLocal pa
  let n := s.partDies p
  decide (pa / 2 ^ 41 % 64 = 0) && decide (partBase p ≤ l) && decide (l < partBase p + partSize n) && s.keyOk p (paKey pa)

/-- The home stack of a LOCAL value and the byte within the stack (R388). -/
def State.homeOf (s : State) (l : Nat) : Nat × Nat :=
  let (p, n) := s.partOfLocal l
  let g := (l - partBase p) / 4096
  let k := n / 2
  (p / 2 + g % k, g / k * 4096 + l % 4096)

/-! ### Error records (R385, R415) and memory-side watch (R440) -/

/-- The version under which a key id encrypts: its number and the count of installations, plus 1 (R390). -/
def State.keyTag (s : State) (key : Nat) : Nat := key + 16 * tget 0 s.keyVer key + 1

/-- The plaintext of one byte as read under a key id at its home: XTS takes blocks of 16 bytes apart (R390). -/
def State.homeByte (s : State) (key l : Nat) : Byte :=
  let k := tget 0 s.lineKey (l / 16)
  if k = 0 ∨ k = s.keyTag key then readByte s.hbm l
  else
    let blk : BitVec 128 := BitVec.ofNat 128 (leNat (readBytes s.hbm (l / 16 * 16) 16))
    BitVec.ofNat 8 ((Config.crossKey k (s.keyTag key) (l / 16) blk).toNat >>> (8 * (l % 16)))

/-- Bring a block of 16 bytes under a key id: what stands there is its decryption under that key (R390, R391). -/
def State.rekeyBlock (s : State) (key blk : Nat) : State :=
  let k := tget 0 s.lineKey blk
  let t := s.keyTag key
  if k = 0 ∨ k = t then { s with lineKey := tput 0 s.lineKey blk t }
  else
    let bs := (List.range 16).map (fun i => s.homeByte key (blk * 16 + i))
    { s with hbm := writeBytes s.hbm (blk * 16) bs, lineKey := tput 0 s.lineKey blk t }

/-- The blocks of 16 bytes in which masked bytes within one line change something. -/
def blocksOf (l : Nat) (bs : List (Byte × Byte)) : List Nat :=
  ((List.range 8).map (fun k => l / 128 * 8 + k)).filter (fun b =>
    bs.zipIdx.any (fun p => p.1.2 != 0 && (l + p.2) / 16 == b))

/-- Write masked bytes within one line under a key id; nothing else happens. -/
def State.homePut (s : State) (key l : Nat) (bs : List (Byte × Byte)) : State :=
  let s := (blocksOf l bs).foldl (fun s b => s.rekeyBlock key b) s
  { s with hbm := writeMasked s.hbm l bs }

/-- Split bytes from an address on at multiples of 2^lg. -/
def splitAt2 (lg : Nat) : Nat → Nat → List α → List (Nat × List α)
  | 0, _, _ => []
  | _, _, [] => []
  | fuel + 1, a, bs =>
    let n := 2 ^ lg - a % 2 ^ lg
    (a, bs.take n) :: splitAt2 lg fuel (a + n) (bs.drop n)

/-- Split at line boundaries. -/
def splitLines (a : Nat) (bs : List α) : List (Nat × List α) := splitAt2 7 (bs.length + 1) a bs

/-- The migrations in progress whose old range holds a LOCAL value: the new address of the byte and whether its line is
copied (R403). -/
def State.migForward (s : State) (l : Nat) : List (Nat × Nat) :=
  s.fns.filterMap (fun f =>
    match f.2.mig with
    | some m =>
      let o := paLocal m.src
      if o ≤ l ∧ l < o + m.size ∧ (l - o) / 128 < m.copied then some (m.dstKey, paLocal m.dst + (l - o)) else none
    | none => none)

/-- Write masked bytes within one line at their home, and at the home of the copy that a migration makes of it (R403). -/
def State.homePutAll (s : State) (key l : Nat) (bs : List (Byte × Byte)) : State :=
  (s.migForward l).foldl (fun s f => s.homePut f.1 f.2 bs) (s.homePut key l bs)

/-- The LOCAL address and key of an offset in a function's CXL.mem window, where the window is set (R412). -/
def State.windowAt (s : State) (fn off : Nat) : Option (Nat × Nat) :=
  match (s.fn fn).window with
  | some (p, key, lg, base) => if off < 2 ^ lg then some (key, partBase p + base + off) else none
  | none => none

/-- Write bytes to a function's CXL.mem window at their homes. -/
def State.windowPut (s : State) (fn off : Nat) (bs : List Byte) : State :=
  (splitLines off bs).foldl (fun s p =>
    match s.windowAt fn p.1 with
    | some (key, l) => s.homePutAll key l (fullMask p.2)
    | none => s) s

/-- An error record of R385 written to the ring of a function (R415). -/
def State.errorTo (s : State) (fn : Nat) (type unit die wher addr ctx count : Nat) : State :=
  let f := s.fn fn
  let head := f.errhead.toNat % 4096
  let tail := f.errtail.toNat % 4096
  if f.errbase.getLsbD 63 && decide ((tail + 1) % 4096 ≠ head) then
    let off := f.errbase.toNat / 2 ^ 17 % 2 ^ 24 * 2 ^ 17
    let bs := leBytes type 1 ++ leBytes unit 1 ++ leBytes die 2 ++ leBytes wher 4 ++ leBytes addr 8 ++ leBytes ctx 8
      ++ leBytes count 4 ++ leBytes s.timeUs 4
    let s := s.windowPut fn (off + 32 * tail) bs
    let s := s.modFn fn (fun f => { f with errtail := (f.errtail &&& 0xFFFFFFFF00000000#64) ||| BitVec.ofNat 64 ((tail + 1) % 4096) })
    s.raise fn 4
  else
    s.modFn fn (fun f =>
      let lost := f.errtail.toNat / 2 ^ 32
      { f with errtail := BitVec.ofNat 64 (min (lost + 1) (2 ^ 32 - 1) * 2 ^ 32 + tail) })

/-- An error record routed by its type (R385). -/
def State.error (s : State) (type unit die wher addr ctx count : Nat) : State :=
  let fn := if type ∈ [1, 2, 5, 8, 9] && ctx != 0 then s.ctxFn ctx else 0
  s.errorTo fn type unit die wher addr ctx count

/-- The match of one access at a home against the 8 watch ranges of its base die (R440). -/
def State.watchHome (s : State) (key l n : Nat) (wr : Bool) (asid : Nat) : State :=
  let b := (s.homeOf l).1
  if (s.base b).mwctl.isEmpty then s
  else
    (List.range 8).foldl (fun s i =>
      let w := tget 0 (s.base b).mwctl i
      let lg := w.toNat / 2 ^ 51 % 64
      let lo := w.toNat % 2 ^ 41 / 2 ^ lg * 2 ^ lg
      if w.getLsbD 59 && w.toNat / 2 ^ 60 == key && (if wr then w.getLsbD 58 else w.getLsbD 57)
          && decide (7 ≤ lg ∧ lg ≤ 40 ∧ lo < l + n ∧ l < lo + 2 ^ lg) then
        let h := (tget 0 (s.base b).mwhit i).toNat / 2 ^ 44
        let v := min (h + 1) (2 ^ 20 - 1) * 2 ^ 44 + asid % 4096 * 2 ^ 32 + s.timeUs % 2 ^ 32
        let s := s.modBase b (fun x => { x with mwhit := tput 0 x.mwhit i (BitVec.ofNat 64 v) })
        if h = 0 then s.raise 0 2 else s
      else s) s

/-! ### Applying a write at its home (R174, R391, R393, R403) -/

/-- The memory-side cache touched by an access: the sets hold 24 lines, least recently used out (R391, R430). -/
def State.mscTouch (s : State) (key l ctx : Nat) : State :=
  let (b, off) := s.homeOf l
  let set := off / 128 % 16384
  let line := l / 128
  let ways := tget [] (s.base b).msc set
  let hit := ways.any (fun w => w.1 == line && w.2.1 == key)
  let ways' := ((line, key, ctx) :: ways.filter (fun w => w.1 != line)).take 24
  let s := s.modBase b (fun x => { x with msc := tput [] x.msc set ways' })
  let code := if hit then 0x0105 else 0x0106
  (s.countDie (2 * b) ctx code (qualAny 1)).countDie (2 * b + 1) ctx code (qualAny 1)

/-- The error record of a poisoned line for an access of a context (R158, R385): UNIT and WHERE name the HBM row or the bank of the
memory-side cache, whose numbering is open (log entry 20), and DIE the home base die. -/
def State.lineError (s : State) (type l addr ctx : Nat) : State :=
  s.error type (tget 0 s.poison (l / 128) - 1) (s.homeOf l).1 (Config.hbmRow (l / 128) % 2 ^ 32) addr ctx 0

/-- Is a line poisoned (R393)? -/
def State.isBad (s : State) (l : Nat) : Bool := tget 0 s.poison (l / 128) != 0

/-- A store that covers a poisoned line whole clears the poison; any other is reported and leaves it (R158, R393). -/
def State.clearPoison (s : State) (l : Nat) (full : Bool) (ctx : Nat) : State :=
  if !s.isBad l then s
  else if full then { s with poison := tput 0 s.poison (l / 128) 0 }
  else s.lineError 2 l l ctx

/-- Apply masked bytes of one line at their home. -/
def State.homeWriteLine (s : State) (key l : Nat) (bs : List (Byte × Byte)) (ctx asid : Nat) : State :=
  let s := s.mscTouch key l ctx
  let s := s.watchHome key l bs.length true asid
  let s := s.homePutAll key l bs
  let full := bs.length == 128 && bs.all (fun b => b.2 == 0xFF)
  let s := if full then (s.migForward l).foldl (fun (s : State) f => { s with poison := tput 0 s.poison (f.2 / 128) 0 }) s else s
  s.clearPoison l full ctx

/-- Join of two clocks. -/
def clkJoin (a b : Tbl Nat) : Tbl Nat := b.foldl (fun t e => tput 0 t e.1 (max e.2 (tget 0 t e.1))) a

/-- The clock of a write joins those of its line and of the copy that a migration makes of it (R182, R403). -/
def State.joinLine (s : State) (l : Nat) (clk : Tbl Nat) : State :=
  (l :: (s.migForward l).map (·.2)).foldl (fun (s : State) a =>
    { s with lineClk := tput [] s.lineClk (a / 128) (clkJoin (tget [] s.lineClk (a / 128)) clk) }) s

/-- Apply one request at its home base die, and acknowledge it. -/
def State.applyReq (s : State) (r : HomeReq) : State :=
  let l := paLocal r.pa
  let s := s.homeWriteLine (paKey r.pa) l r.bytes r.ctx r.asid
  (s.joinLine l r.clock).post (s.now + 1) (.storeAck r.core r.id)

/-- Must request r be applied before one that carries this clock, or that the same core sends to the same line (R183, R174)? -/
def HomeReq.before (r : HomeReq) (clk : Tbl Nat) (core line : Nat) : Bool :=
  decide (r.epoch < tget 0 clk r.die) || (r.core == core && paLocal r.pa / 128 == line)

/-- Apply the withheld requests of a base die, oldest first, up to the last one that p requires. -/
def State.applyUpTo (s : State) (b : Nat) (p : HomeReq → Bool) : State :=
  let rs := (s.base b).reqs
  let keep := (rs.reverse.takeWhile (fun r => !p r)).reverse
  let go := rs.take (rs.length - keep.length)
  if go.isEmpty then s
  else (go.foldl State.applyReq (s.modBase b (fun x => { x with reqs := keep })))

/-- Apply every withheld request of every base die. -/
def State.flushHomes (s : State) : State := (List.range 32).foldl (fun s b => s.applyUpTo b (fun _ => true)) s

/-- May the request at this place be applied now: does nothing before it in the list have to come first? -/
def applicable : List HomeReq → List HomeReq → List HomeReq
  | _, [] => []
  | pre, r :: rs =>
    let ok := pre.all (fun q => !q.before r.clock r.core (paLocal r.pa / 128))
    if ok then r :: applicable (pre ++ [r]) rs else applicable (pre ++ [r]) rs

/-- Read n bytes of one line at its home for a party of a die: its required requests are applied first (R183). The bytes,
the clock of what is read, and whether the line is poisoned. -/
def State.homeRead (s : State) (die core key l n ctx asid : Nat) : State × List Byte × Tbl Nat × Bool :=
  let b := (s.homeOf l).1
  let clk := (s.die die).clock
  let s := s.applyUpTo b (fun r => r.before clk core (l / 128))
  let s := s.mscTouch key l ctx
  let s := s.watchHome key l n false asid
  (s, (List.range n).map (fun i => s.homeByte key (l + i)), tget [] s.lineClk (l / 128), s.isBad l)

/-! ### Sending writes (R178, R182, R183, R185) -/

/-- Who sends a write: a stream's number, 4 the copy engine, 5 and 6 another unit. -/
abbrev SendUnit := Nat

/-- Record an unacknowledged store of the copy engine (R328). -/
def State.addUnacked (s : State) (c : Nat) (u : SendUnit) (id : Nat) : State :=
  if u = 4 then s.modJob c (fun j => { j with ce := { j.ce with unacked := j.ce.unacked ++ [id] } }) else s

/-- A request leaves for another module. -/
def State.sendOut (s : State) (c ctx pa : Nat) (op : RemoteOp) : Nat × State :=
  let (id, s) := s.newId
  let d := coreDie c
  (id, { s with remote := s.remote ++ [{ id := id, ctx := ctx, core := c, die := d, epoch := tget 0 (s.die d).clock d, pa := pa, op := op }] })

/-- Room for one more withheld request at a base die: it holds up to 512, and the links that feed it wait until the oldest one, which
nothing withholds, is applied (R183). -/
def State.reqRoom (s : State) (b : Nat) : State :=
  match (s.base b).reqs with
  | [] => s
  | r :: rs => if 512 ≤ rs.length + 1 then (s.modBase b (fun x => { x with reqs := rs })).applyReq r else s

/-- Send masked bytes of one line toward their home. -/
def State.sendLine (s : State) (c : Nat) (u : SendUnit) (pa : Nat) (bs : List (Byte × Byte)) (ctx : Nat) : State :=
  if paMod pa = s.ownMod then
    let (id, s) := s.newId
    let s := s.addUnacked c u id
    let d := coreDie c
    let clk := (s.die d).clock
    let b := (s.homeOf (paLocal pa)).1
    let s := s.reqRoom b
    let r : HomeReq := { id := id, die := d, epoch := tget 0 clk d, clock := clk, core := c, unit_ := u, pa := pa, bytes := bs,
                         ctx := ctx, asid := ((s.ctx? ctx).map (·.asid)).getD 0 }
    (s.modBase b (fun x => { x with reqs := x.reqs ++ [r] })).postOnce (s.now + 1) (.homeRequestApply b)
  else
    let (id, s) := s.sendOut c ctx pa (.write (bs.map (·.1)))
    s.addUnacked c u id

/-- The writes on their way that a release by a core's unit covers, at the clock its die had before it: those of the core, and those of
epochs that happen before it (R178, R182, R185, R186). -/
def State.awaited (s : State) (c : Nat) (clk : Tbl Nat) : List Nat :=
  (s.bases.flatMap (fun b => (b.2.reqs.filter (fun r => r.core == c || decide (r.epoch < tget 0 clk r.die))).map (·.id)))
    ++ (s.remote.filter (fun o => o.core == c || decide (o.epoch < tget 0 clk o.die))).map (·.id)

/-- Send masked bytes of any length. -/
def State.sendBytes (s : State) (c : Nat) (u : SendUnit) (pa : Nat) (bs : List (Byte × Byte)) (ctx : Nat) : State :=
  (splitLines pa bs).foldl (fun s p => s.sendLine c u p.1 p.2 ctx) s

/-- Close an epoch of a die (R182, R183). -/
def State.closeEpoch (s : State) (d : Nat) : State :=
  s.modDie d (fun x => { x with clock := tput 0 x.clock d (tget 0 x.clock d + 1) })

/-! ### Translation (R394 to R398) -/

/-- What an access needs of a leaf (R397). -/
inductive Need where
  | fetch | load | store | rw | any
  deriving DecidableEq, Repr

/-- log2 of a page-size code (R395). -/
def szLog (c : Nat) : Nat :=
  match c with
  | 0 => 12
  | 1 => 14
  | 2 => 16
  | 3 => 18
  | 4 => 20
  | 5 => 21
  | 6 => 22
  | 7 => 24
  | 8 => 26
  | 9 => 28
  | 10 => 30
  | _ => 32

/-- Is a page-size code a leaf size of a level (R395)? -/
def leafOf (level code : Nat) : Bool :=
  match level with
  | 0 => decide (code ≤ 4)
  | 1 => decide (5 ≤ code ∧ code ≤ 9)
  | 2 => decide (code = 10 ∨ code = 11)
  | _ => false

/-- A leaf found by a walk: the entry and log2 of its page. -/
structure Leaf where
  pte : Word
  lg : Nat
  deriving DecidableEq, Repr

/-- The cause a walk raises, or what it found. -/
abbrev Walk := Except (BitVec 8) Leaf

/-- One entry of a table at a level (R395, R397): what the walk ends with there, or the table it goes on at. -/
def walkEntry (own level e : Nat) : Walk ⊕ Nat :=
  let sz := e / 64 % 16
  if !e.testBit 0 then .inl (.error 0x05)
  else if e.testBit 5 || e / 1024 % 4 != 0 then .inl (.error 0x06)
  else if e.testBit 1 then
    if !leafOf level sz || e % 2 ^ 47 / 4096 * 4096 % 2 ^ szLog sz != 0 then .inl (.error 0x06)
    else .inl (.ok { pte := BitVec.ofNat 64 e, lg := szLog sz })
  else if level == 0 || sz != 0 || e / 2 ^ 47 % 8192 != own then .inl (.error 0x06)
  else .inr (e / 4096 * 4096)

/-- Where the walk reads the entry of an address in a table at a level (R394, R397). -/
def walkAddr (level table va : Nat) : Nat := table + 8 * (if level = 4 then va / 2 ^ 48 % 256 else va / 2 ^ (12 + 9 * level) % 512)

/-- One step of a walk: the entry is read at its home and taken apart (R397); `die` and `core` are whose access it is. -/
def State.walkStep (s : State) (part die core ctx asid va level table : Nat) : State × (Walk ⊕ Nat) :=
  let pa := walkAddr level table va
  if !s.physOk part pa then (s, .inl (.error 0x06))
  else
    let (s, bs, _, bad) := s.homeRead die core (paKey pa) (paLocal pa) 8 ctx asid
    if bad then (s.lineError 2 (paLocal pa) va ctx, .inl (.error 0x08)) else (s, walkEntry s.ownMod level (leNat bs))

/-- The walk from a table at a level down (R397). -/
def State.walkFrom (s : State) (part die core ctx asid va : Nat) : Nat → Nat → State × Walk
  | 0, table =>
    match s.walkStep part die core ctx asid va 0 table with
    | (s, .inl w) => (s, w)
    | (s, .inr _) => (s, .error 0x06)
  | level + 1, table =>
    match s.walkStep part die core ctx asid va (level + 1) table with
    | (s, .inl w) => (s, w)
    | (s, .inr t) => s.walkFrom part die core ctx asid va level t

/-- Has a leaf the permission an access needs? -/
def Leaf.allows (f : Leaf) : Need → Bool
  | .fetch => f.pte.getLsbD 4
  | .load => f.pte.getLsbD 2
  | .store => f.pte.getLsbD 3
  | .rw => f.pte.getLsbD 2 && f.pte.getLsbD 3
  | .any => true

/-- The physical address a leaf gives. -/
def Leaf.pa (f : Leaf) (va : Nat) : Nat :=
  let e := f.pte.toNat
  e / 2 ^ 47 * 2 ^ 47 + e % 2 ^ 47 / 4096 * 4096 + va % 2 ^ f.lg

/-- A fault of an access: cause, DETAIL and FADDR. -/
structure AccFault where
  cause : BitVec 8
  detail : Nat
  va : Nat
  deriving DecidableEq, Repr

/-- The checks of a leaf's physical address: R388 here, R25 and R389 for another module. DESIGN CHOICE (log entry 73): until this
module has its number, an access to another module's address raises 0x06 with the virtual address; R25 only says that no such
traffic leaves. -/
def State.leafPa (s : State) (part : Nat) (f : Leaf) (need : Need) (va : Nat) : Except AccFault Nat :=
  if !f.allows need then .error { cause := 0x06, detail := va, va := va }
  else
    let pa := f.pa va
    if paMod pa = s.ownMod then
      if s.physOk part pa then .ok pa else .error { cause := 0x06, detail := va, va := va }
    else if 6144 ≤ paMod pa then .error { cause := 0x06, detail := pa, va := va }
    else if s.modnum = none then .error { cause := 0x06, detail := va, va := va }
    else .ok pa

/-- The cached entry for an address. -/
def tlbFind (l : List TlbEnt) (asid va : Nat) : Option TlbEnt :=
  l.find? (fun e => e.asid == asid && va / 2 ^ e.lg == e.va / 2 ^ e.lg)

/-- Put an entry in a cache of n entries, the oldest out. -/
def tlbPut (l : List TlbEnt) (n : Nat) (e : TlbEnt) : List TlbEnt := (e :: l.filter (· ≠ e)).take n

/-- The core's and the die's cached leaves for an address of a context, with what a miss counts (R398, R430). -/
def State.tlbLook (s : State) (c ctx va : Nat) (x : Ctx) : State × Option Leaf :=
  let d := coreDie c
  let inCore := tlbFind (s.core c).tlb x.asid va
  let inDie := tlbFind (s.die d).tlb x.asid va
  let s := if inCore.isNone then s.countCore c 0x000A (qualAny 1) else s
  let s := if inCore.isNone && inDie.isNone then s.countDie d ctx 0x0102 (qualAny 1) else s
  (s, (inCore.orElse (fun _ => inDie)).map (fun e => { pte := e.pte, lg := e.lg }))

/-- The leaf that an access of a core uses: a cached one, else what a walk finds. A cached leaf that differs from memory is used or not
by a free choice, since which entries stay cached is open (R398, log entry 8); the walk that only compares has no effect. -/
def State.findLeaf (s : State) (c ctx va : Nat) : State × Walk :=
  match s.ctx? ctx with
  | none => (s, .error 0x06)
  | some x =>
    let walk := fun (s : State) => s.walkFrom x.part (coreDie c) c ctx x.asid va 4 x.root
    match s.tlbLook c ctx va x with
    | (s, none) => walk s
    | (s, some f) =>
      if (walk s).2 = .ok f then (s, .ok f)
      else
        let (gone, s) := s.drawBit
        if gone then walk s else (s, .ok f)

/-- A leaf whose use passed every check is kept in the caches of the core and its die (R398). -/
def State.tlbFill (s : State) (c ctx va : Nat) (f : Leaf) : State :=
  match s.ctx? ctx with
  | none => s
  | some x =>
    let e : TlbEnt := { asid := x.asid, va := va / 2 ^ f.lg * 2 ^ f.lg, lg := f.lg, pte := f.pte }
    (s.modCore c (fun k => { k with tlb := tlbPut k.tlb 512 e })).modDie (coreDie c) (fun k => { k with tlb := tlbPut k.tlb 8192 e })

/-- Translate one address of a context for a core. -/
def State.translate (s : State) (c ctx va : Nat) (need : Need) : State × Except AccFault Nat :=
  let (s, w) := s.findLeaf c ctx va
  match w with
  | .error e => (s, .error { cause := e, detail := va, va := va })
  | .ok f =>
    match s.leafPa (((s.ctx? ctx).map (·.part)).getD 0) f need va with
    | .error e => (s, .error e)
    | .ok pa => (s.tlbFill c ctx va f, .ok pa)

/-- What another module answers to an access of this one is open: it serves it, refuses it (0x06), or cannot be reached
(0x15, detail 1) (R389, R328, log entry 15). -/
def State.remoteFault (s : State) (va : Nat) : State × Option AccFault :=
  let (refused, s) := s.drawBit
  let (lost, s) := s.drawBit
  (s, if refused then some { cause := 0x06, detail := va, va := va }
      else if lost then some { cause := 0x15, detail := 1, va := va } else none)

/-- Translate a range, page by page: the physical pieces in order. -/
def State.translateRange (s : State) (c ctx va n : Nat) (need : Need) : State × Except AccFault (List (Nat × Nat)) :=
  (splitAt2 12 (n + 1) va (List.replicate n ())).foldl (fun r p =>
    match r with
    | (s, .error e) => (s, .error e)
    | (s, .ok l) =>
      let (s, t) := s.translate c ctx p.1 need
      match t with
      | .error e => (s, .error e)
      | .ok pa =>
        let (s, f) := if paMod pa = s.ownMod then (s, none) else s.remoteFault p.1
        match f with
        | some e => (s, .error e)
        | none => (s, .ok (l ++ [(pa, p.2.length)]))) (s, .ok [])

/-- Translate for the front end or a channel of a die, without a core's cache. -/
def State.frontTranslate (s : State) (ctx va : Nat) (need : Need) : State × Except AccFault Nat :=
  match s.ctx? ctx with
  | none => (s, .error { cause := 0x06, detail := va, va := va })
  | some x =>
    let (s, w) := s.walkFrom x.part x.part (16 * x.part) ctx x.asid va 4 x.root
    match w with
    | .error e => (s, .error { cause := e, detail := va, va := va })
    | .ok f => (s, s.leafPa x.part f need va)

/-- An address of a context that the front end or a channel uses, with the refusal another module may answer (R389, R461). -/
def State.frontReach (s : State) (ctx va : Nat) (need : Need) : State × Except AccFault Nat :=
  let (s, t) := s.frontTranslate ctx va need
  match t with
  | .error e => (s, .error e)
  | .ok pa =>
    if paMod pa = s.ownMod then (s, .ok pa)
    else
      let (s, f) := s.remoteFault va
      match f with
      | some e => (s, .error e)
      | none => (s, .ok pa)

/-- n bytes of a context's memory read by the front end or a channel with a permission, page by page (R461). -/
def State.frontReadAs (s : State) (need : Need) (ctx va n : Nat) : State × Except AccFault (List Byte) :=
  (splitAt2 7 (n + 1) va (List.replicate n ())).foldl (fun r p =>
    match r with
    | (s, .error e) => (s, .error e)
    | (s, .ok l) =>
      let (s, t) := s.frontReach ctx p.1 need
      match t with
      | .error e => (s, .error e)
      | .ok pa =>
        if paMod pa = s.ownMod then
          let x := s.ctx? ctx
          let part := (x.map (·.part)).getD 0
          let (s, bs, _, bad) := s.homeRead part (16 * part) (paKey pa) (paLocal pa) p.2.length ctx ((x.map (·.asid)).getD 0)
          if bad then (s.lineError 2 (paLocal pa) p.1 ctx, .error { cause := 0x08, detail := p.1, va := p.1 }) else (s, .ok (l ++ bs))
        else
          let bs := (List.range p.2.length).map (fun i => Config.freeByte (s.free + i))
          ({ s with free := s.free + p.2.length }, .ok (l ++ bs))) (s, .ok [])

/-- n bytes of a context's memory read by the front end or a channel (R461). -/
def State.frontRead (s : State) (ctx va n : Nat) : State × Except AccFault (List Byte) := s.frontReadAs .load ctx va n

/-- The physical places of bytes of a context's memory, line by line; `strict` where an uncorrectable line fails the write (R461). -/
def State.frontPlaces (s : State) (strict : Bool) (ctx va : Nat) (bs : List Byte) : State × Except AccFault (List (Nat × List Byte)) :=
  (splitLines va bs).foldl (fun r p =>
    match r with
    | (s, .error e) => (s, .error e)
    | (s, .ok l) =>
      let (s, t) := s.frontReach ctx p.1 .store
      match t with
      | .error e => (s, Except.error e)
      | .ok pa =>
        if strict && decide (paMod pa = s.ownMod) && s.isBad (paLocal pa) then
          (s.lineError 2 (paLocal pa) p.1 ctx, .error { cause := 0x08, detail := p.1, va := p.1 })
        else (s, .ok (l ++ [(pa, p.2)]))) (s, (.ok [] : Except AccFault (List (Nat × List Byte))))

/-- Bytes of a context's memory written for the front end, a channel or a landing; all translations are made before any byte is
written. -/
def State.writeFor (s : State) (strict : Bool) (ctx va : Nat) (bs : List Byte) : State × Except AccFault Unit :=
  let (s, t) := s.frontPlaces strict ctx va bs
  match t with
  | .error e => (s, .error e)
  | .ok l =>
    let asid := ((s.ctx? ctx).map (·.asid)).getD 0
    (l.foldl (fun (s : State) p =>
      if paMod p.1 = s.ownMod then
        let b := (s.homeOf (paLocal p.1)).1
        let s := s.applyUpTo b (fun r => paLocal r.pa / 128 == paLocal p.1 / 128)
        s.homeWriteLine (paKey p.1) (paLocal p.1) (fullMask p.2) ctx asid
      else (s.sendOut (16 * ((s.ctx? ctx).map (·.part)).getD 0) ctx p.1 (.write p.2)).2) s, .ok ())

/-- Bytes written by the front end itself: an uncorrectable line fails the write with 0x08 (R369, R461). -/
def State.frontWrite (s : State) (ctx va : Nat) (bs : List Byte) : State × Except AccFault Unit := s.writeFor true ctx va bs

/-- Bytes written by a channel or a landing: a store, which an uncorrectable line takes (R393). -/
def State.unitWrite (s : State) (ctx va : Nat) (bs : List Byte) : State × Except AccFault Unit := s.writeFor false ctx va bs

/-! ### The L1 data cache (R143 to R145) -/

/-- Byte i of a line. -/
def L1Line.byte (l : L1Line) (i : Nat) : Byte := BitVec.ofNat 8 (l.data.toNat >>> (8 * i))

/-- A line with byte i replaced. -/
def L1Line.setByte (l : L1Line) (i : Nat) (b : Byte) : L1Line :=
  { l with data := (l.data &&& ~~~(0xFF#1024 <<< (8 * i))) ||| (b.setWidth 1024 <<< (8 * i)) }

/-- The DB bytes of a line as masked bytes. -/
def L1Line.dirty (l : L1Line) : List (Byte × Byte) :=
  (List.range 128).map (fun i => if l.db.getLsbD i then (l.byte i, 0xFF) else (0, 0))

/-- Ways of the L1 of a core (R139, R140). -/
def Core.l1Ways (k : Core) : Nat := 20 - k.ways

/-- Write back the DB bytes of a line and clear DB; the write-back is an unacknowledged store of the unit. -/
def State.writeBack (s : State) (c : Nat) (u : SendUnit) (l : L1Line) : State :=
  if l.db = 0 then s
  else (s.sendLine c u l.pa l.dirty l.ctx).countCore c 0x0009 (qualAny 1)

/-- The ways of the L1 of a core that hold no valid line of a set, lowest first (R452). -/
def Core.freeWays (k : Core) (same : List L1Line) : List Nat :=
  ((List.range k.l1Ways).map (fun i => k.ways + i)).filter (fun w => !same.any (fun x => x.way == w))

/-- Put a line at the front of the L1: where it was, else in the lowest way without a valid line, else in the way of the least recently
used line of the set, which is written back (R143, R452). -/
def State.l1Put (s : State) (c : Nat) (l : L1Line) : State :=
  let k := s.core c
  let valid := k.l1.filter (fun x => x.vb != 0)
  let rest := valid.filter (fun x => x.pa != l.pa)
  let same := rest.filter (fun x => x.pa / 128 % 128 == l.pa / 128 % 128)
  match ((valid.find? (fun x => x.pa == l.pa)).map (fun x => x.way)).orElse (fun _ => (k.freeWays same).head?) with
  | some w => s.setCore c { k with l1 := { l with way := w } :: rest }
  | none =>
    match same.getLast? with
    | none => s.setCore c { k with l1 := rest }
    | some v =>
      let s := s.setCore c { k with l1 := { l with way := v.way } :: rest.filter (fun x => x.pa != v.pa) }
      s.writeBack c 0 v

/-- A line of the L1. -/
def State.l1Find (s : State) (c pa : Nat) : Option L1Line := (s.core c).l1.find? (fun l => l.pa == pa && l.vb != 0)

/-- A new empty line. DESIGN CHOICE (log entry 74): a line that a store allocates has FS strm until it is filled; R144 names no scope
for bytes that no load fetched. -/
def emptyLine (pa ctx : Nat) : L1Line :=
  { pa := pa, data := 0, vb := 0, db := 0, ws := .strm, fs := .strm, ctx := ctx, clk := [] }

/-- Fetch a line from its home and merge its missing bytes (R144): the line, and whether it is poisoned. -/
def State.l1Fill (s : State) (c : Nat) (l : L1Line) (scope : Scope) : State × L1Line × Bool :=
  let asid := ((s.ctx? l.ctx).map (·.asid)).getD 0
  let (s, bs, clk, bad) :=
    if paMod l.pa = s.ownMod then s.homeRead (coreDie c) c (paKey l.pa) (paLocal l.pa) 128 l.ctx asid
    else ({ s with free := s.free + 128 }, (List.range 128).map (fun i => Config.freeByte (s.free + i)), [], false)
  let data := (bs.zipIdx).foldl (fun (l : L1Line) p => if l.vb.getLsbD p.2 then l else l.setByte p.2 p.1) l
  let s := s.countCore c 0x0008 (qualAny 1)
  (s, { data with vb := BitVec.allOnes 128, fs := scope, clk := clkJoin l.clk clk }, bad)

/-- Load bytes of one line through the L1: the bytes with the mark of an uncorrectable line, and the clock of what was read. -/
def State.l1Load (s : State) (c ctx pa n : Nat) (scope : Scope) : State × List (Byte × Bool) × Tbl Nat :=
  let la := pa / 128 * 128
  let l := (s.l1Find c la).getD (emptyLine la ctx)
  let off := pa % 128
  let missing := (List.range n).any (fun i => !l.vb.getLsbD (off + i))
  let (s, l, _) := if missing then s.l1Fill c l scope else (s, l, false)
  let s := s.l1Put c l
  let bad := decide (paMod pa = s.ownMod) && s.isBad (paLocal pa)
  (s, (List.range n).map (fun i => (l.byte (off + i), bad)), l.clk)

/-- Store masked bytes of one line through the L1 at a scope (R144). -/
def State.l1Store (s : State) (c : Nat) (u : SendUnit) (ctx pa : Nat) (bs : List (Byte × Byte)) (scope : Scope) : State :=
  let la := pa / 128 * 128
  let off := pa % 128
  let put := fun (l : L1Line) (valid : Bool) =>
    bs.zipIdx.foldl (fun (l : L1Line) p =>
      if p.1.2 = 0 then l
      else
        let i := off + p.2
        -- a byte written in part keeps its other bits, so it must be valid first
        let l := l.setByte i ((l.byte i &&& ~~~p.1.2) ||| (p.1.1 &&& p.1.2))
        if valid then { l with vb := l.vb ||| (1#128 <<< i), db := l.db ||| (1#128 <<< i) } else l) l
  let part := bs.zipIdx.any (fun p => p.1.2 != 0 && p.1.2 != 0xFF)
  if scopeWide scope then
    match s.l1Find c la with
    | none => s.sendLine c u pa bs ctx
    | some l =>
      -- a byte written in part is fetched first, so that its other bits are the line's
      let (s, l) := if part then (let r := s.l1Fill c l l.fs; (r.1, r.2.1)) else (s, l)
      let l := put l true
      let s := (s.l1Put c { l with db := 0 })
      s.sendLine c u la l.dirty ctx
  else
    let l := (s.l1Find c la).getD (emptyLine la ctx)
    let (s, l) := if part then (let r := s.l1Fill c l scope; (r.1, r.2.1)) else (s, l)
    s.l1Put c { put l true with ws := scope }

/-- The L1 action of a release at a scope (R145): every dirty line is written back at die scope or wider. -/
def State.l1Release (s : State) (c : Nat) (u : SendUnit) (scope : Scope) : State :=
  if scopeWide scope then
    let ds := (s.core c).l1.filter (fun l => l.db ≠ 0)
    let s := ds.foldl (fun s l => s.writeBack c u l) s
    s.modCore c (fun k => { k with l1 := k.l1.map (fun l => { l with db := 0 }) })
  else s

/-- The L1 action of an acquire at a scope (R145); `full` is the clear of a full fence (R178). DEDUCED (log entry 75): R145 and R178
leave a clean line whose FS equals S valid at an acquire that is no full fence, although R180 forbids a later load to return its
old bytes; the model follows R145 and R178 as they stand. -/
def State.l1Acquire (s : State) (c : Nat) (scope : Scope) (full : Bool) : State :=
  if scopeWide scope then
    s.modCore c (fun k => { k with l1 := k.l1.map (fun l =>
      if scopeNum l.fs < scopeNum scope || (full && scopeNum l.fs == scopeNum scope) then { l with vb := l.db } else l) })
  else s

/-- A release at a scope by a unit of a core (R178): the L1 action and, at die scope or wider, the end of an epoch. -/
def State.release (s : State) (c : Nat) (u : SendUnit) (scope : Scope) : State :=
  if scopeWide scope then (s.l1Release c u scope).closeEpoch (coreDie c) else s

/-- An acquire at a scope by a stream: the L1 action, and the clocks of what its loads returned join the die's (R182). -/
def State.acquire (s : State) (c : Nat) (x : Strm) (scope : Scope) (full : Bool) : State :=
  if scopeWide scope then
    let seen := (((s.core c).job).map (fun j => (j.strm x).seen)).getD []
    let s := s.modDie (coreDie c) (fun d => { d with clock := clkJoin d.clock seen })
    (s.modStrm c x (fun v => { v with seen := [] })).l1Acquire c scope full
  else s

/-! ### The local aperture (R138, R146, R148) -/

/-- Scratchpad size of a core in bytes. -/
def Core.spadSize (k : Core) : Nat := k.ways * 16384

/-- The cluster region of a record in a bay. -/
def Bay.region (b : Bay) (rid : Nat) : Option Region := b.regions.find? (fun r => r.rid == rid)

/-- Size of the cluster region of the job on a core (R139 `cpsz`). -/
def State.regionSize (s : State) (c : Nat) : Nat :=
  match (s.core c).job with
  | none => 0
  | some j => (((s.bay (coreBay c)).region j.rid).map (·.size)).getD 0

/-- Set or clear the full-empty bits of the granules that a range touches (R148). -/
def setGranules (fe : Tbl Bool) (off n : Nat) (v : Bool) : Tbl Bool :=
  if n = 0 then fe
  else (List.range ((off + n - 1) / 16 - off / 16 + 1)).foldl (fun t i => tput false t (off / 16 + i) v) fe

/-- The first empty granule's offset of a range. -/
def emptyGranule (fe : Tbl Bool) (off n : Nat) : Option Nat :=
  if n = 0 then none
  else ((List.range ((off + n - 1) / 16 - off / 16 + 1)).find? (fun i => !tget false fe (off / 16 + i))).map
    (fun i => (off / 16 + i) * 16)

/-- The marks of uncorrectable granules after a write: one that is covered whole is good again (R158). -/
def badAfter (bad : Tbl Bool) (off : Nat) (bs : List (Byte × Byte)) : Tbl Bool :=
  if bad.isEmpty then bad
  else bad.filter (fun e => !(decide (off ≤ 16 * e.1 ∧ 16 * e.1 + 16 ≤ off + bs.length)
    && ((bs.drop (16 * e.1 - off)).take 16).all (fun b => b.2 == 0xFF)))

/-- Write masked bytes into a core's scratchpad; `full` sets the granules touched full. -/
def State.spadWrite (s : State) (c off : Nat) (bs : List (Byte × Byte)) (full : Bool) : State :=
  s.modCore c (fun k => { k with
    spad := writeMasked k.spad off bs
    spadBad := badAfter k.spadBad off bs
    fe := if full then setGranules k.fe off bs.length true else k.fe })

/-- Bytes of a core's scratchpad with the marks of uncorrectable ones (R158). -/
def State.spadRead (s : State) (c off n : Nat) : List (Byte × Bool) :=
  ((readBytes (s.core c).spad off n).zipIdx).map (fun p => (p.1, tget false (s.core c).spadBad ((off + p.2) / 16)))

/-- Bytes of the cluster region of the job on a core. -/
def State.clusterRead (s : State) (c off n : Nat) : List Byte :=
  match (s.core c).job with
  | none => List.replicate n 0
  | some j =>
    let b := s.bay (coreBay c)
    match b.region j.rid with
    | none => List.replicate n 0
    | some r => readBytes b.mem (r.base + off) n

/-- The marks of uncorrectable bytes of the cluster region of the job on a core (R158). -/
def State.clusterMarks (s : State) (c off n : Nat) : List (Byte × Bool) :=
  let bad := fun i => match (s.core c).job with
    | none => false
    | some j =>
      let b := s.bay (coreBay c)
      match b.region j.rid with
      | none => false
      | some r => tget false b.memBad ((r.base + off + i) / 16)
  ((s.clusterRead c off n).zipIdx).map (fun p => (p.1, bad p.2))

/-- Write masked bytes into the cluster region of the job on a core. -/
def State.clusterWrite (s : State) (c off : Nat) (bs : List (Byte × Byte)) : State :=
  match (s.core c).job with
  | none => s
  | some j =>
    match (s.bay (coreBay c)).region j.rid with
    | none => s
    | some r => s.modBay (coreBay c) (fun b => { b with
      mem := writeMasked b.mem (r.base + off) bs
      memBad := badAfter b.memBad (r.base + off) bs })

end Sys2Proof.Machine
end

