-- ==== Sys2Proof/Machine/Front.lean ====
section
/-!
DEFINITION. The front end: trap records, completion entries and dependences, stopping and tearing down a context (R357 to R360, R367, R369, R372, R383, R461).
-/

namespace Sys2Proof.Machine

/-! ### Records (R352 to R357) -/

/-- The number in n bytes of a record from byte i (R352). -/
def Rec.field (r : Rec) (i n : Nat) : Nat := r.bytes.toNat / 2 ^ (8 * i) % 2 ^ (8 * n)

/-- TYPE of a record. -/
def Rec.type (r : Rec) : Nat := r.field 0 1

/-- Must A complete before B (R357)? A is the earlier record of the same queue. -/
def Rec.dep (a b : Rec) : Bool :=
  a.type != 1 || b.type != 1 || a.decls.isEmpty || b.decls.isEmpty ||
    a.decls.any (fun x => b.decls.any (fun y =>
      decide (x.1 < y.1 + y.2.1 ∧ y.1 < x.1 + x.2.1) && (x.2.2 || y.2.2)))

/-- The records of a queue that have not completed, oldest first. -/
def State.queueRecs (s : State) (q : Nat) : List (Nat × Rec) :=
  s.recs.filterMap (fun e => e.2.bind (fun r => if r.queue = q then some (e.1, r) else none))

/-- Has the record an incomplete predecessor among the earlier records of its queue? -/
def State.hasPred (s : State) (rid : Nat) (r : Rec) : Bool :=
  (s.queueRecs r.queue).any (fun e => decide (e.1 < rid) && e.2.dep r)

/-- Post the readiness of the waiting records of a queue that nothing holds back, among the 64 oldest (R358). -/
def State.wakeRecs (s : State) (q : Nat) : State :=
  ((s.queueRecs q).take 64).foldl (fun s e =>
    if e.2.state = .waiting && !s.hasPred e.1 e.2 then s.postOnce (s.now + 1) (.recordReady e.1) else s) s

/-! ### Trap records (R369) -/

/-- The fields of a trap record (R369). -/
structure TrapRec where
  cause : BitVec 8
  strm : Nat := 0
  source : Nat := 0
  late : Bool := false
  more : Bool := false
  reason : Nat := 0
  subcode : Nat := 0
  core : Nat := 0xFFFF
  queue : Nat := 0
  pc : Nat := 0
  word : Nat := 0
  lit : Nat := 0
  repk : Nat := 0
  cause2 : Nat := 0
  detail : Nat := 0
  time : Nat := 0
  ctx : Nat := 0
  asr : Nat := 0
  pops : List Word := []
  faddr : Nat := 0
  deriving DecidableEq, Repr

/-- Bytes 0 to 31 of a trap record (R369). -/
def TrapRec.bytes0 (r : TrapRec) : List Byte :=
  leBytes r.cause.toNat 1
    ++ leBytes (r.strm % 4 + r.source % 8 * 4 + r.late.toNat * 32 + r.more.toNat * 64) 1
    ++ leBytes r.reason 1 ++ leBytes r.subcode 1 ++ leBytes r.core 2 ++ leBytes r.queue 2
    ++ leBytes r.pc 8 ++ leBytes r.word 8 ++ leBytes r.lit 4 ++ leBytes r.repk 1 ++ leBytes r.cause2 1 ++ leBytes 0 2

/-- Bytes 32 to 63. -/
def TrapRec.bytes32 (r : TrapRec) : List Byte := leBytes r.detail 8 ++ leBytes r.time 8 ++ leBytes r.ctx 8 ++ leBytes r.asr 8

/-- Bytes 64 to 127: the popped values, their count and FADDR. -/
def TrapRec.bytes64 (r : TrapRec) : List Byte :=
  ([0, 1, 2].flatMap (fun i => leBytes (r.pops.getD i 0).toNat 8)) ++ leBytes (min r.pops.length 3) 1 ++ leBytes 0 7 ++ leBytes r.faddr 8
    ++ leBytes 0 24

/-- The 128 bytes of a trap record (R369). -/
def TrapRec.bytes (r : TrapRec) : List Byte := r.bytes0 ++ r.bytes32 ++ r.bytes64

/-- Write a record at the tail of a context's trap ring and raise the trap vector (R369): the ring index (none where the
ring was full and LOST counted it), or the virtual address whose write failed. -/
def State.putTrap (s : State) (ctx : Nat) (r : TrapRec) : State × Except Nat (Option Nat) :=
  match s.ctx? ctx with
  | none => (s, .ok none)
  | some x =>
    let (s, h) := s.frontReadAs .store ctx x.trapa 12
    match h with
    | .error _ => (s, .error x.trapa)
    | .ok h =>
      let head := leNat (h.take 4)
      let tail := leNat ((h.drop 4).take 4)
      let lost := leNat (h.drop 8)
      if 64 ≤ (tail + 2 ^ 32 - head) % 2 ^ 32 then
        let (s, w) := s.frontWrite ctx (x.trapa + 8) (leBytes (lost + 1) 4)
        match w with
        | .error _ => (s, .error (x.trapa + 8))
        | .ok _ => (s.raise x.fn 3, .ok none)
      else
        let at_ := x.trapa + 128 + 128 * (tail % 64)
        let (s, w) := s.frontWrite ctx at_ ({ r with time := s.timeNs, ctx := ctx } : TrapRec).bytes
        match w with
        | .error _ => (s, .error at_)
        | .ok _ =>
          let (s, w) := s.frontWrite ctx (x.trapa + 4) (leBytes (tail + 1) 4)
          match w with
          | .error _ => (s, .error (x.trapa + 4))
          | .ok _ => (s.raise x.fn 3, .ok (some tail))

/-! ### Leases and jobs that end (R240, R244) -/

/-- End the grant of a bay, if this core holds it (R240). -/
def State.endGrant (s : State) (c : Nat) : State :=
  s.modBay (coreBay c) (fun b =>
    if b.holder = some (c % 4) then { b with holder := none, gc := 0, grantEnd := some s.now } else b)

/-- Withdraw whatever a core asks of its bay and its die. -/
def State.dropRequests (s : State) (c : Nat) : State :=
  (s.modDie (coreDie c) (fun d => { d with galWait := d.galWait.filter (fun w => w.1 != c) })).modBay (coreBay c) (fun b => { b with
    req := b.req.filter (fun r => r.1 != c % 4)
    entering := b.entering.filter (· != c)
    noiseReq := b.noiseReq.filter (fun r => r / 8 != c % 4)
    noiseGrant := b.noiseGrant.filter (fun r => r / 8 != c % 4) })

/-- Free the core of its job: queues, streams, commands and pins go with it, and a page that was only held by its pin is dropped
(R289, R298). -/
def State.clearJob (s : State) (c : Nat) : State :=
  let s := (s.endGrant c).dropRequests c
  s.modCore c (fun k => { k with
    job := none
    lastCtx := (k.job.map (·.ctx)).orElse (fun _ => k.lastCtx)
    arr := []
    stopping := none
    lastTrap := none
    wcsld := none
    pages := (k.pages.filter (fun p => !((p.2.map (·.stale)).getD false))).map
      (fun p => (p.1, p.2.map (fun g => { g with pinned := false, loading := false }))) })

/-! ### Teardown (R383, R315, R348, R291) -/

/-- Remove a gang's member, and the gang with its last member (R152). -/
def State.leaveGang (s : State) (c rid : Nat) : State :=
  let d := coreDie c
  let gs := (s.die d).gangs.map (fun g => if g.rid = rid then { g with members := g.members.filter (· != c) } else g)
  let ended := gs.filter (fun g => g.members.isEmpty)
  let s := s.modDie d (fun x => { x with gangs := gs.filter (fun g => !g.members.isEmpty) })
  ended.foldl (fun s g => g.idle.foldl (fun s i => s.modCore i (fun k => { k with gangIdle := none })) s) s

/-- Write a completion entry of a record (R367): 16 bytes at the next place of the ring, in completion order. -/
def State.putCompletion (s : State) (rid : Nat) (status info : Nat) : State × Except AccFault Unit :=
  match s.rec? rid with
  | none => (s, .ok ())
  | some r =>
    match s.queue? r.queue with
    | none => (s, .ok ())
    | some q =>
      let n := q.compl
      let ph := 1 - n / 2 ^ q.k % 2
      let bs := leBytes (r.field 4 4) 4 ++ leBytes r.idx 2 ++ leBytes status 1 ++ leBytes ph 1 ++ leBytes info 8
      let s := s.flushHomes
      let (s, w) := s.frontWrite q.ctx (q.cmpr + 16 * (n % 2 ^ q.k)) bs
      match w with
      | .error e => (s, .error e)
      | .ok _ =>
        let s := s.modQueue r.queue (fun q => { q with compl := q.compl + 1 })
        (if r.irq then s.raise q.fn q.vec else s, .ok ())

/-- INFO of a record's completion entry: the chunks re-issued of an OPERATOR, the answer of an RSLOT record (R367). -/
def Rec.infoNow (r : Rec) : Nat := if r.type = 1 then r.reissued else r.info.toNat

/-- The failed records of a ring that a record entered now may depend on, with how many further records they may reach. -/
def Queue.badNext (q : Queue) : List (Nat × Rec) := (q.bad.map (fun e => (e.1 - 1, e.2))).filter (fun e => e.1 != 0)

/-- A failed record of a ring: it is a predecessor of the records that stand unread behind it (R357, R360). -/
def Queue.noteBad (q : Queue) (r : Rec) : Queue :=
  let unread := (q.tail.toNat + 2 ^ 16 - q.head.toNat) % 2 ^ q.k
  if unread = 0 then q else { q with bad := q.bad ++ [(unread, r)] }

/-- Drop a record: its cluster regions and gangs are freed, and a failed status passes to its dependants, also to those that stand
unread in the ring (R360). -/
def State.dropRec (s : State) (rid : Nat) (status : Nat) : State :=
  match s.rec? rid with
  | none => s
  | some r =>
    let s : State := { s with recs := tput none s.recs rid none }
    let s : State := { s with bays := s.bays.map (fun b => (b.1, { b.2 with regions := b.2.regions.filter (fun g => g.rid != rid) })) }
    let s : State := { s with dies := s.dies.map (fun d => (d.1, { d.2 with gangs := d.2.gangs.filter (fun g => g.rid != rid) })) }
    let s : State := { s with cores := s.cores.map (fun k => (k.1,
      if k.2.gangIdle = some rid then { k.2 with gangIdle := none } else k.2)) }
    let s := if status = 0 then s else s.modQueue r.queue (fun q => q.noteBad r)
    let s := (s.queueRecs r.queue).foldl (fun s e =>
      if status != 0 && decide (rid < e.1) && e.2.state = .waiting && r.dep e.2 then
        (s.modRec e.1 (fun x => { x with state := .done 0x31 })).postOnce s.now (.recordCompletion e.1)
      else s) s
    s.wakeRecs r.queue

/-- Teardown of a context (R383): its jobs stop at once, everything it holds is discarded, its outstanding records
complete with 0x33, a trap record with CAUSE 0 names the source and the error where the trap area can be written, its
translations are shot down and its address space released. -/
def State.teardown (s : State) (ctx source : Nat) (error : Word) (core : Nat := 0xFFFF) : State :=
  match s.ctx? ctx with
  | none => s
  | some x =>
    -- its gallery stores on their way go with the jobs that sent them
    let s : State := { s with galleries := s.galleries.filter (fun g => (s.core g.src).job.map (·.ctx) != some ctx) }
    -- jobs, launches and dirty lines on every core
    let s := s.cores.foldl (fun s e =>
      let c := e.1
      let k := s.core c
      let mine := (k.job.map (·.ctx)) = some ctx
      let rids := s.recs.filterMap (fun r => r.2.bind (fun v =>
        if (s.queue? v.queue).map (·.ctx) = some ctx then some r.1 else none))
      let s := if mine then s.clearJob c else s
      s.modCore c (fun k => { k with
        shadow := k.shadow.bind (fun l => if rids.contains l.rid then none else some l)
        gangIdle := k.gangIdle.bind (fun r => if rids.contains r then none else some r)
        l1 := k.l1.filterMap (fun l => if l.ctx = ctx then (if l.db = 0 then some l else none) else some l)
        frags := k.frags.filter (fun f => f.p.ctx != ctx)
        credits := k.credits + (k.frags.filter (fun f => f.p.ctx == ctx && (f.flying || f.bounced))).length
        pages := k.pages.filter (fun p => (p.2.map (·.ctx)) != some ctx)
        tlb := k.tlb.filter (fun t => t.asid != x.asid) })) s
    -- landings, deliveries, galleries of its records, channels and tags go with the context
    let s : State := { s with
      ports := s.ports.filter (fun l => l.ctx != ctx)
      landings := s.landings.map (fun l => (l.1, { l.2 with ops := l.2.ops.filter (fun o => o.p.ctx != ctx) }))
      deliveries := s.deliveries.filter (fun d => d.p.ctx != ctx)
      dies := s.dies.map (fun d => (d.1, { d.2 with tlb := d.2.tlb.filter (fun t => t.asid != x.asid) }))
      bays := s.bays.map (fun b => (b.1, { b.2 with regions := b.2.regions.filter (fun g => g.ctx != ctx) })) }
    -- its records complete with 0x33, where their entries can be written; those that a stop had ended, with 0x32 (R372)
    let rids := s.recs.filterMap (fun r => r.2.bind (fun v =>
      if (s.queue? v.queue).map (·.ctx) = some ctx then some r.1 else none))
    let status := fun (v : Rec) => if v.state = .done 0x32 || (x.status = .stopped && v.state = .running) then 0x32 else 0x33
    let s := rids.foldl (fun s r => match s.rec? r with
      | some v => (s.putCompletion r (status v) v.infoNow).1
      | none => s) s
    let s := (s.putTrap ctx { cause := 0, source := source, core := core, detail := error.toNat }).1
    let s := rids.foldl (fun s r => s.dropRec r 0x33) s
    let s : State := { s with queues := s.queues.filter (fun q => (q.2.map (·.ctx)) != some ctx) }
    let s : State := { s with ctxs := tput none s.ctxs ctx none }
    -- a profiling lease ends with the holder's last context in the partition (R434)
    match (s.pool x.part).prf with
    | some (f, _, _, _) =>
      if f = x.fn && !s.ctxs.any (fun e => (e.2.map (fun y => y.fn == f && y.part == x.part)).getD false) then
        s.modPool x.part (fun p => { p with prf := none })
      else s
    | none => s

/-- An area of a context that cannot be written: an error record of type 9, and teardown (R369, R461). -/
def State.areaLost (s : State) (ctx va : Nat) : State :=
  let (e, s) := s.drawWord
  (s.error 9 11 0 0 va ctx 0).teardown ctx 5 e

/-! ### Stopping and holding a context (R372) -/

/-- Is any core still running a job of the context? -/
def State.ctxRuns (s : State) (ctx : Nat) : Bool := s.cores.any (fun e => (e.2.job.map (·.ctx)) == some ctx)

/-- A stop that is complete: every record of the context that has started completes with 0x32, once the release of its completion is made
(R359, R372). -/
def State.finishStop (s : State) (ctx : Nat) : State :=
  match s.ctx? ctx with
  | some x =>
    if x.status = .stopped && !s.ctxRuns ctx then
      let rids := s.recs.filterMap (fun r => r.2.bind (fun v =>
        if (s.queue? v.queue).map (·.ctx) = some ctx && v.state = .running then some r.1 else none))
      rids.foldl (fun s r => (s.modRec r (fun v => { v with state := .done 0x32, info := BitVec.ofNat 64 v.infoNow })).postOnce s.now
        (.recordCompletion r)) s
    else s
  | none => s

/-- Ask every core that runs a job of the context to stop (R372, R375). -/
def State.askStop (s : State) (ctx : Nat) (kind : StopKind) : State :=
  s.cores.foldl (fun s e =>
    if (e.2.job.map (·.ctx)) = some ctx then
      s.modCore e.1 (fun k => { k with stopFrom := if k.stopping.isSome then k.stopFrom else s.now + 1, stopping := if k.stopping = some .stop ∨ kind = .preempt ∧ k.stopping.isSome then k.stopping else some kind })
    else s) s

/-- Stop or hold a context (R372); a stop overrides a hold. -/
def State.haltCtx (s : State) (ctx : Nat) (hold : Bool) : State :=
  let s := s.modCtx ctx (fun x => { x with
    status := match x.status with
      | .live => if hold then .held else .stopped
      | .held => if hold then .held else .stopped
      | y => y
    yieldBy := none })
  (s.askStop ctx (if hold then .hold else .stop)).finishStop ctx

/-- Does the cause hold the context (0x10, 0x11, 0x12) rather than stop it (R372)? -/
def causeHolds (c : BitVec 8) : Bool := c == 0x10 || c == 0x11 || c == 0x12

/-- A trap that no core raises: a trap record with SOURCE 5 and, except for 0x05, a stop of the context (R461). The ring
index of the record. -/
def State.frontTrap (s : State) (ctx queue : Nat) (e : AccFault) : State × Option Nat :=
  let fa := if e.cause ∈ [0x05, 0x06, 0x07, 0x08] then e.va else 0
  let (s, w) := s.putTrap ctx { cause := e.cause, source := 5, queue := ((s.queue? queue).map (·.q)).getD 0, detail := e.detail, faddr := fa }
  match w with
  | .error va => (s.areaLost ctx va, none)
  | .ok ix => (if e.cause = 0x05 then s else s.haltCtx ctx false, ix)

/-- The suspension that a translation fault leaves (R371); a record lost to a full ring can be named by no reply. -/
def suspOf (e : AccFault) (ix : Option Nat) : Susp := { va := e.va, idx := ix.getD (2 ^ 32), reply := none }

/-- A record ends: its completion entry is written after the release of R359, its interrupt raised and its dependants
freed or failed (R359, R360, R367). A missing translation suspends the record; any other failure stops the context, and the trap
record alone reports it (R461). -/
def State.finishRec (s : State) (rid status info : Nat) : State :=
  match s.rec? rid with
  | none => s
  | some r =>
    let ctx := ((s.queue? r.queue).map (·.ctx)).getD 0
    let (s, w) := s.putCompletion rid status info
    match w with
    | .ok _ => s.dropRec rid status
    | .error e =>
      let (s, ix) := s.frontTrap ctx r.queue e
      if e.cause = 0x05 then
        s.modRec rid (fun r => { r with state := .done (BitVec.ofNat 8 status), info := BitVec.ofNat 64 info, susp := some (suspOf e ix) })
      else s.dropRec rid 0x32

end Sys2Proof.Machine
end

