-- ==== Sys2Proof/Machine/Numeric.lean ====
section
/-!
DEFINITION. Exact values, the internal formats W36 and W18, the memory formats, round-to-odd and the final store (R55 to R92).
-/

namespace Sys2Proof.Machine

/-! ### Exact values -/

/-- An exact value: NaN, an infinity, or plus or minus m × 2^e; a zero keeps its sign. -/
inductive XVal where
  | nan
  | inf (neg : Bool)
  | fin (neg : Bool) (m : Nat) (e : Int)
  deriving DecidableEq, Repr

/-- The arithmetic flags of R79: bits NX 0, OF 1, UF 2, NV 3, DZ 4, ER 5. -/
abbrev Flg := BitVec 6

/-- NX of R79. -/
def flgNX : Flg := 1
/-- OF of R79. -/
def flgOF : Flg := 2
/-- UF of R79. -/
def flgUF : Flg := 4
/-- NV of R79. -/
def flgNV : Flg := 8
/-- DZ of R79. -/
def flgDZ : Flg := 16
/-- ER of R79. -/
def flgER : Flg := 32

/-- A flag if the condition holds. -/
def flgIf (c : Bool) (f : Flg) : Flg := if c then f else 0

/-- The exact value of an integer; zero is +0. -/
def XVal.ofInt (i : Int) : XVal := .fin (decide (i < 0)) i.natAbs 0

/-- Sign change (R81). -/
def XVal.neg : XVal → XVal
  | .nan => .nan
  | .inf s => .inf (!s)
  | .fin s m e => .fin (!s) m e

/-- A finite value as an integer multiple of 2^e, for an e not above its exponent. -/
def scaled (s : Bool) (m : Nat) (e e' : Int) : Int :=
  let v : Int := (m <<< (e - e').toNat : Nat)
  if s then -v else v

/-- Exact sum with the special cases of R84 and the zero signs of R85; the flag is NV. -/
def XVal.add : XVal → XVal → XVal × Bool
  | .nan, _ => (.nan, false)
  | _, .nan => (.nan, false)
  | .inf a, .inf b => if a == b then (.inf a, false) else (.nan, true)
  | .inf a, _ => (.inf a, false)
  | _, .inf b => (.inf b, false)
  | .fin a m e, .fin b n f =>
    if m = 0 ∧ n = 0 then (.fin (a && b) 0 0, false)
    else
      let g := min e f
      let v := scaled a m e g + scaled b n f g
      (.fin (decide (v < 0)) v.natAbs (if v = 0 then 0 else g), false)

/-- Exact product (R84, R85); the flag is NV. -/
def XVal.mul : XVal → XVal → XVal × Bool
  | .nan, _ => (.nan, false)
  | _, .nan => (.nan, false)
  | .inf a, .inf b => (.inf (a != b), false)
  | .inf a, .fin b m _ => if m = 0 then (.nan, true) else (.inf (a != b), false)
  | .fin a m _, .inf b => if m = 0 then (.nan, true) else (.inf (a != b), false)
  | .fin a m e, .fin b n f => (.fin (a != b) (m * n) (if m * n = 0 then 0 else e + f), false)

/-- a × b + c with one exact sum; a NaN operand raises no flag (R84). -/
def XVal.fma (a b c : XVal) : XVal × Bool :=
  let p := a.mul b
  let r := p.1.add c
  (r.1, (p.2 || r.2) && !(a == .nan || b == .nan || c == .nan))

/-- Is the value NaN? -/
def XVal.isNan : XVal → Bool
  | .nan => true
  | _ => false

/-- Is the value a zero? -/
def XVal.isZero : XVal → Bool
  | .fin _ m _ => m = 0
  | _ => false

/-- The sign of a value; NaN counts as positive. -/
def XVal.sign : XVal → Bool
  | .nan => false
  | .inf s => s
  | .fin s _ _ => s

/-- Order of two values that are not NaN; −0 equals +0 (R82). -/
def XVal.cmp : XVal → XVal → Ordering
  | .inf a, .inf b => compare b.toNat a.toNat
  | .inf a, _ => if a then .lt else .gt
  | _, .inf b => if b then .gt else .lt
  | .fin a m e, .fin b n f => let g := min e f; compare (scaled a m e g) (scaled b n f g)
  | _, _ => .eq

/-- The least and greatest of R83 as a choice: is the first operand the one returned? −0 is below +0. -/
def XVal.takeFirst (isMax : Bool) (a b : XVal) : Bool :=
  if a.isNan then false
  else if b.isNan then true
  else
    match a.cmp b with
    | .lt => !isMax
    | .gt => isMax
    | .eq => if isMax then !a.sign || b.sign else a.sign || !b.sign

/-! ### The internal formats (R62 to R66)

A lane image is a number below 2^36 (W36) or 2^18 (W18); `lw` selects W18. -/

/-- Fraction width F: 26 for W36, 8 for W18. -/
def fracW (lw : Bool) : Nat := if lw then 8 else 26

/-- Width of a lane image. -/
def laneW (lw : Bool) : Nat := if lw then 18 else 36

/-- Width of VAL, the integer interpretation. -/
def valW (lw : Bool) : Nat := if lw then 17 else 35

/-- Lanes in a row. -/
def laneN (lw : Bool) : Nat := if lw then 256 else 128

/-- STK of an image. -/
def imgStk (lw : Bool) (b : Nat) : Bool := b.testBit (valW lw)

/-- An image with STK replaced by its OR with `s`. -/
def imgOrStk (lw : Bool) (b : Nat) (s : Bool) : Nat := if s then b ||| 2 ^ valW lw else b

/-- Bits with STK in front. -/
def withStk (lw : Bool) (b : Nat) (s : Bool) : Nat := b % 2 ^ valW lw + (if s then 2 ^ valW lw else 0)

/-- The float interpretation of an image (R62, R63). -/
def imgVal (lw : Bool) (b : Nat) : XVal :=
  let F := fracW lw
  let frac := b % 2 ^ F
  let ex := b / 2 ^ F % 256
  let s := b.testBit (F + 8)
  if ex = 255 then (if frac = 0 then .inf s else .nan)
  else if ex = 0 then .fin s frac (-126 - F)
  else .fin s (2 ^ F + frac) ((ex : Int) - 127 - F)

/-- The integer interpretation of an image: VAL (R62). -/
def imgInt (lw : Bool) (b : Nat) : Int := (BitVec.ofNat (valW lw) b).toInt

/-- Canonical NaN with STK (R63). -/
def nanImg (lw : Bool) (s : Bool) : Nat := withStk lw (255 * 2 ^ fracW lw + 2 ^ (fracW lw - 1)) s

/-- Exact value m × 2^e / den narrowed by R66: the image without STK, and whether it is inexact. `m` and `den` nonzero. -/
def roundOddQ (lw : Bool) (s : Bool) (m : Nat) (e : Int) (den : Nat) : Nat × Bool :=
  let F := fracW lw
  let sg := if s then 2 ^ (F + 8) else 0
  let l : Int := (Nat.log2 m : Int) - Nat.log2 den
  -- floor (log2 (m / den)) is l or l − 1
  let below : Bool := if 0 ≤ l then decide (m < den <<< l.toNat) else decide (m <<< (-l).toNat < den)
  let t : Int := (if below then l - 1 else l) + e
  let big : Nat := (255 * 2 ^ F - 1)
  if 128 ≤ t then (sg + big, true)
  else
    let qe : Int := max t (-126) - F
    let d : Int := e - qe
    let num := if 0 ≤ d then m <<< d.toNat else m
    let dn := if 0 ≤ d then den else den <<< (-d).toNat
    let n := num / dn
    let inx : Bool := num % dn ≠ 0
    let n' := if inx && n % 2 == 0 then n + 1 else n
    -- n' < 2^F: subnormal, EXP 0; otherwise EXP = t + 127 and the leading bit drops
    let body := if n' < 2 ^ F then n' else (t + 126).toNat * 2 ^ F + n'
    (sg + body, inx)

/-- `RoundOdd` into W36 or W18 (R66): the image with STK the OR of `stk` and the inexactness (R67). -/
def roundOdd (lw : Bool) (x : XVal) (stk : Bool) : Nat :=
  match x with
  | .nan => nanImg lw stk
  | .inf s => withStk lw ((if s then 2 ^ (fracW lw + 8) else 0) + 255 * 2 ^ fracW lw) stk
  | .fin s 0 _ => withStk lw (if s then 2 ^ (fracW lw + 8) else 0) stk
  | .fin s (m + 1) e =>
    let r := roundOddQ lw s (m + 1) e 1
    withStk lw r.1 (stk || r.2)

/-- The integer image of an exact integer: VAL saturated, STK set if it saturated (R66, R68). -/
def satImg (lw : Bool) (v : Int) (stk : Bool) : Nat :=
  let lo : Int := -(2 ^ (valW lw - 1))
  let hi : Int := 2 ^ (valW lw - 1) - 1
  let c := max lo (min hi v)
  withStk lw (BitVec.ofInt (valW lw) c).toNat (stk || decide (c ≠ v))

/-- A W18 float image widened exactly, field by field (R78, R219). -/
def widen18 (b : Nat) : Nat := (b / 2 ^ 8 % 2 ^ 10) * 2 ^ 26 + (b % 2 ^ 8) * 2 ^ 18

/-- An image read at another width in the float interpretation (R78): a bit copy, an exact widening, or R66. -/
def imgConv (fromW18 toW18 : Bool) (b : Nat) : Nat :=
  match fromW18, toW18 with
  | true, false => widen18 b
  | false, true => roundOdd true (imgVal false b) (imgStk false b)
  | _, w => b % 2 ^ laneW w

/-! ### Memory formats (R55 to R61) -/

/-- Special-value policies of R59. -/
inductive Pol where
  | none | sat | ieee | allOnes
  deriving DecidableEq, Repr

/-- A memory format. -/
inductive MFmt where
  | flt (s e m : Nat) (bias : Int) (pol : Pol) (subn : Bool)
  | int (w : Nat) (signed : Bool)
  | e8m0
  | img (lw : Bool)
  deriving DecidableEq, Repr

/-- The standard codes 0 to 16 of R55. -/
def stdFmt (c : Nat) : Option MFmt :=
  match c with
  | 0 => some (.flt 1 8 23 127 .ieee true)
  | 1 => some (.flt 1 8 7 127 .ieee true)
  | 2 => some (.flt 1 5 10 15 .ieee true)
  | 3 => some (.flt 1 4 3 7 .allOnes true)
  | 4 => some (.flt 1 5 2 15 .ieee true)
  | 5 => some (.flt 1 2 3 1 .none true)
  | 6 => some (.flt 1 3 2 3 .none true)
  | 7 => some (.flt 1 2 1 1 .none true)
  | 8 => some (.int 8 true)
  | 9 => some (.int 8 false)
  | 10 => some (.int 4 true)
  | 11 => some (.int 4 false)
  | 12 => some (.int 16 true)
  | 13 => some (.int 32 true)
  | 14 => some .e8m0
  | 15 => some (.img false)
  | 16 => some (.img true)
  | _ => none

/-- A custom descriptor (R59, R61): `none` where it is invalid. -/
def customFmt (d : BitVec 32) : Option MFmt :=
  let bias := (d.extractLsb 31 24).toInt
  let pol := (d.extractLsb 17 16).toNat
  let subn := d.getLsbD 12
  let s := (d.extractLsb 8 8).toNat
  let e := (d.extractLsb 7 4).toNat
  let m := (d.extractLsb 3 0).toNat
  if s + e + m = 0 ∨ 8 < s + e + m ∨ 8 < e ∨ 7 < m ∨ (pol = 2 ∧ (e < 2 ∨ m < 1)) ∨ (pol = 3 ∧ e + m < 1)
      ∨ (e = 0 ∧ subn = false) then none
  else
    some (.flt s e m bias
      (match pol with | 0 => .none | 1 => .sat | 2 => .ieee | _ => .allOnes) subn)

/-- The format of a code, reading fd0 to fd7 for codes 17 to 24; `none` for a reserved code or an invalid descriptor (trap 0x0D). -/
def fmtOf (fd : Nat → BitVec 32) (c : Nat) : Option MFmt :=
  if c < 17 then stdFmt c else if c < 25 then customFmt (fd (c - 17)) else none

/-- Width of an element in bits. -/
def MFmt.width : MFmt → Nat
  | .flt s e m _ _ _ => s + e + m
  | .int w _ => w
  | .e8m0 => 8
  | .img lw => laneW lw

/-- Is the interpretation of an element integer (R65)? -/
def MFmt.isInt : MFmt → Bool
  | .int _ _ => true
  | _ => false

/-- Value of the encoding with exponent and mantissa bits c (R60): a magnitude m × 2^e. -/
def codeVal (e m : Nat) (bias : Int) (subn : Bool) (c : Nat) : Nat × Int :=
  let ex := c / 2 ^ m
  let f := c % 2 ^ m
  if e = 0 ∨ ex = 0 then (if subn then f else 0, 1 - bias - m)
  else (2 ^ m + f, (ex : Int) - bias - m)

/-- Greatest finite encoding (R60). -/
def maxCode (e m : Nat) (pol : Pol) : Nat :=
  match pol with
  | .none => 2 ^ (e + m) - 1
  | .sat => 2 ^ (e + m) - 1
  | .ieee => (2 ^ e - 1) * 2 ^ m - 1
  | .allOnes => 2 ^ (e + m) - 2

/-- The value of a memory element in a format that is not an integer or image format (R55, R60). -/
def MFmt.val (f : MFmt) (b : Nat) : XVal :=
  match f with
  | .flt s e m bias pol subn =>
    let sg := decide (s = 1) && b.testBit (e + m)
    let c := b % 2 ^ (e + m)
    if maxCode e m pol < c then
      (match pol with
      | .ieee => if c % 2 ^ m = 0 then .inf sg else .nan
      | _ => .nan)
    else let v := codeVal e m bias subn c; .fin sg v.1 v.2
  | .e8m0 => if b % 256 = 255 then .nan else .fin false 1 ((b % 256 : Nat) - 127 : Int)
  | .int w sgn =>
    XVal.ofInt (if sgn then (BitVec.ofNat w b).toInt else (b % 2 ^ w : Nat))
  | .img lw => imgVal lw b

/-- The integer of an element in an integer format. -/
def MFmt.ival (f : MFmt) (b : Nat) : Int :=
  match f with
  | .int w true => (BitVec.ofNat w b).toInt
  | .int w false => (b % 2 ^ w : Nat)
  | _ => 0

/-- A memory element read into a lane (R65, R78). -/
def MFmt.load (f : MFmt) (lw : Bool) (b : Nat) : Nat :=
  match f with
  | .int _ _ => satImg lw (f.ival b) false
  | .img l => imgConv l lw b
  | _ => roundOdd lw (f.val b) false

/-! ### The final store (R69 to R75) -/

/-- `up` of R70, for the truncated magnitude n, the remainder rem / 2^sh, the sign and the draw. -/
def roundUp (r : Rnd) (draw : Nat) (neg : Bool) (n rem sh : Nat) : Bool :=
  match r with
  | .rne => decide (2 ^ sh < 2 * rem) || (decide (2 * rem = 2 ^ sh) && n % 2 == 1)
  | .rtz => false
  | .rup => decide (0 < rem) && !neg
  | .rdn => decide (0 < rem) && neg
  | .rna => decide (0 < rem ∧ 2 ^ sh ≤ 2 * rem)
  | .rsto => decide (65536 ≤ (rem <<< 16) >>> sh + draw)
  | .rto => decide (0 < rem) && n % 2 == 0

/-- A magnitude m × 2^e rounded to a multiple of 2^qe by R70: the multiple, and whether it differs. -/
def roundAt (r : Rnd) (draw : Nat) (neg : Bool) (m : Nat) (e qe : Int) : Nat × Bool :=
  if qe ≤ e then (m <<< (e - qe).toNat, false)
  else
    let sh := (qe - e).toNat
    let n := m >>> sh
    let rem := m % 2 ^ sh
    (if roundUp r draw neg n rem sh then n + 1 else n, decide (rem ≠ 0))

/-- A signed integer stored into w bits, saturating with OF and NX (R72, R73). -/
def satStore (w : Nat) (signed : Bool) (v : Int) : Nat × Flg :=
  let lo : Int := if signed then -(2 ^ (w - 1)) else 0
  let hi : Int := if signed then 2 ^ (w - 1) - 1 else 2 ^ w - 1
  let c := max lo (min hi v)
  ((BitVec.ofInt w c).toNat, flgIf (decide (c ≠ v)) (flgOF ||| flgNX))

/-- A float value stored into an integer format: R70 with q = 1, then saturation (R72, R73). -/
def storeInt (w : Nat) (signed : Bool) (x : XVal) (r : Rnd) (draw : Nat) : Nat × Flg :=
  match x with
  | .nan => (0, flgNV)
  | .inf s => satStore w signed (if s then -(2 ^ w) else 2 ^ w)
  | .fin s m e =>
    let n := roundAt r draw s m e 0
    let t := satStore w signed (if s then -(n.1 : Int) else n.1)
    (t.1, t.2 ||| flgIf n.2 flgNX)

/-- A value stored into E8M0 (R72, R74). -/
def storeE8m0 (x : XVal) (r : Rnd) (draw : Nat) : Nat × Flg :=
  match x with
  | .nan => (0xFF, flgNV)
  | .inf true => (0xFF, flgNV)
  | .inf false => (0xFE, flgOF ||| flgNX)
  | .fin s m e =>
    if s = true ∨ m = 0 then (0xFF, flgNV)
    else
      let t : Int := (Nat.log2 m : Int) + e
      let qe := max t (-127)
      let n := roundAt r draw false m e qe
      let fl := flgIf n.2 flgNX ||| flgIf (decide (t < -127)) flgUF
      if n.1 = 0 then (0, fl)
      else
        let c : Int := qe + 127 + Nat.log2 n.1
        if 254 < c then (0xFE, fl ||| flgOF ||| flgNX) else (c.toNat, fl)

/-- A value stored into a floating-point format (R70, R72, R74). -/
def storeFlt (s e m : Nat) (bias : Int) (pol : Pol) (subn : Bool) (x : XVal) (r : Rnd) (draw : Nat) : Nat × Flg :=
  let mx := maxCode e m pol
  match x with
  | .nan =>
    (match pol with
    | .ieee => ((2 ^ e - 1) * 2 ^ m + 2 ^ (m - 1), 0)
    | .allOnes => (2 ^ (e + m) - 1, 0)
    | _ => (0, flgNV))
  | .inf neg =>
    if neg && s == 0 then (0, flgNX ||| flgUF ||| flgIf (pol ≠ .sat) flgOF)
    else
      let sg := if neg then 2 ^ (e + m) else 0
      (match pol with
      | .ieee => (sg + (2 ^ e - 1) * 2 ^ m, 0)
      | .sat => (sg + mx, flgNX)
      | _ => (sg + mx, flgOF ||| flgNX))
  | .fin neg mm ee =>
    let sg := if neg && s == 1 then 2 ^ (e + m) else 0
    if mm = 0 then (sg, 0)
    else
      let emin : Int := 1 - bias
      let t : Int := (Nat.log2 mm : Int) + ee
      let norm : Bool := decide (e ≠ 0 ∧ emin ≤ t)
      let qe : Int := (if norm then t else emin) - m
      let n := roundAt r draw neg mm ee qe
      if neg && s == 0 then
        -- R72: a format without sign
        (if n.1 = 0 then (0, flgNX ||| flgUF) else (0, flgNX ||| flgUF ||| flgIf (pol ≠ .sat) flgOF))
      else
        let c : Nat := if norm then (t - emin + 1).toNat * 2 ^ m + (n.1 - 2 ^ m) else n.1
        let inx := flgIf n.2 flgNX
        if n.1 = 0 then (sg, inx ||| flgIf n.2 flgUF)
        else if mx < c then
          let neginf := (match r with
            | .rne | .rna | .rsto => true
            | .rup => !neg
            | .rdn => neg
            | _ => false)
          (match pol with
          | .ieee => (sg + (if neginf then (2 ^ e - 1) * 2 ^ m else mx), flgOF ||| flgNX)
          | .sat => (sg + mx, flgNX)
          | _ => (sg + mx, flgOF ||| flgNX))
        else if e ≠ 0 ∧ c < 2 ^ m then
          (if subn then (sg + c, inx ||| flgIf n.2 flgUF) else (sg, flgNX ||| flgUF))
        else (sg + c, inx)

/-- The source of a final store: a value in the float or the integer interpretation, with STK. -/
inductive FSrc where
  | flt (x : XVal) (stk : Bool)
  | int (v : Int) (stk : Bool)
  deriving DecidableEq, Repr

/-- A lane read in the interpretation a store names. -/
def laneSrc (lw int : Bool) (b : Nat) : FSrc :=
  if int then .int (imgInt lw b) (imgStk lw b) else .flt (imgVal lw b) (imgStk lw b)

/-- `FinalRound` with its flags (R69 to R74, R79); image formats are spills and take no part. -/
def finalRound (f : MFmt) (src : FSrc) (r : Rnd) (draw : Nat) : Nat × Flg :=
  match src with
  | .flt x stk =>
    let t := match f with
      | .flt s e m b p sn => storeFlt s e m b p sn x r draw
      | .int w sgn => storeInt w sgn x r draw
      | .e8m0 => storeE8m0 x r draw
      | .img _ => (0, 0)
    (t.1, t.2 ||| flgIf stk flgNX)
  | .int v stk =>
    let t := match f with
      | .flt s e m b p sn => storeFlt s e m b p sn (.ofInt v) r draw
      | .int w sgn => satStore w sgn v
      | .e8m0 => storeE8m0 (.ofInt v) r draw
      | .img _ => (0, 0)
    (t.1, t.2 ||| flgIf stk (flgNX ||| flgOF))

/-- One lane as a memory element: a spill (R78) or a final store (R69). -/
def storeLane (f : MFmt) (lw int : Bool) (b : Nat) (r : Rnd) (draw : Nat) : Nat × Flg :=
  match f with
  | .img l => (imgConv lw l b, 0)
  | _ => finalRound f (laneSrc lw int b) r draw

/-- Is m × 2^e above n × 2^f? -/
def magGt (m : Nat) (e : Int) (n : Nat) (f : Int) : Bool :=
  let g := min e f
  decide (n <<< (f - g).toNat < m <<< (e - g).toNat)

/-- R75: may a float source of this width be stored finally in the format? -/
def precisionOk (lw : Bool) (f : MFmt) : Bool :=
  match f with
  | .flt _ e m bias pol subn =>
    let F := fracW lw
    let mxv := codeVal e m bias subn (maxCode e m pol)
    let least : Int := if e = 0 ∨ (subn = true ∧ 0 < m) then 1 - bias - m else 1 - bias
    decide (m + 2 ≤ F) && !magGt mxv.1 mxv.2 (2 ^ (F + 1) - 1) (127 - F) && decide (-124 - (F : Int) ≤ least)
  | _ => true

/-! ### Internal arithmetic on lanes (R66 to R68, R81 to R85) -/

/-- A binary float operation on images: result image and NV. -/
def fltOp2 (op : XVal → XVal → XVal × Bool) (lw : Bool) (a b : Nat) : Nat × Flg :=
  let r := op (imgVal lw a) (imgVal lw b)
  (roundOdd lw r.1 (imgStk lw a || imgStk lw b), flgIf r.2 flgNV)

/-- a + b (R84, R85). -/
def fltAdd (lw : Bool) (a b : Nat) : Nat × Flg := fltOp2 XVal.add lw a b

/-- a − b. -/
def fltSub (lw : Bool) (a b : Nat) : Nat × Flg := fltOp2 (fun x y => x.add y.neg) lw a b

/-- a × b. -/
def fltMul (lw : Bool) (a b : Nat) : Nat × Flg := fltOp2 XVal.mul lw a b

/-- a × b + c, one rounding. -/
def fltFma (lw : Bool) (a b c : Nat) : Nat × Flg :=
  let r := (imgVal lw a).fma (imgVal lw b) (imgVal lw c)
  (roundOdd lw r.1 (imgStk lw a || imgStk lw b || imgStk lw c), flgIf r.2 flgNV)

/-- Minimum and maximum (R83): bits of the operand returned, STK the OR of both. -/
def fltMinMax (isMax : Bool) (lw : Bool) (a b : Nat) : Nat :=
  let s := imgStk lw a || imgStk lw b
  if (imgVal lw a).isNan && (imgVal lw b).isNan then nanImg lw s
  else withStk lw (if XVal.takeFirst isMax (imgVal lw a) (imgVal lw b) then a else b) s

/-- The comparison of a condition code with an order. -/
def condHolds (c : Cond) (o : Ordering) : Bool :=
  match c with
  | .eq => o == .eq
  | .ne => o != .eq
  | .lt | .ltu => o == .lt
  | .le | .leu => o != .gt
  | .gt | .gtu => o == .gt
  | .ge | .geu => o != .lt

/-- Float compare of images (R82); `x` is the exact form of eq and ne. -/
def fltCmp (lw : Bool) (c : Cond) (x : Bool) (a b : Nat) : Bool :=
  let va := imgVal lw a
  let vb := imgVal lw b
  if va.isNan || vb.isNan then c == .ne
  else
    let eq := (va.cmp vb == .eq) && !(x && (imgStk lw a || imgStk lw b))
    match c with
    | .eq => eq
    | .ne => !eq
    | _ => condHolds c (va.cmp vb)

/-- A scalar read as a W36 image (R64). -/
def w36 (w : Word) : Nat := w.toNat % 2 ^ 36

/-- The W36 image of an integer operand (R37). -/
def w36OfInt (v : Int) : Nat := roundOdd false (.ofInt v) false

/-- The W36 image of an FP32 literal (R41). -/
def w36OfFp32 (l : BitVec 32) : Nat :=
  roundOdd false ((MFmt.flt 1 8 23 127 .ieee true).val l.toNat) false

/-- An image as a scalar: bits 63 to 36 are zero (R64). -/
def wordOfImg (b : Nat) : Word := BitVec.ofNat 64 (b % 2 ^ 36)

/-! ### Rows -/

/-- Lane i of a row. -/
def rowLane (lw : Bool) (r : Row) (i : Nat) : Nat := (r.toNat >>> (laneW lw * i)) % 2 ^ laneW lw

/-- The lanes of a row, lane 0 first. -/
def rowLanes (lw : Bool) (r : Row) : List Nat := (List.range (laneN lw)).map (rowLane lw r)

/-- The number whose digits in base 2^w are given, least significant first. -/
def packBits (w : Nat) : List Nat → Nat
  | [] => 0
  | b :: bs => b % 2 ^ w + (packBits w bs) <<< w

/-- A row of lanes, lane 0 first. -/
def rowOf (lw : Bool) (ls : List Nat) : Row := BitVec.ofNat 4608 (packBits (laneW lw) ls)

/-- A mask of booleans, lane 0 first. -/
def maskOf (bs : List Bool) : Mask := BitVec.ofNat 256 (packBits 1 (bs.map Bool.toNat))

/-- The number of set bits. -/
def popCount : Nat → Nat → Nat
  | 0, _ => 0
  | k + 1, n => n % 2 + popCount k (n / 2)

end Sys2Proof.Machine
end

