-- ==== Sys2Proof/Machine/Ops.lean ====
section
/-!
DEFINITION. The named operations of an issuing stream: the issue, hold and retirement of one instruction, hardware loops, trace records, taking a trap and returning from one (R96, R99 to R102, R118 to R130, R368 to R382, R433, R437).
-/

namespace Sys2Proof.Machine

/-! ### The outcome of an instruction's body -/

/-- A trap to be raised: cause, DETAIL, decode reason, subcode and FADDR (R368, R369). -/
structure Trap where
  cause : BitVec 8
  detail : Word := 0
  reason : Nat := 0
  subcode : Nat := 0
  faddr : Word := 0
  late : Bool := false
  deriving DecidableEq, Repr

/-- What a held instruction asks for: a grant of the noise source, the first or a further one (R234), acceptance by the gallery network (R153), of a row or a scalar, a
control-store page from the loader (R290), a tag's descriptor for the landing port's cache (R308), or a switch slot for a
channel (R342). -/
inductive Ask where
  | noise
  | moreNoise (by_ : Nat)
  | gallery (row : Bool)
  | loader
  | desc (tag : BitVec 32)
  | slot (ch : Nat)
  deriving DecidableEq, Repr

/-- How an instruction's body ends without completing: it holds the issue slot with no effect, holds it with a request that
stands, holds it keeping every effect so far, enters a routine that runs on in its place, or traps. -/
inductive Stop where
  | hold (w : Wait)
  | ask (a : Ask) (w : Wait)
  | keep (w : Wait)
  | enter
  | trap (t : Trap)
  deriving DecidableEq, Repr

/-- The body of an instruction: a state transformer that may stop. -/
abbrev M := EStateM Stop State

/-- Where the stream continues: after the instruction, at the target of a taken branch (R122), at an address without any
loop end (R124, R125), after a REP whose target comes next (R126), or at the same instruction. -/
inductive Flow where
  | next
  | rep (r : RepSt)
  | jump (t : VAddr)
  | goto (t : VAddr)
  | stay
  deriving DecidableEq, Repr

/-- The illegal-instruction trap with reason 9 and a subcode (R120). -/
def illegal9 (subcode : Nat) : Trap := { cause := 0x01, reason := 9, subcode := subcode }

/-- The trap of an access fault (R157, R368). -/
def AccFault.trap (e : AccFault) : Trap :=
  { cause := e.cause, detail := BitVec.ofNat 64 e.detail,
    faddr := if e.cause ∈ [0x05, 0x06, 0x07, 0x08, 0x0E] then BitVec.ofNat 64 e.va else 0 }

/-- Raise a trap. -/
def raiseTrap (t : Trap) : M α := throw (.trap t)

/-- Hold the issue slot. -/
def holdFor (w : Wait) : M α := throw (.hold w)

/-- Hold the issue slot with a request. -/
def askFor (a : Ask) (w : Wait) : M α := throw (.ask a w)

/-- Hold the issue slot, keeping every effect so far. -/
def keepFor (w : Wait) : M α := throw (.keep w)

/-- Raise a trap if the condition holds. -/
def trapIf (c : Bool) (t : Trap) : M Unit := if c then raiseTrap t else pure ()

/-- Hold if the condition holds. -/
def holdIf (c : Bool) (w : Wait) : M Unit := if c then holdFor w else pure ()

/-- Run a state function. -/
def liftS (f : State → State) : M Unit := modify f

/-- Run a state function with a result that may be an access fault. -/
def liftF (f : State → State × Except AccFault α) : M α := do
  let s ← get
  let (s, r) := f s
  set s
  match r with
  | .ok a => pure a
  | .error e => raiseTrap e.trap

/-- The job on a core, or an empty one; an issuing core always runs one. -/
def emptyJob : Job where
  ctx := 0
  queue := 0
  rid := 0
  chunk := 0
  first := 0
  count := 0
  die := 0
  stage := 0
  lease := false
  maxrd := 0
  gwin := []
  cpsz := 0
  fd := []
  ft := []
  g := []
  sq := []
  t := []
  adv := []
  l := []
  lhold := []
  uwv := 0x7F00
  uwin := []
  v := []
  k := []
  rl := []
  redl := []
  rrbV := 0
  rrbK := 0
  rvR := 0
  rd := 0
  co := false
  lh := false
  q := []
  vqLd := []
  vqCx := []
  micro := none
  ce := {}
  ready := []
  cxFirst := none
  cxFrom := 0
  sc := {}
  ld := {}
  cx := {}
  st := {}
  since := 0

/-- The job on a core. -/
def State.jobAt (s : State) (c : Nat) : Job := (s.core c).job.getD emptyJob

/-- A stream of the job on a core. -/
def State.strmAt (s : State) (c : Nat) (x : Strm) : Stream := (s.jobAt c).strm x

/-- The job of the issuing core. -/
def getJob (u : Cur) : M Job := do return (← get).jobAt u.core

/-- The issuing stream. -/
def getStrm (u : Cur) : M Stream := do return (← get).strmAt u.core u.strm

/-- Change the issuing job. -/
def modJob (u : Cur) (f : Job → Job) : M Unit := modify (fun s => s.modJob u.core f)

/-- Change the issuing stream. -/
def modStrm (u : Cur) (f : Stream → Stream) : M Unit := modify (fun s => s.modStrm u.core u.strm f)

/-- The context of the issuing job. -/
def getCtx (u : Cur) : M Nat := do return (← get).jobAt u.core |>.ctx

/-! ### Waits and stall classes (R102, R118, R433) -/

/-- Waits that one counter counts together: the queue waits of R102 are one class. -/
def Wait.cls : Wait → Nat
  | .push _ => 32
  | .pop _ => 32
  | .streamReg => 33
  | .granule .. => 16
  | .counter n a => n + (if a then 64 else 96)
  | .rdv => 34
  | .lease => 18
  | .credit => 19
  | .landing => 35
  | .sparsity => 20
  | .page => 21
  | .pin => 36
  | .draw => 37
  | .busy => 38
  | .bank => 39

/-- The flag number of a wait in class FLAG, or none where it is BUSY (R433). -/
def Wait.flag : Wait → Option Nat
  | .push _ => some 17
  | .pop _ => some 17
  | .streamReg => some 17
  | .granule .. => some 16
  | .counter n _ => some n
  | .rdv => some 17
  | .lease => some 18
  | .credit => some 19
  | .landing => some 19
  | .sparsity => some 20
  | .page => some 21
  | .pin => some 21
  | .draw => none
  | .busy => none
  | .bank => none

/-- The queue-head classes of R433. -/
inductive HeadCls where
  | issue
  | flag (n : Nat)
  | busy
  | empty
  deriving DecidableEq, Repr

/-- Count the class of a stream's head (R430, R433). -/
def State.countHead (s : State) (c : Nat) (x : Strm) (h : HeadCls) : State :=
  match h with
  | .issue => s.countCore c 0x0001 (qualBit (6 + strmNum x))
  | .flag n => s.countCore c 0x0002 (fun q =>
      if q.testBit (6 + strmNum x) && (q.testBit 5 || q % 32 == n) then 1 else 0)
  | .busy => s.countCore c 0x0003 (qualBit (6 + strmNum x))
  | .empty => s.countCore c 0x0004 (qualBit (6 + strmNum x))

/-- The event a wait raises once it has lasted 2^24 cycles (R102, R149, R191, R234, R292, R308). -/
def Wait.timeout (w : Wait) (c : Nat) (x : Strm) : Option Instr :=
  match w with
  | .push _ => some (.queueDeadlock c x)
  | .pop _ => some (.queueDeadlock c x)
  | .granule .. => some (.fullEmptyTimeout c x)
  | .counter _ true => some (.timelineWaitTimeout c x)
  | .draw => some (.drawWaitTimeout c x)
  | .pin => some (.wcsldWaitTimeout c)
  | .credit => some (.landingCreditTimeout c)
  | _ => none

/-- Is any issuer of the job suspended on a translation fault (R371)? -/
def Job.anySusp (j : Job) : Bool :=
  j.sc.susp.isSome || j.ld.susp.isSome || j.cx.susp.isSome || j.st.susp.isSome || j.ce.susp.isSome

/-- One more cycle of a wait; the counters stand still while an issuer of the job is suspended (R371). -/
def waitMore (frozen : Bool) (old : Option (Wait × Nat)) (w : Wait) : Wait × Nat :=
  match old with
  | some (v, n) => if v.cls = w.cls then (w, if frozen then n else n + 1) else (w, if frozen then 0 else 1)
  | none => (w, if frozen then 0 else 1)

/-- Waits that may end within the cycle, after the other streams' issue: a rendezvous, and full-empty granules. -/
def Wait.lateClass : Wait → Bool
  | .rdv => true
  | .granule .. => true
  | _ => false

/-- The longest wait the watchdogs allow (R102). -/
def waitLimit : Nat := 2 ^ 24

/-- Is it a wait of R99 or R100? -/
def Wait.onQueue : Wait → Bool
  | .push _ => true
  | .pop _ => true
  | _ => false

/-- A stream held at issue for one cycle. The queue-wait counter of R102 goes on over other waits: only an issue or a restore restarts
it. -/
def State.holdAt (s : State) (u : Cur) (w : Wait) : State :=
  let j := s.jobAt u.core
  let x := j.strm u.strm
  let v := waitMore j.anySusp x.wait w
  let v := if w.onQueue then (w, if j.anySusp then x.qwait else x.qwait + 1) else v
  let s := s.modStrm u.core u.strm (fun x => { x with wait := some v, qwait := if w.onQueue then v.2 else x.qwait })
  -- a wait that may still end in this cycle is classed when the cycle ends (R136, R149)
  let s := if w.lateClass then s else s.countHead u.core u.strm (match w.flag with | some n => .flag n | none => .busy)
  let s := if w = .bank then s.countDie (coreDie u.core) j.ctx 0x0101 (qualBit (coreBay u.core % 4)) else s
  match w.timeout u.core u.strm with
  | some e => if waitLimit ≤ v.2 then s.postOnce s.now e else s
  | none => s

/-! ### Predicates, loops and the program counter (R36, R97, R122 to R130) -/

/-- A predicate; p0 is hard-wired true (R97). -/
def Stream.pred (x : Stream) (n : BitVec 3) : Bool := n == 0 || x.p.getLsbD n.toNat

/-- Write a predicate; a write to p0 is discarded (R38). -/
def Stream.setPred (x : Stream) (n : BitVec 3) (b : Bool) : Stream :=
  if n = 0 then x
  else { x with p := (x.p &&& ~~~(1#8 <<< n.toNat)) ||| (if b then 1#8 <<< n.toNat else 0) }

/-- Does the instruction execute (R36)? -/
def guardHolds (g : Guard) (x : Stream) : Bool := x.pred g.p != g.neg

/-- The stage predicates of kernel iteration j of an MLOOP with S stages over n source iterations (R129). -/
def stagePreds (x : Stream) (stages n j : Nat) : Stream :=
  (List.range stages).foldl (fun x i => x.setPred (BitVec.ofNat 3 (1 + i)) (decide (i ≤ j ∧ j - i + 1 ≤ n))) x

/-- Set a loop counter (R123). -/
def Job.setL (j : Job) (c : BitVec 2) (v : Nat) : Job := { j with l := tput 0 j.l c.toNat (BitVec.ofNat 64 v) }

/-- Release a loop counter. -/
def Job.freeL (j : Job) (c : BitVec 2) : Job := { j with lhold := tput none j.lhold c.toNat none }

/-- The rotation at a kernel boundary after the first: the bases decrement, on CX (R130). -/
def Job.rotate (j : Job) (x : Strm) : Job :=
  if x = .cx then
    { j with rrbV := if j.rvR = 0 then 0 else (j.rrbV + j.rvR - 1) % j.rvR, rrbK := (j.rrbK + 7) % 8 }
  else j

/-- The loop ends at address e, innermost first (R124): the job, and where the stream continues. -/
def loopEnds (x : Strm) (e : VAddr) : List LoopEnt → Job → Job × List LoopEnt × VAddr
  | [], j => (j, [], e)
  | l :: ls, j =>
    if l.fin = e then
      let i := (tget 0 j.l l.ctr.toNat).toNat
      if i + 1 < l.count then
        let j := j.setL l.ctr (i + 1)
        let l' := { l with kernel := i + 1, traced := false }
        let j := if l.mloop then
            (j.setStrm x (stagePreds (j.strm x) l.stages (l.count + 1 - l.stages) (i + 1))).rotate x
          else j
        (j, l' :: ls, l.start)
      else loopEnds x e ls ((j.setL l.ctr l.count).freeL l.ctr)
    else (j, l :: ls, e)

/-- Is an address in the body of a loop? -/
def LoopEnt.holds (l : LoopEnt) (a : VAddr) : Bool := decide (l.start ≤ a ∧ a < l.fin)

/-- The loops that a taken branch to a target leaves active: the innermost ends while the target lies outside it (R122). -/
def leaveLoops (t : VAddr) : List LoopEnt → Job → Job × List LoopEnt
  | [], j => (j, [])
  | l :: ls, j => if l.holds t then (j, l :: ls) else leaveLoops t ls (j.freeL l.ctr)

/-- Release every loop of a stream (R125). -/
def endLoops (ls : List LoopEnt) (j : Job) : Job := ls.foldl (fun j l => j.freeL l.ctr) j

/-- The job after its stream's instruction at `u` retired with a flow. -/
def Job.advance (j : Job) (u : Cur) (f : Flow) : Job :=
  let x := j.strm u.strm
  match f with
  | .stay => j
  | .goto t => j.setStrm u.strm { x with pc := t, rep := none }
  | .rep r => j.setStrm u.strm { x with pc := u.pc + BitVec.ofNat 56 u.size, rep := some r }
  | .jump t =>
    let (j, ls) := leaveLoops t x.loops j
    j.setStrm u.strm { j.strm u.strm with pc := t, loops := ls, rep := none }
  | .next =>
    match x.rep with
    | some r =>
      if r.k + 1 < r.count then j.setStrm u.strm { x with rep := some { r with k := r.k + 1 } }
      else
        let (j, ls, pc) := loopEnds u.strm (u.pc + BitVec.ofNat 56 u.size) x.loops j
        j.setStrm u.strm { j.strm u.strm with pc := pc, loops := ls, rep := none }
    | none =>
      let (j, ls, pc) := loopEnds u.strm (u.pc + BitVec.ofNat 56 u.size) x.loops j
      j.setStrm u.strm { j.strm u.strm with pc := pc, loops := ls }

/-- What issue leaves behind in a stream: no wait, and the fetched words only while the same instruction repeats. -/
def Stream.afterIssue (x : Stream) (pc : VAddr) : Stream :=
  { x with wait := none, qwait := 0, wpSkip := false, answer := none, relDone := false,
           fetched := if x.pc = pc then x.fetched else none }

/-- The read cycles of a CX group by the rows it reads: 8 banks with 2 ports each (R104, R105). -/
def readCycles (rows : List Nat) : Nat :=
  (List.range 8).foldl (fun m b => max m (((rows.filter (fun r => r % 8 == b)).length + 1) / 2)) 1

/-- The use of an instruction whose predicate fails: it reads and writes nothing; the queues it names stay named (R105). -/
def CxUse.off (v : CxUse) : CxUse := { v with reads := [], writes := [], rows := [], red := false }

/-- A CX instruction takes its place in the group of this cycle: the group's read cycles delay the next group, and those
beyond the first are counted (R105). -/
def State.joinGroup (s : State) (u : Cur) : State :=
  match u.use with
  | none => s
  | some v =>
    let first := if u.second then (s.jobAt u.core).cxFirst else none
    let prev := (first.map (fun f => f.rows)).getD []
    let n := readCycles (prev ++ v.rows)
    let s := s.modJob u.core (fun j => { j with
      cxFirst := if u.second then none else some v
      cxFrom := s.now + n })
    -- the next instruction may join the group in the same cycle
    let s : State := if u.second then s else { s with turn := (u.core, .cx) :: s.turn }
    s.countCore u.core 0x0006 (qualAny (n - (if u.second then readCycles prev else 1)))

/-- An instruction retires (R96, R119): the stream advances, its wait ends and it is counted. -/
def State.retire (s : State) (u : Cur) (f : Flow) : State :=
  let s := s.modJob u.core (fun j =>
    let j := j.advance u f
    j.setStrm u.strm ((j.strm u.strm).afterIssue u.pc))
  let s := s.joinGroup u
  let s := s.countCore u.core 0x0005 (qualBit (6 + strmNum u.strm))
  if u.second then s else s.countHead u.core u.strm .issue

/-! ### Trace records (R436, R437) -/

/-- The ring of a trace control register: base and size in bytes, where SZ is valid (R436). -/
def trcRing (trc : Word) : Option (Nat × Nat) :=
  let sz := trc.toNat / 128 % 32
  if 12 ≤ sz ∧ sz ≤ 30 then some (trc.toNat / 4096 % 2 ^ 44 * 4096, 2 ^ sz) else none

/-- The 32 bytes of a trace record (R437). -/
def traceBits (s : State) (c : Nat) (x : Strm) (kind : Nat) (data : Word) : BitVec 256 :=
  let j := s.jobAt c
  let st := j.strm x
  let lp := (st.loops.head?.map (fun l => l.ctr.toNat)).getD 0
  let it := (st.loops.head?.map (fun l => (tget 0 j.l l.ctr.toNat).toNat)).getD 0
  BitVec.ofNat 256 (leNat (leBytes kind 1 ++ leBytes (strmNum x + 4 * lp + 16 * min st.loops.length 4) 1
    ++ leBytes j.stage.toNat 1 ++ leBytes (st.p.toNat / 2 * 2) 1 ++ leBytes c 2 ++ leBytes 0 2
    ++ leBytes st.pc.toNat 8 ++ leBytes it 4 ++ leBytes s.now 4 ++ leBytes data.toNat 8))

/-- Put a trace record in the core's buffer: it waits while 8 are there, and a ring address that does not translate
faults the instruction that produced the record (R437). -/
def traceRec (u : Cur) (kind : Nat) (data : Word) : M Unit := do
  let s ← get
  let o := (s.core u.core).obs
  match trcRing o.trc with
  | none => pure ()
  | some (base, size) =>
    holdIf (decide (8 ≤ o.buf.length)) .busy
    let pos := (o.trp.toNat / 32 + o.buf.length) % (size / 32)
    let ctx ← getCtx u
    let _ ← liftF (fun s => s.translate u.core ctx (base + 32 * pos) .store)
    let bits := traceBits (← get) u.core u.strm kind data
    modify (fun s => (s.modCore u.core (fun k => { k with obs := { k.obs with buf := k.obs.buf ++ [bits] } })).postOnce
      (s.now + 1) (.traceRecordWrite u.core))

/-- Before an instruction issues: the KIND 2 record of a loop iteration that begins here (R437), and the check that it ends
within the body it stands in (R120 subcode 2), which only an executing instruction fails. -/
def preIssue (u : Cur) (runs : Bool) : M Unit := do
  let x ← getStrm u
  match x.loops.head? with
  | none => pure ()
  | some l =>
    let s ← get
    if !l.traced && x.pc = l.start && x.rep.isNone && (s.core u.core).obs.trc.getLsbD 1 then
      traceRec u 2 0
      modStrm u (fun x => { x with loops := match x.loops with
        | l :: ls => { l with traced := true } :: ls
        | [] => [] })
    trapIf (runs && l.holds u.pc && decide (l.fin.toNat < u.pc.toNat + u.size)) (illegal9 2)

/-! ### Taking a trap (R369 to R372, R382) -/

/-- The units of a core that raise traps, in the order of R382. -/
inductive TrapUnit where
  | stream (x : Strm)
  | micro
  | copy
  | port
  | retireUnit
  deriving DecidableEq, Repr

/-- SOURCE of R369. -/
def TrapUnit.source : TrapUnit → Nat
  | .stream _ => 0
  | .micro => 1
  | .copy => 2
  | .port => 3
  | .retireUnit => 4

/-- Place within a class of R382. -/
def TrapUnit.order : TrapUnit → Nat
  | .stream x => strmNum x
  | .micro => 4
  | .copy => 5
  | .port => 6
  | .retireUnit => 7

/-- The stream whose number and registers a unit's trap record shows. -/
def TrapUnit.strm : TrapUnit → Strm
  | .stream x => x
  | .copy => .sc
  | _ => .cx

/-- The place of a trap among those of its cycle: TRAP is class 1, every other cause class 2 (R382). -/
def trapPrio (u : TrapUnit) (cause : BitVec 8) : Nat := (if cause = 0x10 then 8 else 16) + u.order

/-- Suspend or stop the issuer of a trap: after 0x05 the unit waits for a reply, after any other cause it issues nothing
more. -/
def State.haltUnit (s : State) (c : Nat) (u : TrapUnit) (sus : Option Susp) : State :=
  match u with
  | .copy => s.modJob c (fun j => { j with ce := { j.ce with susp := sus, trapped := sus.isNone } })
  | .port => s
  | .retireUnit => s
  | _ => s.modStrm c u.strm (fun x => { x with susp := sus, trapped := sus.isNone })

/-- The layout of DETAIL inside an invocation: micro program counter, step count, major and the trap's own detail where it fits in
16 bits; a trap of cause 0x04 brings its reason and own detail in place (R287). -/
def Micro.detail (m : Micro) (t : Trap) : Word :=
  let own : Nat :=
    if t.cause ∈ [0x05, 0x06, 0x07, 0x08, 0x0E] then 0
    else if t.cause = 0x12 then t.detail.toNat % 256
    else if t.detail.toNat < 2 ^ 16 then t.detail.toNat else 0
  let base := m.upc.toNat + m.steps % 2 ^ 14 * 2 ^ 16 + m.ops.major.toNat * 2 ^ 40
  if t.cause = 0x04 then BitVec.ofNat 64 base ||| t.detail else BitVec.ofNat 64 (base + own * 2 ^ 48)

/-- A trap raised inside an invocation: an address stands in FADDR only (R287, R369, R459). -/
def Micro.trap (m : Micro) (t : Trap) : Trap :=
  { t with
    late := false
    detail := m.detail t
    faddr := if t.cause ∈ [0x05, 0x06, 0x07, 0x08, 0x0E] && t.faddr == 0 then t.detail else t.faddr }

/-- The record of a trap of a unit of a core (R369): an engine's shows no instruction. -/
def State.trapRecord (s : State) (c : Nat) (u : TrapUnit) (t : Trap) (cur : Option Cur) : TrapRec :=
  let j := s.jobAt c
  let x := j.strm u.strm
  let eng : Bool := match u with | .copy | .port | .retireUnit => true | _ => false
  { cause := t.cause, strm := strmNum u.strm, source := u.source, late := t.late, reason := t.reason, subcode := t.subcode
    core := c, queue := (((s.queue? j.queue).map (·.q)).getD 0)
    pc := if eng then 0 else ((cur.map (·.pc)).getD x.pc).toNat
    word := if eng then 0 else ((cur.map (fun (v : Cur) => v.word)).getD 0).toNat
    lit := if eng then 0 else ((cur.map (fun (v : Cur) => v.lit)).getD 0).toNat
    repk := (cur.map (·.repk)).getD 0
    detail := t.detail.toNat, asr := x.asr.toNat, pops := (cur.map (·.pops)).getD []
    faddr := t.faddr.toNat, ctx := j.ctx }

/-- The first trap of a cycle on a core that stops or holds its context: its record is written, or LOST counts it (R369, R372). -/
def State.trapFirst (s : State) (c ctx prio : Nat) (r : TrapRec) : State :=
  let prev := ((s.ctx? ctx).map (·.status)).getD .live
  let (s, w) := s.putTrap ctx r
  match w with
  | .error va => s.areaLost ctx va
  | .ok ix => (s.modCore c (fun k => { k with
      lastTrap := some { time := s.now, prio := prio, cause := r.cause, recAt := ix, more := ix.isNone, prev := prev } })).haltCtx
        ctx (causeHolds r.cause)

/-- The status of a context once a trap that comes earlier in R382's order takes the place of another core-mate's: the cause of the recorded
trap decides, unless something else had stopped the context. -/
def State.statusBy (s : State) (c ctx : Nat) (prev : CtxStatus) (cause : BitVec 8) : CtxStatus :=
  let other := s.cores.any (fun e => e.1 != c && (e.2.job.map (·.ctx)) == some ctx
    && (e.2.lastTrap.map (fun l => l.time == s.now && !causeHolds l.cause)).getD false)
  match prev with
  | .dead => .dead
  | .stopped => .stopped
  | _ => if causeHolds cause && !other then .held else .stopped

/-- Another trap of the same cycle on a core: one that comes earlier in R382's order takes the record over, with the other's cause in
CAUSE2, and a later one only sets MORE and CAUSE2. -/
def State.trapAgain (s : State) (c ctx prio : Nat) (l : LastTrap) (r : TrapRec) : State :=
  let ta := fun i => ((s.ctx? ctx).map (·.trapa)).getD 0 + 128 + 128 * (i % 64)
  if prio < l.prio then
    let s := match l.recAt with
      | some i => (s.frontWrite ctx (ta i) ({ r with more := true, cause2 := l.cause.toNat, time := s.timeNs } : TrapRec).bytes).1
      | none => s
    let st := s.statusBy c ctx l.prev r.cause
    let s := (s.modCore c (fun k => { k with lastTrap := some { l with prio := prio, cause := r.cause, more := true } })).modCtx ctx
      (fun y => { y with status := st })
    let kind : StopKind := if st = .held then .hold else .stop
    { s with cores := s.cores.map (fun e => (e.1,
        if (e.2.job.map (·.ctx)) = some ctx ∧ e.2.stopping.isSome then { e.2 with stopping := some kind } else e.2)) }
  else if l.more then s
  else
    let s := match l.recAt with
      | none => s
      | some i =>
        let (s, b) := s.frontRead ctx (ta i + 1) 1
        match b with
        | .error _ => s
        | .ok b => ((s.frontWrite ctx (ta i + 1) [(b.headD 0) ||| 0x40]).1.frontWrite ctx (ta i + 29) [r.cause]).1
    s.modCore c (fun k => { k with lastTrap := some { l with more := true } })

/-- Take a trap: the record of R369, the suspension of R371 after 0x05, or the stop or hold of R372 after any other cause.
A later trap of the same cycle and core only sets MORE and CAUSE2, the order being that of R382. -/
def State.takeTrapOf (s : State) (c : Nat) (u : TrapUnit) (t : Trap) (cur : Option Cur) : State :=
  let ctx := (s.jobAt c).ctx
  let r := s.trapRecord c u t cur
  if t.cause = 0x05 then
    let (s, w) := s.putTrap ctx r
    match w with
    | .error va => s.areaLost ctx va
    | .ok ix => s.haltUnit c u (some { va := t.faddr.toNat, idx := ix.getD (2 ^ 32), reply := none, late := t.late })
  else
    let prio := trapPrio u t.cause
    let s := s.haltUnit c u none
    match (s.core c).lastTrap with
    | some l => if l.time = s.now then s.trapAgain c ctx prio l r else s.trapFirst c ctx prio r
    | none => s.trapFirst c ctx prio r

/-- The row that a trapping store popped stays in an entry of the operand log (R370). -/
def State.holdRow (s : State) (u : Cur) : State :=
  match s.cur.bind (·.poppedRow) with
  | some row =>
    if u.strm = .st then
      let (id, s) := s.newId
      let e : LogEnt := { id := id, pc := u.pc, word := u.word, lit := u.lit, repk := u.repk, scope := .strm, op := .held, fills := [],
                          row := some row, pops := (s.cur.map (·.pops)).getD [] }
      s.modStrm u.core u.strm (fun x => { x with log := x.log ++ [e] })
    else s
  | none => s

/-- Take a trap of the issuing stream. TRAP and BKPT leave the program counter after the instruction, since a resumed
stream continues there (R372); every other cause leaves it at the instruction. -/
def State.takeTrap (s : State) (u : Cur) (t : Trap) : State :=
  let s' := if t.cause = 0x10 ∨ t.cause = 0x11 then
      s.modJob u.core (fun j =>
        let j := j.advance u .next
        j.setStrm u.strm ((j.strm u.strm).afterIssue u.pc))
    else s.modStrm u.core u.strm (fun x => { x with wait := none, wpSkip := x.wpSkip || t.cause = 0x12 })
  let s'' := s'.takeTrapOf u.core (.stream u.strm) t s.cur
  if t.cause = 0x05 ∨ t.cause = 0x12 then s'' else s''.holdRow u

/-- Return from a held trap on one stream (R372): a stream stopped at a watchpoint issues its instruction again unchecked;
any other trapped stream continues at its program counter. -/
def Stream.resumed (x : Stream) : Stream :=
  { x with trapped := false, stopped := false, wait := none }

/-- Return from a held trap on a job: every stream and engine issues again (R372, R376). -/
def Job.resumed (j : Job) : Job :=
  { j with sc := j.sc.resumed, ld := j.ld.resumed, cx := j.cx.resumed, st := j.st.resumed,
           ce := { j.ce with trapped := false, stopped := false, wait := none } }

/-! ### Issue -/

/-- Ask the fabric switch for a reduction slot for a channel: what it answers, and when, is open (R342, log entry 17). DESIGN CHOICE (log
entry 73): without a module number no request leaves (R25), and the answer is a refusal. -/
def State.askSlot (s : State) (ctx ch : Nat) (who : Option Nat × Option Nat) : State :=
  let (grant, s) := s.drawBit
  let (n, s) := s.drawNat
  (s.modChan ctx ch (fun k => { k with asking := some who })).post (s.now + 1)
    (.rslotAnswer ctx ch (if grant && s.modnum.isSome then some (BitVec.ofNat 16 n) else none))

/-- n draws of `by_` bytes from a bay's source. -/
def State.sourceDraws (s : State) (b n by_ : Nat) : State × List Nat :=
  let p := (s.bay b).noisePtr
  let k := by_ / 2
  (s.modBay b (fun y => { y with noisePtr := p + n * k }),
    (List.range n).map (fun i => leNat ((List.range k).flatMap (fun t => leBytes (Config.noise b (p + i * k + t)).toNat 2))))

/-- A stream asks its bay's noise source for a grant (R234). -/
def State.askNoise (s : State) (u : Cur) : State :=
  let me := 8 * (u.core % 4) + strmNum u.strm
  let b := coreBay u.core
  (s.modBay b (fun y => { y with noiseReq := if y.noiseReq.contains me then y.noiseReq else y.noiseReq ++ [me] })).postOnce
    s.now (.noiseGrant b)

/-- Enter a request of the issuing core. -/
def State.askAt (s : State) (u : Cur) (a : Ask) : State :=
  match a with
  | .noise => s.askNoise u
  | .moreNoise by_ =>
    -- a grant of 256 draws is taken, and the next one asked for
    let (s, ds) := (s.modBay (coreBay u.core) (fun y => { y with noiseGrant := none })).sourceDraws (coreBay u.core) 256 by_
    (s.modStrm u.core u.strm (fun x => { x with drawn := x.drawn ++ ds })).askNoise u
  | .gallery row =>
    s.modDie (coreDie u.core) (fun d => { d with
      galWait := if d.galWait.any (fun w => w.1 == u.core) then d.galWait else d.galWait ++ [(u.core, row)] })
  | .loader => s.postOnce (s.now + 64) (.pageFetch u.core)
  | .slot ch => s.askSlot (s.jobAt u.core).ctx ch (some u.core, none)
  | .desc t => s.modCore u.core (fun k => { k with dcache := (t :: k.dcache.filter (· != t)).take 64 })

/-- What an instruction that did not complete leaves: the slot held, with a request or with its effects so far, a routine entered, or a
trap taken. Before a trap is taken every earlier access of the stream is performed (R370); a translation fault or a watchpoint leaves no
effect, since the instruction issues again (R371, R372). -/
def State.stopAt (s : State) (u : Cur) (x : Stop) (s' : State) : State :=
  match x with
  | .hold w => s.holdAt u w
  | .ask a w => (s.askAt u a).holdAt u w
  | .keep w => s'.holdAt u w
  | .enter => s'
  | .trap t =>
    if !(s.strmAt u.core u.strm).log.isEmpty then s.holdAt u .busy
    else if t.cause = 0x05 ∨ t.cause = 0x12 then s.takeTrap u t else s'.takeTrap u t

/-- Issue one instruction of the issuing stream: where its predicate holds its body runs, and the instruction retires,
holds the slot or traps; where it fails the instruction retires with no effect (R36, R118, R370). The second instruction of a CX
group that cannot complete is left for the next cycle (R105). -/
def issue (g : Guard) (body : Cur → M Flow) (s : State) : Host.Outcome State Fault Refusal :=
  match s.cur with
  | none => .fault .noIssuer
  | some u =>
    match (s.core u.core).job with
    | none => .fault .noIssuer
    | some j =>
      let runs := guardHolds g (j.strm u.strm)
      match (do preIssue u runs; if runs then body u else pure .next : M Flow) s with
      | .ok f s' => .next (s'.retire (if runs then u else { u with use := u.use.map CxUse.off }) f)
      | .error x s' => .next (if u.second then s else s.stopAt u x s')

/-- Issue an instruction that continues with the next one. -/
def issueNext (g : Guard) (body : Cur → M Unit) (s : State) : Host.Outcome State Fault Refusal :=
  issue g (fun u => do body u; pure .next) s

/-- An event of the machine: a state function; the machine never stops on one. -/
def event (f : State → State) (s : State) : Host.Outcome State Fault Refusal := .next (f s)

end Sys2Proof.Machine
end

