-- ==== Sys2Proof/Machine/Flags.lean ====
section
/-!
DEFINITION. The arithmetic status register: setting, clearing and reading its flags (R79, R80).
-/

namespace Sys2Proof.Machine

/-- OR flags into the arithmetic status of a stream (R80). -/
def Stream.orAsr (x : Stream) (f : Flg) : Stream := { x with asr := x.asr ||| f.setWidth 64 }

/-- Writing 1 clears a flag of the arithmetic status (R79, W1C); the reserved bits stay 0. -/
def Stream.clearAsr (x : Stream) (w : Word) : Stream := { x with asr := x.asr &&& ~~~w &&& 0x3F }

/-- OR flags into the issuing stream's arithmetic status. -/
def setFlags (u : Cur) (f : Flg) : M Unit := modStrm u (fun x => x.orAsr f)

/-- OR flags into the arithmetic status of a stream of the job on a core. -/
def State.orAsrAt (s : State) (c : Nat) (x : Strm) (f : Flg) : State :=
  if f = 0 then s else s.modStrm c x (fun v => v.orAsr f)

end Sys2Proof.Machine
end

