-- ==== Sys2Proof/Machine/Areas.lean ====
section
/-!
DEFINITION. Memory accesses by area: address checks (R157), watchpoints (R439), loads and stores in the scratchpad, the cluster region and translated memory (R138, R144, R148, R158).
-/

namespace Sys2Proof.Machine

/-! ### Address checks (R157) -/

/-- Where a checked address lies: core scratchpad or cluster region at an offset, or translated memory. -/
inductive Area where
  | spad (off : Nat)
  | cluster (off : Nat)
  | trans (va : Nat)
  deriving DecidableEq, Repr

/-- A trap whose DETAIL and FADDR are an address. -/
def addrTrap (cause : BitVec 8) (a : Int) : Trap := { cause := cause, detail := BitVec.ofInt 64 a, faddr := BitVec.ofInt 64 a }

/-- The checks of R157 for n bytes with an alignment; `fe` where the access carries a full-empty qualifier. -/
def checkAddr (s : State) (c : Nat) (a : Int) (n al : Nat) (fe : Bool) : Except Trap Area :=
  if a < 0 ∨ (2 : Int) ^ 56 < a + n then .error (addrTrap 0x06 a)
  else
    let v := a.toNat
    if v % al ≠ 0 then .error (addrTrap 0x07 a)
    else if v < 0x1000000 then
      if (s.core c).spadSize < v + n then .error (addrTrap 0x0E a) else .ok (.spad v)
    else if v < 0x2000000 then
      if s.regionSize c < v - 0x1000000 + n then .error (addrTrap 0x0E a)
      else if fe then .error (addrTrap 0x0E a)
      else .ok (.cluster (v - 0x1000000))
    else if fe then .error (addrTrap 0x0E a)
    else .ok (.trans v)

/-- The checked area of an access of the issuing stream. -/
def areaOf (u : Cur) (a : Int) (n al : Nat) (fe : Bool) : M Area := do
  match checkAddr (← get) u.core a n al fe with
  | .ok x => pure x
  | .error t => raiseTrap t

/-- Is an area translated memory? -/
def Area.isTrans : Area → Bool
  | .trans _ => true
  | _ => false

/-! ### Watchpoints (R439) -/

/-- The lowest-numbered watchpoint a range of virtual addresses matches, with the first matching address. -/
def wpMatch (wp : Tbl Word) (va n : Nat) (rd wr : Bool) : Option (Nat × Nat) :=
  (List.range 4).findSome? (fun i =>
    let w := tget 0 wp i
    let lg := w.toNat / 2 ^ 56 % 64
    let lo := w.toNat % 2 ^ 56 / 2 ^ lg * 2 ^ lg
    if ((rd && w.getLsbD 63) || (wr && w.getLsbD 62)) && decide (lg ≤ 24 ∧ lo < va + n ∧ va < lo + 2 ^ lg) then
      some (i, max lo va) else none)

/-- The watchpoint trap: DETAIL holds the number and the matching address, FADDR the address (R368, R369). -/
def wpTrap (i a : Nat) : Trap :=
  { cause := 0x12, detail := BitVec.ofNat 64 (i + a * 256), faddr := BitVec.ofNat 64 a }

/-- Match an access of the issuing stream against the watchpoints; the issue after a resume is not checked (R372). -/
def watch (u : Cur) (va n : Nat) (rd wr : Bool) : M Unit := do
  let s ← get
  let wp := (s.core u.core).obs.wp
  if wp.isEmpty then pure ()
  else if (s.strmAt u.core u.strm).wpSkip then pure ()
  else
    match wpMatch wp va n rd wr with
    | some (i, a) => raiseTrap (wpTrap i a)
    | none => pure ()

/-! ### Loads and stores -/

/-- Join the clock of what a load returned to the stream's unacquired clocks (R182). -/
def State.noteSeen (s : State) (c : Nat) (x : Strm) (clk : Tbl Nat) : State :=
  if clk.isEmpty then s else s.modStrm c x (fun v => { v with seen := clkJoin v.seen clk })

/-- Load physical pieces through the L1, line by line: the bytes with their poison marks. -/
def State.loadPieces (s : State) (c : Nat) (x : Strm) (ctx : Nat) (scope : Scope) (ps : List (Nat × Nat)) :
    State × List (Byte × Bool) :=
  ps.foldl (fun r p =>
    (splitLines p.1 (List.replicate p.2 ())).foldl (fun (r : State × List (Byte × Bool)) q =>
      let (s, bs, clk) := r.1.l1Load c ctx q.1 q.2.length scope
      (s.noteSeen c x clk, r.2 ++ bs)) r) (s, [])

/-- Store masked bytes into physical pieces through the L1, line by line. -/
def State.storePieces (s : State) (c : Nat) (un : SendUnit) (ctx : Nat) (scope : Scope) (ps : List (Nat × Nat))
    (bs : List (Byte × Byte)) : State :=
  (ps.foldl (fun (r : State × List (Byte × Byte)) p =>
    ((splitLines p.1 (r.2.take p.2)).foldl (fun (s : State) q => s.l1Store c un ctx q.1 q.2 scope) r.1, r.2.drop p.2))
    (s, bs)).1

/-- Load n bytes of an area for a stream: bytes with the marks of uncorrectable lines. -/
def State.loadArea (s : State) (c : Nat) (x : Strm) (a : Area) (n : Nat) (scope : Scope) :
    State × Except AccFault (List (Byte × Bool)) :=
  match a with
  | .spad o => (s, .ok (s.spadRead c o n))
  | .cluster o => (s, .ok (s.clusterMarks c o n))
  | .trans va =>
    let ctx := (s.jobAt c).ctx
    let (s, t) := s.translateRange c ctx va n .load
    match t with
    | .error e => (s, .error e)
    | .ok ps =>
      let (s, bs) := s.loadPieces c x ctx scope ps
      (s, .ok bs)

/-- The physical pieces of an area, none for one of the local aperture. -/
def State.places (s : State) (c : Nat) (a : Area) (n : Nat) (need : Need) : State × Except AccFault (List (Nat × Nat)) :=
  match a with
  | .trans va => s.translateRange c (s.jobAt c).ctx va n need
  | _ => (s, .ok [])

/-- Store masked bytes into an area whose pieces are known; `full` sets scratchpad granules full. -/
def State.putArea (s : State) (c : Nat) (un : SendUnit) (a : Area) (ps : List (Nat × Nat)) (bs : List (Byte × Byte)) (scope : Scope)
    (full : Bool) : State :=
  match a with
  | .spad o => s.spadWrite c o bs full
  | .cluster o => s.clusterWrite c o bs
  | .trans _ => s.storePieces c un (s.jobAt c).ctx scope ps bs

/-- Store masked bytes of an area for a stream; `full` sets scratchpad granules full. -/
def State.storeArea (s : State) (c : Nat) (un : SendUnit) (a : Area) (bs : List (Byte × Byte)) (scope : Scope) (full : Bool) :
    State × Except AccFault Unit :=
  match s.places c a bs.length .store with
  | (s, .error e) => (s, .error e)
  | (s, .ok ps) => (s.putArea c un a ps bs scope full, .ok ())

/-- The pieces of several areas, translated in order. -/
def State.placesAll (c : Nat) (need : Need) : List (Area × Nat) → State → State × Except AccFault (List (List (Nat × Nat)))
  | [], s => (s, .ok [])
  | a :: as, s =>
    match s.places c a.1 a.2 need with
    | (s, .error e) => (s, .error e)
    | (s, .ok ps) =>
      match State.placesAll c need as s with
      | (s, .error e) => (s, .error e)
      | (s, .ok l) => (s, .ok (ps :: l))

/-- Store to several areas in order, once all of them translate. -/
def State.storeAll (s : State) (c : Nat) (un : SendUnit) (scope : Scope) (l : List (Area × List (Byte × Byte))) :
    State × Except AccFault Unit :=
  match State.placesAll c .store (l.map (fun p => (p.1, p.2.length))) s with
  | (s, .error e) => (s, .error e)
  | (s, .ok pss) => ((l.zip pss).foldl (fun s q => s.putArea c un q.1.1 q.2 q.1.2 scope false) s, .ok ())

/-- The first uncorrectable byte of a load from a virtual address. -/
def firstBad (va : Nat) (bs : List (Byte × Bool)) : Option Nat :=
  (bs.findIdx? (·.2)).map (fun i => va + i)

/-- The first uncorrectable byte of a range of a core's scratchpad (R158). -/
def State.spadBadAt (s : State) (c off n : Nat) : Option Nat := firstBad off (s.spadRead c off n)

/-- The trap of an uncorrectable byte (R158). -/
def poisonFault (va : Nat) : AccFault := { cause := 0x08, detail := va, va := va }

/-- An error record of uncorrectable data met by an access of a context (R158, R385): type 1 zero-filled, 2 trapped; ADDR is the virtual
address. In a scratchpad or a cluster region UNIT is 2 or 3, DIE the compute die and WHERE the bank, whose numbering is open (log
entry 20). -/
def State.poisonError (s : State) (c ctx va type : Nat) : State :=
  if va < 0x2000000 then
    let (w, s) := s.drawNat
    s.error type (if va < 0x1000000 then 2 else 3) (coreDie c) (w % 2 ^ 32) va ctx 0
  else
    let (s, t) := s.translate c ctx va .any
    match t with
    | .ok pa => s.lineError type (paLocal pa) va ctx
    | .error _ => s

/-- Raise the trap of an uncorrectable byte, with its error record (R158, R385). -/
def raisePoison (u : Cur) (va : Nat) : M α := do
  let ctx ← getCtx u
  modify (fun s => s.poisonError u.core ctx va 2)
  raiseTrap (poisonFault va).trap

/-- The virtual address of an area's first byte. -/
def Area.va : Area → Nat
  | .spad o => o
  | .cluster o => o + 0x1000000
  | .trans v => v

/-- The area of a checked virtual address. -/
def areaAt (va : Nat) : Area := if va < 0x1000000 then .spad va else if va < 0x2000000 then .cluster (va - 0x1000000) else .trans va

/-- The first uncorrectable byte of a local area (R158). -/
def State.localBad (s : State) (c : Nat) (ar : Area) (n : Nat) : Option Nat :=
  match ar with
  | .spad o => s.spadBadAt c o n
  | .cluster o => firstBad ar.va (s.clusterMarks c o n)
  | .trans _ => none

/-- Bytes of a local area. -/
def State.localBytes (s : State) (c : Nat) (ar : Area) (n : Nat) : List Byte :=
  match ar with
  | .spad o => readBytes (s.core c).spad o n
  | .cluster o => s.clusterRead c o n
  | .trans _ => []

/-- Bytes of a local area read by an instruction; an uncorrectable one traps (R158). -/
def localRead (u : Cur) (ar : Area) (n : Nat) : M (List Byte) := do
  let s ← get
  match s.localBad u.core ar n with
  | some v => raisePoison u v
  | none => pure (s.localBytes u.core ar n)

end Sys2Proof.Machine
end

