-- ==== Sys2Proof/Machine/Operands.lean ====
section
/-!
DEFINITION. Operand forms: sources and pops (R37, R40, R100, R156), queues and delivery (R38, R39, R98, R99), rotation of row and mask names (R130), row reservations (R209, R247) and the CX latencies (R237).
-/

namespace Sys2Proof.Machine

/-! ### Queues (R98 to R101) -/

/-- The number of the scalar queue from x to y (R98). -/
def qNum (x y : Strm) : Nat := 4 * strmNum x + strmNum y

/-- A scalar queue of a job. -/
def Job.queueOf (j : Job) (n : Nat) : List QEnt := tget [] j.q n

/-- Replace a scalar queue. -/
def Job.setQueue (j : Job) (n : Nat) (l : List QEnt) : Job := { j with q := tput [] j.q n l }

/-- The filled value of an entry. -/
def QEnt.val? : QEnt → Option Word
  | .full w => some w
  | .resv _ => none

/-- The filled row of an entry. -/
def VEnt.val? : VEnt → Option Row
  | .full r => some r
  | .resv _ => none

/-- The filled value at place i of a queue. -/
def qAt (l : List QEnt) (i : Nat) : Option Word := (l[i]?).bind QEnt.val?

/-- The filled row at place i of a vector queue. -/
def vAt (l : List VEnt) (i : Nat) : Option Row := (l[i]?).bind VEnt.val?

/-- Streams by number. -/
def strmOf (n : Nat) : Strm :=
  match n with
  | 0 => .sc
  | 1 => .ld
  | 2 => .cx
  | _ => .st

/-- The scalar queues a delivery names, as destination streams (R39). -/
def destStrms (d : Dest) : List Strm := allStrms.filter (fun y => d.qs.getLsbD (strmNum y))

/-- Does a delivery name the outgoing vector queue? -/
def destVq (d : Dest) : Bool := d.qs.getLsbD 4

/-- The reader of a stream's outgoing vector queue. -/
def vqReader (x : Strm) : Strm := match x with | .ld => .cx | _ => .st

/-- The outgoing vector queue of a stream. -/
def Job.vqOf (j : Job) (x : Strm) : List VEnt := match x with | .ld => j.vqLd | _ => j.vqCx

/-- Replace the outgoing vector queue of a stream. -/
def Job.setVq (j : Job) (x : Strm) (l : List VEnt) : Job :=
  match x with | .ld => { j with vqLd := l } | _ => { j with vqCx := l }

/-- Queue number of the outgoing vector queue (R98). -/
def vqNum (x : Strm) : Nat := match x with | .ld => 16 | _ => 17

/-- The first named queue without a free entry (R99); a queue toward a stream that has exited accepts everything (R101). -/
def Job.fullQueue (j : Job) (x : Strm) (d : Dest) : Option Nat :=
  let sc := ((destStrms d).find? (fun y => !(j.strm y).exited && decide (8 ≤ (j.queueOf (qNum x y)).length))).map (qNum x)
  if sc.isSome then sc
  else if destVq d && !(j.strm (vqReader x)).exited && decide (16 ≤ (j.vqOf x).length) then some (vqNum x) else none

/-- Is an access unperformed that a FENCE of kind rel puts before every later store and push (R177, R179)? -/
def Stream.relBlocked (x : Stream) : Bool := x.log.any (fun e => decide (e.id < x.relAt))

/-- What a delivery waits for: a free entry in every queue it names (R99), or, for a scalar queue, the accesses that a FENCE.rel puts before
its push (R179). DESIGN CHOICE (log entry 76): where several queues are full the first one in the order SC, LD, CX, ST, vq is the wait
that R102 names. -/
def Job.noRoom (j : Job) (x : Strm) (d : Dest) : Option Wait :=
  match j.fullQueue x d with
  | some n => some (.push n)
  | none => if (j.strm x).relBlocked && !(destStrms d).isEmpty then some .busy else none

/-- Hold while a delivery has to wait. -/
def needSpace (u : Cur) (d : Dest) : M Unit := do
  match (← getJob u).noRoom u.strm d with
  | some w => holdFor w
  | none => pure ()

/-- Put a scalar entry in every scalar queue a delivery names. -/
def Job.pushAll (j : Job) (x : Strm) (d : Dest) (e : QEnt) : Job :=
  (destStrms d).foldl (fun j y =>
    if (j.strm y).exited then j else j.setQueue (qNum x y) (j.queueOf (qNum x y) ++ [e])) j

/-- Put a row entry in the outgoing vector queue, if the delivery names it. -/
def Job.pushRow (j : Job) (x : Strm) (d : Dest) (e : VEnt) : Job :=
  if destVq d && !(j.strm (vqReader x)).exited then j.setVq x (j.vqOf x ++ [e]) else j

/-! ### Registers (R97, R130, R237) -/

/-- s0 to s31 of a stream. -/
def Stream.sReg (x : Stream) (n : Nat) : Word := tget 0 x.s n

/-- a0 to a15 of a stream. -/
def Stream.aReg (x : Stream) (n : Nat) : Word := tget 0 x.a n

/-- Write an s register. -/
def Stream.setS (x : Stream) (n : Nat) (w : Word) : Stream := { x with s := tput 0 x.s n w }

/-- Write an a register. -/
def Stream.setA (x : Stream) (n : Nat) (w : Word) : Stream := { x with a := tput 0 x.a n w }

/-- The physical row of a row name: a name in the rotating region is shifted by the rotation base (R130). -/
def Job.physRow (j : Job) (n : Nat) : Nat :=
  let b := 128 - j.rvR
  if j.rvR = 0 ∨ n < b then n else b + (n - b + j.rrbV) % j.rvR

/-- The physical mask of a mask name: k8 to k15 are shifted by the mask rotation base (R130). -/
def Job.physMask (j : Job) (n : Nat) : Nat := if n < 8 then n else 8 + (n - 8 + j.rrbK) % 8

/-- A vector row by its physical number. -/
def Job.row (j : Job) (n : Nat) : Row := tget 0 j.v n

/-- Write a vector row by its physical number. -/
def Job.setRow (j : Job) (n : Nat) (r : Row) : Job := { j with v := tput 0 j.v n r }

/-- A lane mask by its physical number; k0 is hard-wired all ones (R97). -/
def Job.mask (j : Job) (n : Nat) : Mask := if n = 0 then BitVec.allOnes 256 else tget 0 j.k n

/-- Write a lane mask by its physical number; a write to k0 is discarded (R38). -/
def Job.setMask (j : Job) (n : Nat) (m : Mask) : Job := if n = 0 then j else { j with k := tput 0 j.k n m }

/-- Keys of the CX latency table. -/
def readyKeyRow (n : Nat) : Nat := n
/-- Key of a mask. -/
def readyKeyMask (n : Nat) : Nat := 128 + n
/-- Key of an s register. -/
def readyKeyS (n : Nat) : Nat := 144 + n
/-- Key of an a register. -/
def readyKeyA (n : Nat) : Nat := 176 + n

/-- May a CX result be read in this cycle (R96, R237)? -/
def Job.isReady (j : Job) (now key : Nat) : Bool := decide (tget 0 j.ready key ≤ now)

/-- The CX result at this key may be read from a cycle on. -/
def Job.setReady (j : Job) (key t : Nat) : Job := { j with ready := tput 0 j.ready key t }

/-- The rows a job's uncompleted array commands reserve (R209): those of their regions. -/
def ArrCmd.reserves (a : ArrCmd) (row : Nat) : Bool := (decide (64 ≤ row)) == a.acc

/-- Does an uncompleted array command bar a vector instruction from reading the row? -/
def Core.rowHeld (k : Core) (row : Nat) : Bool := k.arr.any (fun a => a.reserves row)

/-- Does an uncompleted array command bar a vector instruction from writing the row (R209, R247)? -/
def Core.rowWriteHeld (k : Core) (row : Nat) : Bool := k.arr.any (fun a => a.reserves row || a.reads.contains row)

/-! ### Sources -/

/-- A source position: a scalar operand, a vector operand of CX, or the popped row of an ST store. -/
inductive Rd where
  | scalar (x : Src)
  | vec (x : Src)
  | stRow
  deriving DecidableEq, Repr

/-- Blocks of a stream register in all: the product of its counts (R155). -/
def Pattern.total (p : Pattern) : Nat := p.cnt0.toNat * p.cnt1.toNat * p.cnt2.toNat * p.cnt3.toNat

/-- The address of block n of a pattern, i0 varying fastest (R155). -/
def Pattern.addr (p : Pattern) (n : Nat) : Int :=
  let i0 := n % p.cnt0.toNat
  let n1 := n / p.cnt0.toNat
  let i1 := n1 % p.cnt1.toNat
  let n2 := n1 / p.cnt1.toNat
  let i2 := n2 % p.cnt2.toNat
  let i3 := n2 / p.cnt2.toNat
  (p.base.toNat : Int) + i0 * p.str0.toInt + i1 * p.str1.toInt + i2 * p.str2.toInt + i3 * p.str3.toInt

/-- A stream register after k pops. -/
def MReg.pop (m : MReg) (k : Nat) : MReg := { m with pos := m.pos + k, buf := m.buf.drop k }

/-- The next block of a bound register that is not exhausted, for a scalar position: trap, wait, or present (R156). -/
def mCheck (m : Option MReg) (k : Nat) (blk : Option Nat) : Option Stop :=
  match m with
  | none => some (.trap (illegal9 8))
  | some r =>
    if r.pat.total ≤ r.pos + k then some (.trap (illegal9 8))
    else if !r.data then (if blk.isSome && blk != some 8 then some (.trap (illegal9 8)) else none)
    else if some r.pat.blk.toNat != blk then some (.trap (illegal9 8))
    else if r.buf.length ≤ k then some (.hold .streamReg)
    else none

/-- What the sources before one have taken: pops of each scalar queue, rows, and blocks of each stream register. -/
structure Taken where
  q : Tbl Nat := []
  rows : Nat := 0
  m : Tbl Nat := []

/-- What one source needs, after what earlier sources of the instruction take: a reason to stop, and what is taken with it
(R40, R100). -/
def needSrc (s : State) (u : Cur) (t : Taken) (r : Rd) : Option Stop × Taken :=
  let j := s.jobAt u.core
  let me := u.strm
  match r with
  | .scalar (.pop y) =>
    let n := qNum y me
    let i := tget 0 t.q n
    (if (qAt (j.queueOf n) i).isSome then none else some (.hold (.pop n)), { t with q := tput 0 t.q n (i + 1) })
  | .scalar (.peek y) =>
    let n := qNum y me
    (if (qAt (j.queueOf n) (tget 0 t.q n)).isSome then none else some (.hold (.pop n)), t)
  | .scalar (.m n) =>
    let k := tget 0 t.m n.toNat
    (mCheck (tget none (j.strm me).m n.toNat) k (some 8), { t with m := tput 0 t.m n.toNat (k + 1) })
  | .scalar (.s n) =>
    (if me = .cx && !j.isReady s.now (readyKeyS n.toNat) then some (.hold .busy) else none, t)
  | .scalar (.a n) =>
    (if me = .cx && !j.isReady s.now (readyKeyA n.toNat) then some (.hold .busy) else none, t)
  | .scalar _ => (none, t)
  | .vec (.pop _) =>
    (if (vAt j.vqLd t.rows).isSome then none else some (.hold (.pop 16)), { t with rows := t.rows + 1 })
  | .vec (.peek _) => (if (vAt j.vqLd t.rows).isSome then none else some (.hold (.pop 16)), t)
  | .vec (.v n) =>
    let p := j.physRow n.toNat
    (if (s.core u.core).rowHeld p || !j.isReady s.now (readyKeyRow p) then some (.hold .busy) else none, t)
  | .vec (.s n) => (if !j.isReady s.now (readyKeyS n.toNat) then some (.hold .busy) else none, t)
  | .vec (.a n) => (if !j.isReady s.now (readyKeyA n.toNat) then some (.hold .busy) else none, t)
  | .vec _ => (none, t)
  | .stRow =>
    (if (vAt j.vqCx t.rows).isSome then none else some (.hold (.pop 17)), { t with rows := t.rows + 1 })

/-- The reasons to stop of the sources of one instruction, in order. -/
def needAll (s : State) (u : Cur) (t : Taken) : List Rd → List Stop
  | [] => []
  | r :: rs =>
    let (x, t) := needSrc s u t r
    (match x with | some y => [y] | none => []) ++ needAll s u t rs

/-- Is this stop a trap? -/
def Stop.isTrap : Stop → Bool
  | .trap _ => true
  | _ => false

/-- Is it the wait for a queue's head (R100)? -/
def Stop.isPop : Stop → Bool
  | .hold (.pop _) => true
  | _ => false

/-- Every source of the instruction can be read now: traps of stream registers first, then the queue waits that R102 counts, then other
waits (R40, R156). DESIGN CHOICE (log entry 76): of several empty heads the first in the order of R40 is the one DETAIL names. -/
def ensure (u : Cur) (rs : List Rd) : M Unit := do
  let l := needAll (← get) u {} rs
  match l.find? Stop.isTrap with
  | some t => throw t
  | none =>
    match (l.find? Stop.isPop).orElse (fun _ => l.head?) with
    | some w => throw w
    | none => pure ()

/-- Record a popped scalar for the trap record (R370). -/
def notePop (w : Word) : M Unit :=
  modify (fun s => { s with cur := s.cur.map (fun c => { c with pops := c.pops ++ [w] }) })

/-- Pop a scalar queue whose head is filled. -/
def popQueue (u : Cur) (y : Strm) : M Word := do
  let j ← getJob u
  let n := qNum y u.strm
  let w := (qAt (j.queueOf n) 0).getD 0
  modJob u (fun j => j.setQueue n ((j.queueOf n).drop 1))
  notePop w
  pure w

/-- The bytes of the next block of a stream register; a fault of its fetch is raised at this pop (R156). -/
def popBlock (u : Cur) (n : BitVec 3) : M (Option (MReg × Option (List Byte))) := do
  let x ← getStrm u
  match tget none x.m n.toNat with
  | none => pure none
  | some r =>
    modStrm u (fun x => { x with m := tput none x.m n.toNat (some (r.pop 1)) })
    pure (some (r, (r.buf.head?).bind (fun b => b.bytes)))

/-- The value of a special operand 0x43 to 0x47 (R26, R37). -/
def specialVal (j : Job) (c : Nat) (x : Src) : Word :=
  match x with
  | .coordCore => BitVec.ofNat 64 (c % 16)
  | .coordDie => j.die
  | .stage => j.stage.setWidth 64
  | .jobIdx => j.first
  | .iter => tget 0 j.l 0
  | .one => 1
  | _ => 0

/-- The signed value of a small constant: code 0x50 + 8 + c is c (R37). -/
def constVal (c : BitVec 4) : Int := (c.toNat : Int) - 8

/-- The bytes of a DATA block whose fetch met a fault: its pop makes the access again and raises the fault as its own
(R156). -/
def blockAgain (u : Cur) (r : MReg) (n al : Nat) : M (List (Byte × Bool)) := do
  let ar ← areaOf u (r.pat.addr r.pos) n al false
  liftF (fun s => s.loadArea u.core u.strm ar n .strm)

/-- Read a scalar source as a 64-bit value (R37, R40, R41, R43). -/
def readScalar (u : Cur) (x : Src) : M Word := do
  match x with
  | .s n => return (← getStrm u).sReg n.toNat
  | .a n => return (← getStrm u).aReg n.toNat
  | .pop y => popQueue u y
  | .peek y =>
    let j ← getJob u
    pure ((qAt (j.queueOf (qNum y u.strm)) 0).getD 0)
  | .m n =>
    match (← popBlock u n) with
    | none => pure 0
    | some (r, bs) =>
      if !r.data then
        let w := BitVec.ofInt 64 (r.pat.addr r.pos)
        notePop w
        pure w
      else
        let bs ← match bs with
          | some bs => pure (bs.map (fun b => (b, false)))
          | none => blockAgain u r 8 8
        match firstBad (r.pat.addr r.pos).toNat bs with
        | some v => raisePoison u v
        | none =>
          let w := BitVec.ofNat 64 (leNat (bs.map (·.1)))
          notePop w
          pure w
  | .const c => pure (BitVec.ofInt 64 (constVal c))
  | .imm i => pure (i.signExtend 64)
  | .lit l => pure (l.signExtend 64)
  | .v _ => pure 0
  | y => return specialVal (← getJob u) u.core y

/-- Read a scalar floating-point source as a W36 image (R37, R64, R111). -/
def readFloat (u : Cur) (x : Src) : M Nat := do
  match x with
  | .const c => pure (w36OfInt (constVal c))
  | .imm i => pure (w36OfInt i.toInt)
  | .lit l => pure (w36OfFp32 l)
  | .zero => pure 0
  | .one => pure (w36OfInt 1)
  | .coordCore => return w36OfInt (specialVal (← getJob u) u.core x).toNat
  | .coordDie => return w36OfInt (specialVal (← getJob u) u.core x).toNat
  | .stage => return w36OfInt (specialVal (← getJob u) u.core x).toNat
  | .jobIdx => return w36OfInt (specialVal (← getJob u) u.core x).toNat
  | .iter => return w36OfInt (specialVal (← getJob u) u.core x).toNat
  | y => return w36 (← readScalar u y)

/-- Pop a row from a vector queue whose head is filled. -/
def popRow (u : Cur) (from_ : Strm) : M Row := do
  let j ← getJob u
  let r := (vAt (j.vqOf from_) 0).getD 0
  modJob u (fun j => j.setVq from_ ((j.vqOf from_).drop 1))
  modify (fun s => { s with cur := s.cur.map (fun c => { c with poppedRow := some r }) })
  pure r

/-- A row with every lane the same. -/
def bcastRow (lw : Bool) (v : Nat) : Row := rowOf lw (List.replicate (laneN lw) v)

/-- Read a vector source: a row, a popped or peeked row, or a scalar broadcast in the lane format (R37, R208). -/
def readVec (u : Cur) (lw int : Bool) (x : Src) : M Row := do
  match x with
  | .v n =>
    let j ← getJob u
    pure (j.row (j.physRow n.toNat))
  | .pop _ => popRow u .ld
  | .peek _ => return (vAt (← getJob u).vqLd 0).getD 0
  | .lane =>
    pure (rowOf lw ((List.range (laneN lw)).map (fun (i : Nat) =>
      if int then satImg lw (i : Int) false else roundOdd lw (.ofInt (i : Int)) false)))
  | y =>
    if int then
      let w ← readScalar u y
      let v : Int := match y with
        | .s _ => w.toInt
        | .a _ => w.toInt
        | .const _ => w.toInt
        | .lit _ => w.toInt
        | _ => w.toNat
      pure (bcastRow lw (satImg lw v false))
    else
      match y with
      | .const c => pure (bcastRow lw (roundOdd lw (.ofInt (constVal c)) false))
      | .zero => pure 0
      | .one => pure (bcastRow lw (roundOdd lw (.ofInt 1) false))
      | .s n =>
        let w := w36 ((← getStrm u).sReg n.toNat)
        pure (bcastRow lw (imgConv false lw w))
      | .a n =>
        let w := w36 ((← getStrm u).aReg n.toNat)
        pure (bcastRow lw (imgConv false lw w))
      | .lit l => pure (bcastRow lw (roundOdd lw ((MFmt.flt 1 8 23 127 .ieee true).val l.toNat) false))
      | z => do
        let w := specialVal (← getJob u) u.core z
        pure (bcastRow lw (roundOdd lw (.ofInt w.toNat) false))

/-! ### Delivery (R38, R39) -/

/-- Write a scalar or predicate register of the issuing stream; on CX the result may be read after its latency. -/
def writeReg (u : Cur) (r : Reg) (w : Word) (lat : Nat) : M Unit := do
  let now := (← get).now
  match r with
  | .s n => modJob u (fun j =>
      let j := j.setStrm u.strm ((j.strm u.strm).setS n.toNat w)
      if u.strm = .cx ∧ 1 < lat then j.setReady (readyKeyS n.toNat) (now + lat) else j)
  | .a n => modJob u (fun j =>
      let j := j.setStrm u.strm ((j.strm u.strm).setA n.toNat w)
      if u.strm = .cx ∧ 1 < lat then j.setReady (readyKeyA n.toNat) (now + lat) else j)
  | .p n => modStrm u (fun x => x.setPred n (w != 0))
  | _ => pure ()

/-- Hand a scalar result to every consumer of its delivery (R39). -/
def deliver (u : Cur) (d : Dest) (w : Word) : M Unit := do
  match d.reg with
  | some r => writeReg u r w 1
  | none => pure ()
  modJob u (fun j => j.pushAll u.strm d (.full w))

/-- Hand a comparison's result on: the predicate, and 1 or 0 to each queue (R110). -/
def deliverBool (u : Cur) (d : Dest) (b : Bool) : M Unit := deliver u d (if b then 1 else 0)

/-- Hand a row to the v register and the outgoing vector queue (R39, R211): readers of either wait for the latency; with
`keep` the register's other lanes keep an earlier result, whose latency still holds. -/
def deliverRow (u : Cur) (d : Dest) (r : Row) (lat : Nat) (keep : Bool := false) : M Unit := do
  let now := (← get).now
  match d.reg with
  | some (.v n) => modJob u (fun j =>
      let k := readyKeyRow (j.physRow n.toNat)
      (j.setRow (j.physRow n.toNat) r).setReady k (if keep then max (tget 0 j.ready k) (now + lat) else now + lat))
  | _ => pure ()
  if lat ≤ 1 then modJob u (fun j => j.pushRow u.strm d (.full r))
  else if destVq d then
    let s ← get
    let (id, s) := s.newId
    set s
    modJob u (fun j => j.pushRow u.strm d (.resv id))
    modStrm u (fun x => { x with returned := x.returned ++ [(now + lat, id, .inr r)] })
    modify (fun s => s.postEarly (now + lat) (.resultDelivery u.core u.strm))

/-- Write a mask result (R211). -/
def deliverMask (u : Cur) (d : Dest) (m : Mask) : M Unit :=
  match d.reg with
  | some (.k n) => modJob u (fun j => j.setMask (j.physMask n.toNat) m)
  | _ => pure ()

/-- The value of the DST register as a third source (R106). -/
def readDst (u : Cur) (d : Dest) : M Word := do
  let x ← getStrm u
  match d.reg with
  | some (.s n) => pure (x.sReg n.toNat)
  | some (.a n) => pure (x.aReg n.toNat)
  | _ => pure 0

/-- The source that names a destination register. -/
def destSrc (d : Dest) : Src :=
  match d.reg with
  | some (.s n) => .s n
  | some (.a n) => .a n
  | some (.v n) => .v n
  | _ => .zero

/-- Hold while the destination row may not be written (R209, R247). -/
def needRowWrite (u : Cur) (d : Dest) : M Unit := do
  match d.reg with
  | some (.v n) =>
    let j ← getJob u
    holdIf (((← get).core u.core).rowWriteHeld (j.physRow n.toNat)) .busy
  | _ => pure ()

/-- The one-bit value of a stream's predicate, as the scalar result of a predicate read. -/
def readPred (u : Cur) (n : BitVec 3) : M Bool := do return (← getStrm u).pred n

end Sys2Proof.Machine
end

