-- ==== Sys2Proof/Machine/MemOps.lean ====
section
/-!
DEFINITION. The operand log (R373, R374), ordering waits (R177, R178) and draws from the noise source (R234 to R236).
-/

namespace Sys2Proof.Machine

/-! ### The operand log (R373, R374) -/

/-- The virtual ranges an entry's access touches. -/
def LogEnt.ranges (e : LogEnt) : List (Nat × Nat) :=
  match e.op with
  | .ld a n => [(a, n)]
  | .vld as packed _ _ lw => as.map (fun a => (a, if packed then runBytes 36 (laneN lw) else 8))
  | .st ps => ps.map (fun p => (p.addr, p.bytes.length))
  | .atomic a n .. => [(a, n)]
  | .gst _ => []
  | .held => []

/-- Does an entry read memory? -/
def LogOp.loads : LogOp → Bool
  | .ld .. => true
  | .vld .. => true
  | .atomic .. => true
  | _ => false

/-- May an entry be performed by the machine's own step? A gallery store is performed at its arrival, and a held row never. -/
def LogOp.own : LogOp → Bool
  | .gst _ => false
  | .held => false
  | _ => true

/-- Might two ranges hold the same byte? Pages are compared by offset, since two addresses may name one frame. -/
def mayOverlap (a n b m : Nat) : Bool :=
  decide (4096 ≤ n + m) || decide ((b + 4096 - a % 4096) % 4096 < n) || decide ((a + 4096 - b % 4096) % 4096 < m)

/-- Is a load unperformed that a WAITT or a rendezvous puts before every later access (R177)? -/
def Stream.acqBlocked (x : Stream) : Bool := x.log.any (fun e => e.op.loads && decide (e.id < x.acqAt))

/-- Hold while the operand log is full (R373), or an unperformed access comes first by a fence or an acquire (R177). -/
def needLogEntry (u : Cur) (store : Bool) : M Unit := do
  let x ← getStrm u
  holdIf (decide (32 ≤ x.log.length) || x.acqBlocked || (store && x.relBlocked)) .busy

/-- Hold while an unperformed access of this stream may touch the same bytes (R177). -/
def needOrder (u : Cur) (va n : Nat) : M Unit := do
  holdIf ((← getStrm u).log.any (fun e => e.ranges.any (fun r => mayOverlap r.1 r.2 va n))) .busy

/-- Hold until every access of the stream is performed (R177, R178). -/
def needLogEmpty (u : Cur) : M Unit := do holdIf (!(← getStrm u).log.isEmpty) .busy

/-- Hold until every load of the stream has returned (R195). -/
def needLoads (u : Cur) : M Unit := do holdIf ((← getStrm u).log.any (fun e => e.op.loads)) .busy

/-- A new entry of the operand log for the issuing instruction, with what it has popped (R373). -/
def newEntry (u : Cur) (scope : Scope) (op : LogOp) : M LogEnt := do
  let s ← get
  let (id, s) := s.newId
  set s
  pure { id := id, pc := u.pc, word := u.word, lit := u.lit, repk := u.repk, scope := scope, op := op, fills := [],
         row := s.cur.bind (·.poppedRow), pops := (s.cur.map (·.pops)).getD [] }

/-- Put an entry in the operand log. -/
def appendLog (u : Cur) (e : LogEnt) : M Unit := modStrm u (fun x => { x with log := x.log ++ [e] })

/-- Put an access in the operand log, to be performed later in any order (R175, R373). -/
def putLog (u : Cur) (e : LogEnt) : M Unit := do
  appendLog u e
  modify (fun s => s.postOnce (s.now + 1) (.memoryAccessPerformed u.core u.strm))

/-- Put an access in the operand log whose fault has become known: the instruction has issued, and its late fault is taken in this cycle
(R373, R374). -/
def putLate (u : Cur) (e : LogEnt) : M Unit := do
  appendLog u e
  modify (fun s => s.postOnce s.now (.lateFault u.core u.strm))

/-- Make an access, or leave its entry in the log where it faults: what a fault found so far is taken back, and found again when the
late fault is taken. -/
def orLate (f : State → State × Except AccFault α) (late : M Unit) (go : α → M Unit) : M Unit := do
  match f (← get) with
  | (s, .ok a) => do
    set s
    go a
  | (_, .error _) => late

/-- The entry of a scalar result that is still to come: its queue entries are reserved (R99), its register is written when it comes. -/
def reserveScalar (u : Cur) (d : Dest) (e : LogEnt) : M LogEnt := do
  modJob u (fun j => j.pushAll u.strm d (.resv e.id))
  pure { e with fills := (destStrms d).map (qNum u.strm), reg := d.reg }

/-- The entry of a row that is still to come to the vector queue. -/
def reserveRow (u : Cur) (push : Bool) (e : LogEnt) : M LogEnt := do
  modJob u (fun j => j.pushRow u.strm { reg := none, qs := if push then 0x10 else 0 } (.resv e.id))
  pure { e with fills := if push then [vqNum u.strm] else [] }

/-- A free choice: is an access that nothing waits for performed later than its issue (R175, log entry 9)? -/
def chooseDefer : M Bool := do
  let s ← get
  let (b, s) := s.drawBit
  set s
  pure b

/-- Fill the entries reserved by an identifier in the scalar queues (R99). -/
def Job.fillQ (j : Job) (id : Nat) (w : Word) : Job :=
  { j with q := j.q.map (fun e => (e.1, e.2.map (fun v => if v = .resv id then .full w else v))) }

/-- Fill the entries reserved by an identifier in the vector queues. -/
def Job.fillV (j : Job) (id : Nat) (r : Row) : Job :=
  { j with vqLd := j.vqLd.map (fun v => if v = .resv id then .full r else v),
           vqCx := j.vqCx.map (fun v => if v = .resv id then .full r else v) }

/-- The lanes of a packed run of bytes (R57, R65, R161). -/
def rowOfBytes (f : MFmt) (lw : Bool) (bs : List Byte) : Row :=
  let bits := leNat bs
  rowOf lw ((List.range (laneN lw)).map (fun i => f.load lw (elemAt bits f.width i)))

/-- The lanes of gathered elements, each from its own bytes (R162). -/
def rowOfElems (f : MFmt) (lw : Bool) (es : List (List Byte)) : Row :=
  rowOf lw (es.map (fun bs => f.load lw (leNat bs % 2 ^ f.width)))

/-- A row of which some bytes are uncorrectable: with `zf` the elements that hold them read as zero (R158, R162). -/
def rowOfMarked (f : MFmt) (lw : Bool) (bs : List (Byte × Bool)) : Row :=
  let bits := leNat (bs.map (·.1))
  let w := f.width
  let bad := fun i => (List.range ((w * i + w - 1) / 8 - w * i / 8 + 1)).any (fun k => ((bs[w * i / 8 + k]?).map (·.2)).getD false)
  rowOf lw ((List.range (laneN lw)).map (fun i => if bad i then 0 else f.load lw (elemAt bits w i)))

/-- Write a scalar or predicate register of a stream. -/
def Stream.putReg (x : Stream) (r : Reg) (w : Word) : Stream :=
  match r with
  | .s n => x.setS n.toNat w
  | .a n => x.setA n.toNat w
  | .p n => x.setPred n (w != 0)
  | _ => x

/-- Write the register that an entry names, if it names one. -/
def Stream.putRegOf (x : Stream) (r : Option Reg) (w : Word) : Stream :=
  match r with
  | some g => x.putReg g w
  | none => x

/-- An access of a load of a job: its bytes, or its fault; an uncorrectable byte is one unless it is to read as zero (R158). -/
def State.goodLoad (s : State) (c : Nat) (x : Strm) (a : Area) (n : Nat) (scope : Scope) (zf : Bool) :
    State × Except AccFault (List (Byte × Bool)) :=
  match s.loadArea c x a n scope with
  | (s, .error f) => (s, .error f)
  | (s, .ok bs) =>
    match firstBad a.va bs with
    | some v => if zf && decide (0x2000000 ≤ a.va) then (s, .ok bs) else (s.poisonError c (s.jobAt c).ctx v 2, .error (poisonFault v))
    | none => (s, .ok bs)

/-- Several loads in order. -/
def State.goodLoads (c : Nat) (x : Strm) (n : Nat) (scope : Scope) (zf : Bool) :
    List Area → State → State × Except AccFault (List (List (Byte × Bool)))
  | [], s => (s, .ok [])
  | a :: as, s =>
    match s.goodLoad c x a n scope zf with
    | (s, .error f) => (s, .error f)
    | (s, .ok bs) =>
      match State.goodLoads c x n scope zf as s with
      | (s, .error f) => (s, .error f)
      | (s, .ok l) => (s, .ok (bs :: l))

/-- Uncorrectable bytes of a load under `.zfill`: p7 is set and an error record written (R158). -/
def State.noteZero (s : State) (c : Nat) (x : Strm) (va : Nat) (bs : List (Byte × Bool)) : State :=
  match firstBad va bs with
  | some v => (s.modStrm c x (fun y => y.setPred 7 true)).poisonError c (s.jobAt c).ctx v 1
  | none => s

/-- The value of loaded bytes, least significant first (R3); 0 where one of them is uncorrectable (R158). -/
def goodWord (bs : List (Byte × Bool)) : Word := if bs.any (·.2) then 0 else BitVec.ofNat 64 (leNat (bs.map (·.1)))

/-- The row of marked bytes: an element that holds an uncorrectable byte is zero (R158, R161). -/
def goodRow (f : MFmt) (lw : Bool) (bs : List (Byte × Bool)) : Row :=
  if bs.any (·.2) then rowOfMarked f lw bs else rowOfBytes f lw (bs.map (·.1))

/-- The row of gathered elements, each from its own bytes (R158, R162). -/
def goodElems (f : MFmt) (lw : Bool) (l : List (List (Byte × Bool))) : Row :=
  rowOf lw (l.map (fun bs => if bs.any (·.2) then 0 else f.load lw (leNat (bs.map (·.1)) % 2 ^ f.width)))

/-- The DB bytes of a range of one line are written back, and their VB cleared (R199). -/
def State.l1Flush (s : State) (c : Nat) (un : SendUnit) (pa n : Nat) : State :=
  match s.l1Find c (pa / 128 * 128) with
  | none => s
  | some l =>
    let m : BitVec 128 := BitVec.ofNat 128 ((2 ^ n - 1) <<< (pa % 128))
    let l' := { l with vb := l.vb &&& ~~~m, db := l.db &&& ~~~m }
    let s := s.modCore c (fun k => { k with l1 := k.l1.map (fun x => if x.pa = l.pa then l' else x) })
    if l.db &&& m = 0 then s
    else (s.sendLine c un l.pa ({ l with db := l.db &&& m }).dirty l.ctx).countCore c 0x0009 (qualAny 1)

/-- The effect of an atomic on the old bytes: the new value. -/
abbrev AtomicFn := Nat → Nat

/-- An atomic at its home: the requests it must follow are applied, then it reads and writes in one step (R174, R199). The
fault of an uncorrectable line comes before the write. The old bytes. -/
def State.atomicHome (s : State) (c : Nat) (x : Strm) (va pa n : Nat) (f : AtomicFn) : State × Except AccFault Nat :=
  let j := s.jobAt c
  let asid := ((s.ctx? j.ctx).map (·.asid)).getD 0
  let s := s.l1Flush c (strmNum x) pa n
  let (s, bs, clk, bad) := s.homeRead (coreDie c) c (paKey pa) (paLocal pa) n j.ctx asid
  if bad then (s.lineError 2 (paLocal pa) va j.ctx, .error (poisonFault va))
  else
    let m := leNat bs
    let s := s.homeWriteLine (paKey pa) (paLocal pa) (fullMask (leBytes (f m) n)) j.ctx asid
    ((s.joinLine (paLocal pa) (s.die (coreDie c)).clock).noteSeen c x clk, .ok m)

/-- The result of AFADD on an old element: the exact sum rounded finally, with its flags (R199). -/
def afaddRes (f : MFmt) (r : Rnd) (draw : Nat) (m d : Nat) : Nat × Flg :=
  let x := (imgVal false (f.load false m)).add (imgVal false d)
  let v := finalRound f (.flt x.1 (imgStk false d)) r draw
  (v.1, v.2 ||| flgIf x.2 flgNV)

/-- The format of an AFADD (R198). -/
def afFmt (fmt : Nat) : MFmt := (stdFmt fmt).getD (.img false)

/-- The new value of an atomic from the old, by its SUB (R198). -/
def atomicNew (sub fmt : Nat) (rnd : Rnd) (n : Nat) (d cmp : Word) (draw m : Nat) : Nat :=
  let w := 8 * n
  let x : BitVec w := BitVec.ofNat w m
  let y : BitVec w := BitVec.ofNat w d.toNat
  match sub with
  | 0 => (x + y).toNat
  | 1 => (if y.slt x then y else x).toNat
  | 2 => (if x.slt y then y else x).toNat
  | 3 => (x &&& y).toNat
  | 4 => (x ||| y).toNat
  | 5 => (x ^^^ y).toNat
  | 6 => y.toNat
  | 7 => if m = cmp.toNat % 2 ^ w then y.toNat else m
  | _ => (afaddRes (afFmt fmt) rnd draw m (w36 d)).1

/-- What an atomic delivers of the old value (R199). -/
def atomicOld (sub fmt m : Nat) : Word := if sub = 8 then wordOfImg ((afFmt fmt).load false m) else BitVec.ofNat 64 m

/-- The flags of an atomic (R199). -/
def atomicFlags (sub fmt : Nat) (rnd : Rnd) (d : Word) (draw m : Nat) : Flg :=
  if sub = 8 then (afaddRes (afFmt fmt) rnd draw m (w36 d)).2 else 0

/-- An entry leaves the log (R373): a result goes to its register now and to its reserved queue entries as they are filled; the acquire of
an LDA follows. -/
def State.logDone (s : State) (c : Nat) (x : Strm) (e : LogEnt) (r : Option (Word ⊕ Row)) : State :=
  let s := match r with
    | some (.inl w) => s.modStrm c x (fun v =>
        { v.putRegOf e.reg w with returned := v.returned ++ [(s.now, e.id, Sum.inl w)] })
    | some (Sum.inr row) => s.modStrm c x (fun v => { v with returned := v.returned ++ [(s.now, e.id, Sum.inr row)] })
    | none => s
  let s := s.modStrm c x (fun v => { v with log := v.log.filter (fun y => y.id != e.id) })
  match e.acq with
  | some scope => s.acquire c x scope false
  | none => s

/-- One step of a logged atomic on another module (R199): the bytes its core holds are written back and the request leaves; the reply is its
acknowledgement, and what it brings is open (log entry 15). -/
def State.atomicRemote (s : State) (c : Nat) (x : Strm) (e : LogEnt) (pa n sub fmt : Nat) (rnd : Rnd) (d cmp : Word) (draw : Nat) : State :=
  match e.sent with
  | none =>
    let s := s.l1Flush c (strmNum x) pa n
    let (id, s) := s.sendOut c (s.jobAt c).ctx pa (.atomic sub fmt rnd n d cmp)
    s.modStrm c x (fun v => { v with log := v.log.map (fun y => if y.id = e.id then { y with sent := some id } else y) })
  | some id =>
    if s.remote.any (fun o => o.id == id) then s
    else
      let m := leNat ((List.range n).map (fun i => Config.freeByte (s.free + i)))
      let s : State := { s with free := s.free + n }
      (s.orAsrAt c x (atomicFlags sub fmt rnd d draw m)).logDone c x e (some (.inl (atomicOld sub fmt m)))

/-- Perform one logged access (R374): the fault it meets, or the state with its effect; an atomic on another module takes one step. -/
def State.performLog (s : State) (c : Nat) (x : Strm) (e : LogEnt) : State × Except AccFault Unit :=
  match e.op with
  | .ld a n =>
    match s.goodLoad c x (areaAt a) n e.scope e.zf with
    | (s, .error f) => (s, .error f)
    | (s, .ok bs) => ((s.noteZero c x a bs).logDone c x e (some (.inl (goodWord bs))), .ok ())
  | .vld as packed fmt desc lw =>
    let f := (fmtOf (fun _ => desc) fmt).getD (.img false)
    let n := if packed then runBytes f.width (laneN lw) else runBytes f.width 1
    match State.goodLoads c x n e.scope e.zf (as.map areaAt) s with
    | (s, .error g) => (s, .error g)
    | (s, .ok l) =>
      let s := (as.zip l).foldl (fun s p => s.noteZero c x p.1 p.2) s
      (s.logDone c x e (some (.inr (if packed then goodRow f lw l.flatten else goodElems f lw l))), .ok ())
  | .st ps =>
    match s.storeAll c (strmNum x) e.scope (ps.map (fun p => (areaAt p.addr, p.bytes))) with
    | (s, .error g) => (s, .error g)
    | (s, .ok _) => (s.logDone c x e none, .ok ())
  | .atomic a n sub fmt rnd d cmp draw =>
    if e.sent.isSome then (s.atomicRemote c x e 0 n sub fmt rnd d cmp draw, .ok ())
    else
      match s.translateRange c (s.jobAt c).ctx a n .rw with
      | (s, .error g) => (s, .error g)
      | (s, .ok ps) =>
        let pa := (ps.headD (0, 0)).1
        if paMod pa = s.ownMod then
          match s.atomicHome c x a pa n (atomicNew sub fmt rnd n d cmp draw) with
          | (s, .error g) => (s, .error g)
          | (s, .ok m) =>
            ((s.orAsrAt c x (atomicFlags sub fmt rnd d draw m)).logDone c x e (some (.inl (atomicOld sub fmt m))), .ok ())
        else (s.atomicRemote c x e pa n sub fmt rnd d cmp draw, .ok ())
  | .gst _ => (s, .ok ())
  | .held => (s, .ok ())

/-! ### Draws (R71, R234 to R236) -/

/-- n draws of `by_` bytes of the bay's noise source, in grants of up to 256 (R234): the grant that stands for this stream is taken, or one
is asked for and the slot held; the draws of earlier grants stand in the stream. -/
def grantDraws (u : Cur) (n by_ : Nat) : M (List Nat) := do
  let s ← get
  let b := coreBay u.core
  if (s.bay b).noiseGrant = some (8 * (u.core % 4) + strmNum u.strm) then
    let old := (s.strmAt u.core u.strm).drawn
    if old.length + 256 < n then askFor (.moreNoise by_) .draw
    else
      let (s, ds) := (s.modBay b (fun y => { y with noiseGrant := none })).sourceDraws b (n - old.length) by_
      set (s.modStrm u.core u.strm (fun x => { x with drawn := [] }))
      pure (old ++ ds)
  else askFor .noise .draw

/-- The mode of a stream's draw ring (R235): fresh, log, replay, or an illegal setting. -/
def ringMode (rngc : Word) : Nat := rngc.toNat % 4

/-- n draws of `by_` bytes (2 or 4) for the issuing stream by the mode of its ring (R236). In fresh and log modes a grant
of the source has to stand; the ring's translations and loads are made before any effect. -/
def takeDraws (u : Cur) (n by_ : Nat) : M (List Nat) := do
  let x ← getStrm u
  let mode := ringMode x.rngc
  if n = 0 then pure []
  else if mode = 0 then grantDraws u n by_
  else
    let sz := x.rngc.toNat / 4 % 32
    trapIf (decide (mode = 3 ∨ sz < 12 ∨ 30 < sz)) (illegal9 11)
    let base := x.rngc.toNat / 4096 % 2 ^ 44 * 4096
    let pos := x.rngp.toNat / 2 % 2 ^ 29 * 2 % 2 ^ sz
    let len := n * by_
    let first := min len (2 ^ sz - pos)
    let parts := (if first < len then [(base + pos, first), (base, len - first)] else [(base + pos, len)])
    let pos' := (pos + len) % 2 ^ sz
    for p in parts do
      needOrder u p.1 p.2
    if mode = 1 then
      let pss ← liftF (State.placesAll u.core .store (parts.map (fun p => (.trans p.1, p.2))))
      let ds ← grantDraws u n by_
      let bs := fullMask (ds.flatMap (fun d => leBytes d by_))
      let ctx ← getCtx u
      modify (fun s => s.storePieces u.core (strmNum u.strm) ctx .strm pss.flatten bs)
      modStrm u (fun x => { x with rngp := BitVec.ofNat 64 pos' })
      pure ds
    else
      let l ← liftF (fun s => parts.foldl (fun (r : State × Except AccFault (List (Byte × Bool))) p =>
        match r with
        | (s, .error e) => (s, .error e)
        | (s, .ok l) =>
          match s.goodLoad u.core u.strm (.trans p.1) p.2 .strm false with
          | (s, .error e) => (s, .error e)
          | (s, .ok bs) => (s, .ok (l ++ bs))) (s, .ok []))
      modStrm u (fun x => { x with rngp := BitVec.ofNat 64 pos' })
      let bits := leNat (l.map (·.1))
      pure ((List.range n).map (fun i => elemAt bits (8 * by_) i))

end Sys2Proof.Machine
end

