-- ==== Sys2Proof/Machine/Scalar.lean ====
section
/-!
DEFINITION. The scalar integer and floating-point instructions, majors 0x10 to 0x14 (R106 to R115).
-/

namespace Sys2Proof.Machine

/-! ### Shared forms -/

/-- The body of an integer instruction with two sources: space, sources, pops, the operation, delivery (R40, R99, R107). -/
def intBody (o : ROps) (f : Word → Word → Except Trap Word) (u : Cur) : M Unit := do
  needSpace u o.d
  ensure u [.scalar o.a, .scalar o.b]
  let x ← readScalar u o.a
  let y ← readScalar u o.b
  match f x y with
  | .error t => raiseTrap t
  | .ok r => deliver u o.d r

/-- An integer instruction that cannot trap. -/
def intOp (o : ROps) (f : Word → Word → Word) (s : State) : Host.Outcome State Fault Refusal :=
  issueNext o.g (intBody o (fun x y => .ok (f x y))) s

/-- A division: a zero divisor traps after the pops (R107). -/
def divOp (o : ROps) (f : Word → Word → Word) (s : State) : Host.Outcome State Fault Refusal :=
  issueNext o.g (intBody o (fun x y => if y = 0 then .error { cause := 0x13 } else .ok (f x y))) s

/-- The body of an integer instruction that reads DST as a third source (R106). -/
def intDstBody (o : ROps) (f : Word → Word → Word → Word) (u : Cur) : M Unit := do
  needSpace u o.d
  ensure u [.scalar o.a, .scalar o.b, .scalar (destSrc o.d)]
  let x ← readScalar u o.a
  let y ← readScalar u o.b
  let d ← readDst u o.d
  deliver u o.d (f x y d)

/-- The body of an instruction with one source (R106). -/
def oneBody (o : ROps1) (f : Word → Word) (u : Cur) : M Unit := do
  needSpace u o.d
  ensure u [.scalar o.a]
  let x ← readScalar u o.a
  deliver u o.d (f x)

/-! ### Major 0x10 (R107) -/

/-- Signed quotient truncated toward zero; −2^63 by −1 is −2^63. -/
def wdiv (x y : Word) : Word := BitVec.ofInt 64 (x.toInt.tdiv y.toInt)

/-- Signed remainder with the sign of the dividend; −2^63 by −1 is 0. -/
def wrem (x y : Word) : Word := BitVec.ofInt 64 (x.toInt.tmod y.toInt)

/-- Bits 127 to 64 of the signed product. -/
def wmulh (x y : Word) : Word := BitVec.ofInt 64 (x.toInt * y.toInt / 2 ^ 64)

/-- Bits 127 to 64 of the unsigned product. -/
def wmulhu (x y : Word) : Word := BitVec.ofNat 64 (x.toNat * y.toNat / 2 ^ 64)

/-- ADD (R107). -/
def execAdd (o : ROps) (s : State) : Host.Outcome State Fault Refusal := intOp o (fun x y => x + y) s

/-- SUB (R107). -/
def execSub (o : ROps) (s : State) : Host.Outcome State Fault Refusal := intOp o (fun x y => x - y) s

/-- MUL: low 64 bits (R107). -/
def execMul (o : ROps) (s : State) : Host.Outcome State Fault Refusal := intOp o (fun x y => x * y) s

/-- MULH (R107). -/
def execMulh (o : ROps) (s : State) : Host.Outcome State Fault Refusal := intOp o wmulh s

/-- MULHU (R107). -/
def execMulhu (o : ROps) (s : State) : Host.Outcome State Fault Refusal := intOp o wmulhu s

/-- DIV (R107). -/
def execDiv (o : ROps) (s : State) : Host.Outcome State Fault Refusal := divOp o wdiv s

/-- DIVU (R107). -/
def execDivu (o : ROps) (s : State) : Host.Outcome State Fault Refusal := divOp o (fun x y => x.udiv y) s

/-- REM (R107). -/
def execRem (o : ROps) (s : State) : Host.Outcome State Fault Refusal := divOp o wrem s

/-- REMU (R107). -/
def execRemu (o : ROps) (s : State) : Host.Outcome State Fault Refusal := divOp o (fun x y => x.umod y) s

/-- MADD: d + a × b, low 64 bits (R107). -/
def execMadd (o : ROps) (s : State) : Host.Outcome State Fault Refusal :=
  issueNext o.g (intDstBody o (fun x y d => d + x * y)) s

/-- LEA: a + (b << N); no translation or protection check (R107). -/
def execLea (o : ROps) (sh : BitVec 4) (s : State) : Host.Outcome State Fault Refusal :=
  intOp o (fun x y => x + (y <<< sh.toNat)) s

/-! ### Major 0x11 (R108) -/

/-- The shift amount b[5:0]. -/
def shAmt (y : Word) : Nat := y.toNat % 64

/-- Leading zeros, 0 to 64. -/
def wclz (x : Word) : Word := if x = 0 then 64 else BitVec.ofNat 64 (63 - Nat.log2 x.toNat)

/-- Number of set bits. -/
def wpopc (x : Word) : Word := BitVec.ofNat 64 (popCount 64 x.toNat)

/-- L bits of a from bit s on (BEXT). -/
def wbext (len : Nat) (x y : Word) : Word := BitVec.ofNat 64 (x.toNat >>> shAmt y % 2 ^ len)

/-- d with L bits from bit s on replaced by the low bits of a (BINS). -/
def wbins (len : Nat) (x y d : Word) : Word :=
  let s := shAmt y
  let m : Word := BitVec.ofNat 64 ((2 ^ len - 1) * 2 ^ s)
  (d &&& ~~~m) ||| (BitVec.ofNat 64 (x.toNat % 2 ^ len * 2 ^ s) &&& m)

/-- AND (R108). -/
def execAnd (o : ROps) (s : State) : Host.Outcome State Fault Refusal := intOp o (fun x y => x &&& y) s

/-- OR (R108). -/
def execOr (o : ROps) (s : State) : Host.Outcome State Fault Refusal := intOp o (fun x y => x ||| y) s

/-- XOR (R108). -/
def execXor (o : ROps) (s : State) : Host.Outcome State Fault Refusal := intOp o (fun x y => x ^^^ y) s

/-- ANDN: a AND NOT b (R108). -/
def execAndn (o : ROps) (s : State) : Host.Outcome State Fault Refusal := intOp o (fun x y => x &&& ~~~y) s

/-- SHL (R108). -/
def execShl (o : ROps) (s : State) : Host.Outcome State Fault Refusal := intOp o (fun x y => x <<< shAmt y) s

/-- SHR: unsigned (R108). -/
def execShr (o : ROps) (s : State) : Host.Outcome State Fault Refusal := intOp o (fun x y => x >>> shAmt y) s

/-- SRA: sign-filled (R108). -/
def execSra (o : ROps) (s : State) : Host.Outcome State Fault Refusal := intOp o (fun x y => x.sshiftRight (shAmt y)) s

/-- ROT: rotated left (R108). -/
def execRot (o : ROps) (s : State) : Host.Outcome State Fault Refusal := intOp o (fun x y => x.rotateLeft (shAmt y)) s

/-- CLZ (R108). -/
def execClz (o : ROps1) (s : State) : Host.Outcome State Fault Refusal := issueNext o.g (oneBody o wclz) s

/-- POPC (R108). -/
def execPopc (o : ROps1) (s : State) : Host.Outcome State Fault Refusal := issueNext o.g (oneBody o wpopc) s

/-- BEXT (R108). -/
def execBext (o : ROps) (len : BitVec 7) (s : State) : Host.Outcome State Fault Refusal := intOp o (wbext len.toNat) s

/-- BINS: reads DST (R108). -/
def execBins (o : ROps) (len : BitVec 7) (s : State) : Host.Outcome State Fault Refusal :=
  issueNext o.g (intDstBody o (wbins len.toNat)) s

/-! ### Majors 0x12 and 0x13 (R109, R110) -/

/-- MIN: the lesser, signed (R109). -/
def execMin (o : ROps) (s : State) : Host.Outcome State Fault Refusal := intOp o (fun x y => if y.slt x then y else x) s

/-- MAX: the greater, signed (R109). -/
def execMax (o : ROps) (s : State) : Host.Outcome State Fault Refusal := intOp o (fun x y => if x.slt y then y else x) s

/-- MINU (R109). -/
def execMinu (o : ROps) (s : State) : Host.Outcome State Fault Refusal := intOp o (fun x y => if y.ult x then y else x) s

/-- MAXU (R109). -/
def execMaxu (o : ROps) (s : State) : Host.Outcome State Fault Refusal := intOp o (fun x y => if x.ult y then y else x) s

/-- SEL: a if the predicate, negated where `neg`, holds at issue, else b (R109). -/
def execSel (o : ROps) (neg : Bool) (p : BitVec 3) (s : State) : Host.Outcome State Fault Refusal :=
  issueNext o.g (fun u => do
    let c ← readPred u p
    intBody o (fun x y => .ok (if c != neg then x else y)) u) s

/-- MOV: the source in SRCB (R109). -/
def execMov (g : Guard) (d : Dest) (b : Src) (s : State) : Host.Outcome State Fault Refusal :=
  issueNext g (oneBody { g := g, d := d, a := b } id) s

/-- An integer comparison (R110). -/
def intCmp (c : Cond) (x y : Word) : Bool :=
  match c with
  | .ltu => x.ult y
  | .leu => x.ule y
  | .gtu => y.ult x
  | .geu => y.ule x
  | k => condHolds k (compare x.toInt y.toInt)

/-- CMP: a predicate, and 1 or 0 to each queue (R110). -/
def execCmp (o : ROps) (c : Cond) (s : State) : Host.Outcome State Fault Refusal :=
  intOp o (fun x y => if intCmp c x y then 1 else 0) s

/-! ### Major 0x14 (R111 to R115) -/

/-- The body of a floating-point instruction with two sources (R111, R112). -/
def fltBody (o : ROps) (f : Nat → Nat → Nat × Flg) (u : Cur) : M Unit := do
  needSpace u o.d
  ensure u [.scalar o.a, .scalar o.b]
  let x ← readFloat u o.a
  let y ← readFloat u o.b
  let r := f x y
  setFlags u r.2
  deliver u o.d (wordOfImg r.1)

/-- A floating-point instruction with two sources. -/
def fltOp (o : ROps) (f : Nat → Nat → Nat × Flg) (s : State) : Host.Outcome State Fault Refusal :=
  issueNext o.g (fltBody o f) s

/-- FADD (R112). -/
def execFadd (o : ROps) (s : State) : Host.Outcome State Fault Refusal := fltOp o (fltAdd false) s

/-- FSUB (R112). -/
def execFsub (o : ROps) (s : State) : Host.Outcome State Fault Refusal := fltOp o (fltSub false) s

/-- FMUL (R112). -/
def execFmul (o : ROps) (s : State) : Host.Outcome State Fault Refusal := fltOp o (fltMul false) s

/-- FFMA: one rounding; reads DST (R112). -/
def execFfma (o : ROps) (s : State) : Host.Outcome State Fault Refusal :=
  issueNext o.g (fun u => do
    needSpace u o.d
    ensure u [.scalar o.a, .scalar o.b, .scalar (destSrc o.d)]
    let x ← readFloat u o.a
    let y ← readFloat u o.b
    let d ← readDst u o.d
    let r := fltFma false x y (w36 d)
    setFlags u r.2
    deliver u o.d (wordOfImg r.1)) s

/-- FMIN (R112, R83). -/
def execFmin (o : ROps) (s : State) : Host.Outcome State Fault Refusal := fltOp o (fun x y => (fltMinMax false false x y, 0)) s

/-- FMAX (R112, R83). -/
def execFmax (o : ROps) (s : State) : Host.Outcome State Fault Refusal := fltOp o (fun x y => (fltMinMax true false x y, 0)) s

/-- FCMP: by R82, delivered as CMP's result is (R113). -/
def execFcmp (o : ROps) (c : Cond) (x : Bool) (s : State) : Host.Outcome State Fault Refusal :=
  issueNext o.g (fun u => do
    needSpace u o.d
    ensure u [.scalar o.a, .scalar o.b]
    let a ← readFloat u o.a
    let b ← readFloat u o.b
    deliverBool u o.d (fltCmp false c x a b)) s

/-- The trap 0x0D of a format code read by an instruction (R56, R61, R368): where it was read, and the entry. -/
def fmtTrap (code place entry : Nat) : Trap := { cause := 0x0D, detail := BitVec.ofNat 64 (code + 32 * place + 256 * entry) }

/-- The trap 0x09 of a final store (R75, R368). -/
def precTrap (code : Nat) (w18 : Bool) : Trap := { cause := 0x09, detail := BitVec.ofNat 64 (code + 32 * w18.toNat) }

/-- The format of a code for the issuing job, or trap 0x0D (R56, R61). -/
def getFmt (u : Cur) (code : Nat) : M MFmt := do
  let j ← getJob u
  match fmtOf (fun i => tget 0 j.fd i) code with
  | some f => pure f
  | none => raiseTrap (fmtTrap code 0 0)

/-- The precision check of a final store of a float source (R75, R76). -/
def needPrec (lw : Bool) (f : MFmt) (code : Nat) : M Unit := trapIf (!precisionOk lw f) (precTrap code lw)

/-- One draw of 16 bits where the mode is stochastic (R71). -/
def drawFor (u : Cur) (r : Rnd) : M Nat :=
  if r = .rsto then do return (← takeDraws u 1 2).headD 0 else pure 0

/-- A float rounded to an integer by R70 with q = 1 and saturated to bounds, with NV for a NaN or a value outside (R114). -/
def fltToInt (x : XVal) (r : Rnd) (draw : Nat) (lo hi : Int) : Int × Flg :=
  match x with
  | .nan => (0, flgNV)
  | .inf s => (if s then lo else hi, flgNV)
  | .fin s m e =>
    let n : Int := (roundAt r draw s m e 0).1
    let v := if s then -n else n
    (max lo (min hi v), flgIf (decide (v < lo ∨ hi < v)) flgNV)

/-- FCVT (R114). DEDUCED (log entry 77): `.frommem` of an integer format delivers the W36 image of the integer interpretation, as R65
puts integer elements into it. -/
def execFcvt (o : ROps1) (k : CvtKind) (s : State) : Host.Outcome State Fault Refusal :=
  issueNext o.g (fun u => do
    needSpace u o.d
    match k with
    | .itof =>
      ensure u [.scalar o.a]
      let x ← readScalar u o.a
      deliver u o.d (wordOfImg (w36OfInt x.toInt))
    | .utof =>
      ensure u [.scalar o.a]
      let x ← readScalar u o.a
      deliver u o.d (wordOfImg (w36OfInt x.toNat))
    | .ftoi r =>
      ensure u [.scalar o.a]
      let d ← drawFor u r
      let x ← readFloat u o.a
      let v := fltToInt (imgVal false x) r d (-(2 ^ 63)) (2 ^ 63 - 1)
      setFlags u v.2
      deliver u o.d (BitVec.ofInt 64 v.1)
    | .ftou r =>
      ensure u [.scalar o.a]
      let d ← drawFor u r
      let x ← readFloat u o.a
      let v := fltToInt (imgVal false x) r d 0 (2 ^ 64 - 1)
      setFlags u v.2
      deliver u o.d (BitVec.ofInt 64 v.1)
    | .tomem c r =>
      let f ← getFmt u c.toNat
      needPrec false f c.toNat
      ensure u [.scalar o.a]
      let d ← drawFor u r
      let x ← readFloat u o.a
      let v := storeLane f false false x r d
      setFlags u v.2
      deliver u o.d (BitVec.ofNat 64 v.1)
    | .frommem c =>
      let f ← getFmt u c.toNat
      ensure u [.scalar o.a]
      let x ← readScalar u o.a
      let b := x.toNat % 2 ^ f.width
      deliver u o.d (wordOfImg (f.load false b))) s

/-- FRND: a float rounded to an integral value; STK is set if it changes, and no flag (R115). -/
def frndImg (x : Nat) (r : Rnd) (draw : Nat) : Nat :=
  let stk := imgStk false x
  match imgVal false x with
  | .nan => nanImg false stk
  | .inf _ => x
  | .fin s m e =>
    if m = 0 then x
    else
      let n := roundAt r draw s m e 0
      roundOdd false (.fin s n.1 0) (stk || n.2)

/-- FRND (R115). -/
def execFrnd (o : ROps1) (r : Rnd) (s : State) : Host.Outcome State Fault Refusal :=
  issueNext o.g (fun u => do
    needSpace u o.d
    ensure u [.scalar o.a]
    let d ← drawFor u r
    let x ← readFloat u o.a
    deliver u o.d (wordOfImg (frndImg x r d))) s

end Sys2Proof.Machine
end

