-- ==== Sys2Proof/Machine/Control.lean ====
section
/-!
DEFINITION. Control: majors 0x00 to 0x03, the rendezvous and the system registers (R116, R117, R121 to R136, R235, R264, R266, R284, R379, R380, R428, R435, R436, R439).
-/

namespace Sys2Proof.Machine

/-! ### Major 0x00 (R133) -/

/-- NOP (R133). -/
def execNop (g : Guard) (s : State) : Host.Outcome State Fault Refusal := issueNext g (fun _ => pure ()) s

/-- TRAP: raises 0x10 with the value of source B in DETAIL (R133, R372). -/
def execTrap (g : Guard) (b : Src) (s : State) : Host.Outcome State Fault Refusal :=
  issueNext g (fun u => do
    ensure u [.scalar b]
    let v ← readScalar u b
    raiseTrap { cause := 0x10, detail := v }) s

/-- BKPT: raises 0x11 (R133, R372). -/
def execBkpt (g : Guard) (s : State) : Host.Outcome State Fault Refusal :=
  issueNext g (fun _ => raiseTrap { cause := 0x11 }) s

/-- YIELD: acts only in a cooperative context with a pre-empt request pending, and then continues at the save address of
pair n of the stream's yield table (R133, R379). -/
def execYield (g : Guard) (n : BitVec 3) (s : State) : Host.Outcome State Fault Refusal :=
  issue g (fun u => do
    let s ← get
    let j := s.jobAt u.core
    let acts := match s.ctx? j.ctx with
      | some x => x.coop && x.yieldBy.isSome
      | none => false
    if !acts then pure .next
    else
      let x ← getStrm u
      let a := (x.entry.toNat : Int) - 128 + 16 * n.toNat
      let ar ← areaOf u a 16 1 false
      let bs ← liftF (fun s => s.loadArea u.core u.strm ar 16 .strm)
      match firstBad ar.va bs with
      | some v => raisePoison u v
      | none =>
        let save := leNat ((bs.take 8).map (·.1))
        trapIf (save == 0) (illegal9 7)
        let back := leNat ((bs.drop 8).map (·.1))
        modStrm u (fun x => { x with yielded := some (BitVec.ofNat 56 (back / 4 * 4)) })
        pure (.goto (BitVec.ofNat 56 (save / 4 * 4)))) s

/-- May a job whose streams have all exited stop as yielded (R380)? -/
def State.yieldClean (s : State) (c : Nat) : Bool :=
  let j := s.jobAt c
  j.q.all (fun e => e.2.isEmpty) && j.vqLd.isEmpty && j.vqCx.isEmpty
    && allStrms.all (fun x => (j.strm x).log.isEmpty)
    && (s.bay (coreBay c)).holder != some (c % 4) && !j.co
    && j.ce.chains.isEmpty && (s.core c).frags.isEmpty
    && j.t.all (fun e => e.2.done == e.2.iss)

/-- The chunk of a job returns to its record, to be placed again. -/
def State.returnChunk (s : State) (rid : Nat) (l : Launch) : State :=
  s.modRec rid (fun r => { r with running := r.running.filter (fun e => e.1 != l.chunk), returned := r.returned ++ [l] })

/-- The pre-empt request of a cooperative context is satisfied once none of its jobs runs (R381). -/
def State.settleYield (s : State) (ctx : Nat) : State :=
  if s.ctxRuns ctx then s else s.modCtx ctx (fun x => { x with yieldBy := none })

/-- Have the streams of a job all exited, with a yielded bit set (R380)? -/
def Job.allYielded (j : Job) : Bool :=
  allStrms.all (fun x => (j.strm x).exited) && allStrms.any (fun x => (j.strm x).yielded.isSome)

/-- A job stops as yielded: its chunk returns to the pool with its yielded bits (R380). -/
def State.yieldStop (s : State) (c : Nat) : State :=
  let j := s.jobAt c
  let l : Launch := { rid := j.rid, chunk := j.chunk, args := [], yielded := some (allStrms.map (fun x => (j.strm x).yielded)),
                      core := some c }
  (((s.returnChunk j.rid l).leaveGang c j.rid).clearJob c).settleYield j.ctx

/-- The last EXIT of a job with a yielded stream: it stops as yielded, or is saved by the encrypted path (R380); a job restored after its
deadline waits for R380's conditions instead (R381). -/
def State.lastExit (s : State) (c : Nat) : State :=
  let j := s.jobAt c
  if !j.allYielded then s
  else if s.yieldClean c then s.yieldStop c
  else if ((s.ctx? j.ctx).bind (·.yieldBy)).isSome then
    s.modCore c (fun k => { k with stopping := k.stopping.orElse (fun _ => some .preempt) })
  else s

/-- The streams waiting in a rendezvous may leave: every stream of the job has issued as many RDV or has exited (R136). -/
def Job.rdvMet (j : Job) : Bool :=
  allStrms.all (fun x => (j.strm x).exited || allStrms.all (fun y =>
    !(j.strm y).rdvWait || decide ((j.strm y).rdv ≤ (j.strm x).rdv)))

/-- Post the release of a rendezvous that is complete. -/
def State.checkRdv (s : State) (c : Nat) : State :=
  let j := s.jobAt c
  if allStrms.any (fun x => (j.strm x).rdvWait) && j.rdvMet then s.postOnce s.now (.rendezvousRelease c) else s

/-- The stream ends: its loops are released and the queues toward it emptied (R101, R125, R135). -/
def Job.exitStrm (j : Job) (x : Strm) : Job :=
  let j := endLoops (j.strm x).loops j
  let j := j.setStrm x { j.strm x with loops := [], rep := none, exited := true }
  let j := allStrms.foldl (fun j y => j.setQueue (qNum y x) []) j
  match x with
  | .cx => { j with vqLd := [] }
  | .st => { j with vqCx := [] }
  | _ => j

/-- EXIT (R133, R135). -/
def execExit (g : Guard) (s : State) : Host.Outcome State Fault Refusal :=
  issue g (fun u => do
    modJob u (fun j => j.exitStrm u.strm)
    modify (fun s => (s.checkRdv u.core).lastExit u.core)
    pure .stay) s

/-- RDV: arrives, with a release at core scope, and waits for the other streams (R136). -/
def execRdv (g : Guard) (s : State) : Host.Outcome State Fault Refusal :=
  issueNext g (fun u => do
    let x ← getStrm u
    if x.rdvWait then keepFor .rdv
    else
      needLogEmpty u
      modify (fun s => s.release u.core (strmNum u.strm) .core)
      modStrm u (fun x => { x with rdv := x.rdv + 1, rdvWait := true })
      modify (fun s => s.checkRdv u.core)
      keepFor .rdv) s

/-- The issuing slot of a stream for an event that retires its instruction. -/
def State.slotOf (s : State) (c : Nat) (x : Strm) (size : Nat) : Cur :=
  { core := c, strm := x, pc := (s.strmAt c x).pc, word := 0, lit := 0, size := size, repk := 0, pops := [], poppedRow := none }

/-- The waiting streams of a complete rendezvous leave, each with an acquire at core scope (R136). -/
def State.rdvRelease (s : State) (c : Nat) : State :=
  match (s.core c).job with
  | none => s
  | some j =>
    if j.rdvMet then
      allStrms.foldl (fun s x =>
        if (j.strm x).rdvWait then
          let s := s.acquire c x .core false
          let s := s.modStrm c x (fun v => { v with rdvWait := false })
          s.retire (s.slotOf c x 8) .next
        else s) s
    else s

/-- RENDEZVOUS_RELEASE (R136). -/
def execRendezvousRelease (core : Nat) (s : State) : Host.Outcome State Fault Refusal := event (·.rdvRelease core) s

/-- PMARK: a MARK record where `trc` MARKS is set; otherwise it only reads its source (R435, R437). -/
def execPmark (g : Guard) (b : Src) (s : State) : Host.Outcome State Fault Refusal :=
  issueNext g (fun u => do
    ensure u [.scalar b]
    let marks := ((← get).core u.core).obs.trc.getLsbD 0
    if marks then
      let o := ((← get).core u.core).obs
      holdIf ((trcRing o.trc).isSome && decide (8 ≤ o.buf.length)) .busy
      let v ← readScalar u b
      traceRec u 1 v
    else
      let _ ← readScalar u b
      pure ()) s

/-! ### System registers (R116, R117) -/

/-- `mst`: queue lengths, chain depth and grant of the matrix state (R266). -/
def State.mst (s : State) (c : Nat) : Word :=
  let j := s.jobAt c
  let b := s.bay (coreBay c)
  let held := b.holder == some (c % 4)
  let sq := fun n => (tget [] j.sq n).length
  BitVec.ofNat 64 (sq 3 * 2 ^ 52 + sq 2 * 2 ^ 46 + sq 1 * 2 ^ 40 + sq 0 * 2 ^ 34 + j.rd * 2 ^ 17 + j.co.toNat * 2 ^ 16
    + (if held then b.gc else 0) * 2 ^ 8 + held.toNat)

/-- The value of a system register (R117, R139, R154, R235, R264, R284, R428, R436, R439). -/
def State.sysReg (s : State) (c : Nat) (x : Strm) (n : Nat) : Word :=
  let k := s.core c
  let j := s.jobAt c
  let v := j.strm x
  if n = 0x00 then v.asr
  else if n = 0x01 then BitVec.ofNat 64 (strmNum x)
  else if n < 0x10 then (tget 0 j.fd (n - 0x08)).setWidth 64
  else if n = 0x10 then BitVec.ofNat 64 k.spadSize
  else if n = 0x11 then BitVec.ofNat 64 j.cpsz
  else if n < 0x16 then tget 0 j.gwin (n - 0x12)
  else if n = 0x18 then v.rngc
  else if n = 0x19 then v.rngp
  else if n < 0x30 then (tget 0 j.ft (n - 0x20)).setWidth 64
  else if n < 0x38 then tget 0 j.g (n - 0x30)
  else if n = 0x38 then s.mst c
  else if n = 0x40 then j.uwv
  else if n < 0x45 then tget 0 j.uwin (n - 0x41)
  else if n < 0x54 then tget 0 k.obs.wp (n - 0x50)
  else if n = 0x58 then k.obs.trc
  else if n = 0x59 then k.obs.trp
  else if n < 0x68 then tget 0 k.obs.csel (n - 0x60)
  else (tget 0 k.obs.cnt (n - 0x68)).setWidth 64

/-- SYSRD (R116). -/
def execSysrd (g : Guard) (d : Dest) (srn : BitVec 7) (s : State) : Host.Outcome State Fault Refusal :=
  issueNext g (fun u => do
    needSpace u d
    deliver u d ((← get).sysReg u.core u.strm srn.toNat)) s

/-- A counter selector after a write: OVF is cleared by writing 1, the reserved bits stay 0 (R429). -/
def selWrite (old w : Word) : Word :=
  (old &&& ~~~w &&& 0x8000000000000000) ||| (w &&& 0x6000FFC00000FFFF)

/-- A format descriptor as a register holds it: bits [23:18], [15:13] and [11:9] are reserved (R7, R59). -/
def fdBits (w : Word) : BitVec 32 := (w &&& 0xFF0311FF).setWidth 32

/-- Write a system register: reserved bits stay 0 (R7, R59, R79, R117, R235, R284, R428, R429, R436, R439). -/
def State.setSysReg (s : State) (c : Nat) (x : Strm) (n : Nat) (w : Word) : State :=
  let obs := fun (f : Obs → Obs) => s.modCore c (fun k => { k with obs := f k.obs })
  if n = 0x00 then s.modStrm c x (fun v => v.clearAsr w)
  else if n < 0x10 then s.modJob c (fun j => { j with fd := tput 0 j.fd (n - 0x08) (fdBits w) })
  else if n = 0x18 then s.modStrm c x (fun v => { v with rngc := w &&& 0x00FFFFFFFFFFF07F })
  else if n = 0x19 then s.modStrm c x (fun v => { v with rngp := w &&& 0x3FFFFFFE })
  else if n = 0x40 then s.modJob c (fun j => { j with uwv := w &&& 0x7F7F })
  else if n < 0x45 then s.modJob c (fun j => { j with uwin := tput 0 j.uwin (n - 0x41) (w &&& 0x00FFFFFFFFFFFFC3) })
  else if n < 0x54 then obs (fun o => { o with wp := tput 0 o.wp (n - 0x50) w })
  else if n = 0x58 then obs (fun o => { o with trc := w &&& 0x00FFFFFFFFFFFF83 })
  else if n = 0x59 then obs (fun o => { o with trp := w &&& 0x3FFFFFE0 })
  else if n < 0x68 then obs (fun o => { o with csel := tput 0 o.csel (n - 0x60) (selWrite (tget 0 o.csel (n - 0x60)) w) })
  else obs (fun o => { o with cnt := tput 0 o.cnt (n - 0x68) (w.setWidth 48) })

/-- SYSWR (R116). -/
def execSyswr (g : Guard) (srn : BitVec 7) (b : Src) (s : State) : Host.Outcome State Fault Refusal :=
  issueNext g (fun u => do
    ensure u [.scalar b]
    let w ← readScalar u b
    modify (fun s => s.setSysReg u.core u.strm srn.toNat w)) s

/-- A die counter as the context's function reads it: 0 where it does not own it (R428, R434). -/
def State.dieCounter (s : State) (d fn n : Nat) : Word :=
  match (s.pool (s.partOf d).1).prf with
  | some (h, _, _, _) => if h = fn then (tget 0 (s.die d).lease.cnt n).setWidth 64 else 0
  | none => if fn = 0 then (tget 0 (s.die d).pf.cnt n).setWidth 64 else 0

/-- CNTRD: a core or die counter; an index out of range traps after the pops (R435). -/
def execCntrd (o : ROps1) (die : Bool) (s : State) : Host.Outcome State Fault Refusal :=
  issueNext o.g (fun u => do
    needSpace u o.d
    ensure u [.scalar o.a]
    let i ← readScalar u o.a
    trapIf (decide ((if die then 15 else 7) < i.toNat)) (illegal9 18)
    let s ← get
    deliver u o.d (if die then s.dieCounter (coreDie u.core) (s.ctxFn (s.jobAt u.core).ctx) i.toNat
      else s.sysReg u.core u.strm (0x68 + i.toNat))) s

/-! ### Major 0x01 (R121, R122) -/

/-- Is an address in the body of an active MLOOP of the stream? -/
def Stream.inMloop (x : Stream) (a : VAddr) : Bool := x.loops.any (fun l => l.mloop && l.holds a)

/-- A taken branch: the check of R120, then the link, then the checks of the target and the target, in the order of R121's block: a link is
handed on before a trap of the target (R10). -/
def takeBranch (u : Cur) (t : Int) (link : Option Dest) : M Flow := do
  trapIf ((← getStrm u).inMloop u.pc) (illegal9 5)
  match link with
  | some d => deliver u d ((u.pc + 8#56).setWidth 64)
  | none => pure ()
  trapIf (decide (t % 4 ≠ 0)) (addrTrap 0x07 t)
  trapIf (decide (t < 0 ∨ 2 ^ 56 ≤ t)) (addrTrap 0x06 t)
  pure (.jump (BitVec.ofInt 56 t))

/-- BR (R121). -/
def execBr (o : BOps) (s : State) : Host.Outcome State Fault Refusal :=
  issue o.g (fun u => takeBranch u ((u.pc.toNat : Int) + 4 * o.off.toInt) none) s

/-- BRL: delivers A + 8 (R121). -/
def execBrl (o : BOps) (s : State) : Host.Outcome State Fault Refusal :=
  issue o.g (fun u => do
    needSpace u o.d
    takeBranch u ((u.pc.toNat : Int) + 4 * o.off.toInt) (some o.d)) s

/-- BRI (R121). -/
def execBri (g : Guard) (a b : Src) (s : State) : Host.Outcome State Fault Refusal :=
  issue g (fun u => do
    ensure u [.scalar a, .scalar b]
    let x ← readScalar u a
    let y ← readScalar u b
    takeBranch u (x.toInt + y.toInt) none) s

/-- BRIL: delivers A + 8; the sources are read before the link is written (R121). -/
def execBril (o : ROps) (s : State) : Host.Outcome State Fault Refusal :=
  issue o.g (fun u => do
    needSpace u o.d
    ensure u [.scalar o.a, .scalar o.b]
    let x ← readScalar u o.a
    let y ← readScalar u o.b
    takeBranch u (x.toInt + y.toInt) (some o.d)) s

/-! ### Major 0x02 (R123 to R130) -/

/-- The checks of a loop instruction after its count is read, in the order of R124; the count and the end address. -/
def loopHead (u : Cur) (l : BitVec 2) (n : Src) (len : BitVec 16) : M (Nat × VAddr) := do
  ensure u [.scalar n]
  let v ← readScalar u n
  let j ← getJob u
  let x := j.strm u.strm
  let e := u.pc + BitVec.ofNat 56 (4 * len.toNat)
  trapIf (decide (2 ^ 32 ≤ v.toNat)) (illegal9 1)
  trapIf (tget none j.lhold l.toNat).isSome (illegal9 4)
  trapIf (x.loops.any (fun q => decide (q.fin.toNat < u.pc.toNat + 4 * len.toNat)) || x.inMloop u.pc) (illegal9 3)
  pure (v.toNat, e)

/-- A loop begins: its counter is 0 and held by the stream (R123, R124). -/
def Job.pushLoop (j : Job) (x : Strm) (q : LoopEnt) : Job :=
  let j := (j.setL q.ctr 0)
  let j := { j with lhold := tput none j.lhold q.ctr.toNat (some x) }
  j.setStrm x { j.strm x with loops := q :: (j.strm x).loops }

/-- LOOP: skips its body for a count of 0, else begins its first iteration (R124). -/
def execLoop (g : Guard) (l : BitVec 2) (n : Src) (len : BitVec 16) (s : State) : Host.Outcome State Fault Refusal :=
  issue g (fun u => do
    let (c, e) ← loopHead u l n len
    if c = 0 then
      modJob u (fun j => j.setL l 0)
      pure (.goto e)
    else
      modJob u (fun j => j.pushLoop u.strm { ctr := l, start := u.pc + 8#56, fin := e, count := c, mloop := false, stages := 0, rv := 0,
                                             kernel := 0, traced := false })
      pure (.goto (u.pc + 8#56))) s

/-- On CX, MLOOP resets the rotation, also where its count is 0 (R130). -/
def Job.resetRotation (j : Job) (x : Strm) (rv : Nat) : Job := if x = .cx then { j with rrbV := 0, rrbK := 0, rvR := 8 * rv } else j

/-- MLOOP: n + S − 1 kernel iterations with stage predicates; on CX the rotation begins at 0 (R128 to R130). -/
def execMloop (g : Guard) (l : BitVec 2) (n : Src) (stg : BitVec 3) (rv : BitVec 5) (len : BitVec 16) (s : State) :
    Host.Outcome State Fault Refusal :=
  issue g (fun u => do
    let (c, e) ← loopHead u l n len
    if c = 0 then
      modJob u (fun j => (j.setL l 0).resetRotation u.strm rv.toNat)
      pure (.goto e)
    else
      let st := stg.toNat + 1
      modJob u (fun j =>
        let j := j.pushLoop u.strm { ctr := l, start := u.pc + 8#56, fin := e, count := c + st - 1, mloop := true, stages := st, rv := rv.toNat,
                                     kernel := 0, traced := false }
        (j.setStrm u.strm (stagePreds (j.strm u.strm) st c 0)).resetRotation u.strm rv.toNat)
      pure (.goto (u.pc + 8#56))) s

/-- The loops that remain after an LBRK on a counter, with the end address of the loop it ends. -/
def breakLoops (c : BitVec 2) : List LoopEnt → Job → Job × List LoopEnt × Option VAddr
  | [], j => (j, [], none)
  | l :: ls, j =>
    if l.ctr = c then (j.freeL c, ls, some l.fin) else breakLoops c ls (j.freeL l.ctr)

/-- LBRK: ends the active loop on a counter and every loop inside it (R125). Where it is the last instruction of the body, an enclosing loop
with the same end counts its own end, since LBRK is no taken branch (R124). -/
def execLbrk (g : Guard) (l : BitVec 2) (s : State) : Host.Outcome State Fault Refusal :=
  issue g (fun u => do
    let j ← getJob u
    let x := j.strm u.strm
    match breakLoops l x.loops j with
    | (_, _, none) => raiseTrap (illegal9 4)
    | (j', ls, some e) =>
      modJob u (fun _ => j'.setStrm u.strm { j'.strm u.strm with loops := ls })
      pure (if e = u.pc + 8#56 then .next else .goto e)) s

/-- REP: the next instruction issues n times, its stepped fields advancing (R126). -/
def execRep (g : Guard) (n : BitVec 16) (sd sa sb : Bool) (stride : BitVec 2) (s : State) : Host.Outcome State Fault Refusal :=
  issue g (fun _ => pure (.rep { count := n.toNat, k := 0, sd := sd, sa := sa, sb := sb, stride := 2 ^ stride.toNat })) s

/-! ### Major 0x03 (R131, R132) -/

/-- The body of a predicate operation with two sources (R131). -/
def predOp (o : POps) (f : Bool → Bool → Bool) (s : State) : Host.Outcome State Fault Refusal :=
  issueNext o.g (fun u => do
    needSpace u o.d
    let a ← readPred u o.pa
    let b ← readPred u o.pb
    deliverBool u o.d (f (a != o.na) (b != o.nb))) s

/-- PAND (R131). -/
def execPand (o : POps) (s : State) : Host.Outcome State Fault Refusal := predOp o (fun a b => a && b) s

/-- POR (R131). -/
def execPor (o : POps) (s : State) : Host.Outcome State Fault Refusal := predOp o (fun a b => a || b) s

/-- PXOR (R131). -/
def execPxor (o : POps) (s : State) : Host.Outcome State Fault Refusal := predOp o (fun a b => a != b) s

/-- PANDN (R131). -/
def execPandn (o : POps) (s : State) : Host.Outcome State Fault Refusal := predOp o (fun a b => a && !b) s

/-- PMOV (R131). -/
def execPmov (g : Guard) (d : Dest) (na : Bool) (pa : BitVec 3) (s : State) : Host.Outcome State Fault Refusal :=
  issueNext g (fun u => do
    needSpace u d
    let a ← readPred u pa
    deliverBool u d (a != na)) s

/-- The outcome of a queue test in its issue cycle (R132). -/
def Job.qtest (j : Job) (me : Strm) : QTest → Bool
  | .ready q => (qAt (j.queueOf (qNum q me)) 0).isSome
  | .space q => (j.strm q).exited || decide ((j.queueOf (qNum me q)).length < 8)
  | .vready => (vAt j.vqLd 0).isSome
  | .vspace => (j.strm (vqReader me)).exited || decide ((j.vqOf me).length < 16)
  | .exited q => (j.strm q).exited

/-- QTEST (R132). -/
def execQtest (g : Guard) (d : Dest) (t : QTest) (s : State) : Host.Outcome State Fault Refusal :=
  issueNext g (fun u => do
    needSpace u d
    let j ← getJob u
    deliverBool u d (j.qtest u.strm t)) s

end Sys2Proof.Machine
end

