-- ==== Sys2Proof/Machine/LoadStore.lean ====
section
/-!
DEFINITION. Loads, stores, stream registers, the tag table, full-empty and L1 instructions: majors 0x30 to 0x34 (R146 to R170).
-/

namespace Sys2Proof.Machine

/-! ### Addresses and waits -/

/-- value(SRCA) + value(SRCB) + literal, read as signed values (R44, R157). -/
def readAddr (u : Cur) (m : MAddr) : M Int := do
  let a ← readScalar u m.base
  let b ← readScalar u m.idx
  pure (a.toInt + b.toInt)

/-- The two address sources of a memory instruction. -/
def addrRds (m : MAddr) : List Rd := [.scalar m.base, .scalar m.idx]

/-- A load with a full-empty qualifier waits until every granule it reads is full: it issues at once where they all were at the end of
the previous cycle, and after it has waited in the cycle that fills the last of them, behind every write of that cycle (R149). -/
def waitFull (u : Cur) (ar : Area) (n : Nat) (q : Fe) : M Unit := do
  match ar with
  | .spad o =>
    let s ← get
    let k := s.core u.core
    let ready := match (s.strmAt u.core u.strm).wait with
      | some (.granule .., _) => s.waking && (emptyGranule k.fe o n).isNone
      | _ => (emptyGranule k.feOld o n).isNone
    holdIf (q != .none && !ready) (.granule o n)
  | _ => pure ()

/-- `.fec`: the granules read become empty in the sampling cycle (R149). -/
def emptyAfter (u : Cur) (ar : Area) (n : Nat) (q : Fe) : M Unit :=
  match ar, q with
  | .spad o, .fec => modify (fun s => s.modCore u.core (fun k => { k with fe := setGranules k.fe o n false }))
  | _, _ => pure ()

/-- The cluster banks of n bytes at a region offset (R147). -/
def banksOf (off n : Nat) : List Nat :=
  if n = 0 then [] else ((List.range ((off + n - 1) / 128 - off / 128 + 1)).map (fun i => (off / 128 + i) % 32)).eraseDups

/-- Hold for the order of a translated access behind unperformed ones (R177), and for a cluster bank that the array reads in
this cycle (R147). -/
def orderAt (u : Cur) (ar : Area) (n : Nat) : M Unit := do
  match ar with
  | .trans va => needOrder u va n
  | .cluster o =>
    let s ← get
    let b := s.bay (coreBay u.core)
    holdIf (decide (b.bankAt = s.now) && (banksOf o n).any b.banks.contains) .bank
  | _ => pure ()

/-- The delivery of a row to the outgoing vector queue. -/
def pushDest (push : Bool) : Dest := { reg := none, qs := if push then 0x10 else 0 }

/-! ### Loads (R159 to R163) -/

/-- The body of a scalar load: `later` where it may be performed after its issue (R160, R373), with the acquire that follows it. -/
def ldBody (later : Bool) (acq : Option Scope) (o : LdOps) (u : Cur) : M Unit := do
  needSpace u o.d
  ensure u (addrRds o.at_)
  needLogEntry u false
  let a ← readAddr u o.at_
  let n := 2 ^ o.sz.toNat
  let ar ← areaOf u a n n (o.fe != .none)
  waitFull u ar n o.fe
  orderAt u ar n
  watch u a.toNat n true false
  let entry : M LogEnt := do
    let e ← newEntry u o.scope (.ld a.toNat n)
    reserveScalar u o.d { e with zf := o.zf, acq := acq }
  let d ← if later && ar.isTrans && o.d.reg.isNone && !o.zf then chooseDefer else pure false
  if d then putLog u (← entry)
  else
    orLate (fun s => s.goodLoad u.core u.strm ar n o.scope o.zf) (do putLate u (← entry)) (fun bs => do
      emptyAfter u ar n o.fe
      modify (fun s => s.noteZero u.core u.strm a.toNat bs)
      deliver u o.d (goodWord bs)
      match acq with
      | some scope => modify (fun s => s.acquire u.core u.strm scope false)
      | none => pure ())

/-- LD (R160). -/
def execLd (o : LdOps) (s : State) : Host.Outcome State Fault Refusal := issueNext o.g (ldBody true none o) s

/-- A scalar source's value without popping it; the head it needs is filled. -/
def peekScalar (u : Cur) (x : Src) : M Word := do
  match x with
  | .pop y => readScalar u (.peek y)
  | .m n =>
    match tget none (← getStrm u).m n.toNat with
    | none => pure 0
    | some r =>
      if r.data then pure (BitVec.ofNat 64 (leNat (((r.buf.head?).bind (fun b => b.bytes)).getD [])))
      else pure (BitVec.ofInt 64 (r.pat.addr r.pos))
  | y => readScalar u y

/-- The row load of a bound block whose earlier fetch met a fault: its pop makes the access again (R156). -/
def vldAgain (u : Cur) (o : VldOps) (f : MFmt) (desc : BitVec 32) (a : Int) (n : Nat) : M Unit := do
  let ar ← areaOf u a n 16 false
  orLate (fun s => s.goodLoad u.core u.strm ar n o.scope o.zf)
    (do
      let e ← newEntry u o.scope (.vld [a.toNat] true o.fmt.toNat desc o.lw)
      putLate u (← reserveRow u o.push { e with zf := o.zf }))
    (fun bs => do
      modify (fun s => s.noteZero u.core u.strm a.toNat bs)
      deliverRow u (pushDest o.push) (goodRow f o.lw bs) 1)

/-- VLD of a popped DATA block (R156, R161): its checks come before any pop. -/
def vldBlock (u : Cur) (o : VldOps) (f : MFmt) (desc : BitVec 32) (m : BitVec 3) (r : MReg) : M Unit := do
  let n := runBytes f.width (laneN o.lw)
  trapIf (o.fe != .none || decide (r.pat.total ≤ r.pos) || r.pat.blk.toNat != n) (illegal9 8)
  ensure u [.scalar o.at_.idx]
  needLogEntry u false
  let i ← peekScalar u o.at_.idx
  trapIf (i != 0) (illegal9 8)
  holdIf r.buf.isEmpty .streamReg
  let b ← popBlock u m
  let _ ← readScalar u o.at_.idx
  match b.bind (·.2) with
  | some bs => deliverRow u (pushDest o.push) (rowOfBytes f o.lw bs) 1
  | none => vldAgain u o f desc (r.pat.addr r.pos) n

/-- The custom descriptor that a format code names, as captured at issue (R61). -/
def descOf (j : Job) (code : Nat) : BitVec 32 := if code < 17 then 0 else tget 0 j.fd (code - 17)

/-- VLD (R161). -/
def execVld (o : VldOps) (s : State) : Host.Outcome State Fault Refusal :=
  issueNext o.g (fun u => do
    let f ← getFmt u o.fmt.toNat
    needSpace u (pushDest o.push)
    let x ← getStrm u
    let desc := descOf (← getJob u) o.fmt.toNat
    let blk := match o.at_.base with
      | .m n => (tget none x.m n.toNat).bind (fun r => if r.data then some (n, r) else none)
      | _ => none
    match blk with
    | some (n, r) => vldBlock u o f desc n r
    | none =>
      ensure u (addrRds o.at_)
      needLogEntry u false
      let a ← readAddr u o.at_
      let n := runBytes f.width (laneN o.lw)
      let ar ← areaOf u a n 16 (o.fe != .none)
      waitFull u ar n o.fe
      orderAt u ar n
      watch u a.toNat n true false
      let entry : M LogEnt := do
        let e ← newEntry u o.scope (.vld [a.toNat] true o.fmt.toNat desc o.lw)
        reserveRow u o.push { e with zf := o.zf }
      let d ← if ar.isTrans && !o.zf then chooseDefer else pure false
      if d then putLog u (← entry)
      else
        orLate (fun s => s.goodLoad u.core u.strm ar n o.scope o.zf) (do putLate u (← entry)) (fun bs => do
          emptyAfter u ar n o.fe
          modify (fun s => s.noteZero u.core u.strm a.toNat bs)
          deliverRow u (pushDest o.push) (goodRow f o.lw bs) 1)) s

/-- The signed 32-bit byte offsets of a gather or scatter, from the core scratchpad (R162). -/
def readOffsets (u : Cur) (i : Int) (n : Nat) : M (List Int) := do
  let k := (← get).core u.core
  trapIf (decide (i < 0 ∨ i % 16 ≠ 0 ∨ (k.spadSize : Int) < i + 4 * n)) (addrTrap 0x0E i)
  watch u i.toNat (4 * n) true false
  let bits := leNat (readBytes k.spad i.toNat (4 * n))
  pure ((List.range n).map (fun t => (BitVec.ofNat 32 (elemAt bits 32 t)).toInt))

/-- Alignment of a gathered or scattered element: its byte size; 1 for an image, whose size is no whole number of bytes. -/
def elemAlign (f : MFmt) : Nat := if f.width % 8 = 0 then f.width / 8 else 1

/-- The checked areas of a gather's or scatter's elements, lane by lane (R157, R162). -/
def laneAreas (u : Cur) (f : MFmt) (base : Int) (offs : List Int) : M (List Area) :=
  offs.mapM (fun o => areaOf u (base + o) (runBytes f.width 1) (elemAlign f) false)

/-- The literal of a wide gather or scatter: it is the index address, and it stands in every lane's address besides (R41, R162, R166, log
entry 22). -/
def litOf (x : Src) : Int :=
  match x with
  | .lit l => l.toInt
  | _ => 0

/-- VLDX (R162). -/
def execVldx (o : VldOps) (s : State) : Host.Outcome State Fault Refusal :=
  issueNext o.g (fun u => do
    let f ← getFmt u o.fmt.toNat
    trapIf (decide (f.width < 8)) { cause := 0x01, reason := 8 }
    needSpace u (pushDest o.push)
    ensure u (addrRds o.at_)
    needLogEntry u false
    let base ← readScalar u o.at_.base
    let i ← readScalar u o.at_.idx
    let offs ← readOffsets u i.toInt (laneN o.lw)
    let n := runBytes f.width 1
    let ars ← laneAreas u f (base.toInt + litOf o.at_.idx) offs
    for ar in ars do
      orderAt u ar n
    for ar in ars do
      watch u ar.va n true false
    let desc := descOf (← getJob u) o.fmt.toNat
    let entry : M LogEnt := do
      let e ← newEntry u o.scope (.vld (ars.map Area.va) false o.fmt.toNat desc o.lw)
      reserveRow u o.push { e with zf := o.zf }
    let d ← if ars.all Area.isTrans && !o.zf then chooseDefer else pure false
    if d then putLog u (← entry)
    else
      orLate (State.goodLoads u.core u.strm n o.scope o.zf ars) (do putLate u (← entry)) (fun l => do
        modify (fun s => (ars.zip l).foldl (fun s p => s.noteZero u.core u.strm p.1.va p.2) s)
        deliverRow u (pushDest o.push) (goodElems f o.lw l) 1)) s

/-- Fetch the missing bytes of the line of a translated address into the L1, with FS at the scope, or touch the line in the memory-side
cache; a line of another module may be refused (R163, R389). -/
def State.prefetch (s : State) (c : Nat) (va : Nat) (scope : Scope) (mc : Bool) : State :=
  let ctx := (s.jobAt c).ctx
  let (s, t) := s.translate c ctx va .load
  match t with
  | .error _ => s
  | .ok pa =>
    let own := decide (paMod pa = s.ownMod)
    let (s, f) := if own then (s, none) else s.remoteFault va
    if f.isSome then s
    else if mc then (if own then s.mscTouch (paKey pa) (paLocal pa) ctx else s)
    else
      let la := pa / 128 * 128
      let l := (s.l1Find c la).getD (emptyLine la ctx)
      if l.vb = BitVec.allOnes 128 then s.l1Put c { l with fs := scope }
      else
        let (s, l, _) := s.l1Fill c l scope
        s.l1Put c l

/-- PREF: raises nothing after the address-space check (R163). -/
def execPref (g : Guard) (at_ : MAddr) (scope : Scope) (mc : Bool) (s : State) : Host.Outcome State Fault Refusal :=
  issueNext g (fun u => do
    ensure u (addrRds at_)
    let a ← readAddr u at_
    trapIf (decide (a < 0 ∨ (2 : Int) ^ 56 < a + 1)) (addrTrap 0x06 a)
    if a.toNat < 0x2000000 then pure ()
    else modify (fun s => s.prefetch u.core a.toNat scope mc)) s

/-! ### Stores (R164 to R167) -/

/-- Store masked bytes into one area, now or from the operand log (R144, R148, R373). -/
def storeBytes (u : Cur) (later : Bool) (ar : Area) (bs : List (Byte × Byte)) (scope : Scope) (full : Bool) : M Unit := do
  let entry : M LogEnt := newEntry u scope (.st [{ addr := ar.va, bytes := bs }])
  let d ← if later && ar.isTrans then chooseDefer else pure false
  if d then putLog u (← entry)
  else orLate (fun s => s.storeArea u.core (strmNum u.strm) ar bs scope full) (do putLate u (← entry)) (fun _ => pure ())

/-- The body of a scalar store (R164). -/
def stBody (later : Bool) (o : StOps) (u : Cur) : M Unit := do
  ensure u (addrRds o.at_ ++ [.scalar o.data])
  needLogEntry u true
  let a ← readAddr u o.at_
  let w ← readScalar u o.data
  let n := 2 ^ o.sz.toNat
  let ar ← areaOf u a n n (o.fe != .none)
  orderAt u ar n
  watch u a.toNat n false true
  storeBytes u later ar (fullMask (leBytes w.toNat n)) o.scope (o.fe != .none)

/-- ST (R164). -/
def execSt (o : StOps) (s : State) : Host.Outcome State Fault Refusal := issueNext o.g (stBody true o) s

/-- The elements of a row in a memory format with the flags of their final stores (R165); integer formats read the lanes as
integers. -/
def rowElems (f : MFmt) (lw : Bool) (r : Rnd) (row : Row) (draws : List Nat) : List Nat × Flg :=
  let es := (rowLanes lw row).zipIdx.map (fun p => storeLane f lw f.isInt p.1 r (draws.getD p.2 0))
  (es.map (·.1), es.foldl (fun (a : Flg) e => a ||| e.2) 0)

/-- The draws of a row's final store: one per element in mode 5 (R71). -/
def rowDraws (u : Cur) (lw : Bool) (r : Rnd) : M (List Nat) :=
  if r = .rsto then takeDraws u (laneN lw) 2 else pure []

/-- The checks that a row store makes before any pop: the format and its precision (R61, R76). -/
def rowFmt (u : Cur) (code : Nat) (lw : Bool) : M MFmt := do
  let f ← getFmt u code
  needPrec lw f code
  pure f

/-- VST (R165). -/
def execVst (o : VstOps) (s : State) : Host.Outcome State Fault Refusal :=
  issueNext o.g (fun u => do
    let f ← rowFmt u o.fmt.toNat o.lw
    ensure u (addrRds o.at_ ++ [.stRow])
    needLogEntry u true
    let a ← readAddr u o.at_
    let row ← popRow u .cx
    let n := runBytes f.width (laneN o.lw)
    let ar ← areaOf u a n 16 (o.fe != .none)
    orderAt u ar n
    watch u a.toNat n false true
    let ds ← rowDraws u o.lw o.rnd
    let (es, fl) := rowElems f o.lw o.rnd row ds
    setFlags u fl
    storeBytes u true ar (packRun f.width es) o.scope (o.fe != .none)) s

/-- VSTX: lane i's element at value(SRCA) + offset i + literal, in ascending lanes (R166). -/
def execVstx (o : VstOps) (s : State) : Host.Outcome State Fault Refusal :=
  issueNext o.g (fun u => do
    let f ← rowFmt u o.fmt.toNat o.lw
    trapIf (decide (f.width < 8)) { cause := 0x01, reason := 8 }
    ensure u (addrRds o.at_ ++ [.stRow])
    needLogEntry u true
    let base ← readScalar u o.at_.base
    let i ← readScalar u o.at_.idx
    let row ← popRow u .cx
    let offs ← readOffsets u i.toInt (laneN o.lw)
    let n := runBytes f.width 1
    let ars ← laneAreas u f (base.toInt + litOf o.at_.idx) offs
    for ar in ars do
      orderAt u ar n
    for ar in ars do
      watch u ar.va n false true
    let ds ← rowDraws u o.lw o.rnd
    let (es, fl) := rowElems f o.lw o.rnd row ds
    setFlags u fl
    let parts := (ars.zip es).map (fun p => (p.1, packRun f.width [p.2]))
    let entry : M LogEnt := newEntry u o.scope (.st (parts.map (fun p => { addr := p.1.va, bytes := p.2 })))
    let d ← if ars.all Area.isTrans then chooseDefer else pure false
    if d then putLog u (← entry)
    else orLate (fun s => s.storeAll u.core (strmNum u.strm) o.scope parts) (do putLate u (← entry)) (fun _ => pure ())) s

/-- The gallery window of a job that holds n bytes at an offset: the members as module core numbers (R154, R167). -/
def Job.gallery (j : Job) (c : Nat) (a n : Nat) : Option (List Nat) :=
  (List.range 4).findSome? (fun i =>
    let w := tget 0 j.gwin i
    let off := w.toNat % 256 * 4096
    let size := w.toNat / 2 ^ 16 % 256 * 4096
    if w.getLsbD 63 && decide (off ≤ a ∧ a + n ≤ off + size) then
      some (((List.range 16).filter (fun k => w.getLsbD (32 + k))).map (fun k => coreDie c * 16 + k))
    else none)

/-- Place of a core in the round-robin order of its die's gallery network (R153). -/
def Die.galPlace (d : Die) (c : Nat) : Nat := (c % 16 + 16 - d.galNext % 16) % 16

/-- May the gallery network of a die accept this store in this cycle: one row, or up to four scalars, with the cores that wait served
round-robin (R153)? -/
def Die.galleryTakes (d : Die) (now c : Nat) (row : Bool) : Bool :=
  let rows := if d.galCycle = now then d.galRows else 0
  let scs := if d.galCycle = now then d.galScalars else 0
  let ahead := d.galWait.filter (fun w => w.1 != c && decide (d.galPlace w.1 < d.galPlace c))
  if row then rows == 0 && scs == 0 && ahead.isEmpty
  else rows == 0 && !ahead.any (·.2) && decide (scs + ahead.length < 4)

/-- The gallery network accepts a store: it lands 24 cycles later (R153), and its log entry ends then (R373). -/
def State.galleryStore (s : State) (c : Nat) (row : Bool) (members : List Nat) (a : Nat) (bs : List (Byte × Byte)) : Nat × State :=
  let (id, s) := s.newId
  let s := s.modDie (coreDie c) (fun d => { d with
    galCycle := s.now
    galRows := (if d.galCycle = s.now then d.galRows else 0) + row.toNat
    galScalars := (if d.galCycle = s.now then d.galScalars else 0) + (!row).toNat
    galNext := (c + 1) % 16
    galWait := d.galWait.filter (fun w => w.1 != c) })
  let g : Gallery := { id := id, arrive := s.now + 24, die := coreDie c, src := c, members := members, pieces := [{ addr := a, bytes := bs }] }
  (id, { s with galleries := s.galleries ++ [g] }.post (s.now + 24) (.galleryArrival id))

/-- The issuing stream's gallery store leaves, with an entry in the operand log (R153, R373). -/
def sendGallery (u : Cur) (row : Bool) (members : List Nat) (a : Nat) (bs : List (Byte × Byte)) : M Unit := do
  let (id, s) := (← get).galleryStore u.core row members a bs
  set s
  appendLog u (← newEntry u .strm (.gst id))

/-- The address of a GST after its checks, and the members of its window (R157, R167). -/
def gstAddr (u : Cur) (a : Int) (n al : Nat) : M (List Nat) := do
  trapIf (decide (a < 0 ∨ (2 : Int) ^ 56 < a + n)) (addrTrap 0x06 a)
  trapIf (decide (a % al ≠ 0)) (addrTrap 0x07 a)
  match (← getJob u).gallery u.core a.toNat n with
  | some ms => pure ms
  | none => raiseTrap (addrTrap 0x0E a)

/-- Hold until the gallery network accepts the store (R153). -/
def needGallery (u : Cur) (row : Bool) : M Unit := do
  let s ← get
  if (s.die (coreDie u.core)).galleryTakes s.now u.core row then pure () else askFor (.gallery row) .busy

/-- GST: a scalar or a row to every member of a gallery window (R167). -/
def execGst (o : GstOps) (s : State) : Host.Outcome State Fault Refusal :=
  match o with
  | .scalar g data at_ sz =>
    issueNext g (fun u => do
      ensure u (addrRds at_ ++ [.scalar data])
      needLogEntry u true
      let a ← readAddr u at_
      let w ← readScalar u data
      let n := 2 ^ sz.toNat
      let ms ← gstAddr u a n n
      watch u a.toNat n false true
      needGallery u false
      sendGallery u false ms a.toNat (fullMask (leBytes w.toNat n))) s
  | .row g at_ fmt rnd lw =>
    issueNext g (fun u => do
      let f ← rowFmt u fmt.toNat lw
      ensure u (addrRds at_ ++ [.stRow])
      needLogEntry u true
      let a ← readAddr u at_
      let row ← popRow u .cx
      let n := runBytes f.width (laneN lw)
      let ms ← gstAddr u a n 16
      watch u a.toNat n false true
      needGallery u true
      let ds ← rowDraws u lw rnd
      let (es, fl) := rowElems f lw rnd row ds
      setFlags u fl
      sendGallery u true ms a.toNat (packRun f.width es)) s

/-- A gallery store lands in every member's scratchpad and sets the granules it touches full, and its log entry ends (R148, R153, R373). -/
def State.galleryLand (s : State) (id : Nat) : State :=
  match takeFirstBy (fun (g : Gallery) => g.id == id) s.galleries with
  | none => s
  | some (g, rest) =>
    let s := g.pieces.foldl (fun s p => g.members.foldl (fun s c => s.spadWrite c p.addr p.bytes true) s) { s with galleries := rest }
    s.modJob g.src (fun j => allStrms.foldl (fun j x => j.setStrm x { j.strm x with
      log := (j.strm x).log.filter (fun e => e.op != .gst id) }) j)

/-- GALLERY_ARRIVAL (R153). -/
def execGalleryArrival (id : Nat) (s : State) : Host.Outcome State Fault Refusal := event (·.galleryLand id) s

/-! ### Stream registers (R155, R156, R168) -/

/-- A bound register from the 64 bytes of its descriptor, or `none` for an illegal field (R155). -/
def bindOf (data : Bool) (bs : List Byte) : Option MReg :=
  let f := fun i n => leNat ((bs.drop i).take n)
  let blk := f 56 2
  let p : Pattern := { base := BitVec.ofNat 56 (f 0 8), str0 := BitVec.ofNat 64 (f 8 8), str1 := BitVec.ofNat 64 (f 16 8)
                       str2 := BitVec.ofNat 64 (f 24 8), str3 := BitVec.ofNat 64 (f 32 8)
                       cnt0 := BitVec.ofNat 32 (f 40 4), cnt1 := BitVec.ofNat 32 (f 44 4), cnt2 := BitVec.ofNat 32 (f 48 4)
                       cnt3 := BitVec.ofNat 32 (f 52 4), blk := BitVec.ofNat 16 blk }
  let blkOk : Bool := if data then decide (8 ≤ blk ∧ blk ≤ 576 ∧ blk % 8 = 0) else blk == 0
  if f 0 8 < 2 ^ 56 ∧ p.cnt0 ≠ 0 ∧ p.cnt1 ≠ 0 ∧ p.cnt2 ≠ 0 ∧ p.cnt3 ≠ 0 ∧ f 58 6 = 0 ∧ blkOk then
    some { data := data, pat := p, pos := 0, buf := [] }
  else none

/-- A DATA register goes on fetching. -/
def State.kickFetch (s : State) (c : Nat) (x : Strm) (m : BitVec 3) : State := s.postOnce (s.now + 1) (.streamBlockFetch c x m)

/-- SBIND (R168). -/
def execSbind (g : Guard) (m : BitVec 3) (b : Src) (data : Bool) (s : State) : Host.Outcome State Fault Refusal :=
  issueNext g (fun u => do
    ensure u [.scalar b]
    let a ← readScalar u b
    let ar ← areaOf u a.toInt 64 64 false
    orderAt u ar 64
    watch u ar.va 64 true false
    let bs ← liftF (fun s => s.loadArea u.core u.strm ar 64 .strm)
    match firstBad ar.va bs with
    | some v => raisePoison u v
    | none =>
      match bindOf data (bs.map (·.1)) with
      | none => raiseTrap (illegal9 8)
      | some r =>
        modStrm u (fun x => { x with m := tput none x.m m.toNat (some r) })
        if data then modify (fun s => s.kickFetch u.core u.strm m)) s

/-- Blocks a DATA register keeps ahead: 8, or 4 KiB (R156). -/
def MReg.ahead (r : MReg) : Nat := min 8 (4096 / r.pat.blk.toNat)

/-- Does a bound DATA register have a next block to fetch? -/
def MReg.wants (r : MReg) : Bool :=
  r.data && decide (r.buf.length < r.ahead ∧ r.pos + r.buf.length < r.pat.total)

/-- A DATA register fetches its next block as strm-scope loads of its stream; a fault is kept for the pop (R156). -/
def State.blockFetch (s : State) (c : Nat) (x : Strm) (m : BitVec 3) : State :=
  match (s.core c).job with
  | none => s
  | some j =>
    match tget none (j.strm x).m m.toNat with
    | none => s
    | some r =>
      if r.wants then
        let n := r.pos + r.buf.length
        let blk := r.pat.blk.toNat
        let put := fun (s : State) (bs : Option (List Byte)) =>
          let s := s.modStrm c x (fun v => { v with m := tput none v.m m.toNat (some { r with buf := r.buf ++ [{ index := n, bytes := bs }] }) })
          s.kickFetch c x m
        match checkAddr s c (r.pat.addr n) blk (if blk = 8 then 8 else 16) false with
        | .error _ => put s none
        | .ok ar =>
          let (s', t) := s.loadArea c x ar blk .strm
          match t with
          | .error _ => put s none
          | .ok bs => put s' (if bs.any (·.2) then none else some (bs.map (·.1)))
      else s

/-- STREAM_BLOCK_FETCH (R156). -/
def execStreamBlockFetch (core : Nat) (str : Strm) (m : BitVec 3) (s : State) : Host.Outcome State Fault Refusal :=
  event (·.blockFetch core str m) s

/-- SNEXT: skips blocks; an unbound register traps before any pop (R156, R168). -/
def execSnext (g : Guard) (m : BitVec 3) (b : Src) (s : State) : Host.Outcome State Fault Refusal :=
  issueNext g (fun u => do
    match tget none (← getStrm u).m m.toNat with
    | none => raiseTrap (illegal9 8)
    | some r =>
      ensure u [.scalar b]
      let n ← readScalar u b
      -- source B may itself pop a register, so the register is read again
      let r := (tget none (← getStrm u).m m.toNat).getD r
      modStrm u (fun x => { x with m := tput none x.m m.toNat (some (r.pop n.toNat)) })
      if r.data then modify (fun s => s.kickFetch u.core u.strm m)) s

/-- The condition of STEST on a register (R168). DESIGN CHOICE (log entry 78): an ADDR register, which fetches no block, is ready while
it is not exhausted. -/
def mTest (r : Option MReg) (c : STest) : Bool :=
  match r with
  | none => false
  | some r =>
    let done := decide (r.pat.total ≤ r.pos)
    match c with
    | .bound => !done
    | .ready => !done && (!r.data || !r.buf.isEmpty)
    | .done => done

/-- STEST (R168). -/
def execStest (g : Guard) (d : Dest) (m : BitVec 3) (c : STest) (s : State) : Host.Outcome State Fault Refusal :=
  issueNext g (fun u => do
    needSpace u d
    let x ← getStrm u
    deliverBool u d (mTest (tget none x.m m.toNat) c)) s

/-- SDROP (R168). -/
def execSdrop (g : Guard) (m : BitVec 3) (s : State) : Host.Outcome State Fault Refusal :=
  issueNext g (fun u => modStrm u (fun x => { x with m := tput none x.m m.toNat none })) s

/-! ### The tag table (R151, R169) -/

/-- TLOOK: the slot that holds a key, or −1 (R169). -/
def execTlook (g : Guard) (d : Dest) (b : Src) (s : State) : Host.Outcome State Fault Refusal :=
  issueNext g (fun u => do
    needSpace u d
    ensure u [.scalar b]
    let key := (← readScalar u b).setWidth 56
    let tags := ((← get).core u.core).tags
    deliver u d (match tags.find? (fun e => e.2 == some key) with
      | some e => BitVec.ofNat 64 e.1
      | none => BitVec.allOnes 64)) s

/-- The slot of TSET or TINV: above 255 it traps (R169). -/
def needSlot (w : Word) : M Unit := trapIf (decide (255 < w.toNat)) { cause := 0x0E, detail := w, faddr := w }

/-- TSET: at most one valid slot holds a key (R151, R169). -/
def execTset (g : Guard) (a b : Src) (s : State) : Host.Outcome State Fault Refusal :=
  issueNext g (fun u => do
    ensure u [.scalar a, .scalar b]
    let i ← readScalar u a
    let key := (← readScalar u b).setWidth 56
    needSlot i
    modify (fun s => s.modCore u.core (fun k =>
      { k with tags := tput none (k.tags.filter (fun e => e.2 != some key)) i.toNat (some key) }))) s

/-- TINV: one slot, or every slot (R169). -/
def execTinv (g : Guard) (all : Bool) (a : Src) (s : State) : Host.Outcome State Fault Refusal :=
  issueNext g (fun u => do
    if all then modify (fun s => s.modCore u.core (fun k => { k with tags := [] }))
    else
      ensure u [.scalar a]
      let i ← readScalar u a
      needSlot i
      modify (fun s => s.modCore u.core (fun k => { k with tags := tput none k.tags i.toNat none }))) s

/-! ### Full-empty and L1 instructions (R170) -/

/-- The body of FESET and FECLR: a count of 0 has no effect (R170). -/
def feBody (v : Bool) (o : FeOps) (u : Cur) : M Unit := do
  ensure u (addrRds o.at_)
  let a ← readAddr u o.at_
  let n := 16 * (← readScalar u o.cnt).toNat
  if n = 0 then pure ()
  else
    match (← areaOf u a n 16 true) with
    | .spad off => modify (fun s => s.modCore u.core (fun k => { k with fe := setGranules k.fe off n v }))
    | _ => pure ()

/-- FESET (R170). -/
def execFeset (o : FeOps) (s : State) : Host.Outcome State Fault Refusal := issueNext o.g (feBody true o) s

/-- FECLR (R170). -/
def execFeclr (o : FeOps) (s : State) : Host.Outcome State Fault Refusal := issueNext o.g (feBody false o) s

/-- FETEST (R170). -/
def execFetest (g : Guard) (d : Dest) (at_ : MAddr) (s : State) : Host.Outcome State Fault Refusal :=
  issueNext g (fun u => do
    needSpace u d
    ensure u (addrRds at_)
    let a ← readAddr u at_
    match (← areaOf u a 16 16 true) with
    | .spad off => deliverBool u d (tget false ((← get).core u.core).fe (off / 16))
    | _ => pure ()) s

/-- Write back the dirty bytes of the lines a test names, and with `inv` invalidate them (R170). -/
def State.l1Clean (s : State) (c : Nat) (un : SendUnit) (p : L1Line → Bool) (inv : Bool) : State :=
  let s := ((s.core c).l1.filter p).foldl (fun s l => s.writeBack c un l) s
  s.modCore c (fun k => { k with
    l1 := if inv then k.l1.filter (fun l => !p l) else k.l1.map (fun l => if p l then { l with db := 0 } else l) })

/-- The body of L1WB and L1INV: the line of a translated address, or every line; nothing on a local-aperture address (R170). -/
def l1Body (inv : Bool) (o : L1Ops) (u : Cur) : M Unit := do
  needLogEmpty u
  if o.all then modify (fun s => s.l1Clean u.core (strmNum u.strm) (fun _ => true) inv)
  else
    ensure u (addrRds o.at_)
    let a ← readAddr u o.at_
    if decide (0 ≤ a ∧ a < 0x2000000) then pure ()
    else
    match (← areaOf u a 1 1 false) with
    | .trans va =>
      let ctx ← getCtx u
      let pa ← liftF (fun s => s.translate u.core ctx va .any)
      modify (fun s => s.l1Clean u.core (strmNum u.strm) (fun l => l.pa == pa / 128 * 128) inv)
    | _ => pure ()

/-- L1WB (R170). -/
def execL1wb (o : L1Ops) (s : State) : Host.Outcome State Fault Refusal := issueNext o.g (l1Body false o) s

/-- L1INV (R170). -/
def execL1inv (o : L1Ops) (s : State) : Host.Outcome State Fault Refusal := issueNext o.g (l1Body true o) s

end Sys2Proof.Machine
end

