-- ==== Sys2Proof/Machine/Order.lean ====
section
/-!
DEFINITION. Fences, atomics, acquiring loads, releasing stores and timeline counters: majors 0x38 to 0x3B (R177 to R203).
-/

namespace Sys2Proof.Machine

/-! ### FENCE (R194, R195) -/

/-- A release of the issuing stream that may wait for acknowledgements (R178, R185, R195): its L1 action is made once, and
the slot is then held until every store it covers is acknowledged, where `acks` asks for that. -/
def releaseWait (u : Cur) (scope : Scope) (acks : Bool) : M Unit := do
  let x ← getStrm u
  if !x.relDone then
    needLogEmpty u
    let clk := ((← get).die (coreDie u.core)).clock
    modify (fun s => s.release u.core (strmNum u.strm) scope)
    if acks then
      let ids := (← get).awaited u.core clk
      modStrm u (fun x => { x with unacked := ids })
  if acks then
    modStrm u (fun x => { x with relDone := true })
    let x ← getStrm u
    if x.unacked.isEmpty then pure () else keepFor .busy

/-- FENCE (R195). At strm or core scope kind rel retires at issue: what it orders is kept by the later stores and pushes, which wait for the
accesses before it. -/
def execFence (g : Guard) (k : FenceKind) (scope : Scope) (s : State) : Host.Outcome State Fault Refusal :=
  issueNext g (fun u => do
    match k with
    | .acq =>
      needLoads u
      modify (fun s => s.acquire u.core u.strm scope false)
    | .rel =>
      if scopeWide scope then releaseWait u scope (scope == .dom)
      else
        let n := (← get).ids
        modStrm u (fun x => { x with relAt := n })
    | .full =>
      releaseWait u scope (scopeWide scope)
      modify (fun s => s.acquire u.core u.strm scope true)) s

/-! ### LDA and STL (R196, R197) -/

/-- LDA: LD's load, then an acquire (R197). -/
def execLda (o : LdOps) (s : State) : Host.Outcome State Fault Refusal :=
  issueNext o.g (fun u => do
    needLogEmpty u
    ldBody false (some o.scope) o u) s

/-- STL: a release, then ST's store (R197). -/
def execStl (o : StOps) (s : State) : Host.Outcome State Fault Refusal :=
  issueNext o.g (fun u => do
    ensure u (addrRds o.at_ ++ [.scalar o.data])
    releaseWait u o.scope (o.scope == .dom)
    stBody false o u) s

/-! ### Atomics (R198, R199) -/

/-- Does an address lie in a declared gallery window of the job? -/
def Job.inGallery (j : Job) (a n : Nat) : Bool :=
  (List.range 4).any (fun i =>
    let w := tget 0 j.gwin i
    let off := w.toNat % 256 * 4096
    let size := w.toNat / 2 ^ 16 % 256 * 4096
    w.getLsbD 63 && decide (off < a + n ∧ a < off + size))

/-- The body of an atomic up to its access: sources, address, checks and waits; the operand in DST (R199). -/
def atomicAddr (u : Cur) (d : Dest) (at_ : MAddr) (n : Nat) : M Area := do
  needSpace u d
  ensure u (addrRds at_)
  needLogEntry u true
  let a ← readAddr u at_
  let ar ← areaOf u a n n false
  match ar with
  | .spad o => trapIf ((← getJob u).inGallery o n) (addrTrap 0x0E a)
  | _ => pure ()
  orderAt u ar n
  watch u a.toNat n true true
  pure ar

/-- What an atomic does by its SUB: its format and rounding for AFADD, its width and operands, and its draw (R198). -/
structure AtomicOp where
  sub : Nat
  n : Nat
  fmt : Nat := 0
  rnd : Rnd := .rne
  d : Word
  cmp : Word := 0
  draw : Nat := 0
  deriving DecidableEq, Repr

/-- The new value of an atomic from the old. -/
def AtomicOp.new (p : AtomicOp) (m : Nat) : Nat := atomicNew p.sub p.fmt p.rnd p.n p.d p.cmp p.draw m

/-- The flags of an atomic. -/
def AtomicOp.flags (p : AtomicOp) (m : Nat) : Flg := atomicFlags p.sub p.fmt p.rnd p.d p.draw m

/-- The log entry of an atomic. -/
def AtomicOp.log (p : AtomicOp) (va : Nat) : LogOp := .atomic va p.n p.sub p.fmt p.rnd p.d p.cmp p.draw

/-- The end of an atomic: its flags and its delivery of the old value (R199). -/
def atomicEnd (u : Cur) (d : Dest) (p : AtomicOp) (m : Nat) : M Unit := do
  setFlags u (p.flags m)
  deliver u d (atomicOld p.sub p.fmt m)

/-- The access of an atomic, read and written in one step at its home (R174, R199). On another module's memory it stands in the operand
log, with the stream waiting, until its home has answered. -/
def atomicAt (u : Cur) (ar : Area) (d : Dest) (p : AtomicOp) : M Unit := do
  match ar with
  | .spad o =>
    let m := leNat (← localRead u ar p.n)
    modify (fun s => s.spadWrite u.core o (fullMask (leBytes (p.new m) p.n)) false)
    atomicEnd u d p m
  | .cluster o =>
    let m := leNat (← localRead u ar p.n)
    modify (fun s => s.clusterWrite u.core o (fullMask (leBytes (p.new m) p.n)))
    atomicEnd u d p m
  | .trans va =>
    let ctx ← getCtx u
    let entry : M LogEnt := do reserveScalar u d (← newEntry u .strm (p.log va))
    let own := match (← get).translateRange u.core ctx va p.n .rw with
      | (s, .ok ps) => decide (paMod (ps.headD (0, 0)).1 = s.ownMod)
      | (_, .error _) => true
    if own then
      orLate (fun s => match s.translateRange u.core ctx va p.n .rw with
          | (s, .error e) => (s, .error e)
          | (s, .ok ps) => s.atomicHome u.core u.strm va (ps.headD (0, 0)).1 p.n p.new)
        (do putLate u (← entry)) (atomicEnd u d p)
    else
      appendLog u (← entry)
      modStrm u (fun x => { x with replay := true })

/-- An integer atomic on the operand in DST (R198). -/
def atomicOp (o : AOps) (sub : Nat) (s : State) : Host.Outcome State Fault Refusal :=
  issueNext o.g (fun u => do
    let n := if o.dbl then 8 else 4
    let ar ← atomicAddr u o.d o.at_ n
    let d ← readDst u o.d
    atomicAt u ar o.d { sub := sub, n := n, d := d }) s

/-- AADD (R198). -/
def execAadd (o : AOps) (s : State) : Host.Outcome State Fault Refusal := atomicOp o 0 s

/-- AMIN: the signed lesser (R198). -/
def execAmin (o : AOps) (s : State) : Host.Outcome State Fault Refusal := atomicOp o 1 s

/-- AMAX: the signed greater (R198). -/
def execAmax (o : AOps) (s : State) : Host.Outcome State Fault Refusal := atomicOp o 2 s

/-- AAND (R198). -/
def execAand (o : AOps) (s : State) : Host.Outcome State Fault Refusal := atomicOp o 3 s

/-- AOR (R198). -/
def execAor (o : AOps) (s : State) : Host.Outcome State Fault Refusal := atomicOp o 4 s

/-- AXOR (R198). -/
def execAxor (o : AOps) (s : State) : Host.Outcome State Fault Refusal := atomicOp o 5 s

/-- AXCH (R198). -/
def execAxch (o : AOps) (s : State) : Host.Outcome State Fault Refusal := atomicOp o 6 s

/-- ACAS: compares with s(2i) and stores s(2i+1) where equal (R198, R199). -/
def execAcas (o : AOps) (s : State) : Host.Outcome State Fault Refusal :=
  issueNext o.g (fun u => do
    let n := if o.dbl then 8 else 4
    let ar ← atomicAddr u o.d o.at_ n
    let c ← readDst u o.d
    let x ← getStrm u
    let nw := match o.d.reg with
      | some (.s i) => x.sReg (i.toNat + 1)
      | _ => 0
    atomicAt u ar o.d { sub := 7, n := n, d := nw, cmp := c }) s

/-- AFADD: FP32, BF16 or FP16 (R198, R199). -/
def execAfadd (o : AfOps) (s : State) : Host.Outcome State Fault Refusal :=
  issueNext o.g (fun u => do
    let n := (afFmt o.fmt.toNat).width / 8
    let ar ← atomicAddr u o.d o.at_ n
    let t ← drawFor u o.rnd
    let d ← readDst u o.d
    atomicAt u ar o.d { sub := 8, n := n, fmt := o.fmt.toNat, rnd := o.rnd, d := d, draw := t }) s

/-! ### Timeline counters (R187 to R191, R200 to R203) -/

/-- A timeline counter of a job. -/
def Job.ctr (j : Job) (n : Nat) : TCtr := tget {} j.t n

/-- Change a timeline counter. -/
def Job.modCtr (j : Job) (n : Nat) (f : TCtr → TCtr) : Job := { j with t := tput {} j.t n (f (j.ctr n)) }

/-- DONE advanced over the completions that follow it, n of them at most (R188). -/
def advanceDone (early : List Nat) : Nat → Nat → Nat
  | done, 0 => done
  | done, n + 1 => if early.contains (done + 1) then advanceDone early (done + 1) n else done

/-- Commands number `first` to first + n − 1 of a counter complete at a scope (R188, R189). -/
def TCtr.complete (t : TCtr) (first n : Nat) (scope : Scope) (err : Bool) : TCtr :=
  let next := t.done.toNat + 1 = first
  let early := if next then t.early else t.early ++ (List.range n).map (fun i => first + i)
  let done := advanceDone early (if next then t.done.toNat + n else t.done.toNat) early.length
  { t with
    done := BitVec.ofNat 64 done
    early := early.filter (fun i => done < i)
    errn := if err then t.errn + BitVec.ofNat 64 n else t.errn
    acqs := scopeMax t.acqs scope }

/-- Can a counter give c more numbers (R188)? -/
def TCtr.canTake (t : TCtr) (c : Nat) : Bool := decide (t.iss.toNat + c < 2 ^ 64)

/-- A command of a job completes (R188, R189). -/
def State.completeNum (s : State) (c : Nat) (ctr : Nat) (num : Nat) (scope : Scope) (err : Bool) : State :=
  s.modJob c (fun j => j.modCtr ctr (fun t => t.complete num 1 scope err))

/-- The acquire of a satisfied WAITT (R201): the loads before it come before every later access (R177), and one that has not returned
acquires as it does. -/
def acquireAt (u : Cur) (scope : Scope) : M Unit := do
  let n := (← get).ids
  modify (fun s => s.acquire u.core u.strm scope false)
  modStrm u (fun x => { x with
    acqAt := n
    log := x.log.map (fun e => if e.op.loads then { e with acq := some (scopeMax scope (e.acq.getD .strm)) } else e) })

/-- WAITT (R201). -/
def execWaitt (o : CtrOps) (s : State) : Host.Outcome State Fault Refusal :=
  issueNext o.g (fun u => do
    ensure u [.scalar o.a, .scalar o.b]
    let a ← readScalar u o.a
    let b ← readScalar u o.b
    let n := a + b
    let t := (← getJob u).ctr o.ctr.toNat
    let ok := n.ule t.done
    match o.nb with
    | none => if ok then acquireAt u t.acqs else holdFor (.counter o.ctr.toNat (t.iss.ult n))
    | some pd =>
      if ok then acquireAt u t.acqs
      modStrm u (fun x => x.setPred pd ok)) s

/-- TLRD (R202). -/
def execTlrd (g : Guard) (d : Dest) (ctr : BitVec 4) (sel : TlSel) (s : State) : Host.Outcome State Fault Refusal :=
  issueNext g (fun u => do
    needSpace u d
    let t := (← getJob u).ctr ctr.toNat
    deliver u d (match sel with
      | .done => t.done
      | .iss => t.iss
      | .errn => t.errn
      | .acqs => BitVec.ofNat 64 (scopeNum t.acqs))) s

/-- The numbers of a finished TLADV complete (R203). -/
def Job.finishAdv (j : Job) (a : Adv) : Job := j.modCtr a.ctr.toNat (fun t => t.complete a.first a.n a.scope false)

/-- A release of a TLADV whose earlier accesses are performed, with the writes whose acknowledgement it awaits at dom (R185, R203). -/
def State.advRelease (s : State) (c : Nat) (x : Strm) (scope : Scope) : State × List Nat :=
  let clk := (s.die (coreDie c)).clock
  let s := s.release c (strmNum x) scope
  (s, if scope = .dom then s.awaited c clk else [])

/-- One TLADV in progress: once its log entries are performed it makes its release, and once the acknowledgements it waits
for have come its numbers complete (R203). -/
def State.stepAdv (s : State) (c : Nat) (a : Adv) : State × Option Adv :=
  let x := s.strmAt c a.strm
  let log := a.log.filter (fun i => x.log.any (fun e => e.id == i))
  if !log.isEmpty then (s, some { a with log := log })
  else
    let (s, a) := if a.log.isEmpty then (s, a)
      else
        let (s, acks) := s.advRelease c a.strm a.scope
        (s, { a with log := [], acks := acks })
    if a.acks.isEmpty then (s.modJob c (fun j => j.finishAdv a), none) else (s, some a)

/-- The TLADV releases of a job go as far as they can (R203). -/
def State.progressAdv (s : State) (c : Nat) : State :=
  let r := (s.jobAt c).adv.foldl (fun (r : State × List Adv) a =>
    let (s, a') := r.1.stepAdv c a
    (s, r.2 ++ a'.toList)) (s, [])
  r.1.modJob c (fun j => { j with adv := r.2 })

/-- TLADV (R203). At strm or core scope its numbers complete at its issue, which waits until the earlier accesses are performed, so that
whoever a number reaches sees them (R180). -/
def execTladv (g : Guard) (d : Dest) (ctr : BitVec 4) (b : Src) (scope : Scope) (s : State) : Host.Outcome State Fault Refusal :=
  issueNext g (fun u => do
    needSpace u d
    ensure u [.scalar b]
    if !scopeWide scope then needLogEmpty u
    let c ← readScalar u b
    trapIf (decide (c.toNat < 1 ∨ 65536 < c.toNat)) (illegal9 10)
    let t := (← getJob u).ctr ctr.toNat
    trapIf (!t.canTake c.toNat) (illegal9 9)
    let log := (← getStrm u).log.map (·.id)
    let s ← get
    let (s, acks) := if log.isEmpty then s.advRelease u.core u.strm scope else (s, [])
    set s
    modJob u (fun j => { j.modCtr ctr.toNat (fun t => { t with iss := t.iss + c }) with
      adv := j.adv ++ [{ strm := u.strm, ctr := ctr, first := t.iss.toNat + 1, n := c.toNat, scope := scope, log := log, acks := acks }] })
    modify (fun s => s.progressAdv u.core)
    deliver u d (t.iss + c)) s

end Sys2Proof.Machine
end

