-- ==== Sys2Proof/Machine/MemEvents.lean ====
section
/-!
DEFINITION. The machine's own steps of fetching, memory and waiting: instruction fetch, performed accesses and late faults, acknowledgements, homes, requests of other modules, and the watchdogs (R33, R99, R102, R149, R183, R185, R191, R234, R292, R308, R373, R374, R389).
-/

namespace Sys2Proof.Machine

/-! ### Instruction fetch (R32 to R34) -/

/-- n bytes of code for a core: through the context's translation with the X permission, or from the local aperture, which is
never translated (R33, R138). -/
def State.codeBytes (s : State) (c : Nat) (pc n : Nat) : State × Except Trap (List Byte) :=
  match checkAddr s c pc n 1 false with
  | .error t => (s, .error t)
  | .ok (.spad o) => (s, .ok (readBytes (s.core c).spad o n))
  | .ok (.cluster o) => (s, .ok (s.clusterRead c o n))
  | .ok (.trans va) =>
    let ctx := (s.jobAt c).ctx
    let asid := ((s.ctx? ctx).map (·.asid)).getD 0
    let (s, t) := s.translateRange c ctx va n .fetch
    match t with
    | .error e => (s, .error e.trap)
    | .ok ps =>
      ps.foldl (fun (r : State × Except Trap (List Byte)) p =>
        (splitLines p.1 (List.replicate p.2 ())).foldl (fun (r : State × Except Trap (List Byte)) q =>
          match r.2 with
          | .error e => (r.1, .error e)
          | .ok l =>
            let s := r.1
            if paMod q.1 = s.ownMod then
              let (s, bs, _, bad) := s.homeRead (coreDie c) c (paKey q.1) (paLocal q.1) q.2.length ctx asid
              if bad then (s.lineError 2 (paLocal q.1) pc ctx, .error (poisonFault pc).trap) else (s, .ok (l ++ bs))
            else
              ({ s with free := s.free + q.2.length }, .ok (l ++ (List.range q.2.length).map (fun i => Config.freeByte (s.free + i))))) r)
        (s, .ok [])

/-- The word at an address, and its literal where the word is wide (R32). -/
def State.codeWord (s : State) (c : Nat) (pc : VAddr) : State × Except Trap Fetched :=
  let (s, r) := s.codeBytes c pc.toNat 8
  match r with
  | .error t => (s, .error t)
  | .ok bs =>
    let w : BitVec 64 := BitVec.ofNat 64 (leNat bs)
    if w.getLsbD 41 then
      let (s, r) := s.codeBytes c (pc.toNat + 8) 4
      (match r with
      | .error t => (s, .error t)
      | .ok b => (s, .ok { pc := pc, word := w, lit := BitVec.ofNat 32 (leNat b) }))
    else (s, .ok { pc := pc, word := w, lit := 0 })

/-- May a stream fetch and issue: it has not exited, is not suspended, stopped or trapped, and is not in a rendezvous? -/
def Stream.live (x : Stream) : Bool := !x.exited && x.susp.isNone && !x.stopped && !x.trapped

/-- A stream fetches the words at its program counter; a fault is raised before the instruction issues (R33), once the stream's earlier accesses
are performed (R370). -/
def State.fetchAt (s : State) (c : Nat) (x : Strm) : State :=
  match (s.core c).job with
  | none => s
  | some j =>
    let v := j.strm x
    if v.live && (v.fetched.map (·.pc)) != some v.pc then
      let (s', r) := s.codeWord c v.pc
      match r with
      | .ok f => s'.modStrm c x (fun v => { v with fetched := some f })
      | .error t =>
        let u := s'.slotOf c x 8
        if v.log.isEmpty then { s' with cur := some u }.takeTrap u t else s
    else s

/-- INSTRUCTION_FETCH (R33). -/
def execInstructionFetch (core : Nat) (str : Strm) (s : State) : Host.Outcome State Fault Refusal := event (·.fetchAt core str) s

/-! ### Performed accesses and late faults (R373, R374) -/

/-- The slot of a logged instruction. -/
def LogEnt.slot (e : LogEnt) (c : Nat) (x : Strm) : Cur :=
  { core := c, strm := x, pc := e.pc, word := e.word, lit := e.lit, size := 8, repk := e.repk, pops := e.pops, poppedRow := e.row }

/-- Perform entries of the log in order until one faults: that one stays with every younger one, and is trapped late
(R374). -/
def State.performUpTo (c : Nat) (x : Strm) : List LogEnt → State → State
  | [], s => s
  | e :: es, s =>
    let (s', r) := s.performLog c x e
    match r with
    | .ok _ => State.performUpTo c x es s'
    | .error f =>
      (s'.takeTrapOf c (.stream x) { f.trap with late := true } (some (e.slot c x))).modStrm c x (fun v => { v with replay := true })

/-- A late fault of a stream: instructions older than the faulting entry complete, the entry and the unperformed younger ones
stay (R374). -/
def State.lateFaultAt (s : State) (c : Nat) (x : Strm) : State :=
  match (s.core c).job with
  | none => s
  | some j => if (j.strm x).susp.isNone && !(j.strm x).trapped then State.performUpTo c x (j.strm x).log s else s

/-- LATE_FAULT (R374). -/
def execLateFault (core : Nat) (str : Strm) (s : State) : Host.Outcome State Fault Refusal := event (·.lateFaultAt core str) s

/-- One logged access is performed: in a replay the oldest one, otherwise any (R175, R373, R374). -/
def State.performOne (s : State) (c : Nat) (x : Strm) : State :=
  match (s.core c).job with
  | none => s
  | some j =>
    let v := j.strm x
    if v.susp.isSome || v.trapped then s
    else
      let es := v.log.filter (fun e => e.op.own)
      let (late, s) := if v.replay then (false, s) else s.drawBit
      let (i, s) := if v.replay then (0, s) else s.drawNat
      match es[i % es.length]? with
      | none => s.modStrm c x (fun v => { v with replay := false })
      | some e =>
        let left := fun (v : Stream) => v.log.any (fun e => e.op.own)
        let again := fun (s : State) => if left (s.strmAt c x) then s.postOnce (s.now + 1) (.memoryAccessPerformed c x) else s
        if late then again s
        else
          let (s', r) := s.performLog c x e
          match r with
          | .error _ => s.postOnce s.now (.lateFault c x)
          | .ok _ =>
            let s := s'.modStrm c x (fun v => { v with replay := v.replay && left v })
            again ((s.progressAdv c).postOnce s.now (.resultDelivery c x))

/-- MEMORY_ACCESS_PERFORMED (R373). -/
def execMemoryAccessPerformed (core : Nat) (str : Strm) (s : State) : Host.Outcome State Fault Refusal :=
  event (·.performOne core str) s

/-- Completed results fill the queue entries reserved for them (R99). -/
def State.deliverResults (s : State) (c : Nat) (x : Strm) : State :=
  let rs := (s.strmAt c x).returned.filter (fun r => r.1 ≤ s.now)
  let s := s.modJob c (fun j => rs.foldl (fun j r =>
    match r.2.2 with
    | .inl w => j.fillQ r.2.1 w
    | .inr row => j.fillV r.2.1 row) j)
  s.modStrm c x (fun v => { v with returned := v.returned.filter (fun r => s.now < r.1) })

/-- RESULT_DELIVERY (R99). -/
def execResultDelivery (core : Nat) (str : Strm) (s : State) : Host.Outcome State Fault Refusal := event (·.deliverResults core str) s

/-! ### Acknowledgements and homes (R183, R185) -/

/-- A job whose streams, TLADVs and copy engine wait for a store no more. -/
def Job.heard (j : Job) (id : Nat) : Job :=
  let drop := fun (l : List Nat) => l.filter (· != id)
  let j := allStrms.foldl (fun j x => j.setStrm x { j.strm x with unacked := drop (j.strm x).unacked }) j
  { j with
    adv := j.adv.map (fun a => { a with acks := drop a.acks })
    ce := { j.ce with unacked := drop j.ce.unacked } }

/-- A home acknowledged a store: no stream, engine, command, channel or tile fire of any core waits for it any more (R185, R338, R341). -/
def State.ack (s : State) (id : Nat) : State :=
  let drop := fun (l : List Nat) => l.filter (· != id)
  let s : State := { s with
    cores := s.cores.map (fun e => (e.1, { e.2 with
      job := e.2.job.map (fun j => j.heard id)
      arr := e.2.arr.map (fun a => { a with acks := drop a.acks })
      wcsld := e.2.wcsld.map (fun w => (w.1, drop w.2.1, w.2.2)) }))
    remote := s.remote.filter (fun o => o.id != id)
    ctxs := s.ctxs.map (fun e => (e.1, e.2.map (fun x => { x with
      chans := x.chans.map (fun h => (h.1, { h.2 with coll := h.2.coll.map (fun k => { k with lines := k.lines.filter (fun l => l.1 != id) }) }))
      saved := x.saved.map (fun v => { v with job := v.job.heard id })
      fires := x.fires.map (fun f => { f with lines := drop f.lines }) }))) }
  let s := s.cores.foldl (fun s e => if ((e.2.job.map (·.adv)).getD []).isEmpty then s else s.progressAdv e.1) s
  s.ctxs.foldl (fun s e => match e.2 with
    | some x => x.fires.foldl (fun s f => if f.lines.isEmpty then s.postOnce s.now (.tileFireComplete e.1 f.tile) else s) s
    | none => s) s

/-- STORE_ACK (R185). -/
def execStoreAck (_core id : Nat) (s : State) : Host.Outcome State Fault Refusal := event (·.ack id) s

/-- A home base die applies one of the withheld requests whose predecessors are applied; which one, and when, is open
(R183, log entry 9). -/
def State.homeApply (s : State) (b : Nat) : State :=
  let rs := applicable [] (s.base b).reqs
  let (late, s) := s.drawBit
  let (i, s) := s.drawNat
  match rs[i % rs.length]? with
  | none => s
  | some r =>
    let again := fun (s : State) => if (s.base b).reqs.isEmpty then s else s.postOnce (s.now + 1) (.homeRequestApply b)
    if late then again s
    else again ((s.modBase b (fun x => { x with reqs := x.reqs.filter (fun q => q.id != r.id) })).applyReq r)

/-- HOME_REQUEST_APPLY (R183). -/
def execHomeRequestApply (base : Nat) (s : State) : Host.Outcome State Fault Refusal := event (·.homeApply base) s

/-- A request of another module: refused where the three conditions of R388 fail for the partition that owns LOCAL, served
at its home otherwise (R389); an atomic on a poisoned line fails (R199, R393). -/
def State.serveRemote (s : State) (pa : Nat) (op : RemoteOp) : State :=
  let l := paLocal pa
  let part := (s.partOfLocal l).1
  if s.modnum.isNone || s.portsShut part || !s.physOk part pa then s
  else
    match op with
    | .read n => (splitLines l (List.replicate n ())).foldl (fun s p =>
        (s.mscTouch (paKey pa) p.1 0).watchHome (paKey pa) p.1 p.2.length false 0) s
    | .write bs => (splitLines l bs).foldl (fun s p => s.homeWriteLine (paKey pa) p.1 (fullMask p.2) 0 0) s
    | .atomic sub fmt rnd n d cmp =>
      if s.isBad l then s.lineError 2 l l 0
      else
        let (t, s) := s.drawNat
        let m := leNat ((List.range n).map (fun i => s.homeByte (paKey pa) (l + i)))
        s.homeWriteLine (paKey pa) l (fullMask (leBytes (atomicNew sub fmt rnd n d cmp (t % 65536) m) n)) 0 0

/-- REMOTE_REQUEST (R389). -/
def execRemoteRequest (pa : Word) (op : RemoteOp) (s : State) : Host.Outcome State Fault Refusal := event (·.serveRemote pa.toNat op) s

/-! ### The watchdogs (R102, R149, R191, R234, R292, R308) -/

/-- The slot of a stream that waits at issue, with the words it fetched. -/
def State.waitSlot (s : State) (c : Nat) (x : Strm) : Cur :=
  let v := s.strmAt c x
  { core := c, strm := x, pc := v.pc, word := (v.fetched.map (fun f => f.word)).getD 0, lit := (v.fetched.map (fun f => f.lit)).getD 0,
    size := 8, repk := (v.rep.map (fun r => r.k)).getD 0, pops := [], poppedRow := none }

/-- The trap of a wait that has lasted 2^24 cycles, in a stream whose earlier accesses are performed. -/
def State.expireNow (s : State) (c : Nat) (x : Strm) (t : Trap) : State :=
  let s' := s.modStrm c x (fun v => { v with wait := none })
  match (if x = .cx then (s.jobAt c).micro else none) with
  | some m => s'.takeTrapOf c .micro (m.trap t) (some (s.waitSlot c x))
  | none => s'.takeTrapOf c (.stream x) t (some (s.waitSlot c x))

/-- A wait that has lasted 2^24 cycles raises its trap (R102). The stream's earlier accesses are performed first (R370): where one of them
faults, its late fault is taken instead, and where one is still on its way the wait goes on. -/
def State.expire (s : State) (c : Nat) (x : Strm) (f : Wait → Option Trap) : State :=
  match (s.core c).job with
  | none => s
  | some j =>
    let v := j.strm x
    match v.wait with
    | some (w, n) =>
      if v.live && decide (waitLimit ≤ n) then
        match f w with
        | some t =>
          if v.log.isEmpty then s.expireNow c x t
          else
            let s := s.lateFaultAt c x
            if (s.strmAt c x).live && (s.strmAt c x).log.isEmpty then s.expireNow c x t else s
        | none => s
      else s
    | none => s

/-- The queue-deadlock trap: queue number and push bit (R368). -/
def deadlock (q : Nat) (push : Bool) : Trap := { cause := 0x0A, detail := BitVec.ofNat 64 (q + 256 * push.toNat) }

/-- QUEUE_DEADLOCK (R102). -/
def execQueueDeadlock (core : Nat) (str : Strm) (s : State) : Host.Outcome State Fault Refusal :=
  event (·.expire core str (fun w => match w with
    | .push q => some (deadlock q true)
    | .pop q => some (deadlock q false)
    | _ => none)) s

/-- TIMELINE_WAIT_TIMEOUT (R191). -/
def execTimelineWaitTimeout (core : Nat) (str : Strm) (s : State) : Host.Outcome State Fault Refusal :=
  event (·.expire core str (fun w => match w with
    | .counter n true => some (deadlock (32 + n) false)
    | _ => none)) s

/-- FULL_EMPTY_TIMEOUT: DETAIL holds the offset of the first empty granule (R149). -/
def execFullEmptyTimeout (core : Nat) (str : Strm) (s : State) : Host.Outcome State Fault Refusal :=
  event (fun s => s.expire core str (fun w => match w with
    | .granule o n => some { cause := 0x0F, detail := BitVec.ofNat 64 ((emptyGranule (s.core core).fe o n).getD (o / 16 * 16)) }
    | _ => none)) s

/-- DRAW_WAIT_TIMEOUT (R234). -/
def execDrawWaitTimeout (core : Nat) (str : Strm) (s : State) : Host.Outcome State Fault Refusal :=
  event (·.expire core str (fun w => match w with
    | .draw => some (deadlock 48 false)
    | _ => none)) s

/-- WCSLD_WAIT_TIMEOUT (R292). -/
def execWcsldWaitTimeout (core : Nat) (s : State) : Host.Outcome State Fault Refusal :=
  event (·.expire core .sc (fun w => match w with
    | .pin => some (deadlock 49 false)
    | _ => none)) s

/-- LANDING_CREDIT_TIMEOUT: a push wait (R308). -/
def execLandingCreditTimeout (core : Nat) (s : State) : Host.Outcome State Fault Refusal :=
  event (·.expire core .cx (fun w => match w with
    | .credit => some (deadlock 50 true)
    | _ => none)) s

end Sys2Proof.Machine
end

