-- ==== Sys2Proof/Machine/Sfu.lean ====
section
/-!
DEFINITION. The special-function unit: the exact and special results of R91 and R92, and elsewhere a free choice among the results within R91's bound.
-/

namespace Sys2Proof.Machine

/-! ### Fixed point with 512 fraction bits

Every function below is computed to within 2^40 units of 2^−512, far below the spacing of W36 and W18, only to bound the
results that R91 allows. -/

/-- Fraction bits. -/
def fxP : Nat := 512

/-- One. -/
def fxOne : Nat := 2 ^ fxP

/-- Bit-by-bit integer square root below 2^b. -/
def isqrtFrom (n : Nat) : Nat → Nat → Nat
  | 0, r => r
  | b + 1, r => isqrtFrom n b (if (r + 2 ^ b) * (r + 2 ^ b) ≤ n then r + 2 ^ b else r)

/-- Integer square root. -/
def isqrt (n : Nat) : Nat := isqrtFrom n (Nat.log2 n / 2 + 1) 0

/-- Sum of z^(2k+1) / (2k+1) from term k on, n terms; `t` is z^(2k+1) and `z2` is z². -/
def atanhFrom (z2 : Int) : Nat → Nat → Int → Int
  | 0, _, _ => 0
  | n + 1, k, t => t / (2 * k + 1 : Nat) + atanhFrom z2 n (k + 1) (t * z2 / fxOne)

/-- atanh z for |z| ≤ 1/3. -/
def fxAtanh (z : Int) : Int := atanhFrom (z * z / fxOne) 170 0 z

/-- ln 2. -/
def fxLn2 : Int := 2 * fxAtanh (fxOne / 3)

/-- 1 + t/n (1 + t/(n−1) (…)), the exponential series. -/
def expFrom (t : Int) : Nat → Int → Int
  | 0, acc => acc
  | n + 1, acc => expFrom t n (fxOne + t * acc / ((n + 1 : Nat) * fxOne : Nat))

/-- e^t for 0 ≤ t < 1. -/
def fxExp1 (t : Int) : Int := expFrom t 110 fxOne

/-- 2^y; exponents beyond ±1000 stand for all further ones. -/
def fxExp2 (y : Int) : Int :=
  let i := max (-1000) (min 1000 (y / fxOne))
  let v := fxExp1 (y % fxOne * fxLn2 / fxOne)
  if 0 ≤ i then v * 2 ^ i.toNat else v / 2 ^ (-i).toNat

/-- e^x. -/
def fxExp (x : Int) : Int := fxExp2 (x * fxOne / fxLn2)

/-- ln (m × 2^e) for m nonzero. -/
def fxLn (m : Nat) (e : Int) : Int :=
  let l := Nat.log2 m
  let up := decide (3 * 2 ^ l < 2 * m)
  let k := if up then l + 1 else l
  (e + k) * fxLn2 + 2 * fxAtanh (((m : Int) - 2 ^ k) * fxOne / ((m : Int) + 2 ^ k))

/-- Alternating sum of atan(1/n), k terms from place i. -/
def atanInvFrom (n : Nat) : Nat → Nat → Int → Int
  | 0, _, _ => 0
  | k + 1, i, t => t / (2 * i + 1 : Nat) - atanInvFrom n k (i + 1) (t / (n * n : Nat))

/-- π. -/
def fxPi : Int := 16 * atanInvFrom 5 120 0 (fxOne / 5) - 4 * atanInvFrom 239 40 0 (fxOne / 239)

/-- z + z³/3 + z⁵/15 + …: terms z^(2n+1) / (2n+1)!!. -/
def erfFrom (z2 : Int) : Nat → Nat → Int → Int
  | 0, _, _ => 0
  | n + 1, k, t => t + erfFrom z2 n (k + 1) (t * z2 / ((2 * k + 3 : Nat) * fxOne : Nat))

/-- Φ(z) − 1/2 for 0 ≤ z < 20. -/
def fxPhi (z : Int) : Int :=
  let z2 := z * z / fxOne
  let s := erfFrom z2 1000 0 z
  let g := fxExp (-(z2 / 2))
  s * g / isqrt (2 * fxPi.toNat * fxOne)

/-! ### The results that R91 allows -/

/-- The value of the finite positive image c, in units of 2^−512. -/
def codeFx (lw : Bool) (c : Nat) : Nat :=
  let F := fracW lw
  let ex := c / 2 ^ F
  let f := c % 2 ^ F
  if ex = 0 then f <<< (fxP - 126 - F) else (2 ^ F + f) <<< (fxP + ex - 127 - F)

/-- The greatest image not above a value, and the spacing there. -/
def fxCode (lw : Bool) (v : Nat) : Nat × Nat :=
  let F := fracW lw
  if v < 2 ^ (fxP - 126) then (v >>> (fxP - 126 - F), 2 ^ (fxP - 126 - F))
  else
    let l := Nat.log2 v
    ((l + 127 - fxP) * 2 ^ F + (v >>> (l - F) - 2 ^ F), 2 ^ (l - F))

/-- The greatest finite image. -/
def maxImg (lw : Bool) : Nat := 255 * 2 ^ fracW lw - 1

/-- The images that R91 allows for a value strictly between lo and hi that no image holds: within 2 units in the last place,
the last fraction bit 1; above the largest finite value, that value (R92). -/
def sfuAllowed (lw : Bool) (lo hi : Nat) : List Nat :=
  if codeFx lw (maxImg lw) ≤ lo then [maxImg lw]
  else
    let (c, u) := fxCode lw lo
    (List.range 9).filterMap (fun i =>
      let k := c + i - 4
      if 4 ≤ c + i && k % 2 == 1 && decide (k ≤ maxImg lw ∧ lo < codeFx lw k + 2 * u ∧ codeFx lw k < hi + 2 * u) then some k
      else none)

/-- The image chosen among the allowed ones, with its sign and STK set (R91, log entry 10). -/
def sfuChoose (f : SfuFn) (lw : Bool) (b : Nat) (neg : Bool) (lo hi : Nat) : Nat :=
  let l := sfuAllowed lw lo hi
  let c := l.getD (Config.sfuPick f lw b % l.length) 1
  withStk lw (c + (if neg then 2 ^ (fracW lw + 8) else 0)) true

/-- The bounds of an approximation. -/
def fxAround (v : Int) : Nat × Nat := ((v - 2 ^ 40).toNat, (v + 2 ^ 40).toNat)

/-- The bounds of |f x| where the exact value is not representable: x is m × 2^e with this sign, m nonzero; `a` is |x| and v
is x in fixed point. -/
def sfuBounds (f : SfuFn) (neg : Bool) (m : Nat) (e : Int) : Nat × Nat :=
  let a : Nat := m <<< (e + fxP).toNat
  let v : Int := if neg then -(a : Int) else a
  match f with
  | .exp2 => let y := fxExp2 v; ((y - 2 ^ 40 - y / 2 ^ 400).toNat, (y + 2 ^ 40 + y / 2 ^ 400).toNat)
  | .log2 => fxAround ((fxLn m e * fxOne / fxLn2).natAbs)
  | .rcp => let y := fxOne * fxOne / a; (y, y + 1)
  | .rsqrt => let y := isqrt (fxOne * fxOne * fxOne / a); (y, y + 2)
  | .sqrt => let y := isqrt (a * fxOne); (y, y + 1)
  | .tanh =>
    let x := fxExp (2 * a)
    let r := fxAround ((x - fxOne) * fxOne / (x + fxOne))
    (r.1, min r.2 fxOne)
  | .sigmoid =>
    let r := fxAround ((fxOne * fxOne : Int) / (fxOne + fxExp (-v)))
    (r.1, min r.2 fxOne)
  | .gelu =>
    if a < 20 * fxOne then
      let h : Int := fxOne / 2
      let y := (if neg then h - fxPhi a else h + fxPhi a) * a / fxOne
      let w : Int := 2 ^ 41 * a / fxOne + 1
      ((y - w).toNat, min (y + w).toNat a)
    else if neg then (0, 2 ^ (fxP - 250))
    else (a - a / 2 ^ 250, a)
  | .silu =>
    let y := (fxOne * fxOne : Int) / (fxOne + fxExp (-v)) * a / fxOne
    let w : Int := 2 ^ 41 * a / fxOne + 1
    ((y - w).toNat, min (y + w).toNat a)
  | .softplus =>
    let l := fxLn ((fxOne + fxExp (-(a : Int))).toNat) (-(fxP : Int))
    if neg then fxAround l
    else
      let r := fxAround (a + l)
      (max r.1 a, r.2)

/-! ### The exact results of R91 and the special results of R92 -/

/-- The odd part of a nonzero number and the power of two beside it, by its lowest set bit. -/
def oddPart (m : Nat) : Nat × Nat :=
  let low := Nat.log2 (m &&& (2 ^ (Nat.log2 m + 1) - m))
  (m >>> low, low)

/-- A finite value as a value of R66, with its inexactness. -/
def sfuFin (lw : Bool) (s : Bool) (m : Nat) (e : Int) (stk : Bool) : Nat := roundOdd lw (.fin s m e) stk

/-- Is m × 2^e an image of the width? -/
def isExact (lw : Bool) (m : Nat) (e : Int) : Bool := !(roundOddQ lw false m e 1).2

/-- The exact result on a nonzero finite operand m × 2^e, where an image holds it (R91). -/
def sfuExact (f : SfuFn) (lw neg : Bool) (m : Nat) (e : Int) : Option XVal :=
  let (o, k) := oddPart m
  let x : Int := e + k
  let ok := fun (r : XVal) => match r with
    | .fin _ n d => if n = 0 ∨ isExact lw n d then some r else none
    | y => some y
  match f with
  | .exp2 =>
    if 0 ≤ x then
      let i : Int := if neg then -(o * 2 ^ (min x 20).toNat : Nat) else (o * 2 ^ (min x 20).toNat : Nat)
      if x ≤ 20 then ok (.fin false 1 i) else none
    else none
  | .log2 => if o = 1 then some (.ofInt x) else none
  | .rcp => if o = 1 then ok (.fin neg 1 (-x)) else none
  | .rsqrt => if o = 1 ∧ x % 2 = 0 then ok (.fin false 1 (-x / 2)) else none
  | .sqrt =>
    let r := isqrt o
    if x % 2 = 0 ∧ r * r = o then ok (.fin false r (x / 2)) else none
  | _ => none

/-- One special function on an image: the result and the flags NV and DZ (R91, R92). -/
def sfuImg (f : SfuFn) (lw : Bool) (b : Nat) : Nat × Flg :=
  let stk := imgStk lw b
  let put := fun (x : XVal) => roundOdd lw x stk
  let nan := nanImg lw stk
  let half : XVal := .fin false 1 (-1)
  let one : XVal := .fin false 1 0
  match imgVal lw b with
  | .nan => (nan, 0)
  | .inf s =>
    (match f with
    | .exp2 => (put (if s then .fin false 0 0 else .inf false), 0)
    | .log2 => if s then (nan, flgNV) else (put (.inf false), 0)
    | .rcp => (put (.fin s 0 0), 0)
    | .rsqrt => if s then (nan, flgNV) else (put (.fin false 0 0), 0)
    | .sqrt => if s then (nan, flgNV) else (put (.inf false), 0)
    | .tanh => (put (.fin s 1 0), 0)
    | .sigmoid => (put (if s then .fin false 0 0 else one), 0)
    | .gelu => (put (if s then .fin true 0 0 else .inf false), 0)
    | .silu => (put (if s then .fin true 0 0 else .inf false), 0)
    | .softplus => (put (if s then .fin false 0 0 else .inf false), 0))
  | .fin s m e =>
    if m = 0 then
      (match f with
      | .exp2 => (put one, 0)
      | .log2 => (put (.inf true), flgDZ)
      | .rcp => (put (.inf s), flgDZ)
      | .rsqrt => (put (.inf s), flgDZ)
      | .sqrt => (put (.fin s 0 0), 0)
      | .tanh => (put (.fin s 0 0), 0)
      | .sigmoid => (put half, 0)
      | .gelu => (put (.fin s 0 0), 0)
      | .silu => (put (.fin s 0 0), 0)
      | .softplus =>
        let r := fxAround fxLn2
        (sfuChoose f lw b false r.1 r.2, 0))
    else if s && (f == .log2 || f == .rsqrt || f == .sqrt) then (nan, flgNV)
    else
      match sfuExact f lw s m e with
      | some x => (put x, 0)
      | none =>
        let r := sfuBounds f s m e
        let neg := match f with
          | .log2 => decide ((Nat.log2 m : Int) + e < 0)
          | .rcp => s
          | .tanh => s
          | .gelu => s
          | .silu => s
          | _ => false
        (sfuChoose f lw b neg r.1 r.2, 0)

end Sys2Proof.Machine
end

