-- ==== Sys2Proof/Machine/Vector.lean ====
section
/-!
DEFINITION. The vector instructions, majors 0x60 to 0x67, the reduction slot and the noise source (R205 to R237).
-/

namespace Sys2Proof.Machine

/-! ### Shared forms (R207, R208, R214) -/

/-- A lane mask by name (R130, R207). -/
def getMask (u : Cur) (k : BitVec 4) : M Mask := do
  let j ← getJob u
  pure (j.mask (j.physMask k.toNat))

/-- The row that excluded lanes keep: the row named in DST, or zero (R207). -/
def oldRow (u : Cur) (d : Dest) : M Row := do
  match d.reg with
  | some (.v n) => let j ← getJob u; pure (j.row (j.physRow n.toNat))
  | _ => pure 0

/-- The DST row as a source where the result is pushed with excluded lanes, or where the entry reads it (R207). -/
def dstRd (d : Dest) (k : BitVec 4) (reads : Bool) : List Rd :=
  if d.reg.isSome && (reads || (destVq d && k != 0)) then [.vec (destSrc d)] else []

/-- Lanes combined under a mask with their flags: an excluded lane keeps its old bits (R207, R214). -/
def maskedLanes (lw : Bool) (m : Mask) (old : List Nat) (f : Nat → Nat × Flg) : Row × Flg :=
  let rs := old.zipIdx.map (fun p => if m.getLsbD p.2 then f p.2 else (p.1, 0))
  (rowOf lw (rs.map (·.1)), rs.foldl (fun (a : Flg) r => a ||| r.2) 0)

/-- Deliver lanes under a governing mask (R207, R211, R214). -/
def putLanes (u : Cur) (d : Dest) (lw : Bool) (k : BitVec 4) (lat : Nat) (f : Nat → Nat × Flg) : M Unit := do
  let m ← getMask u k
  let old ← oldRow u d
  let r := maskedLanes lw m (rowLanes lw old) f
  setFlags u r.2
  deliverRow u d r.1 lat (k != 0)

/-- A lane of a list of lanes. -/
def laneAt (l : List Nat) (i : Nat) : Nat := l.getD i 0

/-- A vector instruction of two sources, lane by lane; the operation also sees the old destination lane, which it reads
where `rd` says so (R212 to R214). -/
def vecOp (o : VOps) (int rd : Bool) (lat : Nat) (op : Nat → Nat → Nat → Nat × Flg) (s : State) : Host.Outcome State Fault Refusal :=
  issueNext o.g (fun u => do
    needSpace u o.d
    needRowWrite u o.d
    ensure u ([.vec o.a, .vec o.b] ++ dstRd o.d o.k rd)
    let a := rowLanes o.lw (← readVec u o.lw int o.a)
    let b := rowLanes o.lw (← readVec u o.lw int o.b)
    let d := rowLanes o.lw (← oldRow u o.d)
    putLanes u o.d o.lw o.k lat (fun i => op (laneAt a i) (laneAt b i) (laneAt d i))) s

/-- A vector instruction of one source, lane by lane. -/
def vecOp1 (o : VOps1) (int : Bool) (lat : Nat) (op : Nat → Nat) (s : State) : Host.Outcome State Fault Refusal :=
  issueNext o.g (fun u => do
    needSpace u o.d
    needRowWrite u o.d
    ensure u ([.vec o.a] ++ dstRd o.d o.k false)
    let a := rowLanes o.lw (← readVec u o.lw int o.a)
    putLanes u o.d o.lw o.k lat (fun i => (op (laneAt a i), 0))) s

/-! ### Major 0x60 (R212) -/

/-- VADD (R212). -/
def execVadd (o : VOps) (s : State) : Host.Outcome State Fault Refusal := vecOp o false false 4 (fun a b _ => fltAdd o.lw a b) s

/-- VSUB (R212). -/
def execVsub (o : VOps) (s : State) : Host.Outcome State Fault Refusal := vecOp o false false 4 (fun a b _ => fltSub o.lw a b) s

/-- VMUL (R212). -/
def execVmul (o : VOps) (s : State) : Host.Outcome State Fault Refusal := vecOp o false false 4 (fun a b _ => fltMul o.lw a b) s

/-- VFMA: a × b + d, one rounding; reads DST (R212). -/
def execVfma (o : VOps) (s : State) : Host.Outcome State Fault Refusal := vecOp o false true 4 (fun a b d => fltFma o.lw a b d) s

/-- The signed lesser or greater VAL, STK the OR of both (R212). -/
def intMinMax (isMax lw : Bool) (a b : Nat) : Nat :=
  let x := imgInt lw a
  let y := imgInt lw b
  satImg lw (if isMax then max x y else min x y) (imgStk lw a || imgStk lw b)

/-- VMIN (R83, R212). -/
def execVmin (o : VOps) (int : Bool) (s : State) : Host.Outcome State Fault Refusal :=
  vecOp o int false 4 (fun a b _ => (if int then intMinMax false o.lw a b else fltMinMax false o.lw a b, 0)) s

/-- VMAX (R83, R212). -/
def execVmax (o : VOps) (int : Bool) (s : State) : Host.Outcome State Fault Refusal :=
  vecOp o int false 4 (fun a b _ => (if int then intMinMax true o.lw a b else fltMinMax true o.lw a b, 0)) s

/-- The sign bit of a lane. -/
def signBit (lw : Bool) : Nat := 2 ^ (fracW lw + 8)

/-- The magnitude of a float image: SGN cleared, all else kept (R81). -/
def imgAbs (lw : Bool) (b : Nat) : Nat := if b.testBit (fracW lw + 8) then b - signBit lw else b

/-- A float image with SGN inverted (R81). -/
def imgNeg (lw : Bool) (b : Nat) : Nat := if b.testBit (fracW lw + 8) then b - signBit lw else b + signBit lw

/-- VABS (R212). -/
def execVabs (o : VOps1) (int : Bool) (s : State) : Host.Outcome State Fault Refusal :=
  vecOp1 o int 1 (fun a => if int then satImg o.lw (imgInt o.lw a).natAbs (imgStk o.lw a) else imgAbs o.lw a) s

/-- VNEG (R212). -/
def execVneg (o : VOps1) (int : Bool) (s : State) : Host.Outcome State Fault Refusal :=
  vecOp1 o int 1 (fun a => if int then satImg o.lw (-(imgInt o.lw a)) (imgStk o.lw a) else imgNeg o.lw a) s

/-! ### Major 0x61 (R213) -/

/-- VAL of a lane as bits. -/
def valBits (lw : Bool) (a : Nat) : Nat := a % 2 ^ valW lw

/-- An operation on VAL bits, STK the OR of both (R213). -/
def bitLane (lw : Bool) (f : Nat → Nat → Nat) (a b : Nat) : Nat :=
  withStk lw (f (valBits lw a) (valBits lw b)) (imgStk lw a || imgStk lw b)

/-- The shift amount of a lane: bits [5:0] of VAL (R213). -/
def laneShift (lw : Bool) (b : Nat) : Nat := valBits lw b % 64

/-- VAND (R213). -/
def execVand (o : VOps) (s : State) : Host.Outcome State Fault Refusal :=
  vecOp o true false 1 (fun a b _ => (bitLane o.lw (fun x y => x &&& y) a b, 0)) s

/-- VOR (R213). -/
def execVor (o : VOps) (s : State) : Host.Outcome State Fault Refusal :=
  vecOp o true false 1 (fun a b _ => (bitLane o.lw (fun x y => x ||| y) a b, 0)) s

/-- VXOR (R213). -/
def execVxor (o : VOps) (s : State) : Host.Outcome State Fault Refusal :=
  vecOp o true false 1 (fun a b _ => (bitLane o.lw (fun x y => x ^^^ y) a b, 0)) s

/-- VSHL: bits above VAL's width dropped (R213). -/
def execVshl (o : VOps) (s : State) : Host.Outcome State Fault Refusal :=
  vecOp o true false 1 (fun a b _ => (bitLane o.lw (fun x y => x <<< (y % 64)) a b, 0)) s

/-- A lane shifted right, zero-filled or sign-filled (R213). -/
def laneShr (lw sra : Bool) (a b : Nat) : Nat :=
  let s := laneShift lw b
  let k := imgStk lw a || imgStk lw b
  if sra then withStk lw (BitVec.ofInt (valW lw) (imgInt lw a >>> s)).toNat k else withStk lw (valBits lw a >>> s) k

/-- VSHR (R213). -/
def execVshr (o : VOps) (sra : Bool) (s : State) : Host.Outcome State Fault Refusal :=
  vecOp o true false 1 (fun a b _ => (laneShr o.lw sra a b, 0)) s

/-- An exact integer operation, saturated (R68, R213). -/
def intLane (lw : Bool) (f : Int → Int → Int) (a b : Nat) : Nat :=
  satImg lw (f (imgInt lw a) (imgInt lw b)) (imgStk lw a || imgStk lw b)

/-- VIADD (R213). -/
def execViadd (o : VOps) (s : State) : Host.Outcome State Fault Refusal :=
  vecOp o true false 1 (fun a b _ => (intLane o.lw (fun x y => x + y) a b, 0)) s

/-- VIMUL (R213). -/
def execVimul (o : VOps) (s : State) : Host.Outcome State Fault Refusal :=
  vecOp o true false 3 (fun a b _ => (intLane o.lw (fun x y => x * y) a b, 0)) s

/-! ### Major 0x62 (R215, R216) -/

/-- VMOV (R215). -/
def execVmov (o : VOps1) (int : Bool) (s : State) : Host.Outcome State Fault Refusal := vecOp1 o int 1 id s

/-- A move whose lanes come from row A and a scalar (R215). -/
def moveScalar (o : VOps) (f : Word → List Nat → Nat → Nat) (s : State) : Host.Outcome State Fault Refusal :=
  issueNext o.g (fun u => do
    needSpace u o.d
    needRowWrite u o.d
    ensure u ([.vec o.a, .scalar o.b] ++ dstRd o.d o.k false)
    let a := rowLanes o.lw (← readVec u o.lw false o.a)
    let b ← readScalar u o.b
    putLanes u o.d o.lw o.k 1 (fun i => (f b a i, 0))) s

/-- VBCST: lane value(b) mod N of A in every lane (R215). -/
def execVbcst (o : VOps) (s : State) : Host.Outcome State Fault Refusal :=
  moveScalar o (fun b a _ => laneAt a (b.toNat % laneN o.lw)) s

/-- VSEL: A where the mask bit is 1, else B; every lane is written (R215). -/
def execVsel (o : VOps) (int : Bool) (s : State) : Host.Outcome State Fault Refusal :=
  issueNext o.g (fun u => do
    needSpace u o.d
    needRowWrite u o.d
    ensure u [.vec o.a, .vec o.b]
    let a := rowLanes o.lw (← readVec u o.lw int o.a)
    let b := rowLanes o.lw (← readVec u o.lw int o.b)
    let m ← getMask u o.k
    deliverRow u o.d (rowOf o.lw (a.zipIdx.map (fun p => if m.getLsbD p.2 then p.1 else laneAt b p.2))) 1) s

/-- VSHUF: lane VAL of B.lane[i] of A, or zero bits (R215). -/
def execVshuf (o : VOps) (s : State) : Host.Outcome State Fault Refusal :=
  issueNext o.g (fun u => do
    needSpace u o.d
    needRowWrite u o.d
    ensure u ([.vec o.a, .vec o.b] ++ dstRd o.d o.k false)
    let a := rowLanes o.lw (← readVec u o.lw false o.a)
    let b := rowLanes o.lw (← readVec u o.lw true o.b)
    putLanes u o.d o.lw o.k 1 (fun i =>
      let j := imgInt o.lw (laneAt b i)
      (if j < 0 then 0 else laneAt a j.toNat, 0))) s

/-- The lane that VROT puts in place i (R215). -/
def rotLane (lw : Bool) (dir : RotDir) (b : Word) (a : List Nat) (i : Nat) : Nat :=
  let n := laneN lw
  let s := min b.toNat n
  match dir with
  | .rot => laneAt a ((i + b.toNat) % n)
  | .dn => if i + s < n then laneAt a (i + s) else 0
  | .up => if s ≤ i then laneAt a (i - s) else 0

/-- VROT (R215). -/
def execVrot (o : VOps) (dir : RotDir) (s : State) : Host.Outcome State Fault Refusal := moveScalar o (rotLane o.lw dir) s

/-- The scalar that VEXT delivers from a lane (R216). -/
def extLane (lw : Bool) (sel : LaneSel) (v : Nat) : Word :=
  match sel with
  | .img => BitVec.ofNat 64 v
  | .flt => wordOfImg (imgConv lw false v)
  | .int => BitVec.ofInt 64 (imgInt lw v)

/-- VEXT: lane value(b) mod N as a scalar (R215, R216). -/
def execVext (o : VOps) (sel : LaneSel) (s : State) : Host.Outcome State Fault Refusal :=
  issueNext o.g (fun u => do
    needSpace u o.d
    ensure u [.vec o.a, .scalar o.b]
    let a := rowLanes o.lw (← readVec u o.lw false o.a)
    let b ← readScalar u o.b
    deliver u o.d (extLane o.lw sel (laneAt a (b.toNat % laneN o.lw)))) s

/-- VINS: lane value(b) mod N of DST written, every other kept (R215, R216). -/
def execVins (o : VOps) (sel : LaneSel) (s : State) : Host.Outcome State Fault Refusal :=
  issueNext o.g (fun u => do
    needSpace u o.d
    needRowWrite u o.d
    ensure u [.scalar o.a, .scalar o.b, .vec (destSrc o.d)]
    let v ← match sel with
      | .flt => do pure (imgConv false o.lw (← readFloat u o.a))
      | .int => do pure (satImg o.lw (← readScalar u o.a).toInt false)
      | .img => do pure ((← readScalar u o.a).toNat % 2 ^ laneW o.lw)
    let b ← readScalar u o.b
    let old := rowLanes o.lw (← oldRow u o.d)
    deliverRow u o.d (rowOf o.lw (old.set (b.toNat % laneN o.lw) v)) 1 true) s

/-! ### Major 0x63 (R217, R218) -/

/-- One lane of VCMP (R82, R217). -/
def cmpLane (lw int : Bool) (c : Cond) (x : Bool) (a b : Nat) : Bool :=
  if int then
    let eq := imgInt lw a == imgInt lw b && !(x && (imgStk lw a || imgStk lw b))
    match c with
    | .eq => eq
    | .ne => !eq
    | k => condHolds k (compare (imgInt lw a) (imgInt lw b))
  else fltCmp lw c x a b

/-- VCMP: 0 in excluded lanes and above N (R217). -/
def execVcmp (o : VOps) (c : Cond) (int x : Bool) (s : State) : Host.Outcome State Fault Refusal :=
  issueNext o.g (fun u => do
    ensure u [.vec o.a, .vec o.b]
    let a := rowLanes o.lw (← readVec u o.lw int o.a)
    let b := rowLanes o.lw (← readVec u o.lw int o.b)
    let m ← getMask u o.k
    deliverMask u o.d (maskOf (a.zipIdx.map (fun p => m.getLsbD p.2 && cmpLane o.lw int c x p.1 (laneAt b p.2))))) s

/-- KAND (R218). -/
def execKand (g : Guard) (d : Dest) (ka kb : BitVec 4) (s : State) : Host.Outcome State Fault Refusal :=
  issueNext g (fun u => do deliverMask u d ((← getMask u ka) &&& (← getMask u kb))) s

/-- KOR (R218). -/
def execKor (g : Guard) (d : Dest) (ka kb : BitVec 4) (s : State) : Host.Outcome State Fault Refusal :=
  issueNext g (fun u => do deliverMask u d ((← getMask u ka) ||| (← getMask u kb))) s

/-- KNOT (R218). -/
def execKnot (g : Guard) (d : Dest) (ka : BitVec 4) (s : State) : Host.Outcome State Fault Refusal :=
  issueNext g (fun u => do deliverMask u d (~~~(← getMask u ka))) s

/-- KPOPC: lanes below N with both bits 1 (R218). -/
def execKpopc (g : Guard) (d : Dest) (ka : BitVec 4) (lw : Bool) (k : BitVec 4) (s : State) : Host.Outcome State Fault Refusal :=
  issueNext g (fun u => do
    needSpace u d
    let a ← getMask u ka
    let m ← getMask u k
    deliver u d (BitVec.ofNat 64 (popCount (laneN lw) (a &&& m).toNat))) s

/-! ### Major 0x64 (R219 to R225) -/

/-- A float lane converted to the integer interpretation with a rounding mode, then saturated (R68, R219). -/
def fltToLane (lw : Bool) (r : Rnd) (draw b : Nat) : Nat × Flg :=
  let stk := imgStk lw b
  match imgVal lw b with
  | .nan => (withStk lw 0 true, flgNV)
  | .inf s => (satImg lw (if s then -(2 ^ 40) else 2 ^ 40) stk, 0)
  | .fin s m e =>
    let n := roundAt r draw s m e 0
    (satImg lw (if s then -(n.1 : Int) else n.1) (stk || n.2), 0)

/-- The mode of a conversion, where it has one (R219). -/
def cvtRnd : VCvtKind → Rnd
  | .f36i36 r => r
  | .f18i18 r => r
  | _ => .rne

/-- Widths of source and destination lanes: W18 where true (R219). -/
def cvtWidths : VCvtKind → Bool × Bool
  | .f36f18 _ => (false, true)
  | .f18f36 _ => (true, false)
  | .f36i36 _ => (false, false)
  | .i36f36 => (false, false)
  | .f18i18 _ => (true, true)
  | .i18f18 => (true, true)
  | .i36i18 _ => (false, true)
  | .i18i36 _ => (true, false)

/-- The half of the W18 row that a width change uses (R219). -/
def cvtHalf : VCvtKind → Nat
  | .f36f18 h => 128 * h.toNat
  | .f18f36 h => 128 * h.toNat
  | .i36i18 h => 128 * h.toNat
  | .i18i36 h => 128 * h.toNat
  | _ => 0

/-- One lane of VCVT (R219). -/
def cvtLane (c : VCvtKind) (draw b : Nat) : Nat × Flg :=
  match c with
  | .f36f18 _ => (imgConv false true b, 0)
  | .f18f36 _ => (widen18 b, 0)
  | .f36i36 r => fltToLane false r draw b
  | .i36f36 => (roundOdd false (.ofInt (imgInt false b)) (imgStk false b), 0)
  | .f18i18 r => fltToLane true r draw b
  | .i18f18 => (roundOdd true (.ofInt (imgInt true b)) (imgStk true b), 0)
  | .i36i18 _ => (satImg true (imgInt false b) (imgStk false b), 0)
  | .i18i36 _ => (satImg false (imgInt true b) (imgStk true b), 0)

/-- Does a conversion write destination lane i: a narrowing form writes its half only (R219)? -/
def cvtWrites (c : VCvtKind) (i : Nat) : Bool :=
  if (cvtWidths c).2 && !(cvtWidths c).1 then decide (cvtHalf c ≤ i ∧ i < cvtHalf c + 128) else true

/-- The source lane of destination lane i (R219). -/
def cvtSrcLane (c : VCvtKind) (i : Nat) : Nat :=
  if (cvtWidths c).1 = (cvtWidths c).2 then i else if (cvtWidths c).2 then i - cvtHalf c else cvtHalf c + i

/-- The draws of a lane operation: one per included lane in mode 5, in ascending lanes; the draw of a lane is by its rank
among the included ones (R71). -/
def laneDraws (u : Cur) (r : Rnd) (inc : List Bool) : M (List Nat) := do
  if r = .rsto then
    let ds ← takeDraws u (inc.filter id).length 2
    pure (inc.zipIdx.map (fun p => ds.getD ((inc.take p.2).filter id).length 0))
  else pure []

/-- VCVT (R219). -/
def execVcvt (o : ROps1) (k : BitVec 4) (c : VCvtKind) (s : State) : Host.Outcome State Fault Refusal :=
  issueNext o.g (fun u => do
    let (lwS, lwD) := (cvtWidths c)
    needSpace u o.d
    needRowWrite u o.d
    ensure u ([.vec o.a] ++ dstRd o.d k (lwD && !lwS && destVq o.d))
    let m ← getMask u k
    let inc := (List.range (laneN lwD)).map (fun i => m.getLsbD i && cvtWrites c i)
    let ds ← laneDraws u (cvtRnd c) inc
    let int := match c with
      | .i36f36 => true
      | .i18f18 => true
      | .i36i18 _ => true
      | .i18i36 _ => true
      | _ => false
    let a := rowLanes lwS (← readVec u lwS int o.a)
    let old ← oldRow u o.d
    let r := maskedLanes lwD (maskOf inc) (rowLanes lwD old) (fun i => cvtLane c (ds.getD i 0) (laneAt a (cvtSrcLane c i)))
    setFlags u r.2
    deliverRow u o.d r.1 2 (k != 0 || (lwD && !lwS))) s

/-- The memory-format code of a block format (R220). -/
def qfmtCode : QFmt → Nat
  | .bf16 => 1
  | .fp16 => 2
  | .e4m3 => 3
  | .e5m2 => 4
  | .e2m3 => 5
  | .e3m2 => 6
  | .e2m1 => 7
  | .int8 => 8
  | .fd n => 17 + n.toNat

/-- emax: the exponent of the largest power of two the format holds (R220). DESIGN CHOICE (log entry 80): of a custom format whose
greatest finite value is 0, of which R220 takes the logarithm, 0 stands for log2 0. -/
def fmtEmax (f : MFmt) : Int :=
  match f with
  | .flt _ e m bias pol subn =>
    let v := codeVal e m bias subn (maxCode e m pol)
    (Nat.log2 v.1 : Int) + v.2
  | .int w _ => (w : Int) - 2
  | _ => 0

/-- The quotient of two finite values for a final store: truncated below 100 significant bits with a sticky last bit, which
every mode of R70 rounds as it rounds the exact quotient. -/
def quoVal (neg : Bool) (m : Nat) (e : Int) (n : Nat) (f : Int) : XVal :=
  let p := 100 + Nat.log2 n
  let q := (m <<< p) / n
  let s := (m <<< p) % n
  .fin neg (2 * q + (if s = 0 then 0 else 1)) (e - f - p - 1)

/-- A scale lane: `none` where R221 rejects it. -/
def scaleVal (b : Nat) : Option (Nat × Int) :=
  match imgVal false b with
  | .fin false m e => if m = 0 then none else some (m, e)
  | _ => none

/-- One element of VQNT (R221, R222). -/
def qntElem (f : MFmt) (r : Rnd) (a sc draw : Nat) : Nat × Flg :=
  let stk := imgStk false a || imgStk false sc
  match scaleVal sc with
  | none => let v := finalRound f (.flt .nan stk) r draw; (v.1, v.2 ||| flgNV)
  | some (n, k) =>
    let x := match imgVal false a with
      | .fin s m e => if m = 0 then .fin s 0 0 else quoVal s m e n k
      | y => y
    finalRound f (.flt x stk) r draw

/-- VQNT (R222). -/
def execVqnt (o : ROps) (k : BitVec 4) (f : QFmt) (r : Rnd) (s : State) : Host.Outcome State Fault Refusal :=
  issueNext o.g (fun u => do
    let code := qfmtCode f
    let mf ← getFmt u code
    needPrec false mf code
    needSpace u o.d
    needRowWrite u o.d
    ensure u ([.vec o.a, .vec o.b] ++ dstRd o.d k false)
    let m ← getMask u k
    let inc := (List.range 128).map (fun i => m.getLsbD i)
    let ds ← laneDraws u r inc
    let a := rowLanes false (← readVec u false false o.a)
    let b := rowLanes false (← readVec u false false o.b)
    let old ← oldRow u o.d
    let es := inc.zipIdx.map (fun p =>
      if p.1 then qntElem mf r (laneAt a p.2) (laneAt b (p.2 / 32)) (ds.getD p.2 0) else (elemAt old.toNat mf.width p.2, 0))
    setFlags u (es.foldl (fun (x : Flg) e => x ||| e.2) 0)
    deliverRow u o.d (BitVec.ofNat 4608 (packBits mf.width (es.map (·.1)))) 4 (k != 0)) s

/-- One lane of VDQ (R223). -/
def dqLane (f : MFmt) (e sc : Nat) : Nat × Flg :=
  match scaleVal sc with
  | none => (nanImg false (imgStk false sc), flgNV)
  | some (n, k) =>
    let x := match f with
      | .int _ _ => XVal.ofInt (f.ival e)
      | _ => f.val e
    (roundOdd false (x.mul (.fin false n k)).1 (imgStk false sc), 0)

/-- VDQ (R223). -/
def execVdq (o : ROps) (k : BitVec 4) (f : QFmt) (s : State) : Host.Outcome State Fault Refusal :=
  issueNext o.g (fun u => do
    let mf ← getFmt u (qfmtCode f)
    needSpace u o.d
    needRowWrite u o.d
    ensure u ([.vec o.a, .vec o.b] ++ dstRd o.d k false)
    let a ← readVec u false false o.a
    let b := rowLanes false (← readVec u false false o.b)
    putLanes u o.d false k 4 (fun i => dqLane mf (elemAt a.toNat mf.width i) (laneAt b (i / 32)))) s

/-- The magnitude and the scale of one block of VBMAX (R224). -/
def blockMax (emax : Int) (ls : List Nat) : Nat × Nat × Flg :=
  let stk := ls.any (imgStk false)
  let vals := ls.map (imgVal false)
  let nans := vals.any XVal.isNan
  let infs := vals.any (fun v => match v with | .inf _ => true | _ => false)
  if nans || infs then (nanImg false stk, nanImg false stk, flgIf (!nans) flgNV)
  else
    let m := ls.foldl (fun m b => max m (imgAbs false b % 2 ^ 34)) 0
    let sc := match imgVal false m with
      | .fin _ n e =>
        if n = 0 then roundOdd false (.fin false 1 0) false
        else roundOdd false (.fin false 1 (max (-127) (min 127 ((Nat.log2 n : Int) + e - emax)))) false
      | _ => 0
    (withStk false m stk, sc, 0)

/-- VBMAX: scales in lanes 0 to 3, magnitudes in lanes 4 to 7, +0 elsewhere (R224). -/
def execVbmax (o : ROps1) (k : BitVec 4) (f : QFmt) (s : State) : Host.Outcome State Fault Refusal :=
  issueNext o.g (fun u => do
    let mf ← getFmt u (qfmtCode f)
    needSpace u o.d
    needRowWrite u o.d
    ensure u [.vec o.a]
    let m ← getMask u k
    let a := rowLanes false (← readVec u false false o.a)
    let bs := (List.range 4).map (fun b =>
      blockMax (fmtEmax mf) ((List.range 32).filterMap (fun i => if m.getLsbD (32 * b + i) then some (laneAt a (32 * b + i)) else none)))
    setFlags u (bs.foldl (fun (x : Flg) b => x ||| b.2.2) 0)
    deliverRow u o.d (rowOf false (bs.map (·.2.1) ++ bs.map (·.1) ++ List.replicate 120 0)) 3) s

/-! ### The reduction slot (R87, R226 to R229) -/

/-- Combine two floats by an operation of the slot (R87). -/
def redFlt (op : RedOp) (lw : Bool) (a b : Nat) : Nat × Bool :=
  match op with
  | .sum => let r := fltAdd lw a b; (r.1, r.2 != 0)
  | .max => (fltMinMax true lw a b, false)
  | .min => (fltMinMax false lw a b, false)

/-- Combine two exact integers with their STK. -/
def redInt (op : RedOp) (a b : Int × Bool) : Int × Bool :=
  (match op with | .sum => a.1 + b.1 | .max => max a.1 b.1 | .min => min a.1 b.1, a.2 || b.2)

/-- One node of a tree over lanes that may be absent (R87). -/
def redNode (f : α → α → α × Bool) : Option α → Option α → Option α × Bool
  | some a, some b => let r := f a b; (some r.1, r.2)
  | some a, none => (some a, false)
  | none, y => (y, false)

/-- The tree of R87 over 2^j lanes, whether a node was invalid. -/
def redTree (f : α → α → α × Bool) : Nat → List (Option α) → Option α × Bool
  | 0, l => (l.headD none, false)
  | j + 1, l =>
    let h := 2 ^ j
    let ns := (l.take h).zipWith (redNode f) (l.drop h)
    let r := redTree f j (ns.map (·.1))
    (r.1, r.2 || ns.any (·.2))

/-- log2 of the number of lanes. -/
def laneLg (lw : Bool) : Nat := if lw then 8 else 7

/-- The included lanes of a row. -/
def incLanes (lw : Bool) (m : Mask) (r : Row) : List (Option Nat) :=
  (rowLanes lw r).zipIdx.map (fun p => if m.getLsbD p.2 then some p.1 else none)

/-- The float tree of R87 over a row. -/
def fltTree (op : RedOp) (lw : Bool) (ls : List (Option Nat)) : Option Nat × Bool := redTree (redFlt op lw) (laneLg lw) ls

/-- The integer tree of R87 over a row: exact at every node. -/
def intTree (op : RedOp) (lw : Bool) (ls : List (Option Nat)) : Option (Int × Bool) :=
  (redTree (fun a b => (redInt op a b, false)) (laneLg lw) (ls.map (·.map (fun b => (imgInt lw b, imgStk lw b))))).1

/-- A reduction issued in this cycle, to land 6 cycles later (R226, R277). -/
def State.startRed (s : State) (c : Nat) (rl : BitVec 2) (op : RedOp) (int lw : Bool) (ls : List (Option Nat)) : State :=
  let ft := fltTree op lw ls
  let r : RedLand := {
    time := s.now + 6, rl := rl, op := op, int := int
    flt := if int then none else ft.1.map (fun b => BitVec.ofNat 36 (imgConv lw false b))
    ival := if int then intTree op lw ls else none
    nv := !int && ft.2 }
  (s.modJob c (fun j => { j with redl := j.redl ++ [r] })).postEarly (s.now + 6) (.vredLanding c)

/-- VRED (R227). -/
def execVred (g : Guard) (a : Src) (lw : Bool) (k : BitVec 4) (rl : BitVec 2) (op : RedOp) (int : Bool) (s : State) :
    Host.Outcome State Fault Refusal :=
  issueNext g (fun u => do
    ensure u [.vec a]
    let m ← getMask u k
    let r ← readVec u lw int a
    modify (fun s => s.startRed u.core rl op int lw (incLanes lw m r))) s

/-- The identity of a float operation (R87). -/
def redIdent (op : RedOp) (lw : Bool) : Nat :=
  match op with
  | .sum => 0
  | .max => roundOdd lw (.inf true) false
  | .min => roundOdd lw (.inf false) false

/-- A landing combined into its latch, with NV (R87, R227). -/
def landLatch (r : RedLand) (l : Nat) : Nat × Bool :=
  if r.int then
    match r.ival with
    | none => (l, false)
    | some v => let x := redInt r.op (imgInt false l, imgStk false l) v; (satImg false x.1 x.2, false)
  else
    let x := redFlt r.op false l ((r.flt.map (·.toNat)).getD (redIdent r.op false))
    (x.1, x.2 || r.nv)

/-- The landings due now combine into their latches in issue order (R226). -/
def State.landReds (s : State) (c : Nat) : State :=
  match (s.core c).job with
  | none => s
  | some j =>
    let now := j.redl.filter (fun r => decide (r.time ≤ s.now))
    now.foldl (fun s r =>
      let v := landLatch r (tget 0 (s.jobAt c).rl r.rl.toNat).toNat
      (s.modJob c (fun j => { j with
        rl := tput 0 j.rl r.rl.toNat (BitVec.ofNat 36 v.1)
        micro := j.micro.map (fun m => { m with sample := m.sample.map (fun p =>
          if p.cleared = some r.rl then { p with landed := p.landed ++ [r] } else p) }) })).orAsrAt c .cx (flgIf v.2 flgNV))
      (s.modJob c (fun j => { j with redl := j.redl.filter (fun r => decide (s.now < r.time)) }))

/-- VRED_LANDING (R226). -/
def execVredLanding (core : Nat) (s : State) : Host.Outcome State Fault Refusal := event (·.landReds core) s

/-- The reset value of a latch (R228). -/
def clrImg : ClrVal → Nat
  | .z => 0
  | .ninf => roundOdd false (.inf true) false
  | .pinf => roundOdd false (.inf false) false

/-- VRMOV (R228). -/
def execVrmov (g : Guard) (d : Dest) (rl : BitVec 2) (clr : Option ClrVal) (s : State) : Host.Outcome State Fault Refusal :=
  issueNext g (fun u => do
    needSpace u d
    let j ← getJob u
    deliver u d ((tget 0 j.rl rl.toNat).setWidth 64)
    match clr with
    | some v => modJob u (fun j => { j with rl := tput 0 j.rl rl.toNat (BitVec.ofNat 36 (clrImg v)) })
    | none => pure ()) s

/-- The steps of a prefix over lanes that may be absent, j of them from step i (R229). -/
def scanSteps (f : α → α → α × Bool) : Nat → Nat → List (Option α) → List (Option α) × Bool
  | 0, _, t => (t, false)
  | j + 1, i, t =>
    let h := 2 ^ i
    let ns := (t.take h).map (fun x => (x, false)) ++ t.zipWith (redNode f) (t.drop h)
    let r := scanSteps f j (i + 1) (ns.map (·.1))
    (r.1, r.2 || ns.any (·.2))

/-- The outputs of a prefix: shifted by one lane where exclusive, the identity where absent (R229). -/
def scanOut (excl : Bool) (ident : α) (t : List (Option α)) : List α :=
  (if excl then none :: t.dropLast else t).map (fun x => x.getD ident)

/-- VSCAN (R229). The integer identities of maximum and minimum are not stated: a free value. -/
def execVscan (o : VOps1) (op : RedOp) (int excl : Bool) (s : State) : Host.Outcome State Fault Refusal :=
  issueNext o.g (fun u => do
    needSpace u o.d
    needRowWrite u o.d
    ensure u ([.vec o.a] ++ dstRd o.d o.k false)
    let m ← getMask u o.k
    let a ← readVec u o.lw int o.a
    let ls := incLanes o.lw m a
    let lat := if o.lw then 9 else 8
    if int then
      let s ← get
      let (w, s) := s.drawNat
      set s
      let ident : Int := if op = .sum then 0 else imgInt o.lw (w % 2 ^ laneW o.lw)
      let t := scanSteps (fun a b => (redInt op a b, false)) (laneLg o.lw) 0 (ls.map (·.map (fun b => (imgInt o.lw b, imgStk o.lw b))))
      let out := (scanOut excl (ident, false) t.1).map (fun v => satImg o.lw v.1 v.2)
      putLanes u o.d o.lw o.k lat (fun i => (laneAt out i, 0))
    else
      let t := scanSteps (redFlt op o.lw) (laneLg o.lw) 0 ls
      let out := scanOut excl (redIdent op o.lw) t.1
      setFlags u (flgIf t.2 flgNV)
      putLanes u o.d o.lw o.k lat (fun i => (laneAt out i, 0))) s

/-! ### Special functions (R230 to R232) -/

/-- Hold while the special-function unit is occupied; then it is occupied for n cycles (R230). -/
def takeSfu (u : Cur) (n : Nat) : M Unit := do
  let s ← get
  holdIf (decide (s.now < (s.core u.core).sfuFree)) .busy
  set (s.modCore u.core (fun k => { k with sfuFree := s.now + n }))

/-- VSFU (R231). -/
def execVsfu (o : VOps1) (f : SfuFn) (s : State) : Host.Outcome State Fault Refusal :=
  issueNext o.g (fun u => do
    needSpace u o.d
    needRowWrite u o.d
    ensure u ([.vec o.a] ++ dstRd o.d o.k false)
    takeSfu u (laneN o.lw / 32)
    let a := rowLanes o.lw (← readVec u o.lw false o.a)
    putLanes u o.d o.lw o.k (4 + laneN o.lw / 32) (fun i => sfuImg f o.lw (laneAt a i))) s

/-- log2 e as an image: RoundOdd of the exact value (R93). -/
def log2eImg (lw : Bool) : Nat :=
  let v := ((fxOne * fxOne : Int) / fxLn2).toNat
  roundOdd lw (.fin false v (-(fxP : Int))) true % 2 ^ valW lw

/-- The softmax of R93 on the lanes of a row under a mask: the outputs and the flags ER, NV and DZ. DEDUCED (log entry 79): where a lane
is +infinity, the zeros of the lanes outside the mask carry STK 0, as in the other cases of the rule. -/
def softmax (lw : Bool) (ls : List (Option Nat)) : List Nat × Flg :=
  let us := ls.filterMap id
  let vals := us.map (imgVal lw)
  let stk := us.any (imgStk lw)
  let zeros := ls.map (fun x => if x.isSome then withStk lw 0 stk else 0)
  let c := (vals.filter (fun v => v == .inf false)).length
  if us.isEmpty then (zeros, flgER)
  else if vals.any XVal.isNan then (ls.map (fun x => if x.isSome then nanImg lw stk else 0), 0)
  else if c ≠ 0 then
    let q := roundOddQ lw false 1 0 c
    (ls.map (fun x => match x with
      | some b => withStk lw (if imgVal lw b = .inf false then q.1 else 0) (stk || q.2)
      | none => 0), 0)
  else if vals.all (fun v => v == .inf true) then (zeros, flgER)
  else
    let m := (fltTree .max lw ls).1.getD 0
    let es := ls.map (·.map (fun x =>
      let d := fltSub lw x m
      let p := fltMul lw d.1 (withStk lw (log2eImg lw) true)
      let e := sfuImg .exp2 lw p.1
      (e.1, d.2 ||| p.2 ||| e.2)))
    let sm := fltTree .sum lw (es.map (·.map (·.1)))
    let z := sfuImg .rcp lw (sm.1.getD 0)
    let out := es.map (fun e => match e with | some v => fltMul lw v.1 z.1 | none => (0, 0))
    (out.map (·.1), ((es.filterMap id).foldl (fun (a : Flg) e => a ||| e.2) 0) ||| flgIf sm.2 flgNV ||| z.2
      ||| out.foldl (fun (a : Flg) r => a ||| r.2) 0)

/-- VSMAX: every lane is written (R232). -/
def execVsmax (o : VOps1) (s : State) : Host.Outcome State Fault Refusal :=
  issueNext o.g (fun u => do
    needSpace u o.d
    needRowWrite u o.d
    ensure u [.vec o.a]
    takeSfu u (2 * laneN o.lw / 32)
    let m ← getMask u o.k
    let a ← readVec u o.lw false o.a
    let r := softmax o.lw (incLanes o.lw m a)
    setFlags u r.2
    deliverRow u o.d (rowOf o.lw r.1) (14 + 2 * laneN o.lw / 32)) s

/-! ### Random numbers and the noise source (R233, R234) -/

/-- One lane of VRNG from its draw (R233). -/
def rngLane (lw unif : Bool) (d : Nat) : Nat :=
  if unif then (if lw then roundOdd true (.fin false (d / 256) (-8)) false else roundOdd false (.fin false (d / 256) (-24)) false)
  else withStk lw d false

/-- VRNG: N draws whatever the mask (R233). -/
def execVrng (g : Guard) (d : Dest) (unif lw : Bool) (k : BitVec 4) (s : State) : Host.Outcome State Fault Refusal :=
  issueNext g (fun u => do
    needSpace u d
    needRowWrite u d
    ensure u (dstRd d k false)
    let ds ← takeDraws u (laneN lw) (if lw then 2 else 4)
    putLanes u d lw k 2 (fun i => (rngLane lw unif (laneAt ds i), 0))) s

/-- The source of a bay grants one request per cycle, the cores in turn; a grant not taken in the cycle after it returns to
the requests (R234). -/
def State.noiseServe (s : State) (b : Nat) : State :=
  let y := s.bay b
  let reqs := y.noiseReq ++ (y.noiseGrant.toList.filter (fun g => !y.noiseReq.contains g))
  if reqs.isEmpty then s
  else
    let s := s.postOnce (s.now + 1) (.noiseGrant b)
    if !y.noiseOk then s.modBay b (fun y => { y with noiseReq := reqs, noiseGrant := none })
    else
      match (List.range 4).findSome? (fun i => reqs.find? (fun r => r / 8 == (y.noiseNext + i) % 4)) with
      | none => s
      | some r => s.modBay b (fun y => { y with
          noiseReq := reqs.filter (· != r), noiseGrant := some r, noiseNext := (r / 8 + 1) % 4 })

/-- NOISE_GRANT (R234). -/
def execNoiseGrant (bay : Nat) (s : State) : Host.Outcome State Fault Refusal := event (·.noiseServe bay) s

end Sys2Proof.Machine
end

