-- ==== Sys2Proof/Machine/Matrix.lean ====
section
/-!
DEFINITION. The matrix array: lease, commands, K-steps, sparsity, set-up and retirement, majors 0x80 to 0x83 (R147, R238 to R266).
-/

namespace Sys2Proof.Machine

/-! ### The lease (R239 to R241) -/

/-- A core's standing request of its bay. -/
def Bay.reqOf (b : Bay) (k : Nat) : LeaseReq := ((b.req.find? (fun r => r.1 == k)).map (·.2)).getD .idle

/-- A bay with a core's request replaced. -/
def Bay.setReq (b : Bay) (k : Nat) (r : LeaseReq) : Bay :=
  { b with req := (if r = .idle then [] else [(k, r)]) ++ b.req.filter (fun e => e.1 != k) }

/-- Enter a request, to be answered at the end of this cycle. -/
def State.leaseAsk (s : State) (c : Nat) (r : LeaseReq) : State :=
  (s.modBay (coreBay c) (fun b => b.setReq (c % 4) r)).postOnce s.now (.leaseGrant (coreBay c))

/-- The lease trap (R241 to R243). -/
def leaseTrap (detail : Nat) : Trap := { cause := 0x0B, detail := BitVec.ofNat 64 detail }

/-- LEASE: requests the array and waits, or with NB asks in this cycle only; it retires in the cycle after the answer (R239,
R241). -/
def execLease (g : Guard) (nb : Option (BitVec 3)) (s : State) : Host.Outcome State Fault Refusal :=
  issueNext g (fun u => do
    let me := u.core % 4
    let b := (← get).bay (coreBay u.core)
    let clear : M Unit := modify (fun s => s.modBay (coreBay u.core) (fun b => b.setReq me .idle))
    let answer := fun (v : Bool) => match nb with
      | some p => modStrm u (fun x => x.setPred p v)
      | none => pure ()
    match b.reqOf me with
    | .granted => do clear; answer true
    | .refused => do clear; answer false
    | .wait => keepFor .lease
    | .nb => keepFor .busy
    | .idle =>
      trapIf (b.holder == some me) (leaseTrap 2)
      trapIf (!(← getJob u).lease) (leaseTrap 3)
      modify (fun s => s.leaseAsk u.core (if nb.isSome then .nb else .wait))
      keepFor (if nb.isSome then .busy else .lease)) s

/-- The arbiter: with no grant held it grants the first requesting core from P on; requests of this cycle only that lose are
refused (R239, R241). -/
def State.leaseServe (s : State) (b : Nat) : State :=
  let y := s.bay b
  let asks := y.req.filter (fun r => r.2 = .wait ∨ r.2 = .nb)
  if asks.isEmpty then s
  else
    let lose := fun (l : List (Nat × LeaseReq)) => l.map (fun r => if r.2 = .nb then (r.1, LeaseReq.refused) else r)
    let s' :=
      if y.holder.isSome || y.grantEnd == some s.now then s.modBay b (fun y => { y with req := lose y.req })
      else
        match (List.range 4).findSome? (fun i => asks.find? (fun r => r.1 == (y.p + i) % 4)) with
        | none => s
        | some r => s.modBay b (fun y => { y with
            holder := some r.1, gc := 0, grantEnd := none, p := (r.1 + 1) % 4
            req := lose (y.req.map (fun e => if e.1 = r.1 then (e.1, LeaseReq.granted) else e)) })
    if ((s'.bay b).req.any (fun r => r.2 = .wait)) then s'.postOnce (s.now + 1) (.leaseGrant b) else s'

/-- LEASE_GRANT (R239). -/
def execLeaseGrant (bay : Nat) (s : State) : Host.Outcome State Fault Refusal := event (·.leaseServe bay) s

/-- LREL (R241). -/
def execLrel (g : Guard) (s : State) : Host.Outcome State Fault Refusal :=
  issueNext g (fun u => modify (fun s => s.endGrant u.core)) s

/-! ### The format table and the classes (R245, R249 to R252) -/

/-- The fields of a format-table entry (R249). -/
structure FtEntry where
  afmt : Nat
  asc : Nat
  ag : Nat
  bfmt : Nat
  bsc : Nat
  bg : Nat
  acc : Bool
  sq : BitVec 2
  deriving DecidableEq, Repr

/-- The entry's fields (R249). -/
def ftEntry (w : BitVec 32) : FtEntry where
  afmt := (w.extractLsb' 0 5).toNat
  asc := (w.extractLsb' 17 2).toNat
  ag := (w.extractLsb' 19 3).toNat
  bfmt := (w.extractLsb' 8 5).toNat
  bsc := (w.extractLsb' 22 2).toNat
  bg := (w.extractLsb' 24 3).toNat
  acc := w.getLsbD 27
  sq := w.extractLsb' 28 2

/-- The format of an array operand (R250). -/
def arrFmt (fd : Nat → BitVec 32) (c : Nat) : Option MFmt :=
  if (1 ≤ c ∧ c ≤ 8) ∨ c = 10 ∨ (17 ≤ c ∧ c ≤ 24) then fmtOf fd c else none

/-- A valid scale mode of an operand (R250). -/
def scaleOk (mode code width : Nat) : Bool := mode < 2 || (mode == 2 && decide (width ≤ 8) && code != 10)

/-- The first failing check of an entry: operand and whether the scale mode failed; otherwise the two formats (R250). -/
def checkEntry (fd : Nat → BitVec 32) (e : FtEntry) : Except (Nat × Nat × Nat) (MFmt × MFmt) :=
  match arrFmt fd e.afmt with
  | none => .error (e.afmt, 0, 0)
  | some a =>
    if !scaleOk e.asc e.afmt a.width then .error (e.afmt, 0, 1)
    else
      match arrFmt fd e.bfmt with
      | none => .error (e.bfmt, 1, 0)
      | some b => if !scaleOk e.bsc e.bfmt b.width then .error (e.bfmt, 1, 1) else .ok (a, b)

/-- The number of the entry that a command selects (R251). -/
def selNum (j : Job) (f : FtSel) : Nat :=
  match f with
  | .ft n => n.toNat
  | .ftl => (tget 0 j.l 0).toNat % 16

/-- The K-step size of a class (R86, R245). -/
def stepSize (width : Nat) (w18 : Bool) : Nat :=
  (if width ≤ 6 then 16 else if width ≤ 8 then 8 else 4) / (if w18 then 2 else 1)

/-- Does a class accumulate in the integer interpretation (R245)? -/
def FtEntry.isInt (e : FtEntry) : Bool := (e.afmt == 8 || e.afmt == 10) && (e.bfmt == 8 || e.bfmt == 10) && e.asc == 0 && e.bsc == 0

/-- A scale as captured at issue (R192, R252). -/
def scaleCap (mode : Nat) (g : Word) : ScaleCap :=
  match mode with
  | 0 => .none
  | 1 => .tensor (g.setWidth 36)
  | _ => .block (g.toNat % 2 ^ 24) (g.toNat / 2 ^ 24 % 2 ^ 24)

/-! ### Operands (R147, R246 to R248, R254) -/

/-- The extent of an operand: tiles, rows reached in a tile, and elements reached in a row of it (R246, R254). -/
structure Extent where
  tiles : Nat
  h : Nat
  rows : Nat → Nat
  elems : Nat → Nat

/-- Extent of A dense: K logical indices; transposed or not (R246). -/
def extA (ta : Bool) (k : Nat) : Extent where
  tiles := (k + 127) / 128
  h := if ta then 128 else 64
  rows := fun t => if ta then min 128 (k - 128 * t) else 64
  elems := fun t => if ta then 64 else min 128 (k - 128 * t)

/-- Extent of sparse A: `steps` groups of n elements a row (R254). -/
def extS (n steps : Nat) : Extent where
  tiles := (steps * n + 127) / 128
  h := 64
  rows := fun _ => 64
  elems := fun t => min 128 (steps * n - 128 * t)

/-- Extent of B (R246). -/
def extB (tb : Bool) (k nc : Nat) : Extent where
  tiles := (k + 127) / 128
  h := if tb then nc else 128
  rows := fun t => if tb then nc else min 128 (k - 128 * t)
  elems := fun t => if tb then min 128 (k - 128 * t) else nc

/-- The rows of a row operand: from F on, up to the last one reached (R246, R247). -/
def Extent.rowCount (x : Extent) : Nat := (x.tiles - 1) * x.h + x.rows (x.tiles - 1)

/-- The offset of a byte of a cluster operand, bank-rotated (R147). -/
def clusterAt (base rp tp rot t r j : Nat) : Nat := (base + t * tp + r * rp + j) ^^^ ((r % 2 ^ rot) <<< 7)

/-- The pieces of a row's bytes: line by line, since the rotation moves whole lines (R147). -/
def clusterPieces (base rp tp rot t r n : Nat) : List (Nat × Nat) :=
  (splitAt2 7 (n / 128 + 2) (base + t * tp + r * rp) (List.replicate n ())).map (fun p => (p.1 ^^^ ((r % 2 ^ rot) <<< 7), p.2.length))

/-- The lowest byte of some pieces outside a region (R147, R252). -/
def lowestOut (size : Nat) (ps : List (Nat × Nat)) : Option Nat :=
  ps.foldl (fun m p => if size < p.1 + p.2 then some (match m with | some v => min v (max p.1 size) | none => max p.1 size) else m) none

/-- A trap of an operand check: DETAIL and FADDR hold one value (R147, R252). -/
def operandTrap (cause : BitVec 8) (w : Word) : Trap := { cause := cause, detail := w, faddr := w }

/-- The subcode of an operand row above v127 or inside the command's own region (R247). -/
def rowTrap : Trap := illegal9 12

/-- An operand of a command, checked: vector rows (R247), or a cluster pair (R147, R248). -/
def checkOperand (u : Cur) (x : Src) (acc : Bool) (w : Nat) (e : Extent) : M (ArrSrc × List Nat) := do
  match x with
  | .v f =>
    let n := f.toNat
    let k := e.rowCount
    let lo := if acc then 64 else 0
    trapIf (decide (128 < n + k) || (decide (n < lo + 64) && decide (lo < n + k))) rowTrap
    pure (.rows n, (List.range k).map (fun i => n + i))
  | .s n =>
    let v ← getStrm u
    let a := v.sReg n.toNat
    let b := v.sReg (n.toNat + 1)
    trapIf (decide (2 ^ 24 ≤ a.toNat)) (operandTrap 0x0E a)
    trapIf (decide (6 * 2 ^ 48 ≤ b.toNat)) (operandTrap 0x0E b)
    let rp := b.toNat % 2 ^ 24
    let tp := b.toNat / 2 ^ 24 % 2 ^ 24
    let rot := b.toNat / 2 ^ 48 % 16
    trapIf (decide (rp % 16 ≠ 0 ∨ tp % 16 ≠ 0)) (operandTrap 0x07 b)
    let size := (← get).regionSize u.core
    let ps := (List.range e.tiles).flatMap (fun t => (List.range (e.rows t)).flatMap (fun r =>
      clusterPieces a.toNat rp tp rot t r (runBytes w (e.elems t))))
    match lowestOut size ps with
    | some o => raiseTrap (operandTrap 0x0E (BitVec.ofNat 64 o))
    | none => pure (.cluster a.toNat rp tp rot, [])
  | _ => pure (.rows 0, [])

/-- The check of a block descriptor (R252). -/
def checkBlock (u : Cur) (mode : Nat) (g : Word) (k lines : Nat) : M Unit := do
  if mode = 2 then
    trapIf (decide (2 ^ 48 ≤ g.toNat)) (operandTrap 0x0E g)
    let base := g.toNat % 2 ^ 24
    let pitch := g.toNat / 2 ^ 24 % 2 ^ 24
    trapIf (decide (pitch % 16 ≠ 0)) (operandTrap 0x07 g)
    match lowestOut ((← get).regionSize u.core) ((List.range ((k + 31) / 32)).map (fun b => (base + b * pitch, lines))) with
    | some o => raiseTrap (operandTrap 0x0E (BitVec.ofNat 64 o))
    | none => pure ()

/-! ### Issue of array commands (R242, R243, R257) -/

/-- The grant that an array command needs (R242). -/
def needLease (u : Cur) : M Unit := do
  let b := (← get).bay (coreBay u.core)
  trapIf (b.holder != some (u.core % 4) || decide (64 ≤ b.gc)) (leaseTrap 1)

/-- The depth that an array command adds (R243). -/
def needDepth (u : Cur) (n : Nat) : M Unit := do
  let j ← getJob u
  trapIf (decide (j.maxrd < j.rd + n)) (leaseTrap 4)

/-- Hold while the array command queue is full (R242). -/
def needArrSlot (u : Cur) : M Unit := do
  let s ← get
  holdIf (decide (8 ≤ ((s.core u.core).arr.filter (fun a => !a.left || a.leftAt == s.now)).length)) .busy

/-- The array of a bay looks at its commands from the next cycle on. -/
def State.kickArray (s : State) (b : Nat) : State :=
  if s.posted (.kStepEntry b) then s else s.postEarly (s.now + 1) (.kStepEntry b)

/-- Enter a command in the core's queue. -/
def State.pushArr (s : State) (c : Nat) (a : ArrCmd) : State :=
  let (id, s) := s.newId
  (s.modCore c (fun k => { k with arr := k.arr ++ [{ a with id := id }] })).kickArray (coreBay c)

/-- An array command issues: it counts toward the grant, which ends with its 64th, and toward the chain (R240, R243, R257). -/
def State.issueArr (s : State) (c : Nat) (a : ArrCmd) : State :=
  let s := s.modBay (coreBay c) (fun b => { b with gc := b.gc + 1 })
  let s := if (s.bay (coreBay c)).gc = 64 then s.endGrant c else s
  let s := s.modJob c (fun j => { j with rd := j.rd + a.ks, co := true })
  s.pushArr c a

/-- An empty command of the issuing instruction. -/
def blankCmd (u : Cur) (now : Nat) (kind : ArrKind) (acc : Bool) : ArrCmd where
  id := 0
  kind := kind
  acc := acc
  a := .rows 0
  b := .rows 0
  ta := false
  tb := false
  ks := 0
  afmt := 0
  bfmt := 0
  afd := 0
  bfd := 0
  ascale := .none
  bscale := .none
  w18 := false
  int := false
  sq := 0
  issued := now
  pc := u.pc
  word := u.word
  reads := []
  step := 0
  completes := none
  left := false
  nv := false
  acks := []

/-- The descriptor a format code uses, as captured at issue (R192). -/
def fdOf (j : Job) (code : Nat) : BitVec 32 := if 17 ≤ code then tget 0 j.fd (code - 17) else 0

/-- The scalar registers that an array operand reads. -/
def arrRds (x : Src) : List Rd :=
  match x with
  | .s n => [.scalar (.s n), .scalar (.s (n + 1))]
  | _ => []

/-- The body of MMA and MMAS: the checks of R257 in their order; n is 0 for dense A. -/
def mmaBody (u : Cur) (sel : FtSel) (acc : Bool) (a b : Src) (ta tb : Bool) (n ks : Nat) : M Unit := do
  ensure u (arrRds a ++ arrRds b)
  needLease u
  let j ← getJob u
  let num := selNum j sel
  let e := ftEntry (tget 0 j.ft num)
  match checkEntry (fun i => tget 0 j.fd i) e with
  | .error (code, op, sc) =>
    raiseTrap { cause := 0x0D, detail := BitVec.ofNat 64 (code + 32 + 256 * num + 4096 * op + 8192 * sc) }
  | .ok (fa, fb) =>
    needDepth u ks
    let k := stepSize (max fa.width fb.width) e.acc
    let nc := if e.acc then 256 else 128
    let kk := if n = 0 then ks * k else ks * 8
    let (oa, ra) ← checkOperand u a acc fa.width (if n = 0 then extA ta kk else extS n ks)
    let (ob, rb) ← checkOperand u b acc fb.width (extB tb kk nc)
    let ga := tget 0 j.g e.ag
    let gb := tget 0 j.g e.bg
    checkBlock u e.asc ga kk 64
    checkBlock u e.bsc gb kk nc
    needArrSlot u
    let now := (← get).now
    modify (fun s => s.issueArr u.core { blankCmd u now (.mma n) acc with
      a := oa, b := ob, ta := ta, tb := tb, ks := ks, afmt := e.afmt, bfmt := e.bfmt, afd := fdOf j e.afmt, bfd := fdOf j e.bfmt
      ascale := scaleCap e.asc ga, bscale := scaleCap e.bsc gb, w18 := e.acc, int := e.isInt, sq := e.sq, reads := ra ++ rb })

/-- MMA (R256, R257). -/
def execMma (o : MmaOps) (s : State) : Host.Outcome State Fault Refusal :=
  issueNext o.g (fun u => mmaBody u o.sel o.acc o.a o.b o.ta o.tb 0 (o.ks.toNat + 1)) s

/-- MMAS: SP 1, 2 or 3 for 1, 2 or 4 of 8 (R254, R256). -/
def execMmas (o : MmasOps) (s : State) : Host.Outcome State Fault Refusal :=
  issueNext o.g (fun u => mmaBody u o.sel o.acc o.a o.b false o.tb (2 ^ (o.sp.toNat - 1)) (o.ks.toNat + 1)) s

/-- MZERO (R256, R257). -/
def execMzero (g : Guard) (acc : Bool) (s : State) : Host.Outcome State Fault Refusal :=
  issueNext g (fun u => do
    needLease u
    needDepth u 0
    needArrSlot u
    let now := (← get).now
    modify (fun s => s.issueArr u.core (blankCmd u now .mzero acc))) s

/-! ### K-steps (R86, R240, R246, R253 to R255, R257) -/

/-- `cnt` elements of w bits from element e0 on of row r of tile t of an operand whose tiles have h rows (R246, R248). -/
def State.opRun (s : State) (c : Nat) (x : ArrSrc) (h w t r e0 cnt : Nat) : List Nat :=
  let lo := w * e0 / 8
  let hi := (w * (e0 + cnt) + 7) / 8
  let bits := match x with
    | .rows f => ((s.jobAt c).row (f + t * h + r)).toNat >>> (8 * lo)
    | .staged rows => (tget 0 rows (t * h + r)).toNat >>> (8 * lo)
    | .cluster base rp tp rot =>
      match (s.bay (coreBay c)).region (s.jobAt c).rid with
      | none => 0
      | some g =>
        let m := (s.bay (coreBay c)).mem
        leNat ((List.range (hi - lo)).map (fun i => readByte m (g.base + clusterAt base rp tp rot t r (lo + i))))
  (List.range cnt).map (fun i => elemAt (bits >>> (w * e0 - 8 * lo)) w i)

/-- The cluster banks that a run touches (R147). -/
def opBanks (x : ArrSrc) (w t r e0 cnt : Nat) : List Nat :=
  match x with
  | .cluster base rp tp rot =>
    let lo := w * e0 / 8
    let hi := (w * (e0 + cnt) + 7) / 8
    ((List.range ((hi - lo + 126) / 128 + 1)).map (fun i => clusterAt base rp tp rot t r (min (lo + 128 * i) (hi - 1)) / 128 % 32))
  | _ => []

/-- The E8M0 bytes of the block scales of n lines for K block b, or none (R252). -/
def State.blockScales (s : State) (c : Nat) (x : ScaleCap) (b n : Nat) : Option (List Nat) :=
  match x with
  | .block base pitch => some ((s.clusterRead c (base + b * pitch) n).map (·.toNat))
  | _ => none

/-- An element as an exact value, with its block scale (R253). -/
def elemVal (f : MFmt) (e : Nat) (sc : Option Nat) : XVal :=
  match sc with
  | none => (match f with | .int _ _ => XVal.ofInt (f.ival e) | _ => f.val e)
  | some b =>
    let x := match f with
      | .int _ _ => let v := f.ival e; XVal.fin (decide (v < 0)) v.natAbs (-6)
      | _ => f.val e
    (x.mul (MFmt.e8m0.val b)).1

/-- The factor and STK of a per-tensor scale (R253). -/
def tensorOf (x : ScaleCap) : Option (XVal × Bool) :=
  match x with
  | .tensor w => some (imgVal false w.toNat, imgStk false w.toNat)
  | _ => none

/-- The exact sum of products of one accumulator element in one K-step, with NV (R84 to R86). -/
def dotX (ps : List (XVal × XVal)) : XVal × Bool :=
  match ps with
  | [] => (.fin false 0 0, false)
  | p :: rest => rest.foldl (fun r q => let m := q.1.mul q.2; let a := r.1.add m.1; (a.1, r.2 || m.2 || a.2)) (p.1.mul p.2)

/-- One row of the region after a K-step: `av` lists the K indices present in the row with their A values, `bv` gives the B
values of an index by column (R257). -/
def stepRow (cmd : ArrCmd) (row : Row) (av : List (Nat × XVal)) (bv : Nat → List XVal) : Row × Bool :=
  let ga := tensorOf cmd.ascale
  let gb := tensorOf cmd.bscale
  let stk := ((ga.map (·.2)).getD false) || ((gb.map (·.2)).getD false)
  let cols := av.map (fun a => (a.2, bv a.1))
  let ls := (rowLanes cmd.w18 row).zipIdx.map (fun p =>
    let d := dotX (cols.map (fun c => (c.1, c.2.getD p.2 (.fin false 0 0))))
    let d := match ga with | some g => let m := d.1.mul g.1; (m.1, d.2 || m.2) | none => d
    let d := match gb with | some g => let m := d.1.mul g.1; (m.1, d.2 || m.2) | none => d
    let r := (imgVal cmd.w18 p.1).add d.1
    (roundOdd cmd.w18 r.1 (imgStk cmd.w18 p.1 || stk), d.2 || r.2))
  (rowOf cmd.w18 (ls.map (·.1)), ls.any (·.2))

/-- One row of the region after an integer K-step (R68, R257). -/
def stepRowInt (cmd : ArrCmd) (row : Row) (av : List (Nat × Int)) (bv : Nat → List Int) : Row :=
  let cols := av.map (fun a => (a.2, bv a.1))
  rowOf cmd.w18 ((rowLanes cmd.w18 row).zipIdx.map (fun p =>
    let d := cols.foldl (fun (t : Int) c => t + c.1 * c.2.getD p.2 0) 0
    satImg cmd.w18 (imgInt cmd.w18 p.1 + d) (imgStk cmd.w18 p.1)))

/-- The positions a mask byte names, ascending (R254, R255). -/
def maskPositions (m : Nat) : List Nat := (List.range 8).filter (fun p => m.testBit p)

/-- The formats of a command. -/
def ArrCmd.fmts (a : ArrCmd) : MFmt × MFmt :=
  ((arrFmt (fun _ => a.afd) a.afmt).getD (.int 8 true), (arrFmt (fun _ => a.bfd) a.bfmt).getD (.int 8 true))

/-- The K-step size of a command. -/
def ArrCmd.k (a : ArrCmd) : Nat := stepSize (max a.fmts.1.width a.fmts.2.width) a.w18

/-- The A elements of a K-step by row: K index within the step, and element (R246, R254). -/
def State.stepA (s : State) (c : Nat) (a : ArrCmd) (n : Nat) (masks : BitVec 512) : List (List (Nat × Nat)) :=
  let w := a.fmts.1.width
  let k := a.k
  if n = 0 then
    let x0 := k * a.step
    let t := x0 / 128
    let e0 := x0 % 128
    if a.ta then
      let cols := (List.range k).map (fun i => s.opRun c a.a 128 w t (e0 + i) 0 64)
      (List.range 64).map (fun m => cols.zipIdx.map (fun q => (q.2, q.1.getD m 0)))
    else (List.range 64).map (fun m => (s.opRun c a.a 64 w t m e0 k).zipIdx.map (fun q => (q.2, q.1)))
  else
    let g := a.step
    let t := g / (128 / n)
    let e0 := g % (128 / n) * n
    (List.range 64).map (fun m =>
      (maskPositions (masks.toNat / 256 ^ m % 256)).zip (s.opRun c a.a 64 w t m e0 n))

/-- The B elements of a K-step: by K index within the step, the elements of every column (R246). -/
def State.stepB (s : State) (c : Nat) (a : ArrCmd) (n : Nat) : List (List Nat) :=
  let w := a.fmts.2.width
  let k := if n = 0 then a.k else 8
  let nc := laneN a.w18
  let x0 := k * a.step
  let t := x0 / 128
  let e0 := x0 % 128
  if a.tb then
    let rows := (List.range nc).map (fun r => s.opRun c a.b nc w t r e0 k)
    (List.range k).map (fun i => rows.map (fun r => r.getD i 0))
  else (List.range k).map (fun i => s.opRun c a.b 128 w t (e0 + i) 0 nc)

/-- The cluster banks a K-step reads (R147, R248). -/
def State.stepBanks (a : ArrCmd) (n : Nat) : List Nat :=
  let (fa, fb) := a.fmts
  let k := if n = 0 then a.k else 8
  let nc := laneN a.w18
  let x0 := k * a.step
  let t := x0 / 128
  let e0 := x0 % 128
  let ba := if n = 0 then
      (if a.ta then (List.range k).flatMap (fun i => opBanks a.a fa.width t (e0 + i) 0 64)
       else (List.range 64).flatMap (fun m => opBanks a.a fa.width t m e0 k))
    else (List.range 64).flatMap (fun m => opBanks a.a fa.width (a.step / (128 / n)) m (a.step % (128 / n) * n) n)
  let bb := if a.tb then (List.range nc).flatMap (fun r => opBanks a.b fb.width t r e0 k)
    else (List.range k).flatMap (fun i => opBanks a.b fb.width t (e0 + i) 0 nc)
  let sc := fun (x : ScaleCap) (lines : Nat) => match x with
    | .block base pitch => [(base + x0 / 32 * pitch) / 128 % 32, (base + x0 / 32 * pitch + lines - 1) / 128 % 32]
    | _ => []
  (ba ++ bb ++ sc a.ascale 64 ++ sc a.bscale nc).eraseDups

/-- The effect of one K-step or group on the region's rows (R257), with NV. -/
def State.kStep (s : State) (c : Nat) (a : ArrCmd) (n : Nat) (masks : BitVec 512) : State × Bool :=
  let (fa, fb) := a.fmts
  let k := if n = 0 then a.k else 8
  let ea := s.stepA c a n masks
  let eb := s.stepB c a n
  let base := if a.acc then 64 else 0
  let j := s.jobAt c
  let blk := k * a.step / 32
  let (rows, nv) :=
    if a.int then
      let bi := eb.map (fun r => r.map fb.ival)
      (ea.zipIdx.map (fun p => stepRowInt a (j.row (base + p.2)) (p.1.map (fun q => (q.1, fa.ival q.2))) (fun i => bi.getD i [])), false)
    else
      let sa := s.blockScales c a.ascale blk 64
      let sb := s.blockScales c a.bscale blk (laneN a.w18)
      let bx := eb.map (fun r => r.zipIdx.map (fun p => elemVal fb p.1 (sb.map (fun l => l.getD p.2 0))))
      let rs := ea.zipIdx.map (fun p => stepRow a (j.row (base + p.2))
        (p.1.map (fun q => (q.1, elemVal fa q.2 (sa.map (fun l => l.getD p.2 0))))) (fun i => bx.getD i []))
      (rs.map (·.1), rs.any (·.2))
  (s.modJob c (fun j => rows.zipIdx.foldl (fun j p => j.setRow (base + p.2) p.1) j), nv)

/-- Change a command of a core. -/
def State.modArr (s : State) (c id : Nat) (f : ArrCmd → ArrCmd) : State :=
  s.modCore c (fun k => { k with arr := mapIf (fun a => a.id == id) f k.arr })

/-- Is a command an `MRET`? -/
def ArrCmd.isMret (a : ArrCmd) : Bool :=
  match a.kind with
  | .mret .. => true
  | _ => false

/-- May a command's first K-step enter: two cycles after issue (R240), with no uncompleted `MRET` on its region before it
(R263) and no uncompleted command before it on a region that holds its operand rows (R247)? -/
def mayEnter (now : Nat) (before : List ArrCmd) (a : ArrCmd) : Bool :=
  decide (a.issued + 2 ≤ now) && before.all (fun b =>
    !(b.isMret && b.acc == a.acc) && !a.reads.any (fun r => b.reserves r))

/-- The next command of a core for the array: the first that has not left its queue, where it may enter. -/
def Core.nextArr (k : Core) (now : Nat) : Option ArrCmd :=
  match k.arr.find? (fun a => !a.isMret && !a.left) with
  | none => none
  | some a => if a.step ≠ 0 ∨ mayEnter now (k.arr.takeWhile (fun b => b.id != a.id)) a then some a else none

/-- The core and command that the array of a bay serves in a cycle: the one in progress, else the first issued. -/
def State.arrPick (s : State) (b : Nat) : Option (Nat × ArrCmd) :=
  let cs := (List.range 4).filterMap (fun i => ((s.core (4 * b + i)).nextArr s.now).map (fun a => (4 * b + i, a)))
  match (s.bay b).entering with
  | some c => cs.find? (fun e => e.1 == c)
  | none => cs.foldl (fun m e => match m with | none => some e | some v => if e.2.id < v.2.id then some e else some v) none

/-- A command has left the array's input: it completes a fixed number of cycles later (R240, R257). -/
def State.arrLeave (s : State) (b c id lat : Nat) : State :=
  let s := s.modArr c id (fun a => { a with left := true, leftAt := s.now, completes := some (s.now + lat) })
  (s.modBay b (fun y => { y with entering := none })).postEarly (s.now + lat) (.arrayCommandComplete c)

/-- Count a K-step that entered (R430). -/
def State.countStep (s : State) (c : Nat) : State := s.countCore c 0x0007 (qualAny 1)

/-- The retirement unit looks for its next `MRET`: the oldest uncompleted command, not started (R262). -/
def State.kickRetire (s : State) (c : Nat) : State :=
  match (s.core c).arr.head? with
  | some a => if a.isMret && !a.left then s.postOnce s.now (.retirementStart c) else s
  | none => s

/-- A command stops at a group: it leaves the array, and trap 0x14 names why (R255). -/
def State.stopGroup (s : State) (b c : Nat) (a : ArrCmd) (detail : Word) : State :=
  let s := s.modCore c (fun k => { k with arr := k.arr.filter (fun x => x.id != a.id) })
  let s := s.modBay b (fun y => { y with entering := none, stalled := 0 })
  (s.kickRetire c).takeTrapOf c (.stream .cx) { cause := 0x14, detail := detail }
    (some { core := c, strm := .cx, pc := a.pc, word := a.word, lit := 0, size := 8, repk := 0, pops := [], poppedRow := none })

/-- The command that stops at a bad mask byte: detail 1 (R255). -/
def State.badMask (s : State) (b c : Nat) (a : ArrCmd) : State := s.stopGroup b c a 1

/-- One K-step or group of a command enters the array: the command that is left, if it goes on. -/
def State.enterOne (s : State) (b c : Nat) (a : ArrCmd) : State × Option ArrCmd :=
  match a.kind with
  | .mzero =>
    let base := if a.acc then 64 else 0
    let s := s.modJob c (fun j => (List.range 64).foldl (fun j r => j.setRow (base + r) 0) j)
    (s.arrLeave b c a.id 4, none)
  | .mma n =>
    let q := if n = 0 then [] else tget [] (s.jobAt c).sq a.sq.toNat
    if n ≠ 0 ∧ q.isEmpty then
      -- the stall of R255: no other command enters while it lasts
      let s := s.modBay b (fun y => { y with entering := some c, stalled := if (s.jobAt c).anySusp then y.stalled else y.stalled + 1 })
      (if (s.bay b).stalled = waitLimit then s.postOnce s.now (.sparsityStallTimeout b) else s, none)
    else
      let masks := q.headD 0
      let s := if n = 0 then s else s.modJob c (fun j => { j with sq := tput [] j.sq a.sq.toNat (q.drop 1) })
      if n ≠ 0 ∧ (List.range 64).any (fun m => popCount 8 (masks.toNat / 256 ^ m % 256) ≠ n) then (s.badMask b c a, none)
      else
        let (s, nv) := s.kStep c a n masks
        let s := s.modBay b (fun y => { y with
          stalled := 0, lastEntry := some s.now, entering := some c, bankAt := s.now
          banks := (if y.bankAt = s.now then y.banks else []) ++ State.stepBanks a n })
        let a := { a with step := a.step + 1, nv := a.nv || nv }
        let s := (s.modArr c a.id (fun _ => a)).countStep c
        if a.step = a.ks then (s.arrLeave b c a.id 12, none) else (s, some a)
  | .mret .. => (s, none)

/-- Up to n groups of a command enter in one cycle (R254). -/
def State.enterUpTo (b c : Nat) : Nat → ArrCmd → State → State
  | 0, _, s => s
  | n + 1, a, s =>
    match s.enterOne b c a with
    | (s, some a) => State.enterUpTo b c n a s
    | (s, none) => s

/-- Groups or steps that a command enters in one cycle (R240, R254). -/
def ArrCmd.perCycle (a : ArrCmd) : Nat :=
  match a.kind with
  | .mma n => if n = 0 then 1 else max 1 (a.k / 4)
  | _ => 1

/-- May the next group enter now: where k is 2, one group every 2 cycles (R254)? -/
def ArrCmd.paced (a : ArrCmd) (now : Nat) (last : Option Nat) : Bool :=
  match a.kind with
  | .mma n => n == 0 || a.step == 0 || a.k != 2 || (match last with | some t => decide (t + 2 ≤ now) | none => true)
  | _ => true

/-- One cycle of a bay's array (R240). While the governor throttles, whether a K-step enters is open (R421). -/
def State.arrayCycle (s : State) (b : Nat) : State :=
  let busy := (List.range 4).any (fun i => (s.core (4 * b + i)).arr.any (fun a => !a.isMret && !a.left))
  if !busy then s
  else
    let s := s.postEarly (s.now + 1) (.kStepEntry b)
    let (thr, s) := if s.throttle then s.drawBit else (false, s)
    if thr then s
    else
      match s.arrPick b with
      | none => s
      | some (c, a) =>
        if a.paced s.now (s.bay b).lastEntry then
          let s' := State.enterUpTo b c a.perCycle a s
          if (s'.bay b).lastEntry = some s.now then s'.countDie (coreDie c) (s.jobAt c).ctx 0x0100 (qualBit (b % 4)) else s'
        else s

/-- K_STEP_ENTRY (R240, R248, R254, R255). -/
def execKStepEntry (bay : Nat) (s : State) : Host.Outcome State Fault Refusal := event (·.arrayCycle bay) s

/-- The stall of an empty sparsity queue has lasted 2^24 cycles: trap 0x14, detail 3 (R255). -/
def State.sparsityExpire (s : State) (b : Nat) : State :=
  if (s.bay b).stalled < waitLimit then s
  else
    match s.arrPick b with
    | none => s
    | some (c, a) => s.stopGroup b c a 3

/-- SPARSITY_STALL_TIMEOUT (R255). -/
def execSparsityStallTimeout (bay : Nat) (s : State) : Host.Outcome State Fault Refusal := event (·.sparsityExpire bay) s

/-- Array commands of a core complete: their reservations end and NV reaches CX's status (R209, R240, R257). -/
def State.arrDone (s : State) (c : Nat) : State :=
  let k := s.core c
  let done := fun (a : ArrCmd) => !a.isMret && (match a.completes with | some t => decide (t ≤ s.now) | none => false)
  let nv := k.arr.any (fun a => done a && a.nv)
  let s := s.modCore c (fun k => { k with arr := k.arr.filter (fun a => !done a) })
  (s.orAsrAt c .cx (flgIf nv flgNV)).kickRetire c

/-- ARRAY_COMMAND_COMPLETE (R240). -/
def execArrayCommandComplete (core : Nat) (s : State) : Host.Outcome State Fault Refusal := event (·.arrDone core) s

/-! ### Set-up (R258, R259) -/

/-- The bits of a format-table entry that its map lays down; the others are read-only zeros (R7, R249). -/
def ftBits (w : BitVec 32) : BitVec 32 := w &&& 0x3FFE1F1F

/-- MFMT (R258). -/
def execMfmt (g : Guard) (n : BitVec 4) (b : Src) (s : State) : Host.Outcome State Fault Refusal :=
  issueNext g (fun u => do
    ensure u [.scalar b]
    let w ← readScalar u b
    modJob u (fun j => { j with ft := tput 0 j.ft n.toNat (ftBits (w.setWidth 32)) })) s

/-- MSCL: raw bits, or a float as its W36 image (R258). -/
def execMscl (g : Guard) (n : BitVec 3) (flt : Bool) (b : Src) (s : State) : Host.Outcome State Fault Refusal :=
  issueNext g (fun u => do
    ensure u [.scalar b]
    let w ← if flt then do pure (wordOfImg (← readFloat u b)) else readScalar u b
    modJob u (fun j => { j with g := tput 0 j.g n.toNat w })) s

/-- An area of the local aperture, or trap 0x0E (R259, R262). -/
def localArea (u : Cur) (a : Int) (n al : Nat) : M Area := do
  match (← areaOf u a n al false) with
  | .trans _ => raiseTrap (addrTrap 0x0E a)
  | ar => pure ar

/-- Does an uncompleted `MMAS` of the core pop a queue (R259)? -/
def Core.pops (k : Core) (q : BitVec 2) : Bool :=
  k.arr.any (fun a => a.sq == q && (match a.kind with | .mma n => n != 0 | _ => false))

/-- MSQ (R259). -/
def execMsq (g : Guard) (n : BitVec 2) (a b : Src) (s : State) : Host.Outcome State Fault Refusal :=
  issueNext g (fun u => do
    ensure u [.scalar a, .scalar b]
    let addr := (← readScalar u a).toInt
    let c := (← readScalar u b).toNat
    trapIf (decide (c < 1 ∨ 32 < c)) { cause := 0x14, detail := 4 }
    let ar ← localArea u addr (64 * c) 64
    watch u addr.toNat (64 * c) true false
    let s ← get
    let q := tget [] (s.jobAt u.core).sq n.toNat
    if 32 < q.length + c then
      trapIf (!(s.core u.core).pops n) { cause := 0x14, detail := 2 }
      holdFor .sparsity
    else
      orderAt u ar (64 * c)
      let bs ← localRead u ar (64 * c)
      let es := (List.range c).map (fun i => BitVec.ofNat 512 (leNat ((bs.drop (64 * i)).take 64)))
      modJob u (fun j => { j with sq := tput [] j.sq n.toNat (q ++ es) })) s

/-! ### Retirement (R260 to R263) -/

/-- A field of the retirement descriptor (R261). -/
def mretField (d : BitVec 256) (byte n : Nat) : Nat := d.toNat / 256 ^ byte % 256 ^ n

/-- The fields of a retirement descriptor (R261). -/
structure MretDesc where
  dbase : Nat
  dpitch : Nat
  fmt : Nat
  rnd : Rnd
  lw : Bool
  int : Bool
  act : Nat
  bias : Bool
  scale : Bool
  keep : Bool
  biasa : Nat
  scl : BitVec 32
  deriving DecidableEq, Repr

/-- A descriptor read (R261). -/
def mretDesc (d : BitVec 256) : MretDesc where
  dbase := mretField d 0 8
  dpitch := mretField d 8 4
  fmt := mretField d 12 1 % 32
  rnd := Rnd.ofCode (BitVec.ofNat 3 (mretField d 13 1))
  lw := (mretField d 13 1).testBit 3
  int := (mretField d 13 1).testBit 4
  act := mretField d 14 1 % 8
  bias := (mretField d 14 1).testBit 3
  scale := (mretField d 14 1).testBit 4
  keep := (mretField d 14 1).testBit 5
  biasa := mretField d 16 4
  scl := BitVec.ofNat 32 (mretField d 20 4)

/-- Is the descriptor illegal (R261)? DEDUCED (log entry 82): a RND of 7 raises R261's 0x01 with subcode 13 here, although R70 names
0x0D for a mode 7 read from a descriptor. -/
def mretBad (d : BitVec 256) : Bool :=
  let f := mretDesc d
  let rnd := mretField d 13 1 % 8
  mretField d 12 1 / 32 != 0 || mretField d 13 1 / 32 != 0 || mretField d 14 1 / 64 != 0 || mretField d 15 1 != 0
    || mretField d 24 8 != 0 || f.act == 7 || rnd == 7 || decide (25 ≤ f.fmt)
    || (f.int && decide (2 ≤ f.act)) || (f.keep && (f.fmt != 0 || rnd != 0 || f.scale))
    || (f.fmt == 15 && f.lw) || (f.fmt == 16 && !f.lw) || ((f.fmt == 15 || f.fmt == 16) && rnd != 0)

/-- Bytes of a retired row (R262). -/
def mretRowBytes (f : MFmt) (lw : Bool) : Nat :=
  match f with
  | .img _ => 576
  | _ => laneN lw * f.width / 8

/-- Alignment of a retired row (R262). -/
def mretAlign (f : MFmt) : Nat :=
  match f with
  | .img _ => 16
  | _ => max 1 (f.width / 8)

/-- Where a row is stored, its translation taken (R262). -/
def mretRow (u : Cur) (a : Int) (n al : Nat) : M RowDst := do
  match (← areaOf u a n al false) with
  | .spad o => pure (.spad o)
  | .cluster o => pure (.cluster o)
  | .trans va =>
    let ctx ← getCtx u
    let ps ← liftF (fun s => s.translateRange u.core ctx va n .store)
    pure (.phys ps)

/-- A command to an engine: what the stream did before is ordered before the engine's work (R177, R178). -/
def handOver (u : Cur) : M Unit := do
  needLogEmpty u
  modify (fun s => s.release u.core (strmNum u.strm) .mod)

/-- The next number of a timeline counter, or trap (R188). -/
def takeNumber (u : Cur) (ctr : BitVec 4) : M Word := do
  let t := (← getJob u).ctr ctr.toNat
  trapIf (!t.canTake 1) (illegal9 9)
  modJob u (fun j => j.modCtr ctr.toNat (fun t => { t with iss := t.iss + 1 }))
  pure (t.iss + 1)

/-- MRET at issue (R260 to R262). In mode 5 it takes its draws here, in its program order (R71, R236). -/
def execMret (g : Guard) (d : Dest) (ctr : BitVec 4) (acc : Bool) (a b : Src) (s : State) : Host.Outcome State Fault Refusal :=
  issueNext g (fun u => do
    needSpace u d
    ensure u [.scalar a, .scalar b]
    let da := (← readScalar u a).toInt
    let off := (← readScalar u b).toInt
    let ar ← localArea u da 32 32
    orderAt u ar 32
    watch u da.toNat 32 true false
    let desc : BitVec 256 := BitVec.ofNat 256 (leNat (← localRead u ar 32))
    trapIf (mretBad desc) (illegal9 13)
    let f := mretDesc desc
    let j ← getJob u
    match fmtOf (fun i => tget 0 j.fd i) f.fmt with
    | none => raiseTrap (fmtTrap f.fmt 3 0)
    | some mf =>
      trapIf (!f.keep && (!f.int || f.scale) && !precisionOk f.lw mf) (precTrap f.fmt f.lw)
      if f.bias then
        let _ ← localArea u f.biasa (4 * laneN f.lw) 4
      let rows ← if f.keep then pure []
        else (List.range 64).mapM (fun (r : Nat) => mretRow u (f.dbase + off + r * f.dpitch) (mretRowBytes mf f.lw) (mretAlign mf))
      needArrSlot u
      let ds ← if f.rnd = .rsto then takeDraws u (64 * laneN f.lw) 2 else pure []
      handOver u
      let num ← takeNumber u ctr
      deliver u d num
      let now := (← get).now
      modify (fun s => (s.endGrant u.core).pushArr u.core
        (blankCmd u now (.mret desc (fdOf j f.fmt) ctr num rows ds) acc))
      modJob u (fun j => { j with rd := 0, co := false })
      modify (fun s => s.kickRetire u.core)) s

/-- An activation on a lane (R89, R92, R261): the image and its flags. -/
def actLane (act : Nat) (int lw : Bool) (b : Nat) : Nat × Flg :=
  match act with
  | 0 => (b, 0)
  | 1 =>
    if int then (if 0 < imgInt lw b then b else withStk lw 0 (imgStk lw b), 0)
    else
      match imgVal lw b with
      | .nan => (b, 0)
      | v => (if !v.isZero && !v.sign then b else withStk lw 0 (imgStk lw b), 0)
  | 2 => sfuImg .tanh lw b
  | 3 => sfuImg .sigmoid lw b
  | 4 => sfuImg .gelu lw b
  | 5 => sfuImg .silu lw b
  | _ => sfuImg .softplus lw b

/-- One lane through the epilogue (R89, R262): its image, whether it is then an integer, and NV. The bias enters at its exact value, so
that its sum is rounded or saturated once. -/
def mretLane (f : MretDesc) (bias : Nat) (b : Nat) : Nat × Bool × Flg :=
  let x := if !f.bias then (b, (0 : Flg))
    else if f.int then (satImg f.lw (imgInt f.lw b + (BitVec.ofNat 32 bias).toInt) (imgStk f.lw b), 0)
    else
      let r := (imgVal f.lw b).add ((MFmt.flt 1 8 23 127 .ieee true).val bias)
      (roundOdd f.lw r.1 (imgStk f.lw b), flgIf r.2 flgNV)
  let y := actLane f.act f.int f.lw x.1
  if f.scale then
    let v := if f.int then XVal.ofInt (imgInt f.lw y.1) else imgVal f.lw y.1
    let r := v.mul ((MFmt.flt 1 8 23 127 .ieee true).val f.scl.toNat)
    (roundOdd f.lw r.1 (imgStk f.lw y.1), false, x.2 ||| y.2 ||| flgIf r.2 flgNV)
  else (y.1, f.int, x.2 ||| y.2)

/-- A row's bytes written where its destination stands; a line sent to a home is numbered (R262). -/
def State.putRow (s : State) (c ctx : Nat) (d : RowDst) (bs : List (Byte × Byte)) : State :=
  match d with
  | .spad o => s.spadWrite c o bs false
  | .cluster o => s.clusterWrite c o bs
  | .phys ps =>
    (ps.foldl (fun (r : State × List (Byte × Byte)) p => (r.1.sendBytes c 6 p.1 (r.2.take p.2) ctx, r.2.drop p.2)) (s, bs)).1

/-- The numbers of the lines sent between two states. -/
def sentIds (s s' : State) : List Nat := (List.range (s'.ids - s.ids)).map (fun i => s.ids + i)

/-- The retirement unit starts an `MRET`: the bias values are read, every row goes through the epilogue and is stored or kept;
the flags of its final stores are kept for its completion (R262). -/
def State.retireStart (s : State) (c : Nat) : State :=
  match (s.core c).arr.head? with
  | some a =>
    if a.left then s
    else
      match a.kind with
      | .mret desc fd _ _ rows draws =>
        let f := mretDesc desc
        let j := s.jobAt c
        let mf := (fmtOf (fun _ => fd) f.fmt).getD (.img false)
        let nc := laneN f.lw
        let base := if a.acc then 64 else 0
        let ar := if f.biasa < 0x1000000 then Area.spad f.biasa else .cluster (f.biasa - 0x1000000)
        let bias := if f.bias then
            let bits := leNat (s.localBytes c ar (4 * nc))
            (List.range nc).map (elemAt bits 32)
          else []
        -- an uncorrectable bias value traps, and the retirement runs on (R158, R369)
        let s := match (if f.bias then s.localBad c ar (4 * nc) else none) with
          | some v => (s.poisonError c j.ctx v 2).takeTrapOf c .retireUnit (poisonFault v).trap none
          | none => s
        let r := (List.range 64).foldl (fun (r : State × Flg) row =>
          let ls := (rowLanes f.lw (j.row (base + row))).zipIdx.map (fun p => mretLane f (bias.getD p.2 0) p.1)
          let fl := ls.foldl (fun (x : Flg) l => x ||| l.2.2) r.2
          if f.keep then (r.1.modJob c (fun j => j.setRow (base + row) (rowOf f.lw (ls.map (·.1)))), fl)
          else
            let es := ls.zipIdx.map (fun p => storeLane mf f.lw p.1.2.1 p.1.1 f.rnd (draws.getD (row * nc + p.2) 0))
            (r.1.putRow c j.ctx (rows.getD row (.phys [])) (packRun mf.width (es.map (·.1))),
             es.foldl (fun (x : Flg) e => x ||| e.2) fl)) (s, (0 : Flg))
        let s' := r.1.modArr c a.id (fun x => { x with left := true, leftAt := s.now, flg := r.2, acks := sentIds s r.1 })
        s'.post (s.now + (if 2 ≤ f.act then 256 else 64)) (.retirementComplete c)
      | _ => s
  | none => s

/-- RETIREMENT_START (R262). -/
def execRetirementStart (core : Nat) (s : State) : Host.Outcome State Fault Refusal := event (·.retireStart core) s

/-- An `MRET` whose stores are all applied completes: its flags and its number, its reservation, and the unit's next one (R262, R263). -/
def State.retireDone (s : State) (c : Nat) : State :=
  match (s.core c).arr.head? with
  | some a =>
    match a.kind with
    | .mret _ _ ctr num _ _ =>
      if !a.left then s
      else if !a.acks.isEmpty then s.postOnce (s.now + 1) (.retirementComplete c)
      else
        let s := (s.modCore c (fun k => { k with arr := k.arr.drop 1 })).orAsrAt c .cx a.flg
        (s.completeNum c ctr.toNat num.toNat .mod false).kickRetire c
    | _ => s
  | none => s

/-- RETIREMENT_COMPLETE (R262). -/
def execRetirementComplete (core : Nat) (s : State) : Host.Outcome State Fault Refusal := event (·.retireDone core) s

end Sys2Proof.Machine
end

