-- ==== Sys2Proof/Machine/Group.lean ====
section
/-!
DEFINITION. What a CX instruction uses and which two form a group (R104, R105), and the stepping of a REP target (R126, R127).
-/

namespace Sys2Proof.Machine

/-! ### The row of the opcode map -/

/-- The row of the opcode map that a word names (R47). -/
def opRow (f : Fields) : Option OpRow := (major f.op.toNat).bind (fun m => m f.sub.toNat)

/-- Is source B an operand code rather than a literal or an immediate (R41, R43)? -/
def bIsCode (row : OpRow) (f : Fields) : Bool := !(f.w || (row.form == .r && f.i) || row.form == .b)

/-! ### Groups of CX (R104, R105) -/

/-- Key of a predicate. -/
def useKeyP (n : Nat) : Nat := 192 + n

/-- The registers that a source field reads, by key. -/
def srcKeys (j : Job) (phys : Bool) (p : SPos) (c : BitVec 8) : List Nat :=
  match p, Src.ofCode c with
  | .mask, _ => [readyKeyMask (j.physMask (c.toNat % 16))]
  | .zero, _ => []
  | .raw, _ => []
  | .pred, _ => []
  | .mreg, _ => []
  | .arr, some (.s n) => [readyKeyS n.toNat, readyKeyS (n.toNat + 1)]
  | _, some (.s n) => [readyKeyS n.toNat]
  | _, some (.a n) => [readyKeyA n.toNat]
  | _, some (.v n) => [readyKeyRow (if phys then n.toNat else j.physRow n.toNat)]
  | _, _ => []

/-- The queue that a source field of CX names: 16 for a row, else a scalar queue (R98). -/
def srcQueues (p : SPos) (c : BitVec 8) : List Nat :=
  let vec := p == .vec || p == .vecReg
  match p, Src.ofCode c with
  | .zero, _ => []
  | .raw, _ => []
  | .mask, _ => []
  | .pred, _ => []
  | _, some (.pop q) => [if vec then 16 else qNum q .cx]
  | _, some (.peek q) => [if vec then 16 else qNum q .cx]
  | _, _ => []

/-- The register that DST names, by key. -/
def dstKeys (j : Job) (p : DPos) (c : BitVec 8) : List Nat :=
  match p with
  | .scalar => if c.toNat < 0x20 then [readyKeyS c.toNat] else [readyKeyA (c.toNat % 16)]
  | .vec => [readyKeyRow (j.physRow (c.toNat % 128))]
  | .pred => [useKeyP (c.toNat % 8)]
  | .mask => [readyKeyMask (j.physMask (c.toNat % 16))]
  | _ => []

/-- Is the word in a major of the vector file? -/
def isVector (f : Fields) : Bool := f.op.extractLsb' 3 5 == 0b01100

/-- A lane-pipe occupancy of 1 (R237): majors 0x60 to 0x67 but for VRED, VRMOV, VSFU and VSMAX. -/
def lanePipe (f : Fields) : Bool := isVector f && f.op != 0x66 && !(f.op == 0x65 && f.sub != 2)

/-- Is DST read for lanes of a pushed row that the instruction does not write (R207)? VSEL, VBMAX and VSMAX write every lane, and a
narrowing VCVT half of them under any mask (R219). -/
def dstPushed (row : OpRow) (f : Fields) : Bool :=
  let narrow := f.op == 0x64 && f.sub == 0 && (cvtWidths (VCvtKind.ofCodes f.x f.y)).2 && !(cvtWidths (VCvtKind.ofCodes f.x f.y)).1
  let whole := (f.op == 0x62 && f.sub == 2) || (f.op == 0x64 && f.sub == 3) || (f.op == 0x66 && f.sub == 1)
  row.dst == .vec && isVector f && f.d0 && f.qs.getLsbD 4 && !whole && (f.k != 0 || narrow)

/-- The vector rows that the operands of MMA and MMAS take, by key (R246, R247). -/
def arrRowKeys (j : Job) (f : Fields) : List Nat :=
  let e := ftEntry (tget 0 j.ft (selNum j f.sel))
  match checkEntry (fun i => tget 0 j.fd i) e with
  | .error _ => []
  | .ok (fa, fb) =>
    let ks := f.ks.toNat + 1
    let sparse := f.sub == 1
    let kk := if sparse then ks * 8 else ks * stepSize (max fa.width fb.width) e.acc
    let rows := fun (x : Src) (t : Extent) => match x with
      | .v n => (List.range t.rowCount).map (fun i => n.toNat + i)
      | _ => []
    ((rows f.aS (if sparse then extS (2 ^ (f.sp.toNat - 1)) ks else extA f.ta kk))
      ++ rows f.bS (extB f.tb kk (if e.acc then 256 else 128))).filter (fun n => decide (n < 128))

/-- What a CX instruction uses (R104, R105). Writes to p0 and k0 are discarded and their reads are constant, so neither counts. -/
def cxUse (j : Job) (row : OpRow) (f : Fields) : CxUse :=
  let phys := row.form == .x
  let b := bIsCode row f
  let dst := dstKeys j row.dst f.dst
  let reads := [useKeyP (f.pred.toNat % 8)]
    ++ srcKeys j phys row.a f.srca ++ (if b then srcKeys j phys row.b f.srcb else [])
    ++ (if row.rdst || dstPushed row f then dst else [])
    ++ (if row.a == .arr then arrRowKeys j f else [])
    ++ (if isVector f then [readyKeyMask (j.physMask f.k.toNat)] else [])
    ++ (if f.op == 0x12 && f.sub == 4 then [useKeyP f.y.toNat] else [])
  { reads := reads.filter (fun k => k != useKeyP 0 && k != readyKeyMask 0)
    writes := ((if f.d0 then dst else []) ++ (if row.form == .c && f.nb then [useKeyP f.pd.toNat] else [])).filter
      (fun k => k != useKeyP 0 && k != readyKeyMask 0)
    queues := srcQueues row.a f.srca ++ (if b then srcQueues row.b f.srcb else [])
      ++ (allStrms.filter (fun y => f.qs.getLsbD (strmNum y))).map (qNum .cx) ++ (if f.qs.getLsbD 4 then [17] else [])
    rows := (if phys then [] else reads.filter (fun k => decide (k < 128))).eraseDups
    matrix := f.op.extractLsb' 2 6 == 0b100000
    lane := lanePipe f
    red := f.op == 0x65 && f.sub == 0 && j.cx.pred (f.pred.setWidth 3) != f.pred.getLsbD 3
    alone := decide (f.op.toNat < 4) || f.op == 0x90 || f.op == 0xA0 || decide (0xC0 ≤ f.op.toNat) }

/-- May an instruction join the one issued before it in the same cycle (R105, R226)? That it can issue is found by issuing it. -/
def CxUse.joins (a b : CxUse) : Bool :=
  !a.alone && !b.alone && !(a.matrix && b.matrix) && !(a.lane && b.lane) && !(a.red && b.red)
    && !b.reads.any a.writes.contains && !b.queues.any a.queues.contains

/-! ### REP (R126, R127) -/

/-- The first code and the size of the file that an operand code lies in: s, a or v. -/
def codeFile (c : BitVec 8) : Option (Nat × Nat) :=
  if c.toNat < 0x20 then some (0, 0x20) else if c.toNat < 0x30 then some (0x20, 0x10) else if 0x80 ≤ c.toNat then some (0x80, 0x80) else none

/-- Does a source field hold an operand code? SRCA of LSEND names a row, and a custom word's fields are its own. -/
def srcSteps (op : BitVec 8) (p : SPos) : Bool :=
  match p with
  | .zero => false
  | .mask => false
  | .pred => false
  | .mreg => false
  | .raw => op == 0xA0 || decide (0xC0 ≤ op.toNat)
  | _ => true

/-- Does DST hold an operand code? -/
def dstSteps (op : BitVec 8) (p : DPos) (used : Bool) : Bool :=
  match p with
  | .scalar => used
  | .vec => used
  | .data => true
  | .gst => true
  | .raw => decide (0xC0 ≤ op.toNat)
  | _ => false

/-- Does a stepped field stay in its file in every repeat? -/
def stepOk (r : RepSt) (holds : Bool) (c : BitVec 8) : Bool :=
  holds && match codeFile c with
    | some (b, n) => decide (c.toNat - b + (r.count - 1) * r.stride < n)
    | none => false

/-- Is the target of a REP illegal (R127)? Its words end by the end of the innermost body that holds the REP, 8 bytes before it. -/
def repIllegal (r : RepSt) (x : Stream) (row : OpRow) (f : Fields) (size : Nat) : Bool :=
  decide (f.op.toNat < 4)
    || (r.sd && !stepOk r (dstSteps f.op row.dst (f.d0 || row.rdst)) f.dst)
    || (r.sa && !stepOk r (srcSteps f.op row.a) f.srca)
    || (r.sb && !stepOk r (bIsCode row f && srcSteps f.op row.b) f.srcb)
    || (match x.loops.find? (fun l => l.holds (x.pc - 8#56)) with
      | some l => decide (l.fin.toNat < x.pc.toNat + size)
      | none => false)

/-- The fields of a REP target in repeat k: every stepped field names register number + k × stride (R126). -/
def stepFields (r : RepSt) (f : Fields) : Fields :=
  let d := BitVec.ofNat 8 (r.k * r.stride)
  { f with
    dst := if r.sd then f.dst + d else f.dst
    srca := if r.sa then f.srca + d else f.srca
    srcb := if r.sb then f.srcb + d else f.srcb }

/-- The fields and the instruction that a stream issues from its words: decoded by R46, and under a REP checked before the first
repeat and stepped (R126, R127). -/
def issueWord (x : Strm) (v : Stream) (w : Fetched) : Except Trap (Fields × Instr) :=
  let f := Fields.ofWord w.word w.lit
  match decodeFields x f with
  | .error r => .error { cause := 0x01, reason := r }
  | .ok i =>
    match v.rep with
    | none => .ok (f, i)
    | some r =>
      let bad := match opRow f with
        | some row => r.k == 0 && repIllegal r v row f (wordSize w.word)
        | none => false
      if bad then .error (illegal9 6)
      else
        let g := stepFields r f
        match decodeFields x g with
        | .error e => .error { cause := 0x01, reason := e }
        | .ok i => .ok (g, i)

end Sys2Proof.Machine
end

