-- ==== Sys2Proof/Machine/Landing.lean ====
section
/-!
DEFINITION. Landings: tags, descriptors, the port and its sends, arrival and matching, combine and delivery, orphans (major 0xA0, R303 to R323).
-/

namespace Sys2Proof.Machine

/-! ### Tags and descriptors (R304 to R307) -/

/-- The index of a tag (R304). -/
def tagIdx (t : BitVec 32) : Nat := t.toNat % 4096
/-- The generation of a tag (R304). -/
def tagGen (t : BitVec 32) : BitVec 4 := t.extractLsb' 12 4
/-- The pool number of a tag (R304). -/
def tagPool (t : BitVec 32) : Nat := t.toNat / 65536

/-- Is a tag current in a context (R304)? -/
def Ctx.current (x : Ctx) (t : BitVec 32) : Bool :=
  tagPool t == x.pool && (x.tag (tagIdx t)).alloc && (x.tag (tagIdx t)).gen == tagGen t

/-- The landing of a tag (R305). -/
def State.landingOf (s : State) (x : Ctx) (t : BitVec 32) : Nat :=
  let v := t.toNat
  let h := (v % 256) ^^^ (v / 256 % 256) ^^^ (v / 65536 % 256) ^^^ (v / 2 ^ 24)
  let i := h % max 1 (4 * s.partDies x.part)
  4 * (x.part + i / 4) + i % 4

/-- The number in n bytes of a landing descriptor from byte i. -/
def ldField (d : BitVec 256) (i n : Nat) : Nat := d.toNat / 256 ^ i % 256 ^ n

/-- The fields of a landing descriptor (R306). -/
structure LandDesc where
  op : Nat
  lw : Bool
  dtype : Nat
  rnd : Rnd
  fmt : Nat
  ctr : Nat
  gallery : Bool
  gw : Nat
  die : Nat
  cmask : BitVec 16
  offset : Nat
  tmo : Nat
  nf : Nat
  deriving DecidableEq, Repr

/-- A descriptor read (R306); a timeout field of 0 selects 1,000 µs. -/
def landDesc (d : BitVec 256) : LandDesc where
  op := ldField d 0 1 % 8
  lw := (ldField d 0 1).testBit 3
  dtype := ldField d 1 1 % 4
  rnd := Rnd.ofCode (BitVec.ofNat 3 (ldField d 1 1 / 4))
  fmt := ldField d 2 1 % 32
  ctr := ldField d 3 1 % 16
  gallery := (ldField d 3 1).testBit 4
  gw := ldField d 3 1 / 32 % 4
  die := ldField d 4 1 % 64
  cmask := BitVec.ofNat 16 (ldField d 6 2)
  offset := ldField d 8 4
  tmo := if ldField d 12 4 = 0 then 1000 else ldField d 12 4
  nf := ldField d 16 2

/-- The faults of a descriptor (R307), for a partition of n dies. DEDUCED (log entry 82): a RND of 7 raises R307's 0x0C with detail 4,
although R70 names 0x0D for a mode 7 read from a descriptor. -/
def landBad (d : BitVec 256) (n : Nat) : Bool :=
  let f := landDesc d
  ldField d 0 1 / 16 != 0 || ldField d 1 1 / 32 != 0 || ldField d 2 1 / 32 != 0 || ldField d 3 1 / 128 != 0
    || ldField d 4 1 / 64 != 0 || ldField d 5 1 != 0 || ldField d 12 4 / 2 ^ 20 != 0 || ldField d 18 14 != 0
    || f.op == 7 || f.dtype == 3 || ldField d 1 1 / 4 % 8 == 7 || (f.fmt != 0 && decide (f.dtype < 2))
    || ((f.fmt == 15 || f.fmt == 16) && f.dtype == 2) || decide (n ≤ f.die) || (f.cmask == 0 && !f.gallery)
    || (f.cmask != 0 && f.gallery) || f.offset % 16 != 0 || decide (1000000 < f.tmo) || f.nf == 0 || decide (4096 < f.nf)

/-- Does the combine read its rows in the integer interpretation (R306)? -/
def LandDesc.isInt (d : LandDesc) : Bool := decide (4 ≤ d.op)

/-- The trap of a landing instruction (R317). -/
def landTrap (detail : Nat) : Trap := { cause := 0x0C, detail := BitVec.ofNat 64 detail }

/-! ### What is still unresolved of a tag (R319) -/

/-- The operands of every landing. -/
def State.allOps (s : State) : List Operand := s.landings.flatMap (fun l => l.2.ops)

/-- Does an operand, a delivery, a held result or a fragment of a tag remain (R319)? -/
def State.tagLive (s : State) (ctx : Nat) (t : BitVec 32) : Bool :=
  s.allOps.any (fun o => o.p.ctx == ctx && o.p.tag == t && !o.queued) || s.deliveries.any (fun d => d.p.ctx == ctx && d.p.tag == t)
    || s.cores.any (fun k => k.2.frags.any (fun f => f.p.ctx == ctx && f.p.tag == t && (f.flying || f.bounced)))
    || (((s.ctx? ctx).map (fun x => x.saved.any (fun v => v.frags.any (fun f => f.p.tag == t)))).getD false)

/-! ### LTAG, LFREE, LSTAT (R318, R319, R322) -/

/-- The lowest free tag index at or above h, wrapping (R318). -/
def Ctx.freeTag (x : Ctx) (h : Nat) : Option Nat :=
  ((List.range 4096).map (fun i => (h + i) % 4096)).find? (fun i => !(x.tag i).alloc)

/-- LTAG (R318). -/
def execLtag (o : COps) (s : State) : Host.Outcome State Fault Refusal :=
  issueNext o.g (fun u => do
    needSpace u o.d
    ensure u [.scalar o.b]
    let b ← readScalar u o.b
    let ctx ← getCtx u
    match (← get).ctx? ctx with
    | none => pure ()
    | some x =>
      match x.freeTag (b.toNat % 4096) with
      | none =>
        match o.nb with
        | none => raiseTrap (landTrap 1)
        | some pd =>
          modStrm u (fun v => v.setPred pd false)
          deliver u o.d 0
      | some i =>
        let g := (x.tag i).gen
        modify (fun s => s.modTag ctx i (fun _ => { alloc := true, gen := g, owner := u.core }))
        match o.nb with
        | none => pure ()
        | some pd => modStrm u (fun v => v.setPred pd true)
        deliver u o.d (BitVec.ofNat 64 (x.pool * 65536 + g.toNat * 4096 + i))) s

/-- LFREE: waits until nothing of the tag is unresolved (R319). -/
def execLfree (g : Guard) (a : Src) (s : State) : Host.Outcome State Fault Refusal :=
  issueNext g (fun u => do
    ensure u [.scalar a]
    let t := (← readScalar u a).setWidth 32
    let ctx ← getCtx u
    let s ← get
    trapIf (!((s.ctx? ctx).map (fun x => x.current t)).getD false) (landTrap 2)
    holdIf (s.tagLive ctx t) .landing
    modify (fun s => s.modTag ctx (tagIdx t) (fun y => { y with alloc := false, gen := y.gen + 1 }))) s

/-- The status of a tag (R322). -/
def TagSt.status (y : TagSt) (t : BitVec 32) : Word :=
  BitVec.ofNat 64 ((y.alloc && y.gen == tagGen t).toNat * 2 ^ 63 + y.desc.isSome.toNat * 2 ^ 62 + y.orphaned.toNat * 2 ^ 61
    + y.oq.toNat * 2 ^ 60 + y.ls.toNat * 2 ^ 59 + y.flg.toNat * 2 ^ 48 + y.dlv.toNat * 2 ^ 32 + y.orc.toNat * 2 ^ 16
    + y.gen.toNat * 2 ^ 12 + tagIdx t)

/-- LSTAT (R322). -/
def execLstat (g : Guard) (d : Dest) (a : Src) (s : State) : Host.Outcome State Fault Refusal :=
  issueNext g (fun u => do
    needSpace u d
    ensure u [.scalar a]
    let t := (← readScalar u a).setWidth 32
    let ctx ← getCtx u
    match (← get).ctx? ctx with
    | none => pure ()
    | some x =>
      trapIf (tagPool t != x.pool) (landTrap 2)
      deliver u d ((x.tag (tagIdx t)).status t)) s

/-! ### LDESC (R320) -/

/-- LDESC: a release at mod that sets the tag's descriptor and writes the context's descriptor table (R320, R414). -/
def execLdesc (g : Guard) (a b : Src) (s : State) : Host.Outcome State Fault Refusal :=
  issueNext g (fun u => do
    ensure u [.scalar a, .scalar b]
    let t := (← readScalar u a).setWidth 32
    let addr := (← readScalar u b).toInt
    let ar ← localArea u addr 32 32
    orderAt u ar 32
    watch u addr.toNat 32 true false
    let d : BitVec 256 := BitVec.ofNat 256 (leNat (← localRead u ar 32))
    let ctx ← getCtx u
    let s ← get
    match s.ctx? ctx with
    | none => pure ()
    | some x =>
      trapIf (!x.current t) (landTrap 2)
      trapIf (x.tag (tagIdx t)).orphaned (landTrap 6)
      trapIf (x.tag (tagIdx t)).desc.isSome (landTrap 3)
      trapIf (landBad d (s.partDies x.part)) (landTrap 4)
      handOver u
      liftF (fun s => s.frontWrite ctx (x.landa + 32 * tagIdx t) (leBytes d.toNat 32))
      modify (fun s => s.modTag ctx (tagIdx t) (fun y => { y with desc := some d }))) s

/-! ### LSEND (R308, R321) -/

/-- A fragment of eight rows: row F in the low bits. -/
def packRows (rs : List Row) : BitVec 36864 := BitVec.ofNat 36864 (packBits 4608 (rs.map (·.toNat)))

/-- Row i of a fragment. -/
def fragRow (b : BitVec 36864) (i : Nat) : Row := b.extractLsb' (4608 * i) 4608

/-- The port sends a fragment toward its landing: it holds a credit from now on (R308). -/
def State.sendFrag (s : State) (c : Nat) (p : Parcel) (nb : Bool) : State :=
  let (id, s) := s.newId
  (s.modCore c (fun k => { k with credits := k.credits - 1, frags := k.frags ++ [{ id := id, p := p, nb := nb, bounced := false, flying := true }] })).post
    (s.now + 1) (.fragmentArrival id)

/-- LSEND and LSEND.nb (R321); its row names are physical, as those of every word that is neither F-R nor F-M (R130). -/
def execLsend (g : Guard) (row : BitVec 7) (b : Src) (nb : Option (BitVec 3)) (s : State) : Host.Outcome State Fault Refusal :=
  issueNext g (fun u => do
    match (← getStrm u).answer, nb with
    | some w, some pd => modStrm u (fun v => v.setPred pd (w != 0))
    | _, _ =>
      -- an `lsend.nb` already sent holds the slot until its answer comes
      if ((← get).core u.core).frags.any (fun f => f.nb) then keepFor .landing
      ensure u [.scalar b]
      let v ← readScalar u b
      let isLit := match b with
        | .lit _ => true
        | _ => false
      let t : BitVec 32 := v.setWidth 32
      let fi := if isLit then 0 else v.toNat / 2 ^ 32 % 65536
      let s ← get
      if !(s.core u.core).dcache.contains t then askFor (.desc t) .landing
      let ctx ← getCtx u
      match s.ctx? ctx with
      | none => pure ()
      | some x =>
        trapIf (!x.current t) (landTrap 2)
        trapIf (x.tag (tagIdx t)).orphaned (landTrap 6)
        match (x.tag (tagIdx t)).desc with
        | none => raiseTrap (landTrap 5)
        | some d =>
          let f := landDesc d
          trapIf (decide (f.nf ≤ fi)) (landTrap 7)
          let j ← getJob u
          if f.dtype = 2 then
            match fmtOf (fun i => tget 0 j.fd i) f.fmt with
            | none => raiseTrap (fmtTrap f.fmt 2 0)
            | some mf => trapIf (!f.isInt && !precisionOk f.lw mf) (precTrap f.fmt f.lw)
          let rows := (List.range 8).map (fun i => row.toNat + i)
          holdIf (rows.any (fun r => (s.core u.core).rowHeld r || !j.isReady s.now (readyKeyRow r))) .busy
          let p := fun (s : State) => ({ ctx := ctx, tag := t, fi := fi, src := u.core, fd := fdOf j f.fmt
                                         clk := (s.die (coreDie u.core)).clock, rows := packRows (rows.map j.row) } : Parcel)
          match nb with
          | none =>
            holdIf (decide ((s.core u.core).credits = 0)) .credit
            handOver u
            modify (fun s => s.sendFrag u.core (p s) false)
          | some pd =>
            if (s.core u.core).credits = 0 then modStrm u (fun v => v.setPred pd false)
            else
              handOver u
              modify (fun s => s.sendFrag u.core (p s) true)
              keepFor .landing) s

/-! ### The overflow area and the orphan queues (R309, R312, R313, R414) -/

/-- The address of an overflow entry: its first 32 bytes hold the operand's record, the others its rows. -/
def Ctx.ovfAddr (x : Ctx) (e : Nat) : Nat := x.landa + 0x220000 + 4640 * e

/-- The address of a record of an owner's orphan queue. -/
def Ctx.orphAddr (x : Ctx) (owner slot : Nat) : Nat := x.landa + 0x20000 + 2048 * owner + 32 * slot

/-- The lowest free entry of a context's overflow area. -/
def Ctx.freeEntry (x : Ctx) : Option Nat := (List.range x.ovfn).find? (fun e => !x.ovf.contains e)

/-- The 32 bytes of an orphan record (R313). -/
def orphBytes (p : Parcel) (why land : Nat) : List Byte :=
  leBytes p.tag.toNat 4 ++ leBytes p.fi 2 ++ leBytes why 1 ++ leBytes 0 1 ++ leBytes p.src 2 ++ leBytes land 1 ++ leBytes 0 21

/-- Write a parcel into an overflow entry and take the entry (R309, R311). -/
def State.putEntry (s : State) (p : Parcel) (land e : Nat) : State × Except AccFault Unit :=
  match s.ctx? p.ctx with
  | none => (s, .ok ())
  | some x =>
    let (s, r) := s.frontWrite p.ctx (x.ovfAddr e) (orphBytes p 0 land ++ leBytes p.rows.toNat 4608)
    match r with
    | .error f => (s, .error f)
    | .ok _ => (s.modCtx p.ctx (fun x => { x with ovf := x.ovf ++ [e] }), .ok ())

/-- The rows in an overflow entry: one read of 4,608 bytes in translated memory (R310). -/
def State.entryRows (s : State) (ctx e : Nat) : State × Except AccFault (BitVec 36864) :=
  match s.ctx? ctx with
  | none => (s, .ok 0)
  | some x =>
    let (s, r) := s.frontRead ctx (x.ovfAddr e + 32) 4608
    match r with
    | .error f => (s, .error f)
    | .ok bs => (s, .ok (BitVec.ofNat 36864 (leNat bs)))

/-- A fault of the landing area (R461): the trap record with SOURCE 5, and the suspension of the work; a permanent fault stops
the context, and no reply can name it. -/
def State.landFault (s : State) (ctx : Nat) (e : AccFault) : State × Susp :=
  let (s, ix) := s.frontTrap ctx 0 e
  (s, if e.cause = 0x05 then suspOf e ix else suspOf e none)

/-- Slots that a context holds at a landing, and slots in use there: waiting operands and results held in slots (R303, R311). -/
def State.slotsAt (s : State) (n : Nat) (p : Nat → Bool) : Nat :=
  ((s.landing n).ops.filter (fun o => o.place == .slot && p o.p.ctx)).length
    + (s.deliveries.filter (fun d => d.landing == n && d.held == some .slot && p d.p.ctx)).length

/-- Is a slot free for the context at a landing (R309)? -/
def State.slotFree (s : State) (n ctx : Nat) : Bool :=
  decide (s.slotsAt n (· == ctx) < ((s.ctx? ctx).map (·.quota)).getD 0) && decide (s.slotsAt n (fun _ => true) < 1024)

/-- Where an arriving operand is put (R309): a slot, or a spilled entry; none where it bounces. -/
def State.placeOp (s : State) (n : Nat) (p : Parcel) : State × Except AccFault (Option OpPlace) :=
  if s.slotFree n p.ctx then (s, .ok (some .slot))
  else
    let spill := match (s.landing n).lastSpill with
      | some t => decide (t + 64 ≤ s.now)
      | none => true
    match (if spill then (s.ctx? p.ctx).bind Ctx.freeEntry else none) with
    | none => (s, .ok none)
    | some e =>
      let (s, r) := s.putEntry p n e
      match r with
      | .error f => (s, .error f)
      | .ok _ =>
        ((s.modLanding n (fun l => { l with lastSpill := some s.now })).countDie (n / 4) p.ctx 0x0104 (qualAny 1), .ok (some (.overflow e)))

/-! ### Destination parts (R311) -/

/-- The part number of a gallery's members taken together. -/
def galPart : Nat := 1024

/-- The destination parts of a descriptor. -/
def LandDesc.parts (d : LandDesc) (part : Nat) : List Nat :=
  if d.gallery then [galPart]
  else ((List.range 16).filter (fun n => d.cmask.getLsbD n)).map (fun n => 16 * (part + d.die) + n)

/-- A part that runs a job of the tag's context: the core whose job takes the number, the cores written, and the range. -/
structure PartRun where
  main : Nat
  cores : List Nat
  base : Nat
  size : Nat

/-- A part that runs a job of the context (R311); the number of a gallery's members goes to the lowest that runs a job. -/
def State.partRun (s : State) (ctx : Nat) (d : LandDesc) (part q : Nat) : Option PartRun :=
  if q = galPart then
    let die := part + d.die
    ((List.range 16).map (fun n => 16 * die + n)).findSome? (fun c =>
      let j := s.jobAt c
      let w := tget 0 j.gwin d.gw
      if (s.core c).job.isSome && j.ctx == ctx && w.getLsbD 63 then
        some { main := c, cores := ((List.range 16).filter (fun k => w.getLsbD (32 + k))).map (fun k => 16 * die + k)
               base := w.toNat % 256 * 4096, size := w.toNat / 2 ^ 16 % 256 * 4096 }
      else none)
  else if ((s.core q).job.map (·.ctx)) = some ctx then some { main := q, cores := [q], base := 0, size := (s.core q).spadSize }
  else none

/-- The saved job of a part, by its place among the context's saved jobs (R311). -/
def State.partSaved (s : State) (ctx : Nat) (d : LandDesc) (part q : Nat) : Option Nat :=
  (s.ctx? ctx).bind (fun x => x.saved.findIdx? (fun v =>
    if q = galPart then v.core / 16 == part + d.die && (tget 0 v.job.gwin d.gw).getLsbD 63 else v.core == q))

/-- A job takes one number on a counter and completes it, a release at mod (R189, R311); no number is beyond the last (R188). -/
def Job.oneNumber (j : Job) (ctr : Nat) (err : Bool) : Job :=
  if (j.ctr ctr).canTake 1 then j.modCtr ctr (fun t => ({ t with iss := t.iss + 1 } : TCtr).complete (t.iss.toNat + 1) 1 .mod err) else j

/-- The job on a part, running or saved, takes and completes a number; what the senders wrote reaches a running part with it
(R182, R311, R312, R314). -/
def State.partNumber (s : State) (ctx : Nat) (d : LandDesc) (part q : Nat) (clk : Tbl Nat) (err : Bool) : State :=
  match s.partRun ctx d part q with
  | some r =>
    let s := if ((s.jobAt r.main).ctr d.ctr).canTake 1 then s else s.takeTrapOf r.main .port (illegal9 9) none
    (s.modJob r.main (fun j => j.oneNumber d.ctr err)).modDie (coreDie r.main) (fun k => { k with clock := clkJoin k.clock clk })
  | none =>
    match s.partSaved ctx d part q with
    | some i => s.modCtx ctx (fun x => { x with saved := x.saved.mapIdx (fun k v =>
        if k = i then { v with job := v.job.oneNumber d.ctr err } else v) })
    | none => s

/-- A destination part is lost: status LS and an error record of type 5 (R311, R385). -/
def State.partLost (s : State) (n : Nat) (p : Parcel) (d : LandDesc) (part q : Nat) : State :=
  let low := if q = galPart then ((s.partRun p.ctx d part q).bind (fun r => r.cores.head?)).getD (16 * (part + d.die)) else q
  (s.modTag p.ctx (tagIdx p.tag) (fun t => { t with ls := true })).error 5 9 (n / 4) (n + 256 * low)
    (p.tag.toNat + p.fi * 2 ^ 32) p.ctx 0

/-! ### Orphans (R312) -/

/-- Saturating increment of a 16-bit count. -/
def satInc (n : BitVec 16) : BitVec 16 := if n = 0xFFFF then n else n + 1

/-- Once per orphaned operand: the tag is marked, the operand counted, and every destination part that runs or holds the
context completes a number with an error flag (R312). -/
def State.orphanMark (s : State) (p : Parcel) : State :=
  match s.ctx? p.ctx with
  | none => s
  | some x =>
    let s := s.modTag p.ctx (tagIdx p.tag) (fun t => { t with orphaned := true, orc := satInc t.orc })
    match (x.tag (tagIdx p.tag)).desc with
    | none => s
    | some d =>
      let f := landDesc d
      (f.parts x.part).foldl (fun s q => s.partNumber p.ctx f x.part q p.clk true) s

/-- What became of an orphaned operand: nothing, for want of room; queued with its rows in the overflow area; or queued while its
rows stay in their slot. -/
inductive OrphanRes where
  | wait
  | moved
  | kept
  deriving DecidableEq, Repr

/-- Queue an orphaned operand: its record goes to the owner's queue, and its data to the overflow area or, where that has no free
entry, it stays in the slot it has (R312). With the queue full, OQ is set and nothing else happens. -/
def State.queueOrphan (s : State) (n : Nat) (p : Parcel) (place : Option (OpPlace × Nat)) (why : Nat) : State × Except AccFault OrphanRes :=
  match s.ctx? p.ctx with
  | none => (s, .ok .moved)
  | some x =>
    let owner := (x.tag (tagIdx p.tag)).owner
    if 64 ≤ (x.orphans.filter (fun o => o.owner == owner)).length then
      (s.modTag p.ctx (tagIdx p.tag) (fun t => { t with oq := true }), .ok .wait)
    else
      let entry : Option (Option Nat × Bool) := match place with
        | some (.overflow e, _) => some (some e, false)
        | some (.slot, _) => some (x.freeEntry, x.freeEntry.isSome)
        | none => x.freeEntry.map (fun e => (some e, true))
      match entry with
      | none => (s, .ok .wait)
      | some (e, fresh) =>
        let k := tget 0 x.orphCount owner
        let (s, r) := s.frontWrite p.ctx (x.orphAddr owner (k % 64)) (orphBytes p why n)
        match r with
        | .error f => (s, .error f)
        | .ok _ =>
          let (s, r) := if fresh then s.putEntry p n (e.getD 0) else (s, .ok ())
          match r with
          | .error f => (s, .error f)
          | .ok _ =>
            (s.modCtx p.ctx (fun x => { x with
              orphans := x.orphans ++ [{ owner := owner, slot := k % 64, entry := e, op := (place.map (·.2)).getD 0, tag := p.tag }]
              orphCount := tput 0 x.orphCount owner (k + 1) }), .ok (if e.isSome then .moved else .kept))

/-- Change or drop the operand with this number. -/
def State.setOp (s : State) (n id : Nat) (f : Operand → Option Operand) : State :=
  s.modLanding n (fun l => { l with ops := l.ops.filterMap (fun o => if o.id = id then f o else some o) })

/-- A queued orphan's rows move from their slot to a freed overflow entry (R311, R312). -/
def State.moveOrphan (s : State) (o : Operand) : State × Except AccFault OrphanRes :=
  match (s.ctx? o.p.ctx).bind Ctx.freeEntry with
  | none => (s, .ok .kept)
  | some e =>
    let (s, r) := s.putEntry o.p o.landing e
    match r with
    | .error f => (s, .error f)
    | .ok _ =>
      (s.modCtx o.p.ctx (fun x => { x with
        orphans := mapIf (fun y => y.op == o.id && y.entry.isNone) (fun y => { y with entry := some e }) x.orphans }), .ok .moved)

/-- An orphaned operand that waits for room goes to the queue, or its rows to the overflow area, if they can. -/
def State.retryOrphan (s : State) (o : Operand) : State :=
  match o.stuck with
  | none => s
  | some why =>
    if o.susp.isSome then s
    else
      let (s', r) := if o.queued then s.moveOrphan o else s.queueOrphan o.landing o.p (some (o.place, o.id)) why.toNat
      match r with
      | .ok .moved => s'.setOp o.landing o.id (fun _ => none)
      | .ok .kept => s'.setOp o.landing o.id (fun o => some { o with queued := true })
      | .ok .wait => s'
      | .error e =>
        let (s, v) := s.landFault o.p.ctx e
        s.setOp o.landing o.id (fun o => some { o with susp := some v })

/-- A result held in a slot moves to a freed overflow entry (R311). -/
def State.moveHeld (s : State) (d : Delivery) : State :=
  if d.held = some .slot && d.susp.isNone then
    match (s.ctx? d.p.ctx).bind Ctx.freeEntry with
    | none => s
    | some e =>
      let (s', r) := s.putEntry d.p d.landing e
      let put := fun (s : State) (f : Delivery → Delivery) => ({ s with deliveries := mapIf (fun y => y.id == d.id) f s.deliveries } : State)
      match r with
      | .ok _ => put s' (fun y => { y with held := some (.overflow e) })
      | .error f =>
        let (s, v) := s.landFault d.p.ctx f
        put s (fun y => { y with susp := some v })
  else s

/-- Room has appeared in a context's overflow area or orphan queues: orphans that wait come first, in arrival order, then held
results (R311, R312). -/
def State.settleLand (s : State) (ctx : Nat) : State :=
  let s := (s.allOps.filter (fun o => o.p.ctx == ctx && o.stuck.isSome)).foldl State.retryOrphan s
  (s.deliveries.filter (fun d => d.p.ctx == ctx)).foldl State.moveHeld s

/-- Free an overflow entry. -/
def State.freeEntryAt (s : State) (ctx e : Nat) : State := s.modCtx ctx (fun x => { x with ovf := x.ovf.filter (· != e) })

/-- An operand's timer expires: every operand of its tag that waits at the landing is orphaned, in ascending fragment index
(R312). -/
def State.expireOp (s : State) (id : Nat) : State :=
  match s.allOps.find? (fun o => o.id == id) with
  | none => s
  | some o =>
    if o.stuck.isSome || decide (s.now < o.expire) then s
    else
      let mine := ((s.landing o.landing).ops.filter (fun v => v.p.ctx == o.p.ctx && v.p.tag == o.p.tag && v.stuck.isNone)).mergeSort
        (fun a b => decide (a.p.fi ≤ b.p.fi))
      mine.foldl (fun s v =>
        let s := s.setOp v.landing v.id (fun y => some { y with stuck := some 1 })
        (s.retryOrphan { v with stuck := some 1 }).orphanMark v.p) s

/-- ORPHAN_TIMEOUT (R312). -/
def execOrphanTimeout (id : Nat) (s : State) : Host.Outcome State Fault Refusal := event (·.expireOp id) s

/-! ### Arrival and matching (R308, R309) -/

/-- Lane by lane combine of two rows (R88). -/
def landLane (op : Nat) (lw : Bool) (a b : Nat) : Nat × Flg :=
  let stk := imgStk lw a || imgStk lw b
  let v := 2 ^ valW lw
  match op with
  | 0 => fltAdd lw a b
  | 1 => fltMul lw a b
  | 2 => (fltMinMax true lw a b, 0)
  | 3 => (fltMinMax false lw a b, 0)
  | 4 => (satImg lw (imgInt lw a + imgInt lw b) stk, 0)
  | 5 => (withStk lw ((a % v) ||| (b % v)) stk, 0)
  | _ => (withStk lw ((a % v) ^^^ (b % v)) stk, 0)

/-- The combined rows, and whether a lane raised NV (R88, R310). -/
def landCombine (d : LandDesc) (a b : BitVec 36864) : BitVec 36864 × Bool :=
  let rs := (List.range 8).map (fun i => ((rowLanes d.lw (fragRow a i)).zip (rowLanes d.lw (fragRow b i))).map (fun p => landLane d.op d.lw p.1 p.2))
  (packRows (rs.map (fun r => rowOf d.lw (r.map (·.1)))), rs.any (fun r => r.any (fun l => l.2 != 0)))

/-- The clock of two senders (R182). -/
def Parcel.join (p q : Parcel) : Parcel := { p with clk := clkJoin p.clk q.clk }

/-- Two operands combine: 8 cycles later the delivery begins (R310). The later operand's captured custom format stands. -/
def State.combineNow (s : State) (del : Delivery) (a b : Parcel) : State :=
  match (s.ctx? b.ctx).bind (fun x => (x.tag (tagIdx b.tag)).desc.map (fun d => (x.part, landDesc d))) with
  | none => { s with deliveries := s.deliveries.filter (fun (y : Delivery) => y.id != del.id) }
  | some (part, d) =>
    let r := landCombine d a.rows b.rows
    let s := s.modTag b.ctx (tagIdx b.tag) (fun t => { t with dlv := satInc t.dlv, flg := t.flg ||| flgIf r.2 flgNV })
    let del := { del with p := { (b.join a) with rows := r.1 }, pending := none, nv := r.2, parts := d.parts part }
    ({ s with deliveries := s.deliveries.filter (fun (y : Delivery) => y.id != del.id) ++ [del] } : State).post (s.now + 8) (.landingDelivery del.id)

/-- What a landing does with an arrival: accepted or bounced, or a fault of its overflow area (R309). -/
def State.arrive (s : State) (n : Nat) (p : Parcel) : State × Except AccFault Bool :=
  match s.ctx? p.ctx with
  | none => (s, .ok true)
  | some x =>
    let t := x.tag (tagIdx p.tag)
    let s := s.countDie (n / 4) p.ctx 0x0103 (qualAny 1)
    if t.orphaned then
      let (s, r) := s.queueOrphan n p none 2
      match r with
      | .error e => (s, .error e)
      | .ok .moved => (s.orphanMark p, .ok true)
      | .ok _ =>
        let (s, r) := s.placeOp n p
        match r with
        | .error e => (s, .error e)
        | .ok none => (s, .ok false)
        | .ok (some pl) =>
          let (id, s) := s.newId
          let o : Operand := { id := id, landing := n, p := p, place := pl, expire := s.now, stuck := some 2 }
          let s := s.modLanding n (fun l => { l with ops := l.ops ++ [o] })
          ((s.retryOrphan o).orphanMark p, .ok true)
    else
      match takeFirstBy (fun (o : Operand) => o.p.ctx == p.ctx && o.p.tag == p.tag && o.p.fi == p.fi && o.stuck.isNone) (s.landing n).ops with
      | some (o, rest) =>
        let s := s.modLanding n (fun l => { l with ops := rest })
        let (id, s) := s.newId
        let del : Delivery := { id := id, landing := n, p := p, nv := false, parts := [] }
        (match o.place with
        | .slot => (s.combineNow del o.p p, .ok true)
        | .overflow e =>
          (({ s with deliveries := s.deliveries ++ [{ del with p := o.p, pending := some (e, p) }] } : State).post (s.now + 1) (.overflowReadback id), .ok true))
      | none =>
        let (s, r) := s.placeOp n p
        match r with
        | .error e => (s, .error e)
        | .ok none => (s, .ok false)
        | .ok (some pl) =>
          let (id, s) := s.newId
          let tmo := ((t.desc.map landDesc).map (·.tmo)).getD 1000
          let o : Operand := { id := id, landing := n, p := p, place := pl, expire := s.now + usCycles tmo }
          ((s.modLanding n (fun l => { l with ops := l.ops ++ [o] })).postEarly o.expire (.orphanTimeout id), .ok true)

/-- The core and the fragment with this number. -/
def State.fragAt (s : State) (id : Nat) : Option (Nat × Frag) :=
  s.cores.findSome? (fun k => (k.2.frags.find? (fun f => f.id == id)).map (fun f => (k.1, f)))

/-- Change a fragment. -/
def State.setFrag (s : State) (c id : Nat) (f : Frag → Frag) : State :=
  s.modCore c (fun k => { k with frags := mapIf (fun x => x.id == id) f k.frags })

/-- The arrivals of a landing that it may handle, by port and fragment: of one port the first one sent to it, and none whose operand's
area faulted (R308, R309). -/
def State.mayHandle (s : State) (n : Nat) : List (Nat × Nat) :=
  (s.landing n).arrived.filterMap (fun e =>
    let fs := (s.core e.1).frags
    let ahead := (fs.takeWhile (fun g => g.id != e.2.1)).any (fun g =>
      (g.flying || g.bounced) && ((s.ctx? g.p.ctx).map (fun x => s.landingOf x g.p.tag)) == some n)
    if !ahead && fs.any (fun g => g.id == e.2.1 && g.flying && g.susp.isNone) then some (e.1, e.2.1) else none)

/-- The arrival that a landing handles next: round-robin by port (R309). -/
def State.nextArrival (s : State) (n : Nat) : Option Nat :=
  let es := s.mayHandle n
  let low := fun (l : List (Nat × Nat)) => l.foldl (fun (m : Option (Nat × Nat)) e => match m with
    | some v => if e.1 < v.1 then some e else some v
    | none => some e) none
  ((low (es.filter (fun e => decide ((s.landing n).nextPort ≤ e.1)))).orElse (fun _ => low es)).map (·.2)

/-- A landing handles an arrival: accepted, or bounced, or suspended on a fault of its overflow area (R308, R309). -/
def State.handleArrival (s : State) (n c : Nat) (f : Frag) : State :=
  let (s', r) := s.arrive n f.p
  match r with
  | .error e =>
    let (s, v) := s.landFault f.p.ctx e
    s.setFrag c f.id (fun f => { f with susp := some v })
  | .ok ok =>
    let s := s'.modLanding n (fun l => { l with
      lastArrival := some s'.now, nextPort := c + 1, arrived := l.arrived.filter (fun e => e.2.1 != f.id) })
    let s := s.setFrag c f.id (fun f => { f with flying := false, bounced := !ok })
    let s := if ok then s.modCore c (fun k => { k with credits := k.credits + 1 }) else s
    s.post (s.now + 1) (.fragmentAnswer f.id)

/-- A fragment reaches its landing, in a cycle that is open; from then on the landing looks at it in every cycle, after everything that
reaches it in that cycle, and handles one arrival a cycle (R308, R309). -/
def State.fragArrive (s : State) (id : Nat) : State :=
  match s.fragAt id with
  | none => s
  | some (c, f) =>
    match s.ctx? f.p.ctx with
    | none => s
    | some x =>
      if !f.flying || f.susp.isSome then s
      else
        let n := s.landingOf x f.p.tag
        let again := (s.landing n).arrived.find? (fun e => e.2.1 == id)
        let (late, s) := if again.isNone then s.drawBit else (false, s)
        if late then s.post (s.now + 1) (.fragmentArrival id)
        else if (again.map (fun e => e.2.2)) ≠ some s.now then
          (s.modLanding n (fun l => { l with arrived := l.arrived.filter (fun e => e.2.1 != id) ++ [(c, id, s.now)] })).post s.now
            (.fragmentArrival id)
        else if (s.landing n).lastArrival = some s.now || s.nextArrival n != some id then s.post (s.now + 1) (.fragmentArrival id)
        else s.handleArrival n c f

/-- FRAGMENT_ARRIVAL (R309). -/
def execFragmentArrival (id : Nat) (s : State) : Host.Outcome State Fault Refusal := event (·.fragArrive id) s

/-- The answer of a landing reaches the port: an `lsend.nb` learns it, a bounced fragment of a blocking send is resent 64 cycles
later (R308, R321). -/
def State.fragAnswer (s : State) (id : Nat) : State :=
  match s.fragAt id with
  | none => s
  | some (c, f) =>
    if f.flying then s
    else if f.bounced && !f.nb then s.post (s.now + 64) (.fragmentResend id)
    else
      let s := s.modCore c (fun k => { k with
        frags := k.frags.filter (fun g => g.id != id)
        credits := if f.bounced then k.credits + 1 else k.credits })
      if f.nb then s.modStrm c .cx (fun v => { v with answer := some (if f.bounced then 0 else 1) }) else s

/-- FRAGMENT_ANSWER (R308, R321). -/
def execFragmentAnswer (id : Nat) (s : State) : Host.Outcome State Fault Refusal := event (·.fragAnswer id) s

/-- A bounced fragment is sent again, unless its port has stopped (R308, R375). -/
def State.fragResend (s : State) (id : Nat) : State :=
  match s.fragAt id with
  | none => s
  | some (c, f) =>
    if f.bounced && (s.core c).stopping.isNone then
      (s.setFrag c id (fun f => { f with bounced := false, flying := true })).post (s.now + 1) (.fragmentArrival id)
    else s

/-- FRAGMENT_RESEND (R308). -/
def execFragmentResend (id : Nat) (s : State) : Host.Outcome State Fault Refusal := event (·.fragResend id) s

/-- A delivery with this number. -/
def State.delAt (s : State) (id : Nat) : Option Delivery := s.deliveries.find? (fun d => d.id == id)

/-- Change a delivery. -/
def State.setDel (s : State) (id : Nat) (f : Delivery → Delivery) : State :=
  { s with deliveries := mapIf (fun d => d.id == id) f s.deliveries }

/-- Does a part of a combine's tag hold a saved job, so that the entry of its spilled operand is kept for the result (R311)? -/
def State.keepsEntry (s : State) (d : Delivery) : Bool :=
  match (s.ctx? d.p.ctx).bind (fun x => (x.tag (tagIdx d.p.tag)).desc.map (fun d => (x.part, landDesc d))) with
  | some (part, f) => (f.parts part).any (fun q => (s.partRun d.p.ctx f part q).isNone && (s.partSaved d.p.ctx f part q).isSome)
  | none => false

/-- A spilled operand has been read back, in a cycle that is open: its entry is free, or kept for its result, and the combine begins
(R310, R311). -/
def State.readback (s : State) (id : Nat) : State :=
  match s.delAt id with
  | none => s
  | some d =>
    match d.pending with
    | none => s
    | some (e, q) =>
      if d.susp.isSome then s
      else
        let (late, s) := s.drawBit
        if late then s.post (s.now + 1) (.overflowReadback id)
        else
          let (s', r) := s.entryRows d.p.ctx e
          match r with
          | .error f =>
            let (s, v) := s.landFault d.p.ctx f
            s.setDel id (fun d => { d with susp := some v })
          | .ok rows =>
            if s'.keepsEntry d then s'.combineNow { d with back := some e } { d.p with rows := rows } q
            else ((s'.freeEntryAt d.p.ctx e).combineNow d { d.p with rows := rows } q).settleLand d.p.ctx

/-- OVERFLOW_READBACK (R310). -/
def execOverflowReadback (id : Nat) (s : State) : Host.Outcome State Fault Refusal := event (·.readback id) s

/-! ### Delivery (R310, R311) -/

/-- One lane at the other width, in the interpretation of the combine (R310). -/
def landConv (int fromLw toLw : Bool) (b : Nat) : Nat :=
  if int && fromLw != toLw then satImg toLw (imgInt fromLw b) (imgStk fromLw b) else imgConv fromLw toLw b

/-- Elements a delivery draws for (R71). -/
def LandDesc.draws (d : LandDesc) : Nat := if d.dtype = 2 && d.rnd == .rsto then 8 * laneN d.lw else 0

/-- The delivered bytes of a fragment, with the flags of its final stores (R310). -/
def landBytes (d : LandDesc) (mf : MFmt) (rows : BitVec 36864) (draws : List Nat) : List Byte × Flg :=
  let r := (List.range 8).map (fun i =>
    let ls := rowLanes d.lw (fragRow rows i)
    if d.dtype = 2 then
      let es := ls.zipIdx.map (fun p => storeLane mf d.lw d.isInt p.1 d.rnd (draws.getD (i * laneN d.lw + p.2) 0))
      ((packRun mf.width (es.map (·.1))).map (·.1), es.foldl (fun (x : Flg) e => x ||| e.2) 0)
    else
      let w18 := d.dtype == 1
      ((packRun (laneW w18) (ls.map (landConv d.isInt d.lw w18))).map (·.1), (0 : Flg)))
  (r.flatMap (·.1), r.foldl (fun (x : Flg) e => x ||| e.2) 0)

/-- The memory format of a delivery; a custom one is the sender's (R61). -/
def landFmt (d : LandDesc) (p : Parcel) : MFmt := (fmtOf (fun _ => p.fd) d.fmt).getD (.img false)

/-- The bytes one fragment delivers: FB = 8 × RB (R306). -/
def landSize (d : LandDesc) (p : Parcel) : Nat :=
  laneN d.lw * (if d.dtype = 0 then 36 else if d.dtype = 1 then 18 else (landFmt d p).width)

/-- The rows of a result that is about to be delivered: a held one in the overflow area is read from it. -/
def State.heldRows (s : State) (d : Delivery) : State × Except AccFault (BitVec 36864) :=
  match d.held with
  | some (.overflow e) => s.entryRows d.p.ctx e
  | _ => (s, .ok d.p.rows)

/-- Free the place of a held result. -/
def State.freeHeld (s : State) (d : Delivery) : State :=
  match d.held with
  | some (.overflow e) => (s.freeEntryAt d.p.ctx e).settleLand d.p.ctx
  | _ => s

/-- A result whose parts are all served leaves; one with saved parts left is held: in the entry kept for it, in a free overflow entry, else
in a slot (R311). -/
def State.restDelivery (s : State) (id : Nat) : State :=
  match s.delAt id with
  | none => s
  | some d =>
    let s := match d.back with
      | some e => (s.freeEntryAt d.p.ctx e).setDel id (fun d => { d with back := none })
      | none => s
    if d.parts.isEmpty then
      let s := ({ s with deliveries := s.deliveries.filter (fun (y : Delivery) => y.id != id) } : State).freeHeld d
      if d.back.isSome then s.settleLand d.p.ctx else s
    else if d.held.isSome then s
    else
      match d.back.orElse (fun _ => (s.ctx? d.p.ctx).bind Ctx.freeEntry) with
      | none => s.setDel id (fun d => { d with held := some .slot })
      | some e =>
        let (s', r) := s.putEntry d.p d.landing e
        match r with
        | .ok _ => s'.setDel id (fun d => { d with held := some (.overflow e) })
        | .error f =>
          let (s, v) := s.landFault d.p.ctx f
          s.setDel id (fun d => { d with susp := some v, held := some .slot })

/-- Sort the parts of a result by R311: those that run and have room are to be written; those that hold a saved job stay; the
others are lost. -/
def State.sortParts (s : State) (dl : Delivery) (d : LandDesc) (part : Nat) : State × List Nat × List Nat :=
  let fb := landSize d dl.p
  dl.parts.foldl (fun (r : State × List Nat × List Nat) q =>
    match r.1.partRun dl.p.ctx d part q with
    | some w =>
      if d.offset + (dl.p.fi + 1) * fb ≤ w.size then (r.1, r.2.1 ++ [q], r.2.2)
      else ((r.1.partLost dl.landing dl.p d part q).partNumber dl.p.ctx d part q dl.p.clk true, r.2.1, r.2.2)
    | none =>
      if (r.1.partSaved dl.p.ctx d part q).isSome then (r.1, r.2.1, r.2.2 ++ [q])
      else (r.1.partLost dl.landing dl.p d part q, r.2.1, r.2.2)) (s, [], [])

/-- A landing write into one core's scratchpad; a watchpoint match is raised after the write (R310, R439). -/
def State.landWrite (s : State) (c off : Nat) (bs : List Byte) : State :=
  let s := s.spadWrite c off (fullMask bs) true
  match (s.core c).job with
  | none => s
  | some _ =>
    match wpMatch (s.core c).obs.wp off bs.length false true with
    | some (i, a) => s.takeTrapOf c .port (wpTrap i a) none
    | none => s

/-- One cycle of a delivery (R310, R311): it starts, or writes 128 bytes to each of its parts, or ends and completes their
numbers. -/
def State.deliveryCycle (s : State) (id : Nat) : State :=
  match s.delAt id with
  | none => s
  | some dl =>
    match s.ctx? dl.p.ctx with
    | none => s
    | some x =>
      match (x.tag (tagIdx dl.p.tag)).desc with
      | none => s
      | some raw =>
        let d := landDesc raw
        if dl.pending.isSome || dl.susp.isSome then s
        else
          -- parts that stopped running wait with the saved ones, or are lost
          let (s, dl) := if dl.going.isEmpty then (s, dl)
            else
              let gone := dl.going.filter (fun q => (s.partRun dl.p.ctx d x.part q).isNone)
              (s, { dl with going := dl.going.filter (fun q => !gone.contains q), parts := dl.parts ++ gone })
          let start := dl.going.isEmpty
          let (s, r) := if start then
              let (s, go, keep) := s.sortParts dl d x.part
              if go.isEmpty then (s, .ok { dl with parts := keep, bytes := [], pos := 0 })
              else
                let (s, h) := s.heldRows dl
                match h with
                | .error f => (s, .error f)
                | .ok rows =>
                  let (s, ds) := s.sourceDraws dl.landing d.draws 2
                  let (bs, fl) := landBytes d (landFmt d dl.p) rows ds
                  let s := s.modTag dl.p.ctx (tagIdx dl.p.tag) (fun t => { t with flg := t.flg ||| fl })
                  (s, .ok { dl with going := go, parts := keep, bytes := bs, pos := 0 })
            else (s, (.ok dl : Except AccFault Delivery))
          match r with
          | .error f =>
            let (s, v) := s.landFault dl.p.ctx f
            s.setDel id (fun d => { d with susp := some v })
          | .ok dl =>
            if dl.going.isEmpty then (s.setDel id (fun _ => dl)).restDelivery id
            else if dl.bytes.length ≤ dl.pos then
              let s := dl.going.foldl (fun s q => s.partNumber dl.p.ctx d x.part q dl.p.clk false) s
              (s.setDel id (fun _ => { dl with going := [], bytes := [], pos := 0 })).restDelivery id
            else
              let off := d.offset + dl.p.fi * dl.bytes.length + dl.pos
              let bs := (dl.bytes.drop dl.pos).take 128
              let s := s.setDel id (fun _ => { dl with pos := dl.pos + 128 })
              let s := dl.going.foldl (fun s q =>
                match s.partRun dl.p.ctx d x.part q with
                | some w => w.cores.foldl (fun s c => s.landWrite c (w.base + off) bs) s
                | none => s) s
              s.postOnce (s.now + 1) (.landingDelivery id)

/-- LANDING_DELIVERY (R310, R311). -/
def execLandingDelivery (id : Nat) (s : State) : Host.Outcome State Fault Refusal := event (·.deliveryCycle id) s

/-- The held results of a context try again, since a job of it has been restored (R311). -/
def State.kickHeld (s : State) (ctx : Nat) : State :=
  (s.deliveries.filter (fun d => d.p.ctx == ctx && d.held.isSome)).foldl (fun s d => s.postOnce (s.now + 1) (.landingDelivery d.id)) s

/-! ### LORPH (R323) -/

/-- LORPH: the oldest orphan record of the issuing core's queue, with its rows, into the scratchpad (R323). -/
def execLorph (g : Guard) (d : Dest) (a : Src) (s : State) : Host.Outcome State Fault Refusal :=
  issueNext g (fun u => do
    needSpace u d
    ensure u [.scalar a]
    let addr := (← readScalar u a).toInt
    let ctx ← getCtx u
    match (← get).ctx? ctx with
    | none => pure ()
    | some x =>
      match takeFirstBy (fun (o : Orphan) => o.owner == u.core) x.orphans with
      | none => deliver u d 0
      | some (o, rest) =>
        match (← areaOf u addr 4640 16 false) with
        | .spad off =>
          watch u addr.toNat 4640 false true
          let h ← liftF (fun s => s.frontRead ctx (x.orphAddr o.owner o.slot) 32)
          let r ← match o.entry with
            | some e => liftF (fun s => s.frontRead ctx (x.ovfAddr e + 32) 4608)
            | none => do
              let rows := ((← get).allOps.find? (fun y => y.id == o.op)).map (·.p.rows)
              pure (leBytes (rows.getD 0).toNat 4608)
          modify (fun s => s.spadWrite u.core off (fullMask (h ++ r)) false)
          modify (fun s =>
            let s := s.modCtx ctx (fun x => { x with orphans := rest })
            let s := match o.entry with
              | some e => s.freeEntryAt ctx e
              | none => s.landings.foldl (fun (s : State) (l : Nat × Landing) => s.setOp l.1 o.op (fun _ => none)) s
            s.settleLand ctx)
          deliver u d 1
        | _ => raiseTrap (addrTrap 0x0E addr)) s

end Sys2Proof.Machine
end

