-- ==== Sys2Proof/Machine/Engine.lean ====
section
/-!
DEFINITION. The copy engines: chains and their entries, and the instructions of major 0xA8 (R324 to R333).
-/

namespace Sys2Proof.Machine

/-! ### Entries (R325, R326, R328) -/

/-- The number in n bytes of an entry from byte i. -/
def ceField (e : BitVec 256) (i n : Nat) : Nat := e.toNat / 256 ^ i % 256 ^ n

/-- KIND of an entry. -/
def ceKind (e : BitVec 256) : Nat := ceField e 0 1 % 16

/-- The trap of a chain error: entry index and code (R328). -/
def chainTrap (idx code : Nat) : Trap :=
  { illegal9 16 with detail := BitVec.ofNat 64 (idx % 65536 + code * 65536) }

/-- The reserved values of an entry (R326, R328 code 1). -/
def ceBad (e : BitVec 256) : Bool :=
  ceField e 0 1 / 16 != 0 || ceField e 24 8 != 0 ||
    match ceKind e with
    | 0 => e != 0
    | 1 => ceField e 1 3 != 0 || ceField e 12 12 != 0
    | 2 => decide (4 ≤ ceField e 1 1) || ceField e 4 4 == 0 || ceField e 8 16 != 0
    | 3 => decide (4 < ceField e 1 1 % 16) || ceField e 4 4 != 0
    | 4 => ceField e 1 1 / 4 % 4 != 0 || ceField e 2 2 != 0 || ceField e 16 8 != 0 || (ceField e 1 1 % 4 == 2)
    | 5 => decide (4 < ceField e 1 1 / 2 % 8) || ceField e 2 6 != 0
        || (if (ceField e 1 1).testBit 0 then ceField e 1 1 / 16 != 0 else ceField e 8 16 != 0)
    | 6 => ceField e 1 23 != 0
    | _ => true

/-- The copy engine of the job on a core. -/
def State.ceAt (s : State) (c : Nat) : CopyEng := (s.jobAt c).ce

/-- Change the copy engine of the job on a core. -/
def State.modCe (s : State) (c : Nat) (f : CopyEng → CopyEng) : State := s.modJob c (fun j => { j with ce := f j.ce })

/-- A trap of the copy engine (R328). -/
def State.ceTrap (s : State) (c : Nat) (t : Trap) : State := s.takeTrapOf c .copy t none

/-- Uncorrectable data met by the copy engine in an entry or a pattern: the trap, with its error record (R158, R328, R385). -/
def State.ceFault (s : State) (c : Nat) (e : AccFault) : State :=
  let s := if e.cause = 0x08 then s.poisonError c (s.jobAt c).ctx e.va 2 else s
  s.ceTrap c e.trap

/-- The engine runs on a core: it holds a chain, and neither a trap, a suspension nor a stop keeps it; a block in flight is
finished even after a watchpoint match (R329, R439). -/
def State.ceLive (s : State) (c : Nat) : Bool :=
  (s.core c).job.isSome && !(s.ceAt c).chains.isEmpty && (!(s.ceAt c).trapped || (s.ceAt c).flight.isSome) && (s.ceAt c).susp.isNone
    && !(s.ceAt c).stopped

/-- The event of an entry by its KIND (R326). -/
def ceEvent (k c : Nat) : Instr :=
  match k with
  | 0 => .chainEnd c
  | 1 => .chainCopy c
  | 2 => .chainLoop c
  | 3 => .chainIf c
  | 4 => .chainWait c
  | 5 => .chainSignal c
  | _ => .chainNotify c

/-- The raw bytes of entry i of the running chain, where it lies in the scratchpad (R325). -/
def State.ceEntry (s : State) (c i : Nat) : Option (BitVec 256) :=
  match (s.ceAt c).chains.head? with
  | none => none
  | some h =>
    let a := h.head + 32 * i
    if decide (i ≤ 65535) && decide (a + 32 ≤ (s.core c).spadSize) then some (BitVec.ofNat 256 (leNat (readBytes (s.core c).spad a 32)))
    else none

/-- Does a stop of the core or a `CESTOP` keep the engine from going on between two blocks or entries (R329, R332)? -/
def State.ceHalts (s : State) (c : Nat) : Bool := (s.core c).stopping.isSome || (s.ceAt c).stopReq

/-- The engine reaches its current entry: it reads it and goes on to its effect in the next cycle (R325). -/
def State.ceReach (s : State) (c : Nat) : State :=
  if !s.ceLive c || s.ceHalts c then s
  else
    let e := s.ceAt c
    match s.ceEntry c e.entry with
    | none => s.ceTrap c (chainTrap e.entry 5)
    | some raw =>
      if let some v := s.spadBadAt c (((e.chains.head?.map (·.head)).getD 0) + 32 * e.entry) 32 then s.ceFault c (poisonFault v)
      else if ceBad raw then s.ceTrap c (chainTrap e.entry 1)
      else (s.modCe c (fun e => { e with cur := some raw })).postOnce (s.now + 1) (ceEvent (ceKind raw) c)

/-- The engine goes on at an entry. -/
def State.ceGoto (s : State) (c i : Nat) : State :=
  (s.modCe c (fun e => { e with
    entry := i, block := 0, cur := none, pats := none, wait := none, relDone := false, sigNum := none })).ceReach c

/-- The effect of the current entry, if the engine runs and the entry is of this KIND. -/
def State.ceAct (s : State) (c k : Nat) (f : BitVec 256 → State → State) : State :=
  if !s.ceLive c then s
  else
    match (s.ceAt c).cur with
    | some raw => if ceKind raw = k then f raw s else s
    | none => s

/-- An entry that begins only once every earlier COPY is applied at its home (R327). -/
def State.ceOrdered (s : State) (c k : Nat) (f : BitVec 256 → State → State) : State :=
  s.ceAct c k (fun raw s =>
    if s.ceHalts c then s
    else if (s.ceAt c).unacked.isEmpty then f raw s
    else s.postOnce (s.now + 1) (ceEvent k c))

/-! ### Accesses of the engine (R327, R328) -/

/-- Bytes of translated memory read at their homes, past the L1 (R143, R391). -/
def State.ceReadMem (s : State) (c va : Nat) (ps : List (Nat × Nat)) : State × Except AccFault (List Byte) :=
  let j := s.jobAt c
  let asid := ((s.ctx? j.ctx).map (·.asid)).getD 0
  let r := ps.foldl (fun (r : State × Nat × Except AccFault (List Byte)) p =>
    (splitLines p.1 (List.replicate p.2 ())).foldl (fun (r : State × Nat × Except AccFault (List Byte)) q =>
      match r with
      | (s, a, .error e) => (s, a, .error e)
      | (s, a, .ok l) =>
        if paMod q.1 = s.ownMod then
          let (s, bs, clk, bad) := s.homeRead (coreDie c) c (paKey q.1) (paLocal q.1) q.2.length j.ctx asid
          if bad then (s.lineError 2 (paLocal q.1) a j.ctx, a, .error (poisonFault a))
          else (s.modCe c (fun e => { e with seen := clkJoin e.seen clk }), a + q.2.length, .ok (l ++ bs))
        else
          ({ s with free := s.free + q.2.length }, a + q.2.length, .ok (l ++ (List.range q.2.length).map (fun i => Config.freeByte (s.free + i))))) r)
    (s, va, .ok [])
  (r.1, r.2.2)

/-- n bytes read by the engine (R157, R328). -/
def State.ceRead (s : State) (c : Nat) (a : Int) (n al : Nat) : State × Except Trap (List Byte) :=
  match checkAddr s c a n al false with
  | .error t => (s, .error t)
  | .ok (.trans va) =>
    let (s, t) := s.translateRange c (s.jobAt c).ctx va n .load
    match t with
    | .error e => (s, .error e.trap)
    | .ok ps =>
      let (s, r) := s.ceReadMem c va ps
      match r with
      | .error e => (s, .error e.trap)
      | .ok bs => (s, .ok bs)
  | .ok ar =>
    match s.localBad c ar n with
    | some v => (s.poisonError c (s.jobAt c).ctx v 2, .error (poisonFault v).trap)
    | none => (s, .ok (s.localBytes c ar n))

/-- Where n bytes written by the engine go, translated (R157, R328). -/
def State.ceDst (s : State) (c : Nat) (a : Int) (n al : Nat) : State × Except Trap RowDst :=
  match checkAddr s c a n al false with
  | .error t => (s, .error t)
  | .ok (.spad o) => (s, .ok (.spad o))
  | .ok (.cluster o) => (s, .ok (.cluster o))
  | .ok (.trans va) =>
    let (s, t) := s.translateRange c (s.jobAt c).ctx va n .store
    match t with
    | .error e => (s, .error e.trap)
    | .ok ps => (s, .ok (.phys ps))

/-- The pieces of a physical range from byte n on. -/
def dropPieces : Nat → List (Nat × Nat) → List (Nat × Nat)
  | _, [] => []
  | n, (a, l) :: ps => if n < l then (a + n, l - n) :: ps else dropPieces (n - l) ps

/-- A destination from byte n on. -/
def RowDst.advance (d : RowDst) (n : Nat) : RowDst :=
  match d with
  | .spad o => .spad (o + n)
  | .cluster o => .cluster (o + n)
  | .phys ps => .phys (dropPieces n ps)

/-- The engine writes bytes at a destination: scratchpad granules become full, memory is written past the L1, and a watchpoint
match is raised after the write (R143, R148, R439). -/
def State.cePut (s : State) (c : Nat) (d : RowDst) (bs : List Byte) : State :=
  match d with
  | .spad o =>
    let s := s.spadWrite c o (fullMask bs) true
    (match wpMatch (s.core c).obs.wp o bs.length false true with
    | some (i, a) => s.ceTrap c (wpTrap i a)
    | none => s)
  | .cluster o => s.clusterWrite c o (fullMask bs)
  | .phys ps =>
    (ps.foldl (fun (r : State × List (Byte × Byte)) p =>
      (r.1.sendBytes c 4 p.1 (r.2.take p.2) (s.jobAt c).ctx, r.2.drop p.2)) (s, fullMask bs)).1

/-- A release by the engine (R178). -/
def State.ceRelease (s : State) (c : Nat) (scope : Scope) : State := s.release c 4 scope

/-- An acquire by the engine: it reads past the L1, so only the clocks join (R182). -/
def State.ceAcquire (s : State) (c : Nat) (scope : Scope) : State :=
  if scopeWide scope then
    let seen := (s.ceAt c).seen
    (s.modDie (coreDie c) (fun d => { d with clock := clkJoin d.clock seen })).modCe c (fun e => { e with seen := [] })
  else s

/-! ### The entries (R327) -/

/-- A pattern of a COPY: 64 bytes, aligned, in the scratchpad (R326, R328 code 2). -/
def State.cePattern (s : State) (c a : Nat) : Option Pattern :=
  if a % 64 != 0 || decide ((s.core c).spadSize < a + 64) then none
  else (bindOf true (readBytes (s.core c).spad a 64)).map (·.pat)

/-- The patterns of the COPY the engine is at. -/
def State.cePats (s : State) (c : Nat) (raw : BitVec 256) : Option (Pattern × Pattern) :=
  match (s.ceAt c).pats with
  | some p => some p
  | none =>
    match s.cePattern c (ceField raw 4 4), s.cePattern c (ceField raw 8 4) with
    | some p, some q => if p.blk = q.blk ∧ p.total = q.total then some (p, q) else none
    | _, _ => none

/-- One cycle of a COPY: it reads the next block, or writes up to 128 bytes of the block in flight (R324, R327, R329). -/
def State.copyCycle (s : State) (c : Nat) : State :=
  s.ceAct c 1 (fun raw s =>
    let go := fun (s : State) (d : RowDst) (bs : List Byte) =>
      let s := s.cePut c d (bs.take 128)
      let rest := bs.drop 128
      let s := s.modCe c (fun e => if rest.isEmpty then { e with flight := none, block := e.block + 1 }
        else { e with flight := some (d.advance 128, rest) })
      s.postOnce (s.now + 1) (.chainCopy c)
    match (s.ceAt c).flight with
    | some (d, bs) => go s d bs
    | none =>
      if s.ceHalts c then s
      else
        let bad := if (s.ceAt c).pats.isSome then none
          else (s.spadBadAt c (ceField raw 4 4) 64).orElse (fun _ => s.spadBadAt c (ceField raw 8 4) 64)
        match bad, s.cePats c raw with
        | some v, _ => s.ceFault c (poisonFault v)
        | none, none => s.ceTrap c (chainTrap (s.ceAt c).entry 2)
        | none, some (p, q) =>
          let s := s.modCe c (fun e => { e with pats := some (p, q) })
          let n := (s.ceAt c).block
          if p.total ≤ n then s.ceGoto c ((s.ceAt c).entry + 1)
          else
            let blk := p.blk.toNat
            let (s', r) := s.ceRead c (p.addr n) blk 8
            match r with
            | .error t => s'.ceTrap c t
            | .ok bs =>
              let (s', d) := s'.ceDst c (q.addr n) blk 8
              match d with
              | .error t => s'.ceTrap c t
              | .ok d => go s' d bs)

/-- CHAIN_COPY (R327). -/
def execChainCopy (core : Nat) (s : State) : Host.Outcome State Fault Refusal := event (·.copyCycle core) s

/-- LOOP: the counter, its active bit, and where the engine continues (R327). -/
def State.loopEntry (s : State) (c : Nat) : State :=
  s.ceAct c 2 (fun raw s =>
    if s.ceHalts c then s
    else
      let e := s.ceAt c
      let lc := ceField raw 1 1 % 4
      let tgt := ceField raw 2 2
      if e.entry ≤ tgt then s.ceTrap c (chainTrap e.entry 4)
      else
        let v := if e.lca.getLsbD lc then tget 0 e.lc lc else ceField raw 4 4 - 1
        let m : BitVec 4 := 1#4 <<< lc
        if v = 0 then (s.modCe c (fun e => { e with lca := e.lca &&& ~~~m, lc := tput 0 e.lc lc 0 })).ceGoto c (e.entry + 1)
        else (s.modCe c (fun e => { e with lca := e.lca ||| m, lc := tput 0 e.lc lc (v - 1) })).ceGoto c tgt)

/-- CHAIN_LOOP (R327). -/
def execChainLoop (core : Nat) (s : State) : Host.Outcome State Fault Refusal := event (·.loopEntry core) s

/-- The test of an IF (R327). -/
def ceTest (cond a b : Nat) : Bool :=
  match cond with
  | 0 => a == b
  | 1 => a != b
  | 2 => decide (a < b)
  | _ => decide (b ≤ a)

/-- IF (R327). -/
def State.ifEntry (s : State) (c : Nat) : State :=
  s.ceOrdered c 3 (fun raw s =>
    let i := (s.ceAt c).entry
    let cond := ceField raw 1 1 % 16
    let val := ceField raw 16 8
    let next := fun (s : State) (ok : Bool) => s.ceGoto c (if ok then i + 1 else ceField raw 2 2)
    if cond = 4 then next s (decide (val ≤ ((s.jobAt c).ctr (ceField raw 1 1 / 16)).done.toNat))
    else
      let (s, r) := s.ceRead c (BitVec.ofNat 64 (ceField raw 8 8)).toInt 8 8
      match r with
      | .error t => s.ceTrap c t
      | .ok bs => next s (ceTest cond (leNat bs) val))

/-- CHAIN_IF (R327). -/
def execChainIf (core : Nat) (s : State) : Host.Outcome State Fault Refusal := event (·.ifEntry core) s

/-- The engine waits one more cycle; the watchdogs of R191 and R149 apply (R327). -/
def State.ceWait (s : State) (c : Nat) (w : Wait) : State :=
  let j := s.jobAt c
  let v := waitMore j.anySusp j.ce.wait w
  let s := s.modCe c (fun e => { e with wait := some v })
  if v.2 = waitLimit then
    match w with
    | .counter n true => s.ceTrap c { cause := 0x0A, detail := BitVec.ofNat 64 (32 + n) }
    | .granule o _ => s.ceTrap c { cause := 0x0F, detail := BitVec.ofNat 64 o }
    | _ => s.postOnce (s.now + 1) (.chainWait c)
  else s.postOnce (s.now + 1) (.chainWait c)

/-- WAIT on a counter or on a granule (R327). -/
def State.waitEntry (s : State) (c : Nat) : State :=
  s.ceOrdered c 4 (fun raw s =>
    let i := (s.ceAt c).entry
    let b := ceField raw 1 1
    if b.testBit 0 then
      let off := ceField raw 4 4
      match checkAddr s c off 16 16 true with
      | .error t => s.ceTrap c t
      | .ok _ =>
        if tget false (s.core c).fe (off / 16) then
          let s := if b.testBit 1 then s.modCore c (fun k => { k with fe := tput false k.fe (off / 16) false }) else s
          s.ceGoto c (i + 1)
        else s.ceWait c (.granule off 16)
    else
      let n := b / 16
      let t := (s.jobAt c).ctr n
      let val := ceField raw 8 8
      if val ≤ t.done.toNat then (s.ceAcquire c t.acqs).ceGoto c (i + 1)
      else s.ceWait c (.counter n (decide (t.iss.toNat < val))))

/-- CHAIN_WAIT (R327). -/
def execChainWait (core : Nat) (s : State) : Host.Outcome State Fault Refusal := event (·.waitEntry core) s

/-- A release of the engine, with the stores on their way that it covers at dom (R178, R185, R186). -/
def State.ceReleaseAll (s : State) (c : Nat) (scope : Scope) : State :=
  let clk := (s.die (coreDie c)).clock
  let s := s.ceRelease c scope
  if scope = .dom then s.modCe c (fun e => { e with unacked := (e.unacked ++ s.awaited c clk).eraseDups }) else s

/-- A release of the engine at an entry: made once, and at dom scope held until every store is acknowledged (R178, R185). -/
def State.ceReleased (s : State) (c k : Nat) (scope : Scope) (f : State → State) : State :=
  let s := if (s.ceAt c).relDone then s else (s.ceReleaseAll c scope).modCe c (fun e => { e with relDone := true })
  if scope = .dom && !(s.ceAt c).unacked.isEmpty then s.postOnce (s.now + 1) (ceEvent k c) else f s

/-- The scopes by code (R171). -/
def scopeOfNum (n : Nat) : Scope :=
  match n with
  | 0 => .strm
  | 1 => .core
  | 2 => .die
  | 3 => .mod
  | _ => .dom

/-- SIGNAL with WORD 0: as `TLADV` it takes its number first, then makes its release, with which the number completes (R188, R203,
R327). -/
def State.signalCtr (s : State) (c n : Nat) (scope : Scope) : State :=
  let i := (s.ceAt c).entry
  let t := (s.jobAt c).ctr n
  let finish := fun (s : State) (m : Nat) => s.ceReleased c 5 scope (fun s => (s.completeNum c n m scope false).ceGoto c (i + 1))
  match (s.ceAt c).sigNum with
  | some m => finish s m
  | none =>
    if !t.canTake 1 then s.ceTrap c (illegal9 9)
    else
      let s := s.modJob c (fun j => j.modCtr n (fun t => { t with iss := t.iss + 1 }))
      finish (s.modCe c (fun e => { e with sigNum := some (t.iss.toNat + 1) })) (t.iss.toNat + 1)

/-- SIGNAL: a number of a counter, or a word in memory, after a release (R327). One whose release is made goes on under a stop. -/
def State.signalEntry (s : State) (c : Nat) : State :=
  s.ceAct c 5 (fun raw s =>
    if s.ceHalts c && !(s.ceAt c).relDone then s
    else if !(s.ceAt c).relDone && !(s.ceAt c).unacked.isEmpty then s.postOnce (s.now + 1) (.chainSignal c)
    else
      let i := (s.ceAt c).entry
      let b := ceField raw 1 1
      let scope := scopeOfNum (b / 2 % 8)
      if b.testBit 0 then
        -- the address is checked and translated before the release, so that a fault leaves no effect (R328)
        let (s, d) := s.ceDst c (BitVec.ofNat 64 (ceField raw 8 8)).toInt 8 8
        match d with
        | .error t => s.ceTrap c t
        | .ok d => s.ceReleased c 5 scope (fun s => (s.cePut c d (leBytes (ceField raw 16 8) 8)).ceGoto c (i + 1))
      else s.signalCtr c (b / 16) scope)

/-- CHAIN_SIGNAL (R327). -/
def execChainSignal (core : Nat) (s : State) : Host.Outcome State Fault Refusal := event (·.signalEntry core) s

/-- NOTIFY: after a release at dom the chain's number completes; the next entry has to be END (R327, R331). -/
def State.notifyEntry (s : State) (c : Nat) : State :=
  s.ceAct c 6 (fun _ s =>
    if s.ceHalts c && !(s.ceAt c).relDone then s
    else if !(s.ceAt c).relDone && !(s.ceAt c).unacked.isEmpty then s.postOnce (s.now + 1) (.chainNotify c)
    else
      let i := (s.ceAt c).entry
      match s.ceEntry c (i + 1) with
      | none => s.ceTrap c (chainTrap (i + 1) 5)
      | some e =>
        if e ≠ 0 then s.ceTrap c (chainTrap i 3)
        else s.ceReleased c 6 .dom (fun s =>
          match (s.ceAt c).chains with
          | h :: rest =>
            let s := if h.notified then s else s.completeNum c h.ctr.toNat h.num.toNat .dom false
            (s.modCe c (fun e => { e with chains := { h with notified := true } :: rest })).ceGoto c (i + 1)
          | [] => s))

/-- CHAIN_NOTIFY (R327). -/
def execChainNotify (core : Nat) (s : State) : Host.Outcome State Fault Refusal := event (·.notifyEntry core) s

/-- END: the chain ends, and the engine starts the next one (R325, R327). -/
def State.endEntry (s : State) (c : Nat) : State :=
  s.ceOrdered c 0 (fun _ s =>
    let i := (s.ceAt c).entry
    if i = 0 ∨ (s.ceEntry c (i - 1)).map ceKind ≠ some 6 then s.ceTrap c (chainTrap i 3)
    else (s.modCe c (fun e => { e with chains := e.chains.drop 1 })).ceGoto c 0)

/-- CHAIN_END (R325). -/
def execChainEnd (core : Nat) (s : State) : Host.Outcome State Fault Refusal := event (·.endEntry core) s

/-- The engine of a restored or resumed job goes on at its block or entry: one that it has read is not read again (R325, R329). -/
def State.ceResume (s : State) (c : Nat) : State :=
  let s := s.modCe c (fun e => { e with stopped := false })
  match (s.ceAt c).cur with
  | some raw => if s.ceLive c then s.postOnce (s.now + 1) (ceEvent (ceKind raw) c) else s
  | none => s.ceReach c

/-! ### CEGO, CESTOP, CESTAT (R330 to R333) -/

/-- CEGO (R331). -/
def execCego (o : CtrOps) (s : State) : Host.Outcome State Fault Refusal :=
  issueNext o.g (fun u => do
    needSpace u o.d
    ensure u [.scalar o.a, .scalar o.b]
    let x ← readScalar u o.a
    let y ← readScalar u o.b
    let a := x.toInt + y.toInt
    match (← areaOf u a 32 32 false) with
    | .spad off =>
      let e := (← getJob u).ce
      if 4 ≤ e.chains.length then
        match o.nb with
        | none => holdFor .busy
        | some pd =>
          modStrm u (fun v => v.setPred pd false)
          deliver u o.d 0
      else
        handOver u
        let n ← takeNumber u o.ctr
        modify (fun s => s.modCe u.core (fun e => { e with chains := e.chains ++ [{ head := off, ctr := o.ctr, num := n }] }))
        if e.chains.isEmpty then modify (fun s => s.ceGoto u.core 0)
        match o.nb with
        | none => pure ()
        | some pd => modStrm u (fun v => v.setPred pd true)
        deliver u o.d n
    | _ => raiseTrap (addrTrap 0x0E a)) s

/-- CESTOP: waits for the block in flight, or for a release that the running chain has begun, then ends every chain with an error flag: their
completion is a release at dom (R189, R332). -/
def execCestop (g : Guard) (s : State) : Host.Outcome State Fault Refusal :=
  issueNext g (fun u => do
    let e := (← getJob u).ce
    if !e.chains.isEmpty then
      if e.flight.isSome || e.relDone then
        modJob u (fun j => { j with ce := { j.ce with stopReq := true } })
        keepFor .busy
      if !e.stopRel then
        modify (fun s => (s.ceReleaseAll u.core .dom).modCe u.core (fun e => { e with stopReq := true, stopRel := true }))
      if !(← getJob u).ce.unacked.isEmpty then keepFor .busy
      for h in e.chains do
        if !h.notified then modify (fun s => s.completeNum u.core h.ctr.toNat h.num.toNat .dom true)
      modJob u (fun j => { j with ce := { j.ce with
        chains := [], entry := 0, block := 0, cur := none, pats := none, wait := none, stopReq := false, stopRel := false } })) s

/-- CESTAT (R333). -/
def execCestat (g : Guard) (d : Dest) (s : State) : Host.Outcome State Fault Refusal :=
  issueNext g (fun u => do
    needSpace u d
    let e := (← getJob u).ce
    deliver u d (BitVec.ofNat 64 ((!e.chains.isEmpty).toNat * 2 ^ 63 + e.chains.length * 2 ^ 48 + e.entry % 65536 * 2 ^ 32
      + e.block % 2 ^ 32))) s

end Sys2Proof.Machine
end

