-- ==== Sys2Proof/Machine/Fabric.lean ====
section
/-!
DEFINITION. The fabric: lines, channels and their rings, the steps of collectives, the tile table, switch slots and stagger messages (R334 to R348).
-/

namespace Sys2Proof.Machine

/-! ### Accesses at homes by an instruction -/

/-- Bytes of physical pieces read at their homes for a core, past its L1; `va` is where the range starts. -/
def State.readHomes (s : State) (c va : Nat) (ps : List (Nat × Nat)) : State × Except AccFault (List Byte) :=
  let ctx := (s.jobAt c).ctx
  let asid := ((s.ctx? ctx).map (·.asid)).getD 0
  let r := ps.foldl (fun (r : State × Nat × Except AccFault (List Byte)) p =>
    (splitLines p.1 (List.replicate p.2 ())).foldl (fun (r : State × Nat × Except AccFault (List Byte)) q =>
      match r with
      | (s, a, .error e) => (s, a, .error e)
      | (s, a, .ok l) =>
        if paMod q.1 = s.ownMod then
          let (s, bs, _, bad) := s.homeRead (coreDie c) c (paKey q.1) (paLocal q.1) q.2.length ctx asid
          if bad then (s, a, .error (poisonFault a)) else (s, a + q.2.length, .ok (l ++ bs))
        else
          ({ s with free := s.free + q.2.length }, a + q.2.length, .ok (l ++ (List.range q.2.length).map (fun i => Config.freeByte (s.free + i))))) r)
    (s, va, .ok [])
  (r.1, r.2.2)

/-- Bytes that a command of the fabric reads for the issuing stream: what the stream did before is ordered before it (R178). -/
def homeBytes (u : Cur) (a : Int) (n al : Nat) : M (List Byte) := do
  let ar ← areaOf u a n al false
  orderAt u ar n
  watch u a.toNat n true false
  match ar with
  | .trans va =>
    handOver u
    let ps ← liftF (fun s => s.translateRange u.core (s.jobAt u.core).ctx va n .load)
    let s ← get
    let (s, r) := s.readHomes u.core va ps
    set s
    match r with
    | .ok bs => pure bs
    | .error e => raisePoison u e.va
  | ar => localRead u ar n

/-- The fabric trap with a detail (R339). -/
def fabricTrap (detail : Nat) : Trap := { cause := 0x15, detail := BitVec.ofNat 64 detail }

/-! ### Lines (R334) -/

/-- The flag word of a line. -/
def flagWord (mtch ch seq : Nat) : Nat := mtch % 2 ^ 16 * 2 ^ 48 + ch % 64 * 2 ^ 32 + seq % 2 ^ 32

/-- Flagged lines of a payload: 120 bytes each, the last padded with zeros, then the flag word. -/
def flaggedLines (flag : Nat) (bs : List Byte) : List (List Byte) :=
  (List.range ((bs.length + 119) / 120)).map (fun j =>
    let p := (bs.drop (120 * j)).take 120
    p ++ List.replicate (120 - p.length) 0 ++ leBytes flag 8)

/-- Raw lines of a payload. -/
def rawLines (bs : List Byte) : List (List Byte) :=
  (List.range (bs.length / 128)).map (fun j => (bs.drop (128 * j)).take 128)

/-- A fabric port of the base dies of a partition; which one carries a line is open (R18, R19, R407). -/
def State.somePort (s : State) (part : Nat) : Nat × State :=
  let (p, s) := s.drawNat
  (part + p % max 1 (s.partDies part), s)

/-- A line goes to a port of the partition of its context, for another module or the switch (R334). -/
def State.toPort (s : State) (c ctx sender pa : Nat) (line : List Byte) : State :=
  let (p, s) := s.somePort (((s.ctx? ctx).map (·.part)).getD 0)
  let (id, s) := s.newId
  let d := coreDie c
  let o : Out := { id := id, ctx := ctx, core := c, die := d, epoch := tget 0 (s.die d).clock d, pa := pa, op := .write line }
  { s with ports := s.ports ++ [{ port := p, ctx := ctx, sender := sender, out := o }] }

/-- Send one line to a physical address for a core. -/
def State.sendFabric (s : State) (c ctx sender pa : Nat) (line : List Byte) : State :=
  if paMod pa = s.ownMod then s.sendLine c 6 pa (fullMask line) ctx else s.toPort c ctx sender pa line

/-- Do lines of a sender still stand at a port? -/
def State.atPorts (s : State) (ctx sender : Nat) : Bool := s.ports.any (fun l => l.ctx == ctx && l.sender == sender)

/-- A line leaves its port: from now on its acknowledgement is awaited (R334, R339). -/
def State.lineLeaves (s : State) (l : PortLine) : State :=
  let s : State := { s with remote := s.remote ++ [l.out] }
  let ch := if l.sender < 64 then l.sender
    else (((s.ctx? l.ctx).bind (fun x => x.fires.find? (fun f => f.tile + 64 == l.sender))).map (·.ch)).getD 0
  let s := s.modCtx l.ctx (fun x => { x with
    chans := x.chans.map (fun h => (h.1, { h.2 with coll := h.2.coll.map (fun c => { c with
      lines := mapIf (fun y => y.1 == l.out.id) (fun y => (y.1, s.now)) c.lines }) }))
    fires := mapIf (fun f => f.lines.contains l.out.id) (fun f => { f with sent := s.now }) x.fires })
  (s.postOnce (s.now + 2 ^ 26) (.fabricAckTimeout l.ctx ch)).countMod 0x0200 (fun q => if q = l.port then 1 else 0)

/-- One turn of a port: it sends the first line in turn, and the other lines of that line's sender go behind those of the others, so that
the senders are served round-robin, one line at a time; whether a line leaves in a cycle is open (R334). -/
def State.servePort (s : State) (p : Nat) : State :=
  match takeFirstBy (fun (l : PortLine) => l.port == p) s.ports with
  | none => s
  | some (l, rest) =>
    let (late, s) := s.drawBit
    if late then s
    else
      let mine := fun (y : PortLine) => y.port == p && y.ctx == l.ctx && y.sender == l.sender
      ({ s with ports := rest.filter (fun y => !mine y) ++ rest.filter mine } : State).lineLeaves l

/-- One cycle of the fabric ports. -/
def State.servePorts (s : State) : State := ((s.ports.map (·.port)).eraseDups).foldl State.servePort s

/-- A line that another module sent arrives at its home: it is refused where the conditions of R388 fail for the partition that
owns it (R334, R389). -/
def State.lineArrive (s : State) (pa : Nat) (line : BitVec 1024) : State :=
  let l := paLocal pa
  if pa % 128 ≠ 0 ∨ s.modnum.isNone ∨ s.portsShut (s.partOfLocal l).1 ∨ !s.physOk (s.partOfLocal l).1 pa then s
  else
    let (p, s) := s.somePort (s.partOfLocal l).1
    (s.homeWriteLine (paKey pa) l (fullMask (leBytes line.toNat 128)) 0 0).countMod 0x0201 (fun q => if q = p then 1 else 0)

/-- FABRIC_LINE_ARRIVAL (R334). -/
def execFabricLineArrival (pa : Word) (line : BitVec 1024) (s : State) : Host.Outcome State Fault Refusal :=
  event (·.lineArrive pa.toNat line) s

/-! ### The tile table (R340, R341, R345, R346) -/

/-- A context's tile table is set; a count of 0 removes it. The tiles of the new table hold no stamp. -/
def State.setTiles (s : State) (ctx base count : Nat) : State :=
  s.modCtx ctx (fun x => { x with ttab := if count = 0 then none else some (base, count), stamps := [] })

/-- CTAB (R345, R346). -/
def execCtab (g : Guard) (a b : Src) (s : State) : Host.Outcome State Fault Refusal :=
  issueNext g (fun u => do
    ensure u [.scalar a, .scalar b]
    let base ← readScalar u a
    let n ← readScalar u b
    trapIf (decide (65536 < n.toNat)) (illegal9 17)
    trapIf (base.toNat % 64 != 0) (addrTrap 0x07 base.toInt)
    let ctx ← getCtx u
    holdIf ((((← get).ctx? ctx).map (fun x => !x.fires.isEmpty)).getD false) .busy
    modify (fun s => s.setTiles ctx base.toNat n.toNat)) s

/-- The number in n bytes of a block from byte i. -/
def byteField (bs : List Byte) (i n : Nat) : Nat := leNat ((bs.drop i).take n)

/-- A tile-table entry (R340). -/
structure TileEnt where
  laddr : Nat
  len : Nat
  np : Nat
  raw : Bool
  ch : Nat
  mtch : Nat
  raddr : List Nat
  deriving DecidableEq, Repr

/-- The fields of an entry, where it is valid (R340, R339 detail 6). -/
def tileEnt (bs : List Byte) : Option TileEnt :=
  let b12 := byteField bs 12 1
  let np := b12 % 4 + 1
  let len := byteField bs 8 4
  let rs := (List.range 4).map (fun i => byteField bs (16 + 8 * i) 8)
  if len = 0 ∨ 2 ^ 20 < len ∨ 8 ≤ b12 ∨ 64 ≤ byteField bs 13 1 ∨ byteField bs 48 16 ≠ 0 ∨ rs.any (fun r => r % 128 != 0)
      ∨ (rs.drop np).any (· != 0) ∨ (b12.testBit 2 ∧ len % 128 ≠ 0) then none
  else
    some { laddr := byteField bs 0 8, len := len, np := np, raw := b12.testBit 2, ch := byteField bs 13 1, mtch := byteField bs 14 2,
           raddr := rs.take np }

/-- Send lines of a tile to a destination of the issuing core: local bytes are written at once, and no full-empty bit is set (R148). -/
def State.fireTo (s : State) (c tile : Nat) (d : RowDst) (lines : List (List Byte)) : State :=
  match d with
  | .spad o => s.spadWrite c o (fullMask lines.flatten) false
  | .cluster o => s.clusterWrite c o (fullMask lines.flatten)
  | .phys ps =>
    (ps.foldl (fun (r : State × List Byte) p =>
      ((splitLines p.1 (r.2.take p.2)).foldl (fun s q => s.sendFabric c (s.jobAt c).ctx (64 + tile) q.1 q.2) r.1, r.2.drop p.2))
      (s, lines.flatten)).1

/-- CTILE: an entry is read and checked, its data read, its destinations translated; then it takes a number, stamps the tile and
sends the lines (R341, R346). -/
def execCtile (g : Guard) (d : Dest) (ctr : BitVec 4) (a b : Src) (s : State) : Host.Outcome State Fault Refusal :=
  issueNext g (fun u => do
    needSpace u d
    ensure u [.scalar a, .scalar b]
    let x ← readScalar u a
    let y ← readScalar u b
    let ctx ← getCtx u
    match (← get).ctx? ctx with
    | none => pure ()
    | some cx =>
      let i := x.toInt + y.toInt
      let (base, count) := cx.ttab.getD (0, 0)
      trapIf (decide (i < 0 ∨ (count : Int) ≤ i)) (illegal9 17)
      let e ← homeBytes u ((base : Int) + 64 * i) 64 64
      match tileEnt e with
      | none => raiseTrap (fabricTrap 6)
      | some t =>
        holdIf (cx.fires.any (fun f => f.tile == i.toNat)) .busy
        trapIf (!((← getJob u).ctr ctr.toNat).canTake 1) (illegal9 9)
        let bs ← homeBytes u (BitVec.ofNat 64 t.laddr).toInt t.len 1
        let stamp := (cx.chan t.ch).ctr.iss + 1
        let lines := if t.raw then rawLines bs else flaggedLines (flagWord t.mtch t.ch stamp.toNat) bs
        let n := 128 * lines.length
        let dsts ← t.raddr.mapM (fun (r : Nat) => do
          match (← areaOf u (BitVec.ofNat 64 r).toInt n 128 false) with
          | .spad o => pure (RowDst.spad o)
          | .cluster o => pure (.cluster o)
          | .trans va => do
            let ps ← liftF (fun s => s.translateRange u.core (s.jobAt u.core).ctx va n .store)
            pure (.phys ps))
        let clk := ((← get).die (coreDie u.core)).clock
        handOver u
        let num ← takeNumber u ctr
        modify (fun s =>
          -- the completion, a release at dom, also covers what was stored before (R185, R189)
          let before := s.awaited u.core clk
          let s := s.modCtx ctx (fun x => { x with stamps := tput 0 x.stamps i.toNat stamp })
          let s' := dsts.foldl (fun s w => s.fireTo u.core i.toNat w lines) s
          let j := s.jobAt u.core
          let f : Fire := { tile := i.toNat, rid := j.rid, chunk := j.chunk, ctr := ctr, num := num, ch := t.ch, sent := s.now,
                            lines := before ++ sentIds s s' }
          let s' := s'.modCtx ctx (fun x => { x with fires := x.fires ++ [f] })
          if f.lines.isEmpty then s'.post (s.now + 1) (.tileFireComplete ctx i.toNat)
          else s'.post (s.now + 2 ^ 26) (.fabricAckTimeout ctx t.ch))
        deliver u d num) s

/-- A tile fire whose lines are all acknowledged completes its number as a release at dom, in its job, which may be saved
(R341, R189). -/
def State.fireDone (s : State) (ctx tile : Nat) : State :=
  match s.ctx? ctx with
  | none => s
  | some x =>
    match takeFirstBy (fun (f : Fire) => f.tile == tile && f.lines.isEmpty) x.fires with
    | none => s
    | some (f, rest) =>
      let put := fun (j : Job) => j.modCtr f.ctr.toNat (fun t => t.complete f.num.toNat 1 .dom false)
      let mine := fun (j : Job) => j.ctx == ctx && j.rid == f.rid && j.chunk == f.chunk
      let s := s.modCtx ctx (fun x => { x with
        fires := rest
        saved := x.saved.map (fun v => if mine v.job then { v with job := put v.job } else v) })
      { s with cores := s.cores.map (fun e => (e.1, { e.2 with job := e.2.job.map (fun j => if mine j then put j else j) })) }

/-- TILE_FIRE_COMPLETE (R341). -/
def execTileFireComplete (ctx tile : Nat) (s : State) : Host.Outcome State Fault Refusal := event (·.fireDone ctx tile) s

/-! ### Channels (R335, R336, R345 to R347) -/

/-- A channel operand: 0 to 63 (R346). -/
def readChan (u : Cur) (a : Src) : M Nat := do
  let v ← readScalar u a
  trapIf (decide (63 < v.toNat)) (illegal9 17)
  pure v.toNat

/-- The channel that a 32-byte descriptor installs, and its peer table's address and size, where it is valid (R335). -/
def chanDesc (bs : List Byte) : Option (Chan × Nat × Nat) :=
  let rbase := byteField bs 0 8
  let b8 := byteField bs 8 1
  let slog := byteField bs 9 1
  let ptab := byteField bs 16 8
  let np := byteField bs 24 1 + 1
  let nslot := b8 + 1
  if 64 ≤ b8 ∨ nslot < 2 ∨ slog < 12 ∨ 20 < slog ∨ byteField bs 10 6 ≠ 0 ∨ byteField bs 25 7 ≠ 0 ∨ 255 < np ∨ ptab % 16 ≠ 0
      ∨ 2 ^ 56 ≤ rbase ∨ rbase % (nslot * 2 ^ slog) ≠ 0 then none
  else some ({ set := true, rbase := rbase, nslot := nslot, slog := slog }, ptab, np)

/-- The peers of a table: ring base and channel, where every entry is valid (R335). -/
def peerTable (bs : List Byte) (n : Nat) : Option (List (Nat × Nat)) :=
  (List.range n).mapM (fun i =>
    let e := (bs.drop (16 * i)).take 16
    let rring := byteField e 0 8
    let rch := byteField e 8 1
    if 2 ^ 56 ≤ rring ∨ rring % 128 ≠ 0 ∨ 64 ≤ rch ∨ byteField e 9 7 ≠ 0 then none else some (rring, rch))

/-- Every slot of a ring is marked empty: the flag words of its lines are cleared. -/
def State.clearRing (s : State) (ctx rbase n : Nat) : State × Except AccFault Unit :=
  (List.range n).foldl (fun r j =>
    match r.2 with
    | .error e => (r.1, .error e)
    | .ok _ => r.1.unitWrite ctx (rbase + 128 * j + 120) (leBytes 0 8)) (s, .ok ())

/-- CRING.set (R335, R346). -/
def execCringSet (g : Guard) (a b : Src) (s : State) : Host.Outcome State Fault Refusal :=
  issueNext g (fun u => do
    ensure u [.scalar a, .scalar b]
    let ch ← readChan u a
    let addr ← readScalar u b
    let ctx ← getCtx u
    holdIf ((((← get).ctx? ctx).map (fun x => (x.chan ch).coll.isSome)).getD false) .busy
    let bs ← homeBytes u addr.toInt 32 1
    match chanDesc bs with
    | none => raiseTrap (fabricTrap 5)
    | some (k, ptab, np) =>
      let ps ← homeBytes u (BitVec.ofNat 64 ptab).toInt (16 * np) 16
      match peerTable ps np with
      | none => raiseTrap (fabricTrap 5)
      | some peers =>
        liftF (fun s => s.clearRing ctx k.rbase (k.nslot * 2 ^ k.slog / 128))
        modify (fun s => s.modChan ctx ch (fun y => { y with
          set := true, rbase := k.rbase, nslot := k.nslot, slog := k.slog, peers := peers, flg := 0 }))) s

/-- CRING.done (R346). -/
def execCringDone (g : Guard) (d : Dest) (a : Src) (s : State) : Host.Outcome State Fault Refusal :=
  issueNext g (fun u => do
    needSpace u d
    ensure u [.scalar a]
    let ch ← readChan u a
    let ctx ← getCtx u
    deliver u d ((((← get).ctx? ctx).map (fun x => (x.chan ch).ctr.done)).getD 0)) s

/-- The status word of a channel (R347). -/
def Chan.status (k : Chan) : Word :=
  BitVec.ofNat 64 (k.slot.isSome.toNat * 2 ^ 63 + k.coll.isSome.toNat * 2 ^ 62 + k.armed.isSome.toNat * 2 ^ 61
    + k.flg.toNat * 2 ^ 48 + ((k.coll.map (·.step)).getD 0) % 4096)

/-- CRING.stat (R347). -/
def execCringStat (g : Guard) (d : Dest) (a : Src) (s : State) : Host.Outcome State Fault Refusal :=
  issueNext g (fun u => do
    needSpace u d
    ensure u [.scalar a]
    let ch ← readChan u a
    let ctx ← getCtx u
    deliver u d ((((← get).ctx? ctx).map (fun x => (x.chan ch).status)).getD 0)) s

/-! ### Switch slots (R342, R346) -/

/-- What a grant delivers: bit 63 and the slot (R346). -/
def slotWord (n : BitVec 16) : Word := 0x8000000000000000#64 ||| n.setWidth 64

/-- RSLOT.req (R342, R346). -/
def execRslotReq (g : Guard) (d : Dest) (a b : Src) (s : State) : Host.Outcome State Fault Refusal :=
  issueNext g (fun u => do
    needSpace u d
    ensure u [.scalar a, .scalar b]
    let ch ← readChan u a
    let n ← readScalar u b
    trapIf (decide (n.toNat < 2 ∨ 4096 < n.toNat)) (illegal9 17)
    let ctx ← getCtx u
    match (← get).ctx? ctx with
    | none => pure ()
    | some x =>
      match (x.chan ch).slot, (← getStrm u).answer with
      | some v, _ => deliver u d (slotWord v)
      | none, some w => deliver u d w
      | none, none => if (x.chan ch).asking.isSome then holdFor .busy else askFor (.slot ch) .busy) s

/-- Release the slot of a channel: while a collective runs its main program on it, once that collective's NEXT completes (R342, R343). -/
def State.releaseSlot (s : State) (ctx ch : Nat) : State :=
  s.modChan ctx ch (fun k =>
    if k.slot.isNone then k
    else if (k.coll.map (fun c => c.usesSlot)).getD false then { k with slotRel := true }
    else { k with slot := none })

/-- RSLOT.rel (R342). -/
def execRslotRel (g : Guard) (a : Src) (s : State) : Host.Outcome State Fault Refusal :=
  issueNext g (fun u => do
    ensure u [.scalar a]
    let ch ← readChan u a
    let ctx ← getCtx u
    modify (fun s => s.releaseSlot ctx ch)) s

/-- A non-operator record has had its effect and completes (R355, R359). -/
def State.recDone (s : State) (rid : Nat) (info : Word) : State :=
  (s.modRec rid (fun r => { r with state := .done 0, info := info })).postOnce (s.now + 1) (.recordCompletion rid)

/-- The fabric switch answers a request for a slot: when it does is open (R342, log entry 17). -/
def State.slotAnswer (s : State) (ctx ch : Nat) (slot : Option (BitVec 16)) : State :=
  match (s.ctx? ctx).bind (fun x => (x.chan ch).asking) with
  | none => s
  | some (core, rid) =>
    let (late, s) := s.drawBit
    if late then s.post (s.now + 1) (.rslotAnswer ctx ch slot)
    else
      let s := s.modChan ctx ch (fun k => { k with asking := none, slot := slot })
      let s := match core, slot with
        | some c, none => if (s.jobAt c).ctx = ctx then s.modStrm c .sc (fun v => { v with answer := some 0 }) else s
        | _, _ => s
      match rid with
      | some r => s.recDone r ((slot.map slotWord).getD 0)
      | none => s

/-- RSLOT_ANSWER (R342). -/
def execRslotAnswer (ctx ch : Nat) (slot : Option (BitVec 16)) (s : State) : Host.Outcome State Fault Refusal :=
  event (·.slotAnswer ctx ch slot) s

/-! ### Step programs (R337 to R339, R343) -/

/-- The payload of a chunk of a channel (R335). -/
def Chan.payload (k : Chan) : Nat := 120 * 2 ^ k.slog / 128

/-- The collective that runs on a channel. -/
def State.collAt (s : State) (ctx ch : Nat) : Option (Chan × Coll) :=
  match s.ctx? ctx with
  | none => none
  | some x => (x.chan ch).coll.map (fun c => (x.chan ch, c))

/-- Change the collective that runs on a channel. -/
def State.modColl (s : State) (ctx ch : Nat) (f : Coll → Coll) : State :=
  s.modChan ctx ch (fun k => { k with coll := k.coll.map f })

/-- A fault of a channel's step: a missing translation suspends the step, anything else ends the program and stops the context
(R339, R461). -/
def State.chanFault (s : State) (ctx ch : Nat) (e : AccFault) : State :=
  match s.collAt ctx ch with
  | none => s
  | some (_, c) =>
    let (s, ix) := s.frontTrap ctx (((s.rec? c.rid).map (·.queue)).getD 0) e
    if e.cause = 0x05 then s.modColl ctx ch (fun c => { c with susp := some (suspOf e ix) })
    else s.modChan ctx ch (fun k => { k with coll := none })

/-- The fabric trap of a channel's step (R339). -/
def State.chanTrap (s : State) (ctx ch detail : Nat) : State := s.chanFault ctx ch { cause := 0x15, detail := detail, va := 0 }

/-- Fields of a step word (R337): OP, PEER, SLOT, MATCH and CHUNK. -/
def stepOp (w : Word) : Nat := w.toNat / 2 ^ 60
/-- PEER. -/
def stepPeer (w : Word) : Nat := w.toNat / 2 ^ 52 % 256
/-- SLOT. -/
def stepSlot (w : Word) : Nat := w.toNat / 2 ^ 46 % 64
/-- MATCH. -/
def stepMatch (w : Word) : Nat := w.toNat / 2 ^ 26 % 2 ^ 16
/-- CHUNK. -/
def stepChunk (w : Word) : Nat := w.toNat % 2 ^ 26

/-- Is a step word refused with detail 2 (R337, R339)? -/
def stepBad (k : Chan) (c : Coll) (w : Word) : Bool :=
  let op := stepOp w
  let data := decide (op ≤ 2)
  decide (4 < op) || w.toNat / 2 ^ 42 % 16 != 0
    || (op != 0 && stepPeer w != 0)
    || (!data && (stepSlot w != 0 || stepMatch w != 0))
    || (op == 3 && decide (2 ^ 16 ≤ stepChunk w)) || (op == 4 && stepChunk w != 0)
    || (op == 0 && stepPeer w != 255 && decide (k.peers.length ≤ stepPeer w))
    || (data && (decide (k.nslot ≤ stepSlot w) || decide (c.blen ≤ stepChunk w * k.payload)))

/-- The event of a step by its OP. -/
def stepEvent (op ctx ch : Nat) : Instr :=
  match op with
  | 0 => .stepSend ctx ch
  | 1 => .stepRecv ctx ch
  | 2 => .stepReduce ctx ch
  | 3 => .stepWaitf ctx ch
  | _ => .stepNext ctx ch

/-- A collective that would need a number beyond the last: trap 0x01, reason 9, subcode 9; its program ends and the context stops
(R188, R336). -/
def State.noNumber (s : State) (ctx ch : Nat) (c : Coll) : State :=
  let q := ((s.queue? (((s.rec? c.rid).map (·.queue)).getD 0)).map (·.q)).getD 0
  let (s, w) := s.putTrap ctx { cause := 0x01, source := 5, queue := q, reason := 9, subcode := 9 }
  match w with
  | .error va => s.areaLost ctx va
  | .ok _ => (s.modChan ctx ch (fun k => { k with coll := none })).haltCtx ctx false

/-- A channel reaches its next step word: the first one fixes the program and takes the collective's number (R336, R343). -/
def State.kickStep (s : State) (ctx ch : Nat) : State :=
  match s.collAt ctx ch with
  | none => s
  | some (k, c) =>
    if (s.rec? c.rid).isNone then s.modChan ctx ch (fun k => { k with coll := none })
    else if c.susp.isSome then s
    else if !k.set then s.chanTrap ctx ch 5
    else
      let first := c.num.isNone
      let main := c.needSlot && k.slot.isSome
      let prog := if !first || main then c.prog else c.fallback
      let len := if !first || main then c.len else c.flen
      if first && !k.ctr.canTake 1 then s.noNumber ctx ch c
      else if len ≤ c.step then s.chanTrap ctx ch 2
      else
        let (s, r) := s.frontRead ctx (prog + 8 * c.step) 8
        match r with
        | .error e => s.chanFault ctx ch e
        | .ok bs =>
          let w : Word := BitVec.ofNat 64 (leNat bs)
          let num := c.num.getD (k.ctr.iss + 1)
          let uses := if first then main else c.usesSlot
          let s := s.modChan ctx ch (fun k => { k with
            ctr := { k.ctr with iss := if first then k.ctr.iss + 1 else k.ctr.iss }
            coll := some { c with prog := prog, len := len, num := some num, word := some w, waited := 0, usesSlot := uses } })
          if stepBad k c w then s.chanTrap ctx ch 2
          else if stepOp w = 0 ∧ stepPeer w = 255 ∧ k.slot.isNone then s.chanTrap ctx ch 4
          else s.postOnce (s.now + 1) (stepEvent (stepOp w) ctx ch)

/-- The step a channel is at, if it is of this OP and the collective runs. -/
def State.stepAct (s : State) (ctx ch op : Nat) (f : Chan → Coll → Word → State → State) : State :=
  match s.collAt ctx ch with
  | none => s
  | some (k, c) =>
    if (s.rec? c.rid).isNone then s.modChan ctx ch (fun k => { k with coll := none })
    else if c.susp.isSome then s
    else
      match c.word with
      | some w => if stepOp w = op then f k c w s else s
      | none => s

/-- A step ends: the next one begins. -/
def State.stepDone (s : State) (ctx ch : Nat) : State :=
  (s.modColl ctx ch (fun c => { c with step := c.step + 1, word := none, waited := 0, release := none, sending := false })).kickStep ctx ch

/-- Where a chunk lies: address and bytes (R337). -/
def chunkAt (k : Chan) (c : Coll) (w : Word) : Nat × Nat :=
  let i := stepChunk w
  (c.buf + i * k.payload, min k.payload (c.blen - i * k.payload))

/-- The core number under which the front end of a context's partition sends. -/
def State.frontCore (s : State) (ctx : Nat) : Nat := 16 * ((s.ctx? ctx).map (·.part)).getD 0

/-- Translate the lines from an address on for a channel. -/
def State.lineAddrs (s : State) (ctx va n : Nat) : State × Except AccFault (List Nat) :=
  (List.range n).foldl (fun r j =>
    match r.2 with
    | .error e => (r.1, .error e)
    | .ok l =>
      let (s, t) := r.1.frontReach ctx (va + 128 * j) .store
      match t with
      | .error e => (s, .error e)
      | .ok pa => (s, .ok (l ++ [pa]))) (s, .ok [])

/-- A SEND whose lines have been handed over ends once they have left their ports; until then it is looked at again (R338). -/
def State.sendEnds (s : State) (ctx ch : Nat) : State :=
  if s.atPorts ctx ch then s.postOnce (s.now + 1) (.stepSend ctx ch) else s.stepDone ctx ch

/-- SEND: the chunk's lines go to the peer's ring, or to the switch under the channel's slot (R338). -/
def State.sendStep (s : State) (ctx ch : Nat) : State :=
  s.stepAct ctx ch 0 (fun k c w s =>
    if c.sending then s.sendEnds ctx ch
    else
      let (a, n) := chunkAt k c w
      let (s', r) := s.frontRead ctx a n
      match r with
      | .error e => s'.chanFault ctx ch e
      | .ok bs =>
        let seq := (c.num.getD 0).toNat
        let sent := fun (s s' : State) =>
          ((s'.modColl ctx ch (fun c => { c with sending := true, lines := c.lines ++ (sentIds s s').map (fun i => (i, s.now)) })).postOnce
            (s.now + 2 ^ 26) (.fabricAckTimeout ctx ch)).sendEnds ctx ch
        let c0 := s'.frontCore ctx
        if stepPeer w = 255 then
          match k.slot with
          | none => s.chanTrap ctx ch 4
          | some v =>
            let ls := flaggedLines (flagWord (stepMatch w) ch seq) bs
            sent s' (ls.foldl (fun (s : State) l => s.toPort c0 ctx ch (2 ^ 64 + v.toNat) l) s')
        else
          let (rring, rch) := k.peers.getD (stepPeer w) (0, 0)
          let ls := flaggedLines (flagWord (stepMatch w) rch seq) bs
          let (s', t) := s'.lineAddrs ctx (rring + stepSlot w * 2 ^ k.slog) ls.length
          match t with
          | .error e => s'.chanFault ctx ch e
          | .ok pas => sent s' ((pas.zip ls).foldl (fun s p => s.sendFabric c0 ctx ch p.1 p.2) s'))

/-- STEP_SEND (R338). -/
def execStepSend (ctx ch : Nat) (s : State) : Host.Outcome State Fault Refusal := event (·.sendStep ctx ch) s

/-- A wait of a step goes on for one more cycle (R338, R339 detail 3). -/
def State.stepWait (s : State) (ctx ch op : Nat) : State :=
  match s.collAt ctx ch with
  | none => s
  | some (_, c) =>
    let s := s.modColl ctx ch (fun c => { c with waited := c.waited + 1 })
    if c.waited + 1 = 2 ^ 26 ∧ op ≠ 4 then s.postOnce (s.now + 1) (.stepWaitTimeout ctx ch)
    else s.postOnce (s.now + 1) (stepEvent op ctx ch)

/-- A satisfied wait ends, at once or where a stagger message holds it back after its delay; the channel is then disarmed
(R344). -/
def State.stepMet (s : State) (ctx ch : Nat) (body : State → State) : State :=
  match s.collAt ctx ch with
  | none => s
  | some (k, c) =>
    match k.armed with
    | none => body s
    | some d =>
      match c.release with
      | none =>
        if d = 0 then body (s.modChan ctx ch (fun k => { k with armed := none }))
        else (s.modColl ctx ch (fun c => { c with release := some (s.now + d) })).post (s.now + d) (.staggerRelease ctx ch)
      | some t => if t ≤ s.now then body (s.modChan ctx ch (fun k => { k with armed := none })) else s

/-- The payload of the lines of a slot, where all of them hold the flag (R338): `none` while one does not. -/
def State.slotData (s : State) (ctx va n flag : Nat) : State × Except AccFault (Option (List Byte)) :=
  let (s, r) := s.frontRead ctx va (128 * ((n + 119) / 120))
  match r with
  | .error e => (s, .error e)
  | .ok bs =>
    let ls := rawLines bs
    (s, .ok (if ls.all (fun l => byteField l 120 8 == flag) then some ((ls.flatMap (fun l => l.take 120)).take n) else none))

/-- RECV and REDUCE: wait for the slot's lines, then write what `f` makes of the payload into the chunk, whose old bytes only REDUCE
reads (R338). -/
def State.takeStep (s : State) (ctx ch op : Nat) (f : Coll → List Byte → List Byte → State → State × List Byte × Flg) : State :=
  s.stepAct ctx ch op (fun k c w s =>
    let (a, n) := chunkAt k c w
    let (s', r) := s.slotData ctx (k.rbase + stepSlot w * 2 ^ k.slog) n (flagWord (stepMatch w) ch (c.num.getD 0).toNat)
    match r with
    | .error e => s'.chanFault ctx ch e
    | .ok none => s.stepWait ctx ch op
    | .ok (some pay) =>
      s.stepMet ctx ch (fun s =>
        let (s, r) := if op = 1 then (s, .ok []) else s.frontRead ctx a n
        match r with
        | .error e => s.chanFault ctx ch e
        | .ok old =>
          let (s, bs, fl) := f c old pay s
          let (s, r) := s.unitWrite ctx a bs
          match r with
          | .error e => s.chanFault ctx ch e
          | .ok _ => (s.modChan ctx ch (fun k => { k with flg := k.flg ||| fl })).stepDone ctx ch))

/-- The body of RECV. -/
def State.recvStep (s : State) (ctx ch : Nat) : State := s.takeStep ctx ch 1 (fun _ _ pay s => (s, pay, 0))

/-- STEP_RECV (R338). -/
def execStepRecv (ctx ch : Nat) (s : State) : Host.Outcome State Fault Refusal := event (·.recvStep ctx ch) s

/-- One element of a REDUCE: the exact sum rounded finally, or the greater or the lesser (R338, R69 to R73, R83). -/
def reduceElem (f : MFmt) (comb : Nat) (r : Rnd) (draw a b : Nat) : Nat × Flg :=
  if comb = 0 then
    if f.isInt then finalRound f (.int (f.ival a + f.ival b) false) r draw
    else
      let x := (f.val a).add (f.val b)
      let v := finalRound f (.flt x.1 false) r draw
      (v.1, v.2 ||| flgIf x.2 flgNV)
  else if f.isInt then
    let first := if comb = 1 then decide (f.ival b ≤ f.ival a) else decide (f.ival a ≤ f.ival b)
    (if first then a else b, 0)
  else storeLane f false false (fltMinMax (comb == 1) false (f.load false a) (f.load false b)) r draw

/-- The reduced bytes of a chunk: whole elements, with a free draw each where the mode is stochastic; bytes beyond the last whole
element are free. -/
def reduceChunk (c : Coll) (old pay : List Byte) (s : State) : State × List Byte × Flg :=
  let f := (stdFmt c.fmt).getD (.img false)
  let w := f.width / 8
  let n := if w = 0 then 0 else old.length / w
  let es := (List.range n).map (fun i =>
    reduceElem f c.comb c.rnd (Config.freeNat (s.free + i) % 65536) (byteField old (w * i) w) (byteField pay (w * i) w))
  let rest := old.length - w * n
  ({ s with free := s.free + n + rest },
    es.flatMap (fun e => leBytes e.1 w) ++ (List.range rest).map (fun i => Config.freeByte (s.free + n + i)),
    es.foldl (fun g e => g ||| e.2) 0)

/-- STEP_REDUCE (R338). -/
def execStepReduce (ctx ch : Nat) (s : State) : Host.Outcome State Fault Refusal := event (·.takeStep ctx ch 2 reduceChunk) s

/-- An acquire at dom by the front end of a partition: what every die has released is seen by its later reads (R178). -/
def State.frontAcquire (s : State) (ctx : Nat) : State :=
  let clk := s.dies.foldl (fun t d => clkJoin t d.2.clock) []
  s.modDie ((s.ctx? ctx).map (·.part) |>.getD 0) (fun d => { d with clock := clkJoin d.clock clk })

/-- WAITF: the tile holds the stamp SEQ and its fire has completed (R338, R341). -/
def State.waitfStep (s : State) (ctx ch : Nat) : State :=
  s.stepAct ctx ch 3 (fun _ c w s =>
    match s.ctx? ctx with
    | none => s
    | some x =>
      let t := stepChunk w
      let ok := decide (tget 0 x.stamps t ≠ 0) && (tget 0 x.stamps t).toNat % 2 ^ 32 == (c.num.getD 0).toNat % 2 ^ 32
        && !x.fires.any (fun f => f.tile == t)
      if ok then s.stepMet ctx ch (fun s => (s.frontAcquire ctx).stepDone ctx ch) else s.stepWait ctx ch 3)

/-- STEP_WAITF (R338). -/
def execStepWaitf (ctx ch : Nat) (s : State) : Host.Outcome State Fault Refusal := event (·.waitfStep ctx ch) s

/-- NEXT: every line is acknowledged; the number completes as a release at dom and the record completes (R336, R338). -/
def State.nextStep (s : State) (ctx ch : Nat) : State :=
  s.stepAct ctx ch 4 (fun _ c _ s =>
    if c.lines.isEmpty then
      s.stepMet ctx ch (fun s =>
        let s := s.closeEpoch ((s.ctx? ctx).map (·.part) |>.getD 0)
        let s := s.modChan ctx ch (fun k => { k with
          ctr := k.ctr.complete (c.num.getD 0).toNat 1 .dom false
          coll := none
          slot := if k.slotRel then none else k.slot
          slotRel := false })
        s.recDone c.rid 0)
    else s.stepWait ctx ch 4)

/-- STEP_NEXT (R338). -/
def execStepNext (ctx ch : Nat) (s : State) : Host.Outcome State Fault Refusal := event (·.nextStep ctx ch) s

/-! ### Watchdogs, stagger messages and link failures (R339, R342, R344) -/

/-- A line of the channel, or of a tile fire under it, stays unacknowledged for 2^26 cycles (R339 detail 1). -/
def State.ackTimeout (s : State) (ctx ch : Nat) : State :=
  match s.ctx? ctx with
  | none => s
  | some x =>
    let old := fun (t : Nat) => decide (t + 2 ^ 26 ≤ s.now)
    if ((x.chan ch).coll.map (fun c => c.lines.any (fun l => old l.2))).getD false then s.chanTrap ctx ch 1
    else
      match x.fires.find? (fun f => f.ch == ch && old f.sent && !f.lines.isEmpty) with
      | some f => (s.frontTrap ctx (((s.rec? f.rid).map (·.queue)).getD 0) { cause := 0x15, detail := 1, va := 0 }).1
      | none => s

/-- FABRIC_ACK_TIMEOUT (R339). -/
def execFabricAckTimeout (ctx ch : Nat) (s : State) : Host.Outcome State Fault Refusal := event (·.ackTimeout ctx ch) s

/-- A RECV, REDUCE or WAITF has waited for 2^26 cycles (R339 detail 3). -/
def State.waitTimeout (s : State) (ctx ch : Nat) : State :=
  match s.collAt ctx ch with
  | none => s
  | some (_, c) => if 2 ^ 26 ≤ c.waited then s.chanTrap ctx ch 3 else s

/-- STEP_WAIT_TIMEOUT (R339). -/
def execStepWaitTimeout (ctx ch : Nat) (s : State) : Host.Outcome State Fault Refusal := event (·.waitTimeout ctx ch) s

/-- The delay of a stagger message has passed: the held wait ends (R344). -/
def State.staggerEnd (s : State) (ctx ch : Nat) : State :=
  match s.collAt ctx ch with
  | none => s
  | some (_, c) =>
    match c.release, c.word with
    | some t, some w => if t ≤ s.now then s.postOnce s.now (stepEvent (stepOp w) ctx ch) else s
    | _, _ => s

/-- STAGGER_RELEASE (R344). -/
def execStaggerRelease (ctx ch : Nat) (s : State) : Host.Outcome State Fault Refusal := event (·.staggerEnd ctx ch) s

/-- Arm one channel; a wait already held back is held anew (R344). -/
def State.armChan (s : State) (ctx ch d : Nat) : State :=
  let held := ((s.collAt ctx ch).map (fun p => p.2.release.isSome)).getD false
  let s := s.modChan ctx ch (fun k => { k with armed := some d, coll := k.coll.map (fun c =>
    if c.release.isSome then { c with release := some (s.now + d) } else c) })
  if held then s.post (s.now + d) (.staggerRelease ctx ch) else s

/-- A stagger message arms every channel of a module in its group; without a module number none is accepted (R25, R344). -/
def State.stagger (s : State) (group : BitVec 16) (nslot step : Nat) : State :=
  if s.modnum.isSome && s.pwrgrp.getLsbD 16 && s.pwrgrp.setWidth 16 == group && decide (1 ≤ nslot ∧ nslot ≤ 256 ∧ 1 ≤ step ∧ step ≤ 1000) then
    let d := usCycles (s.ownMod % nslot * step)
    s.ctxs.foldl (fun s e => (List.range 64).foldl (fun s ch => s.armChan e.1 ch d) s) s
  else s

/-- STAGGER_MESSAGE (R344). -/
def execStaggerMessage (group : BitVec 16) (nslot step : Nat) (s : State) : Host.Outcome State Fault Refusal :=
  event (·.stagger group nslot step) s

/-- A fabric link fails: an error record; a channel whose slot or whose lines it carried loses them with the fabric trap: one with lines at
the port, and such others of the partition that owns the port as are open (R342, R339, R385, R407). DESIGN CHOICE (log entry 83): WHERE
of the record holds the port number, since R385 names a lane of the 8 that a port has, and no rule says which one fails with it. -/
def State.linkFail (s : State) (port : Nat) : State :=
  let s := s.error 7 7 (port / 2) port 0 0 0
  let part := (s.partOf (port / 2 * 2)).1
  let lost := s.ports.filter (fun l => l.port == port)
  let s : State := { s with ports := s.ports.filter (fun l => l.port != port) }
  let chans := s.ctxs.flatMap (fun e => match e.2 with
    | some x => if x.part ≠ part then [] else x.chans.filterMap (fun h =>
        if h.2.slot.isSome || ((h.2.coll.map (fun c => !c.lines.isEmpty)).getD false) then some (e.1, h.1) else none)
    | none => [])
  let s := chans.foldl (fun s p =>
    let (hit, s) := s.drawBit
    if hit || lost.any (fun l => l.ctx == p.1 && l.sender == p.2) then
      let s := s.modChan p.1 p.2 (fun k => { k with slot := none, slotRel := false })
      if (s.collAt p.1 p.2).isSome then s.chanTrap p.1 p.2 1 else (s.frontTrap p.1 0 { cause := 0x15, detail := 1, va := 0 }).1
    else s) s
  (((lost.filter (fun l => decide (64 ≤ l.sender))).map (·.ctx)).eraseDups).foldl (fun s ctx =>
    (s.frontTrap ctx 0 { cause := 0x15, detail := 1, va := 0 }).1) s

/-- FABRIC_LINK_FAILURE (R342). -/
def execFabricLinkFailure (port : Nat) (s : State) : Host.Outcome State Fault Refusal := event (·.linkFail port) s

end Sys2Proof.Machine
end

