-- ==== Sys2Proof/Machine/Micro.lean ====
section
/-!
DEFINITION. The writable control store: micro-words, invocations and their steps, pages and the loader, majors 0x90 and 0xC0 to 0xFF (R267 to R302, R458, R459).
-/

namespace Sys2Proof.Machine

/-! ### Micro-words (R272 to R283) -/

/-- The fields of a micro-word (R272): `g`, `bn`, `blw`, `fe` and `b7` are BSEL. -/
structure MicroWord where
  seq : Nat
  tgt : Nat
  cnd : Nat
  lw : Bool
  lop : Nat
  ld : Nat
  la : Nat
  lb : Nat
  lk : Nat
  sfuK : Nat
  sfuN : Nat
  agu : Nat
  bank : Nat
  fmt : Nat
  b7 : Bool
  fe : Bool
  blw : Bool
  bn : Nat
  g : Nat
  tport : Nat
  mop : Nat
  mn : Nat
  mvar : Nat
  imm : BitVec 16
  deriving DecidableEq, Repr

/-- The fields of a word (R272). -/
def microWord (w : BitVec 128) : MicroWord where
  seq := (w.extractLsb' 124 4).toNat
  tgt := (w.extractLsb' 112 12).toNat
  cnd := (w.extractLsb' 108 4).toNat
  lw := w.getLsbD 107
  lop := (w.extractLsb' 100 7).toNat
  ld := (w.extractLsb' 92 8).toNat
  la := (w.extractLsb' 84 8).toNat
  lb := (w.extractLsb' 76 8).toNat
  lk := (w.extractLsb' 72 4).toNat
  sfuK := (w.extractLsb' 68 4).toNat
  sfuN := (w.extractLsb' 64 4).toNat
  agu := (w.extractLsb' 48 16).toNat
  bank := (w.extractLsb' 45 3).toNat
  fmt := (w.extractLsb' 40 5).toNat
  b7 := w.getLsbD 39
  fe := w.getLsbD 38
  blw := w.getLsbD 37
  bn := (w.extractLsb' 34 3).toNat
  g := (w.extractLsb' 32 2).toNat
  tport := (w.extractLsb' 24 8).toNat
  mop := (w.extractLsb' 21 3).toNat
  mn := (w.extractLsb' 18 3).toNat
  mvar := (w.extractLsb' 16 2).toNat
  imm := w.extractLsb' 0 16

/-- The nibble of a generator (R278). -/
def MicroWord.aguOp (w : MicroWord) (g : Nat) : Nat := w.agu / 16 ^ g % 16

/-- A lane operation code of R276. -/
def lopOk (c : Nat) : Bool := decide (c ≤ 8 ∨ (0x10 ≤ c ∧ c ≤ 0x19) ∨ c = 0x20 ∨ c = 0x21)

/-- A code that LA and LB take (R275). -/
def laneSrcOk (c : Nat) : Bool :=
  decide (c ≤ 3 ∨ (8 ≤ c ∧ c ≤ 0x14) ∨ c = 0x18 ∨ c = 0x19 ∨ (0x20 ≤ c ∧ c ≤ 0x22) ∨ (0x28 ≤ c ∧ c ≤ 0x37) ∨ 0x80 ≤ c)

/-- A code that LD takes (R275). -/
def laneDstOk (c : Nat) : Bool := decide (c ≤ 3 ∨ (0x10 ≤ c ∧ c ≤ 0x12) ∨ c = 0x1A ∨ c = 0x40 ∨ 0x80 ≤ c)

/-- The lane operations of one source: ABS, NEG and MOV (R276). -/
def lopUnary (c : Nat) : Bool := c == 7 || c == 8 || c == 0x20

/-- The refusal reasons that hold of a word, ascending (R283). -/
def MicroWord.refusals (w : MicroWord) : List Nat :=
  let tests : List (Nat × Bool) := [
    (1, decide (7 ≤ w.seq)),
    (2, [7, 14, 15].contains w.cnd || (w.cnd != 0 && w.seq != 2 && w.seq != 4) || (w.seq == 4 && decide (1 ≤ w.cnd ∧ w.cnd ≤ 6))
      || (w.tgt != 0 && !(w.seq == 1 || w.seq == 2 || w.seq == 3))),
    (3, !lopOk w.lop || (w.lop == 0 && (w.ld != 0 || w.la != 0 || w.lb != 0 || w.lk != 0)) || (lopUnary w.lop && w.lb != 0)),
    (4, !laneDstOk w.ld || !laneSrcOk w.la || !laneSrcOk w.lb),
    (5, decide (4 < w.sfuK) || (w.sfuK == 0 && decide (10 < w.sfuN)) || (decide (1 ≤ w.sfuK ∧ w.sfuK ≤ 3) && decide (4 ≤ w.sfuN))
      || (w.sfuK == 4 && decide (8 ≤ w.sfuN)) || (w.lop == 0 && (decide (1 ≤ w.sfuK ∧ w.sfuK ≤ 3) || (w.sfuK == 0 && w.sfuN != 0)))),
    (6, (List.range 4).any (fun g => decide (6 ≤ w.aguOp g))),
    (7, decide (5 ≤ w.bank) || w.b7 || decide (25 ≤ w.fmt) || (w.bank != 1 && w.bank != 2 && w.fmt != 0)
      || (decide (w.bank ≤ 1) && w.bn != 0) || (decide (3 ≤ w.bank) && w.fe)
      || (w.bank == 2 && (w.bn == 7 || w.lop == 0 || ((w.fmt == 15 || w.fmt == 16) && w.bn != 0)))),
    (8, decide (6 ≤ w.tport) || (w.tport == 1 && decide (64 ≤ w.imm.toNat)) || ([1, 2, 4].contains w.tport && w.lop == 0)),
    (9, w.mop == 7 || (w.mop == 0 && (w.mn != 0 || w.mvar != 0)) || ([1, 2, 4, 6].contains w.mop && w.mvar != 0)
      || (w.mop == 5 && (w.mvar == 3 || w.lop == 0))),
    (10, ((w.la == 0x13 || w.lb == 0x13) && w.bank != 1) || ((w.la == 0x14 || w.lb == 0x14) && w.tport != 3)
      || (w.lop == 4 && (w.ld == 0x1A || w.ld == 0x40)))]
  (tests.filter (·.2)).map (·.1)

/-- The refusal reason of a word: the first that holds, none where the word is accepted (R283). -/
def refused (w : BitVec 128) : Option Nat := (microWord w).refusals.head?

/-! ### Pages and the image (R267, R289 to R292, R298) -/

/-- A control-store access violation with its reason and own detail (R285 to R289). -/
def csTrap (reason : Nat) (own : Nat := 0) : Trap := { cause := 0x04, detail := BitVec.ofNat 64 (reason * 2 ^ 32 + own * 2 ^ 48) }

/-- Are the words of a slot loaded in a context (R289)? -/
def Ctx.slotOk (x : Ctx) (slot : Nat) : Bool := x.image.isSome && x.slots.getLsbD slot

/-- The page of a context's slot on a core, with its number. -/
def Core.page (k : Core) (ctx slot : Nat) : Option (Nat × Page) :=
  k.pages.findSome? (fun e => e.2.bind (fun p => if p.ctx = ctx && p.slot = slot then some (e.1, p) else none))

/-- n bytes of a context's memory read at their homes through a core's translation (R290). -/
def State.readHome (s : State) (c ctx va n : Nat) : State × Except AccFault (List Byte) :=
  let asid := ((s.ctx? ctx).map (·.asid)).getD 0
  let (s, t) := s.translateRange c ctx va n .load
  match t with
  | .error e => (s, .error e)
  | .ok ps =>
    ps.foldl (fun (r : State × Except AccFault (List Byte)) p =>
      (splitLines p.1 (List.replicate p.2 ())).foldl (fun (r : State × Except AccFault (List Byte)) q =>
        match r.2 with
        | .error e => (r.1, .error e)
        | .ok l =>
          let s := r.1
          if paMod q.1 = s.ownMod then
            let (s, bs, _, bad) := s.homeRead (coreDie c) c (paKey q.1) (paLocal q.1) q.2.length ctx asid
            if bad then (s.lineError 2 (paLocal q.1) (va + l.length) ctx, .error (poisonFault (va + l.length))) else (s, .ok (l ++ bs))
          else
            ({ s with free := s.free + q.2.length }, .ok (l ++ (List.range q.2.length).map (fun i => Config.freeByte (s.free + i))))) r)
      (s, .ok [])

/-- The micro-words of a run of bytes, by index: n of them (R272, R289). -/
def wordsOf (bs : List Byte) (n : Nat) : List (BitVec 128) :=
  (List.range n).map (fun i => BitVec.ofNat 128 (leNat ((bs.drop (16 * i)).take 16)))

/-- A page's words from its 8,192 bytes. -/
def pageWords (bs : List Byte) : Tbl (BitVec 128) := (wordsOf bs 512).zipIdx.filterMap (fun p => if p.1 = 0 then none else some (p.2, p.1))

/-- The image address of a slot (R289). -/
def Ctx.slotVa (x : Ctx) (slot : Nat) : Nat := x.image.getD 0 + 8192 * slot

/-- The physical page the loader takes: a free one, else the least recently used page of a context that does not run here
(R291). -/
def Core.victim (k : Core) (ctx : Nat) : Nat :=
  match (List.range 16).find? (fun n => (tget none k.pages n).isNone) with
  | some n => n
  | none =>
    let old := k.pages.filterMap (fun e => e.2.bind (fun p => if p.ctx != ctx && !p.pinned then some (e.1, p.used) else none))
    ((old.foldl (fun (m : Option (Nat × Nat)) e => match m with
      | some v => if e.2 < v.2 then some e else some v
      | none => some e) none).map (·.1)).getD 0

/-- The loader places a page read from the image (R290, R291). -/
def State.putPage (s : State) (c ctx slot : Nat) (words : Tbl (BitVec 128)) (loading : Bool) : State :=
  let p : Page := { ctx := ctx, slot := slot, words := words, pinned := false, loading := loading, used := s.now, stale := false }
  s.modCore c (fun k => { k with pages := tput none k.pages (k.victim ctx) (some p) })

/-- The loaded slots of the context on a core whose pages are absent, ascending (R290). -/
def State.absentSlots (s : State) (c : Nat) : List Nat :=
  match (s.core c).job with
  | none => []
  | some j =>
    match s.ctx? j.ctx with
    | none => []
    | some x => (List.range 8).filter (fun n => x.slotOk n && ((s.core c).page j.ctx n).isNone)

/-- The loader goes on fetching while a loaded slot is absent: one page takes 64 cycles (R290). -/
def State.kickLoader (s : State) (c : Nat) : State :=
  if (s.absentSlots c).isEmpty then s else s.postOnce (s.now + 64) (.pageFetch c)

/-- The loader fetches the first absent slot that it can read; when its lines arrive is open. A fault is left to the instruction
that waits for the page (R290). -/
def State.fetchPage (s : State) (c : Nat) : State :=
  match (s.core c).job with
  | none => s
  | some j =>
    match s.ctx? j.ctx with
    | none => s
    | some x =>
      let (late, s) := s.drawBit
      if late then s.postOnce (s.now + 1) (.pageFetch c)
      else
        let r := (s.absentSlots c).foldl (fun (r : State × Bool) n =>
          if r.2 then r
          else
            let (s', t) := r.1.readHome c j.ctx (x.slotVa n) 8192
            match t with
            | .ok bs => (s'.putPage c j.ctx n (pageWords bs) false, true)
            | .error _ => (s', false)) (s, false)
        if r.2 then r.1.kickLoader c else r.1

/-- PAGE_FETCH (R290). -/
def execPageFetch (core : Nat) (s : State) : Host.Outcome State Fault Refusal := event (·.fetchPage core) s

/-- The page of a slot, which the issuing instruction waits for: a slot never loaded violates the control store, and a fault of
the image is the waiting instruction's own (R289, R290, R292). -/
def needPage (u : Cur) (slot : Nat) : M Page := do
  let s ← get
  let ctx ← getCtx u
  match s.ctx? ctx with
  | none => raiseTrap (csTrap 4)
  | some x =>
    trapIf (!x.slotOk slot) (csTrap 4)
    match (s.core u.core).page ctx slot with
    | some (n, p) =>
      holdIf (p.loading && !p.pinned) .page
      let p := { p with used := s.now }
      modify (fun s => s.modCore u.core (fun k => { k with pages := tput none k.pages n (some p) }))
      pure p
    | none =>
      let _ ← liftF (fun s => s.readHome u.core ctx (x.slotVa slot) 8192)
      askFor .loader .page

/-- An invocation's pins end; a page invalidated meanwhile goes (R292, R298). -/
def Core.unpin (k : Core) : Core :=
  { k with pages := (k.pages.filter (fun e => !((e.2.map (·.stale)).getD false))).map (fun e =>
      (e.1, e.2.map (fun p => { p with pinned := false }))) }

/-- Pin the page a routine has entered (R292). -/
def State.pinPage (s : State) (c slot : Nat) : State :=
  let ctx := (s.jobAt c).ctx
  s.modCore c (fun k => { k with pages := k.pages.map (fun e =>
    (e.1, e.2.map (fun p => if p.ctx = ctx && p.slot = slot then { p with pinned := true } else p))) })

/-! ### One step of a routine (R271 to R288, R458) -/

/-- The fields of a binding entry (R269). -/
def bindRk (e : Word) : Nat := e.toNat / 2 ^ 40 % 4
def bindRcf (e : Word) : Nat := e.toNat / 2 ^ 32 % 256
def bindSteps (e : Word) : Nat := e.toNat / 2 ^ 16 % 2 ^ 14 + 1
def bindV (e : Word) : Bool := e.getLsbD 12

/-- A micro temporary. -/
def Micro.mtReg (m : Micro) (n : Nat) : Word := tget 0 m.mt n

/-- Write a micro temporary, readable by lane fields from a cycle on (R458). -/
def Micro.setMt (m : Micro) (n : Nat) (w : Word) (t : Nat) : Micro := { m with mt := tput 0 m.mt n w, ready := tput 0 m.ready (8 + n) t }

/-- Change the routine in progress. -/
def modMicro (u : Cur) (f : Micro → Micro) : M Unit := modJob u (fun j => { j with micro := j.micro.map f })

/-- The routine in progress. -/
def getMicro (u : Cur) (m : Micro) : M Micro := do return (← getJob u).micro.getD m

/-- Subcode 14: a slot that does not suit its use (R271, R275, R281). -/
def slotTrap : Trap := illegal9 14

/-- The code of an operand slot: DST, SRCA or SRCB (R271). -/
def Micro.slotCode (m : Micro) (n : Nat) : BitVec 8 := if n = 0 then m.ops.dst else if n = 1 then m.ops.srca else m.ops.srcb

/-- The vector row that a lane code names: v0 to v127, or the row of a slot; `none` for the other codes (R275). -/
def Micro.laneRow (m : Micro) (c : Nat) : Option Nat :=
  if 0x80 ≤ c then some (c - 0x80)
  else if 0x10 ≤ c ∧ c ≤ 0x12 then some ((m.slotCode (c - 0x10)).toNat % 128)
  else none

/-- Does a lane code name a slot that holds no v code (R275)? -/
def Micro.badSlot (m : Micro) (c : Nat) : Bool := decide (0x10 ≤ c ∧ c ≤ 0x12) && !(m.slotCode (c - 0x10)).getLsbD 7

/-- The scalar source of a slot under MTO op 3; `none` is the literal (R281). -/
def Micro.slotSrc (m : Micro) (w : MicroWord) : Option Src :=
  if w.mvar = 3 then none else some (srcOf (m.slotCode w.mvar))

/-- Is the slot read by MTO op 3 a scalar source of CX (R281)? -/
def Micro.slotOk (m : Micro) (w : MicroWord) : Bool :=
  w.mop != 3 || w.mvar == 3 || ((Src.ofCode (m.slotCode w.mvar)).map (fun x => x.isScalar .cx)).getD false

/-- The lane codes that a word uses: LA, LB and LD where it has a lane operation. -/
def MicroWord.lanes (w : MicroWord) : List Nat := if w.lop = 0 then [] else (if lopUnary w.lop then [w.la, w.ld] else [w.la, w.lb, w.ld])

/-- The resource classes a step uses (R286). -/
def Micro.uses (m : Micro) (w : MicroWord) (addr : Int) : Nat :=
  let b := fun (c : Bool) (n : Nat) => if c then 2 ^ n else 0
  let q := w.mop == 3 && (match m.slotSrc w with | some (.pop _) => true | some (.peek _) => true | _ => false)
  b (decide (1 ≤ w.tport) || w.cnd == 13) 0 + b (w.sfuK == 0 && w.sfuN != 0) 1 + b (decide (1 ≤ w.sfuK)) 2
    + b (w.bank != 0 && decide (0x1000000 ≤ addr ∧ addr < 0x2000000)) 3
    + b (w.bank != 0 && decide (addr < 0 ∨ 0x2000000 ≤ addr)) 4
    + b (w.lanes.any (fun c => c == 0x18 || c == 0x19 || c == 0x1A) || w.cnd == 8 || w.cnd == 9) 5
    + b (q || decide (10 ≤ w.cnd ∧ w.cnd ≤ 12)) 6

/-- Does one open window hold n bytes at an address with its permission (R284, R285)? -/
def Job.inWindow (j : Job) (a : Int) (n : Nat) (wr : Bool) : Bool :=
  (List.range 4).any (fun i =>
    let w := tget 0 j.uwin i
    let sz := w.toNat / 64 % 64
    let base : Nat := w.toNat / 2 ^ 12 % 2 ^ 44 * 2 ^ 12
    decide (12 ≤ sz ∧ sz ≤ 55 ∧ base % 2 ^ sz = 0) && w.getLsbD (if wr then 1 else 0)
      && decide ((base : Int) ≤ a ∧ a + (n : Int) ≤ ((base + 2 ^ sz : Nat) : Int)))

/-- A condition of R274, as the step starts. -/
def condOf (s : State) (u : Cur) (m : Micro) (c : Nat) : Bool :=
  let j := s.jobAt u.core
  let head := fun (x : Strm) => (qAt (j.queueOf (qNum x .cx)) 0).isSome
  match c with
  | 0 => true
  | 1 => m.mtReg 0 == 0
  | 2 => m.mtReg 0 != 0
  | 3 => (m.mtReg 0).msb
  | 4 => !(m.mtReg 0).msb
  | 5 => m.mlc == 0
  | 6 => m.mlc != 0
  | 8 => (vAt j.vqLd 0).isSome
  | 9 => j.st.exited || decide (j.vqCx.length < 16)
  | 10 => head .sc
  | 11 => head .ld
  | 12 => head .st
  | 13 => (s.core u.core).arr.isEmpty
  | _ => false

/-- What a WAITQ on a condition waits for (R274). -/
def condWait (c : Nat) : Wait :=
  match c with
  | 8 => .pop 16
  | 9 => .push 17
  | 10 => .pop (qNum .sc .cx)
  | 11 => .pop (qNum .ld .cx)
  | 12 => .pop (qNum .st .cx)
  | _ => .busy

/-- Bits of an element of a format code, whatever its descriptor (R59, R279). -/
def rawWidth (j : Job) (code : Nat) : Nat :=
  match stdFmt code with
  | some f => f.width
  | none =>
    let d := tget 0 j.fd (code - 17)
    (d.extractLsb' 8 1).toNat + (d.extractLsb' 4 4).toNat + (d.extractLsb' 0 4).toNat

/-- Bytes and alignment of a BANK access (R279). -/
def MicroWord.span (w : MicroWord) (j : Job) : Nat × Nat :=
  if w.bank ≤ 2 then (runBytes (rawWidth j w.fmt) (laneN w.blw), 16) else (8, 8)

/-- Does a BANK operation write? -/
def MicroWord.stores (w : MicroWord) : Bool := w.bank == 2 || w.bank == 4

/-- Is the lane operation in the integer interpretation (R276)? -/
def lopInt (c : Nat) : Bool := decide (0x10 ≤ c ∧ c ≤ 0x19)

/-- One lane of a lane operation: A, B and the old LD lane (R276). -/
def lopLane (lop : Nat) (lw : Bool) (a b d : Nat) : Nat × Flg :=
  match lop with
  | 1 => fltAdd lw a b
  | 2 => fltSub lw a b
  | 3 => fltMul lw a b
  | 4 => fltFma lw a b d
  | 5 => (fltMinMax false lw a b, 0)
  | 6 => (fltMinMax true lw a b, 0)
  | 7 => (imgAbs lw a, 0)
  | 8 => (imgNeg lw a, 0)
  | 0x10 => (intLane lw (fun x y => x + y) a b, 0)
  | 0x11 => (intLane lw (fun x y => x * y) a b, 0)
  | 0x12 => (bitLane lw (fun x y => x &&& y) a b, 0)
  | 0x13 => (bitLane lw (fun x y => x ||| y) a b, 0)
  | 0x14 => (bitLane lw (fun x y => x ^^^ y) a b, 0)
  | 0x15 => (bitLane lw (fun x y => x <<< (y % 64)) a b, 0)
  | 0x16 => (laneShr lw false a b, 0)
  | 0x17 => (laneShr lw true a b, 0)
  | 0x18 => (intMinMax false lw a b, 0)
  | 0x19 => (intMinMax true lw a b, 0)
  | _ => (a, 0)

/-- The latency of a lane operation with its special function (R237). -/
def MicroWord.latency (w : MicroWord) : Nat :=
  let l := if w.lop = 0x11 then 3 else if 1 ≤ w.lop ∧ w.lop ≤ 6 then 4 else 1
  if w.sfuK = 0 ∧ w.sfuN ≠ 0 then max l (4 + laneN w.lw / 32) else l

/-- The function of SFU kind 0: 1 to 10 in the order of R231. -/
def sfuOf (n : Nat) : SfuFn := SfuFn.ofCode (BitVec.ofNat 4 (n - 1))

/-- A reduction of SFU kinds 1 to 3 (R277). -/
def redOfKind (k : Nat) : RedOp := if k = 1 then .sum else if k = 2 then .max else .min

/-- The checks that a step makes before it samples or waits (R282 item 1). -/
def microChecks (u : Cur) (m : Micro) (w : MicroWord) (addr : Int) : M Unit := do
  let j ← getJob u
  trapIf (!m.counted && decide (bindSteps m.entry ≤ m.steps)) { cause := 0x03 }
  trapIf (w.seq == 5 && bindRk m.entry == 2 && w.lop == 0) slotTrap
  trapIf ((m.uses w addr &&& (255 - bindRcf m.entry)) != 0) (csTrap 3)
  let first := j.uwv.toNat % 128
  let last := j.uwv.toNat / 256 % 128
  let rows := w.lanes.filterMap (fun c => if m.badSlot c then none else m.laneRow c)
    ++ (if w.tport = 3 ∨ w.tport = 4 then [w.imm.toNat % 128] else [])
  trapIf (rows.any (fun r => decide (r < first ∨ last < r))) (csTrap 1)
  trapIf (w.lanes.any m.badSlot || !m.slotOk w) slotTrap
  if w.bank ≠ 0 then
    let (n, al) := w.span j
    trapIf (!j.inWindow addr n w.stores) (csTrap 2)
    let ar ← areaOf u addr n al w.fe
    trapIf (m.feed && ar.isTrans) (csTrap 5)
    if w.bank = 1 then
      let _ ← getFmt u w.fmt
    if w.bank = 2 then
      let _ ← rowFmt u w.fmt w.blw

/-- The lane codes that a word reads. -/
def MicroWord.srcs (w : MicroWord) : List Nat := if w.lop = 0 then [] else if lopUnary w.lop then [w.la] else [w.la, w.lb]

/-- What a step waits for before it samples: the latencies of its lane fields, the special-function unit, and the return of a
translated BANK read, whose time is open (R230, R237, R458). -/
def microReady (u : Cur) (m : Micro) (w : MicroWord) (addr : Int) : M Unit := do
  let s ← get
  let j := s.jobAt u.core
  for c in w.srcs do
    match m.laneRow c with
    | some r => holdIf (!j.isReady s.now (readyKeyRow r)) .busy
    | none => holdIf (decide (s.now < tget 0 m.ready c) && !(w.sfuK == 4 && c == 8)) .busy
  match (if w.lop = 0 then none else m.laneRow w.ld) with
  | some r => holdIf (!j.isReady s.now (readyKeyRow r)) .busy
  | none => holdIf (decide (w.lop ≠ 0 ∧ w.ld < 4 ∧ s.now < tget 0 m.ready w.ld)) .busy
  if w.tport = 3 then holdIf (!j.isReady s.now (readyKeyRow (w.imm.toNat % 128))) .busy
  holdIf (w.sfuK == 0 && w.sfuN != 0 && decide (s.now < (s.core u.core).sfuFree)) .busy
  if w.bank = 1 ∨ w.bank = 3 then
    let (n, al) := w.span j
    let ar ← areaOf u addr n al w.fe
    if ar.isTrans then
      let wait ← chooseDefer
      if wait then keepFor .busy

/-- Item 2 of R282: the condition and, for a drain, the latch are sampled, and the latch is cleared where the word says so. -/
def microSample (u : Cur) (m : Micro) (w : MicroWord) : M MicroSample := do
  let s ← get
  let n := w.sfuN % 4
  let clear := w.sfuK = 4 ∧ 4 ≤ w.sfuN
  let p : MicroSample := { holds := condOf s u m w.cnd, latch := tget 0 (s.jobAt u.core).rl n,
                           cleared := if clear then some (BitVec.ofNat 2 n) else none }
  if clear then modJob u (fun j => { j with rl := tput 0 j.rl n 0 })
  modMicro u (fun m => { m with sample := some p })
  pure p

/-- Item 3 of R282: the entries of the CX→ST queue that the step pushes are reserved; toward a stream that has exited there are none
(R99, R101). -/
def microReserve (u : Cur) (w : MicroWord) (d : Dest) : M Unit := do
  let s ← get
  let j := s.jobAt u.core
  let n := if j.st.exited then 0 else (if w.lop ≠ 0 ∧ w.ld = 0x1A then 1 else 0) + (if w.seq = 5 ∧ destVq d then 1 else 0)
  holdIf (decide (0 < n ∧ 16 < j.vqCx.length + n)) (.push 17)
  let ids := (List.range n).map (fun i => s.ids + i)
  set { s with ids := s.ids + n }
  modJob u (fun j => { j with
    vqCx := j.vqCx ++ ids.map VEnt.resv
    micro := j.micro.map (fun m => { m with sample := m.sample.map (fun p => { p with resv := some ids }) }) })

/-- Item 4 of R282: WAITQ, row reservations, queues, full-empty granules, banks and draws. The draws of a stochastic STR. -/
def microWaits (u : Cur) (m : Micro) (w : MicroWord) (addr : Int) (d : Dest) : M (List Nat) := do
  let s ← get
  let j := s.jobAt u.core
  if w.seq = 4 ∧ !condOf s u m w.cnd then
    if !m.counted then modMicro u (fun m => { m with counted := true, steps := m.steps + 1 })
    keepFor (condWait w.cnd)
  if w.seq = 5 then needSpace u { d with qs := d.qs &&& 0xF }
  let k := s.core u.core
  holdIf ((w.srcs.filterMap m.laneRow).any k.rowHeld) .busy
  holdIf (((if w.lop = 0 then none else m.laneRow w.ld).toList).any k.rowWriteHeld) .busy
  if w.tport = 3 then holdIf (k.rowHeld (w.imm.toNat % 128)) .busy
  if w.tport = 4 then holdIf (k.rowWriteHeld (w.imm.toNat % 128)) .busy
  if w.tport = 5 then needArrSlot u
  match (if w.seq = 5 ∧ bindRk m.entry = 2 then d.reg else none) with
  | some (.v r) => holdIf (k.rowWriteHeld r.toNat) .busy
  | _ => pure ()
  ensure u (w.srcs.filterMap (fun c => if c = 0x18 then some (Rd.vec (.pop .ld)) else if c = 0x19 then some (.vec (.peek .ld)) else none))
  match (if w.mop = 3 then m.slotSrc w else none) with
  | some x => ensure u [.scalar x]
  | none => pure ()
  if w.bank ≠ 0 then
    let (n, al) := w.span j
    let ar ← areaOf u addr n al w.fe
    if w.bank = 1 then waitFull u ar n (if w.fe then .fe else .none)
    orderAt u ar n
    watch u ar.va n (!w.stores) w.stores
  if w.bank = 2 then rowDraws u w.blw (Rnd.ofCode (BitVec.ofNat 3 w.bn)) else pure []

/-- A lane source (R275): the lanes of a row, or a value broadcast as R208 does. -/
def microLanes (u : Cur) (m : Micro) (lw int : Bool) (c : Nat) (bd pd : Row) : M (List Nat) := do
  let j ← getJob u
  match m.laneRow c with
  | some r => pure (rowLanes lw (j.row r))
  | none =>
    if c < 4 then pure (rowLanes lw (tget 0 m.vt c))
    else if c < 0x10 then
      let v := m.mtReg (c - 8)
      pure (rowLanes lw (bcastRow lw (if int then satImg lw v.toInt false else imgConv false lw (w36 v))))
    else if c = 0x13 then pure (rowLanes lw bd)
    else if c = 0x14 then pure (rowLanes lw pd)
    else if c = 0x18 then do return rowLanes lw (← popRow u .ld)
    else if c = 0x19 then do return rowLanes lw (← readVec u lw int (.peek .ld))
    else if c = 0x20 then do return rowLanes lw (← readVec u lw int .zero)
    else if c = 0x21 then do return rowLanes lw (← readVec u lw int .one)
    else if c = 0x22 then do return rowLanes lw (← readVec u lw int .lane)
    else do return rowLanes lw (← readVec u lw int (.const (BitVec.ofNat 4 (c - 0x28))))

/-- Bytes that a BANK read takes; an uncorrectable line traps (R279). -/
def microLoad (u : Cur) (ar : Area) (n : Nat) : M (List Byte) := do
  let bs ← liftF (fun s => s.loadArea u.core u.strm ar n .strm)
  match firstBad ar.va bs with
  | some v => raiseTrap (poisonFault v).trap
  | none => pure (bs.map (·.1))

/-- The command of a FIRE step after the checks of R257 and R280. -/
def microFire (u : Cur) (m : Micro) (w : MicroWord) : M Unit := do
  needLease u
  let j ← getJob u
  let num := w.imm.toNat % 16
  let e := ftEntry (tget 0 j.ft num)
  match checkEntry (fun i => tget 0 j.fd i) e with
  | .error (code, op, sc) => raiseTrap { cause := 0x0D, detail := BitVec.ofNat 64 (code + 32 + 256 * num + 4096 * op + 8192 * sc) }
  | .ok (fa, fb) =>
    let ks := w.imm.toNat / 32 % 128 + 1
    needDepth u ks
    let k := ks * stepSize (max fa.width fb.width) e.acc
    trapIf (decide (128 < k)) rowTrap
    let ga := tget 0 j.g e.ag
    let gb := tget 0 j.g e.bg
    checkBlock u e.asc ga k 64
    checkBlock u e.bsc gb k (if e.acc then 256 else 128)
    let now := (← get).now
    modify (fun s => s.issueArr u.core { blankCmd u now (.mma 0) (w.imm.getLsbD 4) with
      a := .staged m.stageA, b := .staged m.stageB, ks := ks, afmt := e.afmt, bfmt := e.bfmt, afd := fdOf j e.afmt, bfd := fdOf j e.bfmt
      ascale := scaleCap e.asc ga, bscale := scaleCap e.bsc gb, w18 := e.acc, int := e.isInt, sq := e.sq })
    modMicro u (fun m => { m with stageA := [], stageB := [], feed := false })

/-- MTO, where the lane result is `row` (R281). -/
def microMto (u : Cur) (m : Micro) (w : MicroWord) (row : Row) : M Unit := do
  let now := (← get).now
  let cur := (← getMicro u m).mtReg w.mn
  let imm : Word := w.imm.signExtend 64
  match w.mop with
  | 1 => modMicro u (·.setMt w.mn imm now)
  | 2 => modMicro u (·.setMt w.mn (cur + imm) now)
  | 3 =>
    let v ← match m.slotSrc w with
      | some x => readScalar u x
      | none => pure ((m.ops.lit.getD 0).signExtend 64)
    modMicro u (·.setMt w.mn v now)
  | 4 => modMicro u (fun m => { m with mlc := cur.setWidth 16 })
  | 5 =>
    let sel : LaneSel := if w.mvar = 0 then .flt else if w.mvar = 1 then .int else .img
    let v := extLane w.lw sel (laneAt (rowLanes w.lw row) (w.imm.toNat % 256 % laneN w.lw))
    modMicro u (·.setMt w.mn v (now + w.latency))
  | 6 => modMicro u (fun m => { m with res := cur })
  | _ => pure ()

/-- One generator after its AGU operation (R278). -/
def Micro.agStep (m : Micro) (w : MicroWord) (g : Nat) : Micro :=
  let ag := tget 0 m.ag g
  let st : Word := (tget 0 m.as_ g).signExtend 64
  let imm : Word := w.imm.signExtend 64
  match w.aguOp g with
  | 1 => { m with ag := tput 0 m.ag g (ag + st) }
  | 2 => { m with ag := tput 0 m.ag g (ag - st) }
  | 3 => { m with ag := tput 0 m.ag g (m.mtReg (4 + g)) }
  | 4 => { m with as_ := tput 0 m.as_ g (w.imm.signExtend 32) }
  | 5 => { m with ag := tput 0 m.ag g (ag + imm) }
  | _ => m

/-- The next micro address, and mlc after the step (R268, R273). -/
def Micro.nextUpc (m : Micro) (w : MicroWord) (holds : Bool) : Nat × BitVec 16 :=
  let tgt := m.upc.toNat / 4096 * 4096 + w.tgt
  let next := m.upc.toNat + 1
  match w.seq with
  | 1 => (tgt, m.mlc)
  | 2 => (if holds then tgt else next, m.mlc)
  | 3 => if m.mlc = 0 then (next, m.mlc) else (tgt, m.mlc - 1)
  | _ => (next, m.mlc)

/-- How a step ends: the routine goes on, retires, or traps. -/
inductive MicroEnd where
  | next
  | retire
  | trap
  deriving DecidableEq, Repr

/-- The delivery of an invocation: DST by its result kind, and the queues of DMASK (R271). -/
def Micro.dest (m : Micro) : Dest where
  reg := if m.ops.dmask.getLsbD 0 then some (Reg.ofCode m.ops.dst) else none
  qs := m.ops.dmask.extractLsb' 1 5

/-- Does a DMASK[42] destination suit the result kind (R271)? -/
def Micro.destOk (m : Micro) : Bool :=
  !m.ops.dmask.getLsbD 0 || (if bindRk m.entry = 1 then decide (m.ops.dst.toNat < 0x30) else m.ops.dst.getLsbD 7)

/-- The lane result of a step with its special function or reduction: the row as LD receives it (R275 to R277, R282 items 5 to 7). -/
def microLane (u : Cur) (m : Micro) (w : MicroWord) (bd pd : Row) : M Row := do
  if w.lop = 0 then pure 0
  else
    let int := lopInt w.lop
    let a ← microLanes u m w.lw int w.la bd pd
    let b ← if lopUnary w.lop then pure a else microLanes u m w.lw int w.lb bd pd
    let j ← getJob u
    let old : Row := match m.laneRow w.ld with
      | some r => j.row r
      | none => if w.ld < 4 then tget 0 m.vt w.ld else 0
    let mk := j.mask w.lk
    let all := w.lop = 0x21
    let od := rowLanes w.lw old
    let sfu := w.sfuK = 0 ∧ w.sfuN ≠ 0
    let one := fun (i : Nat) =>
      let r := if all then (if mk.getLsbD i then laneAt a i else laneAt b i, (0 : Flg)) else lopLane w.lop w.lw (laneAt a i) (laneAt b i) (laneAt od i)
      if sfu then
        let z := sfuImg (sfuOf w.sfuN) w.lw r.1
        (z.1, r.2 ||| z.2)
      else r
    let rs := od.zipIdx.map (fun p => if all || mk.getLsbD p.2 then (some (one p.2), p.1) else (none, p.1))
    setFlags u (rs.foldl (fun (x : Flg) r => x ||| (r.1.map (·.2)).getD 0) 0)
    if 1 ≤ w.sfuK ∧ w.sfuK ≤ 3 then
      modify (fun s => s.startRed u.core (BitVec.ofNat 2 w.sfuN) (redOfKind w.sfuK) int w.lw (rs.map (fun r => r.1.map (·.1))))
    if sfu then modify (fun s => s.modCore u.core (fun k => { k with sfuFree := s.now + laneN w.lw / 32 }))
    pure (rowOf w.lw (rs.map (fun r => (r.1.map (·.1)).getD r.2)))

/-- A row fills the next entry of the CX→ST queue that the step has reserved (R99, R275). -/
def microPush (u : Cur) (row : Row) (lat : Nat) : M Unit := do
  let now := (← get).now
  match (((← getJob u).micro.bind (fun m => m.sample)).bind (fun p => p.resv)).getD [] with
  | [] => pure ()
  | id :: rest =>
    modMicro u (fun m => { m with sample := m.sample.map (fun p => { p with resv := some rest }) })
    if lat ≤ 1 then modJob u (fun j => j.fillV id row)
    else
      modStrm u (fun x => { x with returned := x.returned ++ [(now + lat, id, .inr row)] })
      modify (fun s => s.postEarly (now + lat) (.resultDelivery u.core u.strm))

/-- The lane result goes to LD (R275, R282 item 8). -/
def microPutLd (u : Cur) (m : Micro) (w : MicroWord) (row : Row) : M Unit := do
  if w.lop = 0 then pure ()
  else
    let now := (← get).now
    match m.laneRow w.ld with
    | some r => modJob u (fun j => (j.setRow r row).setReady (readyKeyRow r) (now + w.latency))
    | none =>
      if w.ld < 4 then
        modMicro u (fun m => { m with vt := tput 0 m.vt w.ld row, ready := tput 0 m.ready w.ld (now + w.latency) })
      else if w.ld = 0x1A then microPush u row w.latency
      else pure ()

/-- One step: its checks, waits and effects in the order of R282. -/
def microStep (u : Cur) (m : Micro) : M MicroEnd := do
  trapIf (decide (m.upc.toNat / 4096 ≠ 2)) (csTrap 4)
  trapIf (m.steps == 0 && !m.destOk) slotTrap
  let p ← needPage u (m.upc.toNat / 512 % 8)
  let raw := tget 0 p.words (m.upc.toNat % 512)
  match refused raw with
  | some r => raiseTrap (csTrap 6 r)
  | none =>
    let w := microWord raw
    let addr := (tget 0 m.ag w.g).toInt
    let d := m.dest
    let p ← match m.sample with
      | some p => pure p
      | none => do
        microChecks u m w addr
        microReady u m w addr
        microSample u m w
    if p.resv.isNone then microReserve u w d
    let ds ← microWaits u m w addr d
    let s ← get
    let now := s.now
    -- the drained latch is in mt0 before the lane fields are read
    if w.sfuK = 4 then modMicro u (·.setMt 0 (p.latch.setWidth 64) now)
    let m ← getMicro u m
    -- reads
    let j ← getJob u
    let (n, al) := w.span j
    let bytes ← if w.bank = 1 ∨ w.bank = 3 then do microLoad u (← areaOf u addr n al w.fe) n else pure []
    let bd : Row := if w.bank = 1 then
        (match fmtOf (fun i => tget 0 j.fd i) w.fmt with
         | some f => rowOfBytes f w.blw bytes
         | none => 0)
      else 0
    let pd := if w.tport = 3 then j.row (w.imm.toNat % 128) else 0
    -- whether lane fields see the word that LDW reads in their own step is open
    let seen ← if w.bank = 3 ∧ w.lanes.contains (8 + w.bn) then chooseDefer else pure false
    let put := modMicro u (·.setMt w.bn (BitVec.ofNat 64 (leNat bytes)) now)
    if w.bank = 3 ∧ seen then put
    let row ← microLane u (← getMicro u m) w bd pd
    if w.bank = 3 ∧ !seen then put
    -- writes
    microPutLd u m w row
    if w.bank = 2 then
      let f ← rowFmt u w.fmt w.blw
      let r : Rnd := Rnd.ofCode (BitVec.ofNat 3 w.bn)
      let (es, fl) := rowElems f w.blw r row ds
      setFlags u fl
      let ar ← areaOf u addr n al w.fe
      liftF (fun s => s.storeArea u.core 2 ar (packRun f.width es) .strm w.fe)
    if w.bank = 4 then
      let ar ← areaOf u addr n al false
      let v := (← getMicro u m).mtReg w.bn
      liftF (fun s => s.storeArea u.core 2 ar (fullMask (leBytes v.toNat 8)) .strm false)
    match w.tport with
    | 1 => modMicro u (fun m => { m with stageA := tput 0 m.stageA (w.imm.toNat % 64) row, feed := true })
    | 2 => modMicro u (fun m => { m with stageB := tput 0 m.stageB (w.imm.toNat % 128) row, feed := true })
    | 4 => modJob u (fun j => (j.setRow (w.imm.toNat % 128) row).setReady (readyKeyRow (w.imm.toNat % 128)) (now + w.latency))
    | 5 => microFire u (← getMicro u m) w
    | _ => pure ()
    microMto u m w row
    modMicro u (fun m => (List.range 4).foldl (fun m g => m.agStep w g) m)
    -- sequencing
    let m' ← getMicro u m
    let steps := if m'.counted then m'.steps else m'.steps + 1
    if w.seq = 5 then
      if bindRk m'.entry = 1 then deliver u d m'.res
      if bindRk m'.entry = 2 then
        match d.reg with
        | some (.v r) => modJob u (fun j => (j.setRow r.toNat row).setReady (readyKeyRow r.toNat) (now + w.latency))
        | _ => pure ()
        if destVq d then microPush u row w.latency
      let lat := if bindRk m'.entry = 2 then w.latency else 1
      modMicro u (fun m => { m with steps := steps, counted := false, sample := none, ending := some (now + lat) })
      pure .retire
    else
      let (nx, mlc) := m'.nextUpc w p.holds
      let x := s.ctx? j.ctx
      if w.seq ≠ 6 then
        trapIf (decide (nx / 4096 ≠ 2) || !((x.map (fun x => x.slotOk (nx / 512 % 8))).getD false)) (csTrap 4)
      modMicro u (fun m => { m with upc := BitVec.ofNat 14 nx, mlc := mlc, steps := steps, counted := false, sample := none })
      pure (if w.seq = 6 then .trap else .next)

/-- The slot of a routine's instruction. -/
def Micro.slot (m : Micro) (c k : Nat) : Cur :=
  { core := c, strm := .cx, pc := m.pc, word := m.word, lit := m.ops.lit.getD 0, size := if m.ops.lit.isSome then 12 else 8,
    repk := k, pops := [], poppedRow := none }

/-- An invocation retires: its pins end and the stream goes on (R271, R292). -/
def State.endMicro (s : State) (u : Cur) : State :=
  let s := s.modJob u.core (fun j => { j with micro := none })
  (s.modCore u.core Core.unpin).retire u .next

/-- A job whose waiting micro step gives back what it sampled and reserved: the cleared latch with what landed in it since, and its
queue entries (R282, R295). -/
def Job.unsample (j : Job) : Job :=
  match j.micro with
  | none => j
  | some m =>
    match m.sample with
    | none => j
    | some p =>
      let rl := match p.cleared with
        | some n => tput 0 j.rl n.toNat (BitVec.ofNat 36 (p.landed.foldl (fun l r => (landLatch r l).1) p.latch.toNat))
        | none => j.rl
      { j with
        rl := rl
        vqCx := j.vqCx.filter (fun e => !(p.resv.getD []).any (fun i => e == .resv i))
        micro := some { m with sample := none } }

/-- What a step keeps while it waits: what it sampled and reserved (R282). -/
def State.keepSample (s s' : State) (c : Nat) : State :=
  let k := s'.jobAt c
  ({ s with ids := s'.ids, free := s'.free } : State).modJob c (fun j => { j with
    vqCx := k.vqCx, rl := k.rl, micro := j.micro.map (fun m => { m with sample := k.micro.bind (fun n => n.sample) }) })

/-- A trap raised inside a routine (R287, R295): the step has no effect; of an uncorrectable line an error record is written. -/
def State.microTrap (s : State) (u : Cur) (m : Micro) (t : Trap) : State :=
  let ctx := (s.jobAt u.core).ctx
  let s := if t.cause = 0x08 then s.poisonError u.core ctx t.faddr.toNat 2 else s
  let m' := if m.counted then { m with counted := false, steps := m.steps - 1 } else m
  let s := s.modJob u.core (fun j => let j := j.unsample; { j with micro := some { m' with sample := none } })
  let s := s.modStrm u.core .cx (fun x => { x with wait := none, wpSkip := x.wpSkip || t.cause = 0x12 })
  s.takeTrapOf u.core .micro (m.trap t) (some u)

/-- One step of the routine in progress on CX (R282, R295, R458). -/
def State.microAt (s : State) (c : Nat) : State :=
  match (s.core c).job with
  | none => s
  | some j =>
    match j.micro with
    | none => s
    | some m =>
      let u := m.slot c ((j.cx.rep.map (fun r => r.k)).getD 0)
      match m.ending with
      | some t => if t ≤ s.now then s.endMicro { u with second := true } else s.countHead c .cx .busy
      | none =>
        if !j.cx.live then s
        else
          let pin := fun (s : State) => s.pinPage c (m.upc.toNat / 512 % 8)
          match microStep u m s with
          | .ok .retire s' =>
            let lat := (((s'.jobAt c).micro.bind (fun m => m.ending)).getD 0) - s.now
            let s' := s'.modStrm c .cx (fun x => { x with wait := none, wpSkip := false })
            if lat ≤ 1 then s'.endMicro u
            else ((pin s').countHead c .cx .issue).postEarly (s.now + lat) (.microStep c)
          | .ok e s' =>
            let s' := (pin (s'.modStrm c .cx (fun x => { x with wait := none, wpSkip := false }))).countHead c .cx .issue
            if e = .trap then
              let imm := match ((s.core c).page j.ctx (m.upc.toNat / 512 % 8)) with
                | some (_, p) => ((tget 0 p.words (m.upc.toNat % 512)).extractLsb' 0 16).toNat
                | none => 0
              let m' := { m with steps := if m.counted then m.steps else m.steps + 1 }
              s'.takeTrapOf c .micro (m'.trap { cause := 0x10, detail := BitVec.ofNat 64 imm }) (some u)
            else s'
          | .error (.hold w) s' => let s := s.keepSample s' c; (if w = .page then s else pin s).holdAt u w
          | .error (.ask a w) s' => let s := s.keepSample s' c; ((if w = .page then s else pin s).askAt u a).holdAt u w
          | .error (.keep w) s' => (pin s').holdAt u w
          | .error .enter s' => s'
          | .error (.trap t) _ => s.microTrap u m t

/-- MICRO_STEP (R282). -/
def execMicroStep (core : Nat) (s : State) : Host.Outcome State Fault Refusal := event (·.microAt core) s

/-! ### Custom majors (R46, R270, R271) -/

/-- Check 7 of a bound custom major by its result kind (R39, R270). -/
def rkDmaskOk (rk : Nat) (dm : BitVec 6) : Bool :=
  match rk with
  | 0 => dm == 0
  | 1 => !dm.getLsbD 5
  | _ => dm.extractLsb' 1 4 == 0

/-- The state in which an invocation starts (R271). -/
def startMicro (o : CustomOps) (e : Word) (u : Cur) : Micro where
  upc := BitVec.ofNat 14 (0x2000 + e.toNat % 4096)
  steps := 0
  mt := []
  vt := []
  mlc := 0
  res := 0
  ag := []
  as_ := []
  entry := e
  ops := o
  pc := u.pc
  word := u.word
  stageA := []
  stageB := []
  feed := false
  counted := false
  ready := []
  ending := none

/-- A custom-major instruction (R270, R271): check 7 by the entry read at issue, then the invocation with its step 0. -/
def execCustomOpcode (o : CustomOps) (s : State) : Host.Outcome State Fault Refusal :=
  match s.cur with
  | none => .fault .noIssuer
  | some u =>
    match (s.core u.core).job with
    | none => .fault .noIssuer
    | some j =>
      let e := tget 0 (((s.ctx? j.ctx).map (·.bind)).getD []) (o.major.toNat - 0xC0)
      if bindV e && !rkDmaskOk (bindRk e) o.dmask then .next (s.takeTrap u { cause := 0x01, reason := 7 })
      else
        match issue o.g (fun u => do
            trapIf (!bindV e) { cause := 0x02, detail := o.major.setWidth 64 }
            modJob u (fun j => { j with micro := some (startMicro o e u), cxFirst := none })
            throw .enter) s with
        | .next s' => .next (s'.microAt u.core)
        | r => r

/-! ### Major 0x90 (R297 to R301) -/

/-- An access of a control-store instruction to the core scratchpad: any other area is out of bounds (R298, R300). -/
def csArea (u : Cur) (a : Int) (n : Nat) : M Nat := do
  match (← areaOf u a n 16 false) with
  | .spad o => pure o
  | _ => raiseTrap (addrTrap 0x0E a)

/-- The slots of a run of words of the context space. -/
def slotsOf (off n : Nat) : List Nat := (List.range ((off + n - 1) / 512 - off / 512 + 1)).map (fun i => off / 512 + i)

/-- A page with words replaced from an offset in the context space on. -/
def Page.patch (p : Page) (off : Nat) (ws : List (BitVec 128)) : Page :=
  ws.zipIdx.foldl (fun p w => if (off + w.2) / 512 = p.slot then { p with words := tput 0 p.words ((off + w.2) % 512) w.1 } else p) p

/-- The pages of the slots that a WCSLD wrote are invalidated on the other cores of the context, or marked so while a routine pins
them, and its own are no longer loading (R298). -/
def State.endWcsld (s : State) (c : Nat) (slots : List Nat) : State :=
  let ctx := (s.jobAt c).ctx
  let hit := fun (p : Page) => p.ctx == ctx && slots.contains p.slot
  let s : State := { s with cores := s.cores.map (fun e =>
    if e.1 = c then e
    else (e.1, { e.2 with pages := e.2.pages.filterMap (fun q => match q.2 with
      | some p => if hit p then (if p.pinned then some (q.1, some { p with stale := true }) else none) else some q
      | none => none) })) }
  s.modCore c (fun k => { k with
    wcsld := none
    pages := k.pages.map (fun q => (q.1, q.2.map (fun p => if hit p then { p with loading := false } else p))) })

/-- The load of a WCSLD whose words are accepted: pages, image and valid slots; its writes travel as stores of SC (R298). -/
def wcsldLoad (u : Cur) (x : Ctx) (off : Nat) (ws : List (BitVec 128)) : M Unit := do
  let ctx ← getCtx u
  let slots := slotsOf off ws.length
  let ps ← liftF (fun s => s.translateRange u.core ctx (x.image.getD 0 + 16 * off) (16 * ws.length) .store)
  let k := (← get).core u.core
  let absent := slots.filter (fun n => (k.page ctx n).isNone)
  for n in absent do
    let bs ← liftF (fun s => s.readHome u.core ctx (x.slotVa n) 8192)
    modify (fun s => s.putPage u.core ctx n (pageWords bs) true)
  let bytes := fullMask (ws.flatMap (fun w => leBytes w.toNat 16))
  let before ← get
  modify (fun s =>
    let s := s.modCore u.core (fun k => { k with pages := k.pages.map (fun q => (q.1, q.2.map (fun p =>
      if p.ctx = ctx && slots.contains p.slot then { p.patch off ws with loading := true } else p))) })
    let s := s.modCtx ctx (fun x => { x with slots := slots.foldl (fun v n => v ||| (1#8 <<< n)) x.slots })
    (ps.foldl (fun (r : State × List (Byte × Byte)) p => (r.1.sendBytes u.core 0 p.1 (r.2.take p.2) ctx, r.2.drop p.2)) (s, bytes)).1)
  let ids := sentIds before (← get)
  modify (fun s => s.modCore u.core (fun k => { k with wcsld := some (slots, ids, if absent.isEmpty then s.now else s.now + 64) }))

/-- WCSLD (R292, R298). -/
def execWcsld (o : COps) (n : BitVec 8) (s : State) : Host.Outcome State Fault Refusal :=
  issueNext o.g (fun u => do
    needSpace u o.d
    let answer := fun (v : Bool) => match o.nb with
      | some p => modStrm u (fun x => x.setPred p v)
      | none => pure ()
    let s ← get
    match (s.core u.core).wcsld with
    | some (slots, ids, t) =>
      if !ids.isEmpty || decide (s.now < t) then keepFor .busy
      modify (fun s => s.endWcsld u.core slots)
      answer true
      deliver u o.d 0
    | none =>
      ensure u [.scalar o.a, .scalar o.b]
      let a ← readScalar u o.a
      let ma ← readScalar u o.b
      let c := n.toNat + 1
      let off := ma.toNat % 4096
      let ctx ← getCtx u
      match s.ctx? ctx with
      | none => raiseTrap (csTrap 4)
      | some x =>
        trapIf (decide (ma.toNat / 4096 ≠ 2 ∨ 4096 < off + c) || x.image.isNone) (csTrap 4)
        let src ← csArea u a.toInt (16 * c)
        watch u src (16 * c) true false
        let pinned := (slotsOf off c).any (fun n => (((s.core u.core).page ctx n).map (fun q => q.2.pinned)).getD false)
        if pinned then
          match o.nb with
          | some _ =>
            answer false
            deliver u o.d 0xFF
          | none => holdFor .pin
        else
          let ws := wordsOf (← localRead u (.spad src) (16 * c)) c
          match (ws.zipIdx.findSome? (fun w => (refused w.1).map (fun r => (w.2, r)))) with
          | some (i, r) =>
            answer true
            deliver u o.d (BitVec.ofNat 64 (i * 256 + r))
          | none =>
            wcsldLoad u x off ws
            keepFor .busy) s

/-- Subcode 15: a major or an entry that WBIND, WUNB or WSTAT does not take (R299, R301). -/
def bindTrap : Trap := illegal9 15

/-- Is a value a custom major? -/
def isCustom (w : Word) : Bool := decide (0xC0 ≤ w.toNat ∧ w.toNat ≤ 0xFF)

/-- Is a binding entry one that may be written: must-be-0 bits 0 and RK not 3; V is ignored (R269, R286, R299)? -/
def bindOk (e : Word) : Bool := e &&& 0xFFFFFC80C000E000 == 0 && bindRk e != 3

/-- Write a binding entry of a context. -/
def State.setBind (s : State) (ctx n : Nat) (e : Word) : State := s.modCtx ctx (fun x => { x with bind := tput 0 x.bind n e })

/-- WBIND (R293, R299). -/
def execWbind (g : Guard) (a b : Src) (s : State) : Host.Outcome State Fault Refusal :=
  issueNext g (fun u => do
    ensure u [.scalar a, .scalar b]
    let m ← readScalar u a
    let e ← readScalar u b
    trapIf (!isCustom m || !bindOk e) bindTrap
    let ctx ← getCtx u
    modify (fun s => s.setBind ctx (m.toNat - 0xC0) (e ||| 0x1000))) s

/-- WUNB (R299). -/
def execWunb (g : Guard) (all : Bool) (a : Src) (s : State) : Host.Outcome State Fault Refusal :=
  issueNext g (fun u => do
    let ctx ← getCtx u
    if all then modify (fun s => s.modCtx ctx (fun x => { x with bind := [] }))
    else
      ensure u [.scalar a]
      let m ← readScalar u a
      trapIf (!isCustom m) bindTrap
      modify (fun s => s.setBind ctx (m.toNat - 0xC0) 0)) s

/-- The words of pages from a context-space offset on. -/
def pageRun (ps : List Page) (off n : Nat) : List (BitVec 128) :=
  (List.range n).map (fun i => ((ps.find? (fun p => p.slot == (off + i) / 512)).map (fun p => tget 0 p.words ((off + i) % 512))).getD 0)

/-- A word of the ROM, which uses only encodings that R283 accepts (R296). -/
def romWord (n : Nat) : BitVec 128 := if (refused (Config.rom n)).isSome then 0 else Config.rom n

/-- WCSRD (R300): ROM words, or words of loaded slots. -/
def execWcsrd (g : Guard) (a b : Src) (n : BitVec 8) (s : State) : Host.Outcome State Fault Refusal :=
  issueNext g (fun u => do
    ensure u [.scalar a, .scalar b]
    let p ← readScalar u a
    let ma ← readScalar u b
    let c := n.toNat + 1
    let dst ← csArea u p.toInt (16 * c)
    let ws ← if ma.toNat + c ≤ 0x2000 then pure ((List.range c).map (fun i => romWord (ma.toNat + i)))
      else do
        trapIf (decide (ma.toNat < 0x2000 ∨ 0x3000 < ma.toNat + c)) (csTrap 4)
        let off := ma.toNat - 0x2000
        let ctx ← getCtx u
        let x := (← get).ctx? ctx
        trapIf ((slotsOf off c).any (fun n => !((x.map (fun x => x.slotOk n)).getD false))) (csTrap 4)
        let ps ← (slotsOf off c).mapM (needPage u)
        pure (pageRun ps off c)
    watch u dst (16 * c) false true
    modify (fun s => s.spadWrite u.core dst (fullMask (ws.flatMap (fun w => leBytes w.toNat 16))) false)) s

/-- The slots of a context on a core for which a test of the page holds, one bit each. -/
def Core.pageBits (k : Core) (ctx : Nat) (f : Page → Bool) : Nat :=
  (List.range 8).foldl (fun v n => v + (if ((k.page ctx n).map (fun q => f q.2)).getD false then 2 ^ n else 0)) 0

/-- What WSTAT delivers (R301). -/
def wstatVal (s : State) (c : Nat) (sel : BitVec 2) (b : Word) : Word :=
  let ctx := (s.jobAt c).ctx
  let x := s.ctx? ctx
  let k := s.core c
  if sel = 0 then tget 0 ((x.map (·.bind)).getD []) (b.toNat - 0xC0)
  else if sel = 1 then
    BitVec.ofNat 64 (((x.map (fun (x : Ctx) => x.slots)).getD 0).toNat + 256 * k.pageBits ctx (fun _ => true)
      + 65536 * k.pageBits ctx (fun p => p.pinned) + 2 ^ 24 * k.pageBits ctx (fun p => p.loading))
  else Config.romId

/-- WSTAT (R301). -/
def execWstat (g : Guard) (d : Dest) (b : Src) (sel : BitVec 2) (s : State) : Host.Outcome State Fault Refusal :=
  issueNext g (fun u => do
    needSpace u d
    let v ← if sel = 0 then do
        ensure u [.scalar b]
        readScalar u b
      else pure 0
    trapIf (sel == 0 && !isCustom v) bindTrap
    deliver u d (wstatVal (← get) u.core sel v)) s

end Sys2Proof.Machine
end

