-- ==== Sys2Proof/Machine/Launch.lean ====
section
/-!
DEFINITION. Launch: reading and checking records, the ready pool, hand-out of chunks, the start and the end of jobs, and the other records (R137, R140 to R146, R152, R349 to R367).
-/

namespace Sys2Proof.Machine

/-! ### Records (R352 to R356) -/

/-- A check that fails with a status. -/
def failIf (c : Bool) (status : Nat) : List Nat := if c then [status] else []

/-- The status of a record: the lowest-numbered failing check, or 0 (R356). -/
def lowest : List Nat → Nat
  | [] => 0
  | x :: xs => if lowest xs = 0 then x else min x (lowest xs)

/-- Entry address of a stream (R353). -/
def Rec.entryOf (r : Rec) (x : Strm) : Nat := r.field (8 + 8 * strmNum x) 8
/-- N. -/
def Rec.range (r : Rec) : Nat := r.field 40 8
/-- CHUNK. -/
def Rec.chunkLen (r : Rec) : Nat := r.field 48 4
/-- STAGE. -/
def Rec.stage (r : Rec) : Nat := r.field 52 1 % 64
/-- SCR, in ways of 16 KiB. -/
def Rec.scr (r : Rec) : Nat := r.field 53 1
/-- CLU, in steps of 384 KiB. -/
def Rec.clu (r : Rec) : Nat := r.field 54 1 % 64
/-- LEASE. -/
def Rec.leaseBit (r : Rec) : Bool := (r.field 55 1).testBit 0
/-- REISSUE. -/
def Rec.reissue (r : Rec) : Bool := (r.field 55 1).testBit 1
/-- MAXRD. -/
def Rec.maxrd (r : Rec) : Nat := r.field 56 4
/-- CORES. -/
def Rec.cores (r : Rec) : Nat := r.field 60 2
/-- DIES. -/
def Rec.dies (r : Rec) : Nat := r.field 64 8
/-- ARGP. -/
def Rec.argp (r : Rec) : Nat := r.field 80 8
/-- TDP. -/
def Rec.tdp (r : Rec) : Nat := r.field 88 8
/-- NTD. -/
def Rec.ntd (r : Rec) : Nat := r.field 96 1
/-- FSB. -/
def Rec.fsbAddr (r : Rec) : Nat := r.field 104 8

/-- OFF and SIZE of GWi in 4 KiB units (R353). -/
def Rec.window (r : Rec) (i : Nat) : Nat × Nat := (r.field (72 + 2 * i) 1, r.field (73 + 2 * i) 1)

/-- The declared gallery windows (R353). -/
def Rec.windows (r : Rec) : List (Nat × Nat) := ((List.range 4).map r.window).filter (fun w => w.2 != 0)

/-- Chunks of the record (R362). -/
def Rec.total (r : Rec) : Nat := if r.chunkLen = 0 then 0 else (r.range + r.chunkLen - 1) / r.chunkLen

/-- Do two of the windows overlap? -/
def overlapping : List (Nat × Nat) → Bool
  | [] => false
  | w :: ws => ws.any (fun v => decide (w.1 < v.1 + v.2 ∧ v.1 < w.1 + w.2)) || overlapping ws

/-- The header's must-be-0 bytes (R352). -/
def Rec.headBad (r : Rec) : Bool := r.field 1 1 / 32 != 0 || r.field 2 2 != 0

/-- The failing checks of an OPERATOR record in a partition of n dies, but for its declarations (R353, R356). -/
def Rec.operatorChecks (r : Rec) (n : Nat) : List Nat :=
  failIf (r.headBad || r.field 52 1 / 64 != 0 || r.field 54 1 / 64 != 0 || r.field 55 1 / 4 != 0 || r.field 62 2 != 0
      || r.field 97 7 != 0 || r.field 112 16 != 0 || decide (2 ^ 48 ≤ r.range)) 0x01
    ++ failIf (decide (18 < r.scr)) 0x21
    ++ failIf (overlapping r.windows) 0x22
    ++ failIf (decide (32 < r.clu) || r.windows.any (fun w => decide (16 < w.2 ∨ r.scr * 4 < w.1 + w.2))) 0x23
    ++ failIf (r.cores == 0 || r.dies == 0 || decide (2 ^ n ≤ r.dies)) 0x24
    ++ failIf (r.chunkLen == 0 || r.maxrd == 0 || decide (65536 < r.maxrd) || allStrms.any (fun x => r.entryOf x % 4 != 0)
        || r.argp % 64 != 0 || r.tdp % 16 != 0 || r.fsbAddr % 32 != 0) 0x25
    ++ failIf (decide (8 < r.ntd)) 0x26

/-- The declarations in their bytes, where all are valid (R354). -/
def declsOf (bs : List Byte) (n : Nat) : Option (List (Nat × Nat × Bool)) :=
  (List.range n).mapM (fun i =>
    let e := (bs.drop (16 * i)).take 16
    let base := byteField e 0 8
    let len := byteField e 8 4
    let rw := byteField e 12 1
    if 2 ^ 56 ≤ base ∨ len = 0 ∨ rw = 0 ∨ 4 ≤ rw ∨ byteField e 13 3 ≠ 0 then none else some (base, len, rw.testBit 1))

/-- The failing checks of a COLLECTIVE record (R355). -/
def Rec.collectiveBad (r : Rec) : Bool :=
  let b42 := r.field 42 1
  r.headBad || r.field 16 8 == 0 || decide (2 ^ 40 < r.field 16 8) || decide (64 ≤ r.field 40 1)
    || !([0, 1, 2, 8, 12, 13].contains (r.field 41 1)) || b42 % 4 == 3 || b42 / 4 % 8 == 7 || decide (64 ≤ b42)
    || r.field 43 1 != 0 || r.field 44 2 == 0 || decide (4096 < r.field 44 2) || r.field 46 2 == 0 || decide (4096 < r.field 46 2)
    || r.field 48 80 != 0

/-- The failing checks of a WAIT record. -/
def Rec.waitBad (r : Rec) : Bool :=
  r.headBad || r.field 8 8 % 8 != 0 || r.field 24 8 != 0 || decide (2 ≤ r.field 32 1) || r.field 33 95 != 0

/-- The failing checks of a SIGNAL record. -/
def Rec.signalBad (r : Rec) : Bool := r.headBad || r.field 8 8 % 8 != 0 || r.field 24 104 != 0

/-- The failing checks of a TILETAB record. -/
def Rec.tiletabBad (r : Rec) : Bool :=
  r.headBad || r.field 8 8 % 64 != 0 || decide (65536 < r.field 16 8) || r.field 24 104 != 0

/-- The failing checks of a CSIMAGE record, but for its entries. -/
def Rec.csimageBad (r : Rec) : Bool :=
  r.headBad || r.field 8 8 % 65536 != 0 || r.field 16 8 % 8 != 0 || decide (64 < r.field 24 8) || r.field 33 95 != 0

/-- The failing checks of an RSLOT record (R355). -/
def Rec.rslotBad (r : Rec) : Bool :=
  let b := r.field 8 1
  let n := r.field 16 8
  r.headBad || b / 64 % 2 != 0 || r.field 9 7 != 0 || r.field 24 104 != 0 || decide (n < 2 ∨ 4096 < n)

/-! ### Reading the rings (R350, R351, R461) -/

/-- The event that reads a record of a TYPE; a reserved TYPE is read like an operator's. -/
def recordEvent (type q : Nat) : Instr :=
  match type with
  | 2 => .collectiveRecord q
  | 3 => .waitRecord q
  | 4 => .signalRecord q
  | 5 => .tiletabRecord q
  | 6 => .csimageRecord q
  | 7 => .rslotRecord q
  | _ => .operatorRecord q

/-- Is a record of the queue available, its ring open and its context not stopped (R350, R372, R409)? -/
def State.queueReady (s : State) (q : Queue) : Bool :=
  q.head != q.tail && q.susp.isNone && !q.closed &&
    match s.ctx? q.ctx with
    | some x => (x.status = .live || x.status = .held) && !s.closed x.part
    | none => false

/-- Address of the ring slot that is read next. -/
def Queue.slotAddr (q : Queue) : Nat := q.subr + 128 * (q.head.toNat % 2 ^ q.k)

/-- A read that the front end makes for a ring fails: a missing translation suspends the reading of the ring (R461). -/
def State.queueFault (s : State) (qi : Nat) (e : AccFault) : State :=
  match s.queue? qi with
  | none => s
  | some q =>
    let (s, ix) := s.frontTrap q.ctx qi e
    if e.cause = 0x05 then s.modQueue qi (fun q => { q with susp := some (suspOf e ix) }) else s

/-- The front end turns to the next record of a ring. -/
def State.readNext (s : State) (qi : Nat) : State :=
  match s.queue? qi with
  | none => s
  | some q =>
    if !s.queueReady q then s
    else
      let (s, r) := s.frontRead q.ctx q.slotAddr 1
      match r with
      | .error e => s.queueFault qi e
      | .ok bs => s.postOnce (s.now + 1) (recordEvent (leNat bs) qi)

/-- Does a record entered now depend on a record of its ring that failed while it stood unread (R357, R360)? -/
def Queue.badPred (q : Queue) (r : Rec) : Bool := q.bad.any (fun e => e.2.dep r)

/-- A record is entered and HEAD advances (R351); with a status it completes at once (R356), and so does one with a failed
predecessor (R360). -/
def State.enterRec (s : State) (qi : Nat) (r : Rec) (status : Nat) : State :=
  let rid := s.nextRec
  let status := if status = 0 && ((s.queue? qi).map (·.badPred r)).getD false then 0x31 else status
  let r := { r with state := if status = 0 then r.state else .done (BitVec.ofNat 8 status), after := s.hasPred rid r }
  let s : State := { s with recs := tput none s.recs rid (some r), nextRec := rid + 1 }
  let s := s.modQueue qi (fun q => { q with head := BitVec.ofNat 16 ((q.head.toNat + 1) % 2 ^ q.k), bad := q.badNext })
  let s := if status = 0 then s.wakeRecs qi else s.postOnce (s.now + 1) (.recordCompletion rid)
  s.readNext qi

/-- A read that the front end makes while it checks a record fails: the ring waits for a missing translation, and otherwise the
record completes with 0x32 (R461). -/
def State.checkFault (s : State) (qi : Nat) (r : Rec) (e : AccFault) : State :=
  let s := s.queueFault qi e
  if e.cause = 0x05 then s else s.enterRec qi r 0x32

/-- The record whose bytes were read at the head of a ring (R352). -/
def Queue.headRec (q : Queue) (qi : Nat) (bs : List Byte) : Rec :=
  let r : Rec := { queue := qi, idx := q.head.toNat % 2 ^ q.k, bytes := BitVec.ofNat 1024 (leNat bs), state := .waiting, prio := 0,
                   irq := false, decls := [], fsb := 0, bind := [], next := 0, running := [], returned := [], reissued := 0,
                   lost := false, order := 0, info := 0, susp := none }
  let b1 := r.field 1 1
  { r with prio := if b1.testBit 3 then q.prio else BitVec.ofNat 3 b1, irq := b1.testBit 4 }

/-- Read the record at the head of a ring; `body` checks and enters it. -/
def State.readRec (s : State) (qi type : Nat) (body : Queue → Rec → State → State) : State :=
  match s.queue? qi with
  | none => s
  | some q =>
    if !s.queueReady q then s
    else
      let (s, t) := s.frontRead q.ctx q.slotAddr 128
      match t with
      | .error e => s.queueFault qi e
      | .ok bs =>
        let r := q.headRec qi bs
        if r.type = type then body q r s
        else if r.type = 0 ∨ 7 < r.type then s.enterRec qi r 0x01
        else s.postOnce (s.now + 1) (recordEvent r.type qi)

/-- OPERATOR: the record is checked, and its declarations and format-state block are read (R353, R354, R356). -/
def State.readOperator (s : State) (qi : Nat) : State :=
  s.readRec qi 1 (fun q r s =>
    let part := ((s.ctx? q.ctx).map (·.part)).getD 0
    let st := lowest (r.operatorChecks (s.partDies part))
    if st ≠ 0 then s.enterRec qi r st
    else
      let (s, d) := s.frontRead q.ctx r.tdp (16 * r.ntd)
      match d with
      | .error e => s.checkFault qi r e
      | .ok bs =>
        match declsOf bs r.ntd with
        | none => s.enterRec qi r 0x26
        | some ds =>
          let (s, f) := if r.fsbAddr = 0 then (s, Except.ok (List.replicate 96 0)) else s.frontRead q.ctx r.fsbAddr 96
          match f with
          | .error e => s.checkFault qi r e
          | .ok fs => s.enterRec qi { r with decls := ds, fsb := BitVec.ofNat 768 (leNat fs) } 0)

/-- OPERATOR_RECORD (R353). -/
def execOperatorRecord (q : Nat) (s : State) : Host.Outcome State Fault Refusal := event (·.readOperator q) s

/-- A record that is checked by its bytes alone. -/
def State.readPlain (s : State) (qi type : Nat) (chk : Rec → Bool) : State :=
  s.readRec qi type (fun _ r s => s.enterRec qi r (if chk r then 0x01 else 0))

/-- COLLECTIVE_RECORD (R355). -/
def execCollectiveRecord (q : Nat) (s : State) : Host.Outcome State Fault Refusal := event (·.readPlain q 2 Rec.collectiveBad) s

/-- WAIT_RECORD (R355). -/
def execWaitRecord (q : Nat) (s : State) : Host.Outcome State Fault Refusal := event (·.readPlain q 3 Rec.waitBad) s

/-- SIGNAL_RECORD (R355). -/
def execSignalRecord (q : Nat) (s : State) : Host.Outcome State Fault Refusal := event (·.readPlain q 4 Rec.signalBad) s

/-- TILETAB_RECORD (R355). -/
def execTiletabRecord (q : Nat) (s : State) : Host.Outcome State Fault Refusal := event (·.readPlain q 5 Rec.tiletabBad) s

/-- RSLOT_RECORD (R355). -/
def execRslotRecord (q : Nat) (s : State) : Host.Outcome State Fault Refusal := event (·.readPlain q 7 Rec.rslotBad) s

/-- CSIMAGE: the binding table is read when the record is checked (R355). -/
def State.readCsimage (s : State) (qi : Nat) : State :=
  s.readRec qi 6 (fun q r s =>
    if r.csimageBad then s.enterRec qi r 0x01
    else
      let n := r.field 24 8
      let (s, t) := s.frontRead q.ctx (r.field 16 8) (8 * n)
      match t with
      | .error e => s.checkFault qi r e
      | .ok bs =>
        let es : List Word := (List.range n).map (fun i => BitVec.ofNat 64 (byteField bs (8 * i) 8))
        if es.any (fun e => !bindOk e) then s.enterRec qi r 0x01 else s.enterRec qi { r with bind := es } 0)

/-- CSIMAGE_RECORD (R355). -/
def execCsimageRecord (q : Nat) (s : State) : Host.Outcome State Fault Refusal := event (·.readCsimage q) s

/-- A write of TAIL makes records available (R350). -/
def State.kickAt (s : State) (fn q : Nat) (tail : BitVec 16) : State :=
  match s.queues.find? (fun e => (e.2.map (fun x => x.fn == fn && x.q == q)).getD false) with
  | some (qi, _) => (s.modQueue qi (fun x => { x with tail := BitVec.ofNat 16 (tail.toNat % 2 ^ x.k) })).readNext qi
  | none => s

/-- KICK (R350). -/
def execKick (fn q : Nat) (tail : BitVec 16) (s : State) : Host.Outcome State Fault Refusal := event (·.kickAt fn q tail) s

/-! ### The ready pool (R357, R358, R361, R362) -/

/-- The context of a record. -/
def State.recCtx (s : State) (r : Rec) : Nat := ((s.queue? r.queue).map (·.ctx)).getD 0

/-- The partition of a record. -/
def State.recPart (s : State) (r : Rec) : Nat := ((s.ctx? (s.recCtx r)).map (·.part)).getD 0

/-- A record without an incomplete predecessor enters the pool (R358). -/
def State.recReady (s : State) (rid : Nat) : State :=
  match s.rec? rid with
  | none => s
  | some r =>
    if r.state = .waiting && !s.hasPred rid r then
      let (o, s) := s.newId
      (s.modRec rid (fun r => { r with state := .ready, order := o })).postOnce (s.now + 1) (.chunkHandout (s.recPart r))
    else s

/-- RECORD_READY (R358). -/
def execRecordReady (rec : Nat) (s : State) : Host.Outcome State Fault Refusal := event (·.recReady rec) s

/-- The core set of an operator: module core numbers (R353). -/
def Rec.coreSet (r : Rec) (part : Nat) : List Nat :=
  ((List.range 64).filter (fun d => r.dies.testBit d)).flatMap (fun d =>
    ((List.range 16).filter (fun n => r.cores.testBit n)).map (fun n => 16 * (part + d) + n))

/-- Bytes of a cluster-region step. -/
def cluStep : Nat := 393216

/-- A base in a bay at which a region of n steps overlaps no other (R146). -/
def Bay.fit (b : Bay) (n : Nat) : Option Nat :=
  ((List.range (33 - n)).map (fun i => i * cluStep)).find? (fun a =>
    !b.regions.any (fun g => decide (g.base < a + n * cluStep ∧ a < g.base + g.size)))

/-- Does a bay hold the record's region, or has it room for one? -/
def State.bayHolds (s : State) (bay rid n : Nat) : Bool :=
  n == 0 || ((s.bay bay).region rid).isSome || ((s.bay bay).fit n).isSome

/-- Can a core take a chunk of a record (R362, R363)? -/
def State.canTake (s : State) (rid : Nat) (r : Rec) (c : Nat) : Bool :=
  let k := s.core c
  !(s.die (coreDie c)).fenced && k.shadow.isNone && k.gangIdle.isNone && s.bayHolds (coreBay c) rid r.clu

/-- Allot the record's region in a bay (R146). -/
def State.allotRegion (s : State) (bay rid ctx n : Nat) : State :=
  if n = 0 ∨ ((s.bay bay).region rid).isSome then s
  else
    match (s.bay bay).fit n with
    | none => s
    | some a => s.modBay bay (fun b => { b with regions := b.regions ++ [{ rid := rid, ctx := ctx, base := a, size := n * cluStep, fresh := true }] })

/-- The saved job that a chunk placed on a core resumes (R376). -/
def State.savedJob (s : State) (ctx rid chunk c : Nat) : Option Saved :=
  (s.ctx? ctx).bind (fun x => x.saved.find? (fun v => v.rid == rid && v.chunk == chunk && v.core == c))

/-- The event that starts the chunk in a core's shadow bank: a restore where its job is saved. -/
def State.startEvent (s : State) (c : Nat) (l : Launch) : Instr :=
  let ctx := ((s.rec? l.rid).map s.recCtx).getD 0
  if (s.savedJob ctx l.rid l.chunk c).isSome then .contextRestore c else .jobStart c

/-- Write a chunk into a core's shadow bank (R363). -/
def State.placeAt (s : State) (rid : Nat) (r : Rec) (c : Nat) (l : Launch) : State :=
  let s := s.allotRegion (coreBay c) rid (s.recCtx r) r.clu
  let s := s.modCore c (fun k => { k with shadow := some l, startAt := none })
  let s := s.modRec rid (fun r => { r with state := .running, running := r.running ++ [(l.chunk, c)] })
  s.postOnce (s.now + 1) (s.startEvent c l)

/-- A fault that the front end meets for a record in the pool: a missing translation suspends the record, anything else stops the
context with the record started (R461). -/
def State.recFault (s : State) (rid : Nat) (e : AccFault) : State :=
  match s.rec? rid with
  | none => s
  | some r =>
    let s := if e.cause = 0x05 then s else s.modRec rid (fun r => { r with state := .running })
    let (s, ix) := s.frontTrap (s.recCtx r) r.queue e
    if e.cause = 0x05 then s.modRec rid (fun r => { r with susp := some (suspOf e ix) }) else s

/-- The words of an argument block. -/
def argWords (bs : List Byte) : Tbl Word :=
  (List.range 8).foldl (fun t i => tput 0 t i (BitVec.ofNat 64 (byteField bs (8 * i) 8))) []

/-- Read the argument block at hand-out (R363). -/
def State.readArgs (s : State) (r : Rec) : State × Except AccFault (Tbl Word) :=
  let (s, t) := s.frontRead (s.recCtx r) r.argp 64
  (s, t.map argWords)

/-- Hand out one chunk of an operator without windows: a returned chunk first, then the next one (R362, R364). -/
def State.handChunk (s : State) (rid : Nat) (r : Rec) : Option State :=
  let set := r.coreSet (s.recPart r)
  let back := r.returned.findSome? (fun l =>
    match l.core with
    | some c => if s.canTake rid r c then some (l, [c]) else none
    | none => let cs := set.filter (s.canTake rid r)
              if cs.isEmpty then none else some (l, cs))
  let pick := match back with
    | some (l, cs) => some (l, cs, true)
    | none =>
      let cs := set.filter (s.canTake rid r)
      if r.next < r.total && !r.lost && !cs.isEmpty then
        some (({ rid := rid, chunk := r.next, args := [], yielded := none, core := none } : Launch), cs, false)
      else none
  pick.map (fun p =>
    let (l, cs, old) := p
    let c := cs.getD (Config.placement s.free % cs.length) 0
    let s : State := { s with free := s.free + 1 }
    let (s, t) := s.readArgs r
    match t with
    | .error e => s.recFault rid e
    | .ok w =>
      let s := s.modRec rid (fun r =>
        if old then { r with returned := r.returned.filter (fun y => y.chunk != l.chunk) } else { r with next := r.next + 1 })
      s.placeAt rid r c { l with args := w })

/-- Gallery window slots in use on a die. -/
def Die.slotsUsed (d : Die) : Nat := (d.gangs.map (·.slots)).sum

/-- Start a gang of a record on a die: every member together, the returned chunks of the die or the next ones in ascending core
coordinate, the other members idle (R152). -/
def State.handGang (s : State) (rid : Nat) (r : Rec) (d : Nat) : Option State :=
  let ms := (r.coreSet (s.recPart r)).filter (fun c => coreDie c == d)
  let w := r.windows.length
  let g := s.die d
  let own := r.returned.filter (fun l => (l.core.map coreDie) == some d)
  let loose := r.returned.filter (fun l => l.core.isNone)
  let fresh := if r.lost then 0 else r.total - r.next
  if ms.isEmpty || g.gangs.any (fun x => x.rid == rid) || decide (16 < g.slotsUsed + w) || !ms.all (s.canTake rid r)
      || (own.isEmpty && loose.isEmpty && fresh == 0) then none
  else
    let new : Nat → Launch := fun i => { rid := rid, chunk := r.next + i, args := [], yielded := none, core := none }
    let ls := loose ++ (List.range fresh).map new
    let jobs : List (Nat × Launch) := if own.isEmpty then ms.zip ls else own.map (fun l => (l.core.getD 0, l))
    let took := if own.isEmpty then jobs.length - min jobs.length loose.length else 0
    let gone := jobs.map (fun j => j.2.chunk)
    let (s, t) := s.readArgs r
    match t with
    | .error e => some (s.recFault rid e)
    | .ok wd =>
      let ctx := s.recCtx r
      let s := ms.foldl (fun s c => s.allotRegion (coreBay c) rid ctx r.clu) s
      let idle := ms.filter (fun c => !jobs.any (fun j => j.1 == c))
      let s := s.modDie d (fun x => { x with gangs := x.gangs ++ [{ rid := rid, slots := w, members := jobs.map (·.1), idle := idle }] })
      let s := idle.foldl (fun s c => s.modCore c (fun k => { k with gangIdle := some rid })) s
      let s := s.modRec rid (fun r => { r with next := r.next + took, returned := r.returned.filter (fun y => !gone.contains y.chunk) })
      some (jobs.foldl (fun s j => s.placeAt rid r j.1 { j.2 with args := wd }) s)

/-- Hand out from an operator record; one with N = 0 completes at once (R353, R356, R362). -/
def State.handOperator (s : State) (rid : Nat) (r : Rec) : Option State :=
  if r.total = 0 then some (s.recDone rid 0)
  else if r.windows.isEmpty then s.handChunk rid r
  else
    let ds := (List.range 64).map (fun d => s.recPart r + d)
    ds.findSome? (fun d => if (s.die d).fenced then none else s.handGang rid r d)

/-! ### The other records (R355) -/

/-- COLLECTIVE: the step program starts on its channel once no other collective runs there (R337, R355). -/
def State.startColl (s : State) (rid : Nat) (r : Rec) : Option State :=
  let ctx := s.recCtx r
  let ch := r.field 40 1 % 64
  match s.ctx? ctx with
  | none => none
  | some x =>
    if (x.chan ch).coll.isSome then none
    else
      let b42 := r.field 42 1
      let k : Coll := { rid := rid, buf := r.field 8 8, blen := r.field 16 8, fmt := r.field 41 1, comb := b42 % 4,
                        rnd := Rnd.ofCode (BitVec.ofNat 3 (b42 / 4)), prog := r.field 24 8, len := r.field 44 2, step := 0, num := none,
                        needSlot := b42.testBit 5, fallback := r.field 32 8, flen := r.field 46 2, waited := 0, lines := [],
                        susp := none, release := none }
      let s := s.modChan ctx ch (fun y => { y with coll := some k })
      some ((s.modRec rid (fun r => { r with state := .running })).kickStep ctx ch)

/-- The word a WAIT compares: it is read again every µs (R355). -/
def State.pollWait (s : State) (rid : Nat) : State :=
  match s.rec? rid with
  | none => s
  | some r =>
    if r.state = .running && r.type = 3 && r.susp.isNone then
      let (s, t) := s.frontRead (s.recCtx r) (r.field 8 8) 8
      match t with
      | .error e => s.recFault rid e
      | .ok bs =>
        let v := leNat bs
        let val := r.field 16 8
        if (if (r.field 32 1).testBit 0 then v == val else decide (val ≤ v)) then s.recDone rid 0
        else s.postOnce (s.now + usCycles 1) (.waitRecordPoll rid)
    else s

/-- WAIT_RECORD_POLL (R355). -/
def execWaitRecordPoll (rec : Nat) (s : State) : Host.Outcome State Fault Refusal := event (·.pollWait rec) s

/-- SIGNAL: a release at dom, then the store (R355, R359). -/
def State.doSignal (s : State) (rid : Nat) (r : Rec) : State :=
  let s := s.flushHomes
  let (s, t) := s.frontWrite (s.recCtx r) (r.field 8 8) (leBytes (r.field 16 8) 8)
  match t with
  | .error e => s.recFault rid e
  | .ok _ => s.recDone rid 0

/-- CSIMAGE: image base, slot map and binding table; every resident page of the context is invalidated (R289, R355). -/
def State.doCsimage (s : State) (rid : Nat) (r : Rec) : State :=
  let ctx := s.recCtx r
  let bind := r.bind.zipIdx.foldl (fun (t : Tbl Word) e => if e.1.getLsbD 12 then tput 0 t e.2 e.1 else t) []
  let s := s.modCtx ctx (fun x => { x with image := some (r.field 8 8), slots := BitVec.ofNat 8 (r.field 32 1), bind := bind })
  let drop := fun (p : Page) => if p.ctx = ctx then (if p.pinned then some { p with stale := true } else none) else some p
  let s : State := { s with cores := s.cores.map (fun e => (e.1, { e.2 with
    pages := e.2.pages.filterMap (fun q => (q.2.bind drop).map (fun p => (q.1, some p))) })) }
  let s := s.cores.foldl (fun s e => if (e.2.job.map (·.ctx)) = some ctx then s.kickLoader e.1 else s) s
  s.recDone rid 0

/-- RSLOT: a request or a release (R342, R355). -/
def State.doRslot (s : State) (rid : Nat) (r : Rec) : Option State :=
  let ctx := s.recCtx r
  let ch := r.field 8 1 % 64
  match s.ctx? ctx with
  | none => none
  | some x =>
    if (r.field 8 1).testBit 7 then some ((s.releaseSlot ctx ch).recDone rid 0)
    else
      match (x.chan ch).slot with
      | some v => some (s.recDone rid (slotWord v))
      | none =>
        if (x.chan ch).asking.isSome then none
        else some ((s.askSlot ctx ch (none, some rid)).modRec rid (fun r => { r with state := .running }))

/-- Start a record that is not an operator's, where it can start now (R355). -/
def State.startOther (s : State) (rid : Nat) (r : Rec) : Option State :=
  if r.state = .ready then
    match r.type with
    | 2 => s.startColl rid r
    | 3 => some ((s.modRec rid (fun r => { r with state := .running })).postOnce (s.now + 1) (.waitRecordPoll rid))
    | 4 => some (s.doSignal rid r)
    | 5 =>
      let ctx := s.recCtx r
      if ((s.ctx? ctx).map (fun x => !x.fires.isEmpty)).getD false then none
      else some ((s.setTiles ctx (r.field 8 8) (r.field 16 8)).recDone rid 0)
    | 6 => some (s.doCsimage rid r)
    | 7 => s.doRslot rid r
    | _ => none
  else none

/-! ### Hand-out (R361 to R364) -/

/-- Has a record in the pool something left to start? -/
def Rec.hasWork (r : Rec) : Bool :=
  r.state = .ready || (r.state = .running && r.type = 1 && (!r.returned.isEmpty || (decide (r.next < r.total) && !r.lost)))

/-- Does an exclusive profiling slice of another function bar the chunks of a function (R434)? -/
def State.barred (s : State) (part fn : Nat) : Bool :=
  match (s.pool part).prf with
  | some (f, _, ex, _) => ex && fn != f
  | none => false

/-- May a record start: its context is live, it is not suspended, and an exclusive slice is its holder's
(R362, R372, R434)? -/
def State.mayStart (s : State) (part : Nat) (r : Rec) : Bool :=
  r.susp.isNone && s.recPart r == part &&
    match s.ctx? (s.recCtx r) with
    | none => false
    | some x => x.status = .live && x.susp.isNone && x.yieldBy.isNone && (r.type != 1 || !s.barred part x.fn)

/-- May the newel hand out from a record now? -/
def State.mayHand (s : State) (part : Nat) (r : Rec) : Bool := r.hasWork && s.mayStart part r

/-- The rank of a record: priority, returned chunks, the record at the head, round-robin over the queues, readiness (R362, R364). -/
def State.rank (s : State) (part rid : Nat) (r : Rec) : List Nat :=
  let p := s.pool part
  [7 - r.prio.toNat,
   if r.returned.isEmpty then 1 else 0,
   if p.head = some rid then 0 else 1,
   (r.queue + 4096 - 1 - p.lastQueue % 4096) % 4096,
   r.order]

/-- Lexicographic order of ranks. -/
def rankLe : List Nat → List Nat → Bool
  | [], _ => true
  | _ :: _, [] => false
  | x :: xs, y :: ys => decide (x < y) || (x == y && rankLe xs ys)

/-- The records of a partition's pool in rank order: at most 1,024 are in the pool (R361). -/
def State.pooled (s : State) (part : Nat) : List (Nat × Rec) :=
  let rs := s.recs.filterMap (fun e => e.2.bind (fun r => if r.state = .ready ∨ r.state = .running then
    (if s.recPart r = part then some (e.1, r) else none) else none))
  let rs := (rs.mergeSort (fun a b => decide (a.2.order ≤ b.2.order))).take 1024
  (rs.filter (fun e => s.mayHand part e.2)).mergeSort (fun a b => rankLe (s.rank part a.1 a.2) (s.rank part b.1 b.2))

/-- The newel of a partition: the distributor of its lowest die until an election (R361, R366). -/
def State.newelOf (s : State) (part : Nat) : Nat := (s.pool part).newel.getD part

/-- Has no chunk of a record started? A chunk in a shadow bank has not (R363). -/
def State.unstarted (s : State) (rid : Nat) (r : Rec) : Bool :=
  r.running.all (fun e => ((s.core e.2).shadow.map (fun l => l.rid == rid && l.chunk == e.1)).getD false)

/-- Can no core of a record's core set start a job now: every one runs a job, or, for a gang, some member on every die does (R152, R363)? -/
def State.noneIdle (s : State) (r : Rec) : Bool :=
  let cs := (r.coreSet (s.recPart r)).filter (fun c => !(s.die (coreDie c)).fenced)
  if r.windows.isEmpty then cs.all (fun c => (s.core c).job.isSome)
  else cs.all (fun c => cs.any (fun d => coreDie d == coreDie c && (s.core d).job.isSome))

/-- The cores that run jobs of another context and keep a ready record from starting (R364). -/
def State.heldBy (s : State) (rid : Nat) (r : Rec) : List Nat :=
  if r.type = 1 && decide (0 < r.total) && s.unstarted rid r && s.noneIdle r then
    (r.coreSet (s.recPart r)).filter (fun c => match (s.core c).job with
      | some j => j.ctx != s.recCtx r && (s.core c).stopping.isNone
      | none => false)
  else []

/-- The operators of a partition that have entered the pool and have not completed, and which the newel may start (R362, R364). -/
def State.waiters (s : State) (part : Nat) : List (Nat × Rec) :=
  s.recs.filterMap (fun e => e.2.bind (fun r =>
    if (r.state = .ready ∨ r.state = .running) ∧ s.mayStart part r then some (e.1, r) else none))

/-- The cycle in which a core's job has run for longer than its queue's time slice (R364). -/
def State.sliceEnd (s : State) (c : Nat) : Nat :=
  let j := s.jobAt c
  j.since + usCycles (((s.queue? j.queue).map (·.slice)).getD 10000) + 1

/-- Hand out one piece of a record's work, where some of it can start (R355, R362). -/
def State.handFrom (s : State) (rid : Nat) (r : Rec) : Option State :=
  if r.type = 1 then s.handOperator rid r else s.startOther rid r

/-- The newel hands out one piece of work: it keeps to the record at the head, and goes on to a later one only where nothing of it can
start; where nothing can start, the slices of the cores in the way are watched (R362, R364). -/
def State.handOut (s : State) (part : Nat) : State :=
  if (s.die (s.newelOf part)).fenced then s
  else
    let rs := s.pooled part
    match rs.findSome? (fun e => (s.handFrom e.1 e.2).map (fun t => (e, t))) with
    | some (e, t) =>
      let t := if rs.head?.map (·.1) = some e.1 then t.modPool part (fun p => { p with head := some e.1, lastQueue := e.2.queue }) else t
      t.postOnce (t.now + 1) (.chunkHandout part)
    | none =>
      (s.waiters part).foldl (fun s e =>
        (s.heldBy e.1 e.2).foldl (fun s c => s.postOnce (max (s.now + 1) (s.sliceEnd c)) (.timeSliceExpiry c)) s) s

/-- CHUNK_HANDOUT (R362). -/
def execChunkHandout (part : Nat) (s : State) : Host.Outcome State Fault Refusal := event (·.handOut part) s

/-- Ask the job of a core to stop for a pre-emption, with the other members of its gang (R152, R364, R375). -/
def State.preemptCore (s : State) (c : Nat) : State :=
  match (s.core c).job with
  | none => s
  | some j =>
    let gang := ((s.die (coreDie c)).gangs.find? (fun g => g.rid == j.rid)).map (·.members)
    (gang.getD [c]).foldl (fun s m =>
      s.modCore m (fun k => { k with stopping := if k.job.isSome then k.stopping.orElse (fun _ => some .preempt) else none })) s

/-- A time slice is over: where a record still waits for the core, its job is pre-empted (R364). -/
def State.sliceOver (s : State) (c : Nat) : State :=
  match (s.core c).job with
  | none => s
  | some j =>
    let part := ((s.ctx? j.ctx).map (·.part)).getD 0
    if decide (s.sliceEnd c ≤ s.now) && (s.core c).stopping.isNone && (s.waiters part).any (fun e => (s.heldBy e.1 e.2).contains c) then
      s.preemptCore c
    else s

/-- TIME_SLICE_EXPIRY (R364). -/
def execTimeSliceExpiry (core : Nat) (s : State) : Host.Outcome State Fault Refusal := event (·.sliceOver core) s

/-! ### Starting a job (R141, R142, R146, R152, R363) -/

/-- No granule of 16 bytes that starts in a range stays marked uncorrectable: its bytes are written (R158). -/
def clearBad (t : Tbl Bool) (a b : Nat) : Tbl Bool := t.filter (fun e => decide (e.1 * 16 < a ∨ b ≤ e.1 * 16))

/-- The partition of a core's array changes for a job of a context: the cycles that zero filling takes. The lines in the ways that are
taken are written back and dropped (R141, R142). -/
def State.prepCore (s : State) (c ctx ways : Nat) : State × Nat :=
  let k := s.core c
  let other := k.lastCtx != some ctx && k.lastCtx.isSome
  let old := k.ways
  let drop := fun (s : State) (p : L1Line → Bool) =>
    let s := (s.core c).l1.foldl (fun s l => if p l then s.writeBack c 5 l else s) s
    s.modCore c (fun k => { k with l1 := k.l1.filter (fun l => !p l) })
  let s :=
    if other then drop s (fun _ => true)
    else if old < ways then drop s (fun l => decide (l.way < ways))
    else s
  let s := s.modCore c (fun k => { k with
    ways := ways
    fe := []
    feOld := []
    spad := if other then [] else clearRange k.spad (min old ways * 16384) (20 * 16384)
    spadBad := if other then [] else clearBad k.spadBad (min old ways * 16384) (20 * 16384)
    tags := if other || old != ways then [] else k.tags })
  (s, if other then 16 * ways else if old < ways then 16 * (ways - old) else 0)

/-- The observation registers of a core pass to a context: another context's are kept with it (R428, R436). -/
def State.obsFor (s : State) (c ctx : Nat) : State :=
  let o := (s.core c).obs
  if o.ctx = ctx then s
  else
    let s := s.modCtx o.ctx (fun x => { x with obs := tput {} x.obs c o })
    let mine := ((s.ctx? ctx).map (fun x => tget {} x.obs c)).getD {}
    let s := s.modCtx ctx (fun x => { x with obs := tput {} x.obs c {} })
    s.modCore c (fun k => { k with obs := { mine with ctx := ctx } })

/-- The start state of a stream (R97, R363, R380). -/
def startStrm (entry first count : Nat) (args : Tbl Word) (back : Option (Option VAddr)) : Stream :=
  let e : VAddr := BitVec.ofNat 56 entry
  let x : Stream := { pc := e, entry := e, s := tput 0 (tput 0 [] 0 (BitVec.ofNat 64 first)) 1 (BitVec.ofNat 64 count), a := args }
  match back with
  | none => x
  | some (some a) => { x with pc := a }
  | some none => { x with exited := true }

/-- The job that a chunk starts (R26, R29, R31, R353, R363). -/
def State.newJob (s : State) (c : Nat) (r : Rec) (l : Launch) : Job :=
  let part := s.recPart r
  let first := r.chunkLen * l.chunk
  let count := min r.chunkLen (r.range - first)
  let gw := (List.range 4).foldl (fun (t : Tbl Word) i =>
    let w := r.window i
    if w.2 = 0 then t else tput 0 t i (BitVec.ofNat 64 (2 ^ 63 + r.cores * 2 ^ 32 + w.2 * 2 ^ 16 + w.1))) []
  let word := fun (i : Nat) => r.fsb.extractLsb' (32 * i) 32
  let st := fun (x : Strm) => startStrm (r.entryOf x) first count l.args (l.yielded.map (fun y => y.getD (strmNum x) none))
  { emptyJob with
    ctx := s.recCtx r, queue := r.queue, rid := l.rid, chunk := l.chunk
    first := BitVec.ofNat 64 first, count := BitVec.ofNat 64 count
    die := BitVec.ofNat 64 (coreDie c - part), stage := BitVec.ofNat 6 r.stage, lease := r.leaseBit, maxrd := r.maxrd
    gwin := gw, cpsz := r.clu * cluStep
    ft := (List.range 16).foldl (fun t i => tput 0 t i (ftBits (word i))) []
    fd := (List.range 8).foldl (fun t i => tput 0 t i (fdBits ((word (16 + i)).setWidth 64))) []
    sc := st .sc, ld := st .ld, cx := st .cx, st := st .st, since := s.now }

/-- A starting job comes after the records that completed before: the clocks of every die join its die's. The L1 lines of its context pass
to it unchanged (R142), but where its record waited for a predecessor no clean byte stays, since its jobs see what that wrote (R359). -/
def State.seeCompleted (s : State) (c : Nat) (after : Bool) : State :=
  let clk := s.dies.foldl (fun t d => clkJoin t d.2.clock) []
  let s := s.modDie (coreDie c) (fun d => { d with clock := clkJoin d.clock clk })
  if after then s.l1Acquire c .dom true else s

/-- A job takes its core (R29, R290, R359, R363); a debug stop that waits for it holds it at once (R438). -/
def State.runJob (s : State) (c : Nat) (j : Job) : State :=
  let s := (s.obsFor c j.ctx).seeCompleted c (((s.rec? j.rid).map (·.after)).getD false)
  let s := s.modCore c (fun k => { k with job := some j, shadow := none, startAt := none, lastCtx := some j.ctx, stopping := none })
  let s := s.kickLoader c
  let s := s.postOnce (s.now + 1) (.chunkHandout (((s.ctx? j.ctx).map (·.part)).getD 0))
  match s.ctx? j.ctx with
  | some x =>
    if x.dbgWait then
      (s.modCtx j.ctx (fun x => { x with dbgWait := false, dbgHeld := true, status := if x.status = .live then .held else x.status })).modCore
        c (fun k => { k with stopping := some .hold })
    else s
  | none => s

/-- Are all writes that a core sent applied at their homes? -/
def State.coreQuiet (s : State) (c : Nat) : Bool := s.bases.all (fun b => b.2.reqs.all (fun r => r.core != c))

/-- The cores that start together with a core: its gang's, or itself alone (R152). -/
def State.startGroup (s : State) (c rid : Nat) : List Nat :=
  match (s.die (coreDie c)).gangs.find? (fun g => g.rid == rid) with
  | some g => g.members ++ g.idle
  | none => [c]

/-- Is a core free for the chunk in its shadow bank, or idle in its gang? -/
def State.coreFree (s : State) (rid c : Nat) : Bool :=
  (s.core c).job.isNone && (((s.core c).shadow.map (·.rid)) == some rid || (s.core c).gangIdle == some rid)

/-- May the chunk in a core's shadow bank start now: its context is live and every core of its gang is free (R152, R362)? -/
def State.startable (s : State) (c : Nat) : Option (Launch × Rec) :=
  match (s.core c).shadow with
  | none => none
  | some l =>
    match s.rec? l.rid with
    | none => none
    | some r =>
      let live := match s.ctx? (s.recCtx r) with
        | some x => x.status = .live && x.susp.isNone && x.yieldBy.isNone && !s.barred x.part x.fn
        | none => false
      if live && (s.startGroup c l.rid).all (s.coreFree l.rid) && !(s.die (coreDie c)).fenced then some (l, r) else none

/-- The region of a record in a bay is filled at the record's first start there: with zeros, or with what was saved of it (R146). The
cycles this takes, at 4 KiB per cycle. -/
def State.fillRegion (s : State) (bay rid ctx : Nat) : State × Nat :=
  match (s.bay bay).region rid with
  | none => (s, 0)
  | some g =>
    if !g.fresh then (s, 0)
    else
      let old := (s.ctx? ctx).bind (fun x => x.savedRegions.find? (fun v => v.bay == bay && v.rid == rid))
      let put := fun (m : Memory) => ((old.map (·.mem)).getD []).foldl (fun m e => writeByte m (g.base + e.1) e.2) m
      let s := s.modBay bay (fun b => { b with
        mem := put (clearRange b.mem g.base (g.base + g.size))
        memBad := ((old.map (·.bad)).getD []).foldl (fun t e => tput false t (g.base / 16 + e.1) e.2)
          (clearBad b.memBad g.base (g.base + g.size))
        regions := b.regions.map (fun v => if v.rid = rid then { v with fresh := false } else v) })
      (s.modCtx ctx (fun x => { x with savedRegions := x.savedRegions.filter (fun v => !(v.bay == bay && v.rid == rid)) }), g.size / 4096)

/-- Prepare the cores that start together: the cycle in which they start. A new cluster region is filled with zeros at 4 KiB per
cycle (R141, R142, R146). -/
def State.prepGroup (s : State) (r : Rec) (rid : Nat) (cs : List Nat) : State :=
  let ctx := s.recCtx r
  let (s, d) := cs.foldl (fun (p : State × Nat) c =>
    let (s, n) := p.1.prepCore c ctx r.scr
    let (s, m) := s.fillRegion (coreBay c) rid ctx
    (s, max p.2 (max n m))) (s, 0)
  cs.foldl (fun s c => s.modCore c (fun k => { k with startAt := some (s.now + d) })) s

/-- Does the chunk in a core's shadow bank resume a saved job (R376)? -/
def State.restores (s : State) (c : Nat) : Bool :=
  match (s.core c).shadow with
  | none => false
  | some l => (s.savedJob (((s.rec? l.rid).map s.recCtx).getD 0) l.rid l.chunk c).isSome

/-- JOB_START: the chunk in the shadow bank swaps in, after the partition change and the zero fill (R141, R142, R363). -/
def State.startAt (s : State) (c : Nat) : State :=
  match s.startable c with
  | none => s
  | some (l, r) =>
    let cs := s.startGroup c l.rid
    if cs.any (s.restores) then s
    else match (s.core c).startAt with
    | none =>
      let s := s.prepGroup r l.rid cs
      s.postOnce (max (s.now + 1) (((s.core c).startAt).getD 0)) (.jobStart c)
    | some t =>
      if decide (t ≤ s.now) && cs.all s.coreQuiet then
        cs.foldl (fun s c => match (s.core c).shadow with
          | some l => s.runJob c (s.newJob c r l)
          | none => s.modCore c (fun k => { k with startAt := none, lastCtx := some (s.recCtx r) })) s
      else s.postOnce (max (s.now + 1) t) (.jobStart c)

/-- JOB_START (R363). -/
def execJobStart (core : Nat) (s : State) : Host.Outcome State Fault Refusal := event (·.startAt core) s

/-! ### The end of a job and of a record (R137, R359, R360, R365, R367) -/

/-- Is a record's last chunk done (R359, R365)? -/
def State.settleRec (s : State) (rid : Nat) : State :=
  match s.rec? rid with
  | none => s
  | some r =>
    if r.type = 1 ∧ r.state = .running ∧ r.running = [] ∧ r.returned = [] ∧ (r.lost ∨ r.total ≤ r.next) then
      (s.modRec rid (fun r => { r with state := .done (if r.lost then 0x30 else 0), info := BitVec.ofNat 64 r.reissued })).postOnce
        (s.now + 1) (.recordCompletion rid)
    else s

/-- The five conditions of job completion, a tile fire being a command of its counter (R137, R187, R341), with every trace record written; a job with a yielded stream does not
complete (R380). -/
def State.jobDone (s : State) (c : Nat) : Bool :=
  let k := s.core c
  match k.job with
  | none => false
  | some j =>
    allStrms.all (fun x => let v := j.strm x
      v.exited && v.log.isEmpty && v.returned.isEmpty && v.yielded.isNone && v.susp.isNone)
      && j.micro.isNone && j.redl.isEmpty && j.adv.isEmpty && j.ce.chains.all (·.notified) && !j.ce.trapped
      && k.arr.isEmpty && k.frags.isEmpty && k.wcsld.isNone && k.obs.buf.isEmpty
      && ((s.ctx? j.ctx).map (·.fires.all (fun f => !(f.rid == j.rid && f.chunk == j.chunk)))).getD true

/-- JOB_COMPLETION: a release at mod, the queues and the lease go, the distributor hears of it (R137). -/
def State.completeJob (s : State) (c : Nat) : State :=
  match (s.core c).job with
  | none => s
  | some j =>
    if !s.jobDone c then s
    else
      let s := s.release c 5 .mod
      let s := (s.leaveGang c j.rid).clearJob c
      let s := s.modRec j.rid (fun r => { r with running := r.running.filter (fun e => e.1 != j.chunk) })
      let s := ((s.settleRec j.rid).settleYield j.ctx).finishStop j.ctx
      s.postOnce (s.now + 1) (.chunkHandout (((s.ctx? j.ctx).map (·.part)).getD 0))

/-- JOB_COMPLETION (R137). -/
def execJobCompletion (core : Nat) (s : State) : Host.Outcome State Fault Refusal := event (·.completeJob core) s

/-- RECORD_COMPLETION: a release at dom, which waits for what other modules still have to acknowledge where the record has started, then the completion
entry (R185, R359, R367). -/
def State.completeRec (s : State) (rid : Nat) : State :=
  match s.rec? rid with
  | none => s
  | some r =>
    match r.state with
    | .done st =>
      if r.susp.isSome then s
      else if (st = 0 ∨ st = 0x30 ∨ st = 0x32) && s.remote.any (fun o => o.ctx == s.recCtx r) then
        s.postOnce (s.now + 1) (.recordCompletion rid)
      else s.finishRec rid st.toNat r.infoNow
    | _ => s

/-- RECORD_COMPLETION (R367). -/
def execRecordCompletion (rec : Nat) (s : State) : Host.Outcome State Fault Refusal := event (·.completeRec rec) s

end Sys2Proof.Machine
end

