-- ==== Sys2Proof/Machine/Context.lean ====
section
/-!
DEFINITION. Pre-emption, context images and restore, yield deadlines, fault replies, fences and elections, and the errors of the hardware (R20, R365, R366, R371 to R386, R393, R461).
-/

namespace Sys2Proof.Machine

/-! ### The stop of a core (R375) -/

/-- Has a stream reached its stop point, or can it issue nothing (R375)? -/
def Stream.still (x : Stream) : Bool := x.exited || x.stopped || x.trapped || x.susp.isSome

/-- Does a chain keep CX, and with it the other streams, issuing (R244)? -/
def Job.chainOpen (j : Job) : Bool := j.co && !j.cx.trapped && !j.cx.exited

/-- Does a routine's feed span, its end or a reserved push keep CX from stopping (R295)? -/
def Job.microBusy (j : Job) : Bool :=
  (j.micro.map (fun m => (m.feed && !j.cx.trapped) || m.ending.isSome
    || (!j.cx.trapped && j.cx.susp.isNone && j.vqCx.any (fun e => match e with | .resv _ => true | .full _ => false)))).getD false

/-- Has a stream that stands still performed every access it logged, so far as it can? A suspended or trapped one keeps the others, which
are saved with it (R374, R375). -/
def Stream.logDone (x : Stream) : Bool := x.susp.isSome || x.trapped || x.log.all (fun e => !e.op.own)

/-- Has every unit of a core stopped (R210, R375)? -/
def State.stopDone (s : State) (c : Nat) : Bool :=
  let k := s.core c
  match k.job with
  | none => false
  | some j =>
    k.stopping.isSome && allStrms.all (fun x => (j.strm x).still && (j.strm x).returned.isEmpty && (j.strm x).logDone)
      && !j.chainOpen && !j.microBusy && j.redl.isEmpty && j.ready.all (fun e => decide (e.2 ≤ s.now))
      && k.wcsld.isNone && k.obs.buf.isEmpty && k.arr.isEmpty && k.frags.all (fun f => !f.flying && !f.nb)
      && j.ce.flight.isNone && j.ce.unacked.isEmpty && !s.galleries.any (fun g => g.src == c || g.members.contains c)

/-- Write back every dirty byte of a context in the L1 of a core (R375). -/
def State.flushCtx (s : State) (c ctx : Nat) : State :=
  let ds := (s.core c).l1.filter (fun l => l.ctx == ctx && l.db != 0)
  let s := ds.foldl (fun s l => s.writeBack c 5 l) s
  s.modCore c (fun k => { k with l1 := k.l1.map (fun l => if l.ctx = ctx then { l with db := 0 } else l) })

/-- A stream as it is saved: nothing fetched, no wait, no block buffered. -/
def Stream.saved (x : Stream) : Stream :=
  { x with fetched := none, wait := none, qwait := 0, m := x.m.map (fun e => (e.1, e.2.map (fun r => { r with buf := [] }))) }

/-- A job as it is saved: its streams, with LH in place of the grant, and nothing of the staging rows (R265, R280, R377). -/
def Job.saved (j : Job) (held : Bool) : Job :=
  let j := j.unsample
  { j with
    lh := held || j.lh, cxFirst := none
    micro := j.micro.map (fun m => { m with stageA := [], stageB := [], feed := false })
    sc := j.sc.saved, ld := j.ld.saved, cx := j.cx.saved, st := j.st.saved
    ce := { j.ce with wait := none } }

/-! ### Images (R377, R378) -/

/-- The 64-byte header of an image (R377). -/
def Ctx.imgHead (x : Ctx) (ctx : Nat) : List Byte :=
  leBytes 0x4D495853 4 ++ leBytes 1 2 ++ leBytes x.imgJobs 2 ++ leBytes ctx 8 ++ leBytes x.kslot 2 ++ leBytes 0 2
    ++ leBytes x.saveCtr 12 ++ leBytes x.clen 8 ++ leBytes Config.romId.toNat 8 ++ leBytes 0 16

/-- The image that stands in the save area, with the sealed regions (R146, R377). -/
def Ctx.imgBytes (x : Ctx) (ctx : Nat) : List Byte :=
  x.imgHead ctx ++ (List.range x.imgLen).map (Config.sealByte ctx x.saveCtr)

/-- Write the image of a context (R377, R378, R461): the counter is incremented first, and an image that does not fit, an exhausted
counter or a write that cannot be made tears the context down. The length of the ciphertext is open: it holds a context section and a
section of at most 469,760 bytes for each job. -/
def State.writeImage (s : State) (ctx : Nat) : State :=
  match s.ctx? ctx with
  | none => s
  | some x =>
    let (n, s) := s.drawNat
    let (n, s) := x.saved.foldl (fun (r : Nat × State) _ => let (m, s) := r.2.drawNat; (r.1 + m % 469761, s)) (n, s)
    let regs := (x.savedRegions.map (fun v => v.size + 16)).sum
    let y : Ctx := { x with saveCtr := x.saveCtr + 1, imgJobs := x.saved.length, clen := n, imgLen := n + 16 + regs, imgDue := false
                            imgKey := tget 0 s.tenantVer x.kslot }
    if 2 ^ 96 ≤ y.saveCtr ∨ x.savesz * 4096 < 64 + y.imgLen then
      let (e, s) := s.drawWord
      s.teardown ctx 5 e
    else
      let (s, w) := s.frontWrite ctx x.savea (y.imgBytes ctx)
      match w with
      | .ok _ => s.modCtx ctx (fun _ => y)
      | .error e =>
        if e.cause = 0x05 then
          let (s, ix) := s.frontTrap ctx 0 e
          s.modCtx ctx (fun x => { x with susp := some (suspOf e ix) })
        else s.areaLost ctx e.va

/-- When every job of a record in a bay has been pre-empted, its region is saved with the context and freed (R146). -/
def State.saveRegion (s : State) (bay rid : Nat) : State :=
  if s.cores.any (fun e => e.1 / 4 == bay && ((e.2.job.map (·.rid)) == some rid || (e.2.shadow.map (·.rid)) == some rid)) then s
  else
    match (s.bay bay).region rid with
    | none => s
    | some g =>
      let m := ((s.bay bay).mem.filter (fun e => decide (g.base ≤ e.1 ∧ e.1 < g.base + g.size))).map (fun e => (e.1 - g.base, e.2))
      let bad := ((s.bay bay).memBad.filter (fun e => decide (g.base ≤ 16 * e.1 ∧ 16 * e.1 < g.base + g.size))).map
        (fun e => (e.1 - g.base / 16, e.2))
      let s := s.modBay bay (fun b => { b with regions := b.regions.filter (fun v => v.rid != rid) })
      s.modCtx g.ctx (fun x => { x with savedRegions := x.savedRegions ++ [{ bay := bay, rid := rid, size := g.size, mem := m, bad := bad }] })

/-- Is a core still stopping a job of the context? -/
def State.ctxStopping (s : State) (ctx : Nat) : Bool :=
  s.cores.any (fun e => e.2.stopping.isSome && (e.2.job.map (·.ctx)) == some ctx)

/-- The job of a core is saved, its chunk returns to the pool and the core is free (R364, R375 to R377). -/
def State.saveJob (s : State) (c : Nat) (j : Job) : State :=
  let s := s.flushCtx c j.ctx
  let k := s.core c
  let held := (s.bay (coreBay c)).holder == some (c % 4)
  let v : Saved := { core := c, job := (s.jobAt c).saved held, ways := k.ways, spad := k.spad, spadBad := k.spadBad, fe := k.fe, tags := k.tags
                     frags := k.frags, rid := j.rid, chunk := j.chunk }
  let s := s.modCtx j.ctx (fun x => { x with saved := x.saved ++ [v], imgDue := true })
  let s := s.modCore c (fun k => { k with frags := [], credits := 4 })
  let s := s.returnChunk j.rid { rid := j.rid, chunk := j.chunk, args := [], yielded := none, core := some c }
  ((s.leaveGang c j.rid).clearJob c).saveRegion (coreBay c) j.rid

/-- PREEMPTION_STOP_COMPLETE: every unit of the core has stopped. A job that has completed meanwhile completes instead (R382); the
image is written once every stopping core of the context has stopped (R375, R377). -/
def State.stopComplete (s : State) (c : Nat) : State :=
  match (s.core c).job with
  | none => s
  | some j =>
    if s.jobDone c then s.completeJob c
    else if !s.stopDone c then s
    else
      let part := ((s.ctx? j.ctx).map (·.part)).getD 0
      let s := s.saveJob c j
      let s := if s.ctxStopping j.ctx then s else s.writeImage j.ctx
      ((s.finishStop j.ctx).settleYield j.ctx).postOnce (s.now + 1) (.chunkHandout part)

/-- PREEMPTION_STOP_COMPLETE (R375). -/
def execPreemptionStopComplete (core : Nat) (s : State) : Host.Outcome State Fault Refusal := event (·.stopComplete core) s

/-! ### Restore (R376, R378) -/

/-- A refused image: an error record of type 8, and teardown (R378). -/
def State.imageRefused (s : State) (ctx : Nat) : State :=
  let (e, s) := s.drawWord
  (s.error 8 11 0 0 (((s.ctx? ctx).map (·.savea)).getD 0) ctx 0).teardown ctx 5 e

/-- A refusal reply makes the issuer raise 0x06 (R371). -/
def refusedAt (v : Susp) (late : Bool) : Trap :=
  { cause := 0x06, detail := BitVec.ofNat 64 v.va, faddr := BitVec.ofNat 64 v.va, late := late }

/-- The kept accesses of a stream are performed from the next cycle on, also where it has exited (R374). -/
def State.kickLog (s : State) (c : Nat) (x : Strm) : State :=
  let v := s.strmAt c x
  if v.susp.isNone && v.log.any (fun e => e.op.own) then s.postOnce (s.now + 1) (.memoryAccessPerformed c x) else s

/-- A stream goes on after a translation fault: it repeats the access, from its log where the fault was late (R371, R374), or raises
0x06, in a routine as the routine (R287). -/
def State.resumeStrm (s : State) (c : Nat) (x : Strm) (refuse : Bool) : State :=
  let v := s.strmAt c x
  match v.susp with
  | none => s
  | some w =>
    let s := s.modStrm c x (fun v => { v with susp := none })
    if !refuse then s.kickLog c x
    else
      let u := s.waitSlot c x
      match (if x = .cx && !w.late then (s.jobAt c).micro else none) with
      | some m => s.takeTrapOf c .micro (m.trap (refusedAt w false)) (some u)
      | none =>
        let e := if w.late then v.log.find? (fun e => e.op.own) else none
        s.takeTrapOf c (.stream x) (refusedAt w w.late) (some ((e.map (·.slot c x)).getD u))

/-- The copy engine goes on after a translation fault (R328, R371). -/
def State.resumeCopy (s : State) (c : Nat) (refuse : Bool) : State :=
  match (s.ceAt c).susp with
  | none => s
  | some w =>
    let s := s.modCe c (fun e => { e with susp := none })
    if refuse then s.takeTrapOf c .copy (refusedAt w false) none else s.ceResume c

/-- A saved job takes its core again; each unit continues from its saved point, and suspended accesses are retried or, where the host
refused, trapped (R371, R374, R376). -/
def State.loadJob (s : State) (c : Nat) (v : Saved) : State :=
  let strm := fun (x : Stream) => { x with stopped := false, trapped := false, wait := none, qwait := 0, replay := x.log.any (fun e => e.op.own) }
  let j0 := v.job
  let j : Job := { j0 with sc := strm j0.sc, ld := strm j0.ld, cx := strm j0.cx, st := strm j0.st, since := s.now
                           ce := { j0.ce with trapped := false, stopped := false } }
  let s := s.modCtx j.ctx (fun x => { x with saved := x.saved.filter (fun y => !(y.rid == v.rid && y.chunk == v.chunk)) })
  let s := s.runJob c j
  let s := s.modCore c (fun k => { k with ways := v.ways, spad := v.spad, spadBad := v.spadBad, fe := v.fe, feOld := v.fe, tags := v.tags
                                          credits := 4 - v.frags.length
                                          frags := v.frags.map (fun f => { f with bounced := false, flying := true }) })
  let s := v.frags.foldl (fun s f => s.post (s.now + 1) (.fragmentArrival f.id)) s
  let s := ((s.kickHeld j.ctx).progressAdv c).ceResume c
  let s := allStrms.foldl (fun s x => (List.range 8).foldl (fun s m =>
    match tget none (j.strm x).m m with
    | some r => if r.data then s.kickFetch c x (BitVec.ofNat 3 m) else s
    | none => s) s) s
  let s := allStrms.foldl (fun s x => s.resumeStrm c x ((((j.strm x).susp.bind (·.reply))).getD false)) s
  let s := allStrms.foldl (fun s x => s.kickLog c x) s
  s.resumeCopy c ((j.ce.susp.bind (·.reply)).getD false)

/-- The image of a context is read and checked (R378): an image whose bytes are not those that were sealed fails its tag. -/
def State.checkImage (s : State) (ctx : Nat) : State × Bool :=
  match s.ctx? ctx with
  | none => (s, false)
  | some x =>
    let want := x.imgBytes ctx
    let (s, r) := s.frontRead ctx x.savea want.length
    match r with
    | .ok bs => if bs = want ∧ x.imgKey = tget 0 s.tenantVer x.kslot then (s, true) else (s.imageRefused ctx, false)
    | .error e =>
      if e.cause = 0x05 then
        let (s, ix) := s.frontTrap ctx 0 e
        (s.modCtx ctx (fun x => { x with susp := some (suspOf e ix) }), false)
      else (s.imageRefused ctx, false)

/-- CONTEXT_RESTORE: the saved job of the chunk in a core's shadow bank is authenticated and loaded, with the other members of its gang
(R152, R376, R378). -/
def State.restoreAt (s : State) (c : Nat) : State :=
  match s.startable c with
  | none => s
  | some (l, r) =>
    let cs := s.startGroup c l.rid
    let ctx := s.recCtx r
    if !cs.any s.restores then s
    else if ((s.ctx? ctx).map (·.imgDue)).getD true then s.postOnce (s.now + 1) (.contextRestore c)
    else match (s.core c).startAt with
      | none =>
        let s := s.prepGroup r l.rid cs
        s.postOnce (max (s.now + 1) (((s.core c).startAt).getD 0)) (.contextRestore c)
      | some t =>
        if decide (t ≤ s.now) && cs.all s.coreQuiet then
          let (s, ok) := s.checkImage ctx
          if !ok then s
          else cs.foldl (fun s c => match (s.core c).shadow with
            | some l => (match s.savedJob ctx l.rid l.chunk c with
              | some v => s.loadJob c v
              | none => s.runJob c (s.newJob c r l))
            | none => s.modCore c (fun k => { k with startAt := none, lastCtx := some ctx })) s
        else s.postOnce (max (s.now + 1) t) (.contextRestore c)

/-- CONTEXT_RESTORE (R376). -/
def execContextRestore (core : Nat) (s : State) : Host.Outcome State Fault Refusal := event (·.restoreAt core) s

/-! ### Yield deadline (R379 to R381) -/

/-- Is the yield deadline of a context met: every stream of its jobs has acted a YIELD or exited? -/
def State.yieldMet (s : State) (ctx : Nat) : Bool :=
  s.cores.all (fun e => match e.2.job with
    | some j => j.ctx != ctx || allStrms.all (fun x => (j.strm x).exited || (j.strm x).yielded.isSome)
    | none => true)

/-- YIELD_DEADLINE: where the deadline passes unmet, every job that runs is pre-empted by the encrypted path (R381). -/
def State.deadline (s : State) (ctx : Nat) : State :=
  match s.ctx? ctx with
  | none => s
  | some x =>
    match x.yieldBy with
    | some t => if decide (t ≤ s.now) && !s.yieldMet ctx then s.askStop ctx .preempt else s
    | none => s

/-- YIELD_DEADLINE (R381). -/
def execYieldDeadline (ctx : Nat) (s : State) : Host.Outcome State Fault Refusal := event (·.deadline ctx) s

/-! ### Fault replies (R371, R415, R461) -/

/-- A unit suspended on a translation fault. -/
inductive SuspAt where
  | strm (c : Nat) (x : Strm)
  | copy (c : Nat)
  | saved (i : Nat) (x : Option Strm)
  | frag (c id : Nat)
  | operand (n id : Nat)
  | delivery (id : Nat)
  | coll (ch : Nat)
  | record (rid : Nat)
  | queue (qi : Nat)
  | image
  deriving DecidableEq, Repr

/-- What is suspended of a job. -/
def Job.susps (j : Job) : List (Option Strm × Susp) :=
  allStrms.filterMap (fun x => (j.strm x).susp.map (fun v => (some x, v))) ++ (j.ce.susp.map (fun v => (none, v))).toList

/-- Everything of a context that is suspended on a translation fault. -/
def State.susps (s : State) (ctx : Nat) : List (SuspAt × Susp) :=
  match s.ctx? ctx with
  | none => []
  | some x =>
    s.cores.flatMap (fun e =>
      (match e.2.job with
        | some j => if j.ctx = ctx then j.susps.map (fun v => ((match v.1 with | some x => .strm e.1 x | none => .copy e.1), v.2)) else []
        | none => [])
      ++ e.2.frags.filterMap (fun f => if f.p.ctx = ctx then f.susp.map (fun v => (.frag e.1 f.id, v)) else none))
    ++ x.saved.zipIdx.flatMap (fun e => e.1.job.susps.map (fun v => (.saved e.2 v.1, v.2)))
    ++ s.allOps.filterMap (fun o => if o.p.ctx = ctx then o.susp.map (fun v => (.operand o.landing o.id, v)) else none)
    ++ s.deliveries.filterMap (fun d => if d.p.ctx = ctx then d.susp.map (fun v => (.delivery d.id, v)) else none)
    ++ x.chans.filterMap (fun h => (h.2.coll.bind (·.susp)).map (fun v => (.coll h.1, v)))
    ++ s.recs.filterMap (fun e => e.2.bind (fun r => if s.recCtx r = ctx then r.susp.map (fun v => (.record e.1, v)) else none))
    ++ s.queues.filterMap (fun e => e.2.bind (fun q => if q.ctx = ctx then q.susp.map (fun v => (.queue e.1, v)) else none))
    ++ (x.susp.map (fun v => (.image, v))).toList

/-- Change the suspension of a unit of a context. -/
def State.setSusp (s : State) (ctx : Nat) (l : SuspAt) (v : Option Susp) : State :=
  match l with
  | .strm c x => s.modStrm c x (fun y => { y with susp := v })
  | .copy c => s.modCe c (fun e => { e with susp := v })
  | .saved i x => s.modCtx ctx (fun k => { k with saved := k.saved.mapIdx (fun n y =>
      if n = i then { y with job := (match x with
        | some x => y.job.setStrm x { y.job.strm x with susp := v }
        | none => { y.job with ce := { y.job.ce with susp := v } }) } else y) })
  | .frag c id => s.setFrag c id (fun f => { f with susp := v })
  | .operand n id => s.setOp n id (fun o => some { o with susp := v })
  | .delivery id => s.setDel id (fun d => { d with susp := v })
  | .coll ch => s.modColl ctx ch (fun k => { k with susp := v })
  | .record rid => s.modRec rid (fun r => { r with susp := v })
  | .queue qi => s.modQueue qi (fun q => { q with susp := v })
  | .image => s.modCtx ctx (fun x => { x with susp := v })

/-- The record at the head of a ring, whose reading the host refused, completes with 0x32 where it can be read (R461). -/
def State.refuseHead (s : State) (qi va : Nat) : State :=
  match s.queue? qi with
  | none => s
  | some q =>
    if decide (q.slotAddr ≤ va ∧ va < q.slotAddr + 128) then s
    else
      let (s, t) := s.frontRead q.ctx q.slotAddr 128
      match t with
      | .error _ => s
      | .ok bs => s.enterRec qi (q.headRec qi bs) 0x32

/-- A reply takes effect on a unit: a retry repeats its access, a refusal raises 0x06 (R371, R461). -/
def State.replyTo (s : State) (ctx : Nat) (l : SuspAt) (v : Susp) (refuse : Bool) : State :=
  let bad : AccFault := { cause := 0x06, detail := v.va, va := v.va }
  match l with
  | .strm c x => s.resumeStrm c x refuse
  | .copy c => s.resumeCopy c refuse
  | .saved .. => s.setSusp ctx l (some { v with reply := some refuse })
  | .frag c id =>
    if refuse then (s.frontTrap ctx 0 bad).1
    else (s.setFrag c id (fun f => { f with susp := none })).post (s.now + 1) (.fragmentArrival id)
  | .operand .. => if refuse then (s.frontTrap ctx 0 bad).1 else (s.setSusp ctx l none).settleLand ctx
  | .delivery id =>
    if refuse then (s.frontTrap ctx 0 bad).1
    else
      let s := s.setSusp ctx l none
      (match s.delAt id with
      | some d => if d.pending.isSome then s.post (s.now + 1) (.overflowReadback id)
          else if d.held.isSome then (s.settleLand ctx).postOnce (s.now + 1) (.landingDelivery id)
          else s.postOnce (s.now + 1) (.landingDelivery id)
      | none => s)
  | .coll ch =>
    let s := s.setSusp ctx l none
    if refuse then s.chanFault ctx ch bad
    else (match s.collAt ctx ch with
      | some (_, k) => (match k.word with
        | some w => s.postOnce (s.now + 1) (stepEvent (stepOp w) ctx ch)
        | none => s.kickStep ctx ch)
      | none => s)
  | .record rid =>
    let s := s.setSusp ctx l none
    if refuse then s.recFault rid bad
    else (match s.rec? rid with
      | some r => (match r.state with
        | .done _ => s.postOnce (s.now + 1) (.recordCompletion rid)
        | _ => (s.postOnce (s.now + 1) (.waitRecordPoll rid)).postOnce (s.now + 1) (.chunkHandout (s.recPart r)))
      | none => s)
  | .queue qi =>
    let s := s.setSusp ctx l none
    if refuse then (s.queueFault qi bad).refuseHead qi v.va else s.readNext qi
  | .image =>
    let due := ((s.ctx? ctx).map (·.imgDue)).getD false
    let s := s.setSusp ctx l none
    if refuse then (if due then s.areaLost ctx v.va else s.imageRefused ctx)
    else if due then s.writeImage ctx
    else s.postOnce (s.now + 1) (.chunkHandout (((s.ctx? ctx).map (·.part)).getD 0))

/-- FAULT_REPLY: the reply of FRCTX and FRPLY; ERR where it names no suspended record of a context that the function owns. A held context
records it, a stopped one drops it (R371, R415). -/
def State.faultReplyOf (s : State) (fn : Nat) : State :=
  let f := s.fn fn
  let ctx := f.frctx.toNat % 2 ^ 40
  let idx := f.frply.toNat % 2 ^ 32
  let refuse := f.frply.getLsbD 32
  let err := fun (s : State) (b : Bool) => s.modFn fn (fun f => { f with
    frply := (f.frply &&& 0x1FFFFFFFF#64) ||| (if b then 1#64 <<< 62 else 0) })
  match s.ctx? ctx with
  | none => err s true
  | some x =>
    match (s.susps ctx).find? (fun e => x.fn == fn && e.2.idx == idx) with
    | none => err s true
    | some (l, v) =>
      let s := err s false
      match x.status with
      | .live => s.replyTo ctx l v refuse
      | .held => s.setSusp ctx l (some { v with reply := some refuse })
      | _ => s

/-- FAULT_REPLY (R371). -/
def execFaultReply (fn : Nat) (s : State) : Host.Outcome State Fault Refusal := event (·.faultReplyOf fn) s

/-- A held context is resumed: it is live again, and the replies recorded meanwhile take effect, those of saved jobs at their restore
(R371, R372). -/
def State.resumeCtx (s : State) (ctx : Nat) : State :=
  let s := s.modCtx ctx (fun x => { x with status := .live, dbgHeld := false })
  let s := (s.susps ctx).foldl (fun s e =>
    match e.1, e.2.reply with
    | .saved .., _ => s
    | _, some r => s.replyTo ctx e.1 e.2 r
    | _, none => s) s
  s.postOnce (s.now + 1) (.chunkHandout (((s.ctx? ctx).map (·.part)).getD 0))

/-! ### Fences and elections (R20, R365, R366, R384) -/

/-- A chunk is lost with a die: it returns to run again from its start, or its record hands out no more (R365). -/
def State.loseChunk (s : State) (rid chunk : Nat) : State :=
  match s.rec? rid with
  | none => s
  | some r =>
    let run := r.running.filter (fun e => e.1 != chunk)
    let back := r.returned.filter (fun l => l.chunk != chunk)
    let s := s.modRec rid (fun r =>
      if r.reissue then { r with running := run, reissued := r.reissued + 1,
                                 returned := back ++ [{ rid := rid, chunk := chunk, args := [], yielded := none, core := none }] }
      else { r with running := run, returned := back, lost := true })
    let s := s.modCtx (s.recCtx r) (fun x => { x with saved := x.saved.filter (fun v => !(v.rid == rid && v.chunk == chunk)) })
    s.settleRec rid

/-- The lost chunks of a die: those that run or wait on its cores, and the saved or yielded ones that have to return there (R365,
R376). -/
def State.chunksOn (s : State) (d : Nat) : List (Nat × Nat) :=
  s.recs.flatMap (fun e => match e.2 with
    | some r => ((r.running.filter (fun v => coreDie v.2 == d)).map (fun v => (e.1, v.1)))
        ++ (r.returned.filter (fun l => (l.core.map coreDie) == some d)).map (fun l => (e.1, l.chunk))
    | none => [])

/-- The live distributors of a partition send their candidacies; which of them the arbiter has seen when it decides, 2,048 of its cycles
after the first, is open (R366). -/
def State.callElection (s : State) (part : Nat) : State :=
  let live := ((List.range (s.partDies part)).map (fun i => part + i)).filter (fun d => !(s.die d).fenced)
  if live.isEmpty || (s.pool part).decide_.isSome then s
  else
    let (i, s) := s.drawNat
    let first := live.getD (i % live.length) part
    let (seen, s) := live.foldl (fun (r : List Nat × State) d =>
      let (b, s) := r.2.drawBit
      (if b || d == first then r.1 ++ [d] else r.1, s)) ([], s)
    let (w, s) := s.drawNat
    let t := s.now + 1 + w % 16384 + 2048
    (s.modPool part (fun p => { p with cands := seen, decide_ := some t })).post t (.newelElection part)

/-- A compute die is fenced off its partition: its jobs end at once, its chunks are lost, and a new newel is elected if it held the
newel (R365, R366, R384). -/
def State.fenceDie (s : State) (d : Nat) : State :=
  if decide (64 ≤ d) || (s.die d).fenced then s
  else
    let part := (s.partOf d).1
    let lost := s.chunksOn d
    let ctxs := (List.range 16).filterMap (fun i => (s.core (16 * d + i)).job.map (·.ctx))
    let s := (List.range 16).foldl (fun s i => (s.clearJob (16 * d + i)).modCore (16 * d + i) (fun k => { k with
      shadow := none, startAt := none, gangIdle := none, l1 := [], frags := [], credits := 4 })) s
    let s := s.modDie d (fun x => { x with fenced := true, gangs := [], galWait := [] })
    let s : State := { s with
      galleries := s.galleries.filter (fun g => g.die != d)
      bays := s.bays.map (fun b => if b.1 / 4 = d then (b.1, { b.2 with regions := [] }) else b) }
    let s := lost.foldl (fun s e => s.loseChunk e.1 e.2) s
    let s := ctxs.foldl (fun s c => (s.settleYield c).finishStop c) s
    let s := if s.newelOf part = d then s.callElection part else s
    s.postOnce (s.now + 1) (.chunkHandout part)

/-- DIE_FENCE (R384). -/
def execDieFence (die : Nat) (s : State) : Host.Outcome State Fault Refusal := event (·.fenceDie die) s

/-- Do two dies share a grid boundary (R20)? -/
def adjacent (a b : Nat) : Bool :=
  decide (a < 64 ∧ b < 64) && ((a / 8 == b / 8 && (a + 1 == b || b + 1 == a)) || a + 8 == b || b + 8 == a)

/-- Does the route from one die to another cross the boundary between dies a and b, a the lower? Along the source's row first, then along the
destination's column (R20). -/
def routeCrosses (src dst a b : Nat) : Bool :=
  let passes := fun (x y p q : Nat) => decide ((x ≤ p ∧ q ≤ y) ∨ (y ≤ p ∧ q ≤ x))
  if a / 8 = b / 8 then src / 8 == a / 8 && passes (src % 8) (dst % 8) (a % 8) (b % 8)
  else dst % 8 == a % 8 && passes (src / 8) (dst / 8) (a / 8) (b / 8)

/-- Does traffic of a die within its partition need the boundary (R20)? -/
def State.needsBoundary (s : State) (a b d : Nat) : Bool :=
  let p := s.partOf d
  (List.range p.2).any (fun i => routeCrosses d (p.1 + i) a b)

/-- A grid boundary fails: it is reported, and the dies that hold it and those whose traffic needs it are fenced (R20, R384, R385). The
number in the record is open (log entry 58). DESIGN CHOICE (log entry 84): DIE names the lower of the two dies. -/
def State.boundaryFail (s : State) (x y : Nat) : State :=
  let a := min x y
  let b := max x y
  if !adjacent x y || s.failed.contains (a, b) then s
  else
    let (w, s) := s.drawNat
    let s : State := { s with failed := s.failed ++ [(a, b)] }
    let cut := (List.range 64).filter (fun d => s.needsBoundary a b d && d != a && d != b)
    (a :: b :: cut).foldl State.fenceDie (s.error 7 6 a (w % 112) 0 0 0)

/-- BOUNDARY_FAILURE (R20). -/
def execBoundaryFailure (dieA dieB : Nat) (s : State) : Host.Outcome State Fault Refusal := event (·.boundaryFail dieA dieB) s

/-- NEWEL_ELECTION: the lowest die among the candidacies seen wins, and hands out work again; the records keep their order of readiness
(R366). -/
def State.elect (s : State) (part : Nat) : State :=
  let p := s.pool part
  match p.decide_, p.cands with
  | some t, c :: cs =>
    if s.now < t then s
    else
      let win := cs.foldl min c
      let s := s.modPool part (fun p => { p with newel := some win, cands := [], decide_ := none })
      if (s.die win).fenced then s.callElection part else s.postOnce (s.now + 1) (.chunkHandout part)
  | _, _ => s

/-- NEWEL_ELECTION (R366). -/
def execNewelElection (part : Nat) (s : State) : Host.Outcome State Fault Refusal := event (·.elect part) s

/-! ### Errors of the hardware (R383, R385, R386, R393) -/

/-- ARCH_STATE_ERROR: an error that cannot be corrected in the state of a core's context tears it down, with an error record (R383). The
unit and place in the record are open. -/
def State.archError (s : State) (c : Nat) (detail : Word) : State :=
  match (s.core c).job with
  | none => s
  | some j =>
    let (u, s) := s.drawNat
    let (w, s) := s.drawNat
    (s.error 2 (u % 12) (coreDie c) w 0 j.ctx 0).teardown j.ctx 0 detail c

/-- ARCH_STATE_ERROR (R383). -/
def execArchStateError (core : Nat) (detail : Word) (s : State) : Host.Outcome State Fault Refusal := event (·.archError core detail) s

/-- HBM_UNCORRECTABLE: the line of the word is poisoned, with its UNIT (R385, R393); in a scratchpad its granule is marked (R158). -/
def State.poisonLine (s : State) (at_ : ErrAt) : State :=
  match at_ with
  | .hbm loc => if loc < 2 ^ 41 then { s with poison := tput 0 s.poison (loc / 128) 1 } else s
  | .cache loc => if loc < 2 ^ 41 then { s with poison := tput 0 s.poison (loc / 128) 2 } else s
  | .spad c off =>
    if c < 1024 ∧ off < (s.core c).spadSize then s.modCore c (fun k => { k with spadBad := tput false k.spadBad (off / 16) true }) else s
  | .cluster b off => if b < 256 ∧ off < 32 * cluStep then s.modBay b (fun y => { y with memBad := tput false y.memBad (off / 16) true }) else s

/-- HBM_UNCORRECTABLE (R393). -/
def execHbmUncorrectable (loc : ErrAt) (s : State) : Host.Outcome State Fault Refusal := event (·.poisonLine loc) s

/-- The base die that tracks the errors of a unit: an HBM row's, a memory-side cache bank's or a lane's own, else the one under the
compute die. -/
def trackBase (unit die : Nat) : Nat := if unit = 0 ∨ unit = 1 ∨ unit = 7 ∨ unit = 8 then die % 32 else die / 2 % 32

/-- CORRECTABLE_ERROR: counted in the sliding window of its location; a type 6 record is written when the count first exceeds the
threshold, once until it falls back, and carries bit 31 where the location had taken the place of a dropped one (R386). Every error
leaves a type 3 record (R385). -/
def State.correctable (s : State) (unit die loc addr : Nat) : State :=
  let b := trackBase unit die
  let key := loc + die * 2 ^ 32
  let win := s.ecwin * 1600000000
  let es := (s.base b).errs
  let old := es.find? (fun e => e.1 == unit && e.2.1 == key)
  let times := ((old.map (·.2.2.1)).getD []).filter (fun t => decide (s.now < t + win))
  let fell := decide (times.length ≤ s.ecthr)
  let n := times.length + 1
  let done := (old.map (·.2.2.2.1)).getD false && !fell
  let past := decide (s.ecthr < n)
  let rest := es.filter (fun e => !(e.1 == unit && e.2.1 == key))
  let took := (old.map (·.2.2.2.2)).getD (decide (4096 ≤ rest.length))
  let tell := past && !done
  let s := s.modBase b (fun x => { x with errs := ((unit, key, times ++ [s.now], done || past, took && !tell) :: rest).take 4096 })
  let s := s.error 3 unit die loc addr 0 n
  if tell then s.error 6 unit die loc addr 0 (n % 2 ^ 31 + took.toNat * 2 ^ 31) else s

/-- CORRECTABLE_ERROR (R386). -/
def execCorrectableError (unit : BitVec 8) (die : BitVec 16) (loc : BitVec 32) (addr : Word) (s : State) : Host.Outcome State Fault Refusal :=
  event (·.correctable unit.toNat die.toNat loc.toNat addr.toNat) s

end Sys2Proof.Machine
end

