-- ==== Sys2Proof/Machine/MainMem.lean ====
section
/-!
DEFINITION. Main memory's host-driven events: shoot-downs, migrations and hot rows (R399 to R405).
-/

namespace Sys2Proof.Machine

/-! ### Shoot-down (R399, R400) -/

/-- The contexts of a function. -/
def State.ctxsOf (s : State) (fn : Nat) : List (Nat × Ctx) :=
  s.ctxs.filterMap (fun e => e.2.bind (fun x => if x.fn = fn then some (e.1, x) else none))

/-- Does a cached entry translate a byte of a page of the named address spaces? No page means every byte. -/
def TlbEnt.hit (e : TlbEnt) (asids : List Nat) (page : Option (Nat × Nat)) : Bool :=
  asids.contains e.asid &&
    match page with
    | none => true
    | some (va, lg) => decide (e.va < va + 2 ^ lg ∧ va < e.va + 2 ^ e.lg)

/-- Does a cached entry name the frame of a physical line? -/
def TlbEnt.frames (e : TlbEnt) (pa : Nat) : Bool :=
  let f : Leaf := { pte := e.pte, lg := e.lg }
  f.pa e.va / 2 ^ e.lg == pa / 2 ^ e.lg

/-- Every cached entry of the module. -/
def State.tlbs (s : State) : List TlbEnt := s.cores.flatMap (fun e => e.2.tlb) ++ s.dies.flatMap (fun d => d.2.tlb)

/-- Which dirty lines of a core a shoot-down writes back: for a page, those in a frame that a dropped entry names, in whichever cache, and
those that no kept entry names; where only kept entries name it the range may still have translated to it, which is open (R400, log
entry 86). -/
def State.shotLines (s : State) (asids : List Nat) (page : Option (Nat × Nat)) (c : Nat) : State × List Nat :=
  let lost := s.tlbs.filter (fun t => t.hit asids page)
  let kept := s.tlbs.filter (fun t => asids.contains t.asid && !t.hit asids page)
  (s.core c).l1.foldl (fun (r : State × List Nat) (l : L1Line) =>
    if l.db = 0 ∨ !asids.contains (((r.1.ctx? l.ctx).map (·.asid)).getD 4096) then r
    else if page.isNone || lost.any (fun t => t.frames l.pa) || !kept.any (fun t => t.frames l.pa) then (r.1, l.pa :: r.2)
    else
      let (b, s) := r.1.drawBit
      (s, if b then l.pa :: r.2 else r.2)) (s, [])

/-- Drop the translations of the named range in every cache, and write back the dirty bytes held in the affected frames (R400). -/
def State.dropTlbs (s : State) (asids : List Nat) (page : Option (Nat × Nat)) : State :=
  let s := s.cores.foldl (fun s e =>
    let (s, ps) := s.shotLines asids page e.1
    let s := ((s.core e.1).l1.filter (fun l => ps.contains l.pa)).foldl (fun s l => s.writeBack e.1 5 l) s
    s.modCore e.1 (fun k => { k with l1 := k.l1.map (fun l => if ps.contains l.pa then { l with db := 0 } else l) })) s
  { s with
    cores := s.cores.map (fun e => (e.1, { e.2 with tlb := e.2.tlb.filter (fun t => !t.hit asids page) }))
    dies := s.dies.map (fun d => (d.1, { d.2 with tlb := d.2.tlb.filter (fun t => !t.hit asids page) })) }

/-- TSD_GO: a write of TSDCTL GO; refused with ERR, ignored while BUSY (R399, R400). -/
def State.tsdStart (s : State) (fn : Nat) : State :=
  let f := s.fn fn
  let w := f.tsdctl.toNat
  if f.tsd.isSome then s
  else
    let kind := w % 4
    let sz := w / 16 % 16
    let asid := w / 2 ^ 32 % 4096
    let own := (s.ctxsOf fn).map (fun e => e.2.asid)
    let err := fun (s : State) (b : Bool) => s.modFn fn (fun f => { f with
      tsdctl := (f.tsdctl &&& ~~~(1#64 <<< 62)) ||| (if b then 1#64 <<< 62 else 0) })
    if kind = 3 ∨ 12 ≤ sz ∨ (kind < 2 ∧ !own.contains asid) then err s true
    else
      let asids := if kind = 2 then own else [asid]
      let lg := szLog sz
      let page := if kind = 0 then some (f.tsdaddr.toNat / 2 ^ lg * 2 ^ lg, lg) else none
      let s := (err s false).dropTlbs asids page
      let done := (f.mig.map (fun m => decide (m.size ≤ 128 * m.copied))).getD false
      (s.modFn fn (fun f => { f with
        tsd := some asids, mig := f.mig.map (fun m => { m with asked := m.asked || done }) })).postOnce (s.now + 1) (.shootdownComplete fn)

/-- TSD_GO (R400). -/
def execTsdGo (fn : Nat) (s : State) : Host.Outcome State Fault Refusal := event (·.tsdStart fn) s

/-- Does a destination hold translated addresses? -/
def RowDst.isPhys : RowDst → Bool
  | .phys _ => true
  | _ => false

/-- Is any access of the address spaces that was translated before still on its way: a write to a home or to another module, a block in
flight, a row that an MRET will store (R400)? -/
def State.shotBusy (s : State) (asids : List Nat) : Bool :=
  let mine := fun (ctx : Nat) => asids.contains (((s.ctx? ctx).map (·.asid)).getD 4096)
  s.bases.any (fun b => b.2.reqs.any (fun r => asids.contains r.asid)) || s.remote.any (fun o => mine o.ctx)
    || s.cores.any (fun e => match e.2.job with
      | some j => mine j.ctx && ((j.ce.flight.map (fun f => f.1.isPhys)).getD false || e.2.arr.any (fun a => match a.kind with
          | .mret _ _ _ _ rows _ => rows.any RowDst.isPhys
          | _ => false))
      | none => false)

/-- SHOOTDOWN_COMPLETE: BUSY clears once nothing translated before is on its way (R400). -/
def State.tsdEnd (s : State) (fn : Nat) : State :=
  match (s.fn fn).tsd with
  | none => s
  | some asids =>
    if s.shotBusy asids then s.postOnce (s.now + 1) (.shootdownComplete fn)
    else s.modFn fn (fun f => { f with tsd := none, mig := f.mig.map (fun m => { m with shot := m.shot || m.asked }) })

/-- Is an access of a context that was torn down still on its way (R400)? -/
def State.endingBusy (s : State) (ctx asid : Nat) : Bool := s.shotBusy [asid] || s.remote.any (fun o => o.ctx == ctx)

/-- The shoot-down of a teardown is complete, and the CTX_DESTROY that asked for it is answered with status 0 (R400, R413). -/
def State.destroyEnd (s : State) (fn : Nat) : State :=
  match (s.fn fn).ending with
  | none => s
  | some (ctx, asid) =>
    if s.endingBusy ctx asid then s.postOnce (s.now + 1) (.shootdownComplete fn)
    else s.modFn fn (fun f => { f with ending := none, mres := 0 })

/-- SHOOTDOWN_COMPLETE (R400). -/
def execShootdownComplete (fn : Nat) (s : State) : Host.Outcome State Fault Refusal := event (fun s => (s.tsdEnd fn).destroyEnd fn) s

/-! ### Migration (R401 to R404) -/

/-- RES of MIGCTL. -/
def State.migRes (s : State) (fn res : Nat) : State :=
  s.modFn fn (fun f => { f with migctl := (f.migctl &&& 0xF#64) ||| BitVec.ofNat 64 (res * 2 ^ 59) })

/-- The partition a function migrates in: its own; the physical function's is the one that owns the frame. -/
def State.migPart (s : State) (fn pa : Nat) : Option Nat :=
  if fn = 0 then some (s.partOfLocal (paLocal pa)).1 else (s.fn fn).part

/-- Do two ranges of LOCAL overlap? -/
def rangesMeet (a n b m : Nat) : Bool := decide (a < b + m ∧ b < a + n)

/-- MIG_START: accepted in state idle, with both frames valid, free of other migrations, and an engine free (R402). -/
def State.migBegin (s : State) (fn : Nat) : State :=
  let f := s.fn fn
  let sz := f.migctl.toNat % 16
  let n := 2 ^ szLog sz
  let a := f.migsrc.toNat
  let b := f.migdst.toNat
  let la := paLocal a
  let lb := paLocal b
  let running := s.fns.filterMap (fun e => e.2.mig)
  let fits := fun (pa : Nat) => paMod pa == s.ownMod && pa % n == 0 &&
    match s.migPart fn a with
    | some p => s.physOk p pa && s.physOk p (pa + n - 1)
    | none => false
  if f.mig.isSome then s.migRes fn 4
  else if 9 < sz ∨ !fits a ∨ !fits b ∨ rangesMeet la n lb n ∨ running.any (fun m =>
      [paLocal m.src, paLocal m.dst].any (fun x => rangesMeet la n x m.size || rangesMeet lb n x m.size)) then s.migRes fn 2
  else if 8 ≤ running.length then s.migRes fn 1
  else
    ((s.migRes fn 0).modFn fn (fun f => { f with mig := some { src := a, srcKey := paKey a, dst := b, dstKey := paKey b, size := n
                                                               copied := 0, asked := false, shot := false } })).postOnce
      (s.now + 1) (.migrationCopy fn)

/-- MIG_START (R402). -/
def execMigStart (fn : Nat) (s : State) : Host.Outcome State Fault Refusal := event (·.migBegin fn) s

/-- MIGRATION_COPY: the next line, indivisibly, to the new frame; poison is carried, with an error record of CTX 0 (R403). -/
def State.migLine (s : State) (fn : Nat) : State :=
  match (s.fn fn).mig with
  | none => s
  | some m =>
    if m.size ≤ 128 * m.copied then s
    else
      let lo := paLocal m.src + 128 * m.copied
      let ln := paLocal m.dst + 128 * m.copied
      let s := s.watchHome m.srcKey lo 128 false 0
      let x := (List.range 128).map (fun i => s.homeByte m.srcKey (lo + i))
      let bad := s.isBad lo
      let s := s.watchHome m.dstKey ln 128 true 0
      let s := s.homePut m.dstKey ln (fullMask x)
      let s : State := { s with
        poison := tput 0 s.poison (ln / 128) (tget 0 s.poison (lo / 128))
        lineClk := tput [] s.lineClk (ln / 128) (clkJoin (tget [] s.lineClk (ln / 128)) (tget [] s.lineClk (lo / 128))) }
      let s := if bad then s.lineError 2 lo lo 0 else s
      let m' := { m with copied := m.copied + 1 }
      let s := s.modFn fn (fun f => { f with mig := some m' })
      if m'.size ≤ 128 * m'.copied then s else s.postOnce (s.now + 1) (.migrationCopy fn)

/-- MIGRATION_COPY (R403). -/
def execMigrationCopy (fn : Nat) (s : State) : Host.Outcome State Fault Refusal := event (·.migLine fn) s

/-- MIG_END: in state copied, after a shoot-down asked for since (R404). -/
def State.migFinish (s : State) (fn : Nat) : State :=
  match (s.fn fn).mig with
  | none => s.migRes fn 4
  | some m =>
    if 128 * m.copied < m.size then s.migRes fn 4
    else if !m.shot then s.migRes fn 3
    else (s.migRes fn 0).modFn fn (fun f => { f with mig := none })

/-- MIG_END (R404). -/
def execMigEnd (fn : Nat) (s : State) : Host.Outcome State Fault Refusal := event (·.migFinish fn) s

/-- MIG_ABORT: in state copying (R404). -/
def State.migStop (s : State) (fn : Nat) : State :=
  match (s.fn fn).mig with
  | none => s.migRes fn 4
  | some m => if 128 * m.copied < m.size then (s.migRes fn 0).modFn fn (fun f => { f with mig := none }) else s.migRes fn 4

/-- MIG_ABORT (R404). -/
def execMigAbort (fn : Nat) (s : State) : Host.Outcome State Fault Refusal := event (·.migStop fn) s

/-! ### Hot rows (R405) -/

/-- Cycles of a refresh window of 32 ms. -/
def refreshWindow : Nat := usCycles 32000

/-- The time of the last activation of a throttled key on a bank, where it is throttled. -/
def Base.throttle? (b : Base) (bank key : Nat) : Option Nat :=
  (b.throttled.find? (fun t => t.1 == bank && t.2.1 == key)).map (·.2.2)

/-- ROW_ACTIVATION: counted by row; the key whose activation reaches the threshold is throttled on the bank, where it activates at most
once every 2 µs. An activation that the throttle holds back does not take place (R405, R430). -/
def State.activate (s : State) (base bank row key : Nat) : State :=
  let b := s.base base
  match b.throttle? bank key with
  | some t =>
    if s.now < t + usCycles 2 then s.countMod 0x0203 (fun q => if q % 16 = key then 1 else 0)
    else s.modBase base (fun b => { b with
      acts := bump b.acts bank row
      throttled := b.throttled.map (fun v => if v.1 = bank ∧ v.2.1 = key then (bank, key, s.now) else v) })
  | none =>
    let acts := bump b.acts bank row
    let n := ((acts.find? (fun a => a.1 == bank && a.2.1 == row)).map (·.2.2)).getD 0
    s.modBase base (fun b => { b with
      acts := acts
      throttled := if n = s.hrthr then b.throttled ++ [(bank, key, s.now)] else b.throttled })
where
  /-- One more activation of a row. -/
  bump (l : List (Nat × Nat × Nat)) (bank row : Nat) : List (Nat × Nat × Nat) :=
    match l with
    | [] => [(bank, row, 1)]
    | x :: xs => if x.1 = bank ∧ x.2.1 = row then (bank, row, x.2.2 + 1) :: xs else x :: bump xs bank row

/-- ROW_ACTIVATION (R405). -/
def execRowActivation (base bank row : Nat) (key : BitVec 4) (s : State) : Host.Outcome State Fault Refusal :=
  event (fun s => if base < 32 then s.activate base bank row key.toNat else s) s

/-- REFRESH_WINDOW_END: counts and throttles of the base die are cleared (R405). -/
def State.windowEnd (s : State) (base : Nat) : State := s.modBase base (fun b => { b with acts := [], throttled := [] })

/-- REFRESH_WINDOW_END (R405). -/
def execRefreshWindowEnd (base : Nat) (s : State) : Host.Outcome State Fault Refusal := event (·.windowEnd base) s

end Sys2Proof.Machine
end

