-- ==== Sys2Proof/Machine/Observe.lean ====
section
/-!
DEFINITION. Profiling leases, debug stops, trace records, the governor and the noise sources' health (R234, R420 to R427, R432, R434, R437, R438).
-/

namespace Sys2Proof.Machine

/-! ### Profiling lease (R432, R434) -/

/-- The dies of a partition. -/
def State.diesOf (s : State) (part : Nat) : List Nat := (List.range (s.partDies part)).map (fun i => part + i)

/-- An exclusive slice begins: the jobs of other functions' contexts on the partition are pre-empted (R434). -/
def State.beginExclusive (s : State) (part fn : Nat) : State :=
  s.cores.foldl (fun s e =>
    match e.2.job with
    | some j => if (s.partOf (coreDie e.1)).1 = part ∧ s.ctxFn j.ctx ≠ fn then s.preemptCore e.1 else s
    | none => s) s

/-- The lease of a partition ends, and the holder's counters are discarded (R432). -/
def State.endLease (s : State) (part : Nat) : State :=
  let s := s.modPool part (fun p => { p with prf := none })
  ((s.diesOf part).foldl (fun s d => s.modDie d (fun x => { x with lease := {} })) s).postOnce (s.now + 1) (.chunkHandout part)

/-- SLICE of PRFCTL. -/
def Fn.slice (f : Fn) : Nat := f.prfctl.toNat / 2 ^ 32 % 1024

/-- PRF_REQ: granted, or refused with REF (R434). A request of the holder changes nothing. -/
def State.leaseReq (s : State) (fn : Nat) : State :=
  let f := s.fn fn
  let ref := fun (s : State) (b : Bool) => s.modFn fn (fun f => { f with
    prfctl := (f.prfctl &&& ~~~(1#64 <<< 62)) ||| (if b then 1#64 <<< 62 else 0) })
  match f.part with
  | none => ref s true
  | some part =>
    if fn = 0 ∨ f.slice = 0 ∨ 1000 < f.slice then ref s true
    else
      match (s.pool part).prf with
      | some (h, _, _, _) => ref s (h != fn)
      | none =>
        let t := s.now + usCycles (1000 * f.slice)
        let s := (ref s false).modPool part (fun p => { p with prf := some (fn, f.slice, true, t) })
        let s := (s.diesOf part).foldl (fun s d => s.modDie d (fun x => { x with lease := {} })) s
        (s.beginExclusive part fn).post t (.profilingSliceEnd part)

/-- PRF_REQ (R434). -/
def execPrfReq (fn : Nat) (s : State) : Host.Outcome State Fault Refusal := event (·.leaseReq fn) s

/-- The lease that a function holds ends (R434). -/
def State.leaseRel (s : State) (fn : Nat) : State :=
  s.pools.foldl (fun s p =>
    match p.2.prf with
    | some (h, _, _, _) => if h = fn then s.endLease p.1 else s
    | none => s) s

/-- PRF_REL (R434). -/
def execPrfRel (fn : Nat) (s : State) : Host.Outcome State Fault Refusal := event (·.leaseRel fn) s

/-- PROFILING_SLICE_END: exclusive and shared slices alternate (R434). -/
def State.sliceSwap (s : State) (part : Nat) : State :=
  match (s.pool part).prf with
  | none => s
  | some (h, ms, ex, t) =>
    if s.now < t then s
    else
      let t' := s.now + usCycles (1000 * ms)
      let s := (s.modPool part (fun p => { p with prf := some (h, ms, !ex, t') })).post t' (.profilingSliceEnd part)
      let s := if ex then s else s.beginExclusive part h
      s.postOnce (s.now + 1) (.chunkHandout part)

/-- PROFILING_SLICE_END (R434). -/
def execProfilingSliceEnd (part : Nat) (s : State) : Host.Outcome State Fault Refusal := event (·.sliceSwap part) s

/-- FUNCTION_RESET: it ends a profiling lease of the function (R434). -/
def execFunctionReset (fn : Nat) (s : State) : Host.Outcome State Fault Refusal := event (·.leaseRel fn) s

/-! ### Debug stops (R438) -/

/-- The context that DBGCTL of a function names. -/
def State.dbgCtx (s : State) (fn : Nat) : Option Nat :=
  let q := (s.fn fn).dbgctl.toNat / 2 ^ 32 % 4096
  (s.queues.find? (fun e => (e.2.map (fun x => x.fn == fn && x.q == q)).getD false)).bind (fun e => e.2.map (·.ctx))

/-- DBG_STOP: the context is held; without a running job, its next job is held before any stream issues (R438). A context that already
stops or is held satisfies the request (R382). -/
def State.debugStop (s : State) (fn : Nat) : State :=
  match s.dbgCtx fn with
  | none => s
  | some ctx =>
    if ((s.ctx? ctx).map (·.status)) ≠ some .live then s
    else if s.ctxRuns ctx then (s.modCtx ctx (fun x => { x with dbgHeld := true })).haltCtx ctx true
    else s.modCtx ctx (fun x => { x with dbgWait := true })

/-- DBG_STOP (R438). -/
def execDbgStop (fn : Nat) (s : State) : Host.Outcome State Fault Refusal := event (·.debugStop fn) s

/-- DBG_RESUME: a context held by a debug stop goes on from its saved points (R438); a stop that still waits is withdrawn. -/
def State.debugResume (s : State) (fn : Nat) : State :=
  match s.dbgCtx fn with
  | none => s
  | some ctx =>
    match s.ctx? ctx with
    | none => s
    | some x =>
      if x.status = .held && x.dbgHeld then s.resumeCtx ctx
      else s.modCtx ctx (fun x => { x with dbgWait := false })

/-- DBG_RESUME (R438). -/
def execDbgResume (fn : Nat) (s : State) : Host.Outcome State Fault Refusal := event (·.debugResume fn) s

/-! ### Trace (R437) -/

/-- TRACE_RECORD_WRITE: the oldest record of a core's buffer goes to the ring, in a cycle that is open, and POS advances; a record whose
address has lost its translation since is dropped. -/
def State.traceOut (s : State) (c : Nat) : State :=
  let o := (s.core c).obs
  match o.buf with
  | [] => s
  | r :: rest =>
    let (late, s) := s.drawBit
    let s := s.postOnce (s.now + 1) (.traceRecordWrite c)
    if late then s
    else
      match trcRing o.trc with
      | none => s.modCore c (fun k => { k with obs := { k.obs with buf := rest } })
      | some (base, size) =>
        let n := size / 32
        let pos := o.trp.toNat / 32 % n
        let s := (s.frontWrite o.ctx (base + 32 * pos) (leBytes r.toNat 32)).1
        s.modCore c (fun k => { k with obs := { k.obs with buf := rest, trp := BitVec.ofNat 64 ((pos + 1) % n * 32) } })

/-- TRACE_RECORD_WRITE (R437). -/
def execTraceRecordWrite (core : Nat) (s : State) : Host.Outcome State Fault Refusal := event (·.traceOut core) s

/-! ### The governor (R420 to R423, R427) -/

/-- RISE of `pwrlim`. -/
def State.rise (s : State) : Nat := s.pwrlim.toNat % 4096
/-- FALL of `pwrlim`. -/
def State.fall (s : State) : Nat := s.pwrlim.toNat / 2 ^ 32 % 4096

/-- GOVERNOR_INTERVAL: the governed power follows the demand within the limits; the demand, the filler capacity and the filler steps are
open (R420 to R423). -/
def State.govern (s : State) : State :=
  let d := Config.drawPower s.free
  let cap := Config.filler s.free
  let steps := Config.filler (s.free + 1)
  let s : State := { s with free := s.free + 2 }
  let hi := s.power + s.rise
  let lo := s.power - s.fall
  let short := s.pwrstat.toNat % 2 ^ 32
  let put := fun (s : State) (p : Nat) (thr fill : Bool) (n : Nat) => { s with
    power := p, throttle := thr, pwrstat := BitVec.ofNat 64 (thr.toNat * 2 ^ 63 + fill.toNat * 2 ^ 62 + p / 1000 % 2 ^ 14 * 2 ^ 32 + n) }
  if hi < d then put s hi true false short
  else if d < lo then
    let f := min (lo - d) cap
    let s := put s (d + f) false (decide (0 < f)) (if cap < lo - d then min (short + 1) (2 ^ 32 - 1) else short)
    if 0 < f then s.countMod 0x0202 (qualAny steps) else s
  else put s d false false short

/-- GOVERNOR_INTERVAL (R420). -/
def execGovernorInterval (s : State) : Host.Outcome State Fault Refusal := event State.govern s

/-! ### The noise sources' health (R234, R385) -/

/-- NOISE_HEALTH_FAIL: the bay's source delivers nothing from now on, and an error record is written. -/
def execNoiseHealthFail (bay : Nat) (s : State) : Host.Outcome State Fault Refusal :=
  event (fun s =>
    if 256 ≤ bay ∨ !(s.bay bay).noiseOk then s
    else (s.modBay bay (fun b => { b with noiseOk := false })).error 4 10 (bay / 4) (bay % 4) 0 0 0) s

/-- NOISE_HEALTH_RECOVER: the source passes its tests again and delivers. -/
def execNoiseHealthRecover (bay : Nat) (s : State) : Host.Outcome State Fault Refusal :=
  event (fun s => if 256 ≤ bay then s else s.modBay bay (fun b => { b with noiseOk := true })) s

end Sys2Proof.Machine
end

