-- ==== Sys2Proof/Machine/Host.lean ====
section
/-!
DEFINITION. The host: BAR 2 registers, the firmware mailbox, CXL.mem, repartitioning, TDISP, SPDM, module reset and the host link (R350, R378, R390, R399, R401, R406 to R419, R424 to R428, R434, R438, R440).
-/

namespace Sys2Proof.Machine

/-- Does the firmware run, so that the functions answer (R415, R418)? -/
def State.fwUp (s : State) : Bool := s.boot == 0x80000000

/-! ### The mailbox commands (R413, R414) -/

/-- The number in n bytes of a command from byte i. -/
def cmdField (c : BitVec 512) (i n : Nat) : Nat := c.toNat / 256 ^ i % 256 ^ n

/-- Are all these bytes 0? -/
def cmdZero (c : BitVec 512) (ps : List (Nat × Nat)) : Bool := ps.all (fun p => cmdField c p.1 p.2 == 0)

/-- Is a number a partition of the layout in force? -/
def State.isPart (s : State) (p : Nat) : Bool := s.partDies p != 0

/-- Is a virtual function's interface locked or running (R416)? -/
def State.lockedFn (s : State) (fn : Nat) : Bool := (s.fn fn).tdisp == .locked || (s.fn fn).tdisp == .run

/-- The queue with index q of a function: its number in the module. -/
def State.queueOf (s : State) (fn q : Nat) : Option (Nat × Queue) :=
  s.queues.findSome? (fun e => e.2.bind (fun x => if x.fn = fn ∧ x.q = q then some (e.1, x) else none))

/-- Has a queue an unread or an incomplete record? -/
def State.queueUsed (s : State) (qi : Nat) (q : Queue) : Bool := q.head != q.tail || !(s.queueRecs qi).isEmpty

/-- A number below n that is not in use, from a place that is open. -/
def State.pickFree (s : State) (n : Nat) (used : List Nat) : Option Nat × State :=
  let (w, s) := s.drawNat
  (((List.range (used.length + 1)).map (fun i => (w + i) % n)).find? (fun v => !used.contains v), s)

/-- What a command answers: its status and its returned value. -/
abbrev CmdRes := State × Nat × Nat

/-- The command is refused with a status and has no effect. -/
def refuseCmd (s : State) (status : Nat) : CmdRes := (s, status, 0)

/-- CTX_CREATE (R394, R413, R414). -/
def State.ctxCreate (s : State) (fn : Nat) (c : BitVec 512) : CmdRes :=
  let part := cmdField c 1 1
  let root := cmdField c 16 8
  let trapa := cmdField c 24 8
  let landa := cmdField c 32 8
  let ovfn := cmdField c 40 4
  let savea := cmdField c 48 8
  let l := paLocal root
  if !cmdZero c [(2, 6), (8, 8), (44, 4), (62, 2)] || !s.isPart part || (fn != 0 && (s.fn fn).part != some part)
      || root % 4096 != 0 || paMod root != s.ownMod || root / 2 ^ 41 % 64 != 0
      || decide (l < partBase part ∨ partBase part + partSize (s.partDies part) ≤ l)
      || trapa % 4096 != 0 || landa % 65536 != 0 || savea % 4096 != 0
      || [trapa, landa, savea].any (fun a => decide (2 ^ 56 ≤ a)) || decide (65536 < ovfn) || decide (1024 ≤ cmdField c 60 2) then
    refuseCmd s 2
  else if s.closed part then refuseCmd s 1
  else
    let xs := s.ctxs.filterMap (·.2)
    let (asid, s') := s.pickFree 4096 (xs.map (·.asid) ++ s.fns.filterMap (fun f => f.2.ending.map (·.2)))
    let (pool, s') := s'.pickFree 65536 ((xs.filter (fun x => x.part == part)).map (·.pool))
    match asid, pool with
    | some a, some p =>
      if 2 ^ 40 ≤ s.nextCtx then refuseCmd s 4
      else
        let x : Ctx := { fn := fn, asid := a, root := root, part := part, pool := p, trapa := trapa, landa := landa, ovfn := ovfn
                         savea := savea, savesz := cmdField c 56 4, kslot := cmdField c 60 2 }
        ({ s' with ctxs := tput none s'.ctxs s'.nextCtx (some x), nextCtx := s'.nextCtx + 1 }, 0, s.nextCtx + a * 2 ^ 40)
    | _, _ => refuseCmd s 4

/-- CTX_DESTROY: teardown, answered once every access of the context on its way is performed (R383, R400); a locked interface goes to ERROR (R416). -/
def State.ctxDestroy (s : State) (fn : Nat) (c : BitVec 512) : CmdRes :=
  let ctx := cmdField c 8 8
  match s.ctx? ctx with
  | none => refuseCmd s 5
  | some x =>
    if x.fn ≠ fn then refuseCmd s 5
    else if !cmdZero c [(1, 7), (16, 48)] then refuseCmd s 2
    else
      let (e, s) := s.drawWord
      let s := s.teardown ctx 5 e
      let s := if s.lockedFn fn then s.modFn fn (fun f => { f with tdisp := .error }) else s
      (if s.endingBusy ctx x.asid then
        (s.modFn fn (fun f => { f with ending := some (ctx, x.asid) })).postOnce (s.now + 1) (.shootdownComplete fn)
      else s, 0, 0)

/-- Q_CREATE (R349, R414). -/
def State.qCreate (s : State) (fn : Nat) (c : BitVec 512) : CmdRes :=
  let ctx := cmdField c 8 8
  let k := cmdField c 1 1
  let vec := cmdField c 4 2
  let subr := cmdField c 16 8
  let cmpr := cmdField c 24 8
  match s.ctx? ctx with
  | none => refuseCmd s 5
  | some x =>
    if x.fn ≠ fn then refuseCmd s 5
    else if !cmdZero c [(3, 1), (6, 2), (32, 32)] || decide (k < 4 ∨ 16 < k) || decide (8 ≤ cmdField c 2 1)
        || decide (vec < 5 ∨ 2048 ≤ vec) || subr % (128 * 2 ^ k) != 0 || cmpr % (16 * 2 ^ k) != 0
        || decide (2 ^ 56 ≤ subr ∨ 2 ^ 56 ≤ cmpr) then refuseCmd s 2
    else if s.lockedFn fn then refuseCmd s 3
    else if s.closed x.part then refuseCmd s 1
    else
      let used := s.queues.filterMap (fun e => e.2.map (fun _ => e.1))
      let mine := s.queues.filterMap (fun e => e.2.bind (fun q => if q.fn = fn then some q.q else none))
      if 4096 ≤ used.length then refuseCmd s 4
      else
        let (qi, s) := s.pickFree 4096 used
        let (q, s) := s.pickFree 4096 mine
        match qi, q with
        | some qi, some q =>
          let v : Queue := { fn := fn, q := q, ctx := ctx, k := k, prio := BitVec.ofNat 3 (cmdField c 2 1), vec := vec, subr := subr, cmpr := cmpr }
          ({ s with queues := tput none s.queues qi (some v) }, 0, q)
        | _, _ => refuseCmd s 4

/-- Q_DESTROY: BUSY while the queue holds an unread or incomplete record (R413). -/
def State.qDestroy (s : State) (fn : Nat) (c : BitVec 512) : CmdRes :=
  match s.queueOf fn (cmdField c 8 8) with
  | none => refuseCmd s 5
  | some (qi, q) =>
    if !cmdZero c [(1, 7), (16, 48)] then refuseCmd s 2
    else if s.lockedFn fn then refuseCmd s 3
    else if s.queueUsed qi q then refuseCmd s 1
    else ({ s with queues := tput none s.queues qi none }, 0, 0)

/-- Q_POLICY: default priority and time slice (R364, R414). -/
def State.qPolicy (s : State) (fn : Nat) (c : BitVec 512) : CmdRes :=
  let f := cmdField c 1 1
  let b := cmdField c 2 1
  let us := cmdField c 16 4
  if fn ≠ 0 then refuseCmd s 5
  else
    match s.queueOf f (cmdField c 8 8) with
    | none => refuseCmd s 2
    | some (qi, _) =>
      if !cmdZero c [(3, 5), (20, 44)] || decide (64 ≤ f) || decide (16 ≤ b) || decide (1000000 < us) then refuseCmd s 2
      else if s.lockedFn f then refuseCmd s 3
      else
        (s.modQueue qi (fun q => { q with
          prio := if b.testBit 3 then q.prio else BitVec.ofNat 3 b
          slice := if us = 0 then q.slice else us }), 0, 0)

/-- CTX_POLICY: landing slot quota and cooperative mark (R303, R379, R414). -/
def State.ctxPolicy (s : State) (fn : Nat) (c : BitVec 512) : CmdRes :=
  let ctx := cmdField c 8 8
  let b := cmdField c 1 1
  let n := cmdField c 16 4
  if fn ≠ 0 then refuseCmd s 5
  else if (s.ctx? ctx).isNone || !cmdZero c [(2, 6), (20, 44)] || decide (4 ≤ b) || (decide (1024 < n) && n != 0xFFFFFFFF) then refuseCmd s 2
  else
    (s.modCtx ctx (fun x => { x with
      coop := if b.testBit 1 then x.coop else b.testBit 0
      quota := if n = 0xFFFFFFFF then x.quota else n }), 0, 0)

/-- PREEMPT: the jobs of a context are pre-empted; a cooperative context gets a yield deadline (R375, R379). A context that already stops
or is held satisfies the request (R382). -/
def State.preemptCmd (s : State) (fn : Nat) (c : BitVec 512) : CmdRes :=
  let ctx := cmdField c 8 8
  let us := cmdField c 16 4
  match s.ctx? ctx with
  | none => refuseCmd s 5
  | some x =>
    if x.fn ≠ fn then refuseCmd s 5
    else if !cmdZero c [(1, 7), (20, 44)] || (x.coop && decide (us = 0 ∨ 1000000 < us)) then refuseCmd s 2
    else if x.status ≠ .live || !s.ctxRuns ctx then (s, 0, 0)
    else if x.coop then
      let t := s.now + usCycles us
      ((s.modCtx ctx (fun x => { x with yieldBy := some t })).post t (.yieldDeadline ctx), 0, 0)
    else (s.askStop ctx .preempt, 0, 0)

/-- CTX_RESUME (R372, R414). -/
def State.resumeCmd (s : State) (fn : Nat) (c : BitVec 512) : CmdRes :=
  let ctx := cmdField c 8 8
  match s.ctx? ctx with
  | none => refuseCmd s 5
  | some x =>
    if x.fn ≠ fn then refuseCmd s 5
    else if !cmdZero c [(1, 7), (16, 48)] || x.status ≠ .held then refuseCmd s 2
    else (s.resumeCtx ctx, 0, 0)

/-- VF_ASSIGN (R411, R414). -/
def State.vfAssign (s : State) (fn : Nat) (c : BitVec 512) : CmdRes :=
  let vf := cmdField c 1 1
  let part := cmdField c 2 1
  if fn ≠ 0 then refuseCmd s 5
  else if !cmdZero c [(3, 61)] || decide (vf = 0 ∨ 64 ≤ vf) || !s.isPart part then refuseCmd s 2
  else if s.lockedFn vf then refuseCmd s 3
  else if s.closed part || !(s.ctxsOf vf).isEmpty then refuseCmd s 1
  else (s.modFn vf (fun f => { f with part := some part }), 0, 0)

/-- MODNUM: set once (R25, R413). -/
def State.modnumCmd (s : State) (fn : Nat) (c : BitVec 512) : CmdRes :=
  let n := cmdField c 8 8
  if fn ≠ 0 ∨ s.modnum.isSome then refuseCmd s 5
  else if !cmdZero c [(1, 7), (16, 48)] || decide (6144 ≤ n) then refuseCmd s 2
  else ({ s with modnum := some n }, 0, 0)

/-- The value of a firmware register (R414, R424 to R427). -/
def State.fwRead (s : State) (r : Nat) : Option Nat :=
  match r with
  | 0x10 => some s.ecwin
  | 0x11 => some s.ecthr
  | 0x12 => some s.hrthr
  | 0x20 => some s.pwrlim.toNat
  | 0x21 => some s.pwrgrp.toNat
  | 0x22 => some s.pwrstag.toNat
  | 0x23 => some s.pwrstat.toNat
  | _ => none

/-- STEP and NSLOT of a value of `pwrstag`, and whether SEND is written. -/
def stagFields (v : Nat) : Nat × Nat × Bool := (v / 2 ^ 46 % 1024, v / 2 ^ 37 % 512, v.testBit 56)

/-- A write of `pwrstag`: with SEND it sends the message to every module, this one included, or is refused (R426, R344). -/
def State.writeStag (s : State) (v : Nat) : Option State :=
  let (step, n, send) := stagFields v
  let s' : State := { s with pwrstag := BitVec.ofNat 64 (step * 2 ^ 46 + n * 2 ^ 37 + v % 2 ^ 16) }
  if send then
    if step = 0 ∨ 1000 < step ∨ n = 0 ∨ 256 < n ∨ s.modnum.isNone then none
    else some (({ s' with stagOut := s'.stagOut ++ [(BitVec.ofNat 16 v, n, step)] } : State).stagger (BitVec.ofNat 16 v) n step)
  else some s'

/-- A write of a firmware register; none where it completes with status 2 (R414, R424 to R427). -/
def State.fwWrite (s : State) (r v : Nat) : Option State :=
  match r with
  | 0x10 => if 1 ≤ v ∧ v ≤ 2 ^ 20 then some { s with ecwin := v } else none
  | 0x11 => if 1 ≤ v ∧ v ≤ 255 then some { s with ecthr := v } else none
  | 0x12 => if 1024 ≤ v ∧ v ≤ 65535 then some { s with hrthr := v } else none
  | 0x20 =>
    let rise := v % 4096
    let fall := v / 2 ^ 32 % 4096
    if 50 ≤ rise ∧ rise ≤ 4000 ∧ 50 ≤ fall ∧ fall ≤ 4000 then some { s with pwrlim := BitVec.ofNat 64 (fall * 2 ^ 32 + rise) } else none
  | 0x21 => some { s with pwrgrp := BitVec.ofNat 64 (v % 2 ^ 17) }
  | 0x22 => s.writeStag v
  | _ => none

/-- FWREG (R413, R414). -/
def State.fwregCmd (s : State) (fn : Nat) (c : BitVec 512) : CmdRes :=
  let r := cmdField c 1 1
  if fn ≠ 0 then refuseCmd s 5
  else if !cmdZero c [(3, 5), (16, 48)] || decide (2 ≤ cmdField c 2 1) || (s.fwRead r).isNone then refuseCmd s 2
  else if cmdField c 2 1 = 0 then (s, 0, (s.fwRead r).getD 0)
  else
    match s.fwWrite r (cmdField c 8 8) with
    | some s => (s, 0, (s.fwRead r).getD 0)
    | none => refuseCmd s 2

/-- CXLWIN (R412, R414). -/
def State.cxlwinCmd (s : State) (fn : Nat) (c : BitVec 512) : CmdRes :=
  let f := cmdField c 1 1
  let part := cmdField c 2 1
  let key := cmdField c 3 1
  let lg := cmdField c 4 1
  let off := cmdField c 8 8
  if fn ≠ 0 then refuseCmd s 5
  else if !cmdZero c [(5, 3), (16, 48)] || decide (64 ≤ f) || !s.isPart part || decide (16 ≤ key) || !s.keyOk part key
      || decide (lg < 28 ∨ 41 < lg) || off % 2 ^ lg != 0 || decide (partSize (s.partDies part) < off + 2 ^ lg)
      || (f != 0 && (s.fn f).part != some part) then refuseCmd s 2
  else if s.lockedFn f then refuseCmd s 3
  else (s.modFn f (fun x => { x with window := some (part, key, lg, off) }), 0, 0)

/-- Erase the key of a key id: what stands under it can no longer be read (R390, R414). -/
def State.eraseKey (s : State) (key : Nat) : State := { s with keyVer := tput 0 s.keyVer key (tget 0 s.keyVer key + 1) }

/-- KEYID: assign a key id to a partition, or withdraw it (R390, R414). -/
def State.keyidCmd (s : State) (fn : Nat) (c : BitVec 512) : CmdRes :=
  let key := cmdField c 1 1
  let part := cmdField c 2 1
  let b := cmdField c 3 1
  if fn ≠ 0 then refuseCmd s 5
  else if !cmdZero c [(4, 60)] || decide (16 ≤ key) || !s.isPart part || decide (2 ≤ b) then refuseCmd s 2
  else if b = 1 then
    if s.keyOk part key then (s, 0, 0)
    else if s.pools.any (fun p => p.1 != part && p.2.keys.contains key) then refuseCmd s 1
    else if 4 ≤ (s.pool part).keys.length then refuseCmd s 4
    else (s.modPool part (fun p => { p with keys := p.keys ++ [key] }), 0, 0)
  else if s.keyOk part key then ((s.modPool part (fun p => { p with keys := p.keys.filter (· != key) })).eraseKey key, 0, 0)
  else refuseCmd s 2

/-- A submitted command by its code (R413). -/
def State.runCmd (s : State) (fn : Nat) (c : BitVec 512) : CmdRes :=
  match cmdField c 0 1 with
  | 0x01 => s.ctxCreate fn c
  | 0x02 => s.ctxDestroy fn c
  | 0x03 => s.qCreate fn c
  | 0x04 => s.qDestroy fn c
  | 0x05 => s.qPolicy fn c
  | 0x06 => s.ctxPolicy fn c
  | 0x07 => s.preemptCmd fn c
  | 0x08 => s.resumeCmd fn c
  | 0x10 => s.vfAssign fn c
  | 0x11 => s.modnumCmd fn c
  | 0x12 => s.fwregCmd fn c
  | 0x13 => s.cxlwinCmd fn c
  | 0x14 => s.keyidCmd fn c
  | _ => refuseCmd s 2

/-- The firmware answers a command: status and returned value stand in the result register, or its bit 63 stays 1 while the answer waits
(R413). -/
def State.answer (s : State) (fn : Nat) (r : State → CmdRes) : State :=
  if !s.fwUp || decide (64 ≤ fn) then s
  else
    let (s, st, v) := r s
    s.modFn fn (fun f => { f with mres := if f.ending.isSome then 1#64 <<< 63 else BitVec.ofNat 64 (v % 2 ^ 55 * 256 + st) })

/-- A command of one code submitted by a function: any other code is not this command, and none is taken while bit 63 is 1 (R413). -/
def State.command (s : State) (fn : Nat) (c : BitVec 512) (code : Nat) (r : State → CmdRes) : State :=
  if cmdField c 0 1 = code && !(s.fn fn).mres.getLsbD 63 then s.answer fn r else s

/-- CTX_CREATE (R414). -/
def execCtxCreate (fn : Nat) (cmd : BitVec 512) (s : State) : Host.Outcome State Fault Refusal :=
  event (fun s => s.command fn cmd 0x01 (·.ctxCreate fn cmd)) s
/-- CTX_DESTROY (R414). -/
def execCtxDestroy (fn : Nat) (cmd : BitVec 512) (s : State) : Host.Outcome State Fault Refusal :=
  event (fun s => s.command fn cmd 0x02 (·.ctxDestroy fn cmd)) s
/-- Q_CREATE (R414). -/
def execQCreate (fn : Nat) (cmd : BitVec 512) (s : State) : Host.Outcome State Fault Refusal :=
  event (fun s => s.command fn cmd 0x03 (·.qCreate fn cmd)) s
/-- Q_DESTROY (R414). -/
def execQDestroy (fn : Nat) (cmd : BitVec 512) (s : State) : Host.Outcome State Fault Refusal :=
  event (fun s => s.command fn cmd 0x04 (·.qDestroy fn cmd)) s
/-- Q_POLICY (R414). -/
def execQPolicy (fn : Nat) (cmd : BitVec 512) (s : State) : Host.Outcome State Fault Refusal :=
  event (fun s => s.command fn cmd 0x05 (·.qPolicy fn cmd)) s
/-- CTX_POLICY (R414). -/
def execCtxPolicy (fn : Nat) (cmd : BitVec 512) (s : State) : Host.Outcome State Fault Refusal :=
  event (fun s => s.command fn cmd 0x06 (·.ctxPolicy fn cmd)) s
/-- PREEMPT (R414). -/
def execPreempt (fn : Nat) (cmd : BitVec 512) (s : State) : Host.Outcome State Fault Refusal :=
  event (fun s => s.command fn cmd 0x07 (·.preemptCmd fn cmd)) s
/-- CTX_RESUME (R414). -/
def execCtxResume (fn : Nat) (cmd : BitVec 512) (s : State) : Host.Outcome State Fault Refusal :=
  event (fun s => s.command fn cmd 0x08 (·.resumeCmd fn cmd)) s
/-- VF_ASSIGN (R414). -/
def execVfAssign (fn : Nat) (cmd : BitVec 512) (s : State) : Host.Outcome State Fault Refusal :=
  event (fun s => s.command fn cmd 0x10 (·.vfAssign fn cmd)) s
/-- MODNUM (R414). -/
def execModnum (fn : Nat) (cmd : BitVec 512) (s : State) : Host.Outcome State Fault Refusal :=
  event (fun s => s.command fn cmd 0x11 (·.modnumCmd fn cmd)) s
/-- FWREG (R414). -/
def execFwreg (fn : Nat) (cmd : BitVec 512) (s : State) : Host.Outcome State Fault Refusal :=
  event (fun s => s.command fn cmd 0x12 (·.fwregCmd fn cmd)) s
/-- PWRSTAG_SEND: the FWREG command that writes `pwrstag` with SEND (R426). -/
def execPwrstagSend (fn : Nat) (cmd : BitVec 512) (s : State) : Host.Outcome State Fault Refusal :=
  event (fun s => if cmdField cmd 1 1 = 0x22 ∧ cmdField cmd 2 1 = 1 ∧ (cmdField cmd 8 8).testBit 56 then
    s.command fn cmd 0x12 (·.fwregCmd fn cmd) else s) s
/-- CXLWIN (R414). -/
def execCxlwin (fn : Nat) (cmd : BitVec 512) (s : State) : Host.Outcome State Fault Refusal :=
  event (fun s => s.command fn cmd 0x13 (·.cxlwinCmd fn cmd)) s
/-- KEYID (R414). -/
def execKeyid (fn : Nat) (cmd : BitVec 512) (s : State) : Host.Outcome State Fault Refusal :=
  event (fun s => s.command fn cmd 0x14 (·.keyidCmd fn cmd)) s

/-! ### CXL.mem (R410, R412) -/

/-- Where a byte offset of a function's window lies, while the window is open: key id and LOCAL. -/
def State.openWindow (s : State) (fn off : Nat) : Option (Nat × Nat) :=
  match (s.fn fn).window with
  | none => none
  | some (p, key, _, _) => if s.lockedFn fn || s.closed p || !s.keyOk p key then none else s.windowAt fn off

/-- CXL_MEM_READ: bytes read at their homes; `none` stands for poison (R412). -/
def State.cxlRead (s : State) (fn off n : Nat) : State :=
  let (s, out) := (splitLines off (List.replicate n ())).foldl (fun (r : State × List (Option Byte)) p =>
    let s := r.1
    match s.openWindow fn p.1 with
    | none => (s, r.2 ++ List.replicate p.2.length none)
    | some (key, l) =>
      let bad := s.isBad l
      let bs := (List.range p.2.length).map (fun i => if bad then none else some (s.homeByte key (l + i)))
      ((s.mscTouch key l 0).watchHome key l p.2.length false 0, r.2 ++ bs)) (s, [])
  { s with cxlOut := s.cxlOut ++ [out] }

/-- CXL_MEM_READ (R412). -/
def execCxlMemRead (fn off n : Nat) (s : State) : Host.Outcome State Fault Refusal := event (·.cxlRead fn off n) s

/-- CXL_MEM_WRITE: applied at the homes, or dropped (R412). -/
def State.cxlWrite (s : State) (fn off : Nat) (bs : List Byte) : State :=
  (splitLines off bs).foldl (fun s p =>
    match s.openWindow fn p.1 with
    | none => s
    | some (key, l) => s.homeWriteLine key l (fullMask p.2) 0 0) s

/-- CXL_MEM_WRITE (R412). -/
def execCxlMemWrite (fn off : Nat) (bytes : List Byte) (s : State) : Host.Outcome State Fault Refusal := event (·.cxlWrite fn off bytes) s

/-! ### Repartitioning (R408 to R410) -/

/-- PCFG with an outcome: layout in force, NEW, STATUS and RUN. -/
def pcfgWord (cur new status : Nat) (run : Bool) : Word := BitVec.ofNat 64 (run.toNat * 2 ^ 63 + status * 2 ^ 56 + new * 256 + cur)

/-- The partitions of the layout in force that a new layout does not keep. -/
def State.affected (s : State) (new : Nat) : List (Nat × Nat) := s.layout.filter (fun p => !(layoutParts new).contains p)

/-- A TDISP lock of an unlocked interface (R416). -/
def State.lockNow (s : State) (fn : Nat) : State :=
  s.modFn fn (fun f => if f.tdisp = .unlocked then { f with tdisp := .locked, lockWait := false } else { f with lockWait := false })

/-- The lock requests that waited for the end of a repartition are answered (R410). -/
def State.answerLocks (s : State) : State := s.fns.foldl (fun s f => if f.2.lockWait then s.lockNow f.1 else s) s

/-- A repartition is refused: STATUS says why, the affected rings open again, and nothing else has changed (R409). -/
def State.pcfgRefuse (s : State) (st : Nat) : State :=
  let shut := s.queues.filterMap (fun e => e.2.bind (fun q => if ((s.ctx? q.ctx).map (fun x => s.closed x.part)).getD false then some e.1 else none))
  let s : State := { s with repart := none, pcfg := pcfgWord (s.pcfg.toNat % 8) (s.pcfg.toNat / 256 % 8) st false }
  shut.foldl State.readNext s.answerLocks

/-- Steps 4 and 5 of R409: the affected partitions are quiesced and torn down, and their keys erased; the stacks are filled by a time
that is open, about 22.4 ms later. -/
def State.pcfgClear (s : State) (new : Nat) : State :=
  let parts := s.affected new
  let isIn := fun (p : Nat) => parts.any (fun q => q.1 == p)
  let (w, s) := s.drawNat
  let t := s.now + usCycles 22000 + w % usCycles 1000
  let s := s.flushHomes
  let gone := s.ctxs.filterMap (fun e => e.2.bind (fun x => if isIn x.part then some e.1 else none))
  let s := gone.foldl (fun s c => s.teardown c 5 0) s
  let keys := parts.flatMap (fun p => (s.pool p.1).keys)
  let s := keys.foldl (fun s k => s.eraseKey k) s
  let s := parts.foldl (fun s p => s.modPool p.1 (fun q => { q with keys := [] })) s
  let s : State := { s with
    repart := some (t, new, true)
    fns := s.fns.map (fun f => (f.1, { f.2 with
      mig := f.2.mig.bind (fun m => if isIn (s.partOfLocal (paLocal m.src)).1 then none else some m) })) }
  s.post t .repartitionDone

/-- Step 3 of R409: a locked interface refuses the repartition with STATUS 3, an unread or incomplete record with STATUS 1, and then the
rings open again; else the partitions are cleared. -/
def State.pcfgCheck (s : State) (new : Nat) : State :=
  let isIn := fun (p : Nat) => (s.affected new).any (fun q => q.1 == p)
  if (List.range 64).any (fun f => f != 0 && s.lockedFn f && ((s.fn f).part.map isIn).getD false) then s.pcfgRefuse 3
  else if s.queues.any (fun e => match e.2 with
      | some q => isIn (((s.ctx? q.ctx).map (·.part)).getD 64) && s.queueUsed e.1 q
      | none => false) then s.pcfgRefuse 1
  else s.pcfgClear new

/-- PCFG_GO: steps 1 and 2 of R409 close the rings of the affected partitions; firmware's checks and what follows them come at a time
that is open, at most 1 ms later. -/
def State.pcfgStart (s : State) (new : Nat) : State :=
  let cur := s.pcfg.toNat % 8
  let stay := fun (st : Nat) => { s with pcfg := pcfgWord cur new st false }
  match s.repart with
  | some _ => s
  | none =>
    if 5 ≤ new then stay 2
    else if new = cur then stay 0
    else
      let (w, s) := s.drawNat
      let t := s.now + 1 + w % usCycles 1000
      ({ s with pcfg := pcfgWord cur new (s.pcfg.toNat / 2 ^ 56 % 8) true, repart := some (t, new, false) } : State).post t
        .repartitionDone

/-- PCFG_GO (R409). -/
def execPcfgGo (new : BitVec 3) (s : State) : Host.Outcome State Fault Refusal :=
  event (fun s => if s.fwUp then s.pcfgStart new.toNat else s) s

/-- Is an access of a torn-down context still on its way from the dies of a partition that a new layout does not keep (R400)? -/
def State.endingOn (s : State) (new : Nat) : Bool :=
  s.remote.any (fun o => (s.ctx? o.ctx).isNone && (s.affected new).any (fun p => p.1 == (s.partOf o.die).1))

/-- REPARTITION_DONE, firmware's part of a repartition: its checks, and once the partitions are torn down and the shoot-downs of step 5
complete (R400), steps 6 to 9 of R409. -/
def State.pcfgEnd (s : State) : State :=
  match s.repart with
  | none => s
  | some (t, new, false) => if s.now < t then s else s.pcfgCheck new
  | some (t, new, true) =>
    if s.now < t then s
    else if s.endingOn new then s.post (s.now + 1) .repartitionDone
    else
      let parts := s.affected new
      let isIn := fun (p : Nat) => parts.any (fun q => q.1 == p)
      let onDie := fun (d : Nat) => isIn (s.partOf d).1
      let inLoc := fun (l : Nat) => isIn (s.partOfLocal l).1
      let old := s.layout
      let s : State := { s with
        hbm := s.hbm.filter (fun e => !inLoc e.1)
        lineKey := s.lineKey.filter (fun e => !inLoc (16 * e.1))
        lineClk := s.lineClk.filter (fun e => !inLoc (128 * e.1))
        poison := s.poison.filter (fun e => !inLoc (128 * e.1))
        bases := s.bases.map (fun b => if onDie (2 * b.1) then (b.1, { b.2 with msc := [] }) else b)
        cores := s.cores.map (fun c => if onDie (coreDie c.1) then (c.1, { c.2 with tlb := [], l1 := [] }) else c)
        dies := s.dies.map (fun d => if onDie d.1 then (d.1, { d.2 with tlb := [] }) else d)
        pools := s.pools.filter (fun p => !isIn p.1)
        repart := none, pcfg := pcfgWord new (s.pcfg.toNat / 256 % 8) 0 false }
      let home := fun (p : Nat) => (s.partOf p).1
      let s : State := { s with fns := s.fns.map (fun f => (f.1, { f.2 with
        part := f.2.part.map (fun p => if isIn p then home p else p)
        window := f.2.window.bind (fun w => if isIn w.1 && old.any (fun q => q.1 == w.1) then none else some w) })) }
      s.answerLocks.raise 0 0

/-- REPARTITION_DONE (R409). -/
def execRepartitionDone (s : State) : Host.Outcome State Fault Refusal := event State.pcfgEnd s

/-! ### TDISP (R410, R416) -/

/-- TDISP_LOCK_INTERFACE: during a repartition that affects the function's partition it is answered when that ends (R410). -/
def State.tdispLock (s : State) (fn : Nat) : State :=
  if fn = 0 ∨ 64 ≤ fn then s
  else
    match (s.fn fn).part with
    | some p => if s.closed p then s.modFn fn (fun f => { f with lockWait := true }) else s.lockNow fn
    | none => s.lockNow fn

/-- TDISP_LOCK_INTERFACE (R416). -/
def execTdispLockInterface (fn : Nat) (s : State) : Host.Outcome State Fault Refusal := event (·.tdispLock fn) s

/-- TDISP_START_INTERFACE: CONFIG_LOCKED to RUN (R416). -/
def execTdispStartInterface (fn : Nat) (s : State) : Host.Outcome State Fault Refusal :=
  event (fun s => if (s.fn fn).tdisp = .locked then s.modFn fn (fun f => { f with tdisp := .run }) else s) s

/-- TDISP_STOP_INTERFACE: the interface is unlocked (R416). -/
def execTdispStopInterface (fn : Nat) (s : State) : Host.Outcome State Fault Refusal :=
  event (fun s => s.modFn fn (fun f => { f with tdisp := .unlocked, lockWait := false })) s

/-! ### Root of trust, reset, host link (R378, R390, R411, R418, R419) -/

/-- SPDM_REQUEST: measurements in the order of R419, a session, and the installation of keys inside a session. -/
def State.spdm (s : State) (op : SpdmOp) : State :=
  match op with
  | .measurements =>
    let keys := s.layout.flatMap (fun p => p.1 :: (s.pool p.1).keys.length :: (s.pool p.1).keys)
    { s with spdmOut := s.spdmOut ++ [Config.fwDigest.toNat :: Config.romId.toNat :: s.pcfg.toNat % 8 :: keys] }
  | .session => { s with session := true }
  | .tenantKey slot =>
    if s.session && decide (slot < 1024) then { s with tenantVer := tput 0 s.tenantVer slot (tget 0 s.tenantVer slot + 1) } else s
  | .partitionKey key => if s.session && decide (key < 16) then s.eraseKey key else s

/-- SPDM_REQUEST (R419). -/
def execSpdmRequest (op : SpdmOp) (s : State) : Host.Outcome State Fault Refusal := event (·.spdm op) s

/-- MODULE_RESET: every register at its reset value, the keys gone, and the outcome of the firmware's verification in the boot-status
register (R415, R418). What the stacks hold stays, under keys that are gone. -/
def State.resetModule (s : State) (code : Nat) : State :=
  { State.reset with
    boot := BitVec.ofNat 32 (2 ^ 31 + code), inputs := s.inputs, free := s.free, ids := s.ids, hbm := s.hbm, lineKey := s.lineKey
    poison := s.poison, tenantVer := s.tenantVer, msix := s.msix, cxlOut := s.cxlOut, spdmOut := s.spdmOut, stagOut := s.stagOut
    keyVer := (List.range 16).foldl (fun t k => tput 0 t k (tget 0 s.keyVer k + 1)) [] }

/-- MODULE_RESET (R418). -/
def execModuleReset (code : BitVec 8) (s : State) : Host.Outcome State Fault Refusal :=
  event (fun s => if code.toNat ≤ 3 then s.resetModule code.toNat else s) s

/-- HOST_LINK_TRAINING: 8 or 4 lanes at 64 or 32 GT/s; less than 8 at 64 leaves an error record, its lane open (R411). -/
def State.trainLink (s : State) (lanes rate : Nat) : State :=
  if (lanes = 8 ∨ lanes = 4) ∧ (rate = 64 ∨ rate = 32) then
    let s : State := { s with link := (lanes, rate) }
    if lanes = 8 ∧ rate = 64 then s
    else
      let (w, s) := s.drawNat
      s.error 7 8 0 (w % 8) 0 0 0
  else s

/-- HOST_LINK_TRAINING (R411). -/
def execHostLinkTraining (lanes rate : Nat) (s : State) : Host.Outcome State Fault Refusal := event (·.trainLink lanes rate) s

/-! ### BAR 2 registers (R6, R350, R399, R401, R408, R413, R415, R428, R434, R438, R440) -/

/-- The bits of a value under a mask, the others of an old one. -/
def maskWrite (old val mask : Word) : Word := (old &&& ~~~mask) ||| (val &&& mask)

/-- Whose counters of a die a function sees: the lease holder's, the physical function's without a lease, or none (R428, R434). -/
def State.dieOwner (s : State) (fn die : Nat) : Option Bool :=
  match (s.pool (s.partOf die).1).prf with
  | some (h, _, _, _) => if h = fn then some true else none
  | none => if fn = 0 then some false else none

/-- Change the die counters of the die that DCDIE of a function selects, where the function owns them. -/
def State.modDcnt (s : State) (fn : Nat) (f : DCnt → DCnt) : State :=
  let d := (s.fn fn).dcdie.toNat % 64
  match s.dieOwner fn d with
  | some true => s.modDie d (fun x => { x with lease := f x.lease })
  | some false => s.modDie d (fun x => { x with pf := f x.pf })
  | none => s

/-- Submit the mailbox command of a function, unless one is being answered (R413). -/
def State.doorbell (s : State) (fn : Nat) : State :=
  if (s.fn fn).mres.getLsbD 63 then s else s.answer fn (fun s => s.runCmd fn (s.fn fn).mbox)

/-- Run a command of MIGCTL. -/
def State.migCmd (s : State) (fn cmd : Nat) : State :=
  match cmd with
  | 1 => s.migBegin fn
  | 2 => s.migFinish fn
  | 3 => s.migStop fn
  | _ => s

/-- A write to a BAR 2 offset below 0x9180: kick, shoot-down, migration, partition and mailbox registers. -/
def State.writeLow (s : State) (fn off : Nat) (val : Word) : State :=
  if off < 0x8000 then s.kickAt fn (off / 8) (val.setWidth 16)
  else if off = 0x8000 then s.modFn fn (fun f => { f with tsdaddr := val &&& 0x00FFFFFFFFFFF000#64 })
  else if off = 0x8008 then
    let s := s.modFn fn (fun f => { f with tsdctl := maskWrite f.tsdctl val 0x00000FFF000000F3#64 })
    if val.getLsbD 8 then s.tsdStart fn else s
  else if off = 0x8100 then s.modFn fn (fun f => { f with migsrc := val &&& 0xFFFFFFFFFFFFF000#64 })
  else if off = 0x8108 then s.modFn fn (fun f => { f with migdst := val &&& 0xFFFFFFFFFFFFF000#64 })
  else if off = 0x8110 then (s.modFn fn (fun f => { f with migctl := maskWrite f.migctl val 0xF#64 })).migCmd fn (val.toNat / 256 % 4)
  else if off = 0x9000 then
    if fn ≠ 0 then s
    else
      let s : State := { s with pcfg := maskWrite s.pcfg val 0x700#64 }
      if val.getLsbD 16 then s.pcfgStart (val.toNat / 256 % 8) else s
  else if 0x9100 ≤ off ∧ off < 0x9140 then
    let sh := 8 * (off - 0x9100)
    s.modFn fn (fun f => { f with mbox := (f.mbox &&& ~~~(0xFFFFFFFFFFFFFFFF#512 <<< sh)) ||| (val.setWidth 512 <<< sh) })
  else if off = 0x9140 then (if val.getLsbD 0 then s.doorbell fn else s)
  else s

/-- A write to a BAR 2 offset from 0x9180 on: fault replies, error ring, counters, lease, debug and watch ranges. -/
def State.writeHigh (s : State) (fn off : Nat) (val : Word) : State :=
  let n := off / 8 % 32
  if off = 0x9180 then s.modFn fn (fun f => { f with frctx := val &&& 0xFFFFFFFFFF#64 })
  else if off = 0x9188 then
    let s := s.modFn fn (fun f => { f with frply := maskWrite f.frply val 0x1FFFFFFFF#64 })
    if val.getLsbD 63 then s.faultReplyOf fn else s
  else if off = 0x9200 then s.modFn fn (fun f => { f with errbase := val &&& 0x800001FFFFFE0000#64 })
  else if off = 0x9208 then s.modFn fn (fun f => { f with errhead := val &&& 0xFFF#64 })
  else if off = 0xA000 then s.modFn fn (fun f => { f with dcdie := val &&& 0x3F#64 })
  else if 0xA080 ≤ off ∧ off < 0xA100 then s.modDcnt fn (fun c => { c with sel := tput 0 c.sel (n - 16) (selWrite (tget 0 c.sel (n - 16)) val) })
  else if 0xA100 ≤ off ∧ off < 0xA180 then s.modDcnt fn (fun c => { c with cnt := tput 0 c.cnt n (val.setWidth 48) })
  else if 0xA200 ≤ off ∧ off < 0xA300 then
    if fn = 0 then { s with fsel := tput 0 s.fsel n (selWrite (tget 0 s.fsel n) val) } else s
  else if 0xA300 ≤ off ∧ off < 0xA400 then (if fn = 0 then { s with fcnt := tput 0 s.fcnt n (val.setWidth 48) } else s)
  else if off = 0xA400 then
    let s := s.modFn fn (fun f => { f with prfctl := maskWrite f.prfctl val 0x3FF00000000#64 })
    let s := if val.getLsbD 1 then s.leaseRel fn else s
    if val.getLsbD 0 then s.leaseReq fn else s
  else if off = 0xA408 then
    let s := s.modFn fn (fun f => { f with dbgctl := val &&& 0xFFF00000000#64 })
    let s := if val.getLsbD 0 then s.debugStop fn else s
    if val.getLsbD 1 then s.debugResume fn else s
  else if 0xB000 ≤ off ∧ off < 0xC000 ∧ fn = 0 then
    let i := (off - 0xB000) / 16
    s.modBase (i / 8) (fun b => if off % 16 = 0 then { b with mwctl := tput 0 b.mwctl (i % 8) (val &&& 0xFFF801FFFFFFFFFF#64) }
      else { b with mwhit := tput 0 b.mwhit (i % 8) (maskWrite (tget 0 b.mwhit (i % 8)) val 0xFFFFF00000000000#64) })
  else s

/-- REGISTER_WRITE: a host write of a BAR 2 register changes its fields by their access codes and has the register's effect; an offset
that no register occupies is ignored (R6, R415). -/
def execRegisterWrite (fn off : Nat) (val : Word) (s : State) : Host.Outcome State Fault Refusal :=
  event (fun s =>
    if !s.fwUp || decide (64 ≤ fn) || off % 8 != 0 then s
    else if off < 0x9180 then s.writeLow fn off val else s.writeHigh fn off val) s

/-- What a host read of a BAR 2 register returns; WO fields read as 0, and a register of another function, or an offset that no register
occupies, reads as 0 (R6, R415). -/
def State.barRead (s : State) (fn off : Nat) : Word :=
  let f := s.fn fn
  let n := off / 8 % 32
  let dc := fun (g : DCnt → Word) =>
    match s.dieOwner fn (f.dcdie.toNat % 64) with
    | some true => g (s.die (f.dcdie.toNat % 64)).lease
    | some false => g (s.die (f.dcdie.toNat % 64)).pf
    | none => 0
  if off < 0x8000 then
    match s.queueOf fn (off / 8) with
    | some (_, q) => BitVec.ofNat 64 (q.head.toNat * 2 ^ 32 + q.tail.toNat)
    | none => 0
  else if off = 0x8000 then f.tsdaddr
  else if off = 0x8008 then f.tsdctl ||| (if f.tsd.isSome then 1#64 <<< 63 else 0)
  else if off = 0x8100 then f.migsrc
  else if off = 0x8108 then f.migdst
  else if off = 0x8110 then
    f.migctl ||| (match f.mig with
      | none => 0
      | some m => BitVec.ofNat 64 ((if 128 * m.copied < m.size then 1 else 2) * 2 ^ 62 + m.copied % 2 ^ 22 * 2 ^ 32))
  else if off = 0x9000 then (if fn = 0 then s.pcfg else 0)
  else if 0x9100 ≤ off ∧ off < 0x9140 then BitVec.ofNat 64 (f.mbox.toNat / 2 ^ (8 * (off - 0x9100)))
  else if off = 0x9148 then f.mres
  else if off = 0x9180 then f.frctx
  else if off = 0x9188 then f.frply
  else if off = 0x9200 then f.errbase
  else if off = 0x9208 then f.errhead
  else if off = 0x9210 then f.errtail
  else if off = 0xA000 then f.dcdie
  else if 0xA080 ≤ off ∧ off < 0xA100 then dc (fun c => tget 0 c.sel (n - 16))
  else if 0xA100 ≤ off ∧ off < 0xA180 then dc (fun c => (tget 0 c.cnt n).setWidth 64)
  else if 0xA200 ≤ off ∧ off < 0xA300 then (if fn = 0 then tget 0 s.fsel n else 0)
  else if 0xA300 ≤ off ∧ off < 0xA400 then (if fn = 0 then (tget 0 s.fcnt n).setWidth 64 else 0)
  else if off = 0xA400 then
    f.prfctl ||| (if s.pools.any (fun p => (p.2.prf.map (fun l => l.1 == fn)).getD false) then 1#64 <<< 63 else 0)
  else if off = 0xA408 then
    f.dbgctl ||| (if ((s.dbgCtx fn).bind s.ctx?).any (fun x => x.status = .held && x.dbgHeld) then 1#64 <<< 63 else 0)
  else if 0xB000 ≤ off ∧ off < 0xC000 ∧ fn = 0 then
    let i := (off - 0xB000) / 16
    if off % 16 = 0 then tget 0 (s.base (i / 8)).mwctl (i % 8) else tget 0 (s.base (i / 8)).mwhit (i % 8)
  else 0

end Sys2Proof.Machine
end

