-- ==== Sys2Proof/Machine/Cycle.lean ====
section
/-!
DEFINITION. The cycle of the machine: what it does next, when each stream issues, stops or waits, and what happens as the clock advances (R4, R96, R105, R119, R137, R244, R375, R420, R433, R438; log entries 1 to 3).
-/

namespace Sys2Proof.Machine

/-! ### What the outside asks (log entry 3) -/

/-- Is this asked of the module from outside it: by the host, by firmware, by another module or the fabric, or a fault of the hardware? -/
def fromOutside (i : Instr) : Bool :=
  match i with
  | .fabricLineArrival .. => true
  | .fabricLinkFailure .. => true
  | .staggerMessage .. => true
  | .remoteRequest .. => true
  | .storeAck .. => true
  | .noiseHealthFail .. => true
  | .noiseHealthRecover .. => true
  | .kick .. => true
  | .dieFence .. => true
  | .boundaryFailure .. => true
  | .faultReply .. => true
  | .archStateError .. => true
  | .hbmUncorrectable .. => true
  | .correctableError .. => true
  | .rowActivation .. => true
  | .tsdGo .. => true
  | .migStart .. => true
  | .migEnd .. => true
  | .migAbort .. => true
  | .cxlMemRead .. => true
  | .cxlMemWrite .. => true
  | .pcfgGo .. => true
  | .ctxCreate .. => true
  | .ctxDestroy .. => true
  | .qCreate .. => true
  | .qDestroy .. => true
  | .qPolicy .. => true
  | .ctxPolicy .. => true
  | .preempt .. => true
  | .ctxResume .. => true
  | .vfAssign .. => true
  | .modnum .. => true
  | .fwreg .. => true
  | .pwrstagSend .. => true
  | .cxlwin .. => true
  | .keyid .. => true
  | .tdispLockInterface .. => true
  | .tdispStartInterface .. => true
  | .tdispStopInterface .. => true
  | .spdmRequest .. => true
  | .moduleReset .. => true
  | .hostLinkTraining .. => true
  | .prfReq .. => true
  | .prfRel .. => true
  | .dbgStop .. => true
  | .dbgResume .. => true
  | .registerWrite .. => true
  | .functionReset .. => true
  | _ => false

/-- Does it reach the module through what only running firmware answers: the functions, their registers and mailboxes, the TDISP
interfaces and the fabric ports (R418)? -/
def needsFirmware (i : Instr) : Bool :=
  match i with
  | .noiseHealthFail .. => false
  | .noiseHealthRecover .. => false
  | .dieFence .. => false
  | .boundaryFailure .. => false
  | .fabricLinkFailure .. => false
  | .archStateError .. => false
  | .hbmUncorrectable .. => false
  | .correctableError .. => false
  | .rowActivation .. => false
  | .storeAck .. => false
  | .spdmRequest .. => false
  | .moduleReset .. => false
  | .hostLinkTraining .. => false
  | _ => true

/-- Is this taken from the outside: one that the module answers now (R418)? -/
def State.takes (s : State) (i : Instr) : Bool := fromOutside i && (s.fwUp || !needsFirmware i)

/-- A posted event: only events are posted, never instruction words. -/
def asEvent (i : Instr) : Option Instr := if (encodeFields i).isNone then some i else none

/-! ### The turn of one stream -/

/-- The issuing slot of a stream with its fetched words. -/
def issueSlot (c : Nat) (x : Strm) (v : Stream) (w : Fetched) : Cur :=
  { core := c, strm := x, pc := v.pc, word := w.word, lit := w.lit, size := wordSize w.word, repk := (v.rep.map (fun r => r.k)).getD 0,
    pops := [], poppedRow := none }

/-- On CX, the slot with what the instruction uses. -/
def slotWithUse (u : Cur) (j : Job) (f : Fields) : Cur :=
  if u.strm = .cx then { u with use := (opRow f).map (fun row => cxUse j row f) } else u

/-- May a stream stop for the stop its core is asked for (R134, R244, R295, R375, R438)? -/
def State.mayStop (s : State) (c : Nat) (x : Strm) (j : Job) : Bool :=
  let v := j.strm x
  let dbg := ((s.ctx? j.ctx).map (·.dbgHeld)).getD false
  let inside := v.loops.find? (fun l => l.mloop && l.holds v.pc)
  !j.chainOpen
    && !(x = .cx && (j.microBusy || j.cxFirst.isSome))
    && !(x = .sc && (s.core c).wcsld.isSome)
    && (match inside with
      | some l => !dbg || (v.pc == l.start && v.rep.isNone && !(x = .cx && j.micro.isSome))
      | none => true)

/-- A LEASE that waits, or whose grant has not retired, issues again after the stop: its request and its grant end here (R240, R244). -/
def State.dropLease (s : State) (c : Nat) : State :=
  let s := if (s.bay (coreBay c)).reqOf (c % 4) = .granted then s.endGrant c else s
  s.modBay (coreBay c) (fun b => b.setReq (c % 4) .idle)

/-- A stream stops; for a debug stop it writes a KIND 3 record first, which waits while the trace buffer is full (R437, R438). -/
def State.stopStrm (s : State) (c : Nat) (x : Strm) (j : Job) : State :=
  let halt := fun (s : State) => s.modStrm c x (fun v => { v with stopped := true, wait := none })
  if ((s.ctx? j.ctx).map (·.dbgHeld)).getD false then
    let u := s.waitSlot c x
    match traceRec u 3 0 s with
    | .ok _ s' => halt (if x = .cx then s'.dropLease c else s')
    | .error (.trap t) _ => { s with cur := some u }.takeTrap u t
    | .error _ _ => s.countHead c x .busy
  else ((if x = .cx then s.dropLease c else s) |> halt).countHead c x .empty

/-- Does the queue of a queue wait still keep it waiting (R99, R100)? -/
def Job.stillWaits (j : Job) : Wait → Bool
  | .push q => if q < 16 then decide (8 ≤ (j.queueOf q).length) else decide (16 ≤ (if q = 16 then j.vqLd else j.vqCx).length)
  | .pop q => if q < 16 then (qAt (j.queueOf q) 0).isNone else (vAt (if q = 16 then j.vqLd else j.vqCx) 0).isNone
  | _ => false

/-- Issue the words of a stream: the instruction to run, with the issuing slot set, or a trap taken (R46, R120). -/
def State.issueWords (s : State) (c : Nat) (x : Strm) (j : Job) (w : Fetched) : State × Option Instr :=
  let u := issueSlot c x (j.strm x) w
  match issueWord x (j.strm x) w with
  | .error t =>
    let s : State := { s with cur := some u }
    (s.stopAt u (.trap t) s, none)
  | .ok (f, i) =>
    let u := slotWithUse u j f
    let s : State := { s with cur := some u }
    -- while the governor throttles, whether a lane-pipe instruction is held is open (R421); a queue wait below it goes on (R102)
    let (held, s) := if s.throttle && (u.use.map (·.lane)).getD false then s.drawBit else (false, s)
    if held then (s.holdAt u (s.strmAt c x |>.wait.elim .busy (fun w => if j.stillWaits w.1 then w.1 else .busy)), none) else (s, some i)

/-- The turn of a stream that may issue: its fetched words, or those it fetches now (R33, R119). -/
def State.tryIssue (s : State) (c : Nat) (x : Strm) (j : Job) : State × Option Instr :=
  match (j.strm x).fetched with
  | some w =>
    if w.pc = (j.strm x).pc then s.issueWords c x j w
    else
      let s := s.fetchAt c x
      match (s.strmAt c x).fetched with
      | some w => s.issueWords c x (s.jobAt c) w
      | none => (s.countHead c x .empty, none)
  | none =>
    let s := s.fetchAt c x
    match (s.strmAt c x).fetched with
    | some w => s.issueWords c x (s.jobAt c) w
    | none => (s.countHead c x .empty, none)

/-- Do the streams of a core obey a stop in this cycle (R375, R382)? -/
def State.stopsNow (s : State) (c : Nat) : Bool := (s.core c).stopping.isSome && decide ((s.core c).stopFrom ≤ s.now)

/-- The second turn of CX in a cycle: the next instruction joins the group where R105 lets it and it can issue now; otherwise nothing
of it happens. -/
def State.trySecond (s : State) (c : Nat) (j : Job) (a : CxUse) : State × Option Instr :=
  let v := j.cx
  if a.alone || !v.live || v.rdvWait || v.replay || j.micro.isSome || s.stopsNow c then (s, none)
  else
    let (s', w) := match v.fetched with
      | some w => if w.pc = v.pc then (s, some w) else (s, none)
      | none =>
        match s.codeWord c v.pc with
        | (s', .ok w) => (s'.modStrm c .cx (fun v => { v with fetched := some w }), some w)
        | (_, .error _) => (s, none)
    match w with
    | none => (s, none)
    | some w =>
      match issueWord .cx v w with
      | .error _ => (s, none)
      | .ok (f, i) =>
        let u := slotWithUse { issueSlot c .cx v w with second := true } j f
        let free := (u.use.map (fun b => a.joins b && !(s.throttle && b.lane))).getD false
        if free then ({ s' with cur := some u }, some i) else (s, none)

/-- The turn of a live stream that does not stop (R118, R374). -/
def State.visitLive (s : State) (c : Nat) (x : Strm) : State × Option Instr :=
  let j := s.jobAt c
  let v := j.strm x
  if v.rdvWait then (s, none)
  else if v.replay then (s.countHead c x .busy, some (.memoryAccessPerformed c x))
  else if x = .cx && decide (s.now < j.cxFrom) then (s.countHead c x .busy, none)
  else if x = .cx && j.micro.isSome then (s, some (.microStep c))
  else s.tryIssue c x j

/-- The turn of a stream in a cycle (R96, R105, R118, R244): the instruction it issues, if it issues one. -/
def State.visit (s : State) (c : Nat) (x : Strm) : State × Option Instr :=
  match (s.core c).job with
  | none => (s, none)
  | some j =>
    let v := j.strm x
    match (if x = .cx then j.cxFirst else none) with
    | some a => s.trySecond c j a
    | none =>
      if !v.live then (s.countHead c x .empty, none)
      else if s.stopsNow c && s.mayStop c x j then (s.stopStrm c x j, none)
      else if x = .cx && j.lh then
        -- a grant held at the stop is asked for again before CX issues (R244)
        let ask := (s.bay (coreBay c)).reqOf (c % 4)
        if ask = .granted then
          ((s.modBay (coreBay c) (fun b => b.setReq (c % 4) .idle)).modJob c (fun j => { j with lh := false })).visitLive c x
        else ((if ask = .idle then s.leaseAsk c .wait else s).countHead c x (.flag 18), none)
      else s.visitLive c x

/-! ### The end of a cycle -/

/-- The streams held at empty granules that have become full in this cycle: they issue in it after all (R149). -/
def State.woken (s : State) : List (Nat × Strm) :=
  s.cores.flatMap (fun e => match e.2.job with
    | none => []
    | some j => (allStrms.filter (fun x => (j.strm x).live && match (j.strm x).wait with
        | some (.granule o n, _) => (emptyGranule e.2.fe o n).isNone
        | _ => false)).map (fun x => (e.1, x)))

/-- Does a job whose streams have all exited, with a yielded bit set, meet R380's conditions now (R380, R381)? -/
def State.yieldReady (s : State) (c : Nat) : Bool :=
  (s.core c).job.isSome && (s.jobAt c).allYielded && (s.core c).stopping.isNone && s.yieldClean c

/-- Jobs that are complete or have yielded, and cores that have stopped (R137, R375, R381). -/
def State.settleCores (s : State) : State :=
  s.cores.foldl (fun s e =>
    if s.jobDone e.1 then s.postOnce s.now (.jobCompletion e.1)
    else if s.yieldReady e.1 then s.yieldStop e.1
    else if s.stopDone e.1 then s.postOnce s.now (.preemptionStopComplete e.1) else s) s

/-- Count the streams still held by a rendezvous or an empty granule (R433). -/
def State.countLate (s : State) : State :=
  s.cores.foldl (fun s e => match e.2.job with
    | none => s
    | some j => allStrms.foldl (fun s x =>
        let v := j.strm x
        if !v.live then s
        else if v.rdvWait then s.countHead e.1 x (.flag 17)
        else match v.wait with
          | some (.granule .., _) => s.countHead e.1 x (.flag 16)
          | _ => s) s) s

/-! ### The clock -/

/-- Does a stream start to fetch in this cycle, before its turn (R33)? -/
def State.fetches (s : State) (c : Nat) (x : Strm) (j : Job) : Bool :=
  let v := j.strm x
  v.live && v.fetched.isNone && !v.rdvWait && !v.replay && !(x = .cx && j.micro.isSome) && (s.core c).stopping.isNone

/-- What begins with a cycle on a core: fetches of a running job, or the start of the chunk in the shadow bank of an idle one (R33,
R363). -/
def State.beginCore (s : State) (c : Nat) : State :=
  match (s.core c).job with
  | some j => allStrms.foldl (fun s x => if s.fetches c x j then s.postEarly s.now (.instructionFetch c x) else s) s
  | none =>
    match s.startable c with
    | some (l, _) => s.postOnce s.now (s.startEvent c l)
    | none => s

/-- The clock advances by one cycle: every stream of every running job has its turn; hand-out, the governor's interval and the refresh
windows follow the clock (R4, R362, R405, R420). -/
def State.tick (s : State) : State :=
  let s : State := { s with
    now := s.now + 1
    waking := false
    cores := s.cores.map (fun e => (e.1, { e.2 with feOld := e.2.fe, job := e.2.job.map (fun j => { j with cxFirst := none }) }))
    turn := s.cores.flatMap (fun e => if e.2.job.isSome then [(e.1, .ld), (e.1, .sc), (e.1, .cx), (e.1, .st)] else []) }
  let s := s.cores.foldl (fun s e => s.beginCore e.1) s
  let s := if s.ports.isEmpty then s else s.servePorts
  let s := s.layout.foldl (fun s p => if (s.pooled p.1).isEmpty then s else s.postOnce s.now (.chunkHandout p.1)) s
  let s := if s.now % usCycles 1 = 0 then s.post s.now .governorInterval else s
  if s.now % refreshWindow = 0 then
    s.bases.foldl (fun s b => if b.2.acts.isEmpty && b.2.throttled.isEmpty then s else s.post s.now (.refreshWindowEnd b.1)) s
  else s

/-- The end of a cycle: streams woken in it have another turn, jobs that end in it end, and the clock advances. -/
def State.finishCycle (s : State) : State :=
  if !s.woken.isEmpty then { s with turn := s.woken, waking := true }
  else
    let s := s.settleCores
    if (s.due.head?.map (fun e => decide (e.1 ≤ s.now))).getD false then s else s.countLate.tick

/-- What is left of a cycle once every stream has had its turn: posted events, then its end. -/
def State.rest (s : State) : State × Option Instr :=
  match s.due with
  | (t, _, i) :: due => if t ≤ s.now then ({ s with due := due }, asEvent i) else (s.finishCycle, none)
  | [] => (s.finishCycle, none)

/-- The turn that comes next in a cycle. -/
def State.nextTurn (s : State) : State × Option Instr :=
  match s.turn with
  | (c, x) :: turn => ({ s with turn := turn } : State).visit c x
  | [] => s.rest

/-- What the machine does next: an event of the outside, a posted event that precedes the streams, the turn of a stream, another posted
event, or the next cycle (log entries 1 to 3). Where an instruction has to run, the state it runs in. -/
def State.next (s0 : State) : State × Option Instr :=
  let s : State := { s0 with cur := none }
  match s.inputs with
  | i :: inputs => ({ s with inputs := inputs }, if s.takes i then some i else none)
  | [] =>
    match s.due with
    | (t, early, i) :: due => if t < s.now || (t == s.now && early) then ({ s with due := due }, asEvent i) else s.nextTurn
    | [] => s.nextTurn

end Sys2Proof.Machine
end

