-- ==== Sys2Proof/Machine/Dispatch.lean ====
section
/-!
DEFINITION. One arm per instruction: its meaning.
-/

namespace Sys2Proof.Machine

/-- The meaning of each instruction and event. -/
def exec (i : Instr) (s : State) : Host.Outcome State Fault Refusal :=
  match i with
  | .nop g => Sys2Proof.Machine.execNop g s
  | .trap g b => Sys2Proof.Machine.execTrap g b s
  | .bkpt g => Sys2Proof.Machine.execBkpt g s
  | .yield g n => Sys2Proof.Machine.execYield g n s
  | .exit g => Sys2Proof.Machine.execExit g s
  | .rdv g => Sys2Proof.Machine.execRdv g s
  | .rendezvousRelease core => Sys2Proof.Machine.execRendezvousRelease core s
  | .pmark g b => Sys2Proof.Machine.execPmark g b s
  | .sysrd g d srn => Sys2Proof.Machine.execSysrd g d srn s
  | .syswr g srn b => Sys2Proof.Machine.execSyswr g srn b s
  | .cntrd o die => Sys2Proof.Machine.execCntrd o die s
  | .br o => Sys2Proof.Machine.execBr o s
  | .brl o => Sys2Proof.Machine.execBrl o s
  | .bri g a b => Sys2Proof.Machine.execBri g a b s
  | .bril o => Sys2Proof.Machine.execBril o s
  | .loop g l n len => Sys2Proof.Machine.execLoop g l n len s
  | .mloop g l n stg rv len => Sys2Proof.Machine.execMloop g l n stg rv len s
  | .lbrk g l => Sys2Proof.Machine.execLbrk g l s
  | .rep g n sd sa sb stride => Sys2Proof.Machine.execRep g n sd sa sb stride s
  | .pand o => Sys2Proof.Machine.execPand o s
  | .por o => Sys2Proof.Machine.execPor o s
  | .pxor o => Sys2Proof.Machine.execPxor o s
  | .pandn o => Sys2Proof.Machine.execPandn o s
  | .pmov g d na pa => Sys2Proof.Machine.execPmov g d na pa s
  | .qtest g d t => Sys2Proof.Machine.execQtest g d t s
  | .add o => Sys2Proof.Machine.execAdd o s
  | .sub o => Sys2Proof.Machine.execSub o s
  | .mul o => Sys2Proof.Machine.execMul o s
  | .mulh o => Sys2Proof.Machine.execMulh o s
  | .mulhu o => Sys2Proof.Machine.execMulhu o s
  | .div o => Sys2Proof.Machine.execDiv o s
  | .divu o => Sys2Proof.Machine.execDivu o s
  | .rem o => Sys2Proof.Machine.execRem o s
  | .remu o => Sys2Proof.Machine.execRemu o s
  | .madd o => Sys2Proof.Machine.execMadd o s
  | .lea o sh => Sys2Proof.Machine.execLea o sh s
  | .and o => Sys2Proof.Machine.execAnd o s
  | .or o => Sys2Proof.Machine.execOr o s
  | .xor o => Sys2Proof.Machine.execXor o s
  | .andn o => Sys2Proof.Machine.execAndn o s
  | .shl o => Sys2Proof.Machine.execShl o s
  | .shr o => Sys2Proof.Machine.execShr o s
  | .sra o => Sys2Proof.Machine.execSra o s
  | .rot o => Sys2Proof.Machine.execRot o s
  | .clz o => Sys2Proof.Machine.execClz o s
  | .popc o => Sys2Proof.Machine.execPopc o s
  | .bext o len => Sys2Proof.Machine.execBext o len s
  | .bins o len => Sys2Proof.Machine.execBins o len s
  | .min o => Sys2Proof.Machine.execMin o s
  | .max o => Sys2Proof.Machine.execMax o s
  | .minu o => Sys2Proof.Machine.execMinu o s
  | .maxu o => Sys2Proof.Machine.execMaxu o s
  | .sel o neg p => Sys2Proof.Machine.execSel o neg p s
  | .mov g d b => Sys2Proof.Machine.execMov g d b s
  | .cmp o c => Sys2Proof.Machine.execCmp o c s
  | .fadd o => Sys2Proof.Machine.execFadd o s
  | .fsub o => Sys2Proof.Machine.execFsub o s
  | .fmul o => Sys2Proof.Machine.execFmul o s
  | .ffma o => Sys2Proof.Machine.execFfma o s
  | .fmin o => Sys2Proof.Machine.execFmin o s
  | .fmax o => Sys2Proof.Machine.execFmax o s
  | .fcmp o c x => Sys2Proof.Machine.execFcmp o c x s
  | .fcvt o k => Sys2Proof.Machine.execFcvt o k s
  | .frnd o r => Sys2Proof.Machine.execFrnd o r s
  | .ld o => Sys2Proof.Machine.execLd o s
  | .vld o => Sys2Proof.Machine.execVld o s
  | .vldx o => Sys2Proof.Machine.execVldx o s
  | .pref g at_ scope mc => Sys2Proof.Machine.execPref g at_ scope mc s
  | .st o => Sys2Proof.Machine.execSt o s
  | .vst o => Sys2Proof.Machine.execVst o s
  | .vstx o => Sys2Proof.Machine.execVstx o s
  | .gst o => Sys2Proof.Machine.execGst o s
  | .galleryArrival id => Sys2Proof.Machine.execGalleryArrival id s
  | .sbind g m b data => Sys2Proof.Machine.execSbind g m b data s
  | .streamBlockFetch core str m => Sys2Proof.Machine.execStreamBlockFetch core str m s
  | .snext g m b => Sys2Proof.Machine.execSnext g m b s
  | .stest g d m c => Sys2Proof.Machine.execStest g d m c s
  | .sdrop g m => Sys2Proof.Machine.execSdrop g m s
  | .tlook g d b => Sys2Proof.Machine.execTlook g d b s
  | .tset g a b => Sys2Proof.Machine.execTset g a b s
  | .tinv g all a => Sys2Proof.Machine.execTinv g all a s
  | .feset o => Sys2Proof.Machine.execFeset o s
  | .feclr o => Sys2Proof.Machine.execFeclr o s
  | .fetest g d at_ => Sys2Proof.Machine.execFetest g d at_ s
  | .l1wb o => Sys2Proof.Machine.execL1wb o s
  | .l1inv o => Sys2Proof.Machine.execL1inv o s
  | .fence g k scope => Sys2Proof.Machine.execFence g k scope s
  | .aadd o => Sys2Proof.Machine.execAadd o s
  | .amin o => Sys2Proof.Machine.execAmin o s
  | .amax o => Sys2Proof.Machine.execAmax o s
  | .aand o => Sys2Proof.Machine.execAand o s
  | .aor o => Sys2Proof.Machine.execAor o s
  | .axor o => Sys2Proof.Machine.execAxor o s
  | .axch o => Sys2Proof.Machine.execAxch o s
  | .acas o => Sys2Proof.Machine.execAcas o s
  | .afadd o => Sys2Proof.Machine.execAfadd o s
  | .lda o => Sys2Proof.Machine.execLda o s
  | .stl o => Sys2Proof.Machine.execStl o s
  | .waitt o => Sys2Proof.Machine.execWaitt o s
  | .tlrd g d ctr sel => Sys2Proof.Machine.execTlrd g d ctr sel s
  | .tladv g d ctr b scope => Sys2Proof.Machine.execTladv g d ctr b scope s
  | .vadd o => Sys2Proof.Machine.execVadd o s
  | .vsub o => Sys2Proof.Machine.execVsub o s
  | .vmul o => Sys2Proof.Machine.execVmul o s
  | .vfma o => Sys2Proof.Machine.execVfma o s
  | .vmin o int => Sys2Proof.Machine.execVmin o int s
  | .vmax o int => Sys2Proof.Machine.execVmax o int s
  | .vabs o int => Sys2Proof.Machine.execVabs o int s
  | .vneg o int => Sys2Proof.Machine.execVneg o int s
  | .vand o => Sys2Proof.Machine.execVand o s
  | .vor o => Sys2Proof.Machine.execVor o s
  | .vxor o => Sys2Proof.Machine.execVxor o s
  | .vshl o => Sys2Proof.Machine.execVshl o s
  | .vshr o sra => Sys2Proof.Machine.execVshr o sra s
  | .viadd o => Sys2Proof.Machine.execViadd o s
  | .vimul o => Sys2Proof.Machine.execVimul o s
  | .vmov o int => Sys2Proof.Machine.execVmov o int s
  | .vbcst o => Sys2Proof.Machine.execVbcst o s
  | .vsel o int => Sys2Proof.Machine.execVsel o int s
  | .vshuf o => Sys2Proof.Machine.execVshuf o s
  | .vrot o dir => Sys2Proof.Machine.execVrot o dir s
  | .vext o sel => Sys2Proof.Machine.execVext o sel s
  | .vins o sel => Sys2Proof.Machine.execVins o sel s
  | .vcmp o c int x => Sys2Proof.Machine.execVcmp o c int x s
  | .kand g d ka kb => Sys2Proof.Machine.execKand g d ka kb s
  | .kor g d ka kb => Sys2Proof.Machine.execKor g d ka kb s
  | .knot g d ka => Sys2Proof.Machine.execKnot g d ka s
  | .kpopc g d ka lw k => Sys2Proof.Machine.execKpopc g d ka lw k s
  | .vcvt o k c => Sys2Proof.Machine.execVcvt o k c s
  | .vqnt o k f r => Sys2Proof.Machine.execVqnt o k f r s
  | .vdq o k f => Sys2Proof.Machine.execVdq o k f s
  | .vbmax o k f => Sys2Proof.Machine.execVbmax o k f s
  | .vred g a lw k rl op int => Sys2Proof.Machine.execVred g a lw k rl op int s
  | .vredLanding core => Sys2Proof.Machine.execVredLanding core s
  | .vrmov g d rl clr => Sys2Proof.Machine.execVrmov g d rl clr s
  | .vscan o op int excl => Sys2Proof.Machine.execVscan o op int excl s
  | .vsfu o f => Sys2Proof.Machine.execVsfu o f s
  | .vsmax o => Sys2Proof.Machine.execVsmax o s
  | .vrng g d unif lw k => Sys2Proof.Machine.execVrng g d unif lw k s
  | .noiseGrant bay => Sys2Proof.Machine.execNoiseGrant bay s
  | .resultDelivery core str => Sys2Proof.Machine.execResultDelivery core str s
  | .lease g nb => Sys2Proof.Machine.execLease g nb s
  | .leaseGrant bay => Sys2Proof.Machine.execLeaseGrant bay s
  | .lrel g => Sys2Proof.Machine.execLrel g s
  | .mma o => Sys2Proof.Machine.execMma o s
  | .mmas o => Sys2Proof.Machine.execMmas o s
  | .mzero g acc => Sys2Proof.Machine.execMzero g acc s
  | .kStepEntry bay => Sys2Proof.Machine.execKStepEntry bay s
  | .sparsityStallTimeout bay => Sys2Proof.Machine.execSparsityStallTimeout bay s
  | .arrayCommandComplete core => Sys2Proof.Machine.execArrayCommandComplete core s
  | .mfmt g n b => Sys2Proof.Machine.execMfmt g n b s
  | .mscl g n flt b => Sys2Proof.Machine.execMscl g n flt b s
  | .msq g n a b => Sys2Proof.Machine.execMsq g n a b s
  | .mret g d ctr acc a b => Sys2Proof.Machine.execMret g d ctr acc a b s
  | .retirementStart core => Sys2Proof.Machine.execRetirementStart core s
  | .retirementComplete core => Sys2Proof.Machine.execRetirementComplete core s
  | .wcsld o n => Sys2Proof.Machine.execWcsld o n s
  | .wbind g a b => Sys2Proof.Machine.execWbind g a b s
  | .wunb g all a => Sys2Proof.Machine.execWunb g all a s
  | .wcsrd g a b n => Sys2Proof.Machine.execWcsrd g a b n s
  | .wstat g d b sel => Sys2Proof.Machine.execWstat g d b sel s
  | .customOpcode o => Sys2Proof.Machine.execCustomOpcode o s
  | .microStep core => Sys2Proof.Machine.execMicroStep core s
  | .pageFetch core => Sys2Proof.Machine.execPageFetch core s
  | .ltag o => Sys2Proof.Machine.execLtag o s
  | .lfree g a => Sys2Proof.Machine.execLfree g a s
  | .ldesc g a b => Sys2Proof.Machine.execLdesc g a b s
  | .lsend g row b nb => Sys2Proof.Machine.execLsend g row b nb s
  | .lstat g d a => Sys2Proof.Machine.execLstat g d a s
  | .lorph g d a => Sys2Proof.Machine.execLorph g d a s
  | .fragmentArrival id => Sys2Proof.Machine.execFragmentArrival id s
  | .fragmentAnswer id => Sys2Proof.Machine.execFragmentAnswer id s
  | .fragmentResend id => Sys2Proof.Machine.execFragmentResend id s
  | .overflowReadback id => Sys2Proof.Machine.execOverflowReadback id s
  | .landingDelivery id => Sys2Proof.Machine.execLandingDelivery id s
  | .orphanTimeout id => Sys2Proof.Machine.execOrphanTimeout id s
  | .cego o => Sys2Proof.Machine.execCego o s
  | .cestop g => Sys2Proof.Machine.execCestop g s
  | .cestat g d => Sys2Proof.Machine.execCestat g d s
  | .chainCopy core => Sys2Proof.Machine.execChainCopy core s
  | .chainLoop core => Sys2Proof.Machine.execChainLoop core s
  | .chainIf core => Sys2Proof.Machine.execChainIf core s
  | .chainWait core => Sys2Proof.Machine.execChainWait core s
  | .chainSignal core => Sys2Proof.Machine.execChainSignal core s
  | .chainNotify core => Sys2Proof.Machine.execChainNotify core s
  | .chainEnd core => Sys2Proof.Machine.execChainEnd core s
  | .ctab g a b => Sys2Proof.Machine.execCtab g a b s
  | .ctile g d ctr a b => Sys2Proof.Machine.execCtile g d ctr a b s
  | .tileFireComplete ctx tile => Sys2Proof.Machine.execTileFireComplete ctx tile s
  | .cringSet g a b => Sys2Proof.Machine.execCringSet g a b s
  | .cringDone g d a => Sys2Proof.Machine.execCringDone g d a s
  | .cringStat g d a => Sys2Proof.Machine.execCringStat g d a s
  | .rslotReq g d a b => Sys2Proof.Machine.execRslotReq g d a b s
  | .rslotRel g a => Sys2Proof.Machine.execRslotRel g a s
  | .rslotAnswer ctx ch slot => Sys2Proof.Machine.execRslotAnswer ctx ch slot s
  | .stepSend ctx ch => Sys2Proof.Machine.execStepSend ctx ch s
  | .stepRecv ctx ch => Sys2Proof.Machine.execStepRecv ctx ch s
  | .stepReduce ctx ch => Sys2Proof.Machine.execStepReduce ctx ch s
  | .stepWaitf ctx ch => Sys2Proof.Machine.execStepWaitf ctx ch s
  | .stepNext ctx ch => Sys2Proof.Machine.execStepNext ctx ch s
  | .fabricAckTimeout ctx ch => Sys2Proof.Machine.execFabricAckTimeout ctx ch s
  | .stepWaitTimeout ctx ch => Sys2Proof.Machine.execStepWaitTimeout ctx ch s
  | .staggerRelease ctx ch => Sys2Proof.Machine.execStaggerRelease ctx ch s
  | .instructionFetch core str => Sys2Proof.Machine.execInstructionFetch core str s
  | .memoryAccessPerformed core str => Sys2Proof.Machine.execMemoryAccessPerformed core str s
  | .lateFault core str => Sys2Proof.Machine.execLateFault core str s
  | .storeAck core id => Sys2Proof.Machine.execStoreAck core id s
  | .homeRequestApply base => Sys2Proof.Machine.execHomeRequestApply base s
  | .queueDeadlock core str => Sys2Proof.Machine.execQueueDeadlock core str s
  | .timelineWaitTimeout core str => Sys2Proof.Machine.execTimelineWaitTimeout core str s
  | .fullEmptyTimeout core str => Sys2Proof.Machine.execFullEmptyTimeout core str s
  | .drawWaitTimeout core str => Sys2Proof.Machine.execDrawWaitTimeout core str s
  | .wcsldWaitTimeout core => Sys2Proof.Machine.execWcsldWaitTimeout core s
  | .landingCreditTimeout core => Sys2Proof.Machine.execLandingCreditTimeout core s
  | .jobStart core => Sys2Proof.Machine.execJobStart core s
  | .jobCompletion core => Sys2Proof.Machine.execJobCompletion core s
  | .operatorRecord q => Sys2Proof.Machine.execOperatorRecord q s
  | .collectiveRecord q => Sys2Proof.Machine.execCollectiveRecord q s
  | .waitRecord q => Sys2Proof.Machine.execWaitRecord q s
  | .waitRecordPoll rec => Sys2Proof.Machine.execWaitRecordPoll rec s
  | .signalRecord q => Sys2Proof.Machine.execSignalRecord q s
  | .tiletabRecord q => Sys2Proof.Machine.execTiletabRecord q s
  | .csimageRecord q => Sys2Proof.Machine.execCsimageRecord q s
  | .rslotRecord q => Sys2Proof.Machine.execRslotRecord q s
  | .recordReady rec => Sys2Proof.Machine.execRecordReady rec s
  | .chunkHandout part => Sys2Proof.Machine.execChunkHandout part s
  | .recordCompletion rec => Sys2Proof.Machine.execRecordCompletion rec s
  | .timeSliceExpiry core => Sys2Proof.Machine.execTimeSliceExpiry core s
  | .newelElection part => Sys2Proof.Machine.execNewelElection part s
  | .preemptionStopComplete core => Sys2Proof.Machine.execPreemptionStopComplete core s
  | .contextRestore core => Sys2Proof.Machine.execContextRestore core s
  | .yieldDeadline ctx => Sys2Proof.Machine.execYieldDeadline ctx s
  | .refreshWindowEnd base => Sys2Proof.Machine.execRefreshWindowEnd base s
  | .shootdownComplete fn => Sys2Proof.Machine.execShootdownComplete fn s
  | .migrationCopy fn => Sys2Proof.Machine.execMigrationCopy fn s
  | .repartitionDone => Sys2Proof.Machine.execRepartitionDone s
  | .governorInterval => Sys2Proof.Machine.execGovernorInterval s
  | .profilingSliceEnd part => Sys2Proof.Machine.execProfilingSliceEnd part s
  | .traceRecordWrite core => Sys2Proof.Machine.execTraceRecordWrite core s
  | .fabricLineArrival pa line => Sys2Proof.Machine.execFabricLineArrival pa line s
  | .fabricLinkFailure port => Sys2Proof.Machine.execFabricLinkFailure port s
  | .staggerMessage group nslot step => Sys2Proof.Machine.execStaggerMessage group nslot step s
  | .remoteRequest pa op => Sys2Proof.Machine.execRemoteRequest pa op s
  | .noiseHealthFail bay => Sys2Proof.Machine.execNoiseHealthFail bay s
  | .kick fn q tail => Sys2Proof.Machine.execKick fn q tail s
  | .dieFence die => Sys2Proof.Machine.execDieFence die s
  | .boundaryFailure dieA dieB => Sys2Proof.Machine.execBoundaryFailure dieA dieB s
  | .faultReply fn => Sys2Proof.Machine.execFaultReply fn s
  | .archStateError core detail => Sys2Proof.Machine.execArchStateError core detail s
  | .hbmUncorrectable loc => Sys2Proof.Machine.execHbmUncorrectable loc s
  | .correctableError unit die loc addr => Sys2Proof.Machine.execCorrectableError unit die loc addr s
  | .rowActivation base bank row key => Sys2Proof.Machine.execRowActivation base bank row key s
  | .tsdGo fn => Sys2Proof.Machine.execTsdGo fn s
  | .migStart fn => Sys2Proof.Machine.execMigStart fn s
  | .migEnd fn => Sys2Proof.Machine.execMigEnd fn s
  | .migAbort fn => Sys2Proof.Machine.execMigAbort fn s
  | .cxlMemRead fn off n => Sys2Proof.Machine.execCxlMemRead fn off n s
  | .cxlMemWrite fn off bytes => Sys2Proof.Machine.execCxlMemWrite fn off bytes s
  | .pcfgGo new => Sys2Proof.Machine.execPcfgGo new s
  | .ctxCreate fn cmd => Sys2Proof.Machine.execCtxCreate fn cmd s
  | .ctxDestroy fn cmd => Sys2Proof.Machine.execCtxDestroy fn cmd s
  | .qCreate fn cmd => Sys2Proof.Machine.execQCreate fn cmd s
  | .qDestroy fn cmd => Sys2Proof.Machine.execQDestroy fn cmd s
  | .qPolicy fn cmd => Sys2Proof.Machine.execQPolicy fn cmd s
  | .ctxPolicy fn cmd => Sys2Proof.Machine.execCtxPolicy fn cmd s
  | .preempt fn cmd => Sys2Proof.Machine.execPreempt fn cmd s
  | .ctxResume fn cmd => Sys2Proof.Machine.execCtxResume fn cmd s
  | .vfAssign fn cmd => Sys2Proof.Machine.execVfAssign fn cmd s
  | .modnum fn cmd => Sys2Proof.Machine.execModnum fn cmd s
  | .fwreg fn cmd => Sys2Proof.Machine.execFwreg fn cmd s
  | .pwrstagSend fn cmd => Sys2Proof.Machine.execPwrstagSend fn cmd s
  | .cxlwin fn cmd => Sys2Proof.Machine.execCxlwin fn cmd s
  | .keyid fn cmd => Sys2Proof.Machine.execKeyid fn cmd s
  | .tdispLockInterface fn => Sys2Proof.Machine.execTdispLockInterface fn s
  | .spdmRequest op => Sys2Proof.Machine.execSpdmRequest op s
  | .moduleReset code => Sys2Proof.Machine.execModuleReset code s
  | .hostLinkTraining lanes rate => Sys2Proof.Machine.execHostLinkTraining lanes rate s
  | .prfReq fn => Sys2Proof.Machine.execPrfReq fn s
  | .prfRel fn => Sys2Proof.Machine.execPrfRel fn s
  | .dbgStop fn => Sys2Proof.Machine.execDbgStop fn s
  | .dbgResume fn => Sys2Proof.Machine.execDbgResume fn s
  | .registerWrite fn off val => Sys2Proof.Machine.execRegisterWrite fn off val s
  | .noiseHealthRecover bay => Sys2Proof.Machine.execNoiseHealthRecover bay s
  | .functionReset fn => Sys2Proof.Machine.execFunctionReset fn s
  | .tdispStartInterface fn => Sys2Proof.Machine.execTdispStartInterface fn s
  | .tdispStopInterface fn => Sys2Proof.Machine.execTdispStopInterface fn s

end Sys2Proof.Machine
end

