-- ==== Sys2Proof/Machine/Place.lean ====
section
/-!
DEFINITION. A program placed from outside: a running job whose next turn fetches a given instruction (log entry 7).
-/

namespace Sys2Proof.Machine

/-- Bytes placed within one line at a LOCAL address under key id 0. -/
def State.place (s : State) (l : Nat) (bs : List Byte) : State :=
  { s.homePut 0 l (fullMask bs) with poison := tput 0 s.poison (l / 128) 0 }

/-- The LOCAL address of the first byte of a placed program, which is also its virtual address. -/
def progBase : Nat := 0x40000000

/-- A table entry (R395): valid, with the further bits given, at an address of this module. -/
def State.tableEntry (s : State) (bits l : Nat) : List Byte := leBytes (s.ownMod * 2 ^ 47 + l + bits) 8

/-- Translation tables that map the second GiB of a context's space onto the second GiB of the module, readable, writable and
executable: a root at 0, a directory at 0x1000 and a leaf table at 0x2000 (R394, R395). -/
def State.placeTables (s : State) : State :=
  ((s.place 0 (s.tableEntry 1 0x1000)).place 0x1000 (s.tableEntry 1 0x2000)).place 0x2008 (s.tableEntry (31 + 10 * 64) progBase)

/-- The context of a placed program. -/
def State.placedCtx (s : State) : Ctx :=
  { fn := 0, asid := 1, root := s.ownMod * 2 ^ 47, part := 0, pool := 0, trapa := 0x40100000, landa := 0x40200000, ovfn := 0, savea := 0x40300000,
    savesz := 256, kslot := 0 }

/-- The job of a placed program: every stream at its first byte. -/
def placedJob (pc : VAddr) : Job :=
  { emptyJob with ctx := 1, sc := { pc := pc, entry := pc }, ld := { pc := pc, entry := pc }, cx := { pc := pc, entry := pc },
                  st := { pc := pc, entry := pc } }

/-- The stream that fetches a placed word: the first of SC, LD, CX, ST on which it decodes. -/
def placedStrm (w : Nat) : Strm :=
  let ok := fun (x : Strm) => (decode x (BitVec.ofNat 64 w) (BitVec.ofNat 32 (w >>> 64))).isOk
  if ok .sc then .sc else if ok .ld then .ld else if ok .cx then .cx else if ok .st then .st else .sc

/-- A state in which core 0 runs a job of context 1 whose next turn fetches the placed word. -/
def State.placeWord (s : State) (w : Nat) : State :=
  let s := s.placeTables.place progBase (leBytes w 12)
  let s := s.modPool 0 (fun p => { p with keys := if p.keys.contains 0 then p.keys else 0 :: p.keys })
  { s with
    ctxs := tput none s.ctxs 1 (some s.placedCtx)
    cores := tput {} s.cores 0 { job := some (placedJob (BitVec.ofNat 56 progBase)) }
    turn := [(0, placedStrm w)]
    inputs := []
    due := [] }

end Sys2Proof.Machine
end

