-- ==== Sys2Proof/Machine/Step.lean ====
section
/-!
DEFINITION. One step of the machine, and a state whose next step runs a given word.
-/

namespace Sys2Proof.Machine

/-- One step: what the machine does next, and the instruction or event it runs, if any (log entries 1 to 3). -/
def step (s : State) : Host.Outcome State Fault Refusal :=
  match s.next with
  | (s', none) => .next s'
  | (s', some i) => exec i s'

/-- The state with an instruction placed where the next step fetches it (log entry 7): the words lie in memory as a program's do, in
bytes of rising address, least significant first (R3, R32). -/
def State.withFetchWord (s : State) (_nbits w : Nat) : State := s.placeWord w

end Sys2Proof.Machine
end

