-- ==== Sys2Proof/Safety.lean ====
section
/-!
DEFINITION. What a safe run is, and the words the statements share: an instruction that can run, its readable operands, the delivery of its result.
-/

namespace Sys2Proof.Machine

/-! ### Safe steps and the invariant of memory -/

/-- The machine goes on: the step answers a next state. -/
def State.goesOn (s : State) : Prop := ∃ t, step s = .next t

/-- HBM is in canonical form: addresses strictly rising, no byte listed that reads 0 anyway (log entry 5). -/
def State.memOk (s : State) : Prop := Memory.wf s.hbm = true

/-! ### An instruction at issue -/

/-- No loop of the stream stops the instruction at issue: no KIND 2 trace record is due (R437), and the instruction does not reach past
the end of the body it stands in (R120 subcode 2). -/
def State.loopFree (s : State) (u : Cur) : Prop :=
  match (s.strmAt u.core u.strm).loops.head? with
  | none => True
  | some l =>
    (l.traced = true ∨ (s.strmAt u.core u.strm).pc ≠ l.start ∨ (s.strmAt u.core u.strm).rep.isSome = true
      ∨ (s.core u.core).obs.trc.getLsbD 1 = false)
    ∧ (l.holds u.pc = false ∨ u.pc.toNat + u.size ≤ l.fin.toNat)

/-- An instruction of slot `u` guarded by `g` runs: its core has a job, its predicate holds, and no loop stops it. -/
structure Runs (s : State) (u : Cur) (g : Guard) : Prop where
  cur : s.cur = some u
  job : (s.core u.core).job.isSome = true
  holds : guardHolds g (s.strmAt u.core u.strm) = true
  free : s.loopFree u

/-- A trap that an instruction of slot `u` raises is taken now: it is the first of its cycle, and every earlier access of its stream has been
performed (R105, R370). -/
def State.trapsNow (s : State) (u : Cur) : Prop := u.second = false ∧ (s.strmAt u.core u.strm).log = []

/-- Instruction `i` completes: it retires from the state its own effect left, and its stream continues as `f` says. -/
def Completes (i : Instr) (s : State) (u : Cur) (f : Flow) (t : State) : Prop := exec i s = .next (t.retire u f)

/-! ### Readable operands

Each answers `.ok` where every named queue has space and every source can be read now: its values, and the state with their pops made
(R40, R99, R100, R156). -/

/-- The source of an instruction that delivers nothing. -/
def source1 (u : Cur) (a : Src) : M Word := do
  ensure u [.scalar a]
  readScalar u a

/-- The two sources of an instruction that delivers nothing. -/
def source2 (u : Cur) (a b : Src) : M (Word × Word) := do
  ensure u [.scalar a, .scalar b]
  let x ← readScalar u a
  let y ← readScalar u b
  pure (x, y)

/-- Space for the delivery, and one source. -/
def operand1 (u : Cur) (d : Dest) (a : Src) : M Word := do
  needSpace u d
  source1 u a

/-- Space for the delivery, and two sources. -/
def operand2 (u : Cur) (d : Dest) (a b : Src) : M (Word × Word) := do
  needSpace u d
  source2 u a b

/-- Space for the delivery, two sources, and DST as the third (R106). -/
def operand3 (u : Cur) (d : Dest) (a b : Src) : M (Word × Word × Word) := do
  needSpace u d
  ensure u [.scalar a, .scalar b, .scalar (destSrc d)]
  let x ← readScalar u a
  let y ← readScalar u b
  let z ← readDst u d
  pure (x, y, z)

/-- Space for the delivery, and one floating-point source as a W36 image (R111). -/
def floats1 (u : Cur) (d : Dest) (a : Src) : M Nat := do
  needSpace u d
  ensure u [.scalar a]
  readFloat u a

/-- Space for the delivery, and two floating-point sources (R111). -/
def floats2 (u : Cur) (d : Dest) (a b : Src) : M (Nat × Nat) := do
  needSpace u d
  ensure u [.scalar a, .scalar b]
  let x ← readFloat u a
  let y ← readFloat u b
  pure (x, y)

/-- Space for the delivery, two floating-point sources, and DST as the third (R112). -/
def floats3 (u : Cur) (d : Dest) (a b : Src) : M (Nat × Nat × Nat) := do
  needSpace u d
  ensure u [.scalar a, .scalar b, .scalar (destSrc d)]
  let x ← readFloat u a
  let y ← readFloat u b
  let z ← readDst u d
  pure (x, y, w36 z)

/-! ### Results -/

/-- A scalar or predicate register of the issuing stream written, a result of CX with latency `lat` (R38, R237). -/
def State.wroteReg (s : State) (u : Cur) (r : Reg) (w : Word) (lat : Nat) : State :=
  match writeReg u r w lat s with
  | .ok _ t => t
  | .error _ t => t

/-- The state with a scalar result handed to its register and its queues (R39). -/
def State.delivered (s : State) (u : Cur) (d : Dest) (w : Word) : State :=
  (match d.reg with
   | some r => s.wroteReg u r w 1
   | none => s).modJob u.core (fun j => j.pushAll u.strm d (.full w))

/-- The state with floating-point flags set for the issuing stream (R80). -/
def State.flagged (s : State) (u : Cur) (f : Flg) : State := s.modStrm u.core u.strm (fun x => x.orAsr f)

/-- The state with a row handed to its register and the vector queue (R39). -/
def State.rowDelivered (s : State) (u : Cur) (d : Dest) (r : Row) (lat : Nat) (keep : Bool := false) : State :=
  match deliverRow u d r lat keep s with
  | .ok _ t => t
  | .error _ t => t

/-! ### Memory instructions that may make their access

Each answers `.ok` where the operands can be read, the address passes the checks of R157, and no granule, order, bank or watchpoint holds or
stops the access: the addressed area, and the state with the pops made. -/

/-- The address of F-M, both sources readable (R44). -/
def address (u : Cur) (m : MAddr) : M Int := do
  ensure u (addrRds m)
  readAddr u m

/-- A checked access of n bytes that may be made now (R149, R157, R177, R439). -/
def mayAccess (u : Cur) (a : Int) (n al : Nat) (q : Fe) (rd wr : Bool) : M Area := do
  let ar ← areaOf u a n al (q != .none)
  if rd then waitFull u ar n q
  orderAt u ar n
  watch u a.toNat n rd wr
  pure ar

/-- A scalar load may make its access: address and area (R160). -/
def loadReady (u : Cur) (o : LdOps) : M (Int × Area) := do
  needSpace u o.d
  ensure u (addrRds o.at_)
  needLogEntry u false
  let a ← readAddr u o.at_
  let ar ← mayAccess u a (2 ^ o.sz.toNat) (2 ^ o.sz.toNat) o.fe true false
  pure (a, ar)

/-- A row load of an address may make its access: format, address and area (R161). -/
def rowLoadReady (u : Cur) (o : VldOps) : M (MFmt × Int × Area) := do
  let f ← getFmt u o.fmt.toNat
  needSpace u (pushDest o.push)
  ensure u (addrRds o.at_)
  needLogEntry u false
  let a ← readAddr u o.at_
  let ar ← mayAccess u a (runBytes f.width (laneN o.lw)) 16 o.fe true false
  pure (f, a, ar)

/-- A gather may make its accesses: format and areas, lane by lane (R162). -/
def gatherReady (u : Cur) (o : VldOps) : M (MFmt × List Area) := do
  let f ← getFmt u o.fmt.toNat
  trapIf (decide (f.width < 8)) { cause := 0x01, reason := 8 }
  needSpace u (pushDest o.push)
  ensure u (addrRds o.at_)
  needLogEntry u false
  let base ← readScalar u o.at_.base
  let i ← readScalar u o.at_.idx
  let offs ← readOffsets u i.toInt (laneN o.lw)
  let ars ← laneAreas u f (base.toInt + litOf o.at_.idx) offs
  for ar in ars do
    orderAt u ar (runBytes f.width 1)
  for ar in ars do
    watch u ar.va (runBytes f.width 1) true false
  pure (f, ars)

/-- A scalar store may make its access: data, address and area (R164). -/
def storeReady (u : Cur) (o : StOps) : M (Word × Int × Area) := do
  ensure u (addrRds o.at_ ++ [.scalar o.data])
  needLogEntry u true
  let a ← readAddr u o.at_
  let w ← readScalar u o.data
  let ar ← areaOf u a (2 ^ o.sz.toNat) (2 ^ o.sz.toNat) (o.fe != .none)
  orderAt u ar (2 ^ o.sz.toNat)
  watch u a.toNat (2 ^ o.sz.toNat) false true
  pure (w, a, ar)

/-- A row store outside rounding mode 5 may make its access: format, row, address and area (R165). -/
def rowStoreReady (u : Cur) (o : VstOps) : M (MFmt × Row × Int × Area) := do
  let f ← rowFmt u o.fmt.toNat o.lw
  ensure u (addrRds o.at_ ++ [.stRow])
  needLogEntry u true
  let a ← readAddr u o.at_
  let row ← popRow u .cx
  let ar ← areaOf u a (runBytes f.width (laneN o.lw)) 16 (o.fe != .none)
  orderAt u ar (runBytes f.width (laneN o.lw))
  watch u a.toNat (runBytes f.width (laneN o.lw)) false true
  pure (f, row, a, ar)

/-- A scatter outside rounding mode 5 may make its accesses: format, row and areas (R166). -/
def scatterReady (u : Cur) (o : VstOps) : M (MFmt × Row × List Area) := do
  let f ← rowFmt u o.fmt.toNat o.lw
  trapIf (decide (f.width < 8)) { cause := 0x01, reason := 8 }
  ensure u (addrRds o.at_ ++ [.stRow])
  needLogEntry u true
  let base ← readScalar u o.at_.base
  let i ← readScalar u o.at_.idx
  let row ← popRow u .cx
  let offs ← readOffsets u i.toInt (laneN o.lw)
  let ars ← laneAreas u f (base.toInt + litOf o.at_.idx) offs
  for ar in ars do
    orderAt u ar (runBytes f.width 1)
  for ar in ars do
    watch u ar.va (runBytes f.width 1) false true
  pure (f, row, ars)

/-- A gallery store of n bytes may leave: its address, and the members of the window that holds it (R153, R167). -/
def galleryReady (u : Cur) (row : Bool) (a : Int) (n al : Nat) : M (List Nat) := do
  let ms ← gstAddr u a n al
  watch u a.toNat n false true
  needGallery u row
  pure ms

/-- The free choice whether an access that may be performed later is (R175, log entry 9), and the state after it. -/
def State.defers (s : State) (may : Bool) : Bool × State := if may then s.drawBit else (false, s)

/-- The granules a `.fec` load reads become empty (R149). -/
def State.emptied (s : State) (u : Cur) (ar : Area) (n : Nat) (q : Fe) : State :=
  match ar, q with
  | .spad o, .fec => s.modCore u.core (fun k => { k with fe := setGranules k.fe o n false })
  | _, _ => s

/-- The value of loaded bytes, least significant first (R3). -/
def loadedWord (bs : List (Byte × Bool)) : Word := BitVec.ofNat 64 (leNat (bs.map (·.1)))

/-- The operand-log entry that an instruction at slot `u` leaves, with all it has popped (R373). -/
def logged (s : State) (u : Cur) (scope : Scope) (op : LogOp) (fills : List Nat) : LogEnt :=
  { id := s.ids, pc := u.pc, word := u.word, lit := u.lit, repk := u.repk, scope := scope, op := op, fills := fills,
    row := s.cur.bind (·.poppedRow), pops := (s.cur.map (·.pops)).getD [] }

/-- The state with an identifier given out. -/
def State.idTaken (s : State) : State := { s with ids := s.ids + 1 }

/-- The state with an entry put in the operand log (R373). -/
def State.entered (s : State) (u : Cur) (e : LogEnt) : State := s.modStrm u.core u.strm (fun x => { x with log := x.log ++ [e] })

/-- The state with an access put in the operand log, to be performed later (R373). -/
def State.logging (s : State) (u : Cur) (e : LogEnt) : State := (s.entered u e).postOnce (s.now + 1) (.memoryAccessPerformed u.core u.strm)

/-- The state with an access put in the operand log whose late fault is taken in this cycle (R373, R374). -/
def State.faulting (s : State) (u : Cur) (e : LogEnt) : State := (s.entered u e).postOnce s.now (.lateFault u.core u.strm)

/-- The state with the queue entries of a scalar delivery reserved for a result to come (R99). -/
def State.reserved (s : State) (u : Cur) (d : Dest) (id : Nat) : State := s.modJob u.core (fun j => j.pushAll u.strm d (.resv id))

/-- The state with a gallery store handed to its network, and its entry in the operand log (R153, R373). -/
def State.galleried (s : State) (u : Cur) (row : Bool) (ms : List Nat) (a : Nat) (bs : List (Byte × Byte)) : State :=
  let r := s.galleryStore u.core row ms a bs
  r.2.idTaken.entered u (logged r.2 u .strm (.gst r.1) [])

/-- Uncorrectable data under `.zfill`: p7 is set and an error record of type 1 written (R158). -/
def State.zeroFilled (s : State) (u : Cur) (va : Nat) : State :=
  (s.modStrm u.core u.strm (fun x => x.setPred 7 true)).poisonError u.core (s.jobAt u.core).ctx va 1

/-- The acquire of a satisfied WAITT: the loads before it come before every later access, and those that have not returned acquire as they
do (R177, R201). -/
def State.waitAcquired (s : State) (u : Cur) (scope : Scope) : State :=
  (s.acquire u.core u.strm scope false).modStrm u.core u.strm (fun x => { x with
    acqAt := s.ids
    log := x.log.map (fun e => if e.op.loads then { e with acq := some (scopeMax scope (e.acq.getD .strm)) } else e) })

/-- Atomic `i` of n bytes at an area completes: at local memory the old element gives way to its function's value in one step, at translated
memory of the module it does so at its home, and the flags and the delivery are those of the old value; on another module's memory, and where a
translation faults, entry `op` stands in the operand log with the delivery's queue entries reserved (R174, R198, R199, R373). -/
def AtomicRuns (i : Instr) (s s1 : State) (u : Cur) (ar : Area) (d : Dest) (n : Nat) (op : Nat → LogOp) (f : Nat → Nat) (fl : Nat → Flg)
    (out : Nat → Word) : Prop :=
  (∀ o m, ar = .spad o → s1.localBad u.core ar n = none → m = leNat (readBytes (s1.core u.core).spad o n) → Completes i s u .next
    (((s1.spadWrite u.core o (fullMask (leBytes (f m) n)) false).flagged u (fl m)).delivered u d (out m)))
  ∧ (∀ o m, ar = .cluster o → s1.localBad u.core ar n = none → m = leNat (s1.clusterRead u.core o n) → Completes i s u .next
    (((s1.clusterWrite u.core o (fullMask (leBytes (f m) n))).flagged u (fl m)).delivered u d (out m)))
  ∧ (∀ va ps s2 s3 m, ar = .trans va → s1.translateRange u.core (s1.jobAt u.core).ctx va n .rw = (s2, .ok ps) →
    paMod (ps.headD (0, 0)).1 = s2.ownMod → s2.atomicHome u.core u.strm va (ps.headD (0, 0)).1 n f = (s3, .ok m) →
    Completes i s u .next ((s3.flagged u (fl m)).delivered u d (out m)))
  ∧ (∀ va s2 e, ar = .trans va → e = { logged s1 u .strm (op va) ((destStrms d).map (qNum u.strm)) with reg := d.reg } →
    (∀ ps, s1.translateRange u.core (s1.jobAt u.core).ctx va n .rw = (s2, .ok ps) → paMod (ps.headD (0, 0)).1 ≠ s2.ownMod →
      Completes i s u .next (((s1.idTaken.reserved u d e.id).entered u e).modStrm u.core u.strm (fun x => { x with replay := true })))
    ∧ ∀ x, s1.translateRange u.core (s1.jobAt u.core).ctx va n .rw = (s2, .error x) →
      Completes i s u .next ((s1.idTaken.reserved u d e.id).faulting u e))

/-- A stream register bound or unbound (R155). -/
def State.setM (s : State) (c : Nat) (x : Strm) (m : BitVec 3) (r : Option MReg) : State :=
  s.modStrm c x (fun v => { v with m := tput none v.m m.toNat r })

/-- A register after the fetch of its next block (R156). -/
def MReg.withBlock (r : MReg) (bs : List (Byte × Bool)) : MReg :=
  { r with buf := r.buf ++ [{ index := r.pos + r.buf.length, bytes := some (bs.map (·.1)) }] }

/-- A DATA register goes on fetching, another does not (R156). -/
def State.kickIf (s : State) (data : Bool) (c : Nat) (x : Strm) (m : BitVec 3) : State := if data then s.kickFetch c x m else s

/-- A TLADV of n numbers with nothing to wait for (R203). -/
def advOf (x : Strm) (ctr : BitVec 4) (iss : Word) (n : Nat) (scope : Scope) : Adv :=
  { strm := x, ctr := ctr, first := iss.toNat + 1, n := n, scope := scope, log := [], acks := [] }

/-- A stream of a core waits, runs otherwise, has no earlier access unperformed and is in no routine (R102, R370). -/
structure WaitsLong (s : State) (c : Nat) (x : Strm) (w : Wait) (n : Nat) : Prop where
  job : (s.core c).job.isSome = true
  live : (s.strmAt c x).live = true
  wait : (s.strmAt c x).wait = some (w, n)
  log : (s.strmAt c x).log = []
  micro : x = .cx → (s.jobAt c).micro = none

/-- A stream whose wait of 2^24 cycles ends in a trap (R102). -/
def State.expired (s : State) (c : Nat) (x : Strm) (t : Trap) : State :=
  (s.modStrm c x (fun v => { v with wait := none })).takeTrapOf c (.stream x) t (some (s.waitSlot c x))

/-! ### Vector operands and results -/

/-- Two vector sources of a lane operation and the old destination lanes, all readable (R207 to R209). -/
def lanes2 (u : Cur) (o : VOps) (int rd : Bool) : M (List Nat × List Nat × List Nat) := do
  needSpace u o.d
  needRowWrite u o.d
  ensure u ([.vec o.a, .vec o.b] ++ dstRd o.d o.k rd)
  let a ← readVec u o.lw int o.a
  let b ← readVec u o.lw int o.b
  let d ← oldRow u o.d
  pure (rowLanes o.lw a, rowLanes o.lw b, rowLanes o.lw d)

/-- One vector source of a lane operation. -/
def lanes1 (u : Cur) (o : VOps1) (int : Bool) : M (List Nat) := do
  needSpace u o.d
  needRowWrite u o.d
  ensure u ([.vec o.a] ++ dstRd o.d o.k false)
  let a ← readVec u o.lw int o.a
  pure (rowLanes o.lw a)

/-- A row and a scalar, of a move that writes lanes (R215). -/
def laneScalar (u : Cur) (o : VOps) : M (List Nat × Word) := do
  needSpace u o.d
  needRowWrite u o.d
  ensure u ([.vec o.a, .scalar o.b] ++ dstRd o.d o.k false)
  let a ← readVec u o.lw false o.a
  let b ← readScalar u o.b
  pure (rowLanes o.lw a, b)

/-- Two vector sources of a comparison, which delivers to a mask (R217). -/
def cmpLanes (u : Cur) (o : VOps) (int : Bool) : M (List Nat × List Nat) := do
  ensure u [.vec o.a, .vec o.b]
  let a ← readVec u o.lw int o.a
  let b ← readVec u o.lw int o.b
  pure (rowLanes o.lw a, rowLanes o.lw b)

/-- A row of elements or lanes and a row of scales, of a block conversion (R221 to R223). -/
def blockRows (u : Cur) (o : ROps) (k : BitVec 4) : M (Row × List Nat) := do
  needSpace u o.d
  needRowWrite u o.d
  ensure u ([.vec o.a, .vec o.b] ++ dstRd o.d k false)
  let a ← readVec u false false o.a
  let b ← readVec u false false o.b
  pure (a, rowLanes false b)

/-- The lanes of an operation delivered under its mask, with the flags of the included ones (R207, R211, R214). -/
def State.lanesPut (s : State) (u : Cur) (d : Dest) (lw : Bool) (k : BitVec 4) (lat : Nat) (f : Nat → Nat × Flg) : State :=
  match putLanes u d lw k lat f s with
  | .ok _ t => t
  | .error _ t => t

/-- A lane mask by name, as an instruction of slot `u` reads it (R130, R207). -/
def State.maskOf (s : State) (u : Cur) (k : BitVec 4) : Mask := (s.jobAt u.core).mask ((s.jobAt u.core).physMask k.toNat)

/-- A mask result handed to its register (R211). -/
def State.maskPut (s : State) (u : Cur) (d : Dest) (m : Mask) : State :=
  match d.reg with
  | some (.k n) => s.modJob u.core (fun j => j.setMask (j.physMask n.toNat) m)
  | _ => s

/-- The special-function unit occupied for n cycles from now (R230). -/
def State.sfuBusy (s : State) (u : Cur) (n : Nat) : State := s.modCore u.core (fun k => { k with sfuFree := s.now + n })

/-- A reduction latch written (R226, R228). -/
def State.setLatch (s : State) (c : Nat) (n : BitVec 2) (v : Nat) : State :=
  s.modJob c (fun j => { j with rl := tput 0 j.rl n.toNat (BitVec.ofNat 36 v) })

/-! ### The matrix array -/

/-- Does the core at this place of the bay request the array (R239)? -/
def Bay.asks (b : Bay) (k : Nat) : Prop := (k, LeaseReq.wait) ∈ b.req ∨ (k, LeaseReq.nb) ∈ b.req

/-- The answer to a non-blocking command written to its predicate; a blocking form writes none. -/
def State.answered (s : State) (u : Cur) (nb : Option (BitVec 3)) (v : Bool) : State :=
  match nb with
  | some p => s.modStrm u.core u.strm (fun x => x.setPred p v)
  | none => s

/-- A core's request of its bay withdrawn. -/
def State.askDone (s : State) (c : Nat) : State := s.modBay (coreBay c) (fun b => b.setReq (c % 4) .idle)

/-- The grant of a core admits one more array command (R242). -/
def State.mayIssueArr (s : State) (c : Nat) : Prop :=
  (s.bay (coreBay c)).holder = some (c % 4) ∧ (s.bay (coreBay c)).gc < 64 ∧ ((s.core c).arr.filter (fun a => !a.left || a.leftAt == s.now)).length < 8

/-- The command an MMA or MMAS puts in the queue, everything captured at issue (R192, R242, R252). -/
def mmaCmd (s : State) (u : Cur) (e : FtEntry) (n ks : Nat) (acc ta tb : Bool) (a b : ArrSrc) (reads : List Nat) : ArrCmd :=
  let j := s.jobAt u.core
  { blankCmd u s.now (.mma n) acc with
    a := a, b := b, ta := ta, tb := tb, ks := ks, afmt := e.afmt, bfmt := e.bfmt, afd := fdOf j e.afmt, bfd := fdOf j e.bfmt
    ascale := scaleCap e.asc (tget 0 j.g e.ag), bscale := scaleCap e.bsc (tget 0 j.g e.bg), w18 := e.acc, int := e.isInt, sq := e.sq
    reads := reads }

/-- The operands of an MMA or MMAS pass the checks of R257: what they name, and the vector rows they read. -/
def mmaOperands (u : Cur) (e : FtEntry) (fa fb : MFmt) (acc : Bool) (a b : Src) (ta tb : Bool) (n ks : Nat) : M (ArrSrc × ArrSrc × List Nat) := do
  let j ← getJob u
  let kk := if n = 0 then ks * stepSize (max fa.width fb.width) e.acc else ks * 8
  let nc := if e.acc then 256 else 128
  let (oa, ra) ← checkOperand u a acc fa.width (if n = 0 then extA ta kk else extS n ks)
  let (ob, rb) ← checkOperand u b acc fb.width (extB tb kk nc)
  checkBlock u e.asc (tget 0 j.g e.ag) kk 64
  checkBlock u e.bsc (tget 0 j.g e.bg) kk nc
  pure (oa, ob, ra ++ rb)

/-- An issued command, retirement or trap names this as the issuing slot. -/
def ArrCmd.slot (a : ArrCmd) (c : Nat) : Cur :=
  { core := c, strm := .cx, pc := a.pc, word := a.word, lit := 0, size := 8, repk := 0, pops := [], poppedRow := none }

/-- Where the rows of an MRET go, translated where they have to be (R262). -/
def mretRows (u : Cur) (f : MretDesc) (mf : MFmt) (off : Int) : M (List RowDst) :=
  if f.keep then pure []
  else (List.range 64).mapM (fun (r : Nat) => mretRow u (f.dbase + off + r * f.dpitch) (mretRowBytes mf f.lw) (mretAlign mf))

/-- An MRET that may issue: its descriptor, the custom format it captures, and its rows (R192, R260 to R262). -/
def mretReady (u : Cur) (d : Dest) (a b : Src) : M (BitVec 256 × BitVec 32 × List RowDst) := do
  let (da, off) ← operand2 u d a b
  let ar ← localArea u da.toInt 32 32
  orderAt u ar 32
  watch u da.toInt.toNat 32 true false
  let desc : BitVec 256 := BitVec.ofNat 256 (leNat (← localRead u ar 32))
  trapIf (mretBad desc) (illegal9 13)
  let f := mretDesc desc
  let j ← getJob u
  match fmtOf (fun i => tget 0 j.fd i) f.fmt with
  | none => raiseTrap (fmtTrap f.fmt 3 0)
  | some mf =>
    trapIf (!f.keep && (!f.int || f.scale) && !precisionOk f.lw mf) (precTrap f.fmt f.lw)
    if f.bias then
      let _ ← localArea u f.biasa (4 * laneN f.lw) 4
    let rows ← mretRows u f mf off.toInt
    needArrSlot u
    pure (desc, fdOf j f.fmt, rows)

/-- The state after an MRET issued: its release made, its number taken and delivered, its grant and its chain ended, and the command
queued (R178, R188, R260, R262, R265). -/
def State.retiring (s : State) (u : Cur) (d : Dest) (ctr : BitVec 4) (acc : Bool) (desc : BitVec 256) (fd : BitVec 32) (rows : List RowDst)
    (ds : List Nat) : State :=
  let s := s.release u.core (strmNum u.strm) .mod
  let num := ((s.jobAt u.core).ctr ctr.toNat).iss + 1
  let s' := (s.modJob u.core (fun j => j.modCtr ctr.toNat (fun t => { t with iss := t.iss + 1 }))).delivered u d num
  let cmd := blankCmd u s'.now (.mret desc fd ctr num rows ds) acc
  (((s'.endGrant u.core).pushArr u.core cmd).modJob u.core (fun j => { j with rd := 0, co := false })).kickRetire u.core

/-! ### Landings and copy engines -/

/-- What an LSEND at slot `u` sends: eight rows from `row` on, with the custom format and the clock of its sender (R192, R308, R321). -/
def State.parcel (s : State) (u : Cur) (j : Job) (t : BitVec 32) (fi fmt row : Nat) : Parcel :=
  { ctx := j.ctx, tag := t, fi := fi, src := u.core, fd := fdOf j fmt, clk := (s.die (coreDie u.core)).clock
    rows := packRows ((List.range 8).map (fun i => j.row (row + i))) }

/-- The eight rows of an LSEND can be read (R209, R237). -/
def State.rowsReady (s : State) (c row : Nat) : Prop :=
  ∀ i < 8, (s.core c).rowHeld (row + i) = false ∧ (s.jobAt c).isReady s.now (readyKeyRow (row + i)) = true

/-- What the orphan record of an LORPH holds has been taken: its place is free (R311, R323). -/
def State.orphanTaken (s : State) (ctx : Nat) (o : Orphan) (rest : List Orphan) : State :=
  let s := s.modCtx ctx (fun x => { x with orphans := rest })
  let s := match o.entry with
    | some e => s.freeEntryAt ctx e
    | none => s.landings.foldl (fun (s : State) (l : Nat × Landing) => s.setOp l.1 o.op (fun _ => none)) s
  s.settleLand ctx

/-- A tag allocated by a core (R318). -/
def State.tagTaken (s : State) (ctx i c : Nat) (g : BitVec 4) : State :=
  s.modTag ctx i (fun _ => { alloc := true, gen := g, owner := c })

/-- The copy engine of a core is at an entry of its running chain and nothing keeps it (R325, R329). -/
def State.engineAt (s : State) (c : Nat) (raw : BitVec 256) : Prop :=
  s.ceLive c = true ∧ s.ceHalts c = false ∧ (s.ceAt c).cur = some raw

/-- The copy engine after CESTOP: no chain is left (R332). -/
def CopyEng.emptied (e : CopyEng) : CopyEng :=
  { e with chains := [], entry := 0, block := 0, cur := none, pats := none, wait := none, stopReq := false, stopRel := false }

/-- The state in which a CESTOP completes the numbers of its engine's chains: its release at dom has been made (R189, R332). -/
def State.ceStopped (s : State) (c : Nat) : State :=
  if (s.ceAt c).stopRel then s else (s.ceReleaseAll c .dom).modCe c (fun e => { e with stopReq := true, stopRel := true })

/-- A chain put behind those of an engine; an idle one starts it (R325, R331). -/
def State.chainAdded (s : State) (c off : Nat) (ctr : BitVec 4) (n : Word) (idle : Bool) : State :=
  let s := s.modCe c (fun e => { e with chains := e.chains ++ [{ head := off, ctr := ctr, num := n }] })
  if idle then s.ceGoto c 0 else s

/-- The release of an entry made, where it has not been (R178, R327). -/
def State.ceFlushed (s : State) (c : Nat) (scope : Scope) : State :=
  if (s.ceAt c).relDone then s else (s.ceReleaseAll c scope).modCe c (fun e => { e with relDone := true })

/-- An instruction's release to an engine of the module (R177, R178). -/
def State.handed (s : State) (u : Cur) : State := s.release u.core (strmNum u.strm) .mod

/-- The next number of a timeline counter taken (R188). -/
def State.numbered (s : State) (c : Nat) (ctr : BitVec 4) : State :=
  s.modJob c (fun j => j.modCtr ctr.toNat (fun t => { t with iss := t.iss + 1 }))

/-- The number that a timeline counter gives out next. -/
def State.nextNum (s : State) (c : Nat) (ctr : BitVec 4) : Word := ((s.jobAt c).ctr ctr.toNat).iss + 1

/-! ### The fabric -/

/-- A CTILE that may fire: its context, tile and entry, its stamp, its lines and where they go (R341, R346). -/
def tileReady (u : Cur) (d : Dest) (ctr : BitVec 4) (a b : Src) : M (Nat × Nat × TileEnt × Word × List (List Byte) × List RowDst) := do
  let (x, y) ← operand2 u d a b
  let ctx ← getCtx u
  match (← get).ctx? ctx with
  | none => holdFor .busy  -- a job has a context
  | some cx =>
    let i := x.toInt + y.toInt
    let (base, count) := cx.ttab.getD (0, 0)
    trapIf (decide (i < 0 ∨ (count : Int) ≤ i)) (illegal9 17)
    let e ← homeBytes u ((base : Int) + 64 * i) 64 64
    match tileEnt e with
    | none => raiseTrap (fabricTrap 6)
    | some t =>
      holdIf (cx.fires.any (fun f => f.tile == i.toNat)) .busy
      trapIf (!((← getJob u).ctr ctr.toNat).canTake 1) (illegal9 9)
      let bs ← homeBytes u (BitVec.ofNat 64 t.laddr).toInt t.len 1
      let stamp := (cx.chan t.ch).ctr.iss + 1
      let lines := if t.raw then rawLines bs else flaggedLines (flagWord t.mtch t.ch stamp.toNat) bs
      let dsts ← t.raddr.mapM (fun (r : Nat) => do
        match (← areaOf u (BitVec.ofNat 64 r).toInt (128 * lines.length) 128 false) with
        | .spad o => pure (RowDst.spad o)
        | .cluster o => pure (.cluster o)
        | .trans va => do
          let ps ← liftF (fun s => s.translateRange u.core (s.jobAt u.core).ctx va (128 * lines.length) .store)
          pure (.phys ps))
      pure (ctx, i.toNat, t, stamp, lines, dsts)

/-- A tile fired: it is stamped, its lines are sent, and its fire waits for their acknowledgements and for those of the stores before it
(R185, R189, R341); `clk` is the clock of the die at the hand-over. -/
def State.fired (s : State) (u : Cur) (ctx i : Nat) (t : TileEnt) (ctr : BitVec 4) (num stamp : Word) (lines : List (List Byte)) (dsts : List RowDst)
    (clk : Tbl Nat) : State :=
  let before := s.awaited u.core clk
  let s := s.modCtx ctx (fun x => { x with stamps := tput 0 x.stamps i stamp })
  let s' := dsts.foldl (fun s w => s.fireTo u.core i w lines) s
  let j := s.jobAt u.core
  let f : Fire := { tile := i, rid := j.rid, chunk := j.chunk, ctr := ctr, num := num, ch := t.ch, sent := s.now, lines := before ++ sentIds s s' }
  let s' := s'.modCtx ctx (fun x => { x with fires := x.fires ++ [f] })
  if f.lines.isEmpty then s'.post (s.now + 1) (.tileFireComplete ctx i) else s'.post (s.now + 2 ^ 26) (.fabricAckTimeout ctx t.ch)

/-- A CRING.set that may install its descriptor: channel, ring and peers, every slot of the ring marked empty (R335, R346). -/
def ringReady (u : Cur) (a b : Src) : M (Nat × Nat × Chan × List (Nat × Nat)) := do
  ensure u [.scalar a, .scalar b]
  let ch ← readChan u a
  let addr ← readScalar u b
  let ctx ← getCtx u
  holdIf ((((← get).ctx? ctx).map (fun x => (x.chan ch).coll.isSome)).getD false) .busy
  let bs ← homeBytes u addr.toInt 32 1
  match chanDesc bs with
  | none => raiseTrap (fabricTrap 5)
  | some (k, ptab, np) =>
    let ps ← homeBytes u (BitVec.ofNat 64 ptab).toInt (16 * np) 16
    match peerTable ps np with
    | none => raiseTrap (fabricTrap 5)
    | some peers =>
      liftF (fun s => s.clearRing ctx k.rbase (k.nslot * 2 ^ k.slog / 128))
      pure (ctx, ch, k, peers)

/-- A channel of a context. -/
def State.chanOf (s : State) (ctx ch : Nat) : Option Chan := (s.ctx? ctx).map (fun x => x.chan ch)

/-- A collective runs on a channel and is at a step with this word (R336, R337). -/
def State.stepAt (s : State) (ctx ch : Nat) (k : Chan) (c : Coll) (w : Word) : Prop :=
  s.collAt ctx ch = some (k, c) ∧ (s.rec? c.rid).isSome = true ∧ c.susp = none ∧ c.word = some w

/-- A SEND whose lines have been handed over between two states: they are to be acknowledged, and the step ends once they have left their
ports (R334, R338, R339). -/
def State.stepSent (s' : State) (s : State) (ctx ch : Nat) : State :=
  ((s'.modColl ctx ch (fun c => { c with sending := true, lines := c.lines ++ (sentIds s s').map (fun i => (i, s.now)) })).postOnce
    (s.now + 2 ^ 26) (.fabricAckTimeout ctx ch)).sendEnds ctx ch

/-- The loop that an instruction at slot `u` begins over the `len` words after it (R124, R128). -/
def newLoop (u : Cur) (l : BitVec 2) (len : BitVec 16) (count : Nat) (mloop : Bool) (stages rv : Nat) : LoopEnt :=
  { ctr := l, start := u.pc + 8#56, fin := u.pc + BitVec.ofNat 56 (4 * len.toNat), count := count, mloop := mloop, stages := stages, rv := rv, kernel := 0, traced := false }

/-- The conditions of CMP on two words, signed and unsigned (R110). -/
def intHolds (c : Cond) (x y : Word) : Bool :=
  match c with
  | .eq => decide (x = y)
  | .ne => decide (x ≠ y)
  | .lt => decide (x.toInt < y.toInt)
  | .le => decide (x.toInt ≤ y.toInt)
  | .gt => decide (y.toInt < x.toInt)
  | .ge => decide (y.toInt ≤ x.toInt)
  | .ltu => decide (x.toNat < y.toNat)
  | .leu => decide (x.toNat ≤ y.toNat)
  | .gtu => decide (y.toNat < x.toNat)
  | .geu => decide (y.toNat ≤ x.toNat)

/-! ### The mailbox -/

/-- The answer of a command in the result register: status and returned value, or bit 63 alone while a CTX_DESTROY waits (R400, R413). -/
def CmdRes.answered (r : CmdRes) (fn : Nat) : State :=
  r.1.modFn fn (fun f => { f with mres := if f.ending.isSome then 1#64 <<< 63 else BitVec.ofNat 64 (r.2.2 % 2 ^ 55 * 256 + r.2.1) })

/-- The fields of a CTX_CREATE are valid (R394, R413, R414). -/
def State.ctxFields (s : State) (fn : Nat) (c : BitVec 512) : Prop :=
  cmdZero c [(2, 6), (8, 8), (44, 4), (62, 2)] = true ∧ s.isPart (cmdField c 1 1) = true
    ∧ (fn = 0 ∨ (s.fn fn).part = some (cmdField c 1 1)) ∧ cmdField c 16 8 % 4096 = 0 ∧ paMod (cmdField c 16 8) = s.ownMod
    ∧ cmdField c 16 8 / 2 ^ 41 % 64 = 0 ∧ partBase (cmdField c 1 1) ≤ paLocal (cmdField c 16 8)
    ∧ paLocal (cmdField c 16 8) < partBase (cmdField c 1 1) + partSize (s.partDies (cmdField c 1 1))
    ∧ cmdField c 24 8 % 4096 = 0 ∧ cmdField c 32 8 % 65536 = 0 ∧ cmdField c 48 8 % 4096 = 0
    ∧ cmdField c 24 8 < 2 ^ 56 ∧ cmdField c 32 8 < 2 ^ 56 ∧ cmdField c 48 8 < 2 ^ 56 ∧ cmdField c 40 4 ≤ 65536 ∧ cmdField c 60 2 < 1024

/-! ### Predicates and frames -/

/-- The guard of an instruction word of the map that its routine does not carry further: every word but those of the custom majors (R35, R36). -/
def guardOf : Instr → Option Guard
  | .nop g .. | .trap g .. | .bkpt g .. | .yield g .. | .exit g .. | .rdv g .. | .pmark g .. | .sysrd g .. | .syswr g .. | .bri g .. | .loop g ..
  | .mloop g .. | .lbrk g .. | .rep g .. | .pmov g .. | .qtest g .. | .mov g .. | .pref g .. | .sbind g .. | .snext g .. | .stest g .. | .sdrop g ..
  | .tlook g .. | .tset g .. | .tinv g .. | .fetest g .. | .fence g .. | .tlrd g .. | .tladv g .. | .kand g .. | .kor g .. | .knot g .. | .kpopc g ..
  | .vred g .. | .vrmov g .. | .vrng g .. | .lease g .. | .lrel g .. | .mzero g .. | .mfmt g .. | .mscl g .. | .msq g .. | .mret g .. | .wbind g ..
  | .wunb g .. | .wcsrd g .. | .wstat g .. | .lfree g .. | .ldesc g .. | .lsend g .. | .lstat g .. | .lorph g .. | .cestop g .. | .cestat g ..
  | .ctab g .. | .ctile g .. | .cringSet g .. | .cringDone g .. | .cringStat g .. | .rslotReq g .. | .rslotRel g .. => some g
  | .cntrd o .. | .br o .. | .brl o .. | .bril o .. | .pand o .. | .por o .. | .pxor o .. | .pandn o .. | .add o .. | .sub o .. | .mul o ..
  | .mulh o .. | .mulhu o .. | .div o .. | .divu o .. | .rem o .. | .remu o .. | .madd o .. | .lea o .. | .and o .. | .or o .. | .xor o ..
  | .andn o .. | .shl o .. | .shr o .. | .sra o .. | .rot o .. | .clz o .. | .popc o .. | .bext o .. | .bins o .. | .min o .. | .max o ..
  | .minu o .. | .maxu o .. | .sel o .. | .cmp o .. | .fadd o .. | .fsub o .. | .fmul o .. | .ffma o .. | .fmin o .. | .fmax o .. | .fcmp o ..
  | .fcvt o .. | .frnd o .. | .ld o .. | .vld o .. | .vldx o .. | .st o .. | .vst o .. | .vstx o .. | .feset o .. | .feclr o .. | .l1wb o ..
  | .l1inv o .. | .aadd o .. | .amin o .. | .amax o .. | .aand o .. | .aor o .. | .axor o .. | .axch o .. | .acas o .. | .afadd o .. | .lda o ..
  | .stl o .. | .waitt o .. | .vadd o .. | .vsub o .. | .vmul o .. | .vfma o .. | .vmin o .. | .vmax o .. | .vabs o .. | .vneg o .. | .vand o ..
  | .vor o .. | .vxor o .. | .vshl o .. | .vshr o .. | .viadd o .. | .vimul o .. | .vmov o .. | .vbcst o .. | .vsel o .. | .vshuf o .. | .vrot o ..
  | .vext o .. | .vins o .. | .vcmp o .. | .vcvt o .. | .vqnt o .. | .vdq o .. | .vbmax o .. | .vscan o .. | .vsfu o .. | .vsmax o .. | .mma o ..
  | .mmas o .. | .wcsld o .. | .ltag o .. | .cego o .. => some o.g
  | .gst (.scalar g ..) => some g
  | .gst (.row g ..) => some g
  | _ => none

/-- No KIND 2 trace record of a loop is due at this issue (R437). -/
def State.noTraceDue (s : State) (u : Cur) : Prop :=
  ∀ l, (s.strmAt u.core u.strm).loops.head? = some l →
    l.traced = true ∨ (s.strmAt u.core u.strm).pc ≠ l.start ∨ (s.strmAt u.core u.strm).rep.isSome = true
      ∨ (s.core u.core).obs.trc.getLsbD 1 = false

/-- Every block that a stream register among the sources has buffered was fetched: no pop has to make its access again (R156). -/
def State.blocksHere (s : State) (u : Cur) (srcs : List Src) : Prop :=
  ∀ n r, Src.m n ∈ srcs → tget none (s.strmAt u.core u.strm).m n.toNat = some r → ∀ b ∈ r.buf, b.bytes.isSome = true

/-- What an instruction of slot `u` leaves of the registers as it was, going from `s` to `t`: those of every other core and stream, every
special register, and every register and predicate but those in `rs`; where `fl` is false the arithmetic status too, and where it is true its
bits above the six flags. -/
structure RegsKept (s t : State) (u : Cur) (rs : List Reg) (fl : Bool) : Prop where
  cores : ∀ c, c ≠ u.core → (t.core c).job = (s.core c).job
  streams : ∀ x, x ≠ u.strm → t.strmAt u.core x = s.strmAt u.core x
  sregs : ∀ n : BitVec 5, Reg.s n ∉ rs → (t.strmAt u.core u.strm).sReg n.toNat = (s.strmAt u.core u.strm).sReg n.toNat
  aregs : ∀ n : BitVec 4, Reg.a n ∉ rs → (t.strmAt u.core u.strm).aReg n.toNat = (s.strmAt u.core u.strm).aReg n.toNat
  /-- an instruction that ends the body of an MLOOP sets the stage predicates (R129) -/
  preds : (∀ l ∈ (s.strmAt u.core u.strm).loops, l.mloop = false) → ∀ n : BitVec 3, Reg.p n ∉ rs →
    (t.strmAt u.core u.strm).pred n = (s.strmAt u.core u.strm).pred n
  asr : ∀ i < 64, (fl = false ∨ 6 ≤ i) → (t.strmAt u.core u.strm).asr.getLsbD i = (s.strmAt u.core u.strm).asr.getLsbD i
  /-- entry and draw ring -/
  strm : (t.strmAt u.core u.strm).entry = (s.strmAt u.core u.strm).entry ∧ (t.strmAt u.core u.strm).rngc = (s.strmAt u.core u.strm).rngc
    ∧ (t.strmAt u.core u.strm).rngp = (s.strmAt u.core u.strm).rngp ∧ (t.strmAt u.core u.strm).rdv = (s.strmAt u.core u.strm).rdv
    ∧ (t.strmAt u.core u.strm).exited = (s.strmAt u.core u.strm).exited
  /-- vector rows and masks, by their physical numbers (R130) -/
  rows : ∀ r, (∀ n : BitVec 7, Reg.v n ∈ rs → r ≠ (s.jobAt u.core).physRow n.toNat) → (t.jobAt u.core).row r = (s.jobAt u.core).row r
  masks : ∀ m, (∀ n : BitVec 4, Reg.k n ∈ rs → m ≠ (s.jobAt u.core).physMask n.toNat) → (t.jobAt u.core).mask m = (s.jobAt u.core).mask m
  /-- latches, timeline counters, system registers, chain, routine and engine of the job -/
  job : ∀ j k : Job, j = s.jobAt u.core → k = t.jobAt u.core →
    { k with v := [], k := [], sc := {}, ld := {}, cx := {}, st := {}, q := [], vqLd := [], vqCx := [], l := [], lhold := [], ready := [], cxFirst := none, cxFrom := 0, rrbV := 0, rrbK := 0 }
      = { j with v := [], k := [], sc := {}, ld := {}, cx := {}, st := {}, q := [], vqLd := [], vqCx := [], l := [], lhold := [], ready := [], cxFirst := none, cxFrom := 0, rrbV := 0, rrbK := 0 }
  /-- the loop counters change only where a loop ends or goes round -/
  ctrs : (s.strmAt u.core u.strm).loops = [] → (t.jobAt u.core).l = (s.jobAt u.core).l ∧ (t.jobAt u.core).lhold = (s.jobAt u.core).lhold

/-- What an instruction that stores nothing leaves as it was: HBM, every scratchpad and cluster region with every full-empty bit, tag
table and L1 line, and everything else outside the cores. -/
structure MemKept (s t : State) : Prop where
  world : { s with cores := t.cores, due := t.due, turn := t.turn, msix := t.msix, cur := t.cur, ids := t.ids, free := t.free } = t
  cores : ∀ c, { t.core c with job := none, obs := {} } = { s.core c with job := none, obs := {} }

/-- What an instruction that stores to local memory leaves as it was: HBM with every request on its way to it, and the bytes of the
scratchpads that `sp` and those of the bays' cluster memories that `cl` does not name. -/
structure BytesKept (s t : State) (sp cl : Nat → Nat → Prop) : Prop where
  hbm : ∀ a, readByte t.hbm a = readByte s.hbm a
  bases : t.bases = s.bases
  l1 : ∀ c, (t.core c).l1 = (s.core c).l1
  tags : ∀ c, (t.core c).tags = (s.core c).tags
  spad : ∀ c i, ¬ sp c i → readByte (t.core c).spad i = readByte (s.core c).spad i
  cluster : ∀ b i, ¬ cl b i → readByte (t.bay b).mem i = readByte (s.bay b).mem i

/-- The scratchpad bytes that an access of n bytes at an area names. -/
def Area.inSpad (ar : Area) (c n : Nat) : Nat → Nat → Prop := fun k i =>
  match ar with
  | .spad o => k = c ∧ o ≤ i ∧ i < o + n
  | _ => False

/-- The cluster bytes that an access of n bytes at an area of the job on core c names: those of its record's region (R146). -/
def Area.inCluster (ar : Area) (s : State) (c n : Nat) : Nat → Nat → Prop := fun b i =>
  match ar with
  | .cluster o => b = coreBay c ∧ ∃ r, (s.bay (coreBay c)).region (s.jobAt c).rid = some r ∧ r.base + o ≤ i ∧ i < r.base + o + n
  | _ => False

/-- The integer, logic and comparison instructions with two sources (R107 to R110, R113). -/
def intTwo (o : ROps) : List Instr :=
  [.add o, .sub o, .mul o, .mulh o, .mulhu o, .and o, .or o, .xor o, .andn o, .shl o, .shr o, .sra o, .rot o, .min o, .max o, .minu o, .maxu o]

/-- The floating-point instructions with two sources that set flags (R111, R112). -/
def fltTwo (o : ROps) : List Instr := [.fadd o, .fsub o, .fmul o, .fmin o, .fmax o]

/-- The lane operations of two floating-point sources, or of integer ones (R212 to R214). -/
def vecTwo (o : VOps) (int : Bool) : List Instr :=
  if int then [.vmin o true, .vmax o true, .viadd o, .vimul o, .vand o, .vor o, .vxor o, .vshl o, .vshr o false, .vshr o true]
  else [.vadd o, .vsub o, .vmul o, .vmin o false, .vmax o false]

/-- The atomics of R198. -/
def atomics (o : AOps) : List Instr := [.aadd o, .amin o, .amax o, .aand o, .aor o, .axor o, .axch o, .acas o]

/-- What a completed instruction changes is registers named by its delivery, queues, and the flags where `fl` says so. -/
def RegOnly (s t : State) (u : Cur) (d : Dest) (fl : Bool) : Prop := RegsKept s t u d.reg.toList fl ∧ MemKept s t

/-- The full-empty bits of the granules that no byte of `sp` lies in are as they were (R148). -/
def feKept (s t : State) (sp : Nat → Nat → Prop) : Prop :=
  ∀ c g, (∀ i, sp c i → i / 16 ≠ g) → tget false (t.core c).fe g = tget false (s.core c).fe g

/-- A request to a home writes value v at a physical address. -/
def HomeReq.writes (r : HomeReq) (a : Nat) (v : Byte) : Prop := ∃ i m, r.bytes[i]? = some (v, m) ∧ m ≠ 0 ∧ a = r.pa + i

/-! ### Traps -/

/-- The record of a trap of a unit of a core at slot `cur` (R369). -/
def trapRecOf (s : State) (c : Nat) (un : TrapUnit) (t : Trap) (u : Cur) : TrapRec :=
  let eng : Bool := match un with
    | .copy => true
    | .port => true
    | .retireUnit => true
    | _ => false
  { cause := t.cause, strm := strmNum un.strm, source := un.source, late := t.late, reason := t.reason, subcode := t.subcode, core := c
    queue := ((s.queue? (s.jobAt c).queue).map (·.q)).getD 0
    pc := if eng then 0 else u.pc.toNat
    word := if eng then 0 else u.word.toNat
    lit := if eng then 0 else u.lit.toNat
    repk := u.repk, detail := t.detail.toNat, asr := (s.strmAt c un.strm).asr.toNat, pops := u.pops, faddr := t.faddr.toNat, ctx := (s.jobAt c).ctx }

/-- n bytes of a record from byte i on, as a number (R3). -/
def recField (bs : List Byte) (i n : Nat) : Nat := leNat ((bs.drop i).take n)

/-- Every field of a trap record holds a value of its width. -/
def TrapRec.fits (r : TrapRec) : Prop :=
  r.strm < 4 ∧ r.source < 8 ∧ r.reason < 2 ^ 8 ∧ r.subcode < 2 ^ 8 ∧ r.core < 2 ^ 16 ∧ r.queue < 2 ^ 16 ∧ r.pc < 2 ^ 64 ∧ r.word < 2 ^ 64
    ∧ r.lit < 2 ^ 32 ∧ r.repk < 2 ^ 8 ∧ r.cause2 < 2 ^ 8 ∧ r.detail < 2 ^ 64 ∧ r.time < 2 ^ 64 ∧ r.ctx < 2 ^ 64 ∧ r.asr < 2 ^ 64 ∧ r.faddr < 2 ^ 64

/-! ### One step of the machine -/

/-- The next thing the machine does is the turn of stream x of core c, and the stream issues the words it has fetched: nothing of the outside
and no event comes first, no stop, rendezvous, replay, routine or group holds the turn, and no REP steps the words. -/
structure TurnOf (s : State) (c : Nat) (x : Strm) (rest : List (Nat × Strm)) (j : Job) (w : Fetched) : Prop where
  inputs : s.inputs = []
  due : ∀ e, s.due.head? = some e → s.now < e.1 ∨ (e.1 = s.now ∧ e.2.1 = false)
  turn : s.turn = (c, x) :: rest
  job : (s.core c).job = some j
  live : (j.strm x).live = true
  runs : s.stopsNow c = false
  open_ : (j.strm x).rdvWait = false ∧ (j.strm x).replay = false ∧ (j.strm x).rep = none
  cx : x = .cx → j.cxFirst = none ∧ j.lh = false ∧ j.cxFrom ≤ s.now ∧ j.micro = none
  calm : s.throttle = false
  fetched : (j.strm x).fetched = some w
  pc : w.pc = (j.strm x).pc

/-- The slot in which a stream issues fetched words (R96). -/
def slotFor (c : Nat) (x : Strm) (j : Job) (w : Fetched) : Cur :=
  slotWithUse (issueSlot c x (j.strm x) w) j (Fields.ofWord w.word w.lit)

end Sys2Proof.Machine
end

