-- ==== Sys2Proof/Certificates/Slice0/Obligations.lean ====
section
/-!
DEFINITION. The statements for the provers.
-/

open Sys2Proof Sys2Proof.Machine

/-- R107, R108, R109: the integer instructions with two sources complete with the result the rules give, delivered to DST and the
queues, wherever they run and their operands can be read. -/
def Obligations.IntegerTwoSources : Prop :=
  ∀ (o : ROps) (s s1 : State) (u : Cur) (x y : Word), Runs s u o.g → operand2 u o.d o.a o.b s = .ok (x, y) s1 →
    Completes (.add o) s u .next (s1.delivered u o.d (x + y))
    ∧ Completes (.sub o) s u .next (s1.delivered u o.d (x - y))
    ∧ Completes (.mul o) s u .next (s1.delivered u o.d (x * y))
    ∧ Completes (.mulh o) s u .next (s1.delivered u o.d ((x.signExtend 128 * y.signExtend 128).extractLsb' 64 64))
    ∧ Completes (.mulhu o) s u .next (s1.delivered u o.d ((x.setWidth 128 * y.setWidth 128).extractLsb' 64 64))
    ∧ (∀ n, Completes (.lea o n) s u .next (s1.delivered u o.d (x + y * BitVec.ofNat 64 (2 ^ n.toNat))))
    ∧ Completes (.and o) s u .next (s1.delivered u o.d (x &&& y))
    ∧ Completes (.or o) s u .next (s1.delivered u o.d (x ||| y))
    ∧ Completes (.xor o) s u .next (s1.delivered u o.d (x ^^^ y))
    ∧ Completes (.andn o) s u .next (s1.delivered u o.d (x &&& ~~~y))
    ∧ Completes (.shl o) s u .next (s1.delivered u o.d (x <<< (y.toNat % 64)))
    ∧ Completes (.shr o) s u .next (s1.delivered u o.d (x >>> (y.toNat % 64)))
    ∧ Completes (.sra o) s u .next (s1.delivered u o.d (x.sshiftRight (y.toNat % 64)))
    ∧ Completes (.rot o) s u .next (s1.delivered u o.d (x <<< (y.toNat % 64) ||| x >>> (64 - y.toNat % 64)))
    ∧ (∀ n, Completes (.bext o n) s u .next
        (s1.delivered u o.d (BitVec.ofNat 64 (x.toNat / 2 ^ (y.toNat % 64) % 2 ^ n.toNat))))
    ∧ Completes (.min o) s u .next (s1.delivered u o.d (if x.toInt < y.toInt then x else y))
    ∧ Completes (.max o) s u .next (s1.delivered u o.d (if x.toInt < y.toInt then y else x))
    ∧ Completes (.minu o) s u .next (s1.delivered u o.d (if x.toNat < y.toNat then x else y))
    ∧ Completes (.maxu o) s u .next (s1.delivered u o.d (if x.toNat < y.toNat then y else x))
    ∧ (∀ neg p, Completes (.sel o neg p) s u .next
        (s1.delivered u o.d (if (s.strmAt u.core u.strm).pred p != neg then x else y)))
    ∧ (∀ c, Completes (.cmp o c) s u .next (s1.delivered u o.d (if intHolds c x y then 1 else 0)))

/-- R106, R107, R108: the integer instructions that read DST, those with one source, and the divisions, which trap with 0x13 after their pops where the divisor
is 0. -/
def Obligations.IntegerForms : Prop :=
  (∀ (o : ROps) (s s1 : State) (u : Cur) (x y z : Word), Runs s u o.g → operand3 u o.d o.a o.b s = .ok (x, y, z) s1 →
    Completes (.madd o) s u .next (s1.delivered u o.d (z + x * y))
    ∧ ∀ n, ∃ w, Completes (.bins o n) s u .next (s1.delivered u o.d w)
        ∧ ∀ i < 64, w.getLsbD i = if y.toNat % 64 ≤ i ∧ i < y.toNat % 64 + n.toNat then x.getLsbD (i - y.toNat % 64) else z.getLsbD i)
  ∧ (∀ (o : ROps1) (s s1 : State) (u : Cur) (x : Word), Runs s u o.g → operand1 u o.d o.a s = .ok x s1 →
    (∃ w, Completes (.clz o) s u .next (s1.delivered u o.d w)
      ∧ w.toNat ≤ 64 ∧ (∀ i < 64, 64 - w.toNat ≤ i → x.getLsbD i = false) ∧ (w.toNat < 64 → x.getLsbD (63 - w.toNat) = true))
    ∧ (∃ w, Completes (.popc o) s u .next (s1.delivered u o.d w)
      ∧ w.toNat = ((List.range 64).filter (fun i => x.getLsbD i)).length))
  ∧ (∀ (g : Guard) (d : Dest) (b : Src) (s s1 : State) (u : Cur) (x : Word), Runs s u g → operand1 u d b s = .ok x s1 →
    Completes (.mov g d b) s u .next (s1.delivered u d x))
  ∧ (∀ (o : ROps) (s s1 : State) (u : Cur) (x y : Word), Runs s u o.g → operand2 u o.d o.a o.b s = .ok (x, y) s1 →
      (y ≠ 0 →
        Completes (.div o) s u .next (s1.delivered u o.d (x.sdiv y))
        ∧ Completes (.divu o) s u .next (s1.delivered u o.d (x.udiv y))
        ∧ Completes (.rem o) s u .next (s1.delivered u o.d (x.srem y))
        ∧ Completes (.remu o) s u .next (s1.delivered u o.d (x.umod y)))
      ∧ (y = 0 → s.trapsNow u →
        exec (.div o) s = .next (s1.takeTrap u { cause := 0x13 })
        ∧ exec (.divu o) s = .next (s1.takeTrap u { cause := 0x13 })
        ∧ exec (.rem o) s = .next (s1.takeTrap u { cause := 0x13 })
        ∧ exec (.remu o) s = .next (s1.takeTrap u { cause := 0x13 })))

/-- R111 to R113: the floating-point instructions with two or three sources complete with the result's flags set and its image delivered. -/
def Obligations.FloatArithmetic : Prop :=
  (∀ (o : ROps) (s s1 : State) (u : Cur) (x y : Nat), Runs s u o.g → floats2 u o.d o.a o.b s = .ok (x, y) s1 →
    Completes (.fadd o) s u .next ((s1.flagged u (fltAdd false x y).2).delivered u o.d (wordOfImg (fltAdd false x y).1))
    ∧ Completes (.fsub o) s u .next ((s1.flagged u (fltSub false x y).2).delivered u o.d (wordOfImg (fltSub false x y).1))
    ∧ Completes (.fmul o) s u .next ((s1.flagged u (fltMul false x y).2).delivered u o.d (wordOfImg (fltMul false x y).1))
    ∧ Completes (.fmin o) s u .next ((s1.flagged u 0).delivered u o.d (wordOfImg (fltMinMax false false x y)))
    ∧ Completes (.fmax o) s u .next ((s1.flagged u 0).delivered u o.d (wordOfImg (fltMinMax true false x y)))
    ∧ ∀ c k, Completes (.fcmp o c k) s u .next (s1.delivered u o.d (if fltCmp false c k x y then 1 else 0)))
  ∧ (∀ (o : ROps) (s s1 : State) (u : Cur) (x y z : Nat), Runs s u o.g → floats3 u o.d o.a o.b s = .ok (x, y, z) s1 →
    Completes (.ffma o) s u .next
      ((s1.flagged u (fltFma false x y z).2).delivered u o.d (wordOfImg (fltFma false x y z).1)))

/-- R126, R133, R372, R379, R435: NOP and REP complete without touching anything else; PMARK only reads its source while `trc` MARKS is clear; TRAP takes trap 0x10
with its source in DETAIL and BKPT takes trap 0x11; YIELD does nothing unless its context is cooperative with a pre-empt request pending, and then continues at
the save address of its pair. -/
def Obligations.ControlMembers : Prop :=
  (∀ (g : Guard) (s : State) (u : Cur), Runs s u g →
    Completes (.nop g) s u .next s
    ∧ ∀ n sd sa sb stride, Completes (.rep g n sd sa sb stride) s u
        (.rep { count := n.toNat, k := 0, sd := sd, sa := sa, sb := sb, stride := 2 ^ stride.toNat }) s)
  ∧ (∀ (g : Guard) (b : Src) (s s1 : State) (u : Cur) (x : Word), Runs s u g → source1 u b s = .ok x s1 →
    (s.core u.core).obs.trc.getLsbD 0 = false → Completes (.pmark g b) s u .next s1)
  ∧ (∀ (g : Guard) (b : Src) (s s1 : State) (u : Cur) (x : Word), Runs s u g → s.trapsNow u → source1 u b s = .ok x s1 →
    exec (.trap g b) s = .next (s1.takeTrap u { cause := 0x10, detail := x }))
  ∧ (∀ (g : Guard) (s : State) (u : Cur), Runs s u g → s.trapsNow u →
    exec (.bkpt g) s = .next (s.takeTrap u { cause := 0x11 }))
  ∧ (∀ (g : Guard) (n : BitVec 3) (s : State) (u : Cur), Runs s u g →
      ((∀ x, s.ctx? (s.jobAt u.core).ctx = some x → (x.coop && x.yieldBy.isSome) = false) → Completes (.yield g n) s u .next s)
      ∧ (∀ x ar s1 bs, s.ctx? (s.jobAt u.core).ctx = some x → x.coop = true → x.yieldBy.isSome = true →
          checkAddr s u.core ((s.strmAt u.core u.strm).entry.toNat - 128 + 16 * n.toNat : Int) 16 1 false = .ok ar →
          s.loadArea u.core u.strm ar 16 .strm = (s1, .ok bs) → firstBad ar.va bs = none →
          leNat ((bs.take 8).map (·.1)) ≠ 0 →
          Completes (.yield g n) s u (.goto (BitVec.ofNat 56 (leNat ((bs.take 8).map (·.1)) / 4 * 4)))
            (s1.modStrm u.core u.strm (fun y =>
              { y with yielded := some (BitVec.ofNat 56 (leNat ((bs.drop 8).map (·.1)) / 4 * 4)) }))))

/-- R101, R125, R133, R135, R136: EXIT ends its stream: it is exited, has no loop left, and the queues toward it are empty. RDV arrives once and then holds; when
every stream of the job has arrived as often or exited, the waiting streams leave. -/
def Obligations.ExitAndRendezvous : Prop :=
  (∀ (g : Guard) (s : State) (u : Cur), Runs s u g →
      Completes (.exit g) s u .stay (((s.modJob u.core (fun j => j.exitStrm u.strm)).checkRdv u.core).lastExit u.core)
      ∧ ((s.jobAt u.core).exitStrm u.strm).strm u.strm = { (s.jobAt u.core).strm u.strm with loops := [], rep := none, exited := true }
      ∧ ∀ y, ((s.jobAt u.core).exitStrm u.strm).queueOf (qNum y u.strm) = [])
  ∧ (∀ (g : Guard) (s : State) (u : Cur), Runs s u g → u.second = false → (s.strmAt u.core u.strm).rdvWait = false →
    (s.strmAt u.core u.strm).log = [] →
    exec (.rdv g) s = .next ((((s.release u.core (strmNum u.strm) .core).modStrm u.core u.strm
      (fun x => { x with rdv := x.rdv + 1, rdvWait := true })).checkRdv u.core).holdAt u .rdv))
  ∧ (∀ (c : Nat) (s : State) (j : Job), (s.core c).job = some j → j.rdvMet = true →
    ∃ t, exec (.rendezvousRelease c) s = .next t ∧ ∀ x, (t.strmAt c x).rdvWait = false)

/-- R79, R94, R116, R117, R235, R284, R428, R429, R435, R436, R439: SYSRD delivers a system register, SYSWR writes one, CNTRD delivers the counter its source names;
what a register reads as after a write, reserved bits being 0 and the bits of W1C fields cleared by 1. -/
def Obligations.SystemRegisters : Prop :=
  (∀ (g : Guard) (d : Dest) (n : BitVec 7) (s : State) (u : Cur), Runs s u g → (s.jobAt u.core).noRoom u.strm d = none →
    Completes (.sysrd g d n) s u .next (s.delivered u d (s.sysReg u.core u.strm n.toNat)))
  ∧ (∀ (g : Guard) (n : BitVec 7) (b : Src) (s s1 : State) (u : Cur) (w : Word), Runs s u g → source1 u b s = .ok w s1 →
    Completes (.syswr g n b) s u .next (s1.setSysReg u.core u.strm n.toNat w))
  ∧ (∀ (o : ROps1) (s s1 : State) (u : Cur) (i : Word), Runs s u o.g → operand1 u o.d o.a s = .ok i s1 →
    (i.toNat ≤ 7 → Completes (.cntrd o false) s u .next (s1.delivered u o.d (s1.sysReg u.core u.strm (0x68 + i.toNat))))
    ∧ (i.toNat ≤ 15 → Completes (.cntrd o true) s u .next
        (s1.delivered u o.d (s1.dieCounter (coreDie u.core) (s1.ctxFn (s1.jobAt u.core).ctx) i.toNat))))
  ∧ (∀ (s : State) (c : Nat) (x : Strm) (w : Word), (s.core c).job.isSome = true → s.sysReg c x 0x01 = BitVec.ofNat 64 (strmNum x)
    ∧ (s.setSysReg c x 0x00 w).sysReg c x 0x00 = (s.sysReg c x 0x00 &&& ~~~w &&& 0x3F)
    ∧ (∀ n < 8, ∀ y, (s.setSysReg c x (0x08 + n) w).sysReg c y (0x08 + n) = (w &&& 0xFF0311FF))
    ∧ (s.setSysReg c x 0x18 w).sysReg c x 0x18 = (w &&& 0x00FFFFFFFFFFF07F) ∧ (s.setSysReg c x 0x19 w).sysReg c x 0x19 = (w &&& 0x3FFFFFFE)
    ∧ (s.setSysReg c x 0x40 w).sysReg c x 0x40 = (w &&& 0x7F7F)
    ∧ (∀ n < 4, (s.setSysReg c x (0x41 + n) w).sysReg c x (0x41 + n) = (w &&& 0x00FFFFFFFFFFFFC3))
    ∧ (∀ n < 4, (s.setSysReg c x (0x50 + n) w).sysReg c x (0x50 + n) = w)
    ∧ (s.setSysReg c x 0x58 w).sysReg c x 0x58 = (w &&& 0x00FFFFFFFFFFFF83) ∧ (s.setSysReg c x 0x59 w).sysReg c x 0x59 = (w &&& 0x3FFFFFE0)
    ∧ (∀ n < 8, (s.setSysReg c x (0x60 + n) w).sysReg c x (0x60 + n)
        = ((s.sysReg c x (0x60 + n) &&& ~~~w &&& 0x8000000000000000) ||| (w &&& 0x6000FFC00000FFFF)))
    ∧ ∀ n < 8, (s.setSysReg c x (0x68 + n) w).sysReg c x (0x68 + n) = (w.setWidth 48).setWidth 64)

/-- R121, R122: a branch outside an MLOOP body to an aligned address of the 56-bit space is taken; a link delivers the address after it. -/
def Obligations.Branches : Prop :=
  (∀ (o : BOps) (s : State) (u : Cur) (t : Int), Runs s u o.g → t = (u.pc.toNat : Int) + 4 * o.off.toInt →
    (s.strmAt u.core u.strm).inMloop u.pc = false → t % 4 = 0 → 0 ≤ t → t < 2 ^ 56 →
    Completes (.br o) s u (.jump (BitVec.ofInt 56 t)) s
    ∧ ((s.jobAt u.core).noRoom u.strm o.d = none →
        Completes (.brl o) s u (.jump (BitVec.ofInt 56 t)) (s.delivered u o.d ((u.pc + 8#56).setWidth 64))))
  ∧ (∀ (g : Guard) (a b : Src) (s s1 : State) (u : Cur) (x y : Word), Runs s u g → source2 u a b s = .ok (x, y) s1 →
    (s1.strmAt u.core u.strm).inMloop u.pc = false → (x.toInt + y.toInt) % 4 = 0 → 0 ≤ x.toInt + y.toInt →
    x.toInt + y.toInt < 2 ^ 56 → Completes (.bri g a b) s u (.jump (BitVec.ofInt 56 (x.toInt + y.toInt))) s1)
  ∧ (∀ (o : ROps) (s s1 : State) (u : Cur) (x y : Word), Runs s u o.g → operand2 u o.d o.a o.b s = .ok (x, y) s1 →
    (s1.strmAt u.core u.strm).inMloop u.pc = false → (x.toInt + y.toInt) % 4 = 0 → 0 ≤ x.toInt + y.toInt →
    x.toInt + y.toInt < 2 ^ 56 →
    Completes (.bril o) s u (.jump (BitVec.ofInt 56 (x.toInt + y.toInt)))
      (s1.delivered u o.d ((u.pc + 8#56).setWidth 64)))

/-- R123 to R125, R128 to R130: LOOP and MLOOP begin their first iteration, or skip the body for a count of 0, MLOOP on CX with the rotation
begun anew either way; LBRK continues at the end of the loop it ends, where an enclosing loop with the same end counts its own. -/
def Obligations.Loops : Prop :=
  (∀ (g : Guard) (l : BitVec 2) (n : Src) (len : BitVec 16) (s s1 : State) (u : Cur) (v : Word), Runs s u g →
    source1 u n s = .ok v s1 → v.toNat < 2 ^ 32 → tget none (s1.jobAt u.core).lhold l.toNat = none →
    (∀ q ∈ (s1.strmAt u.core u.strm).loops, u.pc.toNat + 4 * len.toNat ≤ q.fin.toNat) →
    (s1.strmAt u.core u.strm).inMloop u.pc = false →
    (v = 0 → Completes (.loop g l n len) s u (.goto (u.pc + BitVec.ofNat 56 (4 * len.toNat)))
        (s1.modJob u.core (fun j => j.setL l 0))
      ∧ ∀ stg rv, Completes (.mloop g l n stg rv len) s u (.goto (u.pc + BitVec.ofNat 56 (4 * len.toNat)))
        (s1.modJob u.core (fun j => (j.setL l 0).resetRotation u.strm rv.toNat)))
    ∧ (v ≠ 0 → Completes (.loop g l n len) s u (.goto (u.pc + 8#56)) (s1.modJob u.core (fun j => j.pushLoop u.strm
          (newLoop u l len v.toNat false 0 0)))
      ∧ ∀ stg rv, ∃ t, Completes (.mloop g l n stg rv len) s u (.goto (u.pc + 8#56)) t
        ∧ (t.strmAt u.core u.strm).loops.head? = some (newLoop u l len (v.toNat + stg.toNat) true (stg.toNat + 1) rv.toNat)
        ∧ tget 0 (t.jobAt u.core).l l.toNat = 0
        ∧ (u.strm = .cx → (t.jobAt u.core).rrbV = 0 ∧ (t.jobAt u.core).rrbK = 0 ∧ (t.jobAt u.core).rvR = 8 * rv.toNat)))
  ∧ (∀ (g : Guard) (l : BitVec 2) (s : State) (u : Cur) (j : Job) (ls : List LoopEnt) (e : VAddr), Runs s u g →
    breakLoops l ((s.jobAt u.core).strm u.strm).loops (s.jobAt u.core) = (j, ls, some e) →
    Completes (.lbrk g l) s u (if e = u.pc + 8#56 then .next else .goto e) (s.modJob u.core (fun _ => j.setStrm u.strm { j.strm u.strm with loops := ls })))

/-- R131, R132: predicate logic and queue tests deliver 1 or 0. -/
def Obligations.PredicateLogic : Prop :=
  (∀ (o : POps) (s : State) (u : Cur) (a b : Bool), Runs s u o.g → (s.jobAt u.core).noRoom u.strm o.d = none →
    a = ((s.strmAt u.core u.strm).pred o.pa != o.na) → b = ((s.strmAt u.core u.strm).pred o.pb != o.nb) →
    Completes (.pand o) s u .next (s.delivered u o.d (if a && b then 1 else 0))
    ∧ Completes (.por o) s u .next (s.delivered u o.d (if a || b then 1 else 0))
    ∧ Completes (.pxor o) s u .next (s.delivered u o.d (if a != b then 1 else 0))
    ∧ Completes (.pandn o) s u .next (s.delivered u o.d (if a && !b then 1 else 0)))
  ∧ (∀ (g : Guard) (d : Dest) (s : State) (u : Cur), Runs s u g → (s.jobAt u.core).noRoom u.strm d = none →
    (∀ na pa, Completes (.pmov g d na pa) s u .next
      (s.delivered u d (if (s.strmAt u.core u.strm).pred pa != na then 1 else 0)))
    ∧ ∀ q, Completes (.qtest g d q) s u .next (s.delivered u d (if (s.jobAt u.core).qtest u.strm q then 1 else 0)))

/-- R149, R158, R160, R197, R373, R374: LD and LDA deliver the little-endian value of the bytes at their address; an access that LD may perform later
stands in the operand log with its queue entries reserved, and so does one that meets a fault, which is then taken late; `.zfill` delivers 0 for
uncorrectable data of translated memory and sets p7; LDA then acquires. -/
def Obligations.ScalarLoads : Prop :=
  ∀ (o : LdOps) (s s1 s2 s3 : State) (u : Cur) (a : Int) (ar : Area) (later : Bool) (bs : List (Byte × Bool)) (x : AccFault),
    Runs s u o.g → loadReady u o s = .ok (a, ar) s1 →
    (s1.defers (ar.isTrans && o.d.reg.isNone && !o.zf) = (later, s2) →
      (later = false → s2.loadArea u.core u.strm ar (2 ^ o.sz.toNat) o.scope = (s3, .ok bs) → firstBad a.toNat bs = none →
        Completes (.ld o) s u .next ((s3.emptied u ar (2 ^ o.sz.toNat) o.fe).delivered u o.d (loadedWord bs)))
      ∧ (later = false → s2.loadArea u.core u.strm ar (2 ^ o.sz.toNat) o.scope = (s3, .ok bs) → o.zf = true → ar.isTrans = true →
        ∀ v, firstBad a.toNat bs = some v → Completes (.ld o) s u .next
          (((s3.emptied u ar (2 ^ o.sz.toNat) o.fe).zeroFilled u v).delivered u o.d 0))
      ∧ ∀ e, e = { logged s2 u o.scope (.ld a.toNat (2 ^ o.sz.toNat)) ((destStrms o.d).map (qNum u.strm)) with zf := o.zf, reg := o.d.reg } →
        (later = true → Completes (.ld o) s u .next ((s2.idTaken.reserved u o.d e.id).logging u e))
        ∧ (later = false → s2.goodLoad u.core u.strm ar (2 ^ o.sz.toNat) o.scope o.zf = (s3, .error x) →
          Completes (.ld o) s u .next ((s2.idTaken.reserved u o.d e.id).faulting u e)))
    ∧ ((s.strmAt u.core u.strm).log = [] →
      (s1.loadArea u.core u.strm ar (2 ^ o.sz.toNat) o.scope = (s3, .ok bs) → firstBad a.toNat bs = none →
        Completes (.lda o) s u .next
          (((s3.emptied u ar (2 ^ o.sz.toNat) o.fe).delivered u o.d (loadedWord bs)).acquire u.core u.strm o.scope false))
      ∧ ∀ e, e = { logged s1 u o.scope (.ld a.toNat (2 ^ o.sz.toNat)) ((destStrms o.d).map (qNum u.strm)) with
            zf := o.zf, reg := o.d.reg, acq := some o.scope } →
        s1.goodLoad u.core u.strm ar (2 ^ o.sz.toNat) o.scope o.zf = (s3, .error x) →
        Completes (.lda o) s u .next ((s1.idTaken.reserved u o.d e.id).faulting u e))

/-- R156, R158, R161, R162, R163: VLD pushes the row whose lanes are the packed elements at its address, or those of the next block of a DATA register;
VLDX pushes the row of its gathered elements; PREF only touches caches. -/
def Obligations.RowLoads : Prop :=
  (∀ (o : VldOps) (s s1 s2 s3 : State) (u : Cur) (f : MFmt) (a : Int) (ar : Area) (later : Bool) (bs : List (Byte × Bool)),
    Runs s u o.g → rowLoadReady u o s = .ok (f, a, ar) s1 →
    (∀ n r, o.at_.base = .m n → tget none (s.strmAt u.core u.strm).m n.toNat = some r → r.data = false) →
    s1.defers (ar.isTrans && !o.zf) = (later, s2) →
    (later = false → s2.loadArea u.core u.strm ar (runBytes f.width (laneN o.lw)) o.scope = (s3, .ok bs) →
      (firstBad a.toNat bs = none →
        Completes (.vld o) s u .next ((s3.emptied u ar (runBytes f.width (laneN o.lw)) o.fe).rowDelivered u (pushDest o.push)
          (rowOfBytes f o.lw (bs.map (·.1))) 1))
      ∧ ∀ v, o.zf = true → ar.isTrans = true → firstBad a.toNat bs = some v →
        Completes (.vld o) s u .next (((s3.emptied u ar (runBytes f.width (laneN o.lw)) o.fe).zeroFilled u v).rowDelivered u (pushDest o.push)
          (rowOfMarked f o.lw bs) 1))
    ∧ (later = true → Completes (.vld o) s u .next
        ((s2.idTaken.modJob u.core (fun j => j.pushRow u.strm (pushDest o.push) (.resv s2.ids))).logging u
          (logged s2 u o.scope (.vld [a.toNat] true o.fmt.toNat (descOf (s.jobAt u.core) o.fmt.toNat) o.lw)
            (if o.push then [vqNum u.strm] else [])))))
  ∧ (∀ (o : VldOps) (s : State) (u : Cur) (f : MFmt) (m : BitVec 3) (r : MReg) (b : Block) (bs : List Byte), Runs s u o.g →
    needLogEntry u false s = .ok () s → fmtOf (fun i => tget 0 (s.jobAt u.core).fd i) o.fmt.toNat = some f →
    (s.jobAt u.core).noRoom u.strm (pushDest o.push) = none → o.at_.base = .m m → o.at_.idx = .zero → o.fe = .none →
    tget none (s.strmAt u.core u.strm).m m.toNat = some r → r.data = true → r.pos < r.pat.total →
    r.pat.blk.toNat = runBytes f.width (laneN o.lw) → r.buf.head? = some b → b.bytes = some bs →
    Completes (.vld o) s u .next
      ((s.setM u.core u.strm m (some (r.pop 1))).rowDelivered u (pushDest o.push) (rowOfBytes f o.lw bs) 1))
  ∧ (∀ (o : VldOps) (s s1 s2 s3 : State) (u : Cur) (f : MFmt) (ars : List Area) (later : Bool) (l : List (List (Byte × Bool))),
    Runs s u o.g → gatherReady u o s = .ok (f, ars) s1 → s1.defers (ars.all Area.isTrans && !o.zf) = (later, s2) →
    (later = false → State.goodLoads u.core u.strm (runBytes f.width 1) o.scope o.zf ars s2 = (s3, .ok l) →
      (∀ bs ∈ l, bs.any (·.2) = false) →
      Completes (.vldx o) s u .next (s3.rowDelivered u (pushDest o.push)
        (rowOf o.lw (l.map (fun bs => f.load o.lw (leNat (bs.map (·.1)) % 2 ^ f.width)))) 1))
    ∧ (later = true → Completes (.vldx o) s u .next
        ((s2.idTaken.modJob u.core (fun j => j.pushRow u.strm (pushDest o.push) (.resv s2.ids))).logging u
          (logged s2 u o.scope (.vld (ars.map Area.va) false o.fmt.toNat (descOf (s1.jobAt u.core) o.fmt.toNat) o.lw)
            (if o.push then [vqNum u.strm] else [])))))
  ∧ (∀ (g : Guard) (m : MAddr) (scope : Scope) (mc : Bool) (s s1 : State) (u : Cur) (a : Int), Runs s u g →
    address u m s = .ok a s1 → 0 ≤ a → a + 1 ≤ 2 ^ 56 →
    Completes (.pref g m scope mc) s u .next (if a.toNat < 0x2000000 then s1 else s1.prefetch u.core a.toNat scope mc))

/-- R164, R165, R166, R197, R373, R374: ST and STL store the low bytes of their data, least significant first; VST and VSTX store the elements of the popped
row in the memory format, setting the flags of their final stores; an access that may be performed later, or whose fault is taken late, stands in the
operand log. -/
def Obligations.Stores : Prop :=
  (∀ (o : StOps) (s s1 s2 s3 : State) (u : Cur) (w : Word) (a : Int) (ar : Area) (later : Bool) (bs : List (Byte × Byte)) (e : LogEnt)
      (x : AccFault), Runs s u o.g →
    storeReady u o s = .ok (w, a, ar) s1 → s1.defers ar.isTrans = (later, s2) → bs = fullMask (leBytes w.toNat (2 ^ o.sz.toNat)) →
    e = logged s2 u o.scope (.st [{ addr := ar.va, bytes := bs }]) [] →
    (later = false → s2.storeArea u.core (strmNum u.strm) ar bs o.scope (o.fe != .none) = (s3, .ok ()) → Completes (.st o) s u .next s3)
    ∧ (later = false → s2.storeArea u.core (strmNum u.strm) ar bs o.scope (o.fe != .none) = (s3, .error x) →
      Completes (.st o) s u .next (s2.idTaken.faulting u e))
    ∧ (later = true → Completes (.st o) s u .next (s2.idTaken.logging u e)))
  ∧ (∀ (o : StOps) (s s0 s1 s3 : State) (u : Cur) (w : Word) (a : Int) (ar : Area), Runs s u o.g →
    needAll s u {} (addrRds o.at_ ++ [.scalar o.data]) = [] → releaseWait u o.scope (o.scope == .dom) s = .ok () s0 →
    storeReady u o s0 = .ok (w, a, ar) s1 →
    s1.storeArea u.core (strmNum u.strm) ar (fullMask (leBytes w.toNat (2 ^ o.sz.toNat))) o.scope (o.fe != .none) = (s3, .ok ()) →
    Completes (.stl o) s u .next s3)
  ∧ (∀ (o : VstOps) (s s1 s2 s3 : State) (u : Cur) (f : MFmt) (row : Row) (a : Int) (ar : Area) (later : Bool) (bs : List (Byte × Byte)),
    Runs s u o.g → o.rnd ≠ .rsto → rowStoreReady u o s = .ok (f, row, a, ar) s1 →
    (s1.flagged u (rowElems f o.lw o.rnd row []).2).defers ar.isTrans = (later, s2) → bs = packRun f.width (rowElems f o.lw o.rnd row []).1 →
    (later = false → s2.storeArea u.core (strmNum u.strm) ar bs o.scope (o.fe != .none) = (s3, .ok ()) → Completes (.vst o) s u .next s3)
    ∧ (later = true → Completes (.vst o) s u .next
        (s2.idTaken.logging u (logged s2 u o.scope (.st [{ addr := ar.va, bytes := bs }]) []))))
  ∧ (∀ (o : VstOps) (s s1 s2 s3 : State) (u : Cur) (f : MFmt) (row : Row) (ars : List Area) (later : Bool)
      (ps : List (Area × List (Byte × Byte))), Runs s u o.g → o.rnd ≠ .rsto →
    scatterReady u o s = .ok (f, row, ars) s1 →
    (s1.flagged u (rowElems f o.lw o.rnd row []).2).defers (ars.all Area.isTrans) = (later, s2) →
    ps = (ars.zip (rowElems f o.lw o.rnd row []).1).map (fun p => (p.1, packRun f.width [p.2])) →
    (later = false → s2.storeAll u.core (strmNum u.strm) o.scope ps = (s3, .ok ()) → Completes (.vstx o) s u .next s3)
    ∧ (later = true → Completes (.vstx o) s u .next
        (s2.idTaken.logging u (logged s2 u o.scope (.st (ps.map (fun p => { addr := p.1.va, bytes := p.2 }))) []))))

/-- R148, R153, R154, R157, R167, R373: GST hands its value to the gallery network for every member of the window that holds its address, with an entry in the
operand log; 24 cycles later the store lands in each member's scratchpad and fills the granules it touches, and its log entry ends. -/
def Obligations.GalleryStores : Prop :=
  (∀ (g : Guard) (data : Src) (m : MAddr) (sz : BitVec 2) (s s1 s2 : State) (u : Cur) (a : Int) (w : Word) (ms : List Nat), Runs s u g →
    needAll s u {} (addrRds m ++ [.scalar data]) = [] → needLogEntry u true s = .ok () s → readAddr u m s = .ok a s1 →
    readScalar u data s1 = .ok w s2 → galleryReady u false a (2 ^ sz.toNat) (2 ^ sz.toNat) s2 = .ok ms s2 →
    Completes (.gst (.scalar g data m sz)) s u .next (s2.galleried u false ms a.toNat (fullMask (leBytes w.toNat (2 ^ sz.toNat)))))
  ∧ (∀ (g : Guard) (m : MAddr) (fmt : BitVec 5) (rnd : Rnd) (lw : Bool) (s s0 s1 s2 : State) (u : Cur) (f : MFmt) (a : Int) (row : Row)
      (ms : List Nat), Runs s u g → rnd ≠ .rsto → rowFmt u fmt.toNat lw s = .ok f s0 →
    needAll s0 u {} (addrRds m ++ [.stRow]) = [] → needLogEntry u true s0 = .ok () s0 → readAddr u m s0 = .ok a s1 →
    popRow u .cx s1 = .ok row s2 → galleryReady u true a (runBytes f.width (laneN lw)) 16 s2 = .ok ms s2 →
    Completes (.gst (.row g m fmt rnd lw)) s u .next
      ((s2.flagged u (rowElems f lw rnd row []).2).galleried u true ms a.toNat (packRun f.width (rowElems f lw rnd row []).1)))
  ∧ (∀ (id : Nat) (s : State) (g : Gallery) (p : Piece) (rest : List Gallery),
    takeFirstBy (fun (g : Gallery) => g.id == id) s.galleries = some (g, rest) → g.pieces = [p] → (∀ b ∈ p.bytes, b.2 = 0xFF) →
    ∃ t, exec (.galleryArrival id) s = .next t ∧ t.galleries = rest ∧ t.hbm = s.hbm
      ∧ (∀ c ∈ g.members, readBytes (t.core c).spad p.addr p.bytes.length = p.bytes.map (·.1)
          ∧ emptyGranule (t.core c).fe p.addr p.bytes.length = none)
      ∧ ∀ x, ∀ e ∈ (t.strmAt g.src x).log, e.op ≠ .gst id)

/-- R155, R156, R168: SBIND binds a register to the pattern its descriptor describes, a bound DATA register fetches its next block, SNEXT skips
blocks, STEST tests a register and SDROP unbinds it. -/
def Obligations.StreamRegisters : Prop :=
  (∀ (g : Guard) (m : BitVec 3) (b : Src) (data : Bool) (s s1 s2 : State) (u : Cur) (a : Word) (ar : Area) (bs : List (Byte × Bool)) (r : MReg),
    Runs s u g → source1 u b s = .ok a s1 → mayAccess u a.toInt 64 64 .none false false s1 = .ok ar s1 →
    watch u ar.va 64 true false s1 = .ok () s1 → s1.loadArea u.core u.strm ar 64 .strm = (s2, .ok bs) → firstBad ar.va bs = none →
    bindOf data (bs.map (·.1)) = some r →
    Completes (.sbind g m b data) s u .next
      ((s2.setM u.core u.strm m (some r)).kickIf data u.core u.strm m))
  ∧ (∀ (c : Nat) (x : Strm) (m : BitVec 3) (s s1 : State) (r : MReg) (ar : Area) (bs : List (Byte × Bool)),
    (s.core c).job.isSome = true → tget none (s.strmAt c x).m m.toNat = some r → r.wants = true →
    checkAddr s c (r.pat.addr (r.pos + r.buf.length)) r.pat.blk.toNat (if r.pat.blk.toNat = 8 then 8 else 16) false = .ok ar →
    s.loadArea c x ar r.pat.blk.toNat .strm = (s1, .ok bs) → (∀ b ∈ bs, b.2 = false) →
    exec (.streamBlockFetch c x m) s = .next ((s1.setM c x m (some (r.withBlock bs))).kickFetch c x m))
  ∧ (∀ (g : Guard) (m : BitVec 3) (s : State) (u : Cur), Runs s u g →
    (∀ n r, tget none (s.strmAt u.core u.strm).m m.toNat = some r → needAll s u {} [.scalar (.s n)] = [] →
      Completes (.snext g m (.s n)) s u .next
        ((s.setM u.core u.strm m (some (r.pop ((s.strmAt u.core u.strm).sReg n.toNat).toNat))).kickIf r.data u.core u.strm m))
    ∧ (∀ d c, (s.jobAt u.core).noRoom u.strm d = none → Completes (.stest g d m c) s u .next
        (s.delivered u d (if mTest (tget none (s.strmAt u.core u.strm).m m.toNat) c then 1 else 0)))
    ∧ Completes (.sdrop g m) s u .next (s.setM u.core u.strm m none))

/-- R151, R169, R170: the tag table and the full-empty bits: TLOOK delivers the slot that holds a key or −1, TSET leaves the key in one slot only, TINV
clears one slot or all; FESET and FECLR set the granules of their range, FETEST delivers one; L1WB and L1INV clean and drop lines. -/
def Obligations.TagsGranulesLines : Prop :=
  (∀ (g : Guard) (d : Dest) (b : Src) (s s1 : State) (u : Cur) (k : Word), Runs s u g → operand1 u d b s = .ok k s1 →
    (∀ e, (s1.core u.core).tags.find? (fun e => e.2 == some (k.setWidth 56)) = some e →
      Completes (.tlook g d b) s u .next (s1.delivered u d (BitVec.ofNat 64 e.1)))
    ∧ ((s1.core u.core).tags.find? (fun e => e.2 == some (k.setWidth 56)) = none →
      Completes (.tlook g d b) s u .next (s1.delivered u d (BitVec.allOnes 64))))
  ∧ (∀ (g : Guard) (a b : Src) (s s1 : State) (u : Cur) (i k : Word), Runs s u g → source2 u a b s = .ok (i, k) s1 → i.toNat ≤ 255 →
    Completes (.tset g a b) s u .next (s1.modCore u.core (fun c =>
      { c with tags := tput none (c.tags.filter (fun e => e.2 != some (k.setWidth 56))) i.toNat (some (k.setWidth 56)) })))
  ∧ (∀ (g : Guard) (a : Src) (s s1 : State) (u : Cur) (i : Word), Runs s u g →
    Completes (.tinv g true a) s u .next (s.modCore u.core (fun c => { c with tags := [] }))
    ∧ (source1 u a s = .ok i s1 → i.toNat ≤ 255 →
      Completes (.tinv g false a) s u .next (s1.modCore u.core (fun c => { c with tags := tput none c.tags i.toNat none }))))
  ∧ (∀ (o : FeOps) (s s1 s2 : State) (u : Cur) (a : Int) (n : Word) (off : Nat), Runs s u o.g → address u o.at_ s = .ok a s1 →
    readScalar u o.cnt s1 = .ok n s2 →
    (n = 0 → Completes (.feset o) s u .next s2 ∧ Completes (.feclr o) s u .next s2)
    ∧ (n ≠ 0 → checkAddr s2 u.core a (16 * n.toNat) 16 true = .ok (.spad off) →
      Completes (.feset o) s u .next (s2.modCore u.core (fun k => { k with fe := setGranules k.fe off (16 * n.toNat) true }))
      ∧ Completes (.feclr o) s u .next (s2.modCore u.core (fun k => { k with fe := setGranules k.fe off (16 * n.toNat) false }))))
  ∧ (∀ (g : Guard) (d : Dest) (m : MAddr) (s s1 : State) (u : Cur) (a : Int) (off : Nat), Runs s u g →
    (s.jobAt u.core).noRoom u.strm d = none → address u m s = .ok a s1 → checkAddr s1 u.core a 16 16 true = .ok (.spad off) →
    Completes (.fetest g d m) s u .next (s1.delivered u d (if tget false (s1.core u.core).fe (off / 16) then 1 else 0)))
  ∧ (∀ (o : L1Ops) (s s1 s2 : State) (u : Cur) (a : Int) (va pa : Nat), Runs s u o.g → (s.strmAt u.core u.strm).log = [] →
    (o.all = true → Completes (.l1wb o) s u .next (s.l1Clean u.core (strmNum u.strm) (fun _ => true) false)
      ∧ Completes (.l1inv o) s u .next (s.l1Clean u.core (strmNum u.strm) (fun _ => true) true))
    ∧ (o.all = false → address u o.at_ s = .ok a s1 → 0 ≤ a → a < 0x2000000 →
      Completes (.l1wb o) s u .next s1 ∧ Completes (.l1inv o) s u .next s1)
    ∧ (o.all = false → address u o.at_ s = .ok a s1 → 0x2000000 ≤ a → checkAddr s1 u.core a 1 1 false = .ok (.trans va) →
      s1.translate u.core (s1.jobAt u.core).ctx va .any = (s2, .ok pa) →
      Completes (.l1wb o) s u .next (s2.l1Clean u.core (strmNum u.strm) (fun l => l.pa == pa / 128 * 128) false)
      ∧ Completes (.l1inv o) s u .next (s2.l1Clean u.core (strmNum u.strm) (fun l => l.pa == pa / 128 * 128) true)))

/-- R178, R179, R185, R194, R195: FENCE makes its release, its acquire, or both; a release at dom, and a full fence at die or wider, keeps the slot until
every store it covers is acknowledged; kind rel at strm or core retires at once, and later stores and pushes wait for what it orders. -/
def Obligations.Fences : Prop :=
  ∀ (g : Guard) (scope : Scope) (s s1 : State) (u : Cur), Runs s u g →
    ((s.strmAt u.core u.strm).log.any (fun e => e.op.loads) = false →
      Completes (.fence g .acq scope) s u .next (s.acquire u.core u.strm scope false))
    ∧ (scopeWide scope = false → Completes (.fence g .rel scope) s u .next (s.modStrm u.core u.strm (fun x => { x with relAt := s.ids })))
    ∧ (scopeWide scope = true → releaseWait u scope (scope == .dom) s = .ok () s1 → Completes (.fence g .rel scope) s u .next s1)
    ∧ (releaseWait u scope (scopeWide scope) s = .ok () s1 →
        Completes (.fence g .full scope) s u .next (s1.acquire u.core u.strm scope true))
    ∧ ((s.strmAt u.core u.strm).log = [] → (s.strmAt u.core u.strm).relDone = false →
      releaseWait u scope false s = .ok () (s.release u.core (strmNum u.strm) scope)
      ∧ ∀ s2 ids, s2 = s.release u.core (strmNum u.strm) scope → ids = s2.awaited u.core (s.die (coreDie u.core)).clock → scope = .dom →
        ∀ t, t = (s2.modStrm u.core u.strm (fun x => { x with unacked := ids })).modStrm u.core u.strm (fun x => { x with relDone := true }) →
          (ids = [] → Completes (.fence g .rel scope) s u .next t)
          ∧ (ids ≠ [] → u.second = false → exec (.fence g .rel scope) s = .next (t.holdAt u .busy)))

/-- R174, R198, R199: an atomic on local memory replaces the old element by its operation's value in one step and delivers the old one; on
translated memory it does so at its home. -/
def Obligations.Atomics : Prop :=
  (∀ (o : AOps) (s s1 : State) (u : Cur) (ar : Area) (d : Word) (n : Nat) (x y : Nat → BitVec (8 * n)) (one : Nat → Word), Runs s u o.g →
    n = (if o.dbl then 8 else 4) → atomicAddr u o.d o.at_ n s = .ok ar s1 → readDst u o.d s1 = .ok d s1 →
    x = BitVec.ofNat (8 * n) → (∀ m, y m = BitVec.ofNat (8 * n) d.toNat) → one = BitVec.ofNat 64 →
    AtomicRuns (.aadd o) s s1 u ar o.d n (fun va => .atomic va n 0 0 .rne d 0 0) (fun m => (x m + y m).toNat) (fun _ => 0) one
    ∧ AtomicRuns (.amin o) s s1 u ar o.d n (fun va => .atomic va n 1 0 .rne d 0 0)
        (fun m => (if (y m).slt (x m) then y m else x m).toNat) (fun _ => 0) one
    ∧ AtomicRuns (.amax o) s s1 u ar o.d n (fun va => .atomic va n 2 0 .rne d 0 0)
        (fun m => (if (x m).slt (y m) then y m else x m).toNat) (fun _ => 0) one
    ∧ AtomicRuns (.aand o) s s1 u ar o.d n (fun va => .atomic va n 3 0 .rne d 0 0) (fun m => (x m &&& y m).toNat) (fun _ => 0) one
    ∧ AtomicRuns (.aor o) s s1 u ar o.d n (fun va => .atomic va n 4 0 .rne d 0 0) (fun m => (x m ||| y m).toNat) (fun _ => 0) one
    ∧ AtomicRuns (.axor o) s s1 u ar o.d n (fun va => .atomic va n 5 0 .rne d 0 0) (fun m => (x m ^^^ y m).toNat) (fun _ => 0) one
    ∧ AtomicRuns (.axch o) s s1 u ar o.d n (fun va => .atomic va n 6 0 .rne d 0 0) (fun m => (y m).toNat) (fun _ => 0) one
    ∧ (∀ (i : BitVec 5) (w : Word), o.d.reg = some (.s i) → w = (s1.strmAt u.core u.strm).sReg (i.toNat + 1) →
      AtomicRuns (.acas o) s s1 u ar o.d n (fun va => .atomic va n 7 0 .rne w d 0)
        (fun m => if m = d.toNat % 2 ^ (8 * n) then w.toNat % 2 ^ (8 * n) else m) (fun _ => 0) one))
  ∧ (∀ (o : AfOps) (s s1 : State) (u : Cur) (ar : Area) (d : Word) (f : MFmt), Runs s u o.g → o.rnd ≠ .rsto →
    stdFmt o.fmt.toNat = some f → atomicAddr u o.d o.at_ (f.width / 8) s = .ok ar s1 → readDst u o.d s1 = .ok d s1 →
    AtomicRuns (.afadd o) s s1 u ar o.d (f.width / 8) (fun va => .atomic va (f.width / 8) 8 o.fmt.toNat o.rnd d 0 0)
      (fun m => (afaddRes f o.rnd 0 m (w36 d)).1) (fun m => (afaddRes f o.rnd 0 m (w36 d)).2) (fun m => wordOfImg (f.load false m)))

/-- R187 to R191, R200 to R203: WAITT ends once its number is done, acquiring at the counter's scope; TLRD delivers a part of a counter; TLADV takes
its numbers, delivers the last, and completes them after its release: at once where its stream's earlier accesses are performed, and otherwise, at die
or wider, once they are. -/
def Obligations.TimelineCounters : Prop :=
  (∀ (o : CtrOps) (s s1 : State) (u : Cur) (a b : Word), Runs s u o.g → source2 u o.a o.b s = .ok (a, b) s1 →
    ((a + b).toNat ≤ ((s1.jobAt u.core).ctr o.ctr.toNat).done.toNat →
      (o.nb = none → Completes (.waitt o) s u .next (s1.waitAcquired u ((s1.jobAt u.core).ctr o.ctr.toNat).acqs))
      ∧ (∀ p, o.nb = some p → Completes (.waitt o) s u .next
          ((s1.waitAcquired u ((s1.jobAt u.core).ctr o.ctr.toNat).acqs).modStrm u.core u.strm (fun x => x.setPred p true))))
    ∧ (((s1.jobAt u.core).ctr o.ctr.toNat).done.toNat < (a + b).toNat → ∀ p, o.nb = some p →
      Completes (.waitt o) s u .next (s1.modStrm u.core u.strm (fun x => x.setPred p false))))
  ∧ (∀ (g : Guard) (d : Dest) (n : BitVec 4) (s : State) (u : Cur), Runs s u g → (s.jobAt u.core).noRoom u.strm d = none →
    Completes (.tlrd g d n .done) s u .next (s.delivered u d ((s.jobAt u.core).ctr n.toNat).done)
    ∧ Completes (.tlrd g d n .iss) s u .next (s.delivered u d ((s.jobAt u.core).ctr n.toNat).iss)
    ∧ Completes (.tlrd g d n .errn) s u .next (s.delivered u d ((s.jobAt u.core).ctr n.toNat).errn)
    ∧ Completes (.tlrd g d n .acqs) s u .next (s.delivered u d (BitVec.ofNat 64 (scopeNum ((s.jobAt u.core).ctr n.toNat).acqs))))
  ∧ (∀ (g : Guard) (d : Dest) (n : BitVec 4) (b : Src) (scope : Scope) (s s1 s2 : State) (u : Cur) (k : Word) (acks log : List Nat) (a : Adv), Runs s u g →
    operand1 u d b s = .ok k s1 → 1 ≤ k.toNat → k.toNat ≤ 65536 → ((s1.jobAt u.core).ctr n.toNat).canTake k.toNat = true →
    a = advOf u.strm n ((s1.jobAt u.core).ctr n.toNat).iss k.toNat scope → log = (s1.strmAt u.core u.strm).log.map (·.id) →
    ((s.strmAt u.core u.strm).log = [] → log = [] → s1.advRelease u.core u.strm scope = (s2, acks) →
      Completes (.tladv g d n b scope) s u .next
        (((s2.modJob u.core (fun j => { j.modCtr n.toNat (fun c => { c with iss := c.iss + k }) with
            adv := j.adv ++ [{ a with acks := acks }] })).progressAdv u.core).delivered u d (((s1.jobAt u.core).ctr n.toNat).iss + k)))
    ∧ (scopeWide scope = true → log ≠ [] →
      Completes (.tladv g d n b scope) s u .next
        (((s1.modJob u.core (fun j => { j.modCtr n.toNat (fun c => { c with iss := c.iss + k }) with
            adv := j.adv ++ [{ a with log := log }] })).progressAdv u.core).delivered u d (((s1.jobAt u.core).ctr n.toNat).iss + k))))

/-- R32, R33, R99, R183, R185, R199, R373, R374, R388, R389: the machine's own steps of fetching and memory. -/
def Obligations.MemoryEvents : Prop :=
  (∀ (c : Nat) (x : Strm) (s s1 : State) (f : Fetched), (s.core c).job.isSome = true → (s.strmAt c x).live = true →
    (s.strmAt c x).fetched = none → s.codeWord c (s.strmAt c x).pc = (s1, .ok f) →
    exec (.instructionFetch c x) s = .next (s1.modStrm c x (fun v => { v with fetched := some f })) ∧ f.pc = (s.strmAt c x).pc)
  ∧ (∀ (c : Nat) (x : Strm) (s s1 : State) (e : LogEnt) (es : List LogEnt), (s.core c).job.isSome = true → (s.strmAt c x).susp = none →
    (s.strmAt c x).trapped = false → (s.strmAt c x).log.filter (fun e => e.op.own) = e :: es → (s.strmAt c x).replay = true →
    s.performLog c x e = (s1, .ok ()) →
    ∃ t, exec (.memoryAccessPerformed c x) s = .next t
      ∧ t = (let r := s1.modStrm c x (fun v => { v with replay := v.replay && v.log.any (fun e => e.op.own) })
             let s2 := (r.progressAdv c).postOnce r.now (.resultDelivery c x)
             if (s2.strmAt c x).log.any (fun e => e.op.own) then s2.postOnce (s2.now + 1) (.memoryAccessPerformed c x) else s2))
  ∧ (∀ (c : Nat) (x : Strm) (s s1 : State) (e : LogEnt) (es : List LogEnt) (f : AccFault), (s.core c).job.isSome = true →
    (s.strmAt c x).susp = none → (s.strmAt c x).trapped = false →
    ((s.strmAt c x).log = [] → exec (.lateFault c x) s = .next s)
    ∧ ((s.strmAt c x).log = [e] → s.performLog c x e = (s1, .ok ()) → exec (.lateFault c x) s = .next s1)
    ∧ ((s.strmAt c x).log = e :: es → s.performLog c x e = (s1, .error f) → exec (.lateFault c x) s = .next
      ((s1.takeTrapOf c (.stream x) { f.trap with late := true } (some (e.slot c x))).modStrm c x (fun v => { v with replay := true }))))
  ∧ (∀ (c : Nat) (x : Strm) (s : State) (tm id : Nat) (w : Word), (s.core c).job.isSome = true →
    (s.strmAt c x).returned = [(tm, id, .inl w)] → tm ≤ s.now →
    ∃ t, exec (.resultDelivery c x) s = .next t ∧ (t.strmAt c x).returned = []
      ∧ ∀ n, (t.jobAt c).queueOf n = ((s.jobAt c).queueOf n).map (fun v => if v = .resv id then .full w else v))
  ∧ (∀ (c id : Nat) (s : State), (∀ e ∈ s.cores, ∀ j, e.2.job = some j → j.adv = []) →
    ∃ t, exec (.storeAck c id) s = .next t ∧ (∀ k x, id ∉ (t.strmAt k x).unacked) ∧ (∀ k, id ∉ (t.jobAt k).ce.unacked)
      ∧ ∀ o ∈ t.remote, o.id ≠ id)
  ∧ (∀ (b : Nat) (s : State) (r : HomeReq), applicable [] (s.base b).reqs = [r] → Config.freeBit s.free = false →
    ∃ t, exec (.homeRequestApply b) s = .next t
      ∧ t = (let s2 := ({ s with free := s.free + 2 }.modBase b (fun x => { x with reqs := x.reqs.filter (fun q => q.id != r.id) })).applyReq r
             if (s2.base b).reqs.isEmpty then s2 else s2.postOnce (s2.now + 1) (.homeRequestApply b)))
  ∧ (∀ (pa : Word) (s : State) (l : Nat), l = paLocal pa.toNat →
    ((s.modnum.isNone || s.portsShut (s.partOfLocal l).1 || !s.physOk (s.partOfLocal l).1 pa.toNat) = true →
      ∀ op, exec (.remoteRequest pa op) s = .next s)
    ∧ ((s.modnum.isNone || s.portsShut (s.partOfLocal l).1 || !s.physOk (s.partOfLocal l).1 pa.toNat) = false →
      (∀ bs, exec (.remoteRequest pa (.write bs)) s = .next ((splitLines l bs).foldl
        (fun s p => s.homeWriteLine (paKey pa.toNat) p.1 (fullMask p.2) 0 0) s))
      ∧ ∀ sub fmt rnd n d cmp,
        (s.isBad l = true → exec (.remoteRequest pa (.atomic sub fmt rnd n d cmp)) s = .next (s.lineError 2 l l 0))
        ∧ (s.isBad l = false → ∀ m, m = leNat ((List.range n).map (fun i => s.homeByte (paKey pa.toNat) (l + i))) →
          exec (.remoteRequest pa (.atomic sub fmt rnd n d cmp)) s = .next (s.drawNat.2.homeWriteLine (paKey pa.toNat) l
            (fullMask (leBytes (atomicNew sub fmt rnd n d cmp (s.drawNat.1 % 65536) m) n)) 0 0))))

/-- R102, R149, R191, R234, R292, R308, R368: what the machine's own steps of a watchdog do. One of a wait that has lasted less than 2^24 cycles, or
of another wait, does nothing; one of a wait that has lasted them ends it: the stream's wait is over and the trap that the rules name is its effect,
with the queue and push bit, the counter, the first empty granule, or the number of the unit in DETAIL. A wait for a queue is counted over
the other waits between. -/
def Obligations.Watchdogs : Prop :=
  (∀ (c n : Nat) (x : Strm) (s : State) (w : Wait), WaitsLong s c x w n →
    (n < 2 ^ 24 → exec (.queueDeadlock c x) s = .next s ∧ exec (.timelineWaitTimeout c x) s = .next s
      ∧ exec (.fullEmptyTimeout c x) s = .next s ∧ exec (.drawWaitTimeout c x) s = .next s
      ∧ (x = .sc → exec (.wcsldWaitTimeout c) s = .next s) ∧ (x = .cx → exec (.landingCreditTimeout c) s = .next s))
    ∧ (w = .busy → exec (.queueDeadlock c x) s = .next s ∧ exec (.timelineWaitTimeout c x) s = .next s
      ∧ exec (.fullEmptyTimeout c x) s = .next s ∧ exec (.drawWaitTimeout c x) s = .next s
      ∧ (x = .sc → exec (.wcsldWaitTimeout c) s = .next s) ∧ (x = .cx → exec (.landingCreditTimeout c) s = .next s))
    ∧ (2 ^ 24 ≤ n →
      (∀ q, w = .push q → exec (.queueDeadlock c x) s = .next (s.expired c x { cause := 0x0A, detail := BitVec.ofNat 64 (q + 256) }))
      ∧ (∀ q, w = .pop q → exec (.queueDeadlock c x) s = .next (s.expired c x { cause := 0x0A, detail := BitVec.ofNat 64 q }))
      ∧ (∀ k, w = .counter k true → exec (.timelineWaitTimeout c x) s = .next (s.expired c x { cause := 0x0A, detail := BitVec.ofNat 64 (32 + k) }))
      ∧ (∀ o k e, w = .granule o k → emptyGranule (s.core c).fe o k = some e → exec (.fullEmptyTimeout c x) s = .next
        (s.expired c x { cause := 0x0F, detail := BitVec.ofNat 64 e }))
      ∧ (w = .draw → exec (.drawWaitTimeout c x) s = .next (s.expired c x { cause := 0x0A, detail := 48 }))
      ∧ (w = .pin → x = .sc → exec (.wcsldWaitTimeout c) s = .next (s.expired c x { cause := 0x0A, detail := 49 }))
      ∧ (w = .credit → x = .cx → exec (.landingCreditTimeout c) s = .next (s.expired c x { cause := 0x0A, detail := 0x132 }))))
  ∧ (∀ (s : State) (u : Cur) (w : Wait), (s.core u.core).job.isSome = true → (s.jobAt u.core).anySusp = false →
    ((s.holdAt u w).strmAt u.core u.strm).qwait = (s.strmAt u.core u.strm).qwait + (if w.onQueue then 1 else 0)
    ∧ (w.onQueue = true → ((s.holdAt u w).strmAt u.core u.strm).wait = some (w, (s.strmAt u.core u.strm).qwait + 1)))

/-- R114, R115: FCVT converts between floating-point images, integers and memory formats, FRND rounds to an integral value; outside rounding mode 5. (That
`.frommem` of an integer format delivers an image of the integer interpretation is the model's reading, log entry 77.) -/
def Obligations.FloatConversions : Prop :=
  ∀ (o : ROps1) (s s1 : State) (u : Cur), Runs s u o.g →
    (∀ x, operand1 u o.d o.a s = .ok x s1 →
      Completes (.fcvt o .itof) s u .next (s1.delivered u o.d (wordOfImg (w36OfInt x.toInt)))
      ∧ Completes (.fcvt o .utof) s u .next (s1.delivered u o.d (wordOfImg (w36OfInt x.toNat)))
      ∧ ∀ c f, fmtOf (fun i => tget 0 (s.jobAt u.core).fd i) c.toNat = some f →
          Completes (.fcvt o (.frommem c)) s u .next (s1.delivered u o.d (wordOfImg (f.load false (x.toNat % 2 ^ f.width)))))
    ∧ (∀ x r, r ≠ .rsto → floats1 u o.d o.a s = .ok x s1 →
      Completes (.fcvt o (.ftoi r)) s u .next ((s1.flagged u (fltToInt (imgVal false x) r 0 (-(2 ^ 63)) (2 ^ 63 - 1)).2).delivered u o.d
        (BitVec.ofInt 64 (fltToInt (imgVal false x) r 0 (-(2 ^ 63)) (2 ^ 63 - 1)).1))
      ∧ Completes (.fcvt o (.ftou r)) s u .next ((s1.flagged u (fltToInt (imgVal false x) r 0 0 (2 ^ 64 - 1)).2).delivered u o.d
        (BitVec.ofInt 64 (fltToInt (imgVal false x) r 0 0 (2 ^ 64 - 1)).1))
      ∧ (∀ c f, fmtOf (fun i => tget 0 (s.jobAt u.core).fd i) c.toNat = some f → precisionOk false f = true →
          Completes (.fcvt o (.tomem c r)) s u .next ((s1.flagged u (storeLane f false false x r 0).2).delivered u o.d
            (BitVec.ofNat 64 (storeLane f false false x r 0).1)))
      ∧ Completes (.frnd o r) s u .next (s1.delivered u o.d (wordOfImg (frndImg x r 0))))

/-- R212 to R214: the lane operations of two sources complete, each lane by its own operation, and each with its latency. -/
def Obligations.VectorTwoSources : Prop :=
  ∀ (o : VOps) (s s1 : State) (u : Cur) (a b d : List Nat), Runs s u o.g →
    (lanes2 u o false false s = .ok (a, b, d) s1 →
      Completes (.vadd o) s u .next (s1.lanesPut u o.d o.lw o.k 4 (fun i => fltAdd o.lw (laneAt a i) (laneAt b i)))
      ∧ Completes (.vsub o) s u .next (s1.lanesPut u o.d o.lw o.k 4 (fun i => fltSub o.lw (laneAt a i) (laneAt b i)))
      ∧ Completes (.vmul o) s u .next (s1.lanesPut u o.d o.lw o.k 4 (fun i => fltMul o.lw (laneAt a i) (laneAt b i)))
      ∧ Completes (.vmin o false) s u .next (s1.lanesPut u o.d o.lw o.k 4 (fun i => (fltMinMax false o.lw (laneAt a i) (laneAt b i), 0)))
      ∧ Completes (.vmax o false) s u .next (s1.lanesPut u o.d o.lw o.k 4 (fun i => (fltMinMax true o.lw (laneAt a i) (laneAt b i), 0))))
    ∧ (lanes2 u o false true s = .ok (a, b, d) s1 →
      Completes (.vfma o) s u .next (s1.lanesPut u o.d o.lw o.k 4 (fun i => fltFma o.lw (laneAt a i) (laneAt b i) (laneAt d i))))
    ∧ (lanes2 u o true false s = .ok (a, b, d) s1 → ∀ x y k, x = (fun i => imgInt o.lw (laneAt a i)) → y = (fun i => imgInt o.lw (laneAt b i)) →
      k = (fun i => imgStk o.lw (laneAt a i) || imgStk o.lw (laneAt b i)) →
      Completes (.vmin o true) s u .next (s1.lanesPut u o.d o.lw o.k 4 (fun i => (satImg o.lw (min (x i) (y i)) (k i), 0)))
      ∧ Completes (.vmax o true) s u .next (s1.lanesPut u o.d o.lw o.k 4 (fun i => (satImg o.lw (max (x i) (y i)) (k i), 0)))
      ∧ Completes (.viadd o) s u .next (s1.lanesPut u o.d o.lw o.k 1 (fun i => (satImg o.lw (x i + y i) (k i), 0)))
      ∧ Completes (.vimul o) s u .next (s1.lanesPut u o.d o.lw o.k 3 (fun i => (satImg o.lw (x i * y i) (k i), 0))))
    ∧ (lanes2 u o true false s = .ok (a, b, d) s1 → ∀ x y k, x = (fun i => laneAt a i % 2 ^ valW o.lw) → y = (fun i => laneAt b i % 2 ^ valW o.lw) →
      k = (fun i => imgStk o.lw (laneAt a i) || imgStk o.lw (laneAt b i)) →
      Completes (.vand o) s u .next (s1.lanesPut u o.d o.lw o.k 1 (fun i => (withStk o.lw (x i &&& y i) (k i), 0)))
      ∧ Completes (.vor o) s u .next (s1.lanesPut u o.d o.lw o.k 1 (fun i => (withStk o.lw (x i ||| y i) (k i), 0)))
      ∧ Completes (.vxor o) s u .next (s1.lanesPut u o.d o.lw o.k 1 (fun i => (withStk o.lw (x i ^^^ y i) (k i), 0)))
      ∧ Completes (.vshl o) s u .next (s1.lanesPut u o.d o.lw o.k 1 (fun i => (withStk o.lw (x i <<< (y i % 64)) (k i), 0)))
      ∧ Completes (.vshr o false) s u .next (s1.lanesPut u o.d o.lw o.k 1 (fun i => (withStk o.lw (x i >>> (y i % 64)) (k i), 0)))
      ∧ Completes (.vshr o true) s u .next (s1.lanesPut u o.d o.lw o.k 1 (fun i =>
          (withStk o.lw (BitVec.ofInt (valW o.lw) (imgInt o.lw (laneAt a i) >>> (y i % 64))).toNat (k i), 0))))

/-- R81, R212, R215, R216: the lane operations of one source, the moves between lanes and the moves between lanes and scalars. -/
def Obligations.VectorMoves : Prop :=
  (∀ (o : VOps1) (s s1 : State) (u : Cur) (a : List Nat) (int : Bool), Runs s u o.g → lanes1 u o int s = .ok a s1 →
    Completes (.vmov o int) s u .next (s1.lanesPut u o.d o.lw o.k 1 (fun i => (laneAt a i, 0)))
    ∧ Completes (.vabs o int) s u .next (s1.lanesPut u o.d o.lw o.k 1 (fun i =>
        (if int then satImg o.lw (imgInt o.lw (laneAt a i)).natAbs (imgStk o.lw (laneAt a i)) else imgAbs o.lw (laneAt a i), 0)))
    ∧ Completes (.vneg o int) s u .next (s1.lanesPut u o.d o.lw o.k 1 (fun i =>
        (if int then satImg o.lw (-(imgInt o.lw (laneAt a i))) (imgStk o.lw (laneAt a i)) else imgNeg o.lw (laneAt a i), 0))))
  ∧ (∀ (o : VOps) (s s1 : State) (u : Cur) (a : List Nat) (b : Word), Runs s u o.g → laneScalar u o s = .ok (a, b) s1 →
    Completes (.vbcst o) s u .next (s1.lanesPut u o.d o.lw o.k 1 (fun _ => (laneAt a (b.toNat % laneN o.lw), 0)))
    ∧ Completes (.vrot o .rot) s u .next (s1.lanesPut u o.d o.lw o.k 1 (fun i => (laneAt a ((i + b.toNat) % laneN o.lw), 0)))
    ∧ Completes (.vrot o .dn) s u .next (s1.lanesPut u o.d o.lw o.k 1 (fun i =>
        (if i + min b.toNat (laneN o.lw) < laneN o.lw then laneAt a (i + min b.toNat (laneN o.lw)) else 0, 0)))
    ∧ Completes (.vrot o .up) s u .next (s1.lanesPut u o.d o.lw o.k 1 (fun i =>
        (if min b.toNat (laneN o.lw) ≤ i then laneAt a (i - min b.toNat (laneN o.lw)) else 0, 0))))
  ∧ (∀ (o : VOps) (s s1 s2 s3 : State) (u : Cur) (a b : Row), Runs s u o.g → (s.jobAt u.core).noRoom u.strm o.d = none →
    needRowWrite u o.d s = .ok () s →
    (∀ int, needAll s u {} [.vec o.a, .vec o.b] = [] → readVec u o.lw int o.a s = .ok a s1 → readVec u o.lw int o.b s1 = .ok b s2 →
      Completes (.vsel o int) s u .next (s2.rowDelivered u o.d (rowOf o.lw ((rowLanes o.lw a).zipIdx.map (fun p =>
        if (s2.maskOf u o.k).getLsbD p.2 then p.1 else laneAt (rowLanes o.lw b) p.2))) 1))
    ∧ (needAll s u {} ([.vec o.a, .vec o.b] ++ dstRd o.d o.k false) = [] → readVec u o.lw false o.a s = .ok a s1 →
      readVec u o.lw true o.b s1 = .ok b s2 → Completes (.vshuf o) s u .next (s2.lanesPut u o.d o.lw o.k 1 (fun i =>
        (if imgInt o.lw (laneAt (rowLanes o.lw b) i) < 0 then 0
         else laneAt (rowLanes o.lw a) (imgInt o.lw (laneAt (rowLanes o.lw b) i)).toNat, 0))))
    ∧ (∀ x, needAll s u {} [.vec o.a, .scalar o.b] = [] → readVec u o.lw false o.a s = .ok a s1 → readScalar u o.b s1 = .ok x s2 →
      ∀ w, Completes (.vext o w) s u .next (s2.delivered u o.d (extLane o.lw w (laneAt (rowLanes o.lw a) (x.toNat % laneN o.lw)))))
    ∧ (∀ v x, needAll s u {} [.scalar o.a, .scalar o.b, .vec (destSrc o.d)] = [] → readScalar u o.a s = .ok v s1 →
      readScalar u o.b s1 = .ok x s2 → oldRow u o.d s2 = .ok b s3 →
      Completes (.vins o .int) s u .next (s3.rowDelivered u o.d (rowOf o.lw ((rowLanes o.lw b).set (x.toNat % laneN o.lw)
        (satImg o.lw v.toInt false))) 1 true)
      ∧ Completes (.vins o .img) s u .next (s3.rowDelivered u o.d (rowOf o.lw ((rowLanes o.lw b).set (x.toNat % laneN o.lw)
        (v.toNat % 2 ^ laneW o.lw))) 1 true))
    ∧ (∀ v x, needAll s u {} [.scalar o.a, .scalar o.b, .vec (destSrc o.d)] = [] → readFloat u o.a s = .ok v s1 →
      readScalar u o.b s1 = .ok x s2 → oldRow u o.d s2 = .ok b s3 →
      Completes (.vins o .flt) s u .next (s3.rowDelivered u o.d (rowOf o.lw ((rowLanes o.lw b).set (x.toNat % laneN o.lw)
        (imgConv false o.lw v))) 1 true)))

/-- R207, R217, R218: the instructions that make, combine and count lane masks. -/
def Obligations.LaneMasks : Prop :=
  (∀ (o : VOps) (c : Cond) (int x : Bool) (s s1 : State) (u : Cur) (a b : List Nat), Runs s u o.g → cmpLanes u o int s = .ok (a, b) s1 →
    Completes (.vcmp o c int x) s u .next (s1.maskPut u o.d (maskOf (a.zipIdx.map (fun p =>
      (s1.maskOf u o.k).getLsbD p.2 && cmpLane o.lw int c x p.1 (laneAt b p.2))))))
  ∧ (∀ (g : Guard) (d : Dest) (ka kb : BitVec 4) (s : State) (u : Cur), Runs s u g →
    Completes (.kand g d ka kb) s u .next (s.maskPut u d (s.maskOf u ka &&& s.maskOf u kb))
    ∧ Completes (.kor g d ka kb) s u .next (s.maskPut u d (s.maskOf u ka ||| s.maskOf u kb))
    ∧ Completes (.knot g d ka) s u .next (s.maskPut u d (~~~(s.maskOf u ka)))
    ∧ ((s.jobAt u.core).noRoom u.strm d = none → ∀ lw, Completes (.kpopc g d ka lw kb) s u .next
        (s.delivered u d (BitVec.ofNat 64 ((List.range (laneN lw)).filter (fun i =>
          (s.maskOf u ka).getLsbD i && (s.maskOf u kb).getLsbD i)).length))))

/-- R219 to R225: conversions between lane formats and block formats, outside rounding mode 5. -/
def Obligations.VectorConversions : Prop :=
  (∀ (o : ROps1) (k : BitVec 4) (c : VCvtKind) (s s1 s2 : State) (u : Cur) (a old : Row), Runs s u o.g → cvtRnd c ≠ .rsto →
    (s.jobAt u.core).noRoom u.strm o.d = none → needRowWrite u o.d s = .ok () s →
    needAll s u {} ([.vec o.a] ++ dstRd o.d k ((cvtWidths c).2 && !(cvtWidths c).1 && destVq o.d)) = [] →
    readVec u (cvtWidths c).1 (c matches .i36f36 | .i18f18 | .i36i18 _ | .i18i36 _) o.a s = .ok a s1 → oldRow u o.d s1 = .ok old s2 →
    ∀ inc r, inc = (List.range (laneN (cvtWidths c).2)).map (fun i => (s.maskOf u k).getLsbD i && cvtWrites c i) →
      r = maskedLanes (cvtWidths c).2 (maskOf inc) (rowLanes (cvtWidths c).2 old)
        (fun i => cvtLane c 0 (laneAt (rowLanes (cvtWidths c).1 a) (cvtSrcLane c i))) →
      Completes (.vcvt o k c) s u .next ((s2.flagged u r.2).rowDelivered u o.d r.1 2 (k != 0 || ((cvtWidths c).2 && !(cvtWidths c).1))))
  ∧ (∀ (o : ROps) (k : BitVec 4) (q : QFmt) (s s1 : State) (u : Cur) (f : MFmt) (a : Row) (b : List Nat), Runs s u o.g →
    fmtOf (fun i => tget 0 (s.jobAt u.core).fd i) (qfmtCode q) = some f → blockRows u o k s = .ok (a, b) s1 →
    Completes (.vdq o k q) s u .next (s1.lanesPut u o.d false k 4 (fun i => dqLane f (elemAt a.toNat f.width i) (laneAt b (i / 32))))
    ∧ (∀ r s2 old es, r ≠ .rsto → precisionOk false f = true → oldRow u o.d s1 = .ok old s2 →
        es = (List.range 128).map (fun i => if (s.maskOf u k).getLsbD i then qntElem f r (laneAt (rowLanes false a) i) (laneAt b (i / 32)) 0
          else (elemAt old.toNat f.width i, 0)) →
        Completes (.vqnt o k q r) s u .next ((s2.flagged u (es.foldl (fun (x : Flg) e => x ||| e.2) 0)).rowDelivered u o.d
          (BitVec.ofNat 4608 (packBits f.width (es.map (·.1)))) 4 (k != 0))))
  ∧ (∀ (o : ROps1) (k : BitVec 4) (q : QFmt) (s s1 : State) (u : Cur) (f : MFmt) (a : Row), Runs s u o.g →
    fmtOf (fun i => tget 0 (s.jobAt u.core).fd i) (qfmtCode q) = some f → (s.jobAt u.core).noRoom u.strm o.d = none →
    needRowWrite u o.d s = .ok () s → needAll s u {} [.vec o.a] = [] → readVec u false false o.a s = .ok a s1 →
    ∀ bs, bs = (List.range 4).map (fun b => blockMax (fmtEmax f) ((List.range 32).filterMap (fun i =>
        if (s.maskOf u k).getLsbD (32 * b + i) then some (laneAt (rowLanes false a) (32 * b + i)) else none))) →
      Completes (.vbmax o k q) s u .next ((s1.flagged u (bs.foldl (fun (x : Flg) b => x ||| b.2.2) 0)).rowDelivered u o.d
        (rowOf false (bs.map (·.2.1) ++ bs.map (·.1) ++ List.replicate 120 0)) 3))

/-- R87, R226 to R229: VRED starts a reduction that combines into its latch six cycles later, VRMOV delivers a latch and may reset it, VSCAN delivers
prefixes. -/
def Obligations.Reductions : Prop :=
  (∀ (g : Guard) (a : Src) (lw int : Bool) (k : BitVec 4) (rl : BitVec 2) (op : RedOp) (s s1 : State) (u : Cur) (r : Row), Runs s u g →
    needAll s u {} [.vec a] = [] → readVec u lw int a s = .ok r s1 →
    Completes (.vred g a lw k rl op int) s u .next (s1.startRed u.core rl op int lw (incLanes lw (s.maskOf u k) r)))
  ∧ (∀ (c : Nat) (s : State) (j : Job) (r : RedLand), (s.core c).job = some j → j.redl = [r] → r.time ≤ s.now →
    ∃ t, exec (.vredLanding c) s = .next t ∧ (t.jobAt c).redl = []
      ∧ tget 0 (t.jobAt c).rl r.rl.toNat = BitVec.ofNat 36 (landLatch r (tget 0 j.rl r.rl.toNat).toNat).1
      ∧ ∀ n, n ≠ r.rl.toNat → tget 0 (t.jobAt c).rl n = tget 0 j.rl n)
  ∧ (∀ (g : Guard) (d : Dest) (rl : BitVec 2) (s : State) (u : Cur), Runs s u g → (s.jobAt u.core).noRoom u.strm d = none →
    ∀ v, v = (tget 0 (s.jobAt u.core).rl rl.toNat).setWidth 64 →
      Completes (.vrmov g d rl none) s u .next (s.delivered u d v)
      ∧ ∀ c, Completes (.vrmov g d rl (some c)) s u .next ((s.delivered u d v).setLatch u.core rl (clrImg c)))
  ∧ (∀ (o : VOps1) (op : RedOp) (excl : Bool) (s s1 : State) (u : Cur) (a : Row), Runs s u o.g →
    (s.jobAt u.core).noRoom u.strm o.d = none → needRowWrite u o.d s = .ok () s → needAll s u {} ([.vec o.a] ++ dstRd o.d o.k false) = [] →
    (readVec u o.lw false o.a s = .ok a s1 → ∀ t, t = scanSteps (redFlt op o.lw) (laneLg o.lw) 0 (incLanes o.lw (s.maskOf u o.k) a) →
      Completes (.vscan o op false excl) s u .next ((s1.flagged u (flgIf t.2 flgNV)).lanesPut u o.d o.lw o.k (if o.lw then 9 else 8)
        (fun i => (laneAt (scanOut excl (redIdent op o.lw) t.1) i, 0))))
    ∧ (readVec u o.lw true o.a s = .ok a s1 → op = .sum → ∀ t, t = scanSteps (fun a b => (redInt op a b, false)) (laneLg o.lw) 0
        ((incLanes o.lw (s.maskOf u o.k) a).map (·.map (fun b => (imgInt o.lw b, imgStk o.lw b)))) →
      Completes (.vscan o op true excl) s u .next ({ s1 with free := s1.free + 1 }.lanesPut u o.d o.lw o.k (if o.lw then 9 else 8)
        (fun i => (laneAt ((scanOut excl ((0 : Int), false) t.1).map (fun (v : Int × Bool) => satImg o.lw v.1 v.2)) i, 0)))))

/-- R91, R93, R230 to R236: special functions and softmax occupy their unit and deliver their lanes; VRNG delivers one draw per lane; the noise source
grants one request of up to 256 draws in a cycle, and an instruction that needs more asks again with the draws it has. -/
def Obligations.SpecialFunctionsAndNoise : Prop :=
  (∀ (o : VOps1) (s s1 : State) (u : Cur) (a : Row), Runs s u o.g → (s.jobAt u.core).noRoom u.strm o.d = none →
    needRowWrite u o.d s = .ok () s → (s.core u.core).sfuFree ≤ s.now →
    (∀ f, needAll s u {} ([.vec o.a] ++ dstRd o.d o.k false) = [] →
      readVec u o.lw false o.a (s.sfuBusy u (laneN o.lw / 32)) = .ok a s1 →
      Completes (.vsfu o f) s u .next (s1.lanesPut u o.d o.lw o.k (4 + laneN o.lw / 32) (fun i => sfuImg f o.lw (laneAt (rowLanes o.lw a) i))))
    ∧ (needAll s u {} [.vec o.a] = [] → readVec u o.lw false o.a (s.sfuBusy u (2 * laneN o.lw / 32)) = .ok a s1 →
      ∀ r, r = softmax o.lw (incLanes o.lw (s.maskOf u o.k) a) →
      Completes (.vsmax o) s u .next ((s1.flagged u r.2).rowDelivered u o.d (rowOf o.lw r.1) (14 + 2 * laneN o.lw / 32))))
  ∧ (∀ (g : Guard) (d : Dest) (unif lw : Bool) (k : BitVec 4) (s s1 : State) (u : Cur) (ds : List Nat), Runs s u g →
    (s.jobAt u.core).noRoom u.strm d = none → needRowWrite u d s = .ok () s → needAll s u {} (dstRd d k false) = [] →
    takeDraws u (laneN lw) (if lw then 2 else 4) s = .ok ds s1 →
    Completes (.vrng g d unif lw k) s u .next (s1.lanesPut u d lw k 2 (fun i => (rngLane lw unif (laneAt ds i), 0))))
  ∧ (∀ (u : Cur) (n by_ : Nat) (s : State), 0 < n → ringMode (s.strmAt u.core u.strm).rngc = 0 →
    (s.bay (coreBay u.core)).noiseGrant = some (8 * (u.core % 4) + strmNum u.strm) →
    ∀ old, old = (s.strmAt u.core u.strm).drawn → old.length ≤ n →
      (n ≤ old.length + 256 → ∃ ds t, takeDraws u n by_ s = .ok ds t ∧ ds.length = n ∧ old <+: ds ∧ (t.strmAt u.core u.strm).drawn = []
        ∧ (t.bay (coreBay u.core)).noiseGrant = none
        ∧ (t.bay (coreBay u.core)).noisePtr = (s.bay (coreBay u.core)).noisePtr + (n - old.length) * (by_ / 2))
      ∧ (old.length + 256 < n → takeDraws u n by_ s = .error (.ask (.moreNoise by_) .draw) s))
  ∧ (∀ (b r : Nat) (s : State), (s.bay b).noiseOk = true → (s.bay b).noiseReq = [r] → (s.bay b).noiseGrant = none → r / 8 < 4 →
    ∃ t, exec (.noiseGrant b) s = .next t ∧ (t.bay b).noiseGrant = some r ∧ (t.bay b).noiseReq = [])

/-- R239 to R241: LEASE asks its bay, and completes with its answer once it has one; the arbiter grants the first requester from P on and moves P
behind it; LREL ends its core's grant. -/
def Obligations.ArrayLease : Prop :=
  (∀ (g : Guard) (nb : Option (BitVec 3)) (s : State) (u : Cur), Runs s u g →
    ((s.bay (coreBay u.core)).reqOf (u.core % 4) = .granted → Completes (.lease g nb) s u .next ((s.askDone u.core).answered u nb true))
    ∧ ((s.bay (coreBay u.core)).reqOf (u.core % 4) = .refused → Completes (.lease g nb) s u .next ((s.askDone u.core).answered u nb false))
    ∧ ((s.bay (coreBay u.core)).reqOf (u.core % 4) = .idle → u.second = false → (s.bay (coreBay u.core)).holder ≠ some (u.core % 4) →
        (s.jobAt u.core).lease = true → exec (.lease g nb) s
          = .next ((s.leaseAsk u.core (if nb.isSome then .nb else .wait)).holdAt u (if nb.isSome then .busy else .lease)))
    ∧ ((s.bay (coreBay u.core)).reqOf (u.core % 4) = .idle → s.trapsNow u →
        ((s.bay (coreBay u.core)).holder = some (u.core % 4) → exec (.lease g nb) s = .next (s.takeTrap u (leaseTrap 2)))
        ∧ ((s.bay (coreBay u.core)).holder ≠ some (u.core % 4) → (s.jobAt u.core).lease = false →
          exec (.lease g nb) s = .next (s.takeTrap u (leaseTrap 3))))
    ∧ Completes (.lrel g) s u .next (s.endGrant u.core))
  ∧ (∀ (b i : Nat) (s : State) (y : Bay), y = s.bay b → y.holder = none → y.grantEnd ≠ some s.now → i < 4 → y.asks ((y.p + i) % 4) →
    (∀ k < i, ¬ y.asks ((y.p + k) % 4)) → ∃ t, exec (.leaseGrant b) s = .next t ∧ (t.bay b).holder = some ((y.p + i) % 4)
      ∧ (t.bay b).reqOf ((y.p + i) % 4) = .granted ∧ (t.bay b).gc = 0 ∧ (t.bay b).p = ((y.p + i) % 4 + 1) % 4
      ∧ ∀ k, k ≠ (y.p + i) % 4 → (y.reqOf k = .nb → (t.bay b).reqOf k = .refused) ∧ (y.reqOf k = .wait → (t.bay b).reqOf k = .wait))
  ∧ (∀ (c : Nat) (s : State), ((s.endGrant c).bay (coreBay c)).holder ≠ some (c % 4)
    ∧ ((s.bay (coreBay c)).holder ≠ some (c % 4) → (s.endGrant c).bay (coreBay c) = s.bay (coreBay c)))

/-- R242, R243, R251, R252, R256, R257: with a grant, depth and queue space, and operands that pass their checks, MMA, MMAS and MZERO put their command
in the array queue with everything captured; it counts toward the grant, which its 64th command ends, and toward the chain. -/
def Obligations.ArrayCommands : Prop :=
  (∀ (s : State) (u : Cur) (num : Nat) (e : FtEntry) (fa fb : MFmt) (oa ob : ArrSrc) (rs : List Nat) (sel : FtSel),
    num = selNum (s.jobAt u.core) sel → e = ftEntry (tget 0 (s.jobAt u.core).ft num) →
    checkEntry (fun i => tget 0 (s.jobAt u.core).fd i) e = .ok (fa, fb) → s.mayIssueArr u.core →
    (∀ o : MmaOps, Runs s u o.g → sel = o.sel → (s.jobAt u.core).rd + (o.ks.toNat + 1) ≤ (s.jobAt u.core).maxrd →
      needAll s u {} (arrRds o.a ++ arrRds o.b) = [] →
      mmaOperands u e fa fb o.acc o.a o.b o.ta o.tb 0 (o.ks.toNat + 1) s = .ok (oa, ob, rs) s →
      Completes (.mma o) s u .next (s.issueArr u.core (mmaCmd s u e 0 (o.ks.toNat + 1) o.acc o.ta o.tb oa ob rs)))
    ∧ (∀ o : MmasOps, Runs s u o.g → sel = o.sel → (s.jobAt u.core).rd + (o.ks.toNat + 1) ≤ (s.jobAt u.core).maxrd →
      needAll s u {} (arrRds o.a ++ arrRds o.b) = [] →
      mmaOperands u e fa fb o.acc o.a o.b false o.tb (2 ^ (o.sp.toNat - 1)) (o.ks.toNat + 1) s = .ok (oa, ob, rs) s →
      Completes (.mmas o) s u .next
        (s.issueArr u.core (mmaCmd s u e (2 ^ (o.sp.toNat - 1)) (o.ks.toNat + 1) o.acc false o.tb oa ob rs))))
  ∧ (∀ (g : Guard) (acc : Bool) (s : State) (u : Cur), Runs s u g → s.mayIssueArr u.core → (s.jobAt u.core).rd ≤ (s.jobAt u.core).maxrd →
    Completes (.mzero g acc) s u .next (s.issueArr u.core (blankCmd u s.now .mzero acc)))
  ∧ (∀ (c : Nat) (a : ArrCmd) (s t : State), t = s.issueArr c a → (s.core c).job.isSome = true → (s.bay (coreBay c)).holder = some (c % 4) →
    (s.bay (coreBay c)).gc < 64 →
    (t.core c).arr.map (·.kind) = (s.core c).arr.map (·.kind) ++ [a.kind] ∧ (t.jobAt c).rd = (s.jobAt c).rd + a.ks ∧ (t.jobAt c).co = true
      ∧ ((s.bay (coreBay c)).gc < 63 → (t.bay (coreBay c)).gc = (s.bay (coreBay c)).gc + 1 ∧ (t.bay (coreBay c)).holder = some (c % 4))
      ∧ ((s.bay (coreBay c)).gc = 63 → (t.bay (coreBay c)).holder = none))

/-- R86, R240, R255, R257: the array enters one step of the first command a cycle; MZERO clears its region and completes 4 cycles later, the last step of
a multiplication 12 cycles later; the step of the stall watchdog removes a command that has found its sparsity queue empty for 2^24 cycles, whose trap it
takes, and does nothing before; a completed command leaves, its NV in CX's status. -/
def Obligations.ArrayExecution : Prop :=
  (∀ (b i : Nat) (s : State) (a : ArrCmd), i < 4 → (s.core (4 * b + i)).job.isSome = true → (s.core (4 * b + i)).arr = [a] →
    (∀ k < 4, k ≠ i → (s.core (4 * b + k)).arr = []) → ((s.bay b).entering = none ∨ (s.bay b).entering = some (4 * b + i)) → a.left = false →
    a.issued + 2 ≤ s.now → s.throttle = false →
    (a.kind = .mzero → ∃ t, exec (.kStepEntry b) s = .next t
      ∧ (∀ r, (t.jobAt (4 * b + i)).row r = if (if a.acc then 64 else 0) ≤ r ∧ r < (if a.acc then 64 else 0) + 64 then 0
          else (s.jobAt (4 * b + i)).row r)
      ∧ (t.core (4 * b + i)).arr.map (·.completes) = [some (s.now + 4)])
    ∧ (a.kind = .mma 0 → ∃ t, exec (.kStepEntry b) s = .next t
      ∧ (t.jobAt (4 * b + i)).v = ((s.kStep (4 * b + i) a 0 0).1.jobAt (4 * b + i)).v
      ∧ (t.core (4 * b + i)).arr.map (fun x => (x.step, x.nv, x.completes))
          = [(a.step + 1, a.nv || (s.kStep (4 * b + i) a 0 0).2, if a.step + 1 = a.ks then some (s.now + 12) else a.completes)]))
  ∧ (∀ (b c : Nat) (s : State) (a : ArrCmd),
    ((s.bay b).stalled < 2 ^ 24 → exec (.sparsityStallTimeout b) s = .next s)
    ∧ (2 ^ 24 ≤ (s.bay b).stalled → s.arrPick b = none → exec (.sparsityStallTimeout b) s = .next s)
    ∧ (2 ^ 24 ≤ (s.bay b).stalled → s.arrPick b = some (c, a) →
      exec (.sparsityStallTimeout b) s = .next ((((s.modCore c (fun k => { k with arr := k.arr.filter (fun x => x.id != a.id) })).modBay b
        (fun y => { y with entering := none, stalled := 0 })).kickRetire c).takeTrapOf c (.stream .cx) { cause := 0x14, detail := 3 }
          (some (a.slot c)))))
  ∧ (∀ (c tm : Nat) (s : State) (a : ArrCmd), (s.core c).job.isSome = true → (s.core c).arr = [a] → a.isMret = false → a.completes = some tm →
    tm ≤ s.now → ∃ t, exec (.arrayCommandComplete c) s = .next t ∧ (t.core c).arr = []
      ∧ (t.strmAt c .cx).asr = ((s.strmAt c .cx).orAsr (if a.nv then flgNV else 0)).asr)

/-- R7, R249, R258, R259: MFMT writes a format-table entry, whose reserved bits stay 0, MSCL a scale, and MSQ appends mask sets of 64 bytes from local memory to a sparsity queue. -/
def Obligations.ArraySetUp : Prop :=
  (∀ (g : Guard) (b : Src) (s s1 : State) (u : Cur) (w : Word), Runs s u g → source1 u b s = .ok w s1 →
    (∀ n, Completes (.mfmt g n b) s u .next (s1.modJob u.core (fun j => { j with ft := tput 0 j.ft n.toNat (ftBits (w.setWidth 32)) })))
    ∧ ∀ n, Completes (.mscl g n false b) s u .next (s1.modJob u.core (fun j => { j with g := tput 0 j.g n.toNat w })))
  ∧ (∀ (g : Guard) (n : BitVec 3) (b : Src) (s s1 : State) (u : Cur) (x : Nat), Runs s u g → needAll s u {} [.scalar b] = [] →
    readFloat u b s = .ok x s1 → Completes (.mscl g n true b) s u .next (s1.modJob u.core (fun j => { j with g := tput 0 j.g n.toNat (wordOfImg x) })))
  ∧ (∀ (g : Guard) (n : BitVec 2) (a b : Src) (s s1 : State) (u : Cur) (x c : Word) (ar : Area), Runs s u g → source2 u a b s = .ok (x, c) s1 →
    1 ≤ c.toNat → (tget [] (s1.jobAt u.core).sq n.toNat).length + c.toNat ≤ 32 → localArea u x.toInt (64 * c.toNat) 64 s1 = .ok ar s1 →
    watch u x.toInt.toNat (64 * c.toNat) true false s1 = .ok () s1 → orderAt u ar (64 * c.toNat) s1 = .ok () s1 →
    s1.localBad u.core ar (64 * c.toNat) = none →
    ∃ es : List (BitVec 512), Completes (.msq g n a b) s u .next
        (s1.modJob u.core (fun j => { j with sq := tput [] j.sq n.toNat (tget [] (s1.jobAt u.core).sq n.toNat ++ es) }))
      ∧ es.length = c.toNat ∧ ∀ i < c.toNat, ∀ k < 64, ∀ e, es[i]? = some e →
          BitVec.ofNat 8 (e.toNat / 256 ^ k) = (s1.localBytes u.core ar (64 * c.toNat)).getD (64 * i + k) 0)

/-- R260 to R263, R265: MRET takes its number, ends its core's grant and chain and queues its retirement; the unit starts it once it is the oldest, puts
every row of the region through the epilogue, and completes its number when its stores are applied, with its flags in CX's status. -/
def Obligations.Retirement : Prop :=
  (∀ (g : Guard) (d : Dest) (ctr : BitVec 4) (acc : Bool) (a b : Src) (s s1 : State) (u : Cur) (desc : BitVec 256) (fd : BitVec 32) (rows : List RowDst),
    Runs s u g → mretReady u d a b s = .ok (desc, fd, rows) s1 → (mretDesc desc).rnd ≠ .rsto → (s1.strmAt u.core u.strm).log = [] →
    (((s1.release u.core (strmNum u.strm) .mod).jobAt u.core).ctr ctr.toNat).canTake 1 = true →
    Completes (.mret g d ctr acc a b) s u .next (s1.retiring u d ctr acc desc fd rows []))
  ∧ (∀ (c : Nat) (s : State) (a : ArrCmd) (rest : List ArrCmd) (desc : BitVec 256) (fd : BitVec 32) (ctr : BitVec 4) (num : Word)
      (rows : List RowDst) (ds : List Nat) (f : MretDesc), (s.core c).job.isSome = true → (s.core c).arr = a :: rest → a.left = false →
    a.kind = .mret desc fd ctr num rows ds → f = mretDesc desc →
    (f.bias = true → s.localBad c (if f.biasa < 0x1000000 then .spad f.biasa else .cluster (f.biasa - 0x1000000)) (4 * laneN f.lw) = none) →
    ∃ t, exec (.retirementStart c) s = .next t
      ∧ (t.core c).arr.map (·.id) = (s.core c).arr.map (·.id)
      ∧ (t.core c).arr.head?.map (·.left) = some true
      ∧ (s.now + (if 2 ≤ f.act then 256 else 64), false, .retirementComplete c) ∈ t.due
      ∧ (f.keep = true → f.bias = false → ∀ r < 64, (t.jobAt c).row ((if a.acc then 64 else 0) + r)
          = rowOf f.lw ((rowLanes f.lw ((s.jobAt c).row ((if a.acc then 64 else 0) + r))).map (fun b => (mretLane f 0 b).1)))
      ∧ (f.keep = false → (t.jobAt c).v = (s.jobAt c).v) ∧ (t.strmAt c .cx).asr = (s.strmAt c .cx).asr)
  ∧ (∀ (c : Nat) (s : State) (a : ArrCmd) (desc : BitVec 256) (fd : BitVec 32) (ctr : BitVec 4) (num : Word)
      (rows : List RowDst) (ds : List Nat), (s.core c).job.isSome = true → (s.core c).arr = [a] → a.left = true → a.acks = [] →
    a.kind = .mret desc fd ctr num rows ds →
    ∃ t, exec (.retirementComplete c) s = .next t ∧ (t.core c).arr = []
      ∧ (t.jobAt c).ctr ctr.toNat = ((s.jobAt c).ctr ctr.toNat).complete num.toNat 1 .mod false
      ∧ (t.strmAt c .cx).asr = ((s.strmAt c .cx).orAsr a.flg).asr)

/-- R267, R269, R289, R298 to R301: WBIND and WUNB write binding entries; WSTAT delivers an entry, the slot bits or the ROM identifier; WCSRD copies
micro-words to the scratchpad; WCSLD delivers the first refusal of its words, and completes a load once its writes are acknowledged. -/
def Obligations.ControlStore : Prop :=
  (∀ (g : Guard) (a b : Src) (s s1 : State) (u : Cur) (m e : Word), Runs s u g → source2 u a b s = .ok (m, e) s1 → isCustom m = true →
    bindOk e = true → Completes (.wbind g a b) s u .next (s1.setBind (s1.jobAt u.core).ctx (m.toNat - 0xC0) (e ||| 0x1000)))
  ∧ (∀ (g : Guard) (a : Src) (s s1 : State) (u : Cur) (m : Word), Runs s u g →
    Completes (.wunb g true a) s u .next (s.modCtx (s.jobAt u.core).ctx (fun x => { x with bind := [] }))
    ∧ (source1 u a s = .ok m s1 → isCustom m = true →
      Completes (.wunb g false a) s u .next (s1.setBind (s.jobAt u.core).ctx (m.toNat - 0xC0) 0)))
  ∧ (∀ (g : Guard) (d : Dest) (b : Src) (sel : BitVec 2) (s s1 : State) (u : Cur) (v : Word), Runs s u g →
    (sel = 0 → operand1 u d b s = .ok v s1 → isCustom v = true → Completes (.wstat g d b sel) s u .next (s1.delivered u d (wstatVal s1 u.core sel v)))
    ∧ (sel ≠ 0 → (s.jobAt u.core).noRoom u.strm d = none → Completes (.wstat g d b sel) s u .next (s.delivered u d (wstatVal s u.core sel 0))))
  ∧ (∀ (g : Guard) (a b : Src) (n : BitVec 8) (s s1 s2 : State) (u : Cur) (p ma : Word) (dst : Nat) (ps : List Page), Runs s u g →
    source2 u a b s = .ok (p, ma) s1 → csArea u p.toInt (16 * (n.toNat + 1)) s1 = .ok dst s1 →
    (ma.toNat + n.toNat + 1 ≤ 0x2000 → watch u dst (16 * (n.toNat + 1)) false true s1 = .ok () s1 → Completes (.wcsrd g a b n) s u .next
      (s1.spadWrite u.core dst (fullMask (((List.range (n.toNat + 1)).map (fun i => romWord (ma.toNat + i))).flatMap (fun w => leBytes w.toNat 16))) false))
    ∧ (0x2000 ≤ ma.toNat → ma.toNat + n.toNat + 1 ≤ 0x3000 →
      (∀ i ∈ slotsOf (ma.toNat - 0x2000) (n.toNat + 1), ∃ x, s1.ctx? (s1.jobAt u.core).ctx = some x ∧ x.slotOk i = true) →
      (slotsOf (ma.toNat - 0x2000) (n.toNat + 1)).mapM (needPage u) s1 = .ok ps s2 →
      watch u dst (16 * (n.toNat + 1)) false true s2 = .ok () s2 → Completes (.wcsrd g a b n) s u .next
      (s2.spadWrite u.core dst (fullMask ((pageRun ps (ma.toNat - 0x2000) (n.toNat + 1)).flatMap (fun w => leBytes w.toNat 16))) false)))
  ∧ (∀ (o : COps) (n : BitVec 8) (s s1 : State) (u : Cur), Runs s u o.g → (s.jobAt u.core).noRoom u.strm o.d = none →
    (∀ slots t, (s.core u.core).wcsld = some (slots, [], t) → t ≤ s.now →
      Completes (.wcsld o n) s u .next (((s.endWcsld u.core slots).answered u o.nb true).delivered u o.d 0))
    ∧ (∀ a ma x src i r, (s.core u.core).wcsld = none → source2 u o.a o.b s = .ok (a, ma) s1 → s.ctx? (s1.jobAt u.core).ctx = some x →
      0x2000 ≤ ma.toNat → ma.toNat < 0x3000 → ma.toNat % 4096 + n.toNat + 1 ≤ 4096 → x.image.isSome = true →
      csArea u a.toInt (16 * (n.toNat + 1)) s1 = .ok src s1 → watch u src (16 * (n.toNat + 1)) true false s1 = .ok () s1 →
      s1.spadBadAt u.core src (16 * (n.toNat + 1)) = none →
      (∀ k p, k ∈ slotsOf (ma.toNat % 4096) (n.toNat + 1) → (s1.core u.core).page (s1.jobAt u.core).ctx k = some p → p.2.pinned = false) →
      (∀ k < i, refused ((wordsOf (readBytes (s1.core u.core).spad src (16 * (n.toNat + 1))) (n.toNat + 1)).getD k 0) = none) → i < n.toNat + 1 →
      refused ((wordsOf (readBytes (s1.core u.core).spad src (16 * (n.toNat + 1))) (n.toNat + 1)).getD i 0) = some r →
      Completes (.wcsld o n) s u .next ((s1.answered u o.nb true).delivered u o.d (BitVec.ofNat 64 (i * 256 + r)))))

/-- R268 to R271, R273, R282, R290: a bound custom opcode starts its routine and makes its first step; a word that asks for nothing steps to the next; a
RETIRE without result ends the invocation after the instruction; the loader places the first absent page it can read. -/
def Obligations.CustomOpcodes : Prop :=
  (∀ (o : CustomOps) (s : State) (u : Cur) (e : Word), Runs s u o.g → u.second = false →
    e = tget 0 (((s.ctx? (s.jobAt u.core).ctx).map (·.bind)).getD []) (o.major.toNat - 0xC0) →
    (bindV e = true → rkDmaskOk (bindRk e) o.dmask = true → exec (.customOpcode o) s
      = .next ((s.modJob u.core (fun j => { j with micro := some (startMicro o e u), cxFirst := none })).microAt u.core))
    ∧ (bindV e = true → rkDmaskOk (bindRk e) o.dmask = false → exec (.customOpcode o) s = .next (s.takeTrap u { cause := 0x01, reason := 7 }))
    ∧ (bindV e = false → s.trapsNow u → exec (.customOpcode o) s = .next (State.microAt (s.takeTrap u { cause := 0x02, detail := o.major.setWidth 64 }) u.core)))
  ∧ (∀ (c : Nat) (s s1 : State) (m : Micro) (p : Page) (u : Cur), (s.core c).job.isSome = true → (s.jobAt c).micro = some m → m.ending = none →
    (s.jobAt c).cx.live = true → m.counted = false → m.sample = none → m.upc.toNat / 4096 = 2 → m.steps < bindSteps m.entry → m.destOk = true →
    u = m.slot c (((s.jobAt c).cx.rep.map (fun r => r.k)).getD 0) → needPage u (m.upc.toNat / 512 % 8) s = .ok p s1 →
    (tget 0 p.words (m.upc.toNat % 512) = 0 → (m.upc.toNat + 1) / 4096 = 2 →
      (∃ x, s1.ctx? (s1.jobAt c).ctx = some x ∧ x.slotOk ((m.upc.toNat + 1) / 512 % 8) = true) →
      ∃ t, exec (.microStep c) s = .next t ∧ (t.jobAt c).micro = some { m with upc := m.upc + 1, steps := m.steps + 1 })
    ∧ (tget 0 p.words (m.upc.toNat % 512) = 5#128 <<< 124 → bindRk m.entry = 0 → m.ops.dmask = 0 → (s.jobAt c).cx.loops = [] →
      (s.jobAt c).cx.rep = none →
      ∃ t, exec (.microStep c) s = .next t ∧ (t.jobAt c).micro = none ∧ (t.jobAt c).cx.pc = m.pc + BitVec.ofNat 56 u.size))
  ∧ (∀ (c n : Nat) (ns : List Nat) (s s1 : State) (j : Job) (x : Ctx) (bs : List Byte), (s.core c).job = some j → s.ctx? j.ctx = some x →
    Config.freeBit s.free = false → s.absentSlots c = n :: ns → { s with free := s.free + 1 }.readHome c j.ctx (x.slotVa n) 8192 = (s1, .ok bs) →
    exec (.pageFetch c) s = .next ((s1.putPage c j.ctx n (pageWords bs) false).kickLoader c))

/-- R304, R307, R318 to R323: LTAG allocates the lowest free tag at or above its hint, LDESC sets a tag's descriptor, LFREE frees a tag of which nothing
is unresolved, LSTAT delivers its status, LSEND hands eight rows to the port, LORPH takes the oldest orphan of its core. -/
def Obligations.LandingInstructions : Prop :=
  (∀ (o : COps) (s s1 : State) (u : Cur) (b : Word) (x : Ctx), Runs s u o.g → operand1 u o.d o.b s = .ok b s1 →
    s1.ctx? (s1.jobAt u.core).ctx = some x →
    (∀ i, x.freeTag (b.toNat % 4096) = some i → Completes (.ltag o) s u .next
      (((s1.tagTaken (s1.jobAt u.core).ctx i u.core (x.tag i).gen).answered u o.nb true).delivered u o.d
        (BitVec.ofNat 64 (x.pool * 65536 + (x.tag i).gen.toNat * 4096 + i))))
    ∧ (x.freeTag (b.toNat % 4096) = none →
      (∀ p, o.nb = some p → Completes (.ltag o) s u .next ((s1.answered u o.nb false).delivered u o.d 0))
      ∧ (o.nb = none → s.trapsNow u → exec (.ltag o) s = .next (s1.takeTrap u (landTrap 1)))))
  ∧ (∀ (g : Guard) (a : Src) (s s1 : State) (u : Cur) (v : Word) (t : BitVec 32) (x : Ctx), Runs s u g → t = v.setWidth 32 →
    (source1 u a s = .ok v s1 → s1.ctx? (s1.jobAt u.core).ctx = some x → x.current t = true → s1.tagLive (s1.jobAt u.core).ctx t = false →
      Completes (.lfree g a) s u .next
        (s1.modTag (s1.jobAt u.core).ctx (tagIdx t) (fun y => { y with alloc := false, gen := y.gen + 1 })))
    ∧ (∀ d, operand1 u d a s = .ok v s1 → s1.ctx? (s1.jobAt u.core).ctx = some x → tagPool t = x.pool →
      Completes (.lstat g d a) s u .next (s1.delivered u d ((x.tag (tagIdx t)).status t))))
  ∧ (∀ (g : Guard) (a b : Src) (s s1 s2 : State) (u : Cur) (v w : Word) (t : BitVec 32) (ar : Area) (raw : BitVec 256) (x : Ctx), Runs s u g →
    source2 u a b s = .ok (v, w) s1 → t = v.setWidth 32 → localArea u w.toInt 32 32 s1 = .ok ar s1 → orderAt u ar 32 s1 = .ok () s1 →
    watch u w.toInt.toNat 32 true false s1 = .ok () s1 → s1.localBad u.core ar 32 = none →
    raw = BitVec.ofNat 256 (leNat (s1.localBytes u.core ar 32)) →
    s1.ctx? (s1.jobAt u.core).ctx = some x → x.current t = true → (x.tag (tagIdx t)).orphaned = false → (x.tag (tagIdx t)).desc = none →
    landBad raw (s1.partDies x.part) = false → (s1.strmAt u.core u.strm).log = [] →
    (s1.handed u).frontWrite (s1.jobAt u.core).ctx (x.landa + 32 * tagIdx t) (leBytes raw.toNat 32) = (s2, .ok ()) →
    Completes (.ldesc g a b) s u .next (s2.modTag (s1.jobAt u.core).ctx (tagIdx t) (fun y => { y with desc := some raw })))
  ∧ (∀ (g : Guard) (row : BitVec 7) (b : Src) (nb : Option (BitVec 3)) (s s1 : State) (u : Cur), Runs s u g →
    (∀ w p, (s.strmAt u.core u.strm).answer = some w → nb = some p →
      Completes (.lsend g row b nb) s u .next (s.modStrm u.core u.strm (fun x => x.setPred p (w != 0))))
    ∧ (∀ v t fi x raw, (s.strmAt u.core u.strm).answer = none → (∀ f ∈ (s.core u.core).frags, f.nb = false) → source1 u b s = .ok v s1 →
      t = v.setWidth 32 → fi = (if b matches .lit _ then 0 else v.toNat / 2 ^ 32 % 65536) → (s1.core u.core).dcache.contains t = true →
      s1.ctx? (s1.jobAt u.core).ctx = some x → x.current t = true → (x.tag (tagIdx t)).orphaned = false →
      (x.tag (tagIdx t)).desc = some raw → fi < (landDesc raw).nf →
      ((landDesc raw).dtype = 2 → ∃ mf, fmtOf (fun i => tget 0 (s1.jobAt u.core).fd i) (landDesc raw).fmt = some mf
        ∧ ((landDesc raw).isInt || precisionOk (landDesc raw).lw mf) = true) →
      s1.rowsReady u.core row.toNat →
      ((s1.core u.core).credits ≠ 0 → nb = none → (s1.strmAt u.core u.strm).log = [] → Completes (.lsend g row b nb) s u .next
        ((s1.handed u).sendFrag u.core ((s1.handed u).parcel u (s1.jobAt u.core) t fi (landDesc raw).fmt row.toNat) false))
      ∧ ((s1.core u.core).credits = 0 → ∀ p, nb = some p →
        Completes (.lsend g row b nb) s u .next (s1.modStrm u.core u.strm (fun x => x.setPred p false)))))
  ∧ (∀ (g : Guard) (d : Dest) (a : Src) (s s1 : State) (u : Cur) (v : Word) (x : Ctx), Runs s u g → operand1 u d a s = .ok v s1 →
    s1.ctx? (s1.jobAt u.core).ctx = some x →
    (takeFirstBy (fun (o : Orphan) => o.owner == u.core) x.orphans = none → Completes (.lorph g d a) s u .next (s1.delivered u d 0))
    ∧ (∀ o rest off s2 h, takeFirstBy (fun (o : Orphan) => o.owner == u.core) x.orphans = some (o, rest) →
      areaOf u v.toInt 4640 16 false s1 = .ok (.spad off) s1 → watch u v.toInt.toNat 4640 false true s1 = .ok () s1 →
      s1.frontRead (s1.jobAt u.core).ctx (x.orphAddr o.owner o.slot) 32 = (s2, .ok h) →
      (∀ e s3 r, o.entry = some e → s2.frontRead (s1.jobAt u.core).ctx (x.ovfAddr e + 32) 4608 = (s3, .ok r) →
        Completes (.lorph g d a) s u .next
          (((s3.spadWrite u.core off (fullMask (h ++ r)) false).orphanTaken (s1.jobAt u.core).ctx o rest).delivered u d 1))
      ∧ (∀ y, o.entry = none → s2.allOps.find? (fun y => y.id == o.op) = some y → Completes (.lorph g d a) s u .next
          (((s2.spadWrite u.core off (fullMask (h ++ leBytes y.p.rows.toNat 4608)) false).orphanTaken (s1.jobAt u.core).ctx o rest).delivered
            u d 1))))

/-- R308 to R312: a landing looks at what has reached it, and handles one arrival a cycle, round-robin by port: it waits in a slot until its timer expires or
its match comes, with which it is combined and delivered 8 cycles later; the port learns the answer and sends a bounced fragment again; delivered bytes fill the destination's scratchpad granules. -/
def Obligations.LandingEvents : Prop :=
  (∀ (id c n : Nat) (s : State) (f : Frag) (x : Ctx) (raw : BitVec 256), s.fragAt id = some (c, f) → s.ctx? f.p.ctx = some x →
    f.flying = true → f.susp = none → n = s.landingOf x f.p.tag →
    ((s.landing n).arrived.find? (fun e => e.2.1 == id) = none → Config.freeBit s.free = false → exec (.fragmentArrival id) s
      = .next ((({ s with free := s.free + 1 } : State).modLanding n (fun l =>
          { l with arrived := l.arrived.filter (fun e => e.2.1 != id) ++ [(c, id, s.now)] })).post s.now (.fragmentArrival id)))
    ∧ ((s.landing n).arrived.find? (fun e => e.2.1 == id) = some (c, id, s.now) → s.nextArrival n = some id →
    (s.landing n).lastArrival ≠ some s.now → (x.tag (tagIdx f.p.tag)).orphaned = false →
    (x.tag (tagIdx f.p.tag)).desc = some raw →
    (takeFirstBy (fun (o : Operand) => o.p.ctx == f.p.ctx && o.p.tag == f.p.tag && o.p.fi == f.p.fi && o.stuck.isNone) (s.landing n).ops = none →
      s.slotFree n f.p.ctx = true → ∃ t o, exec (.fragmentArrival id) s = .next t ∧ (t.landing n).ops = (s.landing n).ops ++ [o] ∧ o.p = f.p
        ∧ o.place = .slot ∧ o.expire = s.now + 1600 * (landDesc raw).tmo ∧ (t.core c).credits = (s.core c).credits + 1)
    ∧ (∀ o rest, takeFirstBy (fun (o : Operand) => o.p.ctx == f.p.ctx && o.p.tag == f.p.tag && o.p.fi == f.p.fi && o.stuck.isNone)
        (s.landing n).ops = some (o, rest) → o.place = .slot →
      ∃ t, exec (.fragmentArrival id) s = .next t ∧ (t.landing n).ops = rest ∧ (t.core c).credits = (s.core c).credits + 1
        ∧ ∃ d ∈ t.deliveries, d.p.rows = (landCombine (landDesc raw) o.p.rows f.p.rows).1 ∧ d.parts = (landDesc raw).parts x.part
          ∧ (s.now + 8, false, .landingDelivery d.id) ∈ t.due)))
  ∧ (∀ (id c : Nat) (s : State) (f : Frag), s.fragAt id = some (c, f) →
    (f.flying = false → f.bounced = false → (s.core c).job.isSome = true → ∃ t, exec (.fragmentAnswer id) s = .next t
      ∧ (t.core c).frags = (s.core c).frags.filter (fun g => g.id != id) ∧ (f.nb = true → (t.strmAt c .cx).answer = some 1))
    ∧ (f.flying = false → f.bounced = true → f.nb = false → exec (.fragmentAnswer id) s = .next (s.post (s.now + 64) (.fragmentResend id)))
    ∧ (f.bounced = true → (s.core c).stopping = none → exec (.fragmentResend id) s
        = .next ((s.setFrag c id (fun f => { f with bounced := false, flying := true })).post (s.now + 1) (.fragmentArrival id))))
  ∧ (∀ (id e : Nat) (s s1 : State) (d : Delivery) (q : Parcel) (rows : BitVec 36864), s.delAt id = some d → d.pending = some (e, q) →
    d.susp = none → Config.freeBit s.free = false → { s with free := s.free + 1 }.entryRows d.p.ctx e = (s1, .ok rows) →
    (s1.keepsEntry d = false → exec (.overflowReadback id) s
      = .next (((s1.freeEntryAt d.p.ctx e).combineNow d { d.p with rows := rows } q).settleLand d.p.ctx))
    ∧ (s1.keepsEntry d = true → exec (.overflowReadback id) s = .next (s1.combineNow { d with back := some e } { d.p with rows := rows } q)))
  ∧ (∀ (id q c off : Nat) (s : State) (dl : Delivery) (x : Ctx) (raw : BitVec 256) (w : PartRun), s.delAt id = some dl →
    s.ctx? dl.p.ctx = some x → (x.tag (tagIdx dl.p.tag)).desc = some raw → dl.pending = none → dl.susp = none → dl.going = [q] →
    s.partRun dl.p.ctx (landDesc raw) x.part q = some w → w.cores = [c] → (s.core c).obs.wp = [] →
    (dl.pos < dl.bytes.length → off = w.base + (landDesc raw).offset + dl.p.fi * dl.bytes.length + dl.pos →
      ∃ t, exec (.landingDelivery id) s = .next t
        ∧ readBytes (t.core c).spad off ((dl.bytes.drop dl.pos).take 128).length = (dl.bytes.drop dl.pos).take 128
        ∧ emptyGranule (t.core c).fe off ((dl.bytes.drop dl.pos).take 128).length = none)
    ∧ (dl.bytes.length ≤ dl.pos → exec (.landingDelivery id) s = .next
        (((s.partNumber dl.p.ctx (landDesc raw) x.part q dl.p.clk false).setDel id
          (fun _ => { dl with going := [], bytes := [], pos := 0 })).restDelivery id)))
  ∧ (∀ (id : Nat) (s : State) (o : Operand) (x : Ctx) (raw : BitVec 256), s.allOps = [o] → o.id = id → o.stuck = none → o.queued = false →
    o.susp = none → o.expire ≤ s.now →
    s.ctx? o.p.ctx = some x → (s.landing o.landing).ops = [o] → (x.tag (tagIdx o.p.tag)).desc = some raw → o.place = .slot →
    (x.orphans.filter (fun y => y.owner == (x.tag (tagIdx o.p.tag)).owner)).length = 64 →
    ∃ t y, exec (.orphanTimeout id) s = .next t ∧ t.ctx? o.p.ctx = some y ∧ (y.tag (tagIdx o.p.tag)).orphaned = true
      ∧ (y.tag (tagIdx o.p.tag)).oq = true ∧ (t.landing o.landing).ops = [{ o with stuck := some 1 }])

/-- R330 to R333: CEGO takes a number and puts a chain behind those of its engine, CESTOP completes, after a release at dom, the numbers of all chains with an
error and ends them, CESTAT delivers what the engine is at. -/
def Obligations.CopyEngineInstructions : Prop :=
  (∀ (o : CtrOps) (s s1 : State) (u : Cur) (x y : Word) (off : Nat), Runs s u o.g → operand2 u o.d o.a o.b s = .ok (x, y) s1 →
    areaOf u (x.toInt + y.toInt) 32 32 false s1 = .ok (.spad off) s1 →
    ((s1.ceAt u.core).chains.length < 4 → (s1.strmAt u.core u.strm).log = [] →
      (((s1.handed u).jobAt u.core).ctr o.ctr.toNat).canTake 1 = true → ∀ s2 n, s2 = (s1.handed u).numbered u.core o.ctr →
      n = (s1.handed u).nextNum u.core o.ctr →
      Completes (.cego o) s u .next (((s2.chainAdded u.core off o.ctr n (s1.ceAt u.core).chains.isEmpty).answered u o.nb true).delivered u o.d n))
    ∧ ((s1.ceAt u.core).chains.length = 4 → ∀ p, o.nb = some p →
      Completes (.cego o) s u .next ((s1.answered u o.nb false).delivered u o.d 0)))
  ∧ (∀ (g : Guard) (s : State) (u : Cur), Runs s u g →
    ((s.ceAt u.core).chains = [] → Completes (.cestop g) s u .next s)
    ∧ ((s.ceAt u.core).chains ≠ [] → (s.ceAt u.core).flight = none → (s.ceAt u.core).relDone = false →
      ((s.ceStopped u.core).ceAt u.core).unacked = [] → Completes (.cestop g) s u .next
      (((s.ceAt u.core).chains.foldl (fun s h => if h.notified then s else s.completeNum u.core h.ctr.toNat h.num.toNat .dom true)
        (s.ceStopped u.core)).modCe u.core CopyEng.emptied))
    ∧ ∀ d, (s.jobAt u.core).noRoom u.strm d = none → Completes (.cestat g d) s u .next (s.delivered u d
      (BitVec.ofNat 64 ((if (s.ceAt u.core).chains = [] then 0 else 2 ^ 63) + (s.ceAt u.core).chains.length * 2 ^ 48
        + (s.ceAt u.core).entry % 65536 * 2 ^ 32 + (s.ceAt u.core).block % 2 ^ 32))))

/-- R325 to R327, R329: the entries of a chain: COPY moves its blocks piece by piece, LOOP counts, IF and WAIT test a counter, a word or a granule, SIGNAL
takes a number, releases and completes it, or writes a word after its release, NOTIFY releases and completes the chain's number, END gives way to the next chain. -/
def Obligations.ChainEntries : Prop :=
  ∀ (c : Nat) (s : State) (raw : BitVec 256), s.engineAt c raw →
    (ceKind raw = 1 → (s.ceAt c).flight = none → ((s.ceAt c).pats ≠ none
        ∨ (s.spadBadAt c (ceField raw 4 4) 64 = none ∧ s.spadBadAt c (ceField raw 8 4) 64 = none)) →
      (∀ p q, s.cePats c raw = some (p, q) → p.total ≤ (s.ceAt c).block → exec (.chainCopy c) s
        = .next ((s.modCe c (fun e => { e with pats := some (p, q) })).ceGoto c ((s.ceAt c).entry + 1)))
      ∧ (∀ p q a b, s.cePats c raw = some (p, q) → (s.ceAt c).block < p.total → p.blk.toNat ≤ 128 →
        checkAddr s c (p.addr (s.ceAt c).block) p.blk.toNat 8 false = .ok (.spad a) →
        checkAddr s c (q.addr (s.ceAt c).block) p.blk.toNat 8 false = .ok (.spad b) → (s.core c).obs.wp = [] →
        s.spadBadAt c a p.blk.toNat = none →
        ∃ t, exec (.chainCopy c) s = .next t ∧ (t.ceAt c).block = (s.ceAt c).block + 1
          ∧ readBytes (t.core c).spad b p.blk.toNat = readBytes (s.core c).spad a p.blk.toNat ∧ emptyGranule (t.core c).fe b p.blk.toNat = none)
      ∧ (s.cePats c raw = none → exec (.chainCopy c) s = .next (s.ceTrap c (chainTrap (s.ceAt c).entry 2))))
    ∧ (ceKind raw = 2 → ceField raw 2 2 < (s.ceAt c).entry → ∀ k v, k = ceField raw 1 1 % 4 →
      v = (if (s.ceAt c).lca.getLsbD k then tget 0 (s.ceAt c).lc k else ceField raw 4 4 - 1) →
      (v = 0 → exec (.chainLoop c) s = .next ((s.modCe c (fun e =>
        { e with lca := e.lca &&& ~~~(1#4 <<< k), lc := tput 0 e.lc k 0 })).ceGoto c ((s.ceAt c).entry + 1)))
      ∧ (v ≠ 0 → exec (.chainLoop c) s = .next ((s.modCe c (fun e =>
        { e with lca := e.lca ||| (1#4 <<< k), lc := tput 0 e.lc k (v - 1) })).ceGoto c (ceField raw 2 2))))
    ∧ (ceKind raw = 3 → (s.ceAt c).unacked = [] →
      (ceField raw 1 1 % 16 = 4 → exec (.chainIf c) s = .next (s.ceGoto c
        (if ceField raw 16 8 ≤ ((s.jobAt c).ctr (ceField raw 1 1 / 16)).done.toNat then (s.ceAt c).entry + 1 else ceField raw 2 2)))
      ∧ (∀ s1 bs, ceField raw 1 1 % 16 < 4 → s.ceRead c (BitVec.ofNat 64 (ceField raw 8 8)).toInt 8 8 = (s1, .ok bs) → exec (.chainIf c) s
        = .next (s1.ceGoto c (if ceTest (ceField raw 1 1 % 16) (leNat bs) (ceField raw 16 8) then (s.ceAt c).entry + 1 else ceField raw 2 2))))
    ∧ (ceKind raw = 4 → (s.ceAt c).unacked = [] →
      ((ceField raw 1 1).testBit 0 = false → ceField raw 8 8 ≤ ((s.jobAt c).ctr (ceField raw 1 1 / 16)).done.toNat → exec (.chainWait c) s
        = .next ((s.ceAcquire c ((s.jobAt c).ctr (ceField raw 1 1 / 16)).acqs).ceGoto c ((s.ceAt c).entry + 1)))
      ∧ (∀ ar, (ceField raw 1 1).testBit 0 = true → checkAddr s c (ceField raw 4 4) 16 16 true = .ok ar →
        tget false (s.core c).fe (ceField raw 4 4 / 16) = true → exec (.chainWait c) s
        = .next ((if (ceField raw 1 1).testBit 1 then s.modCore c (fun k => { k with fe := tput false k.fe (ceField raw 4 4 / 16) false })
            else s).ceGoto c ((s.ceAt c).entry + 1))))
    ∧ (ceKind raw = 5 → ((s.ceAt c).unacked = [] ∨ (s.ceAt c).relDone = true) → ∀ n scope, n = ceField raw 1 1 / 16 →
      scope = scopeOfNum (ceField raw 1 1 / 2 % 8) →
      ((ceField raw 1 1).testBit 0 = false → ((s.jobAt c).ctr n).canTake 1 = true → (s.ceAt c).sigNum = none →
        ∀ m s1, m = ((s.jobAt c).ctr n).iss.toNat + 1 →
        s1 = (s.modJob c (fun j => j.modCtr n (fun t => { t with iss := t.iss + 1 }))).modCe c (fun e => { e with sigNum := some m }) →
        (scope ≠ .dom ∨ ((s1.ceFlushed c scope).ceAt c).unacked = []) → exec (.chainSignal c) s
        = .next (((s1.ceFlushed c scope).completeNum c n m scope false).ceGoto c ((s.ceAt c).entry + 1)))
      ∧ (∀ m, (ceField raw 1 1).testBit 0 = false → (s.ceAt c).sigNum = some m → ((s.ceFlushed c scope).ceAt c).unacked = [] →
        exec (.chainSignal c) s = .next (((s.ceFlushed c scope).completeNum c n m scope false).ceGoto c ((s.ceAt c).entry + 1)))
      ∧ (∀ s1 d, (ceField raw 1 1).testBit 0 = true → s.ceDst c (BitVec.ofNat 64 (ceField raw 8 8)).toInt 8 8 = (s1, .ok d) →
        (scope ≠ .dom ∨ ((s1.ceFlushed c scope).ceAt c).unacked = []) → exec (.chainSignal c) s
        = .next (((s1.ceFlushed c scope).cePut c d (leBytes (ceField raw 16 8) 8)).ceGoto c ((s.ceAt c).entry + 1))))
    ∧ (ceKind raw = 6 → ((s.ceAt c).unacked = [] ∨ (s.ceAt c).relDone = true) → s.ceEntry c ((s.ceAt c).entry + 1) = some 0 →
      ((s.ceFlushed c .dom).ceAt c).unacked = [] →
      ∀ h rest, ((s.ceFlushed c .dom).ceAt c).chains = h :: rest → h.notified = false → exec (.chainNotify c) s
        = .next ((((s.ceFlushed c .dom).completeNum c h.ctr.toNat h.num.toNat .dom false).modCe c (fun e =>
            { e with chains := { h with notified := true } :: rest })).ceGoto c ((s.ceAt c).entry + 1)))
    ∧ (ceKind raw = 0 → (s.ceAt c).unacked = [] → 0 < (s.ceAt c).entry →
      (s.ceEntry c ((s.ceAt c).entry - 1)).map ceKind = some 6 → exec (.chainEnd c) s
        = .next ((s.modCe c (fun e => { e with chains := e.chains.drop 1 })).ceGoto c 0))

/-- R335, R340 to R342, R345 to R347: CTAB sets the tile table, CTILE stamps a tile and sends its lines, CRING installs a channel and delivers its state,
RSLOT delivers the switch's answer and releases a slot. -/
def Obligations.FabricInstructions : Prop :=
  (∀ (g : Guard) (a b : Src) (s s1 : State) (u : Cur) (base n : Word) (x : Ctx), Runs s u g → source2 u a b s = .ok (base, n) s1 →
    n.toNat ≤ 65536 → base.toNat % 64 = 0 → s1.ctx? (s1.jobAt u.core).ctx = some x → x.fires = [] →
    Completes (.ctab g a b) s u .next (s1.setTiles (s1.jobAt u.core).ctx base.toNat n.toNat))
  ∧ (∀ (g : Guard) (d : Dest) (ctr : BitVec 4) (a b : Src) (s s1 : State) (u : Cur) (ctx i : Nat) (t : TileEnt) (stamp : Word)
      (lines : List (List Byte)) (dsts : List RowDst), Runs s u g → tileReady u d ctr a b s = .ok (ctx, i, t, stamp, lines, dsts) s1 →
    (s1.strmAt u.core u.strm).log = [] → (((s1.handed u).jobAt u.core).ctr ctr.toNat).canTake 1 = true →
    Completes (.ctile g d ctr a b) s u .next ((((s1.handed u).numbered u.core ctr).fired u ctx i t ctr
      ((s1.handed u).nextNum u.core ctr) stamp lines dsts (s1.die (coreDie u.core)).clock).delivered u d ((s1.handed u).nextNum u.core ctr)))
  ∧ (∀ (g : Guard) (a b : Src) (s s1 : State) (u : Cur) (ctx ch : Nat) (k : Chan) (peers : List (Nat × Nat)), Runs s u g →
    ringReady u a b s = .ok (ctx, ch, k, peers) s1 → Completes (.cringSet g a b) s u .next (s1.modChan ctx ch (fun y =>
      { y with set := true, rbase := k.rbase, nslot := k.nslot, slog := k.slog, peers := peers, flg := 0 })))
  ∧ (∀ (g : Guard) (d : Dest) (a : Src) (s s1 : State) (u : Cur) (v : Word) (k : Chan), Runs s u g → operand1 u d a s = .ok v s1 → v.toNat ≤ 63 →
    s1.chanOf (s1.jobAt u.core).ctx v.toNat = some k →
    Completes (.cringDone g d a) s u .next (s1.delivered u d k.ctr.done) ∧ Completes (.cringStat g d a) s u .next (s1.delivered u d k.status))
  ∧ (∀ (g : Guard) (d : Dest) (a b : Src) (s s1 : State) (u : Cur) (v n : Word) (k : Chan), Runs s u g → operand2 u d a b s = .ok (v, n) s1 →
    v.toNat ≤ 63 → 2 ≤ n.toNat → n.toNat ≤ 4096 → s1.chanOf (s1.jobAt u.core).ctx v.toNat = some k →
    (∀ m, k.slot = some m → Completes (.rslotReq g d a b) s u .next (s1.delivered u d (BitVec.ofNat 64 (2 ^ 63 + m.toNat))))
    ∧ (∀ w, k.slot = none → (s1.strmAt u.core u.strm).answer = some w → Completes (.rslotReq g d a b) s u .next (s1.delivered u d w))
    ∧ (k.slot = none → (s1.strmAt u.core u.strm).answer = none → k.asking = none → u.second = false →
      exec (.rslotReq g d a b) s = .next ((s.askAt u (.slot v.toNat)).holdAt u .busy)))
  ∧ (∀ (g : Guard) (a : Src) (s s1 : State) (u : Cur) (v : Word), Runs s u g → source1 u a s = .ok v s1 → v.toNat ≤ 63 →
    Completes (.rslotRel g a) s u .next (s1.releaseSlot (s1.jobAt u.core).ctx v.toNat))
  ∧ (∀ (ctx ch c : Nat) (slot : Option (BitVec 16)) (s : State) (k : Chan), s.chanOf ctx ch = some k → k.asking = some (some c, none) →
    Config.freeBit s.free = false → (s.core c).job.isSome = true → (s.jobAt c).ctx = ctx →
    ∃ t y, exec (.rslotAnswer ctx ch slot) s = .next t ∧ t.chanOf ctx ch = some y ∧ y.slot = slot ∧ y.asking = none
      ∧ (slot = none → (t.strmAt c .sc).answer = some 0))

/-- R334, R337, R338, R344: the lines of a payload and their flags, and the steps of a collective that may end: SEND hands the chunk's lines
over and ends once they have left their ports, RECV and REDUCE write theirs, WAITF acquires, NEXT completes the channel's number and its record. -/
def Obligations.FabricSteps : Prop :=
  (∀ (flag : Nat) (bs : List Byte) (l : List Byte), l ∈ flaggedLines flag bs → l.length = 128 ∧ leNat (l.drop 120) = flag % 2 ^ 64)
  ∧ (∀ (flag j : Nat) (bs : List Byte), j < bs.length →
    ((flaggedLines flag bs).getD (j / 120) []).getD (j % 120) 0 = bs.getD j 0 ∧ (flaggedLines flag bs).length = (bs.length + 119) / 120)
  ∧ (∀ (ctx ch : Nat) (s s1 s2 : State) (k : Chan) (c : Coll) (w : Word) (bs : List Byte), s.stepAt ctx ch k c w → stepOp w = 0 →
    (c.sending = true → exec (.stepSend ctx ch) s = .next (s.sendEnds ctx ch))
    ∧ (c.sending = false → s.frontRead ctx (chunkAt k c w).1 (chunkAt k c w).2 = (s1, .ok bs) →
    (∀ p r pas ls, stepPeer w ≠ 255 → k.peers[stepPeer w]? = some (p, r) → ls = flaggedLines (flagWord (stepMatch w) r (c.num.getD 0).toNat) bs →
      s1.lineAddrs ctx (p + stepSlot w * 2 ^ k.slog) ls.length = (s2, .ok pas) → exec (.stepSend ctx ch) s
        = .next (((pas.zip ls).foldl (fun t p => t.sendFabric (s1.frontCore ctx) ctx ch p.1 p.2) s2).stepSent s2 ctx ch))
    ∧ (∀ v, stepPeer w = 255 → k.slot = some v → exec (.stepSend ctx ch) s
        = .next (((flaggedLines (flagWord (stepMatch w) ch (c.num.getD 0).toNat) bs).foldl
            (fun t l => t.toPort (s1.frontCore ctx) ctx ch (2 ^ 64 + v.toNat) l) s1).stepSent s1 ctx ch))))
  ∧ (∀ (ctx ch : Nat) (s s1 s2 : State) (k : Chan) (c : Coll) (w : Word) (pay old : List Byte), s.stepAt ctx ch k c w → k.armed = none →
    (s.slotData ctx (k.rbase + stepSlot w * 2 ^ k.slog) (chunkAt k c w).2 (flagWord (stepMatch w) ch (c.num.getD 0).toNat)).2 = .ok (some pay) →
    (stepOp w = 1 → s.unitWrite ctx (chunkAt k c w).1 pay = (s2, .ok ()) → exec (.stepRecv ctx ch) s
      = .next ((s2.modChan ctx ch (fun k => { k with flg := k.flg ||| 0 })).stepDone ctx ch))
    ∧ (stepOp w = 2 → s.frontRead ctx (chunkAt k c w).1 (chunkAt k c w).2 = (s1, .ok old) →
      (reduceChunk c old pay s1).1.unitWrite ctx (chunkAt k c w).1 (reduceChunk c old pay s1).2.1 = (s2, .ok ()) →
      exec (.stepReduce ctx ch) s
        = .next ((s2.modChan ctx ch (fun k => { k with flg := k.flg ||| (reduceChunk c old pay s1).2.2 })).stepDone ctx ch)))
  ∧ (∀ (ctx ch : Nat) (s : State) (k : Chan) (c : Coll) (w : Word) (x : Ctx), s.stepAt ctx ch k c w → k.armed = none → s.ctx? ctx = some x →
    (stepOp w = 3 → tget 0 x.stamps (stepChunk w) ≠ 0 → (tget 0 x.stamps (stepChunk w)).toNat % 2 ^ 32 = (c.num.getD 0).toNat % 2 ^ 32 →
      (∀ f ∈ x.fires, f.tile ≠ stepChunk w) → exec (.stepWaitf ctx ch) s = .next ((s.frontAcquire ctx).stepDone ctx ch))
    ∧ (stepOp w = 4 → c.lines = [] → ∃ t y, exec (.stepNext ctx ch) s = .next t ∧ t.chanOf ctx ch = some y ∧ y.coll = none
      ∧ y.ctr = k.ctr.complete (c.num.getD 0).toNat 1 .dom false ∧ (t.rec? c.rid).map (·.state) = some (.done 0)))

/-- R334, R339, R341, R342, R344, R389: the fabric's own events: an arriving line is written or refused, a fire whose lines are acknowledged completes its
number, a stagger message arms every channel, the step of a watchdog that is due ends its program with the
fabric trap, one that is not due does nothing, and a failed link ends programs of its partition. (WHERE of a failed link's record is the model's
choice, log entry 83.) -/
def Obligations.FabricEvents : Prop :=
  (∀ (pa : Word) (line : BitVec 1024) (s : State) (l : Nat), l = paLocal pa.toNat → pa.toNat % 128 = 0 →
    (s.modnum.isSome = true → s.portsShut (s.partOfLocal l).1 = false → s.physOk (s.partOfLocal l).1 pa.toNat = true → s.migForward l = [] →
      ∃ t, exec (.fabricLineArrival pa line) s = .next t
        ∧ (List.range 128).map (fun i => t.homeByte (paKey pa.toNat) (l + i)) = leBytes line.toNat 128)
    ∧ ((s.modnum = none ∨ s.portsShut (s.partOfLocal l).1 = true ∨ s.physOk (s.partOfLocal l).1 pa.toNat = false) →
      exec (.fabricLineArrival pa line) s = .next s))
  ∧ (∀ (ctx tile c : Nat) (s : State) (x : Ctx) (f : Fire) (rest : List Fire), s.ctx? ctx = some x →
    takeFirstBy (fun (f : Fire) => f.tile == tile && f.lines.isEmpty) x.fires = some (f, rest) → (s.core c).job.isSome = true →
    (s.jobAt c).ctx = ctx → (s.jobAt c).rid = f.rid → (s.jobAt c).chunk = f.chunk →
    ∃ t y, exec (.tileFireComplete ctx tile) s = .next t ∧ t.ctx? ctx = some y ∧ y.fires = rest
      ∧ (t.jobAt c).ctr f.ctr.toNat = ((s.jobAt c).ctr f.ctr.toNat).complete f.num.toNat 1 .dom false)
  ∧ (∀ (group : BitVec 16) (nslot step : Nat) (s : State), s.modnum.isSome = true → s.pwrgrp.getLsbD 16 = true → s.pwrgrp.setWidth 16 = group → 1 ≤ nslot → nslot ≤ 256 →
    1 ≤ step → step ≤ 1000 → ∃ t, exec (.staggerMessage group nslot step) s = .next t
      ∧ ∀ ctx ch k, ch < 64 → t.chanOf ctx ch = some k → k.armed = some (1600 * (s.ownMod % nslot * step)))
  ∧ (∀ (ctx ch : Nat) (s : State) (k : Chan) (c : Coll) (w : Word), s.stepAt ctx ch k c w →
    (∀ d, c.release = some d → d ≤ s.now → exec (.staggerRelease ctx ch) s = .next (s.postOnce s.now (stepEvent (stepOp w) ctx ch)))
    ∧ (c.waited < 2 ^ 26 → exec (.stepWaitTimeout ctx ch) s = .next s)
    ∧ (2 ^ 26 ≤ c.waited → exec (.stepWaitTimeout ctx ch) s = .next (s.chanTrap ctx ch 3))
    ∧ ((∀ l ∈ c.lines, s.now < l.2 + 2 ^ 26) → (∀ x f, s.ctx? ctx = some x → f ∈ x.fires → f.ch = ch → f.lines = [] ∨ s.now < f.sent + 2 ^ 26) →
      exec (.fabricAckTimeout ctx ch) s = .next s)
    ∧ (∀ l ∈ c.lines, l.2 + 2 ^ 26 ≤ s.now → exec (.fabricAckTimeout ctx ch) s = .next (s.chanTrap ctx ch 1)))
  ∧ (∀ (port : Nat) (s s1 : State), s1 = s.error 7 7 (port / 2) port 0 0 0 → (∀ l ∈ s1.ports, l.port ≠ port) →
    (s1.ctxs = [] → exec (.fabricLinkFailure port) s = .next s1)
    ∧ (∀ n x ch k, s1.ctxs = [(n, some x)] → x.chans = [(ch, k)] → k.slot.isSome = true → k.coll = none →
      (x.part ≠ (s1.partOf (port / 2 * 2)).1 → exec (.fabricLinkFailure port) s = .next s1)
      ∧ (x.part = (s1.partOf (port / 2 * 2)).1 →
        (Config.freeBit s1.free = false → exec (.fabricLinkFailure port) s = .next { s1 with free := s1.free + 1 })
        ∧ (Config.freeBit s1.free = true → exec (.fabricLinkFailure port) s = .next
          (({ s1 with free := s1.free + 1 }.modChan n ch (fun k => { k with slot := none, slotRel := false })).frontTrap n 0
            { cause := 0x15, detail := 1, va := 0 }).1))))

/-- R350 to R356, R351, R367, R461: a kick publishes TAIL; a record read at the head of an open ring is checked, entered with its status
and HEAD advances; the status is the lowest failing check. Reserved bits and a range of 2^48 or more fail with 0x01 (log entry 51). -/
def Obligations.RecordReading : Prop :=
  (∀ (fn q qi : Nat) (tail : BitVec 16) (s : State) (x : Queue),
    s.queues.find? (fun e => (e.2.map (fun x => x.fn == fn && x.q == q)).getD false) = some (qi, some x) → s.queue? qi = some x →
    exec (.kick fn q tail) s = .next ((s.modQueue qi (fun x => { x with tail := BitVec.ofNat 16 (tail.toNat % 2 ^ x.k) })).readNext qi))
  ∧ (∀ (qi : Nat) (s s1 : State) (q : Queue) (bs : List Byte), s.queue? qi = some q →
    (s.queueReady q = false → s.readNext qi = s)
    ∧ (s.queueReady q = true → s.frontRead q.ctx q.slotAddr 1 = (s1, .ok bs) →
      s.readNext qi = s1.postOnce (s1.now + 1) (recordEvent (leNat bs) qi)))
  ∧ (∀ (qi : Nat) (s s1 : State) (q : Queue) (bs : List Byte) (r : Rec), s.queue? qi = some q → s.queueReady q = true →
    s.frontRead q.ctx q.slotAddr 128 = (s1, .ok bs) → r = q.headRec qi bs →
    (r.type = 1 → ∀ n, n = s1.partDies (((s1.ctx? q.ctx).map (·.part)).getD 0) →
      (lowest (r.operatorChecks n) ≠ 0 → exec (.operatorRecord qi) s = .next (s1.enterRec qi r (lowest (r.operatorChecks n))))
      ∧ (∀ s2 ds, lowest (r.operatorChecks n) = 0 → s1.frontRead q.ctx r.tdp (16 * r.ntd) = (s2, .ok ds) →
        (declsOf ds r.ntd = none → exec (.operatorRecord qi) s = .next (s2.enterRec qi r 0x26))
        ∧ (∀ l, declsOf ds r.ntd = some l → r.fsbAddr = 0 → exec (.operatorRecord qi) s
          = .next (s2.enterRec qi { r with decls := l, fsb := 0 } 0))
        ∧ (∀ l s3 fs, declsOf ds r.ntd = some l → r.fsbAddr ≠ 0 → s2.frontRead q.ctx r.fsbAddr 96 = (s3, .ok fs) →
          exec (.operatorRecord qi) s = .next (s3.enterRec qi { r with decls := l, fsb := BitVec.ofNat 768 (leNat fs) } 0))))
    ∧ (r.type = 2 → exec (.collectiveRecord qi) s = .next (s1.enterRec qi r (if r.collectiveBad then 0x01 else 0)))
    ∧ (r.type = 3 → exec (.waitRecord qi) s = .next (s1.enterRec qi r (if r.waitBad then 0x01 else 0)))
    ∧ (r.type = 4 → exec (.signalRecord qi) s = .next (s1.enterRec qi r (if r.signalBad then 0x01 else 0)))
    ∧ (r.type = 5 → exec (.tiletabRecord qi) s = .next (s1.enterRec qi r (if r.tiletabBad then 0x01 else 0)))
    ∧ (r.type = 7 → exec (.rslotRecord qi) s = .next (s1.enterRec qi r (if r.rslotBad then 0x01 else 0)))
    ∧ (r.type = 6 → (r.csimageBad = true → exec (.csimageRecord qi) s = .next (s1.enterRec qi r 0x01))
      ∧ (∀ s2 es (ws : List Word), r.csimageBad = false → s1.frontRead q.ctx (r.field 16 8) (8 * r.field 24 8) = (s2, .ok es) →
        ws = (List.range (r.field 24 8)).map (fun i => BitVec.ofNat 64 (byteField es (8 * i) 8)) →
        exec (.csimageRecord qi) s = .next (if ws.all bindOk then s2.enterRec qi { r with bind := ws } 0 else s2.enterRec qi r 0x01)))
    ∧ ((r.type = 0 ∨ 7 < r.type) → exec (.operatorRecord qi) s = .next (s1.enterRec qi r 0x01)))
  ∧ (∀ (qi : Nat) (s : State) (q : Queue) (r : Rec) (st : Nat), s.queue? qi = some q → (q.head.toNat + 1) % 2 ^ q.k = q.tail.toNat →
    st < 256 → ∀ u, u = (if st = 0 ∧ q.badPred r = true then 0x31 else st) →
    ∃ y, (s.enterRec qi r st).queue? qi = some y ∧ y.head = q.tail ∧ y.bad = q.badNext
      ∧ (s.enterRec qi r st).rec? s.nextRec = some { r with
          state := if u = 0 then r.state else .done (BitVec.ofNat 8 u), after := s.hasPred s.nextRec r }
      ∧ (s.enterRec qi r st).nextRec = s.nextRec + 1)
  ∧ (∀ (q : Queue) (r : Rec), q.badPred r = true ↔ ∃ e ∈ q.bad, e.2.dep r = true)
  ∧ lowest [] = 0
  ∧ (∀ l : List Nat, l ≠ [] → (∀ x ∈ l, x ≠ 0) → lowest l ∈ l ∧ ∀ x ∈ l, lowest l ≤ x)

/-- R152, R355, R357 to R364: what enters the pool, what the newel hands out, the records that are not operators', and the end of a time
slice. Which core takes a chunk is open (log entry 18); a slice runs against a record that could start there (log entry 52). -/
def Obligations.HandOut : Prop :=
  (∀ (rid : Nat) (s : State) (r : Rec), s.rec? rid = some r → r.state = .waiting → s.hasPred rid r = false →
    ∃ t, exec (.recordReady rid) s = .next t ∧ t.rec? rid = some { r with state := .ready, order := s.ids })
  ∧ (∀ (part : Nat) (s : State), (s.pooled part).length ≤ 1024 ∧ ∀ e ∈ s.pooled part, s.mayHand part e.2 = true)
  ∧ (∀ (part : Nat) (s : State), ((s.die (s.newelOf part)).fenced = true ∨ s.pooled part = []) → exec (.chunkHandout part) s = .next s)
  ∧ (∀ (part rid : Nat) (s : State) (r : Rec), (s.die (s.newelOf part)).fenced = false → s.pooled part = [(rid, r)] →
    ∀ atHead : State → State, atHead = (fun t => t.modPool part (fun p => { p with head := some rid, lastQueue := r.queue })) →
    (r.type = 1 → r.total = 0 → ∀ t, t = atHead (s.recDone rid 0) →
      exec (.chunkHandout part) s = .next (t.postOnce (t.now + 1) (.chunkHandout part)))
    ∧ (∀ cs s1 w, r.type = 1 → r.next < r.total → r.windows = [] → r.returned = [] → r.lost = false →
      cs = (r.coreSet (s.recPart r)).filter (s.canTake rid r) → cs ≠ [] → { s with free := s.free + 1 }.readArgs r = (s1, .ok w) →
      ∃ c t, c ∈ cs ∧ t = atHead ((s1.modRec rid (fun r => { r with next := r.next + 1 })).placeAt rid r c
          { rid := rid, chunk := r.next, args := w, yielded := none, core := none })
        ∧ exec (.chunkHandout part) s = .next (t.postOnce (t.now + 1) (.chunkHandout part)))
    ∧ (∀ t u, r.type ≠ 1 → s.startOther rid r = some t → u = atHead t →
      exec (.chunkHandout part) s = .next (u.postOnce (u.now + 1) (.chunkHandout part))))
  ∧ (∀ (part rid rid' : Nat) (s : State) (r r' : Rec), (s.die (s.newelOf part)).fenced = false → s.pooled part = [(rid, r), (rid', r')] →
    s.handFrom rid r = none → ∀ t, s.handFrom rid' r' = some t → rid ≠ rid' →
      exec (.chunkHandout part) s = .next (t.postOnce (t.now + 1) (.chunkHandout part)))
  ∧ (∀ (rid c : Nat) (r : Rec) (l : Launch) (s : State) (r0 : Rec), s.rec? rid = some r0 → r.clu = 0 → ∃ k r1, (s.placeAt rid r c l).core c = k
    ∧ k.shadow = some l ∧ k.job = (s.core c).job ∧ (s.placeAt rid r c l).rec? rid = some r1 ∧ r1.state = .running ∧ (l.chunk, c) ∈ r1.running)
  ∧ (∀ (rid : Nat) (r : Rec) (s s1 : State) (x : Ctx), r.state = .ready → s.ctx? (s.recCtx r) = some x →
    (r.type = 4 → s.flushHomes.frontWrite (s.recCtx r) (r.field 8 8) (leBytes (r.field 16 8) 8) = (s1, .ok ()) →
      (s.flushHomes.recCtx r = s.recCtx r) → s.startOther rid r = some (s1.recDone rid 0))
    ∧ (r.type = 5 → x.fires = [] → s.startOther rid r = some ((s.setTiles (s.recCtx r) (r.field 8 8) (r.field 16 8)).recDone rid 0))
    ∧ (r.type = 5 → x.fires ≠ [] → s.startOther rid r = none)
    ∧ (r.type = 7 → (r.field 8 1).testBit 7 = true → s.startOther rid r = some ((s.releaseSlot (s.recCtx r) (r.field 8 1 % 64)).recDone rid 0))
    ∧ (∀ v, r.type = 7 → (r.field 8 1).testBit 7 = false → (x.chan (r.field 8 1 % 64)).slot = some v →
      s.startOther rid r = some (s.recDone rid (slotWord v)))
    ∧ (r.type = 6 → ∃ t y, s.startOther rid r = some t ∧ t.ctx? (s.recCtx r) = some y ∧ y.image = some (r.field 8 8)
      ∧ y.slots = BitVec.ofNat 8 (r.field 32 1))
    ∧ (r.type = 3 → ∃ t, s.startOther rid r = some t ∧ t.posted (.waitRecordPoll rid) = true))
  ∧ (∀ (rid : Nat) (s s1 : State) (r : Rec) (bs : List Byte), s.rec? rid = some r → r.state = .running → r.type = 3 → r.susp = none →
    s.frontRead (s.recCtx r) (r.field 8 8) 8 = (s1, .ok bs) → exec (.waitRecordPoll rid) s
      = .next (if (if (r.field 32 1).testBit 0 then leNat bs = r.field 16 8 else r.field 16 8 ≤ leNat bs) then s1.recDone rid 0
          else s1.postOnce (s1.now + usCycles 1) (.waitRecordPoll rid)))
  ∧ (∀ (c rid : Nat) (s : State) (j : Job) (r : Rec), (s.core c).job = some j →
    ∀ w, w = s.waiters (((s.ctx? j.ctx).map (·.part)).getD 0) →
    (s.now < s.sliceEnd c → exec (.timeSliceExpiry c) s = .next s)
    ∧ (s.sliceEnd c ≤ s.now → (s.core c).stopping = none → (rid, r) ∈ w → c ∈ s.heldBy rid r →
      exec (.timeSliceExpiry c) s = .next (s.preemptCore c))
    ∧ ((∀ e ∈ w, c ∉ s.heldBy e.1 e.2) → exec (.timeSliceExpiry c) s = .next s))
  ∧ (∀ (c : Nat) (s : State) (j : Job), (s.core c).job = some j → (s.core c).stopping = none → (s.die (coreDie c)).gangs = [] →
    ((s.preemptCore c).core c).stopping = some .preempt)

/-- R31, R97, R137, R141, R142, R359, R363, R367, R376, R378: a chunk starts as a job with its parameters and clear registers, a saved job is
restored from an authentic image, and a job and a record complete. -/
def Obligations.JobsAndCompletion : Prop :=
  (∀ (c : Nat) (s : State) (l : Launch) (r : Rec), s.startable c = some (l, r) → s.startGroup c l.rid = [c] → s.restores c = false →
    ((s.core c).startAt = none → exec (.jobStart c) s = .next ((s.prepGroup r l.rid [c]).postOnce (max ((s.prepGroup r l.rid [c]).now + 1)
      ((((s.prepGroup r l.rid [c]).core c).startAt).getD 0)) (.jobStart c)))
    ∧ (∀ t, (s.core c).startAt = some t → t ≤ s.now → s.coreQuiet c = true → exec (.jobStart c) s = .next (s.runJob c (s.newJob c r l))))
  ∧ (∀ (c : Nat) (s : State) (r : Rec) (l : Launch), l.yielded = none →
    (s.newJob c r l).first = BitVec.ofNat 64 (r.chunkLen * l.chunk)
    ∧ (s.newJob c r l).count = BitVec.ofNat 64 (min r.chunkLen (r.range - r.chunkLen * l.chunk))
    ∧ (s.newJob c r l).q = [] ∧ (s.newJob c r l).v = [] ∧ (s.newJob c r l).g = []
    ∧ (∀ i, i < 4 → (tget 0 (s.newJob c r l).gwin i).getLsbD 63 = ((r.window i).2 != 0))
    ∧ (∀ i, i < 8 → tget 0 (s.newJob c r l).fd i = fdBits ((r.fsb.extractLsb' (32 * (16 + i)) 32).setWidth 64))
    ∧ (∀ i, i < 16 → tget 0 (s.newJob c r l).ft i = ftBits (r.fsb.extractLsb' (32 * i) 32))
    ∧ ∀ x, ((s.newJob c r l).strm x).pc = BitVec.ofNat 56 (r.entryOf x) ∧ ((s.newJob c r l).strm x).a = l.args
      ∧ tget 0 ((s.newJob c r l).strm x).s 0 = (s.newJob c r l).first ∧ tget 0 ((s.newJob c r l).strm x).s 1 = (s.newJob c r l).count
      ∧ (∀ n, 2 ≤ n → tget 0 ((s.newJob c r l).strm x).s n = 0) ∧ ((s.newJob c r l).strm x).asr = 0 ∧ ((s.newJob c r l).strm x).p = 1)
  ∧ (∀ (c : Nat) (s : State) (j : Job), ∃ k, (s.runJob c j).core c = k ∧ k.job = some j ∧ k.shadow = none ∧ k.startAt = none ∧ k.lastCtx = some j.ctx)
  ∧ (∀ (c : Nat) (s s1 : State) (l : Launch) (r : Rec) (v : Saved) (x : Ctx) (t : Nat), s.startable c = some (l, r) → s.startGroup c l.rid = [c] →
    s.restores c = true → s.ctx? (s.recCtx r) = some x → x.imgDue = false → (s.core c).startAt = some t → t ≤ s.now → s.coreQuiet c = true →
    (s.checkImage (s.recCtx r) = (s1, true) → (s1.core c).shadow = some l → s1.savedJob (s.recCtx r) l.rid l.chunk c = some v →
      exec (.contextRestore c) s = .next (s1.loadJob c v))
    ∧ (s.checkImage (s.recCtx r) = (s1, false) → exec (.contextRestore c) s = .next s1))
  ∧ (∀ (ctx : Nat) (s s1 : State) (x : Ctx) (bs : List Byte), s.ctx? ctx = some x → s.frontRead ctx x.savea (x.imgBytes ctx).length = (s1, .ok bs) →
    s.checkImage ctx = if bs = x.imgBytes ctx ∧ x.imgKey = tget 0 s1.tenantVer x.kslot then (s1, true) else (s1.imageRefused ctx, false))
  ∧ (∀ (c : Nat) (s : State) (j : Job), (s.core c).job = some j → (s.jobDone c = true ↔
      (∀ x, (j.strm x).exited = true ∧ (j.strm x).log = [] ∧ (j.strm x).returned = [] ∧ (j.strm x).yielded = none ∧ (j.strm x).susp = none)
      ∧ j.micro = none ∧ j.redl = [] ∧ j.adv = [] ∧ (∀ h ∈ j.ce.chains, h.notified = true) ∧ j.ce.trapped = false
      ∧ (s.core c).arr = [] ∧ (s.core c).frags = [] ∧ (s.core c).wcsld = none ∧ (s.core c).obs.buf = []
      ∧ ∀ y, s.ctx? j.ctx = some y → ∀ f ∈ y.fires, ¬ (f.rid = j.rid ∧ f.chunk = j.chunk))
    ∧ (s.jobDone c = false → exec (.jobCompletion c) s = .next s)
    ∧ (s.jobDone c = true → ∀ t, t = (((((s.release c 5 .mod).leaveGang c j.rid).clearJob c).modRec j.rid (fun r =>
        { r with running := r.running.filter (fun e => e.1 != j.chunk) })).settleRec j.rid).settleYield j.ctx →
      exec (.jobCompletion c) s = .next ((t.finishStop j.ctx).postOnce ((t.finishStop j.ctx).now + 1)
        (.chunkHandout ((((t.finishStop j.ctx).ctx? j.ctx).map (·.part)).getD 0)))))
  ∧ (∀ (c : Nat) (s : State), ((s.clearJob c).core c).job = none ∧ ((s.clearJob c).core c).arr = []
    ∧ ((s.bay (coreBay c)).holder = some (c % 4) → ((s.clearJob c).bay (coreBay c)).holder = none))
  ∧ (∀ (rid : Nat) (s : State) (r : Rec) (st : BitVec 8), s.rec? rid = some r → r.state = .done st → r.susp = none →
    (((st ≠ 0 ∧ st ≠ 0x30 ∧ st ≠ 0x32) ∨ ∀ o ∈ s.remote, o.ctx ≠ s.recCtx r) → exec (.recordCompletion rid) s
      = .next (s.finishRec rid st.toNat (if r.type = 1 then r.reissued else r.info.toNat)))
    ∧ ((st = 0 ∨ st = 0x30 ∨ st = 0x32) → (∃ o ∈ s.remote, o.ctx = s.recCtx r) → exec (.recordCompletion rid) s
      = .next (s.postOnce (s.now + 1) (.recordCompletion rid))))
  ∧ (∀ (rid st info : Nat) (s s1 : State) (r : Rec) (q : Queue), s.rec? rid = some r → s.queue? r.queue = some q →
    s.flushHomes.frontWrite q.ctx (q.cmpr + 16 * (q.compl % 2 ^ q.k)) (leBytes (r.field 4 4) 4 ++ leBytes r.idx 2 ++ leBytes st 1
      ++ leBytes (1 - q.compl / 2 ^ q.k % 2) 1 ++ leBytes info 8) = (s1, .ok ()) →
    s.putCompletion rid st info = (let t := s1.modQueue r.queue (fun q => { q with compl := q.compl + 1 })
      if r.irq then t.raise q.fn q.vec else t, .ok ()))

/-- R20, R364 to R366, R371, R372, R375 to R384: a stopped core saves its job, a fence discards a die's, an election names the lowest
candidate, a deadline falls back to pre-emption, and a fault reply reaches the unit that waits for it. Which boundary number a report
names is open (log entry 58); that it names the lower die, and which further dies are cut off, is log entry 84. -/
def Obligations.ContextEvents : Prop :=
  (∀ (c : Nat) (s : State) (j : Job), (s.core c).job = some j →
    (s.jobDone c = true → exec (.preemptionStopComplete c) s = .next (s.completeJob c))
    ∧ (s.jobDone c = false → s.stopDone c = false → exec (.preemptionStopComplete c) s = .next s)
    ∧ (s.jobDone c = false → s.stopDone c = true → ∀ t, t = (if (s.saveJob c j).ctxStopping j.ctx then s.saveJob c j
        else (s.saveJob c j).writeImage j.ctx) → exec (.preemptionStopComplete c) s
        = .next (((t.finishStop j.ctx).settleYield j.ctx).postOnce (t.now + 1)
          (.chunkHandout (((s.ctx? j.ctx).map (·.part)).getD 0)))))
  ∧ (∀ (x : Ctx) (n : Nat), (x.imgHead n).length = 64 ∧ leNat ((x.imgHead n).take 4) = 0x4D495853
    ∧ leNat (((x.imgHead n).drop 8).take 8) = n % 2 ^ 64 ∧ leNat (((x.imgHead n).drop 20).take 12) = x.saveCtr % 2 ^ 96)
  ∧ (∀ (d : Nat) (s : State), (64 ≤ d ∨ (s.die d).fenced = true) → exec (.dieFence d) s = .next s)
  ∧ (∀ (d : Nat) (s : State), d < 64 → (s.die d).fenced = false → s.chunksOn d = [] → (∀ i, i < 16 → (s.core (16 * d + i)).job = none) →
    s.newelOf (s.partOf d).1 ≠ d → ∃ t, exec (.dieFence d) s = .next t ∧ (t.die d).fenced = true ∧ (t.die d).gangs = []
      ∧ (∀ g ∈ t.galleries, g.die ≠ d) ∧ ∀ i, i < 16 → (t.core (16 * d + i)).shadow = none ∧ (t.core (16 * d + i)).l1 = [])
  ∧ (∀ (rid chunk : Nat) (s : State) (r : Rec), s.rec? rid = some r → ∃ y, (s.loseChunk rid chunk).rec? rid = some y
    ∧ (∀ e ∈ y.running, e.1 ≠ chunk)
    ∧ (r.reissue = true → y.reissued = r.reissued + 1 ∧ y.lost = r.lost ∧ (Launch.mk rid chunk [] none none) ∈ y.returned)
    ∧ (r.reissue = false → y.lost = true ∧ y.reissued = r.reissued))
  ∧ (∀ (c : Nat) (s : State) (j : Job), (s.core c).job = some j → s.stopDone c = true →
    (∀ x, (j.strm x).still = true ∧ (j.strm x).returned = [] ∧ ((j.strm x).susp = none → (j.strm x).trapped = false →
      ∀ e ∈ (j.strm x).log, e.op.own = false))
    ∧ j.chainOpen = false ∧ j.microBusy = false ∧ j.redl = [] ∧ j.ce.flight = none ∧ j.ce.unacked = [] ∧ (s.core c).arr = []
    ∧ (s.core c).wcsld = none ∧ (s.core c).obs.buf = [] ∧ ∀ g ∈ s.galleries, g.src ≠ c ∧ c ∉ g.members)
  ∧ (∀ (a b : Nat) (s : State), (adjacent a b = true → s.failed.contains (min a b, max a b) = false → ∃ (w : Nat) (cut : List Nat),
      exec (.boundaryFailure a b) s = .next ((min a b :: max a b :: cut).foldl State.fenceDie
        (({ s with free := s.free + 1, failed := s.failed ++ [(min a b, max a b)] } : State).error 7 6 (min a b) (w % 112) 0 0 0))
      ∧ ∀ d, d ∈ cut ↔ d < 64 ∧ d ≠ min a b ∧ d ≠ max a b
        ∧ ∃ i, i < (s.partOf d).2 ∧ routeCrosses d ((s.partOf d).1 + i) (min a b) (max a b) = true)
    ∧ (adjacent a b = true → s.failed.contains (min a b, max a b) = true → exec (.boundaryFailure a b) s = .next s)
    ∧ (adjacent a b = false → exec (.boundaryFailure a b) s = .next s))
  ∧ (∀ (part t w c : Nat) (cs : List Nat) (s : State), (s.pool part).decide_ = some t → (s.pool part).cands = c :: cs →
    (s.now < t → exec (.newelElection part) s = .next s)
    ∧ (t ≤ s.now → w = cs.foldl min c → (s.die w).fenced = false → ∃ y, exec (.newelElection part) s = .next y ∧ (y.pool part).newel = some w
      ∧ (y.pool part).cands = [] ∧ (y.pool part).decide_ = none ∧ w ∈ c :: cs ∧ (∀ d ∈ c :: cs, w ≤ d) ∧ y.posted (.chunkHandout part) = true))
  ∧ (∀ (ctx t : Nat) (s : State) (x : Ctx), s.ctx? ctx = some x → x.yieldBy = some t →
    (t ≤ s.now → s.yieldMet ctx = false → exec (.yieldDeadline ctx) s = .next (s.askStop ctx .preempt))
    ∧ ((s.now < t ∨ s.yieldMet ctx = true) → exec (.yieldDeadline ctx) s = .next s))
  ∧ (∀ (ctx c : Nat) (s : State) (j : Job), s.cores = [(c, s.core c)] → (s.core c).job = some j → j.ctx = ctx → (s.core c).stopping = none →
    ((s.askStop ctx .preempt).core c).stopping = some .preempt ∧ ((s.askStop ctx .preempt).core c).stopFrom = s.now + 1)
  ∧ (∀ (fn ctx idx : Nat) (s : State) (refuse : Bool), ctx = (s.fn fn).frctx.toNat % 2 ^ 40 → idx = (s.fn fn).frply.toNat % 2 ^ 32 →
    refuse = (s.fn fn).frply.getLsbD 32 →
    ((s.ctx? ctx = none ∨ ∀ x, s.ctx? ctx = some x → x.fn ≠ fn) → exec (.faultReply fn) s = .next (s.modFn fn (fun f =>
      { f with frply := (f.frply &&& 0x1FFFFFFFF#64) ||| (1#64 <<< 62) })))
    ∧ (∀ x l v t, s.ctx? ctx = some x → x.fn = fn → (s.susps ctx).find? (fun e => e.2.idx == idx) = some (l, v) →
      t = s.modFn fn (fun f => { f with frply := f.frply &&& 0x1FFFFFFFF#64 }) →
      (x.status = .live → exec (.faultReply fn) s = .next (t.replyTo ctx l v refuse))
      ∧ (x.status = .held → exec (.faultReply fn) s = .next (t.setSusp ctx l (some { v with reply := some refuse })))
      ∧ (x.status = .stopped → exec (.faultReply fn) s = .next t)))
  ∧ (∀ (ctx c : Nat) (x : Strm) (v w : Susp) (s : State), ((s.jobAt c).strm x).susp = some w → (s.core c).job.isSome = true →
    s.replyTo ctx (.strm c x) v false = (s.modStrm c x (fun y => { y with susp := none })).kickLog c x)
  ∧ (∀ (c : Nat) (x : Strm) (s : State), (s.strmAt c x).susp = none → (∃ e ∈ (s.strmAt c x).log, e.op.own = true) →
    (s.kickLog c x).posted (.memoryAccessPerformed c x) = true)

/-- R385, R386, R393, R399 to R405, R412: shoot-downs, migrations, hot rows, poison, correctable errors and CXL.mem accesses. Which lines a
shoot-down writes back beyond the rule is log entry 86; the order in which MIGCTL's conditions are checked is log entry 61. -/
def Obligations.MainMemory : Prop :=
  (∀ (fn kind sz asid : Nat) (s : State) (own : List Nat), kind = (s.fn fn).tsdctl.toNat % 4 → sz = (s.fn fn).tsdctl.toNat / 16 % 16 →
    asid = (s.fn fn).tsdctl.toNat / 2 ^ 32 % 4096 → own = (s.ctxsOf fn).map (fun e => e.2.asid) →
    ((s.fn fn).tsd.isSome = true → exec (.tsdGo fn) s = .next s)
    ∧ ((s.fn fn).tsd = none → (kind = 3 ∨ 12 ≤ sz ∨ (kind < 2 ∧ asid ∉ own)) → exec (.tsdGo fn) s = .next (s.modFn fn (fun f =>
        { f with tsdctl := (f.tsdctl &&& ~~~(1#64 <<< 62)) ||| (1#64 <<< 62) })))
    ∧ ((s.fn fn).tsd = none → kind ≠ 3 → sz < 12 → (kind = 2 ∨ asid ∈ own) → ∃ t, exec (.tsdGo fn) s = .next t
      ∧ (t.fn fn).tsd = some (if kind = 2 then own else [asid]) ∧ (t.fn fn).tsdctl.getLsbD 62 = false ∧ t.posted (.shootdownComplete fn) = true))
  ∧ (∀ (asids : List Nat) (page : Option (Nat × Nat)) (s : State), (∀ d ∈ (s.dropTlbs asids page).dies, ∀ e ∈ d.2.tlb, e.hit asids page = false)
    ∧ ∀ c, ∀ e ∈ ((s.dropTlbs asids page).core c).tlb, e.hit asids page = false)
  ∧ (∀ (fn : Nat) (s : State), exec (.shootdownComplete fn) s = .next ((s.tsdEnd fn).destroyEnd fn)
    ∧ ((s.fn fn).tsd = none → s.tsdEnd fn = s)
    ∧ (∀ asids, (s.fn fn).tsd = some asids → s.shotBusy asids = true → s.tsdEnd fn = s.postOnce (s.now + 1) (.shootdownComplete fn))
    ∧ (∀ asids, (s.fn fn).tsd = some asids → s.shotBusy asids = false →
      ((s.tsdEnd fn).fn fn).tsd = none ∧ ((s.tsdEnd fn).fn fn).ending = (s.fn fn).ending)
    ∧ ((s.fn fn).ending = none → s.destroyEnd fn = s)
    ∧ (∀ ctx asid, (s.fn fn).ending = some (ctx, asid) → ((∃ o ∈ s.remote, o.ctx = ctx) ∨ s.shotBusy [asid] = true) →
      s.destroyEnd fn = s.postOnce (s.now + 1) (.shootdownComplete fn))
    ∧ (∀ ctx asid, (s.fn fn).ending = some (ctx, asid) → (∀ o ∈ s.remote, o.ctx ≠ ctx) → s.shotBusy [asid] = false →
      s.destroyEnd fn = s.modFn fn (fun f => { f with ending := none, mres := 0 })))
  ∧ (∀ (fn p n : Nat) (s : State) (f : Fn), f = s.fn fn → n = 2 ^ szLog (f.migctl.toNat % 16) →
    (f.mig.isSome = true → exec (.migStart fn) s = .next (s.migRes fn 4))
    ∧ (f.mig = none → 9 < f.migctl.toNat % 16 → exec (.migStart fn) s = .next (s.migRes fn 2))
    ∧ (f.mig = none → f.migctl.toNat % 16 ≤ 9 → s.migPart fn f.migsrc.toNat = some p → s.fns.filterMap (fun e => e.2.mig) = [] →
      paMod f.migsrc.toNat = s.ownMod → paMod f.migdst.toNat = s.ownMod → f.migsrc.toNat % n = 0 → f.migdst.toNat % n = 0 →
      s.physOk p f.migsrc.toNat = true → s.physOk p (f.migsrc.toNat + n - 1) = true → s.physOk p f.migdst.toNat = true →
      s.physOk p (f.migdst.toNat + n - 1) = true → rangesMeet (paLocal f.migsrc.toNat) n (paLocal f.migdst.toNat) n = false →
      ∃ t m, exec (.migStart fn) s = .next t ∧ (t.fn fn).mig = some m ∧ m.src = f.migsrc.toNat ∧ m.dst = f.migdst.toNat ∧ m.size = n
        ∧ m.copied = 0 ∧ (t.fn fn).migctl = f.migctl &&& 0xF#64 ∧ t.posted (.migrationCopy fn) = true))
  ∧ (∀ (fn lo ln : Nat) (s : State) (m : Mig), (s.fn fn).mig = some m → 128 * m.copied < m.size → lo = paLocal m.src + 128 * m.copied →
    ln = paLocal m.dst + 128 * m.copied → lo % 128 = 0 → ln % 128 = 0 → ∃ t, exec (.migrationCopy fn) s = .next t
      ∧ (t.fn fn).mig = some { m with copied := m.copied + 1 } ∧ tget 0 t.poison (ln / 128) = tget 0 s.poison (lo / 128)
      ∧ (tget 0 s.poison (lo / 128) = 0 → ∀ i, i < 128 → t.homeByte m.dstKey (ln + i) = s.homeByte m.srcKey (lo + i)))
  ∧ (∀ (fn : Nat) (s : State), ((s.fn fn).mig = none → exec (.migEnd fn) s = .next (s.migRes fn 4) ∧ exec (.migAbort fn) s = .next (s.migRes fn 4))
    ∧ (∀ m, (s.fn fn).mig = some m → 128 * m.copied < m.size → exec (.migEnd fn) s = .next (s.migRes fn 4)
      ∧ exec (.migAbort fn) s = .next ((s.migRes fn 0).modFn fn (fun f => { f with mig := none })))
    ∧ (∀ m, (s.fn fn).mig = some m → m.size ≤ 128 * m.copied → exec (.migAbort fn) s = .next (s.migRes fn 4)
      ∧ (m.shot = false → exec (.migEnd fn) s = .next (s.migRes fn 3))
      ∧ (m.shot = true → exec (.migEnd fn) s = .next ((s.migRes fn 0).modFn fn (fun f => { f with mig := none })))))
  ∧ (∀ (base bank row : Nat) (key : BitVec 4) (s : State) (acts : List (Nat × Nat × Nat)), base < 32 →
    acts = State.activate.bump (s.base base).acts bank row →
    ((s.base base).throttle? bank key.toNat = none → ∃ t n, exec (.rowActivation base bank row key) s = .next t ∧ (t.base base).acts = acts
      ∧ acts.find? (fun a => a.1 == bank && a.2.1 == row) = some (bank, row, n)
      ∧ n = (((s.base base).acts.find? (fun a => a.1 == bank && a.2.1 == row)).map (·.2.2)).getD 0 + 1
      ∧ (t.base base).throttled = (if n = s.hrthr then (s.base base).throttled ++ [(bank, key.toNat, s.now)] else (s.base base).throttled))
    ∧ (∀ a, (s.base base).throttle? bank key.toNat = some a →
      (s.now < a + usCycles 2 → exec (.rowActivation base bank row key) s = .next (s.countMod 0x0203 (fun q => if q % 16 = key.toNat then 1 else 0)))
      ∧ (a + usCycles 2 ≤ s.now → ∃ t, exec (.rowActivation base bank row key) s = .next t ∧ (t.base base).acts = acts
        ∧ (t.base base).throttle? bank key.toNat = some s.now)))
  ∧ (∀ (base : Nat) (s : State), ∃ t, exec (.refreshWindowEnd base) s = .next t ∧ (t.base base).acts = [] ∧ (t.base base).throttled = [])
  ∧ (∀ (e : ErrAt) (loc u : Nat) (s : State), (e = .hbm loc ∧ u = 0) ∨ (e = .cache loc ∧ u = 1) →
    (2 ^ 41 ≤ loc → exec (.hbmUncorrectable e) s = .next s)
    ∧ (loc < 2 ^ 41 → ∃ t, exec (.hbmUncorrectable e) s = .next t ∧ t.hbm = s.hbm
      ∧ ∀ i, tget 0 t.poison i = if i = loc / 128 then u + 1 else tget 0 s.poison i))
  ∧ (∀ (c off : Nat) (s : State), ((c < 1024 ∧ off < (s.core c).spadSize) → ∃ t, exec (.hbmUncorrectable (.spad c off)) s = .next t
      ∧ ∀ i, tget false (t.core c).spadBad i = (decide (i = off / 16) || tget false (s.core c).spadBad i))
    ∧ (¬ (c < 1024 ∧ off < (s.core c).spadSize) → exec (.hbmUncorrectable (.spad c off)) s = .next s))
  ∧ (∀ (b off : Nat) (s : State), ((b < 256 ∧ off < 32 * cluStep) → ∃ t, exec (.hbmUncorrectable (.cluster b off)) s = .next t
      ∧ ∀ i, tget false (t.bay b).memBad i = (decide (i = off / 16) || tget false (s.bay b).memBad i))
    ∧ (¬ (b < 256 ∧ off < 32 * cluStep) → exec (.hbmUncorrectable (.cluster b off)) s = .next s))
  ∧ (∀ (core : Nat) (detail : Word) (s : State), ((s.core core).job = none → exec (.archStateError core detail) s = .next s)
    ∧ (∀ j, (s.core core).job = some j → ∃ u w, exec (.archStateError core detail) s
      = .next ((({ s with free := s.free + 2 } : State).error 2 (u % 12) (coreDie core) w 0 j.ctx 0).teardown j.ctx 0 detail core)))
  ∧ (∀ (unit : BitVec 8) (die : BitVec 16) (loc : BitVec 32) (addr : Word) (s : State) (b key n : Nat) (ts : List Nat) (rep took : Bool),
    b = trackBase unit.toNat die.toNat → key = loc.toNat + die.toNat * 2 ^ 32 →
    (s.base b).errs.find? (fun e => e.1 == unit.toNat && e.2.1 == key) = some (unit.toNat, key, ts, rep, took) →
    n = (ts.filter (fun t => decide (s.now < t + s.ecwin * 1600000000))).length + 1 →
    (n ≤ s.ecthr → ∃ t : State, exec (.correctableError unit die loc addr) s = .next (t.error 3 unit.toNat die.toNat loc.toNat addr.toNat 0 n)
      ∧ (∀ o, o ≠ b → t.base o = s.base o) ∧ (t.base b).errs.head? = some (unit.toNat, key, ts.filter (fun t =>
        decide (s.now < t + s.ecwin * 1600000000)) ++ [s.now], false, took))
    ∧ (n = s.ecthr + 1 → ∃ (t : State), exec (.correctableError unit die loc addr) s
      = .next (t.error 6 unit.toNat die.toNat loc.toNat addr.toNat 0 (n % 2 ^ 31 + took.toNat * 2 ^ 31))
      ∧ (t.base b).errs.head? = some (unit.toNat, key, ts.filter (fun t => decide (s.now < t + s.ecwin * 1600000000)) ++ [s.now], true, false)))
  ∧ (∀ (unit : BitVec 8) (die : BitVec 16) (loc : BitVec 32) (addr : Word) (s : State) (b key : Nat),
    b = trackBase unit.toNat die.toNat → key = loc.toNat + die.toNat * 2 ^ 32 → 1 ≤ s.ecthr →
    (∀ e ∈ (s.base b).errs, ¬ (e.1 = unit.toNat ∧ e.2.1 = key)) → ∃ t : State,
      exec (.correctableError unit die loc addr) s = .next (t.error 3 unit.toNat die.toNat loc.toNat addr.toNat 0 1)
      ∧ (t.base b).errs = ((unit.toNat, key, [s.now], false, decide (4096 ≤ (s.base b).errs.length)) :: (s.base b).errs).take 4096)
  ∧ (∀ (fn off n : Nat) (s : State) (bs : List Byte), 0 < n → bs.length = n → off % 128 + n ≤ 128 →
    (s.openWindow fn off = none → exec (.cxlMemRead fn off n) s = .next { s with cxlOut := s.cxlOut ++ [List.replicate n none] }
      ∧ exec (.cxlMemWrite fn off bs) s = .next s)
    ∧ (∀ key l, s.openWindow fn off = some (key, l) → (∃ t, exec (.cxlMemRead fn off n) s = .next t
        ∧ t.cxlOut = s.cxlOut ++ [(List.range n).map (fun i => if tget 0 s.poison (l / 128) ≠ 0 then none else some (s.homeByte key (l + i)))])
      ∧ exec (.cxlMemWrite fn off bs) s = .next (s.homeWriteLine key l (fullMask bs) 0 0)))

/-- R234, R420 to R423, R432, R434, R437, R438: the governor follows the demand within RISE and FALL, leases alternate exclusive and shared
slices, debug stops hold a context, trace records reach the ring, and a failed noise source delivers nothing. The demand, the filler
capacity and the cycle of a trace write are open (log entries 16 and 66). -/
def Obligations.Observation : Prop :=
  (∀ s : State, ∃ (t : State) (d cap : Nat), exec .governorInterval s = .next t ∧ t.power ≤ s.power + s.rise
    ∧ (t.throttle = true ↔ s.power + s.rise < d) ∧ (s.power + s.rise < d → t.power = s.power + s.rise)
    ∧ (s.power - s.fall ≤ d → d ≤ s.power + s.rise → t.power = d) ∧ (d < s.power - s.fall → t.power = d + min (s.power - s.fall - d) cap)
    ∧ t.pwrstat.toNat / 2 ^ 32 % 2 ^ 14 = t.power / 1000 % 2 ^ 14 ∧ t.pwrstat.getLsbD 63 = t.throttle)
  ∧ (∀ (fn : Nat) (s : State), ((fn = 0 ∨ (s.fn fn).part = none ∨ (s.fn fn).slice = 0 ∨ 1000 < (s.fn fn).slice) → exec (.prfReq fn) s
      = .next (s.modFn fn (fun f => { f with prfctl := (f.prfctl &&& ~~~(1#64 <<< 62)) ||| (1#64 <<< 62) })))
    ∧ (∀ p, fn ≠ 0 → (s.fn fn).part = some p → 1 ≤ (s.fn fn).slice → (s.fn fn).slice ≤ 1000 → (s.pool p).prf = none →
      ∃ t, exec (.prfReq fn) s = .next t ∧ (t.fn fn).prfctl.getLsbD 62 = false
        ∧ (t.pool p).prf = some (fn, (s.fn fn).slice, true, s.now + usCycles (1000 * (s.fn fn).slice))
        ∧ ∀ d ∈ s.diesOf p, (t.die d).lease = {}))
  ∧ (∀ (fn part ms till : Nat) (ex : Bool) (s : State), s.pools = [(part, s.pool part)] → (s.pool part).prf = some (fn, ms, ex, till) →
    exec (.prfRel fn) s = .next (s.endLease part) ∧ exec (.functionReset fn) s = .next (s.endLease part))
  ∧ (∀ (part : Nat) (s : State), ((s.endLease part).pool part).prf = none ∧ ∀ d ∈ s.diesOf part, ((s.endLease part).die d).lease = {})
  ∧ (∀ (part h ms till : Nat) (ex : Bool) (s : State), (s.pool part).prf = some (h, ms, ex, till) →
    (s.now < till → exec (.profilingSliceEnd part) s = .next s)
    ∧ (till ≤ s.now → ∃ t, exec (.profilingSliceEnd part) s = .next t ∧ (t.pool part).prf = some (h, ms, !ex, s.now + usCycles (1000 * ms))
      ∧ t.posted (.chunkHandout part) = true))
  ∧ (∀ (fn ctx : Nat) (s : State) (x : Ctx), s.dbgCtx fn = some ctx → s.ctx? ctx = some x →
    (x.status = .live → s.ctxRuns ctx = true → exec (.dbgStop fn) s = .next ((s.modCtx ctx (fun x => { x with dbgHeld := true })).haltCtx ctx true))
    ∧ (x.status = .live → s.ctxRuns ctx = false → exec (.dbgStop fn) s = .next (s.modCtx ctx (fun x => { x with dbgWait := true })))
    ∧ (x.status ≠ .live → exec (.dbgStop fn) s = .next s)
    ∧ (x.status = .held → x.dbgHeld = true → exec (.dbgResume fn) s = .next (s.resumeCtx ctx))
    ∧ (x.status = .live → exec (.dbgResume fn) s = .next (s.modCtx ctx (fun x => { x with dbgWait := false }))))
  ∧ (∀ (c base size pos : Nat) (r : BitVec 256) (rest : List (BitVec 256)) (s t : State), (s.core c).obs.buf = r :: rest →
    Config.freeBit s.free = false → trcRing (s.core c).obs.trc = some (base, size) → pos = (s.core c).obs.trp.toNat / 32 % (size / 32) →
    t = ((({ s with free := s.free + 1 } : State).postOnce (s.now + 1) (.traceRecordWrite c)).frontWrite (s.core c).obs.ctx (base + 32 * pos)
      (leBytes r.toNat 32)).1 →
    exec (.traceRecordWrite c) s = .next (t.modCore c (fun k =>
      { k with obs := { k.obs with buf := rest, trp := BitVec.ofNat 64 ((pos + 1) % (size / 32) * 32) } })))
  ∧ (∀ (c : Nat) (s : State), (s.core c).obs.buf = [] → exec (.traceRecordWrite c) s = .next s)
  ∧ (∀ (bay : Nat) (s : State), bay < 256 → (∃ t, exec (.noiseHealthRecover bay) s = .next t ∧ (t.bay bay).noiseOk = true)
    ∧ ((s.bay bay).noiseOk = true → exec (.noiseHealthFail bay) s
      = .next ((s.modBay bay (fun b => { b with noiseOk := false })).error 4 10 (bay / 4) (bay % 4) 0 0 0))
    ∧ ((s.bay bay).noiseOk = false → exec (.noiseHealthFail bay) s = .next s))

/-- R25, R349, R364, R372, R379, R383, R386, R390, R405, R411 to R414, R424 to R427: a mailbox command whose conditions hold has its effect and
answers status 0 with its value; the result register holds the answer. The order in which failing conditions are reported, and the numbers
that are chosen, are log entry 69. -/
def Obligations.HostCommands : Prop :=
  (∀ (fn : Nat) (c : BitVec 512) (s : State) (op : Nat), s.fwUp = true → fn < 64 → (s.fn fn).mres.getLsbD 63 = false → op = cmdField c 0 1 →
    (op = 0x01 → exec (.ctxCreate fn c) s = .next ((s.ctxCreate fn c).answered fn))
    ∧ (op = 0x02 → exec (.ctxDestroy fn c) s = .next ((s.ctxDestroy fn c).answered fn))
    ∧ (op = 0x03 → exec (.qCreate fn c) s = .next ((s.qCreate fn c).answered fn))
    ∧ (op = 0x04 → exec (.qDestroy fn c) s = .next ((s.qDestroy fn c).answered fn))
    ∧ (op = 0x05 → exec (.qPolicy fn c) s = .next ((s.qPolicy fn c).answered fn))
    ∧ (op = 0x06 → exec (.ctxPolicy fn c) s = .next ((s.ctxPolicy fn c).answered fn))
    ∧ (op = 0x07 → exec (.preempt fn c) s = .next ((s.preemptCmd fn c).answered fn))
    ∧ (op = 0x08 → exec (.ctxResume fn c) s = .next ((s.resumeCmd fn c).answered fn))
    ∧ (op = 0x10 → exec (.vfAssign fn c) s = .next ((s.vfAssign fn c).answered fn))
    ∧ (op = 0x11 → exec (.modnum fn c) s = .next ((s.modnumCmd fn c).answered fn))
    ∧ (op = 0x12 → exec (.fwreg fn c) s = .next ((s.fwregCmd fn c).answered fn))
    ∧ (op = 0x12 → cmdField c 1 1 = 0x22 → cmdField c 2 1 = 1 → (cmdField c 8 8).testBit 56 = true →
      exec (.pwrstagSend fn c) s = .next ((s.fwregCmd fn c).answered fn))
    ∧ (op = 0x13 → exec (.cxlwin fn c) s = .next ((s.cxlwinCmd fn c).answered fn))
    ∧ (op = 0x14 → exec (.keyid fn c) s = .next ((s.keyidCmd fn c).answered fn)))
  ∧ (∀ (fn : Nat) (c : BitVec 512) (s : State), (s.fn fn).mres.getLsbD 63 = true → ∀ i ∈ [Instr.ctxCreate fn c, .ctxDestroy fn c,
      .qCreate fn c, .qDestroy fn c, .qPolicy fn c, .ctxPolicy fn c, .preempt fn c, .ctxResume fn c, .vfAssign fn c, .modnum fn c, .fwreg fn c,
      .pwrstagSend fn c, .cxlwin fn c, .keyid fn c], exec i s = .next s)
  ∧ (∀ (fn : Nat) (r : CmdRes), r.2.1 < 256 → r.2.2 < 2 ^ 55 → ((r.1.fn fn).ending = none → ((r.answered fn).fn fn).mres.toNat = r.2.2 * 256 + r.2.1)
    ∧ ((r.1.fn fn).ending.isSome = true → ((r.answered fn).fn fn).mres = 1#64 <<< 63))
  ∧ (∀ (fn part asid pool : Nat) (c : BitVec 512) (s s1 s2 : State), part = cmdField c 1 1 → s.ctxFields fn c → s.closed part = false →
    s.pickFree 4096 ((s.ctxs.filterMap (·.2)).map (·.asid) ++ s.fns.filterMap (fun f => f.2.ending.map (·.2))) = (some asid, s1) →
    s1.pickFree 65536 (((s.ctxs.filterMap (·.2)).filter (fun x => x.part == part)).map (·.pool)) = (some pool, s2) → s.nextCtx < 2 ^ 40 →
    ∃ t x, s.ctxCreate fn c = (t, 0, s.nextCtx + asid * 2 ^ 40) ∧ t.nextCtx = s.nextCtx + 1 ∧ t.ctx? s.nextCtx = some x ∧ x.fn = fn
      ∧ x.asid = asid ∧ x.root = cmdField c 16 8 ∧ x.part = part ∧ x.trapa = cmdField c 24 8 ∧ x.landa = cmdField c 32 8
      ∧ x.ovfn = cmdField c 40 4 ∧ x.savea = cmdField c 48 8 ∧ x.savesz = cmdField c 56 4 ∧ x.kslot = cmdField c 60 2 ∧ x.status = .live)
  ∧ (∀ (fn ctx : Nat) (c : BitVec 512) (s : State) (x : Ctx), ctx = cmdField c 8 8 →
    (s.ctx? ctx = none → s.ctxDestroy fn c = (s, 5, 0) ∧ s.qCreate fn c = (s, 5, 0) ∧ s.preemptCmd fn c = (s, 5, 0) ∧ s.resumeCmd fn c = (s, 5, 0))
    ∧ (s.ctx? ctx = some x → x.fn = fn → cmdZero c [(1, 7), (16, 48)] = true → s.lockedFn fn = false → ∃ e, ∀ t,
      t = ({ s with free := s.free + 1 } : State).teardown ctx 5 e → t.lockedFn fn = false →
      (t.endingBusy ctx x.asid = false → s.ctxDestroy fn c = (t, 0, 0))
      ∧ (t.endingBusy ctx x.asid = true → s.ctxDestroy fn c = ((t.modFn fn (fun f => { f with ending := some (ctx, x.asid) })).postOnce
          ((t.modFn fn (fun f => { f with ending := some (ctx, x.asid) })).now + 1) (.shootdownComplete fn), 0, 0))))
  ∧ (∀ (fn k qi q : Nat) (c : BitVec 512) (s s1 s2 : State) (x : Ctx), k = cmdField c 1 1 → s.ctx? (cmdField c 8 8) = some x → x.fn = fn →
    cmdZero c [(3, 1), (6, 2), (32, 32)] = true → 4 ≤ k → k ≤ 16 → cmdField c 2 1 < 8 → 5 ≤ cmdField c 4 2 → cmdField c 4 2 < 2048 →
    cmdField c 16 8 % (128 * 2 ^ k) = 0 → cmdField c 24 8 % (16 * 2 ^ k) = 0 → cmdField c 16 8 < 2 ^ 56 → cmdField c 24 8 < 2 ^ 56 →
    s.lockedFn fn = false → s.closed x.part = false → (s.queues.filterMap (fun e => e.2.map (fun _ => e.1))).length < 4096 →
    s.pickFree 4096 (s.queues.filterMap (fun e => e.2.map (fun _ => e.1))) = (some qi, s1) →
    s1.pickFree 4096 (s.queues.filterMap (fun e => e.2.bind (fun q => if q.fn = fn then some q.q else none))) = (some q, s2) →
    ∃ t y, s.qCreate fn c = (t, 0, q) ∧ t.queue? qi = some y ∧ y.fn = fn ∧ y.q = q ∧ y.ctx = cmdField c 8 8 ∧ y.k = k
      ∧ y.prio.toNat = cmdField c 2 1 ∧ y.vec = cmdField c 4 2 ∧ y.subr = cmdField c 16 8 ∧ y.cmpr = cmdField c 24 8 ∧ y.head = 0 ∧ y.tail = 0
      ∧ y.slice = 10000)
  ∧ (∀ (fn qi : Nat) (c : BitVec 512) (s : State) (q : Queue), s.queueOf fn (cmdField c 8 8) = some (qi, q) →
    cmdZero c [(1, 7), (16, 48)] = true →
    (s.lockedFn fn = true → s.qDestroy fn c = (s, 3, 0)) ∧ (s.lockedFn fn = false → s.queueUsed qi q = true → s.qDestroy fn c = (s, 1, 0))
    ∧ (s.lockedFn fn = false → s.queueUsed qi q = false → s.qDestroy fn c = ({ s with queues := tput none s.queues qi none }, 0, 0)))
  ∧ (∀ (qi f b us : Nat) (c : BitVec 512) (s : State) (q : Queue), f = cmdField c 1 1 → b = cmdField c 2 1 → us = cmdField c 16 4 →
    s.queueOf f (cmdField c 8 8) = some (qi, q) → cmdZero c [(3, 5), (20, 44)] = true → f < 64 → b < 16 → us ≤ 1000000 → s.lockedFn f = false →
    s.qPolicy 0 c = (s.modQueue qi (fun q => { q with prio := if b.testBit 3 then q.prio else BitVec.ofNat 3 b, slice := if us = 0 then q.slice else us }), 0, 0))
  ∧ (∀ (ctx b n : Nat) (c : BitVec 512) (s : State) (x : Ctx), ctx = cmdField c 8 8 → b = cmdField c 1 1 → n = cmdField c 16 4 →
    s.ctx? ctx = some x → cmdZero c [(2, 6), (20, 44)] = true → b < 4 → (n ≤ 1024 ∨ n = 0xFFFFFFFF) → s.ctxPolicy 0 c
    = (s.modCtx ctx (fun x => { x with coop := if b.testBit 1 then x.coop else b.testBit 0, quota := if n = 0xFFFFFFFF then x.quota else n }), 0, 0))
  ∧ (∀ (fn ctx us : Nat) (c : BitVec 512) (s : State) (x : Ctx), ctx = cmdField c 8 8 → us = cmdField c 16 4 → s.ctx? ctx = some x → x.fn = fn →
    cmdZero c [(1, 7), (20, 44)] = true → x.status = .live → s.ctxRuns ctx = true →
    (x.coop = false → s.preemptCmd fn c = (s.askStop ctx .preempt, 0, 0))
    ∧ (x.coop = true → 1 ≤ us → us ≤ 1000000 → s.preemptCmd fn c = ((s.modCtx ctx (fun x => { x with yieldBy := some (s.now + usCycles us) })).post
      (s.now + usCycles us) (.yieldDeadline ctx), 0, 0)))
  ∧ (∀ (fn ctx : Nat) (c : BitVec 512) (s : State) (x : Ctx), ctx = cmdField c 8 8 → s.ctx? ctx = some x → x.fn = fn →
    cmdZero c [(1, 7), (16, 48)] = true → (x.status = .held → s.resumeCmd fn c = (s.resumeCtx ctx, 0, 0))
    ∧ (x.status ≠ .held → s.resumeCmd fn c = (s, 2, 0)))
  ∧ (∀ (fn vf part : Nat) (c : BitVec 512) (s : State), vf = cmdField c 1 1 → part = cmdField c 2 1 → (fn ≠ 0 → s.vfAssign fn c = (s, 5, 0)
      ∧ s.modnumCmd fn c = (s, 5, 0) ∧ s.fwregCmd fn c = (s, 5, 0) ∧ s.cxlwinCmd fn c = (s, 5, 0) ∧ s.keyidCmd fn c = (s, 5, 0)
      ∧ s.qPolicy fn c = (s, 5, 0) ∧ s.ctxPolicy fn c = (s, 5, 0))
    ∧ (cmdZero c [(3, 61)] = true → 1 ≤ vf → vf < 64 → s.isPart part = true → s.lockedFn vf = false → s.closed part = false →
      s.ctxsOf vf = [] → s.vfAssign 0 c = (s.modFn vf (fun f => { f with part := some part }), 0, 0)))
  ∧ (∀ (n : Nat) (c : BitVec 512) (s : State), n = cmdField c 8 8 → (s.modnum.isSome = true → s.modnumCmd 0 c = (s, 5, 0))
    ∧ (s.modnum = none → cmdZero c [(1, 7), (16, 48)] = true → n < 6144 → s.modnumCmd 0 c = ({ s with modnum := some n }, 0, 0)))
  ∧ (∀ (r v w : Nat) (c : BitVec 512) (s : State), r = cmdField c 1 1 → v = cmdField c 8 8 → cmdZero c [(3, 5), (16, 48)] = true →
    s.fwRead r = some w → (cmdField c 2 1 = 0 → s.fwregCmd 0 c = (s, 0, w))
    ∧ (∀ t, cmdField c 2 1 = 1 → s.fwWrite r v = some t → s.fwregCmd 0 c = (t, 0, (t.fwRead r).getD 0))
    ∧ (cmdField c 2 1 = 1 → s.fwWrite r v = none → s.fwregCmd 0 c = (s, 2, 0)))
  ∧ (∀ (v : Nat) (s : State), (1 ≤ v → v ≤ 2 ^ 20 → s.fwWrite 0x10 v = some { s with ecwin := v })
    ∧ (1 ≤ v → v ≤ 255 → s.fwWrite 0x11 v = some { s with ecthr := v }) ∧ (1024 ≤ v → v ≤ 65535 → s.fwWrite 0x12 v = some { s with hrthr := v })
    ∧ s.fwWrite 0x23 v = none)
  ∧ (∀ (f part key lg off : Nat) (c : BitVec 512) (s : State), f = cmdField c 1 1 → part = cmdField c 2 1 → key = cmdField c 3 1 →
    lg = cmdField c 4 1 → off = cmdField c 8 8 → cmdZero c [(5, 3), (16, 48)] = true → f < 64 → s.isPart part = true → key < 16 →
    s.keyOk part key = true → 28 ≤ lg → lg ≤ 41 → off % 2 ^ lg = 0 → off + 2 ^ lg ≤ partSize (s.partDies part) →
    (f = 0 ∨ (s.fn f).part = some part) → s.lockedFn f = false →
    s.cxlwinCmd 0 c = (s.modFn f (fun x => { x with window := some (part, key, lg, off) }), 0, 0))
  ∧ (∀ (key part : Nat) (c : BitVec 512) (s : State), key = cmdField c 1 1 → part = cmdField c 2 1 → cmdZero c [(4, 60)] = true → key < 16 →
    s.isPart part = true → (cmdField c 3 1 = 1 → s.keyOk part key = false → s.pools.any (fun p => p.1 != part && p.2.keys.contains key) = false →
      (s.pool part).keys.length < 4 → s.keyidCmd 0 c = (s.modPool part (fun p => { p with keys := p.keys ++ [key] }), 0, 0))
    ∧ (cmdField c 3 1 = 0 → s.keyOk part key = true → s.keyidCmd 0 c
      = ((s.modPool part (fun p => { p with keys := p.keys.filter (· != key) })).eraseKey key, 0, 0)))

/-- R6, R350, R378, R390, R399, R401, R408 to R411, R413, R415, R416, R418, R419, R428, R434, R438: repartitioning, the TDISP states, measurements and
keys, module reset, the host link, and a host's write of a register. When a repartition's checks are made and when its fill ends is log entry 63;
what a reset keeps is log entry 71. -/
def Obligations.HostInterface : Prop :=
  (∀ (new : BitVec 3) (s : State), (s.fwUp = false ∨ s.repart.isSome = true → exec (.pcfgGo new) s = .next s)
    ∧ (s.fwUp = true → s.repart = none →
      (5 ≤ new.toNat → exec (.pcfgGo new) s = .next { s with pcfg := pcfgWord (s.pcfg.toNat % 8) new.toNat 2 false })
      ∧ (new.toNat < 5 → new.toNat = s.pcfg.toNat % 8 → exec (.pcfgGo new) s = .next { s with pcfg := pcfgWord (s.pcfg.toNat % 8) new.toNat 0 false })
      ∧ (new.toNat < 5 → new.toNat ≠ s.pcfg.toNat % 8 →
        ∃ t d, exec (.pcfgGo new) s = .next t ∧ t.repart = some (d, new.toNat, false) ∧ s.now < d ∧ d ≤ s.now + usCycles 1000
          ∧ t.pcfg = pcfgWord (s.pcfg.toNat % 8) new.toNat (s.pcfg.toNat / 2 ^ 56 % 8) true ∧ t.posted .repartitionDone = true
          ∧ t.queues = s.queues ∧ t.ctxs = s.ctxs ∧ t.recs = s.recs
          ∧ ∀ p n, (p, n) ∈ s.layout → (t.closed p = true ↔ (p, n) ∉ layoutParts new.toNat) ∧ t.portsShut p = false)))
  ∧ (∀ s : State, (s.repart = none → exec .repartitionDone s = .next s)
    ∧ (∀ d new b, s.repart = some (d, new, b) → s.now < d → exec .repartitionDone s = .next s)
    ∧ (∀ d new, s.repart = some (d, new, false) → d ≤ s.now →
      (∀ f p, 1 ≤ f → f < 64 → s.lockedFn f = true → (s.fn f).part = some p → p ∈ (s.affected new).map (·.1) →
        exec .repartitionDone s = .next (s.pcfgRefuse 3))
      ∧ ((∀ f p, 1 ≤ f → f < 64 → s.lockedFn f = true → (s.fn f).part = some p → p ∉ (s.affected new).map (·.1)) →
        (∀ i q x, (i, some q) ∈ s.queues → s.queueUsed i q = true → s.ctx? q.ctx = some x → x.part ∈ (s.affected new).map (·.1) →
          exec .repartitionDone s = .next (s.pcfgRefuse 1))
        ∧ (s.queues = [] → s.ctxs = [] → s.bases = [] → s.pools = [] →
          ∃ t e, exec .repartitionDone s = .next t ∧ t.repart = some (e, new, true) ∧ s.now + usCycles 22000 ≤ e ∧ e < s.now + usCycles 23000
            ∧ t.pcfg = s.pcfg ∧ t.posted .repartitionDone = true
            ∧ ∀ p n, (p, n) ∈ s.layout → (t.portsShut p = true ↔ (p, n) ∉ layoutParts new))))
    ∧ (∀ st, s.queues = [] → (∀ f ∈ s.fns, f.2.lockWait = false) → s.pcfgRefuse st
      = { s with repart := none, pcfg := pcfgWord (s.pcfg.toNat % 8) (s.pcfg.toNat / 256 % 8) st false })
    ∧ (∀ d new, s.repart = some (d, new, true) → d ≤ s.now → s.endingOn new = true → exec .repartitionDone s = .next (s.post (s.now + 1) .repartitionDone))
    ∧ (∀ d new, s.repart = some (d, new, true) → d ≤ s.now → s.endingOn new = false → ∃ t, exec .repartitionDone s = .next t ∧ t.repart = none
      ∧ t.pcfg = pcfgWord new (s.pcfg.toNat / 256 % 8) 0 false
      ∧ (0, 0) ∈ t.msix ∧ ∀ a, readByte t.hbm a
        = if (s.affected new).any (fun p => p.1 == (s.partOfLocal a).1) then 0 else readByte s.hbm a))
  ∧ (∀ (fn : Nat) (s : State) (p : Nat), ((fn = 0 ∨ 64 ≤ fn) → exec (.tdispLockInterface fn) s = .next s)
    ∧ (1 ≤ fn → fn < 64 → (s.fn fn).part = some p → s.closed p = true → exec (.tdispLockInterface fn) s
      = .next (s.modFn fn (fun f => { f with lockWait := true })))
    ∧ (1 ≤ fn → fn < 64 → (s.fn fn).part = some p → s.closed p = false → (s.fn fn).tdisp = .unlocked →
      ∃ t, exec (.tdispLockInterface fn) s = .next t ∧ (t.fn fn).tdisp = .locked)
    ∧ ((s.fn fn).tdisp = .locked → ∃ t, exec (.tdispStartInterface fn) s = .next t ∧ (t.fn fn).tdisp = .run)
    ∧ ((s.fn fn).tdisp ≠ .locked → exec (.tdispStartInterface fn) s = .next s)
    ∧ ∃ t, exec (.tdispStopInterface fn) s = .next t ∧ (t.fn fn).tdisp = .unlocked)
  ∧ (∀ (s : State) (n : Nat), exec (.spdmRequest .session) s = .next { s with session := true }
    ∧ (∃ t keys, exec (.spdmRequest .measurements) s = .next t ∧ t.spdmOut = s.spdmOut ++ [Config.fwDigest.toNat :: Config.romId.toNat
      :: s.pcfg.toNat % 8 :: keys])
    ∧ (s.session = false → exec (.spdmRequest (.tenantKey n)) s = .next s ∧ exec (.spdmRequest (.partitionKey n)) s = .next s)
    ∧ (s.session = true → n < 16 → exec (.spdmRequest (.partitionKey n)) s = .next (s.eraseKey n))
    ∧ (s.session = true → n < 1024 → ∃ t, exec (.spdmRequest (.tenantKey n)) s = .next t ∧ tget 0 t.tenantVer n = tget 0 s.tenantVer n + 1))
  ∧ (∀ (code : BitVec 8) (s : State), (3 < code.toNat → exec (.moduleReset code) s = .next s)
    ∧ (code.toNat ≤ 3 → ∃ t, exec (.moduleReset code) s = .next t ∧ t.boot.toNat = 2 ^ 31 + code.toNat ∧ t.fwUp = decide (code.toNat = 0)
      ∧ t.ctxs = [] ∧ t.queues = [] ∧ t.recs = [] ∧ t.cores = [] ∧ t.fns = [] ∧ t.pcfg = 0 ∧ t.modnum = none ∧ t.ecwin = 86400 ∧ t.ecthr = 3
      ∧ t.hrthr = 8192 ∧ t.now = 0 ∧ ∀ k, k < 16 → tget 0 t.keyVer k = tget 0 s.keyVer k + 1))
  ∧ (∀ (s : State), exec (.hostLinkTraining 8 64) s = .next { s with link := (8, 64) }
    ∧ ∀ lanes rate, (lanes, rate) ∈ [(8, 32), (4, 64), (4, 32)] → ∃ w, exec (.hostLinkTraining lanes rate) s
      = .next (({ s with link := (lanes, rate), free := s.free + 1 } : State).error 7 8 0 (w % 8) 0 0 0))
  ∧ (∀ (fn off : Nat) (val : Word) (s : State), ((s.fwUp = false ∨ 64 ≤ fn ∨ off % 8 ≠ 0) → exec (.registerWrite fn off val) s = .next s)
    ∧ (s.fwUp = true → fn < 64 → (∀ q, q < 4096 → exec (.registerWrite fn (8 * q) val) s = .next (s.kickAt fn q (val.setWidth 16)))
      ∧ exec (.registerWrite fn 0x8000 val) s = .next (s.modFn fn (fun f => { f with tsdaddr := val &&& 0x00FFFFFFFFFFF000#64 }))
      ∧ (val.getLsbD 8 = true → ∃ t : State, exec (.registerWrite fn 0x8008 val) s = .next (t.tsdStart fn) ∧ (t.fn fn).tsdctl.toNat % 4 = val.toNat % 4)
      ∧ (val.getLsbD 0 = true → (s.fn fn).mres.getLsbD 63 = false → exec (.registerWrite fn 0x9140 val) s
        = .next (s.answer fn (fun s => s.runCmd fn (s.fn fn).mbox)))
      ∧ (∀ t, exec (.registerWrite fn 0x9180 val) s = .next t → (t.fn fn).frctx = val &&& 0xFFFFFFFFFF#64)
      ∧ (val.getLsbD 63 = true → ∃ t : State, exec (.registerWrite fn 0x9188 val) s = .next (t.faultReplyOf fn)
        ∧ (t.fn fn).frply.toNat % 2 ^ 33 = val.toNat % 2 ^ 33)
      ∧ exec (.registerWrite fn 0x9200 val) s = .next (s.modFn fn (fun f => { f with errbase := val &&& 0x800001FFFFFE0000#64 }))
      ∧ exec (.registerWrite fn 0x9148 val) s = .next s ∧ exec (.registerWrite fn 0x9210 val) s = .next s
      ∧ (fn ≠ 0 → exec (.registerWrite fn 0x9000 val) s = .next s ∧ exec (.registerWrite fn 0xA300 val) s = .next s)))

/-- R36: an instruction whose predicate does not hold reads nothing, pops nothing, delivers nothing and raises nothing: it retires from the state as
it was. PRED 0 always holds, and PRED 8 is no instruction. A routine of a custom major is not entered either, though its decode check 7 is made. -/
def Obligations.PredicatedOff : Prop :=
  (∀ (i : Instr) (g : Guard) (s : State) (u : Cur), guardOf i = some g → s.cur = some u → (s.core u.core).job.isSome = true →
    guardHolds g (s.strmAt u.core u.strm) = false → s.noTraceDue u →
    exec i s = .next (s.retire { u with use := u.use.map CxUse.off } .next))
  ∧ (∀ (o : CustomOps) (s : State) (u : Cur) (e : Word), s.cur = some u → (s.core u.core).job.isSome = true →
    guardHolds o.g (s.strmAt u.core u.strm) = false → s.noTraceDue u → (s.jobAt u.core).micro = none →
    e = tget 0 (((s.ctx? (s.jobAt u.core).ctx).map (·.bind)).getD []) (o.major.toNat - 0xC0) →
    (bindV e && !rkDmaskOk (bindRk e) o.dmask) = false →
    exec (.customOpcode o) s = .next (s.retire { u with use := u.use.map CxUse.off } .next))
  ∧ (∀ (g : Guard) (x : Stream), guardHolds g x = ((g.p == 0 || x.p.getLsbD g.p.toNat) != g.neg))
  ∧ (∀ x : Stream, guardHolds { neg := false, p := 0 } x = true)
  ∧ (∀ (i : Instr) (g : Guard) (f : Fields), guardOf i = some g → encodeFields i = some f → f.pred = g.code)
  ∧ ∀ (x : Strm) (f : Fields) (i : Instr), f.pred = 8 → decodeFields x f ≠ .ok i

/-- R388: the fields of a physical address, the partition that owns a LOCAL value, the home stack and the byte within it, and the trap of an access on its
own module that bits [46:41], LOCAL or KEY does not pass. -/
def Obligations.PhysicalAddresses : Prop :=
  (∀ key mod res loc : Nat, key < 16 → mod < 8192 → res < 64 → loc < 2 ^ 41 →
    ∀ pa, pa = key * 2 ^ 60 + mod * 2 ^ 47 + res * 2 ^ 41 + loc → paKey pa = key ∧ paMod pa = mod ∧ pa / 2 ^ 41 % 64 = res ∧ paLocal pa = loc)
  ∧ (∀ (s : State) (l p n g : Nat), s.pcfg.toNat % 8 ≤ 4 → l < 2 ^ 41 → (p, n) ∈ s.layout → partBase p ≤ l → l < partBase p + partSize n →
    g = (l - partBase p) / 2 ^ 12 →
    s.partOfLocal l = (p, n) ∧ s.homeOf l = (p / 2 + g % (n / 2), g / (n / 2) * 2 ^ 12 + l % 2 ^ 12) ∧ (s.homeOf l).1 < 32 ∧ (s.homeOf l).2 < 2 ^ 36)
  ∧ (∀ (s : State) (p n : Nat), s.pcfg.toNat % 8 ≤ 4 → (p, n) ∈ s.layout →
    (n = 64 ∧ partBase p = 0 ∧ partSize n = 2 ^ 41) ∨ (n = 32 ∧ ∃ h < 2, p = 32 * h ∧ partBase p = h * 2 ^ 40 ∧ partSize n = 2 ^ 40)
      ∨ (n = 16 ∧ ∃ q < 4, p = 16 * q ∧ partBase p = q * 2 ^ 39 ∧ partSize n = 2 ^ 39))
  ∧ (∀ (s : State) (part : Nat) (f : Leaf) (need : Need) (va : Nat), f.allows need = true → paMod (f.pa va) = s.ownMod →
    s.leafPa part f need va
      = if f.pa va / 2 ^ 41 % 64 ≠ 0 ∨ paLocal (f.pa va) < partBase part ∨ partBase part + partSize (s.partDies part) ≤ paLocal (f.pa va)
          ∨ paKey (f.pa va) ∉ (s.pool part).keys
        then .error { cause := 0x06, detail := va, va := va } else .ok (f.pa va))

/-- R23, R94: the numbers of cores, coordinates and bays; the numbers of the streams in queue codes, DMASK, trap records and stall counters. -/
def Obligations.Numbering : Prop :=
  (∀ d b k : Nat, d < 64 → b < 4 → k < 4 → ∀ c, c = 16 * d + (4 * b + k) →
    c < 1024 ∧ coreDie c = d ∧ coreBay c = 4 * d + b ∧ coreBay c < 256 ∧ ∀ j, specialVal j c .coordCore = BitVec.ofNat 64 (4 * b + k))
  ∧ strmNum .sc = 0 ∧ strmNum .ld = 1 ∧ strmNum .cx = 2 ∧ strmNum .st = 3
  ∧ (∀ x : Strm, Src.ofCode (BitVec.ofNat 8 (0x38 + strmNum x)) = some (.pop x) ∧ Src.ofCode (BitVec.ofNat 8 (0x3C + strmNum x)) = some (.peek x))
  ∧ (∀ (w : BitVec 64) (l : BitVec 32) (x : Strm), (x ∈ destStrms (Fields.ofWord w l).dest ↔ w.getLsbD (43 + strmNum x) = true)
    ∧ (x ∈ destStrms (Fields.ofWord w l).pdest ↔ w.getLsbD (43 + strmNum x) = true))
  ∧ (∀ (s : State) (c : Nat) (x : Strm) (t : Trap) (u : Cur), recField (trapRecOf s c (.stream x) t u).bytes 1 1 % 4 = strmNum x)
  ∧ (∀ (s : State) (c : Nat) (x : Strm), s.countHead c x .issue = s.countCore c 0x0001 (qualBit (6 + strmNum x))
    ∧ s.countHead c x .busy = s.countCore c 0x0003 (qualBit (6 + strmNum x)) ∧ s.countHead c x .empty = s.countCore c 0x0004 (qualBit (6 + strmNum x))
    ∧ ∀ n, s.countHead c x (.flag n) = s.countCore c 0x0002 (fun q => if q.testBit (6 + strmNum x) && (q.testBit 5 || q % 32 == n) then 1 else 0))

/-- R6, R20, R25, R386, R405, R408, R411, R415, R419, R424 to R427: the registers after module reset, where the rules give a value, and no context, queue, record,
job or event. What empty memory reads as is log entry 5; that no event is due and that the clock stands at 0 is log entry 1. -/
def Obligations.ResetState : Prop :=
  State.reset.pcfg = 0 ∧ State.reset.layout = [(0, 64)] ∧ State.reset.repart = none ∧ State.reset.modnum = none ∧ State.reset.boot = 0
    ∧ State.reset.ecwin = 86400 ∧ State.reset.ecthr = 3 ∧ State.reset.hrthr = 8192 ∧ State.reset.pwrlim = 0x000003E8000007D0 ∧ State.reset.pwrgrp = 0
    ∧ State.reset.pwrstag = 0 ∧ State.reset.session = false ∧ State.reset.link = (8, 64) ∧ State.reset.failed = []
    ∧ (∀ n, State.reset.ctx? n = none) ∧ (∀ n, State.reset.queue? n = none) ∧ (∀ n, State.reset.rec? n = none)
    ∧ (∀ c, (State.reset.core c).job = none ∧ (State.reset.core c).shadow = none ∧ (State.reset.core c).ways = 0 ∧ (State.reset.core c).credits = 4)
    ∧ (∀ b, State.reset.bay b = {} ∧ (State.reset.bay b).holder = none) ∧ (∀ f, State.reset.fn f = {} ∧ (State.reset.fn f).errbase = 0)
    ∧ (∀ p, (State.reset.pool p).keys = []) ∧ (∀ n, State.reset.landing n = {}) ∧ State.reset.deliveries = [] ∧ State.reset.galleries = []
    ∧ (∀ a, readByte State.reset.hbm a = 0) ∧ State.reset.memOk ∧ State.reset.inputs = [] ∧ State.reset.due = [] ∧ State.reset.turn = []
    ∧ State.reset.msix = [] ∧ State.reset.poison = [] ∧ State.reset.ports = [] ∧ State.reset.remote = [] ∧ ∃ t, step State.reset = .next t ∧ t.now = 1 ∧ t.hbm = []

/-- No step of the machine breaks the canonical form of HBM: addresses strictly rising, no byte listed that reads 0 anyway (log entry 5). -/
def Obligations.MemoryForm : Prop := ∀ s t : State, s.memOk → step s = .next t → t.memOk

/-- R32, R35 to R48: words written out from the encodings decode to the instructions they stand for. -/
def Obligations.WrittenWords : Prop :=
  (∀ x : Strm, decode x 0x0000000000000000 0 = .ok (.nop { neg := false, p := 0 }))
  ∧ (∀ x : Strm, decode x 0x0040000000000000 0 = .ok (.exit { neg := false, p := 0 }))
  ∧ decode .sc 0x0080000000071400 0 = .ok (.syswr { neg := false, p := 0 } 0x0A (.s 7))
  ∧ decode .sc 0x13000403045D2000 0 = .ok (.cmp { g := { neg := false, p := 0 }, d := { reg := some (.p 3), qs := 0 }, a := .s 4, b := .const 13 } .lt)
  ∧ decode .sc 0x3B00000004403000 0
      = .ok (.waitt { g := { neg := false, p := 0 }, d := { reg := none, qs := 0 }, ctr := 3, a := .s 4, b := .zero, nb := none })
  ∧ decode .sc 0x1000060740000000 0x03011133
      = .ok (.add { g := { neg := false, p := 0 }, d := { reg := some (.s 7), qs := 0 }, a := .zero, b := .lit 0x03011133 })
  ∧ (∀ x : Strm, decode x 0x0008000000000000 0 = .error 4)
  ∧ (∀ x : Strm, decode x 0x0400000000000000 0 = .error 1 ∧ decode x 0x00F0000000000000 0 = .error 2)
  ∧ wordSize 0x1000060740000000 = 12 ∧ wordSize 0x0040000000000000 = 8

/-- Decoding takes back what encoding gave: for every instruction word a stream may issue, with every operand at every value its encoding admits (R35 to
R48). Events of the machine have no word. -/
def Obligations.DecodeEncode : Prop :=
  (∀ (x : Strm) (i : Instr) (w : BitVec 64) (l : BitVec 32), i.wf x = true → encode i = some (w, l) → decode x w l = .ok i)
  ∧ (∀ (x : Strm) (i : Instr), i.wf x = true → (encode i).isSome = true)
  ∧ ∀ f : Fields, Fields.ofWord f.word f.lit = f

/-- R32, R33, R46, R96: the turn of a stream that nothing holds runs the instruction its fetched words decode to, in the state with its slot set; words that
do not decode trap with 0x01 and their reason; and words are fetched from the bytes at the program counter. -/
def Obligations.StepRuns : Prop :=
  (∀ (s : State) (c : Nat) (x : Strm) (rest : List (Nat × Strm)) (j : Job) (w : Fetched), TurnOf s c x rest j w →
    (∀ i, decode x w.word w.lit = .ok i → step s = exec i { s with cur := some (slotFor c x j w), turn := rest })
    ∧ (∀ r, decode x w.word w.lit = .error r → (j.strm x).log ≠ [] →
        step s = .next (({ s with cur := some (issueSlot c x (j.strm x) w), turn := rest } : State).holdAt (issueSlot c x (j.strm x) w) .busy))
    ∧ (∀ r, decode x w.word w.lit = .error r → (j.strm x).log = [] →
        step s = .next (({ s with cur := some (issueSlot c x (j.strm x) w), turn := rest } : State).takeTrap (issueSlot c x (j.strm x) w)
          { cause := 0x01, reason := r }))
    ∧ (slotFor c x j w).core = c ∧ (slotFor c x j w).strm = x ∧ (slotFor c x j w).pc = (j.strm x).pc ∧ (slotFor c x j w).size = wordSize w.word
    ∧ (slotFor c x j w).second = false)
  ∧ (∀ (s : State) (c : Nat) (pc : VAddr) (o : Nat) (bs : List Byte), checkAddr s c pc.toNat 8 1 false = .ok (.spad o) →
    bs = readBytes (s.core c).spad o 8 → (BitVec.ofNat 64 (leNat bs)).getLsbD 41 = false →
    s.codeWord c pc = (s, .ok { pc := pc, word := BitVec.ofNat 64 (leNat bs), lit := 0 }))
  ∧ (∀ (s s1 : State) (c : Nat) (pc : VAddr) (bs : List Byte), s.codeBytes c pc.toNat 8 = (s1, .ok bs) →
    ((BitVec.ofNat 64 (leNat bs)).getLsbD 41 = false → s.codeWord c pc = (s1, .ok { pc := pc, word := BitVec.ofNat 64 (leNat bs), lit := 0 }))
    ∧ ∀ s2 b, (BitVec.ofNat 64 (leNat bs)).getLsbD 41 = true → s1.codeBytes c (pc.toNat + 8) 4 = (s2, .ok b) →
      s.codeWord c pc = (s2, .ok { pc := pc, word := BitVec.ofNat 64 (leNat bs), lit := BitVec.ofNat 32 (leNat b) }))

/-- R36 to R40, R97, R107 to R115, R121, R131, R207, R211, R214: an instruction that writes registers and queues changes no other register, no other stream, no
special register and no memory; only the floating-point and vector instructions touch the arithmetic status, and of it only the six flags. The
hard-wired predicate and mask read as they are wired. A pop that has to make its access again is an access (R156) and not meant here. -/
def Obligations.RegisterFrames : Prop :=
  (∀ (o : ROps) (s s1 t : State) (u : Cur) (x y : Word), Runs s u o.g → s.blocksHere u [o.a, o.b] → operand2 u o.d o.a o.b s = .ok (x, y) s1 →
    (∀ i, (i ∈ intTwo o ∨ (∃ n, i = .lea o n) ∨ (∃ n, i = .bext o n) ∨ (∃ n p, i = .sel o n p) ∨ (∃ c, i = .cmp o c)
        ∨ (y ≠ 0 ∧ (i = .div o ∨ i = .divu o ∨ i = .rem o ∨ i = .remu o))) → exec i s = .next t → RegOnly s t u o.d false))
  ∧ (∀ (o : ROps) (s s1 t : State) (u : Cur) (r : Word × Word × Word), Runs s u o.g → s.blocksHere u [o.a, o.b] →
    operand3 u o.d o.a o.b s = .ok r s1 → ∀ i, (i = .madd o ∨ ∃ n, i = .bins o n) → exec i s = .next t → RegOnly s t u o.d false)
  ∧ (∀ (o : ROps1) (s s1 t : State) (u : Cur) (x : Word), Runs s u o.g → s.blocksHere u [o.a] → operand1 u o.d o.a s = .ok x s1 →
    ∀ i, (i = .clz o ∨ i = .popc o ∨ i = .mov o.g o.d o.a ∨ i = .fcvt o .itof ∨ i = .fcvt o .utof) → exec i s = .next t → RegOnly s t u o.d false)
  ∧ (∀ (o : ROps) (s s1 t : State) (u : Cur) (r : Nat × Nat), Runs s u o.g → s.blocksHere u [o.a, o.b] → floats2 u o.d o.a o.b s = .ok r s1 →
    (∀ i ∈ fltTwo o, exec i s = .next t → RegOnly s t u o.d true) ∧ ∀ c k, exec (.fcmp o c k) s = .next t → RegOnly s t u o.d false)
  ∧ (∀ (o : ROps) (s s1 t : State) (u : Cur) (r : Nat × Nat × Nat), Runs s u o.g → s.blocksHere u [o.a, o.b] → floats3 u o.d o.a o.b s = .ok r s1 →
    exec (.ffma o) s = .next t → RegOnly s t u o.d true)
  ∧ (∀ (o : ROps1) (s s1 t : State) (u : Cur) (x : Nat) (r : Rnd), Runs s u o.g → s.blocksHere u [o.a] → r ≠ .rsto → floats1 u o.d o.a s = .ok x s1 →
    (exec (.frnd o r) s = .next t → RegOnly s t u o.d false)
    ∧ ∀ k, (k = .ftoi r ∨ k = .ftou r) → exec (.fcvt o k) s = .next t → RegOnly s t u o.d true)
  ∧ (∀ (o : POps) (s t : State) (u : Cur), Runs s u o.g → (s.jobAt u.core).noRoom u.strm o.d = none →
    ∀ i, (i = .pand o ∨ i = .por o ∨ i = .pxor o ∨ i = .pandn o ∨ ∃ n p, i = .pmov o.g o.d n p) → exec i s = .next t → RegOnly s t u o.d false)
  ∧ (∀ (g : Guard) (d : Dest) (s t : State) (u : Cur), Runs s u g → (s.jobAt u.core).noRoom u.strm d = none →
    ∀ i, ((∃ q, i = .qtest g d q) ∨ (∃ n, i = .sysrd g d n) ∨ ∃ n w, i = .tlrd g d n w) → exec i s = .next t → RegOnly s t u d false)
  ∧ (∀ (g : Guard) (s t : State) (u : Cur), Runs s u g → exec (.nop g) s = .next t → RegOnly s t u { reg := none, qs := 0 } false)
  ∧ (∀ (o : BOps) (s t : State) (u : Cur), Runs s u o.g → (s.jobAt u.core).noRoom u.strm o.d = none →
    (s.strmAt u.core u.strm).inMloop u.pc = false → 0 ≤ (u.pc.toNat : Int) + 4 * o.off.toInt → (u.pc.toNat : Int) + 4 * o.off.toInt < 2 ^ 56 →
    u.pc.toNat % 4 = 0 → (exec (.br o) s = .next t → RegOnly s t u { reg := none, qs := 0 } false) ∧ (exec (.brl o) s = .next t → RegOnly s t u o.d false))
  ∧ (∀ (o : VOps) (s s1 t : State) (u : Cur) (int : Bool) (r : List Nat × List Nat × List Nat), Runs s u o.g → s.blocksHere u [o.a, o.b] →
    lanes2 u o int false s = .ok r s1 → ∀ i ∈ vecTwo o int, exec i s = .next t → RegOnly s t u o.d true)
  ∧ (∀ (s : State) (u : Cur) (n : BitVec 7) (qs : BitVec 5) (lw : Bool) (k : BitVec 4) (lat : Nat) (f : Nat → Nat × Flg) (t : State),
    (s.core u.core).job.isSome = true → (∀ i, (f i).1 < 2 ^ laneW lw) → t = s.lanesPut u { reg := some (.v n), qs := qs } lw k lat f →
    (∀ i < laneN lw, rowLane lw ((t.jobAt u.core).row ((s.jobAt u.core).physRow n.toNat)) i
      = if (s.maskOf u k).getLsbD i then (f i).1 else rowLane lw ((s.jobAt u.core).row ((s.jobAt u.core).physRow n.toNat)) i)
    ∧ ∀ b < 6, ((t.strmAt u.core u.strm).asr.getLsbD b = true
      ↔ (s.strmAt u.core u.strm).asr.getLsbD b = true ∨ ∃ i < laneN lw, (s.maskOf u k).getLsbD i = true ∧ (f i).2.getLsbD b = true))
  ∧ (∀ (x : Stream) (b : Bool), x.pred 0 = true ∧ x.setPred 0 b = x)
  ∧ (∀ (s : State) (u : Cur) (d : Dest) (m : Mask), s.maskOf u 0 = BitVec.allOnes 256 ∧ (d.reg = some (.k 0) → s.maskPut u d m = s.modJob u.core id))

/-- R44, R57, R146, R148, R153, R157, R160, R164 to R167, R173, R198: memory changes only in the bytes an access stores to. A store to the local aperture changes
the bytes of its area and no other byte of any scratchpad, cluster memory or HBM; a gallery store changes nothing until it arrives; loads change nothing; and a
store to translated memory sends toward HBM no byte but its own and those that earlier stores left dirty in the same L1. -/
def Obligations.StoreFrames : Prop :=
  (∀ (o : StOps) (s s1 t : State) (u : Cur) (w : Word) (a : Int) (ar : Area), Runs s u o.g → s.blocksHere u [o.at_.base, o.at_.idx] →
    storeReady u o s = .ok (w, a, ar) s1 → ar.isTrans = false → exec (.st o) s = .next t →
    BytesKept s t (ar.inSpad u.core (2 ^ o.sz.toNat)) (ar.inCluster s u.core (2 ^ o.sz.toNat)) ∧ feKept s t (ar.inSpad u.core (2 ^ o.sz.toNat))
      ∧ RegsKept s t u [] false ∧ (∀ off, ar = .spad off → a = off ∧ readBytes (t.core u.core).spad off (2 ^ o.sz.toNat) = leBytes w.toNat (2 ^ o.sz.toNat)))
  ∧ (∀ (o : StOps) (s s1 s2 t : State) (u : Cur) (w : Word) (a : Int) (ar : Area), Runs s u o.g → s.blocksHere u [o.at_.base, o.at_.idx] →
    storeReady u o s = .ok (w, a, ar) s1 → ar.isTrans = true → s1.defers true = (true, s2) → exec (.st o) s = .next t →
    BytesKept s t (fun _ _ => False) (fun _ _ => False) ∧ RegsKept s t u [] false)
  ∧ (∀ (o : VstOps) (s s1 t : State) (u : Cur) (f : MFmt) (row : Row) (a : Int) (ar : Area), Runs s u o.g → s.blocksHere u [o.at_.base, o.at_.idx] →
    o.rnd ≠ .rsto → rowStoreReady u o s = .ok (f, row, a, ar) s1 → ar.isTrans = false → exec (.vst o) s = .next t →
    BytesKept s t (ar.inSpad u.core (runBytes f.width (laneN o.lw))) (ar.inCluster s u.core (runBytes f.width (laneN o.lw))) ∧ RegsKept s t u [] true)
  ∧ (∀ (o : VstOps) (s s1 t : State) (u : Cur) (f : MFmt) (row : Row) (ars : List Area), Runs s u o.g → s.blocksHere u [o.at_.base, o.at_.idx] →
    o.rnd ≠ .rsto → scatterReady u o s = .ok (f, row, ars) s1 → (∀ ar ∈ ars, ar.isTrans = false) → ars ≠ [] → exec (.vstx o) s = .next t →
    BytesKept s t (fun c i => ∃ ar ∈ ars, ar.inSpad u.core (runBytes f.width 1) c i) (fun b i => ∃ ar ∈ ars, ar.inCluster s u.core (runBytes f.width 1) b i)
      ∧ RegsKept s t u [] true)
  ∧ (∀ (o : AOps) (s s1 t : State) (u : Cur) (ar : Area) (d : Word) (n : Nat), Runs s u o.g → s.blocksHere u [o.at_.base, o.at_.idx] →
    n = (if o.dbl then 8 else 4) → atomicAddr u o.d o.at_ n s = .ok ar s1 → readDst u o.d s1 = .ok d s1 → ar.isTrans = false →
    ∀ i ∈ atomics o, exec i s = .next t →
      BytesKept s t (ar.inSpad u.core n) (ar.inCluster s u.core n) ∧ feKept s t (fun _ _ => False) ∧ RegsKept s t u o.d.reg.toList false)
  ∧ (∀ (g : Guard) (data : Src) (m : MAddr) (sz : BitVec 2) (s s1 s2 t : State) (u : Cur) (a : Int) (w : Word) (ms : List Nat), Runs s u g →
    s.blocksHere u [m.base, m.idx] → needAll s u {} (addrRds m ++ [.scalar data]) = [] → needLogEntry u true s = .ok () s →
    readAddr u m s = .ok a s1 → readScalar u data s1 = .ok w s2 → galleryReady u false a (2 ^ sz.toNat) (2 ^ sz.toNat) s2 = .ok ms s2 →
    exec (.gst (.scalar g data m sz)) s = .next t →
    BytesKept s t (fun _ _ => False) (fun _ _ => False) ∧ feKept s t (fun _ _ => False) ∧ RegsKept s t u [] false)
  ∧ (∀ (id : Nat) (s t : State) (g : Gallery) (p : Piece) (rest : List Gallery),
    takeFirstBy (fun (g : Gallery) => g.id == id) s.galleries = some (g, rest) → g.pieces = [p] → exec (.galleryArrival id) s = .next t →
    BytesKept s t (fun c i => c ∈ g.members ∧ p.addr ≤ i ∧ i < p.addr + p.bytes.length) (fun _ _ => False)
      ∧ feKept s t (fun c i => c ∈ g.members ∧ p.addr ≤ i ∧ i < p.addr + p.bytes.length)
      ∧ (∀ c, c ≠ g.src → (t.core c).job = (s.core c).job)
      ∧ ∀ x, ∃ l, t.strmAt g.src x = { s.strmAt g.src x with log := l } ∧ ∀ e ∈ l, e ∈ (s.strmAt g.src x).log)
  ∧ (∀ (o : LdOps) (s s1 t : State) (u : Cur) (a : Int) (ar : Area), Runs s u o.g → s.blocksHere u [o.at_.base, o.at_.idx] →
    loadReady u o s = .ok (a, ar) s1 → ar.isTrans = false → exec (.ld o) s = .next t →
    BytesKept s t (fun _ _ => False) (fun _ _ => False) ∧ RegsKept s t u o.d.reg.toList false
      ∧ feKept s t (if o.fe = .fec then ar.inSpad u.core (2 ^ o.sz.toNat) else fun _ _ => False))
  ∧ (∀ (s t : State) (c : Nat) (un : SendUnit) (ctx pa : Nat) (bs : List Byte) (scope : Scope), un < 7 → pa % 128 + bs.length ≤ 128 →
    (∀ b, (s.base b).reqs.length < 510) →
    t = s.l1Store c un ctx pa (fullMask bs) scope →
    t.hbm = s.hbm ∧ t.poison = s.poison ∧ t.bays = s.bays ∧ (∀ k, (t.core k).spad = (s.core k).spad ∧ (t.core k).fe = (s.core k).fe)
      ∧ (∀ k, k ≠ c → (t.core k).l1 = (s.core k).l1)
      ∧ ∀ b r x v, r ∈ (t.base b).reqs → r ∉ (s.base b).reqs → r.writes x v →
          (∃ i, bs[i]? = some v ∧ x = pa + i)
          ∨ ∃ l ∈ (s.core c).l1, ∃ i < 128, x = l.pa + i ∧ l.db.getLsbD i = true ∧ l.byte i = v)

/-- R36, R96, R118, R121, R157, R369 to R372, R382: a trap writes the record of R369 at the tail of its context's ring; a translation fault suspends its issuer
until it is answered, TRAP, BKPT and a watchpoint hold the context, and every other cause stops it; a stream that is suspended or trapped issues nothing; a
branch to an address that is no multiple of 4 traps with 0x07. Where a trap of the same core and cycle has been recorded before, R382 applies instead. -/
def Obligations.Traps : Prop :=
  (∀ r : TrapRec, r.fits → r.bytes.length = 128 ∧ recField r.bytes 0 1 = r.cause.toNat
    ∧ recField r.bytes 1 1 = r.strm + 4 * r.source + 32 * r.late.toNat + 64 * r.more.toNat ∧ recField r.bytes 2 1 = r.reason
    ∧ recField r.bytes 3 1 = r.subcode ∧ recField r.bytes 4 2 = r.core ∧ recField r.bytes 6 2 = r.queue ∧ recField r.bytes 8 8 = r.pc
    ∧ recField r.bytes 16 8 = r.word ∧ recField r.bytes 24 4 = r.lit ∧ recField r.bytes 28 1 = r.repk ∧ recField r.bytes 29 1 = r.cause2
    ∧ recField r.bytes 30 2 = 0 ∧ recField r.bytes 32 8 = r.detail ∧ recField r.bytes 40 8 = r.time ∧ recField r.bytes 48 8 = r.ctx
    ∧ recField r.bytes 56 8 = r.asr ∧ (∀ i < 3, recField r.bytes (64 + 8 * i) 8 = (r.pops.getD i 0).toNat)
    ∧ recField r.bytes 88 1 = min r.pops.length 3 ∧ recField r.bytes 89 7 = 0 ∧ recField r.bytes 96 8 = r.faddr ∧ recField r.bytes 104 24 = 0)
  ∧ (∀ (s s1 : State) (c ix : Nat) (un : TrapUnit) (t : Trap) (u : Cur), t.cause = 0x05 →
    s.putTrap (s.jobAt c).ctx (trapRecOf s c un t u) = (s1, .ok (some ix)) →
    s.takeTrapOf c un t (some u) = s1.haltUnit c un (some { va := t.faddr.toNat, idx := ix, reply := none, late := t.late }))
  ∧ (∀ (s s1 : State) (c ix : Nat) (un : TrapUnit) (t : Trap) (u : Cur), t.cause ≠ 0x05 →
    (∀ l, (s.core c).lastTrap = some l → l.time ≠ s.now) → (s.haltUnit c un none).putTrap (s.jobAt c).ctx (trapRecOf s c un t u) = (s1, .ok (some ix)) →
    s.takeTrapOf c un t (some u) = (s1.modCore c (fun k =>
      { k with lastTrap := some { time := s.now, prio := trapPrio un t.cause, cause := t.cause, recAt := some ix, more := false,
                                  prev := ((s.ctx? (s.jobAt c).ctx).map (·.status)).getD .live } })).haltCtx
        (s.jobAt c).ctx (causeHolds t.cause))
  ∧ (∀ (s : State) (x : Ctx) (n : Nat) (hold : Bool), s.ctx? n = some x → s.ctxRuns n = true → x.status = .live →
    ∃ y, (s.haltCtx n hold).ctx? n = some y ∧ y.status = (if hold then .held else .stopped)
      ∧ ∀ c, (s.core c).job.map (·.ctx) = some n → ((s.haltCtx n hold).core c).stopping.isSome = true)
  ∧ (∀ c : BitVec 8, causeHolds c = true ↔ c = 0x10 ∨ c = 0x11 ∨ c = 0x12)
  ∧ (∀ (v : Stream), (v.susp.isSome = true ∨ v.trapped = true ∨ v.exited = true ∨ v.stopped = true) → v.live = false)
  ∧ (∀ (s : State) (c : Nat) (x : Strm), (s.strmAt c x).live = false → (s.visit c x).2 = none)
  ∧ (∀ (g : Guard) (a b : Src) (s s1 : State) (u : Cur) (x y : Word), Runs s u g → s.trapsNow u → source2 u a b s = .ok (x, y) s1 →
    (s1.strmAt u.core u.strm).inMloop u.pc = false → (x.toInt + y.toInt) % 4 ≠ 0 →
    ∃ t, exec (.bri g a b) s = .next (s1.takeTrap u t) ∧ t.cause = 0x07 ∧ t.faddr = BitVec.ofInt 64 (x.toInt + y.toInt))
  ∧ (∀ (o : ROps) (s s1 : State) (u : Cur) (x y : Word) (z : Int), Runs s u o.g → s.trapsNow u → operand2 u o.d o.a o.b s = .ok (x, y) s1 →
    (s1.strmAt u.core u.strm).inMloop u.pc = false → z = x.toInt + y.toInt → (z % 4 ≠ 0 ∨ z < 0 ∨ 2 ^ 56 ≤ z) →
    ∃ t, exec (.bril o) s = .next ((s1.delivered u o.d ((u.pc + 8#56).setWidth 64)).takeTrap u t)
      ∧ t.cause = (if z % 4 ≠ 0 then 0x07 else 0x06) ∧ t.faddr = BitVec.ofInt 64 z)
  ∧ (∀ (u : Cur) (t : Trap) (s s1 : State), (s.strmAt u.core u.strm).log ≠ [] → s.stopAt u (.trap t) s1 = s.holdAt u .busy)
  ∧ (∀ (s : State) (c n al : Nat) (a : Int) (fe : Bool), 1 ≤ al →
    ((a < 0 ∨ 2 ^ 56 < a + n) → checkAddr s c a n al fe = .error (addrTrap 0x06 a))
    ∧ (0 ≤ a → a + n ≤ 2 ^ 56 → a % al ≠ 0 → checkAddr s c a n al fe = .error (addrTrap 0x07 a))
    ∧ (0 ≤ a → a < 0x1000000 → a + n ≤ 2 ^ 56 → a % al = 0 → checkAddr s c a n al fe
        = if ((s.core c).spadSize : Int) < a + n then .error (addrTrap 0x0E a) else .ok (.spad a.toNat)))
end

