-- ==== Sys2Proof/Laws/Memory.lean ====
section
/-!
SUPPORT. Tables and byte memories: a read after a write, and that every memory operation keeps the canonical form.
-/

set_option Elab.async false

namespace Sys2Proof.Machine

section
variable {α : Type} (d : α)

theorem tget_tdel (t : Tbl α) (i j : Nat) : tget d (tdel t i) j = if j = i then d else tget d t j := by
  induction t with
  | nil => simp [tdel, tget]
  | cons c t ih =>
    obtain ⟨k, v⟩ := c
    by_cases h : k = i
    · subst h; simp only [tdel, if_true, ih, tget]
      by_cases h : j = k
      · simp [h]
      · rw [if_neg h, if_neg h, if_neg (fun e => h e.symm)]
    · simp only [tdel, if_neg h, tget, ih]
      by_cases h1 : k = j <;> by_cases h2 : j = i <;> simp_all

theorem tget_tins (t : Tbl α) (i j : Nat) (x : α) : tget d (tins t i x) j = if j = i then x else tget d t j := by
  induction t with
  | nil =>
    simp only [tins, tget]
    by_cases h : j = i
    · simp [h]
    · rw [if_neg h, if_neg (fun e => h e.symm)]
  | cons c t ih =>
    obtain ⟨k, v⟩ := c
    simp only [tins]
    split
    · simp only [tget]
      by_cases h : j = i
      · simp [h]
      · rw [if_neg h, if_neg (fun e => h e.symm)]
    · split
      · rename_i h1 h2
        subst h2; simp only [tget]
        by_cases h : j = k
        · simp [h]
        · rw [if_neg h, if_neg (fun e => h e.symm), if_neg (fun e => h e.symm)]
      · simp only [tget, ih]
        by_cases h1 : k = j <;> by_cases h2 : j = i <;> simp_all

/-- A read after a write: the value at the key written, the old value elsewhere. -/
theorem tget_tput [DecidableEq α] (t : Tbl α) (i j : Nat) (x : α) : tget d (tput d t i x) j = if j = i then x else tget d t j := by
  unfold tput
  split
  · rename_i h; rw [tget_tdel, h]
  · exact tget_tins d t i j x

@[simp] theorem tget_tput_same [DecidableEq α] (t : Tbl α) (i : Nat) (x : α) : tget d (tput d t i x) i = x := by simp [tget_tput]

theorem tget_tput_other [DecidableEq α] (t : Tbl α) {i j : Nat} (x : α) (h : j ≠ i) : tget d (tput d t i x) j = tget d t j := by
  simp [tget_tput, h]

theorem twfFrom_mono [DecidableEq α] {lo lo' : Nat} {t : Tbl α} (h : lo' ≤ lo) (ht : twfFrom d lo t = true) : twfFrom d lo' t = true := by
  cases t with
  | nil => rfl
  | cons c t =>
    obtain ⟨k, v⟩ := c
    simp only [twfFrom, Bool.and_eq_true, decide_eq_true_eq] at ht ⊢
    exact ⟨⟨by omega, ht.1.2⟩, ht.2⟩

theorem twfFrom_tdel [DecidableEq α] {lo : Nat} {t : Tbl α} (i : Nat) (ht : twfFrom d lo t = true) : twfFrom d lo (tdel t i) = true := by
  induction t generalizing lo with
  | nil => rfl
  | cons c t ih =>
    obtain ⟨k, v⟩ := c
    simp only [twfFrom, Bool.and_eq_true, decide_eq_true_eq] at ht
    simp only [tdel]
    split
    · exact twfFrom_mono d (by omega) (ih ht.2)
    · simp only [twfFrom, Bool.and_eq_true, decide_eq_true_eq]; exact ⟨ht.1, ih ht.2⟩

theorem twfFrom_tins [DecidableEq α] {lo : Nat} {t : Tbl α} {i : Nat} {x : α} (hx : x ≠ d) (hi : lo ≤ i) (ht : twfFrom d lo t = true) :
    twfFrom d lo (tins t i x) = true := by
  induction t generalizing lo with
  | nil => simp [tins, twfFrom, hx, hi]
  | cons c t ih =>
    obtain ⟨k, v⟩ := c
    simp only [twfFrom, Bool.and_eq_true, decide_eq_true_eq] at ht
    simp only [tins]
    split
    · simp only [twfFrom, Bool.and_eq_true, decide_eq_true_eq]; exact ⟨⟨hi, hx⟩, ⟨by omega, ht.1.2⟩, ht.2⟩
    · split
      · rename_i h1 h2; subst h2
        simp only [twfFrom, Bool.and_eq_true, decide_eq_true_eq]; exact ⟨⟨hi, hx⟩, ht.2⟩
      · simp only [twfFrom, Bool.and_eq_true, decide_eq_true_eq]; exact ⟨ht.1, ih (by omega) ht.2⟩

/-- A write keeps the canonical form. -/
theorem twf_tput [DecidableEq α] {t : Tbl α} (i : Nat) (x : α) (ht : twf d t = true) : twf d (tput d t i x) = true := by
  unfold tput
  split
  · exact twfFrom_tdel d i ht
  · rename_i h; exact twfFrom_tins d h (Nat.zero_le _) ht

theorem twfFrom_filter [DecidableEq α] {lo : Nat} {t : Tbl α} (p : Nat × α → Bool) (ht : twfFrom d lo t = true) :
    twfFrom d lo (t.filter p) = true := by
  induction t generalizing lo with
  | nil => rfl
  | cons c t ih =>
    obtain ⟨k, v⟩ := c
    simp only [twfFrom, Bool.and_eq_true, decide_eq_true_eq] at ht
    simp only [List.filter]
    split
    · simp only [twfFrom, Bool.and_eq_true, decide_eq_true_eq]; exact ⟨ht.1, ih ht.2⟩
    · exact twfFrom_mono d (by omega) (ih ht.2)

/-- Equal reads are equal data: two canonical tables that read alike are the same. -/
theorem twfFrom_low [DecidableEq α] {lo i : Nat} {t : Tbl α} (ht : twfFrom d lo t = true) (hi : i < lo) : tget d t i = d := by
  induction t generalizing lo with
  | nil => rfl
  | cons c t ih =>
    obtain ⟨k, v⟩ := c
    simp only [twfFrom, Bool.and_eq_true, decide_eq_true_eq] at ht
    simp only [tget, if_neg (show ¬k = i by omega)]
    exact ih ht.2 (by omega)
end

/-! ### Bytes -/

theorem readByte_writeByte (m : Memory) (a b : Nat) (x : Byte) : readByte (writeByte m a x) b = if b = a then x else readByte m b :=
  tget_tput 0 m a b x

@[simp] theorem readByte_writeByte_same (m : Memory) (a : Nat) (x : Byte) : readByte (writeByte m a x) a = x := by
  simp [readByte_writeByte]

theorem wf_writeByte {m : Memory} (a : Nat) (x : Byte) (h : m.wf = true) : (writeByte m a x).wf = true := twf_tput 0 a x h

theorem wf_writeBytes {m : Memory} (a : Nat) (bs : List Byte) (h : m.wf = true) : (writeBytes m a bs).wf = true := by
  induction bs generalizing m a with
  | nil => exact h
  | cons b bs ih => exact ih _ (wf_writeByte a b h)

theorem wf_writeMasked {m : Memory} (a : Nat) (bs : List (Byte × Byte)) (h : m.wf = true) : (writeMasked m a bs).wf = true := by
  induction bs generalizing m a with
  | nil => exact h
  | cons c bs ih =>
    obtain ⟨b, k⟩ := c
    simp only [writeMasked]
    split
    · exact ih _ h
    · exact ih _ (wf_writeByte _ _ h)

theorem wf_zeroBytes {m : Memory} (a n : Nat) (h : m.wf = true) : (zeroBytes m a n).wf = true := by
  induction n generalizing m a with
  | zero => exact h
  | succ n ih => exact ih _ (wf_writeByte a 0 h)

theorem wf_filter {m : Memory} (p : Nat × Byte → Bool) (h : m.wf = true) : Memory.wf (m.filter p) = true := twfFrom_filter 0 p h

theorem wf_clearRange {m : Memory} (a b : Nat) (h : m.wf = true) : (clearRange m a b).wf = true := wf_filter _ h

/-- A byte outside the bytes written is as before; a byte inside is what was written. -/
theorem readByte_writeBytes (m : Memory) (a b : Nat) (bs : List Byte) :
    readByte (writeBytes m a bs) b = if a ≤ b ∧ b < a + bs.length then bs.getD (b - a) 0 else readByte m b := by
  induction bs generalizing m a with
  | nil => simp [writeBytes, show ¬(a ≤ b ∧ b < a) by omega]
  | cons c bs ih =>
    simp only [writeBytes, ih, readByte_writeByte, List.length_cons]
    by_cases h1 : a + 1 ≤ b ∧ b < a + 1 + bs.length
    · rw [if_pos h1, if_pos (by omega), show b - a = (b - (a + 1)) + 1 by omega, List.getD_cons_succ]
    · rw [if_neg h1]
      by_cases h2 : b = a
      · subst h2; rw [if_pos rfl, if_pos (by omega), Nat.sub_self, List.getD_cons_zero]
      · rw [if_neg h2, if_neg (by omega)]

theorem readByte_writeBytes_out (m : Memory) {a b : Nat} (bs : List Byte) (h : b < a ∨ a + bs.length ≤ b) :
    readByte (writeBytes m a bs) b = readByte m b := by
  rw [readByte_writeBytes, if_neg (by omega)]

/-- A masked write changes no byte outside its bytes, and no byte whose mask is 0. -/
theorem readByte_writeMasked_out (m : Memory) {a b : Nat} (bs : List (Byte × Byte)) (h : b < a ∨ a + bs.length ≤ b) :
    readByte (writeMasked m a bs) b = readByte m b := by
  induction bs generalizing m a with
  | nil => rfl
  | cons c bs ih =>
    obtain ⟨x, k⟩ := c
    simp only [List.length_cons] at h
    simp only [writeMasked]
    rw [ih _ (by omega)]
    split
    · rfl
    · rw [readByte_writeByte, if_neg (by omega)]

theorem readByte_zeroBytes (m : Memory) (a n b : Nat) : readByte (zeroBytes m a n) b = if a ≤ b ∧ b < a + n then 0 else readByte m b := by
  induction n generalizing m a with
  | zero => simp [zeroBytes, show ¬(a ≤ b ∧ b < a) by omega]
  | succ n ih =>
    simp only [zeroBytes, ih, readByte_writeByte]
    by_cases h1 : a + 1 ≤ b ∧ b < a + 1 + n
    · rw [if_pos h1, if_pos (by omega)]
    · rw [if_neg h1]
      by_cases h2 : b = a
      · subst h2; rw [if_pos rfl, if_pos (by omega)]
      · rw [if_neg h2, if_neg (by omega)]

theorem readByte_clearRange (m : Memory) (a b i : Nat) : readByte (clearRange m a b) i = if a ≤ i ∧ i < b then 0 else readByte m i := by
  unfold readByte clearRange
  induction m with
  | nil => simp [tget]
  | cons c m ih =>
    obtain ⟨k, v⟩ := c
    simp only [List.filter]
    by_cases h : k < a ∨ b ≤ k
    · have : (decide (k < a) || decide (b ≤ k)) = true := by simpa using h
      simp only [this, tget, ih]
      by_cases hk : k = i
      · subst hk; simp [show ¬(a ≤ k ∧ k < b) by omega]
      · simp [hk]
    · have : (decide (k < a) || decide (b ≤ k)) = false := by simpa [not_or] using h
      simp only [this, tget, ih]
      by_cases hk : k = i
      · subst hk; simp [show (a ≤ k ∧ k < b) by omega]
      · simp [hk]

end Sys2Proof.Machine
end

