-- ==== Sys2Proof/Laws/State.lean ====
section
/-!
SUPPORT. What each update of the state leaves alone: one lemma per field per update, and what the updated part reads as.
-/

set_option Elab.async false

namespace Sys2Proof.Machine

/-! s.setCore c k -/

@[simp] theorem setCore_now (s : State) (c : Nat) (k : Core) : (s.setCore c k).now = s.now := rfl
@[simp] theorem setCore_turn (s : State) (c : Nat) (k : Core) : (s.setCore c k).turn = s.turn := rfl
@[simp] theorem setCore_inputs (s : State) (c : Nat) (k : Core) : (s.setCore c k).inputs = s.inputs := rfl
@[simp] theorem setCore_due (s : State) (c : Nat) (k : Core) : (s.setCore c k).due = s.due := rfl
@[simp] theorem setCore_cur (s : State) (c : Nat) (k : Core) : (s.setCore c k).cur = s.cur := rfl
@[simp] theorem setCore_free (s : State) (c : Nat) (k : Core) : (s.setCore c k).free = s.free := rfl
@[simp] theorem setCore_ids (s : State) (c : Nat) (k : Core) : (s.setCore c k).ids = s.ids := rfl
@[simp] theorem setCore_bays (s : State) (c : Nat) (k : Core) : (s.setCore c k).bays = s.bays := rfl
@[simp] theorem setCore_dies (s : State) (c : Nat) (k : Core) : (s.setCore c k).dies = s.dies := rfl
@[simp] theorem setCore_bases (s : State) (c : Nat) (k : Core) : (s.setCore c k).bases = s.bases := rfl
@[simp] theorem setCore_landings (s : State) (c : Nat) (k : Core) : (s.setCore c k).landings = s.landings := rfl
@[simp] theorem setCore_galleries (s : State) (c : Nat) (k : Core) : (s.setCore c k).galleries = s.galleries := rfl
@[simp] theorem setCore_deliveries (s : State) (c : Nat) (k : Core) : (s.setCore c k).deliveries = s.deliveries := rfl
@[simp] theorem setCore_hbm (s : State) (c : Nat) (k : Core) : (s.setCore c k).hbm = s.hbm := rfl
@[simp] theorem setCore_lineClk (s : State) (c : Nat) (k : Core) : (s.setCore c k).lineClk = s.lineClk := rfl
@[simp] theorem setCore_lineKey (s : State) (c : Nat) (k : Core) : (s.setCore c k).lineKey = s.lineKey := rfl
@[simp] theorem setCore_poison (s : State) (c : Nat) (k : Core) : (s.setCore c k).poison = s.poison := rfl
@[simp] theorem setCore_ctxs (s : State) (c : Nat) (k : Core) : (s.setCore c k).ctxs = s.ctxs := rfl
@[simp] theorem setCore_nextCtx (s : State) (c : Nat) (k : Core) : (s.setCore c k).nextCtx = s.nextCtx := rfl
@[simp] theorem setCore_queues (s : State) (c : Nat) (k : Core) : (s.setCore c k).queues = s.queues := rfl
@[simp] theorem setCore_recs (s : State) (c : Nat) (k : Core) : (s.setCore c k).recs = s.recs := rfl
@[simp] theorem setCore_nextRec (s : State) (c : Nat) (k : Core) : (s.setCore c k).nextRec = s.nextRec := rfl
@[simp] theorem setCore_pools (s : State) (c : Nat) (k : Core) : (s.setCore c k).pools = s.pools := rfl
@[simp] theorem setCore_fns (s : State) (c : Nat) (k : Core) : (s.setCore c k).fns = s.fns := rfl
@[simp] theorem setCore_pcfg (s : State) (c : Nat) (k : Core) : (s.setCore c k).pcfg = s.pcfg := rfl
@[simp] theorem setCore_repart (s : State) (c : Nat) (k : Core) : (s.setCore c k).repart = s.repart := rfl
@[simp] theorem setCore_modnum (s : State) (c : Nat) (k : Core) : (s.setCore c k).modnum = s.modnum := rfl
@[simp] theorem setCore_keyVer (s : State) (c : Nat) (k : Core) : (s.setCore c k).keyVer = s.keyVer := rfl
@[simp] theorem setCore_tenantVer (s : State) (c : Nat) (k : Core) : (s.setCore c k).tenantVer = s.tenantVer := rfl
@[simp] theorem setCore_ecwin (s : State) (c : Nat) (k : Core) : (s.setCore c k).ecwin = s.ecwin := rfl
@[simp] theorem setCore_ecthr (s : State) (c : Nat) (k : Core) : (s.setCore c k).ecthr = s.ecthr := rfl
@[simp] theorem setCore_hrthr (s : State) (c : Nat) (k : Core) : (s.setCore c k).hrthr = s.hrthr := rfl
@[simp] theorem setCore_pwrlim (s : State) (c : Nat) (k : Core) : (s.setCore c k).pwrlim = s.pwrlim := rfl
@[simp] theorem setCore_pwrgrp (s : State) (c : Nat) (k : Core) : (s.setCore c k).pwrgrp = s.pwrgrp := rfl
@[simp] theorem setCore_pwrstag (s : State) (c : Nat) (k : Core) : (s.setCore c k).pwrstag = s.pwrstag := rfl
@[simp] theorem setCore_pwrstat (s : State) (c : Nat) (k : Core) : (s.setCore c k).pwrstat = s.pwrstat := rfl
@[simp] theorem setCore_power (s : State) (c : Nat) (k : Core) : (s.setCore c k).power = s.power := rfl
@[simp] theorem setCore_throttle (s : State) (c : Nat) (k : Core) : (s.setCore c k).throttle = s.throttle := rfl
@[simp] theorem setCore_fcnt (s : State) (c : Nat) (k : Core) : (s.setCore c k).fcnt = s.fcnt := rfl
@[simp] theorem setCore_fsel (s : State) (c : Nat) (k : Core) : (s.setCore c k).fsel = s.fsel := rfl
@[simp] theorem setCore_boot (s : State) (c : Nat) (k : Core) : (s.setCore c k).boot = s.boot := rfl
@[simp] theorem setCore_session (s : State) (c : Nat) (k : Core) : (s.setCore c k).session = s.session := rfl
@[simp] theorem setCore_link (s : State) (c : Nat) (k : Core) : (s.setCore c k).link = s.link := rfl
@[simp] theorem setCore_failed (s : State) (c : Nat) (k : Core) : (s.setCore c k).failed = s.failed := rfl
@[simp] theorem setCore_msix (s : State) (c : Nat) (k : Core) : (s.setCore c k).msix = s.msix := rfl
@[simp] theorem setCore_cxlOut (s : State) (c : Nat) (k : Core) : (s.setCore c k).cxlOut = s.cxlOut := rfl
@[simp] theorem setCore_spdmOut (s : State) (c : Nat) (k : Core) : (s.setCore c k).spdmOut = s.spdmOut := rfl
@[simp] theorem setCore_stagOut (s : State) (c : Nat) (k : Core) : (s.setCore c k).stagOut = s.stagOut := rfl
@[simp] theorem setCore_remote (s : State) (c : Nat) (k : Core) : (s.setCore c k).remote = s.remote := rfl
@[simp] theorem setCore_ports (s : State) (c : Nat) (k : Core) : (s.setCore c k).ports = s.ports := rfl
@[simp] theorem setCore_waking (s : State) (c : Nat) (k : Core) : (s.setCore c k).waking = s.waking := rfl

/-! s.modCore c f -/

@[simp] theorem modCore_now (s : State) (c : Nat) (f : Core → Core) : (s.modCore c f).now = s.now := rfl
@[simp] theorem modCore_turn (s : State) (c : Nat) (f : Core → Core) : (s.modCore c f).turn = s.turn := rfl
@[simp] theorem modCore_inputs (s : State) (c : Nat) (f : Core → Core) : (s.modCore c f).inputs = s.inputs := rfl
@[simp] theorem modCore_due (s : State) (c : Nat) (f : Core → Core) : (s.modCore c f).due = s.due := rfl
@[simp] theorem modCore_cur (s : State) (c : Nat) (f : Core → Core) : (s.modCore c f).cur = s.cur := rfl
@[simp] theorem modCore_free (s : State) (c : Nat) (f : Core → Core) : (s.modCore c f).free = s.free := rfl
@[simp] theorem modCore_ids (s : State) (c : Nat) (f : Core → Core) : (s.modCore c f).ids = s.ids := rfl
@[simp] theorem modCore_bays (s : State) (c : Nat) (f : Core → Core) : (s.modCore c f).bays = s.bays := rfl
@[simp] theorem modCore_dies (s : State) (c : Nat) (f : Core → Core) : (s.modCore c f).dies = s.dies := rfl
@[simp] theorem modCore_bases (s : State) (c : Nat) (f : Core → Core) : (s.modCore c f).bases = s.bases := rfl
@[simp] theorem modCore_landings (s : State) (c : Nat) (f : Core → Core) : (s.modCore c f).landings = s.landings := rfl
@[simp] theorem modCore_galleries (s : State) (c : Nat) (f : Core → Core) : (s.modCore c f).galleries = s.galleries := rfl
@[simp] theorem modCore_deliveries (s : State) (c : Nat) (f : Core → Core) : (s.modCore c f).deliveries = s.deliveries := rfl
@[simp] theorem modCore_hbm (s : State) (c : Nat) (f : Core → Core) : (s.modCore c f).hbm = s.hbm := rfl
@[simp] theorem modCore_lineClk (s : State) (c : Nat) (f : Core → Core) : (s.modCore c f).lineClk = s.lineClk := rfl
@[simp] theorem modCore_lineKey (s : State) (c : Nat) (f : Core → Core) : (s.modCore c f).lineKey = s.lineKey := rfl
@[simp] theorem modCore_poison (s : State) (c : Nat) (f : Core → Core) : (s.modCore c f).poison = s.poison := rfl
@[simp] theorem modCore_ctxs (s : State) (c : Nat) (f : Core → Core) : (s.modCore c f).ctxs = s.ctxs := rfl
@[simp] theorem modCore_nextCtx (s : State) (c : Nat) (f : Core → Core) : (s.modCore c f).nextCtx = s.nextCtx := rfl
@[simp] theorem modCore_queues (s : State) (c : Nat) (f : Core → Core) : (s.modCore c f).queues = s.queues := rfl
@[simp] theorem modCore_recs (s : State) (c : Nat) (f : Core → Core) : (s.modCore c f).recs = s.recs := rfl
@[simp] theorem modCore_nextRec (s : State) (c : Nat) (f : Core → Core) : (s.modCore c f).nextRec = s.nextRec := rfl
@[simp] theorem modCore_pools (s : State) (c : Nat) (f : Core → Core) : (s.modCore c f).pools = s.pools := rfl
@[simp] theorem modCore_fns (s : State) (c : Nat) (f : Core → Core) : (s.modCore c f).fns = s.fns := rfl
@[simp] theorem modCore_pcfg (s : State) (c : Nat) (f : Core → Core) : (s.modCore c f).pcfg = s.pcfg := rfl
@[simp] theorem modCore_repart (s : State) (c : Nat) (f : Core → Core) : (s.modCore c f).repart = s.repart := rfl
@[simp] theorem modCore_modnum (s : State) (c : Nat) (f : Core → Core) : (s.modCore c f).modnum = s.modnum := rfl
@[simp] theorem modCore_keyVer (s : State) (c : Nat) (f : Core → Core) : (s.modCore c f).keyVer = s.keyVer := rfl
@[simp] theorem modCore_tenantVer (s : State) (c : Nat) (f : Core → Core) : (s.modCore c f).tenantVer = s.tenantVer := rfl
@[simp] theorem modCore_ecwin (s : State) (c : Nat) (f : Core → Core) : (s.modCore c f).ecwin = s.ecwin := rfl
@[simp] theorem modCore_ecthr (s : State) (c : Nat) (f : Core → Core) : (s.modCore c f).ecthr = s.ecthr := rfl
@[simp] theorem modCore_hrthr (s : State) (c : Nat) (f : Core → Core) : (s.modCore c f).hrthr = s.hrthr := rfl
@[simp] theorem modCore_pwrlim (s : State) (c : Nat) (f : Core → Core) : (s.modCore c f).pwrlim = s.pwrlim := rfl
@[simp] theorem modCore_pwrgrp (s : State) (c : Nat) (f : Core → Core) : (s.modCore c f).pwrgrp = s.pwrgrp := rfl
@[simp] theorem modCore_pwrstag (s : State) (c : Nat) (f : Core → Core) : (s.modCore c f).pwrstag = s.pwrstag := rfl
@[simp] theorem modCore_pwrstat (s : State) (c : Nat) (f : Core → Core) : (s.modCore c f).pwrstat = s.pwrstat := rfl
@[simp] theorem modCore_power (s : State) (c : Nat) (f : Core → Core) : (s.modCore c f).power = s.power := rfl
@[simp] theorem modCore_throttle (s : State) (c : Nat) (f : Core → Core) : (s.modCore c f).throttle = s.throttle := rfl
@[simp] theorem modCore_fcnt (s : State) (c : Nat) (f : Core → Core) : (s.modCore c f).fcnt = s.fcnt := rfl
@[simp] theorem modCore_fsel (s : State) (c : Nat) (f : Core → Core) : (s.modCore c f).fsel = s.fsel := rfl
@[simp] theorem modCore_boot (s : State) (c : Nat) (f : Core → Core) : (s.modCore c f).boot = s.boot := rfl
@[simp] theorem modCore_session (s : State) (c : Nat) (f : Core → Core) : (s.modCore c f).session = s.session := rfl
@[simp] theorem modCore_link (s : State) (c : Nat) (f : Core → Core) : (s.modCore c f).link = s.link := rfl
@[simp] theorem modCore_failed (s : State) (c : Nat) (f : Core → Core) : (s.modCore c f).failed = s.failed := rfl
@[simp] theorem modCore_msix (s : State) (c : Nat) (f : Core → Core) : (s.modCore c f).msix = s.msix := rfl
@[simp] theorem modCore_cxlOut (s : State) (c : Nat) (f : Core → Core) : (s.modCore c f).cxlOut = s.cxlOut := rfl
@[simp] theorem modCore_spdmOut (s : State) (c : Nat) (f : Core → Core) : (s.modCore c f).spdmOut = s.spdmOut := rfl
@[simp] theorem modCore_stagOut (s : State) (c : Nat) (f : Core → Core) : (s.modCore c f).stagOut = s.stagOut := rfl
@[simp] theorem modCore_remote (s : State) (c : Nat) (f : Core → Core) : (s.modCore c f).remote = s.remote := rfl
@[simp] theorem modCore_ports (s : State) (c : Nat) (f : Core → Core) : (s.modCore c f).ports = s.ports := rfl
@[simp] theorem modCore_waking (s : State) (c : Nat) (f : Core → Core) : (s.modCore c f).waking = s.waking := rfl

/-! s.modJob c f -/

@[simp] theorem modJob_now (s : State) (c : Nat) (f : Job → Job) : (s.modJob c f).now = s.now := rfl
@[simp] theorem modJob_turn (s : State) (c : Nat) (f : Job → Job) : (s.modJob c f).turn = s.turn := rfl
@[simp] theorem modJob_inputs (s : State) (c : Nat) (f : Job → Job) : (s.modJob c f).inputs = s.inputs := rfl
@[simp] theorem modJob_due (s : State) (c : Nat) (f : Job → Job) : (s.modJob c f).due = s.due := rfl
@[simp] theorem modJob_cur (s : State) (c : Nat) (f : Job → Job) : (s.modJob c f).cur = s.cur := rfl
@[simp] theorem modJob_free (s : State) (c : Nat) (f : Job → Job) : (s.modJob c f).free = s.free := rfl
@[simp] theorem modJob_ids (s : State) (c : Nat) (f : Job → Job) : (s.modJob c f).ids = s.ids := rfl
@[simp] theorem modJob_bays (s : State) (c : Nat) (f : Job → Job) : (s.modJob c f).bays = s.bays := rfl
@[simp] theorem modJob_dies (s : State) (c : Nat) (f : Job → Job) : (s.modJob c f).dies = s.dies := rfl
@[simp] theorem modJob_bases (s : State) (c : Nat) (f : Job → Job) : (s.modJob c f).bases = s.bases := rfl
@[simp] theorem modJob_landings (s : State) (c : Nat) (f : Job → Job) : (s.modJob c f).landings = s.landings := rfl
@[simp] theorem modJob_galleries (s : State) (c : Nat) (f : Job → Job) : (s.modJob c f).galleries = s.galleries := rfl
@[simp] theorem modJob_deliveries (s : State) (c : Nat) (f : Job → Job) : (s.modJob c f).deliveries = s.deliveries := rfl
@[simp] theorem modJob_hbm (s : State) (c : Nat) (f : Job → Job) : (s.modJob c f).hbm = s.hbm := rfl
@[simp] theorem modJob_lineClk (s : State) (c : Nat) (f : Job → Job) : (s.modJob c f).lineClk = s.lineClk := rfl
@[simp] theorem modJob_lineKey (s : State) (c : Nat) (f : Job → Job) : (s.modJob c f).lineKey = s.lineKey := rfl
@[simp] theorem modJob_poison (s : State) (c : Nat) (f : Job → Job) : (s.modJob c f).poison = s.poison := rfl
@[simp] theorem modJob_ctxs (s : State) (c : Nat) (f : Job → Job) : (s.modJob c f).ctxs = s.ctxs := rfl
@[simp] theorem modJob_nextCtx (s : State) (c : Nat) (f : Job → Job) : (s.modJob c f).nextCtx = s.nextCtx := rfl
@[simp] theorem modJob_queues (s : State) (c : Nat) (f : Job → Job) : (s.modJob c f).queues = s.queues := rfl
@[simp] theorem modJob_recs (s : State) (c : Nat) (f : Job → Job) : (s.modJob c f).recs = s.recs := rfl
@[simp] theorem modJob_nextRec (s : State) (c : Nat) (f : Job → Job) : (s.modJob c f).nextRec = s.nextRec := rfl
@[simp] theorem modJob_pools (s : State) (c : Nat) (f : Job → Job) : (s.modJob c f).pools = s.pools := rfl
@[simp] theorem modJob_fns (s : State) (c : Nat) (f : Job → Job) : (s.modJob c f).fns = s.fns := rfl
@[simp] theorem modJob_pcfg (s : State) (c : Nat) (f : Job → Job) : (s.modJob c f).pcfg = s.pcfg := rfl
@[simp] theorem modJob_repart (s : State) (c : Nat) (f : Job → Job) : (s.modJob c f).repart = s.repart := rfl
@[simp] theorem modJob_modnum (s : State) (c : Nat) (f : Job → Job) : (s.modJob c f).modnum = s.modnum := rfl
@[simp] theorem modJob_keyVer (s : State) (c : Nat) (f : Job → Job) : (s.modJob c f).keyVer = s.keyVer := rfl
@[simp] theorem modJob_tenantVer (s : State) (c : Nat) (f : Job → Job) : (s.modJob c f).tenantVer = s.tenantVer := rfl
@[simp] theorem modJob_ecwin (s : State) (c : Nat) (f : Job → Job) : (s.modJob c f).ecwin = s.ecwin := rfl
@[simp] theorem modJob_ecthr (s : State) (c : Nat) (f : Job → Job) : (s.modJob c f).ecthr = s.ecthr := rfl
@[simp] theorem modJob_hrthr (s : State) (c : Nat) (f : Job → Job) : (s.modJob c f).hrthr = s.hrthr := rfl
@[simp] theorem modJob_pwrlim (s : State) (c : Nat) (f : Job → Job) : (s.modJob c f).pwrlim = s.pwrlim := rfl
@[simp] theorem modJob_pwrgrp (s : State) (c : Nat) (f : Job → Job) : (s.modJob c f).pwrgrp = s.pwrgrp := rfl
@[simp] theorem modJob_pwrstag (s : State) (c : Nat) (f : Job → Job) : (s.modJob c f).pwrstag = s.pwrstag := rfl
@[simp] theorem modJob_pwrstat (s : State) (c : Nat) (f : Job → Job) : (s.modJob c f).pwrstat = s.pwrstat := rfl
@[simp] theorem modJob_power (s : State) (c : Nat) (f : Job → Job) : (s.modJob c f).power = s.power := rfl
@[simp] theorem modJob_throttle (s : State) (c : Nat) (f : Job → Job) : (s.modJob c f).throttle = s.throttle := rfl
@[simp] theorem modJob_fcnt (s : State) (c : Nat) (f : Job → Job) : (s.modJob c f).fcnt = s.fcnt := rfl
@[simp] theorem modJob_fsel (s : State) (c : Nat) (f : Job → Job) : (s.modJob c f).fsel = s.fsel := rfl
@[simp] theorem modJob_boot (s : State) (c : Nat) (f : Job → Job) : (s.modJob c f).boot = s.boot := rfl
@[simp] theorem modJob_session (s : State) (c : Nat) (f : Job → Job) : (s.modJob c f).session = s.session := rfl
@[simp] theorem modJob_link (s : State) (c : Nat) (f : Job → Job) : (s.modJob c f).link = s.link := rfl
@[simp] theorem modJob_failed (s : State) (c : Nat) (f : Job → Job) : (s.modJob c f).failed = s.failed := rfl
@[simp] theorem modJob_msix (s : State) (c : Nat) (f : Job → Job) : (s.modJob c f).msix = s.msix := rfl
@[simp] theorem modJob_cxlOut (s : State) (c : Nat) (f : Job → Job) : (s.modJob c f).cxlOut = s.cxlOut := rfl
@[simp] theorem modJob_spdmOut (s : State) (c : Nat) (f : Job → Job) : (s.modJob c f).spdmOut = s.spdmOut := rfl
@[simp] theorem modJob_stagOut (s : State) (c : Nat) (f : Job → Job) : (s.modJob c f).stagOut = s.stagOut := rfl
@[simp] theorem modJob_remote (s : State) (c : Nat) (f : Job → Job) : (s.modJob c f).remote = s.remote := rfl
@[simp] theorem modJob_ports (s : State) (c : Nat) (f : Job → Job) : (s.modJob c f).ports = s.ports := rfl
@[simp] theorem modJob_waking (s : State) (c : Nat) (f : Job → Job) : (s.modJob c f).waking = s.waking := rfl

/-! s.modStrm c x f -/

@[simp] theorem modStrm_now (s : State) (c : Nat) (x : Strm) (f : Stream → Stream) : (s.modStrm c x f).now = s.now := rfl
@[simp] theorem modStrm_turn (s : State) (c : Nat) (x : Strm) (f : Stream → Stream) : (s.modStrm c x f).turn = s.turn := rfl
@[simp] theorem modStrm_inputs (s : State) (c : Nat) (x : Strm) (f : Stream → Stream) : (s.modStrm c x f).inputs = s.inputs := rfl
@[simp] theorem modStrm_due (s : State) (c : Nat) (x : Strm) (f : Stream → Stream) : (s.modStrm c x f).due = s.due := rfl
@[simp] theorem modStrm_cur (s : State) (c : Nat) (x : Strm) (f : Stream → Stream) : (s.modStrm c x f).cur = s.cur := rfl
@[simp] theorem modStrm_free (s : State) (c : Nat) (x : Strm) (f : Stream → Stream) : (s.modStrm c x f).free = s.free := rfl
@[simp] theorem modStrm_ids (s : State) (c : Nat) (x : Strm) (f : Stream → Stream) : (s.modStrm c x f).ids = s.ids := rfl
@[simp] theorem modStrm_bays (s : State) (c : Nat) (x : Strm) (f : Stream → Stream) : (s.modStrm c x f).bays = s.bays := rfl
@[simp] theorem modStrm_dies (s : State) (c : Nat) (x : Strm) (f : Stream → Stream) : (s.modStrm c x f).dies = s.dies := rfl
@[simp] theorem modStrm_bases (s : State) (c : Nat) (x : Strm) (f : Stream → Stream) : (s.modStrm c x f).bases = s.bases := rfl
@[simp] theorem modStrm_landings (s : State) (c : Nat) (x : Strm) (f : Stream → Stream) : (s.modStrm c x f).landings = s.landings := rfl
@[simp] theorem modStrm_galleries (s : State) (c : Nat) (x : Strm) (f : Stream → Stream) : (s.modStrm c x f).galleries = s.galleries := rfl
@[simp] theorem modStrm_deliveries (s : State) (c : Nat) (x : Strm) (f : Stream → Stream) : (s.modStrm c x f).deliveries = s.deliveries := rfl
@[simp] theorem modStrm_hbm (s : State) (c : Nat) (x : Strm) (f : Stream → Stream) : (s.modStrm c x f).hbm = s.hbm := rfl
@[simp] theorem modStrm_lineClk (s : State) (c : Nat) (x : Strm) (f : Stream → Stream) : (s.modStrm c x f).lineClk = s.lineClk := rfl
@[simp] theorem modStrm_lineKey (s : State) (c : Nat) (x : Strm) (f : Stream → Stream) : (s.modStrm c x f).lineKey = s.lineKey := rfl
@[simp] theorem modStrm_poison (s : State) (c : Nat) (x : Strm) (f : Stream → Stream) : (s.modStrm c x f).poison = s.poison := rfl
@[simp] theorem modStrm_ctxs (s : State) (c : Nat) (x : Strm) (f : Stream → Stream) : (s.modStrm c x f).ctxs = s.ctxs := rfl
@[simp] theorem modStrm_nextCtx (s : State) (c : Nat) (x : Strm) (f : Stream → Stream) : (s.modStrm c x f).nextCtx = s.nextCtx := rfl
@[simp] theorem modStrm_queues (s : State) (c : Nat) (x : Strm) (f : Stream → Stream) : (s.modStrm c x f).queues = s.queues := rfl
@[simp] theorem modStrm_recs (s : State) (c : Nat) (x : Strm) (f : Stream → Stream) : (s.modStrm c x f).recs = s.recs := rfl
@[simp] theorem modStrm_nextRec (s : State) (c : Nat) (x : Strm) (f : Stream → Stream) : (s.modStrm c x f).nextRec = s.nextRec := rfl
@[simp] theorem modStrm_pools (s : State) (c : Nat) (x : Strm) (f : Stream → Stream) : (s.modStrm c x f).pools = s.pools := rfl
@[simp] theorem modStrm_fns (s : State) (c : Nat) (x : Strm) (f : Stream → Stream) : (s.modStrm c x f).fns = s.fns := rfl
@[simp] theorem modStrm_pcfg (s : State) (c : Nat) (x : Strm) (f : Stream → Stream) : (s.modStrm c x f).pcfg = s.pcfg := rfl
@[simp] theorem modStrm_repart (s : State) (c : Nat) (x : Strm) (f : Stream → Stream) : (s.modStrm c x f).repart = s.repart := rfl
@[simp] theorem modStrm_modnum (s : State) (c : Nat) (x : Strm) (f : Stream → Stream) : (s.modStrm c x f).modnum = s.modnum := rfl
@[simp] theorem modStrm_keyVer (s : State) (c : Nat) (x : Strm) (f : Stream → Stream) : (s.modStrm c x f).keyVer = s.keyVer := rfl
@[simp] theorem modStrm_tenantVer (s : State) (c : Nat) (x : Strm) (f : Stream → Stream) : (s.modStrm c x f).tenantVer = s.tenantVer := rfl
@[simp] theorem modStrm_ecwin (s : State) (c : Nat) (x : Strm) (f : Stream → Stream) : (s.modStrm c x f).ecwin = s.ecwin := rfl
@[simp] theorem modStrm_ecthr (s : State) (c : Nat) (x : Strm) (f : Stream → Stream) : (s.modStrm c x f).ecthr = s.ecthr := rfl
@[simp] theorem modStrm_hrthr (s : State) (c : Nat) (x : Strm) (f : Stream → Stream) : (s.modStrm c x f).hrthr = s.hrthr := rfl
@[simp] theorem modStrm_pwrlim (s : State) (c : Nat) (x : Strm) (f : Stream → Stream) : (s.modStrm c x f).pwrlim = s.pwrlim := rfl
@[simp] theorem modStrm_pwrgrp (s : State) (c : Nat) (x : Strm) (f : Stream → Stream) : (s.modStrm c x f).pwrgrp = s.pwrgrp := rfl
@[simp] theorem modStrm_pwrstag (s : State) (c : Nat) (x : Strm) (f : Stream → Stream) : (s.modStrm c x f).pwrstag = s.pwrstag := rfl
@[simp] theorem modStrm_pwrstat (s : State) (c : Nat) (x : Strm) (f : Stream → Stream) : (s.modStrm c x f).pwrstat = s.pwrstat := rfl
@[simp] theorem modStrm_power (s : State) (c : Nat) (x : Strm) (f : Stream → Stream) : (s.modStrm c x f).power = s.power := rfl
@[simp] theorem modStrm_throttle (s : State) (c : Nat) (x : Strm) (f : Stream → Stream) : (s.modStrm c x f).throttle = s.throttle := rfl
@[simp] theorem modStrm_fcnt (s : State) (c : Nat) (x : Strm) (f : Stream → Stream) : (s.modStrm c x f).fcnt = s.fcnt := rfl
@[simp] theorem modStrm_fsel (s : State) (c : Nat) (x : Strm) (f : Stream → Stream) : (s.modStrm c x f).fsel = s.fsel := rfl
@[simp] theorem modStrm_boot (s : State) (c : Nat) (x : Strm) (f : Stream → Stream) : (s.modStrm c x f).boot = s.boot := rfl
@[simp] theorem modStrm_session (s : State) (c : Nat) (x : Strm) (f : Stream → Stream) : (s.modStrm c x f).session = s.session := rfl
@[simp] theorem modStrm_link (s : State) (c : Nat) (x : Strm) (f : Stream → Stream) : (s.modStrm c x f).link = s.link := rfl
@[simp] theorem modStrm_failed (s : State) (c : Nat) (x : Strm) (f : Stream → Stream) : (s.modStrm c x f).failed = s.failed := rfl
@[simp] theorem modStrm_msix (s : State) (c : Nat) (x : Strm) (f : Stream → Stream) : (s.modStrm c x f).msix = s.msix := rfl
@[simp] theorem modStrm_cxlOut (s : State) (c : Nat) (x : Strm) (f : Stream → Stream) : (s.modStrm c x f).cxlOut = s.cxlOut := rfl
@[simp] theorem modStrm_spdmOut (s : State) (c : Nat) (x : Strm) (f : Stream → Stream) : (s.modStrm c x f).spdmOut = s.spdmOut := rfl
@[simp] theorem modStrm_stagOut (s : State) (c : Nat) (x : Strm) (f : Stream → Stream) : (s.modStrm c x f).stagOut = s.stagOut := rfl
@[simp] theorem modStrm_remote (s : State) (c : Nat) (x : Strm) (f : Stream → Stream) : (s.modStrm c x f).remote = s.remote := rfl
@[simp] theorem modStrm_ports (s : State) (c : Nat) (x : Strm) (f : Stream → Stream) : (s.modStrm c x f).ports = s.ports := rfl
@[simp] theorem modStrm_waking (s : State) (c : Nat) (x : Strm) (f : Stream → Stream) : (s.modStrm c x f).waking = s.waking := rfl

/-! s.modBay b f -/

@[simp] theorem modBay_now (s : State) (b : Nat) (f : Bay → Bay) : (s.modBay b f).now = s.now := rfl
@[simp] theorem modBay_turn (s : State) (b : Nat) (f : Bay → Bay) : (s.modBay b f).turn = s.turn := rfl
@[simp] theorem modBay_inputs (s : State) (b : Nat) (f : Bay → Bay) : (s.modBay b f).inputs = s.inputs := rfl
@[simp] theorem modBay_due (s : State) (b : Nat) (f : Bay → Bay) : (s.modBay b f).due = s.due := rfl
@[simp] theorem modBay_cur (s : State) (b : Nat) (f : Bay → Bay) : (s.modBay b f).cur = s.cur := rfl
@[simp] theorem modBay_free (s : State) (b : Nat) (f : Bay → Bay) : (s.modBay b f).free = s.free := rfl
@[simp] theorem modBay_ids (s : State) (b : Nat) (f : Bay → Bay) : (s.modBay b f).ids = s.ids := rfl
@[simp] theorem modBay_cores (s : State) (b : Nat) (f : Bay → Bay) : (s.modBay b f).cores = s.cores := rfl
@[simp] theorem modBay_dies (s : State) (b : Nat) (f : Bay → Bay) : (s.modBay b f).dies = s.dies := rfl
@[simp] theorem modBay_bases (s : State) (b : Nat) (f : Bay → Bay) : (s.modBay b f).bases = s.bases := rfl
@[simp] theorem modBay_landings (s : State) (b : Nat) (f : Bay → Bay) : (s.modBay b f).landings = s.landings := rfl
@[simp] theorem modBay_galleries (s : State) (b : Nat) (f : Bay → Bay) : (s.modBay b f).galleries = s.galleries := rfl
@[simp] theorem modBay_deliveries (s : State) (b : Nat) (f : Bay → Bay) : (s.modBay b f).deliveries = s.deliveries := rfl
@[simp] theorem modBay_hbm (s : State) (b : Nat) (f : Bay → Bay) : (s.modBay b f).hbm = s.hbm := rfl
@[simp] theorem modBay_lineClk (s : State) (b : Nat) (f : Bay → Bay) : (s.modBay b f).lineClk = s.lineClk := rfl
@[simp] theorem modBay_lineKey (s : State) (b : Nat) (f : Bay → Bay) : (s.modBay b f).lineKey = s.lineKey := rfl
@[simp] theorem modBay_poison (s : State) (b : Nat) (f : Bay → Bay) : (s.modBay b f).poison = s.poison := rfl
@[simp] theorem modBay_ctxs (s : State) (b : Nat) (f : Bay → Bay) : (s.modBay b f).ctxs = s.ctxs := rfl
@[simp] theorem modBay_nextCtx (s : State) (b : Nat) (f : Bay → Bay) : (s.modBay b f).nextCtx = s.nextCtx := rfl
@[simp] theorem modBay_queues (s : State) (b : Nat) (f : Bay → Bay) : (s.modBay b f).queues = s.queues := rfl
@[simp] theorem modBay_recs (s : State) (b : Nat) (f : Bay → Bay) : (s.modBay b f).recs = s.recs := rfl
@[simp] theorem modBay_nextRec (s : State) (b : Nat) (f : Bay → Bay) : (s.modBay b f).nextRec = s.nextRec := rfl
@[simp] theorem modBay_pools (s : State) (b : Nat) (f : Bay → Bay) : (s.modBay b f).pools = s.pools := rfl
@[simp] theorem modBay_fns (s : State) (b : Nat) (f : Bay → Bay) : (s.modBay b f).fns = s.fns := rfl
@[simp] theorem modBay_pcfg (s : State) (b : Nat) (f : Bay → Bay) : (s.modBay b f).pcfg = s.pcfg := rfl
@[simp] theorem modBay_repart (s : State) (b : Nat) (f : Bay → Bay) : (s.modBay b f).repart = s.repart := rfl
@[simp] theorem modBay_modnum (s : State) (b : Nat) (f : Bay → Bay) : (s.modBay b f).modnum = s.modnum := rfl
@[simp] theorem modBay_keyVer (s : State) (b : Nat) (f : Bay → Bay) : (s.modBay b f).keyVer = s.keyVer := rfl
@[simp] theorem modBay_tenantVer (s : State) (b : Nat) (f : Bay → Bay) : (s.modBay b f).tenantVer = s.tenantVer := rfl
@[simp] theorem modBay_ecwin (s : State) (b : Nat) (f : Bay → Bay) : (s.modBay b f).ecwin = s.ecwin := rfl
@[simp] theorem modBay_ecthr (s : State) (b : Nat) (f : Bay → Bay) : (s.modBay b f).ecthr = s.ecthr := rfl
@[simp] theorem modBay_hrthr (s : State) (b : Nat) (f : Bay → Bay) : (s.modBay b f).hrthr = s.hrthr := rfl
@[simp] theorem modBay_pwrlim (s : State) (b : Nat) (f : Bay → Bay) : (s.modBay b f).pwrlim = s.pwrlim := rfl
@[simp] theorem modBay_pwrgrp (s : State) (b : Nat) (f : Bay → Bay) : (s.modBay b f).pwrgrp = s.pwrgrp := rfl
@[simp] theorem modBay_pwrstag (s : State) (b : Nat) (f : Bay → Bay) : (s.modBay b f).pwrstag = s.pwrstag := rfl
@[simp] theorem modBay_pwrstat (s : State) (b : Nat) (f : Bay → Bay) : (s.modBay b f).pwrstat = s.pwrstat := rfl
@[simp] theorem modBay_power (s : State) (b : Nat) (f : Bay → Bay) : (s.modBay b f).power = s.power := rfl
@[simp] theorem modBay_throttle (s : State) (b : Nat) (f : Bay → Bay) : (s.modBay b f).throttle = s.throttle := rfl
@[simp] theorem modBay_fcnt (s : State) (b : Nat) (f : Bay → Bay) : (s.modBay b f).fcnt = s.fcnt := rfl
@[simp] theorem modBay_fsel (s : State) (b : Nat) (f : Bay → Bay) : (s.modBay b f).fsel = s.fsel := rfl
@[simp] theorem modBay_boot (s : State) (b : Nat) (f : Bay → Bay) : (s.modBay b f).boot = s.boot := rfl
@[simp] theorem modBay_session (s : State) (b : Nat) (f : Bay → Bay) : (s.modBay b f).session = s.session := rfl
@[simp] theorem modBay_link (s : State) (b : Nat) (f : Bay → Bay) : (s.modBay b f).link = s.link := rfl
@[simp] theorem modBay_failed (s : State) (b : Nat) (f : Bay → Bay) : (s.modBay b f).failed = s.failed := rfl
@[simp] theorem modBay_msix (s : State) (b : Nat) (f : Bay → Bay) : (s.modBay b f).msix = s.msix := rfl
@[simp] theorem modBay_cxlOut (s : State) (b : Nat) (f : Bay → Bay) : (s.modBay b f).cxlOut = s.cxlOut := rfl
@[simp] theorem modBay_spdmOut (s : State) (b : Nat) (f : Bay → Bay) : (s.modBay b f).spdmOut = s.spdmOut := rfl
@[simp] theorem modBay_stagOut (s : State) (b : Nat) (f : Bay → Bay) : (s.modBay b f).stagOut = s.stagOut := rfl
@[simp] theorem modBay_remote (s : State) (b : Nat) (f : Bay → Bay) : (s.modBay b f).remote = s.remote := rfl
@[simp] theorem modBay_ports (s : State) (b : Nat) (f : Bay → Bay) : (s.modBay b f).ports = s.ports := rfl
@[simp] theorem modBay_waking (s : State) (b : Nat) (f : Bay → Bay) : (s.modBay b f).waking = s.waking := rfl

/-! s.modDie d f -/

@[simp] theorem modDie_now (s : State) (d : Nat) (f : Die → Die) : (s.modDie d f).now = s.now := rfl
@[simp] theorem modDie_turn (s : State) (d : Nat) (f : Die → Die) : (s.modDie d f).turn = s.turn := rfl
@[simp] theorem modDie_inputs (s : State) (d : Nat) (f : Die → Die) : (s.modDie d f).inputs = s.inputs := rfl
@[simp] theorem modDie_due (s : State) (d : Nat) (f : Die → Die) : (s.modDie d f).due = s.due := rfl
@[simp] theorem modDie_cur (s : State) (d : Nat) (f : Die → Die) : (s.modDie d f).cur = s.cur := rfl
@[simp] theorem modDie_free (s : State) (d : Nat) (f : Die → Die) : (s.modDie d f).free = s.free := rfl
@[simp] theorem modDie_ids (s : State) (d : Nat) (f : Die → Die) : (s.modDie d f).ids = s.ids := rfl
@[simp] theorem modDie_cores (s : State) (d : Nat) (f : Die → Die) : (s.modDie d f).cores = s.cores := rfl
@[simp] theorem modDie_bays (s : State) (d : Nat) (f : Die → Die) : (s.modDie d f).bays = s.bays := rfl
@[simp] theorem modDie_bases (s : State) (d : Nat) (f : Die → Die) : (s.modDie d f).bases = s.bases := rfl
@[simp] theorem modDie_landings (s : State) (d : Nat) (f : Die → Die) : (s.modDie d f).landings = s.landings := rfl
@[simp] theorem modDie_galleries (s : State) (d : Nat) (f : Die → Die) : (s.modDie d f).galleries = s.galleries := rfl
@[simp] theorem modDie_deliveries (s : State) (d : Nat) (f : Die → Die) : (s.modDie d f).deliveries = s.deliveries := rfl
@[simp] theorem modDie_hbm (s : State) (d : Nat) (f : Die → Die) : (s.modDie d f).hbm = s.hbm := rfl
@[simp] theorem modDie_lineClk (s : State) (d : Nat) (f : Die → Die) : (s.modDie d f).lineClk = s.lineClk := rfl
@[simp] theorem modDie_lineKey (s : State) (d : Nat) (f : Die → Die) : (s.modDie d f).lineKey = s.lineKey := rfl
@[simp] theorem modDie_poison (s : State) (d : Nat) (f : Die → Die) : (s.modDie d f).poison = s.poison := rfl
@[simp] theorem modDie_ctxs (s : State) (d : Nat) (f : Die → Die) : (s.modDie d f).ctxs = s.ctxs := rfl
@[simp] theorem modDie_nextCtx (s : State) (d : Nat) (f : Die → Die) : (s.modDie d f).nextCtx = s.nextCtx := rfl
@[simp] theorem modDie_queues (s : State) (d : Nat) (f : Die → Die) : (s.modDie d f).queues = s.queues := rfl
@[simp] theorem modDie_recs (s : State) (d : Nat) (f : Die → Die) : (s.modDie d f).recs = s.recs := rfl
@[simp] theorem modDie_nextRec (s : State) (d : Nat) (f : Die → Die) : (s.modDie d f).nextRec = s.nextRec := rfl
@[simp] theorem modDie_pools (s : State) (d : Nat) (f : Die → Die) : (s.modDie d f).pools = s.pools := rfl
@[simp] theorem modDie_fns (s : State) (d : Nat) (f : Die → Die) : (s.modDie d f).fns = s.fns := rfl
@[simp] theorem modDie_pcfg (s : State) (d : Nat) (f : Die → Die) : (s.modDie d f).pcfg = s.pcfg := rfl
@[simp] theorem modDie_repart (s : State) (d : Nat) (f : Die → Die) : (s.modDie d f).repart = s.repart := rfl
@[simp] theorem modDie_modnum (s : State) (d : Nat) (f : Die → Die) : (s.modDie d f).modnum = s.modnum := rfl
@[simp] theorem modDie_keyVer (s : State) (d : Nat) (f : Die → Die) : (s.modDie d f).keyVer = s.keyVer := rfl
@[simp] theorem modDie_tenantVer (s : State) (d : Nat) (f : Die → Die) : (s.modDie d f).tenantVer = s.tenantVer := rfl
@[simp] theorem modDie_ecwin (s : State) (d : Nat) (f : Die → Die) : (s.modDie d f).ecwin = s.ecwin := rfl
@[simp] theorem modDie_ecthr (s : State) (d : Nat) (f : Die → Die) : (s.modDie d f).ecthr = s.ecthr := rfl
@[simp] theorem modDie_hrthr (s : State) (d : Nat) (f : Die → Die) : (s.modDie d f).hrthr = s.hrthr := rfl
@[simp] theorem modDie_pwrlim (s : State) (d : Nat) (f : Die → Die) : (s.modDie d f).pwrlim = s.pwrlim := rfl
@[simp] theorem modDie_pwrgrp (s : State) (d : Nat) (f : Die → Die) : (s.modDie d f).pwrgrp = s.pwrgrp := rfl
@[simp] theorem modDie_pwrstag (s : State) (d : Nat) (f : Die → Die) : (s.modDie d f).pwrstag = s.pwrstag := rfl
@[simp] theorem modDie_pwrstat (s : State) (d : Nat) (f : Die → Die) : (s.modDie d f).pwrstat = s.pwrstat := rfl
@[simp] theorem modDie_power (s : State) (d : Nat) (f : Die → Die) : (s.modDie d f).power = s.power := rfl
@[simp] theorem modDie_throttle (s : State) (d : Nat) (f : Die → Die) : (s.modDie d f).throttle = s.throttle := rfl
@[simp] theorem modDie_fcnt (s : State) (d : Nat) (f : Die → Die) : (s.modDie d f).fcnt = s.fcnt := rfl
@[simp] theorem modDie_fsel (s : State) (d : Nat) (f : Die → Die) : (s.modDie d f).fsel = s.fsel := rfl
@[simp] theorem modDie_boot (s : State) (d : Nat) (f : Die → Die) : (s.modDie d f).boot = s.boot := rfl
@[simp] theorem modDie_session (s : State) (d : Nat) (f : Die → Die) : (s.modDie d f).session = s.session := rfl
@[simp] theorem modDie_link (s : State) (d : Nat) (f : Die → Die) : (s.modDie d f).link = s.link := rfl
@[simp] theorem modDie_failed (s : State) (d : Nat) (f : Die → Die) : (s.modDie d f).failed = s.failed := rfl
@[simp] theorem modDie_msix (s : State) (d : Nat) (f : Die → Die) : (s.modDie d f).msix = s.msix := rfl
@[simp] theorem modDie_cxlOut (s : State) (d : Nat) (f : Die → Die) : (s.modDie d f).cxlOut = s.cxlOut := rfl
@[simp] theorem modDie_spdmOut (s : State) (d : Nat) (f : Die → Die) : (s.modDie d f).spdmOut = s.spdmOut := rfl
@[simp] theorem modDie_stagOut (s : State) (d : Nat) (f : Die → Die) : (s.modDie d f).stagOut = s.stagOut := rfl
@[simp] theorem modDie_remote (s : State) (d : Nat) (f : Die → Die) : (s.modDie d f).remote = s.remote := rfl
@[simp] theorem modDie_ports (s : State) (d : Nat) (f : Die → Die) : (s.modDie d f).ports = s.ports := rfl
@[simp] theorem modDie_waking (s : State) (d : Nat) (f : Die → Die) : (s.modDie d f).waking = s.waking := rfl

/-! s.modBase b f -/

@[simp] theorem modBase_now (s : State) (b : Nat) (f : Base → Base) : (s.modBase b f).now = s.now := rfl
@[simp] theorem modBase_turn (s : State) (b : Nat) (f : Base → Base) : (s.modBase b f).turn = s.turn := rfl
@[simp] theorem modBase_inputs (s : State) (b : Nat) (f : Base → Base) : (s.modBase b f).inputs = s.inputs := rfl
@[simp] theorem modBase_due (s : State) (b : Nat) (f : Base → Base) : (s.modBase b f).due = s.due := rfl
@[simp] theorem modBase_cur (s : State) (b : Nat) (f : Base → Base) : (s.modBase b f).cur = s.cur := rfl
@[simp] theorem modBase_free (s : State) (b : Nat) (f : Base → Base) : (s.modBase b f).free = s.free := rfl
@[simp] theorem modBase_ids (s : State) (b : Nat) (f : Base → Base) : (s.modBase b f).ids = s.ids := rfl
@[simp] theorem modBase_cores (s : State) (b : Nat) (f : Base → Base) : (s.modBase b f).cores = s.cores := rfl
@[simp] theorem modBase_bays (s : State) (b : Nat) (f : Base → Base) : (s.modBase b f).bays = s.bays := rfl
@[simp] theorem modBase_dies (s : State) (b : Nat) (f : Base → Base) : (s.modBase b f).dies = s.dies := rfl
@[simp] theorem modBase_landings (s : State) (b : Nat) (f : Base → Base) : (s.modBase b f).landings = s.landings := rfl
@[simp] theorem modBase_galleries (s : State) (b : Nat) (f : Base → Base) : (s.modBase b f).galleries = s.galleries := rfl
@[simp] theorem modBase_deliveries (s : State) (b : Nat) (f : Base → Base) : (s.modBase b f).deliveries = s.deliveries := rfl
@[simp] theorem modBase_hbm (s : State) (b : Nat) (f : Base → Base) : (s.modBase b f).hbm = s.hbm := rfl
@[simp] theorem modBase_lineClk (s : State) (b : Nat) (f : Base → Base) : (s.modBase b f).lineClk = s.lineClk := rfl
@[simp] theorem modBase_lineKey (s : State) (b : Nat) (f : Base → Base) : (s.modBase b f).lineKey = s.lineKey := rfl
@[simp] theorem modBase_poison (s : State) (b : Nat) (f : Base → Base) : (s.modBase b f).poison = s.poison := rfl
@[simp] theorem modBase_ctxs (s : State) (b : Nat) (f : Base → Base) : (s.modBase b f).ctxs = s.ctxs := rfl
@[simp] theorem modBase_nextCtx (s : State) (b : Nat) (f : Base → Base) : (s.modBase b f).nextCtx = s.nextCtx := rfl
@[simp] theorem modBase_queues (s : State) (b : Nat) (f : Base → Base) : (s.modBase b f).queues = s.queues := rfl
@[simp] theorem modBase_recs (s : State) (b : Nat) (f : Base → Base) : (s.modBase b f).recs = s.recs := rfl
@[simp] theorem modBase_nextRec (s : State) (b : Nat) (f : Base → Base) : (s.modBase b f).nextRec = s.nextRec := rfl
@[simp] theorem modBase_pools (s : State) (b : Nat) (f : Base → Base) : (s.modBase b f).pools = s.pools := rfl
@[simp] theorem modBase_fns (s : State) (b : Nat) (f : Base → Base) : (s.modBase b f).fns = s.fns := rfl
@[simp] theorem modBase_pcfg (s : State) (b : Nat) (f : Base → Base) : (s.modBase b f).pcfg = s.pcfg := rfl
@[simp] theorem modBase_repart (s : State) (b : Nat) (f : Base → Base) : (s.modBase b f).repart = s.repart := rfl
@[simp] theorem modBase_modnum (s : State) (b : Nat) (f : Base → Base) : (s.modBase b f).modnum = s.modnum := rfl
@[simp] theorem modBase_keyVer (s : State) (b : Nat) (f : Base → Base) : (s.modBase b f).keyVer = s.keyVer := rfl
@[simp] theorem modBase_tenantVer (s : State) (b : Nat) (f : Base → Base) : (s.modBase b f).tenantVer = s.tenantVer := rfl
@[simp] theorem modBase_ecwin (s : State) (b : Nat) (f : Base → Base) : (s.modBase b f).ecwin = s.ecwin := rfl
@[simp] theorem modBase_ecthr (s : State) (b : Nat) (f : Base → Base) : (s.modBase b f).ecthr = s.ecthr := rfl
@[simp] theorem modBase_hrthr (s : State) (b : Nat) (f : Base → Base) : (s.modBase b f).hrthr = s.hrthr := rfl
@[simp] theorem modBase_pwrlim (s : State) (b : Nat) (f : Base → Base) : (s.modBase b f).pwrlim = s.pwrlim := rfl
@[simp] theorem modBase_pwrgrp (s : State) (b : Nat) (f : Base → Base) : (s.modBase b f).pwrgrp = s.pwrgrp := rfl
@[simp] theorem modBase_pwrstag (s : State) (b : Nat) (f : Base → Base) : (s.modBase b f).pwrstag = s.pwrstag := rfl
@[simp] theorem modBase_pwrstat (s : State) (b : Nat) (f : Base → Base) : (s.modBase b f).pwrstat = s.pwrstat := rfl
@[simp] theorem modBase_power (s : State) (b : Nat) (f : Base → Base) : (s.modBase b f).power = s.power := rfl
@[simp] theorem modBase_throttle (s : State) (b : Nat) (f : Base → Base) : (s.modBase b f).throttle = s.throttle := rfl
@[simp] theorem modBase_fcnt (s : State) (b : Nat) (f : Base → Base) : (s.modBase b f).fcnt = s.fcnt := rfl
@[simp] theorem modBase_fsel (s : State) (b : Nat) (f : Base → Base) : (s.modBase b f).fsel = s.fsel := rfl
@[simp] theorem modBase_boot (s : State) (b : Nat) (f : Base → Base) : (s.modBase b f).boot = s.boot := rfl
@[simp] theorem modBase_session (s : State) (b : Nat) (f : Base → Base) : (s.modBase b f).session = s.session := rfl
@[simp] theorem modBase_link (s : State) (b : Nat) (f : Base → Base) : (s.modBase b f).link = s.link := rfl
@[simp] theorem modBase_failed (s : State) (b : Nat) (f : Base → Base) : (s.modBase b f).failed = s.failed := rfl
@[simp] theorem modBase_msix (s : State) (b : Nat) (f : Base → Base) : (s.modBase b f).msix = s.msix := rfl
@[simp] theorem modBase_cxlOut (s : State) (b : Nat) (f : Base → Base) : (s.modBase b f).cxlOut = s.cxlOut := rfl
@[simp] theorem modBase_spdmOut (s : State) (b : Nat) (f : Base → Base) : (s.modBase b f).spdmOut = s.spdmOut := rfl
@[simp] theorem modBase_stagOut (s : State) (b : Nat) (f : Base → Base) : (s.modBase b f).stagOut = s.stagOut := rfl
@[simp] theorem modBase_remote (s : State) (b : Nat) (f : Base → Base) : (s.modBase b f).remote = s.remote := rfl
@[simp] theorem modBase_ports (s : State) (b : Nat) (f : Base → Base) : (s.modBase b f).ports = s.ports := rfl
@[simp] theorem modBase_waking (s : State) (b : Nat) (f : Base → Base) : (s.modBase b f).waking = s.waking := rfl

/-! s.modFn n f -/

@[simp] theorem modFn_now (s : State) (n : Nat) (f : Fn → Fn) : (s.modFn n f).now = s.now := rfl
@[simp] theorem modFn_turn (s : State) (n : Nat) (f : Fn → Fn) : (s.modFn n f).turn = s.turn := rfl
@[simp] theorem modFn_inputs (s : State) (n : Nat) (f : Fn → Fn) : (s.modFn n f).inputs = s.inputs := rfl
@[simp] theorem modFn_due (s : State) (n : Nat) (f : Fn → Fn) : (s.modFn n f).due = s.due := rfl
@[simp] theorem modFn_cur (s : State) (n : Nat) (f : Fn → Fn) : (s.modFn n f).cur = s.cur := rfl
@[simp] theorem modFn_free (s : State) (n : Nat) (f : Fn → Fn) : (s.modFn n f).free = s.free := rfl
@[simp] theorem modFn_ids (s : State) (n : Nat) (f : Fn → Fn) : (s.modFn n f).ids = s.ids := rfl
@[simp] theorem modFn_cores (s : State) (n : Nat) (f : Fn → Fn) : (s.modFn n f).cores = s.cores := rfl
@[simp] theorem modFn_bays (s : State) (n : Nat) (f : Fn → Fn) : (s.modFn n f).bays = s.bays := rfl
@[simp] theorem modFn_dies (s : State) (n : Nat) (f : Fn → Fn) : (s.modFn n f).dies = s.dies := rfl
@[simp] theorem modFn_bases (s : State) (n : Nat) (f : Fn → Fn) : (s.modFn n f).bases = s.bases := rfl
@[simp] theorem modFn_landings (s : State) (n : Nat) (f : Fn → Fn) : (s.modFn n f).landings = s.landings := rfl
@[simp] theorem modFn_galleries (s : State) (n : Nat) (f : Fn → Fn) : (s.modFn n f).galleries = s.galleries := rfl
@[simp] theorem modFn_deliveries (s : State) (n : Nat) (f : Fn → Fn) : (s.modFn n f).deliveries = s.deliveries := rfl
@[simp] theorem modFn_hbm (s : State) (n : Nat) (f : Fn → Fn) : (s.modFn n f).hbm = s.hbm := rfl
@[simp] theorem modFn_lineClk (s : State) (n : Nat) (f : Fn → Fn) : (s.modFn n f).lineClk = s.lineClk := rfl
@[simp] theorem modFn_lineKey (s : State) (n : Nat) (f : Fn → Fn) : (s.modFn n f).lineKey = s.lineKey := rfl
@[simp] theorem modFn_poison (s : State) (n : Nat) (f : Fn → Fn) : (s.modFn n f).poison = s.poison := rfl
@[simp] theorem modFn_ctxs (s : State) (n : Nat) (f : Fn → Fn) : (s.modFn n f).ctxs = s.ctxs := rfl
@[simp] theorem modFn_nextCtx (s : State) (n : Nat) (f : Fn → Fn) : (s.modFn n f).nextCtx = s.nextCtx := rfl
@[simp] theorem modFn_queues (s : State) (n : Nat) (f : Fn → Fn) : (s.modFn n f).queues = s.queues := rfl
@[simp] theorem modFn_recs (s : State) (n : Nat) (f : Fn → Fn) : (s.modFn n f).recs = s.recs := rfl
@[simp] theorem modFn_nextRec (s : State) (n : Nat) (f : Fn → Fn) : (s.modFn n f).nextRec = s.nextRec := rfl
@[simp] theorem modFn_pools (s : State) (n : Nat) (f : Fn → Fn) : (s.modFn n f).pools = s.pools := rfl
@[simp] theorem modFn_pcfg (s : State) (n : Nat) (f : Fn → Fn) : (s.modFn n f).pcfg = s.pcfg := rfl
@[simp] theorem modFn_repart (s : State) (n : Nat) (f : Fn → Fn) : (s.modFn n f).repart = s.repart := rfl
@[simp] theorem modFn_modnum (s : State) (n : Nat) (f : Fn → Fn) : (s.modFn n f).modnum = s.modnum := rfl
@[simp] theorem modFn_keyVer (s : State) (n : Nat) (f : Fn → Fn) : (s.modFn n f).keyVer = s.keyVer := rfl
@[simp] theorem modFn_tenantVer (s : State) (n : Nat) (f : Fn → Fn) : (s.modFn n f).tenantVer = s.tenantVer := rfl
@[simp] theorem modFn_ecwin (s : State) (n : Nat) (f : Fn → Fn) : (s.modFn n f).ecwin = s.ecwin := rfl
@[simp] theorem modFn_ecthr (s : State) (n : Nat) (f : Fn → Fn) : (s.modFn n f).ecthr = s.ecthr := rfl
@[simp] theorem modFn_hrthr (s : State) (n : Nat) (f : Fn → Fn) : (s.modFn n f).hrthr = s.hrthr := rfl
@[simp] theorem modFn_pwrlim (s : State) (n : Nat) (f : Fn → Fn) : (s.modFn n f).pwrlim = s.pwrlim := rfl
@[simp] theorem modFn_pwrgrp (s : State) (n : Nat) (f : Fn → Fn) : (s.modFn n f).pwrgrp = s.pwrgrp := rfl
@[simp] theorem modFn_pwrstag (s : State) (n : Nat) (f : Fn → Fn) : (s.modFn n f).pwrstag = s.pwrstag := rfl
@[simp] theorem modFn_pwrstat (s : State) (n : Nat) (f : Fn → Fn) : (s.modFn n f).pwrstat = s.pwrstat := rfl
@[simp] theorem modFn_power (s : State) (n : Nat) (f : Fn → Fn) : (s.modFn n f).power = s.power := rfl
@[simp] theorem modFn_throttle (s : State) (n : Nat) (f : Fn → Fn) : (s.modFn n f).throttle = s.throttle := rfl
@[simp] theorem modFn_fcnt (s : State) (n : Nat) (f : Fn → Fn) : (s.modFn n f).fcnt = s.fcnt := rfl
@[simp] theorem modFn_fsel (s : State) (n : Nat) (f : Fn → Fn) : (s.modFn n f).fsel = s.fsel := rfl
@[simp] theorem modFn_boot (s : State) (n : Nat) (f : Fn → Fn) : (s.modFn n f).boot = s.boot := rfl
@[simp] theorem modFn_session (s : State) (n : Nat) (f : Fn → Fn) : (s.modFn n f).session = s.session := rfl
@[simp] theorem modFn_link (s : State) (n : Nat) (f : Fn → Fn) : (s.modFn n f).link = s.link := rfl
@[simp] theorem modFn_failed (s : State) (n : Nat) (f : Fn → Fn) : (s.modFn n f).failed = s.failed := rfl
@[simp] theorem modFn_msix (s : State) (n : Nat) (f : Fn → Fn) : (s.modFn n f).msix = s.msix := rfl
@[simp] theorem modFn_cxlOut (s : State) (n : Nat) (f : Fn → Fn) : (s.modFn n f).cxlOut = s.cxlOut := rfl
@[simp] theorem modFn_spdmOut (s : State) (n : Nat) (f : Fn → Fn) : (s.modFn n f).spdmOut = s.spdmOut := rfl
@[simp] theorem modFn_stagOut (s : State) (n : Nat) (f : Fn → Fn) : (s.modFn n f).stagOut = s.stagOut := rfl
@[simp] theorem modFn_remote (s : State) (n : Nat) (f : Fn → Fn) : (s.modFn n f).remote = s.remote := rfl
@[simp] theorem modFn_ports (s : State) (n : Nat) (f : Fn → Fn) : (s.modFn n f).ports = s.ports := rfl
@[simp] theorem modFn_waking (s : State) (n : Nat) (f : Fn → Fn) : (s.modFn n f).waking = s.waking := rfl

/-! s.modPool p f -/

@[simp] theorem modPool_now (s : State) (p : Nat) (f : Pool → Pool) : (s.modPool p f).now = s.now := rfl
@[simp] theorem modPool_turn (s : State) (p : Nat) (f : Pool → Pool) : (s.modPool p f).turn = s.turn := rfl
@[simp] theorem modPool_inputs (s : State) (p : Nat) (f : Pool → Pool) : (s.modPool p f).inputs = s.inputs := rfl
@[simp] theorem modPool_due (s : State) (p : Nat) (f : Pool → Pool) : (s.modPool p f).due = s.due := rfl
@[simp] theorem modPool_cur (s : State) (p : Nat) (f : Pool → Pool) : (s.modPool p f).cur = s.cur := rfl
@[simp] theorem modPool_free (s : State) (p : Nat) (f : Pool → Pool) : (s.modPool p f).free = s.free := rfl
@[simp] theorem modPool_ids (s : State) (p : Nat) (f : Pool → Pool) : (s.modPool p f).ids = s.ids := rfl
@[simp] theorem modPool_cores (s : State) (p : Nat) (f : Pool → Pool) : (s.modPool p f).cores = s.cores := rfl
@[simp] theorem modPool_bays (s : State) (p : Nat) (f : Pool → Pool) : (s.modPool p f).bays = s.bays := rfl
@[simp] theorem modPool_dies (s : State) (p : Nat) (f : Pool → Pool) : (s.modPool p f).dies = s.dies := rfl
@[simp] theorem modPool_bases (s : State) (p : Nat) (f : Pool → Pool) : (s.modPool p f).bases = s.bases := rfl
@[simp] theorem modPool_landings (s : State) (p : Nat) (f : Pool → Pool) : (s.modPool p f).landings = s.landings := rfl
@[simp] theorem modPool_galleries (s : State) (p : Nat) (f : Pool → Pool) : (s.modPool p f).galleries = s.galleries := rfl
@[simp] theorem modPool_deliveries (s : State) (p : Nat) (f : Pool → Pool) : (s.modPool p f).deliveries = s.deliveries := rfl
@[simp] theorem modPool_hbm (s : State) (p : Nat) (f : Pool → Pool) : (s.modPool p f).hbm = s.hbm := rfl
@[simp] theorem modPool_lineClk (s : State) (p : Nat) (f : Pool → Pool) : (s.modPool p f).lineClk = s.lineClk := rfl
@[simp] theorem modPool_lineKey (s : State) (p : Nat) (f : Pool → Pool) : (s.modPool p f).lineKey = s.lineKey := rfl
@[simp] theorem modPool_poison (s : State) (p : Nat) (f : Pool → Pool) : (s.modPool p f).poison = s.poison := rfl
@[simp] theorem modPool_ctxs (s : State) (p : Nat) (f : Pool → Pool) : (s.modPool p f).ctxs = s.ctxs := rfl
@[simp] theorem modPool_nextCtx (s : State) (p : Nat) (f : Pool → Pool) : (s.modPool p f).nextCtx = s.nextCtx := rfl
@[simp] theorem modPool_queues (s : State) (p : Nat) (f : Pool → Pool) : (s.modPool p f).queues = s.queues := rfl
@[simp] theorem modPool_recs (s : State) (p : Nat) (f : Pool → Pool) : (s.modPool p f).recs = s.recs := rfl
@[simp] theorem modPool_nextRec (s : State) (p : Nat) (f : Pool → Pool) : (s.modPool p f).nextRec = s.nextRec := rfl
@[simp] theorem modPool_fns (s : State) (p : Nat) (f : Pool → Pool) : (s.modPool p f).fns = s.fns := rfl
@[simp] theorem modPool_pcfg (s : State) (p : Nat) (f : Pool → Pool) : (s.modPool p f).pcfg = s.pcfg := rfl
@[simp] theorem modPool_repart (s : State) (p : Nat) (f : Pool → Pool) : (s.modPool p f).repart = s.repart := rfl
@[simp] theorem modPool_modnum (s : State) (p : Nat) (f : Pool → Pool) : (s.modPool p f).modnum = s.modnum := rfl
@[simp] theorem modPool_keyVer (s : State) (p : Nat) (f : Pool → Pool) : (s.modPool p f).keyVer = s.keyVer := rfl
@[simp] theorem modPool_tenantVer (s : State) (p : Nat) (f : Pool → Pool) : (s.modPool p f).tenantVer = s.tenantVer := rfl
@[simp] theorem modPool_ecwin (s : State) (p : Nat) (f : Pool → Pool) : (s.modPool p f).ecwin = s.ecwin := rfl
@[simp] theorem modPool_ecthr (s : State) (p : Nat) (f : Pool → Pool) : (s.modPool p f).ecthr = s.ecthr := rfl
@[simp] theorem modPool_hrthr (s : State) (p : Nat) (f : Pool → Pool) : (s.modPool p f).hrthr = s.hrthr := rfl
@[simp] theorem modPool_pwrlim (s : State) (p : Nat) (f : Pool → Pool) : (s.modPool p f).pwrlim = s.pwrlim := rfl
@[simp] theorem modPool_pwrgrp (s : State) (p : Nat) (f : Pool → Pool) : (s.modPool p f).pwrgrp = s.pwrgrp := rfl
@[simp] theorem modPool_pwrstag (s : State) (p : Nat) (f : Pool → Pool) : (s.modPool p f).pwrstag = s.pwrstag := rfl
@[simp] theorem modPool_pwrstat (s : State) (p : Nat) (f : Pool → Pool) : (s.modPool p f).pwrstat = s.pwrstat := rfl
@[simp] theorem modPool_power (s : State) (p : Nat) (f : Pool → Pool) : (s.modPool p f).power = s.power := rfl
@[simp] theorem modPool_throttle (s : State) (p : Nat) (f : Pool → Pool) : (s.modPool p f).throttle = s.throttle := rfl
@[simp] theorem modPool_fcnt (s : State) (p : Nat) (f : Pool → Pool) : (s.modPool p f).fcnt = s.fcnt := rfl
@[simp] theorem modPool_fsel (s : State) (p : Nat) (f : Pool → Pool) : (s.modPool p f).fsel = s.fsel := rfl
@[simp] theorem modPool_boot (s : State) (p : Nat) (f : Pool → Pool) : (s.modPool p f).boot = s.boot := rfl
@[simp] theorem modPool_session (s : State) (p : Nat) (f : Pool → Pool) : (s.modPool p f).session = s.session := rfl
@[simp] theorem modPool_link (s : State) (p : Nat) (f : Pool → Pool) : (s.modPool p f).link = s.link := rfl
@[simp] theorem modPool_failed (s : State) (p : Nat) (f : Pool → Pool) : (s.modPool p f).failed = s.failed := rfl
@[simp] theorem modPool_msix (s : State) (p : Nat) (f : Pool → Pool) : (s.modPool p f).msix = s.msix := rfl
@[simp] theorem modPool_cxlOut (s : State) (p : Nat) (f : Pool → Pool) : (s.modPool p f).cxlOut = s.cxlOut := rfl
@[simp] theorem modPool_spdmOut (s : State) (p : Nat) (f : Pool → Pool) : (s.modPool p f).spdmOut = s.spdmOut := rfl
@[simp] theorem modPool_stagOut (s : State) (p : Nat) (f : Pool → Pool) : (s.modPool p f).stagOut = s.stagOut := rfl
@[simp] theorem modPool_remote (s : State) (p : Nat) (f : Pool → Pool) : (s.modPool p f).remote = s.remote := rfl
@[simp] theorem modPool_ports (s : State) (p : Nat) (f : Pool → Pool) : (s.modPool p f).ports = s.ports := rfl
@[simp] theorem modPool_waking (s : State) (p : Nat) (f : Pool → Pool) : (s.modPool p f).waking = s.waking := rfl

/-! s.modLanding n f -/

@[simp] theorem modLanding_now (s : State) (n : Nat) (f : Landing → Landing) : (s.modLanding n f).now = s.now := rfl
@[simp] theorem modLanding_turn (s : State) (n : Nat) (f : Landing → Landing) : (s.modLanding n f).turn = s.turn := rfl
@[simp] theorem modLanding_inputs (s : State) (n : Nat) (f : Landing → Landing) : (s.modLanding n f).inputs = s.inputs := rfl
@[simp] theorem modLanding_due (s : State) (n : Nat) (f : Landing → Landing) : (s.modLanding n f).due = s.due := rfl
@[simp] theorem modLanding_cur (s : State) (n : Nat) (f : Landing → Landing) : (s.modLanding n f).cur = s.cur := rfl
@[simp] theorem modLanding_free (s : State) (n : Nat) (f : Landing → Landing) : (s.modLanding n f).free = s.free := rfl
@[simp] theorem modLanding_ids (s : State) (n : Nat) (f : Landing → Landing) : (s.modLanding n f).ids = s.ids := rfl
@[simp] theorem modLanding_cores (s : State) (n : Nat) (f : Landing → Landing) : (s.modLanding n f).cores = s.cores := rfl
@[simp] theorem modLanding_bays (s : State) (n : Nat) (f : Landing → Landing) : (s.modLanding n f).bays = s.bays := rfl
@[simp] theorem modLanding_dies (s : State) (n : Nat) (f : Landing → Landing) : (s.modLanding n f).dies = s.dies := rfl
@[simp] theorem modLanding_bases (s : State) (n : Nat) (f : Landing → Landing) : (s.modLanding n f).bases = s.bases := rfl
@[simp] theorem modLanding_galleries (s : State) (n : Nat) (f : Landing → Landing) : (s.modLanding n f).galleries = s.galleries := rfl
@[simp] theorem modLanding_deliveries (s : State) (n : Nat) (f : Landing → Landing) : (s.modLanding n f).deliveries = s.deliveries := rfl
@[simp] theorem modLanding_hbm (s : State) (n : Nat) (f : Landing → Landing) : (s.modLanding n f).hbm = s.hbm := rfl
@[simp] theorem modLanding_lineClk (s : State) (n : Nat) (f : Landing → Landing) : (s.modLanding n f).lineClk = s.lineClk := rfl
@[simp] theorem modLanding_lineKey (s : State) (n : Nat) (f : Landing → Landing) : (s.modLanding n f).lineKey = s.lineKey := rfl
@[simp] theorem modLanding_poison (s : State) (n : Nat) (f : Landing → Landing) : (s.modLanding n f).poison = s.poison := rfl
@[simp] theorem modLanding_ctxs (s : State) (n : Nat) (f : Landing → Landing) : (s.modLanding n f).ctxs = s.ctxs := rfl
@[simp] theorem modLanding_nextCtx (s : State) (n : Nat) (f : Landing → Landing) : (s.modLanding n f).nextCtx = s.nextCtx := rfl
@[simp] theorem modLanding_queues (s : State) (n : Nat) (f : Landing → Landing) : (s.modLanding n f).queues = s.queues := rfl
@[simp] theorem modLanding_recs (s : State) (n : Nat) (f : Landing → Landing) : (s.modLanding n f).recs = s.recs := rfl
@[simp] theorem modLanding_nextRec (s : State) (n : Nat) (f : Landing → Landing) : (s.modLanding n f).nextRec = s.nextRec := rfl
@[simp] theorem modLanding_pools (s : State) (n : Nat) (f : Landing → Landing) : (s.modLanding n f).pools = s.pools := rfl
@[simp] theorem modLanding_fns (s : State) (n : Nat) (f : Landing → Landing) : (s.modLanding n f).fns = s.fns := rfl
@[simp] theorem modLanding_pcfg (s : State) (n : Nat) (f : Landing → Landing) : (s.modLanding n f).pcfg = s.pcfg := rfl
@[simp] theorem modLanding_repart (s : State) (n : Nat) (f : Landing → Landing) : (s.modLanding n f).repart = s.repart := rfl
@[simp] theorem modLanding_modnum (s : State) (n : Nat) (f : Landing → Landing) : (s.modLanding n f).modnum = s.modnum := rfl
@[simp] theorem modLanding_keyVer (s : State) (n : Nat) (f : Landing → Landing) : (s.modLanding n f).keyVer = s.keyVer := rfl
@[simp] theorem modLanding_tenantVer (s : State) (n : Nat) (f : Landing → Landing) : (s.modLanding n f).tenantVer = s.tenantVer := rfl
@[simp] theorem modLanding_ecwin (s : State) (n : Nat) (f : Landing → Landing) : (s.modLanding n f).ecwin = s.ecwin := rfl
@[simp] theorem modLanding_ecthr (s : State) (n : Nat) (f : Landing → Landing) : (s.modLanding n f).ecthr = s.ecthr := rfl
@[simp] theorem modLanding_hrthr (s : State) (n : Nat) (f : Landing → Landing) : (s.modLanding n f).hrthr = s.hrthr := rfl
@[simp] theorem modLanding_pwrlim (s : State) (n : Nat) (f : Landing → Landing) : (s.modLanding n f).pwrlim = s.pwrlim := rfl
@[simp] theorem modLanding_pwrgrp (s : State) (n : Nat) (f : Landing → Landing) : (s.modLanding n f).pwrgrp = s.pwrgrp := rfl
@[simp] theorem modLanding_pwrstag (s : State) (n : Nat) (f : Landing → Landing) : (s.modLanding n f).pwrstag = s.pwrstag := rfl
@[simp] theorem modLanding_pwrstat (s : State) (n : Nat) (f : Landing → Landing) : (s.modLanding n f).pwrstat = s.pwrstat := rfl
@[simp] theorem modLanding_power (s : State) (n : Nat) (f : Landing → Landing) : (s.modLanding n f).power = s.power := rfl
@[simp] theorem modLanding_throttle (s : State) (n : Nat) (f : Landing → Landing) : (s.modLanding n f).throttle = s.throttle := rfl
@[simp] theorem modLanding_fcnt (s : State) (n : Nat) (f : Landing → Landing) : (s.modLanding n f).fcnt = s.fcnt := rfl
@[simp] theorem modLanding_fsel (s : State) (n : Nat) (f : Landing → Landing) : (s.modLanding n f).fsel = s.fsel := rfl
@[simp] theorem modLanding_boot (s : State) (n : Nat) (f : Landing → Landing) : (s.modLanding n f).boot = s.boot := rfl
@[simp] theorem modLanding_session (s : State) (n : Nat) (f : Landing → Landing) : (s.modLanding n f).session = s.session := rfl
@[simp] theorem modLanding_link (s : State) (n : Nat) (f : Landing → Landing) : (s.modLanding n f).link = s.link := rfl
@[simp] theorem modLanding_failed (s : State) (n : Nat) (f : Landing → Landing) : (s.modLanding n f).failed = s.failed := rfl
@[simp] theorem modLanding_msix (s : State) (n : Nat) (f : Landing → Landing) : (s.modLanding n f).msix = s.msix := rfl
@[simp] theorem modLanding_cxlOut (s : State) (n : Nat) (f : Landing → Landing) : (s.modLanding n f).cxlOut = s.cxlOut := rfl
@[simp] theorem modLanding_spdmOut (s : State) (n : Nat) (f : Landing → Landing) : (s.modLanding n f).spdmOut = s.spdmOut := rfl
@[simp] theorem modLanding_stagOut (s : State) (n : Nat) (f : Landing → Landing) : (s.modLanding n f).stagOut = s.stagOut := rfl
@[simp] theorem modLanding_remote (s : State) (n : Nat) (f : Landing → Landing) : (s.modLanding n f).remote = s.remote := rfl
@[simp] theorem modLanding_ports (s : State) (n : Nat) (f : Landing → Landing) : (s.modLanding n f).ports = s.ports := rfl
@[simp] theorem modLanding_waking (s : State) (n : Nat) (f : Landing → Landing) : (s.modLanding n f).waking = s.waking := rfl

/-! s.post t i -/

@[simp] theorem post_now (s : State) (t : Nat) (i : Instr) : (s.post t i).now = s.now := rfl
@[simp] theorem post_turn (s : State) (t : Nat) (i : Instr) : (s.post t i).turn = s.turn := rfl
@[simp] theorem post_inputs (s : State) (t : Nat) (i : Instr) : (s.post t i).inputs = s.inputs := rfl
@[simp] theorem post_cur (s : State) (t : Nat) (i : Instr) : (s.post t i).cur = s.cur := rfl
@[simp] theorem post_free (s : State) (t : Nat) (i : Instr) : (s.post t i).free = s.free := rfl
@[simp] theorem post_ids (s : State) (t : Nat) (i : Instr) : (s.post t i).ids = s.ids := rfl
@[simp] theorem post_cores (s : State) (t : Nat) (i : Instr) : (s.post t i).cores = s.cores := rfl
@[simp] theorem post_bays (s : State) (t : Nat) (i : Instr) : (s.post t i).bays = s.bays := rfl
@[simp] theorem post_dies (s : State) (t : Nat) (i : Instr) : (s.post t i).dies = s.dies := rfl
@[simp] theorem post_bases (s : State) (t : Nat) (i : Instr) : (s.post t i).bases = s.bases := rfl
@[simp] theorem post_landings (s : State) (t : Nat) (i : Instr) : (s.post t i).landings = s.landings := rfl
@[simp] theorem post_galleries (s : State) (t : Nat) (i : Instr) : (s.post t i).galleries = s.galleries := rfl
@[simp] theorem post_deliveries (s : State) (t : Nat) (i : Instr) : (s.post t i).deliveries = s.deliveries := rfl
@[simp] theorem post_hbm (s : State) (t : Nat) (i : Instr) : (s.post t i).hbm = s.hbm := rfl
@[simp] theorem post_lineClk (s : State) (t : Nat) (i : Instr) : (s.post t i).lineClk = s.lineClk := rfl
@[simp] theorem post_lineKey (s : State) (t : Nat) (i : Instr) : (s.post t i).lineKey = s.lineKey := rfl
@[simp] theorem post_poison (s : State) (t : Nat) (i : Instr) : (s.post t i).poison = s.poison := rfl
@[simp] theorem post_ctxs (s : State) (t : Nat) (i : Instr) : (s.post t i).ctxs = s.ctxs := rfl
@[simp] theorem post_nextCtx (s : State) (t : Nat) (i : Instr) : (s.post t i).nextCtx = s.nextCtx := rfl
@[simp] theorem post_queues (s : State) (t : Nat) (i : Instr) : (s.post t i).queues = s.queues := rfl
@[simp] theorem post_recs (s : State) (t : Nat) (i : Instr) : (s.post t i).recs = s.recs := rfl
@[simp] theorem post_nextRec (s : State) (t : Nat) (i : Instr) : (s.post t i).nextRec = s.nextRec := rfl
@[simp] theorem post_pools (s : State) (t : Nat) (i : Instr) : (s.post t i).pools = s.pools := rfl
@[simp] theorem post_fns (s : State) (t : Nat) (i : Instr) : (s.post t i).fns = s.fns := rfl
@[simp] theorem post_pcfg (s : State) (t : Nat) (i : Instr) : (s.post t i).pcfg = s.pcfg := rfl
@[simp] theorem post_repart (s : State) (t : Nat) (i : Instr) : (s.post t i).repart = s.repart := rfl
@[simp] theorem post_modnum (s : State) (t : Nat) (i : Instr) : (s.post t i).modnum = s.modnum := rfl
@[simp] theorem post_keyVer (s : State) (t : Nat) (i : Instr) : (s.post t i).keyVer = s.keyVer := rfl
@[simp] theorem post_tenantVer (s : State) (t : Nat) (i : Instr) : (s.post t i).tenantVer = s.tenantVer := rfl
@[simp] theorem post_ecwin (s : State) (t : Nat) (i : Instr) : (s.post t i).ecwin = s.ecwin := rfl
@[simp] theorem post_ecthr (s : State) (t : Nat) (i : Instr) : (s.post t i).ecthr = s.ecthr := rfl
@[simp] theorem post_hrthr (s : State) (t : Nat) (i : Instr) : (s.post t i).hrthr = s.hrthr := rfl
@[simp] theorem post_pwrlim (s : State) (t : Nat) (i : Instr) : (s.post t i).pwrlim = s.pwrlim := rfl
@[simp] theorem post_pwrgrp (s : State) (t : Nat) (i : Instr) : (s.post t i).pwrgrp = s.pwrgrp := rfl
@[simp] theorem post_pwrstag (s : State) (t : Nat) (i : Instr) : (s.post t i).pwrstag = s.pwrstag := rfl
@[simp] theorem post_pwrstat (s : State) (t : Nat) (i : Instr) : (s.post t i).pwrstat = s.pwrstat := rfl
@[simp] theorem post_power (s : State) (t : Nat) (i : Instr) : (s.post t i).power = s.power := rfl
@[simp] theorem post_throttle (s : State) (t : Nat) (i : Instr) : (s.post t i).throttle = s.throttle := rfl
@[simp] theorem post_fcnt (s : State) (t : Nat) (i : Instr) : (s.post t i).fcnt = s.fcnt := rfl
@[simp] theorem post_fsel (s : State) (t : Nat) (i : Instr) : (s.post t i).fsel = s.fsel := rfl
@[simp] theorem post_boot (s : State) (t : Nat) (i : Instr) : (s.post t i).boot = s.boot := rfl
@[simp] theorem post_session (s : State) (t : Nat) (i : Instr) : (s.post t i).session = s.session := rfl
@[simp] theorem post_link (s : State) (t : Nat) (i : Instr) : (s.post t i).link = s.link := rfl
@[simp] theorem post_failed (s : State) (t : Nat) (i : Instr) : (s.post t i).failed = s.failed := rfl
@[simp] theorem post_msix (s : State) (t : Nat) (i : Instr) : (s.post t i).msix = s.msix := rfl
@[simp] theorem post_cxlOut (s : State) (t : Nat) (i : Instr) : (s.post t i).cxlOut = s.cxlOut := rfl
@[simp] theorem post_spdmOut (s : State) (t : Nat) (i : Instr) : (s.post t i).spdmOut = s.spdmOut := rfl
@[simp] theorem post_stagOut (s : State) (t : Nat) (i : Instr) : (s.post t i).stagOut = s.stagOut := rfl
@[simp] theorem post_remote (s : State) (t : Nat) (i : Instr) : (s.post t i).remote = s.remote := rfl
@[simp] theorem post_ports (s : State) (t : Nat) (i : Instr) : (s.post t i).ports = s.ports := rfl
@[simp] theorem post_waking (s : State) (t : Nat) (i : Instr) : (s.post t i).waking = s.waking := rfl

/-! s.postEarly t i -/

@[simp] theorem postEarly_now (s : State) (t : Nat) (i : Instr) : (s.postEarly t i).now = s.now := rfl
@[simp] theorem postEarly_turn (s : State) (t : Nat) (i : Instr) : (s.postEarly t i).turn = s.turn := rfl
@[simp] theorem postEarly_inputs (s : State) (t : Nat) (i : Instr) : (s.postEarly t i).inputs = s.inputs := rfl
@[simp] theorem postEarly_cur (s : State) (t : Nat) (i : Instr) : (s.postEarly t i).cur = s.cur := rfl
@[simp] theorem postEarly_free (s : State) (t : Nat) (i : Instr) : (s.postEarly t i).free = s.free := rfl
@[simp] theorem postEarly_ids (s : State) (t : Nat) (i : Instr) : (s.postEarly t i).ids = s.ids := rfl
@[simp] theorem postEarly_cores (s : State) (t : Nat) (i : Instr) : (s.postEarly t i).cores = s.cores := rfl
@[simp] theorem postEarly_bays (s : State) (t : Nat) (i : Instr) : (s.postEarly t i).bays = s.bays := rfl
@[simp] theorem postEarly_dies (s : State) (t : Nat) (i : Instr) : (s.postEarly t i).dies = s.dies := rfl
@[simp] theorem postEarly_bases (s : State) (t : Nat) (i : Instr) : (s.postEarly t i).bases = s.bases := rfl
@[simp] theorem postEarly_landings (s : State) (t : Nat) (i : Instr) : (s.postEarly t i).landings = s.landings := rfl
@[simp] theorem postEarly_galleries (s : State) (t : Nat) (i : Instr) : (s.postEarly t i).galleries = s.galleries := rfl
@[simp] theorem postEarly_deliveries (s : State) (t : Nat) (i : Instr) : (s.postEarly t i).deliveries = s.deliveries := rfl
@[simp] theorem postEarly_hbm (s : State) (t : Nat) (i : Instr) : (s.postEarly t i).hbm = s.hbm := rfl
@[simp] theorem postEarly_lineClk (s : State) (t : Nat) (i : Instr) : (s.postEarly t i).lineClk = s.lineClk := rfl
@[simp] theorem postEarly_lineKey (s : State) (t : Nat) (i : Instr) : (s.postEarly t i).lineKey = s.lineKey := rfl
@[simp] theorem postEarly_poison (s : State) (t : Nat) (i : Instr) : (s.postEarly t i).poison = s.poison := rfl
@[simp] theorem postEarly_ctxs (s : State) (t : Nat) (i : Instr) : (s.postEarly t i).ctxs = s.ctxs := rfl
@[simp] theorem postEarly_nextCtx (s : State) (t : Nat) (i : Instr) : (s.postEarly t i).nextCtx = s.nextCtx := rfl
@[simp] theorem postEarly_queues (s : State) (t : Nat) (i : Instr) : (s.postEarly t i).queues = s.queues := rfl
@[simp] theorem postEarly_recs (s : State) (t : Nat) (i : Instr) : (s.postEarly t i).recs = s.recs := rfl
@[simp] theorem postEarly_nextRec (s : State) (t : Nat) (i : Instr) : (s.postEarly t i).nextRec = s.nextRec := rfl
@[simp] theorem postEarly_pools (s : State) (t : Nat) (i : Instr) : (s.postEarly t i).pools = s.pools := rfl
@[simp] theorem postEarly_fns (s : State) (t : Nat) (i : Instr) : (s.postEarly t i).fns = s.fns := rfl
@[simp] theorem postEarly_pcfg (s : State) (t : Nat) (i : Instr) : (s.postEarly t i).pcfg = s.pcfg := rfl
@[simp] theorem postEarly_repart (s : State) (t : Nat) (i : Instr) : (s.postEarly t i).repart = s.repart := rfl
@[simp] theorem postEarly_modnum (s : State) (t : Nat) (i : Instr) : (s.postEarly t i).modnum = s.modnum := rfl
@[simp] theorem postEarly_keyVer (s : State) (t : Nat) (i : Instr) : (s.postEarly t i).keyVer = s.keyVer := rfl
@[simp] theorem postEarly_tenantVer (s : State) (t : Nat) (i : Instr) : (s.postEarly t i).tenantVer = s.tenantVer := rfl
@[simp] theorem postEarly_ecwin (s : State) (t : Nat) (i : Instr) : (s.postEarly t i).ecwin = s.ecwin := rfl
@[simp] theorem postEarly_ecthr (s : State) (t : Nat) (i : Instr) : (s.postEarly t i).ecthr = s.ecthr := rfl
@[simp] theorem postEarly_hrthr (s : State) (t : Nat) (i : Instr) : (s.postEarly t i).hrthr = s.hrthr := rfl
@[simp] theorem postEarly_pwrlim (s : State) (t : Nat) (i : Instr) : (s.postEarly t i).pwrlim = s.pwrlim := rfl
@[simp] theorem postEarly_pwrgrp (s : State) (t : Nat) (i : Instr) : (s.postEarly t i).pwrgrp = s.pwrgrp := rfl
@[simp] theorem postEarly_pwrstag (s : State) (t : Nat) (i : Instr) : (s.postEarly t i).pwrstag = s.pwrstag := rfl
@[simp] theorem postEarly_pwrstat (s : State) (t : Nat) (i : Instr) : (s.postEarly t i).pwrstat = s.pwrstat := rfl
@[simp] theorem postEarly_power (s : State) (t : Nat) (i : Instr) : (s.postEarly t i).power = s.power := rfl
@[simp] theorem postEarly_throttle (s : State) (t : Nat) (i : Instr) : (s.postEarly t i).throttle = s.throttle := rfl
@[simp] theorem postEarly_fcnt (s : State) (t : Nat) (i : Instr) : (s.postEarly t i).fcnt = s.fcnt := rfl
@[simp] theorem postEarly_fsel (s : State) (t : Nat) (i : Instr) : (s.postEarly t i).fsel = s.fsel := rfl
@[simp] theorem postEarly_boot (s : State) (t : Nat) (i : Instr) : (s.postEarly t i).boot = s.boot := rfl
@[simp] theorem postEarly_session (s : State) (t : Nat) (i : Instr) : (s.postEarly t i).session = s.session := rfl
@[simp] theorem postEarly_link (s : State) (t : Nat) (i : Instr) : (s.postEarly t i).link = s.link := rfl
@[simp] theorem postEarly_failed (s : State) (t : Nat) (i : Instr) : (s.postEarly t i).failed = s.failed := rfl
@[simp] theorem postEarly_msix (s : State) (t : Nat) (i : Instr) : (s.postEarly t i).msix = s.msix := rfl
@[simp] theorem postEarly_cxlOut (s : State) (t : Nat) (i : Instr) : (s.postEarly t i).cxlOut = s.cxlOut := rfl
@[simp] theorem postEarly_spdmOut (s : State) (t : Nat) (i : Instr) : (s.postEarly t i).spdmOut = s.spdmOut := rfl
@[simp] theorem postEarly_stagOut (s : State) (t : Nat) (i : Instr) : (s.postEarly t i).stagOut = s.stagOut := rfl
@[simp] theorem postEarly_remote (s : State) (t : Nat) (i : Instr) : (s.postEarly t i).remote = s.remote := rfl
@[simp] theorem postEarly_ports (s : State) (t : Nat) (i : Instr) : (s.postEarly t i).ports = s.ports := rfl
@[simp] theorem postEarly_waking (s : State) (t : Nat) (i : Instr) : (s.postEarly t i).waking = s.waking := rfl

/-! s.raise fn vec -/

@[simp] theorem raise_now (s : State) (fn vec : Nat) : (s.raise fn vec).now = s.now := rfl
@[simp] theorem raise_turn (s : State) (fn vec : Nat) : (s.raise fn vec).turn = s.turn := rfl
@[simp] theorem raise_inputs (s : State) (fn vec : Nat) : (s.raise fn vec).inputs = s.inputs := rfl
@[simp] theorem raise_due (s : State) (fn vec : Nat) : (s.raise fn vec).due = s.due := rfl
@[simp] theorem raise_cur (s : State) (fn vec : Nat) : (s.raise fn vec).cur = s.cur := rfl
@[simp] theorem raise_free (s : State) (fn vec : Nat) : (s.raise fn vec).free = s.free := rfl
@[simp] theorem raise_ids (s : State) (fn vec : Nat) : (s.raise fn vec).ids = s.ids := rfl
@[simp] theorem raise_cores (s : State) (fn vec : Nat) : (s.raise fn vec).cores = s.cores := rfl
@[simp] theorem raise_bays (s : State) (fn vec : Nat) : (s.raise fn vec).bays = s.bays := rfl
@[simp] theorem raise_dies (s : State) (fn vec : Nat) : (s.raise fn vec).dies = s.dies := rfl
@[simp] theorem raise_bases (s : State) (fn vec : Nat) : (s.raise fn vec).bases = s.bases := rfl
@[simp] theorem raise_landings (s : State) (fn vec : Nat) : (s.raise fn vec).landings = s.landings := rfl
@[simp] theorem raise_galleries (s : State) (fn vec : Nat) : (s.raise fn vec).galleries = s.galleries := rfl
@[simp] theorem raise_deliveries (s : State) (fn vec : Nat) : (s.raise fn vec).deliveries = s.deliveries := rfl
@[simp] theorem raise_hbm (s : State) (fn vec : Nat) : (s.raise fn vec).hbm = s.hbm := rfl
@[simp] theorem raise_lineClk (s : State) (fn vec : Nat) : (s.raise fn vec).lineClk = s.lineClk := rfl
@[simp] theorem raise_lineKey (s : State) (fn vec : Nat) : (s.raise fn vec).lineKey = s.lineKey := rfl
@[simp] theorem raise_poison (s : State) (fn vec : Nat) : (s.raise fn vec).poison = s.poison := rfl
@[simp] theorem raise_ctxs (s : State) (fn vec : Nat) : (s.raise fn vec).ctxs = s.ctxs := rfl
@[simp] theorem raise_nextCtx (s : State) (fn vec : Nat) : (s.raise fn vec).nextCtx = s.nextCtx := rfl
@[simp] theorem raise_queues (s : State) (fn vec : Nat) : (s.raise fn vec).queues = s.queues := rfl
@[simp] theorem raise_recs (s : State) (fn vec : Nat) : (s.raise fn vec).recs = s.recs := rfl
@[simp] theorem raise_nextRec (s : State) (fn vec : Nat) : (s.raise fn vec).nextRec = s.nextRec := rfl
@[simp] theorem raise_pools (s : State) (fn vec : Nat) : (s.raise fn vec).pools = s.pools := rfl
@[simp] theorem raise_fns (s : State) (fn vec : Nat) : (s.raise fn vec).fns = s.fns := rfl
@[simp] theorem raise_pcfg (s : State) (fn vec : Nat) : (s.raise fn vec).pcfg = s.pcfg := rfl
@[simp] theorem raise_repart (s : State) (fn vec : Nat) : (s.raise fn vec).repart = s.repart := rfl
@[simp] theorem raise_modnum (s : State) (fn vec : Nat) : (s.raise fn vec).modnum = s.modnum := rfl
@[simp] theorem raise_keyVer (s : State) (fn vec : Nat) : (s.raise fn vec).keyVer = s.keyVer := rfl
@[simp] theorem raise_tenantVer (s : State) (fn vec : Nat) : (s.raise fn vec).tenantVer = s.tenantVer := rfl
@[simp] theorem raise_ecwin (s : State) (fn vec : Nat) : (s.raise fn vec).ecwin = s.ecwin := rfl
@[simp] theorem raise_ecthr (s : State) (fn vec : Nat) : (s.raise fn vec).ecthr = s.ecthr := rfl
@[simp] theorem raise_hrthr (s : State) (fn vec : Nat) : (s.raise fn vec).hrthr = s.hrthr := rfl
@[simp] theorem raise_pwrlim (s : State) (fn vec : Nat) : (s.raise fn vec).pwrlim = s.pwrlim := rfl
@[simp] theorem raise_pwrgrp (s : State) (fn vec : Nat) : (s.raise fn vec).pwrgrp = s.pwrgrp := rfl
@[simp] theorem raise_pwrstag (s : State) (fn vec : Nat) : (s.raise fn vec).pwrstag = s.pwrstag := rfl
@[simp] theorem raise_pwrstat (s : State) (fn vec : Nat) : (s.raise fn vec).pwrstat = s.pwrstat := rfl
@[simp] theorem raise_power (s : State) (fn vec : Nat) : (s.raise fn vec).power = s.power := rfl
@[simp] theorem raise_throttle (s : State) (fn vec : Nat) : (s.raise fn vec).throttle = s.throttle := rfl
@[simp] theorem raise_fcnt (s : State) (fn vec : Nat) : (s.raise fn vec).fcnt = s.fcnt := rfl
@[simp] theorem raise_fsel (s : State) (fn vec : Nat) : (s.raise fn vec).fsel = s.fsel := rfl
@[simp] theorem raise_boot (s : State) (fn vec : Nat) : (s.raise fn vec).boot = s.boot := rfl
@[simp] theorem raise_session (s : State) (fn vec : Nat) : (s.raise fn vec).session = s.session := rfl
@[simp] theorem raise_link (s : State) (fn vec : Nat) : (s.raise fn vec).link = s.link := rfl
@[simp] theorem raise_failed (s : State) (fn vec : Nat) : (s.raise fn vec).failed = s.failed := rfl
@[simp] theorem raise_cxlOut (s : State) (fn vec : Nat) : (s.raise fn vec).cxlOut = s.cxlOut := rfl
@[simp] theorem raise_spdmOut (s : State) (fn vec : Nat) : (s.raise fn vec).spdmOut = s.spdmOut := rfl
@[simp] theorem raise_stagOut (s : State) (fn vec : Nat) : (s.raise fn vec).stagOut = s.stagOut := rfl
@[simp] theorem raise_remote (s : State) (fn vec : Nat) : (s.raise fn vec).remote = s.remote := rfl
@[simp] theorem raise_ports (s : State) (fn vec : Nat) : (s.raise fn vec).ports = s.ports := rfl
@[simp] theorem raise_waking (s : State) (fn vec : Nat) : (s.raise fn vec).waking = s.waking := rfl

/-! s.drawBit.2 -/

@[simp] theorem drawBit_now (s : State) : s.drawBit.2.now = s.now := rfl
@[simp] theorem drawBit_turn (s : State) : s.drawBit.2.turn = s.turn := rfl
@[simp] theorem drawBit_inputs (s : State) : s.drawBit.2.inputs = s.inputs := rfl
@[simp] theorem drawBit_due (s : State) : s.drawBit.2.due = s.due := rfl
@[simp] theorem drawBit_cur (s : State) : s.drawBit.2.cur = s.cur := rfl
@[simp] theorem drawBit_ids (s : State) : s.drawBit.2.ids = s.ids := rfl
@[simp] theorem drawBit_cores (s : State) : s.drawBit.2.cores = s.cores := rfl
@[simp] theorem drawBit_bays (s : State) : s.drawBit.2.bays = s.bays := rfl
@[simp] theorem drawBit_dies (s : State) : s.drawBit.2.dies = s.dies := rfl
@[simp] theorem drawBit_bases (s : State) : s.drawBit.2.bases = s.bases := rfl
@[simp] theorem drawBit_landings (s : State) : s.drawBit.2.landings = s.landings := rfl
@[simp] theorem drawBit_galleries (s : State) : s.drawBit.2.galleries = s.galleries := rfl
@[simp] theorem drawBit_deliveries (s : State) : s.drawBit.2.deliveries = s.deliveries := rfl
@[simp] theorem drawBit_hbm (s : State) : s.drawBit.2.hbm = s.hbm := rfl
@[simp] theorem drawBit_lineClk (s : State) : s.drawBit.2.lineClk = s.lineClk := rfl
@[simp] theorem drawBit_lineKey (s : State) : s.drawBit.2.lineKey = s.lineKey := rfl
@[simp] theorem drawBit_poison (s : State) : s.drawBit.2.poison = s.poison := rfl
@[simp] theorem drawBit_ctxs (s : State) : s.drawBit.2.ctxs = s.ctxs := rfl
@[simp] theorem drawBit_nextCtx (s : State) : s.drawBit.2.nextCtx = s.nextCtx := rfl
@[simp] theorem drawBit_queues (s : State) : s.drawBit.2.queues = s.queues := rfl
@[simp] theorem drawBit_recs (s : State) : s.drawBit.2.recs = s.recs := rfl
@[simp] theorem drawBit_nextRec (s : State) : s.drawBit.2.nextRec = s.nextRec := rfl
@[simp] theorem drawBit_pools (s : State) : s.drawBit.2.pools = s.pools := rfl
@[simp] theorem drawBit_fns (s : State) : s.drawBit.2.fns = s.fns := rfl
@[simp] theorem drawBit_pcfg (s : State) : s.drawBit.2.pcfg = s.pcfg := rfl
@[simp] theorem drawBit_repart (s : State) : s.drawBit.2.repart = s.repart := rfl
@[simp] theorem drawBit_modnum (s : State) : s.drawBit.2.modnum = s.modnum := rfl
@[simp] theorem drawBit_keyVer (s : State) : s.drawBit.2.keyVer = s.keyVer := rfl
@[simp] theorem drawBit_tenantVer (s : State) : s.drawBit.2.tenantVer = s.tenantVer := rfl
@[simp] theorem drawBit_ecwin (s : State) : s.drawBit.2.ecwin = s.ecwin := rfl
@[simp] theorem drawBit_ecthr (s : State) : s.drawBit.2.ecthr = s.ecthr := rfl
@[simp] theorem drawBit_hrthr (s : State) : s.drawBit.2.hrthr = s.hrthr := rfl
@[simp] theorem drawBit_pwrlim (s : State) : s.drawBit.2.pwrlim = s.pwrlim := rfl
@[simp] theorem drawBit_pwrgrp (s : State) : s.drawBit.2.pwrgrp = s.pwrgrp := rfl
@[simp] theorem drawBit_pwrstag (s : State) : s.drawBit.2.pwrstag = s.pwrstag := rfl
@[simp] theorem drawBit_pwrstat (s : State) : s.drawBit.2.pwrstat = s.pwrstat := rfl
@[simp] theorem drawBit_power (s : State) : s.drawBit.2.power = s.power := rfl
@[simp] theorem drawBit_throttle (s : State) : s.drawBit.2.throttle = s.throttle := rfl
@[simp] theorem drawBit_fcnt (s : State) : s.drawBit.2.fcnt = s.fcnt := rfl
@[simp] theorem drawBit_fsel (s : State) : s.drawBit.2.fsel = s.fsel := rfl
@[simp] theorem drawBit_boot (s : State) : s.drawBit.2.boot = s.boot := rfl
@[simp] theorem drawBit_session (s : State) : s.drawBit.2.session = s.session := rfl
@[simp] theorem drawBit_link (s : State) : s.drawBit.2.link = s.link := rfl
@[simp] theorem drawBit_failed (s : State) : s.drawBit.2.failed = s.failed := rfl
@[simp] theorem drawBit_msix (s : State) : s.drawBit.2.msix = s.msix := rfl
@[simp] theorem drawBit_cxlOut (s : State) : s.drawBit.2.cxlOut = s.cxlOut := rfl
@[simp] theorem drawBit_spdmOut (s : State) : s.drawBit.2.spdmOut = s.spdmOut := rfl
@[simp] theorem drawBit_stagOut (s : State) : s.drawBit.2.stagOut = s.stagOut := rfl
@[simp] theorem drawBit_remote (s : State) : s.drawBit.2.remote = s.remote := rfl
@[simp] theorem drawBit_ports (s : State) : s.drawBit.2.ports = s.ports := rfl
@[simp] theorem drawBit_waking (s : State) : s.drawBit.2.waking = s.waking := rfl

/-! s.drawNat.2 -/

@[simp] theorem drawNat_now (s : State) : s.drawNat.2.now = s.now := rfl
@[simp] theorem drawNat_turn (s : State) : s.drawNat.2.turn = s.turn := rfl
@[simp] theorem drawNat_inputs (s : State) : s.drawNat.2.inputs = s.inputs := rfl
@[simp] theorem drawNat_due (s : State) : s.drawNat.2.due = s.due := rfl
@[simp] theorem drawNat_cur (s : State) : s.drawNat.2.cur = s.cur := rfl
@[simp] theorem drawNat_ids (s : State) : s.drawNat.2.ids = s.ids := rfl
@[simp] theorem drawNat_cores (s : State) : s.drawNat.2.cores = s.cores := rfl
@[simp] theorem drawNat_bays (s : State) : s.drawNat.2.bays = s.bays := rfl
@[simp] theorem drawNat_dies (s : State) : s.drawNat.2.dies = s.dies := rfl
@[simp] theorem drawNat_bases (s : State) : s.drawNat.2.bases = s.bases := rfl
@[simp] theorem drawNat_landings (s : State) : s.drawNat.2.landings = s.landings := rfl
@[simp] theorem drawNat_galleries (s : State) : s.drawNat.2.galleries = s.galleries := rfl
@[simp] theorem drawNat_deliveries (s : State) : s.drawNat.2.deliveries = s.deliveries := rfl
@[simp] theorem drawNat_hbm (s : State) : s.drawNat.2.hbm = s.hbm := rfl
@[simp] theorem drawNat_lineClk (s : State) : s.drawNat.2.lineClk = s.lineClk := rfl
@[simp] theorem drawNat_lineKey (s : State) : s.drawNat.2.lineKey = s.lineKey := rfl
@[simp] theorem drawNat_poison (s : State) : s.drawNat.2.poison = s.poison := rfl
@[simp] theorem drawNat_ctxs (s : State) : s.drawNat.2.ctxs = s.ctxs := rfl
@[simp] theorem drawNat_nextCtx (s : State) : s.drawNat.2.nextCtx = s.nextCtx := rfl
@[simp] theorem drawNat_queues (s : State) : s.drawNat.2.queues = s.queues := rfl
@[simp] theorem drawNat_recs (s : State) : s.drawNat.2.recs = s.recs := rfl
@[simp] theorem drawNat_nextRec (s : State) : s.drawNat.2.nextRec = s.nextRec := rfl
@[simp] theorem drawNat_pools (s : State) : s.drawNat.2.pools = s.pools := rfl
@[simp] theorem drawNat_fns (s : State) : s.drawNat.2.fns = s.fns := rfl
@[simp] theorem drawNat_pcfg (s : State) : s.drawNat.2.pcfg = s.pcfg := rfl
@[simp] theorem drawNat_repart (s : State) : s.drawNat.2.repart = s.repart := rfl
@[simp] theorem drawNat_modnum (s : State) : s.drawNat.2.modnum = s.modnum := rfl
@[simp] theorem drawNat_keyVer (s : State) : s.drawNat.2.keyVer = s.keyVer := rfl
@[simp] theorem drawNat_tenantVer (s : State) : s.drawNat.2.tenantVer = s.tenantVer := rfl
@[simp] theorem drawNat_ecwin (s : State) : s.drawNat.2.ecwin = s.ecwin := rfl
@[simp] theorem drawNat_ecthr (s : State) : s.drawNat.2.ecthr = s.ecthr := rfl
@[simp] theorem drawNat_hrthr (s : State) : s.drawNat.2.hrthr = s.hrthr := rfl
@[simp] theorem drawNat_pwrlim (s : State) : s.drawNat.2.pwrlim = s.pwrlim := rfl
@[simp] theorem drawNat_pwrgrp (s : State) : s.drawNat.2.pwrgrp = s.pwrgrp := rfl
@[simp] theorem drawNat_pwrstag (s : State) : s.drawNat.2.pwrstag = s.pwrstag := rfl
@[simp] theorem drawNat_pwrstat (s : State) : s.drawNat.2.pwrstat = s.pwrstat := rfl
@[simp] theorem drawNat_power (s : State) : s.drawNat.2.power = s.power := rfl
@[simp] theorem drawNat_throttle (s : State) : s.drawNat.2.throttle = s.throttle := rfl
@[simp] theorem drawNat_fcnt (s : State) : s.drawNat.2.fcnt = s.fcnt := rfl
@[simp] theorem drawNat_fsel (s : State) : s.drawNat.2.fsel = s.fsel := rfl
@[simp] theorem drawNat_boot (s : State) : s.drawNat.2.boot = s.boot := rfl
@[simp] theorem drawNat_session (s : State) : s.drawNat.2.session = s.session := rfl
@[simp] theorem drawNat_link (s : State) : s.drawNat.2.link = s.link := rfl
@[simp] theorem drawNat_failed (s : State) : s.drawNat.2.failed = s.failed := rfl
@[simp] theorem drawNat_msix (s : State) : s.drawNat.2.msix = s.msix := rfl
@[simp] theorem drawNat_cxlOut (s : State) : s.drawNat.2.cxlOut = s.cxlOut := rfl
@[simp] theorem drawNat_spdmOut (s : State) : s.drawNat.2.spdmOut = s.spdmOut := rfl
@[simp] theorem drawNat_stagOut (s : State) : s.drawNat.2.stagOut = s.stagOut := rfl
@[simp] theorem drawNat_remote (s : State) : s.drawNat.2.remote = s.remote := rfl
@[simp] theorem drawNat_ports (s : State) : s.drawNat.2.ports = s.ports := rfl
@[simp] theorem drawNat_waking (s : State) : s.drawNat.2.waking = s.waking := rfl

/-! s.drawWord.2 -/

@[simp] theorem drawWord_now (s : State) : s.drawWord.2.now = s.now := rfl
@[simp] theorem drawWord_turn (s : State) : s.drawWord.2.turn = s.turn := rfl
@[simp] theorem drawWord_inputs (s : State) : s.drawWord.2.inputs = s.inputs := rfl
@[simp] theorem drawWord_due (s : State) : s.drawWord.2.due = s.due := rfl
@[simp] theorem drawWord_cur (s : State) : s.drawWord.2.cur = s.cur := rfl
@[simp] theorem drawWord_ids (s : State) : s.drawWord.2.ids = s.ids := rfl
@[simp] theorem drawWord_cores (s : State) : s.drawWord.2.cores = s.cores := rfl
@[simp] theorem drawWord_bays (s : State) : s.drawWord.2.bays = s.bays := rfl
@[simp] theorem drawWord_dies (s : State) : s.drawWord.2.dies = s.dies := rfl
@[simp] theorem drawWord_bases (s : State) : s.drawWord.2.bases = s.bases := rfl
@[simp] theorem drawWord_landings (s : State) : s.drawWord.2.landings = s.landings := rfl
@[simp] theorem drawWord_galleries (s : State) : s.drawWord.2.galleries = s.galleries := rfl
@[simp] theorem drawWord_deliveries (s : State) : s.drawWord.2.deliveries = s.deliveries := rfl
@[simp] theorem drawWord_hbm (s : State) : s.drawWord.2.hbm = s.hbm := rfl
@[simp] theorem drawWord_lineClk (s : State) : s.drawWord.2.lineClk = s.lineClk := rfl
@[simp] theorem drawWord_lineKey (s : State) : s.drawWord.2.lineKey = s.lineKey := rfl
@[simp] theorem drawWord_poison (s : State) : s.drawWord.2.poison = s.poison := rfl
@[simp] theorem drawWord_ctxs (s : State) : s.drawWord.2.ctxs = s.ctxs := rfl
@[simp] theorem drawWord_nextCtx (s : State) : s.drawWord.2.nextCtx = s.nextCtx := rfl
@[simp] theorem drawWord_queues (s : State) : s.drawWord.2.queues = s.queues := rfl
@[simp] theorem drawWord_recs (s : State) : s.drawWord.2.recs = s.recs := rfl
@[simp] theorem drawWord_nextRec (s : State) : s.drawWord.2.nextRec = s.nextRec := rfl
@[simp] theorem drawWord_pools (s : State) : s.drawWord.2.pools = s.pools := rfl
@[simp] theorem drawWord_fns (s : State) : s.drawWord.2.fns = s.fns := rfl
@[simp] theorem drawWord_pcfg (s : State) : s.drawWord.2.pcfg = s.pcfg := rfl
@[simp] theorem drawWord_repart (s : State) : s.drawWord.2.repart = s.repart := rfl
@[simp] theorem drawWord_modnum (s : State) : s.drawWord.2.modnum = s.modnum := rfl
@[simp] theorem drawWord_keyVer (s : State) : s.drawWord.2.keyVer = s.keyVer := rfl
@[simp] theorem drawWord_tenantVer (s : State) : s.drawWord.2.tenantVer = s.tenantVer := rfl
@[simp] theorem drawWord_ecwin (s : State) : s.drawWord.2.ecwin = s.ecwin := rfl
@[simp] theorem drawWord_ecthr (s : State) : s.drawWord.2.ecthr = s.ecthr := rfl
@[simp] theorem drawWord_hrthr (s : State) : s.drawWord.2.hrthr = s.hrthr := rfl
@[simp] theorem drawWord_pwrlim (s : State) : s.drawWord.2.pwrlim = s.pwrlim := rfl
@[simp] theorem drawWord_pwrgrp (s : State) : s.drawWord.2.pwrgrp = s.pwrgrp := rfl
@[simp] theorem drawWord_pwrstag (s : State) : s.drawWord.2.pwrstag = s.pwrstag := rfl
@[simp] theorem drawWord_pwrstat (s : State) : s.drawWord.2.pwrstat = s.pwrstat := rfl
@[simp] theorem drawWord_power (s : State) : s.drawWord.2.power = s.power := rfl
@[simp] theorem drawWord_throttle (s : State) : s.drawWord.2.throttle = s.throttle := rfl
@[simp] theorem drawWord_fcnt (s : State) : s.drawWord.2.fcnt = s.fcnt := rfl
@[simp] theorem drawWord_fsel (s : State) : s.drawWord.2.fsel = s.fsel := rfl
@[simp] theorem drawWord_boot (s : State) : s.drawWord.2.boot = s.boot := rfl
@[simp] theorem drawWord_session (s : State) : s.drawWord.2.session = s.session := rfl
@[simp] theorem drawWord_link (s : State) : s.drawWord.2.link = s.link := rfl
@[simp] theorem drawWord_failed (s : State) : s.drawWord.2.failed = s.failed := rfl
@[simp] theorem drawWord_msix (s : State) : s.drawWord.2.msix = s.msix := rfl
@[simp] theorem drawWord_cxlOut (s : State) : s.drawWord.2.cxlOut = s.cxlOut := rfl
@[simp] theorem drawWord_spdmOut (s : State) : s.drawWord.2.spdmOut = s.spdmOut := rfl
@[simp] theorem drawWord_stagOut (s : State) : s.drawWord.2.stagOut = s.stagOut := rfl
@[simp] theorem drawWord_remote (s : State) : s.drawWord.2.remote = s.remote := rfl
@[simp] theorem drawWord_ports (s : State) : s.drawWord.2.ports = s.ports := rfl
@[simp] theorem drawWord_waking (s : State) : s.drawWord.2.waking = s.waking := rfl

/-! s.newId.2 -/

@[simp] theorem newId_now (s : State) : s.newId.2.now = s.now := rfl
@[simp] theorem newId_turn (s : State) : s.newId.2.turn = s.turn := rfl
@[simp] theorem newId_inputs (s : State) : s.newId.2.inputs = s.inputs := rfl
@[simp] theorem newId_due (s : State) : s.newId.2.due = s.due := rfl
@[simp] theorem newId_cur (s : State) : s.newId.2.cur = s.cur := rfl
@[simp] theorem newId_free (s : State) : s.newId.2.free = s.free := rfl
@[simp] theorem newId_cores (s : State) : s.newId.2.cores = s.cores := rfl
@[simp] theorem newId_bays (s : State) : s.newId.2.bays = s.bays := rfl
@[simp] theorem newId_dies (s : State) : s.newId.2.dies = s.dies := rfl
@[simp] theorem newId_bases (s : State) : s.newId.2.bases = s.bases := rfl
@[simp] theorem newId_landings (s : State) : s.newId.2.landings = s.landings := rfl
@[simp] theorem newId_galleries (s : State) : s.newId.2.galleries = s.galleries := rfl
@[simp] theorem newId_deliveries (s : State) : s.newId.2.deliveries = s.deliveries := rfl
@[simp] theorem newId_hbm (s : State) : s.newId.2.hbm = s.hbm := rfl
@[simp] theorem newId_lineClk (s : State) : s.newId.2.lineClk = s.lineClk := rfl
@[simp] theorem newId_lineKey (s : State) : s.newId.2.lineKey = s.lineKey := rfl
@[simp] theorem newId_poison (s : State) : s.newId.2.poison = s.poison := rfl
@[simp] theorem newId_ctxs (s : State) : s.newId.2.ctxs = s.ctxs := rfl
@[simp] theorem newId_nextCtx (s : State) : s.newId.2.nextCtx = s.nextCtx := rfl
@[simp] theorem newId_queues (s : State) : s.newId.2.queues = s.queues := rfl
@[simp] theorem newId_recs (s : State) : s.newId.2.recs = s.recs := rfl
@[simp] theorem newId_nextRec (s : State) : s.newId.2.nextRec = s.nextRec := rfl
@[simp] theorem newId_pools (s : State) : s.newId.2.pools = s.pools := rfl
@[simp] theorem newId_fns (s : State) : s.newId.2.fns = s.fns := rfl
@[simp] theorem newId_pcfg (s : State) : s.newId.2.pcfg = s.pcfg := rfl
@[simp] theorem newId_repart (s : State) : s.newId.2.repart = s.repart := rfl
@[simp] theorem newId_modnum (s : State) : s.newId.2.modnum = s.modnum := rfl
@[simp] theorem newId_keyVer (s : State) : s.newId.2.keyVer = s.keyVer := rfl
@[simp] theorem newId_tenantVer (s : State) : s.newId.2.tenantVer = s.tenantVer := rfl
@[simp] theorem newId_ecwin (s : State) : s.newId.2.ecwin = s.ecwin := rfl
@[simp] theorem newId_ecthr (s : State) : s.newId.2.ecthr = s.ecthr := rfl
@[simp] theorem newId_hrthr (s : State) : s.newId.2.hrthr = s.hrthr := rfl
@[simp] theorem newId_pwrlim (s : State) : s.newId.2.pwrlim = s.pwrlim := rfl
@[simp] theorem newId_pwrgrp (s : State) : s.newId.2.pwrgrp = s.pwrgrp := rfl
@[simp] theorem newId_pwrstag (s : State) : s.newId.2.pwrstag = s.pwrstag := rfl
@[simp] theorem newId_pwrstat (s : State) : s.newId.2.pwrstat = s.pwrstat := rfl
@[simp] theorem newId_power (s : State) : s.newId.2.power = s.power := rfl
@[simp] theorem newId_throttle (s : State) : s.newId.2.throttle = s.throttle := rfl
@[simp] theorem newId_fcnt (s : State) : s.newId.2.fcnt = s.fcnt := rfl
@[simp] theorem newId_fsel (s : State) : s.newId.2.fsel = s.fsel := rfl
@[simp] theorem newId_boot (s : State) : s.newId.2.boot = s.boot := rfl
@[simp] theorem newId_session (s : State) : s.newId.2.session = s.session := rfl
@[simp] theorem newId_link (s : State) : s.newId.2.link = s.link := rfl
@[simp] theorem newId_failed (s : State) : s.newId.2.failed = s.failed := rfl
@[simp] theorem newId_msix (s : State) : s.newId.2.msix = s.msix := rfl
@[simp] theorem newId_cxlOut (s : State) : s.newId.2.cxlOut = s.cxlOut := rfl
@[simp] theorem newId_spdmOut (s : State) : s.newId.2.spdmOut = s.spdmOut := rfl
@[simp] theorem newId_stagOut (s : State) : s.newId.2.stagOut = s.stagOut := rfl
@[simp] theorem newId_remote (s : State) : s.newId.2.remote = s.remote := rfl
@[simp] theorem newId_ports (s : State) : s.newId.2.ports = s.ports := rfl
@[simp] theorem newId_waking (s : State) : s.newId.2.waking = s.waking := rfl

/-! s.modCtx n f -/

@[simp] theorem modCtx_now (s : State) (n : Nat) (f : Ctx → Ctx) : (s.modCtx n f).now = s.now := by unfold State.modCtx; split <;> rfl
@[simp] theorem modCtx_turn (s : State) (n : Nat) (f : Ctx → Ctx) : (s.modCtx n f).turn = s.turn := by unfold State.modCtx; split <;> rfl
@[simp] theorem modCtx_inputs (s : State) (n : Nat) (f : Ctx → Ctx) : (s.modCtx n f).inputs = s.inputs := by unfold State.modCtx; split <;> rfl
@[simp] theorem modCtx_due (s : State) (n : Nat) (f : Ctx → Ctx) : (s.modCtx n f).due = s.due := by unfold State.modCtx; split <;> rfl
@[simp] theorem modCtx_cur (s : State) (n : Nat) (f : Ctx → Ctx) : (s.modCtx n f).cur = s.cur := by unfold State.modCtx; split <;> rfl
@[simp] theorem modCtx_free (s : State) (n : Nat) (f : Ctx → Ctx) : (s.modCtx n f).free = s.free := by unfold State.modCtx; split <;> rfl
@[simp] theorem modCtx_ids (s : State) (n : Nat) (f : Ctx → Ctx) : (s.modCtx n f).ids = s.ids := by unfold State.modCtx; split <;> rfl
@[simp] theorem modCtx_cores (s : State) (n : Nat) (f : Ctx → Ctx) : (s.modCtx n f).cores = s.cores := by unfold State.modCtx; split <;> rfl
@[simp] theorem modCtx_bays (s : State) (n : Nat) (f : Ctx → Ctx) : (s.modCtx n f).bays = s.bays := by unfold State.modCtx; split <;> rfl
@[simp] theorem modCtx_dies (s : State) (n : Nat) (f : Ctx → Ctx) : (s.modCtx n f).dies = s.dies := by unfold State.modCtx; split <;> rfl
@[simp] theorem modCtx_bases (s : State) (n : Nat) (f : Ctx → Ctx) : (s.modCtx n f).bases = s.bases := by unfold State.modCtx; split <;> rfl
@[simp] theorem modCtx_landings (s : State) (n : Nat) (f : Ctx → Ctx) : (s.modCtx n f).landings = s.landings := by unfold State.modCtx; split <;> rfl
@[simp] theorem modCtx_galleries (s : State) (n : Nat) (f : Ctx → Ctx) : (s.modCtx n f).galleries = s.galleries := by unfold State.modCtx; split <;> rfl
@[simp] theorem modCtx_deliveries (s : State) (n : Nat) (f : Ctx → Ctx) : (s.modCtx n f).deliveries = s.deliveries := by unfold State.modCtx; split <;> rfl
@[simp] theorem modCtx_hbm (s : State) (n : Nat) (f : Ctx → Ctx) : (s.modCtx n f).hbm = s.hbm := by unfold State.modCtx; split <;> rfl
@[simp] theorem modCtx_lineClk (s : State) (n : Nat) (f : Ctx → Ctx) : (s.modCtx n f).lineClk = s.lineClk := by unfold State.modCtx; split <;> rfl
@[simp] theorem modCtx_lineKey (s : State) (n : Nat) (f : Ctx → Ctx) : (s.modCtx n f).lineKey = s.lineKey := by unfold State.modCtx; split <;> rfl
@[simp] theorem modCtx_poison (s : State) (n : Nat) (f : Ctx → Ctx) : (s.modCtx n f).poison = s.poison := by unfold State.modCtx; split <;> rfl
@[simp] theorem modCtx_nextCtx (s : State) (n : Nat) (f : Ctx → Ctx) : (s.modCtx n f).nextCtx = s.nextCtx := by unfold State.modCtx; split <;> rfl
@[simp] theorem modCtx_queues (s : State) (n : Nat) (f : Ctx → Ctx) : (s.modCtx n f).queues = s.queues := by unfold State.modCtx; split <;> rfl
@[simp] theorem modCtx_recs (s : State) (n : Nat) (f : Ctx → Ctx) : (s.modCtx n f).recs = s.recs := by unfold State.modCtx; split <;> rfl
@[simp] theorem modCtx_nextRec (s : State) (n : Nat) (f : Ctx → Ctx) : (s.modCtx n f).nextRec = s.nextRec := by unfold State.modCtx; split <;> rfl
@[simp] theorem modCtx_pools (s : State) (n : Nat) (f : Ctx → Ctx) : (s.modCtx n f).pools = s.pools := by unfold State.modCtx; split <;> rfl
@[simp] theorem modCtx_fns (s : State) (n : Nat) (f : Ctx → Ctx) : (s.modCtx n f).fns = s.fns := by unfold State.modCtx; split <;> rfl
@[simp] theorem modCtx_pcfg (s : State) (n : Nat) (f : Ctx → Ctx) : (s.modCtx n f).pcfg = s.pcfg := by unfold State.modCtx; split <;> rfl
@[simp] theorem modCtx_repart (s : State) (n : Nat) (f : Ctx → Ctx) : (s.modCtx n f).repart = s.repart := by unfold State.modCtx; split <;> rfl
@[simp] theorem modCtx_modnum (s : State) (n : Nat) (f : Ctx → Ctx) : (s.modCtx n f).modnum = s.modnum := by unfold State.modCtx; split <;> rfl
@[simp] theorem modCtx_keyVer (s : State) (n : Nat) (f : Ctx → Ctx) : (s.modCtx n f).keyVer = s.keyVer := by unfold State.modCtx; split <;> rfl
@[simp] theorem modCtx_tenantVer (s : State) (n : Nat) (f : Ctx → Ctx) : (s.modCtx n f).tenantVer = s.tenantVer := by unfold State.modCtx; split <;> rfl
@[simp] theorem modCtx_ecwin (s : State) (n : Nat) (f : Ctx → Ctx) : (s.modCtx n f).ecwin = s.ecwin := by unfold State.modCtx; split <;> rfl
@[simp] theorem modCtx_ecthr (s : State) (n : Nat) (f : Ctx → Ctx) : (s.modCtx n f).ecthr = s.ecthr := by unfold State.modCtx; split <;> rfl
@[simp] theorem modCtx_hrthr (s : State) (n : Nat) (f : Ctx → Ctx) : (s.modCtx n f).hrthr = s.hrthr := by unfold State.modCtx; split <;> rfl
@[simp] theorem modCtx_pwrlim (s : State) (n : Nat) (f : Ctx → Ctx) : (s.modCtx n f).pwrlim = s.pwrlim := by unfold State.modCtx; split <;> rfl
@[simp] theorem modCtx_pwrgrp (s : State) (n : Nat) (f : Ctx → Ctx) : (s.modCtx n f).pwrgrp = s.pwrgrp := by unfold State.modCtx; split <;> rfl
@[simp] theorem modCtx_pwrstag (s : State) (n : Nat) (f : Ctx → Ctx) : (s.modCtx n f).pwrstag = s.pwrstag := by unfold State.modCtx; split <;> rfl
@[simp] theorem modCtx_pwrstat (s : State) (n : Nat) (f : Ctx → Ctx) : (s.modCtx n f).pwrstat = s.pwrstat := by unfold State.modCtx; split <;> rfl
@[simp] theorem modCtx_power (s : State) (n : Nat) (f : Ctx → Ctx) : (s.modCtx n f).power = s.power := by unfold State.modCtx; split <;> rfl
@[simp] theorem modCtx_throttle (s : State) (n : Nat) (f : Ctx → Ctx) : (s.modCtx n f).throttle = s.throttle := by unfold State.modCtx; split <;> rfl
@[simp] theorem modCtx_fcnt (s : State) (n : Nat) (f : Ctx → Ctx) : (s.modCtx n f).fcnt = s.fcnt := by unfold State.modCtx; split <;> rfl
@[simp] theorem modCtx_fsel (s : State) (n : Nat) (f : Ctx → Ctx) : (s.modCtx n f).fsel = s.fsel := by unfold State.modCtx; split <;> rfl
@[simp] theorem modCtx_boot (s : State) (n : Nat) (f : Ctx → Ctx) : (s.modCtx n f).boot = s.boot := by unfold State.modCtx; split <;> rfl
@[simp] theorem modCtx_session (s : State) (n : Nat) (f : Ctx → Ctx) : (s.modCtx n f).session = s.session := by unfold State.modCtx; split <;> rfl
@[simp] theorem modCtx_link (s : State) (n : Nat) (f : Ctx → Ctx) : (s.modCtx n f).link = s.link := by unfold State.modCtx; split <;> rfl
@[simp] theorem modCtx_failed (s : State) (n : Nat) (f : Ctx → Ctx) : (s.modCtx n f).failed = s.failed := by unfold State.modCtx; split <;> rfl
@[simp] theorem modCtx_msix (s : State) (n : Nat) (f : Ctx → Ctx) : (s.modCtx n f).msix = s.msix := by unfold State.modCtx; split <;> rfl
@[simp] theorem modCtx_cxlOut (s : State) (n : Nat) (f : Ctx → Ctx) : (s.modCtx n f).cxlOut = s.cxlOut := by unfold State.modCtx; split <;> rfl
@[simp] theorem modCtx_spdmOut (s : State) (n : Nat) (f : Ctx → Ctx) : (s.modCtx n f).spdmOut = s.spdmOut := by unfold State.modCtx; split <;> rfl
@[simp] theorem modCtx_stagOut (s : State) (n : Nat) (f : Ctx → Ctx) : (s.modCtx n f).stagOut = s.stagOut := by unfold State.modCtx; split <;> rfl
@[simp] theorem modCtx_remote (s : State) (n : Nat) (f : Ctx → Ctx) : (s.modCtx n f).remote = s.remote := by unfold State.modCtx; split <;> rfl
@[simp] theorem modCtx_ports (s : State) (n : Nat) (f : Ctx → Ctx) : (s.modCtx n f).ports = s.ports := by unfold State.modCtx; split <;> rfl
@[simp] theorem modCtx_waking (s : State) (n : Nat) (f : Ctx → Ctx) : (s.modCtx n f).waking = s.waking := by unfold State.modCtx; split <;> rfl

/-! s.modQueue n f -/

@[simp] theorem modQueue_now (s : State) (n : Nat) (f : Queue → Queue) : (s.modQueue n f).now = s.now := by unfold State.modQueue; split <;> rfl
@[simp] theorem modQueue_turn (s : State) (n : Nat) (f : Queue → Queue) : (s.modQueue n f).turn = s.turn := by unfold State.modQueue; split <;> rfl
@[simp] theorem modQueue_inputs (s : State) (n : Nat) (f : Queue → Queue) : (s.modQueue n f).inputs = s.inputs := by unfold State.modQueue; split <;> rfl
@[simp] theorem modQueue_due (s : State) (n : Nat) (f : Queue → Queue) : (s.modQueue n f).due = s.due := by unfold State.modQueue; split <;> rfl
@[simp] theorem modQueue_cur (s : State) (n : Nat) (f : Queue → Queue) : (s.modQueue n f).cur = s.cur := by unfold State.modQueue; split <;> rfl
@[simp] theorem modQueue_free (s : State) (n : Nat) (f : Queue → Queue) : (s.modQueue n f).free = s.free := by unfold State.modQueue; split <;> rfl
@[simp] theorem modQueue_ids (s : State) (n : Nat) (f : Queue → Queue) : (s.modQueue n f).ids = s.ids := by unfold State.modQueue; split <;> rfl
@[simp] theorem modQueue_cores (s : State) (n : Nat) (f : Queue → Queue) : (s.modQueue n f).cores = s.cores := by unfold State.modQueue; split <;> rfl
@[simp] theorem modQueue_bays (s : State) (n : Nat) (f : Queue → Queue) : (s.modQueue n f).bays = s.bays := by unfold State.modQueue; split <;> rfl
@[simp] theorem modQueue_dies (s : State) (n : Nat) (f : Queue → Queue) : (s.modQueue n f).dies = s.dies := by unfold State.modQueue; split <;> rfl
@[simp] theorem modQueue_bases (s : State) (n : Nat) (f : Queue → Queue) : (s.modQueue n f).bases = s.bases := by unfold State.modQueue; split <;> rfl
@[simp] theorem modQueue_landings (s : State) (n : Nat) (f : Queue → Queue) : (s.modQueue n f).landings = s.landings := by unfold State.modQueue; split <;> rfl
@[simp] theorem modQueue_galleries (s : State) (n : Nat) (f : Queue → Queue) : (s.modQueue n f).galleries = s.galleries := by unfold State.modQueue; split <;> rfl
@[simp] theorem modQueue_deliveries (s : State) (n : Nat) (f : Queue → Queue) : (s.modQueue n f).deliveries = s.deliveries := by unfold State.modQueue; split <;> rfl
@[simp] theorem modQueue_hbm (s : State) (n : Nat) (f : Queue → Queue) : (s.modQueue n f).hbm = s.hbm := by unfold State.modQueue; split <;> rfl
@[simp] theorem modQueue_lineClk (s : State) (n : Nat) (f : Queue → Queue) : (s.modQueue n f).lineClk = s.lineClk := by unfold State.modQueue; split <;> rfl
@[simp] theorem modQueue_lineKey (s : State) (n : Nat) (f : Queue → Queue) : (s.modQueue n f).lineKey = s.lineKey := by unfold State.modQueue; split <;> rfl
@[simp] theorem modQueue_poison (s : State) (n : Nat) (f : Queue → Queue) : (s.modQueue n f).poison = s.poison := by unfold State.modQueue; split <;> rfl
@[simp] theorem modQueue_ctxs (s : State) (n : Nat) (f : Queue → Queue) : (s.modQueue n f).ctxs = s.ctxs := by unfold State.modQueue; split <;> rfl
@[simp] theorem modQueue_nextCtx (s : State) (n : Nat) (f : Queue → Queue) : (s.modQueue n f).nextCtx = s.nextCtx := by unfold State.modQueue; split <;> rfl
@[simp] theorem modQueue_recs (s : State) (n : Nat) (f : Queue → Queue) : (s.modQueue n f).recs = s.recs := by unfold State.modQueue; split <;> rfl
@[simp] theorem modQueue_nextRec (s : State) (n : Nat) (f : Queue → Queue) : (s.modQueue n f).nextRec = s.nextRec := by unfold State.modQueue; split <;> rfl
@[simp] theorem modQueue_pools (s : State) (n : Nat) (f : Queue → Queue) : (s.modQueue n f).pools = s.pools := by unfold State.modQueue; split <;> rfl
@[simp] theorem modQueue_fns (s : State) (n : Nat) (f : Queue → Queue) : (s.modQueue n f).fns = s.fns := by unfold State.modQueue; split <;> rfl
@[simp] theorem modQueue_pcfg (s : State) (n : Nat) (f : Queue → Queue) : (s.modQueue n f).pcfg = s.pcfg := by unfold State.modQueue; split <;> rfl
@[simp] theorem modQueue_repart (s : State) (n : Nat) (f : Queue → Queue) : (s.modQueue n f).repart = s.repart := by unfold State.modQueue; split <;> rfl
@[simp] theorem modQueue_modnum (s : State) (n : Nat) (f : Queue → Queue) : (s.modQueue n f).modnum = s.modnum := by unfold State.modQueue; split <;> rfl
@[simp] theorem modQueue_keyVer (s : State) (n : Nat) (f : Queue → Queue) : (s.modQueue n f).keyVer = s.keyVer := by unfold State.modQueue; split <;> rfl
@[simp] theorem modQueue_tenantVer (s : State) (n : Nat) (f : Queue → Queue) : (s.modQueue n f).tenantVer = s.tenantVer := by unfold State.modQueue; split <;> rfl
@[simp] theorem modQueue_ecwin (s : State) (n : Nat) (f : Queue → Queue) : (s.modQueue n f).ecwin = s.ecwin := by unfold State.modQueue; split <;> rfl
@[simp] theorem modQueue_ecthr (s : State) (n : Nat) (f : Queue → Queue) : (s.modQueue n f).ecthr = s.ecthr := by unfold State.modQueue; split <;> rfl
@[simp] theorem modQueue_hrthr (s : State) (n : Nat) (f : Queue → Queue) : (s.modQueue n f).hrthr = s.hrthr := by unfold State.modQueue; split <;> rfl
@[simp] theorem modQueue_pwrlim (s : State) (n : Nat) (f : Queue → Queue) : (s.modQueue n f).pwrlim = s.pwrlim := by unfold State.modQueue; split <;> rfl
@[simp] theorem modQueue_pwrgrp (s : State) (n : Nat) (f : Queue → Queue) : (s.modQueue n f).pwrgrp = s.pwrgrp := by unfold State.modQueue; split <;> rfl
@[simp] theorem modQueue_pwrstag (s : State) (n : Nat) (f : Queue → Queue) : (s.modQueue n f).pwrstag = s.pwrstag := by unfold State.modQueue; split <;> rfl
@[simp] theorem modQueue_pwrstat (s : State) (n : Nat) (f : Queue → Queue) : (s.modQueue n f).pwrstat = s.pwrstat := by unfold State.modQueue; split <;> rfl
@[simp] theorem modQueue_power (s : State) (n : Nat) (f : Queue → Queue) : (s.modQueue n f).power = s.power := by unfold State.modQueue; split <;> rfl
@[simp] theorem modQueue_throttle (s : State) (n : Nat) (f : Queue → Queue) : (s.modQueue n f).throttle = s.throttle := by unfold State.modQueue; split <;> rfl
@[simp] theorem modQueue_fcnt (s : State) (n : Nat) (f : Queue → Queue) : (s.modQueue n f).fcnt = s.fcnt := by unfold State.modQueue; split <;> rfl
@[simp] theorem modQueue_fsel (s : State) (n : Nat) (f : Queue → Queue) : (s.modQueue n f).fsel = s.fsel := by unfold State.modQueue; split <;> rfl
@[simp] theorem modQueue_boot (s : State) (n : Nat) (f : Queue → Queue) : (s.modQueue n f).boot = s.boot := by unfold State.modQueue; split <;> rfl
@[simp] theorem modQueue_session (s : State) (n : Nat) (f : Queue → Queue) : (s.modQueue n f).session = s.session := by unfold State.modQueue; split <;> rfl
@[simp] theorem modQueue_link (s : State) (n : Nat) (f : Queue → Queue) : (s.modQueue n f).link = s.link := by unfold State.modQueue; split <;> rfl
@[simp] theorem modQueue_failed (s : State) (n : Nat) (f : Queue → Queue) : (s.modQueue n f).failed = s.failed := by unfold State.modQueue; split <;> rfl
@[simp] theorem modQueue_msix (s : State) (n : Nat) (f : Queue → Queue) : (s.modQueue n f).msix = s.msix := by unfold State.modQueue; split <;> rfl
@[simp] theorem modQueue_cxlOut (s : State) (n : Nat) (f : Queue → Queue) : (s.modQueue n f).cxlOut = s.cxlOut := by unfold State.modQueue; split <;> rfl
@[simp] theorem modQueue_spdmOut (s : State) (n : Nat) (f : Queue → Queue) : (s.modQueue n f).spdmOut = s.spdmOut := by unfold State.modQueue; split <;> rfl
@[simp] theorem modQueue_stagOut (s : State) (n : Nat) (f : Queue → Queue) : (s.modQueue n f).stagOut = s.stagOut := by unfold State.modQueue; split <;> rfl
@[simp] theorem modQueue_remote (s : State) (n : Nat) (f : Queue → Queue) : (s.modQueue n f).remote = s.remote := by unfold State.modQueue; split <;> rfl
@[simp] theorem modQueue_ports (s : State) (n : Nat) (f : Queue → Queue) : (s.modQueue n f).ports = s.ports := by unfold State.modQueue; split <;> rfl
@[simp] theorem modQueue_waking (s : State) (n : Nat) (f : Queue → Queue) : (s.modQueue n f).waking = s.waking := by unfold State.modQueue; split <;> rfl

/-! s.modRec n f -/

@[simp] theorem modRec_now (s : State) (n : Nat) (f : Rec → Rec) : (s.modRec n f).now = s.now := by unfold State.modRec; split <;> rfl
@[simp] theorem modRec_turn (s : State) (n : Nat) (f : Rec → Rec) : (s.modRec n f).turn = s.turn := by unfold State.modRec; split <;> rfl
@[simp] theorem modRec_inputs (s : State) (n : Nat) (f : Rec → Rec) : (s.modRec n f).inputs = s.inputs := by unfold State.modRec; split <;> rfl
@[simp] theorem modRec_due (s : State) (n : Nat) (f : Rec → Rec) : (s.modRec n f).due = s.due := by unfold State.modRec; split <;> rfl
@[simp] theorem modRec_cur (s : State) (n : Nat) (f : Rec → Rec) : (s.modRec n f).cur = s.cur := by unfold State.modRec; split <;> rfl
@[simp] theorem modRec_free (s : State) (n : Nat) (f : Rec → Rec) : (s.modRec n f).free = s.free := by unfold State.modRec; split <;> rfl
@[simp] theorem modRec_ids (s : State) (n : Nat) (f : Rec → Rec) : (s.modRec n f).ids = s.ids := by unfold State.modRec; split <;> rfl
@[simp] theorem modRec_cores (s : State) (n : Nat) (f : Rec → Rec) : (s.modRec n f).cores = s.cores := by unfold State.modRec; split <;> rfl
@[simp] theorem modRec_bays (s : State) (n : Nat) (f : Rec → Rec) : (s.modRec n f).bays = s.bays := by unfold State.modRec; split <;> rfl
@[simp] theorem modRec_dies (s : State) (n : Nat) (f : Rec → Rec) : (s.modRec n f).dies = s.dies := by unfold State.modRec; split <;> rfl
@[simp] theorem modRec_bases (s : State) (n : Nat) (f : Rec → Rec) : (s.modRec n f).bases = s.bases := by unfold State.modRec; split <;> rfl
@[simp] theorem modRec_landings (s : State) (n : Nat) (f : Rec → Rec) : (s.modRec n f).landings = s.landings := by unfold State.modRec; split <;> rfl
@[simp] theorem modRec_galleries (s : State) (n : Nat) (f : Rec → Rec) : (s.modRec n f).galleries = s.galleries := by unfold State.modRec; split <;> rfl
@[simp] theorem modRec_deliveries (s : State) (n : Nat) (f : Rec → Rec) : (s.modRec n f).deliveries = s.deliveries := by unfold State.modRec; split <;> rfl
@[simp] theorem modRec_hbm (s : State) (n : Nat) (f : Rec → Rec) : (s.modRec n f).hbm = s.hbm := by unfold State.modRec; split <;> rfl
@[simp] theorem modRec_lineClk (s : State) (n : Nat) (f : Rec → Rec) : (s.modRec n f).lineClk = s.lineClk := by unfold State.modRec; split <;> rfl
@[simp] theorem modRec_lineKey (s : State) (n : Nat) (f : Rec → Rec) : (s.modRec n f).lineKey = s.lineKey := by unfold State.modRec; split <;> rfl
@[simp] theorem modRec_poison (s : State) (n : Nat) (f : Rec → Rec) : (s.modRec n f).poison = s.poison := by unfold State.modRec; split <;> rfl
@[simp] theorem modRec_ctxs (s : State) (n : Nat) (f : Rec → Rec) : (s.modRec n f).ctxs = s.ctxs := by unfold State.modRec; split <;> rfl
@[simp] theorem modRec_nextCtx (s : State) (n : Nat) (f : Rec → Rec) : (s.modRec n f).nextCtx = s.nextCtx := by unfold State.modRec; split <;> rfl
@[simp] theorem modRec_queues (s : State) (n : Nat) (f : Rec → Rec) : (s.modRec n f).queues = s.queues := by unfold State.modRec; split <;> rfl
@[simp] theorem modRec_nextRec (s : State) (n : Nat) (f : Rec → Rec) : (s.modRec n f).nextRec = s.nextRec := by unfold State.modRec; split <;> rfl
@[simp] theorem modRec_pools (s : State) (n : Nat) (f : Rec → Rec) : (s.modRec n f).pools = s.pools := by unfold State.modRec; split <;> rfl
@[simp] theorem modRec_fns (s : State) (n : Nat) (f : Rec → Rec) : (s.modRec n f).fns = s.fns := by unfold State.modRec; split <;> rfl
@[simp] theorem modRec_pcfg (s : State) (n : Nat) (f : Rec → Rec) : (s.modRec n f).pcfg = s.pcfg := by unfold State.modRec; split <;> rfl
@[simp] theorem modRec_repart (s : State) (n : Nat) (f : Rec → Rec) : (s.modRec n f).repart = s.repart := by unfold State.modRec; split <;> rfl
@[simp] theorem modRec_modnum (s : State) (n : Nat) (f : Rec → Rec) : (s.modRec n f).modnum = s.modnum := by unfold State.modRec; split <;> rfl
@[simp] theorem modRec_keyVer (s : State) (n : Nat) (f : Rec → Rec) : (s.modRec n f).keyVer = s.keyVer := by unfold State.modRec; split <;> rfl
@[simp] theorem modRec_tenantVer (s : State) (n : Nat) (f : Rec → Rec) : (s.modRec n f).tenantVer = s.tenantVer := by unfold State.modRec; split <;> rfl
@[simp] theorem modRec_ecwin (s : State) (n : Nat) (f : Rec → Rec) : (s.modRec n f).ecwin = s.ecwin := by unfold State.modRec; split <;> rfl
@[simp] theorem modRec_ecthr (s : State) (n : Nat) (f : Rec → Rec) : (s.modRec n f).ecthr = s.ecthr := by unfold State.modRec; split <;> rfl
@[simp] theorem modRec_hrthr (s : State) (n : Nat) (f : Rec → Rec) : (s.modRec n f).hrthr = s.hrthr := by unfold State.modRec; split <;> rfl
@[simp] theorem modRec_pwrlim (s : State) (n : Nat) (f : Rec → Rec) : (s.modRec n f).pwrlim = s.pwrlim := by unfold State.modRec; split <;> rfl
@[simp] theorem modRec_pwrgrp (s : State) (n : Nat) (f : Rec → Rec) : (s.modRec n f).pwrgrp = s.pwrgrp := by unfold State.modRec; split <;> rfl
@[simp] theorem modRec_pwrstag (s : State) (n : Nat) (f : Rec → Rec) : (s.modRec n f).pwrstag = s.pwrstag := by unfold State.modRec; split <;> rfl
@[simp] theorem modRec_pwrstat (s : State) (n : Nat) (f : Rec → Rec) : (s.modRec n f).pwrstat = s.pwrstat := by unfold State.modRec; split <;> rfl
@[simp] theorem modRec_power (s : State) (n : Nat) (f : Rec → Rec) : (s.modRec n f).power = s.power := by unfold State.modRec; split <;> rfl
@[simp] theorem modRec_throttle (s : State) (n : Nat) (f : Rec → Rec) : (s.modRec n f).throttle = s.throttle := by unfold State.modRec; split <;> rfl
@[simp] theorem modRec_fcnt (s : State) (n : Nat) (f : Rec → Rec) : (s.modRec n f).fcnt = s.fcnt := by unfold State.modRec; split <;> rfl
@[simp] theorem modRec_fsel (s : State) (n : Nat) (f : Rec → Rec) : (s.modRec n f).fsel = s.fsel := by unfold State.modRec; split <;> rfl
@[simp] theorem modRec_boot (s : State) (n : Nat) (f : Rec → Rec) : (s.modRec n f).boot = s.boot := by unfold State.modRec; split <;> rfl
@[simp] theorem modRec_session (s : State) (n : Nat) (f : Rec → Rec) : (s.modRec n f).session = s.session := by unfold State.modRec; split <;> rfl
@[simp] theorem modRec_link (s : State) (n : Nat) (f : Rec → Rec) : (s.modRec n f).link = s.link := by unfold State.modRec; split <;> rfl
@[simp] theorem modRec_failed (s : State) (n : Nat) (f : Rec → Rec) : (s.modRec n f).failed = s.failed := by unfold State.modRec; split <;> rfl
@[simp] theorem modRec_msix (s : State) (n : Nat) (f : Rec → Rec) : (s.modRec n f).msix = s.msix := by unfold State.modRec; split <;> rfl
@[simp] theorem modRec_cxlOut (s : State) (n : Nat) (f : Rec → Rec) : (s.modRec n f).cxlOut = s.cxlOut := by unfold State.modRec; split <;> rfl
@[simp] theorem modRec_spdmOut (s : State) (n : Nat) (f : Rec → Rec) : (s.modRec n f).spdmOut = s.spdmOut := by unfold State.modRec; split <;> rfl
@[simp] theorem modRec_stagOut (s : State) (n : Nat) (f : Rec → Rec) : (s.modRec n f).stagOut = s.stagOut := by unfold State.modRec; split <;> rfl
@[simp] theorem modRec_remote (s : State) (n : Nat) (f : Rec → Rec) : (s.modRec n f).remote = s.remote := by unfold State.modRec; split <;> rfl
@[simp] theorem modRec_ports (s : State) (n : Nat) (f : Rec → Rec) : (s.modRec n f).ports = s.ports := by unfold State.modRec; split <;> rfl
@[simp] theorem modRec_waking (s : State) (n : Nat) (f : Rec → Rec) : (s.modRec n f).waking = s.waking := by unfold State.modRec; split <;> rfl

/-! s.modChan n k f -/

@[simp] theorem modChan_now (s : State) (n k : Nat) (f : Chan → Chan) : (s.modChan n k f).now = s.now := modCtx_now s n _
@[simp] theorem modChan_turn (s : State) (n k : Nat) (f : Chan → Chan) : (s.modChan n k f).turn = s.turn := modCtx_turn s n _
@[simp] theorem modChan_inputs (s : State) (n k : Nat) (f : Chan → Chan) : (s.modChan n k f).inputs = s.inputs := modCtx_inputs s n _
@[simp] theorem modChan_due (s : State) (n k : Nat) (f : Chan → Chan) : (s.modChan n k f).due = s.due := modCtx_due s n _
@[simp] theorem modChan_cur (s : State) (n k : Nat) (f : Chan → Chan) : (s.modChan n k f).cur = s.cur := modCtx_cur s n _
@[simp] theorem modChan_free (s : State) (n k : Nat) (f : Chan → Chan) : (s.modChan n k f).free = s.free := modCtx_free s n _
@[simp] theorem modChan_ids (s : State) (n k : Nat) (f : Chan → Chan) : (s.modChan n k f).ids = s.ids := modCtx_ids s n _
@[simp] theorem modChan_cores (s : State) (n k : Nat) (f : Chan → Chan) : (s.modChan n k f).cores = s.cores := modCtx_cores s n _
@[simp] theorem modChan_bays (s : State) (n k : Nat) (f : Chan → Chan) : (s.modChan n k f).bays = s.bays := modCtx_bays s n _
@[simp] theorem modChan_dies (s : State) (n k : Nat) (f : Chan → Chan) : (s.modChan n k f).dies = s.dies := modCtx_dies s n _
@[simp] theorem modChan_bases (s : State) (n k : Nat) (f : Chan → Chan) : (s.modChan n k f).bases = s.bases := modCtx_bases s n _
@[simp] theorem modChan_landings (s : State) (n k : Nat) (f : Chan → Chan) : (s.modChan n k f).landings = s.landings := modCtx_landings s n _
@[simp] theorem modChan_galleries (s : State) (n k : Nat) (f : Chan → Chan) : (s.modChan n k f).galleries = s.galleries := modCtx_galleries s n _
@[simp] theorem modChan_deliveries (s : State) (n k : Nat) (f : Chan → Chan) : (s.modChan n k f).deliveries = s.deliveries := modCtx_deliveries s n _
@[simp] theorem modChan_hbm (s : State) (n k : Nat) (f : Chan → Chan) : (s.modChan n k f).hbm = s.hbm := modCtx_hbm s n _
@[simp] theorem modChan_lineClk (s : State) (n k : Nat) (f : Chan → Chan) : (s.modChan n k f).lineClk = s.lineClk := modCtx_lineClk s n _
@[simp] theorem modChan_lineKey (s : State) (n k : Nat) (f : Chan → Chan) : (s.modChan n k f).lineKey = s.lineKey := modCtx_lineKey s n _
@[simp] theorem modChan_poison (s : State) (n k : Nat) (f : Chan → Chan) : (s.modChan n k f).poison = s.poison := modCtx_poison s n _
@[simp] theorem modChan_nextCtx (s : State) (n k : Nat) (f : Chan → Chan) : (s.modChan n k f).nextCtx = s.nextCtx := modCtx_nextCtx s n _
@[simp] theorem modChan_queues (s : State) (n k : Nat) (f : Chan → Chan) : (s.modChan n k f).queues = s.queues := modCtx_queues s n _
@[simp] theorem modChan_recs (s : State) (n k : Nat) (f : Chan → Chan) : (s.modChan n k f).recs = s.recs := modCtx_recs s n _
@[simp] theorem modChan_nextRec (s : State) (n k : Nat) (f : Chan → Chan) : (s.modChan n k f).nextRec = s.nextRec := modCtx_nextRec s n _
@[simp] theorem modChan_pools (s : State) (n k : Nat) (f : Chan → Chan) : (s.modChan n k f).pools = s.pools := modCtx_pools s n _
@[simp] theorem modChan_fns (s : State) (n k : Nat) (f : Chan → Chan) : (s.modChan n k f).fns = s.fns := modCtx_fns s n _
@[simp] theorem modChan_pcfg (s : State) (n k : Nat) (f : Chan → Chan) : (s.modChan n k f).pcfg = s.pcfg := modCtx_pcfg s n _
@[simp] theorem modChan_repart (s : State) (n k : Nat) (f : Chan → Chan) : (s.modChan n k f).repart = s.repart := modCtx_repart s n _
@[simp] theorem modChan_modnum (s : State) (n k : Nat) (f : Chan → Chan) : (s.modChan n k f).modnum = s.modnum := modCtx_modnum s n _
@[simp] theorem modChan_keyVer (s : State) (n k : Nat) (f : Chan → Chan) : (s.modChan n k f).keyVer = s.keyVer := modCtx_keyVer s n _
@[simp] theorem modChan_tenantVer (s : State) (n k : Nat) (f : Chan → Chan) : (s.modChan n k f).tenantVer = s.tenantVer := modCtx_tenantVer s n _
@[simp] theorem modChan_ecwin (s : State) (n k : Nat) (f : Chan → Chan) : (s.modChan n k f).ecwin = s.ecwin := modCtx_ecwin s n _
@[simp] theorem modChan_ecthr (s : State) (n k : Nat) (f : Chan → Chan) : (s.modChan n k f).ecthr = s.ecthr := modCtx_ecthr s n _
@[simp] theorem modChan_hrthr (s : State) (n k : Nat) (f : Chan → Chan) : (s.modChan n k f).hrthr = s.hrthr := modCtx_hrthr s n _
@[simp] theorem modChan_pwrlim (s : State) (n k : Nat) (f : Chan → Chan) : (s.modChan n k f).pwrlim = s.pwrlim := modCtx_pwrlim s n _
@[simp] theorem modChan_pwrgrp (s : State) (n k : Nat) (f : Chan → Chan) : (s.modChan n k f).pwrgrp = s.pwrgrp := modCtx_pwrgrp s n _
@[simp] theorem modChan_pwrstag (s : State) (n k : Nat) (f : Chan → Chan) : (s.modChan n k f).pwrstag = s.pwrstag := modCtx_pwrstag s n _
@[simp] theorem modChan_pwrstat (s : State) (n k : Nat) (f : Chan → Chan) : (s.modChan n k f).pwrstat = s.pwrstat := modCtx_pwrstat s n _
@[simp] theorem modChan_power (s : State) (n k : Nat) (f : Chan → Chan) : (s.modChan n k f).power = s.power := modCtx_power s n _
@[simp] theorem modChan_throttle (s : State) (n k : Nat) (f : Chan → Chan) : (s.modChan n k f).throttle = s.throttle := modCtx_throttle s n _
@[simp] theorem modChan_fcnt (s : State) (n k : Nat) (f : Chan → Chan) : (s.modChan n k f).fcnt = s.fcnt := modCtx_fcnt s n _
@[simp] theorem modChan_fsel (s : State) (n k : Nat) (f : Chan → Chan) : (s.modChan n k f).fsel = s.fsel := modCtx_fsel s n _
@[simp] theorem modChan_boot (s : State) (n k : Nat) (f : Chan → Chan) : (s.modChan n k f).boot = s.boot := modCtx_boot s n _
@[simp] theorem modChan_session (s : State) (n k : Nat) (f : Chan → Chan) : (s.modChan n k f).session = s.session := modCtx_session s n _
@[simp] theorem modChan_link (s : State) (n k : Nat) (f : Chan → Chan) : (s.modChan n k f).link = s.link := modCtx_link s n _
@[simp] theorem modChan_failed (s : State) (n k : Nat) (f : Chan → Chan) : (s.modChan n k f).failed = s.failed := modCtx_failed s n _
@[simp] theorem modChan_msix (s : State) (n k : Nat) (f : Chan → Chan) : (s.modChan n k f).msix = s.msix := modCtx_msix s n _
@[simp] theorem modChan_cxlOut (s : State) (n k : Nat) (f : Chan → Chan) : (s.modChan n k f).cxlOut = s.cxlOut := modCtx_cxlOut s n _
@[simp] theorem modChan_spdmOut (s : State) (n k : Nat) (f : Chan → Chan) : (s.modChan n k f).spdmOut = s.spdmOut := modCtx_spdmOut s n _
@[simp] theorem modChan_stagOut (s : State) (n k : Nat) (f : Chan → Chan) : (s.modChan n k f).stagOut = s.stagOut := modCtx_stagOut s n _
@[simp] theorem modChan_remote (s : State) (n k : Nat) (f : Chan → Chan) : (s.modChan n k f).remote = s.remote := modCtx_remote s n _
@[simp] theorem modChan_ports (s : State) (n k : Nat) (f : Chan → Chan) : (s.modChan n k f).ports = s.ports := modCtx_ports s n _
@[simp] theorem modChan_waking (s : State) (n k : Nat) (f : Chan → Chan) : (s.modChan n k f).waking = s.waking := modCtx_waking s n _

/-! s.modTag n k f -/

@[simp] theorem modTag_now (s : State) (n k : Nat) (f : TagSt → TagSt) : (s.modTag n k f).now = s.now := modCtx_now s n _
@[simp] theorem modTag_turn (s : State) (n k : Nat) (f : TagSt → TagSt) : (s.modTag n k f).turn = s.turn := modCtx_turn s n _
@[simp] theorem modTag_inputs (s : State) (n k : Nat) (f : TagSt → TagSt) : (s.modTag n k f).inputs = s.inputs := modCtx_inputs s n _
@[simp] theorem modTag_due (s : State) (n k : Nat) (f : TagSt → TagSt) : (s.modTag n k f).due = s.due := modCtx_due s n _
@[simp] theorem modTag_cur (s : State) (n k : Nat) (f : TagSt → TagSt) : (s.modTag n k f).cur = s.cur := modCtx_cur s n _
@[simp] theorem modTag_free (s : State) (n k : Nat) (f : TagSt → TagSt) : (s.modTag n k f).free = s.free := modCtx_free s n _
@[simp] theorem modTag_ids (s : State) (n k : Nat) (f : TagSt → TagSt) : (s.modTag n k f).ids = s.ids := modCtx_ids s n _
@[simp] theorem modTag_cores (s : State) (n k : Nat) (f : TagSt → TagSt) : (s.modTag n k f).cores = s.cores := modCtx_cores s n _
@[simp] theorem modTag_bays (s : State) (n k : Nat) (f : TagSt → TagSt) : (s.modTag n k f).bays = s.bays := modCtx_bays s n _
@[simp] theorem modTag_dies (s : State) (n k : Nat) (f : TagSt → TagSt) : (s.modTag n k f).dies = s.dies := modCtx_dies s n _
@[simp] theorem modTag_bases (s : State) (n k : Nat) (f : TagSt → TagSt) : (s.modTag n k f).bases = s.bases := modCtx_bases s n _
@[simp] theorem modTag_landings (s : State) (n k : Nat) (f : TagSt → TagSt) : (s.modTag n k f).landings = s.landings := modCtx_landings s n _
@[simp] theorem modTag_galleries (s : State) (n k : Nat) (f : TagSt → TagSt) : (s.modTag n k f).galleries = s.galleries := modCtx_galleries s n _
@[simp] theorem modTag_deliveries (s : State) (n k : Nat) (f : TagSt → TagSt) : (s.modTag n k f).deliveries = s.deliveries := modCtx_deliveries s n _
@[simp] theorem modTag_hbm (s : State) (n k : Nat) (f : TagSt → TagSt) : (s.modTag n k f).hbm = s.hbm := modCtx_hbm s n _
@[simp] theorem modTag_lineClk (s : State) (n k : Nat) (f : TagSt → TagSt) : (s.modTag n k f).lineClk = s.lineClk := modCtx_lineClk s n _
@[simp] theorem modTag_lineKey (s : State) (n k : Nat) (f : TagSt → TagSt) : (s.modTag n k f).lineKey = s.lineKey := modCtx_lineKey s n _
@[simp] theorem modTag_poison (s : State) (n k : Nat) (f : TagSt → TagSt) : (s.modTag n k f).poison = s.poison := modCtx_poison s n _
@[simp] theorem modTag_nextCtx (s : State) (n k : Nat) (f : TagSt → TagSt) : (s.modTag n k f).nextCtx = s.nextCtx := modCtx_nextCtx s n _
@[simp] theorem modTag_queues (s : State) (n k : Nat) (f : TagSt → TagSt) : (s.modTag n k f).queues = s.queues := modCtx_queues s n _
@[simp] theorem modTag_recs (s : State) (n k : Nat) (f : TagSt → TagSt) : (s.modTag n k f).recs = s.recs := modCtx_recs s n _
@[simp] theorem modTag_nextRec (s : State) (n k : Nat) (f : TagSt → TagSt) : (s.modTag n k f).nextRec = s.nextRec := modCtx_nextRec s n _
@[simp] theorem modTag_pools (s : State) (n k : Nat) (f : TagSt → TagSt) : (s.modTag n k f).pools = s.pools := modCtx_pools s n _
@[simp] theorem modTag_fns (s : State) (n k : Nat) (f : TagSt → TagSt) : (s.modTag n k f).fns = s.fns := modCtx_fns s n _
@[simp] theorem modTag_pcfg (s : State) (n k : Nat) (f : TagSt → TagSt) : (s.modTag n k f).pcfg = s.pcfg := modCtx_pcfg s n _
@[simp] theorem modTag_repart (s : State) (n k : Nat) (f : TagSt → TagSt) : (s.modTag n k f).repart = s.repart := modCtx_repart s n _
@[simp] theorem modTag_modnum (s : State) (n k : Nat) (f : TagSt → TagSt) : (s.modTag n k f).modnum = s.modnum := modCtx_modnum s n _
@[simp] theorem modTag_keyVer (s : State) (n k : Nat) (f : TagSt → TagSt) : (s.modTag n k f).keyVer = s.keyVer := modCtx_keyVer s n _
@[simp] theorem modTag_tenantVer (s : State) (n k : Nat) (f : TagSt → TagSt) : (s.modTag n k f).tenantVer = s.tenantVer := modCtx_tenantVer s n _
@[simp] theorem modTag_ecwin (s : State) (n k : Nat) (f : TagSt → TagSt) : (s.modTag n k f).ecwin = s.ecwin := modCtx_ecwin s n _
@[simp] theorem modTag_ecthr (s : State) (n k : Nat) (f : TagSt → TagSt) : (s.modTag n k f).ecthr = s.ecthr := modCtx_ecthr s n _
@[simp] theorem modTag_hrthr (s : State) (n k : Nat) (f : TagSt → TagSt) : (s.modTag n k f).hrthr = s.hrthr := modCtx_hrthr s n _
@[simp] theorem modTag_pwrlim (s : State) (n k : Nat) (f : TagSt → TagSt) : (s.modTag n k f).pwrlim = s.pwrlim := modCtx_pwrlim s n _
@[simp] theorem modTag_pwrgrp (s : State) (n k : Nat) (f : TagSt → TagSt) : (s.modTag n k f).pwrgrp = s.pwrgrp := modCtx_pwrgrp s n _
@[simp] theorem modTag_pwrstag (s : State) (n k : Nat) (f : TagSt → TagSt) : (s.modTag n k f).pwrstag = s.pwrstag := modCtx_pwrstag s n _
@[simp] theorem modTag_pwrstat (s : State) (n k : Nat) (f : TagSt → TagSt) : (s.modTag n k f).pwrstat = s.pwrstat := modCtx_pwrstat s n _
@[simp] theorem modTag_power (s : State) (n k : Nat) (f : TagSt → TagSt) : (s.modTag n k f).power = s.power := modCtx_power s n _
@[simp] theorem modTag_throttle (s : State) (n k : Nat) (f : TagSt → TagSt) : (s.modTag n k f).throttle = s.throttle := modCtx_throttle s n _
@[simp] theorem modTag_fcnt (s : State) (n k : Nat) (f : TagSt → TagSt) : (s.modTag n k f).fcnt = s.fcnt := modCtx_fcnt s n _
@[simp] theorem modTag_fsel (s : State) (n k : Nat) (f : TagSt → TagSt) : (s.modTag n k f).fsel = s.fsel := modCtx_fsel s n _
@[simp] theorem modTag_boot (s : State) (n k : Nat) (f : TagSt → TagSt) : (s.modTag n k f).boot = s.boot := modCtx_boot s n _
@[simp] theorem modTag_session (s : State) (n k : Nat) (f : TagSt → TagSt) : (s.modTag n k f).session = s.session := modCtx_session s n _
@[simp] theorem modTag_link (s : State) (n k : Nat) (f : TagSt → TagSt) : (s.modTag n k f).link = s.link := modCtx_link s n _
@[simp] theorem modTag_failed (s : State) (n k : Nat) (f : TagSt → TagSt) : (s.modTag n k f).failed = s.failed := modCtx_failed s n _
@[simp] theorem modTag_msix (s : State) (n k : Nat) (f : TagSt → TagSt) : (s.modTag n k f).msix = s.msix := modCtx_msix s n _
@[simp] theorem modTag_cxlOut (s : State) (n k : Nat) (f : TagSt → TagSt) : (s.modTag n k f).cxlOut = s.cxlOut := modCtx_cxlOut s n _
@[simp] theorem modTag_spdmOut (s : State) (n k : Nat) (f : TagSt → TagSt) : (s.modTag n k f).spdmOut = s.spdmOut := modCtx_spdmOut s n _
@[simp] theorem modTag_stagOut (s : State) (n k : Nat) (f : TagSt → TagSt) : (s.modTag n k f).stagOut = s.stagOut := modCtx_stagOut s n _
@[simp] theorem modTag_remote (s : State) (n k : Nat) (f : TagSt → TagSt) : (s.modTag n k f).remote = s.remote := modCtx_remote s n _
@[simp] theorem modTag_ports (s : State) (n k : Nat) (f : TagSt → TagSt) : (s.modTag n k f).ports = s.ports := modCtx_ports s n _
@[simp] theorem modTag_waking (s : State) (n k : Nat) (f : TagSt → TagSt) : (s.modTag n k f).waking = s.waking := modCtx_waking s n _

/-! s.postOnce t i -/

@[simp] theorem postOnce_now (s : State) (t : Nat) (i : Instr) : (s.postOnce t i).now = s.now := by unfold State.postOnce; split <;> rfl
@[simp] theorem postOnce_turn (s : State) (t : Nat) (i : Instr) : (s.postOnce t i).turn = s.turn := by unfold State.postOnce; split <;> rfl
@[simp] theorem postOnce_inputs (s : State) (t : Nat) (i : Instr) : (s.postOnce t i).inputs = s.inputs := by unfold State.postOnce; split <;> rfl
@[simp] theorem postOnce_cur (s : State) (t : Nat) (i : Instr) : (s.postOnce t i).cur = s.cur := by unfold State.postOnce; split <;> rfl
@[simp] theorem postOnce_free (s : State) (t : Nat) (i : Instr) : (s.postOnce t i).free = s.free := by unfold State.postOnce; split <;> rfl
@[simp] theorem postOnce_ids (s : State) (t : Nat) (i : Instr) : (s.postOnce t i).ids = s.ids := by unfold State.postOnce; split <;> rfl
@[simp] theorem postOnce_cores (s : State) (t : Nat) (i : Instr) : (s.postOnce t i).cores = s.cores := by unfold State.postOnce; split <;> rfl
@[simp] theorem postOnce_bays (s : State) (t : Nat) (i : Instr) : (s.postOnce t i).bays = s.bays := by unfold State.postOnce; split <;> rfl
@[simp] theorem postOnce_dies (s : State) (t : Nat) (i : Instr) : (s.postOnce t i).dies = s.dies := by unfold State.postOnce; split <;> rfl
@[simp] theorem postOnce_bases (s : State) (t : Nat) (i : Instr) : (s.postOnce t i).bases = s.bases := by unfold State.postOnce; split <;> rfl
@[simp] theorem postOnce_landings (s : State) (t : Nat) (i : Instr) : (s.postOnce t i).landings = s.landings := by unfold State.postOnce; split <;> rfl
@[simp] theorem postOnce_galleries (s : State) (t : Nat) (i : Instr) : (s.postOnce t i).galleries = s.galleries := by unfold State.postOnce; split <;> rfl
@[simp] theorem postOnce_deliveries (s : State) (t : Nat) (i : Instr) : (s.postOnce t i).deliveries = s.deliveries := by unfold State.postOnce; split <;> rfl
@[simp] theorem postOnce_hbm (s : State) (t : Nat) (i : Instr) : (s.postOnce t i).hbm = s.hbm := by unfold State.postOnce; split <;> rfl
@[simp] theorem postOnce_lineClk (s : State) (t : Nat) (i : Instr) : (s.postOnce t i).lineClk = s.lineClk := by unfold State.postOnce; split <;> rfl
@[simp] theorem postOnce_lineKey (s : State) (t : Nat) (i : Instr) : (s.postOnce t i).lineKey = s.lineKey := by unfold State.postOnce; split <;> rfl
@[simp] theorem postOnce_poison (s : State) (t : Nat) (i : Instr) : (s.postOnce t i).poison = s.poison := by unfold State.postOnce; split <;> rfl
@[simp] theorem postOnce_ctxs (s : State) (t : Nat) (i : Instr) : (s.postOnce t i).ctxs = s.ctxs := by unfold State.postOnce; split <;> rfl
@[simp] theorem postOnce_nextCtx (s : State) (t : Nat) (i : Instr) : (s.postOnce t i).nextCtx = s.nextCtx := by unfold State.postOnce; split <;> rfl
@[simp] theorem postOnce_queues (s : State) (t : Nat) (i : Instr) : (s.postOnce t i).queues = s.queues := by unfold State.postOnce; split <;> rfl
@[simp] theorem postOnce_recs (s : State) (t : Nat) (i : Instr) : (s.postOnce t i).recs = s.recs := by unfold State.postOnce; split <;> rfl
@[simp] theorem postOnce_nextRec (s : State) (t : Nat) (i : Instr) : (s.postOnce t i).nextRec = s.nextRec := by unfold State.postOnce; split <;> rfl
@[simp] theorem postOnce_pools (s : State) (t : Nat) (i : Instr) : (s.postOnce t i).pools = s.pools := by unfold State.postOnce; split <;> rfl
@[simp] theorem postOnce_fns (s : State) (t : Nat) (i : Instr) : (s.postOnce t i).fns = s.fns := by unfold State.postOnce; split <;> rfl
@[simp] theorem postOnce_pcfg (s : State) (t : Nat) (i : Instr) : (s.postOnce t i).pcfg = s.pcfg := by unfold State.postOnce; split <;> rfl
@[simp] theorem postOnce_repart (s : State) (t : Nat) (i : Instr) : (s.postOnce t i).repart = s.repart := by unfold State.postOnce; split <;> rfl
@[simp] theorem postOnce_modnum (s : State) (t : Nat) (i : Instr) : (s.postOnce t i).modnum = s.modnum := by unfold State.postOnce; split <;> rfl
@[simp] theorem postOnce_keyVer (s : State) (t : Nat) (i : Instr) : (s.postOnce t i).keyVer = s.keyVer := by unfold State.postOnce; split <;> rfl
@[simp] theorem postOnce_tenantVer (s : State) (t : Nat) (i : Instr) : (s.postOnce t i).tenantVer = s.tenantVer := by unfold State.postOnce; split <;> rfl
@[simp] theorem postOnce_ecwin (s : State) (t : Nat) (i : Instr) : (s.postOnce t i).ecwin = s.ecwin := by unfold State.postOnce; split <;> rfl
@[simp] theorem postOnce_ecthr (s : State) (t : Nat) (i : Instr) : (s.postOnce t i).ecthr = s.ecthr := by unfold State.postOnce; split <;> rfl
@[simp] theorem postOnce_hrthr (s : State) (t : Nat) (i : Instr) : (s.postOnce t i).hrthr = s.hrthr := by unfold State.postOnce; split <;> rfl
@[simp] theorem postOnce_pwrlim (s : State) (t : Nat) (i : Instr) : (s.postOnce t i).pwrlim = s.pwrlim := by unfold State.postOnce; split <;> rfl
@[simp] theorem postOnce_pwrgrp (s : State) (t : Nat) (i : Instr) : (s.postOnce t i).pwrgrp = s.pwrgrp := by unfold State.postOnce; split <;> rfl
@[simp] theorem postOnce_pwrstag (s : State) (t : Nat) (i : Instr) : (s.postOnce t i).pwrstag = s.pwrstag := by unfold State.postOnce; split <;> rfl
@[simp] theorem postOnce_pwrstat (s : State) (t : Nat) (i : Instr) : (s.postOnce t i).pwrstat = s.pwrstat := by unfold State.postOnce; split <;> rfl
@[simp] theorem postOnce_power (s : State) (t : Nat) (i : Instr) : (s.postOnce t i).power = s.power := by unfold State.postOnce; split <;> rfl
@[simp] theorem postOnce_throttle (s : State) (t : Nat) (i : Instr) : (s.postOnce t i).throttle = s.throttle := by unfold State.postOnce; split <;> rfl
@[simp] theorem postOnce_fcnt (s : State) (t : Nat) (i : Instr) : (s.postOnce t i).fcnt = s.fcnt := by unfold State.postOnce; split <;> rfl
@[simp] theorem postOnce_fsel (s : State) (t : Nat) (i : Instr) : (s.postOnce t i).fsel = s.fsel := by unfold State.postOnce; split <;> rfl
@[simp] theorem postOnce_boot (s : State) (t : Nat) (i : Instr) : (s.postOnce t i).boot = s.boot := by unfold State.postOnce; split <;> rfl
@[simp] theorem postOnce_session (s : State) (t : Nat) (i : Instr) : (s.postOnce t i).session = s.session := by unfold State.postOnce; split <;> rfl
@[simp] theorem postOnce_link (s : State) (t : Nat) (i : Instr) : (s.postOnce t i).link = s.link := by unfold State.postOnce; split <;> rfl
@[simp] theorem postOnce_failed (s : State) (t : Nat) (i : Instr) : (s.postOnce t i).failed = s.failed := by unfold State.postOnce; split <;> rfl
@[simp] theorem postOnce_msix (s : State) (t : Nat) (i : Instr) : (s.postOnce t i).msix = s.msix := by unfold State.postOnce; split <;> rfl
@[simp] theorem postOnce_cxlOut (s : State) (t : Nat) (i : Instr) : (s.postOnce t i).cxlOut = s.cxlOut := by unfold State.postOnce; split <;> rfl
@[simp] theorem postOnce_spdmOut (s : State) (t : Nat) (i : Instr) : (s.postOnce t i).spdmOut = s.spdmOut := by unfold State.postOnce; split <;> rfl
@[simp] theorem postOnce_stagOut (s : State) (t : Nat) (i : Instr) : (s.postOnce t i).stagOut = s.stagOut := by unfold State.postOnce; split <;> rfl
@[simp] theorem postOnce_remote (s : State) (t : Nat) (i : Instr) : (s.postOnce t i).remote = s.remote := by unfold State.postOnce; split <;> rfl
@[simp] theorem postOnce_ports (s : State) (t : Nat) (i : Instr) : (s.postOnce t i).ports = s.ports := by unfold State.postOnce; split <;> rfl
@[simp] theorem postOnce_waking (s : State) (t : Nat) (i : Instr) : (s.postOnce t i).waking = s.waking := by unfold State.postOnce; split <;> rfl

/-! ### Reading back -/

@[simp] theorem core_setCore_same (s : State) (c : Nat) (k : Core) : (s.setCore c k).core c = k := tget_tput_same _ _ _ _
theorem core_setCore (s : State) (c i : Nat) (k : Core) : (s.setCore c k).core i = if i = c then k else s.core i := tget_tput _ _ _ _ _
theorem core_setCore_other (s : State) {c i : Nat} (k : Core) (h : i ≠ c) : (s.setCore c k).core i = s.core i := by simp [core_setCore, h]
@[simp] theorem core_modCore_same (s : State) (c : Nat) (f : Core → Core) : (s.modCore c f).core c = f (s.core c) := core_setCore_same _ _ _
theorem core_modCore_other (s : State) {c i : Nat} (f : Core → Core) (h : i ≠ c) : (s.modCore c f).core i = s.core i := core_setCore_other _ _ h
@[simp] theorem core_modJob_same (s : State) (c : Nat) (f : Job → Job) : (s.modJob c f).core c = { s.core c with job := (s.core c).job.map f } :=
  core_modCore_same _ _ _
theorem core_modJob_other (s : State) {c i : Nat} (f : Job → Job) (h : i ≠ c) : (s.modJob c f).core i = s.core i := core_modCore_other _ _ h
theorem core_modStrm_other (s : State) {c i : Nat} (x : Strm) (f : Stream → Stream) (h : i ≠ c) : (s.modStrm c x f).core i = s.core i :=
  core_modJob_other _ _ h
@[simp] theorem bay_modBay_same (s : State) (b : Nat) (f : Bay → Bay) : (s.modBay b f).bay b = f (s.bay b) := tget_tput_same _ _ _ _
theorem bay_modBay_other (s : State) {b i : Nat} (f : Bay → Bay) (h : i ≠ b) : (s.modBay b f).bay i = s.bay i := tget_tput_other _ _ _ h
@[simp] theorem die_modDie_same (s : State) (d : Nat) (f : Die → Die) : (s.modDie d f).die d = f (s.die d) := tget_tput_same _ _ _ _
theorem die_modDie_other (s : State) {d i : Nat} (f : Die → Die) (h : i ≠ d) : (s.modDie d f).die i = s.die i := tget_tput_other _ _ _ h
@[simp] theorem base_modBase_same (s : State) (b : Nat) (f : Base → Base) : (s.modBase b f).base b = f (s.base b) := tget_tput_same _ _ _ _
@[simp] theorem fn_modFn_same (s : State) (n : Nat) (f : Fn → Fn) : (s.modFn n f).fn n = f (s.fn n) := tget_tput_same _ _ _ _
theorem fn_modFn_other (s : State) {n i : Nat} (f : Fn → Fn) (h : i ≠ n) : (s.modFn n f).fn i = s.fn i := tget_tput_other _ _ _ h
@[simp] theorem pool_modPool_same (s : State) (p : Nat) (f : Pool → Pool) : (s.modPool p f).pool p = f (s.pool p) := tget_tput_same _ _ _ _
@[simp] theorem landing_modLanding_same (s : State) (n : Nat) (f : Landing → Landing) : (s.modLanding n f).landing n = f (s.landing n) :=
  tget_tput_same _ _ _ _
theorem landing_modLanding_other (s : State) {n i : Nat} (f : Landing → Landing) (h : i ≠ n) : (s.modLanding n f).landing i = s.landing i :=
  tget_tput_other _ _ _ h
theorem ctx_modCtx (s : State) (n i : Nat) (f : Ctx → Ctx) : (s.modCtx n f).ctx? i = if i = n then (s.ctx? n).map f else s.ctx? i := by
  unfold State.modCtx
  cases h : s.ctx? n with
  | none => simp only []; split <;> simp_all
  | some x => show tget none (tput none s.ctxs n (some (f x))) i = _; rw [tget_tput]; rfl
theorem queue_modQueue (s : State) (n i : Nat) (f : Queue → Queue) : (s.modQueue n f).queue? i = if i = n then (s.queue? n).map f else s.queue? i := by
  unfold State.modQueue
  cases h : s.queue? n with
  | none => simp only []; split <;> simp_all
  | some x => show tget none (tput none s.queues n (some (f x))) i = _; rw [tget_tput]; rfl
theorem rec_modRec (s : State) (n i : Nat) (f : Rec → Rec) : (s.modRec n f).rec? i = if i = n then (s.rec? n).map f else s.rec? i := by
  unfold State.modRec
  cases h : s.rec? n with
  | none => simp only []; split <;> simp_all
  | some x => show tget none (tput none s.recs n (some (f x))) i = _; rw [tget_tput]; rfl

/-! ### Streams -/

@[simp] theorem strm_setStrm_same (j : Job) (x : Strm) (v : Stream) : (j.setStrm x v).strm x = v := by cases x <;> rfl
theorem strm_setStrm_other (j : Job) {x y : Strm} (v : Stream) (h : y ≠ x) : (j.setStrm x v).strm y = j.strm y := by
  cases x <;> cases y <;> first | rfl | exact absurd rfl h

end Sys2Proof.Machine
end

