-- ==== Sys2Proof/Laws/Canonical.lean ====
section
/-!
SUPPORT. The canonical form of HBM through the operations of the state: which leave HBM alone, and that those which write it keep the form.
-/

set_option Elab.async false

namespace Sys2Proof.Machine

/-! ### The invariant through folds -/

theorem memOk_of_hbm {s t : State} (h : t.hbm = s.hbm) (hs : s.memOk) : t.memOk := by unfold State.memOk; rw [h]; exact hs

theorem memOk_foldl {α : Type} {f : State → α → State} (hf : ∀ s a, s.memOk → (f s a).memOk) (l : List α) {s : State} (hs : s.memOk) :
    (l.foldl f s).memOk := by
  induction l generalizing s with
  | nil => exact hs
  | cons a l ih => exact ih (hf s a hs)

theorem memOk_foldl_fst {α β : Type} {f : State × β → α → State × β} (hf : ∀ r a, r.1.memOk → (f r a).1.memOk) (l : List α) {r : State × β}
    (hr : r.1.memOk) : (l.foldl f r).1.memOk := by
  induction l generalizing r with
  | nil => exact hr
  | cons a l ih => exact ih (hf r a hr)

theorem hbm_foldl {α : Type} {f : State → α → State} (hf : ∀ s a, (f s a).hbm = s.hbm) (l : List α) (s : State) : (l.foldl f s).hbm = s.hbm := by
  induction l generalizing s with
  | nil => rfl
  | cons a l ih => exact (ih (f s a)).trans (hf s a)

/-! ### Operations that leave HBM alone -/

@[simp] theorem raiseN_hbm (s : State) (fn vec k : Nat) : (s.raiseN fn vec k).hbm = s.hbm := by
  induction k generalizing s with
  | zero => rfl
  | succ k ih => exact ih _

@[simp] theorem countCore_hbm (s : State) (c code : Nat) (q : Nat → Nat) : (s.countCore c code q).hbm = s.hbm := by
  unfold State.countCore
  dsimp only
  repeat' split
  all_goals simp

@[simp] theorem countDie_hbm (s : State) (d ctx code : Nat) (q : Nat → Nat) : (s.countDie d ctx code q).hbm = s.hbm := by
  unfold State.countDie
  dsimp only
  repeat' split
  all_goals simp

@[simp] theorem countMod_hbm (s : State) (code : Nat) (q : Nat → Nat) : (s.countMod code q).hbm = s.hbm := by
  unfold State.countMod
  split
  · rfl
  · simp

@[simp] theorem watchHome_hbm (s : State) (key l n : Nat) (wr : Bool) (asid : Nat) : (s.watchHome key l n wr asid).hbm = s.hbm := by
  unfold State.watchHome
  dsimp only
  split
  · rfl
  · refine hbm_foldl (fun s i => ?_) _ _
    repeat' split
    all_goals simp

@[simp] theorem mscTouch_hbm (s : State) (key l ctx : Nat) : (s.mscTouch key l ctx).hbm = s.hbm := by
  unfold State.mscTouch
  simp

@[simp] theorem addUnacked_hbm (s : State) (c u id : Nat) : (s.addUnacked c u id).hbm = s.hbm := by
  unfold State.addUnacked
  repeat' split
  all_goals simp

@[simp] theorem sendOut_hbm (s : State) (c ctx pa : Nat) (op : RemoteOp) : (s.sendOut c ctx pa op).2.hbm = s.hbm := rfl

@[simp] theorem closeEpoch_hbm (s : State) (d : Nat) : (s.closeEpoch d).hbm = s.hbm := rfl

@[simp] theorem remoteFault_hbm (s : State) (va : Nat) : (s.remoteFault va).1.hbm = s.hbm := rfl

@[simp] theorem l1Acquire_hbm (s : State) (c : Nat) (sc : Scope) (full : Bool) : (s.l1Acquire c sc full).hbm = s.hbm := by
  unfold State.l1Acquire
  split <;> simp

@[simp] theorem acquire_hbm (s : State) (c : Nat) (x : Strm) (sc : Scope) (full : Bool) : (s.acquire c x sc full).hbm = s.hbm := by
  unfold State.acquire
  split <;> simp

@[simp] theorem spadWrite_hbm (s : State) (c off : Nat) (bs : List (Byte × Byte)) (full : Bool) : (s.spadWrite c off bs full).hbm = s.hbm := rfl

@[simp] theorem clusterWrite_hbm (s : State) (c off : Nat) (bs : List (Byte × Byte)) : (s.clusterWrite c off bs).hbm = s.hbm := by
  unfold State.clusterWrite
  repeat' split
  all_goals simp

/-! ### Writes at the homes -/

@[simp] theorem joinLine_hbm (s : State) (l : Nat) (clk : Tbl Nat) : (s.joinLine l clk).hbm = s.hbm := by
  unfold State.joinLine
  refine hbm_foldl ?_ _ _
  intro _ _
  rfl

theorem memOk_rekeyBlock {s : State} (key blk : Nat) (h : s.memOk) : (s.rekeyBlock key blk).memOk := by
  unfold State.rekeyBlock
  dsimp only
  split
  · exact h
  · exact wf_writeBytes _ _ h

theorem memOk_homePut {s : State} (key l : Nat) (bs : List (Byte × Byte)) (h : s.memOk) : (s.homePut key l bs).memOk :=
  wf_writeMasked _ _ (memOk_foldl (fun _ b hs => memOk_rekeyBlock key b hs) _ h)

theorem memOk_homePutAll {s : State} (key l : Nat) (bs : List (Byte × Byte)) (h : s.memOk) : (s.homePutAll key l bs).memOk :=
  memOk_foldl (fun _ f hs => memOk_homePut f.1 f.2 bs hs) _ (memOk_homePut key l bs h)

theorem memOk_windowPut {s : State} (fn off : Nat) (bs : List Byte) (h : s.memOk) : (s.windowPut fn off bs).memOk := by
  refine memOk_foldl (fun s p hs => ?_) _ h
  split
  · exact memOk_homePutAll _ _ _ hs
  · exact hs

theorem memOk_errorTo {s : State} (fn type unit die wher addr ctx count : Nat) (h : s.memOk) :
    (s.errorTo fn type unit die wher addr ctx count).memOk := by
  unfold State.errorTo
  dsimp only
  split
  · exact memOk_of_hbm (by simp only [raise_hbm, modFn_hbm]; rfl) (memOk_windowPut fn _ _ h)
  · exact memOk_of_hbm (by simp) h

/-- An error record keeps the form. -/
theorem memOk_error {s : State} (type unit die wher addr ctx count : Nat) (h : s.memOk) : (s.error type unit die wher addr ctx count).memOk :=
  memOk_errorTo _ _ _ _ _ _ _ _ h

theorem memOk_lineError {s : State} (type l addr ctx : Nat) (h : s.memOk) : (s.lineError type l addr ctx).memOk := memOk_error _ _ _ _ _ _ _ h

theorem memOk_clearPoison {s : State} (l : Nat) (full : Bool) (ctx : Nat) (h : s.memOk) : (s.clearPoison l full ctx).memOk := by
  unfold State.clearPoison
  split
  · exact h
  · split
    · exact h
    · exact memOk_lineError _ _ _ _ h

/-- A write at its home keeps the form, forwarded or not. -/
theorem memOk_homeWriteLine {s : State} (key l : Nat) (bs : List (Byte × Byte)) (ctx asid : Nat) (h : s.memOk) :
    (s.homeWriteLine key l bs ctx asid).memOk := by
  have h2 := memOk_homePutAll key l bs (memOk_of_hbm (t := (s.mscTouch key l ctx).watchHome key l bs.length true asid) (by simp) h)
  unfold State.homeWriteLine
  dsimp only
  refine memOk_clearPoison _ _ _ ?_
  split
  · refine memOk_of_hbm (hbm_foldl ?_ _ _) h2
    intro _ _
    rfl
  · exact h2

theorem memOk_applyReq {s : State} (r : HomeReq) (h : s.memOk) : (s.applyReq r).memOk :=
  memOk_of_hbm (joinLine_hbm ..) (memOk_homeWriteLine (paKey r.pa) (paLocal r.pa) r.bytes r.ctx r.asid h)

theorem memOk_applyUpTo {s : State} (b : Nat) (p : HomeReq → Bool) (h : s.memOk) : (s.applyUpTo b p).memOk := by
  unfold State.applyUpTo
  dsimp only
  split
  · exact h
  · exact memOk_foldl (fun s r hs => memOk_applyReq r hs) _ (memOk_of_hbm (modBase_hbm ..) h)

theorem memOk_flushHomes {s : State} (h : s.memOk) : s.flushHomes.memOk := memOk_foldl (fun _ b hs => memOk_applyUpTo b _ hs) _ h

/-- A read at its home, which applies the requests that have to come first, keeps the form. -/
theorem memOk_homeRead {s : State} (die core key l n ctx asid : Nat) (h : s.memOk) : (s.homeRead die core key l n ctx asid).1.memOk := by
  have h1 := memOk_applyUpTo (s.homeOf l).1 (fun r => r.before (s.die die).clock core (l / 128)) h
  unfold State.homeRead
  dsimp only
  generalize s.applyUpTo (s.homeOf l).1 (fun r => r.before (s.die die).clock core (l / 128)) = x at h1 ⊢
  exact memOk_of_hbm (by simp only [watchHome_hbm, mscTouch_hbm]) h1

/-! ### Translation and the front end's accesses -/

theorem memOk_walkStep {s : State} (part die core ctx asid va level table : Nat) (h : s.memOk) :
    (s.walkStep part die core ctx asid va level table).1.memOk := by
  have h1 := memOk_homeRead die core (paKey (walkAddr level table va)) (paLocal (walkAddr level table va)) 8 ctx asid h
  unfold State.walkStep
  dsimp only
  split
  · exact h
  · split
    · exact memOk_lineError _ _ _ _ h1
    · exact h1

theorem memOk_walkFrom (part die core ctx asid va : Nat) (level : Nat) {s : State} (table : Nat) (h : s.memOk) :
    (s.walkFrom part die core ctx asid va level table).1.memOk := by
  induction level generalizing s table with
  | zero =>
    have h1 := memOk_walkStep part die core ctx asid va 0 table h
    unfold State.walkFrom
    split <;> (rename_i hs; rw [hs] at h1; exact h1)
  | succ level ih =>
    have h1 := memOk_walkStep part die core ctx asid va (level + 1) table h
    unfold State.walkFrom
    split
    · rename_i hs; rw [hs] at h1; exact h1
    · rename_i hs; rw [hs] at h1; exact ih _ h1

@[simp] theorem tlbLook_hbm (s : State) (c ctx va : Nat) (x : Ctx) : (s.tlbLook c ctx va x).1.hbm = s.hbm := by
  unfold State.tlbLook
  dsimp only
  repeat' split
  all_goals simp

@[simp] theorem tlbFill_hbm (s : State) (c ctx va : Nat) (f : Leaf) : (s.tlbFill c ctx va f).hbm = s.hbm := by
  unfold State.tlbFill
  split <;> simp

theorem memOk_findLeaf {s : State} (c ctx va : Nat) (h : s.memOk) : (s.findLeaf c ctx va).1.memOk := by
  unfold State.findLeaf
  split
  · exact h
  · rename_i x hx
    have h1 : (s.tlbLook c ctx va x).1.memOk := memOk_of_hbm (tlbLook_hbm ..) h
    dsimp only
    split
    · rename_i hl; rw [hl] at h1; exact memOk_walkFrom _ _ _ _ _ _ 4 _ h1
    · rename_i hl
      rw [hl] at h1
      split
      · exact h1
      · split
        · exact memOk_walkFrom _ _ _ _ _ _ 4 _ h1
        · exact h1

/-- Translating keeps the form. -/
theorem memOk_translate {s : State} (c ctx va : Nat) (need : Need) (h : s.memOk) : (s.translate c ctx va need).1.memOk := by
  have := memOk_findLeaf c ctx va h
  unfold State.translate
  dsimp only
  split
  · exact this
  · split
    · exact this
    · exact memOk_of_hbm (tlbFill_hbm ..) this

theorem memOk_translateRange {s : State} (c ctx va n : Nat) (need : Need) (h : s.memOk) : (s.translateRange c ctx va n need).1.memOk := by
  refine memOk_foldl_fst (fun r p hr => ?_) _ h
  obtain ⟨s, r⟩ := r
  cases r with
  | error e => exact hr
  | ok l =>
    have h1 := memOk_translate c ctx p.1 need hr
    dsimp only
    split
    · exact h1
    · rename_i pa _
      by_cases hp : paMod pa = (s.translate c ctx p.1 need).1.ownMod
      · simp only [if_pos hp]; exact h1
      · simp only [if_neg hp]
        split
        · exact memOk_of_hbm (by simp) h1
        · exact memOk_of_hbm (by simp) h1

theorem memOk_frontTranslate {s : State} (ctx va : Nat) (need : Need) (h : s.memOk) : (s.frontTranslate ctx va need).1.memOk := by
  unfold State.frontTranslate
  split
  · exact h
  · rename_i x hx
    have h1 := memOk_walkFrom x.part x.part (16 * x.part) ctx x.asid va 4 x.root h
    dsimp only
    split <;> exact h1

theorem memOk_frontReach {s : State} (ctx va : Nat) (need : Need) (h : s.memOk) : (s.frontReach ctx va need).1.memOk := by
  have h1 := memOk_frontTranslate ctx va need h
  unfold State.frontReach
  dsimp only
  split
  · exact h1
  · split
    · exact h1
    · split <;> exact memOk_of_hbm (by simp) h1

theorem memOk_frontReadAs {s : State} (need : Need) (ctx va n : Nat) (h : s.memOk) : (s.frontReadAs need ctx va n).1.memOk := by
  refine memOk_foldl_fst (fun r p hr => ?_) _ h
  obtain ⟨s, r⟩ := r
  cases r with
  | error e => exact hr
  | ok l =>
    have h1 := memOk_frontReach ctx p.1 need hr
    dsimp only
    generalize s.frontReach ctx p.1 need = q at h1 ⊢
    split
    · exact h1
    · rename_i pa _
      by_cases hp : paMod pa = q.1.ownMod
      · simp only [if_pos hp]
        have h2 := memOk_homeRead (((q.1.ctx? ctx).map (·.part)).getD 0) (16 * ((q.1.ctx? ctx).map (·.part)).getD 0) (paKey pa) (paLocal pa)
          p.2.length ctx (((q.1.ctx? ctx).map (·.asid)).getD 0) h1
        generalize q.1.homeRead _ _ _ _ _ _ _ = r at h2 ⊢
        split
        · exact memOk_lineError _ _ _ _ h2
        · exact h2
      · simp only [if_neg hp]
        exact memOk_of_hbm (s := q.1) rfl h1

/-- The front end's reads keep the form. -/
theorem memOk_frontRead {s : State} (ctx va n : Nat) (h : s.memOk) : (s.frontRead ctx va n).1.memOk := memOk_frontReadAs _ _ _ _ h

theorem memOk_frontPlaces {s : State} (strict : Bool) (ctx va : Nat) (bs : List Byte) (h : s.memOk) :
    (s.frontPlaces strict ctx va bs).1.memOk := by
  refine memOk_foldl_fst (fun r p hr => ?_) _ h
  obtain ⟨s, r⟩ := r
  cases r with
  | error e => exact hr
  | ok l =>
    have h1 := memOk_frontReach ctx p.1 .store hr
    dsimp only
    split
    · exact h1
    · split
      · exact memOk_lineError _ _ _ _ h1
      · exact h1

theorem memOk_writeFor {s : State} (strict : Bool) (ctx va : Nat) (bs : List Byte) (h : s.memOk) : (s.writeFor strict ctx va bs).1.memOk := by
  have h1 := memOk_frontPlaces strict ctx va bs h
  unfold State.writeFor
  dsimp only
  split
  · exact h1
  · refine memOk_foldl (fun s p hs => ?_) _ h1
    split
    · exact memOk_homeWriteLine _ _ _ _ _ (memOk_applyUpTo _ _ hs)
    · exact memOk_of_hbm (sendOut_hbm ..) hs

/-- The front end's writes keep the form. -/
theorem memOk_frontWrite {s : State} (ctx va : Nat) (bs : List Byte) (h : s.memOk) : (s.frontWrite ctx va bs).1.memOk := memOk_writeFor _ _ _ _ h

/-- The writes of a channel or a landing keep the form. -/
theorem memOk_unitWrite {s : State} (ctx va : Nat) (bs : List Byte) (h : s.memOk) : (s.unitWrite ctx va bs).1.memOk := memOk_writeFor _ _ _ _ h

/-! ### Writes on their way -/

theorem memOk_reqRoom {s : State} (b : Nat) (h : s.memOk) : (s.reqRoom b).memOk := by
  unfold State.reqRoom
  split
  · exact h
  · split
    · exact memOk_applyReq _ (memOk_of_hbm (modBase_hbm ..) h)
    · exact h

theorem memOk_sendLine {s : State} (c u pa : Nat) (bs : List (Byte × Byte)) (ctx : Nat) (h : s.memOk) : (s.sendLine c u pa bs ctx).memOk := by
  unfold State.sendLine
  dsimp only
  split
  · refine memOk_of_hbm (t := _) (s := ((s.newId.2.addUnacked c u s.newId.1).reqRoom
      ((s.newId.2.addUnacked c u s.newId.1).homeOf (paLocal pa)).1)) (by simp) ?_
    exact memOk_reqRoom _ (memOk_of_hbm (by simp) h)
  · exact memOk_of_hbm (by simp) h

theorem memOk_sendBytes {s : State} (c u pa : Nat) (bs : List (Byte × Byte)) (ctx : Nat) (h : s.memOk) : (s.sendBytes c u pa bs ctx).memOk :=
  memOk_foldl (fun _ p hs => memOk_sendLine c u p.1 p.2 ctx hs) _ h

theorem memOk_writeBack {s : State} (c u : Nat) (l : L1Line) (h : s.memOk) : (s.writeBack c u l).memOk := by
  unfold State.writeBack
  split
  · exact h
  · exact memOk_of_hbm (countCore_hbm ..) (memOk_sendLine _ _ _ _ _ h)

theorem memOk_l1Put {s : State} (c : Nat) (l : L1Line) (h : s.memOk) : (s.l1Put c l).memOk := by
  unfold State.l1Put
  dsimp only
  split
  · exact memOk_of_hbm (setCore_hbm ..) h
  · split
    · exact memOk_of_hbm (setCore_hbm ..) h
    · exact memOk_writeBack _ _ _ (memOk_of_hbm (setCore_hbm ..) h)

/-- A release's write-backs keep the form: one may find its base die full, and then applies the oldest request there. -/
theorem memOk_l1Release {s : State} (c u : Nat) (sc : Scope) (h : s.memOk) : (s.l1Release c u sc).memOk := by
  unfold State.l1Release
  split
  · exact memOk_of_hbm (modCore_hbm ..) (memOk_foldl (fun _ l hs => memOk_writeBack c u l hs) _ h)
  · exact h

/-- A release keeps the form. -/
theorem memOk_release {s : State} (c u : Nat) (sc : Scope) (h : s.memOk) : (s.release c u sc).memOk := by
  unfold State.release
  split
  · exact memOk_of_hbm (closeEpoch_hbm ..) (memOk_l1Release _ _ _ h)
  · exact h

/-! ### The L1 -/

theorem memOk_l1Fill {s : State} (c : Nat) (l : L1Line) (sc : Scope) (h : s.memOk) : (s.l1Fill c l sc).1.memOk := by
  unfold State.l1Fill
  by_cases hp : paMod l.pa = s.ownMod
  · simp only [if_pos hp]
    exact memOk_of_hbm (countCore_hbm ..) (memOk_homeRead _ _ _ _ _ _ _ h)
  · simp only [if_neg hp]
    exact memOk_of_hbm (countCore_hbm ..) h

/-- A load through the L1 keeps the form. -/
theorem memOk_l1Load {s : State} (c ctx pa n : Nat) (sc : Scope) (h : s.memOk) : (s.l1Load c ctx pa n sc).1.memOk := by
  unfold State.l1Load
  dsimp only
  refine memOk_l1Put _ _ ?_
  split
  · exact memOk_l1Fill _ _ _ h
  · exact h

/-- A store through the L1 keeps the form. -/
theorem memOk_l1Store {s : State} (c u ctx pa : Nat) (bs : List (Byte × Byte)) (sc : Scope) (h : s.memOk) :
    (s.l1Store c u ctx pa bs sc).memOk := by
  have hp : ∀ (b : Bool) (l : L1Line) (sc : Scope), (if b = true then ((s.l1Fill c l sc).1, (s.l1Fill c l sc).2.1) else (s, l)).1.memOk := by
    intro b l sc
    cases b
    · exact h
    · exact memOk_l1Fill c l sc h
  unfold State.l1Store
  dsimp only
  generalize List.any _ _ = b
  split
  · split
    · exact memOk_sendLine _ _ _ _ _ h
    · rename_i l _
      have h1 := hp b l l.fs
      generalize (if b = true then ((s.l1Fill c l l.fs).1, (s.l1Fill c l l.fs).2.1) else (s, l)) = q at h1 ⊢
      exact memOk_sendLine _ _ _ _ _ (memOk_l1Put _ _ h1)
  · have h1 := hp b ((s.l1Find c (pa / 128 * 128)).getD (emptyLine (pa / 128 * 128) ctx)) sc
    generalize (if b = true then _ else _ : State × L1Line) = q at h1 ⊢
    exact memOk_l1Put _ _ h1

end Sys2Proof.Machine
end

