-- ==== Sys2Proof/Laws/Encoding.lean ====
section
/-!
SUPPORT. Encoding and decoding: the fields of an encoded word, the codes of operands and deliveries, and the checks that an encoded well-formed word passes.
-/

set_option Elab.async false

namespace Sys2Proof

/-! ### Fields of concatenations -/

theorem app_lo {s l n m : Nat} (x : BitVec n) (y : BitVec m) (h : s + l ≤ m) : (x ++ y).extractLsb' s l = y.extractLsb' s l := by
  apply BitVec.eq_of_getLsbD_eq; intro i hi
  simp only [BitVec.getLsbD_extractLsb', BitVec.getLsbD_append, hi, decide_true, Bool.true_and]
  rw [if_pos (by omega)]

theorem app_hi {s l n m : Nat} (x : BitVec n) (y : BitVec m) (h : m ≤ s) : (x ++ y).extractLsb' s l = x.extractLsb' (s - m) l := by
  apply BitVec.eq_of_getLsbD_eq; intro i hi
  simp only [BitVec.getLsbD_extractLsb', BitVec.getLsbD_append, hi, decide_true, Bool.true_and]
  rw [if_neg (by omega), show s + i - m = s - m + i by omega]

theorem bit_lo {i n m : Nat} (x : BitVec n) (y : BitVec m) (h : i < m) : (x ++ y).getLsbD i = y.getLsbD i := by
  rw [BitVec.getLsbD_append, if_pos h]

theorem bit_hi {i n m : Nat} (x : BitVec n) (y : BitVec m) (h : m ≤ i) : (x ++ y).getLsbD i = x.getLsbD (i - m) := by
  rw [BitVec.getLsbD_append, if_neg (by omega)]

/-- A word has all its fields (R35). -/
theorem ofWord_word (f : Fields) : Fields.ofWord f.word f.lit = f := by
  obtain ⟨op, sub, pred, dmask, w, r40, dst, srca, srcb, mod, lit⟩ := f
  simp (disch := decide) only [Fields.ofWord, Fields.word, app_lo, app_hi, bit_lo, bit_hi, BitVec.extractLsb'_eq_self, Nat.reduceSub]
  simp

/-! ### Reasons -/

@[simp] theorem bad_nil {r : Nat} {c : Bool} : bad r c = [] ↔ c = false := by cases c <;> simp [bad]

theorem firstReason_nil {l : List Nat} (h : l = []) : firstReason l = none := by subst h; rfl

/-- A word whose row's checks all pass is that row's instruction. -/
theorem decode_row {str : Strm} {f : Fields} {m : Nat → Option OpRow} {row : OpRow} (hm : major f.op.toNat = some m) (hs : m f.sub.toNat = some row)
    (h : reasons str row f = []) : decodeFields str f = .ok (row.build f) := by
  unfold decodeFields
  rw [hm]; simp only []; rw [hs]; simp only []; rw [firstReason_nil h]

/-! ### Operand codes (R37) -/

/-- A source with a code of its own. -/
def Src.coded : Src → Bool
  | .imm _ => false
  | .lit _ => false
  | _ => true

theorem ofCode_code {x : Src} (h : x.coded = true) : Src.ofCode x.code = some x := by
  cases x with
  | s n => revert n; decide
  | a n => revert n; decide
  | m n => revert n; decide
  | pop q => cases q <;> decide
  | peek q => cases q <;> decide
  | const n => revert n; decide
  | v n => revert n; decide
  | imm i => cases h
  | lit l => cases h
  | _ => decide

theorem srcOf_code {x : Src} (h : x.coded = true) : srcOf x.code = x := by simp [srcOf, ofCode_code h]

theorem coded_scalar {x : Src} {str : Strm} (h : x.isScalar str = true) : x.coded = true := by cases x <;> simp_all [Src.isScalar, Src.coded]
theorem coded_vec {x : Src} (h : x.isVec = true) : x.coded = true := by cases x <;> simp_all [Src.isVec, Src.coded]
theorem coded_vecReg {x : Src} (h : x.isVecReg = true) : x.coded = true := by cases x <;> simp_all [Src.isVecReg, Src.coded]
theorem coded_data {x : Src} (h : x.isData = true) : x.coded = true := by cases x <;> simp_all [Src.isData, Src.coded]
theorem coded_arr {x : Src} (h : x.isArr = true) : x.coded = true := by cases x <;> simp_all [Src.isArr, Src.coded]

theorem srcBad_scalar {x : Src} {str : Strm} (h : x.isScalar str = true) : srcBad .scalar str x.code = [] := by
  simp [srcBad, ofCode_code (coded_scalar h), h]
theorem srcBad_vec {x : Src} {str : Strm} (h : x.isVec = true) : srcBad .vec str x.code = [] := by simp [srcBad, ofCode_code (coded_vec h), h]
theorem srcBad_vecReg {x : Src} {str : Strm} (h : x.isVecReg = true) : srcBad .vecReg str x.code = [] := by
  simp [srcBad, ofCode_code (coded_vecReg h), h]
theorem srcBad_data {x : Src} {str : Strm} (h : x.isData = true) : srcBad .data str x.code = [] := by
  simp [srcBad, ofCode_code (coded_data h), h]
theorem srcBad_arr {x : Src} {str : Strm} (h : x.isArr = true) : srcBad .arr str x.code = [] := by simp [srcBad, ofCode_code (coded_arr h), h]
theorem srcBad_zero {str : Strm} : srcBad .zero str 0 = [] := by simp [srcBad]
theorem srcBad_zeroBy {r : Nat} {str : Strm} : srcBad (.zeroBy r) str 0 = [] := by simp [srcBad]
theorem srcBad_raw {str : Strm} {c : BitVec 8} : srcBad .raw str c = [] := rfl
theorem srcBad_pred {str : Strm} (n : BitVec 3) : srcBad .pred str (0#5 ++ n) = [] := by revert n; cases str <;> decide
theorem srcBad_mask {str : Strm} (n : BitVec 4) : srcBad .mask str (0x1#4 ++ n) = [] := by revert n; cases str <;> decide
theorem srcBad_mreg {str : Strm} (n : BitVec 3) (h : (str == .ld || str == .st) = true) : srcBad .mreg str (0b00110#5 ++ n) = [] := by
  revert n; cases str <;> first | (cases h; done) | decide

/-! ### Guards and deliveries (R36, R38, R39) -/

theorem guard_code {g : Guard} (h : g.wf = true) : (g.code == 8) = false := by
  obtain ⟨neg, p⟩ := g; revert neg p; decide

theorem guard_of (g : Guard) : (⟨g.code.getLsbD 3, g.code.extractLsb' 0 3⟩ : Guard) = g := by
  obtain ⟨neg, p⟩ := g; revert neg p; decide

@[simp] theorem dmask_zero (d : Dest) : d.dmask.getLsbD 0 = d.reg.isSome := by
  simp (disch := decide) only [Dest.dmask, bit_lo]; simp

@[simp] theorem dmask_qs (d : Dest) : d.dmask.extractLsb' 1 5 = d.qs := by
  simp (disch := decide) only [Dest.dmask, app_hi, BitVec.extractLsb'_eq_self, Nat.reduceSub]

theorem dmask_bit (d : Dest) (n : Nat) : d.dmask.getLsbD (n + 1) = d.qs.getLsbD n := by
  rw [Dest.dmask, bit_hi _ _ (by omega)]; simp

/-- The delivery of a result read back, where the register's code does. -/
theorem dest_of {d : Dest} {k : BitVec 8 → Reg} (h : ∀ r, d.reg = some r → k r.code = r) :
    (⟨if d.dmask.getLsbD 0 then some (k d.code) else none, d.dmask.extractLsb' 1 5⟩ : Dest) = d := by
  obtain ⟨reg, qs⟩ := d
  cases reg with
  | none => simp only [dmask_zero, dmask_qs]; rfl
  | some r => simp only [dmask_zero, dmask_qs, Option.isSome_some, if_true, Dest.code, h r rfl]

theorem reg_s (n : BitVec 5) : Reg.ofCode (Reg.s n).code = .s n := by revert n; decide
theorem reg_a (n : BitVec 4) : Reg.ofCode (Reg.a n).code = .a n := by revert n; decide
theorem reg_v (n : BitVec 7) : Reg.ofCode (Reg.v n).code = .v n := by revert n; decide

theorem scalar_reg {d : Dest} {str : Strm} (h : d.isScalar str = true) (r : Reg) (hr : d.reg = some r) : Reg.ofCode r.code = r := by
  cases r <;> simp_all [Dest.isScalar, reg_s, reg_a]

theorem vec_reg {d : Dest} (h : d.isVec = true) (r : Reg) (hr : d.reg = some r) : Reg.ofCode r.code = r := by
  cases r <;> simp_all [Dest.isVec, reg_v]

theorem pred_reg {d : Dest} {str : Strm} (h : d.isPred str = true) (r : Reg) (hr : d.reg = some r) : Reg.p (r.code.extractLsb' 0 3) = r := by
  cases r with
  | p n => clear hr; revert n; decide
  | _ => simp_all [Dest.isPred]

theorem mask_reg {d : Dest} (h : d.isMask = true) (r : Reg) (hr : d.reg = some r) : Reg.k (r.code.extractLsb' 0 4) = r := by
  cases r with
  | k n => clear hr; revert n; decide
  | _ => simp_all [Dest.isMask]

theorem reg_small : (∀ n, (Reg.s n).code.toNat < 0x30) ∧ (∀ n, (Reg.a n).code.toNat < 0x30) ∧ (∀ n, (Reg.v n).code.getLsbD 7 = true)
    ∧ (∀ n, (Reg.p n).code.toNat < 8) ∧ (∀ n, (Reg.k n).code.extractLsb' 4 4 = 1) := by decide

/-- DST passes its check, where the register is of the position's kind. -/
theorem dst_scalar {d : Dest} {str : Strm} (h : d.isScalar str = true) : dstBad .scalar d.reg.isSome d.code = [] := by
  obtain ⟨reg, qs⟩ := d
  cases reg with
  | none => simp_all [dstBad, Dest.code]
  | some r => cases r <;> simp_all [dstBad, Dest.code, Dest.isScalar, reg_small.1, reg_small.2.1]

theorem dst_vec {d : Dest} (h : d.isVec = true) : dstBad .vec d.reg.isSome d.code = [] := by
  obtain ⟨reg, qs⟩ := d
  cases reg with
  | none => simp_all [dstBad, Dest.code]
  | some r => cases r <;> simp_all [dstBad, Dest.code, Dest.isVec, reg_small.2.2.1]

theorem dst_pred {d : Dest} {str : Strm} (h : d.isPred str = true) : dstBad .pred d.reg.isSome d.code = [] := by
  obtain ⟨reg, qs⟩ := d
  cases reg with
  | none => simp_all [dstBad, Dest.code]
  | some r => cases r <;> simp_all [dstBad, Dest.code, Dest.isPred, reg_small.2.2.2.1]

theorem dst_mask {d : Dest} (h : d.isMask = true) : dstBad .mask d.reg.isSome d.code = [] := by
  obtain ⟨reg, qs⟩ := d
  cases reg with
  | none => simp_all [dstBad, Dest.code]
  | some r => cases r <;> simp_all [dstBad, Dest.code, Dest.isMask, reg_small.2.2.2.2]

theorem dm_scalar {d : Dest} {str : Strm} (h : d.isScalar str = true) : dmaskBad .scalar str d.dmask = [] := by
  simp only [Dest.isScalar, Bool.and_eq_true, Bool.not_eq_true'] at h
  simp only [dmaskBad, dmask_bit, h.1.2, h.2, bad_nil, Bool.or_false, dmask_bit d 4]

theorem dm_pred {d : Dest} {str : Strm} (h : d.isPred str = true) : dmaskBad .pred str d.dmask = [] := by
  simp only [Dest.isPred, Bool.and_eq_true, Bool.not_eq_true'] at h
  simp only [dmaskBad, dmask_bit, h.1.2, h.2, bad_nil, Bool.or_false, dmask_bit d 4]

theorem dm_vec {d : Dest} (h : d.isVec = true) : dmaskBad .vec .cx d.dmask = [] := by
  obtain ⟨reg, qs⟩ := d
  simp only [Dest.isVec, Bool.and_eq_true] at h
  replace h := h.2
  have e : (reg.isSome) = true ∨ reg.isSome = false := by cases reg <;> simp
  simp only [Dest.dmask]
  rcases e with e | e <;> rw [e] <;> revert qs <;> decide

theorem dm_mask {d : Dest} (h : d.isMask = true) : dmaskBad .mask .cx d.dmask = [] := by
  obtain ⟨reg, qs⟩ := d
  simp only [Dest.isMask, Bool.and_eq_true] at h
  replace h := h.2
  have e : (reg.isSome) = true ∨ reg.isSome = false := by cases reg <;> simp
  simp only [Dest.dmask]
  rcases e with e | e <;> rw [e] <;> revert qs <;> decide

theorem dm_none {str : Strm} : dmaskBad .none str 0 = [] := by cases str <;> decide

/-! ### MOD -/

theorem modR_x (x : BitVec 4) (y : BitVec 3) (k : BitVec 4) : (modR x y k).extractLsb' 12 4 = x := by
  simp (disch := decide) only [modR, app_hi, BitVec.extractLsb'_eq_self, Nat.reduceSub]
theorem modR_y (x : BitVec 4) (y : BitVec 3) (k : BitVec 4) : (modR x y k).extractLsb' 9 3 = y := by
  simp (disch := decide) only [modR, app_lo, app_hi, BitVec.extractLsb'_eq_self, Nat.reduceSub]
theorem modR_i (x : BitVec 4) (y : BitVec 3) (k : BitVec 4) : (modR x y k).getLsbD 8 = false := by
  simp (disch := decide) only [modR, bit_lo, bit_hi]; rfl
theorem modR_low (x : BitVec 4) (y : BitVec 3) (k : BitVec 4) : (modR x y k).extractLsb' 0 8 = 0#4 ++ k := by
  revert x y k; decide
theorem low_hi (k : BitVec 4) : (0#4 ++ k).extractLsb' 4 4 = 0 := by revert k; decide
theorem low_k (k : BitVec 4) : (0#4 ++ k).extractLsb' 0 4 = k := by revert k; decide

/-! ### Words without and with a literal (R41, R43) -/

section
variable {str : Strm} {op : BitVec 8} {sub : BitVec 4} {g : Guard} {dm : BitVec 6} {dst a b : BitVec 8} {mod : BitVec 16}

@[simp] theorem mk_op : (mk op sub g dm dst a b mod).op = op := rfl
@[simp] theorem mk_sub : (mk op sub g dm dst a b mod).sub = sub := rfl
@[simp] theorem mk_g : (mk op sub g dm dst a b mod).g = g := guard_of g
@[simp] theorem mk_pred : (mk op sub g dm dst a b mod).pred = g.code := rfl
@[simp] theorem mk_dm : (mk op sub g dm dst a b mod).dmask = dm := rfl
@[simp] theorem mk_dst : (mk op sub g dm dst a b mod).dst = dst := rfl
@[simp] theorem mk_srca : (mk op sub g dm dst a b mod).srca = a := rfl
@[simp] theorem mk_srcb : (mk op sub g dm dst a b mod).srcb = b := rfl
@[simp] theorem mk_mod : (mk op sub g dm dst a b mod).mod = mod := rfl
@[simp] theorem mk_w : (mk op sub g dm dst a b mod).w = false := rfl
@[simp] theorem mk_r40 : (mk op sub g dm dst a b mod).r40 = false := rfl
end

section
variable (f : Fields) (b : Src)

@[simp] theorem withB_op : (f.withB b).op = f.op := by cases b <;> rfl
@[simp] theorem withB_sub : (f.withB b).sub = f.sub := by cases b <;> rfl
@[simp] theorem withB_pred : (f.withB b).pred = f.pred := by cases b <;> rfl
@[simp] theorem withB_dm : (f.withB b).dmask = f.dmask := by cases b <;> rfl
@[simp] theorem withB_r40 : (f.withB b).r40 = f.r40 := by cases b <;> rfl
@[simp] theorem withB_dst : (f.withB b).dst = f.dst := by cases b <;> rfl
@[simp] theorem withB_srca : (f.withB b).srca = f.srca := by cases b <;> rfl
@[simp] theorem withB_mod : (f.withB b).mod = f.mod := by cases b <;> rfl
@[simp] theorem withBR_op : (f.withBR b).op = f.op := by cases b <;> rfl
@[simp] theorem withBR_sub : (f.withBR b).sub = f.sub := by cases b <;> rfl
@[simp] theorem withBR_pred : (f.withBR b).pred = f.pred := by cases b <;> rfl
@[simp] theorem withBR_dm : (f.withBR b).dmask = f.dmask := by cases b <;> rfl
@[simp] theorem withBR_r40 : (f.withBR b).r40 = f.r40 := by cases b <;> rfl
@[simp] theorem withBR_dst : (f.withBR b).dst = f.dst := by cases b <;> rfl
@[simp] theorem withBR_srca : (f.withBR b).srca = f.srca := by cases b <;> rfl
end

@[simp] theorem withB_g (f : Fields) (b : Src) : (f.withB b).g = f.g := by cases b <;> rfl
@[simp] theorem withBR_g (f : Fields) (b : Src) : (f.withBR b).g = f.g := by cases b <;> rfl

theorem modI_x (x : BitVec 4) (y : BitVec 3) (i : BitVec 8) : (modI x y i).extractLsb' 12 4 = x := by
  simp (disch := decide) only [modI, app_hi, BitVec.extractLsb'_eq_self, Nat.reduceSub]
theorem modI_y (x : BitVec 4) (y : BitVec 3) (i : BitVec 8) : (modI x y i).extractLsb' 9 3 = y := by
  simp (disch := decide) only [modI, app_lo, app_hi, BitVec.extractLsb'_eq_self, Nat.reduceSub]
theorem modI_i (x : BitVec 4) (y : BitVec 3) (i : BitVec 8) : (modI x y i).getLsbD 8 = true := by
  simp (disch := decide) only [modI, bit_lo, bit_hi]; rfl
theorem modI_low (x : BitVec 4) (y : BitVec 3) (i : BitVec 8) : (modI x y i).extractLsb' 0 8 = i := by
  simp (disch := decide) only [modI, app_lo, BitVec.extractLsb'_eq_self]

@[simp] theorem withBR_x (f : Fields) (b : Src) : (f.withBR b).x = f.x := by
  cases b <;> first | rfl | exact modI_x _ _ _
@[simp] theorem withBR_y (f : Fields) (b : Src) : (f.withBR b).y = f.y := by
  cases b <;> first | rfl | exact modI_y _ _ _

/-- Source B is a code or the literal. -/
def Src.codedL : Src → Bool
  | .lit _ => true
  | b => b.coded

/-- Source B is a code, the literal, or IMM8. -/
def Src.codedB : Src → Bool
  | .lit _ => true
  | .imm _ => true
  | b => b.coded

/-- Source B read back (R41, R43). -/
theorem withB_bM {f : Fields} {b : Src} (hw : f.w = false) (hb : b.codedL = true) : (f.withB b).bM = b := by
  cases b with
  | lit l => rfl
  | imm i => cases hb
  | _ => simp only [Fields.withB, Fields.bM, hw]; refine srcOf_code ?_; exact hb

theorem withBR_bR {f : Fields} {b : Src} (hw : f.w = false) (hi : f.i = false) (hb : b.codedB = true) : (f.withBR b).bR = b := by
  cases b with
  | lit l => rfl
  | imm i =>
    have h1 : (f.withBR (.imm i)).w = false := hw
    have h2 : (f.withBR (.imm i)).i = true := modI_i _ _ _
    have h3 : (f.withBR (.imm i)).low = i := modI_low _ _ _
    simp [Fields.bR, h1, h2, h3]
  | _ =>
    show (if f.w = true then Src.lit f.lit else if f.i = true then Src.imm f.low else srcOf (Src.code _)) = _
    rw [hw, hi, if_neg (by decide), if_neg (by decide)]; refine srcOf_code ?_; exact hb

/-- The check of source B (R46): none where the literal or the immediate stands for it. -/
def bGood (p : SPos) (str : Strm) : Src → Prop
  | .lit _ => True
  | .imm _ => True
  | x => srcBad p str x.code = []

/-- The checks of a word that has no literal. -/
theorem mk_reasons {str : Strm} {row : OpRow} {op : BitVec 8} {sub : BitVec 4} {g : Guard} {dm : BitVec 6} {dst a b : BitVec 8} {mod : BitVec 16}
    (hs : row.streams.contains str = true) (hg : g.wf = true) (hf : formBad row (mk op sub g dm dst a b mod) = [])
    (hi : (row.form == .r && mod.getLsbD 8) = false) (hd : dstBad row.dst (dm.getLsbD 0) dst = [])
    (ha : srcBad row.a str a = []) (hb : row.form = .b ∨ srcBad row.b str b = []) (hm : dmaskBad row.res str dm = [])
    (hr : (row.rdst && !dm.getLsbD 0) = false) (hc : row.chk str (mk op sub g dm dst a b mod) = []) :
    reasons str row (mk op sub g dm dst a b mod) = [] := by
  have h2 : wideBad row (mk op sub g dm dst a b mod) = [] := by
    simp only [wideBad, bad_nil, mk_w, Bool.false_and, Bool.false_or, Fields.i, mk_mod, hi]
  have h3 : (if ((mk op sub g dm dst a b mod).w && row.form != .l) || (row.form == .r && (mk op sub g dm dst a b mod).i) || row.form == .b then []
      else srcBad row.b str (mk op sub g dm dst a b mod).srcb) = [] := by
    rcases hb with hb | hb
    · simp [hb]
    · rw [show (mk op sub g dm dst a b mod).srcb = b from rfl, hb]; split <;> rfl
  unfold reasons
  simp only []
  rw [hf, h2, h3, hc]
  simp only [hs, mk_r40, mk_pred, guard_code hg, mk_dst, mk_srca, mk_dm, Fields.d0, hd, ha, hm, hr, bad, Bool.not_true, Bool.false_or,
    List.append_nil, Bool.false_eq_true, if_false]

/-- The checks of a word whose source B may be the literal. -/
theorem withB_reasons {str : Strm} {row : OpRow} {op : BitVec 8} {sub : BitVec 4} {g : Guard} {dm : BitVec 6} {dst a : BitVec 8} {mod : BitVec 16} {b : Src}
    (hw : row.wide = true) (hform : row.form = .r ∨ row.form = .m ∨ row.form = .c)
    (hs : row.streams.contains str = true) (hg : g.wf = true) (hf : formBad row ((mk op sub g dm dst a 0 mod).withB b) = [])
    (hi : (row.form == .r && mod.getLsbD 8) = false) (hd : dstBad row.dst (dm.getLsbD 0) dst = [])
    (ha : srcBad row.a str a = []) (hb : bGood row.b str b) (him : ∀ i, b ≠ .imm i) (hm : dmaskBad row.res str dm = [])
    (hr : (row.rdst && !dm.getLsbD 0) = false) (hc : row.chk str ((mk op sub g dm dst a 0 mod).withB b) = []) :
    reasons str row ((mk op sub g dm dst a 0 mod).withB b) = [] := by
  have h2 : wideBad row ((mk op sub g dm dst a 0 mod).withB b) = [] := by
    cases b with
    | lit l =>
      have e : (Fields.withB (mk op sub g dm dst a 0 mod) (.lit l)).i = mod.getLsbD 8 := rfl
      rcases hform with h | h | h <;> simp_all [wideBad, Fields.withB]
    | imm i => exact absurd rfl (him i)
    | _ =>
      simp only [wideBad, bad_nil, Fields.withB, mk_w, Bool.false_and, Bool.false_or, Fields.i, mk_mod, hi]
  have h3 : (if (((mk op sub g dm dst a 0 mod).withB b).w && row.form != .l) || (row.form == .r && ((mk op sub g dm dst a 0 mod).withB b).i) || row.form == .b then []
      else srcBad row.b str ((mk op sub g dm dst a 0 mod).withB b).srcb) = [] := by
    cases b with
    | lit l => rcases hform with h | h | h <;> simp [h, Fields.withB]
    | imm i => exact absurd rfl (him i)
    | _ => split <;> first | rfl | exact hb
  unfold reasons
  simp only []
  rw [hf, h2, h3, hc]
  simp only [hs, withB_r40, withB_pred, withB_dst, withB_srca, withB_dm, mk_r40, mk_pred, guard_code hg, mk_dst, mk_srca, mk_dm, Fields.d0, hd, ha, hm, hr,
    bad, Bool.not_true, Bool.false_or, List.append_nil, Bool.false_eq_true, if_false]

/-- The checks of an F-R word whose source B may be the literal or IMM8. -/
theorem withBR_reasons {str : Strm} {row : OpRow} {op : BitVec 8} {sub : BitVec 4} {g : Guard} {dm : BitVec 6} {dst a : BitVec 8} {x : BitVec 4}
    {y : BitVec 3} {b : Src} (hw : row.wide = true) (hform : row.form = .r) (hop : (op.extractLsb' 3 5 != 0b01100) = true)
    (hs : row.streams.contains str = true) (hg : g.wf = true) (hd : dstBad row.dst (dm.getLsbD 0) dst = [])
    (ha : srcBad row.a str a = []) (hb : bGood row.b str b) (hm : dmaskBad row.res str dm = [])
    (hr : (row.rdst && !dm.getLsbD 0) = false) (hc : row.chk str ((mk op sub g dm dst a 0 (modR x y 0)).withBR b) = []) :
    reasons str row ((mk op sub g dm dst a 0 (modR x y 0)).withBR b) = [] := by
  have hi0 : (modR x y 0).getLsbD 8 = false := modR_i _ _ _
  have hl0 : (modR x y 0).extractLsb' 0 8 = 0 := modR_low _ _ _
  have h1 : formBad row ((mk op sub g dm dst a 0 (modR x y 0)).withBR b) = [] := by
    cases b with
    | imm i =>
      have e : (Fields.withBR (mk op sub g dm dst a 0 (modR x y 0)) (.imm i)).i = true := modI_i _ _ _
      simp only [formBad, hform, bad_nil, e, Bool.not_true, Bool.false_and]
    | _ => simp only [formBad, hform, bad_nil, Fields.withBR, Fields.low, Fields.k, mk_mod, hl0]; simp
  have h2 : wideBad row ((mk op sub g dm dst a 0 (modR x y 0)).withBR b) = [] := by
    cases b with
    | imm i =>
      have e : (Fields.withBR (mk op sub g dm dst a 0 (modR x y 0)) (.imm i)).i = true := modI_i _ _ _
      have e1 : (Fields.withBR (mk op sub g dm dst a 0 (modR x y 0)) (.imm i)).w = false := rfl
      have e2 : (Fields.withBR (mk op sub g dm dst a 0 (modR x y 0)) (.imm i)).srcb = 0 := rfl
      simp only [wideBad, bad_nil, e, e1, e2, withBR_op, mk_op, hform, hw, hop]; rfl
    | lit l =>
      have e : (Fields.withBR (mk op sub g dm dst a 0 (modR x y 0)) (.lit l)).i = false := hi0
      have e1 : (Fields.withBR (mk op sub g dm dst a 0 (modR x y 0)) (.lit l)).w = true := rfl
      have e2 : (Fields.withBR (mk op sub g dm dst a 0 (modR x y 0)) (.lit l)).srcb = 0 := rfl
      simp only [wideBad, bad_nil, e, e1, e2, hform, hw]; rfl
    | _ => simp only [wideBad, bad_nil, Fields.withBR, mk_w, Bool.false_and, Bool.false_or, Fields.i, mk_mod, hi0, Bool.and_false]
  have h3 : (if (((mk op sub g dm dst a 0 (modR x y 0)).withBR b).w && row.form != .l)
        || (row.form == .r && ((mk op sub g dm dst a 0 (modR x y 0)).withBR b).i) || row.form == .b then []
      else srcBad row.b str ((mk op sub g dm dst a 0 (modR x y 0)).withBR b).srcb) = [] := by
    cases b with
    | lit l =>
      have e1 : (Fields.withBR (mk op sub g dm dst a 0 (modR x y 0)) (.lit l)).w = true := rfl
      simp only [e1, hform]; simp
    | imm i =>
      have e : (Fields.withBR (mk op sub g dm dst a 0 (modR x y 0)) (.imm i)).i = true := modI_i _ _ _
      simp only [hform, e]; simp
    | _ => split <;> first | rfl | exact hb
  unfold reasons
  simp only []
  rw [h1, h2, h3, hc]
  simp only [hs, withBR_r40, withBR_pred, withBR_dst, withBR_srca, withBR_dm, mk_r40, mk_pred, guard_code hg, mk_dst, mk_srca, mk_dm, Fields.d0, hd, ha, hm,
    hr, bad, Bool.not_true, Bool.false_or, List.append_nil, Bool.false_eq_true, if_false]

end Sys2Proof
end

