-- ==== Sys2Proof/Laws/Forms.lean ====
section
/-!
SUPPORT. Decoding of the words the encoder builds: the fields they carry, and that a word whose operands suit its row decodes to what the row builds.
-/

set_option Elab.async false
set_option linter.unusedSimpArgs false

namespace Sys2Proof

/-! ### Fields of MOD (R43 to R45) -/

section
variable {op : BitVec 8} {sub : BitVec 4} {g : Guard} {dm : BitVec 6} {dst a b : BitVec 8}

@[simp] theorem mkR_x (x : BitVec 4) (y : BitVec 3) (k : BitVec 4) : (mk op sub g dm dst a b (modR x y k)).x = x := modR_x _ _ _
@[simp] theorem mkR_y (x : BitVec 4) (y : BitVec 3) (k : BitVec 4) : (mk op sub g dm dst a b (modR x y k)).y = y := modR_y _ _ _
@[simp] theorem mkR_i (x : BitVec 4) (y : BitVec 3) (k : BitVec 4) : (mk op sub g dm dst a b (modR x y k)).i = false := modR_i _ _ _
@[simp] theorem mkR_low (x : BitVec 4) (y : BitVec 3) (k : BitVec 4) : (mk op sub g dm dst a b (modR x y k)).low = 0#4 ++ k := modR_low _ _ _
@[simp] theorem mkR_k (x : BitVec 4) (y : BitVec 3) (k : BitVec 4) : (mk op sub g dm dst a b (modR x y k)).k = k := by
  rw [Fields.k, mkR_low]; exact low_k k

@[simp] theorem mkM_fmt (fmt : BitVec 5) (rnd scope : BitVec 3) (fe : BitVec 2) (zf : Bool) (sz : BitVec 2) : (mk op sub g dm dst a b (modM fmt rnd scope fe zf sz)).fmt = fmt := by
  simp (disch := decide) only [Fields.fmt, mk_mod, modM, app_lo, app_hi, BitVec.extractLsb'_eq_self, Nat.reduceSub]
@[simp] theorem mkM_rnd (fmt : BitVec 5) (rnd scope : BitVec 3) (fe : BitVec 2) (zf : Bool) (sz : BitVec 2) : (mk op sub g dm dst a b (modM fmt rnd scope fe zf sz)).rnd = rnd := by
  simp (disch := decide) only [Fields.rnd, mk_mod, modM, app_lo, app_hi, BitVec.extractLsb'_eq_self, Nat.reduceSub]
@[simp] theorem mkM_scope (fmt : BitVec 5) (rnd scope : BitVec 3) (fe : BitVec 2) (zf : Bool) (sz : BitVec 2) : (mk op sub g dm dst a b (modM fmt rnd scope fe zf sz)).scope = scope := by
  simp (disch := decide) only [Fields.scope, mk_mod, modM, app_lo, app_hi, BitVec.extractLsb'_eq_self, Nat.reduceSub]
@[simp] theorem mkM_fe (fmt : BitVec 5) (rnd scope : BitVec 3) (fe : BitVec 2) (zf : Bool) (sz : BitVec 2) : (mk op sub g dm dst a b (modM fmt rnd scope fe zf sz)).fe = fe := by
  simp (disch := decide) only [Fields.fe, mk_mod, modM, app_lo, app_hi, BitVec.extractLsb'_eq_self, Nat.reduceSub]
@[simp] theorem mkM_sz (fmt : BitVec 5) (rnd scope : BitVec 3) (fe : BitVec 2) (zf : Bool) (sz : BitVec 2) : (mk op sub g dm dst a b (modM fmt rnd scope fe zf sz)).sz = sz := by
  simp (disch := decide) only [Fields.sz, mk_mod, modM, app_lo, app_hi, BitVec.extractLsb'_eq_self, Nat.reduceSub]
@[simp] theorem mkM_zf (fmt : BitVec 5) (rnd scope : BitVec 3) (fe : BitVec 2) (zf : Bool) (sz : BitVec 2) : (mk op sub g dm dst a b (modM fmt rnd scope fe zf sz)).zf = zf := by
  simp (disch := decide) only [Fields.zf, mk_mod, modM, bit_lo, bit_hi, Nat.reduceSub]; cases zf <;> rfl

@[simp] theorem mkC_ctr (ctr : BitVec 4) (nb : Bool) (pd : BitVec 3) (aux : BitVec 8) : (mk op sub g dm dst a b (modC ctr nb pd aux)).ctr = ctr := by
  simp (disch := decide) only [Fields.ctr, mk_mod, modC, app_lo, app_hi, BitVec.extractLsb'_eq_self, Nat.reduceSub]
@[simp] theorem mkC_nb (ctr : BitVec 4) (nb : Bool) (pd : BitVec 3) (aux : BitVec 8) : (mk op sub g dm dst a b (modC ctr nb pd aux)).nb = nb := by
  simp (disch := decide) only [Fields.nb, mk_mod, modC, bit_lo, bit_hi, Nat.reduceSub]; cases nb <;> rfl
@[simp] theorem mkC_pd (ctr : BitVec 4) (nb : Bool) (pd : BitVec 3) (aux : BitVec 8) : (mk op sub g dm dst a b (modC ctr nb pd aux)).pd = pd := by
  simp (disch := decide) only [Fields.pd, mk_mod, modC, app_lo, app_hi, BitVec.extractLsb'_eq_self, Nat.reduceSub]
@[simp] theorem mkC_aux (ctr : BitVec 4) (nb : Bool) (pd : BitVec 3) (aux : BitVec 8) : (mk op sub g dm dst a b (modC ctr nb pd aux)).aux = aux := by
  simp (disch := decide) only [Fields.aux, mk_mod, modC, app_lo, app_hi, BitVec.extractLsb'_eq_self, Nat.reduceSub]

@[simp] theorem mkX_ftn (ts : Bool) (ft : BitVec 4) (sp : BitVec 2) (tb ta : Bool) (ks : BitVec 7) : (mk op sub g dm dst a b (modX ts ft sp tb ta ks)).ftn = ft := by
  simp (disch := decide) only [Fields.ftn, mk_mod, modX, app_lo, app_hi, BitVec.extractLsb'_eq_self, Nat.reduceSub]
@[simp] theorem mkX_sp (ts : Bool) (ft : BitVec 4) (sp : BitVec 2) (tb ta : Bool) (ks : BitVec 7) : (mk op sub g dm dst a b (modX ts ft sp tb ta ks)).sp = sp := by
  simp (disch := decide) only [Fields.sp, mk_mod, modX, app_lo, app_hi, BitVec.extractLsb'_eq_self, Nat.reduceSub]
@[simp] theorem mkX_ks (ts : Bool) (ft : BitVec 4) (sp : BitVec 2) (tb ta : Bool) (ks : BitVec 7) : (mk op sub g dm dst a b (modX ts ft sp tb ta ks)).ks = ks := by
  simp (disch := decide) only [Fields.ks, mk_mod, modX, app_lo, app_hi, BitVec.extractLsb'_eq_self, Nat.reduceSub]
@[simp] theorem mkX_ts (ts : Bool) (ft : BitVec 4) (sp : BitVec 2) (tb ta : Bool) (ks : BitVec 7) : (mk op sub g dm dst a b (modX ts ft sp tb ta ks)).ts = ts := by
  simp (disch := decide) only [Fields.ts, mk_mod, modX, bit_lo, bit_hi, Nat.reduceSub]; cases ts <;> rfl
@[simp] theorem mkX_tb (ts : Bool) (ft : BitVec 4) (sp : BitVec 2) (tb ta : Bool) (ks : BitVec 7) : (mk op sub g dm dst a b (modX ts ft sp tb ta ks)).tb = tb := by
  simp (disch := decide) only [Fields.tb, mk_mod, modX, bit_lo, bit_hi, Nat.reduceSub]; cases tb <;> rfl
@[simp] theorem mkX_ta (ts : Bool) (ft : BitVec 4) (sp : BitVec 2) (tb ta : Bool) (ks : BitVec 7) : (mk op sub g dm dst a b (modX ts ft sp tb ta ks)).ta = ta := by
  simp (disch := decide) only [Fields.ta, mk_mod, modX, bit_lo, bit_hi, Nat.reduceSub]; cases ta <;> rfl

@[simp] theorem mkZ_x : (mk op sub g dm dst a b 0#16).x = 0 := by rw [Fields.x, mk_mod]; decide
@[simp] theorem mkZ_y : (mk op sub g dm dst a b 0#16).y = 0 := by rw [Fields.y, mk_mod]; decide
@[simp] theorem mkZ_i : (mk op sub g dm dst a b 0#16).i = false := by rw [Fields.i, mk_mod]; decide
@[simp] theorem mkZ_low : (mk op sub g dm dst a b 0#16).low = 0 := by rw [Fields.low, mk_mod]; decide
@[simp] theorem mkZ_k : (mk op sub g dm dst a b 0#16).k = 0 := by rw [Fields.k, mkZ_low]; decide
@[simp] theorem mkZ_fmt : (mk op sub g dm dst a b 0#16).fmt = 0 := by rw [Fields.fmt, mk_mod]; decide
@[simp] theorem mkZ_rnd : (mk op sub g dm dst a b 0#16).rnd = 0 := by rw [Fields.rnd, mk_mod]; decide
@[simp] theorem mkZ_scope : (mk op sub g dm dst a b 0#16).scope = 0 := by rw [Fields.scope, mk_mod]; decide
@[simp] theorem mkZ_fe : (mk op sub g dm dst a b 0#16).fe = 0 := by rw [Fields.fe, mk_mod]; decide
@[simp] theorem mkZ_zf : (mk op sub g dm dst a b 0#16).zf = false := by rw [Fields.zf, mk_mod]; decide
@[simp] theorem mkZ_sz : (mk op sub g dm dst a b 0#16).sz = 0 := by rw [Fields.sz, mk_mod]; decide
@[simp] theorem mkZ_ts : (mk op sub g dm dst a b 0#16).ts = false := by rw [Fields.ts, mk_mod]; decide
@[simp] theorem mkZ_ftn : (mk op sub g dm dst a b 0#16).ftn = 0 := by rw [Fields.ftn, mk_mod]; decide
@[simp] theorem mkZ_sp : (mk op sub g dm dst a b 0#16).sp = 0 := by rw [Fields.sp, mk_mod]; decide
end

section
variable (f : Fields) (b : Src)

@[simp] theorem withB_x : (f.withB b).x = f.x := by cases b <;> rfl
@[simp] theorem withB_y : (f.withB b).y = f.y := by cases b <;> rfl
@[simp] theorem withB_i : (f.withB b).i = f.i := by cases b <;> rfl
@[simp] theorem withB_low : (f.withB b).low = f.low := by cases b <;> rfl
@[simp] theorem withB_k : (f.withB b).k = f.k := by cases b <;> rfl
@[simp] theorem withB_fmt : (f.withB b).fmt = f.fmt := by cases b <;> rfl
@[simp] theorem withB_rnd : (f.withB b).rnd = f.rnd := by cases b <;> rfl
@[simp] theorem withB_scope : (f.withB b).scope = f.scope := by cases b <;> rfl
@[simp] theorem withB_fe : (f.withB b).fe = f.fe := by cases b <;> rfl
@[simp] theorem withB_zf : (f.withB b).zf = f.zf := by cases b <;> rfl
@[simp] theorem withB_sz : (f.withB b).sz = f.sz := by cases b <;> rfl
@[simp] theorem withB_ctr : (f.withB b).ctr = f.ctr := by cases b <;> rfl
@[simp] theorem withB_nb : (f.withB b).nb = f.nb := by cases b <;> rfl
@[simp] theorem withB_pd : (f.withB b).pd = f.pd := by cases b <;> rfl
@[simp] theorem withB_aux : (f.withB b).aux = f.aux := by cases b <;> rfl
end

/-! ### Deliveries and operands -/

/-- The register of a delivery reads back from its code, as s, a or v. -/
def Dest.okR (d : Dest) : Bool :=
  match d.reg with
  | none => true
  | some r => Reg.ofCode r.code == r

/-- As a predicate. -/
def Dest.okP (d : Dest) : Bool :=
  match d.reg with
  | none => true
  | some r => Reg.p (r.code.extractLsb' 0 3) == r

/-- As a lane mask. -/
def Dest.okK (d : Dest) : Bool :=
  match d.reg with
  | none => true
  | some r => Reg.k (r.code.extractLsb' 0 4) == r

theorem okR_scalar {d : Dest} {str : Strm} (h : d.isScalar str = true) : d.okR = true := by
  obtain ⟨reg, qs⟩ := d
  cases reg with
  | none => rfl
  | some r => simp only [Dest.okR, beq_iff_eq]; exact scalar_reg h r rfl

theorem okR_vec {d : Dest} (h : d.isVec = true) : d.okR = true := by
  obtain ⟨reg, qs⟩ := d
  cases reg with
  | none => rfl
  | some r => simp only [Dest.okR, beq_iff_eq]; exact vec_reg h r rfl

theorem okP_pred {d : Dest} {str : Strm} (h : d.isPred str = true) : d.okP = true := by
  obtain ⟨reg, qs⟩ := d
  cases reg with
  | none => rfl
  | some r => simp only [Dest.okP, beq_iff_eq]; exact pred_reg h r rfl

theorem okK_mask {d : Dest} (h : d.isMask = true) : d.okK = true := by
  obtain ⟨reg, qs⟩ := d
  cases reg with
  | none => rfl
  | some r => simp only [Dest.okK, beq_iff_eq]; exact mask_reg h r rfl

/-- The fields that carry a delivery give it back. -/
theorem fields_dest {f : Fields} {d : Dest} (h1 : f.dmask = d.dmask) (h2 : f.dst = d.code) (h : d.okR = true) : f.dest = d := by
  simp only [Fields.dest, Fields.d0, Fields.qs, h1, h2]
  apply dest_of
  intro r hr; simp only [Dest.okR, hr, beq_iff_eq] at h; exact h

theorem fields_pdest {f : Fields} {d : Dest} (h1 : f.dmask = d.dmask) (h2 : f.dst = d.code) (h : d.okP = true) : f.pdest = d := by
  simp only [Fields.pdest, Fields.d0, Fields.qs, h1, h2]
  apply dest_of (k := fun c => .p (c.extractLsb' 0 3))
  intro r hr; simp only [Dest.okP, hr, beq_iff_eq] at h; exact h

theorem fields_kdest {f : Fields} {d : Dest} (h1 : f.dmask = d.dmask) (h2 : f.dst = d.code) (h : d.okK = true) : f.kdest = d := by
  simp only [Fields.kdest, Fields.d0, Fields.qs, h1, h2]
  apply dest_of (k := fun c => .k (c.extractLsb' 0 4))
  intro r hr; simp only [Dest.okK, hr, beq_iff_eq] at h; exact h

section
variable {op : BitVec 8} {sub : BitVec 4} {g : Guard} {d : Dest} {a b : BitVec 8} {mod : BitVec 16} {s : Src}
@[simp] theorem mk_dest (h : d.okR = true) : (mk op sub g d.dmask d.code a b mod).dest = d := fields_dest rfl rfl h
@[simp] theorem mkB_dest (h : d.okR = true) : ((mk op sub g d.dmask d.code a b mod).withB s).dest = d :=
  fields_dest (by simp) (by simp) h
@[simp] theorem mkBR_dest (h : d.okR = true) : ((mk op sub g d.dmask d.code a b mod).withBR s).dest = d :=
  fields_dest (by simp) (by simp) h
end

section
variable {op : BitVec 8} {sub : BitVec 4} {g : Guard} {d : Dest} {a b : BitVec 8} {mod : BitVec 16} {s : Src}
@[simp] theorem mk_pdest (h : d.okP = true) : (mk op sub g d.dmask d.code a b mod).pdest = d := fields_pdest rfl rfl h
@[simp] theorem mkB_pdest (h : d.okP = true) : ((mk op sub g d.dmask d.code a b mod).withB s).pdest = d :=
  fields_pdest (by simp) (by simp) h
@[simp] theorem mkBR_pdest (h : d.okP = true) : ((mk op sub g d.dmask d.code a b mod).withBR s).pdest = d :=
  fields_pdest (by simp) (by simp) h
end

section
variable {op : BitVec 8} {sub : BitVec 4} {g : Guard} {d : Dest} {a b : BitVec 8} {mod : BitVec 16} {s : Src}
@[simp] theorem mk_kdest (h : d.okK = true) : (mk op sub g d.dmask d.code a b mod).kdest = d := fields_kdest rfl rfl h
@[simp] theorem mkB_kdest (h : d.okK = true) : ((mk op sub g d.dmask d.code a b mod).withB s).kdest = d :=
  fields_kdest (by simp) (by simp) h
@[simp] theorem mkBR_kdest (h : d.okK = true) : ((mk op sub g d.dmask d.code a b mod).withBR s).kdest = d :=
  fields_kdest (by simp) (by simp) h
end

section
variable {op : BitVec 8} {sub : BitVec 4} {g : Guard} {dm : BitVec 6} {dst a b : BitVec 8} {mod : BitVec 16} {s t : Src} {x : BitVec 4} {y : BitVec 3}
@[simp] theorem mk_aS (h : t.coded = true) : (mk op sub g dm dst t.code b mod).aS = t := srcOf_code h
@[simp] theorem mk_bS (h : t.coded = true) : (mk op sub g dm dst a t.code mod).bS = t := srcOf_code h
@[simp] theorem mkB_aS (h : t.coded = true) : ((mk op sub g dm dst t.code b mod).withB s).aS = t := by simp [Fields.aS, srcOf_code h]
@[simp] theorem mkBR_aS (h : t.coded = true) : ((mk op sub g dm dst t.code b mod).withBR s).aS = t := by simp [Fields.aS, srcOf_code h]
@[simp] theorem mkB_bM (h : s.codedL = true) : ((mk op sub g dm dst a b mod).withB s).bM = s := withB_bM mk_w h
@[simp] theorem mkB_bS (h : s.coded = true) : ((mk op sub g dm dst a b mod).withB s).bS = s := by
  cases s <;> first | (cases h; done) | exact srcOf_code h
@[simp] theorem mkBR_bR (h : s.codedB = true) : ((mk op sub g dm dst a b (modR x y 0#4)).withBR s).bR = s := withBR_bR mk_w (modR_i _ _ _) h
@[simp] theorem mkBRZ_bR (h : s.codedB = true) : ((mk op sub g dm dst a b 0#16).withBR s).bR = s := withBR_bR mk_w mkZ_i h
end

theorem codedB_scalar {b : Src} {str : Strm} (h : b.isScalarB str true true = true) : b.codedB = true := by
  cases b <;> rfl
theorem codedL_scalar {b : Src} {str : Strm} (h : b.isScalarB str true false = true) : b.codedL = true := by
  cases b <;> first | rfl | exact coded_scalar (str := str) h | cases h
theorem codedL_vec {b : Src} (h : b.isVecB true = true) : b.codedL = true := by
  cases b <;> first | rfl | exact coded_vec h | cases h
theorem codedL_coded {b : Src} (h : b.coded = true) : b.codedL = true := by
  cases b <;> first | rfl | exact h

/-- The check of source B passes, and no immediate stands there. -/
def bFit (p : SPos) (str : Strm) (b : Src) : Prop := bGood p str b ∧ ∀ i, b ≠ .imm i

theorem bGood_scalar {b : Src} {str : Strm} (h : b.isScalarB str true true = true) : bGood .scalar str b := by
  cases b <;> first | trivial | exact srcBad_scalar h
theorem bFit_scalar {b : Src} {str : Strm} (h : b.isScalarB str true false = true) : bFit .scalar str b :=
  ⟨by cases b <;> first | trivial | exact srcBad_scalar h, by rintro i rfl; cases h⟩
theorem bFit_vec {b : Src} {str : Strm} (h : b.isVecB true = true) : bFit .vec str b :=
  ⟨by cases b <;> first | trivial | exact srcBad_vec h, by rintro i rfl; cases h⟩
theorem bFit_plain {b : Src} {str : Strm} (h : b.isScalar str = true) : bFit .scalar str b :=
  ⟨by cases b <;> first | trivial | exact srcBad_scalar h, by rintro i rfl; cases h⟩
theorem bFit_data {b : Src} {str : Strm} (h : b.isData = true) : bFit .data str b :=
  ⟨by cases b <;> first | trivial | exact srcBad_data h, by rintro i rfl; cases h⟩
theorem bFit_none {p : SPos} {str : Strm} (h : srcBad p str 0 = []) : bFit p str noSrc := ⟨h, by rintro i h; cases h⟩

/-! ### DST -/

theorem dst_scalar' {d : Dest} {str : Strm} (h : d.isScalar str = true) : dstBad .scalar (d.dmask.getLsbD 0) d.code = [] := by
  rw [dmask_zero]; exact dst_scalar h
theorem dst_vec' {d : Dest} (h : d.isVec = true) : dstBad .vec (d.dmask.getLsbD 0) d.code = [] := by rw [dmask_zero]; exact dst_vec h
theorem dst_pred' {d : Dest} {str : Strm} (h : d.isPred str = true) : dstBad .pred (d.dmask.getLsbD 0) d.code = [] := by
  rw [dmask_zero]; exact dst_pred h
theorem dst_mask' {d : Dest} (h : d.isMask = true) : dstBad .mask (d.dmask.getLsbD 0) d.code = [] := by
  rw [dmask_zero]; exact dst_mask h
theorem dst_zeroBy {r : Nat} {rd : Bool} : dstBad (.zeroBy r) rd 0 = [] := rfl
/-- DST of CRING and RSLOT. -/
theorem formDst_none {f : Fields} (h : f.dst = 0) : formDst false f = [] := by simp [formDst, h]
theorem formDst_scalar {f : Fields} {d : Dest} {str : Strm} (h : d.isScalar str = true) (h1 : f.dmask = d.dmask) (h2 : f.dst = d.code) :
    formDst true f = [] := by
  have := dst_scalar' h
  simpa [formDst, dstBad, Fields.d0, h1, h2, bad, Nat.not_lt] using this
theorem dst_zero {rd : Bool} : dstBad .zero rd 0 = [] := rfl
theorem dst_data {rd : Bool} {x : Src} (h : x.isData = true) : dstBad .data rd x.code = [] := by
  cases x with
  | s n => clear h; revert n; cases rd <;> decide
  | a n => clear h; revert n; cases rd <;> decide
  | const n => clear h; revert n; cases rd <;> decide
  | _ => cases h
theorem dst_loop {rd : Bool} (l : BitVec 2) : dstBad .loop rd (0#6 ++ l) = [] := by revert l; cases rd <;> decide
theorem dst_acc {rd : Bool} (c : Bool) : dstBad .acc rd (0#7 ++ BitVec.ofBool c) = [] := by cases c <;> cases rd <;> decide
theorem dst_vq {rd : Bool} : dstBad .vq rd 0x3A = [] := rfl
theorem dmask_isNone {d : Dest} (h : d.isNone = true) : d.dmask = 0 := by
  obtain ⟨reg, qs⟩ := d; simp only [Dest.isNone, Bool.and_eq_true, beq_iff_eq] at h; obtain ⟨rfl, rfl⟩ := h; rfl
theorem code_isNone {d : Dest} (h : d.isNone = true) : d.code = 0 := by
  obtain ⟨reg, qs⟩ := d; simp only [Dest.isNone, Bool.and_eq_true, beq_iff_eq] at h; obtain ⟨rfl, rfl⟩ := h; rfl
theorem scalarB_ff {b : Src} {str : Strm} : b.isScalarB str false false = b.isScalar str := by cases b <;> rfl
theorem nb_pd {nb : Option (BitVec 3)} : nb = none → nb.getD 0#3 = 0#3 := by rintro rfl; rfl
section
variable {op : BitVec 8} {sub : BitVec 4} {g : Guard} {d : Dest} {dst a b : BitVec 8} {mod : BitVec 16} {s : Src}
@[simp] theorem mk_d0 : (mk op sub g d.dmask dst a b mod).d0 = d.reg.isSome := by simp only [Fields.d0, withB_dm, mk_dm, dmask_zero]
@[simp] theorem mkB_d0 : ((mk op sub g d.dmask dst a b mod).withB s).d0 = d.reg.isSome := by simp only [Fields.d0, withB_dm, mk_dm, dmask_zero]
end
@[simp] theorem o1_gt (c : Bool) : 1 < (1#1 ++ BitVec.ofBool c).toNat := by cases c <;> decide
theorem even_code0 : ∀ n : BitVec 5, (Reg.s n).code.toNat < 32 ∧ (Reg.s n).code[0] = n[0] := by decide
theorem even_code {d : Dest} {n : BitVec 5} (h : d.reg = some (.s n)) : d.code.toNat < 32 ∧ d.code[0] = n[0] := by
  have e : d.code = (Reg.s n).code := by rw [Dest.code, h]
  rw [e]; exact even_code0 n
theorem rd_ok {d : Dest} (h : d.reg.isSome = true) : (true && !d.dmask.getLsbD 0) = false := by rw [dmask_zero, h]; rfl

/-! ### MOD's own checks -/

theorem formM {row : OpRow} {f : Fields} (h : row.form = .m) (h1 : f.fmt.toNat < 25) (h2 : f.rnd ≠ 7) (h3 : f.scope.toNat < 5) (h4 : f.fe ≠ 3) :
    formBad row f = [] := by
  simp only [formBad, h, memChk, bad_nil, Bool.or_eq_false_iff, decide_eq_false_iff_not, beq_eq_false_iff_ne]
  exact ⟨⟨⟨by omega, h2⟩, by omega⟩, h4⟩

@[simp] theorem scope_lt (s : Scope) : s.code.toNat < 5 := by cases s <;> decide
@[simp] theorem fe_ne (s : Fe) : (s.code = 3#2) = False := by cases s <;> decide
@[simp] theorem fe_fec (s : Fe) : (s.code = 2#2) = (s = .fec) := by cases s <;> decide
@[simp] theorem fe_none (s : Fe) : (s.code = 0#2) = (s = .none) := by cases s <;> decide
@[simp] theorem rnd_ne (s : Rnd) : (s.code = 7#3) = False := by cases s <;> decide
@[simp] theorem rnd_rne (s : Rnd) : (s.code = 0#3) = (s = .rne) := by cases s <;> decide
@[simp] theorem cond_lt (s : Cond) : s.code.toNat < 10 := by cases s <;> decide
theorem condX_lt {s : Cond} {x : Bool} (h : condX s x = true) : s.code.toNat < 6 := by cases s <;> cases x <;> first | (cases h; done) | decide
theorem condX_le {s : Cond} {x : Bool} (h : condX s x = true) : x = true → s.code.toNat ≤ 1 := by
  rintro rfl; cases s <;> first | (cases h; done) | decide
@[simp] theorem stest_le (s : STest) : s.code.toNat ≤ 2 := by cases s <;> decide
@[simp] theorem tlsel_lt (s : TlSel) : s.code.toNat < 4 := by cases s <;> decide
@[simp] theorem rotdir_le (s : RotDir) : s.code.toNat ≤ 2 := by cases s <;> decide
@[simp] theorem laneE_le (s : LaneSel) : s.codeE.toNat ≤ 2 := by cases s <;> decide
@[simp] theorem laneI_le (s : LaneSel) : s.codeI.toNat ≤ 2 := by cases s <;> decide
@[simp] theorem sfu_le (s : SfuFn) : s.code.toNat ≤ 9 := by cases s <;> decide
@[simp] theorem clrval_le (s : ClrVal) : s.code.toNat ≤ 2 := by cases s <;> decide
@[simp] theorem fence_le (s : FenceKind) : s.code.toNat ≤ 2 := by cases s <;> decide
@[simp] theorem fence_lt (s : FenceKind) : s.code.toNat < 25 := by cases s <;> decide
@[simp] theorem z5_scope (s : Scope) : (0#5 ++ s.code).toNat < 5 := by cases s <;> decide
@[simp] theorem redop_ne (s : RedOp) : (s.code = 3#2) = False := by cases s <;> decide
@[simp] theorem z2_redop (s : RedOp) : (0#2 ++ s.code).toNat ≤ 2 := by cases s <;> decide
@[simp] theorem z2_redop_lo (x : BitVec 2) (y : BitVec 2) : BitVec.extractLsb' 0 2 (x ++ y) = y := by revert x y; decide
@[simp] theorem z2_redop_hi (x : BitVec 2) (y : BitVec 2) : BitVec.extractLsb' 2 2 (x ++ y) = x := by revert x y; decide
@[simp] theorem nib_le (x : BitVec 4) : x.toNat ≤ 15 := by have := x.isLt; omega
theorem image_rnd {f : BitVec 5} {r : Rnd} (h : rndOk f r = true) (hi : isImage f = true) : r = .rne := by
  simp only [rndOk, isImage, Bool.or_eq_true, Bool.not_eq_true', Bool.or_eq_false_iff] at h hi
  rcases h with h | h
  · rcases hi with hi | hi <;> simp_all
  · simpa using h
@[simp] theorem z3_one (c : Bool) : (0#3 ++ BitVec.ofBool c = 1#4) = (c = true) := by cases c <;> decide
@[simp] theorem z7_one (c : Bool) : (0#7 ++ BitVec.ofBool c = 1#8) = (c = true) := by cases c <;> decide
@[simp] theorem z2_zero (c : Bool) : (0#2 ++ BitVec.ofBool c = 0#3) = (c = false) := by cases c <;> decide
@[simp] theorem z1_one (c : Bool) : (0#1 ++ BitVec.ofBool c = 1#2) = (c = true) := by cases c <;> decide
@[simp] theorem push_bit (c : Bool) : (BitVec.ofBool c ++ 0#5)[5] = c := by cases c <;> rfl
theorem code_s0 {x : Src} (h : (x == .s 0) = true) : x.code = 0 := by rw [beq_iff_eq.mp h]; rfl
@[simp] theorem nb_pair (nb : Option (BitVec 3)) : (if nb.isSome = true then some (nb.getD 0#3) else none) = nb := by cases nb <;> rfl
@[simp] theorem scope_of (s : Scope) : Scope.ofCode s.code = s := by cases s <;> rfl
@[simp] theorem fe_of (s : Fe) : Fe.ofCode s.code = s := by cases s <;> rfl
@[simp] theorem rnd_of (s : Rnd) : Rnd.ofCode s.code = s := by cases s <;> rfl
@[simp] theorem cond_of (s : Cond) : Cond.ofCode s.code = s := by cases s <;> rfl
@[simp] theorem fence_of (s : FenceKind) : FenceKind.ofCode s.code = s := by cases s <;> rfl
@[simp] theorem sfu_of (s : SfuFn) : SfuFn.ofCode s.code = s := by cases s <;> rfl
@[simp] theorem redop_of (s : RedOp) : RedOp.ofCode s.code = s := by cases s <;> rfl
@[simp] theorem stest_of (s : STest) : STest.ofCode s.code = s := by cases s <;> rfl
@[simp] theorem tlsel_of (s : TlSel) : TlSel.ofCode s.code = s := by cases s <;> rfl
@[simp] theorem rotdir_of (s : RotDir) : RotDir.ofCode s.code = s := by cases s <;> rfl
@[simp] theorem laneE_of (s : LaneSel) : LaneSel.ofCodeE s.codeE = s := by cases s <;> rfl
@[simp] theorem laneI_of (s : LaneSel) : LaneSel.ofCodeI s.codeI = s := by cases s <;> rfl
@[simp] theorem clrval_of (s : ClrVal) : ClrVal.ofCode s.code = s := by cases s <;> rfl
@[simp] theorem qfmt_of (s : QFmt) : QFmt.ofCode s.code = s := by
  cases s with
  | fd n => revert n; decide
  | _ => rfl

@[simp] theorem z3_bit (c : Bool) : (0#3 ++ BitVec.ofBool c)[0] = c := by cases c <;> rfl
@[simp] theorem z2_bit (c : Bool) : (0#2 ++ BitVec.ofBool c)[0] = c := by cases c <;> rfl
@[simp] theorem z1_bit (c : Bool) : (0#1 ++ BitVec.ofBool c)[0] = c := by cases c <;> rfl
@[simp] theorem o1_bit (c : Bool) : (1#1 ++ BitVec.ofBool c)[0] = c := by cases c <;> rfl
@[simp] theorem z7_bit (c : Bool) : (0#7 ++ BitVec.ofBool c)[0] = c := by cases c <;> rfl
@[simp] theorem z3_le (c : Bool) : (0#3 ++ BitVec.ofBool c).toNat ≤ 1 := by cases c <;> decide
@[simp] theorem z3_lt (c : Bool) : (0#3 ++ BitVec.ofBool c).toNat < 2 := by cases c <;> decide
@[simp] theorem z2_le (c : Bool) : (0#2 ++ BitVec.ofBool c).toNat ≤ 1 := by cases c <;> decide
@[simp] theorem z2_lt (c : Bool) : (0#2 ++ BitVec.ofBool c).toNat < 2 := by cases c <;> decide
@[simp] theorem z1_le (c : Bool) : (0#1 ++ BitVec.ofBool c).toNat ≤ 1 := by cases c <;> decide
@[simp] theorem z1_lt (c : Bool) : (0#1 ++ BitVec.ofBool c).toNat < 2 := by cases c <;> decide
@[simp] theorem z7_le (c : Bool) : (0#7 ++ BitVec.ofBool c).toNat ≤ 1 := by cases c <;> decide
@[simp] theorem z7_lt (c : Bool) : (0#7 ++ BitVec.ofBool c).toNat < 2 := by cases c <;> decide
@[simp] theorem zcd_lt (c d : Bool) : (0#2 ++ BitVec.ofBool c ++ BitVec.ofBool d).toNat < 4 := by cases c <;> cases d <;> decide
@[simp] theorem zcd_0 (c d : Bool) : (0#2 ++ BitVec.ofBool c ++ BitVec.ofBool d)[0] = d := by cases c <;> cases d <;> rfl
@[simp] theorem zcd_1 (c d : Bool) : (0#2 ++ BitVec.ofBool c ++ BitVec.ofBool d)[1] = c := by cases c <;> cases d <;> rfl
@[simp] theorem y3_0 (c d e : Bool) : (BitVec.ofBool c ++ BitVec.ofBool d ++ BitVec.ofBool e)[0] = e := by cases c <;> cases d <;> cases e <;> rfl
@[simp] theorem y3_1 (c d e : Bool) : (BitVec.ofBool c ++ BitVec.ofBool d ++ BitVec.ofBool e)[1] = d := by cases c <;> cases d <;> cases e <;> rfl
@[simp] theorem y3_2 (c d e : Bool) : (BitVec.ofBool c ++ BitVec.ofBool d ++ BitVec.ofBool e)[2] = c := by cases c <;> cases d <;> cases e <;> rfl
@[simp] theorem y2_0 (c d : Bool) : (0#1 ++ BitVec.ofBool c ++ BitVec.ofBool d)[0] = d := by cases c <;> cases d <;> rfl
@[simp] theorem y2_1 (c d : Bool) : (0#1 ++ BitVec.ofBool c ++ BitVec.ofBool d)[1] = c := by cases c <;> cases d <;> rfl
@[simp] theorem y2_2 (c d : Bool) : (0#1 ++ BitVec.ofBool c ++ BitVec.ofBool d)[2] = false := by cases c <;> cases d <;> rfl
@[simp] theorem y1_0 (c : Bool) : (0#2 ++ BitVec.ofBool c)[1] = false := by cases c <;> rfl
@[simp] theorem y1_1 (c : Bool) : (0#2 ++ BitVec.ofBool c)[2] = false := by cases c <;> rfl
@[simp] theorem lowz6 (x : BitVec 2) : BitVec.extractLsb' 0 2 (0#6 ++ x) = x := by revert x; decide
@[simp] theorem lowz5 (x : BitVec 3) : BitVec.extractLsb' 0 3 (0#5 ++ x) = x := by revert x; decide
@[simp] theorem lowz4 (x : BitVec 4) : BitVec.extractLsb' 0 4 (0#4 ++ x) = x := by revert x; decide
@[simp] theorem hi_m (x : BitVec 3) : BitVec.extractLsb' 0 3 (0b00110#5 ++ x) = x := by revert x; decide
@[simp] theorem hi_k (x : BitVec 4) : BitVec.extractLsb' 0 4 (0x1#4 ++ x) = x := by revert x; decide
@[simp] theorem srn_eq (x : BitVec 7) : BitVec.extractLsb' 3 4 x ++ BitVec.extractLsb' 0 3 x = x := by revert x; decide
@[simp] theorem off_eq (x : BitVec 32) : BitVec.extractLsb' 24 8 x ++ BitVec.extractLsb' 16 8 x ++ BitVec.extractLsb' 0 16 x = x := by
  apply BitVec.eq_of_getLsbD_eq; intro i hi
  simp only [BitVec.getLsbD_append, BitVec.getLsbD_extractLsb']
  by_cases h1 : i < 16
  · simp [h1]
  · by_cases h2 : i - 16 < 8
    · simp [h1, h2, show 16 + (i - 16) = i by omega]
    · simp [h1, h2, show 24 + (i - 16 - 8) = i by omega, show i - 16 - 8 < 8 by omega]
@[simp] theorem stg_eq (x : BitVec 3) (y : BitVec 5) : BitVec.extractLsb' 5 3 (x ++ y) = x := by simp (disch := decide) only [app_hi, BitVec.extractLsb'_eq_self, Nat.reduceSub]
@[simp] theorem rv_eq (x : BitVec 3) (y : BitVec 5) : BitVec.extractLsb' 0 5 (x ++ y) = y := by simp (disch := decide) only [app_lo, BitVec.extractLsb'_eq_self]

theorem srn_own : ∀ n : BitVec 7, srnOwn n = true → srnSc n = false := by decide
theorem cvt_of (k : CvtKind) : CvtKind.ofCodes k.codes.1 k.codes.2.1 k.codes.2.2 = k := by
  cases k with
  | ftoi r => cases r <;> rfl
  | ftou r => cases r <;> rfl
  | tomem f r => cases r <;> rfl
  | _ => rfl
theorem vcvt_of (k : VCvtKind) : VCvtKind.ofCodes k.codes.1 k.codes.2 = k := by
  cases k with
  | f36i36 r => cases r <;> rfl
  | f18i18 r => cases r <;> rfl
  | i36f36 => rfl
  | i18f18 => rfl
  | _ h => cases h <;> rfl
theorem strm_of (q : Strm) : Strm.ofNum q.bits = q := by cases q <;> rfl
theorem qtest_of (t : QTest) : QTest.ofCodes t.codes.1 t.codes.2 = t := by
  cases t with
  | vready => rfl
  | vspace => rfl
  | _ q => cases q <;> rfl
theorem af_dest {d : Dest} (h : (match d.reg with
    | some (.s _) => true
    | _ => false) = true) : d.reg.isSome = true ∧ d.code.toNat < 32 := by
  obtain ⟨reg, qs⟩ := d
  cases reg with
  | none => cases h
  | some r => cases r with
    | s n => exact ⟨rfl, (even_code0 n).1⟩
    | _ => cases h
theorem qtest_le (t : QTest) : t.codes.1.toNat ≤ 4 := by cases t <;> exact of_decide_eq_true rfl
theorem rep_bits : ∀ (t : BitVec 2) (c d e : Bool),
    BitVec.extractLsb' 5 3 (0#3 ++ t ++ BitVec.ofBool c ++ BitVec.ofBool d ++ BitVec.ofBool e) = 0#3
    ∧ (BitVec.extractLsb' 0 3 (0#3 ++ t ++ BitVec.ofBool c ++ BitVec.ofBool d ++ BitVec.ofBool e) = 0#3 ↔ c = false ∧ d = false ∧ e = false)
    ∧ BitVec.extractLsb' 3 2 (0#3 ++ t ++ BitVec.ofBool c ++ BitVec.ofBool d ++ BitVec.ofBool e) = t
    ∧ (0#3 ++ t ++ BitVec.ofBool c ++ BitVec.ofBool d ++ BitVec.ofBool e)[0] = e
    ∧ (0#3 ++ t ++ BitVec.ofBool c ++ BitVec.ofBool d ++ BitVec.ofBool e)[1] = d
    ∧ (0#3 ++ t ++ BitVec.ofBool c ++ BitVec.ofBool d ++ BitVec.ofBool e)[2] = c := by decide
theorem cvt_chk {k : CvtKind} (h : k.wf = true) : (k.codes.1.toNat < 4 → k.codes.2.1 = 0#8) ∧
    (((k.codes.1.toNat ≤ 5 ∧ ¬k.codes.2.2 = 7#3) ∧
          ((k.codes.1 = 0#4 ∨ k.codes.1 = 1#4) ∨ k.codes.1 = 5#4 → k.codes.2.2 = 0#3)) ∧
        (k.codes.1 = 4#4 ∨ k.codes.1 = 5#4 → cvtFmtOk k.codes.2.1 = true)) ∧
      (k.codes.1 = 4#4 → k.codes.2.1 = 16#8 → k.codes.2.2 = 0#3) := by
  cases k with
  | tomem f r =>
    simp [CvtKind.wf] at h
    simp [CvtKind.codes, h.1]; intro e; exact h.2.resolve_left (fun n => n e)
  | frommem f => simp [CvtKind.wf] at h; simp [CvtKind.codes, h]
  | _ => simp [CvtKind.codes]
@[simp] theorem noSrc_srcb (f : Fields) : (f.withB noSrc).srcb = 0#8 := rfl
@[simp] theorem none_code : Dest.none_.code = 0#8 := rfl
@[simp] theorem none_dmask : Dest.none_.dmask = 0#6 := rfl
@[simp] theorem z4_lt (n : BitVec 4) : (0#4 ++ n).toNat < 16 := by revert n; decide
@[simp] theorem z6_lt (n : BitVec 2) : (0#6 ++ n).toNat < 4 := by revert n; decide
theorem clr2_bits : ∀ r : BitVec 2, (0#2 ++ r)[3] = false ∧ (0#2 ++ r)[2] = false ∧ (1#2 ++ r)[3] = false ∧ (1#2 ++ r)[2] = true
    ∧ BitVec.extractLsb' 0 2 (0#2 ++ r) = r ∧ BitVec.extractLsb' 0 2 (1#2 ++ r) = r := by decide
theorem mscl_bits : ∀ (c : Bool) (n : BitVec 3), (0#4 ++ BitVec.ofBool c ++ n).toNat < 16 ∧ BitVec.extractLsb' 0 3 (0#4 ++ BitVec.ofBool c ++ n) = n
    ∧ (0#4 ++ BitVec.ofBool c ++ n)[3] = c := by decide
theorem wstat_bits : ∀ n : BitVec 2, ((0#6 ++ n).toNat < 3 ↔ n ≠ 3) ∧ (0#6 ++ n = 0#8 ↔ n = 0) := by decide
theorem lsend_bits : ∀ r : BitVec 7, (1#1 ++ r)[7] = true ∧ BitVec.extractLsb' 0 7 (1#1 ++ r) = r ∧ (r.toNat % 8 = 0 → BitVec.extractLsb' 0 3 (1#1 ++ r) = 0#3) := by
  decide
theorem af_chk {x : BitVec 2} (h : x ≠ 3) : ¬0#3 ++ x = 0#5 ∨ ¬x = 0#2 → ¬0#3 ++ x = 1#5 ∨ x = 0#2 → 0#3 ++ x = 2#5 ∧ ¬x = 0#2 := by
  revert x; decide
theorem l1_idx {f : Fields} {b : Src} (hl : f.lit = 0) (h : b = .s 0 ∨ b = .lit 0) : (f.withB b).srcb = 0 ∧ ((f.withB b).w = true → (f.withB b).lit = 0) := by
  rcases h with rfl | rfl
  · exact ⟨rfl, fun _ => hl⟩
  · exact ⟨rfl, fun _ => rfl⟩
theorem af_fmt : ∀ x : BitVec 2, (0#3 ++ x).toNat < 25 ∧ BitVec.extractLsb' 0 2 (0#3 ++ x) = x := by decide

theorem xy0_mk {str : Strm} {f : Fields} (hx : f.x = 0) (hy : f.y = 0) : xy0 str f = [] := by simp [xy0, xy8, hx, hy]

theorem formC {row : OpRow} {f : Fields} (hr : row.form = .c := by rfl) : formBad row f = [] := by simp only [formBad, hr]

theorem lenChk_ok {str : Strm} {f : Fields} {n : BitVec 7} (h : f.len = n) (h1 : 1 ≤ n.toNat) (h2 : n.toNat ≤ 64) : lenChk str f = [] := by
  subst h
  simp only [lenChk, bad_nil, Bool.or_eq_false_iff, beq_eq_false_iff_ne, decide_eq_false_iff_not]
  exact ⟨fun h => by rw [h] at h1; exact absurd h1 (by decide), by omega⟩

theorem all_streams {str : Strm} {l : List Strm} (h : l = [.sc, .ld, .cx, .st]) : l.contains str = true := by subst h; cases str <;> rfl

/-! ### Decoding -/

theorem dec_mk {str : Strm} {m : Nat → Option OpRow} {row : OpRow} {i : Instr} {op : BitVec 8} {sub : BitVec 4} {g : Guard} {dm : BitVec 6}
    {dst a b : BitVec 8} {mod : BitVec 16} (hm : major op.toNat = some m) (hs : m sub.toNat = some row)
    (hst : row.streams.contains str = true) (hg : g.wf = true) (hf : formBad row (mk op sub g dm dst a b mod) = [])
    (hi : (row.form == .r && mod.getLsbD 8) = false) (hd : dstBad row.dst (dm.getLsbD 0) dst = [])
    (ha : srcBad row.a str a = []) (hb : row.form = .b ∨ srcBad row.b str b = []) (hdm : dmaskBad row.res str dm = [])
    (hr : (row.rdst && !dm.getLsbD 0) = false) (hc : row.chk str (mk op sub g dm dst a b mod) = [])
    (hbu : row.build (mk op sub g dm dst a b mod) = i) : decodeFields str (mk op sub g dm dst a b mod) = .ok i :=
  (decode_row hm hs (mk_reasons hst hg hf hi hd ha hb hdm hr hc)).trans (by rw [hbu])

theorem dec_withB {str : Strm} {m : Nat → Option OpRow} {row : OpRow} {i : Instr} {op : BitVec 8} {sub : BitVec 4} {g : Guard} {dm : BitVec 6}
    {dst a : BitVec 8} {mod : BitVec 16} {b : Src} (hm : major op.toNat = some m) (hs : m sub.toNat = some row)
    (hform : (row.form = .r ∨ row.form = .m ∨ row.form = .c) ∧ row.wide = true)
    (hst : row.streams.contains str = true) (hg : g.wf = true) (hf : formBad row ((mk op sub g dm dst a 0 mod).withB b) = [])
    (hi : (row.form == .r && mod.getLsbD 8) = false) (hd : dstBad row.dst (dm.getLsbD 0) dst = [])
    (ha : srcBad row.a str a = []) (hb : bFit row.b str b) (hdm : dmaskBad row.res str dm = [])
    (hr : (row.rdst && !dm.getLsbD 0) = false) (hc : row.chk str ((mk op sub g dm dst a 0 mod).withB b) = [])
    (hbu : row.build ((mk op sub g dm dst a 0 mod).withB b) = i) : decodeFields str ((mk op sub g dm dst a 0 mod).withB b) = .ok i :=
  (decode_row (by rw [withB_op]; exact hm) (by rw [withB_sub]; exact hs)
    (withB_reasons hform.2 hform.1 hst hg hf hi hd ha hb.1 hb.2 hdm hr hc)).trans (by rw [hbu])

/-- As `dec_withB`, for an entry that admits no literal. -/
theorem dec_withB' {str : Strm} {m : Nat → Option OpRow} {row : OpRow} {i : Instr} {op : BitVec 8} {sub : BitVec 4} {g : Guard} {dm : BitVec 6}
    {dst a : BitVec 8} {mod : BitVec 16} {b : Src} (hm : major op.toNat = some m) (hs : m sub.toNat = some row) (hb : b.coded = true)
    (hst : row.streams.contains str = true) (hg : g.wf = true) (hf : formBad row ((mk op sub g dm dst a 0 mod).withB b) = [])
    (hi : (row.form == .r && mod.getLsbD 8) = false) (hd : dstBad row.dst (dm.getLsbD 0) dst = [])
    (ha : srcBad row.a str a = []) (hbs : srcBad row.b str b.code = []) (hdm : dmaskBad row.res str dm = [])
    (hr : (row.rdst && !dm.getLsbD 0) = false) (hc : row.chk str ((mk op sub g dm dst a 0 mod).withB b) = [])
    (hbu : row.build ((mk op sub g dm dst a 0 mod).withB b) = i) : decodeFields str ((mk op sub g dm dst a 0 mod).withB b) = .ok i := by
  have e : (mk op sub g dm dst a 0 mod).withB b = mk op sub g dm dst a b.code mod := by
    cases b <;> first | rfl | cases hb
  rw [e] at hf hc hbu ⊢
  exact dec_mk hm hs hst hg hf hi hd ha (.inr hbs) hdm hr hc hbu

theorem dec_withBR {str : Strm} {m : Nat → Option OpRow} {row : OpRow} {i : Instr} {op : BitVec 8} {sub : BitVec 4} {g : Guard} {dm : BitVec 6}
    {dst a : BitVec 8} {x : BitVec 4} {y : BitVec 3} {b : Src} (hm : major op.toNat = some m) (hs : m sub.toNat = some row)
    (hform : row.form = .r ∧ row.wide = true ∧ (op.extractLsb' 3 5 != 0b01100) = true)
    (hst : row.streams.contains str = true) (hg : g.wf = true) (hd : dstBad row.dst (dm.getLsbD 0) dst = [])
    (ha : srcBad row.a str a = []) (hb : bGood row.b str b) (hdm : dmaskBad row.res str dm = [])
    (hr : (row.rdst && !dm.getLsbD 0) = false) (hc : row.chk str ((mk op sub g dm dst a 0 (modR x y 0)).withBR b) = [])
    (hbu : row.build ((mk op sub g dm dst a 0 (modR x y 0)).withBR b) = i) :
    decodeFields str ((mk op sub g dm dst a 0 (modR x y 0)).withBR b) = .ok i :=
  (decode_row (by rw [withBR_op]; exact hm) (by rw [withBR_sub]; exact hs)
    (withBR_reasons hform.2.1 hform.1 hform.2.2 hst hg hd ha hb hdm hr hc)).trans (by rw [hbu])

theorem formR {f : Fields} {row : OpRow} (h : f.op.extractLsb' 3 5 = 0b01100#5) (hl : f.low.extractLsb' 4 4 = 0#4) (hr : row.form = .r := by rfl) : formBad row f = [] := by
  simp [formBad, hr, h, hl]

theorem acas_dest {d : Dest} (h : (match d.reg with
    | some (.s n) => n.getLsbD 0 == false
    | _ => false) = true) : d.code.toNat < 32 ∧ d.code[0] = false := by
  obtain ⟨reg, qs⟩ := d
  cases reg with
  | none => cases h
  | some r => cases r with
    | s n => exact ⟨(even_code0 n).1, (even_code0 n).2.trans (by simpa using h)⟩
    | _ => cases h

theorem gst_data0 : (∀ n : BitVec 5, dstBad .gst false (Src.s n).code = [] ∧ (Src.s n).code ≠ 58#8) ∧
    ∀ n : BitVec 4, dstBad .gst false (Src.a n).code = [] ∧ (Src.a n).code ≠ 58#8 := by decide

theorem gst_data {x : Src} (h : (match x with
    | .s _ => true
    | .a _ => true
    | _ => false) = true) : dstBad .gst false x.code = [] ∧ x.coded = true ∧ x.code ≠ 58#8 ∧ srcOf x.code = x := by
  cases x with
  | s n => exact ⟨(gst_data0.1 n).1, rfl, (gst_data0.1 n).2, srcOf_code rfl⟩
  | a n => exact ⟨(gst_data0.2 n).1, rfl, (gst_data0.2 n).2, srcOf_code rfl⟩
  | _ => cases h

theorem guard_fields (g : Guard) {op : BitVec 8} {sub : BitVec 4} {dm : BitVec 6} {w r : Bool} {dst a b : BitVec 8} {mod : BitVec 16} {lit : BitVec 32} :
    (Fields.mk op sub g.code dm w r dst a b mod lit).g = g := guard_of g

theorem custom_major {n : Nat} (h : 0xC0 ≤ n) : major n = some (fun _ => rowsCustom) := by
  unfold major
  split <;> first | omega | skip
  rw [if_pos h]

theorem custom_row {f : Fields} (hm : 0xC0 ≤ f.op.toNat) (h40 : f.r40 = false) (hg : (f.pred == 8) = false) (hd : f.dmask.getLsbD 3 = false)
    (hl : (f.w && f.srcb != 0) = false) : decodeFields .cx f = .ok (.customOpcode f.custom) := by
  refine decode_row (custom_major hm) rfl ?_
  have h1 : dmaskBad .custom .cx f.dmask = [] := by simp only [dmaskBad, Strm.num, hd, bad_nil]; rfl
  unfold reasons
  simp only [h1, h40, hg]
  simp only [formBad, wideBad, dstBad, srcBad, bad, noChk]
  simpa using hl

theorem modR_zero : modR 0 0 0 = 0 := by decide

end Sys2Proof
end

