-- ==== Sys2Proof/Laws/Monad.lean ====
section
/-!
SUPPORT. When a step of an instruction's body answers `.ok`: one equivalence per primitive, so that a body is taken apart by rewriting.
-/

namespace Sys2Proof.Machine

theorem M.bind_ok {α β : Type} {m : M α} {k : α → M β} {s t : State} {b : β} :
    (m >>= k) s = .ok b t ↔ ∃ a s', m s = .ok a s' ∧ k a s' = .ok b t := by
  show EStateM.bind m k s = _ ↔ _
  unfold EStateM.bind
  cases h : m s <;> simp

theorem M.map_ok {α β : Type} {m : M α} {f : α → β} {s t : State} {b : β} :
    (f <$> m) s = .ok b t ↔ ∃ a, m s = .ok a t ∧ f a = b := by
  show EStateM.map f m s = _ ↔ _
  unfold EStateM.map
  cases h : m s <;> simp [and_comm]

theorem M.pure_ok {α : Type} {a b : α} {s t : State} : (pure a : M α) s = .ok b t ↔ a = b ∧ s = t := by
  show EStateM.pure a s = _ ↔ _
  simp [EStateM.pure]

theorem M.get_ok {a s t : State} : (get : M State) s = .ok a t ↔ s = a ∧ s = t := by
  show EStateM.get s = _ ↔ _
  simp [EStateM.get]

theorem M.set_ok {x s t : State} {a : PUnit} : (set x : M PUnit) s = .ok a t ↔ x = t := by
  show EStateM.set x s = _ ↔ _
  simp [EStateM.set]

theorem M.modify_ok {f : State → State} {s t : State} {a : PUnit} : (modify f : M PUnit) s = .ok a t ↔ f s = t := by
  constructor
  · intro h; cases h; rfl
  · rintro rfl; rfl

theorem M.throw_ok {α : Type} {x : Stop} {s t : State} {a : α} : (throw x : M α) s = .ok a t ↔ False := by
  show EStateM.throw x s = _ ↔ _
  simp [EStateM.throw]

theorem M.ite_ok {α : Type} {c : Prop} [Decidable c] {m n : M α} {s t : State} {a : α} :
    (if c then m else n) s = .ok a t ↔ (c ∧ m s = .ok a t) ∨ (¬c ∧ n s = .ok a t) := by
  split <;> simp_all

theorem trapIf_ok {c : Bool} {x : Trap} {s t : State} {a : Unit} : trapIf c x s = .ok a t ↔ c = false ∧ s = t := by
  cases c <;> simp [trapIf, raiseTrap, M.pure_ok, M.throw_ok]

theorem holdIf_ok {c : Bool} {w : Wait} {s t : State} {a : Unit} : holdIf c w s = .ok a t ↔ c = false ∧ s = t := by
  cases c <;> simp [holdIf, holdFor, M.pure_ok, M.throw_ok]

theorem getJob_ok {u : Cur} {s t : State} {j : Job} : getJob u s = .ok j t ↔ s.jobAt u.core = j ∧ s = t := by
  constructor
  · intro h; cases h; exact ⟨rfl, rfl⟩
  · rintro ⟨rfl, rfl⟩; rfl

theorem getStrm_ok {u : Cur} {s t : State} {x : Stream} : getStrm u s = .ok x t ↔ s.strmAt u.core u.strm = x ∧ s = t := by
  constructor
  · intro h; cases h; exact ⟨rfl, rfl⟩
  · rintro ⟨rfl, rfl⟩; rfl

theorem getCtx_ok {u : Cur} {s t : State} {n : Nat} : getCtx u s = .ok n t ↔ (s.jobAt u.core).ctx = n ∧ s = t := by
  constructor
  · intro h; cases h; exact ⟨rfl, rfl⟩
  · rintro ⟨rfl, rfl⟩; rfl

theorem modJob_ok {u : Cur} {f : Job → Job} {s t : State} {a : Unit} : modJob u f s = .ok a t ↔ s.modJob u.core f = t :=
  M.modify_ok

theorem modStrm_ok {u : Cur} {f : Stream → Stream} {s t : State} {a : Unit} :
    modStrm u f s = .ok a t ↔ s.modStrm u.core u.strm f = t :=
  M.modify_ok

theorem liftS_ok {f : State → State} {s t : State} {a : Unit} : liftS f s = .ok a t ↔ f s = t :=
  M.modify_ok

theorem liftF_ok {α : Type} {f : State → State × Except AccFault α} {s t : State} {a : α} :
    liftF f s = .ok a t ↔ f s = (t, .ok a) := by
  unfold liftF
  simp only [M.bind_ok, M.get_ok]
  rcases hf : f s with ⟨s', r⟩
  cases r <;> simp [raiseTrap, M.set_ok, M.pure_ok, M.throw_ok, hf]
  aesop

end Sys2Proof.Machine
end

