-- ==== Sys2Proof/Laws/Issue.lean ====
section
/-!
SUPPORT. Issue once for all: where an instruction runs and its body answers, it retires from the state the body left; and what delivery and the shared bodies leave.
-/

namespace Sys2Proof.Machine

/-- Where no loop stops the instruction, the check before issue passes and changes nothing. -/
theorem preIssue_free {s : State} {u : Cur} (hf : s.loopFree u) : preIssue u true s = .ok () s := by
  unfold preIssue
  simp only [M.bind_ok, getStrm_ok]
  refine ⟨_, _, ⟨rfl, rfl⟩, ?_⟩
  unfold State.loopFree at hf
  cases hl : (s.strmAt u.core u.strm).loops.head? with
  | none => rfl
  | some l =>
    rw [hl] at hf
    obtain ⟨h1, h2⟩ := hf
    have e1 : (!l.traced && decide ((s.strmAt u.core u.strm).pc = l.start) && (s.strmAt u.core u.strm).rep.isNone
        && (s.core u.core).obs.trc.getLsbD 1) = false := by
      rcases h1 with h | h | h | h
      · rw [h]; rfl
      · rw [decide_eq_false h]; simp
      · cases hh : (s.strmAt u.core u.strm).rep <;> simp_all
      · rw [h, Bool.and_false]
    have e2 : (true && l.holds u.pc && decide (l.fin.toNat < u.pc.toNat + u.size)) = false := by
      rcases h2 with h | h
      · simp [h]
      · simp; intro _; omega
    simp only [M.bind_ok, M.get_ok]
    refine ⟨_, _, ⟨rfl, rfl⟩, ?_⟩
    simp only [e1, e2, trapIf]
    rfl

/-- An instruction that runs and whose body answers retires from the state the body left. -/
theorem issue_ok {g : Guard} {body : Cur → M Flow} {s t : State} {u : Cur} {f : Flow}
    (h : Runs s u g) (hb : body u s = .ok f t) : issue g body s = .next (t.retire u f) := by
  obtain ⟨hc, hj, hg, hf⟩ := h
  obtain ⟨j, hj⟩ := Option.isSome_iff_exists.mp hj
  have hs : s.strmAt u.core u.strm = j.strm u.strm := by simp [State.strmAt, State.jobAt, hj]
  rw [hs] at hg
  have : (do preIssue u true; body u : M Flow) s = .ok f t := by
    simp only [M.bind_ok]; exact ⟨_, _, preIssue_free hf, hb⟩
  unfold issue
  simp only [hc, hj, hg, if_true]
  rw [this]

theorem issueNext_ok {g : Guard} {body : Cur → M Unit} {s t : State} {u : Cur}
    (h : Runs s u g) (hb : body u s = .ok () t) : issueNext g body s = .next (t.retire u .next) := by
  refine issue_ok h ?_
  rw [M.bind_ok]
  exact ⟨_, _, hb, rfl⟩

/-- An instruction that runs and whose body stops leaves what `stopAt` says; the second of a CX group leaves nothing. -/
theorem issue_stop {g : Guard} {body : Cur → M Flow} {s t : State} {u : Cur} {x : Stop}
    (h : Runs s u g) (hb : body u s = .error x t) : issue g body s = .next (if u.second then s else s.stopAt u x t) := by
  obtain ⟨hc, hj, hg, hf⟩ := h
  obtain ⟨j, hj⟩ := Option.isSome_iff_exists.mp hj
  have hs : s.strmAt u.core u.strm = j.strm u.strm := by simp [State.strmAt, State.jobAt, hj]
  rw [hs] at hg
  have : (do preIssue u true; body u : M Flow) s = .error x t := by
    show EStateM.bind _ _ _ = _
    simp only [EStateM.bind, preIssue_free hf, hb]
  unfold issue
  simp only [hc, hj, hg, if_true]
  rw [this]

/-- A trap that an instruction raises now is taken: from the state before the instruction where it issues again, else from the one its body
left (R370 to R372). -/
theorem issue_trap {g : Guard} {body : Cur → M Flow} {s t : State} {u : Cur} {x : Trap}
    (h : Runs s u g) (hn : s.trapsNow u) (hb : body u s = .error (.trap x) t) :
    issue g body s = .next (if x.cause = 0x05 ∨ x.cause = 0x12 then s.takeTrap u x else t.takeTrap u x) := by
  rw [issue_stop h hb, hn.1]
  have hl : (!(s.strmAt u.core u.strm).log.isEmpty) = false := by rw [hn.2]; rfl
  unfold State.stopAt
  simp only [hl]
  split <;> simp_all

/-- Delivery always completes. -/
theorem deliver_ok {u : Cur} {d : Dest} {w : Word} {s t : State} {a : Unit} :
    deliver u d w s = .ok a t ↔ s.delivered u d w = t := by
  cases a
  unfold deliver State.delivered State.wroteReg
  cases d.reg with
  | none =>
    constructor
    · intro h; cases h; rfl
    · rintro rfl; rfl
  | some r =>
    cases r <;> exact ⟨fun h => by cases h; rfl, fun h => by rw [← h]; rfl⟩

theorem setFlags_ok {u : Cur} {f : Flg} {s t : State} {a : Unit} : setFlags u f s = .ok a t ↔ s.flagged u f = t := modStrm_ok

/-- A delivery has to wait for nothing exactly where its queues have room (R99, R179). -/
theorem needSpace_ok {u : Cur} {d : Dest} {s t : State} {a : Unit} :
    needSpace u d s = .ok a t ↔ (s.jobAt u.core).noRoom u.strm d = none ∧ s = t := by
  unfold needSpace
  simp only [M.bind_ok, getJob_ok]
  constructor
  · rintro ⟨j, s', ⟨rfl, rfl⟩, h⟩
    cases hq : (s.jobAt u.core).noRoom u.strm d with
    | none => rw [hq] at h; exact ⟨rfl, (M.pure_ok.1 h).2⟩
    | some n => rw [hq] at h; exact (M.throw_ok.1 h).elim
  · rintro ⟨h, rfl⟩
    refine ⟨_, _, ⟨rfl, rfl⟩, ?_⟩
    rw [h]; rfl

/-- The sources can be read exactly where none has a reason to stop (R40). -/
theorem ensure_ok {u : Cur} {rs : List Rd} {s t : State} {a : Unit} : ensure u rs s = .ok a t ↔ needAll s u {} rs = [] ∧ s = t := by
  unfold ensure
  simp only [M.bind_ok, M.get_ok]
  constructor
  · rintro ⟨_, _, ⟨rfl, rfl⟩, h⟩
    cases hl : needAll s u {} rs with
    | nil => rw [hl] at h; exact ⟨rfl, (M.pure_ok.1 h).2⟩
    | cons x xs =>
      rw [hl] at h
      cases hf : (x :: xs).find? Stop.isTrap with
      | some y => rw [hf] at h; exact (M.throw_ok.1 h).elim
      | none =>
        rw [hf] at h
        cases hp : (x :: xs).find? Stop.isPop with
        | none => rw [hp] at h; exact (M.throw_ok.1 h).elim
        | some y => rw [hp] at h; exact (M.throw_ok.1 h).elim
  · rintro ⟨h, rfl⟩
    refine ⟨_, _, ⟨rfl, rfl⟩, ?_⟩
    rw [h]; rfl

/-- An address check passes exactly where R157 finds no trap. -/
theorem areaOf_ok {u : Cur} {v : Int} {n al : Nat} {fe : Bool} {s t : State} {a : Area} :
    areaOf u v n al fe s = .ok a t ↔ checkAddr s u.core v n al fe = .ok a ∧ s = t := by
  unfold areaOf
  simp only [M.bind_ok, M.get_ok]
  constructor
  · rintro ⟨_, _, ⟨rfl, rfl⟩, h⟩
    cases hc : checkAddr s u.core v n al fe with
    | ok x => rw [hc] at h; have := M.pure_ok.1 h; exact ⟨by rw [this.1], this.2⟩
    | error x => rw [hc] at h; exact (M.throw_ok.1 h).elim
  · rintro ⟨h, rfl⟩
    refine ⟨_, _, ⟨rfl, rfl⟩, ?_⟩
    rw [h]; rfl
/-- An integer instruction with two sources completes with its result delivered. -/
theorem intOp_ok {o : ROps} {f : Word → Word → Word} {s s1 : State} {u : Cur} {x y : Word}
    (h : Runs s u o.g) (h2 : operand2 u o.d o.a o.b s = .ok (x, y) s1) :
    intOp o f s = .next ((s1.delivered u o.d (f x y)).retire u .next) := by
  refine issueNext_ok h ?_
  simp only [operand2, source2, M.bind_ok, M.pure_ok, Prod.mk.injEq] at h2
  obtain ⟨_, s2, h3, _, s3, h4, x', s4, h5, y', s5, h6, ⟨rfl, rfl⟩, rfl⟩ := h2
  simp only [intBody, M.bind_ok]
  exact ⟨_, _, h3, _, _, h4, _, _, h5, _, _, h6, deliver_ok.2 rfl⟩

end Sys2Proof.Machine
end

