-- ==== Sys2Proof/Laws/PerInstr.lean ====
section
/-!
SUPPORT. Statements about every instruction: decoding gives back what the encoder wrote (R35 to R48), one lemma per instruction. Events have no word.
-/

set_option Elab.async false
set_option linter.unusedSimpArgs false

namespace Sys2Proof.Laws

/-- The word the encoder builds for a well-formed instruction decodes to it, on every stream that may issue it. -/
def Encodes.Statement (i : Instr) : Prop :=
  ∀ (str : Strm) (f : Fields), i.wf str = true → encodeFields i = some f → decodeFields str f = .ok i

theorem Encodes.nop (g : Guard) : Encodes.Statement (.nop g) := by
  intro str f hw hf; cases hf
  simp only [Instr.wf, Bool.and_eq_true] at hw
  exact dec_mk rfl rfl (all_streams rfl) (by simp [hw]) (by simp [formBad]) rfl dst_zero srcBad_zero (.inr srcBad_zero) dm_none rfl (by simp [modZ, hw]) (by simp)

theorem Encodes.trap (g : Guard) (b : Src) : Encodes.Statement (.trap g b) := by
  intro str f hw hf; cases hf
  simp only [Instr.wf, Bool.and_eq_true] at hw
  have hb : b.codedB = true := codedB_scalar (str := str) (by simp [hw])
  rw [← modR_zero]
  exact dec_withBR rfl rfl ⟨rfl, rfl, rfl⟩ (all_streams rfl) (by simp [hw]) dst_zero srcBad_zero (bGood_scalar (by simp [hw])) dm_none rfl (by simp [xyZ, hw]) (by simp [hb])

theorem Encodes.bkpt (g : Guard) : Encodes.Statement (.bkpt g) := by
  intro str f hw hf; cases hf
  simp only [Instr.wf, Bool.and_eq_true] at hw
  exact dec_mk rfl rfl (all_streams rfl) (by simp [hw]) (by simp [formBad]) rfl dst_zero srcBad_zero (.inr srcBad_zero) dm_none rfl (by simp [modZ, hw]) (by simp)

theorem Encodes.yield (g : Guard) (n : BitVec 3) : Encodes.Statement (.yield g n) := by
  intro str f hw hf; cases hf
  simp only [Instr.wf, Bool.and_eq_true] at hw
  exact dec_mk rfl rfl (all_streams rfl) (by simp [hw]) (by simp [formBad]) (modR_i _ _ _) dst_zero srcBad_zero (.inr srcBad_zero) dm_none rfl (by simp [modZ, hw]) (by simp)

theorem Encodes.exit (g : Guard) : Encodes.Statement (.exit g) := by
  intro str f hw hf; cases hf
  simp only [Instr.wf, Bool.and_eq_true] at hw
  exact dec_mk rfl rfl (all_streams rfl) (by simp [hw]) (by simp [formBad]) rfl dst_zero srcBad_zero (.inr srcBad_zero) dm_none rfl (by simp [modZ, hw]) (by simp)

theorem Encodes.rdv (g : Guard) : Encodes.Statement (.rdv g) := by
  intro str f hw hf; cases hf
  simp only [Instr.wf, Bool.and_eq_true] at hw
  exact dec_mk rfl rfl (all_streams rfl) (by simp [hw]) (by simp [formBad]) rfl dst_zero srcBad_zero (.inr srcBad_zero) dm_none rfl (by simp [modZ, hw]) (by simp)

theorem Encodes.rendezvousRelease (_core : Nat) : Encodes.Statement (.rendezvousRelease _core) := fun _ _ _ h => nomatch h

theorem Encodes.pmark (g : Guard) (b : Src) : Encodes.Statement (.pmark g b) := by
  intro str f hw hf; cases hf
  simp only [Instr.wf, Bool.and_eq_true] at hw
  have hb : b.codedB = true := codedB_scalar (str := str) (by simp [hw])
  rw [← modR_zero]
  exact dec_withBR rfl rfl ⟨rfl, rfl, rfl⟩ (all_streams rfl) (by simp [hw]) dst_zeroBy srcBad_zeroBy (bGood_scalar (by simp [hw])) dm_none rfl (xy0_mk (str := str) (by simp) (by simp)) (by simp [hb])

theorem Encodes.sysrd (g : Guard) (d : Dest) (srn : BitVec 7) : Encodes.Statement (.sysrd g d srn) := by
  intro str f hw hf; cases hf
  simp only [Instr.wf, Bool.and_eq_true] at hw
  have hd : d.okR = true := okR_scalar (str := str) (by simp [hw])
  exact dec_mk rfl rfl (all_streams rfl) (by simp [hw]) (by simp [formBad]) (modR_i _ _ _) (dst_scalar' (str := str) (by simp [hw])) srcBad_zero (.inr srcBad_zero) (dm_scalar (by simp [hw])) rfl (by simp [Fields.srn, hw]) (by simp [Fields.srn, hd])

theorem Encodes.syswr (g : Guard) (srn : BitVec 7) (b : Src) : Encodes.Statement (.syswr g srn b) := by
  intro str f hw hf; cases hf
  simp only [Instr.wf, Bool.and_eq_true] at hw
  have hq := hw
  simp only [beq_iff_eq, bne_iff_ne, ne_eq, decide_eq_true_eq, Bool.or_eq_true, Bool.not_eq_true', Bool.and_eq_true] at hq
  have hb : b.codedB = true := codedB_scalar (str := str) (by simp [hw])
  exact dec_withBR rfl rfl ⟨rfl, rfl, rfl⟩ (all_streams rfl) (by simp [hw]) dst_zero srcBad_zero (bGood_scalar (by simp [hw])) dm_none rfl (by simp [Fields.srn]; have h2 := hw.2; have h3 := srn_own srn; revert h2 h3; cases srnOwn srn <;> cases srnSc srn <;> cases str <;> simp) (by simp [Fields.srn, hb])

theorem Encodes.cntrd (o : ROps1) (die : Bool) : Encodes.Statement (.cntrd o die) := by
  intro str f hw hf; cases hf
  simp only [Instr.wf, ROps1.wf, Bool.and_eq_true] at hw
  have hd : o.d.okR = true := okR_scalar (str := str) (by simp [hw])
  have ha : o.a.coded = true := coded_scalar (str := str) (by simp [hw])
  exact dec_mk rfl rfl (all_streams rfl) (by simp [hw]) (by simp [formBad]) (modR_i _ _ _) (dst_scalar' (str := str) (by simp [hw])) srcBad_zeroBy (.inr (srcBad_scalar (by simp [hw]))) (dm_scalar (by simp [hw])) rfl (by simp [xy8, hw]) (by simp [hd, ha])

theorem Encodes.br (o : BOps) : Encodes.Statement (.br o) := by
  intro str f hw hf; cases hf
  simp only [Instr.wf, BOps.wf, Bool.and_eq_true] at hw
  have hd : o.d.okR = true := okR_scalar (str := str) (by simp [hw])
  exact dec_mk rfl rfl (all_streams rfl) (by simp [hw]) rfl rfl (by rw [code_isNone (by simp [hw])]; exact dst_zero) srcBad_raw (.inl rfl) (by rw [dmask_isNone (by simp [hw])]; exact dm_none) rfl rfl (by simp [Fields.bops, hd])

theorem Encodes.brl (o : BOps) : Encodes.Statement (.brl o) := by
  intro str f hw hf; cases hf
  simp only [Instr.wf, BOps.wf, Bool.and_eq_true] at hw
  have hd : o.d.okR = true := okR_scalar (str := str) (by simp [hw])
  exact dec_mk rfl rfl (all_streams rfl) (by simp [hw]) rfl rfl (dst_scalar' (str := str) (by simp [hw])) srcBad_raw (.inl rfl) (dm_scalar (by simp [hw])) rfl rfl (by simp [Fields.bops, hd])

theorem Encodes.bri (g : Guard) (a : Src) (b : Src) : Encodes.Statement (.bri g a b) := by
  intro str f hw hf; cases hf
  simp only [Instr.wf, Bool.and_eq_true] at hw
  have ha : a.coded = true := coded_scalar (str := str) (by simp [hw])
  have hb : b.coded = true := coded_scalar (str := str) (by simp [hw])
  exact dec_mk rfl rfl (all_streams rfl) (by simp [hw]) (by simp [formBad]) rfl dst_zero (srcBad_scalar (by simp [hw])) (.inr (srcBad_scalar (by simp [hw]))) dm_none rfl (by simp [hw]) (by simp [ha, hb])

theorem Encodes.bril (o : ROps) : Encodes.Statement (.bril o) := by
  intro str f hw hf; cases hf
  simp only [Instr.wf, ROps.wf, scalarB_ff, Bool.and_eq_true] at hw
  have hd : o.d.okR = true := okR_scalar (str := str) (by simp [hw])
  have ha : o.a.coded = true := coded_scalar (str := str) (by simp [hw])
  have hb : o.b.coded = true := coded_scalar (str := str) (by simp [hw])
  exact dec_mk rfl rfl (all_streams rfl) (by simp [hw]) (by simp [formBad]) rfl (dst_scalar' (str := str) (by simp [hw])) (srcBad_scalar (by simp [hw])) (.inr (srcBad_scalar (by simp [hw]))) (dm_scalar (by simp [hw])) rfl (by simp [hw]) (by simp [hd, ha, hb])

theorem Encodes.loop (g : Guard) (l : BitVec 2) (n : Src) (len : BitVec 16) : Encodes.Statement (.loop g l n len) := by
  intro str f hw hf; cases hf
  simp only [Instr.wf, Bool.and_eq_true] at hw
  have hq := hw
  simp only [beq_iff_eq, bne_iff_ne, ne_eq, decide_eq_true_eq, Bool.or_eq_true, Bool.not_eq_true', Bool.and_eq_true] at hq
  have ha : n.coded = true := coded_scalar (str := str) (by simp [hw])
  exact dec_mk rfl rfl (all_streams rfl) (by simp [hw]) rfl rfl (dst_loop _) (srcBad_scalar (by simp [hw])) (.inr srcBad_zero) dm_none rfl (bad_nil.mpr (decide_eq_false (show ¬ len.toNat < 4 by have := hq.2; omega))) (by simp [ha])

theorem Encodes.mloop (g : Guard) (l : BitVec 2) (n : Src) (stg : BitVec 3) (rv : BitVec 5) (len : BitVec 16) : Encodes.Statement (.mloop g l n stg rv len) := by
  intro str f hw hf; cases hf
  simp only [Instr.wf, Bool.and_eq_true] at hw
  have hq := hw
  simp only [beq_iff_eq, bne_iff_ne, ne_eq, decide_eq_true_eq, Bool.or_eq_true, Bool.not_eq_true', Bool.and_eq_true] at hq
  have ha : n.coded = true := coded_scalar (str := str) (by simp [hw])
  exact dec_mk rfl rfl (all_streams rfl) (by simp [hw]) rfl rfl (dst_loop _) (srcBad_scalar (by simp [hw])) (.inr srcBad_raw) dm_none rfl (by simp; refine ⟨⟨⟨decide_eq_false (by have := hq.2; omega), hq.1.1.1.2⟩, hq.1.1.2⟩, ?_⟩; rcases hq.1.2 with h | h <;> simp [h]) (by simp [ha])

theorem Encodes.lbrk (g : Guard) (l : BitVec 2) : Encodes.Statement (.lbrk g l) := by
  intro str f hw hf; cases hf
  simp only [Instr.wf, Bool.and_eq_true] at hw
  exact dec_mk rfl rfl (all_streams rfl) (by simp [hw]) rfl rfl (dst_loop _) srcBad_zero (.inr srcBad_zero) dm_none rfl (by simp [hw]) (by simp)

theorem Encodes.rep (g : Guard) (n : BitVec 16) (sd : Bool) (sa : Bool) (sb : Bool) (stride : BitVec 2) : Encodes.Statement (.rep g n sd sa sb stride) := by
  intro str f hw hf; cases hf
  simp only [Instr.wf, Bool.and_eq_true] at hw
  have hq := hw
  simp only [beq_iff_eq, bne_iff_ne, ne_eq, decide_eq_true_eq, Bool.or_eq_true, Bool.not_eq_true', Bool.and_eq_true] at hq
  exact dec_mk rfl rfl (all_streams rfl) (by simp [hw]) rfl rfl dst_zero srcBad_zero (.inr srcBad_raw) dm_none rfl (by obtain ⟨h1, h2, h3, -⟩ := rep_bits stride sb sa sd; simp [h1, h2, h3]; exact ⟨⟨by rintro rfl; exact absurd hq.1.1.2 (by decide), decide_eq_false (by have := hq.1.2; omega)⟩, by rintro rfl rfl rfl; simpa using hq.2⟩) (by obtain ⟨-, -, h3, h4, h5, h6⟩ := rep_bits stride sb sa sd; simp [h3, h4, h5, h6])

theorem Encodes.pand (o : POps) : Encodes.Statement (.pand o) := by
  intro str f hw hf; cases hf
  simp only [Instr.wf, POps.wf, Bool.and_eq_true] at hw
  have hd : o.d.okP = true := okP_pred (str := str) (by simp [hw])
  exact dec_mk rfl rfl (all_streams rfl) (by simp [hw]) (by simp [formBad]) (modR_i _ _ _) (dst_pred' (str := str) (by simp [hw])) (srcBad_pred _) (.inr (srcBad_pred _)) (dm_pred (by simp [hw])) rfl (by simp [xy8, hw]) (by simp [Fields.pops, hd])

theorem Encodes.por (o : POps) : Encodes.Statement (.por o) := by
  intro str f hw hf; cases hf
  simp only [Instr.wf, POps.wf, Bool.and_eq_true] at hw
  have hd : o.d.okP = true := okP_pred (str := str) (by simp [hw])
  exact dec_mk rfl rfl (all_streams rfl) (by simp [hw]) (by simp [formBad]) (modR_i _ _ _) (dst_pred' (str := str) (by simp [hw])) (srcBad_pred _) (.inr (srcBad_pred _)) (dm_pred (by simp [hw])) rfl (by simp [xy8, hw]) (by simp [Fields.pops, hd])

theorem Encodes.pxor (o : POps) : Encodes.Statement (.pxor o) := by
  intro str f hw hf; cases hf
  simp only [Instr.wf, POps.wf, Bool.and_eq_true] at hw
  have hd : o.d.okP = true := okP_pred (str := str) (by simp [hw])
  exact dec_mk rfl rfl (all_streams rfl) (by simp [hw]) (by simp [formBad]) (modR_i _ _ _) (dst_pred' (str := str) (by simp [hw])) (srcBad_pred _) (.inr (srcBad_pred _)) (dm_pred (by simp [hw])) rfl (by simp [xy8, hw]) (by simp [Fields.pops, hd])

theorem Encodes.pandn (o : POps) : Encodes.Statement (.pandn o) := by
  intro str f hw hf; cases hf
  simp only [Instr.wf, POps.wf, Bool.and_eq_true] at hw
  have hd : o.d.okP = true := okP_pred (str := str) (by simp [hw])
  exact dec_mk rfl rfl (all_streams rfl) (by simp [hw]) (by simp [formBad]) (modR_i _ _ _) (dst_pred' (str := str) (by simp [hw])) (srcBad_pred _) (.inr (srcBad_pred _)) (dm_pred (by simp [hw])) rfl (by simp [xy8, hw]) (by simp [Fields.pops, hd])

theorem Encodes.pmov (g : Guard) (d : Dest) (na : Bool) (pa : BitVec 3) : Encodes.Statement (.pmov g d na pa) := by
  intro str f hw hf; cases hf
  simp only [Instr.wf, Bool.and_eq_true] at hw
  have hd : d.okP = true := okP_pred (str := str) (by simp [hw])
  exact dec_mk rfl rfl (all_streams rfl) (by simp [hw]) (by simp [formBad]) (modR_i _ _ _) (dst_pred' (str := str) (by simp [hw])) (srcBad_pred _) (.inr srcBad_zero) (dm_pred (by simp [hw])) rfl (by simp [xy8, hw]) (by simp [hd])

theorem Encodes.qtest (g : Guard) (d : Dest) (t : QTest) : Encodes.Statement (.qtest g d t) := by
  intro str f hw hf; cases hf
  simp only [Instr.wf, Bool.and_eq_true] at hw
  have hd : d.okP = true := okP_pred (str := str) (by simp [hw])
  have ht := qtest_of t
  have hl := qtest_le t
  exact dec_mk rfl rfl (all_streams rfl) (by simp [hw]) (by simp [formBad]) (modR_i _ _ _) (dst_pred' (str := str) (by simp [hw])) srcBad_raw (.inr srcBad_zero) (dm_pred (by simp [hw])) rfl (by simp [ht, hl]; exact hw.2) (by simp [hd, ht])

theorem Encodes.add (o : ROps) : Encodes.Statement (.add o) := by
  intro str f hw hf; cases hf
  simp only [Instr.wf, ROps.wf, Bool.and_eq_true] at hw
  have hd : o.d.okR = true := okR_scalar (str := str) (by simp [hw])
  have ha : o.a.coded = true := coded_scalar (str := str) (by simp [hw])
  have hb : o.b.codedB = true := codedB_scalar (str := str) (by simp [hw])
  exact dec_withBR rfl rfl ⟨rfl, rfl, rfl⟩ (all_streams rfl) (by simp [hw]) (dst_scalar' (str := str) (by simp [hw])) (srcBad_scalar (by simp [hw])) (bGood_scalar (by simp [hw])) (dm_scalar (by simp [hw])) rfl (xy0_mk (str := str) (by simp) (by simp)) (by simp [Fields.rops, hd, ha, hb])

theorem Encodes.sub (o : ROps) : Encodes.Statement (.sub o) := by
  intro str f hw hf; cases hf
  simp only [Instr.wf, ROps.wf, Bool.and_eq_true] at hw
  have hd : o.d.okR = true := okR_scalar (str := str) (by simp [hw])
  have ha : o.a.coded = true := coded_scalar (str := str) (by simp [hw])
  have hb : o.b.codedB = true := codedB_scalar (str := str) (by simp [hw])
  exact dec_withBR rfl rfl ⟨rfl, rfl, rfl⟩ (all_streams rfl) (by simp [hw]) (dst_scalar' (str := str) (by simp [hw])) (srcBad_scalar (by simp [hw])) (bGood_scalar (by simp [hw])) (dm_scalar (by simp [hw])) rfl (xy0_mk (str := str) (by simp) (by simp)) (by simp [Fields.rops, hd, ha, hb])

theorem Encodes.mul (o : ROps) : Encodes.Statement (.mul o) := by
  intro str f hw hf; cases hf
  simp only [Instr.wf, ROps.wf, Bool.and_eq_true] at hw
  have hd : o.d.okR = true := okR_scalar (str := str) (by simp [hw])
  have ha : o.a.coded = true := coded_scalar (str := str) (by simp [hw])
  have hb : o.b.codedB = true := codedB_scalar (str := str) (by simp [hw])
  exact dec_withBR rfl rfl ⟨rfl, rfl, rfl⟩ (all_streams rfl) (by simp [hw]) (dst_scalar' (str := str) (by simp [hw])) (srcBad_scalar (by simp [hw])) (bGood_scalar (by simp [hw])) (dm_scalar (by simp [hw])) rfl (xy0_mk (str := str) (by simp) (by simp)) (by simp [Fields.rops, hd, ha, hb])

theorem Encodes.mulh (o : ROps) : Encodes.Statement (.mulh o) := by
  intro str f hw hf; cases hf
  simp only [Instr.wf, ROps.wf, Bool.and_eq_true] at hw
  have hd : o.d.okR = true := okR_scalar (str := str) (by simp [hw])
  have ha : o.a.coded = true := coded_scalar (str := str) (by simp [hw])
  have hb : o.b.codedB = true := codedB_scalar (str := str) (by simp [hw])
  exact dec_withBR rfl rfl ⟨rfl, rfl, rfl⟩ (all_streams rfl) (by simp [hw]) (dst_scalar' (str := str) (by simp [hw])) (srcBad_scalar (by simp [hw])) (bGood_scalar (by simp [hw])) (dm_scalar (by simp [hw])) rfl (xy0_mk (str := str) (by simp) (by simp)) (by simp [Fields.rops, hd, ha, hb])

theorem Encodes.mulhu (o : ROps) : Encodes.Statement (.mulhu o) := by
  intro str f hw hf; cases hf
  simp only [Instr.wf, ROps.wf, Bool.and_eq_true] at hw
  have hd : o.d.okR = true := okR_scalar (str := str) (by simp [hw])
  have ha : o.a.coded = true := coded_scalar (str := str) (by simp [hw])
  have hb : o.b.codedB = true := codedB_scalar (str := str) (by simp [hw])
  exact dec_withBR rfl rfl ⟨rfl, rfl, rfl⟩ (all_streams rfl) (by simp [hw]) (dst_scalar' (str := str) (by simp [hw])) (srcBad_scalar (by simp [hw])) (bGood_scalar (by simp [hw])) (dm_scalar (by simp [hw])) rfl (xy0_mk (str := str) (by simp) (by simp)) (by simp [Fields.rops, hd, ha, hb])

theorem Encodes.div (o : ROps) : Encodes.Statement (.div o) := by
  intro str f hw hf; cases hf
  simp only [Instr.wf, ROps.wf, Bool.and_eq_true] at hw
  have hd : o.d.okR = true := okR_scalar (str := str) (by simp [hw])
  have ha : o.a.coded = true := coded_scalar (str := str) (by simp [hw])
  have hb : o.b.codedB = true := codedB_scalar (str := str) (by simp [hw])
  exact dec_withBR rfl rfl ⟨rfl, rfl, rfl⟩ (all_streams rfl) (by simp [hw]) (dst_scalar' (str := str) (by simp [hw])) (srcBad_scalar (by simp [hw])) (bGood_scalar (by simp [hw])) (dm_scalar (by simp [hw])) rfl (xy0_mk (str := str) (by simp) (by simp)) (by simp [Fields.rops, hd, ha, hb])

theorem Encodes.divu (o : ROps) : Encodes.Statement (.divu o) := by
  intro str f hw hf; cases hf
  simp only [Instr.wf, ROps.wf, Bool.and_eq_true] at hw
  have hd : o.d.okR = true := okR_scalar (str := str) (by simp [hw])
  have ha : o.a.coded = true := coded_scalar (str := str) (by simp [hw])
  have hb : o.b.codedB = true := codedB_scalar (str := str) (by simp [hw])
  exact dec_withBR rfl rfl ⟨rfl, rfl, rfl⟩ (all_streams rfl) (by simp [hw]) (dst_scalar' (str := str) (by simp [hw])) (srcBad_scalar (by simp [hw])) (bGood_scalar (by simp [hw])) (dm_scalar (by simp [hw])) rfl (xy0_mk (str := str) (by simp) (by simp)) (by simp [Fields.rops, hd, ha, hb])

theorem Encodes.rem (o : ROps) : Encodes.Statement (.rem o) := by
  intro str f hw hf; cases hf
  simp only [Instr.wf, ROps.wf, Bool.and_eq_true] at hw
  have hd : o.d.okR = true := okR_scalar (str := str) (by simp [hw])
  have ha : o.a.coded = true := coded_scalar (str := str) (by simp [hw])
  have hb : o.b.codedB = true := codedB_scalar (str := str) (by simp [hw])
  exact dec_withBR rfl rfl ⟨rfl, rfl, rfl⟩ (all_streams rfl) (by simp [hw]) (dst_scalar' (str := str) (by simp [hw])) (srcBad_scalar (by simp [hw])) (bGood_scalar (by simp [hw])) (dm_scalar (by simp [hw])) rfl (xy0_mk (str := str) (by simp) (by simp)) (by simp [Fields.rops, hd, ha, hb])

theorem Encodes.remu (o : ROps) : Encodes.Statement (.remu o) := by
  intro str f hw hf; cases hf
  simp only [Instr.wf, ROps.wf, Bool.and_eq_true] at hw
  have hd : o.d.okR = true := okR_scalar (str := str) (by simp [hw])
  have ha : o.a.coded = true := coded_scalar (str := str) (by simp [hw])
  have hb : o.b.codedB = true := codedB_scalar (str := str) (by simp [hw])
  exact dec_withBR rfl rfl ⟨rfl, rfl, rfl⟩ (all_streams rfl) (by simp [hw]) (dst_scalar' (str := str) (by simp [hw])) (srcBad_scalar (by simp [hw])) (bGood_scalar (by simp [hw])) (dm_scalar (by simp [hw])) rfl (xy0_mk (str := str) (by simp) (by simp)) (by simp [Fields.rops, hd, ha, hb])

theorem Encodes.madd (o : ROps) : Encodes.Statement (.madd o) := by
  intro str f hw hf; cases hf
  simp only [Instr.wf, ROps.wf, ROps.wfD, Bool.and_eq_true] at hw
  have hd : o.d.okR = true := okR_scalar (str := str) (by simp [hw])
  have ha : o.a.coded = true := coded_scalar (str := str) (by simp [hw])
  have hb : o.b.codedB = true := codedB_scalar (str := str) (by simp [hw])
  exact dec_withBR rfl rfl ⟨rfl, rfl, rfl⟩ (all_streams rfl) (by simp [hw]) (dst_scalar' (str := str) (by simp [hw])) (srcBad_scalar (by simp [hw])) (bGood_scalar (by simp [hw])) (dm_scalar (by simp [hw])) (rd_ok (by simp [hw])) (xy0_mk (str := str) (by simp) (by simp)) (by simp [Fields.rops, hd, ha, hb])

theorem Encodes.lea (o : ROps) (sh : BitVec 4) : Encodes.Statement (.lea o sh) := by
  intro str f hw hf; cases hf
  simp only [Instr.wf, ROps.wf, Bool.and_eq_true] at hw
  have hd : o.d.okR = true := okR_scalar (str := str) (by simp [hw])
  have ha : o.a.coded = true := coded_scalar (str := str) (by simp [hw])
  have hb : o.b.codedB = true := codedB_scalar (str := str) (by simp [hw])
  exact dec_withBR rfl rfl ⟨rfl, rfl, rfl⟩ (all_streams rfl) (by simp [hw]) (dst_scalar' (str := str) (by simp [hw])) (srcBad_scalar (by simp [hw])) (bGood_scalar (by simp [hw])) (dm_scalar (by simp [hw])) rfl (by simp [xy8, hw]) (by simp [Fields.rops, hd, ha, hb])

theorem Encodes.and (o : ROps) : Encodes.Statement (.and o) := by
  intro str f hw hf; cases hf
  simp only [Instr.wf, ROps.wf, Bool.and_eq_true] at hw
  have hd : o.d.okR = true := okR_scalar (str := str) (by simp [hw])
  have ha : o.a.coded = true := coded_scalar (str := str) (by simp [hw])
  have hb : o.b.codedB = true := codedB_scalar (str := str) (by simp [hw])
  exact dec_withBR rfl rfl ⟨rfl, rfl, rfl⟩ (all_streams rfl) (by simp [hw]) (dst_scalar' (str := str) (by simp [hw])) (srcBad_scalar (by simp [hw])) (bGood_scalar (by simp [hw])) (dm_scalar (by simp [hw])) rfl (xy0_mk (str := str) (by simp) (by simp)) (by simp [Fields.rops, hd, ha, hb])

theorem Encodes.or (o : ROps) : Encodes.Statement (.or o) := by
  intro str f hw hf; cases hf
  simp only [Instr.wf, ROps.wf, Bool.and_eq_true] at hw
  have hd : o.d.okR = true := okR_scalar (str := str) (by simp [hw])
  have ha : o.a.coded = true := coded_scalar (str := str) (by simp [hw])
  have hb : o.b.codedB = true := codedB_scalar (str := str) (by simp [hw])
  exact dec_withBR rfl rfl ⟨rfl, rfl, rfl⟩ (all_streams rfl) (by simp [hw]) (dst_scalar' (str := str) (by simp [hw])) (srcBad_scalar (by simp [hw])) (bGood_scalar (by simp [hw])) (dm_scalar (by simp [hw])) rfl (xy0_mk (str := str) (by simp) (by simp)) (by simp [Fields.rops, hd, ha, hb])

theorem Encodes.xor (o : ROps) : Encodes.Statement (.xor o) := by
  intro str f hw hf; cases hf
  simp only [Instr.wf, ROps.wf, Bool.and_eq_true] at hw
  have hd : o.d.okR = true := okR_scalar (str := str) (by simp [hw])
  have ha : o.a.coded = true := coded_scalar (str := str) (by simp [hw])
  have hb : o.b.codedB = true := codedB_scalar (str := str) (by simp [hw])
  exact dec_withBR rfl rfl ⟨rfl, rfl, rfl⟩ (all_streams rfl) (by simp [hw]) (dst_scalar' (str := str) (by simp [hw])) (srcBad_scalar (by simp [hw])) (bGood_scalar (by simp [hw])) (dm_scalar (by simp [hw])) rfl (xy0_mk (str := str) (by simp) (by simp)) (by simp [Fields.rops, hd, ha, hb])

theorem Encodes.andn (o : ROps) : Encodes.Statement (.andn o) := by
  intro str f hw hf; cases hf
  simp only [Instr.wf, ROps.wf, Bool.and_eq_true] at hw
  have hd : o.d.okR = true := okR_scalar (str := str) (by simp [hw])
  have ha : o.a.coded = true := coded_scalar (str := str) (by simp [hw])
  have hb : o.b.codedB = true := codedB_scalar (str := str) (by simp [hw])
  exact dec_withBR rfl rfl ⟨rfl, rfl, rfl⟩ (all_streams rfl) (by simp [hw]) (dst_scalar' (str := str) (by simp [hw])) (srcBad_scalar (by simp [hw])) (bGood_scalar (by simp [hw])) (dm_scalar (by simp [hw])) rfl (xy0_mk (str := str) (by simp) (by simp)) (by simp [Fields.rops, hd, ha, hb])

theorem Encodes.shl (o : ROps) : Encodes.Statement (.shl o) := by
  intro str f hw hf; cases hf
  simp only [Instr.wf, ROps.wf, Bool.and_eq_true] at hw
  have hd : o.d.okR = true := okR_scalar (str := str) (by simp [hw])
  have ha : o.a.coded = true := coded_scalar (str := str) (by simp [hw])
  have hb : o.b.codedB = true := codedB_scalar (str := str) (by simp [hw])
  exact dec_withBR rfl rfl ⟨rfl, rfl, rfl⟩ (all_streams rfl) (by simp [hw]) (dst_scalar' (str := str) (by simp [hw])) (srcBad_scalar (by simp [hw])) (bGood_scalar (by simp [hw])) (dm_scalar (by simp [hw])) rfl (xy0_mk (str := str) (by simp) (by simp)) (by simp [Fields.rops, hd, ha, hb])

theorem Encodes.shr (o : ROps) : Encodes.Statement (.shr o) := by
  intro str f hw hf; cases hf
  simp only [Instr.wf, ROps.wf, Bool.and_eq_true] at hw
  have hd : o.d.okR = true := okR_scalar (str := str) (by simp [hw])
  have ha : o.a.coded = true := coded_scalar (str := str) (by simp [hw])
  have hb : o.b.codedB = true := codedB_scalar (str := str) (by simp [hw])
  exact dec_withBR rfl rfl ⟨rfl, rfl, rfl⟩ (all_streams rfl) (by simp [hw]) (dst_scalar' (str := str) (by simp [hw])) (srcBad_scalar (by simp [hw])) (bGood_scalar (by simp [hw])) (dm_scalar (by simp [hw])) rfl (xy0_mk (str := str) (by simp) (by simp)) (by simp [Fields.rops, hd, ha, hb])

theorem Encodes.sra (o : ROps) : Encodes.Statement (.sra o) := by
  intro str f hw hf; cases hf
  simp only [Instr.wf, ROps.wf, Bool.and_eq_true] at hw
  have hd : o.d.okR = true := okR_scalar (str := str) (by simp [hw])
  have ha : o.a.coded = true := coded_scalar (str := str) (by simp [hw])
  have hb : o.b.codedB = true := codedB_scalar (str := str) (by simp [hw])
  exact dec_withBR rfl rfl ⟨rfl, rfl, rfl⟩ (all_streams rfl) (by simp [hw]) (dst_scalar' (str := str) (by simp [hw])) (srcBad_scalar (by simp [hw])) (bGood_scalar (by simp [hw])) (dm_scalar (by simp [hw])) rfl (xy0_mk (str := str) (by simp) (by simp)) (by simp [Fields.rops, hd, ha, hb])

theorem Encodes.rot (o : ROps) : Encodes.Statement (.rot o) := by
  intro str f hw hf; cases hf
  simp only [Instr.wf, ROps.wf, Bool.and_eq_true] at hw
  have hd : o.d.okR = true := okR_scalar (str := str) (by simp [hw])
  have ha : o.a.coded = true := coded_scalar (str := str) (by simp [hw])
  have hb : o.b.codedB = true := codedB_scalar (str := str) (by simp [hw])
  exact dec_withBR rfl rfl ⟨rfl, rfl, rfl⟩ (all_streams rfl) (by simp [hw]) (dst_scalar' (str := str) (by simp [hw])) (srcBad_scalar (by simp [hw])) (bGood_scalar (by simp [hw])) (dm_scalar (by simp [hw])) rfl (xy0_mk (str := str) (by simp) (by simp)) (by simp [Fields.rops, hd, ha, hb])

theorem Encodes.clz (o : ROps1) : Encodes.Statement (.clz o) := by
  intro str f hw hf; cases hf
  simp only [Instr.wf, ROps1.wf, Bool.and_eq_true] at hw
  have hd : o.d.okR = true := okR_scalar (str := str) (by simp [hw])
  have ha : o.a.coded = true := coded_scalar (str := str) (by simp [hw])
  exact dec_mk rfl rfl (all_streams rfl) (by simp [hw]) (by simp [formBad]) (modR_i _ _ _) (dst_scalar' (str := str) (by simp [hw])) (srcBad_scalar (by simp [hw])) (.inr srcBad_zero) (dm_scalar (by simp [hw])) rfl (xy0_mk (str := str) (by simp) (by simp)) (by simp [Fields.rops1, hd, ha])

theorem Encodes.popc (o : ROps1) : Encodes.Statement (.popc o) := by
  intro str f hw hf; cases hf
  simp only [Instr.wf, ROps1.wf, Bool.and_eq_true] at hw
  have hd : o.d.okR = true := okR_scalar (str := str) (by simp [hw])
  have ha : o.a.coded = true := coded_scalar (str := str) (by simp [hw])
  exact dec_mk rfl rfl (all_streams rfl) (by simp [hw]) (by simp [formBad]) (modR_i _ _ _) (dst_scalar' (str := str) (by simp [hw])) (srcBad_scalar (by simp [hw])) (.inr srcBad_zero) (dm_scalar (by simp [hw])) rfl (xy0_mk (str := str) (by simp) (by simp)) (by simp [Fields.rops1, hd, ha])

theorem Encodes.bext (o : ROps) (len : BitVec 7) : Encodes.Statement (.bext o len) := by
  intro str f hw hf; cases hf
  simp only [Instr.wf, ROps.wf, Bool.and_eq_true] at hw
  have hq := hw
  simp only [beq_iff_eq, bne_iff_ne, ne_eq, decide_eq_true_eq, Bool.or_eq_true, Bool.not_eq_true', Bool.and_eq_true] at hq
  have hd : o.d.okR = true := okR_scalar (str := str) (by simp [hw])
  have ha : o.a.coded = true := coded_scalar (str := str) (by simp [hw])
  have hb : o.b.codedB = true := codedB_scalar (str := str) (by simp [hw])
  exact dec_withBR rfl rfl ⟨rfl, rfl, rfl⟩ (all_streams rfl) (by simp [hw]) (dst_scalar' (str := str) (by simp [hw])) (srcBad_scalar (by simp [hw])) (bGood_scalar (by simp [hw])) (dm_scalar (by simp [hw])) rfl (lenChk_ok (str := str) (by simp [Fields.len]) hq.1.2 hq.2) (by simp [Fields.rops, Fields.len, hd, ha, hb])

theorem Encodes.bins (o : ROps) (len : BitVec 7) : Encodes.Statement (.bins o len) := by
  intro str f hw hf; cases hf
  simp only [Instr.wf, ROps.wf, ROps.wfD, Bool.and_eq_true] at hw
  have hq := hw
  simp only [beq_iff_eq, bne_iff_ne, ne_eq, decide_eq_true_eq, Bool.or_eq_true, Bool.not_eq_true', Bool.and_eq_true] at hq
  have hd : o.d.okR = true := okR_scalar (str := str) (by simp [hw])
  have ha : o.a.coded = true := coded_scalar (str := str) (by simp [hw])
  have hb : o.b.codedB = true := codedB_scalar (str := str) (by simp [hw])
  exact dec_withBR rfl rfl ⟨rfl, rfl, rfl⟩ (all_streams rfl) (by simp [hw]) (dst_scalar' (str := str) (by simp [hw])) (srcBad_scalar (by simp [hw])) (bGood_scalar (by simp [hw])) (dm_scalar (by simp [hw])) (rd_ok (by simp [hw])) (lenChk_ok (str := str) (by simp [Fields.len]) hq.1.2 hq.2) (by simp [Fields.rops, Fields.len, hd, ha, hb])

theorem Encodes.min (o : ROps) : Encodes.Statement (.min o) := by
  intro str f hw hf; cases hf
  simp only [Instr.wf, ROps.wf, Bool.and_eq_true] at hw
  have hd : o.d.okR = true := okR_scalar (str := str) (by simp [hw])
  have ha : o.a.coded = true := coded_scalar (str := str) (by simp [hw])
  have hb : o.b.codedB = true := codedB_scalar (str := str) (by simp [hw])
  exact dec_withBR rfl rfl ⟨rfl, rfl, rfl⟩ (all_streams rfl) (by simp [hw]) (dst_scalar' (str := str) (by simp [hw])) (srcBad_scalar (by simp [hw])) (bGood_scalar (by simp [hw])) (dm_scalar (by simp [hw])) rfl (xy0_mk (str := str) (by simp) (by simp)) (by simp [Fields.rops, hd, ha, hb])

theorem Encodes.max (o : ROps) : Encodes.Statement (.max o) := by
  intro str f hw hf; cases hf
  simp only [Instr.wf, ROps.wf, Bool.and_eq_true] at hw
  have hd : o.d.okR = true := okR_scalar (str := str) (by simp [hw])
  have ha : o.a.coded = true := coded_scalar (str := str) (by simp [hw])
  have hb : o.b.codedB = true := codedB_scalar (str := str) (by simp [hw])
  exact dec_withBR rfl rfl ⟨rfl, rfl, rfl⟩ (all_streams rfl) (by simp [hw]) (dst_scalar' (str := str) (by simp [hw])) (srcBad_scalar (by simp [hw])) (bGood_scalar (by simp [hw])) (dm_scalar (by simp [hw])) rfl (xy0_mk (str := str) (by simp) (by simp)) (by simp [Fields.rops, hd, ha, hb])

theorem Encodes.minu (o : ROps) : Encodes.Statement (.minu o) := by
  intro str f hw hf; cases hf
  simp only [Instr.wf, ROps.wf, Bool.and_eq_true] at hw
  have hd : o.d.okR = true := okR_scalar (str := str) (by simp [hw])
  have ha : o.a.coded = true := coded_scalar (str := str) (by simp [hw])
  have hb : o.b.codedB = true := codedB_scalar (str := str) (by simp [hw])
  exact dec_withBR rfl rfl ⟨rfl, rfl, rfl⟩ (all_streams rfl) (by simp [hw]) (dst_scalar' (str := str) (by simp [hw])) (srcBad_scalar (by simp [hw])) (bGood_scalar (by simp [hw])) (dm_scalar (by simp [hw])) rfl (xy0_mk (str := str) (by simp) (by simp)) (by simp [Fields.rops, hd, ha, hb])

theorem Encodes.maxu (o : ROps) : Encodes.Statement (.maxu o) := by
  intro str f hw hf; cases hf
  simp only [Instr.wf, ROps.wf, Bool.and_eq_true] at hw
  have hd : o.d.okR = true := okR_scalar (str := str) (by simp [hw])
  have ha : o.a.coded = true := coded_scalar (str := str) (by simp [hw])
  have hb : o.b.codedB = true := codedB_scalar (str := str) (by simp [hw])
  exact dec_withBR rfl rfl ⟨rfl, rfl, rfl⟩ (all_streams rfl) (by simp [hw]) (dst_scalar' (str := str) (by simp [hw])) (srcBad_scalar (by simp [hw])) (bGood_scalar (by simp [hw])) (dm_scalar (by simp [hw])) rfl (xy0_mk (str := str) (by simp) (by simp)) (by simp [Fields.rops, hd, ha, hb])

theorem Encodes.sel (o : ROps) (neg : Bool) (p : BitVec 3) : Encodes.Statement (.sel o neg p) := by
  intro str f hw hf; cases hf
  simp only [Instr.wf, ROps.wf, Bool.and_eq_true] at hw
  have hd : o.d.okR = true := okR_scalar (str := str) (by simp [hw])
  have ha : o.a.coded = true := coded_scalar (str := str) (by simp [hw])
  have hb : o.b.codedB = true := codedB_scalar (str := str) (by simp [hw])
  exact dec_withBR rfl rfl ⟨rfl, rfl, rfl⟩ (all_streams rfl) (by simp [hw]) (dst_scalar' (str := str) (by simp [hw])) (srcBad_scalar (by simp [hw])) (bGood_scalar (by simp [hw])) (dm_scalar (by simp [hw])) rfl (by simp [xy8, hw]) (by simp [Fields.rops, hd, ha, hb])

theorem Encodes.mov (g : Guard) (d : Dest) (b : Src) : Encodes.Statement (.mov g d b) := by
  intro str f hw hf; cases hf
  simp only [Instr.wf, Bool.and_eq_true] at hw
  have hd : d.okR = true := okR_scalar (str := str) (by simp [hw])
  have hb : b.codedB = true := codedB_scalar (str := str) (by simp [hw])
  exact dec_withBR rfl rfl ⟨rfl, rfl, rfl⟩ (all_streams rfl) (by simp [hw]) (dst_scalar' (str := str) (by simp [hw])) srcBad_zero (bGood_scalar (by simp [hw])) (dm_scalar (by simp [hw])) rfl (xy0_mk (str := str) (by simp) (by simp)) (by simp [hd, hb])

theorem Encodes.cmp (o : ROps) (c : Cond) : Encodes.Statement (.cmp o c) := by
  intro str f hw hf; cases hf
  simp only [Instr.wf, ROps.wf, Bool.and_eq_true] at hw
  have hd : o.d.okP = true := okP_pred (str := str) (by simp [hw])
  have ha : o.a.coded = true := coded_scalar (str := str) (by simp [hw])
  have hb : o.b.codedB = true := codedB_scalar (str := str) (by simp [hw])
  exact dec_withBR rfl rfl ⟨rfl, rfl, rfl⟩ (all_streams rfl) (by simp [hw]) (dst_pred' (str := str) (by simp [hw])) (srcBad_scalar (by simp [hw])) (bGood_scalar (by simp [hw])) (dm_pred (by simp [hw])) rfl (by simp [xy8, hw]) (by simp [Fields.props, hd, ha, hb])

theorem Encodes.fadd (o : ROps) : Encodes.Statement (.fadd o) := by
  intro str f hw hf; cases hf
  simp only [Instr.wf, ROps.wf, Bool.and_eq_true] at hw
  have hd : o.d.okR = true := okR_scalar (str := str) (by simp [hw])
  have ha : o.a.coded = true := coded_scalar (str := str) (by simp [hw])
  have hb : o.b.codedB = true := codedB_scalar (str := str) (by simp [hw])
  exact dec_withBR rfl rfl ⟨rfl, rfl, rfl⟩ (all_streams rfl) (by simp [hw]) (dst_scalar' (str := str) (by simp [hw])) (srcBad_scalar (by simp [hw])) (bGood_scalar (by simp [hw])) (dm_scalar (by simp [hw])) rfl (xy0_mk (str := str) (by simp) (by simp)) (by simp [Fields.rops, hd, ha, hb])

theorem Encodes.fsub (o : ROps) : Encodes.Statement (.fsub o) := by
  intro str f hw hf; cases hf
  simp only [Instr.wf, ROps.wf, Bool.and_eq_true] at hw
  have hd : o.d.okR = true := okR_scalar (str := str) (by simp [hw])
  have ha : o.a.coded = true := coded_scalar (str := str) (by simp [hw])
  have hb : o.b.codedB = true := codedB_scalar (str := str) (by simp [hw])
  exact dec_withBR rfl rfl ⟨rfl, rfl, rfl⟩ (all_streams rfl) (by simp [hw]) (dst_scalar' (str := str) (by simp [hw])) (srcBad_scalar (by simp [hw])) (bGood_scalar (by simp [hw])) (dm_scalar (by simp [hw])) rfl (xy0_mk (str := str) (by simp) (by simp)) (by simp [Fields.rops, hd, ha, hb])

theorem Encodes.fmul (o : ROps) : Encodes.Statement (.fmul o) := by
  intro str f hw hf; cases hf
  simp only [Instr.wf, ROps.wf, Bool.and_eq_true] at hw
  have hd : o.d.okR = true := okR_scalar (str := str) (by simp [hw])
  have ha : o.a.coded = true := coded_scalar (str := str) (by simp [hw])
  have hb : o.b.codedB = true := codedB_scalar (str := str) (by simp [hw])
  exact dec_withBR rfl rfl ⟨rfl, rfl, rfl⟩ (all_streams rfl) (by simp [hw]) (dst_scalar' (str := str) (by simp [hw])) (srcBad_scalar (by simp [hw])) (bGood_scalar (by simp [hw])) (dm_scalar (by simp [hw])) rfl (xy0_mk (str := str) (by simp) (by simp)) (by simp [Fields.rops, hd, ha, hb])

theorem Encodes.ffma (o : ROps) : Encodes.Statement (.ffma o) := by
  intro str f hw hf; cases hf
  simp only [Instr.wf, ROps.wf, ROps.wfD, Bool.and_eq_true] at hw
  have hd : o.d.okR = true := okR_scalar (str := str) (by simp [hw])
  have ha : o.a.coded = true := coded_scalar (str := str) (by simp [hw])
  have hb : o.b.codedB = true := codedB_scalar (str := str) (by simp [hw])
  exact dec_withBR rfl rfl ⟨rfl, rfl, rfl⟩ (all_streams rfl) (by simp [hw]) (dst_scalar' (str := str) (by simp [hw])) (srcBad_scalar (by simp [hw])) (bGood_scalar (by simp [hw])) (dm_scalar (by simp [hw])) (rd_ok (by simp [hw])) (xy0_mk (str := str) (by simp) (by simp)) (by simp [Fields.rops, hd, ha, hb])

theorem Encodes.fmin (o : ROps) : Encodes.Statement (.fmin o) := by
  intro str f hw hf; cases hf
  simp only [Instr.wf, ROps.wf, Bool.and_eq_true] at hw
  have hd : o.d.okR = true := okR_scalar (str := str) (by simp [hw])
  have ha : o.a.coded = true := coded_scalar (str := str) (by simp [hw])
  have hb : o.b.codedB = true := codedB_scalar (str := str) (by simp [hw])
  exact dec_withBR rfl rfl ⟨rfl, rfl, rfl⟩ (all_streams rfl) (by simp [hw]) (dst_scalar' (str := str) (by simp [hw])) (srcBad_scalar (by simp [hw])) (bGood_scalar (by simp [hw])) (dm_scalar (by simp [hw])) rfl (xy0_mk (str := str) (by simp) (by simp)) (by simp [Fields.rops, hd, ha, hb])

theorem Encodes.fmax (o : ROps) : Encodes.Statement (.fmax o) := by
  intro str f hw hf; cases hf
  simp only [Instr.wf, ROps.wf, Bool.and_eq_true] at hw
  have hd : o.d.okR = true := okR_scalar (str := str) (by simp [hw])
  have ha : o.a.coded = true := coded_scalar (str := str) (by simp [hw])
  have hb : o.b.codedB = true := codedB_scalar (str := str) (by simp [hw])
  exact dec_withBR rfl rfl ⟨rfl, rfl, rfl⟩ (all_streams rfl) (by simp [hw]) (dst_scalar' (str := str) (by simp [hw])) (srcBad_scalar (by simp [hw])) (bGood_scalar (by simp [hw])) (dm_scalar (by simp [hw])) rfl (xy0_mk (str := str) (by simp) (by simp)) (by simp [Fields.rops, hd, ha, hb])

theorem Encodes.fcmp (o : ROps) (c : Cond) (x : Bool) : Encodes.Statement (.fcmp o c x) := by
  intro str f hw hf; cases hf
  simp only [Instr.wf, ROps.wf, Bool.and_eq_true] at hw
  have hd : o.d.okP = true := okP_pred (str := str) (by simp [hw])
  have ha : o.a.coded = true := coded_scalar (str := str) (by simp [hw])
  have hb : o.b.codedB = true := codedB_scalar (str := str) (by simp [hw])
  have hx := condX_lt hw.2
  have hy := condX_le hw.2
  exact dec_withBR rfl rfl ⟨rfl, rfl, rfl⟩ (all_streams rfl) (by simp [hw]) (dst_pred' (str := str) (by simp [hw])) (srcBad_scalar (by simp [hw])) (bGood_scalar (by simp [hw])) (dm_pred (by simp [hw])) rfl (by simp [xy8]; exact ⟨hx, hy⟩) (by simp [Fields.props, hd, ha, hb])

theorem Encodes.fcvt (o : ROps1) (k : CvtKind) : Encodes.Statement (.fcvt o k) := by
  intro str f hw hf; cases hf
  simp only [Instr.wf, ROps1.wf, Bool.and_eq_true] at hw
  have hd : o.d.okR = true := okR_scalar (str := str) (by simp [hw])
  have ha : o.a.coded = true := coded_scalar (str := str) (by simp [hw])
  exact dec_mk rfl rfl (all_streams rfl) (by simp [hw]) (by simp [formBad]) (modR_i _ _ _) (dst_scalar' (str := str) (by simp [hw])) (srcBad_scalar (by simp [hw])) (.inr srcBad_raw) (dm_scalar (by simp [hw])) rfl (by simp; exact cvt_chk hw.2) (by simp [Fields.rops1, hd, ha, cvt_of])

theorem Encodes.frnd (o : ROps1) (r : Rnd) : Encodes.Statement (.frnd o r) := by
  intro str f hw hf; cases hf
  simp only [Instr.wf, ROps1.wf, Bool.and_eq_true] at hw
  have hd : o.d.okR = true := okR_scalar (str := str) (by simp [hw])
  have ha : o.a.coded = true := coded_scalar (str := str) (by simp [hw])
  exact dec_mk rfl rfl (all_streams rfl) (by simp [hw]) (by simp [formBad]) (modR_i _ _ _) (dst_scalar' (str := str) (by simp [hw])) (srcBad_scalar (by simp [hw])) (.inr srcBad_zero) (dm_scalar (by simp [hw])) rfl (by simp [xy8, hw]) (by simp [Fields.rops1, hd, ha])

theorem Encodes.ld (o : LdOps) : Encodes.Statement (.ld o) := by
  intro str f hw hf; cases hf
  simp only [Instr.wf, LdOps.wf, MAddr.wf, Bool.and_eq_true] at hw
  have hd : o.d.okR = true := okR_scalar (str := str) (by simp [hw])
  have ha : o.at_.base.coded = true := coded_scalar (str := str) (by simp [hw])
  have hb : o.at_.idx.codedL = true := codedL_scalar (str := str) (by simp [hw])
  exact dec_withB rfl rfl ⟨.inr (.inl rfl), rfl⟩ (by cases str <;> first | rfl | simp at hw) (by simp [hw]) (formM rfl (by simp) (by simp) (by simp) (by simp)) rfl (dst_scalar' (str := str) (by simp [hw])) (srcBad_scalar (by simp [hw])) (bFit_scalar (by simp [hw])) (dm_scalar (by simp [hw])) rfl (by simp [ldChk, hw]) (by simp [Fields.ldops, Fields.maddr, hd, ha, hb])

theorem Encodes.vld (o : VldOps) : Encodes.Statement (.vld o) := by
  intro str f hw hf; cases hf
  simp only [Instr.wf, VldOps.wf, MAddr.wf, fmtOk, Bool.and_eq_true] at hw
  have hs : str = .ld := by cases str <;> first | rfl | simp at hw
  subst hs
  have hq := hw
  simp only [beq_iff_eq, bne_iff_ne, ne_eq, decide_eq_true_eq, Bool.or_eq_true, Bool.not_eq_true', Bool.and_eq_true] at hq
  have ha : o.at_.base.coded = true := coded_scalar (str := .ld) (by simp [hw])
  have hb : o.at_.idx.codedL = true := codedL_scalar (str := .ld) (by simp [hw])
  exact dec_withB rfl rfl ⟨.inr (.inl rfl), rfl⟩ rfl (by simp [hw]) (formM rfl (by simp [hq]) (by simp) (by simp) (by simp)) rfl dst_zeroBy (srcBad_scalar (by simp [hw])) (bFit_scalar (by simp [hw])) (by cases o.push <;> decide) rfl (by simp [vldChk, hq]) (by simp [Fields.vldops, Fields.maddr, ha, hb])

theorem Encodes.vldx (o : VldOps) : Encodes.Statement (.vldx o) := by
  intro str f hw hf; cases hf
  simp only [Instr.wf, VldOps.wf, MAddr.wf, fmtOk, Bool.and_eq_true] at hw
  have hs : str = .ld := by cases str <;> first | rfl | simp at hw
  subst hs
  have hq := hw
  simp only [beq_iff_eq, bne_iff_ne, ne_eq, decide_eq_true_eq, Bool.or_eq_true, Bool.not_eq_true', Bool.and_eq_true] at hq
  have ha : o.at_.base.coded = true := coded_scalar (str := .ld) (by simp [hw])
  have hb : o.at_.idx.codedL = true := codedL_scalar (str := .ld) (by simp [hw])
  exact dec_withB rfl rfl ⟨.inr (.inl rfl), rfl⟩ rfl (by simp [hw]) (formM rfl (by simp [hq]) (by simp) (by simp) (by simp)) rfl dst_zeroBy (srcBad_scalar (by simp [hw])) (bFit_scalar (by simp [hw])) (by cases o.push <;> decide) rfl (by simp [vldChk, hq]) (by simp [Fields.vldops, Fields.maddr, ha, hb])

theorem Encodes.pref (g : Guard) (at_ : MAddr) (scope : Scope) (mc : Bool) : Encodes.Statement (.pref g at_ scope mc) := by
  intro str f hw hf; cases hf
  simp only [Instr.wf, MAddr.wf, Bool.and_eq_true] at hw
  have hs : str = .ld := by cases str <;> first | rfl | simp at hw
  subst hs
  have hq := hw
  simp only [beq_iff_eq, bne_iff_ne, ne_eq, decide_eq_true_eq, Bool.or_eq_true, Bool.not_eq_true', Bool.and_eq_true] at hq
  have ha : at_.base.coded = true := coded_scalar (str := .ld) (by simp [hw])
  have hb : at_.idx.codedL = true := codedL_scalar (str := .ld) (by simp [hw])
  exact dec_withB rfl rfl ⟨.inr (.inl rfl), rfl⟩ rfl (by simp [hw]) (formM rfl (by simp) (by simp) (by simp) (by simp)) rfl dst_zeroBy (srcBad_scalar (by simp [hw])) (bFit_scalar (by simp [hw])) dm_none rfl (by simp [prefChk, hq]) (by simp [Fields.maddr, ha, hb])

theorem Encodes.st (o : StOps) : Encodes.Statement (.st o) := by
  intro str f hw hf; cases hf
  simp only [Instr.wf, StOps.wf, MAddr.wf, Bool.and_eq_true] at hw
  have hq := hw
  simp only [beq_iff_eq, bne_iff_ne, ne_eq, decide_eq_true_eq, Bool.or_eq_true, Bool.not_eq_true', Bool.and_eq_true] at hq
  have ha : o.at_.base.coded = true := coded_scalar (str := str) (by simp [hw])
  have hb : o.at_.idx.codedL = true := codedL_scalar (str := str) (by simp [hw])
  have hda : o.data.coded = true := coded_data (by simp [hw])
  exact dec_withB rfl rfl ⟨.inr (.inl rfl), rfl⟩ (by cases str <;> first | rfl | simp at hw) (by simp [hw]) (formM rfl (by simp) (by simp) (by simp) (by simp)) rfl (dst_data (by simp [hw])) (srcBad_scalar (by simp [hw])) (bFit_scalar (by simp [hw])) dm_none rfl (by simp [stChk, hq]) (by simp [srcOf_code, Fields.stops, Fields.maddr, ha, hb, hda])

theorem Encodes.vst (o : VstOps) : Encodes.Statement (.vst o) := by
  intro str f hw hf; cases hf
  simp only [Instr.wf, VstOps.wf, MAddr.wf, fmtOk, Bool.and_eq_true] at hw
  have hs : str = .st := by cases str <;> first | rfl | simp at hw
  subst hs
  have hq := hw
  simp only [beq_iff_eq, bne_iff_ne, ne_eq, decide_eq_true_eq, Bool.or_eq_true, Bool.not_eq_true', Bool.and_eq_true] at hq
  have ha : o.at_.base.coded = true := coded_scalar (str := .st) (by simp [hw])
  have hb : o.at_.idx.codedL = true := codedL_scalar (str := .st) (by simp [hw])
  have hi := image_rnd hw.1.2
  exact dec_withB rfl rfl ⟨.inr (.inl rfl), rfl⟩ rfl (by simp [hw]) (formM rfl (by simp [hq]) (by simp) (by simp) (by simp)) rfl dst_vq (srcBad_scalar (by simp [hw])) (bFit_scalar (by simp [hw])) dm_none rfl (by simp [vstChk, hq]; exact hi) (by simp [Fields.vstops, Fields.maddr, ha, hb])

theorem Encodes.vstx (o : VstOps) : Encodes.Statement (.vstx o) := by
  intro str f hw hf; cases hf
  simp only [Instr.wf, VstOps.wf, MAddr.wf, fmtOk, Bool.and_eq_true] at hw
  have hs : str = .st := by cases str <;> first | rfl | simp at hw
  subst hs
  have hq := hw
  simp only [beq_iff_eq, bne_iff_ne, ne_eq, decide_eq_true_eq, Bool.or_eq_true, Bool.not_eq_true', Bool.and_eq_true] at hq
  have ha : o.at_.base.coded = true := coded_scalar (str := .st) (by simp [hw])
  have hb : o.at_.idx.codedL = true := codedL_scalar (str := .st) (by simp [hw])
  have hi := image_rnd hw.1.1.1.2
  exact dec_withB rfl rfl ⟨.inr (.inl rfl), rfl⟩ rfl (by simp [hw]) (formM rfl (by simp [hq]) (by simp) (by simp) (by simp)) rfl dst_vq (srcBad_scalar (by simp [hw])) (bFit_scalar (by simp [hw])) dm_none rfl (by simp [vstChk, hq]; exact hi) (by simp [Fields.vstops, Fields.maddr, ha, hb])

theorem Encodes.gst (o : GstOps) : Encodes.Statement (.gst o) := by
  intro str f hw hf
  cases o with
  | scalar g data at_ sz =>
    cases hf
    simp only [Instr.wf, GstOps.wf, MAddr.wf, Bool.and_eq_true] at hw
    have hs : str = .st := by cases str <;> first | rfl | simp at hw
    subst hs
    have ha : at_.base.coded = true := coded_scalar (str := .st) (by simp [hw])
    have hb : at_.idx.codedL = true := codedL_scalar (str := .st) (by simp [hw])
    obtain ⟨hg1, hg2, hg3, hg4⟩ := gst_data hw.2
    exact dec_withB rfl rfl ⟨.inr (.inl rfl), rfl⟩ rfl (by simp [hw]) (formM rfl (by simp) (by simp) (by simp) (by simp)) rfl hg1 (srcBad_scalar (by simp [hw])) (bFit_scalar (by simp [hw])) dm_none rfl (by simp [gstChk, hg3]) (by simp [Fields.maddr, ha, hb, hg3, hg4])
  | row g at_ fmt rnd lw =>
    cases hf
    simp only [Instr.wf, GstOps.wf, MAddr.wf, fmtOk, Bool.and_eq_true, decide_eq_true_eq] at hw
    have hs : str = .st := by cases str <;> first | rfl | simp at hw
    subst hs
    have ha : at_.base.coded = true := coded_scalar (str := .st) (by simp [hw])
    have hb : at_.idx.codedL = true := codedL_scalar (str := .st) (by simp [hw])
    have hi := image_rnd hw.2
    exact dec_withB rfl rfl ⟨.inr (.inl rfl), rfl⟩ rfl (by simp [hw]) (formM rfl (by simp [hw]) (by simp) (by simp) (by simp)) rfl rfl (srcBad_scalar (by simp [hw])) (bFit_scalar (by simp [hw])) dm_none rfl (by simp [gstChk]; exact hi) (by simp [Fields.maddr, ha, hb])

theorem Encodes.galleryArrival (_id : Nat) : Encodes.Statement (.galleryArrival _id) := fun _ _ _ h => nomatch h

theorem Encodes.sbind (g : Guard) (m : BitVec 3) (b : Src) (data : Bool) : Encodes.Statement (.sbind g m b data) := by
  intro str f hw hf; cases hf
  simp only [Instr.wf, Bool.and_eq_true] at hw
  have hq := hw
  simp only [beq_iff_eq, bne_iff_ne, ne_eq, decide_eq_true_eq, Bool.or_eq_true, Bool.not_eq_true', Bool.and_eq_true] at hq
  have hb : b.codedB = true := codedB_scalar (str := str) (by simp [hw])
  exact dec_withBR rfl rfl ⟨rfl, rfl, rfl⟩ (by cases str <;> first | rfl | simp at hw) (by simp [hw]) dst_zero (srcBad_mreg _ (by cases str <;> simp_all)) (bGood_scalar (by simp [hw])) dm_none rfl (by simp [also, sbChk]; rintro rfl rfl; simp at hw) (by simp [hb])

theorem Encodes.streamBlockFetch (_core : Nat) (_str : Strm) (_m : BitVec 3) : Encodes.Statement (.streamBlockFetch _core _str _m) := fun _ _ _ h => nomatch h

theorem Encodes.snext (g : Guard) (m : BitVec 3) (b : Src) : Encodes.Statement (.snext g m b) := by
  intro str f hw hf; cases hf
  simp only [Instr.wf, Bool.and_eq_true] at hw
  have hb : b.coded = true := coded_scalar (str := str) (by simp [hw])
  exact dec_mk rfl rfl (by cases str <;> first | rfl | simp at hw) (by simp [hw]) (by simp [formBad]) rfl dst_zero (srcBad_mreg _ (by cases str <;> simp_all)) (.inr (srcBad_scalar (by simp [hw]))) dm_none rfl (by simp [sbChk, hw]) (by simp [hb])

theorem Encodes.stest (g : Guard) (d : Dest) (m : BitVec 3) (c : STest) : Encodes.Statement (.stest g d m c) := by
  intro str f hw hf; cases hf
  simp only [Instr.wf, Bool.and_eq_true] at hw
  have hd : d.okP = true := okP_pred (str := str) (by simp [hw])
  exact dec_mk rfl rfl (by cases str <;> first | rfl | simp at hw) (by simp [hw]) (by simp [formBad]) (modR_i _ _ _) (dst_pred' (str := str) (by simp [hw])) (srcBad_mreg _ (by cases str <;> simp_all)) (.inr srcBad_zero) (dm_pred (by simp [hw])) rfl (by simp [sbChk, hw]) (by simp [hd])

theorem Encodes.sdrop (g : Guard) (m : BitVec 3) : Encodes.Statement (.sdrop g m) := by
  intro str f hw hf; cases hf
  simp only [Instr.wf, Bool.and_eq_true] at hw
  exact dec_mk rfl rfl (by cases str <;> first | rfl | simp at hw) (by simp [hw]) (by simp [formBad]) rfl dst_zero (srcBad_mreg _ (by cases str <;> simp_all)) (.inr srcBad_zero) dm_none rfl (by simp [sbChk, hw]) (by simp)

theorem Encodes.tlook (g : Guard) (d : Dest) (b : Src) : Encodes.Statement (.tlook g d b) := by
  intro str f hw hf; cases hf
  simp only [Instr.wf, Bool.and_eq_true] at hw
  have hs : str = .ld := by cases str <;> first | rfl | simp at hw
  subst hs
  have hd : d.okR = true := okR_scalar (str := .ld) (by simp [hw])
  have hb : b.codedB = true := codedB_scalar (str := .ld) (by simp [hw])
  rw [← modR_zero]
  exact dec_withBR rfl rfl ⟨rfl, rfl, rfl⟩ rfl (by simp [hw]) (dst_scalar' (str := .ld) (by simp [hw])) srcBad_zero (bGood_scalar (by simp [hw])) (dm_scalar (by simp [hw])) rfl (by simp [xyZ, hw]) (by simp [hd, hb])

theorem Encodes.tset (g : Guard) (a : Src) (b : Src) : Encodes.Statement (.tset g a b) := by
  intro str f hw hf; cases hf
  simp only [Instr.wf, Bool.and_eq_true] at hw
  have hs : str = .ld := by cases str <;> first | rfl | simp at hw
  subst hs
  have ha : a.coded = true := coded_scalar (str := .ld) (by simp [hw])
  have hb : b.codedB = true := codedB_scalar (str := .ld) (by simp [hw])
  rw [← modR_zero]
  exact dec_withBR rfl rfl ⟨rfl, rfl, rfl⟩ rfl (by simp [hw]) dst_zero (srcBad_scalar (by simp [hw])) (bGood_scalar (by simp [hw])) dm_none rfl (by simp [xyZ, hw]) (by simp [ha, hb])

theorem Encodes.tinv (g : Guard) (all : Bool) (a : Src) : Encodes.Statement (.tinv g all a) := by
  intro str f hw hf; cases hf
  simp only [Instr.wf, Bool.and_eq_true] at hw
  have hs : str = .ld := by cases str <;> first | rfl | simp at hw
  subst hs
  have hq := hw
  simp only [beq_iff_eq, bne_iff_ne, ne_eq, decide_eq_true_eq, Bool.or_eq_true, Bool.not_eq_true', Bool.and_eq_true] at hq
  have ha : a.coded = true := coded_scalar (str := .ld) (by simp [hw])
  exact dec_mk rfl rfl rfl (by simp [hw]) (by simp [formBad]) (modR_i _ _ _) dst_zero (srcBad_scalar (by simp [hw])) (.inr srcBad_zero) dm_none rfl (by simp [tinvChk]; rintro rfl; exact code_s0 (by simpa using hw.2)) (by simp [ha])

theorem Encodes.feset (o : FeOps) : Encodes.Statement (.feset o) := by
  intro str f hw hf; cases hf
  simp only [Instr.wf, FeOps.wf, MAddr.wf, Bool.and_eq_true] at hw
  have hs : str = .ld := by cases str <;> first | rfl | simp at hw
  subst hs
  have ha : o.at_.base.coded = true := coded_scalar (str := .ld) (by simp [hw])
  have hb : o.at_.idx.codedL = true := codedL_scalar (str := .ld) (by simp [hw])
  have hda : o.cnt.coded = true := coded_data (by simp [hw])
  exact dec_withB rfl rfl ⟨.inr (.inl rfl), rfl⟩ rfl (by simp [hw]) (formM rfl (by simp) (by simp) (by simp) (by simp)) rfl (dst_data (by simp [hw])) (srcBad_scalar (by simp [hw])) (bFit_scalar (by simp [hw])) dm_none rfl (by simp [feChk, hw]) (by simp [srcOf_code, Fields.maddr, ha, hb, hda])

theorem Encodes.feclr (o : FeOps) : Encodes.Statement (.feclr o) := by
  intro str f hw hf; cases hf
  simp only [Instr.wf, FeOps.wf, MAddr.wf, Bool.and_eq_true] at hw
  have hs : str = .ld := by cases str <;> first | rfl | simp at hw
  subst hs
  have ha : o.at_.base.coded = true := coded_scalar (str := .ld) (by simp [hw])
  have hb : o.at_.idx.codedL = true := codedL_scalar (str := .ld) (by simp [hw])
  have hda : o.cnt.coded = true := coded_data (by simp [hw])
  exact dec_withB rfl rfl ⟨.inr (.inl rfl), rfl⟩ rfl (by simp [hw]) (formM rfl (by simp) (by simp) (by simp) (by simp)) rfl (dst_data (by simp [hw])) (srcBad_scalar (by simp [hw])) (bFit_scalar (by simp [hw])) dm_none rfl (by simp [feChk, hw]) (by simp [srcOf_code, Fields.maddr, ha, hb, hda])

theorem Encodes.fetest (g : Guard) (d : Dest) (at_ : MAddr) : Encodes.Statement (.fetest g d at_) := by
  intro str f hw hf; cases hf
  simp only [Instr.wf, MAddr.wf, Bool.and_eq_true] at hw
  have hs : str = .ld := by cases str <;> first | rfl | simp at hw
  subst hs
  have hd : d.okP = true := okP_pred (str := .ld) (by simp [hw])
  have ha : at_.base.coded = true := coded_scalar (str := .ld) (by simp [hw])
  have hb : at_.idx.codedL = true := codedL_scalar (str := .ld) (by simp [hw])
  exact dec_withB rfl rfl ⟨.inr (.inl rfl), rfl⟩ rfl (by simp [hw]) (formM rfl (by simp) (by simp) (by simp) (by simp)) rfl (dst_pred' (str := .ld) (by simp [hw])) (srcBad_scalar (by simp [hw])) (bFit_scalar (by simp [hw])) (dm_pred (by simp [hw])) rfl (by simp [feChk, hw]) (by simp [Fields.maddr, hd, ha, hb])

theorem Encodes.l1wb (o : L1Ops) : Encodes.Statement (.l1wb o) := by
  intro str f hw hf; cases hf
  simp only [Instr.wf, L1Ops.wf, MAddr.wf, Bool.and_eq_true] at hw
  have hq := hw
  simp only [beq_iff_eq, bne_iff_ne, ne_eq, decide_eq_true_eq, Bool.or_eq_true, Bool.not_eq_true', Bool.and_eq_true] at hq
  have ha : o.at_.base.coded = true := coded_scalar (str := str) (by simp [hw])
  have hb : o.at_.idx.codedL = true := codedL_scalar (str := str) (by simp [hw])
  exact dec_withB rfl rfl ⟨.inr (.inl rfl), rfl⟩ (by cases str <;> first | rfl | simp at hw) (by simp [hw]) (formM rfl (by simp) (by simp) (by simp) (by simp)) rfl dst_zero (srcBad_scalar (by simp [hw])) (bFit_scalar (by simp [hw])) dm_none rfl (by simp [l1Chk]; intro e; simp [e] at hq; have h := l1_idx (f := mk 0x34 3 o.g 0 0 o.at_.base.code 0 (modM 0 0 0 0 false (0#1 ++ BitVec.ofBool o.all))) rfl hq.2.2; exact ⟨⟨by rw [hq.2.1]; rfl, by simpa using h.1⟩, by simpa using h.2⟩) (by simp [Fields.maddr, ha, hb])

theorem Encodes.l1inv (o : L1Ops) : Encodes.Statement (.l1inv o) := by
  intro str f hw hf; cases hf
  simp only [Instr.wf, L1Ops.wf, MAddr.wf, Bool.and_eq_true] at hw
  have hq := hw
  simp only [beq_iff_eq, bne_iff_ne, ne_eq, decide_eq_true_eq, Bool.or_eq_true, Bool.not_eq_true', Bool.and_eq_true] at hq
  have ha : o.at_.base.coded = true := coded_scalar (str := str) (by simp [hw])
  have hb : o.at_.idx.codedL = true := codedL_scalar (str := str) (by simp [hw])
  exact dec_withB rfl rfl ⟨.inr (.inl rfl), rfl⟩ (by cases str <;> first | rfl | simp at hw) (by simp [hw]) (formM rfl (by simp) (by simp) (by simp) (by simp)) rfl dst_zero (srcBad_scalar (by simp [hw])) (bFit_scalar (by simp [hw])) dm_none rfl (by simp [l1Chk]; intro e; simp [e] at hq; have h := l1_idx (f := mk 0x34 4 o.g 0 0 o.at_.base.code 0 (modM 0 0 0 0 false (0#1 ++ BitVec.ofBool o.all))) rfl hq.2.2; exact ⟨⟨by rw [hq.2.1]; rfl, by simpa using h.1⟩, by simpa using h.2⟩) (by simp [Fields.maddr, ha, hb])

theorem Encodes.fence (g : Guard) (k : FenceKind) (scope : Scope) : Encodes.Statement (.fence g k scope) := by
  intro str f hw hf; cases hf
  simp only [Instr.wf, Bool.and_eq_true] at hw
  exact dec_mk rfl rfl (all_streams rfl) (by simp [hw]) (formM rfl (by simp) (by simp) (by simp) (by simp)) rfl dst_zero srcBad_zero (.inr srcBad_zero) dm_none rfl (by simp [fenceChk, hw]) (by simp)

theorem Encodes.aadd (o : AOps) : Encodes.Statement (.aadd o) := by
  intro str f hw hf; cases hf
  simp only [Instr.wf, AOps.wf, MAddr.wf, Bool.and_eq_true] at hw
  have hs : str = .sc := by cases str <;> first | rfl | simp at hw
  subst hs
  have hd : o.d.okR = true := okR_scalar (str := .sc) (by simp [hw])
  have ha : o.at_.base.coded = true := coded_scalar (str := .sc) (by simp [hw])
  have hb : o.at_.idx.codedL = true := codedL_scalar (str := .sc) (by simp [hw])
  exact dec_withB rfl rfl ⟨.inr (.inl rfl), rfl⟩ rfl (by simp [hw]) (formM rfl (by simp) (by simp) (by simp) (by simp)) rfl (dst_scalar' (str := .sc) (by simp [hw])) (srcBad_scalar (by simp [hw])) (bFit_scalar (by simp [hw])) (dm_scalar (by simp [hw])) (rd_ok (by simp [hw])) (by simp [atomChk, hw]) (by simp [Fields.aops, Fields.maddr, hd, ha, hb])

theorem Encodes.amin (o : AOps) : Encodes.Statement (.amin o) := by
  intro str f hw hf; cases hf
  simp only [Instr.wf, AOps.wf, MAddr.wf, Bool.and_eq_true] at hw
  have hs : str = .sc := by cases str <;> first | rfl | simp at hw
  subst hs
  have hd : o.d.okR = true := okR_scalar (str := .sc) (by simp [hw])
  have ha : o.at_.base.coded = true := coded_scalar (str := .sc) (by simp [hw])
  have hb : o.at_.idx.codedL = true := codedL_scalar (str := .sc) (by simp [hw])
  exact dec_withB rfl rfl ⟨.inr (.inl rfl), rfl⟩ rfl (by simp [hw]) (formM rfl (by simp) (by simp) (by simp) (by simp)) rfl (dst_scalar' (str := .sc) (by simp [hw])) (srcBad_scalar (by simp [hw])) (bFit_scalar (by simp [hw])) (dm_scalar (by simp [hw])) (rd_ok (by simp [hw])) (by simp [atomChk, hw]) (by simp [Fields.aops, Fields.maddr, hd, ha, hb])

theorem Encodes.amax (o : AOps) : Encodes.Statement (.amax o) := by
  intro str f hw hf; cases hf
  simp only [Instr.wf, AOps.wf, MAddr.wf, Bool.and_eq_true] at hw
  have hs : str = .sc := by cases str <;> first | rfl | simp at hw
  subst hs
  have hd : o.d.okR = true := okR_scalar (str := .sc) (by simp [hw])
  have ha : o.at_.base.coded = true := coded_scalar (str := .sc) (by simp [hw])
  have hb : o.at_.idx.codedL = true := codedL_scalar (str := .sc) (by simp [hw])
  exact dec_withB rfl rfl ⟨.inr (.inl rfl), rfl⟩ rfl (by simp [hw]) (formM rfl (by simp) (by simp) (by simp) (by simp)) rfl (dst_scalar' (str := .sc) (by simp [hw])) (srcBad_scalar (by simp [hw])) (bFit_scalar (by simp [hw])) (dm_scalar (by simp [hw])) (rd_ok (by simp [hw])) (by simp [atomChk, hw]) (by simp [Fields.aops, Fields.maddr, hd, ha, hb])

theorem Encodes.aand (o : AOps) : Encodes.Statement (.aand o) := by
  intro str f hw hf; cases hf
  simp only [Instr.wf, AOps.wf, MAddr.wf, Bool.and_eq_true] at hw
  have hs : str = .sc := by cases str <;> first | rfl | simp at hw
  subst hs
  have hd : o.d.okR = true := okR_scalar (str := .sc) (by simp [hw])
  have ha : o.at_.base.coded = true := coded_scalar (str := .sc) (by simp [hw])
  have hb : o.at_.idx.codedL = true := codedL_scalar (str := .sc) (by simp [hw])
  exact dec_withB rfl rfl ⟨.inr (.inl rfl), rfl⟩ rfl (by simp [hw]) (formM rfl (by simp) (by simp) (by simp) (by simp)) rfl (dst_scalar' (str := .sc) (by simp [hw])) (srcBad_scalar (by simp [hw])) (bFit_scalar (by simp [hw])) (dm_scalar (by simp [hw])) (rd_ok (by simp [hw])) (by simp [atomChk, hw]) (by simp [Fields.aops, Fields.maddr, hd, ha, hb])

theorem Encodes.aor (o : AOps) : Encodes.Statement (.aor o) := by
  intro str f hw hf; cases hf
  simp only [Instr.wf, AOps.wf, MAddr.wf, Bool.and_eq_true] at hw
  have hs : str = .sc := by cases str <;> first | rfl | simp at hw
  subst hs
  have hd : o.d.okR = true := okR_scalar (str := .sc) (by simp [hw])
  have ha : o.at_.base.coded = true := coded_scalar (str := .sc) (by simp [hw])
  have hb : o.at_.idx.codedL = true := codedL_scalar (str := .sc) (by simp [hw])
  exact dec_withB rfl rfl ⟨.inr (.inl rfl), rfl⟩ rfl (by simp [hw]) (formM rfl (by simp) (by simp) (by simp) (by simp)) rfl (dst_scalar' (str := .sc) (by simp [hw])) (srcBad_scalar (by simp [hw])) (bFit_scalar (by simp [hw])) (dm_scalar (by simp [hw])) (rd_ok (by simp [hw])) (by simp [atomChk, hw]) (by simp [Fields.aops, Fields.maddr, hd, ha, hb])

theorem Encodes.axor (o : AOps) : Encodes.Statement (.axor o) := by
  intro str f hw hf; cases hf
  simp only [Instr.wf, AOps.wf, MAddr.wf, Bool.and_eq_true] at hw
  have hs : str = .sc := by cases str <;> first | rfl | simp at hw
  subst hs
  have hd : o.d.okR = true := okR_scalar (str := .sc) (by simp [hw])
  have ha : o.at_.base.coded = true := coded_scalar (str := .sc) (by simp [hw])
  have hb : o.at_.idx.codedL = true := codedL_scalar (str := .sc) (by simp [hw])
  exact dec_withB rfl rfl ⟨.inr (.inl rfl), rfl⟩ rfl (by simp [hw]) (formM rfl (by simp) (by simp) (by simp) (by simp)) rfl (dst_scalar' (str := .sc) (by simp [hw])) (srcBad_scalar (by simp [hw])) (bFit_scalar (by simp [hw])) (dm_scalar (by simp [hw])) (rd_ok (by simp [hw])) (by simp [atomChk, hw]) (by simp [Fields.aops, Fields.maddr, hd, ha, hb])

theorem Encodes.axch (o : AOps) : Encodes.Statement (.axch o) := by
  intro str f hw hf; cases hf
  simp only [Instr.wf, AOps.wf, MAddr.wf, Bool.and_eq_true] at hw
  have hs : str = .sc := by cases str <;> first | rfl | simp at hw
  subst hs
  have hd : o.d.okR = true := okR_scalar (str := .sc) (by simp [hw])
  have ha : o.at_.base.coded = true := coded_scalar (str := .sc) (by simp [hw])
  have hb : o.at_.idx.codedL = true := codedL_scalar (str := .sc) (by simp [hw])
  exact dec_withB rfl rfl ⟨.inr (.inl rfl), rfl⟩ rfl (by simp [hw]) (formM rfl (by simp) (by simp) (by simp) (by simp)) rfl (dst_scalar' (str := .sc) (by simp [hw])) (srcBad_scalar (by simp [hw])) (bFit_scalar (by simp [hw])) (dm_scalar (by simp [hw])) (rd_ok (by simp [hw])) (by simp [atomChk, hw]) (by simp [Fields.aops, Fields.maddr, hd, ha, hb])

theorem Encodes.acas (o : AOps) : Encodes.Statement (.acas o) := by
  intro str f hw hf; cases hf
  simp only [Instr.wf, AOps.wf, MAddr.wf, Bool.and_eq_true] at hw
  have hs : str = .sc := by cases str <;> first | rfl | simp at hw
  subst hs
  have hq := hw
  simp only [beq_iff_eq, bne_iff_ne, ne_eq, decide_eq_true_eq, Bool.or_eq_true, Bool.not_eq_true', Bool.and_eq_true] at hq
  have hd : o.d.okR = true := okR_scalar (str := .sc) (by simp [hw])
  have ha : o.at_.base.coded = true := coded_scalar (str := .sc) (by simp [hw])
  have hb : o.at_.idx.codedL = true := codedL_scalar (str := .sc) (by simp [hw])
  have hr := acas_dest hw.2
  exact dec_withB rfl rfl ⟨.inr (.inl rfl), rfl⟩ rfl (by simp [hw]) (formM rfl (by simp) (by simp) (by simp) (by simp)) rfl (dst_scalar' (str := .sc) (by simp [hw])) (srcBad_scalar (by simp [hw])) (bFit_scalar (by simp [hw])) (dm_scalar (by simp [hw])) (rd_ok (by simp [hw])) (by simp [atomChk, casChk, hw, hr]) (by simp [Fields.aops, Fields.maddr, hd, ha, hb])

theorem Encodes.afadd (o : AfOps) : Encodes.Statement (.afadd o) := by
  intro str f hw hf; cases hf
  simp only [Instr.wf, AfOps.wf, MAddr.wf, Bool.and_eq_true] at hw
  have hs : str = .sc := by cases str <;> first | rfl | simp at hw
  subst hs
  have hq := hw
  simp only [beq_iff_eq, bne_iff_ne, ne_eq, decide_eq_true_eq, Bool.or_eq_true, Bool.not_eq_true', Bool.and_eq_true] at hq
  have hd : o.d.okR = true := okR_scalar (str := .sc) (by simp [hw])
  have ha : o.at_.base.coded = true := coded_scalar (str := .sc) (by simp [hw])
  have hb : o.at_.idx.codedL = true := codedL_scalar (str := .sc) (by simp [hw])
  have hr : o.d.reg.isSome = true ∧ o.d.code.toNat < 32 := af_dest hw.2
  have hn : o.fmt ≠ 3 := by simpa using hw.1.2
  exact dec_withB rfl rfl ⟨.inr (.inl rfl), rfl⟩ rfl (by simp [hw]) (formM rfl (by simp [af_fmt]) (by simp) (by simp) (by simp)) rfl (dst_scalar' (str := .sc) (by simp [hw])) (srcBad_scalar (by simp [hw])) (bFit_scalar (by simp [hw])) (dm_scalar (by simp [hw])) (rd_ok hr.1) (by simp [afaddChk, hr]; exact af_chk hn) (by simp [Fields.maddr, hd, ha, hb, af_fmt])

theorem Encodes.lda (o : LdOps) : Encodes.Statement (.lda o) := by
  intro str f hw hf; cases hf
  simp only [Instr.wf, LdOps.wf, MAddr.wf, Bool.and_eq_true] at hw
  have hq := hw
  simp only [beq_iff_eq, bne_iff_ne, ne_eq, decide_eq_true_eq, Bool.or_eq_true, Bool.not_eq_true', Bool.and_eq_true] at hq
  have hd : o.d.okR = true := okR_scalar (str := str) (by simp [hw])
  have ha : o.at_.base.coded = true := coded_scalar (str := str) (by simp [hw])
  have hb : o.at_.idx.codedL = true := codedL_scalar (str := str) (by simp [hw])
  exact dec_withB rfl rfl ⟨.inr (.inl rfl), rfl⟩ (by cases str <;> first | rfl | simp at hw) (by simp [hw]) (formM rfl (by simp) (by simp) (by simp) (by simp)) rfl (dst_scalar' (str := str) (by simp [hw])) (srcBad_scalar (by simp [hw])) (bFit_scalar (by simp [hw])) (dm_scalar (by simp [hw])) rfl (by simp [ldaChk, hq]) (by simp [Fields.ldops, Fields.maddr, hd, ha, hb])

theorem Encodes.stl (o : StOps) : Encodes.Statement (.stl o) := by
  intro str f hw hf; cases hf
  simp only [Instr.wf, StOps.wf, MAddr.wf, Bool.and_eq_true] at hw
  have hq := hw
  simp only [beq_iff_eq, bne_iff_ne, ne_eq, decide_eq_true_eq, Bool.or_eq_true, Bool.not_eq_true', Bool.and_eq_true] at hq
  have ha : o.at_.base.coded = true := coded_scalar (str := str) (by simp [hw])
  have hb : o.at_.idx.codedL = true := codedL_scalar (str := str) (by simp [hw])
  have hda : o.data.coded = true := coded_data (by simp [hw])
  exact dec_withB rfl rfl ⟨.inr (.inl rfl), rfl⟩ (by cases str <;> first | rfl | simp at hw) (by simp [hw]) (formM rfl (by simp) (by simp) (by simp) (by simp)) rfl (dst_data (by simp [hw])) (srcBad_scalar (by simp [hw])) (bFit_scalar (by simp [hw])) dm_none rfl (by simp [stlChk, hq]) (by simp [srcOf_code, Fields.stops, Fields.maddr, ha, hb, hda])

theorem Encodes.waitt (o : CtrOps) : Encodes.Statement (.waitt o) := by
  intro str f hw hf; cases hf
  simp only [Instr.wf, CtrOps.wf, Bool.and_eq_true] at hw
  have hd : o.d.okR = true := okR_scalar (str := str) (by simp [hw])
  have ha : o.a.coded = true := coded_scalar (str := str) (by simp [hw])
  have hb : o.b.codedL = true := codedL_scalar (str := str) (by simp [hw])
  exact dec_withB rfl rfl ⟨.inr (.inr rfl), rfl⟩ (all_streams rfl) (by simp [hw]) formC rfl (by rw [code_isNone (by simp [hw])]; exact dst_zeroBy) (srcBad_scalar (by simp [hw])) (bFit_scalar (by simp [hw])) (by rw [dmask_isNone (by simp [hw])]; exact dm_none) rfl (by simp [cChk, hw]; exact nb_pd) (by simp [Fields.ctrops, Fields.nbp, hd, ha, hb, nb_pair])

theorem Encodes.tlrd (g : Guard) (d : Dest) (ctr : BitVec 4) (sel : TlSel) : Encodes.Statement (.tlrd g d ctr sel) := by
  intro str f hw hf; cases hf
  simp only [Instr.wf, Bool.and_eq_true] at hw
  have hd : d.okR = true := okR_scalar (str := str) (by simp [hw])
  exact dec_withB' rfl rfl rfl (all_streams rfl) (by simp [hw]) formC rfl (dst_scalar' (str := str) (by simp [hw])) srcBad_zeroBy srcBad_zeroBy (dm_scalar (by simp [hw])) rfl (by simp [cChk, hw]) (by simp [hd])

theorem Encodes.tladv (g : Guard) (d : Dest) (ctr : BitVec 4) (b : Src) (scope : Scope) : Encodes.Statement (.tladv g d ctr b scope) := by
  intro str f hw hf; cases hf
  simp only [Instr.wf, Bool.and_eq_true] at hw
  have hd : d.okR = true := okR_scalar (str := str) (by simp [hw])
  have hb : b.codedL = true := codedL_scalar (str := str) (by simp [hw])
  exact dec_withB rfl rfl ⟨.inr (.inr rfl), rfl⟩ (all_streams rfl) (by simp [hw]) formC rfl (dst_scalar' (str := str) (by simp [hw])) srcBad_zeroBy (bFit_scalar (by simp [hw])) (dm_scalar (by simp [hw])) rfl (by simp [cChk, hw]) (by simp [hd, hb])

theorem Encodes.vadd (o : VOps) : Encodes.Statement (.vadd o) := by
  intro str f hw hf; cases hf
  simp only [Instr.wf, VOps.wf, Bool.and_eq_true] at hw
  have hs : str = .cx := by cases str <;> first | rfl | simp at hw
  subst hs
  have hd : o.d.okR = true := okR_vec (by simp [hw])
  have ha : o.a.coded = true := coded_vec (by simp [hw])
  have hb : o.b.codedL = true := codedL_vec (by simp [hw])
  exact dec_withB rfl rfl ⟨.inl rfl, rfl⟩ rfl (by simp [hw]) (formR (by simp) (by simp [low_hi])) (modR_i _ _ _) (dst_vec' (by simp [hw])) (srcBad_vec (by simp [hw])) (bFit_vec (by simp [hw])) (dm_vec (by simp [hw])) rfl (by simp [vChk, hw]) (by simp [Fields.vops, hd, ha, hb])

theorem Encodes.vsub (o : VOps) : Encodes.Statement (.vsub o) := by
  intro str f hw hf; cases hf
  simp only [Instr.wf, VOps.wf, Bool.and_eq_true] at hw
  have hs : str = .cx := by cases str <;> first | rfl | simp at hw
  subst hs
  have hd : o.d.okR = true := okR_vec (by simp [hw])
  have ha : o.a.coded = true := coded_vec (by simp [hw])
  have hb : o.b.codedL = true := codedL_vec (by simp [hw])
  exact dec_withB rfl rfl ⟨.inl rfl, rfl⟩ rfl (by simp [hw]) (formR (by simp) (by simp [low_hi])) (modR_i _ _ _) (dst_vec' (by simp [hw])) (srcBad_vec (by simp [hw])) (bFit_vec (by simp [hw])) (dm_vec (by simp [hw])) rfl (by simp [vChk, hw]) (by simp [Fields.vops, hd, ha, hb])

theorem Encodes.vmul (o : VOps) : Encodes.Statement (.vmul o) := by
  intro str f hw hf; cases hf
  simp only [Instr.wf, VOps.wf, Bool.and_eq_true] at hw
  have hs : str = .cx := by cases str <;> first | rfl | simp at hw
  subst hs
  have hd : o.d.okR = true := okR_vec (by simp [hw])
  have ha : o.a.coded = true := coded_vec (by simp [hw])
  have hb : o.b.codedL = true := codedL_vec (by simp [hw])
  exact dec_withB rfl rfl ⟨.inl rfl, rfl⟩ rfl (by simp [hw]) (formR (by simp) (by simp [low_hi])) (modR_i _ _ _) (dst_vec' (by simp [hw])) (srcBad_vec (by simp [hw])) (bFit_vec (by simp [hw])) (dm_vec (by simp [hw])) rfl (by simp [vChk, hw]) (by simp [Fields.vops, hd, ha, hb])

theorem Encodes.vfma (o : VOps) : Encodes.Statement (.vfma o) := by
  intro str f hw hf; cases hf
  simp only [Instr.wf, VOps.wf, Bool.and_eq_true] at hw
  have hs : str = .cx := by cases str <;> first | rfl | simp at hw
  subst hs
  have hd : o.d.okR = true := okR_vec (by simp [hw])
  have ha : o.a.coded = true := coded_vec (by simp [hw])
  have hb : o.b.codedL = true := codedL_vec (by simp [hw])
  exact dec_withB rfl rfl ⟨.inl rfl, rfl⟩ rfl (by simp [hw]) (formR (by simp) (by simp [low_hi])) (modR_i _ _ _) (dst_vec' (by simp [hw])) (srcBad_vec (by simp [hw])) (bFit_vec (by simp [hw])) (dm_vec (by simp [hw])) (rd_ok (by simp [hw])) (by simp [vChk, hw]) (by simp [Fields.vops, hd, ha, hb])

theorem Encodes.vmin (o : VOps) (int : Bool) : Encodes.Statement (.vmin o int) := by
  intro str f hw hf; cases hf
  simp only [Instr.wf, VOps.wf, Bool.and_eq_true] at hw
  have hs : str = .cx := by cases str <;> first | rfl | simp at hw
  subst hs
  have hd : o.d.okR = true := okR_vec (by simp [hw])
  have ha : o.a.coded = true := coded_vec (by simp [hw])
  have hb : o.b.codedL = true := codedL_vec (by simp [hw])
  exact dec_withB rfl rfl ⟨.inl rfl, rfl⟩ rfl (by simp [hw]) (formR (by simp) (by simp [low_hi])) (modR_i _ _ _) (dst_vec' (by simp [hw])) (srcBad_vec (by simp [hw])) (bFit_vec (by simp [hw])) (dm_vec (by simp [hw])) rfl (by simp [vChk, hw]) (by simp [Fields.vops, hd, ha, hb])

theorem Encodes.vmax (o : VOps) (int : Bool) : Encodes.Statement (.vmax o int) := by
  intro str f hw hf; cases hf
  simp only [Instr.wf, VOps.wf, Bool.and_eq_true] at hw
  have hs : str = .cx := by cases str <;> first | rfl | simp at hw
  subst hs
  have hd : o.d.okR = true := okR_vec (by simp [hw])
  have ha : o.a.coded = true := coded_vec (by simp [hw])
  have hb : o.b.codedL = true := codedL_vec (by simp [hw])
  exact dec_withB rfl rfl ⟨.inl rfl, rfl⟩ rfl (by simp [hw]) (formR (by simp) (by simp [low_hi])) (modR_i _ _ _) (dst_vec' (by simp [hw])) (srcBad_vec (by simp [hw])) (bFit_vec (by simp [hw])) (dm_vec (by simp [hw])) rfl (by simp [vChk, hw]) (by simp [Fields.vops, hd, ha, hb])

theorem Encodes.vabs (o : VOps1) (int : Bool) : Encodes.Statement (.vabs o int) := by
  intro str f hw hf; cases hf
  simp only [Instr.wf, VOps1.wf, Bool.and_eq_true] at hw
  have hs : str = .cx := by cases str <;> first | rfl | simp at hw
  subst hs
  have hd : o.d.okR = true := okR_vec (by simp [hw])
  have ha : o.a.coded = true := coded_vec (by simp [hw])
  exact dec_mk rfl rfl rfl (by simp [hw]) (formR (by simp) (by simp [low_hi])) (modR_i _ _ _) (dst_vec' (by simp [hw])) (srcBad_vec (by simp [hw])) (.inr srcBad_zero) (dm_vec (by simp [hw])) rfl (by simp [vChk, hw]) (by simp [Fields.vops1, hd, ha])

theorem Encodes.vneg (o : VOps1) (int : Bool) : Encodes.Statement (.vneg o int) := by
  intro str f hw hf; cases hf
  simp only [Instr.wf, VOps1.wf, Bool.and_eq_true] at hw
  have hs : str = .cx := by cases str <;> first | rfl | simp at hw
  subst hs
  have hd : o.d.okR = true := okR_vec (by simp [hw])
  have ha : o.a.coded = true := coded_vec (by simp [hw])
  exact dec_mk rfl rfl rfl (by simp [hw]) (formR (by simp) (by simp [low_hi])) (modR_i _ _ _) (dst_vec' (by simp [hw])) (srcBad_vec (by simp [hw])) (.inr srcBad_zero) (dm_vec (by simp [hw])) rfl (by simp [vChk, hw]) (by simp [Fields.vops1, hd, ha])

theorem Encodes.vand (o : VOps) : Encodes.Statement (.vand o) := by
  intro str f hw hf; cases hf
  simp only [Instr.wf, VOps.wf, Bool.and_eq_true] at hw
  have hs : str = .cx := by cases str <;> first | rfl | simp at hw
  subst hs
  have hd : o.d.okR = true := okR_vec (by simp [hw])
  have ha : o.a.coded = true := coded_vec (by simp [hw])
  have hb : o.b.codedL = true := codedL_vec (by simp [hw])
  exact dec_withB rfl rfl ⟨.inl rfl, rfl⟩ rfl (by simp [hw]) (formR (by simp) (by simp [low_hi])) (modR_i _ _ _) (dst_vec' (by simp [hw])) (srcBad_vec (by simp [hw])) (bFit_vec (by simp [hw])) (dm_vec (by simp [hw])) rfl (by simp [vChk, hw]) (by simp [Fields.vops, hd, ha, hb])

theorem Encodes.vor (o : VOps) : Encodes.Statement (.vor o) := by
  intro str f hw hf; cases hf
  simp only [Instr.wf, VOps.wf, Bool.and_eq_true] at hw
  have hs : str = .cx := by cases str <;> first | rfl | simp at hw
  subst hs
  have hd : o.d.okR = true := okR_vec (by simp [hw])
  have ha : o.a.coded = true := coded_vec (by simp [hw])
  have hb : o.b.codedL = true := codedL_vec (by simp [hw])
  exact dec_withB rfl rfl ⟨.inl rfl, rfl⟩ rfl (by simp [hw]) (formR (by simp) (by simp [low_hi])) (modR_i _ _ _) (dst_vec' (by simp [hw])) (srcBad_vec (by simp [hw])) (bFit_vec (by simp [hw])) (dm_vec (by simp [hw])) rfl (by simp [vChk, hw]) (by simp [Fields.vops, hd, ha, hb])

theorem Encodes.vxor (o : VOps) : Encodes.Statement (.vxor o) := by
  intro str f hw hf; cases hf
  simp only [Instr.wf, VOps.wf, Bool.and_eq_true] at hw
  have hs : str = .cx := by cases str <;> first | rfl | simp at hw
  subst hs
  have hd : o.d.okR = true := okR_vec (by simp [hw])
  have ha : o.a.coded = true := coded_vec (by simp [hw])
  have hb : o.b.codedL = true := codedL_vec (by simp [hw])
  exact dec_withB rfl rfl ⟨.inl rfl, rfl⟩ rfl (by simp [hw]) (formR (by simp) (by simp [low_hi])) (modR_i _ _ _) (dst_vec' (by simp [hw])) (srcBad_vec (by simp [hw])) (bFit_vec (by simp [hw])) (dm_vec (by simp [hw])) rfl (by simp [vChk, hw]) (by simp [Fields.vops, hd, ha, hb])

theorem Encodes.vshl (o : VOps) : Encodes.Statement (.vshl o) := by
  intro str f hw hf; cases hf
  simp only [Instr.wf, VOps.wf, Bool.and_eq_true] at hw
  have hs : str = .cx := by cases str <;> first | rfl | simp at hw
  subst hs
  have hd : o.d.okR = true := okR_vec (by simp [hw])
  have ha : o.a.coded = true := coded_vec (by simp [hw])
  have hb : o.b.codedL = true := codedL_vec (by simp [hw])
  exact dec_withB rfl rfl ⟨.inl rfl, rfl⟩ rfl (by simp [hw]) (formR (by simp) (by simp [low_hi])) (modR_i _ _ _) (dst_vec' (by simp [hw])) (srcBad_vec (by simp [hw])) (bFit_vec (by simp [hw])) (dm_vec (by simp [hw])) rfl (by simp [vChk, hw]) (by simp [Fields.vops, hd, ha, hb])

theorem Encodes.vshr (o : VOps) (sra : Bool) : Encodes.Statement (.vshr o sra) := by
  intro str f hw hf; cases hf
  simp only [Instr.wf, VOps.wf, Bool.and_eq_true] at hw
  have hs : str = .cx := by cases str <;> first | rfl | simp at hw
  subst hs
  have hd : o.d.okR = true := okR_vec (by simp [hw])
  have ha : o.a.coded = true := coded_vec (by simp [hw])
  have hb : o.b.codedL = true := codedL_vec (by simp [hw])
  exact dec_withB rfl rfl ⟨.inl rfl, rfl⟩ rfl (by simp [hw]) (formR (by simp) (by simp [low_hi])) (modR_i _ _ _) (dst_vec' (by simp [hw])) (srcBad_vec (by simp [hw])) (bFit_vec (by simp [hw])) (dm_vec (by simp [hw])) rfl (by simp [vChk, hw]) (by simp [Fields.vops, hd, ha, hb])

theorem Encodes.viadd (o : VOps) : Encodes.Statement (.viadd o) := by
  intro str f hw hf; cases hf
  simp only [Instr.wf, VOps.wf, Bool.and_eq_true] at hw
  have hs : str = .cx := by cases str <;> first | rfl | simp at hw
  subst hs
  have hd : o.d.okR = true := okR_vec (by simp [hw])
  have ha : o.a.coded = true := coded_vec (by simp [hw])
  have hb : o.b.codedL = true := codedL_vec (by simp [hw])
  exact dec_withB rfl rfl ⟨.inl rfl, rfl⟩ rfl (by simp [hw]) (formR (by simp) (by simp [low_hi])) (modR_i _ _ _) (dst_vec' (by simp [hw])) (srcBad_vec (by simp [hw])) (bFit_vec (by simp [hw])) (dm_vec (by simp [hw])) rfl (by simp [vChk, hw]) (by simp [Fields.vops, hd, ha, hb])

theorem Encodes.vimul (o : VOps) : Encodes.Statement (.vimul o) := by
  intro str f hw hf; cases hf
  simp only [Instr.wf, VOps.wf, Bool.and_eq_true] at hw
  have hs : str = .cx := by cases str <;> first | rfl | simp at hw
  subst hs
  have hd : o.d.okR = true := okR_vec (by simp [hw])
  have ha : o.a.coded = true := coded_vec (by simp [hw])
  have hb : o.b.codedL = true := codedL_vec (by simp [hw])
  exact dec_withB rfl rfl ⟨.inl rfl, rfl⟩ rfl (by simp [hw]) (formR (by simp) (by simp [low_hi])) (modR_i _ _ _) (dst_vec' (by simp [hw])) (srcBad_vec (by simp [hw])) (bFit_vec (by simp [hw])) (dm_vec (by simp [hw])) rfl (by simp [vChk, hw]) (by simp [Fields.vops, hd, ha, hb])

theorem Encodes.vmov (o : VOps1) (int : Bool) : Encodes.Statement (.vmov o int) := by
  intro str f hw hf; cases hf
  simp only [Instr.wf, VOps1.wf, Bool.and_eq_true] at hw
  have hs : str = .cx := by cases str <;> first | rfl | simp at hw
  subst hs
  have hd : o.d.okR = true := okR_vec (by simp [hw])
  have ha : o.a.coded = true := coded_vec (by simp [hw])
  exact dec_mk rfl rfl rfl (by simp [hw]) (formR (by simp) (by simp [low_hi])) (modR_i _ _ _) (dst_vec' (by simp [hw])) (srcBad_vec (by simp [hw])) (.inr srcBad_zero) (dm_vec (by simp [hw])) rfl (by simp [vChk, hw]) (by simp [Fields.vops1, hd, ha])

theorem Encodes.vbcst (o : VOps) : Encodes.Statement (.vbcst o) := by
  intro str f hw hf; cases hf
  simp only [Instr.wf, VOps.wf, Bool.and_eq_true] at hw
  have hs : str = .cx := by cases str <;> first | rfl | simp at hw
  subst hs
  have hd : o.d.okR = true := okR_vec (by simp [hw])
  have ha : o.a.coded = true := coded_vecReg (by simp [hw])
  have hb : o.b.codedL = true := codedL_scalar (str := .cx) (by simp [hw])
  exact dec_withB rfl rfl ⟨.inl rfl, rfl⟩ rfl (by simp [hw]) (formR (by simp) (by simp [low_hi])) (modR_i _ _ _) (dst_vec' (by simp [hw])) (srcBad_vecReg (by simp [hw])) (bFit_scalar (by simp [hw])) (dm_vec (by simp [hw])) rfl (by simp [vChk, hw]) (by simp [Fields.vops, hd, ha, hb])

theorem Encodes.vsel (o : VOps) (int : Bool) : Encodes.Statement (.vsel o int) := by
  intro str f hw hf; cases hf
  simp only [Instr.wf, VOps.wf, Bool.and_eq_true] at hw
  have hs : str = .cx := by cases str <;> first | rfl | simp at hw
  subst hs
  have hd : o.d.okR = true := okR_vec (by simp [hw])
  have ha : o.a.coded = true := coded_vec (by simp [hw])
  have hb : o.b.codedL = true := codedL_vec (by simp [hw])
  exact dec_withB rfl rfl ⟨.inl rfl, rfl⟩ rfl (by simp [hw]) (formR (by simp) (by simp [low_hi])) (modR_i _ _ _) (dst_vec' (by simp [hw])) (srcBad_vec (by simp [hw])) (bFit_vec (by simp [hw])) (dm_vec (by simp [hw])) rfl (by simp [vChk, hw]) (by simp [Fields.vops, hd, ha, hb])

theorem Encodes.vshuf (o : VOps) : Encodes.Statement (.vshuf o) := by
  intro str f hw hf; cases hf
  simp only [Instr.wf, VOps.wf, Bool.and_eq_true] at hw
  have hs : str = .cx := by cases str <;> first | rfl | simp at hw
  subst hs
  have hd : o.d.okR = true := okR_vec (by simp [hw])
  have ha : o.a.coded = true := coded_vecReg (by simp [hw])
  have hb : o.b.codedL = true := codedL_vec (by simp [hw])
  exact dec_withB rfl rfl ⟨.inl rfl, rfl⟩ rfl (by simp [hw]) (formR (by simp) (by simp [low_hi])) (modR_i _ _ _) (dst_vec' (by simp [hw])) (srcBad_vecReg (by simp [hw])) (bFit_vec (by simp [hw])) (dm_vec (by simp [hw])) rfl (by simp [vChk, hw]) (by simp [Fields.vops, hd, ha, hb])

theorem Encodes.vrot (o : VOps) (dir : RotDir) : Encodes.Statement (.vrot o dir) := by
  intro str f hw hf; cases hf
  simp only [Instr.wf, VOps.wf, Bool.and_eq_true] at hw
  have hs : str = .cx := by cases str <;> first | rfl | simp at hw
  subst hs
  have hd : o.d.okR = true := okR_vec (by simp [hw])
  have ha : o.a.coded = true := coded_vecReg (by simp [hw])
  have hb : o.b.codedL = true := codedL_scalar (str := .cx) (by simp [hw])
  exact dec_withB rfl rfl ⟨.inl rfl, rfl⟩ rfl (by simp [hw]) (formR (by simp) (by simp [low_hi])) (modR_i _ _ _) (dst_vec' (by simp [hw])) (srcBad_vecReg (by simp [hw])) (bFit_scalar (by simp [hw])) (dm_vec (by simp [hw])) rfl (by simp [vChk, hw]) (by simp [Fields.vops, hd, ha, hb])

theorem Encodes.vext (o : VOps) (sel : LaneSel) : Encodes.Statement (.vext o sel) := by
  intro str f hw hf; cases hf
  simp only [Instr.wf, VOps.wf, Bool.and_eq_true] at hw
  have hs : str = .cx := by cases str <;> first | rfl | simp at hw
  subst hs
  have hq := hw
  simp only [beq_iff_eq, bne_iff_ne, ne_eq, decide_eq_true_eq, Bool.or_eq_true, Bool.not_eq_true', Bool.and_eq_true] at hq
  have hd : o.d.okR = true := okR_scalar (str := .cx) (by simp [hw])
  have ha : o.a.coded = true := coded_vecReg (by simp [hw])
  have hb : o.b.codedL = true := codedL_scalar (str := .cx) (by simp [hw])
  exact dec_withB rfl rfl ⟨.inl rfl, rfl⟩ rfl (by simp [hw]) (formR (by simp) (by simp [low_hi])) (modR_i _ _ _) (dst_scalar' (str := .cx) (by simp [hw])) (srcBad_vecReg (by simp [hw])) (bFit_scalar (by simp [hw])) (dm_scalar (by simp [hw])) rfl (by simp [vChk, hq]) (by simp [Fields.vops, hd, ha, hb])

theorem Encodes.vins (o : VOps) (sel : LaneSel) : Encodes.Statement (.vins o sel) := by
  intro str f hw hf; cases hf
  simp only [Instr.wf, VOps.wf, Bool.and_eq_true] at hw
  have hs : str = .cx := by cases str <;> first | rfl | simp at hw
  subst hs
  have hq := hw
  simp only [beq_iff_eq, bne_iff_ne, ne_eq, decide_eq_true_eq, Bool.or_eq_true, Bool.not_eq_true', Bool.and_eq_true] at hq
  have hd : o.d.okR = true := okR_vec (by simp [hw])
  have ha : o.a.coded = true := coded_scalar (str := .cx) (by simp [hw])
  have hb : o.b.codedL = true := codedL_scalar (str := .cx) (by simp [hw])
  exact dec_withB rfl rfl ⟨.inl rfl, rfl⟩ rfl (by simp [hw]) (formR (by simp) (by simp [low_hi])) (modR_i _ _ _) (dst_vec' (by simp [hw])) (srcBad_scalar (by simp [hw])) (bFit_scalar (by simp [hw])) (dm_vec (by simp [hw])) (rd_ok (by simp [hw])) (by simp [vChk, hq]) (by simp [Fields.vops, hd, ha, hb])

theorem Encodes.vcmp (o : VOps) (c : Cond) (int : Bool) (x : Bool) : Encodes.Statement (.vcmp o c int x) := by
  intro str f hw hf; cases hf
  simp only [Instr.wf, VOps.wf, Bool.and_eq_true] at hw
  have hs : str = .cx := by cases str <;> first | rfl | simp at hw
  subst hs
  have hq := hw
  simp only [beq_iff_eq, bne_iff_ne, ne_eq, decide_eq_true_eq, Bool.or_eq_true, Bool.not_eq_true', Bool.and_eq_true] at hq
  have hd : o.d.okK = true := okK_mask (by simp [hw])
  have ha : o.a.coded = true := coded_vec (by simp [hw])
  have hb : o.b.codedL = true := codedL_vec (by simp [hw])
  have hx := condX_lt hw.2
  have hy := condX_le hw.2
  exact dec_withB rfl rfl ⟨.inl rfl, rfl⟩ rfl (by simp [hw]) (formR (by simp) (by simp [low_hi])) (modR_i _ _ _) (dst_mask' (by simp [hw])) (srcBad_vec (by simp [hw])) (bFit_vec (by simp [hw])) (dm_mask (by simp [hw])) rfl (by simp [also, vChk]; exact ⟨by omega, hy⟩) (by simp [hd, ha, hb])

theorem Encodes.kand (g : Guard) (d : Dest) (ka : BitVec 4) (kb : BitVec 4) : Encodes.Statement (.kand g d ka kb) := by
  intro str f hw hf; cases hf
  simp only [Instr.wf, Bool.and_eq_true] at hw
  have hs : str = .cx := by cases str <;> first | rfl | simp at hw
  subst hs
  have hd : d.okK = true := okK_mask (by simp [hw])
  exact dec_mk rfl rfl rfl (by simp [hw]) (formR (by simp) (by simp [low_hi])) rfl (dst_mask' (by simp [hw])) (srcBad_mask _) (.inr (srcBad_mask _)) (dm_mask (by simp [hw])) rfl (by simp [also, vChk, hw]) (by simp [hd])

theorem Encodes.kor (g : Guard) (d : Dest) (ka : BitVec 4) (kb : BitVec 4) : Encodes.Statement (.kor g d ka kb) := by
  intro str f hw hf; cases hf
  simp only [Instr.wf, Bool.and_eq_true] at hw
  have hs : str = .cx := by cases str <;> first | rfl | simp at hw
  subst hs
  have hd : d.okK = true := okK_mask (by simp [hw])
  exact dec_mk rfl rfl rfl (by simp [hw]) (formR (by simp) (by simp [low_hi])) rfl (dst_mask' (by simp [hw])) (srcBad_mask _) (.inr (srcBad_mask _)) (dm_mask (by simp [hw])) rfl (by simp [also, vChk, hw]) (by simp [hd])

theorem Encodes.knot (g : Guard) (d : Dest) (ka : BitVec 4) : Encodes.Statement (.knot g d ka) := by
  intro str f hw hf; cases hf
  simp only [Instr.wf, Bool.and_eq_true] at hw
  have hs : str = .cx := by cases str <;> first | rfl | simp at hw
  subst hs
  have hd : d.okK = true := okK_mask (by simp [hw])
  exact dec_mk rfl rfl rfl (by simp [hw]) (formR (by simp) (by simp [low_hi])) rfl (dst_mask' (by simp [hw])) (srcBad_mask _) (.inr srcBad_zero) (dm_mask (by simp [hw])) rfl (by simp [also, vChk, hw]) (by simp [hd])

theorem Encodes.kpopc (g : Guard) (d : Dest) (ka : BitVec 4) (lw : Bool) (k : BitVec 4) : Encodes.Statement (.kpopc g d ka lw k) := by
  intro str f hw hf; cases hf
  simp only [Instr.wf, Bool.and_eq_true] at hw
  have hs : str = .cx := by cases str <;> first | rfl | simp at hw
  subst hs
  have hd : d.okR = true := okR_scalar (str := .cx) (by simp [hw])
  exact dec_mk rfl rfl rfl (by simp [hw]) (formR (by simp) (by simp [low_hi])) (modR_i _ _ _) (dst_scalar' (str := .cx) (by simp [hw])) (srcBad_mask _) (.inr srcBad_zero) (dm_scalar (by simp [hw])) rfl (by simp [vChk, hw]) (by simp [hd])

theorem Encodes.vcvt (o : ROps1) (k : BitVec 4) (c : VCvtKind) : Encodes.Statement (.vcvt o k c) := by
  intro str f hw hf; cases hf
  simp only [Instr.wf, ROps1.wf, Bool.and_eq_true] at hw
  have hs : str = .cx := by cases str <;> first | rfl | simp at hw
  subst hs
  have hd : o.d.okR = true := okR_vec (by simp [hw])
  have ha : o.a.coded = true := coded_vec (by simp [hw])
  exact dec_mk rfl rfl rfl (by simp [hw]) (formR (by simp) (by simp [low_hi])) (modR_i _ _ _) (dst_vec' (by simp [hw])) (srcBad_vec (by simp [hw])) (.inr srcBad_zero) (dm_vec (by simp [hw])) rfl (by cases c <;> simp [VCvtKind.codes] <;> split <;> simp) (by simp [Fields.rops1, hd, ha, vcvt_of])

theorem Encodes.vqnt (o : ROps) (k : BitVec 4) (f : QFmt) (r : Rnd) : Encodes.Statement (.vqnt o k f r) := by
  intro str f hw hf; cases hf
  simp only [Instr.wf, ROps.wf, Bool.and_eq_true] at hw
  have hs : str = .cx := by cases str <;> first | rfl | simp at hw
  subst hs
  have hd : o.d.okR = true := okR_vec (by simp [hw])
  have ha : o.a.coded = true := coded_vec (by simp [hw])
  have hb : o.b.codedL = true := codedL_vec (by simp [hw])
  exact dec_withB rfl rfl ⟨.inl rfl, rfl⟩ rfl (by simp [hw]) (formR (by simp) (by simp [low_hi])) (modR_i _ _ _) (dst_vec' (by simp [hw])) (srcBad_vec (by simp [hw])) (bFit_vec (by simp [hw])) (dm_vec (by simp [hw])) rfl (by simp [hw]) (by simp [hd, ha, hb])

theorem Encodes.vdq (o : ROps) (k : BitVec 4) (f : QFmt) : Encodes.Statement (.vdq o k f) := by
  intro str f hw hf; cases hf
  simp only [Instr.wf, ROps.wf, Bool.and_eq_true] at hw
  have hs : str = .cx := by cases str <;> first | rfl | simp at hw
  subst hs
  have hd : o.d.okR = true := okR_vec (by simp [hw])
  have ha : o.a.coded = true := coded_vec (by simp [hw])
  have hb : o.b.codedL = true := codedL_vec (by simp [hw])
  exact dec_withB rfl rfl ⟨.inl rfl, rfl⟩ rfl (by simp [hw]) (formR (by simp) (by simp [low_hi])) (modR_i _ _ _) (dst_vec' (by simp [hw])) (srcBad_vec (by simp [hw])) (bFit_vec (by simp [hw])) (dm_vec (by simp [hw])) rfl (by simp [hw]) (by simp [hd, ha, hb])

theorem Encodes.vbmax (o : ROps1) (k : BitVec 4) (f : QFmt) : Encodes.Statement (.vbmax o k f) := by
  intro str f hw hf; cases hf
  simp only [Instr.wf, ROps1.wf, Bool.and_eq_true] at hw
  have hs : str = .cx := by cases str <;> first | rfl | simp at hw
  subst hs
  have hd : o.d.okR = true := okR_vec (by simp [hw])
  have ha : o.a.coded = true := coded_vec (by simp [hw])
  exact dec_mk rfl rfl rfl (by simp [hw]) (formR (by simp) (by simp [low_hi])) (modR_i _ _ _) (dst_vec' (by simp [hw])) (srcBad_vec (by simp [hw])) (.inr srcBad_zero) (dm_vec (by simp [hw])) rfl (by simp [hw]) (by simp [Fields.rops1, hd, ha])

theorem Encodes.vred (g : Guard) (a : Src) (lw : Bool) (k : BitVec 4) (rl : BitVec 2) (op : RedOp) (int : Bool) : Encodes.Statement (.vred g a lw k rl op int) := by
  intro str f hw hf; cases hf
  simp only [Instr.wf, Bool.and_eq_true] at hw
  have hs : str = .cx := by cases str <;> first | rfl | simp at hw
  subst hs
  have ha : a.coded = true := coded_vec (by simp [hw])
  exact dec_mk rfl rfl rfl (by simp [hw]) (formR (by simp) (by simp [low_hi])) (modR_i _ _ _) dst_zero (srcBad_vec (by simp [hw])) (.inr srcBad_zero) dm_none rfl (by simp [also, vChk, hw]) (by simp [ha])

theorem Encodes.vredLanding (_core : Nat) : Encodes.Statement (.vredLanding _core) := fun _ _ _ h => nomatch h

theorem Encodes.vrmov (g : Guard) (d : Dest) (rl : BitVec 2) (clr : Option ClrVal) : Encodes.Statement (.vrmov g d rl clr) := by
  intro str f hw hf; cases hf
  simp only [Instr.wf, Bool.and_eq_true] at hw
  have hs : str = .cx := by cases str <;> first | rfl | simp at hw
  subst hs
  have hd : d.okR = true := okR_scalar (str := .cx) (by simp [hw])
  cases clr <;> exact dec_mk rfl rfl rfl (by simp [hw]) (formR (by simp) (by simp [low_hi])) (modR_i _ _ _) (dst_scalar' (str := .cx) (by simp [hw])) srcBad_zero (.inr srcBad_zero) (dm_scalar (by simp [hw])) rfl (by simp [clr2_bits]) (by simp [hd, clr2_bits])

theorem Encodes.vscan (o : VOps1) (op : RedOp) (int : Bool) (excl : Bool) : Encodes.Statement (.vscan o op int excl) := by
  intro str f hw hf; cases hf
  simp only [Instr.wf, VOps1.wf, Bool.and_eq_true] at hw
  have hs : str = .cx := by cases str <;> first | rfl | simp at hw
  subst hs
  have hd : o.d.okR = true := okR_vec (by simp [hw])
  have ha : o.a.coded = true := coded_vec (by simp [hw])
  exact dec_mk rfl rfl rfl (by simp [hw]) (formR (by simp) (by simp [low_hi])) (modR_i _ _ _) (dst_vec' (by simp [hw])) (srcBad_vec (by simp [hw])) (.inr srcBad_zero) (dm_vec (by simp [hw])) rfl (by simp [vChk, hw]) (by simp [Fields.vops1, hd, ha])

theorem Encodes.vsfu (o : VOps1) (f : SfuFn) : Encodes.Statement (.vsfu o f) := by
  intro str f hw hf; cases hf
  simp only [Instr.wf, VOps1.wf, Bool.and_eq_true] at hw
  have hs : str = .cx := by cases str <;> first | rfl | simp at hw
  subst hs
  have hd : o.d.okR = true := okR_vec (by simp [hw])
  have ha : o.a.coded = true := coded_vec (by simp [hw])
  exact dec_mk rfl rfl rfl (by simp [hw]) (formR (by simp) (by simp [low_hi])) (modR_i _ _ _) (dst_vec' (by simp [hw])) (srcBad_vec (by simp [hw])) (.inr srcBad_zero) (dm_vec (by simp [hw])) rfl (by simp [vChk, hw]) (by simp [Fields.vops1, hd, ha])

theorem Encodes.vsmax (o : VOps1) : Encodes.Statement (.vsmax o) := by
  intro str f hw hf; cases hf
  simp only [Instr.wf, VOps1.wf, Bool.and_eq_true] at hw
  have hs : str = .cx := by cases str <;> first | rfl | simp at hw
  subst hs
  have hd : o.d.okR = true := okR_vec (by simp [hw])
  have ha : o.a.coded = true := coded_vec (by simp [hw])
  exact dec_mk rfl rfl rfl (by simp [hw]) (formR (by simp) (by simp [low_hi])) (modR_i _ _ _) (dst_vec' (by simp [hw])) (srcBad_vec (by simp [hw])) (.inr srcBad_zero) (dm_vec (by simp [hw])) rfl (by simp [vChk, hw]) (by simp [Fields.vops1, hd, ha])

theorem Encodes.vrng (g : Guard) (d : Dest) (unif : Bool) (lw : Bool) (k : BitVec 4) : Encodes.Statement (.vrng g d unif lw k) := by
  intro str f hw hf; cases hf
  simp only [Instr.wf, Bool.and_eq_true] at hw
  have hs : str = .cx := by cases str <;> first | rfl | simp at hw
  subst hs
  have hd : d.okR = true := okR_vec (by simp [hw])
  exact dec_mk rfl rfl rfl (by simp [hw]) (formR (by simp) (by simp [low_hi])) (modR_i _ _ _) (dst_vec' (by simp [hw])) srcBad_zero (.inr srcBad_zero) (dm_vec (by simp [hw])) rfl (by simp [vChk, hw]) (by simp [hd])

theorem Encodes.noiseGrant (_bay : Nat) : Encodes.Statement (.noiseGrant _bay) := fun _ _ _ h => nomatch h

theorem Encodes.resultDelivery (_core : Nat) (_str : Strm) : Encodes.Statement (.resultDelivery _core _str) := fun _ _ _ h => nomatch h

theorem Encodes.lease (g : Guard) (nb : Option (BitVec 3)) : Encodes.Statement (.lease g nb) := by
  intro str f hw hf; cases hf
  simp only [Instr.wf, Bool.and_eq_true] at hw
  have hs : str = .cx := by cases str <;> first | rfl | simp at hw
  subst hs
  have hq := hw
  simp only [beq_iff_eq, bne_iff_ne, ne_eq, decide_eq_true_eq, Bool.or_eq_true, Bool.not_eq_true', Bool.and_eq_true] at hq
  exact dec_withB' rfl rfl rfl rfl (by simp [hw]) formC rfl dst_zeroBy srcBad_zeroBy srcBad_zeroBy dm_none rfl (by simp [also, cChk]; have h := hw.2; revert h; cases nb <;> simp [leaseNb]) (by simp [Fields.nbp, nb_pair])

theorem Encodes.leaseGrant (_bay : Nat) : Encodes.Statement (.leaseGrant _bay) := fun _ _ _ h => nomatch h

theorem Encodes.lrel (g : Guard) : Encodes.Statement (.lrel g) := by
  intro str f hw hf; cases hf
  simp only [Instr.wf, Bool.and_eq_true] at hw
  have hs : str = .cx := by cases str <;> first | rfl | simp at hw
  subst hs
  exact dec_withB' rfl rfl rfl rfl (by simp [hw]) formC rfl dst_zeroBy srcBad_zeroBy srcBad_zeroBy dm_none rfl (by simp [cChk, hw]) (by simp)

theorem Encodes.mma (o : MmaOps) : Encodes.Statement (.mma o) := by
  intro str f hw hf; cases hf
  simp only [Instr.wf, Bool.and_eq_true] at hw
  have hs : str = .cx := by cases str <;> first | rfl | simp at hw
  subst hs
  obtain ⟨g, sel, acc, a, b, ta, tb, ks⟩ := o
  have ha : a.coded = true := coded_arr (by simp [hw])
  have hb : b.coded = true := coded_arr (by simp [hw])
  cases sel <;> exact dec_mk rfl rfl rfl (by simp [hw]) (by simp [formBad]) rfl (dst_acc _) (srcBad_arr (by simp [hw])) (.inr (srcBad_arr (by simp [hw]))) dm_none rfl (by simp) (by simp [Fields.mmaops, Fields.sel, ha, hb])

theorem Encodes.mmas (o : MmasOps) : Encodes.Statement (.mmas o) := by
  intro str f hw hf; cases hf
  simp only [Instr.wf, Bool.and_eq_true] at hw
  have hs : str = .cx := by cases str <;> first | rfl | simp at hw
  subst hs
  obtain ⟨g, sel, acc, a, b, tb, sp, ks⟩ := o
  have ha : a.coded = true := coded_arr (by simp [hw])
  have hb : b.coded = true := coded_arr (by simp [hw])
  cases sel <;> exact dec_mk rfl rfl rfl (by simp [hw]) (by simp [formBad]) rfl (dst_acc _) (srcBad_arr (by simp [hw])) (.inr (srcBad_arr (by simp [hw]))) dm_none rfl (by simpa using hw.2) (by simp [Fields.mmasops, Fields.sel, ha, hb])

theorem Encodes.mzero (g : Guard) (acc : Bool) : Encodes.Statement (.mzero g acc) := by
  intro str f hw hf; cases hf
  simp only [Instr.wf, Bool.and_eq_true] at hw
  have hs : str = .cx := by cases str <;> first | rfl | simp at hw
  subst hs
  exact dec_mk rfl rfl rfl (by simp [hw]) (by simp [formBad]) rfl (dst_acc _) srcBad_zero (.inr srcBad_zero) dm_none rfl (by simp [hw]) (by simp)

theorem Encodes.kStepEntry (_bay : Nat) : Encodes.Statement (.kStepEntry _bay) := fun _ _ _ h => nomatch h

theorem Encodes.sparsityStallTimeout (_bay : Nat) : Encodes.Statement (.sparsityStallTimeout _bay) := fun _ _ _ h => nomatch h

theorem Encodes.arrayCommandComplete (_core : Nat) : Encodes.Statement (.arrayCommandComplete _core) := fun _ _ _ h => nomatch h

theorem Encodes.mfmt (g : Guard) (n : BitVec 4) (b : Src) : Encodes.Statement (.mfmt g n b) := by
  intro str f hw hf; cases hf
  simp only [Instr.wf, Bool.and_eq_true] at hw
  have hs : str = .cx := by cases str <;> first | rfl | simp at hw
  subst hs
  have hb : b.codedL = true := codedL_scalar (str := .cx) (by simp [hw])
  exact dec_withB rfl rfl ⟨.inr (.inr rfl), rfl⟩ rfl (by simp [hw]) formC rfl dst_zeroBy srcBad_zeroBy (bFit_scalar (by simp [hw])) dm_none rfl (by simp [cChk, hw]) (by simp [hb])

theorem Encodes.mscl (g : Guard) (n : BitVec 3) (flt : Bool) (b : Src) : Encodes.Statement (.mscl g n flt b) := by
  intro str f hw hf; cases hf
  simp only [Instr.wf, Bool.and_eq_true] at hw
  have hs : str = .cx := by cases str <;> first | rfl | simp at hw
  subst hs
  have hb : b.codedL = true := codedL_scalar (str := .cx) (by simp [hw])
  exact dec_withB rfl rfl ⟨.inr (.inr rfl), rfl⟩ rfl (by simp [hw]) formC rfl dst_zeroBy srcBad_zeroBy (bFit_scalar (by simp [hw])) dm_none rfl (by simp [cChk, mscl_bits]) (by simp [hb, mscl_bits])

theorem Encodes.msq (g : Guard) (n : BitVec 2) (a : Src) (b : Src) : Encodes.Statement (.msq g n a b) := by
  intro str f hw hf; cases hf
  simp only [Instr.wf, Bool.and_eq_true] at hw
  have hs : str = .cx := by cases str <;> first | rfl | simp at hw
  subst hs
  have ha : a.coded = true := coded_scalar (str := .cx) (by simp [hw])
  have hb : b.coded = true := coded_data (by simp [hw])
  exact dec_withB' rfl rfl hb rfl (by simp [hw]) formC rfl dst_zeroBy (srcBad_scalar (by simp [hw])) (srcBad_data (by simp [hw])) dm_none rfl (by simp [cChk, hw]) (by simp [ha, hb])

theorem Encodes.mret (g : Guard) (d : Dest) (ctr : BitVec 4) (acc : Bool) (a : Src) (b : Src) : Encodes.Statement (.mret g d ctr acc a b) := by
  intro str f hw hf; cases hf
  simp only [Instr.wf, Bool.and_eq_true] at hw
  have hs : str = .cx := by cases str <;> first | rfl | simp at hw
  subst hs
  have hd : d.okR = true := okR_scalar (str := .cx) (by simp [hw])
  have ha : a.coded = true := coded_scalar (str := .cx) (by simp [hw])
  have hb : b.coded = true := coded_scalar (str := .cx) (by simp [hw])
  exact dec_withB' rfl rfl hb rfl (by simp [hw]) formC rfl (dst_scalar' (str := .cx) (by simp [hw])) (srcBad_scalar (by simp [hw])) (srcBad_scalar (by simp [hw])) (dm_scalar (by simp [hw])) rfl (by simp [hw]) (by simp [hd, ha, hb])

theorem Encodes.retirementStart (_core : Nat) : Encodes.Statement (.retirementStart _core) := fun _ _ _ h => nomatch h

theorem Encodes.retirementComplete (_core : Nat) : Encodes.Statement (.retirementComplete _core) := fun _ _ _ h => nomatch h

theorem Encodes.wcsld (o : COps) (n : BitVec 8) : Encodes.Statement (.wcsld o n) := by
  intro str f hw hf; cases hf
  simp only [Instr.wf, COps.wf, Bool.and_eq_true] at hw
  have hs : str = .sc := by cases str <;> first | rfl | simp at hw
  subst hs
  have hd : o.d.okR = true := okR_scalar (str := .sc) (by simp [hw])
  have ha : o.a.coded = true := coded_scalar (str := .sc) (by simp [hw])
  have hb : o.b.codedL = true := codedL_scalar (str := .sc) (by simp [hw])
  exact dec_withB rfl rfl ⟨.inr (.inr rfl), rfl⟩ rfl (by simp [hw]) formC rfl (dst_scalar' (str := .sc) (by simp [hw])) (srcBad_scalar (by simp [hw])) (bFit_scalar (by simp [hw])) (dm_scalar (by simp [hw])) rfl (by simp [cChk, hw]; exact nb_pd) (by simp [Fields.cops, Fields.nbp, hd, ha, hb, nb_pair])

theorem Encodes.wbind (g : Guard) (a : Src) (b : Src) : Encodes.Statement (.wbind g a b) := by
  intro str f hw hf; cases hf
  simp only [Instr.wf, Bool.and_eq_true] at hw
  have hs : str = .sc := by cases str <;> first | rfl | simp at hw
  subst hs
  have ha : a.coded = true := coded_scalar (str := .sc) (by simp [hw])
  have hb : b.codedL = true := codedL_scalar (str := .sc) (by simp [hw])
  exact dec_withB rfl rfl ⟨.inr (.inr rfl), rfl⟩ rfl (by simp [hw]) formC rfl dst_zeroBy (srcBad_scalar (by simp [hw])) (bFit_scalar (by simp [hw])) dm_none rfl (by simp [cChk, hw]) (by simp [ha, hb])

theorem Encodes.wunb (g : Guard) (all : Bool) (a : Src) : Encodes.Statement (.wunb g all a) := by
  intro str f hw hf; cases hf
  simp only [Instr.wf, Bool.and_eq_true] at hw
  have hs : str = .sc := by cases str <;> first | rfl | simp at hw
  subst hs
  have hq := hw
  simp only [beq_iff_eq, bne_iff_ne, ne_eq, decide_eq_true_eq, Bool.or_eq_true, Bool.not_eq_true', Bool.and_eq_true] at hq
  have ha : a.coded = true := coded_scalar (str := .sc) (by simp [hw])
  exact dec_withB' rfl rfl rfl rfl (by simp [hw]) formC rfl dst_zeroBy (srcBad_scalar (by simp [hw])) srcBad_zeroBy dm_none rfl (by simp [also, cChk]; rintro rfl; exact code_s0 (by simpa using hw.2)) (by simp [ha])

theorem Encodes.wcsrd (g : Guard) (a : Src) (b : Src) (n : BitVec 8) : Encodes.Statement (.wcsrd g a b n) := by
  intro str f hw hf; cases hf
  simp only [Instr.wf, Bool.and_eq_true] at hw
  have hs : str = .sc := by cases str <;> first | rfl | simp at hw
  subst hs
  have ha : a.coded = true := coded_scalar (str := .sc) (by simp [hw])
  have hb : b.codedL = true := codedL_scalar (str := .sc) (by simp [hw])
  exact dec_withB rfl rfl ⟨.inr (.inr rfl), rfl⟩ rfl (by simp [hw]) formC rfl dst_zeroBy (srcBad_scalar (by simp [hw])) (bFit_scalar (by simp [hw])) dm_none rfl (by simp [cChk, hw]) (by simp [ha, hb])

theorem Encodes.wstat (g : Guard) (d : Dest) (b : Src) (sel : BitVec 2) : Encodes.Statement (.wstat g d b sel) := by
  intro str f hw hf; cases hf
  simp only [Instr.wf, Bool.and_eq_true] at hw
  have hs : str = .sc := by cases str <;> first | rfl | simp at hw
  subst hs
  have hq := hw
  simp only [beq_iff_eq, bne_iff_ne, ne_eq, decide_eq_true_eq, Bool.or_eq_true, Bool.not_eq_true', Bool.and_eq_true] at hq
  have hd : d.okR = true := okR_scalar (str := .sc) (by simp [hw])
  have hb : b.coded = true := coded_scalar (str := .sc) (by simp [hw])
  exact dec_withB' rfl rfl hb rfl (by simp [hw]) formC rfl (dst_scalar' (str := .sc) (by simp [hw])) srcBad_zeroBy (srcBad_scalar (by simp [hw])) (dm_scalar (by simp [hw])) rfl (by have h := wstat_bits sel; simp [also, cChk, h]; exact ⟨hq.1.2, fun n => hq.2.elim (fun e => absurd e n) (fun e => by rw [e]; rfl)⟩) (by simp [hd, hb])

theorem Encodes.customOpcode (o : CustomOps) : Encodes.Statement (.customOpcode o) := by
  intro str f hw hf; cases hf
  simp only [Instr.wf, Bool.and_eq_true, decide_eq_true_eq, Bool.or_eq_true, beq_iff_eq, Bool.not_eq_true'] at hw
  obtain ⟨⟨⟨⟨rfl, hg⟩, hm⟩, hd⟩, hl⟩ := hw
  rw [custom_row (f := ⟨o.major, o.sub, o.g.code, o.dmask, o.lit.isSome, false, o.dst, o.srca, o.srcb, o.mod, o.lit.getD 0⟩) hm rfl (guard_code hg) hd]
  · obtain ⟨mj, sb, g, dm, dst, sa, sb', md, lit⟩ := o
    cases lit <;> simp [Fields.custom, guard_fields]
  · rcases hl with h | h <;> simp [h]

theorem Encodes.microStep (_core : Nat) : Encodes.Statement (.microStep _core) := fun _ _ _ h => nomatch h

theorem Encodes.pageFetch (_core : Nat) : Encodes.Statement (.pageFetch _core) := fun _ _ _ h => nomatch h

theorem Encodes.ltag (o : COps) : Encodes.Statement (.ltag o) := by
  intro str f hw hf; cases hf
  simp only [Instr.wf, COps.wf, Bool.and_eq_true] at hw
  have hs : str = .sc := by cases str <;> first | rfl | simp at hw
  subst hs
  have hq := hw
  simp only [beq_iff_eq, bne_iff_ne, ne_eq, decide_eq_true_eq, Bool.or_eq_true, Bool.not_eq_true', Bool.and_eq_true] at hq
  have hd : o.d.okR = true := okR_scalar (str := .sc) (by simp [hw])
  have hb : o.b.codedL = true := codedL_scalar (str := .sc) (by simp [hw])
  exact dec_withB rfl rfl ⟨.inr (.inr rfl), rfl⟩ rfl (by simp [hw]) formC rfl (dst_scalar' (str := .sc) (by simp [hw])) srcBad_zeroBy (bFit_scalar (by simp [hw])) (dm_scalar (by simp [hw])) rfl (by simp [cChk, hq]; exact nb_pd) (by have e : o.a = .s 0 := by { simpa using hw.2 }; have e2 : (⟨o.g, o.d, .s 0, o.b, o.nb⟩ : COps) = o := by { rw [← e] }; simp [Fields.nbp, hd, hb, nb_pair]; exact e2)

theorem Encodes.lfree (g : Guard) (a : Src) : Encodes.Statement (.lfree g a) := by
  intro str f hw hf; cases hf
  simp only [Instr.wf, Bool.and_eq_true] at hw
  have hs : str = .sc := by cases str <;> first | rfl | simp at hw
  subst hs
  have ha : a.coded = true := coded_scalar (str := .sc) (by simp [hw])
  exact dec_withB' rfl rfl rfl rfl (by simp [hw]) formC rfl dst_zeroBy (srcBad_scalar (by simp [hw])) srcBad_zeroBy dm_none rfl (by simp [cChk, hw]) (by simp [ha])

theorem Encodes.ldesc (g : Guard) (a : Src) (b : Src) : Encodes.Statement (.ldesc g a b) := by
  intro str f hw hf; cases hf
  simp only [Instr.wf, Bool.and_eq_true] at hw
  have hs : str = .sc := by cases str <;> first | rfl | simp at hw
  subst hs
  have ha : a.coded = true := coded_scalar (str := .sc) (by simp [hw])
  have hb : b.codedL = true := codedL_scalar (str := .sc) (by simp [hw])
  exact dec_withB rfl rfl ⟨.inr (.inr rfl), rfl⟩ rfl (by simp [hw]) formC rfl dst_zeroBy (srcBad_scalar (by simp [hw])) (bFit_scalar (by simp [hw])) dm_none rfl (by simp [cChk, hw]) (by simp [ha, hb])

theorem Encodes.lsend (g : Guard) (row : BitVec 7) (b : Src) (nb : Option (BitVec 3)) : Encodes.Statement (.lsend g row b nb) := by
  intro str f hw hf; cases hf
  simp only [Instr.wf, Bool.and_eq_true] at hw
  have hs : str = .cx := by cases str <;> first | rfl | simp at hw
  subst hs
  have hq := hw
  simp only [beq_iff_eq, bne_iff_ne, ne_eq, decide_eq_true_eq, Bool.or_eq_true, Bool.not_eq_true', Bool.and_eq_true] at hq
  have hb : b.codedL = true := codedL_scalar (str := .cx) (by simp [hw])
  exact dec_withB rfl rfl ⟨.inr (.inr rfl), rfl⟩ rfl (by simp [hw]) formC rfl dst_zeroBy srcBad_raw (bFit_scalar (by simp [hw])) dm_none rfl (by have h := lsend_bits row; simp [also, cChk, h]; exact ⟨nb_pd, h.2.2 (by simpa using hq.1.2)⟩) (by have h := lsend_bits row; simp [Fields.nbp, hb, nb_pair, h])

theorem Encodes.lstat (g : Guard) (d : Dest) (a : Src) : Encodes.Statement (.lstat g d a) := by
  intro str f hw hf; cases hf
  simp only [Instr.wf, Bool.and_eq_true] at hw
  have hs : str = .sc := by cases str <;> first | rfl | simp at hw
  subst hs
  have hd : d.okR = true := okR_scalar (str := .sc) (by simp [hw])
  have ha : a.coded = true := coded_scalar (str := .sc) (by simp [hw])
  exact dec_withB' rfl rfl rfl rfl (by simp [hw]) formC rfl (dst_scalar' (str := .sc) (by simp [hw])) (srcBad_scalar (by simp [hw])) srcBad_zeroBy (dm_scalar (by simp [hw])) rfl (by simp [cChk, hw]) (by simp [hd, ha])

theorem Encodes.lorph (g : Guard) (d : Dest) (a : Src) : Encodes.Statement (.lorph g d a) := by
  intro str f hw hf; cases hf
  simp only [Instr.wf, Bool.and_eq_true] at hw
  have hs : str = .sc := by cases str <;> first | rfl | simp at hw
  subst hs
  have hd : d.okR = true := okR_scalar (str := .sc) (by simp [hw])
  have ha : a.coded = true := coded_scalar (str := .sc) (by simp [hw])
  exact dec_withB' rfl rfl rfl rfl (by simp [hw]) formC rfl (dst_scalar' (str := .sc) (by simp [hw])) (srcBad_scalar (by simp [hw])) srcBad_zeroBy (dm_scalar (by simp [hw])) rfl (by simp [cChk, hw]) (by simp [hd, ha])

theorem Encodes.fragmentArrival (_id : Nat) : Encodes.Statement (.fragmentArrival _id) := fun _ _ _ h => nomatch h

theorem Encodes.fragmentAnswer (_id : Nat) : Encodes.Statement (.fragmentAnswer _id) := fun _ _ _ h => nomatch h

theorem Encodes.fragmentResend (_id : Nat) : Encodes.Statement (.fragmentResend _id) := fun _ _ _ h => nomatch h

theorem Encodes.overflowReadback (_id : Nat) : Encodes.Statement (.overflowReadback _id) := fun _ _ _ h => nomatch h

theorem Encodes.landingDelivery (_id : Nat) : Encodes.Statement (.landingDelivery _id) := fun _ _ _ h => nomatch h

theorem Encodes.orphanTimeout (_id : Nat) : Encodes.Statement (.orphanTimeout _id) := fun _ _ _ h => nomatch h

theorem Encodes.cego (o : CtrOps) : Encodes.Statement (.cego o) := by
  intro str f hw hf; cases hf
  simp only [Instr.wf, CtrOps.wf, Bool.and_eq_true] at hw
  have hs : str = .sc := by cases str <;> first | rfl | simp at hw
  subst hs
  have hd : o.d.okR = true := okR_scalar (str := .sc) (by simp [hw])
  have ha : o.a.coded = true := coded_scalar (str := .sc) (by simp [hw])
  have hb : o.b.codedL = true := codedL_scalar (str := .sc) (by simp [hw])
  exact dec_withB rfl rfl ⟨.inr (.inr rfl), rfl⟩ rfl (by simp [hw]) formC rfl (dst_scalar' (str := .sc) (by simp [hw])) (srcBad_scalar (by simp [hw])) (bFit_scalar (by simp [hw])) (dm_scalar (by simp [hw])) rfl (by simp [cChk, hw]; exact nb_pd) (by simp [Fields.ctrops, Fields.nbp, hd, ha, hb, nb_pair])

theorem Encodes.cestop (g : Guard) : Encodes.Statement (.cestop g) := by
  intro str f hw hf; cases hf
  simp only [Instr.wf, Bool.and_eq_true] at hw
  have hs : str = .sc := by cases str <;> first | rfl | simp at hw
  subst hs
  exact dec_withB' rfl rfl rfl rfl (by simp [hw]) formC rfl dst_zeroBy srcBad_zeroBy srcBad_zeroBy dm_none rfl (by simp [cChk, hw]) (by simp)

theorem Encodes.cestat (g : Guard) (d : Dest) : Encodes.Statement (.cestat g d) := by
  intro str f hw hf; cases hf
  simp only [Instr.wf, Bool.and_eq_true] at hw
  have hs : str = .sc := by cases str <;> first | rfl | simp at hw
  subst hs
  have hd : d.okR = true := okR_scalar (str := .sc) (by simp [hw])
  exact dec_withB' rfl rfl rfl rfl (by simp [hw]) formC rfl (dst_scalar' (str := .sc) (by simp [hw])) srcBad_zeroBy srcBad_zeroBy (dm_scalar (by simp [hw])) rfl (by simp [cChk, hw]) (by simp [hd])

theorem Encodes.chainCopy (_core : Nat) : Encodes.Statement (.chainCopy _core) := fun _ _ _ h => nomatch h

theorem Encodes.chainLoop (_core : Nat) : Encodes.Statement (.chainLoop _core) := fun _ _ _ h => nomatch h

theorem Encodes.chainIf (_core : Nat) : Encodes.Statement (.chainIf _core) := fun _ _ _ h => nomatch h

theorem Encodes.chainWait (_core : Nat) : Encodes.Statement (.chainWait _core) := fun _ _ _ h => nomatch h

theorem Encodes.chainSignal (_core : Nat) : Encodes.Statement (.chainSignal _core) := fun _ _ _ h => nomatch h

theorem Encodes.chainNotify (_core : Nat) : Encodes.Statement (.chainNotify _core) := fun _ _ _ h => nomatch h

theorem Encodes.chainEnd (_core : Nat) : Encodes.Statement (.chainEnd _core) := fun _ _ _ h => nomatch h

theorem Encodes.ctab (g : Guard) (a : Src) (b : Src) : Encodes.Statement (.ctab g a b) := by
  intro str f hw hf; cases hf
  simp only [Instr.wf, Bool.and_eq_true] at hw
  have hs : str = .sc := by cases str <;> first | rfl | simp at hw
  subst hs
  have ha : a.coded = true := coded_scalar (str := .sc) (by simp [hw])
  have hb : b.codedL = true := codedL_scalar (str := .sc) (by simp [hw])
  exact dec_withB rfl rfl ⟨.inr (.inr rfl), rfl⟩ rfl (by simp [hw]) formC rfl dst_zeroBy (srcBad_scalar (by simp [hw])) (bFit_scalar (by simp [hw])) dm_none rfl (by simp [cChk, hw]) (by simp [ha, hb])

theorem Encodes.ctile (g : Guard) (d : Dest) (ctr : BitVec 4) (a : Src) (b : Src) : Encodes.Statement (.ctile g d ctr a b) := by
  intro str f hw hf; cases hf
  simp only [Instr.wf, Bool.and_eq_true] at hw
  have hs : str = .sc := by cases str <;> first | rfl | simp at hw
  subst hs
  have hd : d.okR = true := okR_scalar (str := .sc) (by simp [hw])
  have ha : a.coded = true := coded_scalar (str := .sc) (by simp [hw])
  have hb : b.codedL = true := codedL_scalar (str := .sc) (by simp [hw])
  exact dec_withB rfl rfl ⟨.inr (.inr rfl), rfl⟩ rfl (by simp [hw]) formC rfl (dst_scalar' (str := .sc) (by simp [hw])) (srcBad_scalar (by simp [hw])) (bFit_scalar (by simp [hw])) (dm_scalar (by simp [hw])) rfl (by simp [cChk, hw]) (by simp [hd, ha, hb])

theorem Encodes.tileFireComplete (_ctx : Nat) (_tile : Nat) : Encodes.Statement (.tileFireComplete _ctx _tile) := fun _ _ _ h => nomatch h

theorem Encodes.cringSet (g : Guard) (a : Src) (b : Src) : Encodes.Statement (.cringSet g a b) := by
  intro str f hw hf; cases hf
  simp only [Instr.wf, Bool.and_eq_true] at hw
  have hs : str = .sc := by cases str <;> first | rfl | simp at hw
  subst hs
  have ha : a.coded = true := coded_scalar (str := .sc) (by simp [hw])
  have hb : b.codedL = true := codedL_scalar (str := .sc) (by simp [hw])
  exact dec_withB rfl rfl ⟨.inr (.inr rfl), rfl⟩ rfl (by simp [hw]) formC rfl rfl (srcBad_scalar (by simp [hw])) (bFit_scalar (by simp [hw])) (dm_scalar rfl) rfl (by simp [also, cChk, formDst, hw]) (by simp [ha, hb])

theorem Encodes.cringDone (g : Guard) (d : Dest) (a : Src) : Encodes.Statement (.cringDone g d a) := by
  intro str f hw hf; cases hf
  simp only [Instr.wf, Bool.and_eq_true] at hw
  have hs : str = .sc := by cases str <;> first | rfl | simp at hw
  subst hs
  have hd : d.okR = true := okR_scalar (str := .sc) (by simp [hw])
  have ha : a.coded = true := coded_scalar (str := .sc) (by simp [hw])
  exact dec_withB rfl rfl ⟨.inr (.inr rfl), rfl⟩ rfl (by simp [hw]) formC rfl rfl (srcBad_scalar (by simp [hw])) (bFit_scalar rfl) (dm_scalar (by simp [hw])) rfl (by simp [also, cChk, hw]; exact formDst_scalar (d := d) (str := .sc) (by simp [hw]) (by simp) (by simp)) (by simp [hd, ha])

theorem Encodes.cringStat (g : Guard) (d : Dest) (a : Src) : Encodes.Statement (.cringStat g d a) := by
  intro str f hw hf; cases hf
  simp only [Instr.wf, Bool.and_eq_true] at hw
  have hs : str = .sc := by cases str <;> first | rfl | simp at hw
  subst hs
  have hd : d.okR = true := okR_scalar (str := .sc) (by simp [hw])
  have ha : a.coded = true := coded_scalar (str := .sc) (by simp [hw])
  exact dec_withB rfl rfl ⟨.inr (.inr rfl), rfl⟩ rfl (by simp [hw]) formC rfl rfl (srcBad_scalar (by simp [hw])) (bFit_scalar rfl) (dm_scalar (by simp [hw])) rfl (by simp [also, cChk, hw]; exact formDst_scalar (d := d) (str := .sc) (by simp [hw]) (by simp) (by simp)) (by simp [hd, ha])

theorem Encodes.rslotReq (g : Guard) (d : Dest) (a : Src) (b : Src) : Encodes.Statement (.rslotReq g d a b) := by
  intro str f hw hf; cases hf
  simp only [Instr.wf, Bool.and_eq_true] at hw
  have hs : str = .sc := by cases str <;> first | rfl | simp at hw
  subst hs
  have hd : d.okR = true := okR_scalar (str := .sc) (by simp [hw])
  have ha : a.coded = true := coded_scalar (str := .sc) (by simp [hw])
  have hb : b.codedL = true := codedL_scalar (str := .sc) (by simp [hw])
  exact dec_withB rfl rfl ⟨.inr (.inr rfl), rfl⟩ rfl (by simp [hw]) formC rfl rfl (srcBad_scalar (by simp [hw])) (bFit_scalar (by simp [hw])) (dm_scalar (by simp [hw])) rfl (by simp [also, cChk, hw]; exact formDst_scalar (d := d) (str := .sc) (by simp [hw]) (by simp) (by simp)) (by simp [hd, ha, hb])

theorem Encodes.rslotRel (g : Guard) (a : Src) : Encodes.Statement (.rslotRel g a) := by
  intro str f hw hf; cases hf
  simp only [Instr.wf, Bool.and_eq_true] at hw
  have hs : str = .sc := by cases str <;> first | rfl | simp at hw
  subst hs
  have ha : a.coded = true := coded_scalar (str := .sc) (by simp [hw])
  exact dec_withB rfl rfl ⟨.inr (.inr rfl), rfl⟩ rfl (by simp [hw]) formC rfl rfl (srcBad_scalar (by simp [hw])) (bFit_scalar rfl) (dm_scalar rfl) rfl (by simp [also, cChk, formDst, hw]) (by simp [ha])

theorem Encodes.rslotAnswer (_ctx : Nat) (_ch : Nat) (_slot : Option (BitVec 16)) : Encodes.Statement (.rslotAnswer _ctx _ch _slot) := fun _ _ _ h => nomatch h

theorem Encodes.stepSend (_ctx : Nat) (_ch : Nat) : Encodes.Statement (.stepSend _ctx _ch) := fun _ _ _ h => nomatch h

theorem Encodes.stepRecv (_ctx : Nat) (_ch : Nat) : Encodes.Statement (.stepRecv _ctx _ch) := fun _ _ _ h => nomatch h

theorem Encodes.stepReduce (_ctx : Nat) (_ch : Nat) : Encodes.Statement (.stepReduce _ctx _ch) := fun _ _ _ h => nomatch h

theorem Encodes.stepWaitf (_ctx : Nat) (_ch : Nat) : Encodes.Statement (.stepWaitf _ctx _ch) := fun _ _ _ h => nomatch h

theorem Encodes.stepNext (_ctx : Nat) (_ch : Nat) : Encodes.Statement (.stepNext _ctx _ch) := fun _ _ _ h => nomatch h

theorem Encodes.fabricAckTimeout (_ctx : Nat) (_ch : Nat) : Encodes.Statement (.fabricAckTimeout _ctx _ch) := fun _ _ _ h => nomatch h

theorem Encodes.stepWaitTimeout (_ctx : Nat) (_ch : Nat) : Encodes.Statement (.stepWaitTimeout _ctx _ch) := fun _ _ _ h => nomatch h

theorem Encodes.staggerRelease (_ctx : Nat) (_ch : Nat) : Encodes.Statement (.staggerRelease _ctx _ch) := fun _ _ _ h => nomatch h

theorem Encodes.instructionFetch (_core : Nat) (_str : Strm) : Encodes.Statement (.instructionFetch _core _str) := fun _ _ _ h => nomatch h

theorem Encodes.memoryAccessPerformed (_core : Nat) (_str : Strm) : Encodes.Statement (.memoryAccessPerformed _core _str) := fun _ _ _ h => nomatch h

theorem Encodes.lateFault (_core : Nat) (_str : Strm) : Encodes.Statement (.lateFault _core _str) := fun _ _ _ h => nomatch h

theorem Encodes.storeAck (_core : Nat) (_id : Nat) : Encodes.Statement (.storeAck _core _id) := fun _ _ _ h => nomatch h

theorem Encodes.homeRequestApply (_base : Nat) : Encodes.Statement (.homeRequestApply _base) := fun _ _ _ h => nomatch h

theorem Encodes.queueDeadlock (_core : Nat) (_str : Strm) : Encodes.Statement (.queueDeadlock _core _str) := fun _ _ _ h => nomatch h

theorem Encodes.timelineWaitTimeout (_core : Nat) (_str : Strm) : Encodes.Statement (.timelineWaitTimeout _core _str) := fun _ _ _ h => nomatch h

theorem Encodes.fullEmptyTimeout (_core : Nat) (_str : Strm) : Encodes.Statement (.fullEmptyTimeout _core _str) := fun _ _ _ h => nomatch h

theorem Encodes.drawWaitTimeout (_core : Nat) (_str : Strm) : Encodes.Statement (.drawWaitTimeout _core _str) := fun _ _ _ h => nomatch h

theorem Encodes.wcsldWaitTimeout (_core : Nat) : Encodes.Statement (.wcsldWaitTimeout _core) := fun _ _ _ h => nomatch h

theorem Encodes.landingCreditTimeout (_core : Nat) : Encodes.Statement (.landingCreditTimeout _core) := fun _ _ _ h => nomatch h

theorem Encodes.jobStart (_core : Nat) : Encodes.Statement (.jobStart _core) := fun _ _ _ h => nomatch h

theorem Encodes.jobCompletion (_core : Nat) : Encodes.Statement (.jobCompletion _core) := fun _ _ _ h => nomatch h

theorem Encodes.operatorRecord (_q : Nat) : Encodes.Statement (.operatorRecord _q) := fun _ _ _ h => nomatch h

theorem Encodes.collectiveRecord (_q : Nat) : Encodes.Statement (.collectiveRecord _q) := fun _ _ _ h => nomatch h

theorem Encodes.waitRecord (_q : Nat) : Encodes.Statement (.waitRecord _q) := fun _ _ _ h => nomatch h

theorem Encodes.waitRecordPoll (_rec : Nat) : Encodes.Statement (.waitRecordPoll _rec) := fun _ _ _ h => nomatch h

theorem Encodes.signalRecord (_q : Nat) : Encodes.Statement (.signalRecord _q) := fun _ _ _ h => nomatch h

theorem Encodes.tiletabRecord (_q : Nat) : Encodes.Statement (.tiletabRecord _q) := fun _ _ _ h => nomatch h

theorem Encodes.csimageRecord (_q : Nat) : Encodes.Statement (.csimageRecord _q) := fun _ _ _ h => nomatch h

theorem Encodes.rslotRecord (_q : Nat) : Encodes.Statement (.rslotRecord _q) := fun _ _ _ h => nomatch h

theorem Encodes.recordReady (_rec : Nat) : Encodes.Statement (.recordReady _rec) := fun _ _ _ h => nomatch h

theorem Encodes.chunkHandout (_part : Nat) : Encodes.Statement (.chunkHandout _part) := fun _ _ _ h => nomatch h

theorem Encodes.recordCompletion (_rec : Nat) : Encodes.Statement (.recordCompletion _rec) := fun _ _ _ h => nomatch h

theorem Encodes.timeSliceExpiry (_core : Nat) : Encodes.Statement (.timeSliceExpiry _core) := fun _ _ _ h => nomatch h

theorem Encodes.newelElection (_part : Nat) : Encodes.Statement (.newelElection _part) := fun _ _ _ h => nomatch h

theorem Encodes.preemptionStopComplete (_core : Nat) : Encodes.Statement (.preemptionStopComplete _core) := fun _ _ _ h => nomatch h

theorem Encodes.contextRestore (_core : Nat) : Encodes.Statement (.contextRestore _core) := fun _ _ _ h => nomatch h

theorem Encodes.yieldDeadline (_ctx : Nat) : Encodes.Statement (.yieldDeadline _ctx) := fun _ _ _ h => nomatch h

theorem Encodes.refreshWindowEnd (_base : Nat) : Encodes.Statement (.refreshWindowEnd _base) := fun _ _ _ h => nomatch h

theorem Encodes.shootdownComplete (_fn : Nat) : Encodes.Statement (.shootdownComplete _fn) := fun _ _ _ h => nomatch h

theorem Encodes.migrationCopy (_fn : Nat) : Encodes.Statement (.migrationCopy _fn) := fun _ _ _ h => nomatch h

theorem Encodes.repartitionDone : Encodes.Statement (.repartitionDone) := fun _ _ _ h => nomatch h

theorem Encodes.governorInterval : Encodes.Statement (.governorInterval) := fun _ _ _ h => nomatch h

theorem Encodes.profilingSliceEnd (_part : Nat) : Encodes.Statement (.profilingSliceEnd _part) := fun _ _ _ h => nomatch h

theorem Encodes.traceRecordWrite (_core : Nat) : Encodes.Statement (.traceRecordWrite _core) := fun _ _ _ h => nomatch h

theorem Encodes.fabricLineArrival (_pa : Word) (_line : BitVec 1024) : Encodes.Statement (.fabricLineArrival _pa _line) := fun _ _ _ h => nomatch h

theorem Encodes.fabricLinkFailure (_port : Nat) : Encodes.Statement (.fabricLinkFailure _port) := fun _ _ _ h => nomatch h

theorem Encodes.staggerMessage (_group : BitVec 16) (_nslot : Nat) (_step : Nat) : Encodes.Statement (.staggerMessage _group _nslot _step) := fun _ _ _ h => nomatch h

theorem Encodes.remoteRequest (_pa : Word) (_op : RemoteOp) : Encodes.Statement (.remoteRequest _pa _op) := fun _ _ _ h => nomatch h

theorem Encodes.noiseHealthFail (_bay : Nat) : Encodes.Statement (.noiseHealthFail _bay) := fun _ _ _ h => nomatch h

theorem Encodes.kick (_fn : Nat) (_q : Nat) (_tail : BitVec 16) : Encodes.Statement (.kick _fn _q _tail) := fun _ _ _ h => nomatch h

theorem Encodes.dieFence (_die : Nat) : Encodes.Statement (.dieFence _die) := fun _ _ _ h => nomatch h

theorem Encodes.boundaryFailure (_dieA : Nat) (_dieB : Nat) : Encodes.Statement (.boundaryFailure _dieA _dieB) := fun _ _ _ h => nomatch h

theorem Encodes.faultReply (_fn : Nat) : Encodes.Statement (.faultReply _fn) := fun _ _ _ h => nomatch h

theorem Encodes.archStateError (_core : Nat) (_detail : Word) : Encodes.Statement (.archStateError _core _detail) := fun _ _ _ h => nomatch h

theorem Encodes.hbmUncorrectable (_loc : ErrAt) : Encodes.Statement (.hbmUncorrectable _loc) := fun _ _ _ h => nomatch h

theorem Encodes.correctableError (_unit : BitVec 8) (_die : BitVec 16) (_loc : BitVec 32) (_addr : Word) : Encodes.Statement (.correctableError _unit _die _loc _addr) := fun _ _ _ h => nomatch h

theorem Encodes.rowActivation (_base : Nat) (_bank : Nat) (_row : Nat) (_key : BitVec 4) : Encodes.Statement (.rowActivation _base _bank _row _key) := fun _ _ _ h => nomatch h

theorem Encodes.tsdGo (_fn : Nat) : Encodes.Statement (.tsdGo _fn) := fun _ _ _ h => nomatch h

theorem Encodes.migStart (_fn : Nat) : Encodes.Statement (.migStart _fn) := fun _ _ _ h => nomatch h

theorem Encodes.migEnd (_fn : Nat) : Encodes.Statement (.migEnd _fn) := fun _ _ _ h => nomatch h

theorem Encodes.migAbort (_fn : Nat) : Encodes.Statement (.migAbort _fn) := fun _ _ _ h => nomatch h

theorem Encodes.cxlMemRead (_fn : Nat) (_off : Nat) (_n : Nat) : Encodes.Statement (.cxlMemRead _fn _off _n) := fun _ _ _ h => nomatch h

theorem Encodes.cxlMemWrite (_fn : Nat) (_off : Nat) (_bytes : List Byte) : Encodes.Statement (.cxlMemWrite _fn _off _bytes) := fun _ _ _ h => nomatch h

theorem Encodes.pcfgGo (_new : BitVec 3) : Encodes.Statement (.pcfgGo _new) := fun _ _ _ h => nomatch h

theorem Encodes.ctxCreate (_fn : Nat) (_cmd : BitVec 512) : Encodes.Statement (.ctxCreate _fn _cmd) := fun _ _ _ h => nomatch h

theorem Encodes.ctxDestroy (_fn : Nat) (_cmd : BitVec 512) : Encodes.Statement (.ctxDestroy _fn _cmd) := fun _ _ _ h => nomatch h

theorem Encodes.qCreate (_fn : Nat) (_cmd : BitVec 512) : Encodes.Statement (.qCreate _fn _cmd) := fun _ _ _ h => nomatch h

theorem Encodes.qDestroy (_fn : Nat) (_cmd : BitVec 512) : Encodes.Statement (.qDestroy _fn _cmd) := fun _ _ _ h => nomatch h

theorem Encodes.qPolicy (_fn : Nat) (_cmd : BitVec 512) : Encodes.Statement (.qPolicy _fn _cmd) := fun _ _ _ h => nomatch h

theorem Encodes.ctxPolicy (_fn : Nat) (_cmd : BitVec 512) : Encodes.Statement (.ctxPolicy _fn _cmd) := fun _ _ _ h => nomatch h

theorem Encodes.preempt (_fn : Nat) (_cmd : BitVec 512) : Encodes.Statement (.preempt _fn _cmd) := fun _ _ _ h => nomatch h

theorem Encodes.ctxResume (_fn : Nat) (_cmd : BitVec 512) : Encodes.Statement (.ctxResume _fn _cmd) := fun _ _ _ h => nomatch h

theorem Encodes.vfAssign (_fn : Nat) (_cmd : BitVec 512) : Encodes.Statement (.vfAssign _fn _cmd) := fun _ _ _ h => nomatch h

theorem Encodes.modnum (_fn : Nat) (_cmd : BitVec 512) : Encodes.Statement (.modnum _fn _cmd) := fun _ _ _ h => nomatch h

theorem Encodes.fwreg (_fn : Nat) (_cmd : BitVec 512) : Encodes.Statement (.fwreg _fn _cmd) := fun _ _ _ h => nomatch h

theorem Encodes.pwrstagSend (_fn : Nat) (_cmd : BitVec 512) : Encodes.Statement (.pwrstagSend _fn _cmd) := fun _ _ _ h => nomatch h

theorem Encodes.cxlwin (_fn : Nat) (_cmd : BitVec 512) : Encodes.Statement (.cxlwin _fn _cmd) := fun _ _ _ h => nomatch h

theorem Encodes.keyid (_fn : Nat) (_cmd : BitVec 512) : Encodes.Statement (.keyid _fn _cmd) := fun _ _ _ h => nomatch h

theorem Encodes.tdispLockInterface (_fn : Nat) : Encodes.Statement (.tdispLockInterface _fn) := fun _ _ _ h => nomatch h

theorem Encodes.spdmRequest (_op : SpdmOp) : Encodes.Statement (.spdmRequest _op) := fun _ _ _ h => nomatch h

theorem Encodes.moduleReset (_code : BitVec 8) : Encodes.Statement (.moduleReset _code) := fun _ _ _ h => nomatch h

theorem Encodes.hostLinkTraining (_lanes : Nat) (_rate : Nat) : Encodes.Statement (.hostLinkTraining _lanes _rate) := fun _ _ _ h => nomatch h

theorem Encodes.prfReq (_fn : Nat) : Encodes.Statement (.prfReq _fn) := fun _ _ _ h => nomatch h

theorem Encodes.prfRel (_fn : Nat) : Encodes.Statement (.prfRel _fn) := fun _ _ _ h => nomatch h

theorem Encodes.dbgStop (_fn : Nat) : Encodes.Statement (.dbgStop _fn) := fun _ _ _ h => nomatch h

theorem Encodes.dbgResume (_fn : Nat) : Encodes.Statement (.dbgResume _fn) := fun _ _ _ h => nomatch h

theorem Encodes.registerWrite (_fn : Nat) (_off : Nat) (_val : Word) : Encodes.Statement (.registerWrite _fn _off _val) := fun _ _ _ h => nomatch h

theorem Encodes.noiseHealthRecover (_bay : Nat) : Encodes.Statement (.noiseHealthRecover _bay) := fun _ _ _ h => nomatch h

theorem Encodes.functionReset (_fn : Nat) : Encodes.Statement (.functionReset _fn) := fun _ _ _ h => nomatch h

theorem Encodes.tdispStartInterface (_fn : Nat) : Encodes.Statement (.tdispStartInterface _fn) := fun _ _ _ h => nomatch h

theorem Encodes.tdispStopInterface (_fn : Nat) : Encodes.Statement (.tdispStopInterface _fn) := fun _ _ _ h => nomatch h

end Sys2Proof.Laws
end

