-- ==== Sys2Proof/Tests/Slice0.lean ====
section
/-!
SUPPORT. Tests: words written out from the spec's encodings, ill-formed terms, and states that meet the hypotheses of each statement.
-/

set_option Elab.async false
set_option linter.unusedVariables false

namespace Sys2Proof.Tests

open Sys2Proof.Machine

/-! ### Guards, deliveries and words -/

/-- A word of the layout of R35, its fields in the order of the rule's table. -/
def word (op : BitVec 8) (sub pred : BitVec 4) (dmask : BitVec 6) (w : BitVec 1) (dst srca srcb : BitVec 8) (mod : BitVec 16) : BitVec 64 :=
  op ++ sub ++ pred ++ dmask ++ w ++ 0#1 ++ dst ++ srca ++ srcb ++ mod

/-- Always. -/
def al : Guard := ⟨false, 0⟩
/-- If predicate n. -/
def if_ (n : BitVec 3) : Guard := ⟨false, n⟩
/-- Unless predicate n. -/
def un (n : BitVec 3) : Guard := ⟨true, n⟩
/-- Delivery to a register and queues. -/
def into (r : Reg) (q : BitVec 5) : Dest := ⟨some r, q⟩
/-- No delivery. -/
def drop : Dest := ⟨none, 0⟩

/-! ### Words written out field by field from the tables of the spec (R35 to R48) -/

/-- R133 to R136, R379, R435, R116: major 0x00. -/
theorem test_words_system :
    decode .st (word 0x00 0 0x3 0b000000 0 0x00 0x00 0x00 0x0000) 0 = .ok (.nop (if_ 3))
    ∧ decode .sc (word 0x00 1 0x0 0b000000 0 0x00 0x00 0x00 0x0185) 0 = .ok (.trap al (.imm 0x85))
    ∧ decode .ld (word 0x00 1 0x0 0b000000 1 0x00 0x00 0x00 0x0000) 0xffff0001 = .ok (.trap al (.lit 0xFFFF0001))
    ∧ decode .cx (word 0x00 2 0xD 0b000000 0 0x00 0x00 0x00 0x0000) 0 = .ok (.bkpt (un 5))
    ∧ decode .sc (word 0x00 3 0x0 0b000000 0 0x00 0x00 0x00 0x0C00) 0 = .ok (.yield al 6)
    ∧ decode .ld (word 0x00 4 0x0 0b000000 0 0x00 0x00 0x00 0x0000) 0 = .ok (.exit al)
    ∧ decode .cx (word 0x00 5 0x0 0b000000 0 0x00 0x00 0x00 0x0000) 0 = .ok (.rdv al)
    ∧ decode .sc (word 0x00 6 0x0 0b000000 0 0x00 0x00 0x5D 0x0000) 0 = .ok (.pmark al (.const 13))
    ∧ decode .st (word 0x00 7 0x0 0b001101 0 0x09 0x00 0x00 0x5A00) 0 = .ok (.sysrd al (into (.s 9) 0b0110) 0x2D)
    ∧ decode .sc (word 0x00 8 0x0 0b000000 0 0x00 0x00 0x07 0x1400) 0 = .ok (.syswr al 0x0A (.s 7))
    ∧ decode .sc (word 0x00 9 0x0 0b000001 0 0x03 0x00 0x5A 0x0000) 0 = .ok (.cntrd ⟨al, into (.s 3) 0, .const 10⟩ false)
    ∧ decode .sc (word 0x00 9 0x0 0b000001 0 0x03 0x00 0x04 0x1000) 0 = .ok (.cntrd ⟨al, into (.s 3) 0, .s 4⟩ true) := by decide +kernel

/-- R121: F-B for BR and BRL, F-R for BRI and BRIL. -/
theorem test_words_branches :
    decode .sc (word 0x01 0 0x1 0b000000 0 0x00 0xFF 0xFF 0xFFF6) 0 = .ok (.br ⟨if_ 1, drop, 0xFFFFFFF6⟩)
    ∧ decode .ld (word 0x01 1 0x0 0b001001 0 0x24 0x00 0x01 0x2345) 0 = .ok (.brl ⟨al, into (.a 4) 0b0100, 0x00012345⟩)
    ∧ decode .st (word 0x01 2 0x0 0b000000 0 0x00 0x1F 0x3A 0x0000) 0 = .ok (.bri al (.s 31) (.pop .cx))
    ∧ decode .cx (word 0x01 3 0x0 0b000001 0 0x1E 0x2F 0x40 0x0000) 0 = .ok (.bril ⟨al, into (.s 30) 0, .a 15, .zero⟩) := by decide +kernel

/-- R123, R125, R126, R128: F-L. -/
theorem test_words_loops :
    decode .ld (word 0x02 0 0x0 0b000000 0 0x02 0x3C 0x00 0x0123) 0 = .ok (.loop al 2 (.peek .sc) 0x0123)
    ∧ decode .cx (word 0x02 1 0x0 0b000000 0 0x01 0x5B 0x20 0x0006) 0 = .ok (.mloop al 1 (.const 11) 1 0 6)
    ∧ decode .cx (word 0x02 1 0x0 0b000000 0 0x03 0x08 0xD0 0xFFFF) 0 = .ok (.mloop al 3 (.s 8) 6 16 0xFFFF)
    ∧ decode .sc (word 0x02 2 0xF 0b000000 0 0x03 0x00 0x00 0x0000) 0 = .ok (.lbrk (un 7) 3)
    ∧ decode .cx (word 0x02 3 0x0 0b000000 0 0x00 0x00 0x15 0x0040) 0 = .ok (.rep al 64 true false true 2)
    ∧ decode .cx (word 0x02 3 0x0 0b000000 0 0x00 0x00 0x1A 0x0005) 0 = .ok (.rep al 5 false true false 3) := by decide +kernel

/-- R131, R132: predicate logic and queue tests. -/
theorem test_words_predicates :
    decode .sc (word 0x03 0 0x0 0b000101 0 0x01 0x02 0x03 0x1000) 0 = .ok (.pand ⟨al, into (.p 1) 0b0010, true, 2, false, 3⟩)
    ∧ decode .ld (word 0x03 1 0x0 0b000001 0 0x07 0x06 0x05 0x2000) 0 = .ok (.por ⟨al, into (.p 7) 0, false, 6, true, 5⟩)
    ∧ decode .cx (word 0x03 2 0x0 0b000001 0 0x04 0x01 0x00 0x3000) 0 = .ok (.pxor ⟨al, into (.p 4) 0, true, 1, true, 0⟩)
    ∧ decode .st (word 0x03 3 0x0 0b001000 0 0x00 0x02 0x06 0x0000) 0 = .ok (.pandn ⟨al, ⟨none, 0b0100⟩, false, 2, false, 6⟩)
    ∧ decode .sc (word 0x03 4 0x0 0b000001 0 0x03 0x05 0x00 0x1000) 0 = .ok (.pmov al (into (.p 3) 0) true 5)
    ∧ decode .sc (word 0x03 5 0x0 0b000001 0 0x02 0x39 0x00 0x0000) 0 = .ok (.qtest al (into (.p 2) 0) (.ready .ld))
    ∧ decode .sc (word 0x03 5 0x0 0b000001 0 0x02 0x3B 0x00 0x1000) 0 = .ok (.qtest al (into (.p 2) 0) (.space .st))
    ∧ decode .cx (word 0x03 5 0x0 0b000001 0 0x02 0x39 0x00 0x2000) 0 = .ok (.qtest al (into (.p 2) 0) .vready)
    ∧ decode .ld (word 0x03 5 0x0 0b000001 0 0x02 0x00 0x00 0x3000) 0 = .ok (.qtest al (into (.p 2) 0) .vspace)
    ∧ decode .st (word 0x03 5 0x0 0b000001 0 0x02 0x3A 0x00 0x4000) 0 = .ok (.qtest al (into (.p 2) 0) (.exited .cx)) := by decide +kernel

/-- R107: major 0x10, with the worked examples of the chapter. -/
theorem test_words_integer :
    decode .sc (word 0x10 0 0x2 0b001001 0 0x03 0x01 0x02 0x0000) 0 = .ok (.add ⟨if_ 2, into (.s 3) 0b0100, .s 1, .s 2⟩)
    ∧ decode .sc (word 0x10 1 0x0 0b000001 0 0x15 0x01 0x21 0x0000) 0 = .ok (.sub ⟨al, into (.s 21) 0, .s 1, .a 1⟩)
    ∧ decode .sc (word 0x10 2 0x0 0b000001 0 0x16 0x01 0x22 0x0000) 0 = .ok (.mul ⟨al, into (.s 22) 0, .s 1, .a 2⟩)
    ∧ decode .sc (word 0x10 3 0x0 0b000001 0 0x17 0x01 0x23 0x0000) 0 = .ok (.mulh ⟨al, into (.s 23) 0, .s 1, .a 3⟩)
    ∧ decode .sc (word 0x10 4 0x0 0b000001 0 0x18 0x01 0x24 0x0000) 0 = .ok (.mulhu ⟨al, into (.s 24) 0, .s 1, .a 4⟩)
    ∧ decode .sc (word 0x10 5 0x0 0b000001 0 0x19 0x01 0x25 0x0000) 0 = .ok (.div ⟨al, into (.s 25) 0, .s 1, .a 5⟩)
    ∧ decode .sc (word 0x10 6 0x0 0b000001 0 0x1A 0x01 0x26 0x0000) 0 = .ok (.divu ⟨al, into (.s 26) 0, .s 1, .a 6⟩)
    ∧ decode .sc (word 0x10 7 0x0 0b000001 0 0x1B 0x01 0x27 0x0000) 0 = .ok (.rem ⟨al, into (.s 27) 0, .s 1, .a 7⟩)
    ∧ decode .sc (word 0x10 8 0x0 0b000001 0 0x1C 0x01 0x28 0x0000) 0 = .ok (.remu ⟨al, into (.s 28) 0, .s 1, .a 8⟩)
    ∧ decode .sc (word 0x10 0 0x0 0b000001 0 0x05 0x05 0x00 0x01EC) 0 = .ok (.add ⟨al, into (.s 5) 0, .s 5, .imm 0xEC⟩)
    ∧ decode .sc (word 0x10 0 0x0 0b000001 1 0x04 0x04 0x00 0x0000) 0x186a0 = .ok (.add ⟨al, into (.s 4) 0, .s 4, .lit 0x000186A0⟩)
    ∧ decode .ld (word 0x10 9 0x0 0b000001 0 0x06 0x33 0x38 0x0000) 0 = .ok (.madd ⟨al, into (.s 6) 0, .m 3, .pop .sc⟩)
    ∧ decode .st (word 0x10 10 0x0 0b000001 0 0x29 0x44 0x46 0xD000) 0 = .ok (.lea ⟨al, into (.a 9) 0, .coordDie, .jobIdx⟩ 13) := by decide +kernel

/-- R108: major 0x11. -/
theorem test_words_bits :
    decode .cx (word 0x11 0 0x0 0b000001 0 0x20 0x00 0x47 0x0000) 0 = .ok (.and ⟨al, into (.a 0) 0, .s 0, .iter⟩)
    ∧ decode .cx (word 0x11 1 0x0 0b000001 0 0x21 0x01 0x47 0x0000) 0 = .ok (.or ⟨al, into (.a 1) 0, .s 1, .iter⟩)
    ∧ decode .cx (word 0x11 2 0x0 0b000001 0 0x22 0x02 0x47 0x0000) 0 = .ok (.xor ⟨al, into (.a 2) 0, .s 2, .iter⟩)
    ∧ decode .cx (word 0x11 3 0x0 0b000001 0 0x23 0x03 0x47 0x0000) 0 = .ok (.andn ⟨al, into (.a 3) 0, .s 3, .iter⟩)
    ∧ decode .cx (word 0x11 4 0x0 0b000001 0 0x24 0x04 0x47 0x0000) 0 = .ok (.shl ⟨al, into (.a 4) 0, .s 4, .iter⟩)
    ∧ decode .cx (word 0x11 5 0x0 0b000001 0 0x25 0x05 0x47 0x0000) 0 = .ok (.shr ⟨al, into (.a 5) 0, .s 5, .iter⟩)
    ∧ decode .cx (word 0x11 6 0x0 0b000001 0 0x26 0x06 0x47 0x0000) 0 = .ok (.sra ⟨al, into (.a 6) 0, .s 6, .iter⟩)
    ∧ decode .cx (word 0x11 7 0x0 0b000001 0 0x27 0x07 0x47 0x0000) 0 = .ok (.rot ⟨al, into (.a 7) 0, .s 7, .iter⟩)
    ∧ decode .cx (word 0x11 8 0x0 0b000001 0 0x01 0x02 0x00 0x0000) 0 = .ok (.clz ⟨al, into (.s 1) 0, .s 2⟩)
    ∧ decode .cx (word 0x11 9 0x0 0b000101 0 0x03 0x45 0x00 0x0000) 0 = .ok (.popc ⟨al, into (.s 3) 0b0010, .stage⟩)
    ∧ decode .sc (word 0x11 10 0x0 0b000001 0 0x01 0x02 0x53 0x8000) 0 = .ok (.bext ⟨al, into (.s 1) 0, .s 2, .const 3⟩ 64)
    ∧ decode .sc (word 0x11 11 0x0 0b000001 0 0x01 0x43 0x41 0x3E00) 0 = .ok (.bins ⟨al, into (.s 1) 0, .coordCore, .one⟩ 31) := by decide +kernel

/-- R109, R110: majors 0x12 and 0x13. -/
theorem test_words_choices :
    decode .st (word 0x12 0 0x0 0b000001 0 0x00 0x40 0x00 0x0000) 0 = .ok (.min ⟨al, into (.s 0) 0, .zero, .s 0⟩)
    ∧ decode .st (word 0x12 1 0x0 0b000001 0 0x00 0x40 0x01 0x0000) 0 = .ok (.max ⟨al, into (.s 0) 0, .zero, .s 1⟩)
    ∧ decode .st (word 0x12 2 0x0 0b000001 0 0x00 0x40 0x02 0x0000) 0 = .ok (.minu ⟨al, into (.s 0) 0, .zero, .s 2⟩)
    ∧ decode .st (word 0x12 3 0x0 0b000001 0 0x00 0x40 0x03 0x0000) 0 = .ok (.maxu ⟨al, into (.s 0) 0, .zero, .s 3⟩)
    ∧ decode .sc (word 0x12 4 0x0 0b000001 0 0x0B 0x0C 0x0D 0x1C00) 0 = .ok (.sel ⟨al, into (.s 11) 0, .s 12, .s 13⟩ true 6)
    ∧ decode .sc (word 0x12 5 0x0 0b001000 0 0x00 0x00 0x39 0x0000) 0 = .ok (.mov al ⟨none, 0b0100⟩ (.pop .ld))
    ∧ decode .sc (word 0x13 0 0x0 0b000001 0 0x03 0x04 0x5D 0x2000) 0 = .ok (.cmp ⟨al, into (.p 3) 0, .s 4, .const 13⟩ .lt)
    ∧ decode .sc (word 0x13 0 0x0 0b000001 0 0x01 0x04 0x05 0x9000) 0 = .ok (.cmp ⟨al, into (.p 1) 0, .s 4, .s 5⟩ .geu) := by decide +kernel

/-- R112 to R115: major 0x14. -/
theorem test_words_floats :
    decode .cx (word 0x14 0 0x0 0b000001 0 0x02 0x03 0x04 0x0000) 0 = .ok (.fadd ⟨al, into (.s 2) 0, .s 3, .s 4⟩)
    ∧ decode .cx (word 0x14 1 0x0 0b000001 0 0x02 0x03 0x04 0x0000) 0 = .ok (.fsub ⟨al, into (.s 2) 0, .s 3, .s 4⟩)
    ∧ decode .cx (word 0x14 2 0x0 0b000001 0 0x02 0x03 0x04 0x0000) 0 = .ok (.fmul ⟨al, into (.s 2) 0, .s 3, .s 4⟩)
    ∧ decode .cx (word 0x14 3 0x0 0b000001 0 0x02 0x03 0x04 0x0000) 0 = .ok (.ffma ⟨al, into (.s 2) 0, .s 3, .s 4⟩)
    ∧ decode .cx (word 0x14 4 0x0 0b000001 0 0x02 0x03 0x04 0x0000) 0 = .ok (.fmin ⟨al, into (.s 2) 0, .s 3, .s 4⟩)
    ∧ decode .cx (word 0x14 5 0x0 0b000001 0 0x02 0x03 0x04 0x0000) 0 = .ok (.fmax ⟨al, into (.s 2) 0, .s 3, .s 4⟩)
    ∧ decode .sc (word 0x14 6 0x0 0b000001 0 0x05 0x03 0x04 0x5000) 0 = .ok (.fcmp ⟨al, into (.p 5) 0, .s 3, .s 4⟩ .ge false)
    ∧ decode .sc (word 0x14 6 0x0 0b000001 0 0x05 0x03 0x04 0x1200) 0 = .ok (.fcmp ⟨al, into (.p 5) 0, .s 3, .s 4⟩ .ne true)
    ∧ decode .sc (word 0x14 7 0x0 0b000001 0 0x01 0x02 0x00 0x0000) 0 = .ok (.fcvt ⟨al, into (.s 1) 0, .s 2⟩ .itof)
    ∧ decode .sc (word 0x14 7 0x0 0b000001 0 0x01 0x02 0x00 0x1000) 0 = .ok (.fcvt ⟨al, into (.s 1) 0, .s 2⟩ .utof)
    ∧ decode .sc (word 0x14 7 0x0 0b000001 0 0x01 0x02 0x00 0x2200) 0 = .ok (.fcvt ⟨al, into (.s 1) 0, .s 2⟩ (.ftoi .rtz))
    ∧ decode .sc (word 0x14 7 0x0 0b000001 0 0x01 0x02 0x00 0x3800) 0 = .ok (.fcvt ⟨al, into (.s 1) 0, .s 2⟩ (.ftou .rna))
    ∧ decode .sc (word 0x14 7 0x0 0b000001 0 0x01 0x02 0x09 0x4C00) 0 = .ok (.fcvt ⟨al, into (.s 1) 0, .s 2⟩ (.tomem 9 .rto))
    ∧ decode .sc (word 0x14 7 0x0 0b000001 0 0x01 0x02 0x18 0x5000) 0 = .ok (.fcvt ⟨al, into (.s 1) 0, .s 2⟩ (.frommem 24))
    ∧ decode .sc (word 0x14 8 0x0 0b000001 0 0x01 0x02 0x00 0x0600) 0 = .ok (.frnd ⟨al, into (.s 1) 0, .s 2⟩ .rdn) := by decide +kernel

/-- R159, R196: majors 0x30, 0x31 and 0x3A. -/
theorem test_words_accesses :
    decode .sc (word 0x30 0 0x0 0b000101 0 0x07 0x21 0x02 0x0076) 0 = .ok (.ld ⟨al, into (.s 7) 0b0010, ⟨.a 1, .s 2⟩, .mod, .fec, true, 2⟩)
    ∧ decode .ld (word 0x30 1 0x0 0b100000 0 0x00 0x23 0x40 0x0808) 0 = .ok (.vld ⟨al, true, ⟨.a 3, .zero⟩, 1, .strm, .fe, false, false⟩)
    ∧ decode .ld (word 0x30 1 0x2 0b000000 0 0x00 0x37 0x40 0xC045) 0 = .ok (.vld ⟨if_ 2, false, ⟨.m 7, .zero⟩, 24, .die, .none, true, true⟩)
    ∧ decode .ld (word 0x30 2 0x0 0b100000 0 0x00 0x04 0x05 0x1824) 0 = .ok (.vldx ⟨al, true, ⟨.s 4, .s 5⟩, 3, .core, .none, true, false⟩)
    ∧ decode .ld (word 0x30 3 0x0 0b000000 1 0x00 0x21 0x00 0x0081) 0x80000010 = .ok (.pref al ⟨.a 1, .lit 0x80000010⟩ .dom true)
    ∧ decode .st (word 0x31 0 0x0 0b000000 0 0x52 0x21 0x40 0x004B) 0 = .ok (.st ⟨al, .const 2, ⟨.a 1, .zero⟩, .die, .fe, 3⟩)
    ∧ decode .st (word 0x31 1 0x0 0b000000 0 0x3A 0x21 0x40 0x1529) 0 = .ok (.vst ⟨al, ⟨.a 1, .zero⟩, 2, .rsto, .core, .fe, true⟩)
    ∧ decode .st (word 0x31 2 0x0 0b000000 0 0x3A 0x31 0x03 0x4200) 0 = .ok (.vstx ⟨al, ⟨.m 1, .s 3⟩, 8, .rup, .strm, .none, false⟩)
    ∧ decode .st (word 0x31 3 0x0 0b000000 0 0x25 0x21 0x03 0x0001) 0 = .ok (.gst (.scalar al (.a 5) ⟨.a 1, .s 3⟩ 1))
    ∧ decode .st (word 0x31 3 0x0 0b000000 0 0x3A 0x21 0x03 0x8001) 0 = .ok (.gst (.row al ⟨.a 1, .s 3⟩ 16 .rne true))
    ∧ decode .sc (word 0x3A 0 0x0 0b000001 0 0x05 0x21 0x40 0x0063) 0 = .ok (.lda ⟨al, into (.s 5) 0, ⟨.a 1, .zero⟩, .mod, .none, false, 3⟩)
    ∧ decode .st (word 0x3A 1 0x0 0b000000 0 0x03 0x21 0x40 0x0063) 0 = .ok (.stl ⟨al, .s 3, ⟨.a 1, .zero⟩, .mod, .none, 3⟩) := by decide +kernel

/-- R168 to R170: majors 0x32, 0x33 and 0x34. -/
theorem test_words_local :
    decode .ld (word 0x32 0 0x0 0b000000 0 0x00 0x35 0x22 0x1000) 0 = .ok (.sbind al 5 (.a 2) true)
    ∧ decode .st (word 0x32 0 0x0 0b000000 0 0x00 0x32 0x06 0x0000) 0 = .ok (.sbind al 2 (.s 6) false)
    ∧ decode .st (word 0x32 1 0x0 0b000000 0 0x00 0x33 0x5C 0x0000) 0 = .ok (.snext al 3 (.const 12))
    ∧ decode .ld (word 0x32 2 0x0 0b000001 0 0x04 0x37 0x00 0x2000) 0 = .ok (.stest al (into (.p 4) 0) 7 .done)
    ∧ decode .ld (word 0x32 3 0x0 0b000000 0 0x00 0x30 0x00 0x0000) 0 = .ok (.sdrop al 0)
    ∧ decode .ld (word 0x33 0 0x0 0b000001 0 0x09 0x00 0x08 0x0000) 0 = .ok (.tlook al (into (.s 9) 0) (.s 8))
    ∧ decode .ld (word 0x33 1 0x0 0b000000 0 0x00 0x01 0x02 0x0000) 0 = .ok (.tset al (.s 1) (.s 2))
    ∧ decode .ld (word 0x33 2 0x0 0b000000 0 0x00 0x05 0x00 0x0000) 0 = .ok (.tinv al false (.s 5))
    ∧ decode .ld (word 0x33 2 0x0 0b000000 0 0x00 0x00 0x00 0x1000) 0 = .ok (.tinv al true (.s 0))
    ∧ decode .ld (word 0x34 0 0x0 0b000000 0 0x5F 0x21 0x02 0x0000) 0 = .ok (.feset ⟨al, .const 15, ⟨.a 1, .s 2⟩⟩)
    ∧ decode .ld (word 0x34 1 0x0 0b000000 1 0x09 0x21 0x00 0x0000) 0x40 = .ok (.feclr ⟨al, .s 9, ⟨.a 1, .lit 0x40⟩⟩)
    ∧ decode .ld (word 0x34 2 0x0 0b000001 0 0x06 0x21 0x02 0x0000) 0 = .ok (.fetest al (into (.p 6) 0) ⟨.a 1, .s 2⟩)
    ∧ decode .st (word 0x34 3 0x0 0b000000 0 0x00 0x21 0x02 0x0000) 0 = .ok (.l1wb ⟨al, false, ⟨.a 1, .s 2⟩⟩)
    ∧ decode .ld (word 0x34 4 0x0 0b000000 0 0x00 0x00 0x00 0x0001) 0 = .ok (.l1inv ⟨al, true, ⟨.s 0, .s 0⟩⟩) := by decide +kernel

/-- R194, R198, R200: majors 0x38, 0x39 and 0x3B. -/
theorem test_words_ordering :
    decode .sc (word 0x38 0 0x0 0b000000 0 0x00 0x00 0x00 0x0080) 0 = .ok (.fence al .full .dom)
    ∧ decode .ld (word 0x38 0 0x0 0b000000 0 0x00 0x00 0x00 0x0840) 0 = .ok (.fence al .acq .die)
    ∧ decode .st (word 0x38 0 0x0 0b000000 0 0x00 0x00 0x00 0x1020) 0 = .ok (.fence al .rel .core)
    ∧ decode .sc (word 0x39 0 0x0 0b000101 0 0x04 0x21 0x40 0x0063) 0 = .ok (.aadd ⟨al, into (.s 4) 0b0010, ⟨.a 1, .zero⟩, .mod, true⟩)
    ∧ decode .sc (word 0x39 1 0x0 0b000101 0 0x04 0x21 0x40 0x0062) 0 = .ok (.amin ⟨al, into (.s 4) 0b0010, ⟨.a 1, .zero⟩, .mod, false⟩)
    ∧ decode .sc (word 0x39 2 0x0 0b000101 0 0x04 0x21 0x40 0x0063) 0 = .ok (.amax ⟨al, into (.s 4) 0b0010, ⟨.a 1, .zero⟩, .mod, true⟩)
    ∧ decode .sc (word 0x39 3 0x0 0b000101 0 0x04 0x21 0x40 0x0062) 0 = .ok (.aand ⟨al, into (.s 4) 0b0010, ⟨.a 1, .zero⟩, .mod, false⟩)
    ∧ decode .sc (word 0x39 4 0x0 0b000101 0 0x04 0x21 0x40 0x0063) 0 = .ok (.aor ⟨al, into (.s 4) 0b0010, ⟨.a 1, .zero⟩, .mod, true⟩)
    ∧ decode .sc (word 0x39 5 0x0 0b000101 0 0x04 0x21 0x40 0x0062) 0 = .ok (.axor ⟨al, into (.s 4) 0b0010, ⟨.a 1, .zero⟩, .mod, false⟩)
    ∧ decode .sc (word 0x39 6 0x0 0b000101 0 0x04 0x21 0x40 0x0063) 0 = .ok (.axch ⟨al, into (.s 4) 0b0010, ⟨.a 1, .zero⟩, .mod, true⟩)
    ∧ decode .sc (word 0x39 7 0x0 0b000001 0 0x06 0x21 0x40 0x0043) 0 = .ok (.acas ⟨al, into (.s 6) 0, ⟨.a 1, .zero⟩, .die, true⟩)
    ∧ decode .sc (word 0x39 8 0x0 0b000001 0 0x06 0x21 0x40 0x0182) 0 = .ok (.afadd ⟨al, into (.s 6) 0, ⟨.a 1, .zero⟩, .dom, 0, .rtz⟩)
    ∧ decode .sc (word 0x39 8 0x0 0b000001 0 0x06 0x21 0x40 0x1681) 0 = .ok (.afadd ⟨al, into (.s 6) 0, ⟨.a 1, .zero⟩, .dom, 2, .rto⟩)
    ∧ decode .cx (word 0x3B 0 0x0 0b000000 0 0x00 0x04 0x40 0x3000) 0 = .ok (.waitt ⟨al, drop, 3, .s 4, .zero, none⟩)
    ∧ decode .sc (word 0x3B 0 0x0 0b000000 1 0x00 0x04 0x00 0xFA00) 0x9 = .ok (.waitt ⟨al, drop, 15, .s 4, .lit 9, some 2⟩)
    ∧ decode .st (word 0x3B 1 0x0 0b000001 0 0x08 0x00 0x00 0x9002) 0 = .ok (.tlrd al (into (.s 8) 0) 9 .errn)
    ∧ decode .sc (word 0x3B 2 0x0 0b000001 0 0x06 0x00 0x41 0x2003) 0 = .ok (.tladv al (into (.s 6) 0) 2 .one .mod) := by decide +kernel

/-- R211 to R213: majors 0x60 and 0x61. -/
theorem test_words_vectors :
    decode .cx (word 0x60 0 0x0 0b100001 0 0x81 0x82 0xFF 0x0000) 0 = .ok (.vadd ⟨al, into (.v 1) 0b10000, .v 2, .v 127, false, 0⟩)
    ∧ decode .cx (word 0x60 1 0x0 0b100001 0 0x81 0x82 0xFF 0x0201) 0 = .ok (.vsub ⟨al, into (.v 1) 0b10000, .v 2, .v 127, true, 1⟩)
    ∧ decode .cx (word 0x60 2 0x0 0b100001 0 0x81 0x82 0xFF 0x0002) 0 = .ok (.vmul ⟨al, into (.v 1) 0b10000, .v 2, .v 127, false, 2⟩)
    ∧ decode .cx (word 0x60 3 0x0 0b100001 0 0x81 0x82 0xFF 0x0203) 0 = .ok (.vfma ⟨al, into (.v 1) 0b10000, .v 2, .v 127, true, 3⟩)
    ∧ decode .cx (word 0x60 4 0x0 0b100001 0 0x81 0x82 0xFF 0x0404) 0 = .ok (.vmin ⟨al, into (.v 1) 0b10000, .v 2, .v 127, false, 4⟩ true)
    ∧ decode .cx (word 0x60 5 0x0 0b100001 0 0x81 0x82 0xFF 0x0205) 0 = .ok (.vmax ⟨al, into (.v 1) 0b10000, .v 2, .v 127, true, 5⟩ false)
    ∧ decode .cx (word 0x60 6 0x0 0b000001 0 0x80 0x39 0x00 0x060F) 0 = .ok (.vabs ⟨al, into (.v 0) 0, .pop .ld, true, 15⟩ true)
    ∧ decode .cx (word 0x60 7 0x0 0b100000 0 0x00 0x3D 0x00 0x0003) 0 = .ok (.vneg ⟨al, ⟨none, 0b10000⟩, .peek .ld, false, 3⟩ false)
    ∧ decode .cx (word 0x61 0 0x0 0b000001 0 0x89 0x82 0x42 0x0000) 0 = .ok (.vand ⟨al, into (.v 9) 0, .v 2, .lane, false, 0⟩)
    ∧ decode .cx (word 0x61 1 0x0 0b000001 0 0x89 0x82 0x42 0x0201) 0 = .ok (.vor ⟨al, into (.v 9) 0, .v 2, .lane, true, 1⟩)
    ∧ decode .cx (word 0x61 2 0x0 0b000001 0 0x89 0x82 0x42 0x0002) 0 = .ok (.vxor ⟨al, into (.v 9) 0, .v 2, .lane, false, 2⟩)
    ∧ decode .cx (word 0x61 3 0x0 0b000001 0 0x89 0x82 0x42 0x0203) 0 = .ok (.vshl ⟨al, into (.v 9) 0, .v 2, .lane, true, 3⟩)
    ∧ decode .cx (word 0x61 4 0x0 0b000001 0 0x89 0x82 0x42 0x1004) 0 = .ok (.vshr ⟨al, into (.v 9) 0, .v 2, .lane, false, 4⟩ true)
    ∧ decode .cx (word 0x61 5 0x0 0b000001 0 0x89 0x82 0x42 0x0205) 0 = .ok (.viadd ⟨al, into (.v 9) 0, .v 2, .lane, true, 5⟩)
    ∧ decode .cx (word 0x61 6 0x0 0b000001 0 0x89 0x82 0x42 0x0006) 0 = .ok (.vimul ⟨al, into (.v 9) 0, .v 2, .lane, false, 6⟩)
    ∧ decode .cx (word 0x60 0 0x0 0b000001 1 0x81 0x82 0x00 0x0000) 0x3f800000 = .ok (.vadd ⟨al, into (.v 1) 0, .v 2, .lit 0x3F800000, false, 0⟩) := by decide +kernel

/-- R215 to R218: majors 0x62 and 0x63. -/
theorem test_words_moves :
    decode .cx (word 0x62 0 0x0 0b000001 0 0x83 0x04 0x00 0x0602) 0 = .ok (.vmov ⟨al, into (.v 3) 0, .s 4, true, 2⟩ true)
    ∧ decode .cx (word 0x62 1 0x0 0b000001 0 0x83 0x84 0x05 0x0007) 0 = .ok (.vbcst ⟨al, into (.v 3) 0, .v 4, .s 5, false, 7⟩)
    ∧ decode .cx (word 0x62 2 0x0 0b000001 0 0x83 0x84 0x05 0x0607) 0 = .ok (.vsel ⟨al, into (.v 3) 0, .v 4, .s 5, true, 7⟩ true)
    ∧ decode .cx (word 0x62 3 0x0 0b000001 0 0x83 0x84 0x85 0x0001) 0 = .ok (.vshuf ⟨al, into (.v 3) 0, .v 4, .v 5, false, 1⟩)
    ∧ decode .cx (word 0x62 4 0x0 0b000001 0 0x83 0x84 0x05 0x2200) 0 = .ok (.vrot ⟨al, into (.v 3) 0, .v 4, .s 5, true, 0⟩ .up)
    ∧ decode .cx (word 0x62 5 0x0 0b000011 0 0x03 0x84 0x05 0x2000) 0 = .ok (.vext ⟨al, into (.s 3) 0b0001, .v 4, .s 5, false, 0⟩ .int)
    ∧ decode .cx (word 0x62 6 0x0 0b000001 0 0x83 0x04 0x05 0x2200) 0 = .ok (.vins ⟨al, into (.v 3) 0, .s 4, .s 5, true, 0⟩ .img)
    ∧ decode .cx (word 0x62 6 0x0 0b000001 0 0x83 0x04 0x05 0x0200) 0 = .ok (.vins ⟨al, into (.v 3) 0, .s 4, .s 5, true, 0⟩ .flt)
    ∧ decode .cx (word 0x63 0 0x0 0b000001 0 0x1F 0x84 0x85 0x1E02) 0 = .ok (.vcmp ⟨al, into (.k 15) 0, .v 4, .v 5, true, 2⟩ .ne true true)
    ∧ decode .cx (word 0x63 1 0x0 0b000001 0 0x11 0x12 0x13 0x0000) 0 = .ok (.kand al (into (.k 1) 0) 2 3)
    ∧ decode .cx (word 0x63 2 0x0 0b000001 0 0x11 0x1E 0x1F 0x0000) 0 = .ok (.kor al (into (.k 1) 0) 14 15)
    ∧ decode .cx (word 0x63 3 0x0 0b000001 0 0x18 0x19 0x00 0x0000) 0 = .ok (.knot al (into (.k 8) 0) 9)
    ∧ decode .cx (word 0x63 4 0x0 0b010001 0 0x08 0x19 0x00 0x0204) 0 = .ok (.kpopc al (into (.s 8) 0b1000) 9 true 4) := by decide +kernel

/-- R219 to R224: major 0x64. -/
theorem test_words_conversions :
    decode .cx (word 0x64 0 0x0 0b000001 0 0x81 0x82 0x00 0x0005) 0 = .ok (.vcvt ⟨al, into (.v 1) 0, .v 2⟩ 5 (.f36f18 false))
    ∧ decode .cx (word 0x64 0 0x0 0b000001 0 0x81 0x82 0x00 0x1005) 0 = .ok (.vcvt ⟨al, into (.v 1) 0, .v 2⟩ 5 (.f36f18 true))
    ∧ decode .cx (word 0x64 0 0x0 0b000001 0 0x81 0x82 0x00 0x2005) 0 = .ok (.vcvt ⟨al, into (.v 1) 0, .v 2⟩ 5 (.f18f36 false))
    ∧ decode .cx (word 0x64 0 0x0 0b000001 0 0x81 0x82 0x00 0x3005) 0 = .ok (.vcvt ⟨al, into (.v 1) 0, .v 2⟩ 5 (.f18f36 true))
    ∧ decode .cx (word 0x64 0 0x0 0b000001 0 0x81 0x82 0x00 0x4205) 0 = .ok (.vcvt ⟨al, into (.v 1) 0, .v 2⟩ 5 (.f36i36 .rtz))
    ∧ decode .cx (word 0x64 0 0x0 0b000001 0 0x81 0x82 0x00 0x5005) 0 = .ok (.vcvt ⟨al, into (.v 1) 0, .v 2⟩ 5 .i36f36)
    ∧ decode .cx (word 0x64 0 0x0 0b000001 0 0x81 0x82 0x00 0x6C05) 0 = .ok (.vcvt ⟨al, into (.v 1) 0, .v 2⟩ 5 (.f18i18 .rto))
    ∧ decode .cx (word 0x64 0 0x0 0b000001 0 0x81 0x82 0x00 0x7005) 0 = .ok (.vcvt ⟨al, into (.v 1) 0, .v 2⟩ 5 .i18f18)
    ∧ decode .cx (word 0x64 0 0x0 0b000001 0 0x81 0x82 0x00 0x8005) 0 = .ok (.vcvt ⟨al, into (.v 1) 0, .v 2⟩ 5 (.i36i18 false))
    ∧ decode .cx (word 0x64 0 0x0 0b000001 0 0x81 0x82 0x00 0x9005) 0 = .ok (.vcvt ⟨al, into (.v 1) 0, .v 2⟩ 5 (.i36i18 true))
    ∧ decode .cx (word 0x64 0 0x0 0b000001 0 0x81 0x82 0x00 0xA005) 0 = .ok (.vcvt ⟨al, into (.v 1) 0, .v 2⟩ 5 (.i18i36 false))
    ∧ decode .cx (word 0x64 0 0x0 0b000001 0 0x81 0x82 0x00 0xB005) 0 = .ok (.vcvt ⟨al, into (.v 1) 0, .v 2⟩ 5 (.i18i36 true))
    ∧ decode .cx (word 0x64 1 0x2 0b100000 0 0x00 0xF9 0xFD 0x2000) 0 = .ok (.vqnt ⟨if_ 2, ⟨none, 0b10000⟩, .v 121, .v 125⟩ 0 .e4m3 .rne)
    ∧ decode .cx (word 0x64 2 0x0 0b000001 0 0x81 0x82 0x41 0x7003) 0 = .ok (.vdq ⟨al, into (.v 1) 0, .v 2, .one⟩ 3 .int8)
    ∧ decode .cx (word 0x64 3 0x1 0b000001 0 0xFC 0xF8 0x00 0x2000) 0 = .ok (.vbmax ⟨if_ 1, into (.v 124) 0, .v 120⟩ 0 .e4m3)
    ∧ decode .cx (word 0x64 3 0x0 0b000001 0 0xFC 0xF8 0x00 0xE001) 0 = .ok (.vbmax ⟨al, into (.v 124) 0, .v 120⟩ 1 (.fd 6)) := by decide +kernel

/-- R227 to R233: majors 0x65 to 0x67. -/
theorem test_words_latches :
    decode .cx (word 0x65 0 0x0 0b000000 0 0x00 0x84 0x00 0x9203) 0 = .ok (.vred al (.v 4) true 3 2 .max false)
    ∧ decode .cx (word 0x65 0 0x0 0b000000 0 0x00 0x39 0x00 0x6400) 0 = .ok (.vred al (.pop .ld) false 0 1 .min true)
    ∧ decode .cx (word 0x65 1 0x0 0b000011 0 0x02 0x00 0x00 0x7400) 0 = .ok (.vrmov al (into (.s 2) 0b0001) 3 (some .pinf))
    ∧ decode .cx (word 0x65 1 0x0 0b000001 0 0x02 0x00 0x00 0x1000) 0 = .ok (.vrmov al (into (.s 2) 0) 1 none)
    ∧ decode .cx (word 0x65 2 0x0 0b000001 0 0x87 0x86 0x00 0x2E09) 0 = .ok (.vscan ⟨al, into (.v 7) 0, .v 6, true, 9⟩ .min true true)
    ∧ decode .cx (word 0x66 0 0x0 0b000001 0 0x87 0x86 0x00 0x0000) 0 = .ok (.vsfu ⟨al, into (.v 7) 0, .v 6, false, 0⟩ .exp2)
    ∧ decode .cx (word 0x66 0 0x0 0b000001 0 0x87 0x86 0x00 0x1001) 0 = .ok (.vsfu ⟨al, into (.v 7) 0, .v 6, false, 1⟩ .log2)
    ∧ decode .cx (word 0x66 0 0x0 0b000001 0 0x87 0x86 0x00 0x2002) 0 = .ok (.vsfu ⟨al, into (.v 7) 0, .v 6, false, 2⟩ .rcp)
    ∧ decode .cx (word 0x66 0 0x0 0b000001 0 0x87 0x86 0x00 0x3003) 0 = .ok (.vsfu ⟨al, into (.v 7) 0, .v 6, false, 3⟩ .rsqrt)
    ∧ decode .cx (word 0x66 0 0x0 0b000001 0 0x87 0x86 0x00 0x4004) 0 = .ok (.vsfu ⟨al, into (.v 7) 0, .v 6, false, 4⟩ .sqrt)
    ∧ decode .cx (word 0x66 0 0x0 0b000001 0 0x87 0x86 0x00 0x5005) 0 = .ok (.vsfu ⟨al, into (.v 7) 0, .v 6, false, 5⟩ .tanh)
    ∧ decode .cx (word 0x66 0 0x0 0b000001 0 0x87 0x86 0x00 0x6006) 0 = .ok (.vsfu ⟨al, into (.v 7) 0, .v 6, false, 6⟩ .sigmoid)
    ∧ decode .cx (word 0x66 0 0x0 0b000001 0 0x87 0x86 0x00 0x7007) 0 = .ok (.vsfu ⟨al, into (.v 7) 0, .v 6, false, 7⟩ .gelu)
    ∧ decode .cx (word 0x66 0 0x0 0b000001 0 0x87 0x86 0x00 0x8008) 0 = .ok (.vsfu ⟨al, into (.v 7) 0, .v 6, false, 8⟩ .silu)
    ∧ decode .cx (word 0x66 0 0x0 0b000001 0 0x87 0x86 0x00 0x9009) 0 = .ok (.vsfu ⟨al, into (.v 7) 0, .v 6, false, 9⟩ .softplus)
    ∧ decode .cx (word 0x66 1 0x0 0b000001 0 0x87 0x86 0x00 0x0202) 0 = .ok (.vsmax ⟨al, into (.v 7) 0, .v 6, true, 2⟩)
    ∧ decode .cx (word 0x67 0 0x0 0b000001 0 0x87 0x00 0x00 0x120B) 0 = .ok (.vrng al (into (.v 7) 0) true true 11) := by decide +kernel

/-- R241, R256, R258, R260: majors 0x80 to 0x83. -/
theorem test_words_array :
    decode .cx (word 0x80 0 0x0 0b000000 0 0x00 0x00 0x00 0x0000) 0 = .ok (.lease al none)
    ∧ decode .cx (word 0x80 0 0x0 0b000000 0 0x00 0x00 0x00 0x0B00) 0 = .ok (.lease al (some 3))
    ∧ decode .cx (word 0x80 1 0x0 0b000000 0 0x00 0x00 0x00 0x0000) 0 = .ok (.lrel al)
    ∧ decode .cx (word 0x81 0 0x0 0b000000 0 0x00 0xC0 0x04 0x100F) 0 = .ok (.mma ⟨al, .ft 2, false, .v 64, .s 4, false, false, 15⟩)
    ∧ decode .cx (word 0x81 0 0x0 0b000000 0 0x01 0x1E 0xFF 0x80FF) 0 = .ok (.mma ⟨al, .ftl, true, .s 30, .v 127, true, false, 127⟩)
    ∧ decode .cx (word 0x81 1 0x0 0b000000 0 0x01 0x80 0x88 0x2F01) 0 = .ok (.mmas ⟨al, .ft 5, true, .v 0, .v 8, true, 3, 1⟩)
    ∧ decode .cx (word 0x81 2 0x0 0b000000 0 0x01 0x00 0x00 0x0000) 0 = .ok (.mzero al true)
    ∧ decode .cx (word 0x82 0 0x0 0b000000 0 0x00 0x00 0x07 0x0001) 0 = .ok (.mfmt al 1 (.s 7))
    ∧ decode .cx (word 0x82 1 0x0 0b000000 1 0x00 0x00 0x00 0x000D) 0x40490fdb = .ok (.mscl al 5 true (.lit 0x40490FDB))
    ∧ decode .cx (word 0x82 1 0x0 0b000000 0 0x00 0x00 0x03 0x0006) 0 = .ok (.mscl al 6 false (.s 3))
    ∧ decode .cx (word 0x82 2 0x0 0b000000 0 0x00 0x21 0x5E 0x0003) 0 = .ok (.msq al 3 (.a 1) (.const 14))
    ∧ decode .cx (word 0x83 0 0x0 0b000001 0 0x09 0x22 0x40 0x0000) 0 = .ok (.mret al (into (.s 9) 0) 0 false (.a 2) .zero)
    ∧ decode .cx (word 0x83 0 0x0 0b000000 0 0x00 0x22 0x01 0x7001) 0 = .ok (.mret al drop 7 true (.a 2) (.s 1)) := by decide +kernel

/-- R297, R46: majors 0x90 and 0xC0 to 0xFF. -/
theorem test_words_control_store :
    decode .sc (word 0x90 0 0x0 0b001001 0 0x01 0x02 0x03 0x0CFF) 0 = .ok (.wcsld ⟨al, into (.s 1) 0b0100, .s 2, .s 3, some 4⟩ 0xFF)
    ∧ decode .sc (word 0x90 1 0x0 0b000000 1 0x00 0x02 0x00 0x0000) 0x10203 = .ok (.wbind al (.s 2) (.lit 0x00010203))
    ∧ decode .sc (word 0x90 2 0x0 0b000000 0 0x00 0x02 0x00 0x0000) 0 = .ok (.wunb al false (.s 2))
    ∧ decode .sc (word 0x90 2 0x0 0b000000 0 0x00 0x00 0x00 0x0001) 0 = .ok (.wunb al true (.s 0))
    ∧ decode .sc (word 0x90 3 0x0 0b000000 0 0x00 0x22 0x03 0x0007) 0 = .ok (.wcsrd al (.a 2) (.s 3) 7)
    ∧ decode .sc (word 0x90 4 0x0 0b000001 0 0x05 0x00 0x03 0x0000) 0 = .ok (.wstat al (into (.s 5) 0) (.s 3) 0)
    ∧ decode .sc (word 0x90 4 0x0 0b000001 0 0x05 0x00 0x00 0x0002) 0 = .ok (.wstat al (into (.s 5) 0) (.s 0) 2)
    ∧ decode .cx (word 0xC7 9 0xB 0b010111 1 0x84 0x60 0x00 0xBEEF) 0x12345678 = .ok (.customOpcode ⟨0xC7, 9, un 3, 0b010111, 0x84, 0x60, 0, 0xBEEF, some 0x12345678⟩) := by decide +kernel

/-- R316: major 0xA0. -/
theorem test_words_landings :
    decode .sc (word 0xA0 0 0x0 0b000001 0 0x01 0x00 0x40 0x0000) 0 = .ok (.ltag ⟨al, into (.s 1) 0, .s 0, .zero, none⟩)
    ∧ decode .sc (word 0xA0 0 0x0 0b000001 0 0x01 0x00 0x06 0x0D00) 0 = .ok (.ltag ⟨al, into (.s 1) 0, .s 0, .s 6, some 5⟩)
    ∧ decode .sc (word 0xA0 1 0x0 0b000000 0 0x00 0x04 0x00 0x0000) 0 = .ok (.lfree al (.s 4))
    ∧ decode .sc (word 0xA0 2 0x0 0b000000 0 0x00 0x04 0x23 0x0000) 0 = .ok (.ldesc al (.s 4) (.a 3))
    ∧ decode .cx (word 0xA0 3 0x0 0b000000 0 0x00 0x98 0x02 0x0900) 0 = .ok (.lsend al 24 (.s 2) (some 1))
    ∧ decode .sc (word 0xA0 4 0x0 0b000001 0 0x02 0x03 0x00 0x0000) 0 = .ok (.lstat al (into (.s 2) 0) (.s 3))
    ∧ decode .sc (word 0xA0 5 0x0 0b000001 0 0x02 0x23 0x00 0x0000) 0 = .ok (.lorph al (into (.s 2) 0) (.a 3)) := by decide +kernel

/-- R330, R345: majors 0xA8 and 0xA9. -/
theorem test_words_engine_fabric :
    decode .sc (word 0xA8 0 0x0 0b000001 0 0x06 0x23 0x40 0x2000) 0 = .ok (.cego ⟨al, into (.s 6) 0, 2, .a 3, .zero, none⟩)
    ∧ decode .sc (word 0xA8 1 0x0 0b000000 0 0x00 0x00 0x00 0x0000) 0 = .ok (.cestop al)
    ∧ decode .sc (word 0xA8 2 0x0 0b000001 0 0x02 0x00 0x00 0x0000) 0 = .ok (.cestat al (into (.s 2) 0))
    ∧ decode .sc (word 0xA9 0 0x0 0b000000 1 0x00 0x21 0x00 0x0000) 0x12c = .ok (.ctab al (.a 1) (.lit 300))
    ∧ decode .sc (word 0xA9 1 0x0 0b000001 0 0x03 0x07 0x40 0x4000) 0 = .ok (.ctile al (into (.s 3) 0) 4 (.s 7) .zero)
    ∧ decode .sc (word 0xA9 2 0x0 0b000000 0 0x00 0x01 0x22 0x0000) 0 = .ok (.cringSet al (.s 1) (.a 2))
    ∧ decode .sc (word 0xA9 2 0x0 0b000001 0 0x03 0x01 0x00 0x0001) 0 = .ok (.cringDone al (into (.s 3) 0) (.s 1))
    ∧ decode .sc (word 0xA9 2 0x0 0b000001 0 0x03 0x01 0x00 0x0002) 0 = .ok (.cringStat al (into (.s 3) 0) (.s 1))
    ∧ decode .sc (word 0xA9 3 0x0 0b000001 0 0x03 0x01 0x5C 0x0000) 0 = .ok (.rslotReq al (into (.s 3) 0) (.s 1) (.const 12))
    ∧ decode .sc (word 0xA9 3 0x0 0b000000 0 0x00 0x01 0x00 0x0001) 0 = .ok (.rslotRel al (.s 1)) := by decide +kernel

/-- R46, check 1: an unassigned major, on any stream. -/
theorem test_refused_1 :
    decode .sc (word 0xB0 0 0x0 0b000000 0 0x00 0x00 0x00 0x0000) 0 = .error 1
    ∧ decode .cx (word 0x04 0 0x0 0b000000 0 0x00 0x00 0x00 0x0000) 0 = .error 1 := by decide +kernel

/-- R46, check 2: an unassigned minor. -/
theorem test_refused_2 :
    decode .sc (word 0x00 10 0x0 0b000000 0 0x00 0x00 0x00 0x0000) 0 = .error 2
    ∧ decode .cx (word 0x81 3 0x0 0b000000 0 0x00 0x00 0x00 0x0000) 0 = .error 2
    ∧ decode .sc (word 0x13 1 0x0 0b000000 0 0x00 0x00 0x00 0x0000) 0 = .error 2 := by decide +kernel

/-- R46, check 3: the wrong stream. -/
theorem test_refused_3 :
    decode .sc (word 0x30 1 0x0 0b000000 0 0x00 0x00 0x00 0x0000) 0 = .error 3
    ∧ decode .ld (word 0x39 0 0x0 0b000001 0 0x00 0x00 0x00 0x0000) 0 = .error 3
    ∧ decode .cx (word 0x31 0 0x0 0b000000 0 0x00 0x00 0x00 0x0000) 0 = .error 3 := by decide +kernel

/-- R36, R46, check 4: PRED 0b1000 and fields declared zero. -/
theorem test_refused_4 :
    decode .sc (word 0x00 0 0x8 0b000000 0 0x00 0x00 0x00 0x0000) 0 = .error 4
    ∧ decode .sc (word 0x00 4 0x0 0b000000 0 0x01 0x00 0x00 0x0000) 0 = .error 4
    ∧ decode .sc (word 0x12 5 0x0 0b000001 0 0x00 0x01 0x00 0x0000) 0 = .error 4
    ∧ decode .cx (word 0x62 0 0x0 0b000001 0 0x81 0x82 0x83 0x0000) 0 = .error 4 := by decide +kernel

/-- R41, R43, R46, check 5: W and I where they are refused, and SRCB beside them. -/
theorem test_refused_5 :
    decode .sc (word 0x00 0 0x0 0b000000 1 0x00 0x00 0x00 0x0000) 0 = .error 5
    ∧ decode .sc (word 0x01 0 0x0 0b000000 1 0x00 0x00 0x00 0x0000) 0 = .error 5
    ∧ decode .sc (word 0x10 0 0x0 0b000001 0 0x00 0x00 0x01 0x0101) 0 = .error 5
    ∧ decode .sc (word 0x10 0 0x0 0b000001 1 0x00 0x00 0x01 0x0000) 0 = .error 5
    ∧ decode .sc (word 0x10 0 0x0 0b000001 1 0x00 0x00 0x00 0x0101) 0 = .error 5
    ∧ decode .cx (word 0x60 0 0x0 0b000001 0 0x81 0x82 0x00 0x0101) 0 = .error 5 := by decide +kernel

/-- R37, R38, R46, check 6: operand codes. -/
theorem test_refused_6 :
    decode .sc (word 0x10 0 0x0 0b000001 0 0x00 0x48 0x00 0x0000) 0 = .error 6
    ∧ decode .sc (word 0x10 0 0x0 0b000001 0 0x00 0x42 0x00 0x0000) 0 = .error 6
    ∧ decode .sc (word 0x10 0 0x0 0b000001 0 0x00 0x30 0x00 0x0000) 0 = .error 6
    ∧ decode .sc (word 0x10 0 0x0 0b000001 0 0x00 0x38 0x00 0x0000) 0 = .error 6
    ∧ decode .sc (word 0x10 0 0x0 0b000001 0 0x40 0x00 0x00 0x0000) 0 = .error 6
    ∧ decode .sc (word 0x13 0 0x0 0b000001 0 0x11 0x00 0x00 0x0000) 0 = .error 6
    ∧ decode .cx (word 0x62 5 0x0 0b000001 0 0x00 0x84 0x85 0x0000) 0 = .error 6
    ∧ decode .sc (word 0x3A 0 0x0 0b000001 0 0x00 0x31 0x40 0x0000) 0 = .error 6 := by decide +kernel

/-- R39, R46, check 7: delivery masks. -/
theorem test_refused_7 :
    decode .sc (word 0x10 0 0x0 0b000011 0 0x03 0x01 0x02 0x0000) 0 = .error 7
    ∧ decode .sc (word 0x10 0 0x0 0b100001 0 0x00 0x00 0x00 0x0000) 0 = .error 7
    ∧ decode .sc (word 0x00 0 0x0 0b000001 0 0x00 0x00 0x00 0x0000) 0 = .error 7
    ∧ decode .cx (word 0x60 0 0x0 0b000011 0 0x81 0x82 0x82 0x0000) 0 = .error 7
    ∧ decode .sc (word 0x10 9 0x0 0b000100 0 0x00 0x01 0x02 0x0000) 0 = .error 7
    ∧ decode .sc (word 0x39 0 0x0 0b000000 0 0x00 0x21 0x40 0x0003) 0 = .error 7 := by decide +kernel

/-- R46, check 8: modifiers the entry does not assign. -/
theorem test_refused_8 :
    decode .sc (word 0x13 0 0x0 0b000001 0 0x00 0x00 0x00 0xA000) 0 = .error 8
    ∧ decode .sc (word 0x11 10 0x0 0b000001 0 0x00 0x00 0x00 0x8200) 0 = .error 8
    ∧ decode .sc (word 0x02 0 0x0 0b000000 0 0x00 0x00 0x00 0x0003) 0 = .error 8
    ∧ decode .cx (word 0x02 1 0x0 0b000000 0 0x00 0x00 0xE0 0x0006) 0 = .error 8
    ∧ decode .cx (word 0x02 1 0x0 0b000000 0 0x00 0x00 0x11 0x0006) 0 = .error 8
    ∧ decode .sc (word 0x02 1 0x0 0b000000 0 0x00 0x00 0x01 0x0006) 0 = .error 8
    ∧ decode .sc (word 0x02 3 0x0 0b000000 0 0x00 0x00 0x00 0x0041) 0 = .error 8
    ∧ decode .sc (word 0x30 0 0x0 0b000001 0 0x00 0x00 0x40 0x00A0) 0 = .error 8
    ∧ decode .sc (word 0x14 6 0x0 0b000001 0 0x00 0x00 0x00 0x2200) 0 = .error 8
    ∧ decode .cx (word 0x81 1 0x0 0b000000 0 0x00 0x80 0x80 0x0000) 0 = .error 8
    ∧ decode .st (word 0x32 0 0x0 0b000000 0 0x00 0x30 0x00 0x1000) 0 = .error 8
    ∧ decode .sc (word 0x00 8 0x0 0b000000 0 0x00 0x00 0x00 0x0200) 0 = .error 8 := by decide +kernel


/-! ### Ill-formed terms -/

/-- None of these is a word that its stream may issue. -/
def refusedWf (l : List (Strm × Instr)) : Bool := l.all (fun p => !p.2.wf p.1)

/-- Operands of two scalar sources. -/
def ops (d : Dest) (a b : Src) : ROps := ⟨al, d, a, b⟩
/-- Operands of two vector sources. -/
def vops (d : Dest) (a b : Src) (k : BitVec 4 := 0) : VOps := ⟨al, d, a, b, false, k⟩
/-- An address in s1. -/
def in1 : MAddr := ⟨.s 1, .zero⟩

/-- PRED 8 is reserved (R36). -/
theorem test_illformed_guard : refusedWf
    [(.sc, .nop (un 0)), (.sc, .add ⟨un 0, drop, .s 0, .s 0⟩), (.ld, .ld ⟨un 0, drop, in1, .strm, .none, false, 0⟩), (.cx, .vmov ⟨un 0, drop, .v 0, false, 0⟩ false),
     (.sc, .br ⟨un 0, drop, 0⟩), (.sc, .pand ⟨un 0, drop, false, 0, false, 0⟩), (.sc, .ltag ⟨un 0, drop, .s 0, .s 0, none⟩),
     (.sc, .cego ⟨un 0, drop, 0, .s 0, .s 0, none⟩), (.cx, .customOpcode ⟨0xC0, 0, un 0, 0, 0, 0, 0, 0, none⟩)] = true := by decide

/-- Source codes that a position does not take: an m register outside LD and ST, the stream's own queue, a lane index or a row as a scalar, a
literal or IMM8 where the format has none, a scalar as a row (R41, R43, R106, R208). -/
theorem test_illformed_sources : refusedWf
    [(.sc, .add (ops drop (.m 0) (.s 0))), (.cx, .add (ops drop (.pop .cx) (.s 0))), (.ld, .add (ops drop (.peek .ld) (.s 0))), (.sc, .add (ops drop .lane (.s 0))),
     (.cx, .add (ops drop (.v 0) (.s 0))), (.sc, .add (ops drop (.lit 1) (.s 0))), (.sc, .add (ops drop (.imm 1) (.s 0))), (.sc, .bri al (.s 0) (.lit 4)),
     (.ld, .ld ⟨al, drop, ⟨.s 1, .imm 3⟩, .strm, .none, false, 0⟩), (.sc, .clz ⟨al, drop, .v 1⟩), (.cx, .vadd (vops drop (.m 0) (.v 1))), (.cx, .vadd (vops drop (.v 0) (.imm 1))),
     (.cx, .vadd (vops drop (.pop .sc) (.v 1))), (.cx, .vmov ⟨al, drop, .lit 1, false, 0⟩ false), (.cx, .vbcst (vops drop (.s 1) (.s 2))), (.cx, .vshuf (vops drop (.s 1) (.v 2))),
     (.st, .st ⟨al, .pop .cx, in1, .strm, .none, 0⟩), (.st, .gst (.scalar al .zero in1 0)), (.ld, .feset ⟨al, .zero, in1⟩), (.cx, .mma ⟨al, .ft 0, false, .s 1, .v 0, false, false, 1⟩),
     (.cx, .mma ⟨al, .ft 0, false, .v 0, .pop .ld, false, false, 1⟩), (.cx, .msq al 0 (.s 1) (.pop .ld)), (.sc, .wstat al drop (.lit 1) 0), (.sc, .trap al (.pop .sc))] = true := by decide

/-- Deliveries that a form does not take: the stream's own queue, the vector queue of a scalar result, a register of another kind, a missing or an
odd DST (R38, R39, R106, R110, R198, R211). -/
theorem test_illformed_deliveries : refusedWf
    [(.sc, .add (ops (into (.s 1) 1) (.s 0) (.s 0))), (.cx, .add (ops (into (.s 1) 16) (.s 0) (.s 0))), (.sc, .add (ops (into (.p 1) 0) (.s 0) (.s 0))), (.sc, .add (ops (into (.v 1) 0) (.s 0) (.s 0))),
     (.sc, .cmp (ops (into (.s 1) 0) (.s 0) (.s 0)) .eq), (.sc, .pand ⟨al, into (.a 1) 0, false, 0, false, 0⟩), (.cx, .vadd (vops (into (.s 1) 0) (.v 0) (.v 0))), (.cx, .vadd (vops (into (.v 1) 1) (.v 0) (.v 0))),
     (.cx, .vcmp (vops (into (.v 1) 0) (.v 0) (.v 0)) .eq false false), (.cx, .vcmp (vops (into (.k 1) 1) (.v 0) (.v 0)) .eq false false), (.cx, .kand al (into (.p 1) 0) 1 2), (.sc, .madd (ops drop (.s 0) (.s 0))),
     (.sc, .bins (ops ⟨none, 2⟩ (.s 0) (.s 0)) 1), (.sc, .ffma (ops drop (.s 0) (.s 0))), (.cx, .vfma (vops drop (.v 0) (.v 0))), (.cx, .vins (vops drop (.s 0) (.s 0)) .int), (.cx, .vext (vops (into (.v 1) 0) (.v 0) (.s 0)) .int),
     (.sc, .aadd ⟨al, drop, in1, .strm, false⟩), (.sc, .acas ⟨al, into (.s 3) 0, in1, .strm, false⟩), (.sc, .acas ⟨al, into (.a 2) 0, in1, .strm, false⟩), (.sc, .afadd ⟨al, into (.a 2) 0, in1, .strm, 0, .rne⟩),
     (.sc, .br ⟨al, into (.s 1) 0, 4⟩), (.sc, .waitt ⟨al, into (.s 1) 0, 0, .s 0, .s 0, none⟩), (.cx, .vrng al (into (.s 1) 0) 0 false 0), (.ld, .stest al (into (.s 1) 0) 0 .bound)] = true := by decide

/-- Limits of fields: formats, rounding, conditions, lengths, counts, strides, stages, regions, rows, system registers (R44, R78, R113 to R117, R124
to R128, R217, R241, R321). -/
theorem test_illformed_fields : refusedWf
    [(.ld, .vld ⟨al, false, in1, 25, .strm, .none, false, false⟩), (.ld, .vldx ⟨al, false, in1, 5, .strm, .none, false, false⟩), (.st, .vst ⟨al, in1, 15, .rtz, .strm, .none, false⟩), (.st, .vstx ⟨al, in1, 11, .rne, .strm, .none, false⟩),
     (.st, .vst ⟨al, in1, 0, .rne, .strm, .fec, false⟩), (.st, .st ⟨al, .s 0, in1, .strm, .fec, 0⟩), (.st, .gst (.row al in1 31 .rne false)), (.sc, .afadd ⟨al, into (.s 2) 0, in1, .strm, 3, .rne⟩), (.sc, .lda ⟨al, drop, in1, .strm, .fe, false, 0⟩),
     (.sc, .stl ⟨al, .s 0, in1, .strm, .fe, 0⟩), (.sc, .fcvt ⟨al, drop, .s 0⟩ (.tomem 15 .rne)), (.sc, .fcvt ⟨al, drop, .s 0⟩ (.tomem 16 .rtz)), (.sc, .fcvt ⟨al, drop, .s 0⟩ (.frommem 25)), (.sc, .fcmp (ops drop (.s 0) (.s 0)) .ltu false),
     (.sc, .fcmp (ops drop (.s 0) (.s 0)) .lt true), (.cx, .vcmp (vops drop (.v 0) (.v 0)) .geu true false), (.sc, .bext (ops drop (.s 0) (.s 0)) 0), (.sc, .bins (ops (into (.s 1) 0) (.s 0) (.s 0)) 65), (.sc, .loop al 0 (.s 0) 3),
     (.cx, .mloop al 0 (.s 0) 7 0 4), (.cx, .mloop al 0 (.s 0) 1 17 4), (.sc, .mloop al 0 (.s 0) 1 1 4), (.cx, .mloop al 0 (.s 0) 1 0 3), (.sc, .rep al 0 false false false 0), (.sc, .rep al 65 false false false 0), (.sc, .rep al 2 false false false 1),
     (.sc, .qtest al drop (.ready .sc)), (.sc, .qtest al drop .vready), (.st, .qtest al drop .vspace), (.sc, .qtest al drop (.exited .sc)), (.sc, .sysrd al drop 0x16), (.sc, .syswr al 0x10 (.s 0)), (.ld, .syswr al 0x08 (.s 0)), (.cx, .lease al (some 0)),
     (.cx, .mmas ⟨al, .ft 0, false, .v 0, .v 8, false, 0, 0⟩), (.cx, .lsend al 4 (.s 0) none), (.cx, .vext (vops drop (.v 0) (.s 0) 1) .int), (.cx, .vins (vops (into (.v 1) 0) (.s 0) (.s 0) 1) .int), (.sc, .wstat al drop (.s 0) 3), (.sc, .wstat al drop (.s 1) 1),
     (.sc, .wunb al true (.s 1)), (.ld, .tinv al true (.s 1)), (.st, .l1wb ⟨al, true, ⟨.s 1, .s 0⟩⟩), (.sc, .ltag ⟨al, drop, .s 1, .s 0, none⟩), (.cx, .customOpcode ⟨0xBF, 0, al, 0, 0, 0, 0, 0, none⟩), (.cx, .customOpcode ⟨0xC0, 0, al, 8, 0, 0, 0, 0, none⟩),
     (.cx, .customOpcode ⟨0xC0, 0, al, 0, 0, 0, 1, 0, some 0⟩)] = true := by decide

/-- Words of a stream that another stream may not issue (R35), and events, which are no words. -/
theorem test_illformed_streams : refusedWf
    [(.cx, .ld ⟨al, drop, in1, .strm, .none, false, 0⟩), (.sc, .vld ⟨al, false, in1, 0, .strm, .none, false, false⟩), (.ld, .st ⟨al, .s 0, in1, .strm, .none, 0⟩), (.sc, .vst ⟨al, in1, 0, .rne, .strm, .none, false⟩), (.ld, .gst (.scalar al (.s 0) in1 0)),
     (.sc, .pref al in1 .strm false), (.st, .sbind al 0 (.s 0) true), (.sc, .snext al 0 (.s 0)), (.cx, .stest al drop 0 .bound), (.sc, .sdrop al 0), (.sc, .tlook al drop (.s 0)), (.sc, .tset al (.s 0) (.s 0)), (.sc, .tinv al false (.s 0)), (.sc, .feset ⟨al, .s 0, in1⟩),
     (.sc, .fetest al drop in1), (.sc, .l1wb ⟨al, false, in1⟩), (.ld, .aadd ⟨al, into (.s 2) 0, in1, .strm, false⟩), (.ld, .afadd ⟨al, into (.s 2) 0, in1, .strm, 0, .rne⟩), (.sc, .vadd (vops drop (.v 0) (.v 0))), (.sc, .vmov ⟨al, drop, .v 0, false, 0⟩ false),
     (.sc, .vbcst (vops drop (.v 0) (.s 0))), (.sc, .vrot (vops drop (.v 0) (.s 0)) .rot), (.sc, .vcmp (vops drop (.v 0) (.v 0)) .eq false false), (.sc, .kpopc al drop 0 false 0), (.sc, .vrng al drop 0 false 0), (.sc, .lease al none), (.sc, .lrel al), (.sc, .mzero al false),
     (.sc, .mfmt al 0 (.s 0)), (.sc, .mret al drop 0 false (.s 0) (.s 0)), (.cx, .wbind al (.s 0) (.s 0)), (.cx, .wcsrd al (.s 0) (.s 0) 0), (.sc, .customOpcode ⟨0xC0, 0, al, 0, 0, 0, 0, 0, none⟩), (.cx, .lfree al (.s 0)), (.sc, .lsend al 0 (.s 0) none), (.cx, .cestop al), (.cx, .ctab al (.s 0) (.s 0)),
     (.cx, .rslotRel al (.s 0)), (.sc, .microStep 0), (.cx, .jobCompletion 0)] = true := by decide

/-! ### States in which the hypotheses of the statements are met

`test_meets_X_n` takes a state in which core 0 runs a job on the tables of a placed program, and evaluates the hypotheses of clauses of
`Obligations.X` there. A hypothesis that names a free value (`Config`) cannot be evaluated and is left out: a statement holds for each of its
values. -/

/-- The slot of a stream of core 0 at the first byte of the mapped GiB. -/
def slot (x : Strm) : Cur :=
  { core := 0, strm := x, pc := 0x40000000, word := 0, lit := 0, size := 8, repk := 0, pops := [], poppedRow := none }

/-- Stream x of core 0 is at issue: context 1 on the tables of a placed program, a scratchpad of 64 KiB. -/
def at_ (x : Strm) (f : Job → Job := id) (g : Stream → Stream := id) : State :=
  { ((((State.reset.placeWord 0).modCore 0 (fun k => { k with ways := 4 })).modJob 0 f).modStrm 0 x g) with cur := some (slot x), turn := [] }

/-- Register values of a stream. -/
def regs (s : Tbl Word) (a : Tbl Word := []) (y : Stream) : Stream := { y with s := s, a := a }

/-- `Runs`, by evaluation. -/
def runs (s : State) (u : Cur) (g : Guard) : Bool :=
  s.cur == some u && (s.core u.core).job.isSome && guardHolds g (s.strmAt u.core u.strm) && (s.strmAt u.core u.strm).loops.isEmpty

theorem runs_of {s : State} {u : Cur} {g : Guard} (h : runs s u g = true) : Runs s u g := by
  simp only [runs, Bool.and_eq_true, beq_iff_eq, List.isEmpty_iff] at h
  exact ⟨h.1.1.1, h.1.1.2, h.1.2, by simp [State.loopFree, h.2]⟩

/-- The computation answers, and its value and state pass a test. -/
def got (r : EStateM.Result Stop State α) (f : α → State → Bool) : Bool :=
  match r with
  | .ok a t => f a t
  | .error _ _ => false

/-- The access answers, and its state and value pass a test. -/
def had (p : State × Except ε α) (f : State → α → Bool) : Bool :=
  match p.2 with
  | .ok a => f p.1 a
  | .error _ => false

/-- Bytes put in the scratchpad of core 0. -/
def spadAt (o : Nat) (bs : List Byte) (s : State) : State := s.modCore 0 (fun k => { k with spad := writeBytes k.spad o bs })

/-- A pattern descriptor of blocks in a row (R155): base, stride, count, block size. -/
def rowDesc (base str cnt blk : Nat) : List Byte :=
  leBytes base 8 ++ leBytes str 8 ++ leBytes 0 24 ++ leBytes cnt 4 ++ leBytes 1 4 ++ leBytes 1 4 ++ leBytes 1 4 ++ leBytes blk 2 ++ leBytes 0 6

/-- A vector register file (R97). -/
def rowsOf (v : Tbl Row) (j : Job) : Job := { j with v := v }

/-- A number by its byte fields: pairs of a byte offset and a value (R3). -/
def fields (l : List (Nat × Nat)) : Nat := l.foldl (fun n p => n + p.2 * 256 ^ p.1) 0

/-- The copy engine of core 0 at entry i, which is `raw`, of a chain at scratchpad offset 0x1000 that completes number 1 of t2. -/
def engine (raw i : Nat) (g : CopyEng → CopyEng := id) (s : State := at_ .sc) : State :=
  (s.modJob 0 (fun j => { j with t := tput {} j.t 2 { iss := 1 } })).modCe 0 (fun e =>
    g { e with chains := [{ head := 0x1000, ctr := 2, num := 1 }], entry := i, cur := some (BitVec.ofNat 256 raw) })

/-- `engineAt`, by evaluation. -/
def engineRuns (s : State) (raw : Nat) : Bool := s.ceLive 0 && !s.ceHalts 0 && (s.ceAt 0).cur == some (BitVec.ofNat 256 raw)

/-- A queue of context 1: 16 records, its rings in the mapped GiB. -/
def ring : Queue := { fn := 0, q := 0, ctx := 1, k := 4, prio := 2, vec := 5, subr := 0x40020000, cmpr := 0x40028000 }

/-- A record of queue 0 with these byte fields. -/
def rec_ (l : List (Nat × Nat)) (st : RecState) : Rec :=
  { queue := 0, idx := 0, bytes := BitVec.ofNat 1024 (fields l), state := st, prio := 2, irq := true, decls := [], fsb := 0, bind := [], next := 0,
    running := [], returned := [], reissued := 0, lost := false, order := 0, info := 0, susp := none }

/-- The fields of an operator record of one chunk for core 0 of die 0 (R353). -/
def operatorFields : List (Nat × Nat) :=
  [(0, 1), (8, 0x40000000), (16, 0x40000000), (24, 0x40000000), (32, 0x40000000), (40, 5), (48, 8), (53, 4), (56, 1), (60, 1), (64, 1),
   (80, 0x40030000)]

/-- The placed program's context with its queue, and records; `job` says whether core 0 runs. -/
def launch (rs : List (Nat × Rec)) (job : Bool := false) : State :=
  let s := at_ .sc
  { (if job then s else s.modCore 0 (fun k => { k with job := none })) with
    queues := [(0, some ring)], recs := rs.map (fun r => (r.1, some r.2)), nextRec := 5 }

/-- A collective on channel 0 of context 1, at a step with this word. -/
def collective (w : Word) (f : Coll → Coll := id) (g : Chan → Chan := id) (s : State := launch [(2, rec_ [(0, 2)] .running)]) : State :=
  s.modChan 1 0 (fun _ => g
    { set := true, rbase := 0x40042000, nslot := 2, slog := 12, peers := [(0x40048000, 3)], ctr := { iss := 1 }
      coll := some (f { rid := 2, buf := 0x40050000, blen := 130, fmt := 0, comb := 0, rnd := .rne, prog := 0x40060000, len := 4, step := 1,
                        num := some 1, word := some w, needSlot := false, fallback := 0, flen := 4, waited := 0, lines := [], susp := none,
                        release := none }) })

/-- A mailbox command by its byte fields (R413). -/
def cmd (l : List (Nat × Nat)) : BitVec 512 := BitVec.ofNat 512 (fields l)

/-- The firmware answers: the boot of the module is done (R415). -/
def booted (s : State := launch []) : State := { s with boot := 0x80000000 }

/-- The instruction answers a next state. -/
def answers (i : Instr) (s : State) : Bool :=
  match exec i s with
  | .next _ => true
  | _ => false

/-- No stream register among the sources: `blocksHere` holds. -/
def plain (l : List Src) : Bool :=
  l.all (fun x => match x with
    | .m _ => false
    | _ => true)

theorem test_meets_IntegerTwoSources : (
  let u := slot .sc
  let s := at_ .sc id (regs [(1, 5), (2, 0x8000000000000007)])
  let o : ROps := ⟨al, into (.s 31) 0b0110, .s 1, .s 2⟩
  runs s u al && got (operand2 u o.d o.a o.b s) fun (x, y) s1 => true) = true := by decide +kernel

theorem test_meets_IntegerForms_1 : (
  let u := slot .ld
  let s := at_ .ld id (regs [(1, 5), (2, 9)])
  let o : ROps := ⟨al, into (.a 15) 0, .s 1, .imm 0xFF⟩
  runs s u al && got (operand3 u o.d o.a o.b s) fun (x, y, z) s1 => true) = true := by decide +kernel

theorem test_meets_IntegerForms_2 : (
  let u := slot .st
  let s := at_ .st
  let o : ROps1 := ⟨al, drop, .zero⟩
  runs s u al && got (operand1 u o.d o.a s) fun x s1 => true) = true := by decide +kernel

theorem test_meets_IntegerForms_3 : (
  let u := slot .cx
  let s := at_ .cx id (regs [(1, 0x8000000000000000), (2, 0xFFFFFFFFFFFFFFFF)])
  let o : ROps := ⟨al, into (.s 3) 0, .s 1, .s 2⟩
  runs s u al && got (operand2 u o.d o.a o.b s) fun (x, y) s1 => decide (y ≠ 0) && true) = true := by decide +kernel

theorem test_meets_IntegerForms_4 : (
  let u := slot .sc
  let s := at_ .sc
  let o : ROps := ⟨al, into (.s 3) 0, .one, .zero⟩
  runs s u al && got (operand2 u o.d o.a o.b s) fun (x, y) s1 => decide (y = 0) && !u.second && true) = true := by decide +kernel

theorem test_meets_FloatArithmetic_1 : (
  let u := slot .sc
  let s := at_ .sc
  let o : ROps := ⟨al, into (.s 3) 0, .const 15, .lit 0x3F800000⟩
  runs s u al && got (floats2 u o.d o.a o.b s) fun (x, y) s1 => true) = true := by decide +kernel

theorem test_meets_FloatArithmetic_2 : (
  let u := slot .cx
  let s := at_ .cx
  let o : ROps := ⟨al, into (.s 3) 0, .one, .zero⟩
  runs s u al && got (floats3 u o.d o.a o.b s) fun (x, y, z) s1 => true) = true := by decide +kernel

theorem test_meets_ControlMembers_1 : (
  let u := slot .st
  let s := at_ .st id (fun y => { y with p := 0x81 })
  runs s u (if_ 7) && true) = true := by decide +kernel

theorem test_meets_ControlMembers_2 : (
  let u := slot .sc
  let s := at_ .sc
  runs s u al && !u.second && got (source1 u .one s) fun x s1 => !(s.core 0).obs.trc.getLsbD 0 && true) = true := by decide +kernel

theorem test_meets_ControlMembers_3 : (
  let u := slot .sc
  let s := at_ .sc
  runs s u al && (s.ctx? 1).all (fun x => !(x.coop && x.yieldBy.isSome)) && true) = true := by decide +kernel

theorem test_meets_ControlMembers_4 : (
  let u := slot .sc
  let s := ((at_ .sc id (fun y => { y with entry := 0x40001000 })).modCtx 1 (fun x => { x with coop := true, yieldBy := some 9 })).place 0x40000F80 (leBytes (0x40000041 + 2 ^ 65) 16)
  runs s u al && (s.ctx? 1).all (fun x => x.coop && x.yieldBy.isSome) && (match checkAddr s 0 ((s.strmAt 0 .sc).entry.toNat - 128 : Int) 16 1 false with
    | .ok ar => had (s.loadArea 0 .sc ar 16 .strm) fun s1 bs => (firstBad ar.va bs).isNone && leNat ((bs.take 8).map (·.1)) != 0 && true
    | .error _ => false)) = true := by decide +kernel

theorem test_meets_ExitAndRendezvous_1 : (
  let u := slot .ld
  let s := at_ .ld
  runs s u al && !u.second && !(s.strmAt 0 .ld).rdvWait && (s.strmAt 0 .ld).log.isEmpty && true) = true := by decide +kernel

theorem test_meets_ExitAndRendezvous_2 : (
  let s := at_ .sc (fun j => { j with sc := { j.sc with rdv := 1, rdvWait := true }, ld := { j.ld with exited := true }, cx := { j.cx with exited := true }, st := { j.st with rdv := 1, rdvWait := true } })
  (s.core 0).job.any (·.rdvMet) && true) = true := by decide +kernel

theorem test_meets_SystemRegisters_1 : (
  let u := slot .ld
  let s := at_ .ld id (regs [(1, 7), (2, 15)])
  runs s u al && (s.jobAt 0).noRoom .ld (into (.s 1) 1) == none && got (source1 u (.lit 5) s) fun w s1 => true) = true := by decide +kernel

theorem test_meets_SystemRegisters_2 : (
  let u := slot .ld
  let s := at_ .ld id (regs [(1, 7), (2, 15)])
  runs s u al && (got (operand1 u drop (.s 1) s) fun i s1 => decide (i.toNat ≤ 7) && true)
    && got (operand1 u drop (.s 2) s) fun i s1 => decide (i.toNat ≤ 15) && true) = true := by decide +kernel

theorem test_meets_SystemRegisters_3 : (
  let s := at_ .sc
  let w : Word := 0xFEDCBA9876543210
  let rw := fun (n : Nat) => (s.setSysReg 0 .sc n w).sysReg 0 .sc n
  (s.core 0).job.isSome && true) = true := by decide +kernel

theorem test_meets_Branches_1 : (
  let u := slot .cx
  let s := at_ .cx
  let o : BOps := ⟨al, into (.s 1) 0b1000, 0xF0000000⟩
  let t : Int := (u.pc.toNat : Int) + 4 * o.off.toInt
  runs s u al && !(s.strmAt 0 .cx).inMloop u.pc && t == 0 && (s.jobAt 0).noRoom .cx o.d == none && true) = true := by decide +kernel

theorem test_meets_Branches_2 : (
  let u := slot .sc
  let s := at_ .sc id (regs [(1, 0xFFFFFFFFFFFFFF), (2, 0xFFFFFFFFFFFFFFFD)])
  let o : ROps := ⟨al, drop, .s 1, .s 2⟩
  runs s u al && got (operand2 u o.d o.a o.b s) fun (x, y) s1 => !(s1.strmAt 0 .sc).inMloop u.pc && x.toInt + y.toInt == 2 ^ 56 - 4 && true) = true := by decide +kernel

theorem test_meets_Loops_1 : (
  let u := slot .cx
  let s := at_ .cx
  runs s u al && got (source1 u .zero s) fun v s1 => v == 0 && (tget none (s1.jobAt 0).lhold 3).isNone && (s1.strmAt 0 .cx).loops.isEmpty && true) = true := by decide +kernel

theorem test_meets_Loops_2 : (
  let u := slot .cx
  let s := at_ .cx id (regs [(1, 0xFFFFFFFF)])
  runs s u al && got (source1 u (.s 1) s) fun v s1 => decide (v.toNat < 2 ^ 32) && v != 0 && (tget none (s1.jobAt 0).lhold 0).isNone && (s1.strmAt 0 .cx).loops.isEmpty && true) = true := by decide +kernel

theorem test_meets_Loops_3 : (
  let u := slot .sc
  let l : LoopEnt := { newLoop u 2 8 3 false 0 0 with start := 0x3FFFFFF8, fin := 0x40000010, traced := true }
  let s := at_ .sc (fun j => { j with lhold := [(2, some .sc)] }) (fun y => { y with loops := [l] })
  s.cur == some u && (s.core 0).job.isSome && guardHolds al (s.strmAt 0 .sc) && (l.traced && decide (u.pc.toNat + u.size ≤ l.fin.toNat)) && (match breakLoops 2 ((s.jobAt 0).strm .sc).loops (s.jobAt 0) with
    | (j, ls, some e) => true
    | _ => false)) = true := by decide +kernel

theorem test_meets_PredicateLogic : (
  let u := slot .ld
  let s := at_ .ld id (fun y => { y with p := 0x23 })
  let o : POps := ⟨al, into (.p 7) 0b1000, true, 5, false, 1⟩
  let a := (s.strmAt 0 .ld).pred o.pa != o.na
  let b := (s.strmAt 0 .ld).pred o.pb != o.nb
  runs s u al && (s.jobAt 0).noRoom .ld o.d == none && true) = true := by decide +kernel

theorem test_meets_ScalarLoads_1 : (
  let u := slot .sc
  let s := spadAt 0x108 (leBytes 0x1122334455667788 8) (at_ .sc (fun j => j) (regs [(1, 0x108)]))
  let o : LdOps := ⟨al, into (.s 3) 0b0100, ⟨.s 1, .zero⟩, .strm, .fec, false, 3⟩
  let s := s.modCore 0 (fun k => { k with fe := [(0x10, true)], feOld := [(0x10, true)] })
  runs s u al && got (loadReady u o s) fun (a, ar) s1 => !(ar.isTrans && o.d.reg.isNone && !o.zf) && had (s1.loadArea 0 .sc ar 8 o.scope) fun s3 bs => (firstBad a.toNat bs).isNone && (s.strmAt 0 .sc).log.isEmpty && true) = true := by decide +kernel

theorem test_meets_ScalarLoads_2 : (
  let u := slot .ld
  let s := { at_ .ld id (regs [(1, 0x400010FF)]) with poison := [(0x40001080 / 128, 1)] }
  let o : LdOps := ⟨al, into (.s 3) 0, ⟨.s 1, .zero⟩, .mod, .none, true, 0⟩
  runs s u al && got (loadReady u o s) fun (a, ar) s1 => !(ar.isTrans && o.d.reg.isNone && !o.zf) && had (s1.loadArea 0 .ld ar 1 o.scope) fun s3 bs => o.zf && (firstBad a.toNat bs).any (fun v => true)) = true := by decide +kernel

theorem test_meets_ScalarLoads_3 : (
  let u := slot .ld
  let s := at_ .ld id (regs [(1, 0x40001000)])
  let o : LdOps := ⟨al, ⟨none, 0b0100⟩, ⟨.s 1, .zero⟩, .mod, .none, false, 3⟩
  runs s u al && got (loadReady u o s) fun (a, ar) s1 => ar.isTrans && o.d.reg.isNone && !o.zf && (s1.defers true).2.free == s1.free + 1 && had (s1.loadArea 0 .ld ar 8 o.scope) fun s3 bs => (firstBad a.toNat bs).isNone) = true := by decide +kernel

theorem test_meets_RowLoads_1 : (
  let u := slot .ld
  let s := spadAt 0x200 (leBytes 0x3F803F80 4) (at_ .ld id (regs [(1, 0x200)]))
  let o : VldOps := ⟨al, true, ⟨.s 1, .zero⟩, 1, .strm, .none, false, false⟩
  runs s u al && got (rowLoadReady u o s) fun (f, a, ar) s1 => !(ar.isTrans && !o.zf) && had (s1.loadArea 0 .ld ar (runBytes f.width (laneN o.lw)) o.scope) fun s3 bs => (firstBad a.toNat bs).isNone && true) = true := by decide +kernel

theorem test_meets_RowLoads_2 : (
  let u := slot .ld
  let bs := List.replicate 256 (0x3F : Byte)
  let r : MReg := { data := true, pat := { base := 0, str0 := 256, str1 := 0, str2 := 0, str3 := 0, cnt0 := 2, cnt1 := 1, cnt2 := 1, cnt3 := 1, blk := 256 }, pos := 1, buf := [{ index := 1, bytes := some bs }] }
  let s := at_ .ld id (fun y => { y with m := [(7, some r)] })
  let o : VldOps := ⟨al, true, ⟨.m 7, .zero⟩, 1, .strm, .none, false, false⟩
  runs s u al && decide ((s.strmAt 0 .ld).log.length < 32) && (fmtOf (fun i => tget 0 (s.jobAt 0).fd i) 1).any (fun f => (s.jobAt 0).noRoom .ld (pushDest true) == none && tget none (s.strmAt 0 .ld).m 7 == some r && r.data && decide (r.pos < r.pat.total) && r.pat.blk.toNat == runBytes f.width 128 && r.buf.head?.any (fun b => b.bytes == some bs && true))) = true := by decide +kernel

theorem test_meets_RowLoads_3 : (
  let u := slot .ld
  let s := at_ .ld id (regs [(1, 0x400), (2, 0x2000)])
  let o : VldOps := ⟨al, true, ⟨.s 1, .s 2⟩, 3, .strm, .none, true, false⟩
  runs s u al && got (gatherReady u o s) fun (f, ars) s1 => !(ars.all Area.isTrans && !o.zf) && had (State.goodLoads 0 .ld (runBytes f.width 1) o.scope o.zf ars s1) fun s3 l => l.all (fun bs => !bs.any (·.2))) = true := by decide +kernel

theorem test_meets_RowLoads_4 : (
  let u := slot .ld
  let s := at_ .ld id (regs [(1, 0x40000080)])
  runs s u al && got (address u ⟨.s 1, .zero⟩ s) fun a s1 => decide (0 ≤ a ∧ a + 1 ≤ 2 ^ 56) && true) = true := by decide +kernel

theorem test_meets_Stores_1 : (
  let u := slot .st
  let s := at_ .st id (regs [(1, 0xFFF8), (2, 0xABCD)])
  let o : StOps := ⟨al, .s 2, ⟨.s 1, .zero⟩, .strm, .fe, 3⟩
  runs s u al && got (storeReady u o s) fun (w, a, ar) s1 => !ar.isTrans && had (s1.storeArea 0 3 ar (fullMask (leBytes w.toNat 8)) o.scope true) fun s3 () => true) = true := by decide +kernel

theorem test_meets_Stores_2 : (
  let u := slot .st
  let s := at_ .st id (regs [(1, 0x40000FF8)])
  let o : StOps := ⟨al, .const 3, ⟨.s 1, .zero⟩, .mod, .none, 2⟩
  runs s u al && got (storeReady u o s) fun (w, a, ar) s1 => ar.isTrans && (s1.defers true).2.free == s1.free + 1 && had (s1.storeArea 0 3 ar (fullMask (leBytes w.toNat 4)) o.scope false) fun s3 () => true) = true := by decide +kernel

theorem test_meets_Stores_3 : (
  let u := slot .sc
  let s := at_ .sc id (regs [(1, 0x40001000), (2, 0xABCD)])
  let o : StOps := ⟨al, .s 2, ⟨.s 1, .zero⟩, .die, .none, 1⟩
  runs s u al && (needAll s u {} (addrRds o.at_ ++ [.scalar o.data])).isEmpty && got (releaseWait u o.scope (o.scope == .dom) s) fun _ s0 => got (storeReady u o s0) fun (w, a, ar) s1 => had (s1.storeArea 0 0 ar (fullMask (leBytes w.toNat 2)) o.scope false) fun s3 () => true) = true := by decide +kernel

theorem test_meets_Stores_4 : (
  let u := slot .st
  let s := at_ .st (fun j => { j with vqCx := [.full 0x3F800003F] }) (regs [(1, 0x300)])
  let o : VstOps := ⟨al, ⟨.s 1, .zero⟩, 2, .rtz, .strm, .none, false⟩
  runs s u al && o.rnd != .rsto && got (rowStoreReady u o s) fun (f, row, a, ar) s1 => !ar.isTrans && had ((s1.flagged u (rowElems f o.lw o.rnd row []).2).storeArea 0 3 ar (packRun f.width (rowElems f o.lw o.rnd row []).1) o.scope false) fun s3 () => true) = true := by decide +kernel

theorem test_meets_Stores_5 : (
  let u := slot .st
  let s := at_ .st (fun j => { j with vqCx := [.full 0x3F800003F] }) (regs [(1, 0x40001000)])
  let o : VstOps := ⟨al, ⟨.s 1, .zero⟩, 2, .rtz, .mod, .none, false⟩
  runs s u al && o.rnd != .rsto && got (rowStoreReady u o s) fun (f, row, a, ar) s1 => ar.isTrans && ((s1.flagged u (rowElems f o.lw o.rnd row []).2).defers true).2.free == s1.free + 1) = true := by decide +kernel

theorem test_meets_Stores_7 : (
  let u := slot .st
  let s := at_ .st (fun j => { j with vqCx := [.full 0x3F800003F] }) (regs [(1, 0x300), (2, 0x2000)])
  let o : VstOps := ⟨al, ⟨.s 1, .s 2⟩, 3, .rtz, .strm, .none, false⟩
  runs s u al && o.rnd != .rsto && got (scatterReady u o s) fun (f, row, ars) s1 => !ars.all Area.isTrans && ars != [] && had ((s1.flagged u (rowElems f o.lw o.rnd row []).2).storeAll 0 3 o.scope ((ars.zip (rowElems f o.lw o.rnd row []).1).map (fun p => (p.1, packRun f.width [p.2])))) fun s3 _ => true) = true := by decide +kernel

theorem test_meets_GalleryStores_1 : (
  let u := slot .st
  let s := at_ .st (fun j => { j with gwin := [(3, 0x8000800500010002)] }) (regs [(1, 0x2FF8), (2, 0xABCD)])
  runs s u al && (got (needLogEntry u true s) fun _ t => t == s) && (needAll s u {} (addrRds ⟨.s 1, .zero⟩ ++ [.scalar (.s 2)])).isEmpty && got (readAddr u ⟨.s 1, .zero⟩ s) fun a s1 => got (readScalar u (.s 2) s1) fun w s2 => got (galleryReady u false a 8 8 s2) fun ms t => t == s2 && true) = true := by decide +kernel

theorem test_meets_GalleryStores_2 : (
  let u := slot .st
  let s := at_ .st (fun j => { j with gwin := [(0, 0x8000800500010002)], vqCx := [.full 77] }) (regs [(1, 0x2000)])
  runs s u al && (match rowFmt u 2 false s with
    | .ok f s0 => s0 == s && (got (needLogEntry u true s0) fun _ t => t == s0) && (needAll s0 u {} (addrRds ⟨.s 1, .zero⟩ ++ [.stRow])).isEmpty && got (readAddr u ⟨.s 1, .zero⟩ s0) fun a s1 => got (popRow u .cx s1) fun row s2 => got (galleryReady u true a (runBytes f.width 128) 16 s2) fun ms t => t == s2 && true
    | .error _ _ => false)) = true := by decide +kernel

theorem test_meets_GalleryStores_3 : (
  let s := { at_ .st with galleries := [{ id := 5, arrive := 0, die := 0, src := 0, members := [0, 15], pieces := [{ addr := 0x2FF8, bytes := fullMask [1, 2, 3] }] }] }
  (match takeFirstBy (fun (g : Gallery) => g.id == 5) s.galleries with
    | some (g, rest) => g.pieces.length == 1 && g.pieces.all (fun p => p.bytes.all (fun b => b.2 == 0xFF) && true)
    | none => false)) = true := by decide +kernel

theorem test_meets_StreamRegisters_1 : (
  let u := slot .ld
  let s := spadAt 0x40 (rowDesc 0x1000 576 (2 ^ 32 - 1) 576) (at_ .ld id (regs [(1, 0x40)]))
  runs s u al && got (source1 u (.s 1) s) fun a s1 => got (mayAccess u a.toInt 64 64 .none false false s1) fun ar t => t == s1 && got (watch u ar.va 64 true false s1) fun _ t => t == s1 && had (s1.loadArea 0 .ld ar 64 .strm) fun s2 bs => (firstBad ar.va bs).isNone && (bindOf true (bs.map (·.1))).any (fun r => true)) = true := by decide +kernel

theorem test_meets_StreamRegisters_2 : (
  let r : MReg := { data := true, pat := { base := 0x1000, str0 := 256, str1 := 0, str2 := 0, str3 := 0, cnt0 := 2, cnt1 := 1, cnt2 := 1, cnt3 := 1, blk := 8 }, pos := 1, buf := [] }
  let s := at_ .ld id (fun y => { y with m := [(0, some r)] })
  (s.core 0).job.isSome && tget none (s.strmAt 0 .ld).m 0 == some r && r.wants && (match checkAddr s 0 (r.pat.addr 1) 8 8 false with
    | .ok ar => had (s.loadArea 0 .ld ar 8 .strm) fun s1 bs => bs.all (fun b => !b.2) && true
    | .error _ => false)) = true := by decide +kernel

theorem test_meets_StreamRegisters_3 : (
  let u := slot .ld
  let r : MReg := { data := true, pat := { base := 0x1000, str0 := 256, str1 := 0, str2 := 0, str3 := 0, cnt0 := 9, cnt1 := 1, cnt2 := 1, cnt3 := 1, blk := 8 }, pos := 1, buf := [{ index := 1, bytes := none }] }
  let s := at_ .ld id (fun y => { y with m := [(5, some r)], s := [(1, 0xFFFFFFFF)] })
  runs s u al && tget none (s.strmAt 0 .ld).m 5 == some r && (needAll s u {} [.scalar (.s 1)]).isEmpty && (s.jobAt 0).noRoom .ld (into (.p 2) 0) == none && true) = true := by decide +kernel

theorem test_meets_TagsGranulesLines_1 : (
  let u := slot .ld
  let s := (at_ .ld id (regs [(1, 0xFF00000000000009)])).modCore 0 (fun k => { k with tags := [(7, some 9), (8, some 10)] })
  runs s u al && got (operand1 u (into (.s 2) 0) (.s 1) s) fun k s1 => (match (s1.core 0).tags.find? (fun e => e.2 == some (k.setWidth 56)) with
    | some e => true
    | none => false)) = true := by decide +kernel

theorem test_meets_TagsGranulesLines_2 : (
  let u := slot .ld
  let s := (at_ .ld id (regs [(1, 9), (2, 255)])).modCore 0 (fun k => { k with tags := [(8, some 10)] })
  runs s u al && got (operand1 u (into (.s 2) 0) (.s 1) s) fun k s1 => ((s1.core 0).tags.find? (fun e => e.2 == some (k.setWidth 56))).isNone && true) = true := by decide +kernel

theorem test_meets_TagsGranulesLines_3 : (
  let u := slot .ld
  let s := (at_ .ld id (regs [(1, 10), (2, 255)])).modCore 0 (fun k => { k with tags := [(8, some 10)] })
  runs s u al && (got (source2 u (.s 2) (.s 1) s) fun (i, k) s1 => decide (i.toNat ≤ 255) && true) && got (source1 u (.s 2) s) fun i s1 => decide (i.toNat ≤ 255) && true) = true := by decide +kernel

theorem test_meets_TagsGranulesLines_4 : (
  let u := slot .ld
  let s := at_ .ld id (regs [(1, 0xFFF0)])
  let o : FeOps := ⟨al, .one, ⟨.s 1, .zero⟩⟩
  runs s u al && got (address u o.at_ s) fun a s1 => got (readScalar u o.cnt s1) fun n s2 => n != 0 && (match checkAddr s2 0 a (16 * n.toNat) 16 true with
    | .ok (.spad off) => true
    | _ => false)) = true := by decide +kernel

theorem test_meets_TagsGranulesLines_5 : (
  let u := slot .ld
  let s := (at_ .ld id (regs [(1, 0xFFF0)])).modCore 0 (fun k => { k with fe := [(0xFFF, true)] })
  let o : FeOps := ⟨al, .zero, ⟨.s 1, .zero⟩⟩
  runs s u al && (got (address u o.at_ s) fun a s1 => got (readScalar u o.cnt s1) fun n s2 => n == 0 && true) && (s.jobAt 0).noRoom .ld (into (.p 7) 1) == none && got (address u o.at_ s) fun a s1 => (match checkAddr s1 0 a 16 16 true with
    | .ok (.spad off) => true
    | _ => false)) = true := by decide +kernel

theorem test_meets_TagsGranulesLines_6 : (
  let u := slot .st
  let s := (at_ .st id (regs [(1, 0x40001000), (2, 0x1FFFFFF)])).l1Store 0 3 1 0x40001004 (fullMask [1, 2]) .strm
  let o : L1Ops := ⟨al, true, ⟨.s 0, .s 0⟩⟩
  runs s u al && (s.strmAt 0 .st).log.isEmpty && true && (got (address u ⟨.s 2, .zero⟩ s) fun a s1 => decide (0 ≤ a ∧ a < 0x2000000) && true) && got (address u ⟨.s 1, .zero⟩ s) fun a s1 => decide (0x2000000 ≤ a) && (match checkAddr s1 0 a 1 1 false with
    | .ok (.trans va) => had (s1.translate 0 1 va .any) fun s2 pa => true
    | _ => false)) = true := by decide +kernel

theorem test_meets_Fences : (
  let u := slot .st
  let s := at_ .st
  runs s u al && (s.strmAt 0 .st).log.isEmpty && !(s.strmAt 0 .st).relDone && true && (got (releaseWait u .die false s) fun _ s1 => true) && got (releaseWait u .dom (scopeWide .dom) s) fun _ s1 => true) = true := by decide +kernel

theorem test_meets_Atomics_1 : (
  let u := slot .sc
  let s := spadAt 0x100 (leBytes 9 4) (at_ .sc id (regs [(0, 5), (1, 0x100), (4, 9), (5, 77)]))
  let o : AOps := ⟨al, into (.s 4) 0b1000, ⟨.s 1, .zero⟩, .strm, false⟩
  runs s u al && got (atomicAddr u o.d o.at_ 4 s) fun ar s1 => got (readDst u o.d s1) fun d t => t == s1 && ar == .spad 0x100 && (s1.localBad 0 ar 4).isNone && leNat (readBytes (s1.core 0).spad 0x100 4) == 9) = true := by decide +kernel

theorem test_meets_Atomics_2 : (
  let u := slot .sc
  let s := at_ .sc id (regs [(1, 0x40001000), (4, 0xF00000009)])
  let o : AfOps := ⟨al, into (.s 4) 0, ⟨.s 1, .zero⟩, .mod, 0, .rup⟩
  runs s u al && o.rnd != .rsto && (stdFmt 0).any (fun f => got (atomicAddr u o.d o.at_ 4 s) fun ar s1 => got (readDst u o.d s1) fun d t => t == s1 && ar == .trans 0x40001000 && had (s1.translateRange 0 (s1.jobAt 0).ctx 0x40001000 4 .rw) fun s2 ps => paMod (ps.headD (0, 0)).1 == s2.ownMod && had (s2.atomicHome 0 .sc 0x40001000 (ps.headD (0, 0)).1 4 (fun m => (afaddRes f o.rnd 0 m (w36 d)).1)) fun s3 m => true)) = true := by decide +kernel

theorem test_meets_TimelineCounters_1 : (
  let u := slot .cx
  let s := at_ .cx (fun j => { j with t := [(15, { iss := 7, done := 5 })] }) (regs [(1, 3), (2, 2)])
  let o : CtrOps := ⟨al, drop, 15, .s 1, .s 2, some 3⟩
  runs s u al && got (source2 u o.a o.b s) fun (a, b) s1 => decide ((a + b).toNat ≤ ((s1.jobAt 0).ctr 15).done.toNat) && (s1.strmAt 0 .cx).log.isEmpty && true) = true := by decide +kernel

theorem test_meets_TimelineCounters_2 : (
  let u := slot .cx
  let s := at_ .cx (fun j => { j with t := [(15, { iss := 7, done := 5 })] }) (regs [(1, 3), (2, 3)])
  let o : CtrOps := ⟨al, drop, 15, .s 1, .s 2, some 3⟩
  runs s u al && (got (source2 u o.a o.b s) fun (a, b) s1 => decide (((s1.jobAt 0).ctr 15).done.toNat < (a + b).toNat) && true) && (s.jobAt 0).noRoom .cx (into (.a 3) 0) == none && true) = true := by decide +kernel

theorem test_meets_TimelineCounters_3 : (
  let u := slot .cx
  let s := at_ .cx id (regs [(1, 65536)])
  runs s u al && got (operand1 u (into (.s 2) 0) (.s 1) s) fun k s1 => decide (1 ≤ k.toNat ∧ k.toNat ≤ 65536) && ((s1.jobAt 0).ctr 4).canTake k.toNat && (s1.strmAt 0 .cx).log.isEmpty && true) = true := by decide +kernel

theorem test_meets_MemoryEvents_1 : (
  let s := at_ .ld id (fun y => { y with pc := 0x40000000 })
  (s.core 0).job.isSome && (s.strmAt 0 .ld).live && (s.strmAt 0 .ld).fetched.isNone && had (s.codeWord 0 0x40000000) fun s1 f => true) = true := by decide +kernel

theorem test_meets_MemoryEvents_2 : (
  let e : LogEnt := { id := 3, pc := 0, word := 0, lit := 0, repk := 0, scope := .mod, op := .ld 0x40001000 8, fills := [], row := none }
  let s := at_ .ld id (fun y => { y with log := [e], replay := true })
  (s.core 0).job.isSome && (s.strmAt 0 .ld).susp.isNone && !(s.strmAt 0 .ld).trapped && (s.strmAt 0 .ld).replay && had (s.performLog 0 .ld e) fun s1 () => true) = true := by decide +kernel

theorem test_meets_MemoryEvents_3 : (
  let e : LogEnt := { id := 3, pc := 0, word := 0, lit := 0, repk := 0, scope := .mod, op := .ld 0x80001000 8, fills := [], row := none }
  let s := at_ .ld id (fun y => { y with log := [e] })
  (s.core 0).job.isSome && (s.strmAt 0 .ld).susp.isNone && !(s.strmAt 0 .ld).trapped && (match (s.performLog 0 .ld e).2 with
    | .error f => f.cause != 0x08 && true
    | .ok _ => false)) = true := by decide +kernel

theorem test_meets_MemoryEvents_4 : (
  let s := at_ .ld (fun j => { j with q := [(6, [.resv 3, .full 1])] }) (fun y => { y with returned := [(0, 3, .inl 0x77)] })
  (s.core 0).job.isSome && (s.strmAt 0 .ld).returned == [(0, 3, .inl 0x77)] && decide (0 ≤ s.now) && true) = true := by decide +kernel

theorem test_meets_MemoryEvents_5 : (
  let s := at_ .st id (fun y => { y with unacked := [4, 5] })
  (s.core 0).job.any (fun j => j.adv.isEmpty && true)) = true := by decide +kernel

theorem test_meets_MemoryEvents_6 : (
  let r : HomeReq := { id := 4, die := 0, epoch := 0, clock := [], core := 0, unit_ := 3, pa := 0x40001000, bytes := fullMask [1, 2], ctx := 1, asid := 1 }
  let s := (at_ .st).modBase 0 (fun b => { b with reqs := [r] })
  applicable [] (s.base 0).reqs == [r] && true) = true := by decide +kernel

theorem test_meets_MemoryEvents_7 : (
  let s := at_ .st
  let m := { s with modnum := some 0 }
  let pa : Word := 0x40001000
  let ok := fun (s : State) => s.modnum.isNone || s.portsShut (s.partOfLocal (paLocal pa.toNat)).1 || !s.physOk (s.partOfLocal (paLocal pa.toNat)).1 pa.toNat
  ok s && !ok m && true) = true := by decide +kernel

theorem test_meets_Watchdogs_1 : (
  let s := fun (w : Wait) => at_ .ld id (fun y => { y with wait := some (w, 2 ^ 24) })
  (s (.push 6)).core 0 |>.job.any (fun j => (j.strm .ld).wait == some (.push 6, 2 ^ 24) && (j.strm .ld).live && j.micro.isNone && true)) = true := by decide +kernel

theorem test_meets_Watchdogs_2 : (
  let s := at_ .ld id (fun y => { y with wait := some (.granule 0xFF8 16, 2 ^ 24) })
  (s.core 0).job.any (fun j => (j.strm .ld).live && j.micro.isNone && (emptyGranule (s.core 0).fe 0xFF8 16).any (fun e => true))) = true := by decide +kernel

theorem test_meets_Watchdogs_3 : (
  let s := fun (x : Strm) (w : Wait) => at_ x id (fun y => { y with wait := some (w, 2 ^ 24) })
  ((s .sc .pin).core 0).job.any (fun j => (j.strm .sc).live && j.micro.isNone) && ((s .cx .credit).core 0).job.any (fun j => (j.strm .cx).live && j.micro.isNone) && true) = true := by decide +kernel

theorem test_meets_FloatConversions_1 : (
  let u := slot .cx
  let s := at_ .cx id (regs [(1, 0x8000000000000000)])
  let o : ROps1 := ⟨al, into (.s 3) 0b0001, .s 1⟩
  runs s u al && got (operand1 u o.d o.a s) fun x s1 => (fmtOf (fun i => tget 0 (s.jobAt 0).fd i) 13).any (fun f => true)) = true := by decide +kernel

theorem test_meets_FloatConversions_2 : (
  let u := slot .sc
  let s := at_ .sc id (regs [(1, 0x7F8000001)])
  let o : ROps1 := ⟨al, into (.s 3) 0, .s 1⟩
  runs s u al && got (floats1 u o.d o.a s) fun x s1 => (fmtOf (fun i => tget 0 (s.jobAt 0).fd i) 2).any (fun f => precisionOk false f && true)) = true := by decide +kernel

theorem test_meets_VectorTwoSources_1 : (
  let u := slot .cx
  let s := at_ .cx (fun j => { rowsOf [(0, 0x7F0000003), (127, 0x3F8000000)] j with k := [(15, 0xF)] })
  let o : VOps := ⟨al, into (.v 1) 0b10000, .v 0, .v 127, false, 15⟩
  runs s u al && got (lanes2 u o false false s) fun (a, b, d) s1 => true) = true := by decide +kernel

theorem test_meets_VectorTwoSources_2 : (
  let u := slot .cx
  let s := at_ .cx (rowsOf [(0, 0x7F003), (1, 5), (127, 0x3F800)])
  let o : VOps := ⟨al, into (.v 1) 0, .v 0, .v 127, true, 0⟩
  runs s u al && got (lanes2 u o false true s) fun (a, b, d) s1 => true) = true := by decide +kernel

theorem test_meets_VectorTwoSources_3 : (
  let u := slot .cx
  let s := at_ .cx (rowsOf [(0, 0x7FFFFFFFF), (1, 5)])
  let o : VOps := ⟨al, into (.v 1) 0, .v 0, .s 0, false, 0⟩
  runs s u al && got (lanes2 u o true false s) fun (a, b, d) s1 => true) = true := by decide +kernel

theorem test_meets_VectorMoves_1 : (
  let u := slot .cx
  let s := at_ .cx (rowsOf [(0, 0xC00000001)])
  let o : VOps1 := ⟨al, into (.v 1) 0, .v 0, false, 0⟩
  runs s u al && got (lanes1 u o true s) fun a s1 => true) = true := by decide +kernel

theorem test_meets_VectorMoves_2 : (
  let u := slot .cx
  let s := at_ .cx (rowsOf [(0, 0x123456789ABCDEF0123456789)]) (regs [(1, 129)])
  let o : VOps := ⟨al, into (.v 1) 0, .v 0, .s 1, false, 0⟩
  runs s u al && got (laneScalar u o s) fun (a, b) s1 => true) = true := by decide +kernel

theorem test_meets_VectorMoves_3 : (
  let u := slot .cx
  let s := at_ .cx (fun j => { rowsOf [(0, 0x123456789ABCDEF0123456789), (2, 0x000000002000000001)] j with k := [(1, 5)] })
  let o : VOps := ⟨al, into (.v 1) 0, .v 0, .v 2, false, 1⟩
  runs s u al && (s.jobAt 0).noRoom .cx o.d == none && (got (needRowWrite u o.d s) fun _ t => t == s) && (needAll s u {} ([.vec o.a, .vec o.b] ++ dstRd o.d o.k false)).isEmpty && got (readVec u false false o.a s) fun a s1 => (got (readVec u false false o.b s1) fun b s2 => true) && got (readVec u false true o.b s1) fun b s2 => true) = true := by decide +kernel

theorem test_meets_VectorMoves_4 : (
  let u := slot .cx
  let s := at_ .cx (rowsOf [(0, 0xF00000001 <<< 4572)]) (regs [(1, 127)])
  let o : VOps := ⟨al, into (.s 9) 0b0001, .v 0, .s 1, false, 0⟩
  runs s u al && (s.jobAt 0).noRoom .cx o.d == none && (got (needRowWrite u o.d s) fun _ t => t == s) && (needAll s u {} [.vec o.a, .scalar o.b]).isEmpty && got (readVec u false false o.a s) fun a s1 => got (readScalar u o.b s1) fun x s2 => true) = true := by decide +kernel

theorem test_meets_VectorMoves_5 : (
  let u := slot .cx
  let s := at_ .cx (rowsOf [(1, 0xF00000001)]) (regs [(1, 256), (2, 0xFFFFFFFFFFFFFFF0)])
  let o : VOps := ⟨al, into (.v 1) 0b10000, .s 2, .s 1, true, 0⟩
  runs s u al && (s.jobAt 0).noRoom .cx o.d == none && (got (needRowWrite u o.d s) fun _ t => t == s) && (needAll s u {} [.scalar o.a, .scalar o.b, .vec (destSrc o.d)]).isEmpty && (got (readScalar u o.a s) fun v s1 => got (readScalar u o.b s1) fun x s2 => got (oldRow u o.d s2) fun b s3 => true) && got (readFloat u o.a s) fun v s1 => got (readScalar u o.b s1) fun x s2 => got (oldRow u o.d s2) fun b s3 => true) = true := by decide +kernel

theorem test_meets_LaneMasks : (
  let u := slot .cx
  let s := at_ .cx (fun j => { rowsOf [(0, 0xF00000001)] j with k := [(1, 5), (15, 0xFF)] })
  let o : VOps := ⟨al, into (.k 15) 0, .v 0, .zero, false, 1⟩
  runs s u al && (s.jobAt 0).noRoom .cx (into (.s 1) 0) == none && got (cmpLanes u o true s) fun (a, b) s1 => true) = true := by decide +kernel

theorem test_meets_VectorConversions_1 : (
  let u := slot .cx
  let s := at_ .cx (rowsOf [(0, 0x3F8000001), (1, 77)])
  let o : ROps1 := ⟨al, into (.v 1) 0, .v 0⟩
  let c := VCvtKind.f36f18 true
  runs s u al && cvtRnd c != .rsto && (s.jobAt 0).noRoom .cx o.d == none && (got (needRowWrite u o.d s) fun _ t => t == s) && (needAll s u {} ([.vec o.a] ++ dstRd o.d 0 ((cvtWidths c).2 && !(cvtWidths c).1 && destVq o.d))).isEmpty && got (readVec u (cvtWidths c).1 false o.a s) fun a s1 => got (oldRow u o.d s1) fun old s2 => true) = true := by decide +kernel

theorem test_meets_VectorConversions_2 : (
  let u := slot .cx
  let s := at_ .cx (rowsOf [(0, 0x3F8000001), (1, 77)])
  let o : ROps := ⟨al, into (.v 1) 0, .v 0, .one⟩
  runs s u al && (fmtOf (fun i => tget 0 (s.jobAt 0).fd i) (qfmtCode .e4m3)).any (fun f => precisionOk false f && got (blockRows u o 0 s) fun (a, b) s1 => got (oldRow u o.d s1) fun old s2 => true)) = true := by decide +kernel

theorem test_meets_VectorConversions_3 : (
  let u := slot .cx
  let s := at_ .cx (rowsOf [(0, 0x3F8000001), (1, 77)])
  let o : ROps1 := ⟨al, into (.v 1) 0, .v 0⟩
  runs s u al && (fmtOf (fun i => tget 0 (s.jobAt 0).fd i) (qfmtCode .e4m3)).any (fun f => (s.jobAt 0).noRoom .cx o.d == none && (got (needRowWrite u o.d s) fun _ t => t == s) && (needAll s u {} [.vec o.a]).isEmpty && got (readVec u false false o.a s) fun a s1 => true)) = true := by decide +kernel

theorem test_meets_Reductions_1 : (
  let u := slot .cx
  let s := at_ .cx (rowsOf [(0, 0x3F8000001)])
  runs s u al && (needAll s u {} [.vec (.v 0)]).isEmpty && got (readVec u false false (.v 0) s) fun r s1 => true) = true := by decide +kernel

theorem test_meets_Reductions_2 : (
  let r : RedLand := { time := 0, rl := 3, op := .sum, int := false, flt := some 0x3F8000000, ival := none, nv := false }
  let s := at_ .cx (fun j => { j with redl := [r], rl := [(0, 5), (3, 0x3F8000000)] })
  (s.core 0).job.any (fun j => j.redl == [r] && decide (r.time ≤ s.now) && true)) = true := by decide +kernel

theorem test_meets_Reductions_3 : (
  let u := slot .cx
  let s := at_ .cx (fun j => { rowsOf [(0, 0x3F8000001)] j with rl := [(2, 0x3F8000000)] })
  runs s u al && (s.jobAt 0).noRoom .cx (into (.s 1) 1) == none && true) = true := by decide +kernel

theorem test_meets_Reductions_4 : (
  let u := slot .cx
  let s := at_ .cx (rowsOf [(0, 0x3F8000001)])
  let o : VOps1 := ⟨al, into (.v 1) 0, .v 0, false, 0⟩
  runs s u al && (s.jobAt 0).noRoom .cx o.d == none && (got (needRowWrite u o.d s) fun _ t => t == s) && (needAll s u {} ([.vec o.a] ++ dstRd o.d o.k false)).isEmpty && (got (readVec u o.lw false o.a s) fun a s1 => true) && got (readVec u o.lw true o.a s) fun a s1 => true) = true := by decide +kernel

theorem test_meets_SpecialFunctionsAndNoise_1 : (
  let u := slot .cx
  let s := at_ .cx (rowsOf [(0, 0x3F8000001)])
  let o : VOps1 := ⟨al, into (.v 1) 0, .v 0, true, 0⟩
  runs s u al && (s.jobAt 0).noRoom .cx o.d == none && (got (needRowWrite u o.d s) fun _ t => t == s) && decide ((s.core 0).sfuFree ≤ s.now) && (needAll s u {} ([.vec o.a] ++ dstRd o.d o.k false)).isEmpty && (got (readVec u o.lw false o.a (s.sfuBusy u 8)) fun a s1 => true) && got (readVec u o.lw false o.a (s.sfuBusy u 16)) fun a s1 => true) = true := by decide +kernel

theorem test_meets_SpecialFunctionsAndNoise_2 : (
  let u := slot .cx
  let s := (at_ .cx).modBay 0 (fun b => { b with noiseGrant := some 2, noisePtr := 6 })
  runs s u al && (s.jobAt 0).noRoom .cx (into (.v 1) 0) == none && (got (needRowWrite u (into (.v 1) 0) s) fun _ t => t == s) && (needAll s u {} (dstRd (into (.v 1) 0) 0 false)).isEmpty && ringMode (s.strmAt 0 .cx).rngc == 0 && (s.bay 0).noiseGrant == some 2 && got (takeDraws u 128 4 s) fun ds s1 => ds.length == 128 && true) = true := by decide +kernel

theorem test_meets_SpecialFunctionsAndNoise_3 : (
  let s := (at_ .cx).modBay 255 (fun b => { b with noiseReq := [28] })
  (s.bay 255).noiseOk && (s.bay 255).noiseReq == [28] && (s.bay 255).noiseGrant.isNone && true) = true := by decide +kernel

theorem test_meets_ArrayLease_1 : (
  let u := slot .cx
  let s := fun (b : Bay) => (at_ .cx (fun j => { j with lease := true })).modBay 0 (fun _ => b)
  let rq := fun (r : LeaseReq) => s { req := [(0, r)] }
  let off := (at_ .cx)
  runs (rq .granted) u al && ((rq .granted).bay 0).reqOf 0 == .granted && ((rq .refused).bay 0).reqOf 0 == .refused && (((s {}).bay 0).reqOf 0 == .idle && ((s {}).bay 0).holder != some 0 && ((s {}).jobAt 0).lease) && !u.second && (((s { holder := some 0 }).bay 0).reqOf 0 == .idle) && ((off.bay 0).holder != some 0 && !(off.jobAt 0).lease) && true) = true := by decide +kernel

theorem test_meets_ArrayLease_2 : (
  let s := (at_ .cx).modBay 3 (fun b => { b with p := 3, req := [(0, .nb), (1, .wait), (2, .nb)] })
  let y := s.bay 3
  y.holder.isNone && y.grantEnd != some s.now && decide ((0, LeaseReq.wait) ∈ y.req ∨ (0, LeaseReq.nb) ∈ y.req) && decide (¬((3, LeaseReq.wait) ∈ y.req ∨ (3, LeaseReq.nb) ∈ y.req)) && true) = true := by decide +kernel

theorem test_meets_ArrayCommands_1 : (
  let u := slot .cx
  let s := (at_ .cx (fun j => { j with maxrd := 1, ft := [(5, 0x0101)], lease := true })).modBay 0 (fun b => { b with holder := some 0, gc := 63 })
  let o : MmaOps := ⟨al, .ft 5, true, .v 0, .v 16, false, false, 0⟩
  let e := ftEntry (tget 0 (s.jobAt 0).ft (selNum (s.jobAt 0) o.sel))
  runs s u al && (s.bay 0).holder == some 0 && decide ((s.bay 0).gc < 64) && decide (((s.core 0).arr.filter (fun a => !a.left)).length < 8) && (match checkEntry (fun i => tget 0 (s.jobAt 0).fd i) e with
    | .ok (fa, fb) => decide ((s.jobAt 0).rd + 1 ≤ (s.jobAt 0).maxrd) && (needAll s u {} (arrRds o.a ++ arrRds o.b)).isEmpty && got (mmaOperands u e fa fb o.acc o.a o.b o.ta o.tb 0 1 s) fun (oa, ob, rs) t => t == s && true
    | .error _ => false)) = true := by decide +kernel

theorem test_meets_ArrayCommands_2 : (
  let u := slot .cx
  let s := (at_ .cx (fun j => { j with maxrd := 1, ft := [(5, 0x0101)], l := [(0, 21)], lease := true })).modBay 0 (fun b => { b with holder := some 0 })
  let o : MmasOps := ⟨al, .ftl, true, .v 0, .v 8, false, 3, 0⟩
  let e := ftEntry (tget 0 (s.jobAt 0).ft (selNum (s.jobAt 0) o.sel))
  runs s u al && (s.bay 0).holder == some 0 && (match checkEntry (fun i => tget 0 (s.jobAt 0).fd i) e with
    | .ok (fa, fb) => decide ((s.jobAt 0).rd + 1 ≤ (s.jobAt 0).maxrd) && (needAll s u {} (arrRds o.a ++ arrRds o.b)).isEmpty && got (mmaOperands u e fa fb o.acc o.a o.b false o.tb 4 1 s) fun (oa, ob, rs) t => t == s && true
    | .error _ => false)) = true := by decide +kernel

theorem test_meets_ArrayExecution_1 : (
  let u := slot .cx
  let s := ((at_ .cx (rowsOf [(63, 9), (64, 1), (127, 2)])).modCore 0 (fun k => { k with arr := [blankCmd u 0 .mzero true] }))
  let s : State := { s with now := 2 }
  (s.core 0).job.isSome && (s.core 0).arr == [blankCmd u 0 .mzero true] && (s.bay 0).entering.isNone && !s.throttle && (List.range 4).all (fun k => k == 0 || (s.core k).arr.isEmpty) && true) = true := by decide +kernel

theorem test_meets_ArrayExecution_2 : (
  let u := slot .cx
  let a := { blankCmd u 0 (.mma 0) false with afmt := 1, bfmt := 1, ks := 1, a := .rows 64, b := .rows 72 }
  let s : State := { (at_ .cx (rowsOf [(64, 0x3F80), (72, 0x3F80)])).modCore 0 (fun k => { k with arr := [a] }) with now := 9 }
  (s.core 0).job.isSome && (s.core 0).arr == [a] && !a.left && decide (a.issued + 2 ≤ s.now) && !s.throttle && (s.bay 0).entering.isNone && true) = true := by decide +kernel

theorem test_meets_ArrayExecution_3 : (
  let u := slot .cx
  let a := { blankCmd u 0 (.mma 1) false with ks := 1 }
  let s : State := { ((at_ .cx).modCore 0 (fun k => { k with arr := [a] })).modBay 0 (fun b => { b with stalled := 2 ^ 24, entering := some 0 }) with now := 9 }
  decide (2 ^ 24 ≤ (s.bay 0).stalled) && s.arrPick 0 == some (0, a) && true) = true := by decide +kernel

theorem test_meets_ArrayExecution_4 : (
  let u := slot .cx
  let a := { blankCmd u 0 (.mma 1) false with left := true, completes := some 9, nv := true }
  let s : State := { (at_ .cx).modCore 0 (fun k => { k with arr := [a] }) with now := 9 }
  (s.core 0).job.isSome && (s.core 0).arr == [a] && !a.isMret && true) = true := by decide +kernel

theorem test_meets_ArraySetUp_1 : (
  let u := slot .cx
  let s := at_ .cx
  runs s u al && (got (source1 u (.lit 0x3FC00000) s) fun w s1 => true) && (needAll s u {} [.scalar (.lit 0x3FC00000)]).isEmpty && got (readFloat u (.lit 0x3FC00000) s) fun x s1 => true) = true := by decide +kernel

theorem test_meets_ArraySetUp_2 : (
  let u := slot .cx
  let s := spadAt 0x1C0 [1, 2, 3] (at_ .cx (fun j => { j with sq := [(3, List.replicate 30 1)] }) (regs [(1, 0x1C0), (2, 2)]))
  runs s u al && got (source2 u (.s 1) (.s 2) s) fun (x, c) s1 => decide (1 ≤ c.toNat) && decide ((tget [] (s1.jobAt 0).sq 3).length + c.toNat ≤ 32) && got (localArea u x.toInt (64 * c.toNat) 64 s1) fun ar t => t == s1 && got (watch u x.toInt.toNat (64 * c.toNat) true false s1) fun _ t => t == s1 && got (orderAt u ar (64 * c.toNat) s1) fun _ t => t == s1 && true) = true := by decide +kernel

theorem test_meets_Retirement_1 : (
  let u := slot .cx
  let s := spadAt 0x20 (leBytes (2 ^ 117) 32) ((at_ .cx id (regs [(1, 0x20)])).modBay 0 (fun b => { b with holder := some 0 }))
  runs s u al && got (mretReady u (into (.s 3) 0) (.s 1) .zero s) fun (desc, fd, rows) s1 => (mretDesc desc).rnd != .rsto && (s1.strmAt 0 .cx).log.isEmpty && (((s1.release 0 2 .mod).jobAt 0).ctr 15).canTake 1 && true) = true := by decide +kernel

theorem test_meets_Retirement_2 : (
  let u := slot .cx
  let s := spadAt 0x20 (leBytes (0x1000 + 256 * 2 ^ 64 + 1 * 2 ^ 96) 32) ((at_ .cx id (regs [(1, 0x20)])).modBay 0 (fun b => { b with holder := some 0 }))
  runs s u al && got (mretReady u (into (.s 3) 0) (.s 1) .zero s) fun (desc, fd, rows) s1 => rows.length == 64 && true) = true := by decide +kernel

theorem test_meets_Retirement_3 : (
  let u := slot .cx
  let d : BitVec 256 := 2 ^ 117
  let a := blankCmd u 0 (.mret d 0 15 1 [] []) true
  let s : State := { (at_ .cx (rowsOf [(64, 0x3F8000000)])).modCore 0 (fun k => { k with arr := [a] }) with now := 9 }
  (s.core 0).job.isSome && (s.core 0).arr.head? == some a && !a.left && (mretDesc d).keep && !(mretDesc d).bias && true) = true := by decide +kernel

theorem test_meets_Retirement_4 : (
  let u := slot .cx
  let a := { blankCmd u 0 (.mret 0 0 15 1 [] []) true with left := true }
  let s : State := { (at_ .cx (fun j => { j with t := [(15, { iss := 1 })] })).modCore 0 (fun k => { k with arr := [a] }) with now := 9 }
  (s.core 0).job.isSome && (s.core 0).arr == [a] && a.left && a.acks.isEmpty && true) = true := by decide +kernel

theorem test_meets_ControlStore_1 : (
  let u := slot .sc
  let s := at_ .sc id (regs [(1, 0xFF), (2, 0x2FF3FFF0FFF), (3, 0x82000007F)])
  runs s u al && got (source2 u (.s 1) (.s 3) s) (fun (m, e) s1 => isCustom m && bindOk e && true) && got (source1 u (.s 1) s) fun m s1 => isCustom m && true) = true := by decide +kernel

theorem test_meets_ControlStore_2 : (
  let u := slot .sc
  let s := (at_ .sc id (regs [(1, 0xC0)])).setBind 1 0 0x1005
  let d := into (.s 3) 0b1000
  runs s u al && got (operand1 u d (.s 1) s) (fun v s1 => isCustom v && true) && (s.jobAt u.core).noRoom u.strm d == none && true) = true := by decide +kernel

theorem test_meets_ControlStore_3 : (
  let u := slot .sc
  let s := at_ .sc id (regs [(1, 0x40), (2, 0x1FFF)])
  runs s u al && got (source2 u (.s 1) (.s 2) s) fun (p, ma) s1 => got (csArea u p.toInt (16 * ((0 : BitVec 8).toNat + 1)) s1) fun dst t => t == s1 && decide (ma.toNat + 1 ≤ 0x2000) && got (watch u dst 16 false true s1) fun _ t => t == s1 && true) = true := by decide +kernel

theorem test_meets_ControlStore_4 : (
  let u := slot .sc
  let pg : Page := { ctx := 1, slot := 7, words := [(511, 5)], pinned := false, loading := false, used := 0, stale := false }
  let s := ((at_ .sc id (regs [(1, 0x40), (2, 0x2FFF)])).modCtx 1 (fun x => { x with image := some 0x40010000, slots := 0x80 })).modCore 0 (fun k => { k with pages := [(3, some pg)] })
  runs s u al && got (source2 u (.s 1) (.s 2) s) fun (p, ma) s1 => got (csArea u p.toInt 16 s1) fun dst t => t == s1 && decide (0x2000 ≤ ma.toNat) && decide (ma.toNat + 1 ≤ 0x3000) && (slotsOf (ma.toNat - 0x2000) 1).all (fun i => ((s1.ctx? (s1.jobAt u.core).ctx).map (fun x => x.slotOk i)).getD false) && got ((slotsOf (ma.toNat - 0x2000) 1).mapM (needPage u) s1) fun ps s2 => got (watch u dst 16 false true s2) fun _ t => t == s2 && true) = true := by decide +kernel

theorem test_meets_ControlStore_5 : (
  let u := slot .sc
  let s := spadAt 0x40 (leBytes (2 ^ 127 + 2 ^ 126) 16) ((at_ .sc id (regs [(1, 0x40), (2, 0x2000)])).modCtx 1 (fun x => { x with image := some 0x40010000 }))
  let o : COps := ⟨al, into (.s 3) 0, .s 1, .s 2, some 2⟩
  let t := s.modCore 0 (fun k => { k with wcsld := some ([0], [5], 0) })
  runs s u al && (s.jobAt u.core).noRoom u.strm o.d == none && runs t u al && (t.core 0).wcsld == some ([0], [5], 0) && !(t.strmAt 0 .sc).unacked.contains 5 && decide (0 ≤ t.now) && true && (s.core u.core).wcsld.isNone && got (source2 u o.a o.b s) fun (a, ma) s1 => (s.ctx? (s1.jobAt u.core).ctx).any (fun x => decide (0x2000 ≤ ma.toNat) && decide (ma.toNat < 0x3000) && decide (ma.toNat % 4096 + 1 ≤ 4096) && x.image.isSome && got (csArea u a.toInt 16 s1) fun src t => t == s1 && (got (watch u src 16 true false s1) fun _ t => t == s1) && (slotsOf (ma.toNat % 4096) 1).all (fun k => ((s1.core u.core).page (s1.jobAt u.core).ctx k).all (fun p => !p.2.pinned)) && (refused ((wordsOf (readBytes (s1.core u.core).spad src 16) 1).getD 0 0)).any (fun r => true))) = true := by decide +kernel

theorem test_meets_CustomOpcodes_1 : (
  let u := slot .cx
  let o : CustomOps := ⟨0xFF, 0, al, 0, 0, 0, 0, 0, none⟩
  let n := o.major.toNat - 0xC0
  let s := (at_ .cx).setBind 1 n 0x1000
  let r := (at_ .cx).setBind 1 n 0x1000
  let o2 : CustomOps := { o with dmask := 1 }
  let q := at_ .cx
  runs s u al && !u.second && bindV 0x1000 && rkDmaskOk (bindRk 0x1000) o.dmask && (tget 0 (((s.ctx? (s.jobAt u.core).ctx).map (·.bind)).getD []) n) == 0x1000 && runs q u al && !bindV (tget 0 (((q.ctx? (q.jobAt u.core).ctx).map (·.bind)).getD []) n) && !rkDmaskOk (bindRk 0x1000) o2.dmask && true) = true := by decide +kernel

theorem test_meets_CustomOpcodes_2 : (
  let o : CustomOps := ⟨0xC0, 0, al, 0, 0, 0, 0, 0, none⟩
  let e : Word := 0x11000
  let pg : Page := { ctx := 1, slot := 0, words := [(3, 5#128 <<< 124)], pinned := true, loading := false, used := 0, stale := false }
  let b := ((((at_ .cx).setBind 1 0 e).modCtx 1 (fun x => { x with image := some 0x40010000, slots := 3 })).modCore 0 (fun k => { k with pages := [(0, some pg)] }))
  let m : Micro := { startMicro o e (slot .cx) with upc := 0x2002 }
  let s := b.modJob 0 (fun j => { j with micro := some m })
  let m2 : Micro := { m with upc := 0x2003, steps := 1 }
  let s2 := b.modJob 0 (fun j => { j with micro := some m2 })
  let u := m.slot 0 0
  (s.core 0).job.isSome && (s.jobAt 0).micro == some m && m.ending.isNone && (s.jobAt 0).cx.live && !m.counted && decide (m.steps < bindSteps m.entry) && m.destOk && got (needPage u (m.upc.toNat / 512 % 8) s) fun p s1 => tget 0 p.words (m.upc.toNat % 512) == 0 && (m.upc.toNat + 1) / 4096 == 2 && (s1.ctx? (s1.jobAt 0).ctx).any (fun x => x.slotOk ((m.upc.toNat + 1) / 512 % 8)) && decide (m2.steps < bindSteps m2.entry) && m2.destOk && (got (needPage u (m2.upc.toNat / 512 % 8) s2) fun p s1 => tget 0 p.words (m2.upc.toNat % 512) == 5#128 <<< 124) && bindRk m2.entry == 0 && m2.ops.dmask == 0 && (s2.jobAt 0).cx.loops.isEmpty && (s2.jobAt 0).cx.rep.isNone && true) = true := by decide +kernel

/-- Of the answers of a free bit none is evaluated. -/
theorem test_meets_CustomOpcodes_3 : (
  let s := (at_ .cx).modCtx 1 (fun x => { x with image := some 0x40010000, slots := 0x81 })
  (s.core 0).job.any (fun j => (s.ctx? j.ctx).any (fun x => s.absentSlots 0 == [0, 7] && (({ s with free := s.free + 1 }.readHome 0 j.ctx (x.slotVa 0) 8192).2.isOk) && true))) = true := by decide +kernel

theorem test_meets_LandingInstructions_1 : (
  let u := slot .sc
  let s := (at_ .sc id (regs [(1, 0xFFF)])).modCtx 1 (fun x => { x with tags := [(0xFFF, { alloc := true }), (0, { gen := 15 })] })
  let o : COps := ⟨al, into (.s 3) 0b0010, .zero, .s 1, some 2⟩
  runs s u al && got (operand1 u o.d o.b s) fun b s1 => (s1.ctx? (s1.jobAt u.core).ctx).any (fun x => (x.freeTag (b.toNat % 4096)).any (fun i => i == 0 && true))) = true := by decide +kernel

theorem test_meets_LandingInstructions_2 : (
  let u := slot .sc
  let s := (at_ .sc id (regs [(1, 0xF005)])).modCtx 1 (fun x => { x with tags := [(5, { alloc := true, gen := 15, dlv := 3, oq := true })] })
  let d := into (.s 3) 0
  runs s u al && got (source1 u (.s 1) s) (fun v s1 => (s1.ctx? (s1.jobAt u.core).ctx).any (fun x => x.current (v.setWidth 32) && !s1.tagLive (s1.jobAt u.core).ctx (v.setWidth 32) && true)) && got (operand1 u d (.s 1) s) fun v s1 => (s1.ctx? (s1.jobAt u.core).ctx).any (fun x => tagPool (v.setWidth 32) == x.pool && true)) = true := by decide +kernel

theorem test_meets_LandingInstructions_3 : (
  let u := slot .sc
  let s := spadAt 0x40 (leBytes (2 ^ 48 + 2 ^ 128) 32) ((at_ .sc id (regs [(1, 0), (2, 0x40)])).modCtx 1 (fun x => { x with tags := [(0, { alloc := true })] }))
  runs s u al && got (source2 u (.s 1) (.s 2) s) fun (v, w) s1 => got (localArea u w.toInt 32 32 s1) fun ar t1 => t1 == s1 && (got (orderAt u ar 32 s1) fun _ t => t == s1) && (got (watch u w.toInt.toNat 32 true false s1) fun _ t => t == s1) && (s1.ctx? (s1.jobAt u.core).ctx).any (fun x => x.current (v.setWidth 32) && !(x.tag 0).orphaned && (x.tag 0).desc.isNone && !landBad (BitVec.ofNat 256 (leNat (s1.localBytes u.core ar 32))) (s1.partDies x.part) && (s1.strmAt u.core u.strm).log.isEmpty && had ((s1.handed u).frontWrite (s1.jobAt u.core).ctx x.landa (leBytes (2 ^ 48 + 2 ^ 128) 32)) fun s2 _ => true)) = true := by decide +kernel

theorem test_meets_LandingInstructions_4 : (
  let u := slot .cx
  let s := ((at_ .cx (rowsOf [(120, 7), (127, 9)]) (regs [(1, 0)])).modCtx 1 (fun x => { x with tags := [(0, { alloc := true, desc := some (2 ^ 48 + 2 ^ 128) })] })).modCore 0 (fun k => { k with dcache := [0] })
  let e := s.modCore 0 (fun k => { k with credits := 0 })
  let w := s.modStrm 0 .cx (fun x => { x with answer := some 1 })
  runs s u al && runs e u al && runs w u al && (w.strmAt 0 .cx).answer == some 1 && true && (s.strmAt 0 .cx).answer.isNone && (s.core 0).frags.isEmpty && (e.core 0).credits == 0 && (s.core 0).credits != 0 && got (source1 u (.s 1) s) (fun v s1 => (s1.core 0).dcache.contains (v.setWidth 32) && (s1.ctx? (s1.jobAt u.core).ctx).any (fun x => x.current (v.setWidth 32) && !(x.tag 0).orphaned && (x.tag 0).desc.any (fun raw => decide (0 < (landDesc raw).nf) && (landDesc raw).dtype == 0 && (List.range 8).all (fun i => !(s1.core 0).rowHeld (120 + i) && (s1.jobAt 0).isReady s1.now (readyKeyRow (120 + i))) && (s1.strmAt 0 .cx).log.isEmpty && true))) && got (source1 u (.s 1) e) fun v s1 => true) = true := by decide +kernel

theorem test_meets_LandingInstructions_5 : (
  let u := slot .sc
  let d := into (.s 3) 0
  let s := (at_ .sc id (regs [(1, 0x2000)])).modCtx 1 (fun x => { x with ovfn := 4, ovf := [3], orphans := [{ owner := 1, slot := 0, entry := some 0, op := 0, tag := 0 }, { owner := 0, slot := 0, entry := some 3, op := 0, tag := 0 }] })
  runs s u al && got (operand1 u d (.s 1) s) (fun v s1 => (s1.ctx? (s1.jobAt u.core).ctx).any (fun x => match takeFirstBy (fun (o : Orphan) => o.owner == u.core) x.orphans with
    | some (o, rest) => o.entry == some 3 && (match areaOf u v.toInt 4640 16 false s1 with
      | .ok (.spad off) t => t == s1 && (got (watch u v.toInt.toNat 4640 false true s1) fun _ t => t == s1) && had (s1.frontRead (s1.jobAt u.core).ctx (x.orphAddr o.owner o.slot) 32) fun s2 h => had (s2.frontRead (s1.jobAt u.core).ctx (x.ovfAddr 3 + 32) 4608) fun s3 r => true
      | _ => false)
    | none => false))) = true := by decide +kernel

theorem test_meets_LandingInstructions_6 : (
  let u := slot .sc
  let d := into (.s 3) 0
  let y : Operand := { id := 7, landing := 0, p := { ctx := 1, tag := 0, fi := 0, src := 0, fd := 0, clk := [], rows := 5 }, place := .slot, expire := 9, queued := true }
  let s := ((at_ .sc id (regs [(1, 0x2000)])).modCtx 1 (fun x => { x with orphans := [{ owner := 0, slot := 63, entry := none, op := 7, tag := 0 }] })).modLanding 0 (fun l => { l with ops := [y] })
  let n := at_ .sc id (regs [(1, 0x2000)])
  runs s u al && runs n u al && (n.ctx? 1).any (fun x => (takeFirstBy (fun (o : Orphan) => o.owner == u.core) x.orphans).isNone) && got (operand1 u d (.s 1) n) (fun v s1 => true) && got (operand1 u d (.s 1) s) (fun v s1 => (s1.ctx? (s1.jobAt u.core).ctx).any (fun x => match takeFirstBy (fun (o : Orphan) => o.owner == u.core) x.orphans with
    | some (o, rest) => o.entry.isNone && (match areaOf u v.toInt 4640 16 false s1 with
      | .ok (.spad off) t => t == s1 && (got (watch u v.toInt.toNat 4640 false true s1) fun _ t => t == s1) && had (s1.frontRead (s1.jobAt u.core).ctx (x.orphAddr o.owner o.slot) 32) fun s2 h => s2.allOps.find? (fun y => y.id == o.op) == some y && true
      | _ => false)
    | none => false))) = true := by decide +kernel

/-- Of the answers of a free bit none is evaluated. -/
theorem test_meets_LandingEvents_1 : (
  let raw : BitVec 256 := 2 ^ 48 + 2 ^ 128 + 2 ^ 96
  let p : Parcel := { ctx := 1, tag := 0, fi := 0, src := 0, fd := 0, clk := [], rows := 5 }
  let f : Frag := { id := 9, p := p, nb := false, bounced := false, flying := true }
  let s := ((at_ .cx).modCtx 1 (fun x => { x with tags := [(0, { alloc := true, desc := some raw })] })).modCore 0 (fun k => { k with frags := [f], credits := 3 })
  let o : Operand := { id := 7, landing := 0, p := { p with rows := 3 }, place := .slot, expire := 9 }
  let s2 := s.modLanding 0 (fun l => { l with ops := [o] })
  s.fragAt 9 == some (0, f) && (s.ctx? 1).any (fun x => (s.core 0).frags.head?.map (·.id) == some 9 && s.landingOf x p.tag == 0 && (s.landing 0).lastArrival != some s.now && !(x.tag 0).orphaned && (x.tag 0).desc == some raw && s.slotFree 0 1 && (takeFirstBy (fun (o : Operand) => o.p.ctx == p.ctx && o.p.tag == p.tag && o.p.fi == p.fi && o.stuck.isNone) (s.landing 0).ops).isNone && takeFirstBy (fun (o : Operand) => o.p.ctx == p.ctx && o.p.tag == p.tag && o.p.fi == p.fi && o.stuck.isNone) (s2.landing 0).ops == some (o, []) && true)) = true := by decide +kernel

theorem test_meets_LandingEvents_2 : (
  let p : Parcel := { ctx := 1, tag := 0, fi := 0, src := 0, fd := 0, clk := [], rows := 5 }
  let f : Frag := { id := 9, p := p, nb := true, bounced := false, flying := false }
  let f2 : Frag := { id := 8, p := p, nb := false, bounced := true, flying := false }
  let s := (at_ .cx).modCore 0 (fun k => { k with frags := [f, f2], credits := 3 })
  s.fragAt 9 == some (0, f) && s.fragAt 8 == some (0, f2) && (s.core 0).job.isSome && (s.core 0).stopping.isNone && true) = true := by decide +kernel

/-- Of the answers of a free bit none is evaluated. -/
theorem test_meets_LandingEvents_3 : (
  let p : Parcel := { ctx := 1, tag := 0, fi := 0, src := 0, fd := 0, clk := [], rows := 0 }
  let q : Parcel := { p with rows := 5 }
  let d : Delivery := { id := 4, landing := 0, p := p, pending := some (2, q), nv := false, parts := [] }
  let s : State := { (at_ .cx).modCtx 1 (fun x => { x with ovfn := 4, ovf := [2], tags := [(0, { alloc := true, desc := some (2 ^ 48 + 2 ^ 128) })] }) with deliveries := [d] }
  s.delAt 4 == some d && d.susp.isNone && had (State.entryRows { s with free := s.free + 1 } 1 2) fun s1 rows => true) = true := by decide +kernel

theorem test_meets_LandingEvents_4 : (
  let raw : BitVec 256 := 2 ^ 48 + 2 ^ 128 + 2 ^ 68
  let p : Parcel := { ctx := 1, tag := 0, fi := 0, src := 0, fd := 0, clk := [], rows := 0 }
  let dl : Delivery := { id := 4, landing := 0, p := p, nv := false, parts := [], going := [0], bytes := [1, 2, 3, 4], pos := 0 }
  let s : State := { (at_ .cx).modCtx 1 (fun x => { x with tags := [(0, { alloc := true, desc := some raw })] }) with deliveries := [dl] }
  let dl2 := { dl with pos := 4 }
  let s2 : State := { s with deliveries := [dl2] }
  s.delAt 4 == some dl && s2.delAt 4 == some dl2 && (s.ctx? 1).any (fun x => (x.tag 0).desc == some raw && (s.partRun 1 (landDesc raw) x.part 0).any (fun w => w.cores == [0] && (s.core 0).obs.wp.isEmpty && decide (dl.pos < dl.bytes.length) && decide (dl2.bytes.length ≤ dl2.pos) && true))) = true := by decide +kernel

theorem test_meets_LandingEvents_5 : (
  let raw : BitVec 256 := 2 ^ 48 + 2 ^ 128
  let o : Operand := { id := 7, landing := 0, p := { ctx := 1, tag := 0, fi := 0, src := 0, fd := 0, clk := [], rows := 0 }, place := .slot, expire := 0 }
  let s := ((at_ .cx).modCtx 1 (fun x => { x with tags := [(0, { alloc := true, desc := some raw })], orphans := (List.range 64).map (fun i => { owner := 0, slot := i, entry := some i, op := 0, tag := 0 }) })).modLanding 0 (fun l => { l with ops := [o] })
  s.allOps == [o] && decide (o.expire ≤ s.now) && (s.ctx? 1).any (fun x => (s.landing o.landing).ops == [o] && (x.tag 0).desc == some raw && (x.orphans.filter (fun y => y.owner == (x.tag 0).owner)).length == 64 && true)) = true := by decide +kernel

theorem test_meets_CopyEngineInstructions_1 : (
  let u := slot .sc
  let o : CtrOps := ⟨al, into (.s 3) 0, 15, .s 1, .s 2, some 1⟩
  let s := at_ .sc id (regs [(1, 0x2000), (2, 0xFFFFFFFFFFFFFFE0)])
  let e := s.modCe 0 (fun e => { e with chains := List.replicate 4 { head := 0, ctr := 0, num := 1 } })
  runs s u al && runs e u al && got (operand2 u o.d o.a o.b s) (fun (x, y) s1 => match areaOf u (x.toInt + y.toInt) 32 32 false s1 with
    | .ok (.spad off) t => t == s1 && decide ((s1.ceAt u.core).chains.length < 4) && (s1.strmAt u.core u.strm).log.isEmpty && (((s1.handed u).jobAt u.core).ctr o.ctr.toNat).canTake 1 && true
    | _ => false) && got (operand2 u o.d o.a o.b e) (fun (x, y) s1 => (s1.ceAt u.core).chains.length == 4 && (match areaOf u (x.toInt + y.toInt) 32 32 false s1 with | .ok (.spad off) t => t == s1 && true | _ => false))) = true := by decide +kernel

theorem test_meets_CopyEngineInstructions_2 : (
  let u := slot .sc
  let s := (at_ .sc (fun j => { j with t := [(2, { iss := 1 })] })).modCe 0 (fun e => { e with chains := [{ head := 0, ctr := 2, num := 1 }], entry := 3, block := 9 })
  let d := into (.s 3) 0
  runs s u al && (s.ceAt u.core).flight.isNone && (s.jobAt u.core).noRoom u.strm d == none && true) = true := by decide +kernel

theorem test_meets_ChainEntries_1 : (
  let raw := fields [(0, 1), (4, 0x2000), (8, 0x2040)]
  let b := spadAt 0x2000 (rowDesc 0x3000 8 2 8 ++ rowDesc 0x4000 16 2 8) (spadAt 0x3008 [1, 2, 3] (at_ .sc))
  let s := engine raw 1 (fun e => { e with block := 1 }) b
  let d := engine raw 1 (fun e => { e with block := 2 }) b
  let n := engine (fields [(0, 1), (4, 0x2000), (8, 0x2020)]) 1 id b
  let w : BitVec 256 := BitVec.ofNat 256 raw
  engineRuns s raw && engineRuns d raw && ceKind w == 1 && (s.ceAt 0).flight.isNone && (s.cePats 0 w).any (fun (p, q) => decide ((s.ceAt 0).block < p.total) && decide (p.blk.toNat ≤ 128) && (s.core 0).obs.wp.isEmpty && decide (p.total ≤ (d.ceAt 0).block) && (match checkAddr s 0 (p.addr 1) 8 8 false, checkAddr s 0 (q.addr 1) 8 8 false with
    | .ok (.spad a), .ok (.spad b) => true
    | _, _ => false)) && engineRuns n (fields [(0, 1), (4, 0x2000), (8, 0x2020)]) && (n.cePats 0 (BitVec.ofNat 256 (fields [(0, 1), (4, 0x2000), (8, 0x2020)]))).isNone && true) = true := by decide +kernel

theorem test_meets_ChainEntries_2 : (
  let raw := fields [(0, 2), (1, 3), (2, 1), (4, 2)]
  let s := engine raw 2
  let f := engine raw 2 (fun e => { e with lca := 8, lc := [(3, 0)] })
  engineRuns s raw && engineRuns f raw && ceKind (BitVec.ofNat 256 raw) == 2 && decide (ceField (BitVec.ofNat 256 raw) 2 2 < (s.ceAt 0).entry) && (f.ceAt 0).lca.getLsbD 3 && !(s.ceAt 0).lca.getLsbD 3 && true) = true := by decide +kernel

theorem test_meets_ChainEntries_3 : (
  let rt := fields [(0, 3), (1, 0x24), (2, 9), (16, 1)]
  let t := engine rt 2
  let rw := fields [(0, 3), (1, 3), (2, 9), (8, 0x3000), (16, 7)]
  let s := engine rw 2
  engineRuns t rt && engineRuns s rw && ceKind (BitVec.ofNat 256 rt) == 3 && ceKind (BitVec.ofNat 256 rw) == 3 && (s.ceAt 0).unacked.isEmpty && ceField (BitVec.ofNat 256 rt) 1 1 % 16 == 4 && decide (ceField (BitVec.ofNat 256 rw) 1 1 % 16 < 4) && had (s.ceRead 0 (BitVec.ofNat 64 (ceField (BitVec.ofNat 256 rw) 8 8)).toInt 8 8) fun s1 bs => true) = true := by decide +kernel

theorem test_meets_ChainEntries_4 : (
  let rt := fields [(0, 4), (1, 0x20), (8, 0)]
  let t := engine rt 2
  let rf := fields [(0, 4), (1, 3), (4, 0xFFF0)]
  let f := (engine rf 2).modCore 0 (fun k => { k with fe := [(0xFFF, true)] })
  engineRuns t rt && engineRuns f rf && ceKind (BitVec.ofNat 256 rt) == 4 && ceKind (BitVec.ofNat 256 rf) == 4 && (t.ceAt 0).unacked.isEmpty && !(ceField (BitVec.ofNat 256 rt) 1 1).testBit 0 && decide (ceField (BitVec.ofNat 256 rt) 8 8 ≤ ((t.jobAt 0).ctr 2).done.toNat) && (ceField (BitVec.ofNat 256 rf) 1 1).testBit 0 && (checkAddr f 0 (ceField (BitVec.ofNat 256 rf) 4 4) 16 16 true).isOk && tget false (f.core 0).fe 0xFFF && true) = true := by decide +kernel

theorem test_meets_ChainEntries_5 : (
  let rt := fields [(0, 5), (1, 0x32)]
  let t := engine rt 2
  let rw := fields [(0, 5), (1, 1), (8, 0x3000), (16, 7)]
  let s := engine rw 2
  engineRuns t rt && engineRuns s rw && ceKind (BitVec.ofNat 256 rt) == 5 && ceKind (BitVec.ofNat 256 rw) == 5 && (t.ceAt 0).unacked.isEmpty && !(ceField (BitVec.ofNat 256 rt) 1 1).testBit 0 && ((t.jobAt 0).ctr 3).canTake 1 && scopeOfNum (ceField (BitVec.ofNat 256 rt) 1 1 / 2 % 8) != .dom && (ceField (BitVec.ofNat 256 rw) 1 1).testBit 0 && scopeOfNum (ceField (BitVec.ofNat 256 rw) 1 1 / 2 % 8) != .dom && had (s.ceDst 0 (BitVec.ofNat 64 (ceField (BitVec.ofNat 256 rw) 8 8)).toInt 8 8) fun s1 d => true) = true := by decide +kernel

theorem test_meets_ChainEntries_6 : (
  let raw := fields [(0, 6)]
  let s := engine raw 2
  let e := spadAt (0x1000 + 64) (leBytes 6 1) (engine 0 3)
  engineRuns s raw && engineRuns e 0 && ceKind (BitVec.ofNat 256 raw) == 6 && (s.ceAt 0).unacked.isEmpty && s.ceEntry 0 3 == some 0 && ((s.ceFlushed 0 .dom).ceAt 0).unacked.isEmpty && (e.ceEntry 0 2).map ceKind == some 6 && (e.ceAt 0).unacked.isEmpty && (match ((s.ceFlushed 0 .dom).ceAt 0).chains with
    | h :: rest => !h.notified && true
    | [] => false)) = true := by decide +kernel

theorem test_meets_FabricInstructions_1 : (
  let u := slot .sc
  let s := at_ .sc id (regs [(1, 0xFFFFFFFFFFFFC0), (2, 65536)])
  runs s u al && got (source2 u (.s 1) (.s 2) s) fun (base, n) s1 => decide (n.toNat ≤ 65536) && base.toNat % 64 == 0 && (s1.ctx? (s1.jobAt u.core).ctx).any (fun x => x.fires.isEmpty) && true) = true := by decide +kernel

theorem test_meets_FabricInstructions_2 : (
  let u := slot .sc
  let d := into (.s 3) 0
  let s := (((at_ .sc id (regs [(1, 3), (2, 0xFFFFFFFFFFFFFFFF)])).place 0x40001080 (leBytes (fields [(0, 0x40050000), (8, 130), (13, 1), (14, 7), (16, 0x40048000)]) 64)).modCtx 1 (fun x => { x with ttab := some (0x40001000, 3) }))
  runs s u al && got (tileReady u d 5 (.s 1) (.s 2) s) fun (ctx, i, t, stamp, lines, dsts) s1 => (s1.strmAt u.core u.strm).log.isEmpty && (((s1.handed u).jobAt u.core).ctr 5).canTake 1 && lines.length == 2 && true) = true := by decide +kernel

theorem test_meets_FabricInstructions_3 : (
  let u := slot .sc
  let s := ((at_ .sc id (regs [(1, 63), (2, 0x40040000)])).place 0x40040000 (leBytes (fields [(0, 0x40042000), (8, 1), (9, 12), (16, 0x40041000)]) 32)).place 0x40041000 (leBytes (fields [(0, 0x40048000), (8, 63)]) 16)
  runs s u al && got (ringReady u (.s 1) (.s 2) s) fun (ctx, ch, k, peers) s1 => ch == 63 && peers.length == 1 && true) = true := by decide +kernel

/-- Of the answers of a free bit none is evaluated. -/
theorem test_meets_FabricInstructions_4 : (
  let u := slot .sc
  let d := into (.s 3) 0
  let s := at_ .sc id (regs [(1, 63), (2, 4096)])
  let m := s.modChan 1 63 (fun k => { k with slot := some 9, ctr := { iss := 4, done := 3 } })
  let w := s.modStrm 0 .sc (fun x => { x with answer := some 0 })
  let a := s.modChan 1 63 (fun k => { k with asking := some (some 0, none) })
  runs s u al && runs m u al && runs w u al && !u.second && got (operand1 u d (.s 1) m) (fun v s1 => decide (v.toNat ≤ 63) && (s1.chanOf (s1.jobAt u.core).ctx v.toNat).any (fun k => true)) && got (operand2 u d (.s 1) (.s 2) m) (fun (v, n) s1 => decide (2 ≤ n.toNat) && decide (n.toNat ≤ 4096) && (s1.chanOf (s1.jobAt u.core).ctx v.toNat).any (fun k => k.slot == some 9 && true)) && got (operand2 u d (.s 1) (.s 2) w) (fun (v, n) s1 => (s1.chanOf (s1.jobAt u.core).ctx v.toNat).any (fun k => k.slot.isNone && (s1.strmAt u.core u.strm).answer == some 0 && true)) && got (operand2 u d (.s 1) (.s 2) s) (fun (v, n) s1 => (s1.chanOf (s1.jobAt u.core).ctx v.toNat).any (fun k => k.slot.isNone && k.asking.isNone && (s1.strmAt u.core u.strm).answer.isNone && true)) && (a.chanOf 1 63).any (fun k => k.asking == some (some 0, none)) && (a.core 0).job.isSome && (a.jobAt 0).ctx == 1 && true) = true := by decide +kernel

theorem test_meets_FabricSteps_1 : (
  let w : Word := BitVec.ofNat 64 (1 * 2 ^ 46 + 7 * 2 ^ 26)
  let s := (collective w).place 0x40050000 [1, 2, 3]
  let z : Word := BitVec.ofNat 64 (255 * 2 ^ 52)
  let q := collective z id (fun k => { k with slot := some 9 })
  (s.collAt 1 0).any (fun (k, c) => (s.rec? c.rid).isSome && c.susp.isNone && c.word == some w && stepOp w == 0 && had (s.frontRead 1 (chunkAt k c w).1 (chunkAt k c w).2) fun s1 bs => bs.length == 130 && (k.peers[stepPeer w]?).any (fun (p, r) => had (s1.lineAddrs 1 (p + stepSlot w * 2 ^ k.slog) (flaggedLines (flagWord (stepMatch w) r (c.num.getD 0).toNat) bs).length) fun s2 pas => pas.length == 2 && true)) && (q.collAt 1 0).any (fun (k, c) => (q.rec? c.rid).isSome && c.susp.isNone && c.word == some z && stepOp z == 0 && stepPeer z == 255 && k.slot == some 9 && had (q.frontRead 1 (chunkAt k c z).1 (chunkAt k c z).2) fun s1 bs => true)) = true := by decide +kernel

theorem test_meets_FabricSteps_2 : (
  let w : Word := BitVec.ofNat 64 (1 * 2 ^ 60 + 1 * 2 ^ 46 + 7 * 2 ^ 26)
  let r : Word := BitVec.ofNat 64 (2 * 2 ^ 60 + 1 * 2 ^ 46 + 7 * 2 ^ 26)
  let ls := flaggedLines (flagWord 7 0 1) (leBytes 0x3F800000 130)
  let p := fun (s : State) => (s.place 0x40043000 (ls.getD 0 [])).place 0x40043080 (ls.getD 1 [])
  let s := p (collective w)
  let q := p (collective r)
  (s.collAt 1 0).any (fun (k, c) => (s.rec? c.rid).isSome && c.susp.isNone && c.word == some w && stepOp w == 1 && k.armed.isNone && (match (s.slotData 1 (k.rbase + stepSlot w * 2 ^ k.slog) (chunkAt k c w).2 (flagWord (stepMatch w) 0 (c.num.getD 0).toNat)).2 with
    | .ok (some pay) => had (s.frontRead 1 (chunkAt k c w).1 (chunkAt k c w).2) fun s1 old => had (s1.frontWrite 1 (chunkAt k c w).1 pay) fun s2 _ => true
    | _ => false)) && (q.collAt 1 0).any (fun (k, c) => (q.rec? c.rid).isSome && c.susp.isNone && c.word == some r && stepOp r == 2 && k.armed.isNone && (match (q.slotData 1 (k.rbase + stepSlot r * 2 ^ k.slog) (chunkAt k c r).2 (flagWord (stepMatch r) 0 (c.num.getD 0).toNat)).2 with
    | .ok (some pay) => had (q.frontRead 1 (chunkAt k c r).1 (chunkAt k c r).2) fun s1 old => had ((reduceChunk c old pay s1).1.frontWrite 1 (chunkAt k c r).1 (reduceChunk c old pay s1).2.1) fun s2 _ => true
    | _ => false))) = true := by decide +kernel

theorem test_meets_FabricSteps_3 : (
  let w : Word := BitVec.ofNat 64 (3 * 2 ^ 60 + 65535)
  let s := (collective w).modCtx 1 (fun x => { x with stamps := [(65535, 1)] })
  let z : Word := BitVec.ofNat 64 (4 * 2 ^ 60)
  let q := collective z
  (s.collAt 1 0).any (fun (k, c) => (s.rec? c.rid).isSome && c.susp.isNone && c.word == some w && k.armed.isNone && stepOp w == 3 && (s.ctx? 1).any (fun x => tget 0 x.stamps (stepChunk w) != 0 && (tget 0 x.stamps (stepChunk w)).toNat % 2 ^ 32 == (c.num.getD 0).toNat % 2 ^ 32 && x.fires.isEmpty && true)) && (q.collAt 1 0).any (fun (k, c) => (q.rec? c.rid).isSome && c.susp.isNone && c.word == some z && k.armed.isNone && (q.ctx? 1).isSome && stepOp z == 4 && c.lines.isEmpty && true)) = true := by decide +kernel

theorem test_meets_FabricEvents_1 : (
  let s := at_ .sc
  let m : State := { s with modnum := some 0 }
  let pa : Word := 0x40000080
  paLocal pa.toNat == 0x40000080 && pa.toNat % 128 == 0 && m.modnum.isSome && !m.closed (m.partOfLocal 0x40000080).1 && m.physOk (m.partOfLocal 0x40000080).1 pa.toNat && (m.migForward 0x40000080).isEmpty && s.modnum.isNone && true) = true := by decide +kernel

theorem test_meets_FabricEvents_2 : (
  let f : Fire := { tile := 65535, rid := 0, chunk := 0, ctr := 5, num := 1, ch := 0, sent := 0, lines := [] }
  let s := (at_ .sc (fun j => { j with t := [(5, { iss := 1 })] })).modCtx 1 (fun x => { x with fires := [f] })
  (s.ctx? 1).any (fun x => takeFirstBy (fun (f : Fire) => f.tile == 65535 && f.lines.isEmpty) x.fires == some (f, []) && (s.core 0).job.isSome && (s.jobAt 0).ctx == 1 && (s.jobAt 0).rid == f.rid && (s.jobAt 0).chunk == f.chunk && true)) = true := by decide +kernel

theorem test_meets_FabricEvents_3 : (
  let s : State := { at_ .sc with pwrgrp := 0x1FFFF, modnum := some 300 }
  s.pwrgrp.getLsbD 16 && s.pwrgrp.setWidth 16 == (0xFFFF : BitVec 16) && (s.chanOf 1 63).isSome && true) = true := by decide +kernel

theorem test_meets_FabricEvents_4 : (
  let w : Word := BitVec.ofNat 64 (1 * 2 ^ 60)
  let r := collective w (fun c => { c with release := some 0 })
  let b := collective w (fun c => { c with waited := 2 ^ 26, lines := [(7, 0)] })
  let n : State := { b with now := 2 ^ 26 }
  [r, b, n].all (fun s => (s.collAt 1 0).any (fun (k, c) => (s.rec? c.rid).isSome && c.susp.isNone && c.word == some w)) && true) = true := by decide +kernel

/-- Of the answers of a free bit none is evaluated. -/
theorem test_meets_FabricEvents_5 : (
  let s := at_ .sc
  let e : State := { s with ctxs := [] }
  let k := s.modChan 1 63 (fun k => { k with slot := some 9 })
  let s1 := k.error 7 7 31 63 0 0 0
  (e.error 7 7 31 63 0 0 0).ctxs.isEmpty && (match s1.ctxs with
    | [(n, some x)] => (match x.chans with
      | [(63, y)] => y.slot.isSome && y.coll.isNone && true
      | _ => false)
    | _ => false) && true) = true := by decide +kernel

theorem test_meets_RecordReading_1 : (
  let s := launch []
  s.queues.find? (fun e => (e.2.map (fun x => x.fn == 0 && x.q == 0)).getD false) == some (0, some ring) && s.queue? 0 == some ring && !s.queueReady ring && true) = true := by decide +kernel

theorem test_meets_RecordReading_2 : (
  let go := fun (l : List (Nat × Nat)) (f : State → Rec → State → Bool) =>
    let s := (launch []).modQueue 0 (fun q => { q with head := 15, tail := 0 })
    let s := s.place (0x40020000 + 128 * 15) (leBytes (fields l) 128)
    (s.queue? 0).any (fun q => s.queueReady q && had (s.frontRead q.ctx q.slotAddr 128) (fun s1 bs => f s (q.headRec 0 bs) s1) && had (s.frontRead q.ctx q.slotAddr 1) fun s1 bs => true)
  let nd := 64
  go operatorFields (fun s r s1 => r.type == 1 && lowest (r.operatorChecks nd) == 0 && r.fsbAddr == 0 && had (s1.frontRead 1 r.tdp (16 * r.ntd)) fun s2 ds => declsOf ds r.ntd == some [] && true) && go (operatorFields ++ [(54, 33), (60, 0)]) (fun s r s1 => r.type == 1 && lowest (r.operatorChecks nd) != 0 && true) && go (operatorFields ++ [(88, 0x40031000), (96, 1)]) (fun s r s1 => lowest (r.operatorChecks nd) == 0 && had (s1.frontRead 1 r.tdp (16 * r.ntd)) fun s2 ds => (declsOf ds r.ntd).isNone && true) && go (operatorFields ++ [(104, 0x40032000)]) (fun s r s1 => lowest (r.operatorChecks nd) == 0 && r.fsbAddr != 0 && had (s1.frontRead 1 r.tdp (16 * r.ntd)) fun s2 ds => had (s2.frontRead 1 r.fsbAddr 96) fun s3 fs => true) && go [(0, 2)] (fun s r s1 => r.type == 2 && true) && go [(0, 3)] (fun s r s1 => r.type == 3 && true) && go [(0, 4)] (fun s r s1 => r.type == 4 && true) && go [(0, 5)] (fun s r s1 => r.type == 5 && true) && go [(0, 7)] (fun s r s1 => r.type == 7 && true) && go [(0, 6), (8, 1)] (fun s r s1 => r.type == 6 && r.csimageBad && true) && go [(0, 6), (16, 0x40030000), (24, 2)] (fun s r s1 => !r.csimageBad && had (s1.frontRead 1 (r.field 16 8) (8 * r.field 24 8)) fun s2 es => true) && go [(0, 255)] (fun s r s1 => r.type == 255 && true)) = true := by decide +kernel

theorem test_meets_RecordReading_3 : (
  let s := (launch []).modQueue 0 (fun q => { q with head := 15, tail := 0 })
  (s.queue? 0).any (fun q => (q.head.toNat + 1) % 2 ^ q.k == q.tail.toNat && true)) = true := by decide +kernel

theorem test_meets_HandOut_1 : (
  let r := rec_ operatorFields .waiting
  let s := launch [(2, r)]
  s.rec? 2 == some r && !s.hasPred 2 r && (s.ctx? 1).isSome && true) = true := by decide +kernel

/-- Of the answers of a free choice none is evaluated. -/
theorem test_meets_HandOut_2 : (
  let r := rec_ operatorFields .ready
  let z := rec_ ([(0, 1), (48, 8)]) .ready
  let w := rec_ [(0, 3), (8, 0x40030000)] .ready
  let s := launch [(2, r)]
  let sz := launch [(2, z)]
  let sw := launch [(2, w)]
  !(s.die (s.newelOf 0)).fenced && s.pooled 0 == [(2, r)] && sz.pooled 0 == [(2, z)] && sw.pooled 0 == [(2, w)] && z.total == 0 && r.type == 1 && decide (r.next < r.total) && r.windows.isEmpty && (r.coreSet (s.recPart r)).filter (s.canTake 2 r) == [0] && had (State.readArgs { s with free := s.free + 1 } r) (fun s1 w => true) && (sw.startOther 2 w).any (fun t => true) && true) = true := by decide +kernel

theorem test_meets_HandOut_3 : (
  let go := fun (l : List (Nat × Nat)) (f : State → State) (g : State → Rec → Ctx → Bool) =>
    let r := rec_ l .ready
    let s := f (launch [(2, r)])
    r.state == .ready && (s.ctx? (s.recCtx r)).any (fun x => g s r x)
  go [(0, 4), (8, 0x40030000), (16, 9)] id (fun s r x => r.type == 4 && had (s.flushHomes.frontWrite (s.recCtx r) (r.field 8 8) (leBytes (r.field 16 8) 8)) fun s1 _ => s.flushHomes.recCtx r == s.recCtx r && true) && go [(0, 5), (8, 0x40030000), (16, 9)] id (fun s r x => r.type == 5 && x.fires.isEmpty && true) && go [(0, 5)] (fun s => s.modCtx 1 (fun x => { x with fires := [{ tile := 0, rid := 0, chunk := 0, ctr := 0, num := 1, ch := 0, sent := 0, lines := [] }] })) (fun s r x => r.type == 5 && !x.fires.isEmpty && true) && go [(0, 7), (8, 0xBF)] id (fun s r x => r.type == 7 && (r.field 8 1).testBit 7 && true) && go [(0, 7), (8, 63), (16, 2)] (fun s => s.modChan 1 63 (fun k => { k with slot := some 9 })) (fun s r x => r.type == 7 && !(r.field 8 1).testBit 7 && (x.chan (r.field 8 1 % 64)).slot == some 9 && true) && go [(0, 6), (8, 0x40010000), (32, 0x81)] id (fun s r x => r.type == 6 && true) && go [(0, 3)] id (fun s r x => r.type == 3 && true)) = true := by decide +kernel

theorem test_meets_HandOut_4 : (
  let r := rec_ [(0, 3), (8, 0x40030000), (16, 5), (32, 1)] .running
  let s := launch [(2, r)]
  s.rec? 2 == some r && r.type == 3 && had (s.frontRead (s.recCtx r) (r.field 8 8) 8) fun s1 bs => true) = true := by decide +kernel

theorem test_meets_HandOut_5 : (
  let r := rec_ operatorFields .ready
  let s := (launch [(2, r)] true).modJob 0 (fun j => { j with ctx := 2, since := 0 })
  let s : State := { s with ctxs := s.ctxs ++ [(2, some { ((at_ .sc).ctx? 1).getD State.reset.placedCtx with asid := 2 })] }
  let b := s.modCore 0 (fun k => { k with shadow := some { rid := 9, chunk := 0, args := [], yielded := none, core := none } })
  let e : State := { b with now := 16000001 }
  (s.core 0).job.any (fun j => decide (s.now < s.sliceEnd 0) && decide (e.sliceEnd 0 ≤ e.now) && (e.core 0).stopping.isNone && (e.die 0).gangs.isEmpty && (e.waiters (((e.ctx? j.ctx).map (·.part)).getD 0)).contains (2, r) && (e.heldBy 2 r).contains 0)) = true := by decide +kernel

theorem test_meets_JobsAndCompletion_1 : (
  let l : Launch := { rid := 2, chunk := 0, args := [(0, 7)], yielded := none, core := none }
  let r := { rec_ operatorFields .running with running := [(0, 0)], next := 1 }
  let s := (launch [(2, r)]).modCore 0 (fun k => { k with shadow := some l })
  let t := s.modCore 0 (fun k => { k with startAt := some 0 })
  s.startable 0 == some (l, r) && t.startable 0 == some (l, r) && s.startGroup 0 2 == [0] && !s.restores 0 && (s.core 0).startAt.isNone && (t.core 0).startAt == some 0 && t.coreQuiet 0 && true) = true := by decide +kernel

/-- The image holds the ROM identifier, which is open; here it does not stand in the save area. -/
theorem test_meets_JobsAndCompletion_2 : (
  let l : Launch := { rid := 2, chunk := 0, args := [], yielded := none, core := some 0 }
  let r := { rec_ operatorFields .running with running := [(0, 0)], next := 1 }
  let v : Saved := { core := 0, job := { placedJob 0x40000000 with rid := 2 }, ways := 4, spad := [], fe := [], tags := [], frags := [], rid := 2, chunk := 0 }
  let s := ((launch [(2, r)]).modCore 0 (fun k => { k with shadow := some l, startAt := some 0 })).modCtx 1 (fun x => { x with saved := [v], imgJobs := 1, imgLen := 16 })
  s.startable 0 == some (l, r) && s.startGroup 0 2 == [0] && s.restores 0 && (s.ctx? (s.recCtx r)).any (fun x => !x.imgDue && s.coreQuiet 0 && had (s.frontRead 1 x.savea (64 + x.imgLen)) fun s1 bs => bs.head? == some 0 && true)) = true := by decide +kernel

theorem test_meets_JobsAndCompletion_3 : (
  let e := fun (x : Stream) => { x with exited := true }
  let r := { rec_ operatorFields .running with running := [(0, 0)], next := 1 }
  let s := (launch [(2, r)] true).modJob 0 (fun j => { j with rid := 2, sc := e j.sc, ld := e j.ld, cx := e j.cx, st := e j.st })
  let n := launch [(2, r)] true
  (s.core 0).job.isSome && s.jobDone 0 && !n.jobDone 0 && (n.core 0).job.isSome && (s.core 0).job.any (fun j => true)) = true := by decide +kernel

theorem test_meets_JobsAndCompletion_4 : (
  let r := { rec_ operatorFields (.done 0) with info := 3 }
  let s := launch [(2, r)]
  let w : State := { s with remote := [{ id := 9, ctx := 1, core := 0, die := 0, epoch := 0, pa := 0, op := .write [] }] }
  s.rec? 2 == some r && s.remote.isEmpty && w.remote.any (fun o => o.ctx == w.recCtx r) && (s.queue? r.queue).any (fun q => had (s.flushHomes.frontWrite q.ctx (q.cmpr + 16 * (q.compl % 2 ^ q.k)) (leBytes (r.field 4 4) 4 ++ leBytes r.idx 2 ++ leBytes 0 1 ++ leBytes (1 - q.compl / 2 ^ q.k % 2) 1 ++ leBytes 3 8)) fun s1 _ => true)) = true := by decide +kernel

theorem test_meets_ContextEvents_1 : (
  let r := { rec_ operatorFields .running with running := [(0, 0)], next := 1 }
  let n := (launch [(2, r)] true).modJob 0 (fun j => { j with rid := 2 })
  let p := fun (x : Stream) => { x with stopped := true }
  let s := (n.modJob 0 (fun j => { j with sc := p j.sc, ld := p j.ld, cx := p j.cx, st := p j.st })).modCore 0 (fun k => { k with stopping := some .preempt })
  (n.core 0).job.isSome && !n.jobDone 0 && !n.stopDone 0 && (s.core 0).job.isSome && !s.jobDone 0 && s.stopDone 0 && true) = true := by decide +kernel

theorem test_meets_ContextEvents_2 : (
  let s := launch []
  let f := s.modDie 63 (fun d => { d with fenced := true })
  (f.die 63).fenced && !(s.die 63).fenced && (s.chunksOn 63).isEmpty && (List.range 16).all (fun i => (s.core (16 * 63 + i)).job.isNone) && s.newelOf (s.partOf 63).1 != 63 && adjacent 0 8 && !s.failed.contains (0, 8) && !adjacent 7 8 && true) = true := by decide +kernel

theorem test_meets_ContextEvents_3 : (
  let s := launch [(2, { rec_ operatorFields .running with running := [(0, 0)] }), (3, { rec_ (operatorFields ++ [(55, 2)]) .running with running := [(0, 0)] })]
  (s.rec? 2).any (fun r => !r.reissue && true) && (s.rec? 3).any (fun r => r.reissue && true)) = true := by decide +kernel

theorem test_meets_ContextEvents_4 : (
  let s := (launch []).modPool 0 (fun p => { p with decide_ := some 1, cands := [9, 3, 63] })
  let n : State := { s with now := 1 }
  (s.pool 0).decide_ == some 1 && (s.pool 0).cands == [9, 3, 63] && decide (s.now < 1) && !(n.die 3).fenced && true) = true := by decide +kernel

theorem test_meets_ContextEvents_5 : (
  let s := (launch [] true).modCtx 1 (fun x => { x with yieldBy := some 1 })
  let n : State := { s with now := 1 }
  let j := ((s.core 0).job.map (·.ctx))
  (s.ctx? 1).any (fun x => x.yieldBy == some 1) && !n.yieldMet 1 && n.cores == [(0, n.core 0)] && j == some 1 && (n.core 0).stopping.isNone && true) = true := by decide +kernel

theorem test_meets_ContextEvents_6 : (
  let v : Susp := { va := 0x1000, idx := 6, reply := none }
  let b := (launch [] true).modFn 0 (fun f => { f with frctx := 1, frply := 6 })
  let s := b.modStrm 0 .ld (fun x => { x with susp := some v })
  let h := s.modCtx 1 (fun x => { x with status := .held })
  let d := s.modCtx 1 (fun x => { x with status := .stopped })
  let n := b.modFn 0 (fun f => { f with frctx := 7 })
  let ok := fun (s : State) => s.modFn 0 (fun f => { f with frply := f.frply &&& 0x1FFFFFFFF#64 })
  (n.ctx? 7).isNone && [s, h, d].all (fun s => (s.ctx? 1).any (fun x => x.fn == 0) && (s.susps 1).find? (fun e => e.2.idx == 6) == some (.strm 0 .ld, v)) && (s.core 0).job.isSome && true) = true := by decide +kernel

theorem test_meets_MainMemory_1 : (
  let b := launch [] true
  let s := b.modFn 0 (fun f => { f with tsdctl := BitVec.ofNat 64 (2 ^ 32 + 0xB0) })
  let e := b.modFn 0 (fun f => { f with tsdctl := BitVec.ofNat 64 (2 * 2 ^ 32 + 0xB0) })
  let y := s.modFn 0 (fun f => { f with tsd := some [1] })
  let own := (s.ctxsOf 0).map (fun e => e.2.asid)
  let w := { y with bases := [(0, { reqs := [{ id := 1, die := 0, epoch := 1, clock := [], core := 0, unit_ := 0, pa := 0, bytes := [], ctx := 1, asid := 1 }] })] }
  own == [1] && (s.fn 0).tsd.isNone && (y.fn 0).tsd.isSome && (e.fn 0).tsd.isNone && y.shotBusy [1] == false && State.shotBusy w [1] && true) = true := by decide +kernel

theorem test_meets_MainMemory_2 : (
  let s := (launch []).modFn 0 (fun f => { f with migsrc := 0x40000000, migdst := 0x50000000, migctl := 9 })
  let b := s.modFn 0 (fun f => { f with migctl := 10 })
  let m : Mig := { src := 0x40000000, srcKey := 0, dst := 0x50000000, dstKey := 0, size := 4096, copied := 31, asked := false, shot := false }
  let r := s.modFn 0 (fun f => { f with mig := some m })
  let d := s.modFn 0 (fun f => { f with mig := some { m with copied := 32 } })
  let h := s.modFn 0 (fun f => { f with mig := some { m with copied := 32, shot := true } })
  let f := s.fn 0
  (r.fn 0).mig == some m && (s.fn 0).mig.isNone && decide (9 < (b.fn 0).migctl.toNat % 16) && s.migPart 0 f.migsrc.toNat == some 0 && s.fns.all (fun e => e.2.mig.isNone) && paMod f.migsrc.toNat == s.ownMod && f.migsrc.toNat % 0x10000000 == 0 && f.migdst.toNat % 0x10000000 == 0 && s.physOk 0 f.migsrc.toNat && s.physOk 0 (f.migdst.toNat + 0xFFFFFFF) && !rangesMeet (paLocal f.migsrc.toNat) 0x10000000 (paLocal f.migdst.toNat) 0x10000000 && true) = true := by decide +kernel

theorem test_meets_MainMemory_3 : (
  let s := (launch []).modBase 31 (fun b => { b with acts := [(5, 6, 8191)] })
  let t := (launch []).modBase 31 (fun b => { b with throttled := [(5, 15, 0)] })
  let l : State := { t with now := usCycles 2 }
  ((s.base 31).throttle? 5 15).isNone && (t.base 31).throttle? 5 15 == some 0 && (l.base 31).throttle? 5 15 == some 0 && decide (t.now < 0 + usCycles 2) && decide (0 + usCycles 2 ≤ l.now) && true) = true := by decide +kernel

theorem test_meets_MainMemory_4 : (
  let s := (launch [] true)
  let e : State := { s.modBase 3 (fun b => { b with errs := [(9, 7 + 6 * 2 ^ 32, [0, 0], false, true)] }) with now := 5 }
  let o : State := { s.modBase 3 (fun b => { b with errs := [(9, 7 + 6 * 2 ^ 32, [0, 0, 0], false, true)] }) with now := 5 }
  let w := s.modFn 1 (fun f => { f with window := some (0, 0, 28, 0x40000000), part := some 0 })
  trackBase 9 6 == 3 && (e.base 3).errs.find? (fun x => x.1 == 9 && x.2.1 == 7 + 6 * 2 ^ 32) == some (9, 7 + 6 * 2 ^ 32, [0, 0], false, true) && (o.base 3).errs.find? (fun x => x.1 == 9 && x.2.1 == 7 + 6 * 2 ^ 32) == some (9, 7 + 6 * 2 ^ 32, [0, 0, 0], false, true) && ([0, 0].filter (fun t => decide (e.now < t + e.ecwin * 1600000000))).length + 1 == e.ecthr && ([0, 0, 0].filter (fun t => decide (o.now < t + o.ecwin * 1600000000))).length + 1 == o.ecthr + 1 && (s.core 0).job.isSome && (s.openWindow 1 0).isNone && w.openWindow 1 0x10007F == some (0, 0x4010007F) && true) = true := by decide +kernel

theorem test_meets_Observation_1 : (
  let s := (launch []).modFn 1 (fun f => { f with part := some 0, prfctl := BitVec.ofNat 64 (1000 * 2 ^ 32) })
  let b := (launch []).modFn 1 (fun f => { f with part := some 0 })
  let h := (launch []).modPool 0 (fun p => { p with prf := some (1, 3, true, 9) })
  let l : State := { h with now := 9 }
  (s.fn 1).part == some 0 && (s.fn 1).slice == 1000 && (b.fn 1).slice == 0 && (s.pool 0).prf.isNone && h.pools == [(0, h.pool 0)] && (h.pool 0).prf == some (1, 3, true, 9) && (l.pool 0).prf == some (1, 3, true, 9) && true) = true := by decide +kernel

theorem test_meets_Observation_2 : (
  let s := launch [] true
  let i := launch []
  let h := s.modCtx 1 (fun x => { x with status := .held, dbgHeld := true })
  [s, i, h].all (fun s => s.dbgCtx 0 == some 1) && (s.ctx? 1).any (fun x => x.status == .live) && s.ctxRuns 1 && !i.ctxRuns 1 && (h.ctx? 1).any (fun x => x.status == .held && x.dbgHeld) && true) = true := by decide +kernel

/-- Of the answers of a free bit none is evaluated. -/
theorem test_meets_Observation_3 : (
  let s := (launch [] true).modCore 0 (fun k => { k with obs := { ctx := 1, buf := [5], trc := BitVec.ofNat 64 (0x40070000 + 12 * 128 + 1), trp := 0xFE0 } })
  let n := launch [] true
  (s.core 0).obs.buf == [5] && (n.core 0).obs.buf.isEmpty && (trcRing (s.core 0).obs.trc).any (fun (base, size) => base == 0x40070000 && true)) = true := by decide +kernel

theorem test_meets_HostCommands_1 : (
  let s := booted
  let c := cmd [(0, 1), (1, 0), (16, 0x3000), (24, 0x40100000), (32, 0x40200000), (40, 65536), (48, 0x40300000), (60, 1023)]
  s.fwUp && cmdField c 0 1 == 1 && cmdZero c [(2, 6), (8, 8), (44, 4), (62, 2)] && s.isPart 0 && paMod (cmdField c 16 8) == s.ownMod && decide (partBase 0 ≤ paLocal (cmdField c 16 8)) && decide (paLocal (cmdField c 16 8) < partBase 0 + partSize (s.partDies 0)) && cmdField c 32 8 % 65536 == 0 && !s.closed 0 && decide (s.nextCtx < 2 ^ 40) && true) = true := by decide +kernel

theorem test_meets_HostCommands_2 : (
  let s := booted
  let d := cmd [(0, 2), (8, 1)]
  let q := cmd [(0, 3), (1, 16), (2, 7), (4, 2047), (8, 1), (16, 0x40000000), (24, 0x40000000)]
  let z := cmd [(0, 4), (8, 0)]
  let p := cmd [(0, 5), (1, 0), (2, 7), (8, 0), (16, 1000000)]
  let x := cmd [(0, 6), (1, 1), (8, 1), (16, 1024)]
  let n := cmd [(0, 2), (8, 77)]
  (s.ctx? 1).any (fun y => y.fn == 0) && (s.ctx? 77).isNone && cmdZero d [(1, 7), (16, 48)] && !s.lockedFn 0 && cmdZero q [(3, 1), (6, 2), (32, 32)] && cmdField q 16 8 % (128 * 2 ^ 16) == 0 && cmdField q 4 2 == 2047 && (s.queues.filterMap (fun e => e.2.map (fun _ => e.1))).length == 1 && s.queueOf 0 0 == some (0, ring) && !s.queueUsed 0 ring && cmdZero z [(1, 7), (16, 48)] && cmdZero p [(3, 5), (20, 44)] && cmdZero x [(2, 6), (20, 44)] && true) = true := by decide +kernel

theorem test_meets_HostCommands_3 : (
  let s := booted (launch [] true)
  let c := cmd [(0, 7), (8, 1), (16, 1000000)]
  let r := cmd [(0, 8), (8, 1)]
  let k := s.modCtx 1 (fun x => { x with coop := true })
  let h := s.modCtx 1 (fun x => { x with status := .held })
  let v := cmd [(0, 0x10), (1, 63), (2, 0)]
  let m := cmd [(0, 0x11), (8, 6143)]
  let f := cmd [(0, 0x12), (1, 0x11), (2, 1), (8, 255)]
  let g := cmd [(0, 0x12), (1, 0x23), (2, 1), (8, 1)]
  let w := cmd [(0, 0x13), (1, 1), (2, 0), (3, 0), (4, 41)]
  let i := cmd [(0, 0x14), (1, 15), (2, 0), (3, 1)]
  let o := cmd [(0, 0x14), (1, 0), (2, 0), (3, 0)]
  let p := s.modFn 1 (fun f => { f with part := some 0 })
  (s.ctx? 1).any (fun x => !x.coop && x.status == .live && x.fn == 0) && s.ctxRuns 1 && cmdZero c [(1, 7), (20, 44)] && (h.ctx? 1).any (fun x => x.status == .held) && cmdZero r [(1, 7), (16, 48)] && cmdZero v [(3, 61)] && s.isPart 0 && !s.lockedFn 63 && !s.closed 0 && (s.ctxsOf 63).isEmpty && s.modnum.isNone && cmdZero m [(1, 7), (16, 48)] && cmdZero f [(3, 5), (16, 48)] && (s.fwRead 0x11).isSome && (s.fwRead 0x23).isSome && cmdZero w [(5, 3), (16, 48)] && s.keyOk 0 0 && decide (2 ^ 41 ≤ partSize (s.partDies 0)) && (p.fn 1).part == some 0 && !s.keyOk 0 15 && cmdZero i [(4, 60)] && decide ((s.pool 0).keys.length < 4) && true) = true := by decide +kernel

theorem test_meets_HostInterface_1 : (
  let b := booted State.reset
  let r : State := { b with repart := some (5, 4, true), now := 5, pcfg := pcfgWord 0 4 0 true }
  let n : State := { r with now := 4 }
  let c : State := { r with now := 0 }
  let k : State := { r with repart := some (5, 4, false) }
  let v := (k.modFn 63 (fun f => { f with part := some 0 })).modFn 63 (fun f => { f with tdisp := .run })
  let d := { launch [] with repart := some (0, 4, false), pcfg := pcfgWord 0 4 0 true, queues := [(0, some { ring with tail := ring.head + 1 })] }
  let f := (launch []).modFn 1 (fun f => { f with part := some 0 })
  let l := f.modFn 1 (fun f => { f with tdisp := .locked })
  let w := c.modFn 1 (fun f => { f with part := some 0 })
  !State.reset.fwUp && b.fwUp && b.repart.isNone && r.repart.isSome && !b.lockedFn 63 && k.queues.isEmpty && k.ctxs.isEmpty && k.bases.isEmpty && k.pools.isEmpty && decide (n.now < 5) && v.lockedFn 63 && (v.fn 63).part == some 0 && (v.affected 4).map (·.1) == [0] && d.queueUsed 0 { ring with tail := ring.head + 1 } && (d.ctx? ring.ctx).any (fun x => x.part == 0) && (List.range 64).all (fun f => !d.lockedFn f) && w.closed 0 && w.portsShut 0 && (w.fn 1).part == some 0 && (f.fn 1).tdisp == .unlocked && !f.closed 0 && (l.fn 1).tdisp == .locked && true) = true := by decide +kernel

theorem test_meets_HostInterface_2 : (
  let s := booted
  let e : State := { s with session := true }
  s.fwUp && !s.session && e.session && !(s.fn 63).mres.getLsbD 63 && true) = true := by decide +kernel

theorem test_meets_PredicatedOff : (
  let u := slot .sc
  let s := at_ .sc
  let o : ROps := ⟨if_ 7, into (.s 3) 0b1111, .pop .cx, .pop .ld⟩
  let c := slot .cx
  let z := at_ .cx
  let k : CustomOps := ⟨0xC0, 0, if_ 1, 0x3F, 0, 0, 0, 0, none⟩
  guardOf (.add o) == some (if_ 7) && s.cur == some u && (s.core 0).job.isSome && !guardHolds (if_ 7) (s.strmAt 0 .sc) && (s.strmAt 0 .sc).loops.isEmpty && z.cur == some c && !guardHolds k.g (z.strmAt 0 .cx) && (z.jobAt 0).micro.isNone && !(bindV (tget 0 (((z.ctx? 1).map (·.bind)).getD []) 0)) && (encodeFields (.add { o with g := un 3 })).any (fun f => f.pred == (un 3).code) && true) = true := by decide +kernel

theorem test_meets_PhysicalAddresses : (
  let s := at_ .sc
  let f : Leaf := { pte := BitVec.ofNat 64 (0x40000000 + 31 + 10 * 64), lg := 30 }
  let g : Leaf := { f with pte := f.pte ||| 0xF000000000000000 }
  f.allows .load && g.allows .load && paMod (f.pa 0x40000008) == s.ownMod && paMod (g.pa 0x40000008) == s.ownMod && decide (s.pcfg.toNat % 8 ≤ 4) && s.layout == [(0, 64)] && true) = true := by decide +kernel

/-- Core 0 at the turn of SC with these fetched words. -/
def turnOf (w : Fetched) (log : List LogEnt) : State :=
  { at_ .sc id (fun x => { x with fetched := some w, log := log }) with turn := [(0, .sc)] }

/-- `TurnOf`, by evaluation. -/
def isTurn (s : State) (w : Fetched) : Bool :=
  s.inputs.isEmpty && s.due.isEmpty && s.turn == [(0, .sc)] && !s.throttle && !s.stopsNow 0
    && (s.core 0).job.any (fun j => j.sc.live && !j.sc.rdvWait && !j.sc.replay && j.sc.rep.isNone && j.sc.fetched == some w && w.pc == j.sc.pc)

theorem test_meets_StepRuns_1 : (
  let w : Fetched := { pc := 0x40000000, word := 0x1000060740000000, lit := 0x03011133 }
  isTurn (turnOf w []) w && (decode .sc w.word w.lit).isOk) = true := by decide +kernel

theorem test_meets_StepRuns_2 : (
  let w : Fetched := { pc := 0x40000000, word := 0x0008000000000000, lit := 0 }
  let e : LogEnt := { id := 3, pc := 0, word := 0, lit := 0, repk := 0, scope := .mod, op := .ld 0x40001000 8, fills := [], row := none }
  isTurn (turnOf w []) w && isTurn (turnOf w [e]) w && !(decode .sc w.word w.lit).isOk) = true := by decide +kernel

theorem test_meets_Fetching_1 : (
  let z := spadAt 0x100 (leBytes 0x0040000000000000 8) (at_ .sc)
  (match checkAddr z 0 0x100 8 1 false with
    | .ok (.spad o) => o == 0x100 && !(BitVec.ofNat 64 (leNat (readBytes (z.core 0).spad o 8))).getLsbD 41
    | _ => false)) = true := by decide +kernel

/-- The 8 bytes of code at a are read and the word takes no literal. -/
def shortAt (s : State) (a : Nat) : Bool :=
  had (s.codeBytes 0 a 8) fun _ bs => !(BitVec.ofNat 64 (leNat bs)).getLsbD 41

theorem test_meets_Fetching_2 : shortAt ((at_ .sc).place 0x40000000 (leBytes 0x1000040740000000 8)) 0x40000000 = true := by decide +kernel

/-- The 8 bytes of code at a are read and the word takes a literal, whose 4 bytes are read after it. -/
def wideAt (s : State) (a : Nat) : Bool :=
  had (s.codeBytes 0 a 8) fun s1 bs => (BitVec.ofNat 64 (leNat bs)).getLsbD 41 && had (s1.codeBytes 0 (a + 8) 4) fun _ _ => true

theorem test_meets_Fetching_3 : wideAt ((at_ .sc).place 0x40000000 (leBytes 0x1000060740000000 8)) 0x40000000 = true := by
  decide +kernel

theorem test_meets_RegisterFrames_1 : (
  let u := slot .sc
  let s := at_ .sc id (regs [(1, 0x3F8000000), (2, 3)])
  let o : ROps := ⟨al, into (.s 31) 0b1000, .s 1, .s 2⟩
  let p : ROps := ⟨al, into (.a 15) 0b0001, .s 1, .s 1⟩
  let q : ROps1 := ⟨al, into (.p 7) 0, .s 1⟩
  let r : ROps1 := ⟨al, into (.s 0) 0, .s 1⟩
  let l : POps := ⟨al, into (.p 1) 0, true, 0, false, 7⟩
  let b : BOps := ⟨al, into (.s 1) 0, 4⟩
  let ints := (intTwo o ++ [Instr.lea o 3, Instr.bext o 0x7FF, Instr.div o, Instr.remu o]).all (fun i => answers i s && true)
  let cs := answers (.cmp { o with d := into (.p 7) 0 } .geu) s && true
  let ds := [Instr.madd o, .bins o 5].all (fun i => answers i s && true)
  let es := [Instr.clz r, .popc r, .mov al (into (.p 7) 0) (.s 1), .fcvt r .itof, .frnd r .rup, .fcvt r (.ftoi .rtz)].all (fun i => answers i s && true)
  let fs := (fltTwo p ++ [Instr.ffma p]).all (fun i => answers i s && true)
  let ls := [Instr.pand l, .pmov al l.d true 1, .qtest al l.d .vready, .nop al, .tlrd al (into (.s 1) 0) 15 .done].all (fun i => answers i s && true)
  runs s u al && plain [o.a, o.b, p.a, p.b, q.a] && got (operand2 u o.d o.a o.b s) (fun r _ => r.2 != 0) && got (operand3 u o.d o.a o.b s) (fun _ _ => true) && got (operand1 u r.d r.a s) (fun _ _ => true) && got (floats2 u p.d p.a p.b s) (fun _ _ => true) && got (floats3 u p.d p.a p.b s) (fun _ _ => true) && got (floats1 u r.d r.a s) (fun _ _ => true) && (s.jobAt 0).noRoom .sc l.d == none && (s.jobAt 0).noRoom .sc b.d == none && !(s.strmAt 0 .sc).inMloop u.pc && ints && cs && ds && es && fs && ls && answers (.br b) s && answers (.brl b) s && true) = true := by decide +kernel

theorem test_meets_RegisterFrames_2 : (
  let u := slot .cx
  let s := at_ .cx (fun j => { rowsOf [(0, 0x7F0000003), (127, 0x3F8000000)] j with k := [(15, 0xF)] })
  let o : VOps := ⟨al, into (.v 1) 0b10000, .v 0, .v 127, false, 15⟩
  runs s u al && plain [o.a, o.b] && got (lanes2 u o true false s) (fun _ _ => true) && got (lanes2 u o false false s) (fun _ _ => true) && (vecTwo o false).all (fun i => answers i s && true) && (vecTwo o true).all (fun i => answers i s && true)) = true := by decide +kernel

theorem test_meets_StoreFrames_1 : (
  let u := slot .st
  let s := at_ .st id (regs [(1, 0xFFF8), (2, 0xABCD)])
  let o : StOps := ⟨al, .s 2, ⟨.s 1, .zero⟩, .strm, .fe, 3⟩
  let t := at_ .st id (regs [(1, 0x40000FF8), (2, 0xABCD)])
  runs s u al && plain [o.at_.base, o.at_.idx] && got (storeReady u o s) (fun (_, a, ar) _ => !ar.isTrans && a == 0xFFF8) && answers (.st o) s && runs t u al && got (storeReady u { o with fe := .none } t) (fun (_, _, ar) _ => ar.isTrans) && true) = true := by decide +kernel

theorem test_meets_StoreFrames_2 : (
  let u := slot .st
  let s := at_ .st (fun j => { j with vqCx := [.full 0x3F800003F] }) (regs [(1, 0x300)])
  let o : VstOps := ⟨al, ⟨.s 1, .zero⟩, 2, .rtz, .strm, .none, false⟩
  runs s u al && plain [o.at_.base, o.at_.idx] && o.rnd != .rsto && got (rowStoreReady u o s) (fun (_, _, _, ar) _ => !ar.isTrans) && answers (.vst o) s && true) = true := by decide +kernel

theorem test_meets_StoreFrames_3 : (
  let u := slot .st
  let s := at_ .st (fun j => { j with vqCx := [.full 0x3F800003F] }) (regs [(1, 0x300), (2, 0x2000)])
  let o : VstOps := ⟨al, ⟨.s 1, .s 2⟩, 3, .rtz, .strm, .none, false⟩
  runs s u al && o.rnd != .rsto && got (scatterReady u o s) (fun (_, _, ars) _ => ars.all (fun ar => !ar.isTrans) && ars != []) && answers (.vstx o) s && true) = true := by decide +kernel

theorem test_meets_StoreFrames_4 : (
  let u := slot .sc
  let s := spadAt 0x100 (leBytes 9 4) (at_ .sc id (regs [(0, 5), (1, 0x100), (4, 9), (5, 77)]))
  let o : AOps := ⟨al, into (.s 4) 0b1000, ⟨.s 1, .zero⟩, .strm, false⟩
  runs s u al && plain [o.at_.base, o.at_.idx] && got (atomicAddr u o.d o.at_ 4 s) (fun ar s1 => !ar.isTrans && got (readDst u o.d s1) fun _ t => t == s1) && (atomics o).all (fun i => answers i s && true)) = true := by decide +kernel

theorem test_meets_StoreFrames_5 : (
  let u := slot .st
  let s := at_ .st (fun j => { j with gwin := [(3, 0x8000800500010002)] }) (regs [(1, 0x2FF8), (2, 0xABCD)])
  let g := { at_ .st with galleries := [{ id := 5, arrive := 0, die := 0, src := 0, members := [0, 15], pieces := [{ addr := 0x2FF8, bytes := fullMask [1, 2, 3] }] }] }
  runs s u al && plain [.s 1, .zero] && (got (needLogEntry u true s) fun _ t => t == s) && (needAll s u {} (addrRds ⟨.s 1, .zero⟩ ++ [.scalar (.s 2)])).isEmpty && Src.isData (.s 2) && got (readAddr u ⟨.s 1, .zero⟩ s) (fun a s1 => got (readScalar u (.s 2) s1) fun w s2 => got (galleryReady u false a 8 8 s2) fun ms t => t == s2) && answers (.gst (.scalar al (.s 2) ⟨.s 1, .zero⟩ 3)) s && answers (.galleryArrival 5) g && true) = true := by decide +kernel

theorem test_meets_StoreFrames_6 : (
  let u := slot .sc
  let s := spadAt 0x108 (leBytes 0x1122334455667788 8) (at_ .sc (fun j => j) (regs [(1, 0x108)]))
  let o : LdOps := ⟨al, into (.s 3) 0b0100, ⟨.s 1, .zero⟩, .strm, .fec, false, 3⟩
  let s := s.modCore 0 (fun k => { k with fe := [(0x10, true)], feOld := [(0x10, true)] })
  runs s u al && plain [o.at_.base, o.at_.idx] && got (loadReady u o s) (fun (_, ar) _ => !ar.isTrans) && answers (.ld o) s && true) = true := by decide +kernel

theorem test_meets_Traps_1 : (
  let u := slot .sc
  let s := at_ .sc id (regs [(1, 0x40000006)])
  let tf : Trap := { cause := 0x05, detail := 8, faddr := 8 }
  let tb : Trap := { cause := 0x11 }
  let un : TrapUnit := .stream .sc
  runs s u al && !u.second && got (source2 u (.s 1) .zero s) (fun (x, y) s1 => !(s1.strmAt 0 .sc).inMloop u.pc && (x.toInt + y.toInt) % 4 != 0 && true) && (match s.putTrap (s.jobAt 0).ctx (trapRecOf s 0 un tf u) with
    | (s1, .ok (some ix)) => true
    | _ => false) && (s.core 0).lastTrap.isNone && (match (s.haltUnit 0 un none).putTrap (s.jobAt 0).ctx (trapRecOf s 0 un tb u) with
    | (s1, .ok (some ix)) => true
    | _ => false) && (s.ctx? 1).any (fun x => x.status == .live && s.ctxRuns 1 && true) && !({ s.strmAt 0 .sc with trapped := true } : Stream).live && (match checkAddr s 0 (-1) 1 1 false, checkAddr s 0 (2 ^ 56 - 1) 2 1 false, checkAddr s 0 0xFFFFFF 2 2 false, checkAddr s 0 0xFFFF 1 1 false, checkAddr s 0 0x10000 1 1 false with
    | .error a, .error b, .error c, .ok (.spad 0xFFFF), .error d => true
    | _, _, _, _, _ => false)) = true := by decide +kernel

theorem test_meets_DecodeEncode : (
  let i : Instr := .ld ⟨un 7, into (.s 31) 0b1101, ⟨.s 1, .lit 0x80000000⟩, .mod, .none, true, 2⟩
  i.wf .ld && (encode i).any (fun p => true)) = true := by decide +kernel

theorem test_meets_MemoryForm : (
  let s := (at_ .sc).place 0x40001000 [1, 0, 2]
  Memory.wf s.hbm && (match step { s with turn := [(0, .sc)] } with | .next t => Memory.wf t.hbm | _ => false)) = true := by decide +kernel

/-- An entry that stands at each key of a list is read at each of them. -/
theorem tget_map_const {α : Type} (d a : α) (l : List Nat) (i : Nat) (h : i ∈ l) : tget d (l.map (fun k => (k, a))) i = a := by
  induction l with
  | nil => simp at h
  | cons x xs ih =>
    by_cases hx : x = i
    · simp [tget, hx]
    · simp only [List.map_cons, tget, hx, if_false]
      exact ih (by simpa [Ne.symm hx] using h)

/-- The access answers a fault. -/
def failed (p : State × Except ε α) : Bool :=
  match p.2 with
  | .ok _ => false
  | .error _ => true

theorem test_meets_ScalarLoads_4 : (
  let u := slot .ld
  let s := at_ .ld id (regs [(1, 0x80001000)])
  let o : LdOps := ⟨al, into (.s 3) 0b0100, ⟨.s 1, .zero⟩, .mod, .none, false, 3⟩
  runs s u al && got (loadReady u o s) fun (a, ar) s1 => !(ar.isTrans && o.d.reg.isNone && !o.zf) && failed (s1.goodLoad 0 .ld ar 8 o.scope o.zf)) = true := by decide +kernel

theorem test_meets_ScalarLoads_5 : (
  let u := slot .sc
  let s := at_ .sc id (regs [(1, 0x40001000), (2, 0x80001000)])
  let o : LdOps := ⟨al, into (.s 3) 0b0100, ⟨.s 1, .zero⟩, .mod, .none, false, 3⟩
  let q : LdOps := { o with at_ := ⟨.s 2, .zero⟩ }
  runs s u al && (s.strmAt 0 .sc).log.isEmpty && got (loadReady u o s) (fun (a, ar) s1 => had (s1.loadArea 0 .sc ar 8 o.scope) fun s3 bs => (firstBad a.toNat bs).isNone) && got (loadReady u q s) fun (a, ar) s1 => failed (s1.goodLoad 0 .sc ar 8 o.scope o.zf)) = true := by decide +kernel

theorem test_meets_RowLoads_5 : (
  let u := slot .ld
  let s := { at_ .ld id (regs [(1, 0x40001000)]) with poison := [(0x40001080 / 128, 2)] }
  let o : VldOps := ⟨al, true, ⟨.s 1, .zero⟩, 1, .strm, .none, true, false⟩
  runs s u al && got (rowLoadReady u o s) fun (f, a, ar) s1 => !(ar.isTrans && !o.zf) && ar.isTrans && had (s1.loadArea 0 .ld ar (runBytes f.width 128) o.scope) fun s3 bs => (firstBad a.toNat bs).any (fun v => true)) = true := by decide +kernel

theorem test_meets_RowLoads_6 : (
  let u := slot .ld
  let s := at_ .ld id (regs [(1, 0x40001000), (2, 0x2000)])
  let o : VldOps := ⟨al, true, ⟨.s 1, .zero⟩, 1, .strm, .none, false, false⟩
  let x : VldOps := { o with at_ := ⟨.s 1, .s 2⟩ }
  runs s u al && got (rowLoadReady u o s) (fun (f, a, ar) s1 => ar.isTrans && !o.zf && (s1.defers true).2.free == s1.free + 1) && got (gatherReady u x s) fun (f, ars) s1 => ars.all Area.isTrans && ars != [] && (s1.defers true).2.free == s1.free + 1) = true := by decide +kernel

theorem test_meets_Stores_8 : (
  let u := slot .st
  let s := at_ .st id (regs [(1, 0x80000FF8)])
  let o : StOps := ⟨al, .const 3, ⟨.s 1, .zero⟩, .mod, .none, 2⟩
  runs s u al && got (storeReady u o s) fun (w, a, ar) s1 => (s1.defers ar.isTrans).2.free == s1.free + 1 && failed (State.storeArea { s1 with free := s1.free + 1 } 0 3 ar (fullMask (leBytes w.toNat 4)) o.scope false)) = true := by decide +kernel

theorem test_meets_Stores_9 : (
  let u := slot .st
  let s := at_ .st (fun j => { j with vqCx := [.full 0x3F800003F] }) (regs [(1, 0x40001000), (2, 0x2000)])
  let o : VstOps := ⟨al, ⟨.s 1, .s 2⟩, 3, .rtz, .strm, .none, false⟩
  runs s u al && o.rnd != .rsto && got (scatterReady u o s) fun (f, row, ars) s1 => ars.all Area.isTrans && ars != [] && ((s1.flagged u (rowElems f o.lw o.rnd row []).2).defers true).2.free == s1.free + 1) = true := by decide +kernel

theorem test_meets_Fences_2 : (
  let u := slot .st
  let r : HomeReq := { id := 4, die := 0, epoch := 0, clock := [], core := 0, unit_ := 3, pa := 0x40001000, bytes := fullMask [1, 2], ctx := 1, asid := 1 }
  let s := at_ .st
  let p := s.modBase 0 (fun b => { b with reqs := [r] })
  let ids := fun (s : State) => (s.release 0 3 .dom).awaited 0 (s.die 0).clock
  runs s u al && runs p u al && (p.strmAt 0 .st).log.isEmpty && !(p.strmAt 0 .st).relDone && ids s == [] && ids p == [4] && !u.second) = true := by decide +kernel

theorem test_meets_Atomics_3 : (
  let u := slot .sc
  let s := at_ .sc id (regs [(0, 5), (1, 0x80001000), (2, 0x1000010), (4, 9), (5, 77)])
  let r := (s.modBay 0 (fun b => { b with regions := [{ rid := 0, base := 0, size := 4096, ctx := 1, fresh := false }] }))
  let o : AOps := ⟨al, into (.s 4) 0b1000, ⟨.s 1, .zero⟩, .strm, false⟩
  let q : AOps := { o with at_ := ⟨.s 2, .zero⟩ }
  runs s u al && runs r u al && got (atomicAddr u o.d o.at_ 4 s) (fun ar s1 => (got (readDst u o.d s1) fun d t => t == s1) && failed (s1.translateRange 0 (s1.jobAt 0).ctx 0x80001000 4 .rw)) && got (atomicAddr u q.d q.at_ 4 r) fun ar s1 => ar == .cluster 16 && (s1.localBad 0 ar 4).isNone) = true := by decide +kernel

/-- The translation may be refused by the free choice of R388; the refusal is the clause before. -/
theorem test_meets_Atomics_4 : (
  let u := slot .sc
  let s : State := { (at_ .sc id (regs [(1, 0x40001000)])).place 0x2008 (leBytes (5 * 2 ^ 47 + 0x40000000 + 31 + 10 * 64) 8) with modnum := some 0 }
  let o : AOps := ⟨al, into (.s 4) 0b1000, ⟨.s 1, .zero⟩, .strm, false⟩
  runs s u al && got (atomicAddr u o.d o.at_ 4 s) (fun ar s1 => ar == .trans 0x40001000 && (got (readDst u o.d s1) fun d t => t == s1) && s1.ownMod == 0)) = true := by decide +kernel

theorem test_meets_TimelineCounters_4 : (
  let u := slot .cx
  let e : LogEnt := { id := 3, pc := 0, word := 0, lit := 0, repk := 0, scope := .mod, op := .ld 0x40001000 8, fills := [], row := none }
  let s := at_ .cx id (fun x => { regs [(1, 65536)] [] x with log := [e] })
  runs s u al && got (operand1 u (into (.s 2) 0) (.s 1) s) fun k s1 => decide (1 ≤ k.toNat ∧ k.toNat ≤ 65536) && ((s1.jobAt 0).ctr 4).canTake k.toNat && (s1.strmAt 0 .cx).log.map (·.id) == [3] && scopeWide .die) = true := by decide +kernel

theorem test_meets_MemoryEvents_8 : (
  let s : State := { at_ .st with modnum := some 0 }
  let b := { s with poison := [(0x40001000 / 128, 1)] }
  let pa : Word := 0x40001000
  let ok := fun (s : State) => s.modnum.isNone || s.portsShut (s.partOfLocal (paLocal pa.toNat)).1 || !s.physOk (s.partOfLocal (paLocal pa.toNat)).1 pa.toNat
  !ok s && !ok b && !s.isBad (paLocal pa.toNat) && b.isBad (paLocal pa.toNat) && (s.strmAt 0 .st).log.isEmpty) = true := by decide +kernel

theorem test_meets_Watchdogs_4 : (
  let s := fun (x : Strm) (w : Wait) (n : Nat) => at_ x id (fun y => { y with wait := some (w, n) })
  let ok := fun (x : Strm) (w : Wait) (n : Nat) => ((s x w n).core 0).job.isSome && ((s x w n).strmAt 0 x).live && ((s x w n).strmAt 0 x).wait == some (w, n)
    && ((s x w n).strmAt 0 x).log.isEmpty && ((s x w n).jobAt 0).micro.isNone
  let d := at_ .sc
  ok .ld (.push 6) (2 ^ 24 - 1) && ok .cx .busy (2 ^ 24) && ok .sc .busy 7 && ok .st (.pop 3) (2 ^ 24) && ok .sc (.counter 15 true) (2 ^ 24) && ok .cx .draw (2 ^ 24) && !(d.jobAt 0).anySusp && Wait.onQueue (.push 3) && !Wait.onQueue .busy) = true := by decide +kernel

theorem test_meets_SpecialFunctionsAndNoise_5 : (
  let g := fun (s : State) => s.modBay 0 (fun b => { b with noiseGrant := some 2 })
  let u := slot .cx
  let s := g (at_ .cx id (fun x => { x with drawn := [7, 8] }))
  decide (0 < 257) && ringMode (s.strmAt 0 .cx).rngc == 0 && (s.bay 0).noiseGrant == some (8 * 0 + strmNum .cx) && decide ((s.strmAt 0 .cx).drawn.length ≤ 257) && decide (257 ≤ 2 + 256) && decide (2 + 256 < 300)) = true := by decide +kernel

theorem test_meets_ArrayExecution_5 : (
  let a := blankCmd (slot .cx) 0 (.mma 1) false
  let z := at_ .cx
  let s := (z.modBay 0 (fun b => { b with stalled := 2 ^ 24 }))
  let p : State := { (s.modCore 0 (fun k => { k with arr := [a] })).modBay 0 (fun b => { b with entering := some 0 }) with now := 9 }
  decide ((z.bay 0).stalled < 2 ^ 24) && (s.arrPick 0).isNone && (p.arrPick 0).any (fun e => e.1 == 0)) = true := by decide +kernel

theorem test_meets_ArraySetUp_3 : (
  let u := slot .cx
  let s := spadAt 0x1C0 [1, 2, 3] (at_ .cx id (regs [(1, 0x1C0), (2, 2)]))
  runs s u al && got (source2 u (.s 1) (.s 2) s) fun (x, c) s1 => got (localArea u x.toInt (64 * c.toNat) 64 s1) fun ar t => t == s1 && (s1.localBad 0 ar (64 * c.toNat)).isNone) = true := by decide +kernel

theorem test_meets_Retirement_5 : (
  let u := slot .cx
  let d : BitVec 256 := BitVec.ofNat 256 (2 ^ 115 + 2 ^ 117 + 0x40 * 2 ^ 128)
  let a := blankCmd u 0 (.mret d 0 15 1 [] []) true
  let s : State := { (at_ .cx (rowsOf [(64, 0x3F8000000)])).modCore 0 (fun k => { k with arr := [a] }) with now := 9 }
  let f := mretDesc d
  f.bias && f.keep && (s.core 0).arr == [a] && !a.left && (s.localBad 0 (if f.biasa < 0x1000000 then .spad f.biasa else .cluster (f.biasa - 0x1000000)) (4 * laneN f.lw)).isNone) = true := by decide +kernel

theorem test_meets_ControlStore_6 : (
  let u := slot .sc
  let s := spadAt 0x40 (leBytes (2 ^ 127 + 2 ^ 126) 16) (at_ .sc id (regs [(1, 0x40), (2, 0x2000)]))
  let t := s.modCore 0 (fun k => { k with wcsld := some ([0], [], 0) })
  let o : COps := ⟨al, into (.s 3) 0, .s 1, .s 2, some 2⟩
  runs t u al && (t.core 0).wcsld == some ([0], [], 0) && decide (0 ≤ t.now) && (s.spadBadAt 0 0x40 16).isNone) = true := by decide +kernel

theorem test_meets_CustomOpcodes_4 : (
  let u := slot .cx
  let s := at_ .cx
  let o : CustomOps := ⟨0xFF, 0, al, 0, 0, 0, 0, 0, none⟩
  let m : Micro := { startMicro o 0x1000 u with upc := 0x2002 }
  !u.second && (s.strmAt 0 .cx).log.isEmpty && !bindV (tget 0 (((s.ctx? 1).map (·.bind)).getD []) 63) && m.sample.isNone) = true := by decide +kernel

/-- Every tag of a context is allocated. -/
def fullTags : Tbl TagSt := (List.range 4096).map (fun i => (i, { alloc := true }))

/-- A context of which no tag is free: the hypothesis of the two ways in which LTAG finds none (R318). -/
theorem freeTag_full (x : Ctx) (hx : x.tags = fullTags) (h : Nat) : x.freeTag h = none := by
  simp only [Ctx.freeTag, List.find?_eq_none, List.mem_map, List.mem_range, forall_exists_index, and_imp]
  rintro y i - rfl
  simp [Ctx.tag, hx, fullTags, tget_map_const _ _ _ _ (List.mem_range.mpr (Nat.mod_lt (h + i) (by decide : 0 < 4096)))]

theorem test_meets_LandingInstructions_7 : (
  let u := slot .sc
  let s := (at_ .sc).modCtx 1 (fun x => { x with tags := fullTags })
  let o : COps := ⟨al, into (.s 3) 0b0010, .zero, .zero, none⟩
  runs s u al && !u.second && (s.strmAt 0 .sc).log.isEmpty && got (operand1 u o.d o.b s) fun b s1 => (s1.ctx? 1).any (fun x => x.tags == fullTags)) = true := by decide +kernel

theorem test_meets_LandingInstructions_8 : (
  let u := slot .sc
  let s := spadAt 0x40 (leBytes (2 ^ 48 + 2 ^ 128) 32) (at_ .sc id (regs [(2, 0x40)]))
  got (localArea u 0x40 32 32 s) fun ar t => t == s && (s.localBad 0 ar 32).isNone) = true := by decide +kernel

/-- An arrival that has been looked at in this cycle is handled; one that has not may be looked at again by a free choice. -/
theorem test_meets_LandingEvents_6 : (
  let raw : BitVec 256 := 2 ^ 48 + 2 ^ 128 + 2 ^ 96
  let p : Parcel := { ctx := 1, tag := 0, fi := 0, src := 0, fd := 0, clk := [], rows := 5 }
  let f : Frag := { id := 9, p := p, nb := false, bounced := false, flying := true }
  let s := ((at_ .cx).modCtx 1 (fun x => { x with tags := [(0, { alloc := true, desc := some raw })] })).modCore 0 (fun k => { k with frags := [f], credits := 3 })
  let a := s.modLanding 0 (fun l => { l with arrived := [(0, 9, 0)] })
  s.fragAt 9 == some (0, f) && a.fragAt 9 == some (0, f) && f.flying && f.susp.isNone && ((s.landing 0).arrived.find? (fun e => e.2.1 == 9)).isNone && (a.landing 0).arrived.find? (fun e => e.2.1 == 9) == some (0, 9, a.now) && a.nextArrival 0 == some 9 && (a.landing 0).lastArrival.isNone && a.slotFree 0 1) = true := by decide +kernel

theorem test_meets_LandingEvents_7 : (
  let raw : BitVec 256 := 2 ^ 48 + 2 ^ 128
  let p : Parcel := { ctx := 1, tag := 0, fi := 0, src := 0, fd := 0, clk := [], rows := 0 }
  let q : Parcel := { p with rows := 5 }
  let d : Delivery := { id := 4, landing := 0, p := p, pending := some (2, q), nv := false, parts := [] }
  let s : State := { (at_ .cx).modCtx 1 (fun x => { x with ovfn := 4, ovf := [2], tags := [(0, { alloc := true, desc := some raw })] }) with deliveries := [d] }
  let v : Saved := { core := 0, job := placedJob 0x40000000, ways := 4, spad := [], fe := [], tags := [], frags := [], rid := 0, chunk := 0 }
  let k : State := (s.modCore 0 (fun k => { k with job := none })).modCtx 1 (fun x => { x with saved := [v] })
  !s.keepsEntry d && k.keepsEntry d) = true := by decide +kernel

theorem test_meets_CopyEngineInstructions_3 : (
  let u := slot .sc
  let s := at_ .sc
  let c := (at_ .sc (fun j => { j with t := [(2, { iss := 1 })] })).modCe 0 (fun e => { e with chains := [{ head := 0, ctr := 2, num := 1 }], entry := 3, block := 9 })
  runs s u al && (s.ceAt 0).chains.isEmpty && runs c u al && !(c.ceAt 0).chains.isEmpty && (c.ceAt 0).flight.isNone && !(c.ceAt 0).relDone && ((c.ceStopped 0).ceAt 0).unacked.isEmpty) = true := by decide +kernel

theorem test_meets_ChainEntries_7 : (
  let raw := fields [(0, 1), (4, 0x2000), (8, 0x2040)]
  let s := engine raw 1 (fun e => { e with block := 1 }) (spadAt 0x2000 (rowDesc 0x3000 8 2 8 ++ rowDesc 0x4000 16 2 8) (at_ .sc))
  let w : BitVec 256 := BitVec.ofNat 256 raw
  (s.ceAt 0).pats.isNone && (s.spadBadAt 0 (ceField w 4 4) 64).isNone && (s.spadBadAt 0 (ceField w 8 4) 64).isNone && (s.spadBadAt 0 0x3008 8).isNone) = true := by decide +kernel

theorem test_meets_ChainEntries_8 : (
  let rt := fields [(0, 5), (1, 0x32)]
  let t := engine rt 2
  let n := engine rt 2 (fun e => { e with sigNum := some 1, relDone := true })
  let w := BitVec.ofNat 256 rt
  let s1 := (t.modJob 0 (fun j => j.modCtr 3 (fun t => { t with iss := t.iss + 1 }))).modCe 0 (fun e => { e with sigNum := some 1 })
  engineRuns n rt && !(ceField w 1 1).testBit 0 && (n.ceAt 0).sigNum == some 1 && (t.ceAt 0).sigNum.isNone && (n.ceAt 0).relDone && ((n.ceFlushed 0 .die).ceAt 0).unacked.isEmpty) = true := by decide +kernel

theorem test_meets_FabricSteps_4 : (
  let w : Word := BitVec.ofNat 64 (1 * 2 ^ 46 + 7 * 2 ^ 26)
  let s := collective w (fun c => { c with sending := true })
  (s.collAt 1 0).any (fun (k, c) => (s.rec? c.rid).isSome && c.susp.isNone && c.word == some w && stepOp w == 0 && c.sending)) = true := by decide +kernel

theorem test_meets_FabricSteps_5 : (
  let w : Word := BitVec.ofNat 64 (1 * 2 ^ 60 + 1 * 2 ^ 46 + 7 * 2 ^ 26)
  let ls := flaggedLines (flagWord 7 0 1) (leBytes 0x3F800000 130)
  let s := ((collective w).place 0x40043000 (ls.getD 0 [])).place 0x40043080 (ls.getD 1 [])
  (s.collAt 1 0).any (fun (k, c) => had (s.unitWrite 1 (chunkAt k c w).1 (leBytes 0x3F800000 130)) fun s2 _ => true)) = true := by decide +kernel

theorem test_meets_FabricEvents_6 : (
  let w : Word := BitVec.ofNat 64 (1 * 2 ^ 60)
  let b := collective w (fun c => { c with waited := 2 ^ 26 - 1, lines := [(7, 0)] })
  let s : State := { b with now := 2 ^ 26 - 1 }
  let k := (at_ .sc).modChan 1 63 (fun k => { k with slot := some 9 })
  let s1 := k.error 7 7 31 63 0 0 0
  (s.collAt 1 0).any (fun (k, c) => decide (c.waited < 2 ^ 26) && c.lines.all (fun l => decide (s.now < l.2 + 2 ^ 26))) && (s.ctx? 1).any (fun x => x.fires.isEmpty) && (s1.partOf 62).1 == 0 && s1.ports.isEmpty && (s1.ctx? 1).any (fun x => x.part == 0)) = true := by decide +kernel

theorem test_meets_RecordReading_4 : (
  let r := rec_ (operatorFields ++ [(2, 1)]) .waiting
  let f := rec_ operatorFields (.done 0x21)
  let s := (launch []).modQueue 0 (fun q => { q with head := 15, tail := 0, bad := [(1, f)] })
  (s.queue? 0).any (fun q => (q.head.toNat + 1) % 2 ^ q.k == q.tail.toNat && (q.badPred r == f.dep r))) = true := by decide +kernel

/-- Two records of which the first cannot start: a tile table whose fires are open, and a WAIT. -/
def twoRecs : State :=
  (launch [(2, rec_ [(0, 5)] .ready), (3, rec_ [(0, 3), (8, 0x40030000)] .ready)]).modCtx 1 (fun x => { x with
    fires := [{ tile := 0, rid := 0, chunk := 0, ctr := 0, num := 1, ch := 0, sent := 0, lines := [] }] })

theorem pooled_twoRecs : twoRecs.pooled 0 = [(2, rec_ [(0, 5)] .ready), (3, rec_ [(0, 3), (8, 0x40030000)] .ready)] := by
  unfold State.pooled
  rw [show (twoRecs.recs.filterMap fun e => e.2.bind fun r => if r.state = .ready ∨ r.state = .running then
    (if twoRecs.recPart r = 0 then some (e.1, r) else none) else none) = [(2, rec_ [(0, 5)] .ready), (3, rec_ [(0, 3), (8, 0x40030000)] .ready)]
      from by decide +kernel]
  dsimp only
  rw [List.mergeSort_of_pairwise (le := fun (a b : Nat × Rec) => decide (a.2.order ≤ b.2.order)) (by decide +kernel)]
  rw [List.mergeSort_of_pairwise (by decide +kernel)]
  decide +kernel

theorem test_meets_HandOut_6 :
    (!(twoRecs.die (twoRecs.newelOf 0)).fenced && (twoRecs.handFrom 2 (rec_ [(0, 5)] .ready)).isNone
      && (twoRecs.handFrom 3 (rec_ [(0, 3), (8, 0x40030000)] .ready)).any (fun t => true)) = true := by decide +kernel

theorem test_meets_HandOut_7 : (
  let s := (launch [] true).modJob 0 (fun j => { j with since := 0 })
  (s.core 0).job.any (fun j => (s.waiters (((s.ctx? j.ctx).map (·.part)).getD 0)).isEmpty)) = true := by decide +kernel

theorem test_meets_JobsAndCompletion_5 : (
  let r := rec_ operatorFields (.done 0x32)
  let l := rec_ operatorFields (.done 0x31)
  let s := launch [(2, r), (3, l)]
  let w : State := { s with remote := [{ id := 9, ctx := 1, core := 0, die := 0, epoch := 0, pa := 0, op := .write [] }] }
  w.rec? 2 == some r && w.rec? 3 == some l && r.susp.isNone && w.remote.any (fun o => o.ctx == w.recCtx r)) = true := by decide +kernel

theorem test_meets_ContextEvents_7 : (
  let s := launch []
  let f : State := { s with failed := [(0, 8)] }
  adjacent 0 8 && !s.failed.contains (0, 8) && f.failed.contains (0, 8)) = true := by decide +kernel

theorem test_meets_ContextEvents_8 : (
  let e : LogEnt := { id := 3, pc := 0, word := 0, lit := 0, repk := 0, scope := .mod, op := .ld 0x40001000 8, fills := [], row := none }
  let v : Susp := { va := 0x1000, idx := 6, reply := none }
  let s := at_ .ld id (fun y => { y with log := [e] })
  let b := s.modStrm 0 .ld (fun x => { x with susp := some v })
  (s.strmAt 0 .ld).susp.isNone && (s.strmAt 0 .ld).log.any (fun e => e.op.own) && (b.strmAt 0 .ld).susp.isSome) = true := by decide +kernel

theorem test_meets_MainMemory_5 : (
  let b := launch [] true
  let r : State := { b with remote := [{ id := 9, ctx := 1, core := 0, die := 0, epoch := 0, pa := 0, op := .write [] }] }
  let n := b.modFn 0 (fun f => { f with ending := some (7, 9) })
  let w := r.modFn 0 (fun f => { f with ending := some (1, 9) })
  (b.fn 0).tsd.isNone && (b.fn 0).ending.isNone && (n.fn 0).ending == some (7, 9) && (w.fn 0).ending == some (1, 9) && n.remote.isEmpty && w.remote.any (fun o => o.ctx == 1) && !n.shotBusy [9]) = true := by decide +kernel

theorem test_meets_MainMemory_6 : (
  let s := at_ .sc
  decide (0x40000000 < 2 ^ 41) && decide (0xFFFF < (s.core 0).spadSize) && !decide (0x10000 < (s.core 0).spadSize) && decide (0 < 32 * cluStep)) = true := by decide +kernel

theorem test_meets_MainMemory_7 : (
  let s := launch []
  decide (1 ≤ s.ecthr) && trackBase 9 6 == 3 && (s.base 3).errs.isEmpty) = true := by decide +kernel

theorem test_meets_HostCommands_4 : (
  let s := booted.modFn 0 (fun f => { f with mres := 1#64 <<< 63 })
  let d := cmd [(0, 2), (8, 1)]
  let t := ({ booted with free := 1 } : State).teardown 1 5 0xFFFF
  (s.fn 0).mres.getLsbD 63 && !(booted.fn 0).mres.getLsbD 63 && !t.lockedFn 0 && !t.endingBusy 1 1) = true := by decide +kernel

theorem test_meets_HostInterface_3 : (
  let s : State := { booted State.reset with repart := some (5, 4, true), now := 5, pcfg := pcfgWord 0 4 0 true }
  let r : State := { s with remote := [{ id := 9, ctx := 7, core := 0, die := 0, epoch := 0, pa := 0, op := .write [] }] }
  !s.endingOn 4 && r.endingOn 4) = true := by decide +kernel

theorem test_meets_StoreFrames_7 : (
  let s := at_ .st
  let w := s.l1Store 0 3 1 0x4000107C (fullMask [1, 2, 3, 4]) .die
  decide (0x4000107C % 128 + 4 ≤ 128) && s.bases.isEmpty) = true := by decide +kernel

theorem test_meets_Traps_2 : (
  let u := slot .sc
  let e : LogEnt := { id := 3, pc := 0, word := 0, lit := 0, repk := 0, scope := .mod, op := .ld 0x40001000 8, fills := [], row := none }
  let s := at_ .sc id (regs [(1, 0x40000006), (2, 0xFFFFFFFFFFFFFFFC)])
  let l := s.modStrm 0 .sc (fun y => { y with log := [e] })
  let o : ROps := ⟨al, into (.s 3) 0, .s 1, .zero⟩
  let q : ROps := ⟨al, into (.s 3) 0, .s 2, .zero⟩
  runs s u al && !u.second && (s.strmAt 0 .sc).log.isEmpty && got (operand2 u o.d o.a o.b s) (fun (x, y) s1 => !(s1.strmAt 0 .sc).inMloop u.pc && (x.toInt + y.toInt) % 4 != 0) && got (operand2 u q.d q.a q.b s) (fun (x, y) s1 => (x.toInt + y.toInt) % 4 == 0 && decide (x.toInt + y.toInt < 0)) && !(l.strmAt 0 .sc).log.isEmpty) = true := by decide +kernel

/-! ### Worked examples of the spec -/

/-- The three `add` lines of the example of file 02, and the refused word: its DMASK names SC's own queue. -/
theorem test_example_words :
    decode .sc 0x1002240301020000 0 = .ok (.add ⟨if_ 2, into (.s 3) 0b0100, .s 1, .s 2⟩)
    ∧ decode .sc 0x10000405050001EC 0 = .ok (.add ⟨al, into (.s 5) 0, .s 5, .imm 0xEC⟩)
    ∧ decode .sc 0x1000060404000000 0x000186A0 = .ok (.add ⟨al, into (.s 4) 0, .s 4, .lit 0x000186A0⟩)
    ∧ encode (.add ⟨if_ 2, into (.s 3) 0b0100, .s 1, .s 2⟩) = some (0x1002240301020000, 0)
    ∧ decode .sc 0x10000C0301020000 0 = .error 7 := by decide +kernel

/-- The example of R68: 1 + 2^-26 + 2^-8 with STK stored as BF16, narrowed to W18, and from there stored as E4M3. -/
theorem test_example_round_odd :
    (stdFmt 1).map (fun f => (storeLane f false false 0x9FC040001 .rne 0).1) = some 0x3F81 ∧ imgConv false true 0x9FC040001 = 0x27F01
    ∧ (stdFmt 3).map (fun f => storeLane f true false 0x27F01 .rne 0) = some (0x38, flgNX) := by decide +kernel

/-- The example of R110: with s4 = -6, `cmp.lt p3, s4, #5` makes p3 true and `cmp.ltu` makes it false. -/
theorem test_example_compare :
    (match exec (.cmp ⟨al, into (.p 3) 0, .s 4, .const 13⟩ .lt) (at_ .sc id (regs [(4, 0xFFFFFFFFFFFFFFFA)])) with
      | .next t => (t.strmAt 0 .sc).pred 3
      | _ => false) = true
    ∧ (match exec (.cmp ⟨al, into (.p 3) 0, .s 4, .const 13⟩ .ltu) (at_ .sc id (regs [(4, 0xFFFFFFFFFFFFFFFA)])) with
      | .next t => (t.strmAt 0 .sc).pred 3
      | _ => true) = false := by decide +kernel

/-- The chunk of the example of file 01: core 3 of bay 2 of die 21, first index 640 of [0, 1000) in chunks of 64. -/
theorem test_example_launch :
    coreDie 347 = 21 ∧ coreBay 347 = 86 ∧ specialVal emptyJob 347 .coordCore = 11
    ∧ (let r := rec_ [(0, 1), (40, 1000), (48, 64)] .ready
       r.total = 16 ∧ ((launch []).newJob 347 r { rid := 2, chunk := 10, args := [], yielded := none, core := none }).first = 640
         ∧ ((launch []).newJob 347 r { rid := 2, chunk := 15, args := [], yielded := none, core := none }).count = 40) := by decide +kernel

/-- The translation of the example of file 15: the leaf, the physical address and the byte's home in a quarter's layout. -/
theorem test_example_translation :
    ({ pte := 0x20018000A000008F, lg := 16 } : Leaf).pa 0x4001234560 = 0x20018000A0004560
    ∧ (let s : State := { State.reset with pcfg := 2 }
       s.layout = [(0, 16), (16, 16), (32, 16), (48, 16)] ∧ s.homeOf (paLocal 0x20018000A0004560) = (4, 0x14000560)) := by decide +kernel

/-- The descriptor of the example of R117 reads 7 bits: 1.0 is exponent 3. -/
theorem test_example_format :
    (fmtOf (fun _ => 0x03011133) 17).map (fun f => (f.width, (storeLane f false false 0x1FC000000 .rne 0).1)) = some (7, 0x18) := by decide +kernel

end Sys2Proof.Tests
end

section
/-!
PROOFS. The set-up of the matrix array (O31): MFMT, MSCL and MSQ write their tables.
-/

namespace Sys2Proof.Machine

/-! ### Little-endian values and local reads -/

/-- Byte `k` of a little-endian value (R3); past its last byte the value has zeros. -/
theorem ofNat_leNat_div (bs : List Byte) (k : Nat) : BitVec.ofNat 8 (leNat bs / 256 ^ k) = bs.getD k 0 := by
  induction bs generalizing k with
  | nil => simp [leNat]
  | cons b bs ih =>
    have hb := b.isLt
    cases k with
    | zero =>
      apply BitVec.eq_of_toNat_eq
      simp only [leNat, Nat.pow_zero, Nat.div_one, BitVec.toNat_ofNat, List.getD_cons_zero]
      omega
    | succ k =>
      have hd : (b.toNat + leNat bs * 256) / 256 = leNat bs := by omega
      rw [List.getD_cons_succ, ← ih k, leNat, Nat.pow_succ', ← Nat.div_div_eq_div_mul, hd]

theorem leNat_lt (bs : List Byte) : leNat bs < 256 ^ bs.length := by
  induction bs with
  | nil => simp [leNat]
  | cons b bs ih =>
    have hb := b.isLt
    simp only [leNat, List.length_cons, Nat.pow_succ]
    omega

/-- A local read of an area without an uncorrectable byte answers its bytes (R158). -/
theorem localRead_ok {u : Cur} {ar : Area} {n : Nat} {s : State} (h : s.localBad u.core ar n = none) :
    localRead u ar n s = .ok (s.localBytes u.core ar n) s := by
  simp only [localRead, M.bind_ok, M.get_ok]
  refine ⟨s, s, ⟨rfl, rfl⟩, ?_⟩
  rw [h]
  rfl

/-! ### Set-up of the array (R7, R249, R258, R259) -/

/-- The mask sets that MSQ reads: one of 64 bytes after the other (R259). -/
def maskSets (bs : List Byte) (c : Nat) : List (BitVec 512) :=
  (List.range c).map (fun i => BitVec.ofNat 512 (leNat ((bs.drop (64 * i)).take 64)))

@[simp] theorem length_maskSets (bs : List Byte) (c : Nat) : (maskSets bs c).length = c := by simp [maskSets]

theorem leNat_take_lt (bs : List Byte) (n : Nat) : leNat (bs.take n) < 2 ^ (8 * n) :=
  calc leNat (bs.take n) < 256 ^ (bs.take n).length := leNat_lt _
    _ ≤ 256 ^ n := Nat.pow_le_pow_right (by decide) (List.length_take_le ..)
    _ = 2 ^ (8 * n) := (Nat.pow_mul 2 8 n).symm

/-- The value of at most `n` bytes fits in `n` bytes. -/
theorem toNat_ofNat_leNat_take (bs : List Byte) (n : Nat) : (BitVec.ofNat (8 * n) (leNat (bs.take n))).toNat = leNat (bs.take n) :=
  Nat.mod_eq_of_lt (leNat_take_lt bs n)

/-- Byte `k` of a mask set is the byte of memory at its place. -/
theorem maskSets_byte {bs : List Byte} {c i k : Nat} {e : BitVec 512} (hk : k < 64) (he : (maskSets bs c)[i]? = some e) :
    BitVec.ofNat 8 (e.toNat / 256 ^ k) = bs.getD (64 * i + k) 0 := by
  simp only [maskSets, List.getElem?_map, Option.map_eq_some_iff, List.getElem?_eq_some_iff, List.getElem_range] at he
  obtain ⟨_, ⟨_, rfl⟩, rfl⟩ := he
  rw [toNat_ofNat_leNat_take _ 64, ofNat_leNat_div]
  simp [List.getD_eq_getElem?_getD, hk]

/-- An instruction that reads one source and changes the job by its value completes. -/
theorem issueSource_ok {g : Guard} {b : Src} {s s1 : State} {u : Cur} {w : Word} {f : Word → Job → Job} (hr : Runs s u g)
    (hs : source1 u b s = .ok w s1) :
    issueNext g (fun u => do ensure u [.scalar b]; let w ← readScalar u b; modJob u (f w)) s
      = .next ((s1.modJob u.core (f w)).retire u .next) := by
  simp only [source1, M.bind_ok] at hs
  obtain ⟨_, _, he, hw⟩ := hs
  refine issueNext_ok hr ?_
  simp only [M.bind_ok]
  exact ⟨_, _, he, _, _, hw, modJob_ok.2 rfl⟩

/-- MFMT writes the bits of its word that the entry's map lays down (R7, R249, R258). -/
theorem mfmt_completes {g : Guard} {b : Src} {s s1 : State} {u : Cur} {w : Word} (n : BitVec 4) (hr : Runs s u g)
    (hs : source1 u b s = .ok w s1) :
    Completes (.mfmt g n b) s u .next (s1.modJob u.core (fun j => { j with ft := tput 0 j.ft n.toNat (ftBits (w.setWidth 32)) })) :=
  issueSource_ok hr hs

/-- MSCL of raw bits writes its operand (R258). -/
theorem mscl_raw_completes {g : Guard} {b : Src} {s s1 : State} {u : Cur} {w : Word} (n : BitVec 3) (hr : Runs s u g)
    (hs : source1 u b s = .ok w s1) :
    Completes (.mscl g n false b) s u .next (s1.modJob u.core (fun j => { j with g := tput 0 j.g n.toNat w })) :=
  issueSource_ok hr hs

/-- MSCL of a float writes its W36 image (R258). -/
theorem mscl_float_completes {g : Guard} {b : Src} {s s1 : State} {u : Cur} {x : Nat} (n : BitVec 3) (hr : Runs s u g)
    (he : needAll s u {} [.scalar b] = []) (hx : readFloat u b s = .ok x s1) :
    Completes (.mscl g n true b) s u .next (s1.modJob u.core (fun j => { j with g := tput 0 j.g n.toNat (wordOfImg x) })) :=
  issueNext_ok hr (M.bind_ok.2 ⟨(), _, ensure_ok.2 ⟨he, rfl⟩, M.bind_ok.2 ⟨_, _, hx, modJob_ok.2 rfl⟩⟩)

/-- MSQ appends the mask sets it reads to its queue, where they fit and nothing holds or stops the read (R259). -/
theorem msq_completes {g : Guard} {n : BitVec 2} {a b : Src} {s s1 : State} {u : Cur} {x c : Word} {ar : Area} (hr : Runs s u g)
    (hs : source2 u a b s = .ok (x, c) s1) (hc : 1 ≤ c.toNat) (hq : (tget [] (s1.jobAt u.core).sq n.toNat).length + c.toNat ≤ 32)
    (ha : localArea u x.toInt (64 * c.toNat) 64 s1 = .ok ar s1) (hw : watch u x.toInt.toNat (64 * c.toNat) true false s1 = .ok () s1)
    (ho : orderAt u ar (64 * c.toNat) s1 = .ok () s1) (hl : s1.localBad u.core ar (64 * c.toNat) = none) :
    Completes (.msq g n a b) s u .next (s1.modJob u.core (fun j => { j with
      sq := tput [] j.sq n.toNat (tget [] (s1.jobAt u.core).sq n.toNat
        ++ maskSets (s1.localBytes u.core ar (64 * c.toNat)) c.toNat) })) := by
  simp only [source2, M.bind_ok, M.pure_ok, Prod.mk.injEq] at hs
  obtain ⟨_, s2, he, _, s3, hx, _, s4, hy, ⟨rfl, rfl⟩, rfl⟩ := hs
  refine issueNext_ok hr ?_
  simp only [M.bind_ok]
  refine ⟨_, _, he, _, _, hx, _, _, hy, (), _, trapIf_ok.2 ⟨decide_eq_false (by omega), rfl⟩, _, _, ha,
    _, _, hw, _, _, M.get_ok.2 ⟨rfl, rfl⟩, ?_⟩
  rw [if_neg (by omega)]
  simp only [M.bind_ok]
  exact ⟨_, _, ho, _, _, localRead_ok hl, modJob_ok.2 rfl⟩

/-- Settles O31: each of the three writes its table from the operand it has read. -/
theorem arraySetUp : Obligations.ArraySetUp := by
  refine ⟨fun g b s s1 u w hr hs => ⟨fun n => mfmt_completes n hr hs, fun n => mscl_raw_completes n hr hs⟩,
    fun g n b s s1 u x hr he hx => mscl_float_completes n hr he hx, ?_⟩
  intro g n a b s s1 u x c ar hr hs hc hq ha hw ho hl
  exact ⟨maskSets (s1.localBytes u.core ar (64 * c.toNat)) c.toNat, msq_completes hr hs hc hq ha hw ho hl, length_maskSets _ _,
    fun i _ k hk e he => maskSets_byte hk he⟩

end Sys2Proof.Machine
end

section
/-!
PROOFS. The machine right after module reset (O53).
-/

namespace Sys2Proof.Machine

/-! ### The machine right after module reset (R6) -/

/-- Right after module reset nothing is due and no stream runs: the machine only advances the clock. -/
theorem next_reset : State.reset.next = ({ State.reset with now := 1 }, none) := by decide +kernel

theorem step_reset : step State.reset = .next { State.reset with now := 1 } := by rw [step, next_reset]

/-- Settles O53: the registers have their reset values by definition, every table is empty and reads its default, and the first step
leaves only the clock changed. -/
theorem resetState : Obligations.ResetState := by
  refine ⟨rfl, rfl, rfl, rfl, rfl, rfl, rfl, rfl, rfl, rfl, rfl, rfl, rfl, rfl, fun _ => rfl, fun _ => rfl, fun _ => rfl,
    fun _ => ⟨rfl, rfl, rfl, rfl⟩, fun _ => ⟨rfl, rfl⟩, fun _ => ⟨rfl, rfl⟩, fun _ => rfl, fun _ => rfl, rfl, rfl, fun _ => rfl,
    rfl, rfl, rfl, rfl, rfl, rfl, rfl, rfl, _, step_reset, rfl, rfl⟩

end Sys2Proof.Machine
end

section
/-!
PROOFS. What folds, filtered memories and layouts read as, and how a repartition goes (R408 to R410).
-/

namespace Sys2Proof.Machine

/-! ### Folds over the state and over tables -/

/-- A part of the state that no step of a fold changes is unchanged by the fold. -/
theorem foldl_field {α β : Type} {f : State → α → State} (π : State → β) (h : ∀ s a, π (f s a) = π s) (l : List α) (s : State) :
    π (l.foldl f s) = π s := by
  induction l generalizing s with
  | nil => rfl
  | cons a l ih => rw [List.foldl_cons, ih, h]

/-- A fold whose steps change nothing changes nothing. -/
theorem foldl_same {α : Type} {f : State → α → State} {s : State} {l : List α} (h : ∀ a ∈ l, f s a = s) : l.foldl f s = s := by
  induction l with
  | nil => rfl
  | cons a l ih =>
    rw [List.foldl_cons, h a List.mem_cons_self]
    exact ih fun b hb => h b (List.mem_cons_of_mem a hb)

/-- Entries written one after the other read as the values written, the others as before. -/
theorem tget_foldl_tput {α : Type} [DecidableEq α] (d : α) (v : Nat → α) (l : List Nat) (t : Tbl α) (k : Nat) :
    tget d (l.foldl (fun t k => tput d t k (v k)) t) k = if k ∈ l then v k else tget d t k := by
  induction l generalizing t with
  | nil => simp
  | cons i l ih =>
    rw [List.foldl_cons, ih, tget_tput]
    by_cases hl : k ∈ l
    · simp [hl]
    · by_cases h : k = i <;> simp [h, hl]

/-- A memory filtered by address reads 0 at the addresses left out. -/
theorem readByte_filter (m : Memory) (p : Nat → Bool) (a : Nat) :
    readByte (m.filter (fun e => p e.1)) a = if p a then readByte m a else 0 := by
  unfold readByte
  induction m with
  | nil => simp [tget]
  | cons c m ih =>
    obtain ⟨k, v⟩ := c
    by_cases hk : k = a
    · subst hk
      by_cases hp : p k <;> simp_all [tget]
    · by_cases hp : p k <;> simp_all [tget]

theorem mem_dueInsert (l : List (Nat × Bool × Instr)) (e x : Nat × Bool × Instr) : x ∈ dueInsert l e ↔ x = e ∨ x ∈ l := by
  induction l with
  | nil => simp [dueInsert]
  | cons y l ih =>
    simp only [dueInsert]
    split
    · simp
    · rw [List.mem_cons, ih, List.mem_cons, or_left_comm]

@[simp] theorem posted_post (s : State) (t : Nat) (i : Instr) : (s.post t i).posted i = true := by
  simp only [State.posted, List.any_eq_true]
  exact ⟨(t, false, i), (mem_dueInsert ..).2 (.inl rfl), beq_self_eq_true i⟩

/-! ### Layouts (R406, R408) -/

/-- The lowest die names a partition within a layout. -/
theorem find_layoutParts : ∀ code < 5, ∀ q ∈ layoutParts code, (layoutParts code).find? (fun r => r.1 == q.1) = some q := by decide

theorem layoutParts_of_le {code : Nat} (h : 5 ≤ code) : layoutParts code = [] :=
  match code, h with
  | _ + 5, _ => rfl

theorem partDies_of_mem {s : State} {p n : Nat} (h : (p, n) ∈ s.layout) : s.partDies p = n := by
  unfold State.layout at h
  by_cases hc : s.pcfg.toNat % 8 < 5
  · simp only [State.partDies, State.layout, find_layoutParts _ hc _ h, Option.map_some, Option.getD_some]
  · rw [layoutParts_of_le (by omega)] at h
    cases h

/-- PCFG's CUR field, the layout in force. -/
theorem pcfgWord_mod {cur : Nat} (new status : Nat) (run : Bool) (h : cur < 8) : (pcfgWord cur new status run).toNat % 8 = cur := by
  simp only [pcfgWord, BitVec.toNat_ofNat]
  omega

/-- During a repartition the partitions that the new layout does not keep are closed (R408). -/
theorem closed_iff {s : State} {d new p n : Nat} {b : Bool} (hr : s.repart = some (d, new, b)) (h : (p, n) ∈ s.layout) :
    s.closed p = true ↔ (p, n) ∉ layoutParts new := by
  simp [State.closed, hr, partDies_of_mem h]

theorem portsShut_of_repart {s : State} {d new : Nat} {b : Bool} (p : Nat) (hr : s.repart = some (d, new, b)) :
    s.portsShut p = (s.closed p && b) := by
  simp [State.portsShut, hr]

theorem any_part_iff (l : List (Nat × Nat)) (p : Nat) : l.any (fun q => q.1 == p) = true ↔ p ∈ l.map (·.1) := by
  simp only [List.any_eq_true, beq_iff_eq, List.mem_map]

/-! ### PCFG_GO (R408, R409) -/

theorem exec_pcfgGo (new : BitVec 3) (s : State) :
    exec (.pcfgGo new) s = .next (if s.fwUp then s.pcfgStart new.toNat else s) := rfl

theorem pcfgGo_ignored {s : State} {new : BitVec 3} (h : s.fwUp = false ∨ s.repart.isSome = true) : exec (.pcfgGo new) s = .next s := by
  rw [exec_pcfgGo]
  obtain hf | hr := h
  · rw [hf]; rfl
  · obtain ⟨r, hr⟩ := Option.isSome_iff_exists.1 hr
    simp only [State.pcfgStart, hr, ite_self]

section
variable {s : State} {new : BitVec 3} (hf : s.fwUp = true) (hr : s.repart = none)
include hf hr

/-- A code without a layout is refused with STATUS 2. -/
theorem pcfgGo_invalid (h : 5 ≤ new.toNat) :
    exec (.pcfgGo new) s = .next { s with pcfg := pcfgWord (s.pcfg.toNat % 8) new.toNat 2 false } := by
  simp only [exec_pcfgGo, hf, State.pcfgStart, hr, if_pos h, if_true]

/-- The layout in force is kept with STATUS 0. -/
theorem pcfgGo_same (h5 : new.toNat < 5) (h : new.toNat = s.pcfg.toNat % 8) :
    exec (.pcfgGo new) s = .next { s with pcfg := pcfgWord (s.pcfg.toNat % 8) new.toNat 0 false } := by
  simp only [exec_pcfgGo, hf, State.pcfgStart, hr, if_neg (Nat.not_le.2 h5), if_pos h, if_true]

/-- Another layout: RUN is set, and firmware's checks are posted within 1 ms (R409, log entry 63). -/
theorem pcfgGo_posts (h5 : new.toNat < 5) (h : new.toNat ≠ s.pcfg.toNat % 8) :
    ∃ d, s.now < d ∧ d ≤ s.now + usCycles 1000 ∧ exec (.pcfgGo new) s
      = .next (({ s with free := s.free + 1, pcfg := pcfgWord (s.pcfg.toNat % 8) new.toNat (s.pcfg.toNat / 2 ^ 56 % 8) true,
                         repart := some (d, new.toNat, false) } : State).post d .repartitionDone) := by
  have hw : Config.freeNat s.free % usCycles 1000 < usCycles 1000 := Nat.mod_lt _ (by decide)
  refine ⟨s.now + 1 + Config.freeNat s.free % usCycles 1000, by omega, by omega, ?_⟩
  simp only [exec_pcfgGo, hf, State.pcfgStart, hr, if_neg (Nat.not_le.2 h5), if_neg h, if_true, State.drawNat]

/-- From the start of a repartition on the partitions it does not keep are closed, and their ports still open (R408, R409). -/
theorem pcfgGo_starts (h5 : new.toNat < 5) (h : new.toNat ≠ s.pcfg.toNat % 8) :
    ∃ t d, exec (.pcfgGo new) s = .next t ∧ t.repart = some (d, new.toNat, false) ∧ s.now < d ∧ d ≤ s.now + usCycles 1000
      ∧ t.pcfg = pcfgWord (s.pcfg.toNat % 8) new.toNat (s.pcfg.toNat / 2 ^ 56 % 8) true ∧ t.posted .repartitionDone = true
      ∧ t.queues = s.queues ∧ t.ctxs = s.ctxs ∧ t.recs = s.recs
      ∧ ∀ p n, (p, n) ∈ s.layout → (t.closed p = true ↔ (p, n) ∉ layoutParts new.toNat) ∧ t.portsShut p = false := by
  obtain ⟨d, hd, hd', ht⟩ := pcfgGo_posts hf hr h5 h
  refine ⟨_, d, ht, rfl, hd, hd', rfl, posted_post .., rfl, rfl, rfl, fun p n hp => ⟨closed_iff rfl ?_, ?_⟩⟩
  · simpa only [State.layout, post_pcfg, pcfgWord_mod _ _ _ (Nat.mod_lt _ (show 0 < 8 by decide))] using hp
  · rw [portsShut_of_repart p rfl, Bool.and_false]

end

/-! ### REPARTITION_DONE (R409, R410) -/

theorem exec_repartitionDone (s : State) : exec .repartitionDone s = .next s.pcfgEnd := rfl

theorem repartitionDone_idle {s : State} (h : s.repart = none) : exec .repartitionDone s = .next s := by
  simp only [exec_repartitionDone, State.pcfgEnd, h]

theorem repartitionDone_early {s : State} {d new : Nat} {b : Bool} (h : s.repart = some (d, new, b)) (hd : s.now < d) :
    exec .repartitionDone s = .next s := by
  cases b <;> simp only [exec_repartitionDone, State.pcfgEnd, h, if_pos hd]

/-! Step 3 of R409: firmware's checks. -/

section
variable {s : State} {d new : Nat} (h : s.repart = some (d, new, false)) (hd : d ≤ s.now)

include h hd in
theorem repartitionDone_checks : exec .repartitionDone s = .next (s.pcfgCheck new) := by
  simp only [exec_repartitionDone, State.pcfgEnd, h, if_neg (Nat.not_lt.2 hd)]

include h hd in
/-- A locked interface of an affected partition refuses the repartition with STATUS 3. -/
theorem repartitionDone_locked {f p : Nat} (h1 : 1 ≤ f) (h64 : f < 64) (hl : s.lockedFn f = true) (hp : (s.fn f).part = some p)
    (ha : p ∈ (s.affected new).map (·.1)) : exec .repartitionDone s = .next (s.pcfgRefuse 3) := by
  rw [repartitionDone_checks h hd, State.pcfgCheck, if_pos]
  refine List.any_eq_true.2 ⟨f, List.mem_range.2 h64, ?_⟩
  simpa [hl, hp, Nat.ne_of_gt h1] using ha

/-- No locked interface belongs to a partition that the new layout does not keep. -/
def State.noLock (s : State) (new : Nat) : Prop :=
  ∀ f p, 1 ≤ f → f < 64 → s.lockedFn f = true → (s.fn f).part = some p → p ∉ (s.affected new).map (·.1)

theorem State.noLock.any (hn : s.noLock new) : ¬ (List.range 64).any (fun f => f != 0 && s.lockedFn f
    && ((s.fn f).part.map (fun p => (s.affected new).any (fun q => q.1 == p))).getD false) = true := by
  simp only [List.any_eq_true, List.mem_range, Bool.and_eq_true, bne_iff_ne, not_exists, not_and]
  rintro f h64 ⟨h0, hl⟩ hp
  cases hf : (s.fn f).part with
  | none => simp [hf] at hp
  | some p =>
    rw [hf, Option.map_some, Option.getD_some, any_part_iff] at hp
    exact hn f p (Nat.pos_of_ne_zero h0) h64 hl hf hp

include h hd in
/-- An unread or incomplete record of an affected partition refuses it with STATUS 1. -/
theorem repartitionDone_used {i : Nat} {q : Queue} {x : Ctx} (hn : s.noLock new) (hq : (i, some q) ∈ s.queues)
    (hu : s.queueUsed i q = true) (hx : s.ctx? q.ctx = some x) (ha : x.part ∈ (s.affected new).map (·.1)) :
    exec .repartitionDone s = .next (s.pcfgRefuse 1) := by
  rw [repartitionDone_checks h hd, State.pcfgCheck, if_neg hn.any, if_pos]
  refine List.any_eq_true.2 ⟨_, hq, ?_⟩
  simpa [hx, hu] using ha

end

/-- A refused repartition opens the rings again; where no ring and no lock request waits nothing else changes. -/
theorem pcfgRefuse_idle {s : State} (st : Nat) (hq : s.queues = []) (hl : ∀ f ∈ s.fns, f.2.lockWait = false) :
    s.pcfgRefuse st = { s with repart := none, pcfg := pcfgWord (s.pcfg.toNat % 8) (s.pcfg.toNat / 256 % 8) st false } := by
  simp only [State.pcfgRefuse, hq, List.filterMap_nil, List.foldl_nil]
  exact foldl_same fun f hf => by simp [hl f hf]

/-! Steps 4 and 5 of R409: quiescing and tearing down. -/

theorem flushHomes_empty {s : State} (h : s.bases = []) : s.flushHomes = s :=
  foldl_same fun b _ => by simp [State.applyUpTo, State.base, h, tget]

theorem modPool_noKeys {s : State} (p : Nat) (h : s.pools = []) : s.modPool p (fun q => { q with keys := [] }) = s := by
  have ht : tput ({} : Pool) s.pools p { s.pool p with keys := [] } = s.pools := by
    simp [State.pool, h, tget, tput, tdel]
  rw [State.modPool, ht]

/-- What is done on some partitions: withheld requests applied, contexts torn down, keys erased. -/
def State.quiesced (s : State) (parts : List (Nat × Nat)) : State :=
  let s := s.flushHomes
  let gone := s.ctxs.filterMap (fun e => e.2.bind (fun x => if parts.any (fun q => q.1 == x.part) then some e.1 else none))
  let s := gone.foldl (fun s c => s.teardown c 5 0) s
  let s := (parts.flatMap (fun p => (s.pool p.1).keys)).foldl (fun s k => s.eraseKey k) s
  parts.foldl (fun s p => s.modPool p.1 (fun q => { q with keys := [] })) s

/-- A module without context or key has nothing to quiesce. -/
theorem quiesced_empty {s : State} (parts : List (Nat × Nat)) (hc : s.ctxs = []) (hb : s.bases = []) (hp : s.pools = []) :
    s.quiesced parts = s := by
  have hk : parts.flatMap (fun p => (s.pool p.1).keys) = [] := by simp [State.pool, hp, tget]
  simp only [State.quiesced, flushHomes_empty hb, hc, List.filterMap_nil, List.foldl_nil, hk]
  exact foldl_same fun p _ => modPool_noKeys p.1 hp

/-- The partitions are quiesced, and the end of the zero fill is posted 22 to 23 ms later (R409). -/
theorem pcfgClear_posts (s : State) (new : Nat) :
    ∃ e fs, s.now + usCycles 22000 ≤ e ∧ e < s.now + usCycles 23000 ∧ s.pcfgClear new
      = ({ s.drawNat.2.quiesced (s.affected new) with repart := some (e, new, true), fns := fs } : State).post e .repartitionDone := by
  have hw : Config.freeNat s.free % usCycles 1000 < usCycles 1000 := Nat.mod_lt _ (by decide)
  have hus : usCycles 23000 = usCycles 22000 + usCycles 1000 := by decide
  exact ⟨s.now + usCycles 22000 + Config.freeNat s.free % usCycles 1000, _, by omega, by omega, rfl⟩

/-- The checks passed in a module without queue, context or key: the end of the fill is posted, and until then the ports of the affected
partitions refuse every new request. -/
theorem repartitionDone_clears {s : State} {d new : Nat} (h : s.repart = some (d, new, false)) (hd : d ≤ s.now) (hn : s.noLock new)
    (hq : s.queues = []) (hc : s.ctxs = []) (hb : s.bases = []) (hp : s.pools = []) :
    ∃ t e, exec .repartitionDone s = .next t ∧ t.repart = some (e, new, true) ∧ s.now + usCycles 22000 ≤ e ∧ e < s.now + usCycles 23000
      ∧ t.pcfg = s.pcfg ∧ t.posted .repartitionDone = true
      ∧ ∀ p n, (p, n) ∈ s.layout → (t.portsShut p = true ↔ (p, n) ∉ layoutParts new) := by
  obtain ⟨e, fs, he, he', ht⟩ := pcfgClear_posts s new
  rw [quiesced_empty (s := s.drawNat.2) _ hc hb hp] at ht
  have hx : exec .repartitionDone s = .next (s.pcfgClear new) := by
    rw [repartitionDone_checks h hd, State.pcfgCheck, if_neg hn.any, if_neg (by simp [hq])]
  refine ⟨_, e, hx.trans (congrArg _ ht), rfl, he, he', rfl, posted_post .., fun p n hpn => ?_⟩
  rw [portsShut_of_repart p rfl, Bool.and_true]
  exact closed_iff rfl hpn

/-! Steps 6 to 9 of R409: the end of the zero fill. -/

theorem repartitionDone_waits {s : State} {d new : Nat} (h : s.repart = some (d, new, true)) (hd : d ≤ s.now) (he : s.endingOn new = true) :
    exec .repartitionDone s = .next (s.post (s.now + 1) .repartitionDone) := by
  simp only [exec_repartitionDone, State.pcfgEnd, h, if_neg (Nat.not_lt.2 hd), if_pos he]

theorem answerLocks_field {β : Type} (π : State → β) (h : ∀ s n f, π (State.modFn s n f) = π s) (s : State) :
    π s.answerLocks = π s :=
  foldl_field π (fun s f => by split; exacts [h .., rfl]) s.fns s

/-- The end of the zero fill: the new layout is in force, the affected stacks read 0, and the interrupt is raised. -/
theorem repartitionDone_fills {s : State} {d new : Nat} (h : s.repart = some (d, new, true)) (hd : d ≤ s.now)
    (he : s.endingOn new = false) : ∃ t, exec .repartitionDone s = .next t ∧ t.repart = none
      ∧ t.pcfg = pcfgWord new (s.pcfg.toNat / 256 % 8) 0 false ∧ (0, 0) ∈ t.msix
      ∧ ∀ a, readByte t.hbm a = if (s.affected new).any (fun p => p.1 == (s.partOfLocal a).1) then 0 else readByte s.hbm a := by
  refine ⟨_, exec_repartitionDone s, ?_⟩
  simp only [State.pcfgEnd, h, if_neg (Nat.not_lt.2 hd), he, Bool.false_eq_true, if_false, raise_repart, raise_pcfg, raise_hbm]
  refine ⟨answerLocks_field (·.repart) modFn_repart _, answerLocks_field (·.pcfg) modFn_pcfg _,
    List.mem_append_right _ List.mem_cons_self, fun a => ?_⟩
  rw [answerLocks_field (·.hbm) modFn_hbm, readByte_filter _ (fun l => !(s.affected new).any (fun p => p.1 == (s.partOfLocal l).1))]
  cases (s.affected new).any (fun p => p.1 == (s.partOfLocal a).1) <;> rfl

end Sys2Proof.Machine
end

section
/-!
PROOFS. TDISP, SPDM, module reset, the host link and register writes, and with the repartition the interface of the host (O49).
-/

namespace Sys2Proof.Machine

/-! ### TDISP (R410, R416) -/

theorem exec_tdispLockInterface (fn : Nat) (s : State) : exec (.tdispLockInterface fn) s = .next (s.tdispLock fn) := rfl

theorem tdispLockInterface_none {s : State} {fn : Nat} (h : fn = 0 ∨ 64 ≤ fn) : exec (.tdispLockInterface fn) s = .next s := by
  rw [exec_tdispLockInterface, State.tdispLock, if_pos h]

section
variable {s : State} {fn p : Nat} (h1 : 1 ≤ fn) (h64 : fn < 64) (hp : (s.fn fn).part = some p)
include h1 h64 hp

theorem tdispLockInterface_part : exec (.tdispLockInterface fn) s
    = .next (if s.closed p then s.modFn fn (fun f => { f with lockWait := true }) else s.lockNow fn) := by
  simp only [exec_tdispLockInterface, State.tdispLock, hp, if_neg (show ¬ (fn = 0 ∨ 64 ≤ fn) by omega)]

/-- While a repartition affects its partition a lock request waits (R410). -/
theorem tdispLockInterface_closed (hc : s.closed p = true) :
    exec (.tdispLockInterface fn) s = .next (s.modFn fn (fun f => { f with lockWait := true })) := by
  rw [tdispLockInterface_part h1 h64 hp, if_pos hc]

theorem tdispLockInterface_open (hc : s.closed p = false) (hu : (s.fn fn).tdisp = .unlocked) :
    ∃ t, exec (.tdispLockInterface fn) s = .next t ∧ (t.fn fn).tdisp = .locked :=
  ⟨s.lockNow fn, by rw [tdispLockInterface_part h1 h64 hp, hc]; rfl, by simp [State.lockNow, hu]⟩

end

theorem exec_tdispStartInterface (fn : Nat) (s : State) : exec (.tdispStartInterface fn) s
    = .next (if (s.fn fn).tdisp = .locked then s.modFn fn (fun f => { f with tdisp := .run }) else s) := rfl

theorem tdispStartInterface_locked {s : State} {fn : Nat} (h : (s.fn fn).tdisp = .locked) :
    ∃ t, exec (.tdispStartInterface fn) s = .next t ∧ (t.fn fn).tdisp = .run :=
  ⟨_, by rw [exec_tdispStartInterface, if_pos h], by rw [fn_modFn_same]⟩

theorem tdispStartInterface_other {s : State} {fn : Nat} (h : (s.fn fn).tdisp ≠ .locked) :
    exec (.tdispStartInterface fn) s = .next s := by
  rw [exec_tdispStartInterface, if_neg h]

theorem tdispStopInterface_unlocks (s : State) (fn : Nat) :
    ∃ t, exec (.tdispStopInterface fn) s = .next t ∧ (t.fn fn).tdisp = .unlocked :=
  ⟨s.modFn fn (fun f => { f with tdisp := .unlocked, lockWait := false }), rfl, by rw [fn_modFn_same]⟩

/-! ### SPDM (R390, R419) -/

theorem exec_spdmRequest (op : SpdmOp) (s : State) : exec (.spdmRequest op) s = .next (s.spdm op) := rfl

/-- Outside a session no key is installed. -/
theorem spdmRequest_noSession {s : State} (n : Nat) (h : s.session = false) :
    exec (.spdmRequest (.tenantKey n)) s = .next s ∧ exec (.spdmRequest (.partitionKey n)) s = .next s := by
  simp [exec_spdmRequest, State.spdm, h]

theorem spdmRequest_partitionKey {s : State} {n : Nat} (hs : s.session = true) (hn : n < 16) :
    exec (.spdmRequest (.partitionKey n)) s = .next (s.eraseKey n) := by
  simp [exec_spdmRequest, State.spdm, hs, hn]

theorem spdmRequest_tenantKey {s : State} {n : Nat} (hs : s.session = true) (hn : n < 1024) :
    ∃ t, exec (.spdmRequest (.tenantKey n)) s = .next t ∧ tget 0 t.tenantVer n = tget 0 s.tenantVer n + 1 :=
  ⟨_, exec_spdmRequest .., by simp [State.spdm, hs, hn]⟩

/-! ### Module reset and the host link (R411, R418) -/

theorem exec_moduleReset (code : BitVec 8) (s : State) :
    exec (.moduleReset code) s = .next (if code.toNat ≤ 3 then s.resetModule code.toNat else s) := rfl

theorem moduleReset_other {s : State} {code : BitVec 8} (h : 3 < code.toNat) : exec (.moduleReset code) s = .next s := by
  rw [exec_moduleReset, if_neg (Nat.not_le.2 h)]

theorem moduleReset_resets {s : State} {code : BitVec 8} (h : code.toNat ≤ 3) :
    exec (.moduleReset code) s = .next (s.resetModule code.toNat) := by
  rw [exec_moduleReset, if_pos h]

theorem boot_resetModule {s : State} {code : Nat} (h : code ≤ 3) : (s.resetModule code).boot.toNat = 2 ^ 31 + code := by
  simp only [State.resetModule, BitVec.toNat_ofNat]
  omega

/-- Firmware runs after a module reset whose verification succeeded (R418). -/
theorem fwUp_resetModule {s : State} {code : Nat} (h : code ≤ 3) : (s.resetModule code).fwUp = decide (code = 0) := by
  have hb := boot_resetModule (s := s) h
  rw [Bool.eq_iff_iff, State.fwUp, beq_iff_eq, ← BitVec.toNat_inj, hb, decide_eq_true_eq]
  show 2 ^ 31 + code = 2 ^ 31 ↔ code = 0
  omega

/-- A module reset erases every key: its version moves on (R390). -/
theorem keyVer_resetModule (s : State) (code : Nat) {k : Nat} (h : k < 16) :
    tget 0 (s.resetModule code).keyVer k = tget 0 s.keyVer k + 1 := by
  simp only [State.resetModule, tget_foldl_tput, List.mem_range, if_pos h]

theorem exec_hostLinkTraining (lanes rate : Nat) (s : State) : exec (.hostLinkTraining lanes rate) s = .next (s.trainLink lanes rate) := rfl

/-- A link trained below 8 lanes at 64 GT/s leaves an error record of type 7 (R411). -/
theorem hostLinkTraining_degraded {s : State} {lanes rate : Nat} (h : (lanes, rate) ∈ [(8, 32), (4, 64), (4, 32)]) :
    ∃ w, exec (.hostLinkTraining lanes rate) s
      = .next (({ s with link := (lanes, rate), free := s.free + 1 } : State).error 7 8 0 (w % 8) 0 0 0) := by
  simp only [List.mem_cons, Prod.mk.injEq, List.not_mem_nil, or_false] at h
  obtain ⟨rfl, rfl⟩ | ⟨rfl, rfl⟩ | ⟨rfl, rfl⟩ := h <;> exact ⟨Config.freeNat s.free, rfl⟩

/-! ### Register writes (R6, R350, R399, R413, R415, R428) -/

/-- The low bits of a register whose mask covers them are those written. -/
theorem maskWrite_mod {old val mask : Word} {k : Nat} (h : mask.setWidth k = BitVec.allOnes k) :
    (maskWrite old val mask).toNat % 2 ^ k = val.toNat % 2 ^ k := by
  have hw : (maskWrite old val mask).setWidth k = val.setWidth k := by
    ext i hi
    have hm : mask.getLsbD i = true := by simpa [hi] using congrArg (·.getLsbD i) h
    simp [maskWrite, hm]
  simpa using congrArg BitVec.toNat hw

theorem exec_registerWrite (fn off : Nat) (val : Word) (s : State) : exec (.registerWrite fn off val) s
    = .next (if !s.fwUp || decide (64 ≤ fn) || off % 8 != 0 then s
        else if off < 0x9180 then s.writeLow fn off val else s.writeHigh fn off val) := rfl

theorem registerWrite_ignored {s : State} {fn off : Nat} {val : Word} (h : s.fwUp = false ∨ 64 ≤ fn ∨ off % 8 ≠ 0) :
    exec (.registerWrite fn off val) s = .next s := by
  have hc : (!s.fwUp || decide (64 ≤ fn) || off % 8 != 0) = true := by
    simpa [or_assoc] using h
  rw [exec_registerWrite, if_pos hc]

section
variable {s : State} {fn : Nat} (val : Word) (hf : s.fwUp = true) (hn : fn < 64)
include hf hn

theorem registerWrite_low {off : Nat} (ho : off % 8 = 0) (hl : off < 0x9180) :
    exec (.registerWrite fn off val) s = .next (s.writeLow fn off val) := by
  rw [exec_registerWrite, if_neg (by simp [hf, hn, ho]), if_pos hl]

theorem registerWrite_high {off : Nat} (ho : off % 8 = 0) (hl : 0x9180 ≤ off) :
    exec (.registerWrite fn off val) s = .next (s.writeHigh fn off val) := by
  rw [exec_registerWrite, if_neg (by simp [hf, hn, ho]), if_neg (Nat.not_lt.2 hl)]

theorem registerWrite_kick (q : Nat) (h : q < 4096) : exec (.registerWrite fn (8 * q) val) s = .next (s.kickAt fn q (val.setWidth 16)) := by
  rw [registerWrite_low val hf hn (by omega) (by omega), State.writeLow, if_pos (by omega), Nat.mul_div_cancel_left q (by decide)]

theorem registerWrite_tsdaddr : exec (.registerWrite fn 0x8000 val) s
    = .next (s.modFn fn (fun f => { f with tsdaddr := val &&& 0x00FFFFFFFFFFF000#64 })) :=
  registerWrite_low val hf hn rfl (by decide)

theorem registerWrite_tsdctl (h : val.getLsbD 8 = true) :
    ∃ t : State, exec (.registerWrite fn 0x8008 val) s = .next (t.tsdStart fn) ∧ (t.fn fn).tsdctl.toNat % 4 = val.toNat % 4 := by
  refine ⟨s.modFn fn (fun f => { f with tsdctl := maskWrite f.tsdctl val 0x00000FFF000000F3#64 }),
    (registerWrite_low val hf hn rfl (by decide)).trans (congrArg _ (if_pos h)), ?_⟩
  rw [fn_modFn_same]
  exact maskWrite_mod (k := 2) (by decide)

/-- A doorbell while no command is being answered runs the mailbox's command (R413). -/
theorem registerWrite_doorbell (h : val.getLsbD 0 = true) (hm : (s.fn fn).mres.getLsbD 63 = false) :
    exec (.registerWrite fn 0x9140 val) s = .next (s.answer fn (fun s => s.runCmd fn (s.fn fn).mbox)) := by
  have hd : s.writeLow fn 0x9140 val = s.doorbell fn := if_pos h
  rw [registerWrite_low val hf hn rfl (by decide), hd, State.doorbell, hm]
  rfl

theorem registerWrite_frctx (t : State) (h : exec (.registerWrite fn 0x9180 val) s = .next t) :
    (t.fn fn).frctx = val &&& 0xFFFFFFFFFF#64 := by
  cases (registerWrite_high val hf hn rfl (by decide)).symm.trans h
  rw [show s.writeHigh fn 0x9180 val = s.modFn fn (fun f => { f with frctx := val &&& 0xFFFFFFFFFF#64 }) from rfl, fn_modFn_same]

theorem registerWrite_frply (h : val.getLsbD 63 = true) :
    ∃ t : State, exec (.registerWrite fn 0x9188 val) s = .next (t.faultReplyOf fn) ∧ (t.fn fn).frply.toNat % 2 ^ 33 = val.toNat % 2 ^ 33 := by
  refine ⟨s.modFn fn (fun f => { f with frply := maskWrite f.frply val 0x1FFFFFFFF#64 }),
    (registerWrite_high val hf hn rfl (by decide)).trans (congrArg _ (if_pos h)), ?_⟩
  rw [fn_modFn_same]
  exact maskWrite_mod (k := 33) (by decide)

theorem registerWrite_errbase : exec (.registerWrite fn 0x9200 val) s
    = .next (s.modFn fn (fun f => { f with errbase := val &&& 0x800001FFFFFE0000#64 })) :=
  registerWrite_high val hf hn rfl (by decide)

/-- The result register and the error ring's TAIL are read-only (R413, R415). -/
theorem registerWrite_readOnly :
    exec (.registerWrite fn 0x9148 val) s = .next s ∧ exec (.registerWrite fn 0x9210 val) s = .next s := by
  refine ⟨registerWrite_low val hf hn rfl (by decide), ?_⟩
  rw [registerWrite_high val hf hn rfl (by decide)]
  simp [State.writeHigh]

/-- PCFG and the fabric counters are the physical function's (R408, R428). -/
theorem registerWrite_physical (h : fn ≠ 0) :
    exec (.registerWrite fn 0x9000 val) s = .next s ∧ exec (.registerWrite fn 0xA300 val) s = .next s := by
  rw [registerWrite_low val hf hn rfl (by decide), registerWrite_high val hf hn rfl (by decide)]
  simp [State.writeLow, State.writeHigh, h]

end

/-- Settles O49: every event is a state function, and each clause is what that function does in its case. -/
theorem hostInterface : Obligations.HostInterface := by
  refine ⟨fun new s => ⟨pcfgGo_ignored, fun hf hr => ⟨pcfgGo_invalid hf hr, pcfgGo_same hf hr, pcfgGo_starts hf hr⟩⟩,
    fun s => ⟨repartitionDone_idle, fun _ _ _ => repartitionDone_early, fun d new h hd =>
        ⟨fun _ _ => repartitionDone_locked h hd, fun hn => ⟨fun _ _ _ => repartitionDone_used h hd hn, repartitionDone_clears h hd hn⟩⟩,
      pcfgRefuse_idle, fun _ _ => repartitionDone_waits, fun _ _ => repartitionDone_fills⟩,
    fun fn s p => ⟨tdispLockInterface_none, tdispLockInterface_closed, tdispLockInterface_open, tdispStartInterface_locked,
      tdispStartInterface_other, tdispStopInterface_unlocks s fn⟩,
    fun s n => ⟨rfl, ⟨_, _, rfl, rfl⟩, spdmRequest_noSession n, spdmRequest_partitionKey, spdmRequest_tenantKey⟩,
    fun code s => ⟨moduleReset_other, fun h => ⟨_, moduleReset_resets h, boot_resetModule h, fwUp_resetModule h, rfl, rfl, rfl, rfl, rfl,
      rfl, rfl, rfl, rfl, rfl, rfl, fun _ => keyVer_resetModule s _⟩⟩,
    fun s => ⟨rfl, fun _ _ => hostLinkTraining_degraded⟩,
    fun fn off val s => ⟨registerWrite_ignored, fun hf hn => ⟨registerWrite_kick val hf hn, registerWrite_tsdaddr val hf hn,
      registerWrite_tsdctl val hf hn, registerWrite_doorbell val hf hn, registerWrite_frctx val hf hn, registerWrite_frply val hf hn,
      registerWrite_errbase val hf hn, (registerWrite_readOnly val hf hn).1, (registerWrite_readOnly val hf hn).2,
      registerWrite_physical val hf hn⟩⟩⟩

end Sys2Proof.Machine
end

section
/-!
PROOFS. The numbers of cores and streams (O52).
-/

namespace Sys2Proof.Machine

/-! ### Numbers of cores and streams (R23, R94) -/

/-- Core `4b + k` of die `d` lies on die `d`, in its bay `b` (R23). -/
theorem core_numbers {d b k c : Nat} (hd : d < 64) (hb : b < 4) (hk : k < 4) (hc : c = 16 * d + (4 * b + k)) :
    c < 1024 ∧ coreDie c = d ∧ coreBay c = 4 * d + b ∧ coreBay c < 256 ∧ ∀ j, specialVal j c .coordCore = BitVec.ofNat 64 (4 * b + k) := by
  have hm : c % 16 = 4 * b + k := by omega
  unfold coreDie coreBay
  exact ⟨by omega, by omega, by omega, by omega, fun j => congrArg (BitVec.ofNat 64) hm⟩

theorem mem_allStrms (x : Strm) : x ∈ allStrms := by cases x <;> decide

theorem strmNum_lt (x : Strm) : strmNum x < 4 := by cases x <;> decide

/-- A queue operand names its stream by number, popped from 0x38 on and peeked from 0x3C on (R94). -/
theorem ofCode_queue (x : Strm) : Src.ofCode (BitVec.ofNat 8 (0x38 + strmNum x)) = some (.pop x)
    ∧ Src.ofCode (BitVec.ofNat 8 (0x3C + strmNum x)) = some (.peek x) := by
  cases x <;> decide

/-- The queue bits of a destination stand in the order of the streams' numbers (R94). -/
theorem mem_destStrms (d : Dest) (x : Strm) : x ∈ destStrms d ↔ d.qs.getLsbD (strmNum x) = true := by
  simp [destStrms, mem_allStrms]

/-- The queue bits of DMASK are bits 43 to 46 of the instruction word. -/
theorem qs_ofWord (w : BitVec 64) (l : BitVec 32) (x : Strm) :
    (Fields.ofWord w l).qs.getLsbD (strmNum x) = w.getLsbD (43 + strmNum x) := by
  have hx := strmNum_lt x
  simp only [Fields.qs, Fields.ofWord, BitVec.getLsbD_extractLsb', ← Nat.add_assoc]
  rw [decide_eq_true (by omega), decide_eq_true (by omega), Bool.true_and, Bool.true_and]

/-- Byte 1 of a trap record holds the number of its stream in bits 1:0 (R94, R370). -/
theorem recField_strm (r : TrapRec) : recField r.bytes 1 1 % 4 = r.strm % 4 := by
  simp only [recField, TrapRec.bytes, TrapRec.bytes0, leBytes, List.cons_append, List.nil_append, List.drop_succ_cons, List.drop_zero,
    List.take_succ_cons, List.take_zero, leNat, BitVec.toNat_ofNat]
  omega

/-- Settles O52: the numbers are a definition, and each place that holds one holds that number. -/
theorem numbering : Obligations.Numbering :=
  ⟨fun _ _ _ hd hb hk _ hc => core_numbers hd hb hk hc, rfl, rfl, rfl, rfl, ofCode_queue,
    fun w l x => ⟨by rw [mem_destStrms, ← qs_ofWord w l]; rfl, by rw [mem_destStrms, ← qs_ofWord w l]; rfl⟩,
    fun _ _ x _ _ => (recField_strm _).trans (Nat.mod_eq_of_lt (strmNum_lt x)),
    fun _ _ _ => ⟨rfl, rfl, rfl, fun _ => rfl⟩⟩

end Sys2Proof.Machine
end

section
/-!
PROOFS. The commands of the host mailbox (O48).
-/

namespace Sys2Proof.Machine

/-! ### Submitting a command and its answer (R413) -/

section
variable {s : State} {fn code : Nat} {c : BitVec 512} {r : State → CmdRes}

/-- A command of its code, submitted while none is being answered, is answered. -/
theorem event_command (hf : s.fwUp = true) (hn : fn < 64) (hm : (s.fn fn).mres.getLsbD 63 = false) (hc : cmdField c 0 1 = code) :
    event (fun s => s.command fn c code r) s = .next ((r s).answered fn) := by
  have ha : s.answer fn r = (r s).answered fn := by
    rw [State.answer, if_neg (by simp [hf, hn])]
    rfl
  rw [event, State.command, hm, decide_eq_true hc, ← ha]
  rfl

/-- No command is taken while one is being answered. -/
theorem event_command_busy (hm : (s.fn fn).mres.getLsbD 63 = true) : event (fun s => s.command fn c code r) s = .next s := by
  rw [event, State.command, hm, Bool.not_true, Bool.and_false]
  rfl

end

theorem exec_pwrstagSend (fn : Nat) (c : BitVec 512) (s : State) : exec (.pwrstagSend fn c) s
    = if cmdField c 1 1 = 0x22 ∧ cmdField c 2 1 = 1 ∧ (cmdField c 8 8).testBit 56 then exec (.fwreg fn c) s else .next s := by
  show event _ s = if _ then event _ s else _
  rw [event]
  split <;> rfl

theorem commands_ignored_while_busy {s : State} {fn : Nat} (c : BitVec 512) (hm : (s.fn fn).mres.getLsbD 63 = true) :
    ∀ i ∈ [Instr.ctxCreate fn c, .ctxDestroy fn c, .qCreate fn c, .qDestroy fn c, .qPolicy fn c, .ctxPolicy fn c, .preempt fn c,
      .ctxResume fn c, .vfAssign fn c, .modnum fn c, .fwreg fn c, .pwrstagSend fn c, .cxlwin fn c, .keyid fn c], exec i s = .next s := by
  have hw : exec (.fwreg fn c) s = .next s := event_command_busy hm
  have hb := fun code r => event_command_busy (c := c) (code := code) (r := r) hm
  simp only [List.forall_mem_cons]
  exact ⟨hb _ _, hb _ _, hb _ _, hb _ _, hb _ _, hb _ _, hb _ _, hb _ _, hb _ _, hb _ _, hw,
    by rw [exec_pwrstagSend, hw, ite_self], hb _ _, hb _ _, fun _ h => absurd h List.not_mem_nil⟩

/-- Status and value stand in the result register (R413). -/
theorem mres_answered {fn : Nat} {r : CmdRes} (hs : r.2.1 < 256) (hv : r.2.2 < 2 ^ 55) (he : (r.1.fn fn).ending = none) :
    ((r.answered fn).fn fn).mres.toNat = r.2.2 * 256 + r.2.1 := by
  simp only [CmdRes.answered, fn_modFn_same, he, Option.isSome_none, Bool.false_eq_true, if_false, BitVec.toNat_ofNat]
  omega

/-- Bit 63 stays 1 while the answer waits (R413, log entry 60). -/
theorem mres_answered_waits {fn : Nat} {r : CmdRes} (he : (r.1.fn fn).ending.isSome = true) :
    ((r.answered fn).fn fn).mres = 1#64 <<< 63 := by
  simp only [CmdRes.answered, fn_modFn_same, he, if_true]

/-! ### Contexts (R394, R413, R414) -/

/-- A number is drawn from one open place; nothing else of the state changes. -/
theorem pickFree_state {s s1 : State} {n : Nat} {used : List Nat} {v : Option Nat} (h : s.pickFree n used = (v, s1)) :
    s1 = { s with free := s.free + 1 } := (congrArg Prod.snd h).symm

theorem ctx_put (s : State) (n m : Nat) (x : Option Ctx) : ({ s with ctxs := tput none s.ctxs n x, nextCtx := m } : State).ctx? n = x :=
  tget_tput_same none s.ctxs n x

/-- The context that a CTX_CREATE makes. -/
def createdCtx (fn : Nat) (c : BitVec 512) (asid pool : Nat) : Ctx :=
  { fn := fn, asid := asid, root := cmdField c 16 8, part := cmdField c 1 1, pool := pool, trapa := cmdField c 24 8, landa := cmdField c 32 8
    ovfn := cmdField c 40 4, savea := cmdField c 48 8, savesz := cmdField c 56 4, kslot := cmdField c 60 2 }

section
variable {s s1 s2 : State} {fn asid pool : Nat} {c : BitVec 512} (hc : s.ctxFields fn c) (hp : s.closed (cmdField c 1 1) = false)
  (ha : s.pickFree 4096 ((s.ctxs.filterMap (·.2)).map (·.asid) ++ s.fns.filterMap (fun f => f.2.ending.map (·.2))) = (some asid, s1))
  (hq : s1.pickFree 65536 (((s.ctxs.filterMap (·.2)).filter (fun x => x.part == cmdField c 1 1)).map (·.pool)) = (some pool, s2))
  (hn : s.nextCtx < 2 ^ 40)
include hc hp ha hq hn

theorem ctxCreate_eq : s.ctxCreate fn c
    = ({ s2 with ctxs := tput none s2.ctxs s2.nextCtx (some (createdCtx fn c asid pool)), nextCtx := s2.nextCtx + 1 }, 0,
        s.nextCtx + asid * 2 ^ 40) := by
  obtain ⟨hz, hpart, hfn, hroot, hmod, hres, hlo, hhi, htr, hla, hsa, htr', hla', hsa', hov, hks⟩ := hc
  have hown : (fn != 0 && (s.fn fn).part != some (cmdField c 1 1)) = false := by
    obtain rfl | h := hfn <;> simp [*]
  rw [State.ctxCreate, if_neg (by simp [*]; omega), hp, if_neg (by decide)]
  simp only [ha, hq, if_neg (Nat.not_le.2 hn)]
  rfl

theorem ctxCreate_creates : ∃ t x, s.ctxCreate fn c = (t, 0, s.nextCtx + asid * 2 ^ 40) ∧ t.nextCtx = s.nextCtx + 1
    ∧ t.ctx? s.nextCtx = some x ∧ x.fn = fn ∧ x.asid = asid ∧ x.root = cmdField c 16 8 ∧ x.part = cmdField c 1 1
    ∧ x.trapa = cmdField c 24 8 ∧ x.landa = cmdField c 32 8 ∧ x.ovfn = cmdField c 40 4 ∧ x.savea = cmdField c 48 8
    ∧ x.savesz = cmdField c 56 4 ∧ x.kslot = cmdField c 60 2 ∧ x.status = .live := by
  have hn2 : s2.nextCtx = s.nextCtx := by rw [pickFree_state hq, pickFree_state ha]
  refine ⟨_, createdCtx fn c asid pool, ctxCreate_eq hc hp ha hq hn, congrArg (· + 1) hn2, ?_, rfl, rfl, rfl, rfl, rfl, rfl, rfl, rfl, rfl, rfl,
    rfl⟩
  rw [← hn2]
  exact ctx_put s2 ..

end

/-- The commands on a context that does not exist are refused with status 5. -/
theorem ctx_commands_unknown {s : State} {fn : Nat} {c : BitVec 512} (h : s.ctx? (cmdField c 8 8) = none) :
    s.ctxDestroy fn c = (s, 5, 0) ∧ s.qCreate fn c = (s, 5, 0) ∧ s.preemptCmd fn c = (s, 5, 0) ∧ s.resumeCmd fn c = (s, 5, 0) := by
  simp only [State.ctxDestroy, State.qCreate, State.preemptCmd, State.resumeCmd, h, refuseCmd, and_self]

section
variable {s : State} {fn : Nat} {c : BitVec 512} {x : Ctx} (hx : s.ctx? (cmdField c 8 8) = some x) (hf : x.fn = fn)
include hx hf

/-- CTX_DESTROY tears the context down, and its answer waits while an access of the context is on its way (R383, R400). -/
theorem ctxDestroy_tears (hz : cmdZero c [(1, 7), (16, 48)] = true) : ∃ e, ∀ t,
    t = ({ s with free := s.free + 1 } : State).teardown (cmdField c 8 8) 5 e → t.lockedFn fn = false →
      (t.endingBusy (cmdField c 8 8) x.asid = false → s.ctxDestroy fn c = (t, 0, 0))
      ∧ (t.endingBusy (cmdField c 8 8) x.asid = true → s.ctxDestroy fn c
        = ((t.modFn fn (fun f => { f with ending := some (cmdField c 8 8, x.asid) })).postOnce
          ((t.modFn fn (fun f => { f with ending := some (cmdField c 8 8, x.asid) })).now + 1) (.shootdownComplete fn), 0, 0)) := by
  refine ⟨Config.freeWord s.free, fun t ht hl => ?_⟩
  have hd : s.ctxDestroy fn c = (if t.endingBusy (cmdField c 8 8) x.asid then
      (t.modFn fn (fun f => { f with ending := some (cmdField c 8 8, x.asid) })).postOnce (t.now + 1) (.shootdownComplete fn) else t, 0, 0) := by
    simp only [State.ctxDestroy, hx, hf, ne_eq, not_true_eq_false, if_false, hz, Bool.not_true, Bool.false_eq_true, State.drawWord, ← ht, hl]
  rw [hd]
  exact ⟨fun h => by rw [h]; rfl, fun h => by rw [h]; rfl⟩

/-- The jobs of a running context that is not cooperative are asked to stop (R375). -/
theorem preemptCmd_stops (hz : cmdZero c [(1, 7), (20, 44)] = true) (hl : x.status = .live) (hr : s.ctxRuns (cmdField c 8 8) = true)
    (hco : x.coop = false) : s.preemptCmd fn c = (s.askStop (cmdField c 8 8) .preempt, 0, 0) := by
  simp [State.preemptCmd, hx, hf, hz, hl, hr, hco]

/-- A running cooperative context gets a yield deadline (R379). -/
theorem preemptCmd_yields (hz : cmdZero c [(1, 7), (20, 44)] = true) (hl : x.status = .live) (hr : s.ctxRuns (cmdField c 8 8) = true)
    (hco : x.coop = true) (h1 : 1 ≤ cmdField c 16 4) (h2 : cmdField c 16 4 ≤ 1000000) : s.preemptCmd fn c
      = ((s.modCtx (cmdField c 8 8) (fun x => { x with yieldBy := some (s.now + usCycles (cmdField c 16 4)) })).post
        (s.now + usCycles (cmdField c 16 4)) (.yieldDeadline (cmdField c 8 8)), 0, 0) := by
  have h0 : cmdField c 16 4 ≠ 0 := by omega
  simp [State.preemptCmd, hx, hf, hz, hl, hr, hco, h0, h2]

theorem resumeCmd_resumes (hz : cmdZero c [(1, 7), (16, 48)] = true) (hh : x.status = .held) :
    s.resumeCmd fn c = (s.resumeCtx (cmdField c 8 8), 0, 0) := by
  simp [State.resumeCmd, hx, hf, hz, hh]

theorem resumeCmd_notHeld (hh : x.status ≠ .held) : s.resumeCmd fn c = (s, 2, 0) := by
  simp [State.resumeCmd, hx, hf, hh, refuseCmd]

end

/-- CTX_POLICY sets mark and quota, where it does not leave them alone (R303, R379). -/
theorem ctxPolicy_sets {s : State} {c : BitVec 512} {x : Ctx} (hx : s.ctx? (cmdField c 8 8) = some x)
    (hz : cmdZero c [(2, 6), (20, 44)] = true) (hb : cmdField c 1 1 < 4) (hn : cmdField c 16 4 ≤ 1024 ∨ cmdField c 16 4 = 0xFFFFFFFF) :
    s.ctxPolicy 0 c = (s.modCtx (cmdField c 8 8) (fun x => { x with
      coop := if (cmdField c 1 1).testBit 1 then x.coop else (cmdField c 1 1).testBit 0
      quota := if cmdField c 16 4 = 0xFFFFFFFF then x.quota else cmdField c 16 4 }), 0, 0) := by
  have hq : (decide (1024 < cmdField c 16 4) && cmdField c 16 4 != 0xFFFFFFFF) = false := by
    rw [Bool.and_eq_false_iff]
    exact hn.imp (fun h => decide_eq_false (Nat.not_lt.2 h)) (fun h => by rw [h]; rfl)
  rw [State.ctxPolicy, if_neg (by decide), if_neg (by simp [hx, hz, hb, hq])]

/-! ### Queues (R349, R364, R413, R414) -/

theorem queue_put (s : State) (n : Nat) (q : Option Queue) : ({ s with queues := tput none s.queues n q } : State).queue? n = q :=
  tget_tput_same none s.queues n q

/-- The queue that a Q_CREATE makes. -/
def createdQueue (fn : Nat) (c : BitVec 512) (q : Nat) : Queue :=
  { fn := fn, q := q, ctx := cmdField c 8 8, k := cmdField c 1 1, prio := BitVec.ofNat 3 (cmdField c 2 1), vec := cmdField c 4 2
    subr := cmdField c 16 8, cmpr := cmdField c 24 8 }

section
variable {s s1 s2 : State} {fn qi q : Nat} {c : BitVec 512} {x : Ctx} (hx : s.ctx? (cmdField c 8 8) = some x) (hf : x.fn = fn)
  (hz : cmdZero c [(3, 1), (6, 2), (32, 32)] = true) (hk : 4 ≤ cmdField c 1 1) (hk' : cmdField c 1 1 ≤ 16) (hp : cmdField c 2 1 < 8)
  (hv : 5 ≤ cmdField c 4 2) (hv' : cmdField c 4 2 < 2048) (hs : cmdField c 16 8 % (128 * 2 ^ cmdField c 1 1) = 0)
  (hcm : cmdField c 24 8 % (16 * 2 ^ cmdField c 1 1) = 0) (hs' : cmdField c 16 8 < 2 ^ 56) (hcm' : cmdField c 24 8 < 2 ^ 56)
  (hl : s.lockedFn fn = false) (ho : s.closed x.part = false)
  (hu : (s.queues.filterMap (fun e => e.2.map (fun _ => e.1))).length < 4096)
  (hqi : s.pickFree 4096 (s.queues.filterMap (fun e => e.2.map (fun _ => e.1))) = (some qi, s1))
  (hq : s1.pickFree 4096 (s.queues.filterMap (fun e => e.2.bind (fun q => if q.fn = fn then some q.q else none))) = (some q, s2))
include hx hf hz hk hk' hp hv hv' hs hcm hs' hcm' hl ho hu hqi hq

theorem qCreate_eq : s.qCreate fn c = ({ s2 with queues := tput none s2.queues qi (some (createdQueue fn c q)) }, 0, q) := by
  have hr : ¬ (cmdField c 1 1 < 4 ∨ 16 < cmdField c 1 1) := by omega
  have hr' : ¬ (cmdField c 4 2 < 5 ∨ 2048 ≤ cmdField c 4 2) := by omega
  have hr'' : ¬ (2 ^ 56 ≤ cmdField c 16 8 ∨ 2 ^ 56 ≤ cmdField c 24 8) := by omega
  simp only [State.qCreate, hx, hf, ne_eq, not_true_eq_false, if_false, hz, hs, hcm, decide_eq_false hr, decide_eq_false hr',
    decide_eq_false hr'', decide_eq_false (Nat.not_le.2 hp), hl, ho, if_neg (Nat.not_le.2 hu), hqi, hq]
  rfl

theorem qCreate_creates : ∃ t y, s.qCreate fn c = (t, 0, q) ∧ t.queue? qi = some y ∧ y.fn = fn ∧ y.q = q ∧ y.ctx = cmdField c 8 8
    ∧ y.k = cmdField c 1 1 ∧ y.prio.toNat = cmdField c 2 1 ∧ y.vec = cmdField c 4 2 ∧ y.subr = cmdField c 16 8 ∧ y.cmpr = cmdField c 24 8
    ∧ y.head = 0 ∧ y.tail = 0 ∧ y.slice = 10000 :=
  ⟨_, createdQueue fn c q, qCreate_eq hx hf hz hk hk' hp hv hv' hs hcm hs' hcm' hl ho hu hqi hq, queue_put s2 .., rfl, rfl, rfl, rfl,
    Nat.mod_eq_of_lt hp, rfl, rfl, rfl, rfl, rfl, rfl⟩

end

section
variable {s : State} {fn qi : Nat} {c : BitVec 512} {q : Queue} (hq : s.queueOf fn (cmdField c 8 8) = some (qi, q))
  (hz : cmdZero c [(1, 7), (16, 48)] = true)
include hq hz

theorem qDestroy_locked (hl : s.lockedFn fn = true) : s.qDestroy fn c = (s, 3, 0) := by
  simp [State.qDestroy, hq, hz, hl, refuseCmd]

theorem qDestroy_used (hl : s.lockedFn fn = false) (hu : s.queueUsed qi q = true) : s.qDestroy fn c = (s, 1, 0) := by
  simp [State.qDestroy, hq, hz, hl, hu, refuseCmd]

theorem qDestroy_removes (hl : s.lockedFn fn = false) (hu : s.queueUsed qi q = false) :
    s.qDestroy fn c = ({ s with queues := tput none s.queues qi none }, 0, 0) := by
  simp [State.qDestroy, hq, hz, hl, hu]

end

/-- Q_POLICY sets default priority and time slice, where it does not leave them alone (R364). -/
theorem qPolicy_sets {s : State} {qi : Nat} {c : BitVec 512} {q : Queue} (hq : s.queueOf (cmdField c 1 1) (cmdField c 8 8) = some (qi, q))
    (hz : cmdZero c [(3, 5), (20, 44)] = true) (hf : cmdField c 1 1 < 64) (hb : cmdField c 2 1 < 16) (hu : cmdField c 16 4 ≤ 1000000)
    (hl : s.lockedFn (cmdField c 1 1) = false) : s.qPolicy 0 c = (s.modQueue qi (fun q => { q with
      prio := if (cmdField c 2 1).testBit 3 then q.prio else BitVec.ofNat 3 (cmdField c 2 1)
      slice := if cmdField c 16 4 = 0 then q.slice else cmdField c 16 4 }), 0, 0) := by
  simp only [State.qPolicy, hq, hz, hl, decide_eq_false (Nat.not_le.2 hf), decide_eq_false (Nat.not_le.2 hb), decide_eq_false (Nat.not_lt.2 hu)]
  rfl

/-! ### The commands of the physical function (R25, R390, R411 to R414, R424 to R427) -/

/-- A virtual function has none of them: status 5. -/
theorem physical_commands_refused {s : State} {fn : Nat} {c : BitVec 512} (h : fn ≠ 0) : s.vfAssign fn c = (s, 5, 0)
    ∧ s.modnumCmd fn c = (s, 5, 0) ∧ s.fwregCmd fn c = (s, 5, 0) ∧ s.cxlwinCmd fn c = (s, 5, 0) ∧ s.keyidCmd fn c = (s, 5, 0)
    ∧ s.qPolicy fn c = (s, 5, 0) ∧ s.ctxPolicy fn c = (s, 5, 0) :=
  ⟨if_pos h, if_pos (.inl h), if_pos h, if_pos h, if_pos h, if_pos h, if_pos h⟩

theorem vfAssign_assigns {s : State} {c : BitVec 512} (hz : cmdZero c [(3, 61)] = true) (h1 : 1 ≤ cmdField c 1 1) (h64 : cmdField c 1 1 < 64)
    (hp : s.isPart (cmdField c 2 1) = true) (hl : s.lockedFn (cmdField c 1 1) = false) (ho : s.closed (cmdField c 2 1) = false)
    (hx : s.ctxsOf (cmdField c 1 1) = []) :
    s.vfAssign 0 c = (s.modFn (cmdField c 1 1) (fun f => { f with part := some (cmdField c 2 1) }), 0, 0) := by
  have hr : ¬ (cmdField c 1 1 = 0 ∨ 64 ≤ cmdField c 1 1) := by omega
  simp only [State.vfAssign, hz, hp, hl, ho, hx, decide_eq_false hr]
  rfl

/-- The module number is set once (R25). -/
theorem modnumCmd_again {s : State} {c : BitVec 512} (h : s.modnum.isSome = true) : s.modnumCmd 0 c = (s, 5, 0) := if_pos (.inr h)

theorem modnumCmd_sets {s : State} {c : BitVec 512} (h : s.modnum = none) (hz : cmdZero c [(1, 7), (16, 48)] = true)
    (hn : cmdField c 8 8 < 6144) : s.modnumCmd 0 c = ({ s with modnum := some (cmdField c 8 8) }, 0, 0) := by
  simp [State.modnumCmd, h, hz, hn]

section
variable {s : State} {c : BitVec 512} {w : Nat} (hz : cmdZero c [(3, 5), (16, 48)] = true) (hr : s.fwRead (cmdField c 1 1) = some w)
include hz hr

theorem fwregCmd_reads (hb : cmdField c 2 1 = 0) : s.fwregCmd 0 c = (s, 0, w) := by
  simp [State.fwregCmd, hz, hr, hb]

theorem fwregCmd_writes {t : State} (hb : cmdField c 2 1 = 1) (hw : s.fwWrite (cmdField c 1 1) (cmdField c 8 8) = some t) :
    s.fwregCmd 0 c = (t, 0, (t.fwRead (cmdField c 1 1)).getD 0) := by
  simp [State.fwregCmd, hz, hr, hb, hw]

theorem fwregCmd_refused (hb : cmdField c 2 1 = 1) (hw : s.fwWrite (cmdField c 1 1) (cmdField c 8 8) = none) :
    s.fwregCmd 0 c = (s, 2, 0) := by
  simp [State.fwregCmd, hz, hr, hb, hw, refuseCmd]

end

theorem cxlwinCmd_sets {s : State} {c : BitVec 512} (hz : cmdZero c [(5, 3), (16, 48)] = true) (hf : cmdField c 1 1 < 64)
    (hp : s.isPart (cmdField c 2 1) = true) (hk : cmdField c 3 1 < 16) (hok : s.keyOk (cmdField c 2 1) (cmdField c 3 1) = true)
    (h28 : 28 ≤ cmdField c 4 1) (h41 : cmdField c 4 1 ≤ 41) (ha : cmdField c 8 8 % 2 ^ cmdField c 4 1 = 0)
    (hsz : cmdField c 8 8 + 2 ^ cmdField c 4 1 ≤ partSize (s.partDies (cmdField c 2 1)))
    (ho : cmdField c 1 1 = 0 ∨ (s.fn (cmdField c 1 1)).part = some (cmdField c 2 1)) (hl : s.lockedFn (cmdField c 1 1) = false) :
    s.cxlwinCmd 0 c = (s.modFn (cmdField c 1 1)
      (fun x => { x with window := some (cmdField c 2 1, cmdField c 3 1, cmdField c 4 1, cmdField c 8 8) }), 0, 0) := by
  have hr : ¬ (cmdField c 4 1 < 28 ∨ 41 < cmdField c 4 1) := by omega
  have hown : (cmdField c 1 1 != 0 && (s.fn (cmdField c 1 1)).part != some (cmdField c 2 1)) = false := by
    obtain h | h := ho <;> simp [h]
  simp only [State.cxlwinCmd, hz, hp, hok, ha, hl, hown, decide_eq_false hr, decide_eq_false (Nat.not_le.2 hf),
    decide_eq_false (Nat.not_le.2 hk), decide_eq_false (Nat.not_lt.2 hsz)]
  rfl

section
variable {s : State} {c : BitVec 512} (hz : cmdZero c [(4, 60)] = true) (hk : cmdField c 1 1 < 16) (hp : s.isPart (cmdField c 2 1) = true)
include hz hk hp

/-- A key id that no other partition has goes to a partition with fewer than four (R390). -/
theorem keyidCmd_assigns (hb : cmdField c 3 1 = 1) (hn : s.keyOk (cmdField c 2 1) (cmdField c 1 1) = false)
    (ho : s.pools.any (fun p => p.1 != cmdField c 2 1 && p.2.keys.contains (cmdField c 1 1)) = false)
    (h4 : (s.pool (cmdField c 2 1)).keys.length < 4) :
    s.keyidCmd 0 c = (s.modPool (cmdField c 2 1) (fun p => { p with keys := p.keys ++ [cmdField c 1 1] }), 0, 0) := by
  simp only [State.keyidCmd, hz, hp, hb, hn, ho, decide_eq_false (Nat.not_le.2 hk), if_neg (Nat.not_le.2 h4)]
  rfl

/-- A key id withdrawn is erased (R390). -/
theorem keyidCmd_withdraws (hb : cmdField c 3 1 = 0) (hn : s.keyOk (cmdField c 2 1) (cmdField c 1 1) = true) : s.keyidCmd 0 c
    = ((s.modPool (cmdField c 2 1) (fun p => { p with keys := p.keys.filter (· != cmdField c 1 1) })).eraseKey (cmdField c 1 1), 0, 0) := by
  simp only [State.keyidCmd, hz, hp, hb, hn, decide_eq_false (Nat.not_le.2 hk)]
  rfl

end

/-- Settles O48: a command that is taken is its state function, and each clause is what that function does where its conditions hold. -/
theorem hostCommands : Obligations.HostCommands := by
  refine ⟨?_, fun fn c s h => commands_ignored_while_busy c h, fun fn r hs hv => ⟨mres_answered hs hv, mres_answered_waits⟩,
    ?_, ?_, ?_, ?_, ?_, ?_, ?_, ?_, ?_, ?_, ?_, ?_, ?_, ?_⟩
  · rintro fn c s op hf hn hm rfl
    have he : ∀ {code r}, cmdField c 0 1 = code → event (fun s => s.command fn c code r) s = .next ((r s).answered fn) :=
      event_command hf hn hm
    refine ⟨he, he, he, he, he, he, he, he, he, he, he, fun hc h1 h2 h3 => ?_, he, he⟩
    rw [exec_pwrstagSend, if_pos ⟨h1, h2, h3⟩]
    exact he hc
  · rintro fn part asid pool c s s1 s2 rfl
    exact ctxCreate_creates
  · rintro fn ctx c s x rfl
    exact ⟨ctx_commands_unknown, fun hx hf hz _ => ctxDestroy_tears hx hf hz⟩
  · rintro fn k qi q c s s1 s2 x rfl
    exact qCreate_creates
  · exact fun fn qi c s q hq hz => ⟨qDestroy_locked hq hz, qDestroy_used hq hz, qDestroy_removes hq hz⟩
  · rintro qi f b us c s q rfl rfl rfl
    exact qPolicy_sets
  · rintro ctx b n c s x rfl rfl rfl
    exact ctxPolicy_sets
  · rintro fn ctx us c s x rfl rfl hx hf hz hl hr
    exact ⟨preemptCmd_stops hx hf hz hl hr, preemptCmd_yields hx hf hz hl hr⟩
  · rintro fn ctx c s x rfl hx hf hz
    exact ⟨resumeCmd_resumes hx hf hz, resumeCmd_notHeld hx hf⟩
  · rintro fn vf part c s rfl rfl
    exact ⟨physical_commands_refused, vfAssign_assigns⟩
  · rintro n c s rfl
    exact ⟨modnumCmd_again, modnumCmd_sets⟩
  · rintro r v w c s rfl rfl hz hr
    exact ⟨fwregCmd_reads hz hr, fun _ => fwregCmd_writes hz hr, fwregCmd_refused hz hr⟩
  · exact fun v s => ⟨fun h1 h2 => if_pos ⟨h1, h2⟩, fun h1 h2 => if_pos ⟨h1, h2⟩, fun h1 h2 => if_pos ⟨h1, h2⟩, rfl⟩
  · rintro f part key lg off c s rfl rfl rfl rfl rfl
    exact cxlwinCmd_sets
  · rintro key part c s rfl rfl hz hk hp
    exact ⟨keyidCmd_assigns hz hk hp, keyidCmd_withdraws hz hk hp⟩

end Sys2Proof.Machine
end

section
/-!
PROOFS. The start and the end of jobs and records (O44).
-/

namespace Sys2Proof.Machine

/-! ### What a core, a context or a record reads as after an update elsewhere -/

@[simp] theorem core_postOnce (s : State) (t : Nat) (i : Instr) (c : Nat) : (s.postOnce t i).core c = s.core c := by simp [State.core]
@[simp] theorem core_modCtx (s : State) (n : Nat) (f : Ctx → Ctx) (c : Nat) : (s.modCtx n f).core c = s.core c := by simp [State.core]
@[simp] theorem core_kickLoader (s : State) (i c : Nat) : (s.kickLoader i).core c = s.core c := by
  unfold State.kickLoader
  split
  · rfl
  · exact core_postOnce ..

@[simp] theorem bay_modCore (s : State) (c : Nat) (f : Core → Core) (b : Nat) : (s.modCore c f).bay b = s.bay b := rfl
@[simp] theorem bay_modDie (s : State) (d : Nat) (f : Die → Die) (b : Nat) : (s.modDie d f).bay b = s.bay b := rfl

/-! ### The start of a job (R31, R97, R141, R142, R363) -/

theorem exec_jobStart (c : Nat) (s : State) : exec (.jobStart c) s = .next (s.startAt c) := rfl

theorem shadow_of_startable {s : State} {c : Nat} {l : Launch} {r : Rec} (h : s.startable c = some (l, r)) : (s.core c).shadow = some l := by
  cases hk : (s.core c).shadow with
  | none => simp [State.startable, hk] at h
  | some l' =>
    cases hr : s.rec? l'.rid with
    | none => simp [State.startable, hk, hr] at h
    | some r' =>
      simp only [State.startable, hk, hr, Option.ite_none_right_eq_some, Option.some.injEq, Prod.mk.injEq] at h
      rw [h.2.1]

section
variable {s : State} {c : Nat} {l : Launch} {r : Rec} (h : s.startable c = some (l, r)) (hg : s.startGroup c l.rid = [c])
include h hg

/-- A core is prepared first: its partition changes, and its start waits for the zero fill (R141, R142). -/
theorem jobStart_prepares (hr : s.restores c = false) (ht : (s.core c).startAt = none) : exec (.jobStart c) s
    = .next ((s.prepGroup r l.rid [c]).postOnce (max ((s.prepGroup r l.rid [c]).now + 1)
      ((((s.prepGroup r l.rid [c]).core c).startAt).getD 0)) (.jobStart c)) := by
  simp only [exec_jobStart, State.startAt, h, hg, List.any_cons, List.any_nil, hr, ht, Bool.or_false, Bool.false_eq_true, if_false]

/-- The chunk of a prepared core whose writes are all applied starts as a job (R363). -/
theorem jobStart_starts (hr : s.restores c = false) {t : Nat} (ht : (s.core c).startAt = some t) (hn : t ≤ s.now)
    (hq : s.coreQuiet c = true) : exec (.jobStart c) s = .next (s.runJob c (s.newJob c r l)) := by
  simp only [exec_jobStart, State.startAt, h, hg, List.any_cons, List.any_nil, hr, ht, Bool.or_false, Bool.false_eq_true, if_false,
    List.all_cons, List.all_nil, decide_eq_true hn, hq, Bool.and_true, if_true, List.foldl_cons, List.foldl_nil, shadow_of_startable h]

end

/-- Entries written one after the other where a condition does not leave them out. -/
theorem tget_foldl_ite_tput {α : Type} [DecidableEq α] (d : α) (p : Nat → Prop) [DecidablePred p] (v : Nat → α) (l : List Nat) (t : Tbl α)
    (k : Nat) : tget d (l.foldl (fun t k => if p k then t else tput d t k (v k)) t) k = if k ∈ l ∧ ¬ p k then v k else tget d t k := by
  induction l generalizing t with
  | nil => simp
  | cons i l ih =>
    rw [List.foldl_cons, ih]
    obtain rfl | h := eq_or_ne k i
    · by_cases hp : p k <;> simp [hp]
    · by_cases hp : p i <;> simp [hp, h, tget_tput]

theorem Rec.field_lt (r : Rec) (i n : Nat) : r.field i n < 2 ^ (8 * n) := Nat.mod_lt _ (Nat.two_pow_pos _)

/-- Bit 63 of a window register says that its window is declared (R353). -/
theorem gwin_newJob (c : Nat) (s : State) (r : Rec) (l : Launch) {i : Nat} (hi : i < 4) :
    (tget 0 (s.newJob c r l).gwin i).getLsbD 63 = ((r.window i).2 != 0) := by
  have hc : r.cores < 2 ^ 16 := r.field_lt 60 2
  have h1 : (r.window i).1 < 2 ^ 8 := r.field_lt _ 1
  have h2 : (r.window i).2 < 2 ^ 8 := r.field_lt _ 1
  have hg := tget_foldl_ite_tput (0 : Word) (fun i => (r.window i).2 = 0)
    (fun i => BitVec.ofNat 64 (2 ^ 63 + r.cores * 2 ^ 32 + (r.window i).2 * 2 ^ 16 + (r.window i).1)) (List.range 4) [] i
  refine (congrArg (·.getLsbD 63) hg).trans ?_
  by_cases hw : (r.window i).2 = 0
  · simp [hw, tget]
  · rw [if_pos ⟨List.mem_range.2 hi, hw⟩, BitVec.getLsbD_ofNat, Nat.add_assoc, Nat.add_assoc, Nat.testBit_two_pow_add_eq,
      Nat.testBit_lt_two_pow (by omega)]
    simpa using hw

theorem fd_newJob (c : Nat) (s : State) (r : Rec) (l : Launch) {i : Nat} (hi : i < 8) :
    tget 0 (s.newJob c r l).fd i = fdBits ((r.fsb.extractLsb' (32 * (16 + i)) 32).setWidth 64) :=
  (tget_foldl_tput 0 (fun i => fdBits ((r.fsb.extractLsb' (32 * (16 + i)) 32).setWidth 64)) (List.range 8) [] i).trans
    (if_pos (List.mem_range.2 hi))

theorem ft_newJob (c : Nat) (s : State) (r : Rec) (l : Launch) {i : Nat} (hi : i < 16) :
    tget 0 (s.newJob c r l).ft i = ftBits (r.fsb.extractLsb' (32 * i) 32) :=
  (tget_foldl_tput 0 (fun i => ftBits (r.fsb.extractLsb' (32 * i) 32)) (List.range 16) [] i).trans (if_pos (List.mem_range.2 hi))

theorem strm_newJob (c : Nat) (s : State) (r : Rec) {l : Launch} (h : l.yielded = none) (x : Strm) : (s.newJob c r l).strm x
    = startStrm (r.entryOf x) (r.chunkLen * l.chunk) (min r.chunkLen (r.range - r.chunkLen * l.chunk)) l.args none := by
  cases x <;> simp only [State.newJob, Job.strm, h, Option.map_none]

/-- The start state of a stream: its entry, the arguments, FIRST and COUNT, and clear registers (R97, R363). -/
theorem startStrm_fields (entry first count : Nat) (args : Tbl Word) : ∀ x, x = startStrm entry first count args none →
    x.pc = BitVec.ofNat 56 entry ∧ x.a = args ∧ tget 0 x.s 0 = BitVec.ofNat 64 first ∧ tget 0 x.s 1 = BitVec.ofNat 64 count
      ∧ (∀ n, 2 ≤ n → tget 0 x.s n = 0) ∧ x.asr = 0 ∧ x.p = 1 := by
  rintro x rfl
  have hs : ∀ n, tget 0 (startStrm entry first count args none).s n
      = if n = 1 then BitVec.ofNat 64 count else if n = 0 then BitVec.ofNat 64 first else 0 := by
    intro n
    simp only [startStrm, tget_tput]
    rfl
  refine ⟨rfl, rfl, (hs 0).trans rfl, (hs 1).trans rfl, fun n hn => ?_, rfl, rfl⟩
  rw [hs, if_neg (by omega), if_neg (by omega)]

/-- A job takes its core (R363). -/
theorem runJob_core (c : Nat) (s : State) (j : Job) : ∃ k, (s.runJob c j).core c = k ∧ k.job = some j ∧ k.shadow = none ∧ k.startAt = none
    ∧ k.lastCtx = some j.ctx := by
  refine ⟨_, rfl, ?_⟩
  simp only [State.runJob]
  split
  · split <;> simp
  · simp

/-! ### The restore of a job (R376, R378) -/

theorem exec_contextRestore (c : Nat) (s : State) : exec (.contextRestore c) s = .next (s.restoreAt c) := rfl

section
variable {s s1 : State} {c t : Nat} {l : Launch} {r : Rec} {x : Ctx} (h : s.startable c = some (l, r)) (hg : s.startGroup c l.rid = [c])
  (hr : s.restores c = true) (hx : s.ctx? (s.recCtx r) = some x) (hd : x.imgDue = false) (ht : (s.core c).startAt = some t) (hn : t ≤ s.now)
  (hq : s.coreQuiet c = true)
include h hg hr hx hd ht hn hq

/-- The saved job of an authentic image is loaded; with a refused image nothing starts (R378). -/
theorem contextRestore_restores {v : Saved} :
    (s.checkImage (s.recCtx r) = (s1, true) → (s1.core c).shadow = some l → s1.savedJob (s.recCtx r) l.rid l.chunk c = some v →
      exec (.contextRestore c) s = .next (s1.loadJob c v))
    ∧ (s.checkImage (s.recCtx r) = (s1, false) → exec (.contextRestore c) s = .next s1) := by
  simp only [exec_contextRestore, State.restoreAt, h, hg, List.any_cons, List.any_nil, hr, Bool.or_false, Bool.not_true, Bool.false_eq_true,
    if_false, hx, Option.map_some, Option.getD_some, hd, ht, List.all_cons, List.all_nil, decide_eq_true hn, hq, Bool.and_true, if_true]
  refine ⟨fun hc hs hv => ?_, fun hc => ?_⟩
  · simp only [hc, Bool.not_true, Bool.false_eq_true, if_false, List.foldl_cons, List.foldl_nil, hs, hv]
  · simp only [hc, Bool.not_false, if_true]

end

/-- An image is authentic where its bytes and its tenant key are those it was sealed with (R378). -/
theorem checkImage_read {s s1 : State} {ctx : Nat} {x : Ctx} {bs : List Byte} (hx : s.ctx? ctx = some x)
    (hr : s.frontRead ctx x.savea (x.imgBytes ctx).length = (s1, .ok bs)) :
    s.checkImage ctx = if bs = x.imgBytes ctx ∧ x.imgKey = tget 0 s1.tenantVer x.kslot then (s1, true) else (s1.imageRefused ctx, false) := by
  simp only [State.checkImage, hx, hr]

/-! ### The end of a job (R137, R380) -/

/-- The conditions under which a job completes (R137, R187, R341, R380). -/
theorem jobDone_iff {s : State} {c : Nat} {j : Job} (hj : (s.core c).job = some j) : s.jobDone c = true ↔
    (∀ x, (j.strm x).exited = true ∧ (j.strm x).log = [] ∧ (j.strm x).returned = [] ∧ (j.strm x).yielded = none ∧ (j.strm x).susp = none)
    ∧ j.micro = none ∧ j.redl = [] ∧ j.adv = [] ∧ (∀ h ∈ j.ce.chains, h.notified = true) ∧ j.ce.trapped = false
    ∧ (s.core c).arr = [] ∧ (s.core c).frags = [] ∧ (s.core c).wcsld = none ∧ (s.core c).obs.buf = []
    ∧ ∀ y, s.ctx? j.ctx = some y → ∀ f ∈ y.fires, ¬ (f.rid = j.rid ∧ f.chunk = j.chunk) := by
  have hf : ((s.ctx? j.ctx).map (·.fires.all (fun f => !(f.rid == j.rid && f.chunk == j.chunk)))).getD true = true
      ↔ ∀ y, s.ctx? j.ctx = some y → ∀ f ∈ y.fires, ¬ (f.rid = j.rid ∧ f.chunk = j.chunk) := by
    cases s.ctx? j.ctx <;> simp [← imp_iff_not_or]
  simp only [State.jobDone, hj, Bool.and_eq_true, hf, List.isEmpty_iff, Option.isNone_iff_eq_none, List.all_eq_true, mem_allStrms,
    true_imp_iff, Bool.not_eq_true', and_assoc]

theorem exec_jobCompletion (c : Nat) (s : State) : exec (.jobCompletion c) s = .next (s.completeJob c) := rfl

section
variable {s : State} {c : Nat} {j : Job} (hj : (s.core c).job = some j)
include hj

theorem jobCompletion_waits (hd : s.jobDone c = false) : exec (.jobCompletion c) s = .next s := by
  simp only [exec_jobCompletion, State.completeJob, hj, hd, Bool.not_false, if_true]

/-- A job that is done is released at mod, leaves its gang and its core, and the distributor hears of it (R137). -/
theorem jobCompletion_completes (hd : s.jobDone c = true) : ∀ t,
    t = (((((s.release c 5 .mod).leaveGang c j.rid).clearJob c).modRec j.rid (fun r =>
        { r with running := r.running.filter (fun e => e.1 != j.chunk) })).settleRec j.rid).settleYield j.ctx →
      exec (.jobCompletion c) s = .next ((t.finishStop j.ctx).postOnce ((t.finishStop j.ctx).now + 1)
        (.chunkHandout ((((t.finishStop j.ctx).ctx? j.ctx).map (·.part)).getD 0))) := by
  rintro t rfl
  simp only [exec_jobCompletion, State.completeJob, hj, hd, Bool.not_true, Bool.false_eq_true, if_false]

end

theorem core_clearJob (s : State) (c : Nat) : ((s.clearJob c).core c).job = none ∧ ((s.clearJob c).core c).arr = [] := by
  simp [State.clearJob]

/-- The lease of the bay goes with the job (R137). -/
theorem holder_clearJob {s : State} {c : Nat} (h : (s.bay (coreBay c)).holder = some (c % 4)) :
    ((s.clearJob c).bay (coreBay c)).holder = none := by
  simp [State.clearJob, State.dropRequests, State.endGrant, h]

/-! ### The end of a record (R185, R359, R367) -/

theorem exec_recordCompletion (rid : Nat) (s : State) : exec (.recordCompletion rid) s = .next (s.completeRec rid) := rfl

section
variable {s : State} {rid : Nat} {r : Rec} {st : BitVec 8} (hr : s.rec? rid = some r) (hd : r.state = .done st) (hs : r.susp = none)
include hr hd hs

theorem recordCompletion_finishes (h : (st ≠ 0 ∧ st ≠ 0x30 ∧ st ≠ 0x32) ∨ ∀ o ∈ s.remote, o.ctx ≠ s.recCtx r) :
    exec (.recordCompletion rid) s = .next (s.finishRec rid st.toNat (if r.type = 1 then r.reissued else r.info.toNat)) := by
  have hw : ¬ (decide (st = 0 ∨ st = 0x30 ∨ st = 0x32) && s.remote.any (fun o => o.ctx == s.recCtx r)) = true := by
    simp only [Bool.and_eq_true, decide_eq_true_eq, List.any_eq_true, beq_iff_eq]
    rintro ⟨h1, o, ho, hc⟩
    obtain ⟨h2, h3, h4⟩ | h := h
    · exact (not_or.2 ⟨h2, not_or.2 ⟨h3, h4⟩⟩) h1
    · exact h o ho hc
  simp only [exec_recordCompletion, State.completeRec, hr, hd, hs, Option.isSome_none, Bool.false_eq_true, if_false, if_neg hw]
  rfl

/-- A started record waits for what other modules have to acknowledge (R185, R359). -/
theorem recordCompletion_waits (h : st = 0 ∨ st = 0x30 ∨ st = 0x32) (ho : ∃ o ∈ s.remote, o.ctx = s.recCtx r) :
    exec (.recordCompletion rid) s = .next (s.postOnce (s.now + 1) (.recordCompletion rid)) := by
  have hw : (decide (st = 0 ∨ st = 0x30 ∨ st = 0x32) && s.remote.any (fun o => o.ctx == s.recCtx r)) = true := by
    simpa only [Bool.and_eq_true, decide_eq_true_eq, List.any_eq_true, beq_iff_eq] using ⟨h, ho⟩
  simp only [exec_recordCompletion, State.completeRec, hr, hd, hs, Option.isSome_none, Bool.false_eq_true, if_false, if_pos hw]

end

/-- A completion entry that is written counts in its ring, and interrupts where the record asks for it (R367). -/
theorem putCompletion_writes {s s1 : State} {rid st info : Nat} {r : Rec} {q : Queue} (hr : s.rec? rid = some r)
    (hq : s.queue? r.queue = some q) (hw : s.flushHomes.frontWrite q.ctx (q.cmpr + 16 * (q.compl % 2 ^ q.k)) (leBytes (r.field 4 4) 4
      ++ leBytes r.idx 2 ++ leBytes st 1 ++ leBytes (1 - q.compl / 2 ^ q.k % 2) 1 ++ leBytes info 8) = (s1, .ok ())) :
    s.putCompletion rid st info = (let t := s1.modQueue r.queue (fun q => { q with compl := q.compl + 1 })
      if r.irq then t.raise q.fn q.vec else t, .ok ()) := by
  simp only [State.putCompletion, hr, hq, hw]

/-- Settles O44: each event is its state function, taken in the case that the clause's premises name. -/
theorem jobsAndCompletion : Obligations.JobsAndCompletion := by
  refine ⟨fun c s l r h hg hr => ⟨jobStart_prepares h hg hr, fun _ => jobStart_starts h hg hr⟩, ?_, runJob_core,
    fun c s s1 l r v x t h hg hr hx hd ht hn hq => contextRestore_restores h hg hr hx hd ht hn hq, fun _ _ _ _ _ => checkImage_read,
    fun c s j hj => ⟨jobDone_iff hj, jobCompletion_waits hj, jobCompletion_completes hj⟩,
    fun c s => ⟨(core_clearJob s c).1, (core_clearJob s c).2, holder_clearJob⟩,
    fun rid s r st hr hd hs => ⟨recordCompletion_finishes hr hd hs, recordCompletion_waits hr hd hs⟩,
    fun _ _ _ _ _ _ _ => putCompletion_writes⟩
  intro c s r l hl
  exact ⟨rfl, rfl, rfl, rfl, rfl, fun i => gwin_newJob c s r l, fun i => fd_newJob c s r l, fun i => ft_newJob c s r l,
    fun x => startStrm_fields _ _ _ _ _ (strm_newJob c s r hl x)⟩

end Sys2Proof.Machine
end

section
/-!
PROOFS. Pre-emption, image headers, fences, elections and fault replies (O45).
-/

namespace Sys2Proof.Machine

/-! ### Pre-emption (R364, R375 to R377, R381) -/

@[simp] theorem posted_postOnce (s : State) (t : Nat) (i : Instr) : (s.postOnce t i).posted i = true := by
  unfold State.postOnce
  split
  case isTrue h => exact h
  case isFalse => exact posted_post ..

@[simp] theorem die_postOnce (s : State) (t : Nat) (i : Instr) (d : Nat) : (s.postOnce t i).die d = s.die d := by simp [State.die]
@[simp] theorem rec_postOnce (s : State) (t : Nat) (i : Instr) (n : Nat) : (s.postOnce t i).rec? n = s.rec? n := by simp [State.rec?]
@[simp] theorem pool_postOnce (s : State) (t : Nat) (i : Instr) (p : Nat) : (s.postOnce t i).pool p = s.pool p := by simp [State.pool]
@[simp] theorem rec_modCtx (s : State) (n : Nat) (f : Ctx → Ctx) (i : Nat) : (s.modCtx n f).rec? i = s.rec? i := by simp [State.rec?]
@[simp] theorem die_modPool (s : State) (p : Nat) (f : Pool → Pool) (d : Nat) : (s.modPool p f).die d = s.die d := rfl

theorem exec_preemptionStopComplete (c : Nat) (s : State) : exec (.preemptionStopComplete c) s = .next (s.stopComplete c) := rfl

section
variable {s : State} {c : Nat} {j : Job} (hj : (s.core c).job = some j)
include hj

/-- A job that has completed meanwhile completes (R382). -/
theorem preemptionStopComplete_done (hd : s.jobDone c = true) : exec (.preemptionStopComplete c) s = .next (s.completeJob c) := by
  simp only [exec_preemptionStopComplete, State.stopComplete, hj, hd, if_true]

theorem preemptionStopComplete_waits (hd : s.jobDone c = false) (hs : s.stopDone c = false) :
    exec (.preemptionStopComplete c) s = .next s := by
  simp [exec_preemptionStopComplete, State.stopComplete, hj, hd, hs]

/-- A stopped core saves its job; the last of the context writes the image (R375, R377). -/
theorem preemptionStopComplete_saves (hd : s.jobDone c = false) (hs : s.stopDone c = true) : ∀ t,
    t = (if (s.saveJob c j).ctxStopping j.ctx then s.saveJob c j else (s.saveJob c j).writeImage j.ctx) →
      exec (.preemptionStopComplete c) s = .next (((t.finishStop j.ctx).settleYield j.ctx).postOnce (t.now + 1)
        (.chunkHandout (((s.ctx? j.ctx).map (·.part)).getD 0))) := by
  rintro t rfl
  simp only [exec_preemptionStopComplete, State.stopComplete, hj, hd, hs, Bool.not_true, Bool.false_eq_true, if_false]

/-- Every unit of a stopped core stands still, and nothing of it is on its way (R210, R375). -/
theorem stopDone_still (hs : s.stopDone c = true) :
    (∀ x, (j.strm x).still = true ∧ (j.strm x).returned = [] ∧ ((j.strm x).susp = none → (j.strm x).trapped = false →
      ∀ e ∈ (j.strm x).log, e.op.own = false))
    ∧ j.chainOpen = false ∧ j.microBusy = false ∧ j.redl = [] ∧ j.ce.flight = none ∧ j.ce.unacked = [] ∧ (s.core c).arr = []
    ∧ (s.core c).wcsld = none ∧ (s.core c).obs.buf = [] ∧ ∀ g ∈ s.galleries, g.src ≠ c ∧ c ∉ g.members := by
  simp only [State.stopDone, hj, Bool.and_eq_true, List.all_eq_true, mem_allStrms, true_imp_iff, List.isEmpty_iff, Bool.not_eq_true',
    Option.isNone_iff_eq_none, List.any_eq_false, Bool.or_eq_true, not_or, beq_iff_eq, List.contains_iff_mem] at hs
  obtain ⟨⟨⟨⟨⟨⟨⟨⟨⟨⟨⟨⟨-, hx⟩, hch⟩, hm⟩, hr⟩, -⟩, hw⟩, ho⟩, ha⟩, -⟩, hf⟩, hu⟩, hg⟩ := hs
  refine ⟨fun x => ⟨(hx x).1.1, (hx x).1.2, fun h1 h2 e he => ?_⟩, hch, hm, hr, hf, hu, ha, hw, ho, hg⟩
  have hl := (hx x).2
  simp only [Stream.logDone, h1, h2, Option.isSome_none, Bool.false_or, List.all_eq_true, Bool.not_eq_true'] at hl
  exact hl e he

end

theorem exec_yieldDeadline (ctx : Nat) (s : State) : exec (.yieldDeadline ctx) s = .next (s.deadline ctx) := rfl

/-- A yield deadline that passes unmet falls back to pre-emption (R381). -/
theorem yieldDeadline_eq {s : State} {ctx t : Nat} {x : Ctx} (hx : s.ctx? ctx = some x) (hy : x.yieldBy = some t) : exec (.yieldDeadline ctx) s
    = .next (if decide (t ≤ s.now) && !s.yieldMet ctx then s.askStop ctx .preempt else s) := by
  simp only [exec_yieldDeadline, State.deadline, hx, hy]

theorem core_askStop_preempt {s : State} {ctx c : Nat} {j : Job} (hc : s.cores = [(c, s.core c)]) (hj : (s.core c).job = some j) (hx : j.ctx = ctx)
    (hs : (s.core c).stopping = none) :
    ((s.askStop ctx .preempt).core c).stopping = some .preempt ∧ ((s.askStop ctx .preempt).core c).stopFrom = s.now + 1 := by
  rw [State.askStop, hc]
  simp [hj, hx, hs]

/-! ### The header of an image (R377) -/

@[simp] theorem length_leBytes (v n : Nat) : (leBytes v n).length = n := by
  induction n generalizing v with
  | zero => rfl
  | succ n ih => simp [leBytes, ih]

/-- Little-endian bytes read back as the value, cut to their number (R3). -/
theorem leNat_leBytes (v n : Nat) : leNat (leBytes v n) = v % 256 ^ n := by
  induction n generalizing v with
  | zero => simp [leBytes, leNat, Nat.mod_one]
  | succ n ih =>
    rw [leBytes, leNat, ih, BitVec.toNat_ofNat, Nat.pow_succ' (m := 256), Nat.mod_mul, Nat.mul_comm]

/-- The value that stands in a header between what precedes and what follows it. -/
theorem leNat_take_drop (pre post : List Byte) (v n : Nat) {i : Nat} (h : pre.length = i) :
    leNat (((pre ++ leBytes v n ++ post).drop i).take n) = v % 256 ^ n := by
  rw [List.append_assoc, List.drop_left' h, List.take_left' (length_leBytes v n), leNat_leBytes]

theorem imgHead_fields (x : Ctx) (n : Nat) : (x.imgHead n).length = 64 ∧ leNat ((x.imgHead n).take 4) = 0x4D495853
    ∧ leNat (((x.imgHead n).drop 8).take 8) = n % 2 ^ 64 ∧ leNat (((x.imgHead n).drop 20).take 12) = x.saveCtr % 2 ^ 96 := by
  refine ⟨by simp [Ctx.imgHead], ?_, ?_, ?_⟩
  · simp [Ctx.imgHead, leNat_leBytes]
  · simpa [Ctx.imgHead] using leNat_take_drop (leBytes 0x4D495853 4 ++ leBytes 1 2 ++ leBytes x.imgJobs 2) _ n 8 rfl
  · simpa [Ctx.imgHead] using leNat_take_drop (leBytes 0x4D495853 4 ++ leBytes 1 2 ++ leBytes x.imgJobs 2 ++ leBytes n 8
      ++ leBytes x.kslot 2 ++ leBytes 0 2) _ x.saveCtr 12 rfl

/-! ### Fences (R20, R365, R366, R384) -/

theorem exec_dieFence (d : Nat) (s : State) : exec (.dieFence d) s = .next (s.fenceDie d) := rfl

theorem dieFence_ignored {s : State} {d : Nat} (h : 64 ≤ d ∨ (s.die d).fenced = true) : exec (.dieFence d) s = .next s := by
  rw [exec_dieFence, State.fenceDie, if_pos (by simpa using h)]

/-- What one step of a fold brings about, and every step keeps, holds after the fold. -/
theorem foldl_establishes {α : Type} {f : State → α → State} {P : State → Prop} {a : α} (hf : ∀ s, P (f s a)) (hk : ∀ s b, P s → P (f s b))
    {l : List α} (ha : a ∈ l) (s : State) : P (l.foldl f s) := by
  have keep : ∀ (l : List α) (s : State), P s → P (l.foldl f s) := fun l => by
    induction l with
    | nil => exact fun _ h => h
    | cons b l ih => exact fun s h => ih _ (hk s b h)
  induction l generalizing s with
  | nil => cases ha
  | cons b l ih =>
    obtain rfl | h := List.mem_cons.1 ha
    · exact keep l _ (hf s)
    · exact ih h _

/-- What a fence leaves of each core: no job, no launch, no L1 line (R365, R384). -/
def State.emptyCore (s : State) (c : Nat) : State :=
  (s.clearJob c).modCore c (fun k => { k with shadow := none, startAt := none, gangIdle := none, l1 := [], frags := [], credits := 4 })

theorem core_emptyCore_same (s : State) (c : Nat) : ((s.emptyCore c).core c).shadow = none ∧ ((s.emptyCore c).core c).l1 = [] := by
  simp [State.emptyCore]

theorem core_emptyCore_other (s : State) {c i : Nat} (h : i ≠ c) : (s.emptyCore c).core i = s.core i :=
  (core_modCore_other _ _ h).trans (core_modCore_other _ _ h)

@[simp] theorem clearJob_pools (s : State) (c : Nat) : (s.clearJob c).pools = s.pools := by
  simp [State.clearJob, State.dropRequests, State.endGrant]

@[simp] theorem emptyCore_pools (s : State) (c : Nat) : (s.emptyCore c).pools = s.pools := by simp [State.emptyCore]

/-- Cores of a die are emptied one after the other. -/
def State.emptyCores (s : State) (d : Nat) (l : List Nat) : State := l.foldl (fun s i => s.emptyCore (16 * d + i)) s

theorem core_emptyCores (s : State) (d : Nat) {l : List Nat} {i : Nat} (h : i ∈ l) :
    ((s.emptyCores d l).core (16 * d + i)).shadow = none ∧ ((s.emptyCores d l).core (16 * d + i)).l1 = [] := by
  refine foldl_establishes (f := fun s i => s.emptyCore (16 * d + i)) (a := i)
    (P := fun s => (s.core (16 * d + i)).shadow = none ∧ (s.core (16 * d + i)).l1 = [])
    (fun s => core_emptyCore_same s _) (fun s b hs => ?_) h s
  by_cases hb : i = b
  · rw [hb]; exact core_emptyCore_same s _
  · rwa [core_emptyCore_other s (by omega)]

theorem pools_emptyCores (s : State) (d : Nat) (l : List Nat) : (s.emptyCores d l).pools = s.pools :=
  foldl_field (f := fun s i => s.emptyCore (16 * d + i)) (fun s => s.pools) (fun s _ => emptyCore_pools s _) l s


/-- A die marked fenced, without gangs, gallery stores and cluster regions. -/
def State.cutOff (s : State) (d : Nat) : State :=
  let s := s.modDie d (fun x => { x with fenced := true, gangs := [], galWait := [] })
  { s with
    galleries := s.galleries.filter (fun g => g.die != d)
    bays := s.bays.map (fun b => if b.1 / 4 = d then (b.1, { b.2 with regions := [] }) else b) }

theorem cutOff_core (s : State) (d c : Nat) : (s.cutOff d).core c = s.core c := rfl
theorem cutOff_pools (s : State) (d : Nat) : (s.cutOff d).pools = s.pools := rfl
theorem cutOff_die (s : State) (d : Nat) : (s.cutOff d).die d = { s.die d with fenced := true, gangs := [], galWait := [] } :=
  die_modDie_same s d (fun x => { x with fenced := true, gangs := [], galWait := [] })

/-- What a fence leaves of a die where no chunk is lost. -/
def State.fenced (s : State) (d : Nat) : State := (s.emptyCores d (List.range 16)).cutOff d

/-- A die without a job or a chunk, which does not hold the newel, is fenced off at once (R365, R384). -/
theorem fenceDie_idle {s : State} {d : Nat} (hd : d < 64) (hf : (s.die d).fenced = false) (hc : s.chunksOn d = [])
    (hj : ∀ i, i < 16 → (s.core (16 * d + i)).job = none) (hn : s.newelOf (s.partOf d).1 ≠ d) :
    s.fenceDie d = (s.fenced d).postOnce ((s.fenced d).now + 1) (.chunkHandout (s.partOf d).1) := by
  have hjobs : (List.range 16).filterMap (fun i => (s.core (16 * d + i)).job.map (·.ctx)) = [] :=
    List.filterMap_eq_nil_iff.2 fun i hi => by rw [hj i (List.mem_range.1 hi)]; rfl
  have hp := pools_emptyCores s d (List.range 16)
  rw [State.fenceDie, if_neg (by simp [hd, hf]), hc, hjobs, State.fenced]
  unfold State.emptyCores State.emptyCore at hp ⊢
  generalize List.foldl _ s (List.range 16) = s1 at hp ⊢
  have hn' : (s1.cutOff d).newelOf (s.partOf d).1 ≠ d := by rwa [State.newelOf, State.pool, cutOff_pools, hp]
  have hc : s1.cutOff d = if (s1.cutOff d).newelOf (s.partOf d).1 = d then (s1.cutOff d).callElection (s.partOf d).1 else s1.cutOff d :=
    (if_neg hn').symm
  rw [hc]
  rfl

theorem dieFence_fences {s : State} {d : Nat} (hd : d < 64) (hf : (s.die d).fenced = false) (hc : s.chunksOn d = [])
    (hj : ∀ i, i < 16 → (s.core (16 * d + i)).job = none) (hn : s.newelOf (s.partOf d).1 ≠ d) : ∃ t, exec (.dieFence d) s = .next t
      ∧ (t.die d).fenced = true ∧ (t.die d).gangs = [] ∧ (∀ g ∈ t.galleries, g.die ≠ d)
      ∧ ∀ i, i < 16 → (t.core (16 * d + i)).shadow = none ∧ (t.core (16 * d + i)).l1 = [] := by
  refine ⟨_, (exec_dieFence d s).trans (congrArg _ (fenceDie_idle hd hf hc hj hn)), ?_, ?_, fun g hg => ?_, fun i hi => ?_⟩
  · rw [die_postOnce, State.fenced, cutOff_die]
  · rw [die_postOnce, State.fenced, cutOff_die]
  · rw [postOnce_galleries] at hg
    exact bne_iff_ne.1 (List.mem_filter.1 hg).2
  · rw [core_postOnce, State.fenced, cutOff_core]
    exact core_emptyCores s d (List.mem_range.2 hi)

/-- Whether a record has ended is all that settling it changes (R359, R365). -/
theorem rec_settleRec {s : State} {rid : Nat} {r : Rec} (h : s.rec? rid = some r) :
    ∃ st info, (s.settleRec rid).rec? rid = some { r with state := st, info := info } := by
  simp only [State.settleRec, h]
  split
  · exact ⟨_, _, by rw [rec_postOnce, rec_modRec, if_pos rfl, h]; rfl⟩
  · exact ⟨r.state, r.info, h⟩

/-- A chunk lost with a die runs again from its start, or its record hands out no more (R365). -/
theorem rec_loseChunk {s : State} {rid : Nat} {r : Rec} (chunk : Nat) (h : s.rec? rid = some r) : ∃ y, (s.loseChunk rid chunk).rec? rid = some y
    ∧ (∀ e ∈ y.running, e.1 ≠ chunk)
    ∧ (r.reissue = true → y.reissued = r.reissued + 1 ∧ y.lost = r.lost ∧ (Launch.mk rid chunk [] none none) ∈ y.returned)
    ∧ (r.reissue = false → y.lost = true ∧ y.reissued = r.reissued) := by
  have hrun : ∀ e ∈ r.running.filter (fun e => e.1 != chunk), e.1 ≠ chunk := fun e he => bne_iff_ne.1 (List.mem_filter.1 he).2
  have hrec : ∀ n f g, ((s.modRec rid f).modCtx n g).rec? rid = some (f r) := fun n f g => by
    rw [rec_modCtx, rec_modRec, if_pos rfl, h]; rfl
  simp only [State.loseChunk, h]
  refine (rec_settleRec (hrec _ _ _)).elim fun st hs => hs.elim fun info hy => ⟨_, hy, ?_⟩
  cases hre : r.reissue
  · exact ⟨hrun, fun h => (Bool.false_ne_true h).elim, fun _ => ⟨rfl, rfl⟩⟩
  · exact ⟨hrun, fun _ => ⟨rfl, rfl, List.mem_append_right _ List.mem_cons_self⟩, fun h => (Bool.false_ne_true h.symm).elim⟩

/-! ### Boundaries and elections (R20, R366) -/

theorem exec_boundaryFailure (a b : Nat) (s : State) : exec (.boundaryFailure a b) s = .next (s.boundaryFail a b) := rfl

theorem boundaryFailure_ignored {a b : Nat} {s : State} (h : adjacent a b = false ∨ s.failed.contains (min a b, max a b) = true) :
    exec (.boundaryFailure a b) s = .next s := by
  rw [exec_boundaryFailure, State.boundaryFail, if_pos (by simpa using h)]

theorem needsBoundary_iff {a b d : Nat} {s : State} : s.needsBoundary a b d = true
    ↔ ∃ i, i < (s.partOf d).2 ∧ routeCrosses d ((s.partOf d).1 + i) a b = true := by
  simp [State.needsBoundary]

/-- A boundary that fails cuts off the dies that hold it and those whose traffic needs it (R20). -/
theorem boundaryFailure_fences {a b : Nat} {s : State} (ha : adjacent a b = true) (hf : s.failed.contains (min a b, max a b) = false) :
    ∃ (w : Nat) (cut : List Nat), exec (.boundaryFailure a b) s = .next ((min a b :: max a b :: cut).foldl State.fenceDie
        (({ s with free := s.free + 1, failed := s.failed ++ [(min a b, max a b)] } : State).error 7 6 (min a b) (w % 112) 0 0 0))
      ∧ ∀ d, d ∈ cut ↔ d < 64 ∧ d ≠ min a b ∧ d ≠ max a b
        ∧ ∃ i, i < (s.partOf d).2 ∧ routeCrosses d ((s.partOf d).1 + i) (min a b) (max a b) = true := by
  refine ⟨Config.freeNat s.free,
    (List.range 64).filter (fun d => s.needsBoundary (min a b) (max a b) d && d != min a b && d != max a b), ?_, fun d => ?_⟩
  · rw [exec_boundaryFailure, State.boundaryFail, if_neg (by rw [ha, hf]; decide)]
    rfl
  · rw [List.mem_filter, List.mem_range, Bool.and_eq_true, Bool.and_eq_true, needsBoundary_iff, bne_iff_ne, bne_iff_ne]
    tauto

theorem exec_newelElection (part : Nat) (s : State) : exec (.newelElection part) s = .next (s.elect part) := rfl

section
variable {part t c : Nat} {cs : List Nat} {s : State} (ht : (s.pool part).decide_ = some t) (hc : (s.pool part).cands = c :: cs)
include ht hc

theorem newelElection_early (hn : s.now < t) : exec (.newelElection part) s = .next s := by
  simp only [exec_newelElection, State.elect, ht, hc, if_pos hn]

/-- The lowest die among the candidacies wins, and hands out work again (R366). -/
theorem newelElection_elects {w : Nat} (hn : t ≤ s.now) (hw : w = cs.foldl min c) (hf : (s.die w).fenced = false) :
    ∃ y, exec (.newelElection part) s = .next y ∧ (y.pool part).newel = some w ∧ (y.pool part).cands = [] ∧ (y.pool part).decide_ = none
      ∧ w ∈ c :: cs ∧ (∀ d ∈ c :: cs, w ≤ d) ∧ y.posted (.chunkHandout part) = true := by
  obtain ⟨hmem, hle⟩ := List.min?_eq_some_iff.1 (hw ▸ List.min?_cons' : (c :: cs).min? = some w)
  refine ⟨(s.modPool part (fun p => { p with newel := some w, cands := [], decide_ := none })).postOnce (s.now + 1) (.chunkHandout part),
    ?_, ?_, ?_, ?_, hmem, hle, posted_postOnce ..⟩
  · simp only [exec_newelElection, State.elect, ht, hc, if_neg (Nat.not_lt.2 hn), ← hw, die_modPool, hf, Bool.false_eq_true, if_false,
      modPool_now]
  all_goals rw [pool_postOnce, pool_modPool_same]

end

/-! ### Fault replies (R371, R374, R415) -/

theorem exec_faultReply (fn : Nat) (s : State) : exec (.faultReply fn) s = .next (s.faultReplyOf fn) := rfl

/-- A reply that names no context of the function is marked as an error (R415). -/
theorem faultReply_error {fn : Nat} {s : State} (h : s.ctx? ((s.fn fn).frctx.toNat % 2 ^ 40) = none
      ∨ ∀ x, s.ctx? ((s.fn fn).frctx.toNat % 2 ^ 40) = some x → x.fn ≠ fn) :
    exec (.faultReply fn) s = .next (s.modFn fn (fun f => { f with frply := (f.frply &&& 0x1FFFFFFFF#64) ||| (1#64 <<< 62) })) := by
  rw [exec_faultReply, State.faultReplyOf]
  cases hx : s.ctx? ((s.fn fn).frctx.toNat % 2 ^ 40) with
  | none => rfl
  | some x =>
    have hf : x.fn ≠ fn := h.elim (fun h => by rw [hx] at h; cases h) (fun h => h x hx)
    have hno : (s.susps ((s.fn fn).frctx.toNat % 2 ^ 40)).find?
        (fun e => x.fn == fn && e.2.idx == (s.fn fn).frply.toNat % 2 ^ 32) = none :=
      List.find?_eq_none.2 fun e _ => by simp [hf]
    simp only [hno]
    rfl

/-- A reply that names a suspended unit takes effect on it, is recorded where the context is held, and dropped where it is stopped
(R371). -/
theorem faultReply_reaches {fn : Nat} {s : State} {x : Ctx} {l : SuspAt} {v : Susp}
    (hx : s.ctx? ((s.fn fn).frctx.toNat % 2 ^ 40) = some x) (hf : x.fn = fn)
    (hl : (s.susps ((s.fn fn).frctx.toNat % 2 ^ 40)).find? (fun e => e.2.idx == (s.fn fn).frply.toNat % 2 ^ 32) = some (l, v)) :
    ∀ t, t = s.modFn fn (fun f => { f with frply := f.frply &&& 0x1FFFFFFFF#64 }) →
      (x.status = .live → exec (.faultReply fn) s
        = .next (t.replyTo ((s.fn fn).frctx.toNat % 2 ^ 40) l v ((s.fn fn).frply.getLsbD 32)))
      ∧ (x.status = .held → exec (.faultReply fn) s
        = .next (t.setSusp ((s.fn fn).frctx.toNat % 2 ^ 40) l (some { v with reply := some ((s.fn fn).frply.getLsbD 32) })))
      ∧ (x.status = .stopped → exec (.faultReply fn) s = .next t) := by
  have hor : ∀ w : Word, w ||| 0 = w := fun _ => BitVec.or_zero
  rintro t rfl
  simp only [exec_faultReply, State.faultReplyOf, hx, hf, beq_self_eq_true, Bool.true_and, hl, Bool.false_eq_true, if_false, hor]
  refine ⟨fun h => ?_, fun h => ?_, fun h => ?_⟩ <;> rw [h]

/-- A retried stream performs its kept accesses again (R371, R374). -/
theorem replyTo_retry {ctx c : Nat} {x : Strm} {v w : Susp} {s : State} (hw : ((s.jobAt c).strm x).susp = some w) :
    s.replyTo ctx (.strm c x) v false = (s.modStrm c x (fun y => { y with susp := none })).kickLog c x := by
  simp only [State.replyTo, State.resumeStrm, State.strmAt, hw, Bool.not_false, if_true]

theorem kickLog_posts {c : Nat} {x : Strm} {s : State} (hs : (s.strmAt c x).susp = none) (hl : ∃ e ∈ (s.strmAt c x).log, e.op.own = true) :
    (s.kickLog c x).posted (.memoryAccessPerformed c x) = true := by
  have hp : ((s.strmAt c x).susp.isNone && (s.strmAt c x).log.any (fun e => e.op.own)) = true := by
    rw [hs, List.any_eq_true.2 hl]; rfl
  rw [State.kickLog, if_pos hp]
  exact posted_postOnce ..

/-- Settles O45: each event is its state function, taken in the case that the clause's premises name. -/
theorem contextEvents : Obligations.ContextEvents := by
  refine ⟨fun c s j hj => ⟨preemptionStopComplete_done hj, preemptionStopComplete_waits hj, preemptionStopComplete_saves hj⟩,
    imgHead_fields, fun d s => dieFence_ignored, fun d s => dieFence_fences, fun rid chunk s r => rec_loseChunk chunk,
    fun c s j => stopDone_still, fun a b s => ⟨boundaryFailure_fences, fun _ h => boundaryFailure_ignored (.inr h),
      fun h => boundaryFailure_ignored (.inl h)⟩,
    fun part t w c cs s ht hc => ⟨newelElection_early ht hc, newelElection_elects ht hc⟩, ?_, fun ctx c s j => core_askStop_preempt, ?_,
    fun ctx c x v w s hw _ => replyTo_retry hw, fun c x s => kickLog_posts⟩
  · intro ctx t s x hx hy
    rw [yieldDeadline_eq hx hy]
    refine ⟨fun ht hm => ?_, fun h => ?_⟩
    · rw [decide_eq_true ht, hm]; rfl
    · rw [if_neg (by simpa [or_iff_not_imp_left] using h)]
  · rintro fn ctx idx s refuse rfl rfl rfl
    exact ⟨faultReply_error, fun x l v t hx hf hl => faultReply_reaches hx hf hl t⟩

end Sys2Proof.Machine
end

section
/-!
PROOFS. Instruction words (O55, O56): decoding takes back what encoding gave, for every instruction, and the words written out decode.
-/

namespace Sys2Proof.Laws.Encodes

/-- The word of every instruction decodes to it: the constructors' own lemmas, in the order of `Instr`. -/
theorem every : ∀ i : Instr, Encodes.Statement i :=
  Instr.rec
    nop trap bkpt yield exit rdv rendezvousRelease pmark sysrd syswr cntrd br brl bri bril loop mloop lbrk rep pand por pxor pandn pmov
    qtest add sub mul mulh mulhu div divu rem remu madd lea and or xor andn shl shr sra rot clz popc bext bins min max minu maxu sel
    mov cmp fadd fsub fmul ffma fmin fmax fcmp fcvt frnd ld vld vldx pref st vst vstx gst galleryArrival sbind streamBlockFetch snext
    stest sdrop tlook tset tinv feset feclr fetest l1wb l1inv fence aadd amin amax aand aor axor axch acas afadd lda stl waitt tlrd
    tladv vadd vsub vmul vfma vmin vmax vabs vneg vand vor vxor vshl vshr viadd vimul vmov vbcst vsel vshuf vrot vext vins vcmp kand
    kor knot kpopc vcvt vqnt vdq vbmax vred vredLanding vrmov vscan vsfu vsmax vrng noiseGrant resultDelivery lease leaseGrant lrel mma
    mmas mzero kStepEntry sparsityStallTimeout arrayCommandComplete mfmt mscl msq mret retirementStart retirementComplete wcsld wbind
    wunb wcsrd wstat customOpcode microStep pageFetch ltag lfree ldesc lsend lstat lorph fragmentArrival fragmentAnswer fragmentResend
    overflowReadback landingDelivery orphanTimeout cego cestop cestat chainCopy chainLoop chainIf chainWait chainSignal chainNotify
    chainEnd ctab ctile tileFireComplete cringSet cringDone cringStat rslotReq rslotRel rslotAnswer stepSend stepRecv stepReduce
    stepWaitf stepNext fabricAckTimeout stepWaitTimeout staggerRelease instructionFetch memoryAccessPerformed lateFault storeAck
    homeRequestApply queueDeadlock timelineWaitTimeout fullEmptyTimeout drawWaitTimeout wcsldWaitTimeout landingCreditTimeout jobStart
    jobCompletion operatorRecord collectiveRecord waitRecord waitRecordPoll signalRecord tiletabRecord csimageRecord rslotRecord
    recordReady chunkHandout recordCompletion timeSliceExpiry newelElection preemptionStopComplete contextRestore yieldDeadline
    refreshWindowEnd shootdownComplete migrationCopy repartitionDone governorInterval profilingSliceEnd traceRecordWrite
    fabricLineArrival fabricLinkFailure staggerMessage remoteRequest noiseHealthFail kick dieFence boundaryFailure faultReply
    archStateError hbmUncorrectable correctableError rowActivation tsdGo migStart migEnd migAbort cxlMemRead cxlMemWrite pcfgGo
    ctxCreate ctxDestroy qCreate qDestroy qPolicy ctxPolicy preempt ctxResume vfAssign modnum fwreg pwrstagSend cxlwin keyid
    tdispLockInterface spdmRequest moduleReset hostLinkTraining prfReq prfRel dbgStop dbgResume registerWrite noiseHealthRecover
    functionReset tdispStartInterface tdispStopInterface

end Sys2Proof.Laws.Encodes

namespace Sys2Proof

/-- A well-formed instruction has a word: an event has none, but is not well-formed on any stream. -/
theorem encodeFields_isSome {x : Strm} {i : Instr} (h : i.wf x = true) : (encodeFields i).isSome = true := by
  -- an instruction's word is there by evaluation; an event's well-formedness evaluates to false
  cases i <;> first | rfl | exact nomatch h

/-- Settles O56: an encoded word carries the fields the encoder built, and those decode to the instruction. -/
theorem decodeEncode : Obligations.DecodeEncode := by
  refine ⟨fun x i w l hw he => ?_, fun x i hw => ?_, ofWord_word⟩
  · obtain ⟨f, hf, hwl⟩ := Option.map_eq_some_iff.1 he
    cases hwl
    rw [decode, ofWord_word]
    exact Laws.Encodes.every i x f hw hf
  · rw [encode, Option.isSome_map]
    exact encodeFields_isSome hw

/-- Settles O55: the decoder evaluated on each word, stream by stream where the clause speaks of every stream. -/
theorem writtenWords : Obligations.WrittenWords := by
  refine ⟨fun x => ?_, fun x => ?_, ?_, ?_, ?_, ?_, fun x => ?_, fun x => ?_, rfl, rfl⟩
  case refine_1 => cases x <;> decide +kernel
  case refine_2 => cases x <;> decide +kernel
  case refine_7 => cases x <;> decide +kernel
  case refine_8 => cases x <;> decide +kernel
  all_goals decide +kernel

end Sys2Proof
end

section
/-!
PROOFS. A step runs the instruction at the program counter (O57): the turn of a stream that nothing holds, and the bytes its words come from.
-/

namespace Sys2Proof.Machine

/-! ### The turn of a stream (R32, R33, R96) -/

/-- Words with no REP in force issue as they decode (R46). -/
theorem issueWord_ok {x : Strm} {v : Stream} {w : Fetched} {i : Instr} (hr : v.rep = none) (h : decode x w.word w.lit = .ok i) :
    issueWord x v w = .ok (Fields.ofWord w.word w.lit, i) := by
  have hd : decodeFields x (Fields.ofWord w.word w.lit) = .ok i := h
  simp only [issueWord, hd, hr]

theorem issueWord_error {x : Strm} {v : Stream} {w : Fetched} {r : Nat} (h : decode x w.word w.lit = .error r) :
    issueWord x v w = .error { cause := 0x01, reason := r } := by
  have hd : decodeFields x (Fields.ofWord w.word w.lit) = .error r := h
  simp only [issueWord, hd]

section
variable {s : State} {c : Nat} {x : Strm} {rest : List (Nat × Strm)} {j : Job} {w : Fetched} (h : TurnOf s c x rest j w)
include h

/-- Nothing of the outside and no event comes before the turn. -/
theorem TurnOf.next_eq : s.next = ({ s with cur := none, turn := rest } : State).visit c x := by
  have ht : ({ s with cur := none } : State).nextTurn = ({ s with cur := none, turn := rest } : State).visit c x := by
    simp only [State.nextTurn, h.turn]
  unfold State.next
  dsimp only
  split
  · rename_i hi
    exact absurd (hi.symm.trans h.inputs) (List.cons_ne_nil _ _)
  · split
    · rename_i t early i due hd
      have hn : (decide (t < s.now) || (t == s.now && early)) = false := by
        rcases h.due (t, early, i) (by rw [show s.due = _ from hd]; rfl) with he | ⟨he, hf⟩
        · simp only [Bool.or_eq_false_iff, decide_eq_false_iff_not, Bool.and_eq_false_iff, beq_eq_false_iff_ne]
          omega
        · simp only [show early = false from hf, Bool.and_false, Bool.or_false, decide_eq_false_iff_not]
          exact he.not_lt
      simp only [hn]
      exact ht
    · exact ht

/-- No stop, rendezvous, replay, routine or group holds the turn: the stream issues the words it has fetched. -/
theorem TurnOf.visit_eq : ({ s with cur := none, turn := rest } : State).visit c x
    = ({ s with cur := none, turn := rest } : State).issueWords c x j w := by
  obtain ⟨ho, hp, hr⟩ := h.open_
  have hj : ({ s with cur := none, turn := rest } : State).jobAt c = j := by
    show (s.core c).job.getD emptyJob = j
    rw [h.job]; rfl
  have hc : ({ s with cur := none, turn := rest } : State).core c = s.core c := rfl
  have hst : ({ s with cur := none, turn := rest } : State).stopsNow c = false := h.runs
  have hfree : (if x = .cx then j.cxFirst else none) = none := by
    split
    · exact (h.cx ‹_›).1
    · rfl
  have hlh : (decide (x = .cx) && j.lh) = false := by
    by_cases hx : x = .cx
    · rw [(h.cx hx).2.1, Bool.and_false]
    · rw [decide_eq_false hx]; rfl
  have hfrom : (decide (x = .cx) && decide (({ s with cur := none, turn := rest } : State).now < j.cxFrom)) = false := by
    by_cases hx : x = .cx
    · have := (h.cx hx).2.2.1
      simp; intro _; exact this
    · rw [decide_eq_false hx]; rfl
  have hmicro : (decide (x = .cx) && j.micro.isSome) = false := by
    by_cases hx : x = .cx
    · rw [(h.cx hx).2.2.2]; simp
    · rw [decide_eq_false hx]; rfl
  simp only [State.visit, hc, h.job, hfree, h.live, hst, hlh, State.visitLive, hj, ho, hp, hfrom, hmicro, State.tryIssue, h.fetched, h.pc]
  rfl

/-- A step on which the stream issues runs the instruction issued. -/
theorem TurnOf.step_issues {t : State} {i : Instr} (hi : ({ s with cur := none, turn := rest } : State).issueWords c x j w = (t, some i)) :
    step s = exec i t := by
  simp only [step, h.next_eq, h.visit_eq, hi]

/-- A step on which the stream issues nothing ends with the state its words left. -/
theorem TurnOf.step_issues_none {t : State} (hi : ({ s with cur := none, turn := rest } : State).issueWords c x j w = (t, none)) :
    step s = .next t := by
  simp only [step, h.next_eq, h.visit_eq, hi]

/-- The words at the program counter run the instruction they decode to. -/
theorem TurnOf.step_runs {i : Instr} (hd : decode x w.word w.lit = .ok i) :
    step s = exec i { s with cur := some (slotFor c x j w), turn := rest } := by
  refine h.step_issues ?_
  simp only [State.issueWords, issueWord_ok h.open_.2.2 hd, h.calm]
  rfl

/-- Words that do not decode stop the stream with trap 0x01 and their reason (R46). -/
theorem TurnOf.step_illegal {r : Nat} (hd : decode x w.word w.lit = .error r) :
    step s = .next (({ s with cur := some (issueSlot c x (j.strm x) w), turn := rest } : State).stopAt (issueSlot c x (j.strm x) w)
      (.trap { cause := 0x01, reason := r }) { s with cur := some (issueSlot c x (j.strm x) w), turn := rest }) := by
  refine h.step_issues_none ?_
  simp only [State.issueWords, issueWord_error hd]

theorem TurnOf.strmAt_eq (u : Option Cur) (k : List (Nat × Strm)) : ({ s with cur := u, turn := k } : State).strmAt c x = j.strm x := by
  show ((s.core c).job.getD emptyJob).strm x = _
  rw [h.job]; rfl

end

theorem stopAt_trap_waits {s s' : State} {u : Cur} {t : Trap} (h : (s.strmAt u.core u.strm).log ≠ []) :
    s.stopAt u (.trap t) s' = s.holdAt u .busy := by
  have hl : (!(s.strmAt u.core u.strm).log.isEmpty) = true := by simpa using h
  simp only [State.stopAt, hl, if_true]

theorem stopAt_trap_taken {s s' : State} {u : Cur} {t : Trap} (h : (s.strmAt u.core u.strm).log = []) (h5 : t.cause ≠ 0x05) (h12 : t.cause ≠ 0x12) :
    s.stopAt u (.trap t) s' = s'.takeTrap u t := by
  have hl : (!(s.strmAt u.core u.strm).log.isEmpty) = false := by rw [h]; rfl
  have hc : ¬(t.cause = 0x05 ∨ t.cause = 0x12) := not_or.2 ⟨h5, h12⟩
  simp only [State.stopAt, hl, if_neg hc]
  rfl

theorem slotFor_fields (c : Nat) (x : Strm) (j : Job) (w : Fetched) : (slotFor c x j w).core = c ∧ (slotFor c x j w).strm = x
    ∧ (slotFor c x j w).pc = (j.strm x).pc ∧ (slotFor c x j w).size = wordSize w.word ∧ (slotFor c x j w).second = false := by
  unfold slotFor slotWithUse
  split <;> exact ⟨rfl, rfl, rfl, rfl, rfl⟩

/-! ### The bytes at the program counter (R32, R33) -/

section
variable {s s1 : State} {c : Nat} {pc : VAddr} {bs : List Byte}

theorem codeBytes_spad {n o pc : Nat} (h : checkAddr s c pc n 1 false = .ok (.spad o)) :
    s.codeBytes c pc n = (s, .ok (readBytes (s.core c).spad o n)) := by
  simp only [State.codeBytes, h]

theorem codeWord_short (h : s.codeBytes c pc.toNat 8 = (s1, .ok bs)) (hw : (BitVec.ofNat 64 (leNat bs)).getLsbD 41 = false) :
    s.codeWord c pc = (s1, .ok { pc := pc, word := BitVec.ofNat 64 (leNat bs), lit := 0 }) := by
  simp only [State.codeWord, h, hw]
  rfl

theorem codeWord_wide {s2 : State} {b : List Byte} (h : s.codeBytes c pc.toNat 8 = (s1, .ok bs))
    (hw : (BitVec.ofNat 64 (leNat bs)).getLsbD 41 = true) (hb : s1.codeBytes c (pc.toNat + 8) 4 = (s2, .ok b)) :
    s.codeWord c pc = (s2, .ok { pc := pc, word := BitVec.ofNat 64 (leNat bs), lit := BitVec.ofNat 32 (leNat b) }) := by
  simp only [State.codeWord, h, hw, if_true, hb]
end

/-- Settles O57: the turn comes next, issues the fetched words and runs what they decode to; fetching reads the bytes at the program counter. -/
theorem stepRuns : Obligations.StepRuns := by
  refine ⟨fun s c x rest j w h => ⟨fun i hd => h.step_runs hd, fun r hd hl => ?_, fun r hd hl => ?_, ?_⟩, ?_, ?_⟩
  · rw [h.step_illegal hd]
    exact congrArg _ (stopAt_trap_waits (by rw [issueSlot, h.strmAt_eq]; exact hl))
  · rw [h.step_illegal hd]
    exact congrArg _ (stopAt_trap_taken (by rw [issueSlot, h.strmAt_eq]; exact hl) (of_decide_eq_true rfl) (of_decide_eq_true rfl))
  · exact slotFor_fields c x j w
  · rintro s c pc o bs hc rfl hw
    exact codeWord_short (codeBytes_spad hc) hw
  · exact fun s s1 c pc bs h => ⟨codeWord_short h, fun s2 b hw hb => codeWord_wide h hw hb⟩

end Sys2Proof.Machine
end

section
/-!
PROOFS. An instruction whose predicate does not hold (O50, R36): it retires from the state as it was, and a custom opcode starts no routine.
-/

namespace Sys2Proof.Machine

/-! ### Guards and their codes (R36) -/

/-- A word's PRED holds its guard. -/
theorem encodeFields_pred {i : Instr} {g : Guard} {f : Fields} (hg : guardOf i = some g) (hf : encodeFields i = some f) : f.pred = g.code := by
  cases i
  case gst o =>
    cases o
    all_goals
      cases hg
      cases hf
      exact withB_pred _ _
  all_goals cases hg
  all_goals cases hf
  -- the encoder builds the word at once, or adds source B to it
  all_goals first | rfl | exact withB_pred _ _ | exact withBR_pred _ _

/-- A word whose guard is `p0` negated is no instruction (R36, R46). -/
theorem decodeFields_pred_eight {x : Strm} {f : Fields} (i : Instr) (h : f.pred = 8) : decodeFields x f ≠ .ok i := by
  have hne : ∀ row, ∃ r, firstReason (reasons x row f) = some r := by
    intro row
    have hmem : 4 ∈ reasons x row f := by simp [reasons, h, bad]
    cases hl : reasons x row f with
    | nil => rw [hl] at hmem; cases hmem
    | cons r rs => rw [firstReason]; split <;> exact ⟨_, rfl⟩
  unfold decodeFields
  split
  · nofun
  · split
    · nofun
    · rename_i row _
      obtain ⟨r, hr⟩ := hne row
      rw [hr]
      nofun

/-- Every instruction of a guard is issued under it (R118). -/
theorem exec_guarded {i : Instr} {g : Guard} (h : guardOf i = some g) : ∃ body, exec i = issue g body := by
  cases i
  case gst o =>
    cases o
    all_goals
      cases h
      exact ⟨_, rfl⟩
  all_goals cases h
  all_goals exact ⟨_, rfl⟩

/-! ### Issue without execution -/

/-- Where no KIND 2 record is due, the check before an instruction that does not execute does nothing. -/
theorem preIssue_off {s : State} {u : Cur} (h : s.noTraceDue u) : preIssue u false s = .ok () s := by
  unfold preIssue
  simp only [M.bind_ok, getStrm_ok]
  refine ⟨_, _, ⟨rfl, rfl⟩, ?_⟩
  cases hl : (s.strmAt u.core u.strm).loops.head? with
  | none => rfl
  | some l =>
    have ht : (!l.traced && decide ((s.strmAt u.core u.strm).pc = l.start) && (s.strmAt u.core u.strm).rep.isNone
        && (s.core u.core).obs.trc.getLsbD 1) = false := by
      rcases h l hl with h | h | h | h
      · rw [h]; rfl
      · rw [decide_eq_false h]; simp
      · rw [Option.isNone_eq_false_iff.2 h]; simp
      · rw [h, Bool.and_false]
    simp only [M.bind_ok, M.get_ok]
    refine ⟨_, _, ⟨rfl, rfl⟩, ?_⟩
    simp only [ht, trapIf]
    rfl

/-- An instruction whose predicate does not hold retires from the state as it was (R36). -/
theorem issue_off {g : Guard} {body : Cur → M Flow} {s : State} {u : Cur} (hc : s.cur = some u) (hj : (s.core u.core).job.isSome = true)
    (hg : guardHolds g (s.strmAt u.core u.strm) = false) (ht : s.noTraceDue u) :
    issue g body s = .next (s.retire { u with use := u.use.map CxUse.off } .next) := by
  obtain ⟨j, hj⟩ := Option.isSome_iff_exists.mp hj
  have hs : s.strmAt u.core u.strm = j.strm u.strm := by simp [State.strmAt, State.jobAt, hj]
  rw [hs] at hg
  have hb : (do preIssue u false; pure .next : M Flow) s = .ok .next s := by
    simp only [M.bind_ok]; exact ⟨_, _, preIssue_off ht, rfl⟩
  unfold issue
  simp only [hc, hj, hg, Bool.false_eq_true, if_false]
  rw [hb]

/-! ### The routine of a core through a retirement -/

/-- The routine that the job of a core runs. -/
def State.microOf (s : State) (c : Nat) : Option Micro := (s.core c).job.bind (·.micro)

theorem microAt_idle {s : State} {c : Nat} (h : s.microOf c = none) : s.microAt c = s := by
  unfold State.microAt
  unfold State.microOf at h
  cases hj : (s.core c).job with
  | none => rfl
  | some j =>
    rw [hj] at h
    simp only [show j.micro = none from h]

theorem microOf_of_job {s t : State} {c : Nat} (h : (t.core c).job = (s.core c).job) : t.microOf c = s.microOf c := by
  rw [State.microOf, h, State.microOf]

theorem microOf_modJob {s : State} {c : Nat} {f : Job → Job} (h : ∀ j, (f j).micro = j.micro) : (s.modJob c f).microOf c = s.microOf c := by
  rw [State.microOf, core_modJob_same, State.microOf]
  cases (s.core c).job with
  | none => rfl
  | some j => exact h j

@[simp] theorem core_raiseN (s : State) (fn vec k c : Nat) : (s.raiseN fn vec k).core c = s.core c := by
  induction k generalizing s with
  | zero => rfl
  | succ k ih => exact ih _

/-- Counting an event changes no core's job. -/
@[simp] theorem job_countCore (s : State) (c code : Nat) (q : Nat → Nat) (i : Nat) : ((s.countCore c code q).core i).job = (s.core i).job := by
  unfold State.countCore
  dsimp only
  split
  · rfl
  · split
    · rfl
    · rw [core_raiseN, core_setCore]
      split
      · subst i; rfl
      · rfl

@[simp] theorem job_countHead (s : State) (c : Nat) (x : Strm) (h : HeadCls) (i : Nat) : ((s.countHead c x h).core i).job = (s.core i).job := by
  cases h <;> simp only [State.countHead, job_countCore]

@[simp] theorem micro_setStrm (j : Job) (x : Strm) (v : Stream) : (j.setStrm x v).micro = j.micro := by cases x <;> rfl

@[simp] theorem micro_rotate (j : Job) (x : Strm) : (j.rotate x).micro = j.micro := by
  unfold Job.rotate
  split <;> rfl

@[simp] theorem micro_loopEnds (x : Strm) (e : VAddr) (ls : List LoopEnt) (j : Job) : (loopEnds x e ls j).1.micro = j.micro := by
  induction ls generalizing j with
  | nil => rfl
  | cons l ls ih =>
    unfold loopEnds
    dsimp only
    split
    · split
      · split
        · rw [micro_rotate, micro_setStrm]; rfl
        · rfl
      · rw [ih]; rfl
    · rfl

@[simp] theorem micro_leaveLoops (t : VAddr) (ls : List LoopEnt) (j : Job) : (leaveLoops t ls j).1.micro = j.micro := by
  induction ls generalizing j with
  | nil => rfl
  | cons l ls ih =>
    unfold leaveLoops
    split
    · rfl
    · rw [ih]; rfl

@[simp] theorem micro_advance (j : Job) (u : Cur) (f : Flow) : (j.advance u f).micro = j.micro := by
  unfold Job.advance
  dsimp only
  repeat' split
  all_goals simp

theorem microOf_joinGroup (s : State) (u : Cur) : (s.joinGroup u).microOf u.core = s.microOf u.core := by
  unfold State.joinGroup
  split
  · rfl
  · dsimp only
    refine (microOf_of_job (job_countCore ..)).trans ?_
    split <;> exact microOf_modJob fun _ => rfl

/-- A retirement ends and starts no routine. -/
theorem microOf_retire (s : State) (u : Cur) (f : Flow) : (s.retire u f).microOf u.core = s.microOf u.core := by
  have hadv : ∀ j : Job, ((j.advance u f).setStrm u.strm (((j.advance u f).strm u.strm).afterIssue u.pc)).micro = j.micro := by simp
  have hret : (((s.modJob u.core (fun j => (j.advance u f).setStrm u.strm (((j.advance u f).strm u.strm).afterIssue u.pc))).joinGroup u).countCore
      u.core 0x0005 (qualBit (6 + strmNum u.strm))).microOf u.core = s.microOf u.core :=
    (microOf_of_job (job_countCore ..)).trans ((microOf_joinGroup _ u).trans (microOf_modJob hadv))
  unfold State.retire
  dsimp only
  split
  · exact hret
  · exact (microOf_of_job (job_countHead ..)).trans hret

/-- A custom opcode whose predicate does not hold starts no routine; only check 7 of its bound entry is made (R36, R270). -/
theorem customOpcode_off {o : CustomOps} {s : State} {u : Cur} (hc : s.cur = some u) (hj : (s.core u.core).job.isSome = true)
    (hg : guardHolds o.g (s.strmAt u.core u.strm) = false) (ht : s.noTraceDue u) (hm : (s.jobAt u.core).micro = none)
    (hb : ∀ e, e = tget 0 (((s.ctx? (s.jobAt u.core).ctx).map (·.bind)).getD []) (o.major.toNat - 0xC0) →
      (bindV e && !rkDmaskOk (bindRk e) o.dmask) = false) :
    exec (.customOpcode o) s = .next (s.retire { u with use := u.use.map CxUse.off } .next) := by
  have hoff := fun body => issue_off (body := body) hc hj hg ht
  have hidle : (s.retire { u with use := u.use.map CxUse.off } .next).microOf u.core = none := by
    rw [show u.core = ({ u with use := u.use.map CxUse.off } : Cur).core from rfl, microOf_retire]
    obtain ⟨j, hj⟩ := Option.isSome_iff_exists.mp hj
    simpa [State.microOf, State.jobAt, hj] using hm
  obtain ⟨j, hj⟩ := Option.isSome_iff_exists.mp hj
  have hja : s.jobAt u.core = j := by rw [State.jobAt, hj]; rfl
  rw [hja] at hb
  show execCustomOpcode o s = _
  unfold execCustomOpcode
  simp only [hc, hj, hb _ rfl, Bool.false_eq_true, if_false, hoff]
  rw [microAt_idle hidle]

/-- Settles O50: every guarded instruction is issued under its guard, and issue without execution is a retirement. -/
theorem predicatedOff : Obligations.PredicatedOff := by
  refine ⟨fun i g s u hi hc hj hg ht => ?_, fun o s u e hc hj hg ht hm he hb => ?_, fun g x => rfl, fun x => rfl,
    fun i g f hi hf => encodeFields_pred hi hf, fun x f i hp => decodeFields_pred_eight i hp⟩
  · obtain ⟨body, hbody⟩ := exec_guarded hi
    rw [hbody]
    exact issue_off hc hj hg ht
  · subst he
    exact customOpcode_off hc hj hg ht hm (by rintro e rfl; exact hb)

end Sys2Proof.Machine
end

section
/-!
PROOFS. The clock through the accesses of the units: no access to memory, translation or error record moves the cycle counter.
-/

namespace Sys2Proof.Machine

/-! ### Counts, watches and error records -/

/-- A fold that carries a result keeps the cycle when its steps do. -/
theorem foldl_fst_now {α β : Type} {f : State × β → α → State × β} (h : ∀ r a, (f r a).1.now = r.1.now) (l : List α) (r : State × β) :
    (l.foldl f r).1.now = r.1.now := by
  induction l generalizing r with
  | nil => rfl
  | cons a l ih => exact (ih (f r a)).trans (h r a)

@[simp] theorem raiseN_now (s : State) (fn vec k : Nat) : (s.raiseN fn vec k).now = s.now := by
  induction k generalizing s with
  | zero => rfl
  | succ k ih => exact ih _

@[simp] theorem countDie_now (s : State) (d ctx code : Nat) (q : Nat → Nat) : (s.countDie d ctx code q).now = s.now := by
  unfold State.countDie
  dsimp only
  repeat' split
  all_goals simp

@[simp] theorem watchHome_now (s : State) (key l n : Nat) (wr : Bool) (asid : Nat) : (s.watchHome key l n wr asid).now = s.now := by
  unfold State.watchHome
  dsimp only
  split
  · rfl
  · refine foldl_field State.now (fun s i => ?_) _ _
    repeat' split
    all_goals simp

@[simp] theorem mscTouch_now (s : State) (key l ctx : Nat) : (s.mscTouch key l ctx).now = s.now := by
  unfold State.mscTouch
  simp

/-! ### Writes and reads at the homes -/

@[simp] theorem joinLine_now (s : State) (l : Nat) (clk : Tbl Nat) : (s.joinLine l clk).now = s.now := by
  refine foldl_field State.now ?_ _ _
  exact fun _ _ => rfl

@[simp] theorem rekeyBlock_now (s : State) (key blk : Nat) : (s.rekeyBlock key blk).now = s.now := by
  unfold State.rekeyBlock
  dsimp only
  split <;> rfl

@[simp] theorem homePut_now (s : State) (key l : Nat) (bs : List (Byte × Byte)) : (s.homePut key l bs).now = s.now :=
  foldl_field State.now (fun s b => rekeyBlock_now s key b) _ _

@[simp] theorem homePutAll_now (s : State) (key l : Nat) (bs : List (Byte × Byte)) : (s.homePutAll key l bs).now = s.now :=
  (foldl_field State.now (fun s (f : Nat × Nat) => homePut_now s f.1 f.2 bs) _ _).trans (homePut_now ..)

@[simp] theorem windowPut_now (s : State) (fn off : Nat) (bs : List Byte) : (s.windowPut fn off bs).now = s.now := by
  refine foldl_field State.now (fun s p => ?_) _ _
  split
  · exact homePutAll_now ..
  · rfl

@[simp] theorem errorTo_now (s : State) (fn type unit die wher addr ctx count : Nat) :
    (s.errorTo fn type unit die wher addr ctx count).now = s.now := by
  unfold State.errorTo
  dsimp only
  split <;> simp

@[simp] theorem lineError_now (s : State) (type l addr ctx : Nat) : (s.lineError type l addr ctx).now = s.now := errorTo_now ..

@[simp] theorem clearPoison_now (s : State) (l : Nat) (full : Bool) (ctx : Nat) : (s.clearPoison l full ctx).now = s.now := by
  unfold State.clearPoison
  split
  · rfl
  · split
    · rfl
    · exact lineError_now ..

@[simp] theorem homeWriteLine_now (s : State) (key l : Nat) (bs : List (Byte × Byte)) (ctx asid : Nat) :
    (s.homeWriteLine key l bs ctx asid).now = s.now := by
  unfold State.homeWriteLine
  dsimp only
  rw [clearPoison_now]
  split
  · refine (foldl_field State.now ?_ _ _).trans (by simp)
    exact fun _ _ => rfl
  · simp

@[simp] theorem applyReq_now (s : State) (r : HomeReq) : (s.applyReq r).now = s.now := by
  unfold State.applyReq
  simp

@[simp] theorem applyUpTo_now (s : State) (b : Nat) (p : HomeReq → Bool) : (s.applyUpTo b p).now = s.now := by
  unfold State.applyUpTo
  dsimp only
  split
  · rfl
  · rw [foldl_field State.now applyReq_now]; rfl

@[simp] theorem homeRead_now (s : State) (die core key l n ctx asid : Nat) : (s.homeRead die core key l n ctx asid).1.now = s.now := by
  unfold State.homeRead
  simp

/-! ### Translation and the front end's accesses -/

@[simp] theorem walkStep_now (s : State) (part die core ctx asid va level table : Nat) :
    (s.walkStep part die core ctx asid va level table).1.now = s.now := by
  unfold State.walkStep
  dsimp only
  split
  · rfl
  · split
    · rw [lineError_now, homeRead_now]
    · rw [homeRead_now]

@[simp] theorem walkFrom_now (s : State) (part die core ctx asid va level table : Nat) :
    (s.walkFrom part die core ctx asid va level table).1.now = s.now := by
  induction level generalizing s table with
  | zero =>
    have h := walkStep_now s part die core ctx asid va 0 table
    unfold State.walkFrom
    split <;> (rename_i hw; rw [hw] at h; exact h)
  | succ level ih =>
    have h := walkStep_now s part die core ctx asid va (level + 1) table
    unfold State.walkFrom
    split
    · rename_i hw; rw [hw] at h; exact h
    · rename_i hw; rw [hw] at h; exact (ih ..).trans h

@[simp] theorem frontTranslate_now (s : State) (ctx va : Nat) (need : Need) : (s.frontTranslate ctx va need).1.now = s.now := by
  unfold State.frontTranslate
  split
  · rfl
  · dsimp only
    split <;> exact walkFrom_now ..

@[simp] theorem frontReach_now (s : State) (ctx va : Nat) (need : Need) : (s.frontReach ctx va need).1.now = s.now := by
  have h := frontTranslate_now s ctx va need
  unfold State.frontReach
  dsimp only
  split
  · exact h
  · split
    · exact h
    · split <;> exact h

@[simp] theorem frontReadAs_now (s : State) (need : Need) (ctx va n : Nat) : (s.frontReadAs need ctx va n).1.now = s.now := by
  refine foldl_fst_now (fun r p => ?_) _ _
  obtain ⟨s, e | l⟩ := r
  · rfl
  · have h := frontReach_now s ctx p.1 need
    dsimp only
    split
    · exact h
    · rename_i pa _
      by_cases hp : paMod pa = (s.frontReach ctx p.1 need).1.ownMod
      · simp only [if_pos hp]
        split <;> simp
      · simp only [if_neg hp]
        exact h

@[simp] theorem frontPlaces_now (s : State) (strict : Bool) (ctx va : Nat) (bs : List Byte) : (s.frontPlaces strict ctx va bs).1.now = s.now := by
  refine foldl_fst_now (fun r p => ?_) _ _
  obtain ⟨s, e | l⟩ := r
  · rfl
  · dsimp only
    split
    · simp
    · split <;> simp

@[simp] theorem frontWrite_now (s : State) (ctx va : Nat) (bs : List Byte) : (s.frontWrite ctx va bs).1.now = s.now := by
  unfold State.frontWrite State.writeFor
  dsimp only
  split
  · simp
  · refine (foldl_field State.now (fun s p => ?_) _ _).trans (frontPlaces_now ..)
    split
    · rw [homeWriteLine_now, applyUpTo_now]
    · rfl

/-- Writing a trap record takes no cycle. -/
theorem putTrap_now (s : State) (ctx : Nat) (r : TrapRec) : (s.putTrap ctx r).1.now = s.now := by
  unfold State.putTrap
  split
  · rfl
  · dsimp only
    split
    · simp
    · split
      · split <;> simp
      · split
        · simp
        · split <;> simp

end Sys2Proof.Machine
end


section
/-!
PROOFS. Trap records, what a trap does to its unit and its context, and the traps of branches and addresses (O60).
-/

namespace Sys2Proof.Machine

/-! ### The record of a trap (R369) -/

theorem TrapRec.length_bytes (r : TrapRec) : r.bytes.length = 128 := by
  simp [TrapRec.bytes, TrapRec.bytes0, TrapRec.bytes32, TrapRec.bytes64]

/-- A field behind the first one of a layout is a field of the rest. -/
theorem recField_after (v : Nat) (bs : List Byte) {n i : Nat} (m : Nat) (h : n ≤ i) : recField (leBytes v n ++ bs) i m = recField bs (i - n) m := by
  obtain ⟨k, rfl⟩ := Nat.exists_eq_add_of_le h
  rw [recField, recField, List.drop_append, List.drop_of_length_le (by simp), List.nil_append, length_leBytes]

/-- The first field of a layout reads as its value, cut to its bytes. -/
theorem recField_first (v : Nat) (bs : List Byte) (n : Nat) : recField (leBytes v n ++ bs) 0 n = v % 256 ^ n := 
  leNat_take_drop [] bs v n rfl

theorem recField_last (v n : Nat) : recField (leBytes v n) 0 n = v % 256 ^ n := by simpa using recField_first v [] n

/-- Every field of a record stands at its offset, little-endian. -/
theorem TrapRec.fields (r : TrapRec) (h : r.fits) : recField r.bytes 0 1 = r.cause.toNat
    ∧ recField r.bytes 1 1 = r.strm + 4 * r.source + 32 * r.late.toNat + 64 * r.more.toNat ∧ recField r.bytes 2 1 = r.reason
    ∧ recField r.bytes 3 1 = r.subcode ∧ recField r.bytes 4 2 = r.core ∧ recField r.bytes 6 2 = r.queue ∧ recField r.bytes 8 8 = r.pc
    ∧ recField r.bytes 16 8 = r.word ∧ recField r.bytes 24 4 = r.lit ∧ recField r.bytes 28 1 = r.repk ∧ recField r.bytes 29 1 = r.cause2
    ∧ recField r.bytes 30 2 = 0 ∧ recField r.bytes 32 8 = r.detail ∧ recField r.bytes 40 8 = r.time ∧ recField r.bytes 48 8 = r.ctx
    ∧ recField r.bytes 56 8 = r.asr ∧ (∀ i < 3, recField r.bytes (64 + 8 * i) 8 = (r.pops.getD i 0).toNat)
    ∧ recField r.bytes 88 1 = min r.pops.length 3 ∧ recField r.bytes 89 7 = 0 ∧ recField r.bytes 96 8 = r.faddr ∧ recField r.bytes 104 24 = 0 := by
  obtain ⟨hstrm, hsource, hreason, hsub, hcore, hqueue, hpc, hword, hlit, hrepk, hcause2, hdetail, htime, hctx, hasr, hfaddr⟩ := h
  have hlate := Bool.toNat_le r.late
  have hmore := Bool.toNat_le r.more
  have hcause := r.cause.isLt
  have hpop : ∀ i, (r.pops.getD i 0).toNat < 2 ^ 64 := fun i => (r.pops.getD i 0).isLt
  have hw : ∀ i < 3, recField r.bytes (64 + 8 * i) 8 = (r.pops.getD i 0).toNat := fun i hi => by
    have := hpop i
    interval_cases i <;>
      simp only [TrapRec.bytes, TrapRec.bytes0, TrapRec.bytes32, TrapRec.bytes64, List.flatMap_cons, List.flatMap_nil, List.append_assoc, List.nil_append,
        recField_after, recField_first, Nat.reduceLeDiff, Nat.reduceSub, Nat.reduceMul, Nat.reduceAdd] <;> omega
  refine ⟨?_, ?_, ?_, ?_, ?_, ?_, ?_, ?_, ?_, ?_, ?_, ?_, ?_, ?_, ?_, ?_, hw, ?_, ?_, ?_, ?_⟩ <;>
    simp only [TrapRec.bytes, TrapRec.bytes0, TrapRec.bytes32, TrapRec.bytes64, List.flatMap_cons, List.flatMap_nil, List.append_assoc, List.nil_append,
      recField_after, recField_first, recField_last, Nat.reduceLeDiff, Nat.reduceSub, Nat.le_refl] <;> omega

/-! ### Taking a trap (R370 to R372) -/

theorem takeTrapOf_translation {s s1 : State} {c ix : Nat} {un : TrapUnit} {t : Trap} {u : Cur} (ht : t.cause = 0x05)
    (hp : s.putTrap (s.jobAt c).ctx (trapRecOf s c un t u) = (s1, .ok (some ix))) :
    s.takeTrapOf c un t (some u) = s1.haltUnit c un (some { va := t.faddr.toNat, idx := ix, reply := none, late := t.late }) := by
  have hr : s.trapRecord c un t (some u) = trapRecOf s c un t u := rfl
  simp only [State.takeTrapOf, if_pos ht, hr, hp, Option.getD_some]

@[simp] theorem haltUnit_lastTrap (s : State) (c : Nat) (un : TrapUnit) (x : Option Susp) :
    ((s.haltUnit c un x).core c).lastTrap = (s.core c).lastTrap := by
  cases un <;> simp [State.haltUnit, State.modJob, State.modStrm]

@[simp] theorem haltUnit_now (s : State) (c : Nat) (un : TrapUnit) (x : Option Susp) : (s.haltUnit c un x).now = s.now := by
  cases un <;> rfl

@[simp] theorem haltUnit_ctx (s : State) (c : Nat) (un : TrapUnit) (x : Option Susp) (n : Nat) : (s.haltUnit c un x).ctx? n = s.ctx? n := by
  cases un <;> rfl

/-- A trap with none before it in its core and cycle is taken as the first (R382). -/
theorem takeTrapOf_first {s : State} {c : Nat} {un : TrapUnit} {t : Trap} {u : Cur} (ht : t.cause ≠ 0x05)
    (hl : ∀ l, (s.core c).lastTrap = some l → l.time ≠ s.now) :
    s.takeTrapOf c un t (some u) = (s.haltUnit c un none).trapFirst c (s.jobAt c).ctx (trapPrio un t.cause) (trapRecOf s c un t u) := by
  have hr : s.trapRecord c un t (some u) = trapRecOf s c un t u := rfl
  simp only [State.takeTrapOf, if_neg ht, hr, haltUnit_lastTrap, haltUnit_now]
  cases hc : (s.core c).lastTrap with
  | none => rfl
  | some l => simp only [if_neg (hl l hc)]

theorem trapFirst_recorded {s s1 : State} {c ctx prio ix : Nat} {r : TrapRec} (hp : s.putTrap ctx r = (s1, .ok (some ix))) :
    s.trapFirst c ctx prio r = (s1.modCore c (fun k =>
      { k with lastTrap := some { time := s.now, prio := prio, cause := r.cause, recAt := some ix, more := false,
                                  prev := ((s.ctx? ctx).map (·.status)).getD .live } })).haltCtx ctx (causeHolds r.cause) := by
  have hn : s1.now = s.now := by simpa [hp] using putTrap_now s ctx r
  simp only [State.trapFirst, hp, hn, Option.isNone_some]

theorem causeHolds_iff (c : BitVec 8) : causeHolds c = true ↔ c = 0x10 ∨ c = 0x11 ∨ c = 0x12 := by
  simp [causeHolds, or_assoc]

/-! ### Holding and stopping a context (R372) -/

@[simp] theorem askStop_ctx (s : State) (ctx n : Nat) (k : StopKind) : (s.askStop ctx k).ctx? n = s.ctx? n := by
  refine foldl_field (fun s => s.ctx? n) (fun s e => ?_) _ _
  split <;> rfl

@[simp] theorem finishStop_ctx (s : State) (ctx n : Nat) : (s.finishStop ctx).ctx? n = s.ctx? n := by
  unfold State.finishStop
  split
  · split
    · refine foldl_field (fun s => s.ctx? n) (fun s r => ?_) _ _
      simp only [State.ctx?, postOnce_ctxs, modRec_ctxs]
    · rfl
  · rfl

@[simp] theorem finishStop_core (s : State) (ctx c : Nat) : (s.finishStop ctx).core c = s.core c := by
  unfold State.finishStop
  split
  · split
    · refine foldl_field (fun s => s.core c) (fun s r => ?_) _ _
      simp only [State.core, postOnce_cores, modRec_cores]
    · rfl
  · rfl

/-- A value of a table other than the default stands in it. -/
theorem mem_of_tget_ne {α : Type} {d : α} {t : Tbl α} {i : Nat} (h : tget d t i ≠ d) : (i, tget d t i) ∈ t := by
  induction t with
  | nil => exact absurd rfl h
  | cons e t ih =>
    obtain ⟨k, v⟩ := e
    rw [tget] at h ⊢
    split
    · rename_i hk
      rw [hk]
      exact List.mem_cons_self
    · rename_i hk
      rw [if_neg hk] at h
      exact List.mem_cons_of_mem _ (ih h)

/-- A core that runs a context is asked to stop with it. -/
theorem askStop_stopping {s : State} {ctx c : Nat} (k : StopKind) (h : (s.core c).job.map (·.ctx) = some ctx) :
    ((s.askStop ctx k).core c).stopping.isSome = true := by
  have hmem : (c, s.core c) ∈ s.cores := mem_of_tget_ne fun hd => by
    rw [State.core, hd] at h
    exact Option.some_ne_none _ h.symm
  refine foldl_establishes (P := fun s => (s.core c).stopping.isSome = true) (fun t => ?_) (fun t e ht => ?_) hmem s
  · rw [if_pos h, core_modCore_same]
    dsimp only
    split
    · rename_i hs
      obtain hs | ⟨-, hs⟩ := hs
      · rw [hs]; rfl
      · exact hs
    · rfl
  · split
    · by_cases hc : c = e.1
      · subst hc
        rw [core_modCore_same]
        dsimp only
        split
        · exact ht
        · rfl
      · rwa [core_modCore_other _ _ hc]
    · exact ht

/-- A live context is held or stopped with every core that runs it. -/
theorem haltCtx_live {s : State} {x : Ctx} {n : Nat} (hold : Bool) (hx : s.ctx? n = some x) (hl : x.status = .live) :
    ∃ y, (s.haltCtx n hold).ctx? n = some y ∧ y.status = (if hold then .held else .stopped)
      ∧ ∀ c, (s.core c).job.map (·.ctx) = some n → ((s.haltCtx n hold).core c).stopping.isSome = true := by
  unfold State.haltCtx
  simp only [finishStop_ctx, finishStop_core, askStop_ctx, ctx_modCtx, if_true, hx, Option.map_some]
  refine ⟨_, rfl, by simp only [hl], fun c hc => askStop_stopping _ ?_⟩
  simpa [State.core] using hc

/-! ### A stream that is not live (R96) -/

theorem Stream.not_live {v : Stream} (h : v.susp.isSome = true ∨ v.trapped = true ∨ v.exited = true ∨ v.stopped = true) : v.live = false := by
  obtain h | h | h | h := h
  · cases hs : v.susp <;> simp_all [Stream.live]
  · simp [Stream.live, h]
  · simp [Stream.live, h]
  · simp [Stream.live, h]

theorem visit_not_live {s : State} {c : Nat} {x : Strm} (h : (s.strmAt c x).live = false) : (s.visit c x).2 = none := by
  unfold State.visit
  cases hj : (s.core c).job with
  | none => rfl
  | some j =>
    have hv : (j.strm x).live = false := by simpa [State.strmAt, State.jobAt, hj] using h
    dsimp only
    split
    · rename_i a ha
      obtain rfl : x = .cx := by by_contra hx; simp [if_neg hx] at ha
      have hcx : j.cx.live = false := hv
      simp [State.trySecond, hcx]
    · simp [hv]

/-! ### The traps of branches (R121) -/

theorem M.bind_error {α β : Type} {m : M α} {k : α → M β} {s s1 t : State} {a : α} {x : Stop} (hm : m s = .ok a s1)
    (hk : k a s1 = .error x t) : (m >>= k) s = .error x t := by
  show EStateM.bind m k s = _
  simp only [EStateM.bind, hm, hk]

/-- The trap of a branch target: alignment first, then the range. -/
def targetTrap (z : Int) : Trap := addrTrap (if z % 4 ≠ 0 then 0x07 else 0x06) z

/-- The state once a branch has delivered its link, where it has one. -/
def State.linked (s : State) (u : Cur) : Option Dest → State
  | none => s
  | some d => s.delivered u d ((u.pc + 8#56).setWidth 64)

/-- An address that is no instruction's traps as the target of a branch. -/
theorem targetChecks_trap {s : State} {z : Int} (hz : z % 4 ≠ 0 ∨ z < 0 ∨ 2 ^ 56 ≤ z) :
    (do trapIf (decide (z % 4 ≠ 0)) (addrTrap 0x07 z)
        trapIf (decide (z < 0 ∨ 2 ^ 56 ≤ z)) (addrTrap 0x06 z)
        pure (.jump (BitVec.ofInt 56 z)) : M Flow) s = .error (.trap (targetTrap z)) s := by
  by_cases h4 : z % 4 = 0
  · have hr : z < 0 ∨ 2 ^ 56 ≤ z := hz.resolve_left (not_not.2 h4)
    refine M.bind_error (a := ()) (trapIf_ok.2 ⟨decide_eq_false (not_not.2 h4), rfl⟩) ?_
    simp only [hr, decide_true, targetTrap, h4, ne_eq, not_true_eq_false, if_false]
    rfl
  · simp only [h4, ne_eq, not_false_eq_true, decide_true, targetTrap, if_true]
    rfl

/-- A branch to no instruction's address delivers its link, then traps (R121). -/
theorem takeBranch_trap {s : State} {u : Cur} {z : Int} (link : Option Dest) (hm : (s.strmAt u.core u.strm).inMloop u.pc = false)
    (hz : z % 4 ≠ 0 ∨ z < 0 ∨ 2 ^ 56 ≤ z) : takeBranch u z link s = .error (.trap (targetTrap z)) (s.linked u link) := by
  refine M.bind_error (getStrm_ok.2 ⟨rfl, rfl⟩) (M.bind_error (a := ()) (trapIf_ok.2 ⟨hm, rfl⟩) ?_)
  cases link with
  | none => exact targetChecks_trap hz
  | some d => exact M.bind_error (a := ()) (deliver_ok.2 rfl) (targetChecks_trap hz)

theorem targetTrap_now {s t : State} {u : Cur} {z : Int} : (if (targetTrap z).cause = 0x05 ∨ (targetTrap z).cause = 0x12 then s.takeTrap u (targetTrap z)
    else t.takeTrap u (targetTrap z)) = t.takeTrap u (targetTrap z) := by
  refine if_neg ?_
  simp only [targetTrap, addrTrap]
  split <;> decide

theorem bri_trap {g : Guard} {a b : Src} {s s1 : State} {u : Cur} {x y : Word} (h : Runs s u g) (hn : s.trapsNow u)
    (h2 : source2 u a b s = .ok (x, y) s1) (hm : (s1.strmAt u.core u.strm).inMloop u.pc = false)
    (hz : (x.toInt + y.toInt) % 4 ≠ 0 ∨ x.toInt + y.toInt < 0 ∨ 2 ^ 56 ≤ x.toInt + y.toInt) :
    exec (.bri g a b) s = .next (s1.takeTrap u (targetTrap (x.toInt + y.toInt))) := by
  simp only [source2, M.bind_ok, M.pure_ok, Prod.mk.injEq] at h2
  obtain ⟨_, s2, he, x', s3, hx, y', s4, hy, ⟨rfl, rfl⟩, rfl⟩ := h2
  refine (issue_trap h hn (M.bind_error he (M.bind_error hx (M.bind_error hy (takeBranch_trap none hm hz))))).trans ?_
  rw [targetTrap_now]
  rfl

theorem bril_trap {o : ROps} {s s1 : State} {u : Cur} {x y : Word} (h : Runs s u o.g) (hn : s.trapsNow u)
    (h2 : operand2 u o.d o.a o.b s = .ok (x, y) s1) (hm : (s1.strmAt u.core u.strm).inMloop u.pc = false)
    (hz : (x.toInt + y.toInt) % 4 ≠ 0 ∨ x.toInt + y.toInt < 0 ∨ 2 ^ 56 ≤ x.toInt + y.toInt) :
    exec (.bril o) s = .next ((s1.delivered u o.d ((u.pc + 8#56).setWidth 64)).takeTrap u (targetTrap (x.toInt + y.toInt))) := by
  simp only [operand2, source2, M.bind_ok, M.pure_ok, Prod.mk.injEq] at h2
  obtain ⟨_, s0, hd, _, s2, he, x', s3, hx, y', s4, hy, ⟨rfl, rfl⟩, rfl⟩ := h2
  refine (issue_trap h hn (M.bind_error hd (M.bind_error he (M.bind_error hx (M.bind_error hy (takeBranch_trap (some o.d) hm hz)))))).trans ?_
  rw [targetTrap_now]
  rfl

/-! ### The traps of addresses (R157) -/

section
variable {s : State} {c n al : Nat} {a : Int} {fe : Bool}

theorem checkAddr_range (h : a < 0 ∨ 2 ^ 56 < a + n) : checkAddr s c a n al fe = .error (addrTrap 0x06 a) := by
  rw [checkAddr, if_pos h]

theorem checkAddr_align (h0 : 0 ≤ a) (hn : a + n ≤ 2 ^ 56) (h : a % al ≠ 0) : checkAddr s c a n al fe = .error (addrTrap 0x07 a) := by
  obtain ⟨v, rfl⟩ := Int.eq_ofNat_of_zero_le h0
  have hv : v % al ≠ 0 := by exact_mod_cast h
  rw [checkAddr, if_neg (by omega)]
  simp only [Int.toNat_natCast, if_pos hv]

theorem checkAddr_spad (h0 : 0 ≤ a) (hs : a < 0x1000000) (hn : a + n ≤ 2 ^ 56) (h : a % al = 0) : checkAddr s c a n al fe
    = if ((s.core c).spadSize : Int) < a + n then .error (addrTrap 0x0E a) else .ok (.spad a.toNat) := by
  obtain ⟨v, rfl⟩ := Int.eq_ofNat_of_zero_le h0
  have hv : v % al = 0 := by exact_mod_cast h
  have hsize : ((s.core c).spadSize : Int) < v + n ↔ (s.core c).spadSize < v + n := by omega
  rw [checkAddr, if_neg (by omega)]
  simp only [Int.toNat_natCast, hv, ne_eq, not_true_eq_false, if_false, if_pos (show v < 0x1000000 by omega), hsize]

end

/-- Settles O60: the record field by field, then each effect of a trap from the function that takes it. -/
theorem traps : Obligations.Traps := by
  refine ⟨fun r h => ⟨r.length_bytes, r.fields h⟩, fun s s1 c ix un t u ht hp => takeTrapOf_translation ht hp, fun s s1 c ix un t u ht hl hp => ?_,
    fun s x n hold hx _ hl => haltCtx_live hold hx hl, causeHolds_iff, fun v h => Stream.not_live h, fun s c x h => visit_not_live h,
    fun g a b s s1 u x y h hn h2 hm hz => ⟨_, bri_trap h hn h2 hm (.inl hz), ?_, rfl⟩, fun o s s1 u x y z h hn h2 hm he hz => ⟨targetTrap z, ?_, rfl, rfl⟩,
    fun u t s s1 hl => stopAt_trap_waits hl, fun s c n al a fe _ => ⟨checkAddr_range, checkAddr_align, checkAddr_spad⟩⟩
  · rw [takeTrapOf_first ht hl, trapFirst_recorded hp]
    simp only [haltUnit_now, haltUnit_ctx]
    rfl
  · exact if_pos hz
  · subst he
    exact bril_trap h hn h2 hm hz

end Sys2Proof.Machine
end


section
/-!
PROOFS. The machine's own steps of fetching and memory: fetches, performed accesses, late faults, results, acknowledgements, writes at their
homes and requests of other modules (O19).
-/

namespace Sys2Proof.Machine

/-! ### Fetching (R32, R374) -/

/-- The words fetched remember the address they were fetched from. -/
theorem codeWord_pc {s s1 : State} {c : Nat} {pc : VAddr} {f : Fetched} (h : s.codeWord c pc = (s1, .ok f)) : f.pc = pc := by
  unfold State.codeWord at h
  dsimp only at h
  split at h
  · cases h
  · split at h
    · split at h
      · cases h
      · cases h; rfl
    · cases h; rfl

theorem instructionFetch_eq {s s1 : State} {c : Nat} {x : Strm} {f : Fetched} (hj : (s.core c).job.isSome = true)
    (hl : (s.strmAt c x).live = true) (hf : (s.strmAt c x).fetched = none) (hw : s.codeWord c (s.strmAt c x).pc = (s1, .ok f)) :
    exec (.instructionFetch c x) s = .next (s1.modStrm c x (fun v => { v with fetched := some f })) := by
  obtain ⟨j, hj⟩ := Option.isSome_iff_exists.mp hj
  rw [State.strmAt, State.jobAt, hj, Option.getD_some] at hl hf hw
  refine congrArg Host.Outcome.next ?_
  simp only [State.fetchAt, hj, hl, hf, hw]
  rfl

/-! ### Performed accesses and late faults (R99, R370) -/

/-- The oldest access of a stream that performs again is performed for certain: it is the one with index 0. -/
theorem memoryAccessPerformed_replay {s s1 : State} {c : Nat} {x : Strm} {e : LogEnt} {es : List LogEnt} (hj : (s.core c).job.isSome = true)
    (hs : (s.strmAt c x).susp = none) (ht : (s.strmAt c x).trapped = false) (hl : (s.strmAt c x).log.filter (fun e => e.op.own) = e :: es)
    (hr : (s.strmAt c x).replay = true) (hp : s.performLog c x e = (s1, .ok ())) :
    exec (.memoryAccessPerformed c x) s = .next
      (let r := s1.modStrm c x (fun v => { v with replay := v.replay && v.log.any (fun e => e.op.own) })
       let s2 := (r.progressAdv c).postOnce r.now (.resultDelivery c x)
       if (s2.strmAt c x).log.any (fun e => e.op.own) then s2.postOnce (s2.now + 1) (.memoryAccessPerformed c x) else s2) := by
  obtain ⟨j, hj⟩ := Option.isSome_iff_exists.mp hj
  rw [State.strmAt, State.jobAt, hj, Option.getD_some] at hs ht hl hr
  refine congrArg Host.Outcome.next ?_
  simp only [State.performOne, hj, hs, ht, hl, hr, Nat.zero_mod, if_true, List.getElem?_cons_zero, hp]
  rfl

/-- A stream that is neither suspended nor trapped performs its log at a late fault. -/
theorem lateFault_eq {s : State} {c : Nat} {x : Strm} (hj : (s.core c).job.isSome = true) (hs : (s.strmAt c x).susp = none)
    (ht : (s.strmAt c x).trapped = false) : exec (.lateFault c x) s = .next (State.performUpTo c x (s.strmAt c x).log s) := by
  obtain ⟨j, hj⟩ := Option.isSome_iff_exists.mp hj
  have he : s.strmAt c x = j.strm x := by rw [State.strmAt, State.jobAt, hj]; rfl
  rw [he] at hs ht ⊢
  refine congrArg Host.Outcome.next ?_
  simp only [State.lateFaultAt, hj, hs, ht]
  rfl

theorem performUpTo_done {s s1 : State} {c : Nat} {x : Strm} {e : LogEnt} (es : List LogEnt) (hp : s.performLog c x e = (s1, .ok ())) :
    State.performUpTo c x (e :: es) s = State.performUpTo c x es s1 := by
  simp only [State.performUpTo, hp]

theorem performUpTo_fault {s s1 : State} {c : Nat} {x : Strm} {e : LogEnt} {f : AccFault} (es : List LogEnt)
    (hp : s.performLog c x e = (s1, .error f)) : State.performUpTo c x (e :: es) s =
      (s1.takeTrapOf c (.stream x) { f.trap with late := true } (some (e.slot c x))).modStrm c x (fun v => { v with replay := true }) := by
  simp only [State.performUpTo, hp]

/-! ### Delivered results (R183) -/

theorem tget_map {α : Type} {d : α} {f : α → α} (hd : f d = d) (t : Tbl α) (i : Nat) :
    tget d (t.map (fun e => (e.1, f e.2))) i = f (tget d t i) := by
  induction t with
  | nil => exact hd.symm
  | cons e t ih =>
    obtain ⟨k, v⟩ := e
    simp only [List.map_cons, tget, ih]
    split <;> rfl

theorem queueOf_fillQ (j : Job) (id n : Nat) (w : Word) :
    (j.fillQ id w).queueOf n = (j.queueOf n).map (fun v => if v = .resv id then .full w else v) :=
  tget_map (d := []) (f := List.map fun v => if v = QEnt.resv id then QEnt.full w else v) rfl j.q n

theorem queueOf_setStrm (j : Job) (x : Strm) (v : Stream) (n : Nat) : (j.setStrm x v).queueOf n = j.queueOf n := by
  cases x <;> rfl

/-- A core that runs a job runs the changed one. -/
theorem jobAt_modJob {s : State} {c : Nat} (f : Job → Job) (h : (s.core c).job.isSome = true) : (s.modJob c f).jobAt c = f (s.jobAt c) := by
  obtain ⟨j, hj⟩ := Option.isSome_iff_exists.mp h
  rw [State.jobAt, core_modJob_same, State.jobAt, hj]
  rfl

theorem isSome_modJob {s : State} {c : Nat} (f : Job → Job) (h : (s.core c).job.isSome = true) : ((s.modJob c f).core c).job.isSome = true := by
  rwa [core_modJob_same, Option.isSome_map]

theorem jobAt_modStrm {s : State} {c : Nat} (x : Strm) (f : Stream → Stream) (h : (s.core c).job.isSome = true) :
    (s.modStrm c x f).jobAt c = (s.jobAt c).setStrm x (f ((s.jobAt c).strm x)) := jobAt_modJob _ h

theorem strm_fillQ (j : Job) (id : Nat) (w : Word) (x : Strm) : (j.fillQ id w).strm x = j.strm x := by
  cases x <;> rfl

/-- A single result that is due fills the entries reserved for it. -/
theorem resultDelivery_one {s : State} {c tm id : Nat} {x : Strm} {w : Word} (hr : (s.strmAt c x).returned = [(tm, id, .inl w)]) (ht : tm ≤ s.now) :
    exec (.resultDelivery c x) s = .next ((s.modJob c (·.fillQ id w)).modStrm c x
      (fun v => { v with returned := v.returned.filter (fun r => s.now < r.1) })) := by
  refine congrArg Host.Outcome.next ?_
  simp only [State.deliverResults, hr, List.filter_cons, ht, decide_true, if_true, List.filter_nil, List.foldl_cons, List.foldl_nil]
  rfl

/-! ### Acknowledgements (R185, R199) -/

/-- A core that has heard of an acknowledgement. -/
def Core.heard (k : Core) (id : Nat) : Core :=
  { k with
    job := k.job.map (fun j => j.heard id)
    arr := k.arr.map (fun a => { a with acks := a.acks.filter (· != id) })
    wcsld := k.wcsld.map (fun w => (w.1, w.2.1.filter (· != id), w.2.2)) }

theorem heard_adv_nil {j : Job} (id : Nat) (h : j.adv = []) : (j.heard id).adv = [] := by
  simp [Job.heard, allStrms, Job.setStrm, h]

/-- Where no stream waits in an array advance, none of them progresses. -/
theorem foldl_progressAdv_same {l : List (Nat × Core)} (s : State) (h : ∀ e ∈ l, ∀ j, e.2.job = some j → j.adv = []) :
    l.foldl (fun s e => if ((e.2.job.map (·.adv)).getD []).isEmpty then s else s.progressAdv e.1) s = s := by
  refine foldl_same fun e he => if_pos ?_
  cases hj : e.2.job with
  | none => rfl
  | some j => simp [h e he j hj]

/-- Where no stream waits in an array advance, an acknowledgement strikes its number out of the cores and of the requests on their way. -/
theorem ack_cores_remote {s : State} (id : Nat) (h : ∀ e ∈ s.cores, ∀ j, e.2.job = some j → j.adv = []) :
    (s.ack id).cores = s.cores.map (fun e => (e.1, e.2.heard id)) ∧ (s.ack id).remote = s.remote.filter (fun o => o.id != id) := by
  have hadv : ∀ e ∈ s.cores.map (fun e => (e.1, e.2.heard id)), ∀ j, e.2.job = some j → j.adv = [] := by
    intro e he j hj
    obtain ⟨k, hk, rfl⟩ := List.mem_map.1 he
    obtain ⟨i, hi, rfl⟩ := Option.map_eq_some_iff.1 hj
    exact heard_adv_nil id (h k hk i hi)
  constructor
  · refine (foldl_field State.cores (fun t e => ?_) _ _).trans (congrArg State.cores (foldl_progressAdv_same _ hadv))
    split
    · refine foldl_field State.cores (fun t f => ?_) _ _
      split <;> simp
    · rfl
  · refine (foldl_field State.remote (fun t e => ?_) _ _).trans (congrArg State.remote (foldl_progressAdv_same _ hadv))
    split
    · refine foldl_field State.remote (fun t f => ?_) _ _
      split <;> simp
    · rfl

/-- A job that has heard of an acknowledgement waits for it no more. -/
theorem heard_unacked (j : Job) (id : Nat) (x : Strm) : id ∉ ((j.heard id).strm x).unacked ∧ id ∉ (j.heard id).ce.unacked := by
  cases x <;> simp [Job.heard, allStrms, Job.setStrm, Job.strm]

theorem jobAt_heard {s t : State} {id : Nat} (h : t.cores = s.cores.map (fun e => (e.1, e.2.heard id))) (k : Nat) :
    t.jobAt k = (s.jobAt k).heard id := by
  have hc : t.core k = (s.core k).heard id := by
    rw [State.core, h]
    exact tget_map (f := fun e => Core.heard e id) rfl _ k
  rw [State.jobAt, State.jobAt, hc, Core.heard]
  cases (s.core k).job <;> rfl

theorem storeAck_heard {s : State} (c id : Nat) (h : ∀ e ∈ s.cores, ∀ j, e.2.job = some j → j.adv = []) :
    ∃ t, exec (.storeAck c id) s = .next t ∧ (∀ k x, id ∉ (t.strmAt k x).unacked) ∧ (∀ k, id ∉ (t.jobAt k).ce.unacked)
      ∧ ∀ o ∈ t.remote, o.id ≠ id := by
  obtain ⟨hc, hr⟩ := ack_cores_remote id h
  refine ⟨s.ack id, rfl, fun k x => ?_, fun k => ?_, fun o ho => ?_⟩
  · rw [State.strmAt, jobAt_heard hc]
    exact (heard_unacked _ id x).1
  · rw [jobAt_heard hc]
    exact (heard_unacked _ id .sc).2
  · rw [hr, List.mem_filter] at ho
    simpa using ho.2

/-! ### Requests at their homes and requests of other modules (R388, R389, R373) -/

/-- The one request that may be applied is applied, where the machine's free bit does not put it off. -/
theorem homeRequestApply_one {s : State} {b : Nat} {r : HomeReq} (ha : applicable [] (s.base b).reqs = [r]) (hf : Config.freeBit s.free = false) :
    exec (.homeRequestApply b) s = .next
      (let s2 := ({ s with free := s.free + 2 }.modBase b (fun x => { x with reqs := x.reqs.filter (fun q => q.id != r.id) })).applyReq r
       if (s2.base b).reqs.isEmpty then s2 else s2.postOnce (s2.now + 1) (.homeRequestApply b)) := by
  refine congrArg Host.Outcome.next ?_
  simp only [State.homeApply, ha, State.drawBit, hf, List.length_singleton, Nat.mod_one, List.getElem?_cons_zero]
  rfl

theorem remoteRequest_eq (pa : Word) (op : RemoteOp) (s : State) : exec (.remoteRequest pa op) s = .next (s.serveRemote pa.toNat op) := rfl

section
variable {s : State} {pa : Nat}

theorem serveRemote_refused (op : RemoteOp)
    (h : (s.modnum.isNone || s.portsShut (s.partOfLocal (paLocal pa)).1 || !s.physOk (s.partOfLocal (paLocal pa)).1 pa) = true) :
    s.serveRemote pa op = s := by
  unfold State.serveRemote
  exact if_pos h

variable (h : (s.modnum.isNone || s.portsShut (s.partOfLocal (paLocal pa)).1 || !s.physOk (s.partOfLocal (paLocal pa)).1 pa) = false)
include h

theorem serveRemote_write (bs : List Byte) : s.serveRemote pa (.write bs) = (splitLines (paLocal pa) bs).foldl
    (fun s p => s.homeWriteLine (paKey pa) p.1 (fullMask p.2) 0 0) s := by
  rw [State.serveRemote, if_neg (ne_true_of_eq_false h)]

theorem serveRemote_atomic_bad {sub fmt rnd n d cmp} (hb : s.isBad (paLocal pa) = true) :
    s.serveRemote pa (.atomic sub fmt rnd n d cmp) = s.lineError 2 (paLocal pa) (paLocal pa) 0 := by
  rw [State.serveRemote, if_neg (ne_true_of_eq_false h)]
  simp only [hb, if_true]

theorem serveRemote_atomic {sub fmt rnd n d cmp} (hb : s.isBad (paLocal pa) = false) : s.serveRemote pa (.atomic sub fmt rnd n d cmp)
    = s.drawNat.2.homeWriteLine (paKey pa) (paLocal pa) (fullMask (leBytes (atomicNew sub fmt rnd n d cmp (s.drawNat.1 % 65536)
      (leNat ((List.range n).map (fun i => s.homeByte (paKey pa) (paLocal pa + i))))) n)) 0 0 := by
  rw [State.serveRemote, if_neg (ne_true_of_eq_false h)]
  simp only [hb]
  rfl

end

/-- Settles O19: each event of the machine from the function that makes its step. -/
theorem memoryEvents : Obligations.MemoryEvents := by
  refine ⟨fun c x s s1 f hj hl hf hw => ⟨instructionFetch_eq hj hl hf hw, codeWord_pc hw⟩,
    fun c x s s1 e es hj hs ht hl hr hp => ⟨_, memoryAccessPerformed_replay hj hs ht hl hr hp, rfl⟩, fun c x s s1 e es f hj hs ht => ?_,
    fun c x s tm id w hj hr ht => ⟨_, resultDelivery_one hr ht, ?_⟩, fun c id s h => storeAck_heard c id h,
    fun b s r ha hf => ⟨_, homeRequestApply_one ha hf, rfl⟩, ?_⟩
  · rw [lateFault_eq hj hs ht]
    refine ⟨fun hl => ?_, fun hl hp => ?_, fun hl hp => ?_⟩
    · rw [hl]; rfl
    · rw [hl, performUpTo_done [] hp]; rfl
    · rw [hl, performUpTo_fault es hp]
  · have hjob := (jobAt_modStrm x (fun v => { v with returned := v.returned.filter (fun r => s.now < r.1) })
      (isSome_modJob (·.fillQ id w) hj)).trans (by rw [jobAt_modJob _ hj])
    refine ⟨?_, fun n => ?_⟩
    · rw [State.strmAt, hjob, strm_setStrm_same, strm_fillQ, show ((s.jobAt c).strm x).returned = _ from hr]
      exact List.filter_eq_nil_iff.2 (by simpa using ht)
    · rw [hjob, queueOf_setStrm, queueOf_fillQ]
  · rintro pa s l rfl
    refine ⟨fun h op => ?_, fun h => ⟨fun bs => ?_, fun sub fmt rnd n d cmp => ⟨fun hb => ?_, fun hb m hm => ?_⟩⟩⟩
    · rw [remoteRequest_eq, serveRemote_refused op h]
    · rw [remoteRequest_eq, serveRemote_write h]
    · rw [remoteRequest_eq, serveRemote_atomic_bad h hb]
    · rw [remoteRequest_eq, serveRemote_atomic h hb, hm]

end Sys2Proof.Machine
end

section
/-!
PROOFS. Two frames that do not hold as stated (O58, O59), each refuted by a state that the model runs: a placed program's core 0 at issue.
-/

namespace Sys2Proof.Machine

/-! ### Evaluating a body and an instruction -/

/-- The computation answers, with a value and a state that pass a test. -/
def M.answers {α : Type} (m : M α) (s : State) (p : α → State → Bool) : Bool :=
  match m s with
  | .ok a t => p a t
  | .error _ _ => false

theorem M.answers_iff {α : Type} {m : M α} {s : State} {p : α → State → Bool} :
    m.answers s p = true ↔ ∃ a t, m s = .ok a t ∧ p a t = true := by
  unfold M.answers
  cases m s <;> simp

/-- The instruction answers a next state that passes a test. -/
def Instr.leads (i : Instr) (s : State) (p : State → Bool) : Bool :=
  match exec i s with
  | .next t => p t
  | _ => false

theorem Instr.leads_iff {i : Instr} {s : State} {p : State → Bool} : Instr.leads i s p = true ↔ ∃ t, exec i s = .next t ∧ p t = true := by
  unfold Instr.leads
  cases exec i s <;> simp

/-- An instruction without a guard runs where its slot is the current one, its core has a job and its stream is in no loop. -/
theorem Runs.unguarded {s : State} {u : Cur} (hc : s.cur = some u) (hj : (s.core u.core).job.isSome = true)
    (hl : (s.strmAt u.core u.strm).loops = []) : Runs s u ⟨false, 0⟩ :=
  ⟨hc, hj, rfl, by rw [State.loopFree, hl]; trivial⟩

/-- The slot of stream x of core 0. -/
def refSlot (x : Strm) : Cur :=
  { core := 0, strm := x, pc := 0x40000000, word := 0, lit := 0, size := 8, repk := 0, pops := [], poppedRow := none }

/-- Stream x of core 0 at issue, its core and itself changed: the job of a placed program with 64 KiB of scratchpad. -/
def refState (x : Strm) (f : Core → Core) (g : Stream → Stream) : State :=
  { ((State.reset.placeWord 0).modCore 0 (fun k => f { k with ways := 4 })).modStrm 0 x g with cur := some (refSlot x), turn := [] }

/-! ### A vector instruction that reads a stream register (R37, R156, R208) -/

/-- A DATA register whose next block, in translated memory, is not fetched yet. -/
def emptyData : MReg :=
  { data := true, pos := 0, buf := [],
    pat := { base := 0x40000000, str0 := 0, str1 := 0, str2 := 0, str3 := 0, cnt0 := 1, cnt1 := 1, cnt2 := 1, cnt3 := 1, blk := 8 } }

/-- CX with m0 bound to it. -/
def emptyBlock : State := refState .cx id (fun x => { x with m := [(0, some emptyData)] })

/-- A VIADD into v1 whose first source is m0. -/
def addBlock : VOps := { g := ⟨false, 0⟩, d := { reg := some (.v 1), qs := 0 }, a := .m 0, b := .zero, lw := false, k := 0 }

theorem emptyBlock_blocksHere : emptyBlock.blocksHere (refSlot .cx) [addBlock.a, addBlock.b] := by
  have hm : (emptyBlock.strmAt 0 .cx).m = [(0, some emptyData)] := by decide +kernel
  intro n r hn hr b hb
  have h0 : n = 0 := by simpa [addBlock] using hn
  subst h0
  have hr' : some emptyData = some r := by
    rw [show (emptyBlock.strmAt (refSlot .cx).core (refSlot .cx).strm).m = _ from hm] at hr
    exact hr
  cases hr'
  cases hb

/-- Refutes O58: a lane operation takes an `m` code as a source, which no word can name, and a pop of a register with no block buffered makes
the access itself: the core's translation cache is filled. -/
theorem not_registerFrames : ¬ Obligations.RegisterFrames := by
  intro h
  obtain ⟨-, -, -, -, -, -, -, -, -, -, hvec, -⟩ := h
  have hrun : Runs emptyBlock (refSlot .cx) addBlock.g := .unguarded rfl (by decide +kernel) (by decide +kernel)
  obtain ⟨r, s1, hr, -⟩ := M.answers_iff.1 (show M.answers (lanes2 (refSlot .cx) addBlock true false) emptyBlock (fun _ _ => true) = true by
    decide +kernel)
  obtain ⟨t, ht, hcache⟩ := Instr.leads_iff.1 (show Instr.leads (.viadd addBlock) emptyBlock
    (fun t => decide ((t.core 0).tlb ≠ (emptyBlock.core 0).tlb)) = true by decide +kernel)
  have hmem := (hvec addBlock emptyBlock s1 t (refSlot .cx) true r hrun emptyBlock_blocksHere hr (.viadd addBlock) (by simp [vecTwo]) ht).2
  have hsame : (t.core 0).tlb = (emptyBlock.core 0).tlb := (congrArg Core.tlb (hmem.cores 0) :)
  exact of_decide_eq_true hcache hsame

/-! ### An atomic on uncorrectable bytes (R158, R369) -/

/-- SC with s1 = 0x100, the address of an uncorrectable granule of the scratchpad. -/
def badGranule : State := refState .sc (fun k => { k with spadBad := [(0x10, true)] }) (fun x => { x with s := [(1, 0x100)] })

/-- An atomic into s4 at s1. -/
def atBadGranule : AOps := { g := ⟨false, 0⟩, d := { reg := some (.s 4), qs := 0 }, at_ := ⟨.s 1, .zero⟩, scope := .strm, dbl := false }

/-- The first byte of the first record in the trap ring of the placed program's context. -/
def firstRecord : Nat := 0x40100080

/-- Refutes O59: AADD on uncorrectable scratchpad bytes traps with 0x08, and its trap record is written to HBM. -/
theorem not_storeFrames : ¬ Obligations.StoreFrames := by
  intro h
  obtain ⟨-, -, -, -, hatomic, -⟩ := h
  have hrun : Runs badGranule (refSlot .sc) atBadGranule.g := .unguarded rfl (by decide +kernel) (by decide +kernel)
  have hblocks : badGranule.blocksHere (refSlot .sc) [atBadGranule.at_.base, atBadGranule.at_.idx] := by
    intro n r hn
    simp [atBadGranule] at hn
  obtain ⟨ar, s1, har, hp⟩ := M.answers_iff.1 (show M.answers (atomicAddr (refSlot .sc) atBadGranule.d atBadGranule.at_ 4) badGranule
    (fun ar t => !ar.isTrans && M.answers (readDst (refSlot .sc) atBadGranule.d) t (fun _ t' => t' == t)) = true by decide +kernel)
  obtain ⟨hloc, hdst⟩ := Bool.and_eq_true_iff.1 hp
  obtain ⟨d, s2, hd, hs⟩ := M.answers_iff.1 hdst
  cases eq_of_beq hs
  obtain ⟨t, ht, hrec⟩ := Instr.leads_iff.1 (show Instr.leads (.aadd atBadGranule) badGranule
    (fun t => decide (readByte t.hbm firstRecord ≠ readByte badGranule.hbm firstRecord)) = true by decide +kernel)
  obtain ⟨hbytes, -, -⟩ := hatomic atBadGranule badGranule s1 t (refSlot .sc) ar d 4 hrun hblocks rfl har hd (by simpa using hloc)
    (.aadd atBadGranule) (by simp [atomics]) ht
  exact of_decide_eq_true hrec (hbytes.hbm firstRecord)

end Sys2Proof.Machine
end

section
/-!
PROOFS. SYSRD, SYSWR, CNTRD, and what a system register reads as after a write (O6).
-/

namespace Sys2Proof.Machine

/-! ### Steps of a body that answer -/

/-- A step of a body that answers hands its value and its state to the rest. -/
theorem M.bind_run {α β : Type} {m : M α} {k : α → M β} {s s1 t : State} {a : α} {b : β} (hm : m s = .ok a s1) (hk : k a s1 = .ok b t) :
    (m >>= k) s = .ok b t :=
  M.bind_ok.2 ⟨a, s1, hm, hk⟩

theorem M.get_run {s : State} : (get : M State) s = .ok s s := rfl

theorem M.set_run {s t : State} : (set t : M PUnit) s = .ok () t := rfl

theorem needSpace_run {u : Cur} {d : Dest} {s : State} (h : (s.jobAt u.core).noRoom u.strm d = none) : needSpace u d s = .ok () s :=
  needSpace_ok.2 ⟨h, rfl⟩

theorem ensure_run {u : Cur} {rs : List Rd} {s : State} (h : needAll s u {} rs = []) : ensure u rs s = .ok () s :=
  ensure_ok.2 ⟨h, rfl⟩

theorem holdIf_run {w : Wait} {s : State} {c : Bool} (h : c = false) : holdIf c w s = .ok () s := holdIf_ok.2 ⟨h, rfl⟩

theorem trapIf_run {x : Trap} {s : State} {c : Bool} (h : c = false) : trapIf c x s = .ok () s := trapIf_ok.2 ⟨h, rfl⟩

theorem deliver_run {u : Cur} {d : Dest} {w : Word} {s : State} : deliver u d w s = .ok () (s.delivered u d w) := deliver_ok.2 rfl

theorem setFlags_run {u : Cur} {f : Flg} {s : State} : setFlags u f s = .ok () (s.flagged u f) := setFlags_ok.2 rfl

/-! ### SYSRD, SYSWR and CNTRD (R116, R117, R435) -/

theorem sysrd_completes {g : Guard} {d : Dest} {s : State} {u : Cur} (n : BitVec 7) (hr : Runs s u g)
    (hd : (s.jobAt u.core).noRoom u.strm d = none) :
    Completes (.sysrd g d n) s u .next (s.delivered u d (s.sysReg u.core u.strm n.toNat)) :=
  issueNext_ok hr (M.bind_run (needSpace_run hd) (M.bind_run M.get_run deliver_run))

theorem syswr_completes {g : Guard} {b : Src} {s s1 : State} {u : Cur} {w : Word} (n : BitVec 7) (hr : Runs s u g)
    (hs : source1 u b s = .ok w s1) : Completes (.syswr g n b) s u .next (s1.setSysReg u.core u.strm n.toNat w) := by
  obtain ⟨_, _, he, hw⟩ := M.bind_ok.1 hs
  exact issueNext_ok hr (M.bind_run he (M.bind_run hw (M.modify_ok.2 rfl)))

/-- CNTRD delivers the counter that an index in range names. -/
theorem cntrd_completes {o : ROps1} {s s1 : State} {u : Cur} {i : Word} (die : Bool) (hr : Runs s u o.g)
    (ha : operand1 u o.d o.a s = .ok i s1) (hi : i.toNat ≤ if die then 15 else 7) :
    Completes (.cntrd o die) s u .next (s1.delivered u o.d
      (if die then s1.dieCounter (coreDie u.core) (s1.ctxFn (s1.jobAt u.core).ctx) i.toNat
       else s1.sysReg u.core u.strm (0x68 + i.toNat))) := by
  obtain ⟨_, _, hd, hs⟩ := M.bind_ok.1 ha
  obtain ⟨_, _, he, hw⟩ := M.bind_ok.1 hs
  exact issueNext_ok hr (M.bind_run hd (M.bind_run he (M.bind_run hw
    (M.bind_run (trapIf_run (decide_eq_false (Nat.not_lt.2 hi))) (M.bind_run M.get_run deliver_run)))))

/-! ### Banks of registers by their number (R117) -/

section
variable (s : State) (c : Nat) (x : Strm) {n : Nat}

theorem sysReg_fd (h : n < 8) : s.sysReg c x (0x08 + n) = (tget 0 (s.jobAt c).fd n).setWidth 64 := by
  rw [State.sysReg, if_neg (by omega), if_neg (by omega), if_pos (by omega), Nat.add_sub_cancel_left]

theorem sysReg_uwin (h : n < 4) : s.sysReg c x (0x41 + n) = tget 0 (s.jobAt c).uwin n := by
  unfold State.sysReg
  iterate 12 rw [if_neg (by omega)]
  rw [if_pos (by omega), Nat.add_sub_cancel_left]

theorem sysReg_wp (h : n < 4) : s.sysReg c x (0x50 + n) = tget 0 (s.core c).obs.wp n := by
  unfold State.sysReg
  iterate 13 rw [if_neg (by omega)]
  rw [if_pos (by omega), Nat.add_sub_cancel_left]

theorem sysReg_csel (h : n < 8) : s.sysReg c x (0x60 + n) = tget 0 (s.core c).obs.csel n := by
  unfold State.sysReg
  iterate 16 rw [if_neg (by omega)]
  rw [if_pos (by omega), Nat.add_sub_cancel_left]

theorem sysReg_cnt : s.sysReg c x (0x68 + n) = (tget 0 (s.core c).obs.cnt n).setWidth 64 := by
  unfold State.sysReg
  iterate 17 rw [if_neg (by omega)]
  rw [Nat.add_sub_cancel_left]

/-- The observation set-up of a core changed: trace, watchpoints and event counters. -/
def State.modObs (f : Obs → Obs) : State := s.modCore c (fun k => { k with obs := f k.obs })

@[simp] theorem obs_modObs (f : Obs → Obs) : ((s.modObs c f).core c).obs = f (s.core c).obs := by rw [State.modObs, core_modCore_same]

variable (w : Word)

theorem setSysReg_fd (h : n < 8) : s.setSysReg c x (0x08 + n) w = s.modJob c (fun j => { j with fd := tput 0 j.fd n (fdBits w) }) := by
  rw [State.setSysReg, if_neg (by omega), if_pos (by omega), Nat.add_sub_cancel_left]

theorem setSysReg_uwin (h : n < 4) :
    s.setSysReg c x (0x41 + n) w = s.modJob c (fun j => { j with uwin := tput 0 j.uwin n (w &&& 0x00FFFFFFFFFFFFC3) }) := by
  unfold State.setSysReg
  iterate 5 rw [if_neg (by omega)]
  rw [if_pos (by omega), Nat.add_sub_cancel_left]

theorem setSysReg_wp (h : n < 4) : s.setSysReg c x (0x50 + n) w = s.modObs c (fun o => { o with wp := tput 0 o.wp n w }) := by
  unfold State.setSysReg State.modObs
  iterate 6 rw [if_neg (by omega)]
  rw [if_pos (by omega), Nat.add_sub_cancel_left]

theorem setSysReg_csel (h : n < 8) :
    s.setSysReg c x (0x60 + n) w = s.modObs c (fun o => { o with csel := tput 0 o.csel n (selWrite (tget 0 o.csel n) w) }) := by
  unfold State.setSysReg State.modObs
  iterate 9 rw [if_neg (by omega)]
  rw [if_pos (by omega), Nat.add_sub_cancel_left]

theorem setSysReg_cnt : s.setSysReg c x (0x68 + n) w = s.modObs c (fun o => { o with cnt := tput 0 o.cnt n (w.setWidth 48) }) := by
  unfold State.setSysReg State.modObs
  iterate 10 rw [if_neg (by omega)]
  rw [Nat.add_sub_cancel_left]

end

/-! ### What a system register reads as after a write (R79, R235, R284, R428, R429, R436, R439) -/

theorem strmAt_modStrm_same {s : State} {c : Nat} (x : Strm) (f : Stream → Stream) (h : (s.core c).job.isSome = true) :
    (s.modStrm c x f).strmAt c x = f (s.strmAt c x) := by
  rw [State.strmAt, jobAt_modStrm x f h, strm_setStrm_same, State.strmAt]

/-- The fields of a format descriptor lie in the register's low 32 bits (R59). -/
theorem setWidth_fdBits (w : Word) : (fdBits w).setWidth 64 = w &&& 0xFF0311FF := by
  apply BitVec.eq_of_toNat_eq
  have hle : (w &&& 0xFF0311FF).toNat ≤ 0xFF0311FF := by rw [BitVec.toNat_and]; exact Nat.and_le_right
  simp only [fdBits, BitVec.toNat_setWidth]
  omega

section
variable {s : State} {c : Nat} (x : Strm) (w : Word) {n : Nat}

section
variable (h : (s.core c).job.isSome = true)
include h

/-- A flag written with 1 reads 0, another as before. -/
theorem sysReg_asr_written : (s.setSysReg c x 0x00 w).sysReg c x 0x00 = s.sysReg c x 0x00 &&& ~~~w &&& 0x3F :=
  congrArg Stream.asr (strmAt_modStrm_same x (·.clearAsr w) h)

theorem sysReg_rngc_written : (s.setSysReg c x 0x18 w).sysReg c x 0x18 = w &&& 0x00FFFFFFFFFFF07F :=
  congrArg Stream.rngc (strmAt_modStrm_same x (fun v => { v with rngc := w &&& 0x00FFFFFFFFFFF07F }) h)

theorem sysReg_rngp_written : (s.setSysReg c x 0x19 w).sysReg c x 0x19 = w &&& 0x3FFFFFFE :=
  congrArg Stream.rngp (strmAt_modStrm_same x (fun v => { v with rngp := w &&& 0x3FFFFFFE }) h)

theorem sysReg_uwv_written : (s.setSysReg c x 0x40 w).sysReg c x 0x40 = w &&& 0x7F7F :=
  congrArg Job.uwv (jobAt_modJob (fun j => { j with uwv := w &&& 0x7F7F }) h)

/-- A format descriptor reads the same on every stream of the core. -/
theorem sysReg_fd_written (hn : n < 8) (y : Strm) : (s.setSysReg c x (0x08 + n) w).sysReg c y (0x08 + n) = w &&& 0xFF0311FF := by
  rw [setSysReg_fd s c x w hn, sysReg_fd _ c y hn, jobAt_modJob _ h, tget_tput_same, setWidth_fdBits]

theorem sysReg_uwin_written (hn : n < 4) : (s.setSysReg c x (0x41 + n) w).sysReg c x (0x41 + n) = w &&& 0x00FFFFFFFFFFFFC3 := by
  rw [setSysReg_uwin s c x w hn, sysReg_uwin _ c x hn, jobAt_modJob _ h, tget_tput_same]

end

theorem sysReg_wp_written (hn : n < 4) : (s.setSysReg c x (0x50 + n) w).sysReg c x (0x50 + n) = w := by
  rw [setSysReg_wp s c x w hn, sysReg_wp _ c x hn, obs_modObs, tget_tput_same]

theorem sysReg_trc_written : (s.setSysReg c x 0x58 w).sysReg c x 0x58 = w &&& 0x00FFFFFFFFFFFF83 :=
  congrArg Obs.trc (obs_modObs s c (fun o => { o with trc := w &&& 0x00FFFFFFFFFFFF83 }))

theorem sysReg_trp_written : (s.setSysReg c x 0x59 w).sysReg c x 0x59 = w &&& 0x3FFFFFE0 :=
  congrArg Obs.trp (obs_modObs s c (fun o => { o with trp := w &&& 0x3FFFFFE0 }))

theorem sysReg_csel_written (hn : n < 8) : (s.setSysReg c x (0x60 + n) w).sysReg c x (0x60 + n) = selWrite (s.sysReg c x (0x60 + n)) w := by
  rw [setSysReg_csel s c x w hn, sysReg_csel _ c x hn, sysReg_csel _ c x hn, obs_modObs, tget_tput_same]

theorem sysReg_cnt_written : (s.setSysReg c x (0x68 + n) w).sysReg c x (0x68 + n) = (w.setWidth 48).setWidth 64 := by
  rw [setSysReg_cnt, sysReg_cnt, obs_modObs, tget_tput_same]

end

/-- Settles O6: the three instructions from their bodies, and each register from the field that both its read and its write name. -/
theorem systemRegisters : Obligations.SystemRegisters := by
  refine ⟨fun g d n s u hr hd => sysrd_completes n hr hd, fun g n b s s1 u w hr hs => syswr_completes n hr hs,
    fun o s s1 u i hr ha => ⟨cntrd_completes false hr ha, cntrd_completes true hr ha⟩, fun s c x w h => ?_⟩
  exact ⟨rfl, sysReg_asr_written x w h, fun n hn y => sysReg_fd_written x w h hn y, sysReg_rngc_written x w h, sysReg_rngp_written x w h,
    sysReg_uwv_written x w h, fun n hn => sysReg_uwin_written x w h hn, fun n hn => sysReg_wp_written x w hn, sysReg_trc_written x w,
    sysReg_trp_written x w, fun n hn => sysReg_csel_written x w hn, fun n _ => sysReg_cnt_written x w⟩

end Sys2Proof.Machine
end

section
/-!
PROOFS. Lane operations of one source and moves between lanes (O23).
-/

namespace Sys2Proof.Machine

/-! ### Masks, old rows and delivered rows (R39, R130, R207, R211) -/

theorem getMask_run {u : Cur} {k : BitVec 4} {s : State} : getMask u k s = .ok (s.maskOf u k) s := rfl

/-- Reading the row that excluded lanes keep leaves the state. -/
theorem oldRow_run (u : Cur) (d : Dest) (s : State) : ∃ r, oldRow u d s = .ok r s := by
  unfold oldRow
  cases d.reg with
  | none => exact ⟨_, rfl⟩
  | some r => cases r <;> exact ⟨_, rfl⟩

/-- Handing a row on always completes. -/
theorem deliverRow_run (u : Cur) (d : Dest) (r : Row) (lat : Nat) (keep : Bool) (s : State) :
    deliverRow u d r lat keep s = .ok () (s.rowDelivered u d r lat keep) := by
  have h : ∃ t, deliverRow u d r lat keep s = .ok () t := by
    unfold deliverRow
    split <;> split
    all_goals first | exact ⟨_, rfl⟩ | (split <;> exact ⟨_, rfl⟩)
  obtain ⟨t, ht⟩ := h
  rw [State.rowDelivered, ht]

/-- Delivering lanes under a mask always completes. -/
theorem putLanes_run (u : Cur) (d : Dest) (lw : Bool) (k : BitVec 4) (lat : Nat) (f : Nat → Nat × Flg) (s : State) :
    putLanes u d lw k lat f s = .ok () (s.lanesPut u d lw k lat f) := by
  obtain ⟨old, ho⟩ := oldRow_run u d s
  have h : ∃ t, putLanes u d lw k lat f s = .ok () t :=
    ⟨_, M.bind_run getMask_run (M.bind_run ho (M.bind_run setFlags_run (deliverRow_run ..)))⟩
  obtain ⟨t, ht⟩ := h
  rw [State.lanesPut, ht]

/-! ### The shared bodies (R212, R215) -/

theorem vecOp1_next {o : VOps1} {int : Bool} {s s1 : State} {u : Cur} {a : List Nat} (lat : Nat) (op : Nat → Nat) (hr : Runs s u o.g)
    (ha : lanes1 u o int s = .ok a s1) :
    vecOp1 o int lat op s = .next ((s1.lanesPut u o.d o.lw o.k lat (fun i => (op (laneAt a i), 0))).retire u .next) := by
  simp only [lanes1, M.bind_ok, M.pure_ok] at ha
  obtain ⟨_, _, hd, _, _, hw, _, _, he, a, _, ha, rfl, rfl⟩ := ha
  exact issueNext_ok hr (M.bind_run hd (M.bind_run hw (M.bind_run he (M.bind_run ha (putLanes_run ..)))))

theorem moveScalar_next {o : VOps} {s s1 : State} {u : Cur} {a : List Nat} {b : Word} (f : Word → List Nat → Nat → Nat) (hr : Runs s u o.g)
    (ha : laneScalar u o s = .ok (a, b) s1) :
    moveScalar o f s = .next ((s1.lanesPut u o.d o.lw o.k 1 (fun i => (f b a i, 0))).retire u .next) := by
  simp only [laneScalar, M.bind_ok, M.pure_ok, Prod.mk.injEq] at ha
  obtain ⟨_, _, hd, _, _, hw, _, _, he, a, _, ha, b, _, hb, ⟨rfl, rfl⟩, rfl⟩ := ha
  exact issueNext_ok hr (M.bind_run hd (M.bind_run hw (M.bind_run he (M.bind_run ha (M.bind_run hb (putLanes_run ..))))))

theorem vabs_completes {o : VOps1} {int : Bool} {s s1 : State} {u : Cur} {a : List Nat} (hr : Runs s u o.g) (ha : lanes1 u o int s = .ok a s1) :
    Completes (.vabs o int) s u .next (s1.lanesPut u o.d o.lw o.k 1 (fun i =>
      (if int then satImg o.lw (imgInt o.lw (laneAt a i)).natAbs (imgStk o.lw (laneAt a i)) else imgAbs o.lw (laneAt a i), 0))) :=
  vecOp1_next 1 (fun b => if int then satImg o.lw (imgInt o.lw b).natAbs (imgStk o.lw b) else imgAbs o.lw b) hr ha

theorem vneg_completes {o : VOps1} {int : Bool} {s s1 : State} {u : Cur} {a : List Nat} (hr : Runs s u o.g) (ha : lanes1 u o int s = .ok a s1) :
    Completes (.vneg o int) s u .next (s1.lanesPut u o.d o.lw o.k 1 (fun i =>
      (if int then satImg o.lw (-(imgInt o.lw (laneAt a i))) (imgStk o.lw (laneAt a i)) else imgNeg o.lw (laneAt a i), 0))) :=
  vecOp1_next 1 (fun b => if int then satImg o.lw (-(imgInt o.lw b)) (imgStk o.lw b) else imgNeg o.lw b) hr ha

/-! ### Moves of rows, lanes and scalars (R215, R216) -/

/-- The lane that VINS makes of source A (R216). -/
def insLane (u : Cur) (o : VOps) (sel : LaneSel) : M Nat :=
  match sel with
  | .flt => do pure (imgConv false o.lw (← readFloat u o.a))
  | .int => do pure (satImg o.lw (← readScalar u o.a).toInt false)
  | .img => do pure ((← readScalar u o.a).toNat % 2 ^ laneW o.lw)

section
variable {o : VOps} {s s1 s2 : State} {u : Cur} {a b : Row} {x : Word} (hr : Runs s u o.g) (hd : (s.jobAt u.core).noRoom u.strm o.d = none)
include hr hd

/-- VEXT needs no row to write to. -/
theorem vext_completes (w : LaneSel) (he : needAll s u {} [.vec o.a, .scalar o.b] = []) (ha : readVec u o.lw false o.a s = .ok a s1)
    (hx : readScalar u o.b s1 = .ok x s2) :
    Completes (.vext o w) s u .next (s2.delivered u o.d (extLane o.lw w (laneAt (rowLanes o.lw a) (x.toNat % laneN o.lw)))) :=
  issueNext_ok hr (M.bind_run (needSpace_run hd) (M.bind_run (ensure_run he) (M.bind_run ha (M.bind_run hx deliver_run))))

variable (hw : needRowWrite u o.d s = .ok () s)
include hw

theorem vsel_completes (int : Bool) (he : needAll s u {} [.vec o.a, .vec o.b] = []) (ha : readVec u o.lw int o.a s = .ok a s1)
    (hb : readVec u o.lw int o.b s1 = .ok b s2) :
    Completes (.vsel o int) s u .next (s2.rowDelivered u o.d (rowOf o.lw ((rowLanes o.lw a).zipIdx.map (fun p =>
      if (s2.maskOf u o.k).getLsbD p.2 then p.1 else laneAt (rowLanes o.lw b) p.2))) 1) :=
  issueNext_ok hr (M.bind_run (needSpace_run hd) (M.bind_run hw (M.bind_run (ensure_run he) (M.bind_run ha (M.bind_run hb
    (M.bind_run getMask_run (deliverRow_run ..)))))))

theorem vshuf_completes (he : needAll s u {} ([.vec o.a, .vec o.b] ++ dstRd o.d o.k false) = [])
    (ha : readVec u o.lw false o.a s = .ok a s1) (hb : readVec u o.lw true o.b s1 = .ok b s2) :
    Completes (.vshuf o) s u .next (s2.lanesPut u o.d o.lw o.k 1 (fun i =>
      (if imgInt o.lw (laneAt (rowLanes o.lw b) i) < 0 then 0
       else laneAt (rowLanes o.lw a) (imgInt o.lw (laneAt (rowLanes o.lw b) i)).toNat, 0))) :=
  issueNext_ok hr (M.bind_run (needSpace_run hd) (M.bind_run hw (M.bind_run (ensure_run he) (M.bind_run ha (M.bind_run hb (putLanes_run ..))))))

/-- VINS writes the lane that its selector makes of source A. -/
theorem vins_completes {sel : LaneSel} {v : Nat} {s3 : State} (he : needAll s u {} [.scalar o.a, .scalar o.b, .vec (destSrc o.d)] = [])
    (hv : insLane u o sel s = .ok v s1) (hx : readScalar u o.b s1 = .ok x s2) (ho : oldRow u o.d s2 = .ok b s3) :
    Completes (.vins o sel) s u .next
      (s3.rowDelivered u o.d (rowOf o.lw ((rowLanes o.lw b).set (x.toNat % laneN o.lw) v)) 1 true) := by
  cases sel
  all_goals
    obtain ⟨_, _, hw', hp⟩ := M.bind_ok.1 hv
    exact issueNext_ok hr (M.bind_run (needSpace_run hd) (M.bind_run hw (M.bind_run (ensure_run he) (M.bind_run hw' (M.bind_run hp
      (M.bind_run hx (M.bind_run ho (deliverRow_run ..))))))))

end

/-- Settles O23: each instruction runs its body on the operands it has read. -/
theorem vectorMoves : Obligations.VectorMoves := by
  refine ⟨fun o s s1 u a int hr ha => ⟨vecOp1_next 1 id hr ha, vabs_completes hr ha, vneg_completes hr ha⟩,
    fun o s s1 u a b hr ha => ⟨moveScalar_next (fun b a _ => laneAt a (b.toNat % laneN o.lw)) hr ha, moveScalar_next (rotLane o.lw .rot) hr ha,
      moveScalar_next (rotLane o.lw .dn) hr ha, moveScalar_next (rotLane o.lw .up) hr ha⟩, fun o s s1 s2 s3 u a b hr hd hw => ?_⟩
  refine ⟨fun int => vsel_completes hr hd hw int, vshuf_completes hr hd hw, fun x he ha hx w => vext_completes hr hd w he ha hx,
    fun v x he hv hx ho => ⟨?_, ?_⟩, fun v x he hv hx ho => ?_⟩
  · exact vins_completes (sel := .int) hr hd hw he (M.bind_run hv rfl) hx ho
  · exact vins_completes (sel := .img) hr hd hw he (M.bind_run hv rfl) hx ho
  · exact vins_completes (sel := .flt) hr hd hw he (M.bind_run hv rfl) hx ho

end Sys2Proof.Machine
end

section
/-!
PROOFS. Reductions, their landing, latches and prefixes (O26).
-/

namespace Sys2Proof.Machine

/-! ### VRED and its landing (R87, R226, R227) -/

theorem vred_completes {g : Guard} {a : Src} {lw int : Bool} {k : BitVec 4} {s s1 : State} {u : Cur} {r : Row} (rl : BitVec 2) (op : RedOp)
    (hr : Runs s u g) (he : needAll s u {} [.vec a] = []) (ha : readVec u lw int a s = .ok r s1) :
    Completes (.vred g a lw k rl op int) s u .next (s1.startRed u.core rl op int lw (incLanes lw (s.maskOf u k) r)) :=
  issueNext_ok hr (M.bind_run (ensure_run he) (M.bind_run getMask_run (M.bind_run ha (M.modify_ok.2 rfl))))

theorem exec_vredLanding (c : Nat) (s : State) : exec (.vredLanding c) s = .next (s.landReds c) := rfl

/-- A job with landing `r` combined into its latch: the latch written, and a routine's sample told. -/
def Job.landed (j : Job) (r : RedLand) (v : Nat) : Job :=
  { j with
    rl := tput 0 j.rl r.rl.toNat (BitVec.ofNat 36 v)
    micro := j.micro.map (fun m => { m with sample := m.sample.map (fun p =>
      if p.cleared = some r.rl then { p with landed := p.landed ++ [r] } else p) }) }

theorem redl_setStrm (j : Job) (x : Strm) (v : Stream) : (j.setStrm x v).redl = j.redl := by cases x <;> rfl

theorem rl_setStrm (j : Job) (x : Strm) (v : Stream) : (j.setStrm x v).rl = j.rl := by cases x <;> rfl

/-- Flags change neither the reductions under way nor the latches. -/
theorem reds_orAsrAt {s : State} {c : Nat} (x : Strm) (f : Flg) (h : (s.core c).job.isSome = true) :
    ((s.orAsrAt c x f).jobAt c).redl = (s.jobAt c).redl ∧ ((s.orAsrAt c x f).jobAt c).rl = (s.jobAt c).rl := by
  unfold State.orAsrAt
  split
  · exact ⟨rfl, rfl⟩
  · rw [jobAt_modStrm x _ h]
    exact ⟨redl_setStrm .., rl_setStrm ..⟩

/-- The state with its due reductions taken out of flight. -/
def State.redsTaken (s : State) (c : Nat) : State :=
  s.modJob c (fun j => { j with redl := j.redl.filter (fun r => decide (s.now < r.time)) })

theorem jobAt_redsTaken {s : State} {c : Nat} (h : (s.core c).job.isSome = true) : (s.redsTaken c).jobAt c
    = { s.jobAt c with redl := (s.jobAt c).redl.filter (fun r => decide (s.now < r.time)) } := by
  rw [State.redsTaken, jobAt_modJob _ h]

/-- A single reduction that is due lands. -/
theorem landReds_one {s : State} {c : Nat} {r : RedLand} (h : (s.core c).job.isSome = true) (hl : (s.jobAt c).redl = [r]) (ht : r.time ≤ s.now) :
    ∀ v, v = landLatch r (tget 0 (s.jobAt c).rl r.rl.toNat).toNat →
      s.landReds c = ((s.redsTaken c).modJob c (·.landed r v.1)).orAsrAt c .cx (flgIf v.2 flgNV) := by
  obtain ⟨j, hj⟩ := Option.isSome_iff_exists.1 h
  have hl' : j.redl = [r] := by rwa [State.jobAt, hj] at hl
  have hrl : ((s.redsTaken c).jobAt c).rl = (s.jobAt c).rl := by rw [jobAt_redsTaken h]
  rintro v rfl
  rw [← hrl]
  simp only [State.landReds, hj, hl', List.filter_cons, decide_eq_true ht, if_true, List.filter_nil, List.foldl_cons, List.foldl_nil]
  rfl

/-- A reduction that is due leaves the slot and combines into its own latch only. -/
theorem vredLanding_lands {c : Nat} {s : State} {r : RedLand} (h : (s.core c).job.isSome = true) (hl : (s.jobAt c).redl = [r])
    (ht : r.time ≤ s.now) : ∃ t, exec (.vredLanding c) s = .next t ∧ (t.jobAt c).redl = [] ∧ (t.jobAt c).rl
      = tput 0 (s.jobAt c).rl r.rl.toNat (BitVec.ofNat 36 (landLatch r (tget 0 (s.jobAt c).rl r.rl.toNat).toNat).1) := by
  refine ⟨_, (exec_vredLanding c s).trans (congrArg _ (landReds_one h hl ht _ rfl)), ?_⟩
  have htaken : ((s.redsTaken c).core c).job.isSome = true := isSome_modJob _ h
  obtain ⟨hredl, hrl⟩ := reds_orAsrAt .cx (flgIf (landLatch r (tget 0 (s.jobAt c).rl r.rl.toNat).toNat).2 flgNV)
    (isSome_modJob (·.landed r (landLatch r (tget 0 (s.jobAt c).rl r.rl.toNat).toNat).1) htaken)
  rw [hredl, hrl, jobAt_modJob _ htaken, jobAt_redsTaken h]
  exact ⟨by simp [Job.landed, hl, ht], rfl⟩

/-! ### VRMOV (R228) -/

section
variable {g : Guard} {d : Dest} {s : State} {u : Cur} (rl : BitVec 2) (hr : Runs s u g) (hd : (s.jobAt u.core).noRoom u.strm d = none)
include hr hd

theorem vrmov_completes : Completes (.vrmov g d rl none) s u .next (s.delivered u d ((tget 0 (s.jobAt u.core).rl rl.toNat).setWidth 64)) :=
  issueNext_ok hr (M.bind_run (needSpace_run hd) (M.bind_run (getJob_ok.2 ⟨rfl, rfl⟩) (M.bind_run deliver_run rfl)))

theorem vrmov_clears (c : ClrVal) : Completes (.vrmov g d rl (some c)) s u .next
    ((s.delivered u d ((tget 0 (s.jobAt u.core).rl rl.toNat).setWidth 64)).setLatch u.core rl (clrImg c)) :=
  issueNext_ok hr (M.bind_run (needSpace_run hd) (M.bind_run (getJob_ok.2 ⟨rfl, rfl⟩) (M.bind_run deliver_run rfl)))

end

/-! ### VSCAN (R229) -/

section
variable {o : VOps1} {op : RedOp} {excl : Bool} {s s1 : State} {u : Cur} {a : Row} (hr : Runs s u o.g)
  (hd : (s.jobAt u.core).noRoom u.strm o.d = none) (hw : needRowWrite u o.d s = .ok () s)
  (he : needAll s u {} ([.vec o.a] ++ dstRd o.d o.k false) = [])
include hr hd hw he

theorem vscan_float_completes (ha : readVec u o.lw false o.a s = .ok a s1) :
    ∀ t, t = scanSteps (redFlt op o.lw) (laneLg o.lw) 0 (incLanes o.lw (s.maskOf u o.k) a) →
      Completes (.vscan o op false excl) s u .next ((s1.flagged u (flgIf t.2 flgNV)).lanesPut u o.d o.lw o.k (if o.lw then 9 else 8)
        (fun i => (laneAt (scanOut excl (redIdent op o.lw) t.1) i, 0))) := by
  rintro t rfl
  exact issueNext_ok hr (M.bind_run (needSpace_run hd) (M.bind_run hw (M.bind_run (ensure_run he) (M.bind_run getMask_run
    (M.bind_run ha (M.bind_run setFlags_run (putLanes_run ..)))))))

/-- The integer sum draws a free value, which its identity 0 does not use. -/
theorem vscan_sum_completes (ha : readVec u o.lw true o.a s = .ok a s1) :
    ∀ t, t = scanSteps (fun a b => (redInt .sum a b, false)) (laneLg o.lw) 0
        ((incLanes o.lw (s.maskOf u o.k) a).map (·.map (fun b => (imgInt o.lw b, imgStk o.lw b)))) →
      Completes (.vscan o .sum true excl) s u .next ({ s1 with free := s1.free + 1 }.lanesPut u o.d o.lw o.k (if o.lw then 9 else 8)
        (fun i => (laneAt ((scanOut excl ((0 : Int), false) t.1).map (fun (v : Int × Bool) => satImg o.lw v.1 v.2)) i, 0))) := by
  rintro t rfl
  exact issueNext_ok hr (M.bind_run (needSpace_run hd) (M.bind_run hw (M.bind_run (ensure_run he) (M.bind_run getMask_run
    (M.bind_run ha (M.bind_run M.get_run (M.bind_run M.set_run (putLanes_run ..))))))))

end

/-- Settles O26: a reduction from its start to its latch, and the two readers of what it combines. -/
theorem reductions : Obligations.Reductions := by
  refine ⟨fun g a lw int k rl op s s1 u r hr he ha => vred_completes rl op hr he ha, ?_, ?_,
    fun o op excl s s1 u a hr hd hw he => ⟨vscan_float_completes hr hd hw he, ?_⟩⟩
  · intro c s j r hj hl ht
    obtain rfl : s.jobAt c = j := by rw [State.jobAt, hj]; rfl
    obtain ⟨t, hexec, hredl, hrl⟩ := vredLanding_lands (by rw [hj]; rfl) hl ht
    refine ⟨t, hexec, hredl, ?_, fun n hn => ?_⟩
    · rw [hrl, tget_tput_same]
    · rw [hrl, tget_tput_other _ _ _ hn]
  · rintro g d rl s u hr hd v rfl
    exact ⟨vrmov_completes rl hr hd, vrmov_clears rl hr hd⟩
  · rintro ha rfl
    exact vscan_sum_completes hr hd hw he ha

end Sys2Proof.Machine
end

section
/-!
PROOFS. Special functions, softmax, random numbers and the noise source (O27).
-/

namespace Sys2Proof.Machine

/-! ### VSFU and VSMAX (R91, R93, R230 to R232) -/

/-- The special-function unit, once free, is occupied for the cycles that are asked of it. -/
theorem takeSfu_run {u : Cur} {n : Nat} {s : State} (h : (s.core u.core).sfuFree ≤ s.now) : takeSfu u n s = .ok () (s.sfuBusy u n) :=
  M.bind_run M.get_run (M.bind_run (holdIf_run (decide_eq_false (Nat.not_lt.2 h))) M.set_run)

@[simp] theorem jobAt_sfuBusy (s : State) (u : Cur) (n : Nat) : (s.sfuBusy u n).jobAt u.core = s.jobAt u.core := by
  rw [State.jobAt, State.sfuBusy, core_modCore_same, State.jobAt]

@[simp] theorem maskOf_sfuBusy (s : State) (u : Cur) (n : Nat) (k : BitVec 4) : (s.sfuBusy u n).maskOf u k = s.maskOf u k := by
  rw [State.maskOf, jobAt_sfuBusy, State.maskOf]

section
variable {o : VOps1} {s s1 : State} {u : Cur} {a : Row} (hr : Runs s u o.g) (hd : (s.jobAt u.core).noRoom u.strm o.d = none)
  (hw : needRowWrite u o.d s = .ok () s) (hf : (s.core u.core).sfuFree ≤ s.now)
include hr hd hw hf

theorem vsfu_completes (f : SfuFn) (he : needAll s u {} ([.vec o.a] ++ dstRd o.d o.k false) = [])
    (ha : readVec u o.lw false o.a (s.sfuBusy u (laneN o.lw / 32)) = .ok a s1) : Completes (.vsfu o f) s u .next
      (s1.lanesPut u o.d o.lw o.k (4 + laneN o.lw / 32) (fun i => sfuImg f o.lw (laneAt (rowLanes o.lw a) i))) :=
  issueNext_ok hr (M.bind_run (needSpace_run hd) (M.bind_run hw (M.bind_run (ensure_run he) (M.bind_run (takeSfu_run hf)
    (M.bind_run ha (putLanes_run ..))))))

theorem vsmax_completes (he : needAll s u {} [.vec o.a] = [])
    (ha : readVec u o.lw false o.a (s.sfuBusy u (2 * laneN o.lw / 32)) = .ok a s1) :
    ∀ r, r = softmax o.lw (incLanes o.lw (s.maskOf u o.k) a) → Completes (.vsmax o) s u .next
      ((s1.flagged u r.2).rowDelivered u o.d (rowOf o.lw r.1) (14 + 2 * laneN o.lw / 32)) := by
  rintro r rfl
  rw [← maskOf_sfuBusy s u (2 * laneN o.lw / 32)]
  exact issueNext_ok hr (M.bind_run (needSpace_run hd) (M.bind_run hw (M.bind_run (ensure_run he) (M.bind_run (takeSfu_run hf)
    (M.bind_run getMask_run (M.bind_run ha (M.bind_run setFlags_run (deliverRow_run ..))))))))

end

/-! ### VRNG and the draws of a stream (R233 to R236) -/

theorem vrng_completes {g : Guard} {d : Dest} {lw : Bool} {k : BitVec 4} {s s1 : State} {u : Cur} {ds : List Nat} (unif : Bool)
    (hr : Runs s u g) (hd : (s.jobAt u.core).noRoom u.strm d = none) (hw : needRowWrite u d s = .ok () s) (he : needAll s u {} (dstRd d k false) = [])
    (ht : takeDraws u (laneN lw) (if lw then 2 else 4) s = .ok ds s1) :
    Completes (.vrng g d unif lw k) s u .next (s1.lanesPut u d lw k 2 (fun i => (rngLane lw unif (laneAt ds i), 0))) :=
  issueNext_ok hr (M.bind_run (needSpace_run hd) (M.bind_run hw (M.bind_run (ensure_run he) (M.bind_run ht (putLanes_run ..)))))

/-- In the fresh mode draws are those of a grant of the bay's source (R235, R236). -/
theorem takeDraws_fresh {u : Cur} {n by_ : Nat} {s : State} (hn : 0 < n) (hm : ringMode (s.strmAt u.core u.strm).rngc = 0) :
    takeDraws u n by_ s = grantDraws u n by_ s := by
  show (if n = 0 then pure [] else if ringMode (s.strmAt u.core u.strm).rngc = 0 then grantDraws u n by_ else _ : M (List Nat)) s = _
  rw [if_neg hn.ne', if_pos hm]

/-- The draws that a granted request hands out, each of `by_` bytes of the bay's source. -/
def State.granted (s : State) (u : Cur) (n by_ : Nat) : State × List Nat :=
  (s.modBay (coreBay u.core) (fun y => { y with noiseGrant := none })).sourceDraws (coreBay u.core) n by_

theorem length_granted (s : State) (u : Cur) (n by_ : Nat) : (s.granted u n by_).2.length = n := by
  simp [State.granted, State.sourceDraws]

theorem bay_granted (s : State) (u : Cur) (n by_ : Nat) : (s.granted u n by_).1.bay (coreBay u.core)
    = { s.bay (coreBay u.core) with noiseGrant := none, noisePtr := (s.bay (coreBay u.core)).noisePtr + n * (by_ / 2) } := by
  simp [State.granted, State.sourceDraws]

/-- A stream keeps no draws once they are handed out; that of a core without a job has none. -/
theorem drawn_modStrm_nil (s : State) (c : Nat) (x : Strm) : ((s.modStrm c x (fun v => { v with drawn := [] })).strmAt c x).drawn = [] := by
  cases hj : (s.core c).job with
  | some j => rw [State.strmAt, jobAt_modStrm x _ (by rw [hj]; rfl), strm_setStrm_same]
  | none =>
    have hnone : (s.modStrm c x (fun v => { v with drawn := [] })).jobAt c = emptyJob := by
      rw [State.jobAt, State.modStrm, core_modJob_same, hj]
      rfl
    rw [State.strmAt, hnone]
    cases x <;> rfl

section
variable {u : Cur} {n by_ : Nat} {s : State}
  (hg : (s.bay (coreBay u.core)).noiseGrant = some (8 * (u.core % 4) + strmNum u.strm))
include hg

/-- The last grant completes the draws (R234). -/
theorem grantDraws_last (hl : n ≤ (s.strmAt u.core u.strm).drawn.length + 256) :
    grantDraws u n by_ s = .ok ((s.strmAt u.core u.strm).drawn ++ (s.granted u (n - (s.strmAt u.core u.strm).drawn.length) by_).2)
      ((s.granted u (n - (s.strmAt u.core u.strm).drawn.length) by_).1.modStrm u.core u.strm (fun x => { x with drawn := [] })) := by
  refine M.bind_run M.get_run ?_
  rw [if_pos hg, if_neg (Nat.not_lt.2 hl)]
  rfl

/-- More draws than one grant has are asked for again (R234). -/
theorem grantDraws_more (hl : (s.strmAt u.core u.strm).drawn.length + 256 < n) :
    grantDraws u n by_ s = .error (.ask (.moreNoise by_) .draw) s := by
  refine M.bind_error M.get_run ?_
  rw [if_pos hg, if_pos hl]
  rfl

end

/-! ### The noise source (R234) -/

theorem exec_noiseGrant (b : Nat) (s : State) : exec (.noiseGrant b) s = .next (s.noiseServe b) := rfl

@[simp] theorem bay_postOnce (s : State) (t : Nat) (i : Instr) (b : Nat) : (s.postOnce t i).bay b = s.bay b := by simp [State.bay]

/-- The turns of a bay's cores, begun at any one, reach each of them. -/
theorem findSome_turn {α : Type} (k : Nat) {a : Nat} (r : α) (h : a < 4) :
    (List.range 4).findSome? (fun i => if a = (k + i) % 4 then some r else none) = some r := by
  cases hf : (List.range 4).findSome? (fun i => if a = (k + i) % 4 then some r else none) with
  | none =>
    have hno := List.findSome?_eq_none_iff.1 hf ((a + 4 - k % 4) % 4) (List.mem_range.2 (Nat.mod_lt _ (by decide)))
    rw [if_pos (by omega)] at hno
    cases hno
  | some x =>
    obtain ⟨i, -, hi⟩ := List.exists_of_findSome?_eq_some hf
    split at hi
    · exact hi.symm
    · cases hi

/-- A healthy source without a standing grant grants a single request. -/
theorem noiseServe_one {b r : Nat} {s : State} (hok : (s.bay b).noiseOk = true) (hreq : (s.bay b).noiseReq = [r])
    (hg : (s.bay b).noiseGrant = none) (hr : r / 8 < 4) : s.noiseServe b = (s.postOnce (s.now + 1) (.noiseGrant b)).modBay b
      (fun y => { y with noiseReq := [], noiseGrant := some r, noiseNext := (r / 8 + 1) % 4 }) := by
  simp [State.noiseServe, hok, hreq, hg, findSome_turn _ _ hr]

theorem noiseGrant_one {b r : Nat} {s : State} (hok : (s.bay b).noiseOk = true) (hreq : (s.bay b).noiseReq = [r])
    (hg : (s.bay b).noiseGrant = none) (hr : r / 8 < 4) :
    ∃ t, exec (.noiseGrant b) s = .next t ∧ (t.bay b).noiseGrant = some r ∧ (t.bay b).noiseReq = [] :=
  ⟨_, (exec_noiseGrant b s).trans (congrArg _ (noiseServe_one hok hreq hg hr)), by rw [bay_modBay_same], by rw [bay_modBay_same]⟩

/-- Settles O27: each body runs on its operands, and the source serves what stands at its bay. -/
theorem specialFunctionsAndNoise : Obligations.SpecialFunctionsAndNoise := by
  refine ⟨fun o s s1 u a hr hd hw hf => ⟨vsfu_completes hr hd hw hf, vsmax_completes hr hd hw hf⟩,
    fun g d unif lw k s s1 u ds hr hd hw he ht => vrng_completes unif hr hd hw he ht, ?_, fun b r s => noiseGrant_one⟩
  rintro u n by_ s hn hm hg old rfl hlen
  rw [takeDraws_fresh hn hm]
  refine ⟨fun hl => ⟨_, _, grantDraws_last hg hl, ?_, List.prefix_append .., drawn_modStrm_nil .., ?_, ?_⟩, grantDraws_more hg⟩
  · rw [List.length_append, length_granted, Nat.add_sub_cancel' hlen]
  · exact congrArg Bay.noiseGrant (bay_granted ..)
  · exact congrArg Bay.noisePtr (bay_granted ..)

end Sys2Proof.Machine
end

section
/-!
PROOFS. Array commands: K-steps, MZERO, stalls on a sparsity queue, and completion (O30).
-/

namespace Sys2Proof.Machine

/-! ### What entering and counting leave of the cores -/

theorem core_of_cores {s t : State} (h : t.cores = s.cores) (c : Nat) : t.core c = s.core c := by rw [State.core, h, State.core]

theorem jobAt_of_job {s t : State} {c : Nat} (h : (t.core c).job = (s.core c).job) : t.jobAt c = s.jobAt c := by rw [State.jobAt, h, State.jobAt]

theorem postEarly_core (s : State) (t : Nat) (i : Instr) (c : Nat) : (s.postEarly t i).core c = s.core c := rfl

@[simp] theorem raiseN_cores (s : State) (fn vec k : Nat) : (s.raiseN fn vec k).cores = s.cores := by
  induction k generalizing s with
  | zero => rfl
  | succ k ih => exact ih _

@[simp] theorem countDie_cores (s : State) (d ctx code : Nat) (q : Nat → Nat) : (s.countDie d ctx code q).cores = s.cores := by
  unfold State.countDie
  dsimp only
  repeat' split
  all_goals simp

@[simp] theorem countCore_now (s : State) (c code : Nat) (q : Nat → Nat) : (s.countCore c code q).now = s.now := by
  unfold State.countCore
  dsimp only
  repeat' split
  all_goals simp

/-- Counting an event changes no command. -/
@[simp] theorem arr_countCore (s : State) (c code : Nat) (q : Nat → Nat) (i : Nat) : ((s.countCore c code q).core i).arr = (s.core i).arr := by
  unfold State.countCore
  dsimp only
  split
  · rfl
  · split
    · rfl
    · rw [core_raiseN, core_setCore]
      split
      · subst i; rfl
      · rfl

@[simp] theorem kickRetire_cores (s : State) (c : Nat) : (s.kickRetire c).cores = s.cores := by
  unfold State.kickRetire
  split
  · split <;> simp
  · rfl

@[simp] theorem core_modArr (s : State) (c id : Nat) (f : ArrCmd → ArrCmd) :
    (s.modArr c id f).core c = { s.core c with arr := mapIf (fun a => a.id == id) f (s.core c).arr } := by
  rw [State.modArr, core_modCore_same]

/-- A change of the command by its own identifier. -/
theorem mapIf_own (f : ArrCmd → ArrCmd) {a : ArrCmd} {id : Nat} (h : a.id = id) : mapIf (fun x => x.id == id) f [a] = [f a] := by
  simp [mapIf, h]

/-- A command that has left the input completes after its latency (R240, R257). -/
theorem core_arrLeave (s : State) (b c id lat : Nat) : (s.arrLeave b c id lat).core c = { s.core c with
    arr := mapIf (fun a => a.id == id) (fun a => { a with left := true, leftAt := s.now, completes := some (s.now + lat) }) (s.core c).arr } :=
  core_modArr ..

/-! ### The command that the array serves (R240) -/

theorem nextArr_single {k : Core} {now : Nat} {a : ArrCmd} (hm : a.isMret = false) (hl : a.left = false) (hk : k.arr = [a])
    (hi : a.issued + 2 ≤ now) : k.nextArr now = some a := by
  have hf : k.arr.find? (fun a => !a.isMret && !a.left) = some a := by rw [hk, List.find?_cons_of_pos (by rw [hm, hl]; rfl)]
  have hw : k.arr.takeWhile (fun b => b.id != a.id) = [] := by rw [hk, List.takeWhile_cons_of_neg (by simp)]
  simp only [Core.nextArr, hf, hw]
  rw [if_pos (.inr (by simp [mayEnter, hi]))]

theorem nextArr_empty {k : Core} {now : Nat} (hk : k.arr = []) : k.nextArr now = none := by
  simp only [Core.nextArr, hk, List.find?_nil]

/-- A list with one place that answers. -/
theorem filterMap_range_one {α : Type} {f : Nat → Option α} {n i : Nat} {x : α} (hi : i < n) (hx : f i = some x)
    (h : ∀ k < n, k ≠ i → f k = none) : (List.range n).filterMap f = [x] := by
  induction n with
  | zero => omega
  | succ n ih =>
    rw [List.range_succ, List.filterMap_append]
    by_cases hn : i = n
    · subst hn
      have hno : (List.range i).filterMap f = [] := List.filterMap_eq_nil_iff.2 fun k hk =>
        h k (by have := List.mem_range.1 hk; omega) (by have := List.mem_range.1 hk; omega)
      rw [hno, List.filterMap_cons_some hx]
      rfl
    · rw [ih (by omega) fun k hk => h k (by omega), List.filterMap_cons_none (h n (by omega) (Ne.symm hn))]
      rfl

theorem enterUpTo_one (b c : Nat) (a : ArrCmd) (s : State) : State.enterUpTo b c 1 a s = (s.enterOne b c a).1 := by
  rw [State.enterUpTo]
  split
  · rename_i h; rw [h, State.enterUpTo]
  · rename_i h; rw [h]

theorem exec_kStepEntry (b : Nat) (s : State) : exec (.kStepEntry b) s = .next (s.arrayCycle b) := rfl

section
variable {b i : Nat} {s : State} {a : ArrCmd} (hi : i < 4) (ha : (s.core (4 * b + i)).arr = [a])
  (ho : ∀ k < 4, k ≠ i → (s.core (4 * b + k)).arr = []) (he : (s.bay b).entering = none ∨ (s.bay b).entering = some (4 * b + i))
  (hl : a.left = false) (ht : a.issued + 2 ≤ s.now)
include hi ha ho he hl ht

/-- The only command of a bay is the one its array serves. -/
theorem arrPick_only (hm : a.isMret = false) : s.arrPick b = some (4 * b + i, a) := by
  have hcs : (List.range 4).filterMap (fun i => ((s.core (4 * b + i)).nextArr s.now).map (fun a => (4 * b + i, a))) = [(4 * b + i, a)] :=
    filterMap_range_one hi (by rw [nextArr_single hm hl ha ht]; rfl) fun k hk hn => by rw [nextArr_empty (ho k hk hn)]; rfl
  simp only [State.arrPick, hcs]
  obtain he | he := he <;> simp [he]

/-- The array enters one step of the only command of its bay: what the cycle does to the cores. -/
theorem kStepEntry_enters (hm : a.isMret = false) (hp : a.perCycle = 1) (hpace : ∀ last, a.paced s.now last = true) (hthr : s.throttle = false) :
    ∃ t, exec (.kStepEntry b) s = .next t
      ∧ t.cores = ((s.postEarly (s.now + 1) (.kStepEntry b)).enterOne b (4 * b + i) a).1.cores := by
  refine ⟨_, exec_kStepEntry b s, ?_⟩
  have hbusy : (List.range 4).any (fun i => (s.core (4 * b + i)).arr.any (fun a => !a.isMret && !a.left)) = true :=
    List.any_eq_true.2 ⟨i, List.mem_range.2 hi, by rw [ha]; simp [hm, hl]⟩
  have hpick : (s.postEarly (s.now + 1) (.kStepEntry b)).arrPick b = some (4 * b + i, a) := arrPick_only hi ha ho he hl ht hm
  simp only [State.arrayCycle, hbusy, postEarly_throttle, hthr, Bool.not_true, Bool.false_eq_true, if_false, hpick, postEarly_now, hpace,
    if_true, hp, enterUpTo_one]
  split
  · rw [countDie_cores]
  · rfl

end

/-! ### MZERO (R240, R257) -/

/-- A job whose 64 rows of a region are cleared. -/
def Job.zeroed (j : Job) (base : Nat) : Job := (List.range 64).foldl (fun j r => j.setRow (base + r) 0) j

/-- Rows written one after the other are entries of the row table written. -/
theorem v_foldl_setRow (base : Nat) (v : Nat → Row) (l : List Nat) (j : Job) :
    (l.foldl (fun j r => j.setRow (base + r) (v r)) j).v = l.foldl (fun t r => tput 0 t (base + r) (v r)) j.v := by
  induction l generalizing j with
  | nil => rfl
  | cons r l ih => exact ih _

theorem row_zeroed (j : Job) (base n : Nat) : (j.zeroed base).row n = if base ≤ n ∧ n < base + 64 then 0 else j.row n := by
  have hfold : (j.zeroed base).v = ((List.range 64).map (base + ·)).foldl (fun t k => tput 0 t k 0) j.v := by
    rw [Job.zeroed, v_foldl_setRow base (fun _ => 0), List.foldl_map]
  have hmem : n ∈ (List.range 64).map (base + ·) ↔ base ≤ n ∧ n < base + 64 := by
    simp only [List.mem_map, List.mem_range]
    exact ⟨fun ⟨r, hr, hn⟩ => by omega, fun h => ⟨n - base, by omega, by omega⟩⟩
  rw [Job.row, hfold, tget_foldl_tput 0 (fun _ => 0)]
  simp only [hmem, Job.row]

theorem enterOne_mzero {s : State} {b c : Nat} {a : ArrCmd} (h : a.kind = .mzero) :
    (s.enterOne b c a).1 = (s.modJob c (·.zeroed (if a.acc then 64 else 0))).arrLeave b c a.id 4 := by
  simp only [State.enterOne, h]
  rfl

/-- MZERO clears its region and completes 4 cycles later. -/
theorem core_enterOne_mzero {s : State} (b : Nat) {c : Nat} {a : ArrCmd} (h : a.kind = .mzero) (ha : (s.core c).arr = [a]) :
    ((s.enterOne b c a).1.core c).job = (s.core c).job.map (·.zeroed (if a.acc then 64 else 0))
    ∧ ((s.enterOne b c a).1.core c).arr.map (·.completes) = [some (s.now + 4)] := by
  rw [enterOne_mzero h, core_arrLeave, core_modJob_same, ha, mapIf_own _ rfl]
  exact ⟨rfl, rfl⟩

/-! ### K-steps of dense operands (R240, R257) -/

/-- A K-step writes rows of its job, and nothing else. -/
theorem kStep_modJob (s : State) (c : Nat) (a : ArrCmd) (n : Nat) (masks : BitVec 512) : ∃ f, (s.kStep c a n masks).1 = s.modJob c f := ⟨_, rfl⟩

/-- What a K-step does does not depend on the events that are due. -/
theorem kStep_postEarly (s : State) (t : Nat) (i : Instr) (c : Nat) (a : ArrCmd) (n : Nat) (masks : BitVec 512) :
    (s.postEarly t i).kStep c a n masks = ((s.kStep c a n masks).1.postEarly t i, (s.kStep c a n masks).2) := rfl

/-- A command one step further. -/
def ArrCmd.stepped (a : ArrCmd) (nv : Bool) : ArrCmd := { a with step := a.step + 1, nv := a.nv || nv }

/-- One K-step of a dense command: its rows, the array's registers, and the command one step further. -/
def State.denseStep (s : State) (b c : Nat) (a : ArrCmd) : State :=
  (((s.kStep c a 0 0).1.modBay b (fun y => { y with
      stalled := 0, lastEntry := some s.now, entering := some c, bankAt := s.now
      banks := (if y.bankAt = s.now then y.banks else []) ++ State.stepBanks a 0 })).modArr c a.id
    (fun _ => a.stepped (s.kStep c a 0 0).2)).countStep c

theorem enterOne_dense {s : State} {b c : Nat} {a : ArrCmd} (h : a.kind = .mma 0) :
    (s.enterOne b c a).1 = if a.step + 1 = a.ks then (s.denseStep b c a).arrLeave b c a.id 12 else s.denseStep b c a := by
  simp only [State.enterOne, State.denseStep, ArrCmd.stepped, h, ne_eq, not_true_eq_false, false_and, if_false, if_true, List.headD_nil,
    apply_ite Prod.fst]
  rfl

theorem denseStep_now (s : State) (b c : Nat) (a : ArrCmd) : (s.denseStep b c a).now = s.now := by
  rw [State.denseStep, State.countStep, countCore_now]
  rfl

theorem job_denseStep (s : State) (b c : Nat) (a : ArrCmd) : ((s.denseStep b c a).core c).job = ((s.kStep c a 0 0).1.core c).job := by
  rw [State.denseStep, State.countStep, job_countCore, core_modArr]
  rfl

theorem arr_denseStep {s : State} (b : Nat) {c : Nat} {a : ArrCmd} (ha : (s.core c).arr = [a]) :
    ((s.denseStep b c a).core c).arr = [a.stepped (s.kStep c a 0 0).2] := by
  obtain ⟨f, hf⟩ := kStep_modJob s c a 0 0
  have harr : ((s.kStep c a 0 0).1.core c).arr = [a] := by rw [hf, core_modJob_same, ha]
  rw [State.denseStep, State.countStep, arr_countCore, core_modArr]
  exact (congrArg (mapIf _ _) harr).trans (mapIf_own _ rfl)

/-- A dense step: the rows of the K-step, and the command one step further, completing 12 cycles after its last. -/
theorem core_enterOne_dense {s : State} (b : Nat) {c : Nat} {a : ArrCmd} (h : a.kind = .mma 0) (ha : (s.core c).arr = [a]) :
    (((s.enterOne b c a).1.core c).job = ((s.kStep c a 0 0).1.core c).job)
    ∧ ((s.enterOne b c a).1.core c).arr.map (fun x => (x.step, x.nv, x.completes))
      = [(a.step + 1, a.nv || (s.kStep c a 0 0).2, if a.step + 1 = a.ks then some (s.now + 12) else a.completes)] := by
  rw [enterOne_dense h]
  split
  · rw [core_arrLeave, arr_denseStep b ha, denseStep_now]
    exact ⟨job_denseStep .., by rw [mapIf_own _ (show (a.stepped _).id = a.id from rfl)]; rfl⟩
  · rw [arr_denseStep b ha]
    exact ⟨job_denseStep .., rfl⟩

/-! ### Stalls and completion (R240, R255, R257) -/

theorem exec_sparsityStallTimeout (b : Nat) (s : State) : exec (.sparsityStallTimeout b) s = .next (s.sparsityExpire b) := rfl

theorem sparsityStallTimeout_early {b : Nat} {s : State} (h : (s.bay b).stalled < 2 ^ 24) : exec (.sparsityStallTimeout b) s = .next s := by
  rw [exec_sparsityStallTimeout, State.sparsityExpire, waitLimit, if_pos h]

theorem sparsityStallTimeout_idle {b : Nat} {s : State} (h : 2 ^ 24 ≤ (s.bay b).stalled) (hp : s.arrPick b = none) :
    exec (.sparsityStallTimeout b) s = .next s := by
  rw [exec_sparsityStallTimeout, State.sparsityExpire, waitLimit, if_neg (Nat.not_lt.2 h), hp]

theorem sparsityStallTimeout_stops {b c : Nat} {s : State} {a : ArrCmd} (h : 2 ^ 24 ≤ (s.bay b).stalled) (hp : s.arrPick b = some (c, a)) :
    exec (.sparsityStallTimeout b) s = .next (s.stopGroup b c a 3) := by
  rw [exec_sparsityStallTimeout, State.sparsityExpire, waitLimit, if_neg (Nat.not_lt.2 h), hp]

theorem exec_arrayCommandComplete (c : Nat) (s : State) : exec (.arrayCommandComplete c) s = .next (s.arrDone c) := rfl

@[simp] theorem arr_orAsrAt (s : State) (c : Nat) (x : Strm) (f : Flg) : ((s.orAsrAt c x f).core c).arr = (s.core c).arr := by
  unfold State.orAsrAt
  split
  · rfl
  · rw [State.modStrm, core_modJob_same]

theorem asr_orAsrAt {s : State} {c : Nat} (x : Strm) (f : Flg) (h : (s.core c).job.isSome = true) :
    ((s.orAsrAt c x f).strmAt c x).asr = ((s.strmAt c x).orAsr f).asr := by
  unfold State.orAsrAt
  split
  · rename_i hf
    simp [Stream.orAsr, hf]
  · rw [strmAt_modStrm_same x _ h]

/-- A single command that is due leaves, its NV in CX's status. -/
theorem arrDone_one {c tm : Nat} {s : State} {a : ArrCmd} (ha : (s.core c).arr = [a]) (hm : a.isMret = false)
    (hc : a.completes = some tm) (ht : tm ≤ s.now) :
    s.arrDone c = ((s.modCore c (fun k => { k with arr := [] })).orAsrAt c .cx (flgIf a.nv flgNV)).kickRetire c := by
  simp [State.arrDone, State.modCore, ha, hm, hc, ht]

theorem arrayCommandComplete_one {c tm : Nat} {s : State} {a : ArrCmd} (hj : (s.core c).job.isSome = true) (ha : (s.core c).arr = [a])
    (hm : a.isMret = false) (hc : a.completes = some tm) (ht : tm ≤ s.now) :
    ∃ t, exec (.arrayCommandComplete c) s = .next t ∧ (t.core c).arr = []
      ∧ (t.strmAt c .cx).asr = ((s.strmAt c .cx).orAsr (if a.nv then flgNV else 0)).asr := by
  have hcore := core_modCore_same s c (fun k => { k with arr := [] })
  have hjob : ((s.modCore c (fun k => { k with arr := [] })).core c).job = (s.core c).job := by rw [hcore]
  refine ⟨_, (exec_arrayCommandComplete c s).trans (congrArg _ (arrDone_one ha hm hc ht)), ?_, ?_⟩
  · rw [core_of_cores (kickRetire_cores ..), arr_orAsrAt, hcore]
  · rw [State.strmAt, jobAt_of_job (congrArg Core.job (core_of_cores (kickRetire_cores ..) c)), ← State.strmAt, asr_orAsrAt _ _ (hjob ▸ hj),
      State.strmAt, jobAt_of_job hjob, ← State.strmAt, flgIf]

/-- MZERO and dense steps enter one a cycle, in any cycle. -/
theorem single_step_of_kind {a : ArrCmd} (h : a.kind = .mzero ∨ a.kind = .mma 0) :
    a.isMret = false ∧ a.perCycle = 1 ∧ ∀ now last, a.paced now last = true := by
  obtain h | h := h <;> simp [ArrCmd.isMret, ArrCmd.perCycle, ArrCmd.paced, h]

/-- Settles O30: the array serves the only command of its bay, whose step is what the two kinds make of it; a stall and a completion act on
the command they find. -/
theorem arrayExecution : Obligations.ArrayExecution := by
  refine ⟨fun b i s a hi hj ha ho he hl ht hthr => ?_, fun b c s a => ⟨sparsityStallTimeout_early, sparsityStallTimeout_idle,
    sparsityStallTimeout_stops⟩, fun c tm s a => arrayCommandComplete_one⟩
  have enters : a.kind = .mzero ∨ a.kind = .mma 0 → ∃ t, exec (.kStepEntry b) s = .next t
      ∧ t.cores = ((s.postEarly (s.now + 1) (.kStepEntry b)).enterOne b (4 * b + i) a).1.cores := fun hk =>
    have ⟨hm, hp, hpace⟩ := single_step_of_kind hk
    kStepEntry_enters hi ha ho he hl ht hm hp (hpace s.now) hthr
  refine ⟨fun hk => ?_, fun hk => ?_⟩
  · obtain ⟨t, hexec, hcores⟩ := enters (.inl hk)
    obtain ⟨hjob, harr⟩ := core_enterOne_mzero (s := s.postEarly (s.now + 1) (.kStepEntry b)) b hk ha
    rw [← core_of_cores hcores] at hjob harr
    refine ⟨t, hexec, fun r => ?_, harr⟩
    have hz : t.jobAt (4 * b + i) = (s.jobAt (4 * b + i)).zeroed (if a.acc then 64 else 0) := by
      obtain ⟨j, hj⟩ := Option.isSome_iff_exists.1 hj
      rw [State.jobAt, hjob, State.jobAt, postEarly_core, hj, Option.map_some, Option.getD_some, Option.getD_some]
    rw [hz, row_zeroed]
  · obtain ⟨t, hexec, hcores⟩ := enters (.inr hk)
    obtain ⟨hjob, harr⟩ := core_enterOne_dense (s := s.postEarly (s.now + 1) (.kStepEntry b)) b hk ha
    rw [← core_of_cores hcores] at hjob harr
    rw [kStep_postEarly] at hjob harr
    exact ⟨t, hexec, congrArg Job.v (jobAt_of_job (s := (s.kStep (4 * b + i) a 0 0).1) hjob), harr⟩

end Sys2Proof.Machine
end

section
/-!
PROOFS. What integer operations make of words, bit by bit (R107 to R110).
-/

namespace Sys2Proof.Machine

theorem wmulh_eq (x y : Word) : wmulh x y = (x.signExtend 128 * y.signExtend 128).extractLsb' 64 64 := by
  have hx := BitVec.toInt_signExtend_of_le (x := x) (v := 128) (by omega)
  have hy := BitVec.toInt_signExtend_of_le (x := y) (v := 128) (by omega)
  have hp : x.toInt * y.toInt = (x.signExtend 128 * y.signExtend 128).toInt := by
    have hle := BitVec.toInt_mul_toInt_le (x := x) (y := y)
    have hge := BitVec.le_toInt_mul_toInt (x := x) (y := y)
    rw [BitVec.toInt_mul, hx, hy, Int.bmod_eq_of_le (by omega) (by omega)]
  apply BitVec.eq_of_toNat_eq
  rw [wmulh, hp, BitVec.extractLsb'_toNat, BitVec.toNat_ofInt, BitVec.toInt_eq_toNat_cond, Nat.shiftRight_eq_div_pow]
  split <;> omega

theorem wmulhu_eq (x y : Word) : wmulhu x y = (x.setWidth 128 * y.setWidth 128).extractLsb' 64 64 := by
  have hlt : x.toNat * y.toNat < 2 ^ 64 * 2 ^ 64 := Nat.mul_lt_mul'' x.isLt y.isLt
  apply BitVec.eq_of_toNat_eq
  rw [wmulhu, BitVec.extractLsb'_toNat, BitVec.toNat_mul, BitVec.toNat_setWidth_of_le (by omega), BitVec.toNat_setWidth_of_le (by omega),
    Nat.shiftRight_eq_div_pow, BitVec.toNat_ofNat]
  omega

theorem shiftLeft_eq_mul_pow (y : Word) (n : Nat) : y <<< n = y * BitVec.ofNat 64 (2 ^ n) := by
  apply BitVec.eq_of_toNat_eq
  simp [Nat.shiftLeft_eq]

theorem rotateLeft_shAmt (x y : Word) :
    x.rotateLeft (shAmt y) = x <<< (y.toNat % 64) ||| x >>> (64 - y.toNat % 64) := by
  rw [BitVec.rotateLeft_def, shAmt, Nat.mod_mod]

theorem wbext_eq (len : Nat) (x y : Word) : wbext len x y = BitVec.ofNat 64 (x.toNat / 2 ^ (y.toNat % 64) % 2 ^ len) := by
  rw [wbext, shAmt, Nat.shiftRight_eq_div_pow]

theorem wdiv_eq (x y : Word) : wdiv x y = x.sdiv y := by
  apply BitVec.eq_of_toInt_eq
  rw [wdiv, BitVec.toInt_ofInt, BitVec.toInt_sdiv]

theorem wrem_eq (x y : Word) : wrem x y = x.srem y := by
  rw [wrem, ← BitVec.toInt_srem, BitVec.ofInt_toInt]

/-- The lesser of two words, the first where they are equal. -/
theorem ite_slt_eq (x y : Word) : (if y.slt x then y else x) = if x.toInt < y.toInt then x else y := by
  simp only [BitVec.slt_iff_toInt_lt]
  split <;> split
  · omega
  · rfl
  · rfl
  · exact BitVec.eq_of_toInt_eq (by omega)

theorem ite_ult_eq (x y : Word) : (if y.ult x then y else x) = if x.toNat < y.toNat then x else y := by
  simp only [BitVec.ult_iff_lt, BitVec.lt_def]
  split <;> split
  · omega
  · rfl
  · rfl
  · exact BitVec.eq_of_toNat_eq (by omega)

theorem intCmp_eq (c : Cond) (x y : Word) : intCmp c x y = intHolds c x y := by
  rw [Bool.eq_iff_iff]
  cases c
  case eq => simp [intCmp, intHolds, condHolds, BitVec.toInt_inj]
  case ne => simp [intCmp, intHolds, condHolds, BitVec.toInt_inj]
  case lt => simp [intCmp, intHolds, condHolds, compare_lt_iff_lt]
  case le => simp [intCmp, intHolds, condHolds, compare_gt_iff_gt]
  case gt => simp [intCmp, intHolds, condHolds, compare_gt_iff_gt]
  case ge => simp [intCmp, intHolds, condHolds, compare_lt_iff_lt]
  all_goals simp [intCmp, intHolds, BitVec.ult, BitVec.ule]

theorem getLsbD_wbins (len : Nat) (x y d : Word) {i : Nat} (hi : i < 64) : (wbins len x y d).getLsbD i
    = if y.toNat % 64 ≤ i ∧ i < y.toNat % 64 + len then x.getLsbD (i - y.toNat % 64) else d.getLsbD i := by
  simp only [wbins, shAmt, BitVec.getLsbD_or, BitVec.getLsbD_and, BitVec.getLsbD_not, BitVec.getLsbD_ofNat, hi, Nat.testBit_mul_two_pow,
    Nat.testBit_two_pow_sub_one, Nat.testBit_mod_two_pow, decide_true, Bool.true_and]
  split
  · rename_i h
    simp [h.1, show i - y.toNat % 64 < len by omega, BitVec.testBit_toNat]
  · rename_i h
    by_cases hs : y.toNat % 64 ≤ i
    · simp [show ¬ i - y.toNat % 64 < len by omega]
    · simp [hs]

theorem wclz_spec (x : Word) : (wclz x).toNat ≤ 64 ∧ (∀ i < 64, 64 - (wclz x).toNat ≤ i → x.getLsbD i = false)
    ∧ ((wclz x).toNat < 64 → x.getLsbD (63 - (wclz x).toNat) = true) := by
  by_cases hx : x = 0
  · subst hx
    exact ⟨Nat.le_refl 64, fun i hi hle => BitVec.getLsbD_zero, fun h => absurd h (Nat.lt_irrefl 64)⟩
  · have hn : x.toNat ≠ 0 := fun h => hx (BitVec.eq_of_toNat_eq h)
    have hlog : Nat.log2 x.toNat < 64 := (Nat.log2_lt hn).2 x.isLt
    have hval : (wclz x).toNat = 63 - Nat.log2 x.toNat := by
      rw [wclz, if_neg hx, BitVec.toNat_ofNat]
      omega
    rw [hval]
    refine ⟨by omega, fun i hi hle => ?_, fun _ => ?_⟩
    · exact Nat.testBit_lt_two_pow (Nat.lt_of_lt_of_le Nat.lt_log2_self (Nat.pow_le_pow_right (by omega) (by omega)))
    · rw [show 63 - (63 - Nat.log2 x.toNat) = Nat.log2 x.toNat by omega]
      exact Nat.testBit_log2 hn

theorem popCount_eq (k n : Nat) : popCount k n = ((List.range k).filter (n.testBit ·)).length := by
  induction k generalizing n with
  | zero => rfl
  | succ k ih =>
    rw [popCount, ih, List.range_succ_eq_map, List.filter_cons, List.filter_map, Function.comp_def]
    simp only [Nat.testBit_succ, Nat.testBit_zero]
    obtain h | h := Nat.mod_two_eq_zero_or_one n
    · simp [h]
    · simp [h, Nat.add_comm]

theorem toNat_wpopc (x : Word) : (wpopc x).toNat = ((List.range 64).filter (fun i => x.getLsbD i)).length := by
  have hle : ((List.range 64).filter (x.toNat.testBit ·)).length ≤ 64 := (List.length_filter_le _ _).trans_eq List.length_range
  rw [wpopc, popCount_eq, BitVec.toNat_ofNat, Nat.mod_eq_of_lt (by omega)]
  rfl

end Sys2Proof.Machine
end

section
/-!
PROOFS. Integer instructions (O1, O2).
-/

namespace Sys2Proof.Machine

/-! ### Readable operands taken apart (R40, R99, R106, R111) -/

section
variable {u : Cur} {d : Dest} {a b : Src} {s t : State}

theorem operand1_ok {x : Word} : operand1 u d a s = .ok x t
    ↔ (s.jobAt u.core).noRoom u.strm d = none ∧ needAll s u {} [.scalar a] = [] ∧ readScalar u a s = .ok x t := by
  simp [operand1, source1, M.bind_ok, needSpace_ok, ensure_ok, and_assoc]

theorem operand2_ok {x y : Word} : operand2 u d a b s = .ok (x, y) t
    ↔ (s.jobAt u.core).noRoom u.strm d = none ∧ needAll s u {} [.scalar a, .scalar b] = []
      ∧ ∃ s1, readScalar u a s = .ok x s1 ∧ readScalar u b s1 = .ok y t := by
  simp [operand2, source2, M.bind_ok, M.map_ok, needSpace_ok, ensure_ok, and_assoc]

theorem operand3_ok {x y z : Word} : operand3 u d a b s = .ok (x, y, z) t
    ↔ (s.jobAt u.core).noRoom u.strm d = none ∧ needAll s u {} [.scalar a, .scalar b, .scalar (destSrc d)] = []
      ∧ ∃ s1 s2, readScalar u a s = .ok x s1 ∧ readScalar u b s1 = .ok y s2 ∧ readDst u d s2 = .ok z t := by
  simp [operand3, M.bind_ok, M.map_ok, needSpace_ok, ensure_ok, and_assoc]

theorem floats1_ok {x : Nat} : floats1 u d a s = .ok x t
    ↔ (s.jobAt u.core).noRoom u.strm d = none ∧ needAll s u {} [.scalar a] = [] ∧ readFloat u a s = .ok x t := by
  simp [floats1, M.bind_ok, needSpace_ok, ensure_ok, and_assoc]

theorem floats2_ok {x y : Nat} : floats2 u d a b s = .ok (x, y) t
    ↔ (s.jobAt u.core).noRoom u.strm d = none ∧ needAll s u {} [.scalar a, .scalar b] = []
      ∧ ∃ s1, readFloat u a s = .ok x s1 ∧ readFloat u b s1 = .ok y t := by
  simp [floats2, M.bind_ok, M.map_ok, needSpace_ok, ensure_ok, and_assoc]

theorem floats3_ok {x y z : Nat} : floats3 u d a b s = .ok (x, y, z) t
    ↔ (s.jobAt u.core).noRoom u.strm d = none ∧ needAll s u {} [.scalar a, .scalar b, .scalar (destSrc d)] = []
      ∧ ∃ s1 s2 w, readFloat u a s = .ok x s1 ∧ readFloat u b s1 = .ok y s2 ∧ readDst u d s2 = .ok w t ∧ w36 w = z := by
  simp [floats3, M.bind_ok, M.map_ok, needSpace_ok, ensure_ok, and_assoc]

end

/-! ### The bodies of integer instructions (R106, R107) -/

/-- A step of a body that stops ends the body. -/
theorem M.bind_stop {α β : Type} {m : M α} {k : α → M β} {s t : State} {x : Stop} (hm : m s = .error x t) : (m >>= k) s = .error x t := by
  show EStateM.bind m k s = _
  simp only [EStateM.bind, hm]

section
variable {o : ROps} {s s1 : State} {u : Cur} {x y : Word}

section
variable {f : Word → Word → Except Trap Word}

theorem intBody_run {w : Word} (ha : operand2 u o.d o.a o.b s = .ok (x, y) s1) (hf : f x y = .ok w) :
    intBody o f u s = .ok () (s1.delivered u o.d w) := by
  obtain ⟨hd, he, _, hx, hy⟩ := operand2_ok.1 ha
  refine M.bind_run (needSpace_run hd) (M.bind_run (ensure_run he) (M.bind_run hx (M.bind_run hy ?_)))
  rw [hf]
  exact deliver_run

theorem intBody_trap {e : Trap} (ha : operand2 u o.d o.a o.b s = .ok (x, y) s1) (hf : f x y = .error e) :
    intBody o f u s = .error (.trap e) s1 := by
  obtain ⟨hd, he, _, hx, hy⟩ := operand2_ok.1 ha
  refine M.bind_error (needSpace_run hd) (M.bind_error (ensure_run he) (M.bind_error hx (M.bind_error hy ?_)))
  rw [hf]
  rfl

end

/-- An instruction that is an integer operation on two sources completes with that operation's result. -/
theorem intOp_completes {i : Instr} {f : Word → Word → Word} {w : Word} (hr : Runs s u o.g) (ha : operand2 u o.d o.a o.b s = .ok (x, y) s1)
    (hi : exec i s = intOp o f s) (hf : f x y = w) : Completes i s u .next (s1.delivered u o.d w) := by
  subst hf
  exact hi.trans (intOp_ok hr ha)

/-- SEL reads its predicate before its sources. -/
theorem sel_completes (neg : Bool) (p : BitVec 3) (hr : Runs s u o.g) (ha : operand2 u o.d o.a o.b s = .ok (x, y) s1) :
    Completes (.sel o neg p) s u .next (s1.delivered u o.d (if (s.strmAt u.core u.strm).pred p != neg then x else y)) :=
  issueNext_ok hr (M.bind_run (a := (s.strmAt u.core u.strm).pred p) rfl (intBody_run ha rfl))

theorem intDst_completes {i : Instr} {f : Word → Word → Word → Word} {z w : Word} (hr : Runs s u o.g)
    (ha : operand3 u o.d o.a o.b s = .ok (x, y, z) s1) (hi : exec i s = issueNext o.g (intDstBody o f) s) (hf : f x y z = w) :
    Completes i s u .next (s1.delivered u o.d w) := by
  subst hf
  obtain ⟨hd, he, _, _, hx, hy, hz⟩ := operand3_ok.1 ha
  exact hi.trans (issueNext_ok hr (M.bind_run (needSpace_run hd) (M.bind_run (ensure_run he) (M.bind_run hx (M.bind_run hy
    (M.bind_run hz deliver_run))))))

/-- A division by another divisor than 0. -/
theorem divOp_completes {i : Instr} {f : Word → Word → Word} {w : Word} (hr : Runs s u o.g) (ha : operand2 u o.d o.a o.b s = .ok (x, y) s1)
    (hy : y ≠ 0) (hi : exec i s = divOp o f s) (hf : f x y = w) : Completes i s u .next (s1.delivered u o.d w) :=
  hi.trans (issueNext_ok hr (intBody_run ha ((if_neg hy).trans (congrArg Except.ok hf))))

/-- A division by 0 traps with its pops made. -/
theorem divOp_zero {f : Word → Word → Word} (hr : Runs s u o.g) (ha : operand2 u o.d o.a o.b s = .ok (x, 0) s1) (hn : s.trapsNow u) :
    divOp o f s = .next (s1.takeTrap u { cause := 0x13 }) := by
  exact (issue_trap hr hn (M.bind_stop (intBody_trap ha (if_pos rfl)))).trans (by rw [if_neg (by decide)])

end

theorem oneBody_completes {o : ROps1} {i : Instr} {f : Word → Word} {s s1 : State} {u : Cur} {x w : Word} (hr : Runs s u o.g)
    (ha : operand1 u o.d o.a s = .ok x s1) (hi : exec i s = issueNext o.g (oneBody o f) s) (hf : f x = w) :
    Completes i s u .next (s1.delivered u o.d w) := by
  subst hf
  obtain ⟨hd, he, hx⟩ := operand1_ok.1 ha
  exact hi.trans (issueNext_ok hr (M.bind_run (needSpace_run hd) (M.bind_run (ensure_run he) (M.bind_run hx deliver_run))))

/-- Settles O1: each instruction is an integer operation on its two sources, whose value the rules state; SEL reads its predicate first. -/
theorem integerTwoSources : Obligations.IntegerTwoSources := by
  intro o s s1 u x y hr ha
  have op : ∀ {i : Instr} (f : Word → Word → Word) {w : Word}, exec i s = intOp o f s → f x y = w → Completes i s u .next (s1.delivered u o.d w) :=
    fun _ _ hi hf => intOp_completes hr ha hi hf
  refine ⟨op (· + ·) rfl rfl, op (· - ·) rfl rfl, op (· * ·) rfl rfl, op wmulh rfl (wmulh_eq x y), op wmulhu rfl (wmulhu_eq x y), fun n => ?_,
    op (· &&& ·) rfl rfl, op (· ||| ·) rfl rfl, op (· ^^^ ·) rfl rfl, op (fun x y => x &&& ~~~y) rfl rfl, op (fun x y => x <<< shAmt y) rfl rfl,
    op (fun x y => x >>> shAmt y) rfl rfl, op (fun x y => x.sshiftRight (shAmt y)) rfl rfl, ?_, fun n => op (wbext n.toNat) rfl (wbext_eq n.toNat x y),
    ?_, ?_, ?_, ?_, fun neg p => sel_completes neg p hr ha, fun c => ?_⟩
  · exact op (fun x y => x + (y <<< n.toNat)) rfl (congrArg (x + ·) (shiftLeft_eq_mul_pow y n.toNat))
  · exact op (fun x y => x.rotateLeft (shAmt y)) rfl (rotateLeft_shAmt x y)
  · exact op (fun x y => if y.slt x then y else x) rfl (ite_slt_eq x y)
  · exact op (fun x y => if x.slt y then y else x) rfl (by simp only [BitVec.slt_iff_toInt_lt])
  · exact op (fun x y => if y.ult x then y else x) rfl (ite_ult_eq x y)
  · exact op (fun x y => if x.ult y then y else x) rfl (by simp only [BitVec.ult_iff_lt, BitVec.lt_def])
  · exact op (fun x y => if intCmp c x y then 1 else 0) rfl (by rw [intCmp_eq])

/-- Settles O2: each body delivers its operation on the sources it has read, whose bits the rules state; a zero divisor stops the body after its pops. -/
theorem integerForms : Obligations.IntegerForms := by
  refine ⟨fun o s s1 u x y z hr ha => ⟨intDst_completes hr ha rfl rfl, fun n => ⟨wbins n.toNat x y z, intDst_completes hr ha rfl rfl,
    fun i hi => getLsbD_wbins n.toNat x y z hi⟩⟩, fun o s s1 u x hr ha => ⟨⟨wclz x, oneBody_completes hr ha rfl rfl, wclz_spec x⟩,
    wpopc x, oneBody_completes hr ha rfl rfl, toNat_wpopc x⟩, fun g d b s s1 u x hr ha => ?_, fun o s s1 u x y hr ha => ⟨fun hy => ?_, ?_⟩⟩
  · exact oneBody_completes (o := { g := g, d := d, a := b }) hr ha rfl rfl
  · exact ⟨divOp_completes hr ha hy rfl (wdiv_eq x y), divOp_completes hr ha hy rfl rfl, divOp_completes hr ha hy rfl (wrem_eq x y),
      divOp_completes hr ha hy rfl rfl⟩
  · rintro rfl hn
    exact ⟨divOp_zero hr ha hn, divOp_zero hr ha hn, divOp_zero hr ha hn, divOp_zero hr ha hn⟩

end Sys2Proof.Machine
end

section
/-!
PROOFS. Scalar floating-point arithmetic and conversions (O3, O21).
-/

namespace Sys2Proof.Machine

/-! ### The bodies of two and three floating-point sources (R111 to R113) -/

section
variable {o : ROps} {s s1 : State} {u : Cur} {x y : Nat}

theorem fltOp_completes {i : Instr} {f : Nat → Nat → Nat × Flg} (hr : Runs s u o.g) (ha : floats2 u o.d o.a o.b s = .ok (x, y) s1)
    (hi : exec i s = fltOp o f s) : Completes i s u .next ((s1.flagged u (f x y).2).delivered u o.d (wordOfImg (f x y).1)) := by
  obtain ⟨hd, he, _, hx, hy⟩ := floats2_ok.1 ha
  exact hi.trans (issueNext_ok hr (M.bind_run (needSpace_run hd) (M.bind_run (ensure_run he) (M.bind_run hx (M.bind_run hy
    (M.bind_run setFlags_run deliver_run))))))

theorem fcmp_completes (c : Cond) (k : Bool) (hr : Runs s u o.g) (ha : floats2 u o.d o.a o.b s = .ok (x, y) s1) :
    Completes (.fcmp o c k) s u .next (s1.delivered u o.d (if fltCmp false c k x y then 1 else 0)) := by
  obtain ⟨hd, he, _, hx, hy⟩ := floats2_ok.1 ha
  exact issueNext_ok hr (M.bind_run (needSpace_run hd) (M.bind_run (ensure_run he) (M.bind_run hx (M.bind_run hy deliver_run))))

theorem ffma_completes {z : Nat} (hr : Runs s u o.g) (ha : floats3 u o.d o.a o.b s = .ok (x, y, z) s1) :
    Completes (.ffma o) s u .next ((s1.flagged u (fltFma false x y z).2).delivered u o.d (wordOfImg (fltFma false x y z).1)) := by
  obtain ⟨hd, he, _, _, w, hx, hy, hz, rfl⟩ := floats3_ok.1 ha
  exact issueNext_ok hr (M.bind_run (needSpace_run hd) (M.bind_run (ensure_run he) (M.bind_run hx (M.bind_run hy (M.bind_run hz
    (M.bind_run setFlags_run deliver_run))))))

end

/-- Settles O3: each body reads its images, sets the flags of their result and delivers it. -/
theorem floatArithmetic : Obligations.FloatArithmetic :=
  ⟨fun _ _ _ _ _ _ hr ha => ⟨fltOp_completes hr ha rfl, fltOp_completes hr ha rfl, fltOp_completes hr ha rfl,
    fltOp_completes (f := fun x y => (fltMinMax false false x y, 0)) hr ha rfl,
    fltOp_completes (f := fun x y => (fltMinMax true false x y, 0)) hr ha rfl, fun c k => fcmp_completes c k hr ha⟩,
    fun _ _ _ _ _ _ _ hr ha => ffma_completes hr ha⟩

/-! ### Conversions (R114, R115) -/

/-- Outside mode 5 rounding draws nothing (R71). -/
theorem drawFor_run {u : Cur} {r : Rnd} {s : State} (h : r ≠ .rsto) : drawFor u r s = .ok 0 s := by
  rw [drawFor, if_neg h]
  rfl

theorem getFmt_run {u : Cur} {code : Nat} {f : MFmt} {s : State} (h : fmtOf (fun i => tget 0 (s.jobAt u.core).fd i) code = some f) :
    getFmt u code s = .ok f s := by
  refine M.bind_run (getJob_ok.2 ⟨rfl, rfl⟩) ?_
  rw [h]
  rfl

section
variable {o : ROps1} {s s1 : State} {u : Cur} (hr : Runs s u o.g)
include hr

theorem fcvt_frommem_completes {x : Word} {c : BitVec 8} {f : MFmt} (ha : operand1 u o.d o.a s = .ok x s1)
    (hf : fmtOf (fun i => tget 0 (s.jobAt u.core).fd i) c.toNat = some f) :
    Completes (.fcvt o (.frommem c)) s u .next (s1.delivered u o.d (wordOfImg (f.load false (x.toNat % 2 ^ f.width)))) := by
  obtain ⟨hd, he, hx⟩ := operand1_ok.1 ha
  exact issueNext_ok hr (M.bind_run (needSpace_run hd) (M.bind_run (getFmt_run hf) (M.bind_run (ensure_run he) (M.bind_run hx deliver_run))))

variable {x : Nat} {r : Rnd} (hm : r ≠ .rsto) (ha : floats1 u o.d o.a s = .ok x s1)
include hm ha

/-- An instruction that rounds one image outside mode 5 ends as its rounding with draw 0 does. -/
theorem rounded_completes {i : Instr} {k : Cur → Nat → Nat → M Unit} {t : State}
    (hi : exec i s = issueNext o.g (fun u => do
      needSpace u o.d
      ensure u [.scalar o.a]
      let d ← drawFor u r
      let x ← readFloat u o.a
      k u d x) s) (hk : k u 0 x s1 = .ok () t) : Completes i s u .next t := by
  obtain ⟨hd, he, hx⟩ := floats1_ok.1 ha
  exact hi.trans (issueNext_ok hr (M.bind_run (needSpace_run hd) (M.bind_run (ensure_run he) (M.bind_run (drawFor_run hm) (M.bind_run hx hk)))))

theorem fcvt_tomem_completes {c : BitVec 8} {f : MFmt} (hf : fmtOf (fun i => tget 0 (s.jobAt u.core).fd i) c.toNat = some f)
    (hp : precisionOk false f = true) : Completes (.fcvt o (.tomem c r)) s u .next
      ((s1.flagged u (storeLane f false false x r 0).2).delivered u o.d (BitVec.ofNat 64 (storeLane f false false x r 0).1)) := by
  obtain ⟨hd, he, hx⟩ := floats1_ok.1 ha
  have hprec : (!precisionOk false f) = false := by rw [hp]; rfl
  exact issueNext_ok hr (M.bind_run (needSpace_run hd) (M.bind_run (getFmt_run hf) (M.bind_run (trapIf_run hprec) (M.bind_run (ensure_run he)
    (M.bind_run (drawFor_run hm) (M.bind_run hx (M.bind_run setFlags_run deliver_run)))))))

end

/-- Settles O21: each conversion runs its body on the source it has read; outside mode 5 the draw is 0. -/
theorem floatConversions : Obligations.FloatConversions := by
  refine fun o s s1 u hr => ⟨fun x ha => ⟨?_, ?_, fun c f hf => fcvt_frommem_completes hr ha hf⟩, fun x r hm ha => ⟨?_, ?_,
    fun c f hf hp => fcvt_tomem_completes hr hm ha hf hp, rounded_completes hr hm ha rfl deliver_run⟩⟩
  · exact oneBody_completes (f := fun x => wordOfImg (w36OfInt x.toInt)) hr ha rfl rfl
  · exact oneBody_completes (f := fun x => wordOfImg (w36OfInt x.toNat)) hr ha rfl rfl
  · exact rounded_completes hr hm ha rfl (M.bind_run setFlags_run deliver_run)
  · exact rounded_completes hr hm ha rfl (M.bind_run setFlags_run deliver_run)

end Sys2Proof.Machine
end

section
/-!
PROOFS. The watchdogs of a stream's waits, and the queue-wait counter (O20).
-/

namespace Sys2Proof.Machine

/-! ### A wait that has lasted (R102, R370) -/

section
variable {s : State} {c n : Nat} {x : Strm} {w : Wait} (hw : WaitsLong s c x w n)
include hw

/-- What a watchdog of the traps `f` makes of a wait. -/
theorem expire_waits (f : Wait → Option Trap) : s.expire c x f = if 2 ^ 24 ≤ n then (f w).elim s (s.expired c x) else s := by
  obtain ⟨hj, hlive, hwait, hlog, hmicro⟩ := hw
  have hunit : (if x = .cx then (s.jobAt c).micro else none) = none := by
    split
    · rename_i hx; exact hmicro hx
    · rfl
  obtain ⟨j, hj⟩ := Option.isSome_iff_exists.1 hj
  have hs : s.strmAt c x = j.strm x := by rw [State.strmAt, State.jobAt, hj]; rfl
  rw [hs] at hlive hwait hlog
  simp only [State.expire, hj, hwait, hlive, hlog, Bool.true_and, List.isEmpty_nil, if_true, State.expireNow, hunit, waitLimit]
  cases f w <;> exact if_congr decide_eq_true_iff rfl rfl

theorem expire_early (f : Wait → Option Trap) (hn : n < 2 ^ 24) : s.expire c x f = s := by
  rw [expire_waits hw, if_neg (Nat.not_le.2 hn)]

/-- A watchdog of another wait does nothing. -/
theorem expire_other {f : Wait → Option Trap} (hf : f w = none) : s.expire c x f = s := by
  rw [expire_waits hw, hf, Option.elim_none, ite_self]

theorem expire_late {f : Wait → Option Trap} {t : Trap} (hn : 2 ^ 24 ≤ n) (hf : f w = some t) : s.expire c x f = s.expired c x t := by
  rw [expire_waits hw, hf, if_pos hn, Option.elim_some]

end

/-- The six watchdogs of a stream do nothing where those that watch no `busy` wait do nothing: none of the six watches one. -/
theorem watchdogs_idle {s : State} {c : Nat} {x : Strm} (h : ∀ f : Wait → Option Trap, f .busy = none → s.expire c x f = s) :
    exec (.queueDeadlock c x) s = .next s ∧ exec (.timelineWaitTimeout c x) s = .next s ∧ exec (.fullEmptyTimeout c x) s = .next s
    ∧ exec (.drawWaitTimeout c x) s = .next s ∧ (x = .sc → exec (.wcsldWaitTimeout c) s = .next s)
    ∧ (x = .cx → exec (.landingCreditTimeout c) s = .next s) := by
  refine ⟨congrArg _ (h _ rfl), congrArg _ (h _ rfl), congrArg _ (h _ rfl), congrArg _ (h _ rfl), ?_, ?_⟩
  · rintro rfl
    exact congrArg _ (h _ rfl)
  · rintro rfl
    exact congrArg _ (h _ rfl)

section
variable {s : State} {c n : Nat} {x : Strm} (hn : 2 ^ 24 ≤ n)
include hn

theorem queueDeadlock_push {q : Nat} (hw : WaitsLong s c x (.push q) n) :
    exec (.queueDeadlock c x) s = .next (s.expired c x { cause := 0x0A, detail := BitVec.ofNat 64 (q + 256) }) :=
  congrArg _ (expire_late hw hn rfl)

theorem queueDeadlock_pop {q : Nat} (hw : WaitsLong s c x (.pop q) n) :
    exec (.queueDeadlock c x) s = .next (s.expired c x { cause := 0x0A, detail := BitVec.ofNat 64 q }) :=
  congrArg _ (expire_late hw hn rfl)

theorem timelineWaitTimeout_expires {k : Nat} (hw : WaitsLong s c x (.counter k true) n) :
    exec (.timelineWaitTimeout c x) s = .next (s.expired c x { cause := 0x0A, detail := BitVec.ofNat 64 (32 + k) }) :=
  congrArg _ (expire_late hw hn rfl)

theorem fullEmptyTimeout_expires {o k e : Nat} (hw : WaitsLong s c x (.granule o k) n) (he : emptyGranule (s.core c).fe o k = some e) :
    exec (.fullEmptyTimeout c x) s = .next (s.expired c x { cause := 0x0F, detail := BitVec.ofNat 64 e }) :=
  congrArg _ (expire_late hw hn (by simp only [he, Option.getD_some]))

theorem drawWaitTimeout_expires (hw : WaitsLong s c x .draw n) :
    exec (.drawWaitTimeout c x) s = .next (s.expired c x { cause := 0x0A, detail := 48 }) :=
  congrArg _ (expire_late hw hn rfl)

theorem wcsldWaitTimeout_expires (hw : WaitsLong s c .sc .pin n) :
    exec (.wcsldWaitTimeout c) s = .next (s.expired c .sc { cause := 0x0A, detail := 49 }) :=
  congrArg _ (expire_late hw hn rfl)

theorem landingCreditTimeout_expires (hw : WaitsLong s c .cx .credit n) :
    exec (.landingCreditTimeout c) s = .next (s.expired c .cx { cause := 0x0A, detail := 0x132 }) :=
  congrArg _ (expire_late hw hn rfl)

end

/-! ### A held stream (R102) -/

/-- The wait of a stream held once more: a queue wait counts on over the other waits between. -/
def State.waitOf (s : State) (u : Cur) (w : Wait) : Wait × Nat :=
  if w.onQueue then (w, if (s.jobAt u.core).anySusp then (s.strmAt u.core u.strm).qwait else (s.strmAt u.core u.strm).qwait + 1)
  else waitMore (s.jobAt u.core).anySusp (s.strmAt u.core u.strm).wait w

/-- Holding a stream changes no job but in its wait. -/
theorem job_holdAt (s : State) (u : Cur) (w : Wait) (i : Nat) : ((s.holdAt u w).core i).job = ((s.modStrm u.core u.strm (fun x =>
    { x with wait := some (s.waitOf u w), qwait := if w.onQueue then (s.waitOf u w).2 else x.qwait })).core i).job := by
  unfold State.holdAt
  extract_lets j x v v' s1 s2 s3
  have hhead : (s2.core i).job = (s1.core i).job := by
    simp only [s2]
    split
    · rfl
    · exact job_countHead ..
  have hbank : (s3.core i).job = (s2.core i).job := by
    simp only [s3]
    split
    · rw [core_of_cores (countDie_cores ..)]
    · rfl
  refine Eq.trans ?_ (hbank.trans hhead)
  split
  · split
    · rw [core_postOnce]
    · rfl
  · rfl

theorem strmAt_holdAt {s : State} {u : Cur} (w : Wait) (hj : (s.core u.core).job.isSome = true) :
    (s.holdAt u w).strmAt u.core u.strm = { s.strmAt u.core u.strm with
      wait := some (s.waitOf u w), qwait := if w.onQueue then (s.waitOf u w).2 else (s.strmAt u.core u.strm).qwait } := by
  rw [State.strmAt, jobAt_of_job (job_holdAt s u w u.core), ← State.strmAt, strmAt_modStrm_same _ _ hj]

/-- Settles O20: each watchdog is a step of the one wait that it watches; the counter of queue waits grows by the queue waits alone. -/
theorem watchdogs : Obligations.Watchdogs := by
  refine ⟨fun c n x s w hw => ⟨fun hn => watchdogs_idle fun f _ => expire_early hw f hn, ?_, fun hn => ?_⟩, fun s u w hj hs => ⟨?_, fun hq => ?_⟩⟩
  · rintro rfl
    exact watchdogs_idle fun f hf => expire_other hw hf
  · refine ⟨?_, ?_, ?_, ?_, ?_, ?_, ?_⟩
    · rintro q rfl; exact queueDeadlock_push hn hw
    · rintro q rfl; exact queueDeadlock_pop hn hw
    · rintro k rfl; exact timelineWaitTimeout_expires hn hw
    · rintro o k e rfl he; exact fullEmptyTimeout_expires hn hw he
    · rintro rfl; exact drawWaitTimeout_expires hn hw
    · rintro rfl rfl; exact wcsldWaitTimeout_expires hn hw
    · rintro rfl rfl; exact landingCreditTimeout_expires hn hw
  · rw [strmAt_holdAt w hj]
    cases hq : w.onQueue <;> simp [State.waitOf, hq, hs]
  · rw [strmAt_holdAt w hj]
    simp [State.waitOf, hq, hs]

end Sys2Proof.Machine
end

section
/-!
PROOFS. EXIT, RDV and the release of a rendezvous (O5).
-/

namespace Sys2Proof.Machine

/-! ### Streams and queues through the updates of a job (R98, R101, R123, R125, R130) -/

@[simp] theorem strm_setQueue (j : Job) (n : Nat) (l : List QEnt) (x : Strm) : (j.setQueue n l).strm x = j.strm x := by cases x <;> rfl
@[simp] theorem strm_freeL (j : Job) (n : BitVec 2) (x : Strm) : (j.freeL n).strm x = j.strm x := by cases x <;> rfl
@[simp] theorem strm_setL (j : Job) (n : BitVec 2) (v : Nat) (x : Strm) : (j.setL n v).strm x = j.strm x := by cases x <;> rfl

@[simp] theorem strm_rotate (j : Job) (x y : Strm) : (j.rotate x).strm y = j.strm y := by
  unfold Job.rotate
  split
  · cases y <;> rfl
  · rfl

@[simp] theorem strm_endLoops (ls : List LoopEnt) (j : Job) (x : Strm) : (endLoops ls j).strm x = j.strm x := by
  induction ls generalizing j with
  | nil => rfl
  | cons l ls ih => exact (ih _).trans (strm_freeL ..)

theorem queueOf_setQueue (j : Job) (n m : Nat) (l : List QEnt) : (j.setQueue n l).queueOf m = if m = n then l else j.queueOf m := tget_tput ..

/-- The queues toward a stream emptied. -/
def Job.drained (j : Job) (x : Strm) : Job := allStrms.foldl (fun j y => j.setQueue (qNum y x) []) j

@[simp] theorem strm_drained (j : Job) (x y : Strm) : (j.drained x).strm y = j.strm y := by simp [Job.drained, allStrms]

theorem queueOf_drained (j : Job) (x y : Strm) : (j.drained x).queueOf (qNum y x) = [] := by
  simp only [Job.drained, allStrms, List.foldl_cons, List.foldl_nil, queueOf_setQueue]
  cases y <;> simp

/-! ### EXIT (R101, R125, R135) -/

theorem modify_run {f : State → State} {s : State} : (modify f : M PUnit) s = .ok () (f s) := rfl

theorem modJob_run {u : Cur} {f : Job → Job} {s : State} : modJob u f s = .ok () (s.modJob u.core f) := rfl

theorem modStrm_run {u : Cur} {f : Stream → Stream} {s : State} : modStrm u f s = .ok () (s.modStrm u.core u.strm f) := rfl

/-- A job whose stream x is over: its loops released, the scalar queues toward it emptied. -/
def Job.over (j : Job) (x : Strm) : Job :=
  ((endLoops (j.strm x).loops j).setStrm x { (endLoops (j.strm x).loops j).strm x with loops := [], rep := none, exited := true }).drained x

/-- Beside that an exit empties the vector queue toward the stream. -/
theorem exitStrm_over (j : Job) (x : Strm) : (j.exitStrm x).strm x = (j.over x).strm x ∧ (j.exitStrm x).q = (j.over x).q := by
  cases x <;> exact ⟨rfl, rfl⟩

theorem strm_exitStrm (j : Job) (x : Strm) : (j.exitStrm x).strm x = { j.strm x with loops := [], rep := none, exited := true } := by
  rw [(exitStrm_over j x).1, Job.over, strm_drained, strm_setStrm_same, strm_endLoops]

theorem queueOf_exitStrm (j : Job) (x y : Strm) : (j.exitStrm x).queueOf (qNum y x) = [] := by
  rw [Job.queueOf, (exitStrm_over j x).2]
  exact queueOf_drained ..

theorem exit_completes {g : Guard} {s : State} {u : Cur} (hr : Runs s u g) :
    Completes (.exit g) s u .stay (((s.modJob u.core (fun j => j.exitStrm u.strm)).checkRdv u.core).lastExit u.core) :=
  issue_ok hr (M.bind_run modJob_run (M.bind_run modify_run rfl))

/-! ### RDV (R136) -/

/-- The state in which a stream has arrived at its rendezvous. -/
def State.arrived (s : State) (u : Cur) : State :=
  ((s.release u.core (strmNum u.strm) .core).modStrm u.core u.strm (fun x => { x with rdv := x.rdv + 1, rdvWait := true })).checkRdv u.core

/-- A stream that arrives keeps its slot held. -/
theorem rdv_arrives {g : Guard} {s : State} {u : Cur} (hr : Runs s u g) (h2 : u.second = false) (hw : (s.strmAt u.core u.strm).rdvWait = false)
    (hl : (s.strmAt u.core u.strm).log = []) : exec (.rdv g) s = .next ((s.arrived u).holdAt u .rdv) := by
  have hlog : needLogEmpty u s = .ok () s := M.bind_run (getStrm_ok.2 ⟨rfl, rfl⟩) (holdIf_run (by rw [hl]; rfl))
  refine (issue_stop (x := .keep .rdv) (t := s.arrived u) hr (M.bind_stop (M.bind_error (getStrm_ok.2 ⟨rfl, rfl⟩) ?_))).trans (by rw [h2]; rfl)
  rw [if_neg (ne_true_of_eq_false hw)]
  exact M.bind_error hlog (M.bind_error modify_run (M.bind_error modStrm_run (M.bind_error modify_run rfl)))

/-! ### Rendezvous waits through a retirement (R124, R129, R136) -/

@[simp] theorem rdvWait_setPred (v : Stream) (n : BitVec 3) (b : Bool) : (v.setPred n b).rdvWait = v.rdvWait := by
  unfold Stream.setPred
  split <;> rfl

@[simp] theorem rdvWait_stagePreds (v : Stream) (stages n j : Nat) : (stagePreds v stages n j).rdvWait = v.rdvWait := by
  unfold stagePreds
  induction List.range stages generalizing v with
  | nil => rfl
  | cons i l ih => exact (ih _).trans (rdvWait_setPred ..)

/-- A stream replaced by one with the same wait leaves every wait. -/
theorem rdvWait_setStrm {j : Job} {x : Strm} {v : Stream} (h : v.rdvWait = (j.strm x).rdvWait) (y : Strm) :
    ((j.setStrm x v).strm y).rdvWait = (j.strm y).rdvWait := by
  by_cases hy : y = x
  · rw [hy, strm_setStrm_same, h]
  · rw [strm_setStrm_other j v hy]

theorem rdvWait_loopEnds (x : Strm) (e : VAddr) (ls : List LoopEnt) (j : Job) (y : Strm) :
    ((loopEnds x e ls j).1.strm y).rdvWait = (j.strm y).rdvWait := by
  induction ls generalizing j with
  | nil => rfl
  | cons l ls ih =>
    unfold loopEnds
    dsimp only
    split
    · split
      · split
        · rw [strm_rotate, rdvWait_setStrm (rdvWait_stagePreds ..), strm_setL]
        · rw [strm_setL]
      · rw [ih, strm_freeL, strm_setL]
    · rfl

theorem rdvWait_advance (j : Job) (u : Cur) (y : Strm) : ((j.advance u .next).strm y).rdvWait = (j.strm y).rdvWait := by
  unfold Job.advance
  dsimp only
  split
  · split
    · exact rdvWait_setStrm (by rfl) y
    · exact (rdvWait_setStrm (by rfl) y).trans (rdvWait_loopEnds ..)
  · exact (rdvWait_setStrm (by rfl) y).trans (rdvWait_loopEnds ..)

/-- A job with an instruction of its stream retired. -/
def Job.retired (j : Job) (u : Cur) (f : Flow) : Job := (j.advance u f).setStrm u.strm (((j.advance u f).strm u.strm).afterIssue u.pc)

theorem rdvWait_retired (j : Job) (u : Cur) (y : Strm) : ((j.retired u .next).strm y).rdvWait = (j.strm y).rdvWait :=
  (rdvWait_setStrm (by rfl) y).trans (rdvWait_advance ..)

/-- What a retirement outside a CX group does to the job of its core. -/
theorem job_retire {s : State} {u : Cur} (f : Flow) (hu : u.use = none) :
    ((s.retire u f).core u.core).job = (s.core u.core).job.map (·.retired u f) := by
  have hgroup : ∀ t : State, t.joinGroup u = t := fun t => by rw [State.joinGroup, hu]
  unfold State.retire
  dsimp only
  split
  · rw [job_countCore, hgroup, core_modJob_same]; rfl
  · rw [job_countHead, job_countCore, hgroup, core_modJob_same]; rfl

/-! ### RENDEZVOUS_RELEASE (R136) -/

/-- The state in which a stream waits no more in its rendezvous. -/
def State.rdvEnded (s : State) (c : Nat) (x : Strm) : State := s.modStrm c x (fun v => { v with rdvWait := false })

/-- A stream leaves its rendezvous; at core scope its acquire does nothing. -/
def State.rdvLeft (s : State) (c : Nat) (x : Strm) : State := (s.rdvEnded c x).retire ((s.rdvEnded c x).slotOf c x 8) .next

theorem job_rdvLeft (s : State) (c : Nat) (x : Strm) : ∃ u, ((s.rdvLeft c x).core c).job
    = (s.core c).job.map (fun j => (j.setStrm x { j.strm x with rdvWait := false }).retired u .next) := by
  refine ⟨(s.rdvEnded c x).slotOf c x 8, (job_retire .next rfl).trans ?_⟩
  rw [show ((s.rdvEnded c x).slotOf c x 8).core = c from rfl, State.rdvEnded, State.modStrm, core_modJob_same, Option.map_map]
  rfl

/-- A stream that leaves waits no more, and no other stream begins to wait. -/
theorem rdvWait_rdvLeft {s : State} {c : Nat} {x y : Strm} (h : ((s.rdvLeft c x).strmAt c y).rdvWait = true) :
    y ≠ x ∧ (s.strmAt c y).rdvWait = true := by
  obtain ⟨u, hjob⟩ := job_rdvLeft s c x
  rw [State.strmAt, State.jobAt, hjob] at h
  rw [State.strmAt, State.jobAt]
  cases hj : (s.core c).job with
  | none =>
    rw [hj] at h
    cases y <;> cases h
  | some j =>
    rw [hj, Option.map_some, Option.getD_some, rdvWait_retired] at h
    have hne : y ≠ x := by
      rintro rfl
      rw [strm_setStrm_same] at h
      cases h
    exact ⟨hne, by rwa [strm_setStrm_other _ _ hne] at h⟩

theorem rendezvousRelease_leaves (c : Nat) {s : State} {j : Job} (hj : (s.core c).job = some j) (hm : j.rdvMet = true) :
    exec (.rendezvousRelease c) s = .next (allStrms.foldl (fun s x => if (j.strm x).rdvWait then s.rdvLeft c x else s) s) := by
  refine congrArg Host.Outcome.next ?_
  simp only [State.rdvRelease, hj, hm, if_true]
  rfl

/-- When each stream that waits has had its turn to leave, none waits. -/
theorem rdvWait_foldl_rdvLeft {c : Nat} {j : Job} (l : List Strm) (s : State)
    (h : ∀ y, (s.strmAt c y).rdvWait = true → y ∈ l ∧ (j.strm y).rdvWait = true) (y : Strm) :
    ((l.foldl (fun s x => if (j.strm x).rdvWait then s.rdvLeft c x else s) s).strmAt c y).rdvWait = false := by
  induction l generalizing s with
  | nil => exact Bool.eq_false_iff.2 fun hy => List.not_mem_nil (h y hy).1
  | cons x l ih =>
    refine ih _ fun y hy => ?_
    dsimp only at hy
    split at hy
    · obtain ⟨hne, hy⟩ := rdvWait_rdvLeft hy
      exact ⟨(List.mem_cons.1 (h y hy).1).resolve_left hne, (h y hy).2⟩
    · rename_i hx
      obtain ⟨hmem, hjy⟩ := h y hy
      exact ⟨(List.mem_cons.1 hmem).resolve_left fun he => hx (he ▸ hjy), hjy⟩

/-- Settles O5: EXIT and RDV from their bodies; a release lets each waiting stream leave in turn. -/
theorem exitAndRendezvous : Obligations.ExitAndRendezvous := by
  refine ⟨fun g s u hr => ⟨exit_completes hr, strm_exitStrm _ _, queueOf_exitStrm _ _⟩, fun g s u hr h2 hw hl => rdv_arrives hr h2 hw hl,
    fun c s j hj hm => ⟨_, rendezvousRelease_leaves c hj hm, rdvWait_foldl_rdvLeft allStrms s fun y hy => ⟨mem_allStrms y, ?_⟩⟩⟩
  rwa [State.strmAt, State.jobAt, hj] at hy

end Sys2Proof.Machine
end

section
/-!
PROOFS. The jobs of the cores through loads and the reading of sources: none of them starts or ends a job.
-/

namespace Sys2Proof.Machine

/-- A fold that carries a result keeps what its steps keep of the state. -/
theorem foldl_fst_field {α β γ : Type} {f : State × β → α → State × β} (π : State → γ) (h : ∀ r a, π (f r a).1 = π r.1) (l : List α)
    (r : State × β) : π (l.foldl f r).1 = π r.1 := by
  induction l generalizing r with
  | nil => rfl
  | cons a l ih => exact (ih (f r a)).trans (h r a)

/-! ### The homes leave the cores alone (R174) -/

@[simp] theorem watchHome_cores (s : State) (key l n : Nat) (wr : Bool) (asid : Nat) : (s.watchHome key l n wr asid).cores = s.cores := by
  unfold State.watchHome
  dsimp only
  split
  · rfl
  · refine foldl_field State.cores (fun s i => ?_) _ _
    repeat' split
    all_goals simp

@[simp] theorem mscTouch_cores (s : State) (key l ctx : Nat) : (s.mscTouch key l ctx).cores = s.cores := by
  unfold State.mscTouch
  simp

@[simp] theorem joinLine_cores (s : State) (l : Nat) (clk : Tbl Nat) : (s.joinLine l clk).cores = s.cores := by
  refine foldl_field State.cores ?_ _ _
  exact fun _ _ => rfl

@[simp] theorem rekeyBlock_cores (s : State) (key blk : Nat) : (s.rekeyBlock key blk).cores = s.cores := by
  unfold State.rekeyBlock
  dsimp only
  split <;> rfl

@[simp] theorem homePut_cores (s : State) (key l : Nat) (bs : List (Byte × Byte)) : (s.homePut key l bs).cores = s.cores :=
  foldl_field State.cores (fun s b => rekeyBlock_cores s key b) _ _

@[simp] theorem homePutAll_cores (s : State) (key l : Nat) (bs : List (Byte × Byte)) : (s.homePutAll key l bs).cores = s.cores :=
  (foldl_field State.cores (fun s (f : Nat × Nat) => homePut_cores s f.1 f.2 bs) _ _).trans (homePut_cores ..)

@[simp] theorem windowPut_cores (s : State) (fn off : Nat) (bs : List Byte) : (s.windowPut fn off bs).cores = s.cores := by
  refine foldl_field State.cores (fun s p => ?_) _ _
  split
  · exact homePutAll_cores ..
  · rfl

@[simp] theorem errorTo_cores (s : State) (fn type unit die wher addr ctx count : Nat) :
    (s.errorTo fn type unit die wher addr ctx count).cores = s.cores := by
  unfold State.errorTo
  dsimp only
  split <;> simp

@[simp] theorem lineError_cores (s : State) (type l addr ctx : Nat) : (s.lineError type l addr ctx).cores = s.cores := errorTo_cores ..

@[simp] theorem clearPoison_cores (s : State) (l : Nat) (full : Bool) (ctx : Nat) : (s.clearPoison l full ctx).cores = s.cores := by
  unfold State.clearPoison
  split
  · rfl
  · split
    · rfl
    · exact lineError_cores ..

@[simp] theorem homeWriteLine_cores (s : State) (key l : Nat) (bs : List (Byte × Byte)) (ctx asid : Nat) :
    (s.homeWriteLine key l bs ctx asid).cores = s.cores := by
  unfold State.homeWriteLine
  dsimp only
  rw [clearPoison_cores]
  split
  · refine (foldl_field State.cores ?_ _ _).trans (by simp)
    exact fun _ _ => rfl
  · simp

@[simp] theorem applyReq_cores (s : State) (r : HomeReq) : (s.applyReq r).cores = s.cores := by
  unfold State.applyReq
  simp

@[simp] theorem applyUpTo_cores (s : State) (b : Nat) (p : HomeReq → Bool) : (s.applyUpTo b p).cores = s.cores := by
  unfold State.applyUpTo
  dsimp only
  split
  · rfl
  · rw [foldl_field State.cores applyReq_cores, modBase_cores]

@[simp] theorem homeRead_cores (s : State) (die core key l n ctx asid : Nat) : (s.homeRead die core key l n ctx asid).1.cores = s.cores := by
  unfold State.homeRead
  simp

@[simp] theorem reqRoom_cores (s : State) (b : Nat) : (s.reqRoom b).cores = s.cores := by
  unfold State.reqRoom
  split
  · rfl
  · split
    · rw [applyReq_cores, modBase_cores]
    · rfl

@[simp] theorem walkStep_cores (s : State) (part die core ctx asid va level table : Nat) :
    (s.walkStep part die core ctx asid va level table).1.cores = s.cores := by
  unfold State.walkStep
  dsimp only
  split
  · rfl
  · split
    · rw [lineError_cores, homeRead_cores]
    · rw [homeRead_cores]

@[simp] theorem walkFrom_cores (s : State) (part die core ctx asid va level table : Nat) :
    (s.walkFrom part die core ctx asid va level table).1.cores = s.cores := by
  induction level generalizing s table with
  | zero =>
    have h := walkStep_cores s part die core ctx asid va 0 table
    unfold State.walkFrom
    split <;> (rename_i hw; rw [hw] at h; exact h)
  | succ level ih =>
    have h := walkStep_cores s part die core ctx asid va (level + 1) table
    unfold State.walkFrom
    split
    · rename_i hw; rw [hw] at h; exact h
    · rename_i hw; rw [hw] at h; exact (ih ..).trans h

/-! ### Which cores run a job -/

/-- A core runs a job. -/
def State.hasJob (s : State) (c : Nat) : Bool := (s.core c).job.isSome

section
variable (s : State) (c i : Nat)

theorem hasJob_of_cores {s t : State} (h : t.cores = s.cores) (c : Nat) : t.hasJob c = s.hasJob c := by
  rw [State.hasJob, core_of_cores h, State.hasJob]

theorem hasJob_modCore {f : Core → Core} (h : ∀ k, (f k).job.isSome = k.job.isSome) : (s.modCore c f).hasJob i = s.hasJob i := by
  by_cases hi : i = c
  · subst hi
    rw [State.hasJob, core_modCore_same, h, State.hasJob]
  · rw [State.hasJob, core_modCore_other _ _ hi, State.hasJob]

@[simp] theorem hasJob_modJob (f : Job → Job) : (s.modJob c f).hasJob i = s.hasJob i := hasJob_modCore s c i fun _ => Option.isSome_map

@[simp] theorem hasJob_modStrm (x : Strm) (f : Stream → Stream) : (s.modStrm c x f).hasJob i = s.hasJob i := hasJob_modJob ..

/-- A core replaced by one with the same job. -/
theorem hasJob_setCore {k : Core} (h : k.job = (s.core c).job) : (s.setCore c k).hasJob i = s.hasJob i := by
  by_cases hi : i = c
  · subst hi
    rw [State.hasJob, core_setCore_same, h, State.hasJob]
  · rw [State.hasJob, core_setCore_other _ _ hi, State.hasJob]

@[simp] theorem hasJob_countCore (code : Nat) (q : Nat → Nat) : (s.countCore c code q).hasJob i = s.hasJob i := by
  rw [State.hasJob, job_countCore, State.hasJob]

@[simp] theorem hasJob_noteSeen (x : Strm) (clk : Tbl Nat) : (s.noteSeen c x clk).hasJob i = s.hasJob i := by
  unfold State.noteSeen
  split
  · rfl
  · exact hasJob_modStrm ..

/-! ### Translation (R398) -/

@[simp] theorem hasJob_tlbLook (ctx va : Nat) (x : Ctx) : (s.tlbLook c ctx va x).1.hasJob i = s.hasJob i := by
  unfold State.tlbLook
  dsimp only
  have hdie : ∀ (b : Bool) (t : State), (if b then t.countDie (coreDie c) ctx 0x0102 (qualAny 1) else t).hasJob i = t.hasJob i := fun b t => by
    split
    · exact hasJob_of_cores (countDie_cores ..) i
    · rfl
  rw [hdie]
  split
  · exact hasJob_countCore ..
  · rfl

@[simp] theorem hasJob_tlbFill (ctx va : Nat) (f : Leaf) : (s.tlbFill c ctx va f).hasJob i = s.hasJob i := by
  unfold State.tlbFill
  split
  · rfl
  · exact (hasJob_of_cores (modDie_cores ..) i).trans (hasJob_modCore s c i fun _ => rfl)

@[simp] theorem hasJob_findLeaf (ctx va : Nat) : (s.findLeaf c ctx va).1.hasJob i = s.hasJob i := by
  unfold State.findLeaf
  split
  · rfl
  · rename_i x _
    have hlook := hasJob_tlbLook s c i ctx va x
    have hwalk : ∀ t : State, (t.walkFrom x.part (coreDie c) c ctx x.asid va 4 x.root).1.hasJob i = t.hasJob i := fun t =>
      hasJob_of_cores (walkFrom_cores ..) i
    dsimp only
    split
    · rename_i hl
      rw [hl] at hlook
      exact (hwalk _).trans hlook
    · rename_i hl
      rw [hl] at hlook
      split
      · exact hlook
      · split
        · exact (hwalk _).trans hlook
        · exact hlook

@[simp] theorem hasJob_translate (ctx va : Nat) (need : Need) : (s.translate c ctx va need).1.hasJob i = s.hasJob i := by
  unfold State.translate
  dsimp only
  split
  · exact hasJob_findLeaf ..
  · split
    · exact hasJob_findLeaf ..
    · exact (hasJob_tlbFill ..).trans (hasJob_findLeaf ..)

@[simp] theorem hasJob_translateRange (ctx va n : Nat) (need : Need) : (s.translateRange c ctx va n need).1.hasJob i = s.hasJob i := by
  refine foldl_fst_field (State.hasJob · i) (fun r p => ?_) _ _
  obtain ⟨s, e | l⟩ := r
  · rfl
  · have h := hasJob_translate s c i ctx p.1 need
    dsimp only
    split
    · exact h
    · rename_i pa _
      by_cases hp : paMod pa = (s.translate c ctx p.1 need).1.ownMod
      · simp only [if_pos hp]; exact h
      · simp only [if_neg hp]
        split <;> exact h

/-! ### Loads through the L1 (R144) -/

@[simp] theorem hasJob_addUnacked (u : SendUnit) (id : Nat) : (s.addUnacked c u id).hasJob i = s.hasJob i := by
  unfold State.addUnacked
  split
  · exact hasJob_modJob ..
  · rfl

@[simp] theorem hasJob_sendLine (u : SendUnit) (pa : Nat) (bs : List (Byte × Byte)) (ctx : Nat) :
    (s.sendLine c u pa bs ctx).hasJob i = s.hasJob i := by
  unfold State.sendLine
  dsimp only
  split
  · exact (hasJob_of_cores (by simp only [postOnce_cores, modBase_cores, reqRoom_cores]) i).trans (hasJob_addUnacked s.newId.2 c i u s.newId.1)
  · exact hasJob_addUnacked (s.sendOut c ctx pa _).2 ..

@[simp] theorem hasJob_writeBack (u : SendUnit) (l : L1Line) : (s.writeBack c u l).hasJob i = s.hasJob i := by
  unfold State.writeBack
  split
  · rfl
  · rw [hasJob_countCore, hasJob_sendLine]

@[simp] theorem hasJob_l1Put (l : L1Line) : (s.l1Put c l).hasJob i = s.hasJob i := by
  have hset : ∀ ls, (s.setCore c { s.core c with l1 := ls }).hasJob i = s.hasJob i := fun _ => hasJob_setCore s c i rfl
  unfold State.l1Put
  dsimp only
  split
  · exact hset _
  · split
    · exact hset _
    · exact (hasJob_writeBack ..).trans (hset _)

@[simp] theorem hasJob_l1Fill (l : L1Line) (sc : Scope) : (s.l1Fill c l sc).1.hasJob i = s.hasJob i := by
  unfold State.l1Fill
  by_cases hp : paMod l.pa = s.ownMod
  · simp only [if_pos hp]
    exact (hasJob_countCore ..).trans (hasJob_of_cores (homeRead_cores ..) i)
  · simp only [if_neg hp]
    exact hasJob_countCore ..

@[simp] theorem hasJob_l1Load (ctx pa n : Nat) (sc : Scope) : (s.l1Load c ctx pa n sc).1.hasJob i = s.hasJob i := by
  unfold State.l1Load
  dsimp only
  rw [hasJob_l1Put]
  split
  · exact hasJob_l1Fill ..
  · rfl

@[simp] theorem hasJob_loadPieces (x : Strm) (ctx : Nat) (sc : Scope) (ps : List (Nat × Nat)) :
    (s.loadPieces c x ctx sc ps).1.hasJob i = s.hasJob i := by
  refine foldl_fst_field (State.hasJob · i) (fun r p => foldl_fst_field (State.hasJob · i) (fun r q => ?_) _ r) _ _
  exact (hasJob_noteSeen ..).trans (hasJob_l1Load ..)

@[simp] theorem hasJob_loadArea (x : Strm) (ar : Area) (n : Nat) (sc : Scope) : (s.loadArea c x ar n sc).1.hasJob i = s.hasJob i := by
  cases ar with
  | spad | cluster => rfl
  | trans va =>
    unfold State.loadArea
    dsimp only
    split
    · exact hasJob_translateRange ..
    · exact (hasJob_loadPieces ..).trans (hasJob_translateRange ..)

end

/-! ### Scalar sources (R37, R156) -/

/-- A step of a body that, where it answers, leaves every core with a job where it had one. -/
def M.KeepsJobs {α : Type} (m : M α) : Prop := ∀ s a t, m s = .ok a t → ∀ i, t.hasJob i = s.hasJob i

section
variable {α β : Type} {m : M α}

theorem M.KeepsJobs.bind {k : α → M β} (hm : m.KeepsJobs) (hk : ∀ a, (k a).KeepsJobs) : (m >>= k).KeepsJobs := by
  intro s b t h i
  obtain ⟨a, s1, ha, hb⟩ := M.bind_ok.1 h
  exact (hk a s1 b t hb i).trans (hm s a s1 ha i)

theorem M.keepsJobs_pure (a : α) : (pure a : M α).KeepsJobs := by
  intro s b t h i
  rw [(M.pure_ok.1 h).2]

theorem M.keepsJobs_get : (get : M State).KeepsJobs := by
  intro s a t h i
  rw [(M.get_ok.1 h).2]

theorem M.keepsJobs_modify {f : State → State} (hf : ∀ s i, (f s).hasJob i = s.hasJob i) : (modify f : M PUnit).KeepsJobs := by
  intro s a t h i
  rw [← M.modify_ok.1 h, hf]

theorem M.keepsJobs_liftF {f : State → State × Except AccFault α} (hf : ∀ s i, (f s).1.hasJob i = s.hasJob i) : (liftF f).KeepsJobs := by
  intro s a t h i
  rw [← hf s, liftF_ok.1 h]

end

section
variable (u : Cur)

theorem keepsJobs_getJob : (getJob u).KeepsJobs := M.keepsJobs_get.bind fun _ => M.keepsJobs_pure _

theorem keepsJobs_getStrm : (getStrm u).KeepsJobs := M.keepsJobs_get.bind fun _ => M.keepsJobs_pure _

theorem keepsJobs_notePop (w : Word) : (notePop w).KeepsJobs := M.keepsJobs_modify fun _ _ => rfl

theorem keepsJobs_popQueue (y : Strm) : (popQueue u y).KeepsJobs :=
  (keepsJobs_getJob u).bind fun _ => (M.keepsJobs_modify fun s i => hasJob_modJob s u.core i _).bind fun _ =>
    (keepsJobs_notePop _).bind fun _ => M.keepsJobs_pure _

theorem keepsJobs_popBlock (n : BitVec 3) : (popBlock u n).KeepsJobs := by
  refine (keepsJobs_getStrm u).bind fun x => ?_
  split
  · exact M.keepsJobs_pure _
  · exact (M.keepsJobs_modify fun s i => hasJob_modStrm s u.core i _ _).bind fun _ => M.keepsJobs_pure _

theorem keepsJobs_areaOf (a : Int) (n al : Nat) (fe : Bool) : (areaOf u a n al fe).KeepsJobs := by
  intro s ar t h i
  rw [(areaOf_ok.1 h).2]

theorem keepsJobs_blockAgain (r : MReg) (n al : Nat) : (blockAgain u r n al).KeepsJobs :=
  (keepsJobs_areaOf u _ n al false).bind fun _ => M.keepsJobs_liftF fun s i => hasJob_loadArea s u.core i ..

theorem keepsJobs_raisePoison {α : Type} (va : Nat) : (raisePoison u va : M α).KeepsJobs := by
  intro s a t h
  simp [raisePoison, M.bind_ok, raiseTrap, M.throw_ok] at h

/-- Reading a source starts and ends no job. -/
theorem keepsJobs_readScalar (x : Src) : (readScalar u x).KeepsJobs := by
  unfold readScalar
  cases x with
  | s | a => exact (keepsJobs_getStrm u).bind fun _ => M.keepsJobs_pure _
  | pop y => exact keepsJobs_popQueue u y
  | peek y => exact (keepsJobs_getJob u).bind fun _ => M.keepsJobs_pure _
  | m n =>
    refine (keepsJobs_popBlock u n).bind fun b => ?_
    split
    · exact M.keepsJobs_pure _
    · rename_i r bs
      have hword : ∀ bs : List (Byte × Bool), M.KeepsJobs (match firstBad (r.pat.addr r.pos).toNat bs with
          | some v => raisePoison u v
          | none => do
            notePop (BitVec.ofNat 64 (leNat (bs.map (·.1))))
            pure (BitVec.ofNat 64 (leNat (bs.map (·.1))))) := fun bs => by
        split
        · exact keepsJobs_raisePoison u _
        · exact (keepsJobs_notePop _).bind fun _ => M.keepsJobs_pure _
      dsimp only
      split
      · exact (keepsJobs_notePop _).bind fun _ => M.keepsJobs_pure _
      · split
        · exact (M.keepsJobs_pure _).bind hword
        · exact (keepsJobs_blockAgain u r 8 8).bind hword
  | const | imm | lit | v => exact M.keepsJobs_pure _
  | coordCore | coordDie | stage | jobIdx | iter | one | zero | lane => exact (keepsJobs_getJob u).bind fun _ => M.keepsJobs_pure _

theorem keepsJobs_ensure (rs : List Rd) : (ensure u rs).KeepsJobs := by
  intro s a t h i
  rw [(ensure_ok.1 h).2]

/-- Where an instruction runs, its core still has its job once its source is read. -/
theorem Runs.hasJob_source1 {g : Guard} {s s1 : State} {u : Cur} {b : Src} {w : Word} (hr : Runs s u g) (h : source1 u b s = .ok w s1) :
    s1.hasJob u.core = true :=
  ((keepsJobs_ensure u _).bind (fun _ => keepsJobs_readScalar u b) s w s1 h u.core).trans hr.job

end

end Sys2Proof.Machine
end

section
/-!
PROOFS. Control, predicate logic and branches (O4, O7, O9).
-/

namespace Sys2Proof.Machine

/-! ### Sources of an instruction that delivers nothing (R40) -/

theorem source1_ok {u : Cur} {a : Src} {x : Word} {s t : State} :
    source1 u a s = .ok x t ↔ needAll s u {} [.scalar a] = [] ∧ readScalar u a s = .ok x t := by
  simp [source1, M.bind_ok, ensure_ok, and_assoc]

theorem source2_ok {u : Cur} {a b : Src} {x y : Word} {s t : State} : source2 u a b s = .ok (x, y) t
    ↔ needAll s u {} [.scalar a, .scalar b] = [] ∧ ∃ s1, readScalar u a s = .ok x s1 ∧ readScalar u b s1 = .ok y t := by
  simp [source2, M.bind_ok, M.map_ok, ensure_ok, and_assoc]

theorem getJob_run {u : Cur} {s : State} : getJob u s = .ok (s.jobAt u.core) s := rfl

theorem getStrm_run {u : Cur} {s : State} : getStrm u s = .ok (s.strmAt u.core u.strm) s := rfl

/-! ### NOP, REP, PMARK, TRAP and BKPT (R126, R133, R372, R435) -/

section
variable {g : Guard} {b : Src} {s s1 : State} {u : Cur} {x : Word} (hr : Runs s u g)
include hr

theorem nop_completes : Completes (.nop g) s u .next s := issueNext_ok hr rfl

theorem rep_completes (n : BitVec 16) (sd sa sb : Bool) (stride : BitVec 2) : Completes (.rep g n sd sa sb stride) s u
    (.rep { count := n.toNat, k := 0, sd := sd, sa := sa, sb := sb, stride := 2 ^ stride.toNat }) s := issue_ok hr rfl

/-- While MARKS is clear PMARK only reads its source. -/
theorem pmark_completes (hb : source1 u b s = .ok x s1) (hm : (s.core u.core).obs.trc.getLsbD 0 = false) :
    Completes (.pmark g b) s u .next s1 := by
  obtain ⟨he, hx⟩ := source1_ok.1 hb
  refine issueNext_ok hr (M.bind_run (ensure_run he) (M.bind_run M.get_run ?_))
  rw [if_neg (ne_true_of_eq_false hm)]
  exact M.bind_run hx rfl

theorem trap_traps (hn : s.trapsNow u) (hb : source1 u b s = .ok x s1) :
    exec (.trap g b) s = .next (s1.takeTrap u { cause := 0x10, detail := x }) := by
  obtain ⟨he, hx⟩ := source1_ok.1 hb
  exact (issue_trap hr hn (M.bind_stop (M.bind_error (ensure_run he) (M.bind_error hx rfl)))).trans (by rw [if_neg (by simp)])

theorem bkpt_traps (hn : s.trapsNow u) : exec (.bkpt g) s = .next (s.takeTrap u { cause := 0x11 }) :=
  (issue_trap hr hn (M.bind_stop rfl)).trans (by rw [if_neg (by simp)])

/-! ### YIELD (R379) -/

/-- A YIELD that no context asks for does nothing. -/
theorem yield_idle (n : BitVec 3) (h : ∀ c, s.ctx? (s.jobAt u.core).ctx = some c → (c.coop && c.yieldBy.isSome) = false) :
    Completes (.yield g n) s u .next s := by
  refine issue_ok hr (M.bind_run M.get_run ((congrFun (if_pos ?_) s).trans rfl))
  cases hc : s.ctx? (s.jobAt u.core).ctx with
  | none => rfl
  | some c => exact congrArg (!·) (h c hc)

/-- A YIELD that acts reads its pair of save and return addresses and continues at the first. -/
theorem yield_saves (n : BitVec 3) {c : Ctx} {ar : Area} {bs : List (Byte × Bool)} (hc : s.ctx? (s.jobAt u.core).ctx = some c)
    (hcoop : c.coop = true) (hask : c.yieldBy.isSome = true)
    (har : checkAddr s u.core ((s.strmAt u.core u.strm).entry.toNat - 128 + 16 * n.toNat : Int) 16 1 false = .ok ar)
    (hl : s.loadArea u.core u.strm ar 16 .strm = (s1, .ok bs)) (hbad : firstBad ar.va bs = none)
    (hsave : leNat ((bs.take 8).map (·.1)) ≠ 0) :
    Completes (.yield g n) s u (.goto (BitVec.ofNat 56 (leNat ((bs.take 8).map (·.1)) / 4 * 4))) (s1.modStrm u.core u.strm (fun y =>
      { y with yielded := some (BitVec.ofNat 56 (leNat ((bs.drop 8).map (·.1)) / 4 * 4)) })) := by
  have hacts : (c.coop && c.yieldBy.isSome) = true := by rw [hcoop, hask]; rfl
  refine issue_ok hr (M.bind_run M.get_run ((congrFun (if_neg ?_) s).trans (M.bind_run getStrm_run (M.bind_run (areaOf_ok.2 ⟨har, rfl⟩)
    (M.bind_run (liftF_ok.2 hl) ?_)))))
  · rw [hc]
    exact ne_true_of_eq_false (congrArg (!·) hacts)
  · dsimp only
    rw [hbad]
    exact M.bind_run (trapIf_run (beq_false_of_ne hsave)) (M.bind_run modStrm_run rfl)

end

/-- Settles O4: each body runs straight through; YIELD turns on whether its context asks for a yield. -/
theorem controlMembers : Obligations.ControlMembers :=
  ⟨fun _ _ _ hr => ⟨nop_completes hr, rep_completes hr⟩, fun _ _ _ _ _ _ hr hb hm => pmark_completes hr hb hm,
    fun _ _ _ _ _ _ hr hn hb => trap_traps hr hn hb, fun _ _ _ hr hn => bkpt_traps hr hn,
    fun _ n _ _ hr => ⟨yield_idle hr n, fun _ _ _ _ hc hcoop hask har hl hbad hsave => yield_saves hr n hc hcoop hask har hl hbad hsave⟩⟩

/-! ### Branches (R121, R122) -/

/-- An instruction's address passes the checks of a target. -/
theorem targetChecks_run {s : State} {z : Int} (h4 : z % 4 = 0) (h0 : 0 ≤ z) (hlt : z < 2 ^ 56) :
    (do trapIf (decide (z % 4 ≠ 0)) (addrTrap 0x07 z)
        trapIf (decide (z < 0 ∨ 2 ^ 56 ≤ z)) (addrTrap 0x06 z)
        pure (.jump (BitVec.ofInt 56 z)) : M Flow) s = .ok (.jump (BitVec.ofInt 56 z)) s :=
  M.bind_run (trapIf_run (decide_eq_false (not_not.2 h4))) (M.bind_run (trapIf_run (decide_eq_false (by omega))) rfl)

/-- A branch outside every MLOOP body to an instruction's address delivers its link and is taken. -/
theorem takeBranch_run {s : State} {u : Cur} {z : Int} (link : Option Dest) (hm : (s.strmAt u.core u.strm).inMloop u.pc = false)
    (h4 : z % 4 = 0) (h0 : 0 ≤ z) (hlt : z < 2 ^ 56) : takeBranch u z link s = .ok (.jump (BitVec.ofInt 56 z)) (s.linked u link) := by
  refine M.bind_run getStrm_run (M.bind_run (trapIf_run hm) ?_)
  cases link with
  | none => exact targetChecks_run h4 h0 hlt
  | some d => exact M.bind_run deliver_run (targetChecks_run h4 h0 hlt)

/-- Settles O7: a branch reads its sources and takes its target, with its link delivered between the two. -/
theorem branches : Obligations.Branches := by
  refine ⟨fun o s u t hr ht hm h4 h0 hlt => ?_, fun g a b s s1 u x y hr hs hm h4 h0 hlt => ?_, fun o s s1 u x y hr ha hm h4 h0 hlt => ?_⟩
  · subst ht
    exact ⟨issue_ok hr (takeBranch_run none hm h4 h0 hlt),
      fun hd => issue_ok hr (M.bind_run (needSpace_run hd) (takeBranch_run (some o.d) hm h4 h0 hlt))⟩
  · obtain ⟨he, _, hx, hy⟩ := source2_ok.1 hs
    exact issue_ok hr (M.bind_run (ensure_run he) (M.bind_run hx (M.bind_run hy (takeBranch_run none hm h4 h0 hlt))))
  · obtain ⟨hd, he, _, hx, hy⟩ := operand2_ok.1 ha
    exact issue_ok hr (M.bind_run (needSpace_run hd) (M.bind_run (ensure_run he) (M.bind_run hx (M.bind_run hy
      (takeBranch_run (some o.d) hm h4 h0 hlt)))))

/-! ### Predicate logic and queue tests (R131, R132) -/

theorem readPred_run {u : Cur} {n : BitVec 3} {s : State} : readPred u n s = .ok ((s.strmAt u.core u.strm).pred n) s := rfl

theorem predOp_completes {o : POps} {s : State} {u : Cur} {i : Instr} {f : Bool → Bool → Bool} (hr : Runs s u o.g)
    (hd : (s.jobAt u.core).noRoom u.strm o.d = none) (hi : exec i s = predOp o f s) :
    Completes i s u .next (s.delivered u o.d
      (if f ((s.strmAt u.core u.strm).pred o.pa != o.na) ((s.strmAt u.core u.strm).pred o.pb != o.nb) then 1 else 0)) :=
  hi.trans (issueNext_ok hr (M.bind_run (needSpace_run hd) (M.bind_run readPred_run (M.bind_run readPred_run deliver_run))))

/-- Settles O9: each body reads its predicates, or the queues of its job, and delivers the outcome as 1 or 0. -/
theorem predicateLogic : Obligations.PredicateLogic := by
  refine ⟨fun o s u a b hr hd ha hb => ?_, fun g d s u hr hd => ⟨fun na pa => ?_, fun q => ?_⟩⟩
  · subst ha hb
    exact ⟨predOp_completes hr hd rfl, predOp_completes (f := fun a b => a || b) hr hd rfl,
      predOp_completes (f := fun a b => a != b) hr hd rfl, predOp_completes (f := fun a b => a && !b) hr hd rfl⟩
  · exact issueNext_ok hr (M.bind_run (needSpace_run hd) (M.bind_run readPred_run deliver_run))
  · exact issueNext_ok hr (M.bind_run (needSpace_run hd) (M.bind_run getJob_run deliver_run))

end Sys2Proof.Machine
end

section
/-!
PROOFS. Hardware loops (O8).
-/

namespace Sys2Proof.Machine

/-! ### The head of a loop instruction (R124) -/

/-- A count below 2^32, a free counter and a body that fits let a loop begin. -/
theorem loopHead_run {u : Cur} {l : BitVec 2} {n : Src} {len : BitVec 16} {s s1 : State} {v : Word} (hn : source1 u n s = .ok v s1)
    (hv : v.toNat < 2 ^ 32) (hl : tget none (s1.jobAt u.core).lhold l.toNat = none)
    (hfit : ∀ q ∈ (s1.strmAt u.core u.strm).loops, u.pc.toNat + 4 * len.toNat ≤ q.fin.toNat)
    (hm : (s1.strmAt u.core u.strm).inMloop u.pc = false) :
    loopHead u l n len s = .ok (v.toNat, u.pc + BitVec.ofNat 56 (4 * len.toNat)) s1 := by
  obtain ⟨he, hx⟩ := source1_ok.1 hn
  have hends : (s1.strmAt u.core u.strm).loops.any (fun q => decide (q.fin.toNat < u.pc.toNat + 4 * len.toNat)) = false :=
    List.any_eq_false.2 fun q hq => by simpa using hfit q hq
  refine M.bind_run (ensure_run he) (M.bind_run hx (M.bind_run getJob_run (M.bind_run (trapIf_run (decide_eq_false (Nat.not_le.2 hv)))
    (M.bind_run (trapIf_run (by rw [hl]; rfl)) (M.bind_run (trapIf_run ?_) rfl)))))
  exact Bool.or_eq_false_iff.2 ⟨hends, hm⟩

/-! ### The job with an MLOOP begun (R123, R128 to R130) -/

/-- A job in which an MLOOP over n source iterations begins on a stream. -/
def Job.mloopBegun (j : Job) (x : Strm) (q : LoopEnt) (n : Nat) : Job :=
  ((j.pushLoop x q).setStrm x (stagePreds ((j.pushLoop x q).strm x) q.stages n 0)).resetRotation x q.rv

@[simp] theorem loops_setPred (v : Stream) (n : BitVec 3) (b : Bool) : (v.setPred n b).loops = v.loops := by
  unfold Stream.setPred
  split <;> rfl

@[simp] theorem loops_stagePreds (v : Stream) (stages n j : Nat) : (stagePreds v stages n j).loops = v.loops := by
  unfold stagePreds
  induction List.range stages generalizing v with
  | nil => rfl
  | cons i l ih => exact (ih _).trans (loops_setPred ..)

@[simp] theorem l_setStrm (j : Job) (x : Strm) (v : Stream) : (j.setStrm x v).l = j.l := by cases x <;> rfl

@[simp] theorem l_resetRotation (j : Job) (x : Strm) (rv : Nat) : (j.resetRotation x rv).l = j.l := by
  unfold Job.resetRotation
  split <;> rfl

@[simp] theorem strm_resetRotation (j : Job) (x y : Strm) (rv : Nat) : (j.resetRotation x rv).strm y = j.strm y := by
  unfold Job.resetRotation
  split
  · cases y <;> rfl
  · rfl

section
variable (j : Job) (x : Strm) (q : LoopEnt)

theorem loops_pushLoop : ((j.pushLoop x q).strm x).loops = q :: (j.strm x).loops := by
  rw [Job.pushLoop, strm_setStrm_same]
  cases x <;> rfl

theorem counter_pushLoop : tget 0 (j.pushLoop x q).l q.ctr.toNat = 0 := by
  rw [Job.pushLoop, l_setStrm]
  exact tget_tput_same (0 : Word) j.l q.ctr.toNat 0

theorem loops_mloopBegun (n : Nat) : ((j.mloopBegun x q n).strm x).loops = q :: (j.strm x).loops := by
  rw [Job.mloopBegun, strm_resetRotation, strm_setStrm_same, loops_stagePreds, loops_pushLoop]

theorem counter_mloopBegun (n : Nat) : tget 0 (j.mloopBegun x q n).l q.ctr.toNat = 0 := by
  rw [Job.mloopBegun, l_resetRotation, l_setStrm, counter_pushLoop]

theorem rotation_mloopBegun (n : Nat) (hx : x = .cx) :
    (j.mloopBegun x q n).rrbV = 0 ∧ (j.mloopBegun x q n).rrbK = 0 ∧ (j.mloopBegun x q n).rvR = 8 * q.rv := by
  rw [Job.mloopBegun, Job.resetRotation, if_pos hx]
  exact ⟨rfl, rfl, rfl⟩

end

/-! ### LOOP and MLOOP (R124, R128) -/

section
variable {g : Guard} {l : BitVec 2} {n : Src} {len : BitVec 16} {s s1 : State} {u : Cur} {v : Word} {e : VAddr} (hr : Runs s u g)

section
variable (hh : loopHead u l n len s = .ok (0, e) s1)
include hr hh

theorem loop_skips : Completes (.loop g l n len) s u (.goto e) (s1.modJob u.core (fun j => j.setL l 0)) :=
  issue_ok hr (M.bind_run hh (M.bind_run modJob_run rfl))

theorem mloop_skips (stg : BitVec 3) (rv : BitVec 5) : Completes (.mloop g l n stg rv len) s u (.goto e)
    (s1.modJob u.core (fun j => (j.setL l 0).resetRotation u.strm rv.toNat)) :=
  issue_ok hr (M.bind_run hh (M.bind_run modJob_run rfl))

end

variable {c : Nat} (hh : loopHead u l n len s = .ok (c, u.pc + BitVec.ofNat 56 (4 * len.toNat)) s1) (hc : c ≠ 0)
include hr hh hc

theorem loop_begins : Completes (.loop g l n len) s u (.goto (u.pc + 8#56))
    (s1.modJob u.core (fun j => j.pushLoop u.strm (newLoop u l len c false 0 0))) := by
  refine issue_ok hr (M.bind_run hh ?_)
  dsimp only
  rw [if_neg hc]
  exact M.bind_run modJob_run rfl

/-- An MLOOP of S stages runs S − 1 kernel iterations beyond its count. -/
theorem mloop_begins (stg : BitVec 3) (rv : BitVec 5) : Completes (.mloop g l n stg rv len) s u (.goto (u.pc + 8#56))
    (s1.modJob u.core (fun j => j.mloopBegun u.strm (newLoop u l len (c + stg.toNat) true (stg.toNat + 1) rv.toNat) c)) := by
  refine issue_ok hr (M.bind_run hh ?_)
  dsimp only
  rw [if_neg hc]
  exact M.bind_run modJob_run rfl

end

/-! ### LBRK (R125) -/

theorem lbrk_completes {g : Guard} {l : BitVec 2} {s : State} {u : Cur} {j : Job} {ls : List LoopEnt} {e : VAddr} (hr : Runs s u g)
    (h : breakLoops l ((s.jobAt u.core).strm u.strm).loops (s.jobAt u.core) = (j, ls, some e)) :
    Completes (.lbrk g l) s u (if e = u.pc + 8#56 then .next else .goto e)
      (s.modJob u.core (fun _ => j.setStrm u.strm { j.strm u.strm with loops := ls })) := by
  refine issue_ok hr (M.bind_run getJob_run ?_)
  dsimp only
  rw [h]
  exact M.bind_run modJob_run rfl

/-- Settles O8: after the checks of the head a count of 0 skips the body, another pushes the loop; LBRK leaves the loops that `breakLoops` leaves. -/
theorem loops : Obligations.Loops := by
  refine ⟨fun g l n len s s1 u v hr hn hv hl hfit hm => ?_, fun g l s u j ls e hr h => lbrk_completes hr h⟩
  have hh := loopHead_run hn hv hl hfit hm
  refine ⟨?_, fun hv0 => ?_⟩
  · rintro rfl
    exact ⟨loop_skips hr hh, mloop_skips hr hh⟩
  · have hc : v.toNat ≠ 0 := fun h => hv0 (BitVec.eq_of_toNat_eq h)
    refine ⟨loop_begins hr hh hc, fun stg rv => ⟨_, mloop_begins hr hh hc stg rv, ?_⟩⟩
    rw [State.strmAt, jobAt_modJob _ (hr.hasJob_source1 hn)]
    exact ⟨by rw [loops_mloopBegun, List.head?_cons], counter_mloopBegun .., rotation_mloopBegun _ _ _ _⟩

end Sys2Proof.Machine
end

section
/-!
PROOFS. What the loads and stores share: the checks before an access, and an access that is made now, put off, or found to fault (R149, R157, R373, R374).
-/

namespace Sys2Proof.Machine

theorem modify_eq {f : State → State} {s t : State} (h : f s = t) : (modify f : M PUnit) s = .ok () t := M.modify_ok.2 h

/-! ### Checked addresses (R157) -/

/-- A checked area starts at its address, and translated memory lies above the local aperture (R138). -/
theorem va_of_checkAddr {s : State} {c n al : Nat} {a : Int} {fe : Bool} {ar : Area} (h : checkAddr s c a n al fe = .ok ar) :
    ar.va = a.toNat ∧ (ar.isTrans = true → 0x2000000 ≤ ar.va) := by
  unfold checkAddr at h
  split at h
  · cases h
  · dsimp only at h
    repeat' split at h
    all_goals cases h
    all_goals simp [Area.va, Area.isTrans]
    all_goals omega

/-- So does the area of an access that may be made. -/
theorem va_of_mayAccess {u : Cur} {n al : Nat} {q : Fe} {rd wr : Bool} {a : Int} {s t : State} {ar : Area}
    (h : mayAccess u a n al q rd wr s = .ok ar t) : ar.va = a.toNat ∧ (ar.isTrans = true → 0x2000000 ≤ ar.va) := by
  obtain ⟨ar', _, harea, h⟩ := M.bind_ok.1 h
  have hsame : ar' = ar := by
    cases rd
    · obtain ⟨_, _, _, h⟩ := M.bind_ok.1 h
      obtain ⟨_, _, _, h⟩ := M.bind_ok.1 h
      exact (M.pure_ok.1 h).1
    · obtain ⟨_, _, _, h⟩ := M.bind_ok.1 h
      obtain ⟨_, _, _, h⟩ := M.bind_ok.1 h
      obtain ⟨_, _, _, h⟩ := M.bind_ok.1 h
      exact (M.pure_ok.1 h).1
  exact va_of_checkAddr (hsame ▸ (areaOf_ok.1 harea).1)

/-! ### Entries of the operand log (R99, R373) -/

section
variable {u : Cur} {s : State}

theorem newEntry_run {scope : Scope} {op : LogOp} : newEntry u scope op s = .ok (logged s u scope op []) s.idTaken := rfl

theorem reserveScalar_run {d : Dest} {e : LogEnt} :
    reserveScalar u d e s = .ok { e with fills := (destStrms d).map (qNum u.strm), reg := d.reg } (s.reserved u d e.id) := rfl

theorem reserveRow_run {push : Bool} {e : LogEnt} : reserveRow u push e s
    = .ok { e with fills := if push then [vqNum u.strm] else [] } (s.modJob u.core (fun j => j.pushRow u.strm (pushDest push) (.resv e.id))) := rfl

theorem putLog_run {e : LogEnt} : putLog u e s = .ok () (s.logging u e) := rfl

theorem putLate_run {e : LogEnt} : putLate u e s = .ok () (s.faulting u e) := rfl

end

/-! ### An access now, later, or late (R175, R373, R374) -/

/-- An access that is made now, or stands in the operand log where it is put off or faults: the shape that loads and stores share. -/
def access {α : Type} (may : Bool) (u : Cur) (entry : M LogEnt) (f : State → State × Except AccFault α) (go : α → M Unit) : M Unit := do
  let d ← if may then chooseDefer else pure false
  if d then putLog u (← entry) else orLate f (do putLate u (← entry)) go

section
variable {α : Type} {may : Bool} {u : Cur} {entry : M LogEnt} {f : State → State × Except AccFault α} {go : α → M Unit} {s s2 s3 t : State}
  {e : LogEnt}

theorem access_chosen {later : Bool} (hd : s.defers may = (later, s2)) : access may u entry f go s
    = (if later then entry >>= putLog u else orLate f (entry >>= putLate u) go) s2 := by
  cases may
  · cases hd
    rfl
  · obtain ⟨rfl, rfl⟩ := Prod.mk.inj hd
    rfl

/-- An access that is made now goes on with what it reads. -/
theorem access_now {a : α} (hd : s.defers may = (false, s2)) (hf : f s2 = (s3, .ok a)) (hg : go a s3 = .ok () t) :
    access may u entry f go s = .ok () t := by
  rw [access_chosen hd, if_neg Bool.false_ne_true, orLate]
  refine M.bind_run M.get_run ?_
  simp only [hf]
  exact M.bind_run M.set_run hg

/-- An access that is put off leaves its entry. -/
theorem access_later (hd : s.defers may = (true, s2)) (he : entry s2 = .ok e s3) :
    access may u entry f go s = .ok () (s3.logging u e) := by
  rw [access_chosen hd, if_pos rfl]
  exact M.bind_run he putLog_run

/-- An access that faults leaves its entry, and nothing of what it found. -/
theorem access_late {t' : State} {x : AccFault} (hd : s.defers may = (false, s2)) (hf : f s2 = (t', .error x)) (he : entry s2 = .ok e s3) :
    access may u entry f go s = .ok () (s3.faulting u e) := by
  rw [access_chosen hd, if_neg Bool.false_ne_true, orLate]
  refine M.bind_run M.get_run ?_
  simp only [hf]
  exact M.bind_run he putLate_run

end

/-! ### Loaded bytes and their marks (R158) -/

theorem firstBad_none {va : Nat} {bs : List (Byte × Bool)} : firstBad va bs = none ↔ bs.any (·.2) = false := by
  simp [firstBad, List.findIdx?_eq_none_iff]

theorem any_of_firstBad {va v : Nat} {bs : List (Byte × Bool)} (h : firstBad va bs = some v) : bs.any (·.2) = true := by
  rw [← Bool.not_eq_false, ← firstBad_none (va := va), h]
  exact Option.some_ne_none v

section
variable {s s1 : State} {u : Cur} {ar : Area} {n va : Nat} {scope : Scope} {zf : Bool} {bs : List (Byte × Bool)}

theorem goodLoad_good (hl : s.loadArea u.core u.strm ar n scope = (s1, .ok bs)) (hb : firstBad ar.va bs = none) :
    s.goodLoad u.core u.strm ar n scope zf = (s1, .ok bs) := by
  simp only [State.goodLoad, hl, hb]

/-- Uncorrectable bytes of translated memory are answered where they are to read as zero. -/
theorem goodLoad_zero {v : Nat} (hl : s.loadArea u.core u.strm ar n scope = (s1, .ok bs)) (hb : firstBad ar.va bs = some v)
    (hva : 0x2000000 ≤ ar.va) : s.goodLoad u.core u.strm ar n scope true = (s1, .ok bs) := by
  simp only [State.goodLoad, hl, hb, Bool.true_and, decide_eq_true hva, if_true]

theorem noteZero_good (hb : firstBad va bs = none) : s.noteZero u.core u.strm va bs = s := by
  simp only [State.noteZero, hb]

theorem noteZero_bad {v : Nat} (hb : firstBad va bs = some v) : s.noteZero u.core u.strm va bs = s.zeroFilled u v := by
  simp only [State.noteZero, hb, State.zeroFilled]

theorem goodWord_good (hb : firstBad va bs = none) : goodWord bs = loadedWord bs :=
  if_neg (ne_true_of_eq_false (firstBad_none.1 hb))

theorem goodWord_bad {v : Nat} (hb : firstBad va bs = some v) : goodWord bs = 0 := if_pos (any_of_firstBad hb)

theorem emptyAfter_run {q : Fe} : emptyAfter u ar n q s = .ok () (s.emptied u ar n q) := by
  cases ar <;> cases q <;> rfl

end

end Sys2Proof.Machine
end

section
/-!
PROOFS. Scalar loads (O10).
-/

namespace Sys2Proof.Machine

/-! ### The body of a scalar load (R160, R197) -/

/-- The entry of a scalar load, with the acquire that follows it. -/
def loadEntry (acq : Option Scope) (o : LdOps) (u : Cur) (a : Int) : M LogEnt := do
  let e ← newEntry u o.scope (.ld a.toNat (2 ^ o.sz.toNat))
  reserveScalar u o.d { e with zf := o.zf, acq := acq }

/-- What a scalar load does with the bytes it gets. -/
def loadResult (acq : Option Scope) (o : LdOps) (u : Cur) (a : Int) (ar : Area) (bs : List (Byte × Bool)) : M Unit := do
  emptyAfter u ar (2 ^ o.sz.toNat) o.fe
  modify (fun s => s.noteZero u.core u.strm a.toNat bs)
  deliver u o.d (goodWord bs)
  match acq with
  | some scope => modify (fun s => s.acquire u.core u.strm scope false)
  | none => pure ()

/-- A scalar load is its checks, then its access. -/
theorem ldBody_eq (later : Bool) (acq : Option Scope) (o : LdOps) (u : Cur) : ldBody later acq o u = loadReady u o >>= fun p =>
    access (later && p.2.isTrans && o.d.reg.isNone && !o.zf) u (loadEntry acq o u p.1)
      (fun s => s.goodLoad u.core u.strm p.2 (2 ^ o.sz.toNat) o.scope o.zf) (loadResult acq o u p.1 p.2) := by
  simp only [ldBody, loadReady, mayAccess, bind_assoc, pure_bind, if_true]
  rfl

theorem va_of_loadReady {u : Cur} {o : LdOps} {s t : State} {a : Int} {ar : Area} (h : loadReady u o s = .ok (a, ar) t) :
    ar.va = a.toNat ∧ (ar.isTrans = true → 0x2000000 ≤ ar.va) := by
  simp only [loadReady, M.bind_ok, M.pure_ok, Prod.mk.injEq] at h
  obtain ⟨_, _, -, _, _, -, _, _, -, _, _, -, _, _, hacc, ⟨rfl, rfl⟩, -⟩ := h
  exact va_of_mayAccess hacc

theorem loadEntry_run (acq : Option Scope) {o : LdOps} {u : Cur} {a : Int} {s : State} : loadEntry acq o u a s
    = .ok { logged s u o.scope (.ld a.toNat (2 ^ o.sz.toNat)) ((destStrms o.d).map (qNum u.strm)) with zf := o.zf, reg := o.d.reg, acq := acq }
      (s.idTaken.reserved u o.d s.ids) := rfl

section
variable {o : LdOps} {u : Cur} {a : Int} {ar : Area} {s : State} {bs : List (Byte × Bool)}

/-- The state that a scalar load leaves of good bytes. -/
def State.loadDone (s : State) (u : Cur) (o : LdOps) (ar : Area) (bs : List (Byte × Bool)) : State :=
  (s.emptied u ar (2 ^ o.sz.toNat) o.fe).delivered u o.d (loadedWord bs)

theorem loadResult_good (hb : firstBad a.toNat bs = none) : loadResult none o u a ar bs s = .ok () (s.loadDone u o ar bs)
    ∧ loadResult (some o.scope) o u a ar bs s = .ok () ((s.loadDone u o ar bs).acquire u.core u.strm o.scope false) := by
  rw [State.loadDone, ← goodWord_good hb]
  exact ⟨M.bind_run emptyAfter_run (M.bind_run (modify_eq (noteZero_good hb)) (M.bind_run deliver_run rfl)),
    M.bind_run emptyAfter_run (M.bind_run (modify_eq (noteZero_good hb)) (M.bind_run deliver_run rfl))⟩

theorem loadResult_zero {v : Nat} (hb : firstBad a.toNat bs = some v) : loadResult none o u a ar bs s
    = .ok () (((s.emptied u ar (2 ^ o.sz.toNat) o.fe).zeroFilled u v).delivered u o.d 0) := by
  rw [← goodWord_bad hb]
  exact M.bind_run emptyAfter_run (M.bind_run (modify_eq (noteZero_bad hb)) (M.bind_run deliver_run rfl))

end

/-! ### LD and LDA -/

section
variable {o : LdOps} {s s1 t : State} {u : Cur} {a : Int} {ar : Area} (hr : Runs s u o.g) (hready : loadReady u o s = .ok (a, ar) s1)
include hr hready

theorem ld_completes (h : access (ar.isTrans && o.d.reg.isNone && !o.zf) u (loadEntry none o u a)
    (fun s => s.goodLoad u.core u.strm ar (2 ^ o.sz.toNat) o.scope o.zf) (loadResult none o u a ar) s1 = .ok () t) :
    Completes (.ld o) s u .next t :=
  issueNext_ok hr (by rw [ldBody_eq]; exact M.bind_run hready h)

/-- An LDA waits until its stream's log is empty, and is never put off. -/
theorem lda_completes (hl : (s.strmAt u.core u.strm).log = []) (h : access false u (loadEntry (some o.scope) o u a)
    (fun s => s.goodLoad u.core u.strm ar (2 ^ o.sz.toNat) o.scope o.zf) (loadResult (some o.scope) o u a ar) s1 = .ok () t) :
    Completes (.lda o) s u .next t :=
  issueNext_ok hr (M.bind_run (M.bind_run getStrm_run (holdIf_run (by rw [hl]; rfl))) (by rw [ldBody_eq]; exact M.bind_run hready h))

end

/-- Settles O10: a scalar load is its checks and then one access, which is made now, put off, or found to fault. -/
theorem scalarLoads : Obligations.ScalarLoads := by
  intro o s s1 s2 s3 u a ar later bs x hr hready
  obtain ⟨hva, htrans⟩ := va_of_loadReady hready
  refine ⟨fun hd => ⟨?_, ?_, ?_⟩, fun hlog => ⟨fun hl hb => ?_, ?_⟩⟩
  · rintro rfl hl hb
    exact ld_completes hr hready (access_now hd (goodLoad_good hl (hva ▸ hb)) (loadResult_good hb).1)
  · rintro rfl hl hzf htr v hb
    exact ld_completes hr hready (access_now hd (hzf ▸ goodLoad_zero hl (hva ▸ hb) (htrans htr)) (loadResult_zero hb))
  · rintro e rfl
    refine ⟨?_, ?_⟩
    · rintro rfl
      exact ld_completes hr hready (access_later hd (loadEntry_run none))
    · rintro rfl hf
      exact ld_completes hr hready (access_late hd hf (loadEntry_run none))
  · exact lda_completes hr hready hlog (access_now rfl (goodLoad_good hl (hva ▸ hb)) (loadResult_good hb).2)
  · rintro e rfl hf
    exact lda_completes hr hready hlog (access_late rfl hf (loadEntry_run (some o.scope)))

end Sys2Proof.Machine
end

section
/-!
PROOFS. Row loads, gathers and prefetches (O11).
-/

namespace Sys2Proof.Machine

/-! ### Rows of good and of marked bytes (R158, R161, R162) -/

section
variable {f : MFmt} {lw : Bool} {bs : List (Byte × Bool)} {va : Nat}

theorem goodRow_good (hb : firstBad va bs = none) : goodRow f lw bs = rowOfBytes f lw (bs.map (·.1)) :=
  if_neg (ne_true_of_eq_false (firstBad_none.1 hb))

theorem goodRow_bad {v : Nat} (hb : firstBad va bs = some v) : goodRow f lw bs = rowOfMarked f lw bs := if_pos (any_of_firstBad hb)

theorem goodElems_good {l : List (List (Byte × Bool))} (h : ∀ bs ∈ l, bs.any (·.2) = false) :
    goodElems f lw l = rowOf lw (l.map (fun bs => f.load lw (leNat (bs.map (·.1)) % 2 ^ f.width))) := by
  rw [goodElems, List.map_congr_left fun bs hbs => if_neg (ne_true_of_eq_false (h bs hbs))]

end

theorem noteZeros_good {s : State} {u : Cur} {ars : List Area} {l : List (List (Byte × Bool))} (h : ∀ bs ∈ l, bs.any (·.2) = false) :
    (ars.zip l).foldl (fun s p => s.noteZero u.core u.strm p.1.va p.2) s = s :=
  foldl_same fun p hp => noteZero_good (firstBad_none.2 (h p.2 (List.of_mem_zip hp).2))

theorem getFmt_ok {u : Cur} {code : Nat} {f : MFmt} {s t : State} (h : getFmt u code s = .ok f t) : s = t := by
  obtain ⟨_, _, hj, h⟩ := M.bind_ok.1 h
  obtain ⟨rfl, rfl⟩ := getJob_ok.1 hj
  cases hc : fmtOf (fun i => tget 0 (s.jobAt u.core).fd i) code with
  | some g => exact (M.pure_ok.1 (by rwa [hc] at h)).2
  | none => exact (M.throw_ok.1 (by rwa [hc] at h)).elim

/-! ### VLD of an address (R161) -/

/-- The entry of a row load. -/
def rowEntry (o : VldOps) (u : Cur) (as : List Nat) (packed : Bool) (desc : BitVec 32) : M LogEnt := do
  let e ← newEntry u o.scope (.vld as packed o.fmt.toNat desc o.lw)
  reserveRow u o.push { e with zf := o.zf }

/-- What a row load does with the bytes it gets. -/
def rowResult (o : VldOps) (u : Cur) (f : MFmt) (a : Int) (ar : Area) (bs : List (Byte × Bool)) : M Unit := do
  emptyAfter u ar (runBytes f.width (laneN o.lw)) o.fe
  modify (fun s => s.noteZero u.core u.strm a.toNat bs)
  deliverRow u (pushDest o.push) (goodRow f o.lw bs) 1

theorem rowEntry_run {o : VldOps} {u : Cur} {as : List Nat} {packed : Bool} {desc : BitVec 32} {s : State} : rowEntry o u as packed desc s
    = .ok { logged s u o.scope (.vld as packed o.fmt.toNat desc o.lw) (if o.push then [vqNum u.strm] else []) with zf := o.zf }
      (s.idTaken.modJob u.core (fun j => j.pushRow u.strm (pushDest o.push) (.resv s.ids))) := rfl

/-- An access that is put off is one without `.zfill`. -/
theorem zf_of_defers {s s2 : State} {b zf : Bool} (h : s.defers (b && !zf) = (true, s2)) : zf = false := by
  cases zf
  · rfl
  · rw [Bool.not_true, Bool.and_false] at h
    cases h

/-- The bound DATA register whose next block a VLD takes (R156). -/
def dataBlock (x : Stream) (m : MAddr) : Option (BitVec 3 × MReg) :=
  match m.base with
  | .m n => (tget none x.m n.toNat).bind (fun r => if r.data then some (n, r) else none)
  | _ => none

theorem dataBlock_none {x : Stream} {m : MAddr} (h : ∀ n r, m.base = .m n → tget none x.m n.toNat = some r → r.data = false) :
    dataBlock x m = none := by
  cases hb : m.base with
  | m n =>
    cases hm : tget none x.m n.toNat with
    | none => simp [dataBlock, hb, hm]
    | some r => simp [dataBlock, hb, hm, h n r hb hm]
  | _ => simp [dataBlock, hb]

theorem dataBlock_some {x : Stream} {m : MAddr} {n : BitVec 3} {r : MReg} (hb : m.base = .m n) (hm : tget none x.m n.toNat = some r)
    (hd : r.data = true) : dataBlock x m = some (n, r) := by
  simp [dataBlock, hb, hm, hd]

section
variable {o : VldOps} {s s1 t : State} {u : Cur} {f : MFmt} (hr : Runs s u o.g)
include hr

/-- A VLD of no bound DATA register is the checks of its address, then its access. -/
theorem vld_completes {a : Int} {ar : Area} (hready : rowLoadReady u o s = .ok (f, a, ar) s1)
    (hm : dataBlock (s.strmAt u.core u.strm) o.at_ = none)
    (h : access (ar.isTrans && !o.zf) u (rowEntry o u [a.toNat] true (descOf (s.jobAt u.core) o.fmt.toNat))
      (fun s => s.goodLoad u.core u.strm ar (runBytes f.width (laneN o.lw)) o.scope o.zf) (rowResult o u f a ar) s1 = .ok () t) :
    Completes (.vld o) s u .next t := by
  simp only [rowLoadReady, mayAccess, if_true, bind_assoc, pure_bind, M.bind_ok, M.pure_ok, Prod.mk.injEq] at hready
  obtain ⟨_, _, hf, _, _, hsp, _, _, he, _, _, hlog, _, _, ha, _, _, har, _, _, hw, _, _, ho, _, _, hwp, ⟨rfl, rfl, rfl⟩, rfl⟩ := hready
  obtain rfl := getFmt_ok hf
  obtain ⟨-, rfl⟩ := needSpace_ok.1 hsp
  refine issueNext_ok hr (M.bind_run hf (M.bind_run hsp (M.bind_run getStrm_run (M.bind_run getJob_run ?_))))
  change (match dataBlock (s.strmAt u.core u.strm) o.at_ with | some (n, r) => vldBlock u o _ _ n r | none => _) s = _
  rw [hm]
  exact M.bind_run he (M.bind_run hlog (M.bind_run ha (M.bind_run har (M.bind_run hw (M.bind_run ho (M.bind_run hwp h))))))

/-- A VLD of a bound DATA register pops its next block. -/
theorem vld_block {m : BitVec 3} {r : MReg} {b : Block} {bs : List Byte} (hlog : needLogEntry u false s = .ok () s)
    (hf : fmtOf (fun i => tget 0 (s.jobAt u.core).fd i) o.fmt.toNat = some f) (hsp : (s.jobAt u.core).noRoom u.strm (pushDest o.push) = none)
    (hbase : o.at_.base = .m m) (hidx : o.at_.idx = .zero) (hfe : o.fe = .none)
    (hm : tget none (s.strmAt u.core u.strm).m m.toNat = some r) (hd : r.data = true) (hpos : r.pos < r.pat.total)
    (hblk : r.pat.blk.toNat = runBytes f.width (laneN o.lw)) (hb : r.buf.head? = some b) (hbs : b.bytes = some bs) :
    Completes (.vld o) s u .next ((s.setM u.core u.strm m (some (r.pop 1))).rowDelivered u (pushDest o.push) (rowOfBytes f o.lw bs) 1) := by
  refine issueNext_ok hr (M.bind_run (getFmt_run hf) (M.bind_run (needSpace_run hsp) (M.bind_run getStrm_run (M.bind_run getJob_run ?_))))
  change (match dataBlock (s.strmAt u.core u.strm) o.at_ with | some (n, r) => vldBlock u o _ _ n r | none => _) s = _
  rw [dataBlock_some hbase hm hd]
  have hchecks : (o.fe != .none || decide (r.pat.total ≤ r.pos) || r.pat.blk.toNat != runBytes f.width (laneN o.lw)) = false := by
    simp [hfe, hblk, hpos]
  have hbuf : r.buf.isEmpty = false := by
    cases hc : r.buf <;> simp_all
  have hpop : popBlock u m s = .ok (some (r, some bs)) (s.setM u.core u.strm m (some (r.pop 1))) := by
    refine M.bind_run getStrm_run ?_
    simp only [hm]
    exact M.bind_run modStrm_run (by rw [hb, Option.bind_some, hbs]; rfl)
  refine M.bind_run (trapIf_run hchecks) (M.bind_run (ensure_run ?_) (M.bind_run hlog (M.bind_run (a := 0) ?_
    (M.bind_run (trapIf_run rfl) (M.bind_run (holdIf_run hbuf) (M.bind_run hpop (M.bind_run (a := 0) ?_ (deliverRow_run ..))))))))
  all_goals rw [hidx]
  all_goals rfl

end

section
variable {o : VldOps} {u : Cur} {f : MFmt} {a : Int} {ar : Area} {s : State} {bs : List (Byte × Bool)}

theorem rowResult_good (hb : firstBad a.toNat bs = none) : rowResult o u f a ar bs s
    = .ok () ((s.emptied u ar (runBytes f.width (laneN o.lw)) o.fe).rowDelivered u (pushDest o.push) (rowOfBytes f o.lw (bs.map (·.1))) 1) := by
  rw [← goodRow_good hb]
  exact M.bind_run emptyAfter_run (M.bind_run (modify_eq (noteZero_good hb)) (deliverRow_run ..))

theorem rowResult_zero {v : Nat} (hb : firstBad a.toNat bs = some v) : rowResult o u f a ar bs s
    = .ok () (((s.emptied u ar (runBytes f.width (laneN o.lw)) o.fe).zeroFilled u v).rowDelivered u (pushDest o.push) (rowOfMarked f o.lw bs) 1) := by
  rw [← goodRow_bad hb]
  exact M.bind_run emptyAfter_run (M.bind_run (modify_eq (noteZero_bad hb)) (deliverRow_run ..))

theorem va_of_rowLoadReady {t : State} (h : rowLoadReady u o s = .ok (f, a, ar) t) :
    ar.va = a.toNat ∧ (ar.isTrans = true → 0x2000000 ≤ ar.va) := by
  simp only [rowLoadReady, M.bind_ok, M.pure_ok, Prod.mk.injEq] at h
  obtain ⟨_, _, -, _, _, -, _, _, -, _, _, -, _, _, -, _, _, hacc, ⟨-, rfl, rfl⟩, -⟩ := h
  exact va_of_mayAccess hacc

end

/-! ### VLDX (R162) -/

/-- What a gather does with the elements it gets. -/
def gatherResult (o : VldOps) (u : Cur) (f : MFmt) (ars : List Area) (l : List (List (Byte × Bool))) : M Unit := do
  modify (fun s => (ars.zip l).foldl (fun s p => s.noteZero u.core u.strm p.1.va p.2) s)
  deliverRow u (pushDest o.push) (goodElems f o.lw l) 1

/-- A gather is its checks, then its access. -/
theorem vldx_completes {o : VldOps} {s s1 t : State} {u : Cur} {f : MFmt} {ars : List Area} (hr : Runs s u o.g)
    (hready : gatherReady u o s = .ok (f, ars) s1)
    (h : access (ars.all Area.isTrans && !o.zf) u (rowEntry o u (ars.map Area.va) false (descOf (s1.jobAt u.core) o.fmt.toNat))
      (State.goodLoads u.core u.strm (runBytes f.width 1) o.scope o.zf ars) (gatherResult o u f ars) s1 = .ok () t) :
    Completes (.vldx o) s u .next t := by
  simp only [gatherReady, M.bind_ok, M.pure_ok, Prod.mk.injEq] at hready
  obtain ⟨_, _, hf, _, _, hw, _, _, hsp, _, _, he, _, _, hlog, _, _, hb, _, _, hi, _, _, hoffs, _, _, hars, _, _, ho, _, _, hwp, ⟨rfl, rfl⟩,
    rfl⟩ := hready
  exact issueNext_ok hr (M.bind_run hf (M.bind_run hw (M.bind_run hsp (M.bind_run he (M.bind_run hlog (M.bind_run hb (M.bind_run hi
    (M.bind_run hoffs (M.bind_run hars (M.bind_run ho (M.bind_run hwp (M.bind_run getJob_run h))))))))))))

/-! ### PREF (R163) -/

theorem pref_completes {g : Guard} {m : MAddr} {scope : Scope} {mc : Bool} {s s1 : State} {u : Cur} {a : Int} (hr : Runs s u g)
    (ha : address u m s = .ok a s1) (h0 : 0 ≤ a) (hn : a + 1 ≤ 2 ^ 56) :
    Completes (.pref g m scope mc) s u .next (if a.toNat < 0x2000000 then s1 else s1.prefetch u.core a.toNat scope mc) := by
  obtain ⟨_, _, he, ha⟩ := M.bind_ok.1 ha
  refine issueNext_ok hr (M.bind_run he (M.bind_run ha (M.bind_run (trapIf_run (decide_eq_false (by omega))) ?_)))
  split
  · rfl
  · exact modify_run

/-- Settles O11: VLD and VLDX are their checks and then one access, or the pop of a fetched block; PREF passes the check of the address space. -/
theorem rowLoads : Obligations.RowLoads := by
  refine ⟨fun o s s1 s2 s3 u f a ar later bs hr hready hm hd => ?_, fun o s u f m r b bs hr hlog hf hsp hbase hidx hfe hm hdata hpos hblk hb hbs =>
    vld_block hr hlog hf hsp hbase hidx hfe hm hdata hpos hblk hb hbs, fun o s s1 s2 s3 u f ars later l hr hready hd => ?_,
    fun g m scope mc s s1 u a hr ha h0 hn => pref_completes hr ha h0 hn⟩
  · obtain ⟨hva, htrans⟩ := va_of_rowLoadReady hready
    have hblk := dataBlock_none hm
    refine ⟨?_, ?_⟩
    · rintro rfl hl
      refine ⟨fun hb => vld_completes hr hready hblk (access_now hd (goodLoad_good hl (hva ▸ hb)) (rowResult_good hb)), fun v hzf htr hb => ?_⟩
      exact vld_completes hr hready hblk (access_now hd (hzf ▸ goodLoad_zero hl (hva ▸ hb) (htrans htr)) (rowResult_zero hb))
    · rintro rfl
      have hrun := vld_completes hr hready hblk (access_later hd rowEntry_run)
      rwa [zf_of_defers hd] at hrun
  · refine ⟨?_, ?_⟩
    · rintro rfl hl hgood
      refine vldx_completes hr hready (access_now hd hl (M.bind_run (modify_eq (noteZeros_good hgood)) ?_))
      rw [← goodElems_good hgood]
      exact deliverRow_run ..
    · rintro rfl
      have hrun := vldx_completes hr hready (access_later hd rowEntry_run)
      rwa [zf_of_defers hd] at hrun

end Sys2Proof.Machine
end

section
/-!
PROOFS. Stores of scalars and of rows (O12).
-/

namespace Sys2Proof.Machine

/-! ### ST and STL (R164, R197) -/

/-- A store of masked bytes is one access, which is put off only where it may be. -/
theorem storeBytes_eq (u : Cur) (later : Bool) (ar : Area) (bs : List (Byte × Byte)) (scope : Scope) (full : Bool) :
    storeBytes u later ar bs scope full = access (later && ar.isTrans) u (newEntry u scope (.st [{ addr := ar.va, bytes := bs }]))
      (fun s => s.storeArea u.core (strmNum u.strm) ar bs scope full) (fun _ => pure ()) := rfl

/-- A scalar store is its checks, then its access. -/
theorem stBody_eq (later : Bool) (o : StOps) (u : Cur) : stBody later o u = storeReady u o >>= fun p =>
    storeBytes u later p.2.2 (fullMask (leBytes p.1.toNat (2 ^ o.sz.toNat))) o.scope (o.fe != .none) := by
  simp only [stBody, storeReady, bind_assoc, pure_bind]

section
variable {o : StOps} {s s1 t : State} {u : Cur} {w : Word} {a : Int} {ar : Area} (hr : Runs s u o.g)
include hr

theorem st_completes (hready : storeReady u o s = .ok (w, a, ar) s1)
    (h : storeBytes u true ar (fullMask (leBytes w.toNat (2 ^ o.sz.toNat))) o.scope (o.fe != .none) s1 = .ok () t) :
    Completes (.st o) s u .next t :=
  issueNext_ok hr (by rw [stBody_eq]; exact M.bind_run hready h)

/-- A store that releases makes its release before its checks. -/
theorem stl_completes {s0 : State} (he : needAll s u {} (addrRds o.at_ ++ [.scalar o.data]) = [])
    (hrel : releaseWait u o.scope (o.scope == .dom) s = .ok () s0) (hready : storeReady u o s0 = .ok (w, a, ar) s1)
    (h : storeBytes u false ar (fullMask (leBytes w.toNat (2 ^ o.sz.toNat))) o.scope (o.fe != .none) s1 = .ok () t) :
    Completes (.stl o) s u .next t :=
  issueNext_ok hr (M.bind_run (ensure_run he) (M.bind_run hrel (by rw [stBody_eq]; exact M.bind_run hready h)))

end

/-! ### VST and VSTX (R165, R166) -/

theorem rowDraws_run {u : Cur} {lw : Bool} {r : Rnd} {s : State} (h : r ≠ .rsto) : rowDraws u lw r s = .ok [] s := by
  rw [rowDraws, if_neg h]
  rfl

section
variable {o : VstOps} {s s1 t : State} {u : Cur} {f : MFmt} {row : Row} (hr : Runs s u o.g) (hrnd : o.rnd ≠ .rsto)
include hr hrnd

/-- A row store is its checks, the flags of its final stores, then its access. -/
theorem vst_completes {a : Int} {ar : Area} (hready : rowStoreReady u o s = .ok (f, row, a, ar) s1)
    (h : storeBytes u true ar (packRun f.width (rowElems f o.lw o.rnd row []).1) o.scope (o.fe != .none)
      (s1.flagged u (rowElems f o.lw o.rnd row []).2) = .ok () t) : Completes (.vst o) s u .next t := by
  simp only [rowStoreReady, M.bind_ok, M.pure_ok, Prod.mk.injEq] at hready
  obtain ⟨_, _, hf, _, _, he, _, _, hlog, _, _, ha, _, _, hrow, _, _, har, _, _, ho, _, _, hw, ⟨rfl, rfl, rfl, rfl⟩, rfl⟩ := hready
  exact issueNext_ok hr (M.bind_run hf (M.bind_run he (M.bind_run hlog (M.bind_run ha (M.bind_run hrow (M.bind_run har (M.bind_run ho
    (M.bind_run hw (M.bind_run (rowDraws_run hrnd) (M.bind_run setFlags_run h))))))))))

/-- A scatter is its checks, the flags of its final stores, then its access. -/
theorem vstx_completes {ars : List Area} (hready : scatterReady u o s = .ok (f, row, ars) s1) {ps : List (Area × List (Byte × Byte))}
    (hps : ps = (ars.zip (rowElems f o.lw o.rnd row []).1).map (fun p => (p.1, packRun f.width [p.2])))
    (h : access (ars.all Area.isTrans) u (newEntry u o.scope (.st (ps.map (fun p => { addr := p.1.va, bytes := p.2 }))))
      (fun s => s.storeAll u.core (strmNum u.strm) o.scope ps) (fun _ => pure ())
      (s1.flagged u (rowElems f o.lw o.rnd row []).2) = .ok () t) : Completes (.vstx o) s u .next t := by
  subst hps
  simp only [scatterReady, M.bind_ok, M.pure_ok, Prod.mk.injEq] at hready
  obtain ⟨_, _, hf, _, _, hw, _, _, he, _, _, hlog, _, _, hb, _, _, hi, _, _, hrow, _, _, hoffs, _, _, hars, _, _, ho, _, _, hwp,
    ⟨rfl, rfl, rfl⟩, rfl⟩ := hready
  exact issueNext_ok hr (M.bind_run hf (M.bind_run hw (M.bind_run he (M.bind_run hlog (M.bind_run hb (M.bind_run hi (M.bind_run hrow
    (M.bind_run hoffs (M.bind_run hars (M.bind_run ho (M.bind_run hwp (M.bind_run (rowDraws_run hrnd) (M.bind_run setFlags_run h)))))))))))))

end

/-- Settles O12: every store is its checks and then one access, which is made now, put off, or found to fault. -/
theorem stores : Obligations.Stores := by
  refine ⟨?_, fun o s s0 s1 s3 u w a ar hr he hrel hready hst => stl_completes hr he hrel hready (access_now rfl hst rfl), ?_, ?_⟩
  · rintro o s s1 s2 s3 u w a ar later bs e x hr hready hd rfl rfl
    refine ⟨?_, ?_, ?_⟩
    · rintro rfl hst
      exact st_completes hr hready (access_now hd hst rfl)
    · rintro rfl hst
      exact st_completes hr hready (access_late hd hst newEntry_run)
    · rintro rfl
      exact st_completes hr hready (access_later hd newEntry_run)
  · rintro o s s1 s2 s3 u f row a ar later bs hr hrnd hready hd rfl
    refine ⟨?_, ?_⟩
    · rintro rfl hst
      exact vst_completes hr hrnd hready (access_now hd hst rfl)
    · rintro rfl
      exact vst_completes hr hrnd hready (access_later hd newEntry_run)
  · rintro o s s1 s2 s3 u f row ars later ps hr hrnd hready hd hps
    refine ⟨?_, ?_⟩
    · rintro rfl hst
      exact vstx_completes hr hrnd hready hps (access_now hd hst rfl)
    · rintro rfl
      exact vstx_completes hr hrnd hready hps (access_later hd newEntry_run)

end Sys2Proof.Machine
end

section
/-!
PROOFS. Gallery stores (O13).
-/

namespace Sys2Proof.Machine

/-! ### GST (R153, R167) -/

theorem sendGallery_run {u : Cur} {row : Bool} {ms : List Nat} {a : Nat} {bs : List (Byte × Byte)} {s : State} :
    sendGallery u row ms a bs s = .ok () (s.galleried u row ms a bs) := rfl

/-- The checks of a gallery store pass, and its network accepts it. -/
theorem galleryReady_then {α : Type} {u : Cur} {row : Bool} {a : Int} {n al : Nat} {ms : List Nat} {s s1 t : State} {k : List Nat → M α} {x : α}
    (h : galleryReady u row a n al s = .ok ms s1) (hk : k ms s1 = .ok x t) : (do
      let ms ← gstAddr u a n al
      watch u a.toNat n false true
      needGallery u row
      k ms : M α) s = .ok x t := by
  obtain ⟨_, _, hms, h⟩ := M.bind_ok.1 h
  obtain ⟨_, _, hw, h⟩ := M.bind_ok.1 h
  obtain ⟨_, _, hg, h⟩ := M.bind_ok.1 h
  obtain ⟨rfl, rfl⟩ := M.pure_ok.1 h
  exact M.bind_run hms (M.bind_run hw (M.bind_run hg hk))

theorem gst_scalar_completes {g : Guard} {data : Src} {m : MAddr} {sz : BitVec 2} {s s1 s2 : State} {u : Cur} {a : Int} {w : Word}
    {ms : List Nat} (hr : Runs s u g) (he : needAll s u {} (addrRds m ++ [.scalar data]) = []) (hlog : needLogEntry u true s = .ok () s)
    (ha : readAddr u m s = .ok a s1) (hw : readScalar u data s1 = .ok w s2)
    (hg : galleryReady u false a (2 ^ sz.toNat) (2 ^ sz.toNat) s2 = .ok ms s2) : Completes (.gst (.scalar g data m sz)) s u .next
      (s2.galleried u false ms a.toNat (fullMask (leBytes w.toNat (2 ^ sz.toNat)))) :=
  issueNext_ok hr (M.bind_run (ensure_run he) (M.bind_run hlog (M.bind_run ha (M.bind_run hw (galleryReady_then hg sendGallery_run)))))

theorem gst_row_completes {g : Guard} {m : MAddr} {fmt : BitVec 5} {rnd : Rnd} {lw : Bool} {s s0 s1 s2 : State} {u : Cur} {f : MFmt} {a : Int}
    {row : Row} {ms : List Nat} (hr : Runs s u g) (hrnd : rnd ≠ .rsto) (hf : rowFmt u fmt.toNat lw s = .ok f s0)
    (he : needAll s0 u {} (addrRds m ++ [.stRow]) = []) (hlog : needLogEntry u true s0 = .ok () s0) (ha : readAddr u m s0 = .ok a s1)
    (hrow : popRow u .cx s1 = .ok row s2) (hg : galleryReady u true a (runBytes f.width (laneN lw)) 16 s2 = .ok ms s2) :
    Completes (.gst (.row g m fmt rnd lw)) s u .next
      ((s2.flagged u (rowElems f lw rnd row []).2).galleried u true ms a.toNat (packRun f.width (rowElems f lw rnd row []).1)) :=
  issueNext_ok hr (M.bind_run hf (M.bind_run (ensure_run he) (M.bind_run hlog (M.bind_run ha (M.bind_run hrow
    (galleryReady_then hg (M.bind_run (rowDraws_run hrnd) (M.bind_run setFlags_run sendGallery_run))))))))

/-! ### Bytes and granules of a whole write (R148) -/

theorem readBytes_succ (m : Memory) (a n : Nat) : readBytes m a (n + 1) = readByte m a :: readBytes m (a + 1) n := by
  simp [readBytes, List.range_succ_eq_map, Nat.add_comm, Nat.add_left_comm]

/-- Bytes written whole read back. -/
theorem readBytes_writeMasked (m : Memory) (a : Nat) {bs : List (Byte × Byte)} (h : ∀ b ∈ bs, b.2 = 0xFF) :
    readBytes (writeMasked m a bs) a bs.length = bs.map (·.1) := by
  induction bs generalizing m a with
  | nil => rfl
  | cons b bs ih =>
    obtain ⟨x, k⟩ := b
    obtain ⟨rfl, hbs⟩ := List.forall_mem_cons.1 h
    have hx : readByte m a &&& ~~~(0xFF : Byte) ||| x &&& 0xFF = x := by
      rw [show (0xFF : Byte) = BitVec.allOnes 8 from rfl, BitVec.and_allOnes]
      simp
    rw [List.length_cons, readBytes_succ, writeMasked, if_neg (by decide), ih _ _ hbs, readByte_writeMasked_out _ _ (.inl (by omega)),
      readByte_writeByte_same, hx, List.map_cons]

theorem tget_setGranules (fe : Tbl Bool) (off n : Nat) (v : Bool) {g : Nat} (hn : n ≠ 0) (h : off / 16 ≤ g) (hg : g ≤ (off + n - 1) / 16) :
    tget false (setGranules fe off n v) g = v := by
  rw [setGranules, if_neg hn, ← List.foldl_map (f := (off / 16 + ·)) (g := fun t k => tput false t k v)]
  rw [tget_foldl_tput false (fun _ => v), if_pos]
  exact List.mem_map.2 ⟨g - off / 16, List.mem_range.2 (by omega), by omega⟩

/-- The granules that a write filled hold no empty one. -/
theorem emptyGranule_setGranules (fe : Tbl Bool) (off n : Nat) : emptyGranule (setGranules fe off n true) off n = none := by
  unfold emptyGranule
  split
  · rfl
  · rename_i hn
    rw [Option.map_eq_none_iff, List.find?_eq_none]
    intro i hi
    rw [tget_setGranules fe off n true hn (by omega) (by have := List.mem_range.1 hi; omega)]
    decide

/-! ### GALLERY_ARRIVAL (R148, R153, R373) -/

/-- A core's scratchpad holds these bytes, in full granules. -/
def Core.holds (k : Core) (a : Nat) (bs : List (Byte × Byte)) : Prop :=
  readBytes k.spad a bs.length = bs.map (·.1) ∧ emptyGranule k.fe a bs.length = none

/-- The bytes written to the scratchpads of several cores, granules filled. -/
def State.spadWrites (s : State) (ms : List Nat) (a : Nat) (bs : List (Byte × Byte)) : State := ms.foldl (fun s c => s.spadWrite c a bs true) s

@[simp] theorem spadWrites_galleries (s : State) (ms : List Nat) (a : Nat) (bs : List (Byte × Byte)) : (s.spadWrites ms a bs).galleries = s.galleries :=
  foldl_field (f := fun (s : State) c => s.spadWrite c a bs true) State.galleries (fun _ _ => rfl) ms s

@[simp] theorem spadWrites_hbm (s : State) (ms : List Nat) (a : Nat) (bs : List (Byte × Byte)) : (s.spadWrites ms a bs).hbm = s.hbm :=
  hbm_foldl (f := fun (s : State) c => s.spadWrite c a bs true) (fun _ _ => rfl) ms s

section
variable {a : Nat} {bs : List (Byte × Byte)} (hbs : ∀ b ∈ bs, b.2 = 0xFF)
include hbs

theorem holds_spadWrite_same (s : State) (c : Nat) : ((s.spadWrite c a bs true).core c).holds a bs := by
  rw [State.spadWrite, core_modCore_same]
  exact ⟨readBytes_writeMasked _ _ hbs, emptyGranule_setGranules ..⟩

theorem holds_spadWrite {s : State} {i : Nat} (c : Nat) (h : (s.core i).holds a bs) : ((s.spadWrite c a bs true).core i).holds a bs := by
  obtain rfl | hi := eq_or_ne i c
  · exact holds_spadWrite_same hbs s i
  · rwa [State.spadWrite, core_modCore_other _ _ hi]

/-- Every member holds the bytes once all are written, and keeps what it holds already. -/
theorem holds_spadWrites {ms : List Nat} {s : State} {i : Nat} (h : i ∈ ms ∨ (s.core i).holds a bs) :
    ((s.spadWrites ms a bs).core i).holds a bs := by
  induction ms generalizing s with
  | nil => exact h.resolve_left List.not_mem_nil
  | cons c ms ih =>
    refine ih ?_
    obtain h | h := h
    · obtain rfl | h := List.mem_cons.1 h
      · exact .inr (holds_spadWrite_same hbs s i)
      · exact .inl h
    · exact .inr (holds_spadWrite hbs c h)

end

/-- A job whose streams have no entry of a gallery store. -/
def Job.galleryDone (j : Job) (id : Nat) : Job :=
  allStrms.foldl (fun j x => j.setStrm x { j.strm x with log := (j.strm x).log.filter (fun e => e.op != .gst id) }) j

theorem log_galleryDone (j : Job) (id : Nat) (x : Strm) : ((j.galleryDone id).strm x).log = (j.strm x).log.filter (fun e => e.op != .gst id) := by
  cases x <;> rfl

theorem log_modJob_galleryDone (s : State) (c id : Nat) (x : Strm) : ∀ e ∈ ((s.modJob c (·.galleryDone id)).strmAt c x).log, e.op ≠ .gst id := by
  rw [State.strmAt, State.jobAt, core_modJob_same]
  cases (s.core c).job with
  | none => cases x <;> exact fun _ h => absurd h List.not_mem_nil
  | some j =>
    rw [Option.map_some, Option.getD_some, log_galleryDone]
    exact fun e he => bne_iff_ne.1 (List.mem_filter.1 he).2

theorem galleryLand_one {id : Nat} {s : State} {g : Gallery} {p : Piece} {rest : List Gallery}
    (h : takeFirstBy (fun (g : Gallery) => g.id == id) s.galleries = some (g, rest)) (hp : g.pieces = [p]) : s.galleryLand id
      = (({ s with galleries := rest } : State).spadWrites g.members p.addr p.bytes).modJob g.src (·.galleryDone id) := by
  simp only [State.galleryLand, h, hp, List.foldl_cons, List.foldl_nil]
  rfl

/-- Settles O13: the network takes the store of a GST whose checks pass; at its arrival each member's write reads back, whatever is written to the
others. -/
theorem galleryStores : Obligations.GalleryStores := by
  refine ⟨fun g data m sz s s1 s2 u a w ms hr he hlog ha hw hg => gst_scalar_completes hr he hlog ha hw hg,
    fun g m fmt rnd lw s s0 s1 s2 u f a row ms hr hrnd hf he hlog ha hrow hg => gst_row_completes hr hrnd hf he hlog ha hrow hg,
    fun id s g p rest h hp hbs => ⟨_, congrArg Host.Outcome.next (galleryLand_one h hp), 
      spadWrites_galleries .., spadWrites_hbm .., fun c hc => ?_, fun x => log_modJob_galleryDone _ _ _ x⟩⟩
  · have hw := holds_spadWrites hbs (a := p.addr) (s := { s with galleries := rest }) (.inl hc)
    obtain rfl | hne := eq_or_ne c g.src
    · rw [core_modJob_same]
      exact hw
    · rw [core_modJob_other _ _ hne]
      exact hw

end Sys2Proof.Machine
end

section
/-!
PROOFS. Stream registers (O14).
-/

namespace Sys2Proof.Machine

/-! ### SBIND (R155, R168) -/

/-- The wait for the order of an access leaves the state. -/
theorem orderAt_ok {u : Cur} {ar : Area} {n : Nat} {s t : State} {x : Unit} (h : orderAt u ar n s = .ok x t) : s = t := by
  cases ar with
  | spad o => exact (M.pure_ok.1 h).2
  | cluster o =>
    obtain ⟨_, _, hg, h⟩ := M.bind_ok.1 h
    obtain ⟨-, rfl⟩ := M.get_ok.1 hg
    exact (holdIf_ok.1 h).2
  | trans va =>
    obtain ⟨_, _, hg, h⟩ := M.bind_ok.1 h
    obtain ⟨-, rfl⟩ := getStrm_ok.1 hg
    exact (holdIf_ok.1 h).2

section
variable {g : Guard} {m : BitVec 3} {s s1 s2 : State} {u : Cur} (hr : Runs s u g)
include hr

/-- A descriptor that can be read and has no illegal field binds the register. -/
theorem sbind_completes {b : Src} {data : Bool} {a : Word} {ar : Area} {bs : List (Byte × Bool)} {r : MReg} (ha : source1 u b s = .ok a s1)
    (har : mayAccess u a.toInt 64 64 .none false false s1 = .ok ar s1) (hw : watch u ar.va 64 true false s1 = .ok () s1)
    (hl : s1.loadArea u.core u.strm ar 64 .strm = (s2, .ok bs)) (hbad : firstBad ar.va bs = none) (hbind : bindOf data (bs.map (·.1)) = some r) :
    Completes (.sbind g m b data) s u .next ((s2.setM u.core u.strm m (some r)).kickIf data u.core u.strm m) := by
  obtain ⟨he, ha⟩ := source1_ok.1 ha
  obtain ⟨_, _, hc, h⟩ := M.bind_ok.1 har
  obtain ⟨_, _, ho, h⟩ := M.bind_ok.1 h
  obtain ⟨_, _, -, h⟩ := M.bind_ok.1 h
  obtain ⟨rfl, -⟩ := M.pure_ok.1 h
  obtain ⟨-, rfl⟩ := areaOf_ok.1 hc
  obtain rfl := orderAt_ok ho
  refine issueNext_ok hr (M.bind_run (ensure_run he) (M.bind_run ha (M.bind_run hc (M.bind_run ho (M.bind_run hw (M.bind_run (liftF_ok.2 hl) ?_))))))
  simp only [hbad, hbind]
  cases data <;> rfl

end

/-! ### The fetch of a block (R156) -/

theorem exec_streamBlockFetch (c : Nat) (x : Strm) (m : BitVec 3) (s : State) : exec (.streamBlockFetch c x m) s = .next (s.blockFetch c x m) := rfl

theorem streamBlockFetch_fetches {c : Nat} {x : Strm} {m : BitVec 3} {s s1 : State} {r : MReg} {ar : Area} {bs : List (Byte × Bool)}
    (hj : (s.core c).job.isSome = true) (hm : tget none (s.strmAt c x).m m.toNat = some r) (hw : r.wants = true)
    (har : checkAddr s c (r.pat.addr (r.pos + r.buf.length)) r.pat.blk.toNat (if r.pat.blk.toNat = 8 then 8 else 16) false = .ok ar)
    (hl : s.loadArea c x ar r.pat.blk.toNat .strm = (s1, .ok bs)) (hb : ∀ b ∈ bs, b.2 = false) :
    exec (.streamBlockFetch c x m) s = .next ((s1.setM c x m (some (r.withBlock bs))).kickFetch c x m) := by
  obtain ⟨j, hj⟩ := Option.isSome_iff_exists.1 hj
  have hm' : tget none (j.strm x).m m.toNat = some r := by rwa [State.strmAt, State.jobAt, hj] at hm
  have hany : bs.any (·.2) = false := List.any_eq_false.2 fun b h => ne_true_of_eq_false (hb b h)
  rw [exec_streamBlockFetch, State.blockFetch]
  simp only [hj, hm', hw, if_true, har, hl, hany, Bool.false_eq_true, if_false]
  rfl

/-! ### SNEXT, STEST and SDROP (R168) -/

section
variable {g : Guard} {m : BitVec 3} {s : State} {u : Cur} (hr : Runs s u g)
include hr

/-- SNEXT by a count that an s register holds. -/
theorem snext_completes {n : BitVec 5} {r : MReg} (hm : tget none (s.strmAt u.core u.strm).m m.toNat = some r)
    (he : needAll s u {} [.scalar (.s n)] = []) : Completes (.snext g m (.s n)) s u .next
      ((s.setM u.core u.strm m (some (r.pop ((s.strmAt u.core u.strm).sReg n.toNat).toNat))).kickIf r.data u.core u.strm m) := by
  refine issueNext_ok hr (M.bind_run getStrm_run ?_)
  simp only [hm]
  refine M.bind_run (ensure_run he) (M.bind_run (M.bind_run getStrm_run rfl) (M.bind_run getStrm_run ?_))
  simp only [hm, Option.getD_some]
  cases r.data <;> rfl

theorem stest_completes {d : Dest} (c : STest) (hd : (s.jobAt u.core).noRoom u.strm d = none) : Completes (.stest g d m c) s u .next
    (s.delivered u d (if mTest (tget none (s.strmAt u.core u.strm).m m.toNat) c then 1 else 0)) :=
  issueNext_ok hr (M.bind_run (needSpace_run hd) (M.bind_run getStrm_run deliver_run))

theorem sdrop_completes : Completes (.sdrop g m) s u .next (s.setM u.core u.strm m none) := issueNext_ok hr modStrm_run

end

/-- Settles O14: each body runs straight through; a fetch keeps the bytes of a block that the core may load. -/
theorem streamRegisters : Obligations.StreamRegisters :=
  ⟨fun _ _ _ _ _ _ _ _ _ _ _ _ hr ha har hw hl hbad hbind => sbind_completes hr ha har hw hl hbad hbind,
    fun _ _ _ _ _ _ _ _ hj hm hw har hl hb => streamBlockFetch_fetches hj hm hw har hl hb,
    fun _ _ _ _ hr => ⟨fun _ _ hm he => snext_completes hr hm he, fun _ c hd => stest_completes hr c hd, sdrop_completes hr⟩⟩

end Sys2Proof.Machine
end

section
/-!
PROOFS. The tag table, the full-empty bits and the lines of the L1 (O15).
-/

namespace Sys2Proof.Machine

/-! ### The tag table (R151, R169) -/

theorem needSlot_run {w : Word} {s : State} (h : w.toNat ≤ 255) : needSlot w s = .ok () s := trapIf_run (decide_eq_false (Nat.not_lt.2 h))

section
variable {g : Guard} {s s1 : State} {u : Cur} (hr : Runs s u g)
include hr

/-- TLOOK delivers the slot that holds the key, and all ones where none does. -/
theorem tlook_completes {d : Dest} {b : Src} {k : Word} (hk : operand1 u d b s = .ok k s1) : Completes (.tlook g d b) s u .next
    (s1.delivered u d (match (s1.core u.core).tags.find? (fun e => e.2 == some (k.setWidth 56)) with
      | some e => BitVec.ofNat 64 e.1
      | none => BitVec.allOnes 64)) := by
  obtain ⟨hd, he, hk⟩ := operand1_ok.1 hk
  exact issueNext_ok hr (M.bind_run (needSpace_run hd) (M.bind_run (ensure_run he) (M.bind_run hk (M.bind_run M.get_run deliver_run))))

theorem tset_completes {a b : Src} {i k : Word} (h : source2 u a b s = .ok (i, k) s1) (hi : i.toNat ≤ 255) :
    Completes (.tset g a b) s u .next (s1.modCore u.core (fun c =>
      { c with tags := tput none (c.tags.filter (fun e => e.2 != some (k.setWidth 56))) i.toNat (some (k.setWidth 56)) })) := by
  obtain ⟨he, _, ha, hb⟩ := source2_ok.1 h
  exact issueNext_ok hr (M.bind_run (ensure_run he) (M.bind_run ha (M.bind_run hb (M.bind_run (needSlot_run hi) modify_run))))

theorem tinv_all_completes (a : Src) : Completes (.tinv g true a) s u .next (s.modCore u.core (fun c => { c with tags := [] })) :=
  issueNext_ok hr modify_run

theorem tinv_one_completes {a : Src} {i : Word} (h : source1 u a s = .ok i s1) (hi : i.toNat ≤ 255) :
    Completes (.tinv g false a) s u .next (s1.modCore u.core (fun c => { c with tags := tput none c.tags i.toNat none })) := by
  obtain ⟨he, ha⟩ := source1_ok.1 h
  exact issueNext_ok hr (M.bind_run (ensure_run he) (M.bind_run ha (M.bind_run (needSlot_run hi) modify_run)))

end

/-! ### Full-empty bits (R170) -/

section
variable {o : FeOps} {s s1 s2 : State} {u : Cur} {a : Int} {n : Word} (ha : address u o.at_ s = .ok a s1) (hn : readScalar u o.cnt s1 = .ok n s2)
include ha hn

theorem feBody_none (v : Bool) (h : n = 0) : feBody v o u s = .ok () s2 := by
  obtain ⟨_, _, he, ha⟩ := M.bind_ok.1 ha
  subst h
  exact M.bind_run he (M.bind_run ha (M.bind_run hn rfl))

/-- The granules of a range in the scratchpad are set or cleared. -/
theorem feBody_sets (v : Bool) {off : Nat} (h : n ≠ 0) (har : checkAddr s2 u.core a (16 * n.toNat) 16 true = .ok (.spad off)) :
    feBody v o u s = .ok () (s2.modCore u.core (fun k => { k with fe := setGranules k.fe off (16 * n.toNat) v })) := by
  obtain ⟨_, _, he, ha⟩ := M.bind_ok.1 ha
  have h0 : ¬ 16 * n.toNat = 0 := fun h0 => h (BitVec.eq_of_toNat_eq (by simpa using h0))
  refine M.bind_run he (M.bind_run ha (M.bind_run hn ((congrFun (if_neg h0) s2).trans ?_)))
  exact M.bind_run (areaOf_ok.2 ⟨har, rfl⟩) modify_run

end

theorem fetest_completes {g : Guard} {d : Dest} {m : MAddr} {s s1 : State} {u : Cur} {a : Int} {off : Nat} (hr : Runs s u g)
    (hd : (s.jobAt u.core).noRoom u.strm d = none) (ha : address u m s = .ok a s1)
    (har : checkAddr s1 u.core a 16 16 true = .ok (.spad off)) : Completes (.fetest g d m) s u .next
      (s1.delivered u d (if tget false (s1.core u.core).fe (off / 16) then 1 else 0)) := by
  obtain ⟨_, _, he, ha⟩ := M.bind_ok.1 ha
  exact issueNext_ok hr (M.bind_run (needSpace_run hd) (M.bind_run he (M.bind_run ha (M.bind_run (areaOf_ok.2 ⟨har, rfl⟩)
    (M.bind_run M.get_run deliver_run)))))

/-! ### Lines of the L1 (R170) -/

section
variable {o : L1Ops} {s s1 s2 : State} {u : Cur} {a : Int} (inv : Bool) (hl : (s.strmAt u.core u.strm).log = [])
include hl

theorem needLogEmpty_run : needLogEmpty u s = .ok () s := M.bind_run getStrm_run (holdIf_run (by rw [hl]; rfl))

theorem l1Body_all (h : o.all = true) : l1Body inv o u s = .ok () (s.l1Clean u.core (strmNum u.strm) (fun _ => true) inv) := by
  refine M.bind_run (needLogEmpty_run hl) ?_
  rw [if_pos h]
  exact modify_run

variable (h : o.all = false) (ha : address u o.at_ s = .ok a s1)
include h ha

/-- The local aperture has no lines. -/
theorem l1Body_local (h0 : 0 ≤ a) (hlt : a < 0x2000000) : l1Body inv o u s = .ok () s1 := by
  obtain ⟨_, _, he, ha⟩ := M.bind_ok.1 ha
  refine M.bind_run (needLogEmpty_run hl) ?_
  rw [if_neg (ne_true_of_eq_false h)]
  refine M.bind_run he (M.bind_run ha ?_)
  rw [decide_eq_true ⟨h0, hlt⟩]
  rfl

theorem l1Body_line {va pa : Nat} (hge : 0x2000000 ≤ a) (har : checkAddr s1 u.core a 1 1 false = .ok (.trans va))
    (ht : s1.translate u.core (s1.jobAt u.core).ctx va .any = (s2, .ok pa)) : l1Body inv o u s
      = .ok () (s2.l1Clean u.core (strmNum u.strm) (fun l => l.pa == pa / 128 * 128) inv) := by
  obtain ⟨_, _, he, ha⟩ := M.bind_ok.1 ha
  refine M.bind_run (needLogEmpty_run hl) ?_
  rw [if_neg (ne_true_of_eq_false h)]
  refine M.bind_run he (M.bind_run ha ?_)
  rw [decide_eq_false (by omega)]
  exact M.bind_run (areaOf_ok.2 ⟨har, rfl⟩) (M.bind_run (getCtx_ok.2 ⟨rfl, rfl⟩) (M.bind_run (liftF_ok.2 ht) modify_run))

end

/-- Settles O15: each body runs straight through, in the case that the clause's premises name. -/
theorem tagsGranulesLines : Obligations.TagsGranulesLines := by
  refine ⟨fun g d b s s1 u k hr hk => ⟨fun e he => ?_, fun he => ?_⟩, fun g a b s s1 u i k hr h hi => tset_completes hr h hi,
    fun g a s s1 u i hr => ⟨tinv_all_completes hr a, fun h hi => tinv_one_completes hr h hi⟩,
    fun o s s1 s2 u a n off hr ha hn => ⟨fun h => ⟨?_, ?_⟩, fun h har => ⟨?_, ?_⟩⟩,
    fun g d m s s1 u a off hr hd ha har => fetest_completes hr hd ha har,
    fun o s s1 s2 u a va pa hr hl => ⟨fun h => ⟨?_, ?_⟩, fun h ha h0 hlt => ⟨?_, ?_⟩, fun h ha hge har ht => ⟨?_, ?_⟩⟩⟩
  · simpa only [he] using tlook_completes hr hk
  · simpa only [he] using tlook_completes hr hk
  · exact issueNext_ok hr (feBody_none ha hn true h)
  · exact issueNext_ok hr (feBody_none ha hn false h)
  · exact issueNext_ok hr (feBody_sets ha hn true h har)
  · exact issueNext_ok hr (feBody_sets ha hn false h har)
  · exact issueNext_ok hr (l1Body_all false hl h)
  · exact issueNext_ok hr (l1Body_all true hl h)
  · exact issueNext_ok hr (l1Body_local false hl h ha h0 hlt)
  · exact issueNext_ok hr (l1Body_local true hl h ha h0 hlt)
  · exact issueNext_ok hr (l1Body_line false hl h ha hge har ht)
  · exact issueNext_ok hr (l1Body_line true hl h ha hge har ht)

end Sys2Proof.Machine
end

section
/-!
PROOFS. The hand-out does not stand still on an empty pool (O43, refuted): a chunk in the shadow bank of a busy core has its record's time slices
watched (R363, R364).
-/

namespace Sys2Proof.Machine

/-- An operator record of one chunk, for core 0 of die 0, which is handed out: TYPE 1, N 8 in CHUNK 8, one bit each in CORES and DIES (R353). -/
def handedRecord : Rec :=
  { queue := 0, idx := 0, bytes := BitVec.ofNat 1024 (1 + 8 * 256 ^ 40 + 8 * 256 ^ 48 + 256 ^ 60 + 256 ^ 64), state := .running, prio := 2,
    irq := false, decls := [], fsb := 0, bind := [], next := 1, running := [(0, 0)], returned := [], reissued := 0, lost := false, order := 0,
    info := 0, susp := none }

/-- A queue of context 2. -/
def handedQueue : Queue := { fn := 0, q := 0, ctx := 2, k := 4, prio := 2, vec := 0, subr := 0, cmpr := 0 }

/-- Core 0 runs the placed program, a job of context 1; its shadow bank holds the record's chunk, which waits for that job to end (R363). -/
def handedState : State :=
  { (State.reset.placeWord 0).modCore 0 (fun k => { k with
      shadow := some { rid := 2, chunk := 0, args := [], yielded := none, core := none } }) with
    ctxs := [(1, some State.reset.placedCtx), (2, some { State.reset.placedCtx with asid := 2 })]
    queues := [(0, some handedQueue)], recs := [(2, some handedRecord)], nextRec := 3 }

/-- Nothing of the record is left to hand out. -/
theorem handedState_pooled : handedState.pooled 0 = [] := by decide +kernel

/-- The hand-out posts the end of the time slice of the job in the way. -/
theorem handedState_watches : Instr.leads (.chunkHandout 0) handedState (fun t => t.posted (.timeSliceExpiry 0)) = true := by decide +kernel

/-- Refutes O43: where nothing in the pool is left to hand out, the hand-out still watches the slices of cores that keep a chunk in its shadow
bank, so it does not leave the state. -/
theorem not_handOut : ¬ Obligations.HandOut := by
  intro h
  obtain ⟨-, -, hidle, -⟩ := h
  obtain ⟨t, ht, hposted⟩ := Instr.leads_iff.1 handedState_watches
  have hsame : t = handedState := Host.Outcome.next.inj (ht.symm.trans (hidle 0 handedState (.inr handedState_pooled)))
  have hnone : handedState.posted (.timeSliceExpiry 0) = false := by decide +kernel
  rw [hsame, hnone] at hposted
  exact Bool.false_ne_true hposted

end Sys2Proof.Machine
end

section
/-!
PROOFS. Fences (O16).
-/

namespace Sys2Proof.Machine

/-! ### A release leaves every core its job (R145, R178) -/

@[simp] theorem hasJob_l1Release (s : State) (c i : Nat) (un : SendUnit) (scope : Scope) :
    (s.l1Release c un scope).hasJob i = s.hasJob i := by
  unfold State.l1Release
  split
  · refine Eq.trans (hasJob_modCore _ c i ?_) (foldl_field (State.hasJob · i) (fun t l => hasJob_writeBack t c i un l) _ s)
    exact fun _ => rfl
  · rfl

@[simp] theorem hasJob_release (s : State) (c i : Nat) (un : SendUnit) (scope : Scope) : (s.release c un scope).hasJob i = s.hasJob i := by
  unfold State.release
  split
  · exact (hasJob_of_cores (modDie_cores ..) i).trans (hasJob_l1Release ..)
  · rfl

/-! ### The wait of a release (R185, R195) -/

/-- A stream that has made its release awaits these acknowledgements. -/
def State.awaiting (s : State) (u : Cur) (ids : List Nat) : State :=
  (s.modStrm u.core u.strm (fun x => { x with unacked := ids })).modStrm u.core u.strm (fun x => { x with relDone := true })

theorem unacked_awaiting {s : State} {u : Cur} (ids : List Nat) (hj : s.hasJob u.core = true) :
    ((s.awaiting u ids).strmAt u.core u.strm).unacked = ids := by
  rw [State.awaiting, strmAt_modStrm_same _ _ ((hasJob_modStrm ..).trans hj), strmAt_modStrm_same _ _ hj]

/-- A step of a body that answers leaves what the rest makes of it. -/
theorem M.bind_of_ok {α β : Type} {m : M α} {k : α → M β} {s s1 : State} {a : α} (hm : m s = .ok a s1) : (m >>= k) s = k a s1 := by
  show EStateM.bind m k s = _
  simp only [EStateM.bind, hm]

section
variable {u : Cur} {scope : Scope} {s : State} (hlog : (s.strmAt u.core u.strm).log = []) (hrel : (s.strmAt u.core u.strm).relDone = false)
include hlog hrel

/-- A release that awaits nothing. -/
theorem releaseWait_run : releaseWait u scope false s = .ok () (s.release u.core (strmNum u.strm) scope) := by
  refine M.bind_run getStrm_run ?_
  rw [hrel]
  exact M.bind_run (needLogEmpty_run hlog) (M.bind_run M.get_run (M.bind_run modify_run rfl))

/-- A release that awaits acknowledgements keeps the slot until none is left. -/
theorem releaseWait_awaits {ids : List Nat} (hj : s.hasJob u.core = true)
    (hids : ids = (s.release u.core (strmNum u.strm) scope).awaited u.core (s.die (coreDie u.core)).clock) :
    releaseWait u scope true s
      = (if ids.isEmpty then pure () else keepFor .busy : M Unit) ((s.release u.core (strmNum u.strm) scope).awaiting u ids) := by
  have hun := unacked_awaiting ids ((hasJob_release s u.core u.core (strmNum u.strm) scope).trans hj)
  refine (M.bind_of_ok getStrm_run).trans ?_
  rw [hrel]
  refine (M.bind_of_ok (needLogEmpty_run hlog)).trans ((M.bind_of_ok M.get_run).trans ((M.bind_of_ok modify_run).trans
    ((M.bind_of_ok M.get_run).trans ?_)))
  rw [← hids]
  refine (M.bind_of_ok modStrm_run).trans ((M.bind_of_ok modStrm_run).trans ((M.bind_of_ok getStrm_run).trans ?_))
  change (if (State.strmAt (State.awaiting _ u ids) u.core u.strm).unacked.isEmpty then pure () else keepFor .busy : M Unit) _ = _
  rw [hun]
  rfl

end

/-! ### FENCE (R194, R195) -/

section
variable {g : Guard} {scope : Scope} {s s1 : State} {u : Cur} (hr : Runs s u g)
include hr

theorem fence_acq_completes (h : (s.strmAt u.core u.strm).log.any (fun e => e.op.loads) = false) :
    Completes (.fence g .acq scope) s u .next (s.acquire u.core u.strm scope false) :=
  issueNext_ok hr (M.bind_run (M.bind_run getStrm_run (holdIf_run h)) modify_run)

/-- A release at strm or core scope retires at once. -/
theorem fence_rel_narrow_completes (h : scopeWide scope = false) :
    Completes (.fence g .rel scope) s u .next (s.modStrm u.core u.strm (fun x => { x with relAt := s.ids })) :=
  issueNext_ok hr ((congrFun (if_neg (ne_true_of_eq_false h)) s).trans (M.bind_run M.get_run modStrm_run))

/-- A release at die or wider is its wait, acknowledgements included at dom. -/
theorem fence_rel_wide_completes (h : scopeWide scope = true) (hw : releaseWait u scope (scope == .dom) s = .ok () s1) :
    Completes (.fence g .rel scope) s u .next s1 :=
  issueNext_ok hr ((congrFun (if_pos h) s).trans hw)

/-- A release at dom that still awaits acknowledgements keeps its slot. -/
theorem fence_rel_dom_keeps (hw : releaseWait u .dom true s = .error (.keep .busy) s1) (h2 : u.second = false) :
    exec (.fence g .rel .dom) s = .next (s1.holdAt u .busy) := by
  refine (issue_stop hr (M.bind_stop hw)).trans ?_
  rw [h2]
  rfl

theorem fence_full_completes (hw : releaseWait u scope (scopeWide scope) s = .ok () s1) :
    Completes (.fence g .full scope) s u .next (s1.acquire u.core u.strm scope true) :=
  issueNext_ok hr (M.bind_run hw modify_run)

end

/-- Settles O16: each kind is its part of a release and an acquire; a release at dom ends by what its stream still awaits. -/
theorem fences : Obligations.Fences := by
  refine fun g scope s s1 u hr => ⟨fence_acq_completes hr, fence_rel_narrow_completes hr, fence_rel_wide_completes hr,
    fence_full_completes hr, fun hlog hrel => ⟨releaseWait_run hlog hrel, ?_⟩⟩
  rintro _ ids rfl hids rfl t ht
  obtain rfl : t = State.awaiting _ u ids := ht
  have hwait := releaseWait_awaits hlog hrel hr.job hids
  refine ⟨fun hnil => ?_, fun hne h2 => fence_rel_dom_keeps hr (hwait.trans (congrFun (if_neg ?_) _)) h2⟩
  · exact fence_rel_wide_completes hr rfl (hwait.trans (congrFun (if_pos (List.isEmpty_iff.2 hnil)) _))
  · exact fun h => hne (List.isEmpty_iff.1 h)

end Sys2Proof.Machine
end

section
/-!
PROOFS. Atomics (O17).
-/

namespace Sys2Proof.Machine

/-! ### The access of an atomic (R174, R199) -/

theorem localRead_run {u : Cur} {ar : Area} {n : Nat} {s : State} (h : s.localBad u.core ar n = none) :
    localRead u ar n s = .ok (s.localBytes u.core ar n) s := by
  refine M.bind_run M.get_run ?_
  rw [h]
  rfl

/-- The end of an atomic on an old value. -/
def State.atomicDone (s : State) (u : Cur) (d : Dest) (p : AtomicOp) (m : Nat) : State :=
  (s.flagged u (p.flags m)).delivered u d (atomicOld p.sub p.fmt m)

theorem atomicEnd_run {u : Cur} {d : Dest} {p : AtomicOp} {m : Nat} {s : State} : atomicEnd u d p m s = .ok () (s.atomicDone u d p m) :=
  M.bind_run setFlags_run deliver_run

section
variable {u : Cur} {d : Dest} {p : AtomicOp} {s : State}

theorem atomicAt_spad {o : Nat} (h : s.localBad u.core (.spad o) p.n = none) : atomicAt u (.spad o) d p s = .ok ()
    ((s.spadWrite u.core o (fullMask (leBytes (p.new (leNat (readBytes (s.core u.core).spad o p.n))) p.n)) false).atomicDone u d p
      (leNat (readBytes (s.core u.core).spad o p.n))) :=
  M.bind_run (localRead_run h) (M.bind_run modify_run atomicEnd_run)

theorem atomicAt_cluster {o : Nat} (h : s.localBad u.core (.cluster o) p.n = none) : atomicAt u (.cluster o) d p s = .ok ()
    ((s.clusterWrite u.core o (fullMask (leBytes (p.new (leNat (s.clusterRead u.core o p.n))) p.n))).atomicDone u d p
      (leNat (s.clusterRead u.core o p.n))) :=
  M.bind_run (localRead_run h) (M.bind_run modify_run atomicEnd_run)

/-- The entry of an atomic in the operand log. -/
def atomicEntry (s : State) (u : Cur) (d : Dest) (p : AtomicOp) (va : Nat) : LogEnt :=
  { logged s u .strm (p.log va) ((destStrms d).map (qNum u.strm)) with reg := d.reg }

section
variable {va : Nat} {s2 s3 : State}

/-- At a home of this module the old element gives way in one step. -/
theorem atomicAt_home {ps : List (Nat × Nat)} {m : Nat}
    (ht : s.translateRange u.core (s.jobAt u.core).ctx va p.n .rw = (s2, .ok ps)) (hown : paMod (ps.headD (0, 0)).1 = s2.ownMod)
    (hm : s2.atomicHome u.core u.strm va (ps.headD (0, 0)).1 p.n p.new = (s3, .ok m)) :
    atomicAt u (.trans va) d p s = .ok () (s3.atomicDone u d p m) := by
  refine M.bind_run (getCtx_ok.2 ⟨rfl, rfl⟩) (M.bind_run M.get_run ?_)
  simp only [ht, hown, decide_true, if_true]
  refine M.bind_run M.get_run ?_
  simp only [ht, hm]
  exact M.bind_run M.set_run atomicEnd_run

/-- On another module's memory the stream waits for the home's answer. -/
theorem atomicAt_remote {ps : List (Nat × Nat)} (ht : s.translateRange u.core (s.jobAt u.core).ctx va p.n .rw = (s2, .ok ps))
    (hown : paMod (ps.headD (0, 0)).1 ≠ s2.ownMod) : atomicAt u (.trans va) d p s = .ok ()
      (((s.idTaken.reserved u d s.ids).entered u (atomicEntry s u d p va)).modStrm u.core u.strm (fun x => { x with replay := true })) := by
  refine M.bind_run (getCtx_ok.2 ⟨rfl, rfl⟩) (M.bind_run M.get_run ?_)
  simp only [ht, decide_eq_false hown, Bool.false_eq_true, if_false]
  exact M.bind_run (M.bind_run newEntry_run reserveScalar_run) (M.bind_run modStrm_run modStrm_run)

/-- A translation that faults leaves the entry, and nothing of what it found. -/
theorem atomicAt_late {x : AccFault} (ht : s.translateRange u.core (s.jobAt u.core).ctx va p.n .rw = (s2, .error x)) :
    atomicAt u (.trans va) d p s = .ok () ((s.idTaken.reserved u d s.ids).faulting u (atomicEntry s u d p va)) := by
  refine M.bind_run (getCtx_ok.2 ⟨rfl, rfl⟩) (M.bind_run M.get_run ?_)
  simp only [ht, if_true]
  refine M.bind_run M.get_run ?_
  simp only [ht]
  exact M.bind_run (M.bind_run newEntry_run reserveScalar_run) putLate_run

end

end

/-- An instruction that completes as the access of an atomic does is that atomic. -/
theorem atomicRuns_of_access {i : Instr} {s s1 : State} {u : Cur} {ar : Area} {d : Dest} {p : AtomicOp}
    (h : ∀ t, atomicAt u ar d p s1 = .ok () t → Completes i s u .next t) :
    AtomicRuns i s s1 u ar d p.n p.log p.new p.flags (atomicOld p.sub p.fmt) := by
  refine ⟨?_, ?_, ?_, ?_⟩
  · rintro o m rfl hb rfl
    exact h _ (atomicAt_spad hb)
  · rintro o m rfl hb rfl
    exact h _ (atomicAt_cluster hb)
  · rintro va ps s2 s3 m rfl ht hown hm
    exact h _ (atomicAt_home ht hown hm)
  · rintro va s2 e rfl rfl
    exact ⟨fun ps ht hown => h _ (atomicAt_remote ht hown), fun x ht => h _ (atomicAt_late ht)⟩

/-! ### The instructions (R198, R199) -/

/-- What an integer atomic does with the operand in DST. -/
def integerAtomic (o : AOps) (sub : Nat) (d : Word) : AtomicOp := { sub := sub, n := if o.dbl then 8 else 4, d := d }

section
variable {o : AOps} {s s1 : State} {u : Cur} {ar : Area} {d : Word} (hr : Runs s u o.g)
  (ha : atomicAddr u o.d o.at_ (if o.dbl then 8 else 4) s = .ok ar s1) (hd : readDst u o.d s1 = .ok d s1)
include hr ha hd

/-- An instruction that is an integer atomic on the operand in DST. -/
theorem atomicOp_runs {i : Instr} {sub : Nat} (hi : exec i s = atomicOp o sub s) :
    AtomicRuns i s s1 u ar o.d (integerAtomic o sub d).n (integerAtomic o sub d).log (integerAtomic o sub d).new
      (integerAtomic o sub d).flags (atomicOld sub 0) :=
  atomicRuns_of_access (p := integerAtomic o sub d) fun _ h => hi.trans (issueNext_ok hr (M.bind_run ha (M.bind_run hd h)))

/-- ACAS compares with the register DST names and stores the next. -/
theorem acas_runs {i : BitVec 5} (hreg : o.d.reg = some (.s i)) {p : AtomicOp}
    (hp : p = { integerAtomic o 7 ((s1.strmAt u.core u.strm).sReg (i.toNat + 1)) with cmp := d }) :
    AtomicRuns (.acas o) s s1 u ar o.d p.n p.log p.new p.flags (atomicOld p.sub p.fmt) := by
  refine atomicRuns_of_access fun _ h => issueNext_ok hr (M.bind_run ha (M.bind_run hd (M.bind_run getStrm_run ?_)))
  simp only [hreg]
  rwa [hp] at h

end

/-- AFADD outside mode 5 draws nothing. -/
theorem afadd_runs {o : AfOps} {s s1 : State} {u : Cur} {ar : Area} {d : Word} (hr : Runs s u o.g) (hrnd : o.rnd ≠ .rsto) {p : AtomicOp}
    (hp : p = { sub := 8, n := (afFmt o.fmt.toNat).width / 8, fmt := o.fmt.toNat, rnd := o.rnd, d := d })
    (ha : atomicAddr u o.d o.at_ p.n s = .ok ar s1) (hd : readDst u o.d s1 = .ok d s1) :
    AtomicRuns (.afadd o) s s1 u ar o.d p.n p.log p.new p.flags (atomicOld p.sub p.fmt) := by
  subst hp
  exact atomicRuns_of_access fun _ h =>
    issueNext_ok hr (M.bind_run ha (M.bind_run (drawFor_run hrnd) (M.bind_run hd h)))

/-- Settles O17: every atomic is its checks and then one access, whose operation on the old element the rules state. -/
theorem atomics_replace_deliver : Obligations.Atomics := by
  refine ⟨?_, fun o s s1 u ar d f hr hrnd hf ha hd => ?_⟩
  · rintro o s s1 u ar d n x y one hr rfl ha hd rfl hy rfl
    obtain rfl := funext hy
    refine ⟨atomicOp_runs hr ha hd rfl, atomicOp_runs hr ha hd rfl, atomicOp_runs hr ha hd rfl, atomicOp_runs hr ha hd rfl,
      atomicOp_runs hr ha hd rfl, atomicOp_runs hr ha hd rfl, atomicOp_runs hr ha hd rfl, ?_⟩
    rintro i w hreg rfl
    exact acas_runs hr ha hd hreg rfl
  · have hfmt : afFmt o.fmt.toNat = f := by rw [afFmt, hf, Option.getD_some]
    subst hfmt
    exact afadd_runs hr hrnd rfl ha hd

end Sys2Proof.Machine
end

section
/-!
PROOFS. Timeline counters (O18).
-/

namespace Sys2Proof.Machine

/-! ### WAITT (R201) -/

theorem acquireAt_run {u : Cur} {scope : Scope} {s : State} : acquireAt u scope s = .ok () (s.waitAcquired u scope) := rfl

/-- The end of a WAITT of number n on a counter t. -/
def waitEnd (u : Cur) (o : CtrOps) (t : TCtr) (n : Word) : M Unit := do
  let ok := n.ule t.done
  match o.nb with
  | none => if ok then acquireAt u t.acqs else holdFor (.counter o.ctr.toNat (t.iss.ult n))
  | some p =>
    if ok then acquireAt u t.acqs
    modStrm u (fun x => x.setPred p ok)

section
variable {o : CtrOps} {s s1 : State} {u : Cur} {a b : Word} (hr : Runs s u o.g) (hs : source2 u o.a o.b s = .ok (a, b) s1)
include hr hs

/-- A WAITT reads its number, and ends as its counter tells. -/
theorem waitt_completes {t : State} (h : waitEnd u o ((s1.jobAt u.core).ctr o.ctr.toNat) (a + b) s1 = .ok () t) :
    Completes (.waitt o) s u .next t := by
  obtain ⟨he, _, hx, hy⟩ := source2_ok.1 hs
  exact issueNext_ok hr (M.bind_run (ensure_run he) (M.bind_run hx (M.bind_run hy (M.bind_run getJob_run h))))

/-- A number that is done is acquired. -/
theorem waitt_done_completes (h : (a + b).toNat ≤ ((s1.jobAt u.core).ctr o.ctr.toNat).done.toNat) :
    (o.nb = none → Completes (.waitt o) s u .next (s1.waitAcquired u ((s1.jobAt u.core).ctr o.ctr.toNat).acqs))
    ∧ ∀ p, o.nb = some p → Completes (.waitt o) s u .next
        ((s1.waitAcquired u ((s1.jobAt u.core).ctr o.ctr.toNat).acqs).modStrm u.core u.strm (fun x => x.setPred p true)) := by
  have hok : (a + b).ule ((s1.jobAt u.core).ctr o.ctr.toNat).done = true := decide_eq_true h
  refine ⟨fun hnb => waitt_completes hr hs ?_, fun p hnb => waitt_completes hr hs ?_⟩
  · simp only [waitEnd, hnb, hok, if_true]
    exact acquireAt_run
  · simp only [waitEnd, hnb, hok, if_true]
    exact M.bind_run acquireAt_run modStrm_run

/-- A number that is not done clears the predicate of a WAITT that does not block. -/
theorem waitt_pending_completes (h : ((s1.jobAt u.core).ctr o.ctr.toNat).done.toNat < (a + b).toNat) {p : BitVec 3} (hnb : o.nb = some p) :
    Completes (.waitt o) s u .next (s1.modStrm u.core u.strm (fun x => x.setPred p false)) := by
  have hok : (a + b).ule ((s1.jobAt u.core).ctr o.ctr.toNat).done = false := decide_eq_false (Nat.not_le.2 h)
  refine waitt_completes hr hs ?_
  simp only [waitEnd, hnb, hok, Bool.false_eq_true, if_false]
  exact modStrm_run

end

/-! ### TLRD (R202) -/

/-- The part of a counter that a TLRD selects. -/
def TCtr.part (t : TCtr) : TlSel → Word
  | .done => t.done
  | .iss => t.iss
  | .errn => t.errn
  | .acqs => BitVec.ofNat 64 (scopeNum t.acqs)

theorem tlrd_completes {g : Guard} {d : Dest} {n : BitVec 4} {s : State} {u : Cur} (hr : Runs s u g)
    (hd : (s.jobAt u.core).noRoom u.strm d = none) (sel : TlSel) :
    Completes (.tlrd g d n sel) s u .next (s.delivered u d (((s.jobAt u.core).ctr n.toNat).part sel)) :=
  issueNext_ok hr (M.bind_run (needSpace_run hd) (M.bind_run getJob_run (by cases sel <;> exact deliver_run)))

/-! ### TLADV (R203) -/

/-- A counter's numbers taken by a TLADV, which stands among those of its job in progress. -/
def Job.advancing (j : Job) (n : BitVec 4) (k : Word) (a : Adv) : Job :=
  { j.modCtr n.toNat (fun c => { c with iss := c.iss + k }) with adv := j.adv ++ [a] }

/-- An issue that waits for the stream's earlier accesses at a narrow scope goes on where it need not wait. -/
theorem narrowWait_run {α : Type} {u : Cur} {scope : Scope} {s : State} (k : Unit → M α)
    (h : scopeWide scope = true ∨ (s.strmAt u.core u.strm).log = []) :
    (if !scopeWide scope then needLogEmpty u >>= k else k ()) s = k () s := by
  split
  · rename_i hn
    have hlog := h.resolve_left fun hw => by simp [hw] at hn
    exact M.bind_of_ok (needLogEmpty_run hlog)
  · rfl

section
variable {g : Guard} {d : Dest} {n : BitVec 4} {b : Src} {scope : Scope} {s s1 s2 : State} {u : Cur} {k : Word} {acks log : List Nat}

/-- A TLADV that need not wait takes its numbers, delivers the last, and goes on as far as it can. -/
theorem tladv_completes (hr : Runs s u g) (hk : operand1 u d b s = .ok k s1) (h1 : 1 ≤ k.toNat) (hmax : k.toNat ≤ 65536)
    (htake : ((s1.jobAt u.core).ctr n.toNat).canTake k.toNat = true) (hlog : log = (s1.strmAt u.core u.strm).log.map (·.id))
    (hissue : scopeWide scope = true ∨ (s.strmAt u.core u.strm).log = [])
    (hrel : (if log.isEmpty then s1.advRelease u.core u.strm scope else (s1, [])) = (s2, acks)) :
    Completes (.tladv g d n b scope) s u .next (((s2.modJob u.core (fun j => j.advancing n k
      { advOf u.strm n ((s1.jobAt u.core).ctr n.toNat).iss k.toNat scope with log := log, acks := acks })).progressAdv u.core).delivered u d
        (((s1.jobAt u.core).ctr n.toNat).iss + k)) := by
  obtain ⟨hd, he, hread⟩ := operand1_ok.1 hk
  have hcount : decide (k.toNat < 1 ∨ 65536 < k.toNat) = false := decide_eq_false (by omega)
  have hroom : (!((s1.jobAt u.core).ctr n.toNat).canTake k.toNat) = false := congrArg (!·) htake
  refine issueNext_ok hr (M.bind_run (needSpace_run hd) (M.bind_run (ensure_run he) ((narrowWait_run _ hissue).trans ?_)))
  refine M.bind_run hread (M.bind_run (trapIf_run hcount) (M.bind_run getJob_run (M.bind_run (trapIf_run hroom)
    (M.bind_run getStrm_run (M.bind_run M.get_run ?_)))))
  rw [← hlog, hrel]
  exact M.bind_run M.set_run (M.bind_run modJob_run (M.bind_run modify_run deliver_run))

end

/-- Settles O18: WAITT and TLRD end by the counter they read; TLADV makes its release where nothing of its stream is unperformed, and otherwise
stands in progress with the accesses it waits for. -/
theorem timelineCounters : Obligations.TimelineCounters := by
  refine ⟨fun o s s1 u a b hr hs => ⟨fun h => waitt_done_completes hr hs h, fun h p hnb => waitt_pending_completes hr hs h hnb⟩,
    fun g d n s u hr hd => ⟨tlrd_completes hr hd .done, tlrd_completes hr hd .iss, tlrd_completes hr hd .errn,
      tlrd_completes hr hd .acqs⟩, ?_⟩
  rintro g d n b scope s s1 s2 u k acks log a hr hk h1 hmax htake rfl hlog
  refine ⟨fun hlog0 hnil hrel => ?_, fun hw hne => ?_⟩
  · have h := tladv_completes hr hk h1 hmax htake hlog (.inr hlog0) ((if_pos (List.isEmpty_iff.2 hnil)).trans hrel)
    rwa [hnil] at h
  · exact tladv_completes hr hk h1 hmax htake hlog (.inl hw) (if_neg fun h => hne (List.isEmpty_iff.1 h))

end Sys2Proof.Machine
end

section
/-!
PROOFS. Lane operations of two sources, comparisons and lane masks (O22, O24).
-/

namespace Sys2Proof.Machine

/-! ### Lane operations of two sources (R212 to R214) -/

/-- A lane operation of two sources delivers its lanes where its operands are readable. -/
theorem vecOp_next {o : VOps} {int rd : Bool} {s s1 : State} {u : Cur} {a b d : List Nat} (lat : Nat) (op : Nat → Nat → Nat → Nat × Flg)
    (hr : Runs s u o.g) (hl : lanes2 u o int rd s = .ok (a, b, d) s1) :
    vecOp o int rd lat op s
      = .next ((s1.lanesPut u o.d o.lw o.k lat (fun i => op (laneAt a i) (laneAt b i) (laneAt d i))).retire u .next) := by
  simp only [lanes2, M.bind_ok, M.pure_ok, Prod.mk.injEq] at hl
  obtain ⟨_, _, hd, _, _, hw, _, _, he, _, _, ha, _, _, hb, _, _, ho, ⟨rfl, rfl, rfl⟩, rfl⟩ := hl
  exact issueNext_ok hr (M.bind_run hd (M.bind_run hw (M.bind_run he (M.bind_run ha (M.bind_run hb
    (M.bind_run ho (putLanes_run ..)))))))

/-- Settles O22: each instruction is its lane operation, on the sources it has read. -/
theorem vectorTwoSources : Obligations.VectorTwoSources := by
  refine fun o s s1 u a b d hr => ⟨fun hl => ?_, fun hl => vecOp_next 4 (fun a b d => fltFma o.lw a b d) hr hl, fun hl x y k hx hy hk => ?_,
    fun hl x y k hx hy hk => ?_⟩
  · exact ⟨vecOp_next 4 (fun a b _ => fltAdd o.lw a b) hr hl, vecOp_next 4 (fun a b _ => fltSub o.lw a b) hr hl,
      vecOp_next 4 (fun a b _ => fltMul o.lw a b) hr hl, vecOp_next 4 (fun a b _ => (fltMinMax false o.lw a b, 0)) hr hl,
      vecOp_next 4 (fun a b _ => (fltMinMax true o.lw a b, 0)) hr hl⟩
  · subst hx hy hk
    exact ⟨vecOp_next 4 (fun a b _ => (intMinMax false o.lw a b, 0)) hr hl, vecOp_next 4 (fun a b _ => (intMinMax true o.lw a b, 0)) hr hl,
      vecOp_next 1 (fun a b _ => (intLane o.lw (· + ·) a b, 0)) hr hl, vecOp_next 3 (fun a b _ => (intLane o.lw (· * ·) a b, 0)) hr hl⟩
  · subst hx hy hk
    exact ⟨vecOp_next 1 (fun a b _ => (bitLane o.lw (· &&& ·) a b, 0)) hr hl, vecOp_next 1 (fun a b _ => (bitLane o.lw (· ||| ·) a b, 0)) hr hl,
      vecOp_next 1 (fun a b _ => (bitLane o.lw (· ^^^ ·) a b, 0)) hr hl,
      vecOp_next 1 (fun a b _ => (bitLane o.lw (fun x y => x <<< (y % 64)) a b, 0)) hr hl,
      vecOp_next 1 (fun a b _ => (laneShr o.lw false a b, 0)) hr hl, vecOp_next 1 (fun a b _ => (laneShr o.lw true a b, 0)) hr hl⟩

/-! ### Lane masks (R207, R211, R217, R218) -/

/-- Handing a mask on always completes. -/
theorem deliverMask_run {u : Cur} {d : Dest} {m : Mask} {s : State} : deliverMask u d m s = .ok () (s.maskPut u d m) := by
  unfold deliverMask State.maskPut
  cases d.reg with
  | none => rfl
  | some r => cases r <;> rfl

theorem vcmp_completes {o : VOps} {int : Bool} {s s1 : State} {u : Cur} {a b : List Nat} (c : Cond) (x : Bool) (hr : Runs s u o.g)
    (hl : cmpLanes u o int s = .ok (a, b) s1) :
    Completes (.vcmp o c int x) s u .next (s1.maskPut u o.d (maskOf (a.zipIdx.map (fun p =>
      (s1.maskOf u o.k).getLsbD p.2 && cmpLane o.lw int c x p.1 (laneAt b p.2))))) := by
  simp only [cmpLanes, M.bind_ok, M.pure_ok, Prod.mk.injEq] at hl
  obtain ⟨_, _, he, _, _, ha, _, _, hb, ⟨rfl, rfl⟩, rfl⟩ := hl
  exact issueNext_ok hr (M.bind_run he (M.bind_run ha (M.bind_run hb (M.bind_run getMask_run deliverMask_run))))

theorem kpopc_completes {g : Guard} {d : Dest} {ka k : BitVec 4} {s : State} {u : Cur} (lw : Bool) (hr : Runs s u g)
    (hd : (s.jobAt u.core).noRoom u.strm d = none) :
    Completes (.kpopc g d ka lw k) s u .next (s.delivered u d (BitVec.ofNat 64 ((List.range (laneN lw)).filter (fun i =>
      (s.maskOf u ka).getLsbD i && (s.maskOf u k).getLsbD i)).length)) := by
  have hcount : popCount (laneN lw) (s.maskOf u ka &&& s.maskOf u k).toNat
      = ((List.range (laneN lw)).filter (fun i => (s.maskOf u ka).getLsbD i && (s.maskOf u k).getLsbD i)).length := by
    simp only [popCount_eq, BitVec.toNat_and, Nat.testBit_and, BitVec.getLsbD]
  rw [← hcount]
  exact issueNext_ok hr (M.bind_run (needSpace_run hd) (M.bind_run getMask_run (M.bind_run getMask_run deliver_run)))

/-- Settles O24: each instruction hands on the mask, or the count, of the masks and lanes it has read. -/
theorem laneMasks : Obligations.LaneMasks :=
  ⟨fun _ c _ x _ _ _ _ _ hr hl => vcmp_completes c x hr hl, fun _ _ _ _ _ _ hr =>
    ⟨issueNext_ok hr (M.bind_run getMask_run (M.bind_run getMask_run deliverMask_run)),
      issueNext_ok hr (M.bind_run getMask_run (M.bind_run getMask_run deliverMask_run)),
      issueNext_ok hr (M.bind_run getMask_run deliverMask_run), fun hd lw => kpopc_completes lw hr hd⟩⟩

end Sys2Proof.Machine
end

section
/-!
PROOFS. Conversions between lane formats and block formats (O25).
-/

namespace Sys2Proof.Machine

/-! ### The parts of a conversion (R71, R209, R219, R221 to R223) -/

/-- Outside mode 5 a lane operation draws nothing (R71). -/
theorem laneDraws_run {u : Cur} {r : Rnd} {inc : List Bool} {s : State} (h : r ≠ .rsto) : laneDraws u r inc s = .ok [] s := by
  rw [laneDraws, if_neg h]
  rfl

/-- A destination row that may be written leaves the state. -/
theorem needRowWrite_same {u : Cur} {d : Dest} {s t : State} {v : Unit} (h : needRowWrite u d s = .ok v t) : s = t := by
  unfold needRowWrite at h
  cases hd : d.reg with
  | none => rw [hd] at h; exact (M.pure_ok.1 h).2
  | some r =>
    rw [hd] at h
    cases r
    case v n =>
      obtain ⟨_, _, hj, h⟩ := M.bind_ok.1 h
      obtain ⟨rfl, rfl⟩ := getJob_ok.1 hj
      obtain ⟨_, _, hg, h⟩ := M.bind_ok.1 h
      cases hg
      exact (holdIf_ok.1 h).2
    all_goals exact (M.pure_ok.1 h).2

/-- Values of a range numbered by their places are numbered by the range itself. -/
theorem map_zipIdx_range {α β : Type} (n : Nat) (f : Nat → α) (g : α × Nat → β) :
    ((List.range n).map f).zipIdx.map g = (List.range n).map (fun i => g (f i, i)) := by
  apply List.ext_getElem <;> simp

theorem blockRows_ok {u : Cur} {o : ROps} {k : BitVec 4} {s s1 : State} {a : Row} {b : List Nat} (h : blockRows u o k s = .ok (a, b) s1) :
    (s.jobAt u.core).noRoom u.strm o.d = none ∧ needRowWrite u o.d s = .ok () s
      ∧ needAll s u {} ([.vec o.a, .vec o.b] ++ dstRd o.d k false) = []
      ∧ ∃ s0 r, readVec u false false o.a s = .ok a s0 ∧ readVec u false false o.b s0 = .ok r s1 ∧ rowLanes false r = b := by
  simp only [blockRows, M.bind_ok, M.pure_ok, Prod.mk.injEq] at h
  obtain ⟨_, _, hd, _, _, hw, _, _, he, _, s0, ha, r, _, hb, ⟨rfl, rfl⟩, rfl⟩ := h
  obtain ⟨hroom, rfl⟩ := needSpace_ok.1 hd
  obtain rfl := needRowWrite_same hw
  obtain ⟨hready, rfl⟩ := ensure_ok.1 he
  exact ⟨hroom, hw, hready, s0, r, ha, hb, rfl⟩

/-! ### The instructions -/

theorem vcvt_completes {o : ROps1} {k : BitVec 4} {c : VCvtKind} {s s1 s2 : State} {u : Cur} {a old : Row} (hr : Runs s u o.g)
    (hm : cvtRnd c ≠ .rsto) (hd : (s.jobAt u.core).noRoom u.strm o.d = none) (hw : needRowWrite u o.d s = .ok () s)
    (he : needAll s u {} ([.vec o.a] ++ dstRd o.d k ((cvtWidths c).2 && !(cvtWidths c).1 && destVq o.d)) = [])
    (ha : readVec u (cvtWidths c).1 (c matches .i36f36 | .i18f18 | .i36i18 _ | .i18i36 _) o.a s = .ok a s1) (ho : oldRow u o.d s1 = .ok old s2) :
    ∀ inc r, inc = (List.range (laneN (cvtWidths c).2)).map (fun i => (s.maskOf u k).getLsbD i && cvtWrites c i) →
      r = maskedLanes (cvtWidths c).2 (maskOf inc) (rowLanes (cvtWidths c).2 old)
        (fun i => cvtLane c 0 (laneAt (rowLanes (cvtWidths c).1 a) (cvtSrcLane c i))) →
      Completes (.vcvt o k c) s u .next
        ((s2.flagged u r.2).rowDelivered u o.d r.1 2 (k != 0 || ((cvtWidths c).2 && !(cvtWidths c).1))) := by
  rintro inc r rfl rfl
  refine issueNext_ok hr (M.bind_run (needSpace_run hd) (M.bind_run hw (M.bind_run (ensure_run he) (M.bind_run getMask_run
    (M.bind_run (laneDraws_run hm) (M.bind_run (a := a) (s1 := s1) ?_ (M.bind_run ho (M.bind_run setFlags_run (deliverRow_run ..)))))))))
  cases c <;> exact ha

section
variable {o : ROps} {k : BitVec 4} {q : QFmt} {s s1 : State} {u : Cur} {f : MFmt} {a : Row} {b : List Nat} (hr : Runs s u o.g)
  (hf : fmtOf (fun i => tget 0 (s.jobAt u.core).fd i) (qfmtCode q) = some f) (hb : blockRows u o k s = .ok (a, b) s1)
include hr hf hb

theorem vdq_completes : Completes (.vdq o k q) s u .next
    (s1.lanesPut u o.d false k 4 (fun i => dqLane f (elemAt a.toNat f.width i) (laneAt b (i / 32)))) := by
  obtain ⟨hd, hw, he, _, _, ha, hscale, rfl⟩ := blockRows_ok hb
  exact issueNext_ok hr (M.bind_run (getFmt_run hf) (M.bind_run (needSpace_run hd) (M.bind_run hw (M.bind_run (ensure_run he)
    (M.bind_run ha (M.bind_run hscale (putLanes_run ..)))))))

theorem vqnt_completes {r : Rnd} {s2 : State} {old : Row} (hm : r ≠ .rsto) (hp : precisionOk false f = true) (ho : oldRow u o.d s1 = .ok old s2) :
    ∀ es, es = (List.range 128).map (fun i => if (s.maskOf u k).getLsbD i then qntElem f r (laneAt (rowLanes false a) i) (laneAt b (i / 32)) 0
        else (elemAt old.toNat f.width i, 0)) →
      Completes (.vqnt o k q r) s u .next ((s2.flagged u (es.foldl (fun (x : Flg) e => x ||| e.2) 0)).rowDelivered u o.d
        (BitVec.ofNat 4608 (packBits f.width (es.map (·.1)))) 4 (k != 0)) := by
  intro es hes
  obtain rfl := hes.trans (map_zipIdx_range 128 (fun i => (s.maskOf u k).getLsbD i) (fun p =>
    if p.1 then qntElem f r (laneAt (rowLanes false a) p.2) (laneAt b (p.2 / 32)) 0 else (elemAt old.toNat f.width p.2, 0))).symm
  obtain ⟨hd, hw, he, _, _, ha, hscale, rfl⟩ := blockRows_ok hb
  have hprec : (!precisionOk false f) = false := by rw [hp]; rfl
  exact issueNext_ok hr (M.bind_run (getFmt_run hf) (M.bind_run (trapIf_run hprec) (M.bind_run (needSpace_run hd) (M.bind_run hw
    (M.bind_run (ensure_run he) (M.bind_run getMask_run (M.bind_run (laneDraws_run hm) (M.bind_run ha (M.bind_run hscale (M.bind_run ho
    (M.bind_run setFlags_run (deliverRow_run ..))))))))))))

end

theorem vbmax_completes {o : ROps1} {k : BitVec 4} {q : QFmt} {s s1 : State} {u : Cur} {f : MFmt} {a : Row} (hr : Runs s u o.g)
    (hf : fmtOf (fun i => tget 0 (s.jobAt u.core).fd i) (qfmtCode q) = some f) (hd : (s.jobAt u.core).noRoom u.strm o.d = none)
    (hw : needRowWrite u o.d s = .ok () s) (he : needAll s u {} [.vec o.a] = []) (ha : readVec u false false o.a s = .ok a s1) :
    ∀ bs, bs = (List.range 4).map (fun b => blockMax (fmtEmax f) ((List.range 32).filterMap (fun i =>
        if (s.maskOf u k).getLsbD (32 * b + i) then some (laneAt (rowLanes false a) (32 * b + i)) else none))) →
      Completes (.vbmax o k q) s u .next ((s1.flagged u (bs.foldl (fun (x : Flg) b => x ||| b.2.2) 0)).rowDelivered u o.d
        (rowOf false (bs.map (·.2.1) ++ bs.map (·.1) ++ List.replicate 120 0)) 3) := by
  rintro bs rfl
  exact issueNext_ok hr (M.bind_run (getFmt_run hf) (M.bind_run (needSpace_run hd) (M.bind_run hw (M.bind_run (ensure_run he)
    (M.bind_run getMask_run (M.bind_run ha (M.bind_run setFlags_run (deliverRow_run ..))))))))

/-- Settles O25: each conversion runs its body on the rows it has read; outside mode 5 every draw is 0. -/
theorem vectorConversions : Obligations.VectorConversions :=
  ⟨fun _ _ _ _ _ _ _ _ _ hr hm hd hw he ha ho => vcvt_completes hr hm hd hw he ha ho, fun _ _ _ _ _ _ _ _ _ hr hf hb =>
    ⟨vdq_completes hr hf hb, fun _ _ _ es hm hp ho => vqnt_completes hr hf hb hm hp ho es⟩,
    fun _ _ _ _ _ _ _ _ hr hf hd hw he ha => vbmax_completes hr hf hd hw he ha⟩

end Sys2Proof.Machine
end

section
/-!
PROOFS. The governor, profiling leases, debug stops, trace records and the health of the noise sources (O47).
-/

namespace Sys2Proof.Machine

/-! ### The governor (R420 to R423) -/

/-- Counting a module event keeps what interrupts and writes of the fabric counters keep. -/
theorem countMod_field {β : Type} (π : State → β) (hraise : ∀ s fn vec, π (State.raise s fn vec) = π s)
    (hcount : ∀ (s : State) sel cnt, π { s with fsel := sel, fcnt := cnt } = π s) (s : State) (code : Nat) (q : Nat → Nat) :
    π (s.countMod code q) = π s := by
  have hraiseN : ∀ k (s : State), π (s.raiseN 0 1 k) = π s := by
    intro k
    induction k with
    | zero => exact fun _ => rfl
    | succ k ih => exact fun s => (ih _).trans (hraise ..)
  unfold State.countMod
  split
  · rfl
  · exact (hraiseN ..).trans (hcount ..)

/-- The module runs at power `p` with its throttle as given, and PWRSTAT says so. -/
structure State.RunsAt (t : State) (p : Nat) (thr : Bool) : Prop where
  power : t.power = p
  throttle : t.throttle = thr
  statPower : t.pwrstat.toNat / 2 ^ 32 % 2 ^ 14 = p / 1000 % 2 ^ 14
  statThrottle : t.pwrstat.getLsbD 63 = thr

/-- The governor's registers written: power, throttle and PWRSTAT, with n intervals that the filler fell short. -/
def State.governed (s : State) (p : Nat) (thr fill : Bool) (n : Nat) : State :=
  { s with
    power := p, throttle := thr, pwrstat := BitVec.ofNat 64 (thr.toNat * 2 ^ 63 + fill.toNat * 2 ^ 62 + p / 1000 % 2 ^ 14 * 2 ^ 32 + n) }

theorem runsAt_governed (s : State) (p : Nat) (thr fill : Bool) {n : Nat} (hn : n < 2 ^ 32) : (s.governed p thr fill n).RunsAt p thr := by
  have hfill : fill.toNat ≤ 1 := Bool.toNat_le fill
  have hthr : thr.toNat ≤ 1 := Bool.toNat_le thr
  have hstat : (s.governed p thr fill n).pwrstat.toNat
      = thr.toNat * 2 ^ 63 + fill.toNat * 2 ^ 62 + p / 1000 % 2 ^ 14 * 2 ^ 32 + n := by
    rw [State.governed, BitVec.toNat_ofNat]
    omega
  refine ⟨rfl, rfl, by rw [hstat]; omega, ?_⟩
  rw [BitVec.getLsbD, hstat, Nat.testBit_eq_decide_div_mod_eq]
  cases thr
  · exact decide_eq_false (by simp only [Bool.toNat_false]; omega)
  · exact decide_eq_true (by simp only [Bool.toNat_true]; omega)

theorem State.RunsAt.countMod {t : State} {p : Nat} {thr : Bool} (h : t.RunsAt p thr) (code : Nat) (q : Nat → Nat) :
    (t.countMod code q).RunsAt p thr := by
  obtain ⟨hp, ht, hs, hb⟩ := h
  have hstat : (t.countMod code q).pwrstat = t.pwrstat := countMod_field State.pwrstat (fun _ _ _ => rfl) (fun _ _ _ => rfl) ..
  exact ⟨(countMod_field State.power (fun _ _ _ => rfl) (fun _ _ _ => rfl) ..).trans hp,
    (countMod_field State.throttle (fun _ _ _ => rfl) (fun _ _ _ => rfl) ..).trans ht, by rw [hstat, hs], by rw [hstat, hb]⟩

section
variable (s : State)

/-- Demand above what RISE allows throttles the module at that power (R421). -/
theorem govern_above (h : s.power + s.rise < Config.drawPower s.free) : s.govern.RunsAt (s.power + s.rise) true := by
  have he : s.govern = ({ s with free := s.free + 2 } : State).governed (s.power + s.rise) true false (s.pwrstat.toNat % 2 ^ 32) := if_pos h
  rw [he]
  exact runsAt_governed _ _ _ _ (Nat.mod_lt _ (by decide))

/-- Demand within RISE and FALL is met (R420). -/
theorem govern_within (hlo : s.power - s.fall ≤ Config.drawPower s.free) (hhi : Config.drawPower s.free ≤ s.power + s.rise) :
    s.govern.RunsAt (Config.drawPower s.free) false := by
  have he : s.govern = ({ s with free := s.free + 2 } : State).governed (Config.drawPower s.free) false false (s.pwrstat.toNat % 2 ^ 32) :=
    (if_neg (Nat.not_lt.2 hhi)).trans (if_neg (Nat.not_lt.2 hlo))
  rw [he]
  exact runsAt_governed _ _ _ _ (Nat.mod_lt _ (by decide))

/-- The intervals in which the filler fell short, this one counted (R423). -/
def State.shortfalls (s : State) : Nat :=
  if Config.filler s.free < s.power - s.fall - Config.drawPower s.free then min (s.pwrstat.toNat % 2 ^ 32 + 1) (2 ^ 32 - 1)
  else s.pwrstat.toNat % 2 ^ 32

theorem shortfalls_lt : s.shortfalls < 2 ^ 32 := by
  unfold State.shortfalls
  split <;> omega

/-- Demand below what FALL allows is filled up as far as the filler can (R422). -/
theorem govern_below (h : Config.drawPower s.free < s.power - s.fall) :
    ∀ f, f = min (s.power - s.fall - Config.drawPower s.free) (Config.filler s.free) → s.govern.RunsAt (Config.drawPower s.free + f) false := by
  rintro f rfl
  have hfilled := runsAt_governed { s with free := s.free + 2 }
    (Config.drawPower s.free + min (s.power - s.fall - Config.drawPower s.free) (Config.filler s.free)) false
    (decide (0 < min (s.power - s.fall - Config.drawPower s.free) (Config.filler s.free))) (shortfalls_lt s)
  have hin : ¬ s.power + s.rise < Config.drawPower s.free := by omega
  by_cases hf : 0 < min (s.power - s.fall - Config.drawPower s.free) (Config.filler s.free)
  · rw [show s.govern = State.countMod _ 0x0202 (qualAny (Config.filler (s.free + 1))) from (if_neg hin).trans ((if_pos h).trans (if_pos hf))]
    exact hfilled.countMod ..
  · rw [show s.govern = _ from (if_neg hin).trans ((if_pos h).trans (if_neg hf))]
    exact hfilled

end

theorem exec_governorInterval (s : State) : exec .governorInterval s = .next s.govern := rfl

/-- The governor follows a demand that is open, above, within or below its limits (R420 to R422). -/
theorem govern_follows (s : State) : ∃ d cap p thr, s.govern.RunsAt p thr
    ∧ ((s.power + s.rise < d ∧ p = s.power + s.rise ∧ thr = true)
      ∨ (s.power - s.fall ≤ d ∧ d ≤ s.power + s.rise ∧ p = d ∧ thr = false)
      ∨ (d < s.power - s.fall ∧ p = d + min (s.power - s.fall - d) cap ∧ thr = false)) := by
  refine ⟨Config.drawPower s.free, Config.filler s.free, ?_⟩
  rcases Nat.lt_or_ge (s.power + s.rise) (Config.drawPower s.free) with hhi | hhi
  · exact ⟨_, _, govern_above s hhi, .inl ⟨hhi, rfl, rfl⟩⟩
  · rcases Nat.lt_or_ge (Config.drawPower s.free) (s.power - s.fall) with hlo | hlo
    · exact ⟨_, _, govern_below s hlo _ rfl, .inr (.inr ⟨hlo, rfl, rfl⟩)⟩
    · exact ⟨_, _, govern_within s hlo hhi, .inr (.inl ⟨hlo, hhi, rfl, rfl⟩)⟩

theorem governorInterval_follows (s : State) : ∃ (t : State) (d cap : Nat), exec .governorInterval s = .next t ∧ t.power ≤ s.power + s.rise
    ∧ (t.throttle = true ↔ s.power + s.rise < d) ∧ (s.power + s.rise < d → t.power = s.power + s.rise)
    ∧ (s.power - s.fall ≤ d → d ≤ s.power + s.rise → t.power = d) ∧ (d < s.power - s.fall → t.power = d + min (s.power - s.fall - d) cap)
    ∧ t.pwrstat.toNat / 2 ^ 32 % 2 ^ 14 = t.power / 1000 % 2 ^ 14 ∧ t.pwrstat.getLsbD 63 = t.throttle := by
  obtain ⟨d, cap, p, thr, ⟨hp, ht, hs, hb⟩, h⟩ := govern_follows s
  refine ⟨s.govern, d, cap, exec_governorInterval s, ?_⟩
  rw [hp, ht]
  rcases h with ⟨hd, rfl, rfl⟩ | ⟨hlo, hhi, rfl, rfl⟩ | ⟨hd, rfl, rfl⟩
  · exact ⟨le_rfl, iff_of_true rfl hd, fun _ => rfl, fun _ _ => by omega, fun _ => by omega, hs, hb⟩
  · exact ⟨hhi, iff_of_false Bool.false_ne_true (by omega), fun _ => by omega, fun _ _ => rfl, fun _ => by omega, hs, hb⟩
  · exact ⟨by omega, iff_of_false Bool.false_ne_true (by omega), fun _ => by omega, fun _ _ => by omega, fun _ => rfl, hs, hb⟩

/-! ### Profiling leases (R432, R434) -/

theorem exec_prfReq (fn : Nat) (s : State) : exec (.prfReq fn) s = .next (s.leaseReq fn) := rfl
theorem exec_prfRel (fn : Nat) (s : State) : exec (.prfRel fn) s = .next (s.leaseRel fn) := rfl
theorem exec_functionReset (fn : Nat) (s : State) : exec (.functionReset fn) s = .next (s.leaseRel fn) := rfl
theorem exec_profilingSliceEnd (part : Nat) (s : State) : exec (.profilingSliceEnd part) s = .next (s.sliceSwap part) := rfl

/-- Pre-empting a core keeps what changes of cores keep. -/
theorem preemptCore_field {β : Type} (π : State → β) (h : ∀ s c f, π (State.modCore s c f) = π s) (s : State) (c : Nat) :
    π (s.preemptCore c) = π s := by
  unfold State.preemptCore
  split
  · rfl
  · exact foldl_field π (fun _ _ => h ..) ..

/-- The begin of an exclusive slice keeps what changes of cores keep. -/
theorem beginExclusive_field {β : Type} (π : State → β) (h : ∀ s c f, π (State.modCore s c f) = π s) (s : State) (part fn : Nat) :
    π (s.beginExclusive part fn) = π s := by
  refine foldl_field π (fun s e => ?_) ..
  split
  · split
    · exact preemptCore_field π h ..
    · rfl
  · rfl

theorem pool_beginExclusive (s : State) (part fn p : Nat) : (s.beginExclusive part fn).pool p = s.pool p :=
  beginExclusive_field (fun s => s.pool p) (fun _ _ _ => rfl) s part fn

theorem fn_beginExclusive (s : State) (part fn n : Nat) : (s.beginExclusive part fn).fn n = s.fn n :=
  beginExclusive_field (fun s => s.fn n) (fun _ _ _ => rfl) s part fn

theorem die_beginExclusive (s : State) (part fn d : Nat) : (s.beginExclusive part fn).die d = s.die d :=
  beginExclusive_field (fun s => s.die d) (fun _ _ _ => rfl) s part fn

/-- The counters of a lease holder discarded on some dies (R432). -/
def State.dropLeases (s : State) (dies : List Nat) : State := dies.foldl (fun s d => s.modDie d (fun x => { x with lease := {} })) s

theorem lease_dropLeases (s : State) (dies : List Nat) (d : Nat) :
    ((s.dropLeases dies).die d).lease = if d ∈ dies then {} else (s.die d).lease := by
  induction dies generalizing s with
  | nil => rfl
  | cons e dies ih =>
    rw [State.dropLeases, List.foldl_cons, ← State.dropLeases, ih]
    by_cases hd : d = e
    · subst hd
      simp
    · simp [die_modDie_other _ _ hd, hd]

/-- Dropping counters keeps what changes of dies keep. -/
theorem dropLeases_field {β : Type} (π : State → β) (h : ∀ s d f, π (State.modDie s d f) = π s) (s : State) (dies : List Nat) :
    π (s.dropLeases dies) = π s :=
  foldl_field π (fun _ _ => h ..) dies s

theorem pool_dropLeases (s : State) (dies : List Nat) (p : Nat) : (s.dropLeases dies).pool p = s.pool p :=
  dropLeases_field (fun s => s.pool p) (fun _ _ _ => rfl) s dies

theorem fn_dropLeases (s : State) (dies : List Nat) (n : Nat) : (s.dropLeases dies).fn n = s.fn n :=
  dropLeases_field (fun s => s.fn n) (fun _ _ _ => rfl) s dies

theorem pool_post (s : State) (t : Nat) (i : Instr) (p : Nat) : (s.post t i).pool p = s.pool p := rfl
theorem fn_post (s : State) (t : Nat) (i : Instr) (n : Nat) : (s.post t i).fn n = s.fn n := rfl
theorem fn_modPool (s : State) (p : Nat) (f : Pool → Pool) (n : Nat) : (s.modPool p f).fn n = s.fn n := rfl

/-- A request that is out of range, or of a function without a partition, is refused with REF (R434). -/
theorem prfReq_refused {fn : Nat} {s : State} (h : fn = 0 ∨ (s.fn fn).part = none ∨ (s.fn fn).slice = 0 ∨ 1000 < (s.fn fn).slice) :
    exec (.prfReq fn) s = .next (s.modFn fn (fun f => { f with prfctl := (f.prfctl &&& ~~~(1#64 <<< 62)) ||| (1#64 <<< 62) })) := by
  rw [exec_prfReq, State.leaseReq]
  cases hp : (s.fn fn).part with
  | none => rfl
  | some part =>
    have hbad : fn = 0 ∨ (s.fn fn).slice = 0 ∨ 1000 < (s.fn fn).slice := by simpa [hp] using h
    exact congrArg _ (if_pos hbad)

/-- A granted lease: REF clear, the partition held for a first exclusive slice, and its counters new (R434). -/
def State.leased (s : State) (fn part : Nat) : State :=
  ((((s.modFn fn (fun f => { f with prfctl := (f.prfctl &&& ~~~(1#64 <<< 62)) ||| 0 })).modPool part (fun p =>
    { p with prf := some (fn, (s.fn fn).slice, true, s.now + usCycles (1000 * (s.fn fn).slice)) })).dropLeases (s.diesOf part)).beginExclusive
      part fn).post (s.now + usCycles (1000 * (s.fn fn).slice)) (.profilingSliceEnd part)

theorem prfReq_granted {fn part : Nat} {s : State} (hfn : fn ≠ 0) (hp : (s.fn fn).part = some part) (hmin : 1 ≤ (s.fn fn).slice)
    (hmax : (s.fn fn).slice ≤ 1000) (hfree : (s.pool part).prf = none) : exec (.prfReq fn) s = .next (s.leased fn part) := by
  rw [exec_prfReq, State.leaseReq]
  dsimp only
  rw [hp]
  dsimp only
  rw [if_neg (by omega), hfree]
  rfl

theorem fn_leased (s : State) (fn part : Nat) : ((s.leased fn part).fn fn).prfctl.getLsbD 62 = false := by
  rw [State.leased, fn_post, fn_beginExclusive, fn_dropLeases, fn_modPool, fn_modFn_same]
  simp

theorem pool_leased (s : State) (fn part : Nat) :
    ((s.leased fn part).pool part).prf = some (fn, (s.fn fn).slice, true, s.now + usCycles (1000 * (s.fn fn).slice)) := by
  rw [State.leased, pool_post, pool_beginExclusive, pool_dropLeases, pool_modPool_same]

theorem lease_leased (s : State) (fn part : Nat) {d : Nat} (hd : d ∈ s.diesOf part) : ((s.leased fn part).die d).lease = {} :=
  (congrArg Die.lease (die_beginExclusive ..)).trans ((lease_dropLeases ..).trans (if_pos hd))

/-- A function that holds the only partition with a lease gives it up (R434). -/
theorem leaseRel_holder {fn part ms till : Nat} {ex : Bool} {s : State} (hs : s.pools = [(part, s.pool part)])
    (h : (s.pool part).prf = some (fn, ms, ex, till)) : s.leaseRel fn = s.endLease part := by
  rw [State.leaseRel, hs, List.foldl_cons, List.foldl_nil, h]
  exact if_pos rfl

/-- The end of a lease, with its counters dropped by name. -/
theorem endLease_eq (s : State) (part : Nat) : s.endLease part
    = ((s.modPool part (fun p => { p with prf := none })).dropLeases (s.diesOf part)).postOnce (s.now + 1)
      (.chunkHandout part) := rfl

theorem endLease_ends (s : State) (part : Nat) :
    ((s.endLease part).pool part).prf = none ∧ ∀ d ∈ s.diesOf part, ((s.endLease part).die d).lease = {} := by
  refine ⟨?_, fun d hd => ?_⟩
  · rw [endLease_eq, pool_postOnce, pool_dropLeases, pool_modPool_same]
  · rw [endLease_eq, die_postOnce, lease_dropLeases, if_pos hd]

section
variable {part h ms till : Nat} {ex : Bool} {s : State} (hp : (s.pool part).prf = some (h, ms, ex, till))
include hp

theorem profilingSliceEnd_early (ht : s.now < till) : exec (.profilingSliceEnd part) s = .next s := by
  rw [exec_profilingSliceEnd, State.sliceSwap, hp]
  exact congrArg _ (if_pos ht)

/-- Exclusive and shared slices alternate, and the partition's records are handed out again (R434). -/
theorem profilingSliceEnd_swaps (ht : till ≤ s.now) : ∃ t, exec (.profilingSliceEnd part) s = .next t
    ∧ (t.pool part).prf = some (h, ms, !ex, s.now + usCycles (1000 * ms)) ∧ t.posted (.chunkHandout part) = true := by
  rw [exec_profilingSliceEnd, State.sliceSwap, hp]
  refine ⟨_, congrArg _ (if_neg (Nat.not_lt.2 ht)), ?_, posted_postOnce ..⟩
  rw [pool_postOnce]
  split
  · rw [pool_post, pool_modPool_same]
  · rw [pool_beginExclusive, pool_post, pool_modPool_same]

end

/-! ### Debug stops (R382, R438) -/

theorem exec_dbgStop (fn : Nat) (s : State) : exec (.dbgStop fn) s = .next (s.debugStop fn) := rfl
theorem exec_dbgResume (fn : Nat) (s : State) : exec (.dbgResume fn) s = .next (s.debugResume fn) := rfl

section
variable {fn ctx : Nat} {s : State} {x : Ctx} (hc : s.dbgCtx fn = some ctx) (hx : s.ctx? ctx = some x)
include hc hx

/-- A live context is held: at once where a job of it runs, else at its next job. -/
theorem debugStop_live (hl : x.status = .live) : s.debugStop fn
    = if s.ctxRuns ctx then (s.modCtx ctx (fun x => { x with dbgHeld := true })).haltCtx ctx true
      else s.modCtx ctx (fun x => { x with dbgWait := true }) := by
  simp only [State.debugStop, hc, hx, Option.map_some, hl, ne_eq, not_true, if_false]

/-- A context that stops or is held satisfies the request. -/
theorem debugStop_stopped (hl : x.status ≠ .live) : s.debugStop fn = s := by
  simp only [State.debugStop, hc, hx, Option.map_some, ne_eq, Option.some.injEq, hl, not_false_eq_true, if_true]

theorem debugResume_eq : s.debugResume fn
    = if x.status = .held && x.dbgHeld then s.resumeCtx ctx else s.modCtx ctx (fun x => { x with dbgWait := false }) := by
  simp only [State.debugResume, hc, hx]

end

/-! ### Trace records (R437) -/

theorem exec_traceRecordWrite (c : Nat) (s : State) : exec (.traceRecordWrite c) s = .next (s.traceOut c) := rfl

theorem traceRecordWrite_empty {c : Nat} {s : State} (h : (s.core c).obs.buf = []) : exec (.traceRecordWrite c) s = .next s := by
  rw [exec_traceRecordWrite, State.traceOut, h]

/-- The oldest record goes to the ring's position, which advances. -/
theorem traceRecordWrite_writes {c base size : Nat} {r : BitVec 256} {rest : List (BitVec 256)} {s : State}
    (hbuf : (s.core c).obs.buf = r :: rest) (hnow : Config.freeBit s.free = false) (hring : trcRing (s.core c).obs.trc = some (base, size)) :
    ∀ pos t, pos = (s.core c).obs.trp.toNat / 32 % (size / 32) →
      t = ((({ s with free := s.free + 1 } : State).postOnce (s.now + 1) (.traceRecordWrite c)).frontWrite (s.core c).obs.ctx (base + 32 * pos)
        (leBytes r.toNat 32)).1 →
      exec (.traceRecordWrite c) s = .next (t.modCore c (fun k =>
        { k with obs := { k.obs with buf := rest, trp := BitVec.ofNat 64 ((pos + 1) % (size / 32) * 32) } })) := by
  rintro _ _ rfl rfl
  simp only [exec_traceRecordWrite, State.traceOut, hbuf, State.drawBit, hnow, hring, Bool.false_eq_true, if_false]

/-! ### The noise sources' health (R234, R385) -/

theorem exec_noiseHealthRecover (bay : Nat) (s : State) : exec (.noiseHealthRecover bay) s
    = .next (if 256 ≤ bay then s else s.modBay bay (fun b => { b with noiseOk := true })) := rfl

theorem exec_noiseHealthFail (bay : Nat) (s : State) : exec (.noiseHealthFail bay) s = .next (if 256 ≤ bay ∨ !(s.bay bay).noiseOk then s
    else (s.modBay bay (fun b => { b with noiseOk := false })).error 4 10 (bay / 4) (bay % 4) 0 0 0) := rfl

theorem noiseHealthRecover_recovers {bay : Nat} (s : State) (hb : bay < 256) :
    ∃ t, exec (.noiseHealthRecover bay) s = .next t ∧ (t.bay bay).noiseOk = true := by
  rw [exec_noiseHealthRecover, if_neg (Nat.not_le.2 hb)]
  exact ⟨_, rfl, by rw [bay_modBay_same]⟩

theorem noiseHealthFail_fails {bay : Nat} {s : State} (hb : bay < 256) (hok : (s.bay bay).noiseOk = true) : exec (.noiseHealthFail bay) s
    = .next ((s.modBay bay (fun b => { b with noiseOk := false })).error 4 10 (bay / 4) (bay % 4) 0 0 0) := by
  rw [exec_noiseHealthFail, if_neg (by simp [hok, hb])]

/-- A source that has failed already fails no further: no second record is written. -/
theorem noiseHealthFail_again {bay : Nat} {s : State} (hok : (s.bay bay).noiseOk = false) : exec (.noiseHealthFail bay) s = .next s := by
  rw [exec_noiseHealthFail, if_pos (by simp [hok])]

/-- Settles O47: each event of the observation units by the lemma about its own operation. -/
theorem observation : Obligations.Observation := by
  refine ⟨governorInterval_follows, fun fn s => ⟨prfReq_refused, fun p hfn hp hmin hmax hfree => ?_⟩, fun fn part ms till ex s hs h => ?_,
    fun part s => endLease_ends s part, fun part h ms till ex s hp => ⟨profilingSliceEnd_early hp, profilingSliceEnd_swaps hp⟩,
    fun fn ctx s x hc hx => ?_, fun c base size pos r rest s t hbuf hnow hring hpos ht => traceRecordWrite_writes hbuf hnow hring pos t hpos ht,
    fun c s => traceRecordWrite_empty, fun bay s hb => ⟨noiseHealthRecover_recovers s hb, noiseHealthFail_fails hb,
      noiseHealthFail_again⟩⟩
  · exact ⟨_, prfReq_granted hfn hp hmin hmax hfree, fn_leased s fn p, pool_leased s fn p, fun d => lease_leased s fn p⟩
  · rw [exec_prfRel, exec_functionReset, leaseRel_holder hs h]
    exact ⟨rfl, rfl⟩
  · rw [exec_dbgStop, exec_dbgResume, debugResume_eq hc hx]
    refine ⟨fun hl hr => ?_, fun hl hr => ?_, fun hl => ?_, fun hh hd => ?_, fun hl => ?_⟩
    · rw [debugStop_live hc hx hl, if_pos hr]
    · rw [debugStop_live hc hx hl, hr, if_neg Bool.false_ne_true]
    · rw [debugStop_stopped hc hx hl]
    · rw [hh, hd]
      rfl
    · rw [hl]
      rfl

end Sys2Proof.Machine
end

section
/-!
PROOFS. The lease of the matrix array (O28).
-/

namespace Sys2Proof.Machine

theorem trapIf_stop {c : Bool} {x : Trap} {s : State} (h : c = true) : trapIf c x s = .error (.trap x) s := by
  subst h
  rfl

/-! ### LEASE and LREL (R239, R241) -/

section
variable {g : Guard} {nb : Option (BitVec 3)} {s : State} {u : Cur} (hr : Runs s u g)
include hr

theorem lease_granted (hq : (s.bay (coreBay u.core)).reqOf (u.core % 4) = .granted) :
    Completes (.lease g nb) s u .next ((s.askDone u.core).answered u nb true) := by
  refine issueNext_ok hr (M.bind_run M.get_run ?_)
  simp only [hq]
  exact M.bind_run modify_run (by cases nb <;> rfl)

theorem lease_refused (hq : (s.bay (coreBay u.core)).reqOf (u.core % 4) = .refused) :
    Completes (.lease g nb) s u .next ((s.askDone u.core).answered u nb false) := by
  refine issueNext_ok hr (M.bind_run M.get_run ?_)
  simp only [hq]
  exact M.bind_run modify_run (by cases nb <;> rfl)

theorem lrel_completes : Completes (.lrel g) s u .next (s.endGrant u.core) := issueNext_ok hr modify_run

variable (hq : (s.bay (coreBay u.core)).reqOf (u.core % 4) = .idle)
include hq

/-- A core that already holds the array may not ask: trap 0x0B. -/
theorem lease_held (hn : s.trapsNow u) (hh : (s.bay (coreBay u.core)).holder = some (u.core % 4)) :
    exec (.lease g nb) s = .next (s.takeTrap u (leaseTrap 2)) := by
  refine (issue_trap (x := leaseTrap 2) (t := s) hr hn (M.bind_stop (M.bind_error M.get_run ?_))).trans rfl
  simp only [hq, hh]
  exact M.bind_stop (trapIf_stop (beq_self_eq_true _))

/-- A job without a lease may not ask: trap 0x0B. -/
theorem lease_denied (hn : s.trapsNow u) (hh : (s.bay (coreBay u.core)).holder ≠ some (u.core % 4)) (hj : (s.jobAt u.core).lease = false) :
    exec (.lease g nb) s = .next (s.takeTrap u (leaseTrap 3)) := by
  refine (issue_trap (x := leaseTrap 3) (t := s) hr hn (M.bind_stop (M.bind_error M.get_run ?_))).trans rfl
  simp only [hq]
  refine M.bind_error (trapIf_run (beq_eq_false_iff_ne.2 hh)) (M.bind_error getJob_run (M.bind_stop (trapIf_stop ?_)))
  rw [hj]
  rfl

/-- LEASE enters its request and keeps its slot. -/
theorem lease_asks (h2 : u.second = false) (hh : (s.bay (coreBay u.core)).holder ≠ some (u.core % 4)) (hj : (s.jobAt u.core).lease = true) :
    exec (.lease g nb) s
      = .next ((s.leaseAsk u.core (if nb.isSome then .nb else .wait)).holdAt u (if nb.isSome then .busy else .lease)) := by
  refine (issue_stop (x := .keep (if nb.isSome then .busy else .lease)) hr (M.bind_stop (M.bind_error M.get_run ?_))).trans
    (by rw [h2]; rfl)
  simp only [hq]
  exact M.bind_error (trapIf_run (beq_eq_false_iff_ne.2 hh)) (M.bind_error getJob_run (M.bind_error (trapIf_run (by rw [hj]; rfl))
    (M.bind_error modify_run rfl)))

end

/-! ### The arbiter (R239, R241) -/

/-- What the request of a core at place `k` becomes when the array is granted to the core at place `w`: granted, or where it stands in this
cycle only, refused. -/
def leaseOutcome (w k : Nat) (r : LeaseReq) : LeaseReq := if k = w then .granted else if r = .nb then .refused else r

/-- A bay whose array is granted to the core at place `w`. -/
def Bay.grantTo (y : Bay) (w : Nat) : Bay :=
  { y with holder := some w, gc := 0, grantEnd := none, p := (w + 1) % 4, req := y.req.map (fun e => (e.1, leaseOutcome w e.1 e.2)) }

/-- The winner's requests are granted, then those of this cycle only refused. -/
theorem map_granted_refused (w : Nat) (l : List (Nat × LeaseReq)) :
    (l.map (fun e => if e.1 = w then (e.1, LeaseReq.granted) else e)).map (fun r => if r.2 = .nb then (r.1, LeaseReq.refused) else r)
      = l.map (fun e => (e.1, leaseOutcome w e.1 e.2)) := by
  rw [List.map_map]
  refine List.map_congr_left fun e _ => ?_
  rw [Function.comp_apply, leaseOutcome]
  by_cases hw : e.1 = w
  · rw [if_pos hw, if_pos hw, if_neg (by simp)]
  · rw [if_neg hw, if_neg hw]
    split <;> rfl

theorem mem_of_reqOf {y : Bay} {k : Nat} {r : LeaseReq} (h : y.reqOf k = r) (hr : r ≠ .idle) : (k, r) ∈ y.req := by
  unfold Bay.reqOf at h
  cases hf : y.req.find? (fun r => r.1 == k) with
  | none => rw [hf] at h; exact absurd h.symm hr
  | some e =>
    rw [hf] at h
    obtain ⟨k', r'⟩ := e
    obtain rfl : r' = r := h
    have hk := List.find?_some hf
    obtain rfl : k' = k := eq_of_beq hk
    exact List.mem_of_find?_eq_some hf

/-- A core that has a request reads its outcome. -/
theorem reqOf_grantTo {y : Bay} (w : Nat) {k : Nat} {r : LeaseReq} (h : (k, r) ∈ y.req) :
    (y.grantTo w).reqOf k = leaseOutcome w k (y.reqOf k) := by
  have hsome : (y.req.find? (fun e => e.1 == k)).isSome = true := List.find?_isSome.2 ⟨_, h, beq_self_eq_true k⟩
  obtain ⟨e, he⟩ := Option.isSome_iff_exists.1 hsome
  have hk := List.find?_some he
  obtain rfl : e.1 = k := eq_of_beq hk
  have hmap : (y.grantTo w).req.find? (fun x => x.1 == e.1) = some (e.1, leaseOutcome w e.1 e.2) := by
    rw [Bay.grantTo, List.find?_map]
    exact congrArg _ he
  rw [Bay.reqOf, hmap, Bay.reqOf, he]
  rfl

/-- The first of four turns that answers. -/
theorem findSome_first {α : Type} {f : Nat → Option α} {i : Nat} {r : α} (hi : i < 4) (hf : f i = some r) (hn : ∀ k < i, f k = none) :
    (List.range 4).findSome? f = some r := by
  have hsplit : ∀ i < 4, List.range 4 = List.range i ++ i :: List.range' (i + 1) (3 - i) := by decide
  exact List.findSome?_eq_some_iff.2 ⟨_, _, _, hsplit i hi, hf, fun k hk => hn k (List.mem_range.1 hk)⟩

/-- The request of the core at place `k` that the arbiter looks at. -/
def Bay.asking (y : Bay) (k : Nat) : Option (Nat × LeaseReq) :=
  (y.req.filter (fun r => r.2 = .wait ∨ r.2 = .nb)).find? (fun r => r.1 == k)

theorem fst_of_asking {y : Bay} {k : Nat} {e : Nat × LeaseReq} (h : y.asking k = some e) : e.1 = k := by
  have hk := List.find?_some h
  exact eq_of_beq hk

theorem isSome_asking {y : Bay} {k : Nat} : (y.asking k).isSome = true ↔ y.asks k := by
  simp only [Bay.asking, Bay.asks, List.find?_isSome, List.mem_filter, beq_iff_eq, decide_eq_true_eq]
  constructor
  · rintro ⟨⟨_, r⟩, ⟨hmem, rfl | rfl⟩, rfl⟩
    · exact .inl hmem
    · exact .inr hmem
  · rintro (h | h)
    · exact ⟨_, ⟨h, .inl rfl⟩, rfl⟩
    · exact ⟨_, ⟨h, .inr rfl⟩, rfl⟩

theorem exec_leaseGrant (b : Nat) (s : State) : exec (.leaseGrant b) s = .next (s.leaseServe b) := rfl

/-- With no grant held, and none that ended in this cycle, the arbiter grants the first core from P on that asks. -/
theorem bay_leaseServe {b i : Nat} {s : State} (hh : (s.bay b).holder = none) (he : (s.bay b).grantEnd ≠ some s.now) (hi : i < 4)
    (ha : (s.bay b).asks (((s.bay b).p + i) % 4)) (hn : ∀ k < i, ¬ (s.bay b).asks (((s.bay b).p + k) % 4)) :
    (s.leaseServe b).bay b = (s.bay b).grantTo (((s.bay b).p + i) % 4) := by
  obtain ⟨e, hask⟩ := Option.isSome_iff_exists.1 (isSome_asking.2 ha)
  have hsome : ((s.bay b).req.filter (fun r => r.2 = .wait ∨ r.2 = .nb)).isEmpty = false :=
    List.isEmpty_eq_false_iff.2 (List.ne_nil_of_mem (List.mem_of_find?_eq_some hask))
  have hfree : ((s.bay b).holder.isSome || (s.bay b).grantEnd == some s.now) = false := by
    rw [hh]
    exact beq_eq_false_iff_ne.2 he
  have hfirst : (List.range 4).findSome? (fun i => (s.bay b).asking (((s.bay b).p + i) % 4)) = some e :=
    findSome_first hi hask fun k hk => Option.not_isSome_iff_eq_none.1 fun h => hn k hk (isSome_asking.1 h)
  simp only [Bay.asking] at hfirst
  simp only [State.leaseServe, hsome, hfree, hfirst, Bool.false_eq_true, if_false, apply_ite (State.bay · b), bay_postOnce, ite_self,
    bay_modBay_same, fst_of_asking hask, map_granted_refused]
  rfl

/-- Settles O28: a LEASE ends as its request stands, and the arbiter's grant says what becomes of every request. -/
theorem arrayLease : Obligations.ArrayLease := by
  refine ⟨fun g nb s u hr => ⟨lease_granted hr, lease_refused hr, lease_asks hr, fun hq hn => ⟨lease_held hr hq hn, lease_denied hr hq hn⟩,
    lrel_completes hr⟩, ?_, ?_⟩
  · rintro b i s _ rfl hh he hi ha hn
    have hbay := bay_leaseServe hh he hi ha hn
    refine ⟨_, exec_leaseGrant b s, ?_⟩
    rw [hbay]
    obtain ⟨r, hr⟩ : ∃ r, (((s.bay b).p + i) % 4, r) ∈ (s.bay b).req := ha.elim (fun h => ⟨_, h⟩) (fun h => ⟨_, h⟩)
    refine ⟨rfl, (reqOf_grantTo _ hr).trans (if_pos rfl), rfl, rfl, fun k hk => ⟨fun h => ?_, fun h => ?_⟩⟩
    · rw [reqOf_grantTo _ (mem_of_reqOf h (by decide)), h, leaseOutcome, if_neg hk, if_pos rfl]
    · rw [reqOf_grantTo _ (mem_of_reqOf h (by decide)), h, leaseOutcome, if_neg hk, if_neg (by decide)]
  · intro c s
    rw [State.endGrant, bay_modBay_same]
    refine ⟨?_, fun h => if_neg h⟩
    split
    · exact nofun
    · assumption

end Sys2Proof.Machine
end

section
/-!
PROOFS. The commands that enter the array queue (O29).
-/

namespace Sys2Proof.Machine

/-! ### The checks at issue (R242, R243) -/

section
variable {u : Cur} {s : State} (h : s.mayIssueArr u.core)
include h

theorem needLease_run : needLease u s = .ok () s := by
  obtain ⟨hholder, hcount, -⟩ := h
  exact M.bind_run M.get_run (trapIf_run (by rw [hholder, decide_eq_false (Nat.not_le.2 hcount)]; simp))

theorem needArrSlot_run : needArrSlot u s = .ok () s := by
  obtain ⟨-, -, hroom⟩ := h
  exact M.bind_run M.get_run (holdIf_run (decide_eq_false (Nat.not_le.2 hroom)))

end

theorem needDepth_run {u : Cur} {n : Nat} {s : State} (h : (s.jobAt u.core).rd + n ≤ (s.jobAt u.core).maxrd) : needDepth u n s = .ok () s :=
  M.bind_run getJob_run (trapIf_run (decide_eq_false (Nat.not_lt.2 h)))

/-! ### MMA, MMAS and MZERO (R251, R252, R256, R257) -/

section
variable {s : State} {u : Cur} {e : FtEntry} {fa fb : MFmt} {sel : FtSel} {acc ta tb : Bool} {a b : Src} {n ks : Nat} {oa ob : ArrSrc} {rs : List Nat}

/-- A multiplication whose checks pass enters the queue. -/
theorem mmaBody_run (he : e = ftEntry (tget 0 (s.jobAt u.core).ft (selNum (s.jobAt u.core) sel)))
    (hf : checkEntry (fun i => tget 0 (s.jobAt u.core).fd i) e = .ok (fa, fb)) (hi : s.mayIssueArr u.core)
    (hd : (s.jobAt u.core).rd + ks ≤ (s.jobAt u.core).maxrd) (hr : needAll s u {} (arrRds a ++ arrRds b) = [])
    (ho : mmaOperands u e fa fb acc a b ta tb n ks s = .ok (oa, ob, rs) s) :
    mmaBody u sel acc a b ta tb n ks s = .ok () (s.issueArr u.core (mmaCmd s u e n ks acc ta tb oa ob rs)) := by
  subst he
  simp only [mmaOperands, M.bind_ok] at ho
  obtain ⟨_, _, hj, ⟨_, ra⟩, s1, ha, ⟨_, rb⟩, s2, hb, _, s3, hsa, _, s4, hsb, hp⟩ := ho
  obtain ⟨rfl, rfl⟩ := getJob_ok.1 hj
  obtain ⟨hp, rfl⟩ := M.pure_ok.1 hp
  refine M.bind_run (ensure_run hr) (M.bind_run (needLease_run hi) (M.bind_run getJob_run ?_))
  simp only [hf]
  refine M.bind_run (needDepth_run hd) (M.bind_run ha (M.bind_run hb (M.bind_run hsa (M.bind_run hsb
    (M.bind_run (needArrSlot_run hi) (M.bind_run M.get_run ?_))))))
  cases hp
  rfl

end

theorem mzero_completes {g : Guard} {s : State} {u : Cur} (acc : Bool) (hr : Runs s u g) (hi : s.mayIssueArr u.core)
    (hd : (s.jobAt u.core).rd ≤ (s.jobAt u.core).maxrd) :
    Completes (.mzero g acc) s u .next (s.issueArr u.core (blankCmd u s.now .mzero acc)) :=
  issueNext_ok hr (M.bind_run (needLease_run hi) (M.bind_run (needDepth_run hd) (M.bind_run (needArrSlot_run hi)
    (M.bind_run M.get_run modify_run))))

/-! ### What an issue counts (R240, R243, R257) -/

@[simp] theorem kickArray_cores (s : State) (b : Nat) : (s.kickArray b).cores = s.cores := by
  unfold State.kickArray
  split <;> rfl

@[simp] theorem kickArray_bays (s : State) (b : Nat) : (s.kickArray b).bays = s.bays := by
  unfold State.kickArray
  split <;> rfl

theorem core_pushArr (s : State) (c : Nat) (a : ArrCmd) :
    (s.pushArr c a).core c = { s.core c with arr := (s.core c).arr ++ [{ a with id := s.ids }] } :=
  (core_of_cores (kickArray_cores ..) c).trans (core_modCore_same ..)

theorem bay_pushArr (s : State) (c b : Nat) (a : ArrCmd) : (s.pushArr c a).bay b = s.bay b := by
  rw [State.bay, State.pushArr, kickArray_bays]
  rfl

theorem endGrant_cores (s : State) (c : Nat) : (s.endGrant c).cores = s.cores := rfl

/-- The grant of a core with one more command counted: it ends with the 64th (R240). -/
def State.counted (s : State) (c : Nat) : State :=
  if ((s.modBay (coreBay c) (fun b => { b with gc := b.gc + 1 })).bay (coreBay c)).gc = 64 then
    (s.modBay (coreBay c) (fun b => { b with gc := b.gc + 1 })).endGrant c
  else s.modBay (coreBay c) (fun b => { b with gc := b.gc + 1 })

theorem counted_cores (s : State) (c : Nat) : (s.counted c).cores = s.cores := by
  unfold State.counted
  split <;> rfl

theorem issueArr_eq (s : State) (c : Nat) (a : ArrCmd) :
    s.issueArr c a = ((s.counted c).modJob c (fun j => { j with rd := j.rd + a.ks, co := true })).pushArr c a := rfl

/-- An issued command stands behind the others. -/
theorem kinds_issueArr (s : State) (c : Nat) (a : ArrCmd) :
    ((s.issueArr c a).core c).arr.map (·.kind) = (s.core c).arr.map (·.kind) ++ [a.kind] := by
  rw [issueArr_eq, core_pushArr, core_modJob_same, core_of_cores (counted_cores ..), List.map_append]
  rfl

theorem jobAt_issueArr {s : State} {c : Nat} (a : ArrCmd) (h : (s.core c).job.isSome = true) :
    (s.issueArr c a).jobAt c = { s.jobAt c with rd := (s.jobAt c).rd + a.ks, co := true } := by
  obtain ⟨j, hj⟩ := Option.isSome_iff_exists.1 h
  rw [issueArr_eq, State.jobAt, core_pushArr, core_modJob_same, core_of_cores (counted_cores ..), State.jobAt, hj]
  rfl

theorem bay_issueArr (s : State) (c : Nat) (a : ArrCmd) : (s.issueArr c a).bay (coreBay c) = (s.counted c).bay (coreBay c) := by
  rw [issueArr_eq, bay_pushArr]
  rfl

/-- A grant goes on below its 64th command. -/
theorem bay_counted_below {s : State} {c : Nat} (h : (s.bay (coreBay c)).gc < 63) :
    (s.counted c).bay (coreBay c) = { s.bay (coreBay c) with gc := (s.bay (coreBay c)).gc + 1 } := by
  rw [State.counted, bay_modBay_same, if_neg (show (s.bay (coreBay c)).gc + 1 ≠ 64 by omega), bay_modBay_same]

theorem holder_counted_last {s : State} {c : Nat} (h : (s.bay (coreBay c)).gc = 63) (hh : (s.bay (coreBay c)).holder = some (c % 4)) :
    ((s.counted c).bay (coreBay c)).holder = none := by
  rw [State.counted, bay_modBay_same, if_pos (show (s.bay (coreBay c)).gc + 1 = 64 by omega), State.endGrant,
    bay_modBay_same, if_pos (by rwa [bay_modBay_same])]

/-- Settles O29: the three bodies run through their checks, and an issue counts toward grant and chain. -/
theorem arrayCommands : Obligations.ArrayCommands := by
  refine ⟨?_, fun g acc s u hr hi hd => mzero_completes acc hr hi hd, ?_⟩
  · rintro s u _ e fa fb oa ob rs sel rfl he hf hi
    refine ⟨?_, ?_⟩
    · rintro o hr rfl hd hn ho
      exact issueNext_ok hr (mmaBody_run he hf hi hd hn ho)
    · rintro o hr rfl hd hn ho
      exact issueNext_ok hr (mmaBody_run he hf hi hd hn ho)
  · rintro c a s _ rfl hj hh hg
    refine ⟨kinds_issueArr s c a, by rw [jobAt_issueArr a hj], by rw [jobAt_issueArr a hj], fun hlt => ?_, fun hlast => ?_⟩
    · rw [bay_issueArr, bay_counted_below hlt]
      exact ⟨rfl, hh⟩
    · rw [bay_issueArr, holder_counted_last hlast hh]

end Sys2Proof.Machine
end

section
/-!
PROOFS. Retirement: MRET at issue, its start and its completion (O32).
-/

namespace Sys2Proof.Machine

/-! ### MRET at issue (R188, R260 to R262, R265) -/

theorem takeNumber_run {u : Cur} {ctr : BitVec 4} {s : State} (h : ((s.jobAt u.core).ctr ctr.toNat).canTake 1 = true) :
    takeNumber u ctr s = .ok (((s.jobAt u.core).ctr ctr.toNat).iss + 1) (s.numbered u.core ctr) :=
  M.bind_run getJob_run (M.bind_run (trapIf_run (by rw [h]; rfl)) (M.bind_run modJob_run rfl))

theorem handOver_run {u : Cur} {s : State} (h : (s.strmAt u.core u.strm).log = []) : handOver u s = .ok () (s.handed u) :=
  M.bind_run (needLogEmpty_run h) modify_run

/-- What an MRET does after its checks. -/
def mretIssue (u : Cur) (d : Dest) (ctr : BitVec 4) (acc : Bool) (r : BitVec 256 × BitVec 32 × List RowDst) : M Unit := do
  let ds ← if (mretDesc r.1).rnd = .rsto then takeDraws u (64 * laneN (mretDesc r.1).lw) 2 else pure []
  handOver u
  let num ← takeNumber u ctr
  deliver u d num
  let now := (← get).now
  modify (fun s => (s.endGrant u.core).pushArr u.core (blankCmd u now (.mret r.1 r.2.1 ctr num r.2.2 ds) acc))
  modJob u (fun j => { j with rd := 0, co := false })
  modify (fun s => s.kickRetire u.core)

/-- Outside mode 5 an MRET draws nothing. -/
theorem mretIssue_run {u : Cur} {d : Dest} {ctr : BitVec 4} {acc : Bool} {desc : BitVec 256} {fd : BitVec 32} {rows : List RowDst} {s : State}
    (hm : (mretDesc desc).rnd ≠ .rsto) (hl : (s.strmAt u.core u.strm).log = [])
    (hn : (((s.handed u).jobAt u.core).ctr ctr.toNat).canTake 1 = true) :
    mretIssue u d ctr acc (desc, fd, rows) s = .ok () (s.retiring u d ctr acc desc fd rows []) := by
  refine (congrFun (if_neg hm) s).trans (M.bind_run (a := []) (s1 := s) rfl ?_)
  exact M.bind_run (handOver_run hl) (M.bind_run (takeNumber_run hn) (M.bind_run deliver_run (M.bind_run M.get_run
    (M.bind_run modify_run (M.bind_run modJob_run modify_run)))))

/-- An MRET is its checks, then its issue. -/
theorem execMret_eq (g : Guard) (d : Dest) (ctr : BitVec 4) (acc : Bool) (a b : Src) (s : State) :
    exec (.mret g d ctr acc a b) s = issueNext g (fun u => mretReady u d a b >>= mretIssue u d ctr acc) s := by
  show execMret g d ctr acc a b s = _
  refine congrArg (fun body => issueNext g body s) (funext fun u => ?_)
  simp only [mretReady, operand2, source2, bind_assoc, pure_bind]
  refine bind_congr fun _ => bind_congr fun _ => bind_congr fun da => bind_congr fun off => bind_congr fun ar => bind_congr fun _ =>
    bind_congr fun _ => bind_congr fun bs => bind_congr fun _ => bind_congr fun j => ?_
  cases fmtOf (fun i => tget 0 j.fd i) (mretDesc (BitVec.ofNat 256 (leNat bs))).fmt with
  | none => rfl
  | some mf =>
    simp only [bind_assoc]
    refine bind_congr fun _ => ?_
    unfold mretRows
    split <;> split <;> simp only [bind_assoc, pure_bind] <;> rfl

theorem mret_completes {g : Guard} {d : Dest} {ctr : BitVec 4} {acc : Bool} {a b : Src} {s s1 : State} {u : Cur} {desc : BitVec 256}
    {fd : BitVec 32} {rows : List RowDst} (hr : Runs s u g) (hready : mretReady u d a b s = .ok (desc, fd, rows) s1)
    (hm : (mretDesc desc).rnd ≠ .rsto) (hl : (s1.strmAt u.core u.strm).log = [])
    (hn : (((s1.handed u).jobAt u.core).ctr ctr.toNat).canTake 1 = true) :
    Completes (.mret g d ctr acc a b) s u .next (s1.retiring u d ctr acc desc fd rows []) :=
  (execMret_eq ..).trans (issueNext_ok hr (M.bind_run hready (mretIssue_run hm hl hn)))

/-! ### The start of a retirement (R262) -/

/-- A line sent by a unit that is no copy engine changes no core. -/
theorem sendLine_cores {un : SendUnit} (hu : un ≠ 4) (s : State) (c pa : Nat) (bs : List (Byte × Byte)) (ctx : Nat) :
    (s.sendLine c un pa bs ctx).cores = s.cores := by
  unfold State.sendLine State.addUnacked
  simp only [if_neg hu]
  split
  · simp only [postOnce_cores, modBase_cores, reqRoom_cores]
    rfl
  · rfl

theorem sendBytes_cores {un : SendUnit} (hu : un ≠ 4) (s : State) (c pa : Nat) (bs : List (Byte × Byte)) (ctx : Nat) :
    (s.sendBytes c un pa bs ctx).cores = s.cores :=
  foldl_field State.cores (fun s (p : Nat × List (Byte × Byte)) => sendLine_cores hu s c p.1 p.2 ctx) _ _

@[simp] theorem clusterWrite_cores (s : State) (c off : Nat) (bs : List (Byte × Byte)) : (s.clusterWrite c off bs).cores = s.cores := by
  unfold State.clusterWrite
  repeat' split
  all_goals rfl

/-- A stored row changes neither the job nor the commands of its core. -/
theorem core_putRow (s : State) (c ctx : Nat) (d : RowDst) (bs : List (Byte × Byte)) :
    ((s.putRow c ctx d bs).core c).job = (s.core c).job ∧ ((s.putRow c ctx d bs).core c).arr = (s.core c).arr := by
  cases d with
  | spad o => rw [State.putRow, State.spadWrite, core_modCore_same]; exact ⟨rfl, rfl⟩
  | cluster o => rw [State.putRow, core_of_cores (clusterWrite_cores ..)]; exact ⟨rfl, rfl⟩
  | phys ps =>
    have hc : (s.putRow c ctx (.phys ps) bs).cores = s.cores :=
      foldl_fst_field State.cores (fun r p => sendBytes_cores (by decide) r.1 c p.1 _ ctx) ps (s, bs)
    rw [core_of_cores hc]
    exact ⟨rfl, rfl⟩

/-- A row of the region through the epilogue: each lane with its bias. -/
def epilogueRow (f : MretDesc) (bias : List Nat) (row : Row) : List (Nat × Bool × Flg) :=
  (rowLanes f.lw row).zipIdx.map (fun p => mretLane f (bias.getD p.2 0) p.1)

/-- Without a bias every lane goes through alike. -/
theorem epilogueRow_nil (f : MretDesc) (row : Row) : (epilogueRow f [] row).map (·.1) = (rowLanes f.lw row).map (fun b => (mretLane f 0 b).1) := by
  have hlanes : (rowLanes f.lw row).zipIdx.map (fun p => mretLane f 0 p.1) = (rowLanes f.lw row).map (mretLane f 0) :=
    (List.map_map (f := Prod.fst) (g := mretLane f 0)).symm.trans (congrArg (List.map _) (List.zipIdx_map_fst ..))
  simp only [epilogueRow, List.getD_nil]
  rw [hlanes, List.map_map]
  rfl

/-- Where the bias values of a descriptor stand (R261). -/
def MretDesc.biasArea (f : MretDesc) : Area := if f.biasa < 0x1000000 then .spad f.biasa else .cluster (f.biasa - 0x1000000)

/-- The bias values of a retirement. -/
def State.biasValues (s : State) (c : Nat) (f : MretDesc) : List Nat :=
  if f.bias then (List.range (laneN f.lw)).map (elemAt (leNat (s.localBytes c f.biasArea (4 * laneN f.lw))) 32) else []

/-- One row of a retirement: kept in the region or stored, with the flags it adds. -/
def State.retireRow (s : State) (c : Nat) (acc : Bool) (desc : BitVec 256) (fd : BitVec 32) (rows : List RowDst) (ds : List Nat)
    (r : State × Flg) (row : Nat) : State × Flg :=
  let f := mretDesc desc
  let base := if acc then 64 else 0
  let mf := (fmtOf (fun _ => fd) f.fmt).getD (.img false)
  let ls := epilogueRow f (s.biasValues c f) ((s.jobAt c).row (base + row))
  let fl := ls.foldl (fun (x : Flg) l => x ||| l.2.2) r.2
  if f.keep then (r.1.modJob c (fun j => j.setRow (base + row) (rowOf f.lw (ls.map (·.1)))), fl)
  else
    let es := ls.zipIdx.map (fun p => storeLane mf f.lw p.1.2.1 p.1.1 f.rnd (ds.getD (row * laneN f.lw + p.2) 0))
    (r.1.putRow c (s.jobAt c).ctx (rows.getD row (.phys [])) (packRun mf.width (es.map (·.1))), es.foldl (fun (x : Flg) e => x ||| e.2) fl)

section
variable {s : State} {c : Nat} {acc : Bool} {desc : BitVec 256} {fd : BitVec 32} {rows : List RowDst} {ds : List Nat}

theorem arr_retireRow (r : State × Flg) (row : Nat) :
    ((s.retireRow c acc desc fd rows ds r row).1.core c).arr = (r.1.core c).arr := by
  unfold State.retireRow
  dsimp only
  split
  · rw [core_modJob_same]
  · exact (core_putRow ..).2

theorem job_retireRow_stored (hk : (mretDesc desc).keep = false) (r : State × Flg) (row : Nat) :
    ((s.retireRow c acc desc fd rows ds r row).1.core c).job = (r.1.core c).job := by
  unfold State.retireRow
  dsimp only
  rw [hk]
  exact (core_putRow ..).1

theorem job_retireRow_kept (hk : (mretDesc desc).keep = true) (r : State × Flg) (row : Nat) :
    ((s.retireRow c acc desc fd rows ds r row).1.core c).job = (r.1.core c).job.map (fun j => j.setRow ((if acc then 64 else 0) + row)
      (rowOf (mretDesc desc).lw ((epilogueRow (mretDesc desc) (s.biasValues c (mretDesc desc))
        ((s.jobAt c).row ((if acc then 64 else 0) + row))).map (·.1)))) := by
  unfold State.retireRow
  dsimp only
  rw [if_pos hk, core_modJob_same]

end

/-- A job whose 64 rows of a region are written. -/
def Job.rowsPut (j : Job) (base : Nat) (w : Nat → Row) : Job := (List.range 64).foldl (fun j r => j.setRow (base + r) (w (base + r))) j

theorem row_rowsPut (j : Job) (base : Nat) (w : Nat → Row) {r : Nat} (h : r < 64) : (j.rowsPut base w).row (base + r) = w (base + r) := by
  have hfold : (j.rowsPut base w).v = ((List.range 64).map (base + ·)).foldl (fun t k => tput 0 t k (w k)) j.v := by
    rw [Job.rowsPut, v_foldl_setRow base (fun r => w (base + r)), List.foldl_map]
  rw [Job.row, hfold, tget_foldl_tput, if_pos (List.mem_map.2 ⟨r, List.mem_range.2 h, rfl⟩)]

theorem strm_setRow (j : Job) (n : Nat) (r : Row) (x : Strm) : (j.setRow n r).strm x = j.strm x := by cases x <;> rfl

theorem strm_rowsPut (j : Job) (base : Nat) (w : Nat → Row) (x : Strm) : (j.rowsPut base w).strm x = j.strm x := by
  unfold Job.rowsPut
  induction List.range 64 generalizing j with
  | nil => rfl
  | cons r l ih => exact (ih _).trans (strm_setRow ..)

theorem jobAt_of_job_map {s t : State} {c : Nat} {f : Job → Job} (hj : (s.core c).job.isSome = true)
    (h : (t.core c).job = (s.core c).job.map f) : t.jobAt c = f (s.jobAt c) := by
  obtain ⟨j, hj⟩ := Option.isSome_iff_exists.1 hj
  rw [State.jobAt, h, State.jobAt, hj]
  rfl

/-- A fold whose steps each change the job alike leaves the fold of those changes. -/
theorem job_foldl {β : Type} {c : Nat} {f : State × β → Nat → State × β} {g : Job → Nat → Job}
    (h : ∀ r row, ((f r row).1.core c).job = (r.1.core c).job.map (g · row)) (l : List Nat) (r : State × β) :
    ((l.foldl f r).1.core c).job = (r.1.core c).job.map (l.foldl g) := by
  induction l generalizing r with
  | nil => simp
  | cons row l ih =>
    rw [List.foldl_cons, ih, h, Option.map_map]
    rfl

/-- The rows of a retirement, one after the other. -/
def State.retireRows (s : State) (c : Nat) (acc : Bool) (desc : BitVec 256) (fd : BitVec 32) (rows : List RowDst) (ds : List Nat) :
    State × Flg := (List.range 64).foldl (s.retireRow c acc desc fd rows ds) (s, 0)

section
variable (s : State) (c : Nat) (acc : Bool) (desc : BitVec 256) (fd : BitVec 32) (rows : List RowDst) (ds : List Nat)

theorem arr_retireRows : ((s.retireRows c acc desc fd rows ds).1.core c).arr = (s.core c).arr :=
  foldl_fst_field (fun t : State => (t.core c).arr) arr_retireRow _ _

variable {desc}

theorem jobAt_retireRows_stored (hk : (mretDesc desc).keep = false) : (s.retireRows c acc desc fd rows ds).1.jobAt c = s.jobAt c :=
  jobAt_of_job (foldl_fst_field (fun t : State => (t.core c).job) (job_retireRow_stored hk) _ _)

variable {s c}

theorem jobAt_retireRows_kept (hj : (s.core c).job.isSome = true) (hk : (mretDesc desc).keep = true) :
    (s.retireRows c acc desc fd rows ds).1.jobAt c = (s.jobAt c).rowsPut (if acc then 64 else 0) (fun n => rowOf (mretDesc desc).lw
      ((epilogueRow (mretDesc desc) (s.biasValues c (mretDesc desc)) ((s.jobAt c).row n)).map (·.1))) := by
  have hjob := job_foldl (c := c) (job_retireRow_kept (s := s) (acc := acc) (fd := fd) (rows := rows) (ds := ds) hk) (List.range 64) (s, 0)
  rw [State.retireRows, jobAt_of_job_map hj hjob, Job.rowsPut]

/-- A retirement changes no stream. -/
theorem strmAt_retireRows (hj : (s.core c).job.isSome = true) (x : Strm) :
    (s.retireRows c acc desc fd rows ds).1.strmAt c x = s.strmAt c x := by
  rw [State.strmAt, State.strmAt]
  cases hk : (mretDesc desc).keep with
  | true => rw [jobAt_retireRows_kept acc fd rows ds hj hk, strm_rowsPut]
  | false => rw [jobAt_retireRows_stored s c acc fd rows ds hk]

end

/-- A retirement that has started: its flags, and the stores it awaits. -/
def ArrCmd.started (a : ArrCmd) (now : Nat) (f : Flg) (acks : List Nat) : ArrCmd := { a with left := true, leftAt := now, flg := f, acks := acks }

/-- The state in which an MRET has started: its command is marked, with what its completion needs, and the completion is due. -/
def State.retireStarted (s : State) (c : Nat) (a : ArrCmd) (act : Nat) (r : State × Flg) : State :=
  (r.1.modArr c a.id (·.started s.now r.2 (sentIds s r.1))).post (s.now + (if 2 ≤ act then 256 else 64)) (.retirementComplete c)

section
variable (s : State) (c : Nat) (a : ArrCmd) (act : Nat) (r : State × Flg)

theorem arr_retireStarted : ((s.retireStarted c a act r).core c).arr
    = mapIf (fun x => x.id == a.id) (·.started s.now r.2 (sentIds s r.1)) (r.1.core c).arr := congrArg Core.arr (core_modArr ..)

theorem jobAt_retireStarted : (s.retireStarted c a act r).jobAt c = r.1.jobAt c := jobAt_of_job ((congrArg Core.job (core_modArr ..)).trans rfl)

theorem due_retireStarted : (s.now + (if 2 ≤ act then 256 else 64), false, .retirementComplete c) ∈ (s.retireStarted c a act r).due :=
  (mem_dueInsert ..).2 (.inl rfl)

end

theorem exec_retirementStart (c : Nat) (s : State) : exec (.retirementStart c) s = .next (s.retireStart c) := rfl

/-- The unit starts the oldest command, a retirement whose bias values can be read. -/
theorem retirementStart_starts {s : State} {c : Nat} {a : ArrCmd} {rest : List ArrCmd} {desc : BitVec 256} {fd : BitVec 32} {ctr : BitVec 4}
    {num : Word} {rows : List RowDst} {ds : List Nat} (ha : (s.core c).arr = a :: rest) (hk : a.kind = .mret desc fd ctr num rows ds)
    (hl : a.left = false)
    (hb : (mretDesc desc).bias = true → s.localBad c (mretDesc desc).biasArea (4 * laneN (mretDesc desc).lw) = none) :
    exec (.retirementStart c) s
      = .next (s.retireStarted c a (mretDesc desc).act (s.retireRows c a.acc desc fd rows ds)) := by
  have hbad : (if (mretDesc desc).bias then s.localBad c (mretDesc desc).biasArea (4 * laneN (mretDesc desc).lw) else none) = none := by
    split
    next h => exact hb h
    next => rfl
  simp only [MretDesc.biasArea] at hbad
  simp only [exec_retirementStart, State.retireStart, ha, hl, hk, List.head?_cons, hbad, Bool.false_eq_true, if_false]
  rfl

/-- A change of commands that keeps their identifiers. -/
theorem map_id_mapIf {p : ArrCmd → Bool} {f : ArrCmd → ArrCmd} (h : ∀ a, (f a).id = a.id) (l : List ArrCmd) :
    (mapIf p f l).map (·.id) = l.map (·.id) := by
  rw [mapIf, List.map_map]
  refine List.map_congr_left fun a _ => ?_
  rw [Function.comp_apply]
  split
  · exact h a
  · rfl

/-! ### The end of a retirement (R262, R263) -/

/-- Flags change no timeline counter. -/
theorem ctr_orAsrAt {s : State} {c : Nat} (x : Strm) (f : Flg) (h : (s.core c).job.isSome = true) (n : Nat) :
    ((s.orAsrAt c x f).jobAt c).ctr n = (s.jobAt c).ctr n := by
  unfold State.orAsrAt
  split
  · rfl
  · rw [jobAt_modStrm x _ h]
    cases x <;> rfl

theorem isSome_orAsrAt {s : State} {c : Nat} (x : Strm) (f : Flg) (h : (s.core c).job.isSome = true) :
    ((s.orAsrAt c x f).core c).job.isSome = true := by
  unfold State.orAsrAt
  split
  · exact h
  · exact isSome_modJob _ h

section
variable {s : State} {c : Nat} (hj : (s.core c).job.isSome = true) (ctr num : Nat) (scope : Scope)
include hj

theorem ctr_completeNum : ((s.completeNum c ctr num scope false).jobAt c).ctr ctr = ((s.jobAt c).ctr ctr).complete num 1 scope false := by
  rw [State.completeNum, jobAt_modJob _ hj]
  exact tget_tput_same ..

theorem strmAt_completeNum (x : Strm) : (s.completeNum c ctr num scope false).strmAt c x = s.strmAt c x := by
  rw [State.strmAt, State.completeNum, jobAt_modJob _ hj]
  cases x <;> rfl

end

theorem exec_retirementComplete (c : Nat) (s : State) : exec (.retirementComplete c) s = .next (s.retireDone c) := rfl

/-- A retirement that has started and awaits no store completes. -/
theorem retirementComplete_completes {s : State} {c : Nat} {a : ArrCmd} {desc : BitVec 256} {fd : BitVec 32} {ctr : BitVec 4} {num : Word}
    {rows : List RowDst} {ds : List Nat} (ha : (s.core c).arr = [a]) (hl : a.left = true) (hack : a.acks = [])
    (hk : a.kind = .mret desc fd ctr num rows ds) : exec (.retirementComplete c) s
      = .next ((((s.modCore c (fun k => { k with arr := k.arr.drop 1 })).orAsrAt c .cx a.flg).completeNum c ctr.toNat num.toNat .mod
          false).kickRetire c) := by
  rw [exec_retirementComplete]
  simp [State.retireDone, ha, hl, hack, hk]

/-- Settles O32: MRET is its checks and then its issue; the unit puts one row after the other through the epilogue; the completion hands on
what the start kept. -/
theorem retirement : Obligations.Retirement := by
  refine ⟨?_, ?_, ?_⟩
  · intro g d ctr acc a b s s1 u desc fd rows hr hready hm hl hn
    exact mret_completes hr hready hm hl hn
  · rintro c s a rest desc fd ctr num rows ds _ hj ha hl hk rfl hb
    refine ⟨_, retirementStart_starts ha hk hl hb, ?_, ?_, due_retireStarted .., fun hkeep hbias r hlt => ?_, fun hkeep => ?_, ?_⟩
    · rw [arr_retireStarted, map_id_mapIf (f := (ArrCmd.started · _ _ _)) fun _ => rfl, arr_retireRows]
    · rw [arr_retireStarted, arr_retireRows, ha]
      simp [mapIf, ArrCmd.started]
    · rw [jobAt_retireStarted, jobAt_retireRows_kept _ _ _ _ hj hkeep, row_rowsPut _ _ _ hlt, State.biasValues, hbias,
        if_neg Bool.false_ne_true, epilogueRow_nil]
    · rw [jobAt_retireStarted, jobAt_retireRows_stored s c a.acc fd rows ds hkeep]
    · rw [State.strmAt, jobAt_retireStarted, ← State.strmAt, strmAt_retireRows _ _ _ _ hj]
  · intro c s a desc fd ctr num rows ds hj ha hl hack hk
    have hjob : ((s.modCore c (fun k => { k with arr := k.arr.drop 1 })).core c).job = (s.core c).job := by rw [core_modCore_same]
    have hdrop : ((s.modCore c (fun k => { k with arr := k.arr.drop 1 })).core c).arr = [] := by rw [core_modCore_same, ha]; rfl
    have hdone := isSome_orAsrAt .cx a.flg (hjob ▸ hj)
    refine ⟨_, retirementComplete_completes ha hl hack hk, ?_, ?_, ?_⟩
    · rw [core_of_cores (kickRetire_cores ..), State.completeNum, core_modJob_same, arr_orAsrAt, hdrop]
    · rw [jobAt_of_job (congrArg Core.job (core_of_cores (kickRetire_cores ..) c)), ctr_completeNum hdone, ctr_orAsrAt _ _ (hjob ▸ hj),
        jobAt_of_job hjob]
    · rw [State.strmAt, jobAt_of_job (congrArg Core.job (core_of_cores (kickRetire_cores ..) c)), ← State.strmAt,
        strmAt_completeNum hdone, asr_orAsrAt _ _ (hjob ▸ hj), State.strmAt, jobAt_of_job hjob, ← State.strmAt]

end Sys2Proof.Machine
end

section
/-!
PROOFS. What loads and the reading of sources leave of a core: all but its job, counters, translations and L1 lines.
-/

namespace Sys2Proof.Machine

/-- A view of a core that sees no change of a job that is there, and none of counters, cached translations or L1 lines. -/
structure LoadBlind {γ : Type} (π : Core → γ) : Prop where
  job : ∀ k f, π { k with job := k.job.map f } = π k
  obs : ∀ k o, π { k with obs := o } = π k
  tlb : ∀ k l, π { k with tlb := l } = π k
  l1 : ∀ k l, π { k with l1 := l } = π k

theorem loadBlind_pages : LoadBlind Core.pages := ⟨fun _ _ => rfl, fun _ _ => rfl, fun _ _ => rfl, fun _ _ => rfl⟩

theorem view_of_cores {γ : Type} (π : Core → γ) {s t : State} (h : t.cores = s.cores) (i : Nat) : π (t.core i) = π (s.core i) := by
  rw [core_of_cores h]

theorem view_setCore {γ : Type} {π : Core → γ} {s : State} {c : Nat} {k : Core} (h : π k = π (s.core c)) (i : Nat) :
    π ((s.setCore c k).core i) = π (s.core i) := by
  by_cases hi : i = c
  · rw [hi, core_setCore_same, h]
  · rw [core_setCore_other _ _ hi]

section
variable {γ : Type} {π : Core → γ} (hπ : LoadBlind π) (s : State) (c i : Nat)
include hπ

theorem LoadBlind.modJob (f : Job → Job) : π ((s.modJob c f).core i) = π (s.core i) := view_setCore (hπ.job ..) i

theorem LoadBlind.modStrm (x : Strm) (f : Stream → Stream) : π ((s.modStrm c x f).core i) = π (s.core i) := hπ.modJob ..

theorem LoadBlind.countCore (code : Nat) (q : Nat → Nat) : π ((s.countCore c code q).core i) = π (s.core i) := by
  unfold State.countCore
  dsimp only
  split
  · rfl
  · split
    · rfl
    · rw [core_raiseN]
      exact view_setCore (hπ.obs ..) i

theorem LoadBlind.noteSeen (x : Strm) (clk : Tbl Nat) : π ((s.noteSeen c x clk).core i) = π (s.core i) := by
  unfold State.noteSeen
  split
  · rfl
  · exact hπ.modStrm ..

/-! ### Translation (R398) -/

theorem LoadBlind.tlbLook (ctx va : Nat) (x : Ctx) : π ((s.tlbLook c ctx va x).1.core i) = π (s.core i) := by
  have hcore : ∀ b : Bool, π ((if b then s.countCore c 0x000A (qualAny 1) else s).core i) = π (s.core i) := fun b => by
    split
    · exact hπ.countCore ..
    · rfl
  have hdie : ∀ (b : Bool) (t : State), π ((if b then t.countDie (coreDie c) ctx 0x0102 (qualAny 1) else t).core i) = π (t.core i) :=
    fun b t => by
      split
      · exact view_of_cores π (countDie_cores ..) i
      · rfl
  exact (hdie _ _).trans (hcore _)

theorem LoadBlind.tlbFill (ctx va : Nat) (f : Leaf) : π ((s.tlbFill c ctx va f).core i) = π (s.core i) := by
  unfold State.tlbFill
  split
  · rfl
  · exact (view_of_cores π (modDie_cores ..) i).trans (view_setCore (hπ.tlb ..) i)

theorem LoadBlind.findLeaf (ctx va : Nat) : π ((s.findLeaf c ctx va).1.core i) = π (s.core i) := by
  unfold State.findLeaf
  split
  · rfl
  · rename_i x _
    have hlook := hπ.tlbLook s c i ctx va x
    have hwalk : ∀ t : State, π ((t.walkFrom x.part (coreDie c) c ctx x.asid va 4 x.root).1.core i) = π (t.core i) := fun t =>
      view_of_cores π (walkFrom_cores ..) i
    dsimp only
    split
    · rename_i hl
      rw [hl] at hlook
      exact (hwalk _).trans hlook
    · rename_i hl
      rw [hl] at hlook
      split
      · exact hlook
      · split
        · exact (hwalk _).trans hlook
        · exact hlook

theorem LoadBlind.translate (ctx va : Nat) (need : Need) : π ((s.translate c ctx va need).1.core i) = π (s.core i) := by
  unfold State.translate
  dsimp only
  split
  · exact hπ.findLeaf ..
  · split
    · exact hπ.findLeaf ..
    · exact (hπ.tlbFill ..).trans (hπ.findLeaf ..)

theorem LoadBlind.translateRange (ctx va n : Nat) (need : Need) : π ((s.translateRange c ctx va n need).1.core i) = π (s.core i) := by
  refine foldl_fst_field (fun t : State => π (t.core i)) (fun r p => ?_) _ _
  obtain ⟨s, e | l⟩ := r
  · rfl
  · have h := hπ.translate s c i ctx p.1 need
    dsimp only
    split
    · exact h
    · rename_i pa _
      by_cases hp : paMod pa = (s.translate c ctx p.1 need).1.ownMod
      · simp only [if_pos hp]; exact h
      · simp only [if_neg hp]
        split <;> exact h

/-! ### Loads through the L1 (R144) -/

theorem LoadBlind.addUnacked (u : SendUnit) (id : Nat) : π ((s.addUnacked c u id).core i) = π (s.core i) := by
  unfold State.addUnacked
  split
  · exact hπ.modJob ..
  · rfl

theorem LoadBlind.sendLine (u : SendUnit) (pa : Nat) (bs : List (Byte × Byte)) (ctx : Nat) :
    π ((s.sendLine c u pa bs ctx).core i) = π (s.core i) := by
  unfold State.sendLine
  dsimp only
  split
  · exact (view_of_cores π (by simp only [postOnce_cores, modBase_cores, reqRoom_cores]) i).trans (hπ.addUnacked s.newId.2 c i u s.newId.1)
  · exact hπ.addUnacked (s.sendOut c ctx pa _).2 ..

theorem LoadBlind.writeBack (u : SendUnit) (l : L1Line) : π ((s.writeBack c u l).core i) = π (s.core i) := by
  unfold State.writeBack
  split
  · rfl
  · exact (hπ.countCore ..).trans (hπ.sendLine ..)

theorem LoadBlind.l1Put (l : L1Line) : π ((s.l1Put c l).core i) = π (s.core i) := by
  have hset : ∀ ls, π ((s.setCore c { s.core c with l1 := ls }).core i) = π (s.core i) := fun _ => view_setCore (hπ.l1 ..) i
  unfold State.l1Put
  dsimp only
  split
  · exact hset _
  · split
    · exact hset _
    · exact (hπ.writeBack ..).trans (hset _)

theorem LoadBlind.l1Fill (l : L1Line) (sc : Scope) : π ((s.l1Fill c l sc).1.core i) = π (s.core i) := by
  unfold State.l1Fill
  by_cases hp : paMod l.pa = s.ownMod
  · simp only [if_pos hp]
    exact (hπ.countCore ..).trans (view_of_cores π (homeRead_cores ..) i)
  · simp only [if_neg hp]
    exact hπ.countCore ..

theorem LoadBlind.l1Load (ctx pa n : Nat) (sc : Scope) : π ((s.l1Load c ctx pa n sc).1.core i) = π (s.core i) := by
  unfold State.l1Load
  dsimp only
  refine (hπ.l1Put ..).trans ?_
  split
  · exact hπ.l1Fill ..
  · rfl

theorem LoadBlind.loadPieces (x : Strm) (ctx : Nat) (sc : Scope) (ps : List (Nat × Nat)) :
    π ((s.loadPieces c x ctx sc ps).1.core i) = π (s.core i) := by
  refine foldl_fst_field (fun t : State => π (t.core i)) (fun r p => foldl_fst_field (fun t : State => π (t.core i)) (fun r q => ?_) _ r) _ _
  exact (hπ.noteSeen ..).trans (hπ.l1Load ..)

theorem LoadBlind.loadArea (x : Strm) (ar : Area) (n : Nat) (sc : Scope) : π ((s.loadArea c x ar n sc).1.core i) = π (s.core i) := by
  cases ar with
  | spad | cluster => rfl
  | trans va =>
    unfold State.loadArea
    dsimp only
    split
    · exact hπ.translateRange ..
    · exact (hπ.loadPieces ..).trans (hπ.translateRange ..)

end

/-! ### Scalar sources (R37, R156) -/

/-- A step of a body that, where it answers, leaves what a function of the state shows. -/
def M.Keeps {α γ : Type} (φ : State → γ) (m : M α) : Prop := ∀ s a t, m s = .ok a t → φ t = φ s

section
variable {α β γ : Type} {φ : State → γ}

theorem M.Keeps.bind {m : M α} {k : α → M β} (hm : m.Keeps φ) (hk : ∀ a, (k a).Keeps φ) : (m >>= k).Keeps φ := by
  intro s b t h
  obtain ⟨a, s1, ha, hb⟩ := M.bind_ok.1 h
  exact (hk a s1 b t hb).trans (hm s a s1 ha)

/-- A step that reads only. -/
theorem M.Keeps.of_same {m : M α} (h : ∀ s a t, m s = .ok a t → s = t) : m.Keeps φ := fun s a t hm => by rw [h s a t hm]

theorem M.keeps_pure (a : α) : (pure a : M α).Keeps φ := .of_same fun _ _ _ h => (M.pure_ok.1 h).2

theorem M.keeps_modify {f : State → State} (hf : ∀ s, φ (f s) = φ s) : (modify f : M PUnit).Keeps φ := fun s _ _ h => by
  rw [← M.modify_ok.1 h, hf]

theorem M.keeps_liftF {f : State → State × Except AccFault α} (hf : ∀ s, φ (f s).1 = φ s) : (liftF f).Keeps φ := fun s _ _ h => by
  rw [← hf s, liftF_ok.1 h]

end

section
variable {γ : Type} {π : Core → γ} (hπ : LoadBlind π) (u : Cur) (i : Nat)

theorem keeps_getJob {φ : State → γ} : (getJob u).Keeps φ := .of_same fun _ _ _ h => (getJob_ok.1 h).2

theorem keeps_getStrm {φ : State → γ} : (getStrm u).Keeps φ := .of_same fun _ _ _ h => (getStrm_ok.1 h).2

theorem keeps_notePop (w : Word) : (notePop w).Keeps (fun s => π (s.core i)) := M.keeps_modify fun _ => rfl

include hπ

theorem LoadBlind.popQueue (y : Strm) : (popQueue u y).Keeps (fun s => π (s.core i)) :=
  (keeps_getJob u).bind fun _ => (M.keeps_modify fun s => hπ.modJob s u.core i _).bind fun _ =>
    (keeps_notePop i _).bind fun _ => M.keeps_pure _

theorem LoadBlind.popBlock (n : BitVec 3) : (popBlock u n).Keeps (fun s => π (s.core i)) := by
  refine (keeps_getStrm u).bind fun x => ?_
  split
  · exact M.keeps_pure _
  · exact (M.keeps_modify fun s => hπ.modStrm s u.core i _ _).bind fun _ => M.keeps_pure _

theorem LoadBlind.blockAgain (r : MReg) (n al : Nat) : (blockAgain u r n al).Keeps (fun s => π (s.core i)) :=
  (M.Keeps.of_same fun _ _ _ h => (areaOf_ok.1 h).2).bind fun _ => M.keeps_liftF fun s => hπ.loadArea s u.core i ..

/-- Reading a source changes of a core its job, counters, translations and L1 lines alone. -/
theorem LoadBlind.readScalar (x : Src) : (readScalar u x).Keeps (fun s => π (s.core i)) := by
  unfold Machine.readScalar
  cases x with
  | s | a => exact (keeps_getStrm u).bind fun _ => M.keeps_pure _
  | pop y => exact hπ.popQueue u i y
  | peek y => exact (keeps_getJob u).bind fun _ => M.keeps_pure _
  | m n =>
    have hword : ∀ (va : Nat) (bs : List (Byte × Bool)), M.Keeps (fun s => π (s.core i)) (match firstBad va bs with
        | some v => raisePoison u v
        | none => do
          notePop (BitVec.ofNat 64 (leNat (bs.map (·.1))))
          pure (BitVec.ofNat 64 (leNat (bs.map (·.1))))) := fun va bs => by
      split
      · intro s a t h
        simp [raisePoison, M.bind_ok, raiseTrap, M.throw_ok] at h
      · exact (keeps_notePop i _).bind fun _ => M.keeps_pure _
    refine (hπ.popBlock u i n).bind fun b => ?_
    split
    · exact M.keeps_pure _
    · dsimp only
      split
      · exact (keeps_notePop i _).bind fun _ => M.keeps_pure _
      · split
        · exact (M.keeps_pure _).bind (hword _)
        · exact (hπ.blockAgain u i _ 8 8).bind (hword _)
  | const | imm | lit | v => exact M.keeps_pure _
  | coordCore | coordDie | stage | jobIdx | iter | one | zero | lane => exact (keeps_getJob u).bind fun _ => M.keeps_pure _

theorem LoadBlind.source2 {s t : State} {a b : Src} {p : Word × Word} (h : source2 u a b s = .ok p t) : π (t.core i) = π (s.core i) := by
  obtain ⟨_, s1, hx, hy⟩ := source2_ok.1 h
  exact (hπ.readScalar u i b _ _ _ hy).trans (hπ.readScalar u i a _ _ _ hx)

end

end Sys2Proof.Machine
end

section
/-!
PROOFS. WBIND, WUNB, WSTAT, WCSRD and WCSLD (O33).
-/

namespace Sys2Proof.Machine

theorem getCtx_run {u : Cur} {s : State} : getCtx u s = .ok (s.jobAt u.core).ctx s := rfl

/-! ### Bindings (R269, R299) -/

section
variable {g : Guard} {a b : Src} {s s1 : State} {u : Cur} {m e : Word} (hr : Runs s u g)
include hr

theorem wbind_completes (ha : source2 u a b s = .ok (m, e) s1) (hm : isCustom m = true) (he : bindOk e = true) :
    Completes (.wbind g a b) s u .next (s1.setBind (s1.jobAt u.core).ctx (m.toNat - 0xC0) (e ||| 0x1000)) := by
  obtain ⟨hn, _, hx, hy⟩ := source2_ok.1 ha
  exact issueNext_ok hr (M.bind_run (ensure_run hn) (M.bind_run hx (M.bind_run hy (M.bind_run (trapIf_run (by rw [hm, he]; rfl))
    (M.bind_run getCtx_run modify_run)))))

theorem wunb_all_completes : Completes (.wunb g true a) s u .next (s.modCtx (s.jobAt u.core).ctx (fun x => { x with bind := [] })) :=
  issueNext_ok hr (M.bind_run getCtx_run modify_run)

theorem wunb_one_completes (ha : source1 u a s = .ok m s1) (hm : isCustom m = true) :
    Completes (.wunb g false a) s u .next (s1.setBind (s.jobAt u.core).ctx (m.toNat - 0xC0) 0) := by
  obtain ⟨hn, hx⟩ := source1_ok.1 ha
  exact issueNext_ok hr (M.bind_run getCtx_run (M.bind_run (ensure_run hn) (M.bind_run hx (M.bind_run (trapIf_run (by rw [hm]; rfl))
    modify_run))))

/-! ### WSTAT (R301) -/

theorem wstat_entry_completes {d : Dest} (hb : operand1 u d b s = .ok m s1) (hm : isCustom m = true) :
    Completes (.wstat g d b 0) s u .next (s1.delivered u d (wstatVal s1 u.core 0 m)) := by
  obtain ⟨hd, hn, hx⟩ := operand1_ok.1 hb
  exact issueNext_ok hr (M.bind_run (needSpace_run hd) (M.bind_run (ensure_run hn) (M.bind_run hx
    (M.bind_run (trapIf_run (by rw [hm]; rfl)) (M.bind_run M.get_run deliver_run)))))

theorem wstat_bits_completes {d : Dest} {sel : BitVec 2} (hs : sel ≠ 0) (hd : (s.jobAt u.core).noRoom u.strm d = none) :
    Completes (.wstat g d b sel) s u .next (s.delivered u d (wstatVal s u.core sel 0)) := by
  refine issueNext_ok hr (M.bind_run (needSpace_run hd) ?_)
  rw [if_neg hs]
  exact M.bind_run rfl (M.bind_run (trapIf_run (by rw [beq_false_of_ne hs]; rfl)) (M.bind_run M.get_run deliver_run))

/-! ### WCSRD (R300) -/

/-- The words that a WCSRD has read, written to the scratchpad. -/
def State.wordsPut (s : State) (u : Cur) (dst : Nat) (ws : List (BitVec 128)) : State :=
  s.spadWrite u.core dst (fullMask (ws.flatMap (fun w => leBytes w.toNat 16))) false

end

section
variable {g : Guard} {a b : Src} {n : BitVec 8} {s s1 s2 : State} {u : Cur} {p ma : Word} {dst : Nat} {ps : List Page} (hr : Runs s u g)
  (ha : source2 u a b s = .ok (p, ma) s1) (hdst : csArea u p.toInt (16 * (n.toNat + 1)) s1 = .ok dst s1)
include hr ha hdst

theorem wcsrd_rom_completes (hrom : ma.toNat + (n.toNat + 1) ≤ 0x2000) (hw : watch u dst (16 * (n.toNat + 1)) false true s1 = .ok () s1) :
    Completes (.wcsrd g a b n) s u .next (s1.wordsPut u dst ((List.range (n.toNat + 1)).map (fun i => romWord (ma.toNat + i)))) := by
  obtain ⟨hn, _, hx, hy⟩ := source2_ok.1 ha
  refine issueNext_ok hr (M.bind_run (ensure_run hn) (M.bind_run hx (M.bind_run hy (M.bind_run hdst ?_))))
  rw [if_pos hrom]
  exact M.bind_run rfl (M.bind_run hw modify_run)

theorem wcsrd_slots_completes (hlo : 0x2000 ≤ ma.toNat) (hhi : ma.toNat + (n.toNat + 1) ≤ 0x3000)
    (hok : ∀ i ∈ slotsOf (ma.toNat - 0x2000) (n.toNat + 1), ∃ x, s1.ctx? (s1.jobAt u.core).ctx = some x ∧ x.slotOk i = true)
    (hps : (slotsOf (ma.toNat - 0x2000) (n.toNat + 1)).mapM (needPage u) s1 = .ok ps s2)
    (hw : watch u dst (16 * (n.toNat + 1)) false true s2 = .ok () s2) :
    Completes (.wcsrd g a b n) s u .next (s2.wordsPut u dst (pageRun ps (ma.toNat - 0x2000) (n.toNat + 1))) := by
  obtain ⟨hn, _, hx, hy⟩ := source2_ok.1 ha
  have hslots : ((slotsOf (ma.toNat - 0x2000) (n.toNat + 1)).any
      (fun i => !(((s1.ctx? (s1.jobAt u.core).ctx).map (fun x => x.slotOk i)).getD false))) = false := by
    refine List.any_eq_false.2 fun i hi => ?_
    obtain ⟨x, hx, hxi⟩ := hok i hi
    simp [hx, hxi]
  refine issueNext_ok hr (M.bind_run (ensure_run hn) (M.bind_run hx (M.bind_run hy (M.bind_run hdst ?_))))
  rw [if_neg (show ¬ma.toNat + (n.toNat + 1) ≤ 0x2000 by omega)]
  refine M.bind_run (trapIf_run (decide_eq_false (by omega))) (M.bind_run getCtx_run (M.bind_run M.get_run ?_))
  exact M.bind_run (trapIf_run hslots) (M.bind_run hps (M.bind_run rfl (M.bind_run hw modify_run)))

end

/-! ### WCSLD (R292, R298) -/

/-- WCSLD answers its predicate. -/
theorem answer_run {u : Cur} {nb : Option (BitVec 3)} {v : Bool} {s : State} :
    (match nb with | some p => modStrm u (fun x => x.setPred p v) | none => pure () : M Unit) s = .ok () (s.answered u nb v) := by
  cases nb <;> rfl

/-- A load whose writes are acknowledged ends. -/
theorem wcsld_ends {o : COps} {n : BitVec 8} {s : State} {u : Cur} {slots : List Nat} {t : Nat} (hr : Runs s u o.g)
    (hd : (s.jobAt u.core).noRoom u.strm o.d = none) (hw : (s.core u.core).wcsld = some (slots, [], t)) (ht : t ≤ s.now) :
    Completes (.wcsld o n) s u .next (((s.endWcsld u.core slots).answered u o.nb true).delivered u o.d 0) := by
  refine issueNext_ok hr (M.bind_run (needSpace_run hd) (M.bind_run M.get_run ?_))
  rw [hw]
  dsimp only
  rw [if_neg (by simpa using ht)]
  exact M.bind_run modify_run (M.bind_run answer_run deliver_run)

/-- What a WCSLD finds of its words: the number and the reason of the first one that is refused. -/
def firstRefusal (ws : List (BitVec 128)) : Option (Nat × Nat) := ws.zipIdx.findSome? (fun w => (refused w.1).map (fun r => (w.2, r)))

theorem firstRefusal_eq_some {ws : List (BitVec 128)} {i r : Nat} (hi : i < ws.length) (hlow : ∀ k < i, refused (ws.getD k 0) = none)
    (hr : refused (ws.getD i 0) = some r) : firstRefusal ws = some (i, r) := by
  have hnone : ∀ w ∈ ws.zipIdx.take i, (refused w.1).map (fun r => (w.2, r)) = none := by
    intro w hw
    obtain ⟨k, hk, rfl⟩ := List.mem_iff_getElem.1 hw
    have hki : k < i := by simp at hk; omega
    have hnone := hlow k hki
    rw [List.getD_eq_getElem _ _ (hki.trans hi)] at hnone
    simp [hnone]
  have hsplit : ws.zipIdx = ws.zipIdx.take i ++ (ws[i], i) :: ws.zipIdx.drop (i + 1) := by
    have hdrop := List.drop_eq_getElem_cons (l := ws.zipIdx) (i := i) (by simpa using hi)
    rw [List.getElem_zipIdx, Nat.zero_add] at hdrop
    rw [← hdrop, List.take_append_drop]
  rw [List.getD_eq_getElem _ _ hi] at hr
  exact List.findSome?_eq_some_iff.2 ⟨_, _, _, hsplit, by rw [hr]; rfl, hnone⟩

theorem length_wordsOf (bs : List Byte) (n : Nat) : (wordsOf bs n).length = n := by rw [wordsOf, List.length_map, List.length_range]

/-- The words of the scratchpad that a WCSLD checks. -/
def State.csWords (s : State) (c src n : Nat) : List (BitVec 128) := wordsOf (s.localBytes c (.spad src) (16 * n)) n

/-- A WCSLD whose words are not all accepted delivers the number and the reason of the first refusal. -/
theorem wcsld_refuses {o : COps} {n : BitVec 8} {s s1 : State} {u : Cur} {a ma : Word} {x : Ctx} {src i r : Nat} (hr : Runs s u o.g)
    (hd : (s.jobAt u.core).noRoom u.strm o.d = none) (hidle : (s.core u.core).wcsld = none) (ha : source2 u o.a o.b s = .ok (a, ma) s1)
    (hx : s.ctx? (s1.jobAt u.core).ctx = some x) (hma : ma.toNat / 4096 = 2) (hend : ma.toNat % 4096 + (n.toNat + 1) ≤ 4096)
    (himg : x.image.isSome = true) (hsrc : csArea u a.toInt (16 * (n.toNat + 1)) s1 = .ok src s1)
    (hw : watch u src (16 * (n.toNat + 1)) true false s1 = .ok () s1) (hbad : s1.spadBadAt u.core src (16 * (n.toNat + 1)) = none)
    (hpin : ∀ k p, k ∈ slotsOf (ma.toNat % 4096) (n.toNat + 1) → (s1.core u.core).page (s1.jobAt u.core).ctx k = some p → p.2.pinned = false)
    (hfirst : firstRefusal (s1.csWords u.core src (n.toNat + 1)) = some (i, r)) :
    Completes (.wcsld o n) s u .next ((s1.answered u o.nb true).delivered u o.d (BitVec.ofNat 64 (i * 256 + r))) := by
  have hpages : (s.core u.core).pages = (s1.core u.core).pages := (loadBlind_pages.source2 u u.core ha).symm
  obtain ⟨hn, _, hxa, hxb⟩ := source2_ok.1 ha
  have hunpinned : ((slotsOf (ma.toNat % 4096) (n.toNat + 1)).any
      (fun k => (((s.core u.core).page (s1.jobAt u.core).ctx k).map (fun q => q.2.pinned)).getD false)) = false := by
    refine List.any_eq_false.2 fun k hk => ?_
    rw [Core.page, hpages, ← Core.page]
    cases hp : (s1.core u.core).page (s1.jobAt u.core).ctx k with
    | none => exact Bool.false_ne_true
    | some p => exact ne_true_of_eq_false (hpin k p hk hp)
  have hspace : (decide (ma.toNat / 4096 ≠ 2 ∨ 4096 < ma.toNat % 4096 + (n.toNat + 1)) || x.image.isNone) = false := by
    rw [decide_eq_false (by omega), Option.isNone_eq_false_iff.2 himg]
    rfl
  refine issueNext_ok hr (M.bind_run (needSpace_run hd) (M.bind_run M.get_run ?_))
  rw [hidle]
  refine M.bind_run (ensure_run hn) (M.bind_run hxa (M.bind_run hxb (M.bind_run getCtx_run ?_)))
  rw [hx]
  refine M.bind_run (trapIf_run hspace) (M.bind_run hsrc (M.bind_run hw ?_))
  rw [if_neg (ne_true_of_eq_false hunpinned)]
  refine M.bind_run (localRead_run (ar := .spad src) hbad) ?_
  rw [firstRefusal, State.csWords] at hfirst
  dsimp only
  rw [hfirst]
  exact M.bind_run answer_run deliver_run

/-- Settles O33: each body runs straight through its checks; of a WCSLD the words decide, or the load under way. -/
theorem controlStore : Obligations.ControlStore := by
  refine ⟨?_, ?_, ?_, ?_, ?_⟩
  · intro g a b s s1 u m e hr ha hm he
    exact wbind_completes hr ha hm he
  · intro g a s s1 u m hr
    exact ⟨wunb_all_completes hr, wunb_one_completes hr⟩
  · intro g d b sel s s1 u v hr
    refine ⟨?_, wstat_bits_completes hr⟩
    rintro rfl hb hv
    exact wstat_entry_completes hr hb hv
  · intro g a b n s s1 s2 u p ma dst ps hr ha hdst
    exact ⟨wcsrd_rom_completes hr ha hdst, wcsrd_slots_completes hr ha hdst⟩
  · intro o n s s1 u hr hd
    refine ⟨fun slots t hw ht => wcsld_ends hr hd hw ht, ?_⟩
    intro a ma x src i r hidle ha hx hlo hhi hend himg hsrc hw hbad hpin hlow hi hri
    exact wcsld_refuses hr hd hidle ha hx (by omega) hend himg hsrc hw hbad hpin
      (firstRefusal_eq_some ((length_wordsOf ..).symm ▸ hi) hlow hri)

end Sys2Proof.Machine
end

section
/-!
PROOFS. Custom opcodes: the start of a routine, the steps of words that ask for nothing, and the page loader (O34).
-/

namespace Sys2Proof.Machine

/-! ### The start of a routine (R39, R46, R270, R271) -/

section
variable {o : CustomOps} {s : State} {u : Cur} {e : Word} (hr : Runs s u o.g)
  (he : e = tget 0 (((s.ctx? (s.jobAt u.core).ctx).map (·.bind)).getD []) (o.major.toNat - 0xC0))
include hr he

/-- Check 7 of a bound major comes before its issue. -/
theorem customOpcode_illegal (hv : bindV e = true) (hk : rkDmaskOk (bindRk e) o.dmask = false) :
    exec (.customOpcode o) s = .next (s.takeTrap u { cause := 0x01, reason := 7 }) := by
  obtain ⟨j, hj⟩ := Option.isSome_iff_exists.1 hr.job
  rw [State.jobAt, hj, Option.getD_some] at he
  show execCustomOpcode o s = _
  unfold execCustomOpcode
  simp only [hr.cur, hj, ← he, hv, hk]
  rfl

/-- What an issued custom opcode does before its first step. -/
def customBody (o : CustomOps) (e : Word) : Cur → M Flow := fun u => do
  trapIf (!bindV e) { cause := 0x02, detail := o.major.setWidth 64 }
  modJob u (fun j => { j with micro := some (startMicro o e u), cxFirst := none })
  throw .enter

theorem customOpcode_issues {t : State} (hk : (bindV e && !rkDmaskOk (bindRk e) o.dmask) = false)
    (hi : issue o.g (customBody o e) s = .next t) : exec (.customOpcode o) s = .next (t.microAt u.core) := by
  obtain ⟨j, hj⟩ := Option.isSome_iff_exists.1 hr.job
  rw [State.jobAt, hj, Option.getD_some] at he
  show execCustomOpcode o s = _
  unfold execCustomOpcode
  unfold customBody at hi
  simp only [hr.cur, hj, ← he, hk, hi, Bool.false_eq_true, if_false]

theorem customOpcode_starts (h2 : u.second = false) (hv : bindV e = true) (hk : rkDmaskOk (bindRk e) o.dmask = true) :
    exec (.customOpcode o) s
      = .next ((s.modJob u.core (fun j => { j with micro := some (startMicro o e u), cxFirst := none })).microAt u.core) := by
  have hbody : customBody o e u s = .error .enter (s.modJob u.core (fun j => { j with micro := some (startMicro o e u), cxFirst := none })) :=
    M.bind_error (trapIf_run (by rw [hv]; rfl)) (M.bind_error modJob_run rfl)
  exact customOpcode_issues hr he (by rw [hk]; simp) ((issue_stop hr hbody).trans (by rw [h2]; rfl))

theorem customOpcode_unbound (hv : bindV e = false) (hn : s.trapsNow u) : exec (.customOpcode o) s
    = .next (State.microAt (s.takeTrap u { cause := 0x02, detail := o.major.setWidth 64 }) u.core) := by
  have hbody : customBody o e u s = .error (.trap { cause := 0x02, detail := o.major.setWidth 64 }) s :=
    M.bind_stop (trapIf_stop (by rw [hv]; rfl))
  exact customOpcode_issues hr he (by rw [hv]; rfl) ((issue_trap hr hn hbody).trans (by rw [if_neg (by simp)]))

end

/-! ### A word that asks for nothing (R272, R282) -/

/-- The fields of a word that is all zero but for its SEQ. -/
def quietWord (q : Nat) : MicroWord :=
  { seq := q, tgt := 0, cnd := 0, lw := false, lop := 0, ld := 0, la := 0, lb := 0, lk := 0, sfuK := 0, sfuN := 0, agu := 0, bank := 0,
    fmt := 0, b7 := false, fe := false, blw := false, bn := 0, g := 0, tport := 0, mop := 0, mn := 0, mvar := 0, imm := 0 }

/-- A micro-word of which only SEQ is not 0, and which is accepted (R283). -/
def Quiet (raw : BitVec 128) (q : Nat) : Prop := microWord raw = quietWord q ∧ refused raw = none

theorem quiet_zero : Quiet 0 0 := ⟨by decide, by decide⟩

theorem quiet_retire : Quiet (5#128 <<< 124) 5 := ⟨by decide, by decide⟩

/-- The routine of a core changed by a step. -/
def State.modMicro (s : State) (c : Nat) (f : Micro → Micro) : State := s.modJob c (fun j => { j with micro := j.micro.map f })

theorem modMicro_run {u : Cur} {f : Micro → Micro} {s : State} : modMicro u f s = .ok () (s.modMicro u.core f) := rfl

theorem micro_jobAt (s : State) (c : Nat) : (s.jobAt c).micro = s.microOf c := by
  rw [State.jobAt, State.microOf]
  cases (s.core c).job <;> rfl

theorem getMicro_run {u : Cur} {m0 m : Micro} {s : State} (h : s.microOf u.core = some m) : getMicro u m0 s = .ok m s := by
  refine M.bind_run getJob_run ?_
  rw [micro_jobAt, h]
  rfl

/-- What a word with CND 0 that drains no latch samples (R274, R282). -/
def State.quietSample (s : State) (c : Nat) : MicroSample := { holds := true, latch := tget 0 (s.jobAt c).rl 0, cleared := none }

section
variable {u : Cur} {m : Micro} {q : Nat} {addr : Int} {s : State}

theorem noRoom_nowhere {j : Job} {x : Strm} {d : Dest} (h : d.qs = 0) : j.noRoom x d = none := by
  have hd : destStrms d = [] := by simp [destStrms, h]
  have hv : destVq d = false := by simp [destVq, h]
  simp [Job.noRoom, Job.fullQueue, hd, hv]

theorem microChecks_quiet (hc : m.counted = false) (hs : m.steps < bindSteps m.entry) (hk : q = 5 → bindRk m.entry = 0) :
    microChecks u m (quietWord q) addr s = .ok () s := by
  have hkind : (q == 5 && bindRk m.entry == 2 && true) = false := by
    by_cases h : q = 5
    · rw [hk h]; simp
    · simp [h]
  have huses : (m.uses (quietWord q) addr &&& (255 - bindRcf m.entry) != 0) = false := by
    rw [show m.uses (quietWord q) addr = 0 from rfl, Nat.zero_and]; rfl
  refine M.bind_run getJob_run (M.bind_run (trapIf_run ?_) (M.bind_run (trapIf_run hkind) (M.bind_run (trapIf_run huses) ?_)))
  · rw [hc, decide_eq_false (by omega)]; rfl
  · exact M.bind_run rfl (M.bind_run rfl rfl)

theorem microReady_quiet : microReady u m (quietWord q) addr s = .ok () s := rfl

theorem microSample_quiet : microSample u m (quietWord q) s
    = .ok (s.quietSample u.core) (s.modMicro u.core (fun m => { m with sample := some (s.quietSample u.core) })) := rfl

theorem microReserve_quiet {d : Dest} (hd : q = 5 → d.qs = 0) : microReserve u (quietWord q) d s
    = .ok () (s.modMicro u.core (fun m => { m with sample := m.sample.map (fun p => { p with resv := some [] }) })) := by
  have hv : ¬(q = 5 ∧ destVq d) := by
    rintro ⟨h, hv⟩
    simp [destVq, hd h] at hv
  have hn : (if (s.jobAt u.core).st.exited then 0 else
      (if (quietWord q).lop ≠ 0 ∧ (quietWord q).ld = 0x1A then 1 else 0) + (if q = 5 ∧ destVq d then 1 else 0)) = 0 := by
    rw [if_neg hv]
    exact ite_self _
  refine M.bind_run M.get_run ?_
  dsimp only
  rw [show (quietWord q).seq = q from rfl, hn]
  refine M.bind_run (holdIf_run (by simp)) (M.bind_run M.set_run ?_)
  rw [modJob, M.modify_ok]
  refine congrArg (s.modJob u.core) (funext fun j => ?_)
  simp

theorem microWaits_quiet {d : Dest} (hq : q = 0 ∨ q = 5) (hk : q = 5 → bindRk m.entry = 0) (hd : q = 5 → d.qs = 0) :
    microWaits u m (quietWord q) addr d s = .ok [] s := by
  rcases hq with rfl | rfl
  · rfl
  · refine M.bind_run M.get_run (M.bind_run (needSpace_run (noRoom_nowhere (by rw [hd rfl]; rfl))) ?_)
    have hreg : (if 5 = 5 ∧ bindRk m.entry = 2 then d.reg else none) = none := if_neg (by rw [hk rfl]; decide)
    rw [show (quietWord 5).seq = 5 from rfl, hreg]
    rfl

end

/-! ### A step of such a word (R273, R282) -/

/-- The state of a step of a word that asks for nothing before its sequencing: the step keeps what it has sampled and reserved. -/
def State.quietStep (s : State) (c q : Nat) : State :=
  ((s.modMicro c (fun m => { m with sample := some (s.quietSample c) })).modMicro c
    (fun m => { m with sample := m.sample.map (fun p => { p with resv := some [] }) })).modMicro c
    (fun m => (List.range 4).foldl (fun m g => m.agStep (quietWord q) g) m)

theorem microOf_modMicro (s : State) (c : Nat) (f : Micro → Micro) : (s.modMicro c f).microOf c = (s.microOf c).map f := by
  rw [State.microOf, State.modMicro, core_modJob_same, State.microOf]
  cases (s.core c).job <;> rfl

theorem agStep_quiet (m : Micro) (q g : Nat) : m.agStep (quietWord q) g = m := by
  have hop : (quietWord q).aguOp g = 0 := by simp [MicroWord.aguOp, quietWord]
  simp only [Micro.agStep, hop]

theorem microOf_quietStep {s : State} {c : Nat} {m : Micro} (q : Nat) (h : s.microOf c = some m) :
    (s.quietStep c q).microOf c = some { m with sample := some { s.quietSample c with resv := some [] } } := by
  simp only [State.quietStep, microOf_modMicro, h, agStep_quiet, Option.map_some, List.foldl_const]
  simp

/-- A routine at another micro address after a step. -/
def Micro.moved (m : Micro) (upc steps : Nat) (mlc : BitVec 16) : Micro :=
  { m with upc := BitVec.ofNat 14 upc, mlc := mlc, steps := steps, counted := false, sample := none }

/-- A routine that has counted no wait and keeps no sample only moves on. -/
theorem moved_next {m : Micro} (hc : m.counted = false) (hs : m.sample = none) (p : Option MicroSample) :
    { m with sample := p }.moved (m.upc.toNat + 1) (m.steps + 1) m.mlc = { m with upc := m.upc + 1, steps := m.steps + 1 } := by
  have hupc : BitVec.ofNat 14 (m.upc.toNat + 1) = m.upc + 1 := by
    rw [BitVec.ofNat_add, BitVec.ofNat_toNat, BitVec.setWidth_eq]
    rfl
  rw [Micro.moved, hupc, ← hc, ← hs]

/-- A routine that ends in a cycle. -/
def Micro.ended (m : Micro) (steps t : Nat) : Micro := { m with steps := steps, counted := false, sample := none, ending := some t }

/-- May a routine go on at a micro address: is it in the context space, in a slot that is loaded (R289)? -/
def State.mayGoOn (s : State) (ctx upc : Nat) : Prop := upc / 4096 = 2 ∧ ∃ x, s.ctx? ctx = some x ∧ x.slotOk (upc / 512 % 8) = true

theorem ctx_modMicro (s : State) (c : Nat) (f : Micro → Micro) : ((s.modMicro c f).jobAt c).ctx = (s.jobAt c).ctx := by
  rw [State.jobAt, State.modMicro, core_modJob_same, State.jobAt]
  cases (s.core c).job <;> rfl

/-- A step of a word that asks for nothing, once it passes every check of R282: its sequencing alone is left. -/
theorem microStep_quiet {u : Cur} {m : Micro} {s s1 : State} {p : Page} {q : Nat} (hpc : m.upc.toNat / 4096 = 2) (hd : m.destOk = true)
    (hp : needPage u (m.upc.toNat / 512 % 8) s = .ok p s1) (hw : Quiet (tget 0 p.words (m.upc.toNat % 512)) q) (hm : m.sample = none)
    (hc : m.counted = false) (hs : m.steps < bindSteps m.entry) (hmicro : s1.microOf u.core = some m)
    (hq : (q = 0 ∧ s1.mayGoOn (s1.jobAt u.core).ctx (m.upc.toNat + 1)) ∨ (q = 5 ∧ bindRk m.entry = 0 ∧ m.dest.qs = 0)) :
    microStep u m s = if q = 5 then .ok .retire ((s1.quietStep u.core q).modMicro u.core (·.ended (m.steps + 1) (s1.now + 1)))
      else .ok .next ((s1.quietStep u.core q).modMicro u.core (·.moved (m.upc.toNat + 1) (m.steps + 1) m.mlc)) := by
  obtain ⟨hword, hok⟩ := hw
  have hseq : q = 0 ∨ q = 5 := hq.imp And.left And.left
  have hret : q = 5 → bindRk m.entry = 0 ∧ m.dest.qs = 0 := by
    rintro rfl
    exact (hq.resolve_left (by simp)).2
  refine (M.bind_of_ok (trapIf_run (decide_eq_false (not_not.2 hpc)))).trans ((M.bind_of_ok (trapIf_run (by rw [hd]; simp))).trans
    ((M.bind_of_ok hp).trans ?_))
  dsimp only
  rw [hok, hm, hword]
  refine (M.bind_of_ok (microChecks_quiet hc hs fun h => (hret h).1)).trans ((M.bind_of_ok microReady_quiet).trans
    ((M.bind_of_ok microSample_quiet).trans ((M.bind_of_ok (microReserve_quiet fun h => (hret h).2)).trans
    ((M.bind_of_ok (microWaits_quiet hseq (fun h => (hret h).1) fun h => (hret h).2)).trans ?_))))
  -- no read, no lane operation and no write
  refine (M.bind_of_ok M.get_run).trans ((congrFun (if_neg nofun) _).trans ?_)
  refine (M.bind_of_ok rfl).trans ((M.bind_of_ok getJob_run).trans ((congrFun (if_neg nofun) _).trans ?_))
  refine (M.bind_of_ok rfl).trans ((congrFun (if_neg nofun) _).trans ?_)
  refine (M.bind_of_ok rfl).trans ((congrFun (if_neg nofun) _).trans ?_)
  refine (M.bind_of_ok rfl).trans ((M.bind_of_ok rfl).trans ((congrFun (if_neg nofun) _).trans ?_))
  refine (M.bind_of_ok rfl).trans ((congrFun (if_neg nofun) _).trans ((congrFun (if_neg nofun) _).trans ?_))
  refine (M.bind_of_ok (m := microMto u _ _ _) rfl).trans ((M.bind_of_ok modMicro_run).trans ?_)
  refine (M.bind_of_ok (getMicro_run (microOf_quietStep q hmicro))).trans ?_
  rcases hq with ⟨rfl, hnext, x, hx, hslot⟩ | ⟨rfl, hk, hqs⟩
  · refine (congrFun (if_neg nofun) _).trans ((congrFun (if_pos nofun) _).trans ?_)
    refine M.bind_run (trapIf_run ?_) (M.bind_run modMicro_run ?_)
    · rw [ctx_modMicro, ctx_modMicro]
      show (decide ((m.upc.toNat + 1) / 4096 ≠ 2) || !(((s1.ctx? (s1.jobAt u.core).ctx).map (fun x =>
        x.slotOk ((m.upc.toNat + 1) / 512 % 8))).getD false)) = false
      rw [hx, decide_eq_false (not_not.2 hnext), Option.map_some, hslot]
      rfl
    · dsimp only
      rw [hc]
      rfl
  · refine (congrFun (if_pos rfl) _).trans ((congrFun (if_neg (by rw [hk]; decide)) _).trans
      ((congrFun (if_neg (by rw [hk]; decide)) _).trans (M.bind_run modMicro_run ?_)))
    dsimp only
    rw [hc, hk]
    rfl

/-! ### The routine of a core through a step (R271, R282, R292) -/

/-- A page that is there is only marked as used. -/
theorem needPage_ok {u : Cur} {slot : Nat} {p : Page} {s s1 : State} (h : needPage u slot s = .ok p s1) :
    ∃ n, s1 = s.modCore u.core (fun k => { k with pages := tput none k.pages n (some p) }) := by
  unfold needPage at h
  obtain ⟨_, _, hs, h⟩ := M.bind_ok.1 h
  obtain ⟨rfl, rfl⟩ := M.get_ok.1 hs
  obtain ⟨ctx, _, hctx, h⟩ := M.bind_ok.1 h
  obtain ⟨rfl, rfl⟩ := getCtx_ok.1 hctx
  cases hx : s.ctx? (s.jobAt u.core).ctx with
  | none =>
    rw [hx] at h
    cases h
  | some x =>
    rw [hx] at h
    obtain ⟨_, _, ht, h⟩ := M.bind_ok.1 h
    obtain ⟨-, rfl⟩ := trapIf_ok.1 ht
    cases hq : (s.core u.core).page (s.jobAt u.core).ctx slot with
    | none =>
      rw [hq] at h
      obtain ⟨_, _, -, h⟩ := M.bind_ok.1 h
      cases h
    | some q =>
      rw [hq] at h
      obtain ⟨_, _, hl, h⟩ := M.bind_ok.1 h
      obtain ⟨-, rfl⟩ := holdIf_ok.1 hl
      cases h
      exact ⟨q.1, rfl⟩

theorem job_needPage {u : Cur} {slot : Nat} {p : Page} {s s1 : State} (h : needPage u slot s = .ok p s1) :
    (s1.core u.core).job = (s.core u.core).job ∧ s1.now = s.now := by
  obtain ⟨n, rfl⟩ := needPage_ok h
  exact ⟨by rw [core_modCore_same], rfl⟩

@[simp] theorem microOf_pinPage (s : State) (c slot : Nat) : (s.pinPage c slot).microOf c = s.microOf c :=
  microOf_of_job (by rw [State.pinPage, core_modCore_same])

/-- The state in which CX of a core waits no more. -/
def State.unheld (s : State) (c : Nat) : State := s.modStrm c .cx (fun x => { x with wait := none, wpSkip := false })

@[simp] theorem microOf_unheld (s : State) (c : Nat) : (s.unheld c).microOf c = s.microOf c := microOf_modJob fun j => micro_setStrm j .cx _

/-- Outside loops and repetitions an instruction that retires continues with the next. -/
theorem pc_retired {j : Job} {u : Cur} (hl : (j.strm u.strm).loops = []) (hr : (j.strm u.strm).rep = none) :
    ((j.retired u .next).strm u.strm).pc = u.pc + BitVec.ofNat 56 u.size := by
  simp [Job.retired, Job.advance, hl, hr, loopEnds, Stream.afterIssue]

/-- The job of a core once its routine has ended: outside loops and repetitions CX continues with the next instruction. -/
theorem jobAt_endMicro {s : State} {u : Cur} (hx : u.strm = .cx) (hu : u.use = none) (hj : s.hasJob u.core = true)
    (hl : (s.jobAt u.core).cx.loops = []) (hr : (s.jobAt u.core).cx.rep = none) :
    ((s.endMicro u).jobAt u.core).micro = none ∧ ((s.endMicro u).jobAt u.core).cx.pc = u.pc + BitVec.ofNat 56 u.size := by
  have hjob : ((s.endMicro u).core u.core).job = (s.core u.core).job.map (fun j => { j with micro := none }.retired u .next) := by
    rw [State.endMicro, job_retire .next hu, core_modCore_same, Core.unpin, core_modJob_same, Option.map_map]
    rfl
  rw [jobAt_of_job_map hj hjob]
  refine ⟨by simp [Job.retired], ?_⟩
  have hpc := pc_retired (j := { s.jobAt u.core with micro := none }) (u := u)
  rw [hx] at hpc
  exact hpc hl hr

section
variable {s t : State} {c : Nat} {m : Micro} {u : Cur} (hm : s.microOf c = some m) (hend : m.ending = none) (hlive : (s.jobAt c).cx.live = true)
  (hu : u = m.slot c (((s.jobAt c).cx.rep.map (fun r => r.k)).getD 0))
include hm hend hlive hu

/-- A step after which the routine goes on. -/
theorem microAt_next (hstep : microStep u m s = .ok .next t) : s.microAt c
    = ((t.unheld c).pinPage c (m.upc.toNat / 512 % 8)).countHead c .cx .issue := by
  obtain ⟨j, hj, hjm⟩ := Option.bind_eq_some_iff.1 hm
  rw [State.jobAt, hj, Option.getD_some] at hlive hu
  subst hu
  unfold State.microAt
  simp only [hj, hjm, hend, hlive, hstep]
  simp [State.unheld]

/-- A step that ends the routine in the next cycle. -/
theorem microAt_retire (hstep : microStep u m s = .ok .retire t) (hlat : (t.microOf c).bind (fun m => m.ending) = some (s.now + 1)) :
    s.microAt c = (t.unheld c).endMicro u := by
  obtain ⟨j, hj, hjm⟩ := Option.bind_eq_some_iff.1 hm
  rw [State.jobAt, hj, Option.getD_some] at hlive hu
  subst hu
  unfold State.microAt
  simp only [hj, hjm, hend, hlive, hstep, micro_jobAt, hlat]
  simp [State.unheld]

/-- The job after a step that ends the routine in the next cycle: CX continues after the routine's instruction. -/
theorem jobAt_microAt_retire (hstep : microStep u m s = .ok .retire t)
    (hlat : (t.microOf c).bind (fun m => m.ending) = some (s.now + 1)) (hj : t.hasJob c = true) (hcx : (t.jobAt c).cx = (s.jobAt c).cx)
    (hl : (s.jobAt c).cx.loops = []) (hr : (s.jobAt c).cx.rep = none) :
    ((s.microAt c).jobAt c).micro = none ∧ ((s.microAt c).jobAt c).cx.pc = m.pc + BitVec.ofNat 56 u.size := by
  rw [microAt_retire hm hend hlive hu hstep hlat]
  subst hu
  have hcx' : ((t.unheld c).jobAt c).cx = { (s.jobAt c).cx with wait := none, wpSkip := false } := by
    rw [State.unheld, jobAt_modStrm _ _ hj, ← hcx]
    rfl
  refine jobAt_endMicro rfl rfl ((hasJob_modStrm ..).trans hj) ?_ ?_
  · exact (congrArg Stream.loops hcx').trans hl
  · exact (congrArg Stream.rep hcx').trans hr

end

/-! ### The steps of a routine that ask for nothing (R273, R290) -/

theorem exec_microStep (c : Nat) (s : State) : exec (.microStep c) s = .next (s.microAt c) := rfl

@[simp] theorem cx_modMicro (s : State) (c : Nat) (f : Micro → Micro) : ((s.modMicro c f).jobAt c).cx = (s.jobAt c).cx := by
  rw [State.jobAt, State.modMicro, core_modJob_same, State.jobAt]
  cases (s.core c).job <;> rfl

@[simp] theorem cx_quietStep (s : State) (c q : Nat) : ((s.quietStep c q).jobAt c).cx = (s.jobAt c).cx := by simp [State.quietStep]

@[simp] theorem hasJob_modMicro (s : State) (c : Nat) (f : Micro → Micro) : (s.modMicro c f).hasJob c = s.hasJob c := hasJob_modJob ..

@[simp] theorem hasJob_quietStep (s : State) (c q : Nat) : (s.quietStep c q).hasJob c = s.hasJob c := by simp [State.quietStep]

section
variable {c : Nat} {s s1 : State} {m : Micro} {p : Page} {u : Cur} (hmicro : (s.jobAt c).micro = some m)
  (hend : m.ending = none) (hlive : (s.jobAt c).cx.live = true) (hc : m.counted = false) (hsample : m.sample = none)
  (hpc : m.upc.toNat / 4096 = 2) (hsteps : m.steps < bindSteps m.entry) (hd : m.destOk = true)
  (hu : u = m.slot c (((s.jobAt c).cx.rep.map (fun r => r.k)).getD 0)) (hp : needPage u (m.upc.toNat / 512 % 8) s = .ok p s1)
include hmicro hend hlive hc hsample hpc hsteps hd hu hp

/-- A word that asks for nothing steps to the next. -/
theorem microStep_goesOn (hw : Quiet (tget 0 p.words (m.upc.toNat % 512)) 0) (hgo : s1.mayGoOn (s1.jobAt c).ctx (m.upc.toNat + 1)) :
    ∃ t, exec (.microStep c) s = .next t ∧ (t.jobAt c).micro = some { m with upc := m.upc + 1, steps := m.steps + 1 } := by
  have huc : u.core = c := by rw [hu]; rfl
  subst huc
  have hof : s.microOf u.core = some m := (micro_jobAt ..).symm.trans hmicro
  have hof1 : s1.microOf u.core = some m := (microOf_of_job (job_needPage hp).1).trans hof
  have hstep := microStep_quiet hpc hd hp hw hsample hc hsteps hof1 (.inl ⟨rfl, hgo⟩)
  rw [if_neg (by decide)] at hstep
  refine ⟨_, (exec_microStep ..).trans (congrArg _ (microAt_next hof hend hlive hu hstep)), ?_⟩
  rw [micro_jobAt, microOf_of_job (job_countHead ..), microOf_pinPage, microOf_unheld, microOf_modMicro, microOf_quietStep 0 hof1,
    Option.map_some, moved_next hc hsample]

/-- A RETIRE without result ends the routine and goes on after its instruction. -/
theorem microStep_retires (hj : s.hasJob c = true) (hw : Quiet (tget 0 p.words (m.upc.toNat % 512)) 5) (hk : bindRk m.entry = 0)
    (hmask : m.ops.dmask = 0) (hl : (s.jobAt c).cx.loops = []) (hr : (s.jobAt c).cx.rep = none) :
    ∃ t, exec (.microStep c) s = .next t ∧ (t.jobAt c).micro = none ∧ (t.jobAt c).cx.pc = m.pc + BitVec.ofNat 56 u.size := by
  have huc : u.core = c := by rw [hu]; rfl
  subst huc
  have hof : s.microOf u.core = some m := (micro_jobAt ..).symm.trans hmicro
  obtain ⟨hjob, hnow⟩ := job_needPage hp
  have hof1 : s1.microOf u.core = some m := (microOf_of_job hjob).trans hof
  have hstep := microStep_quiet hpc hd hp hw hsample hc hsteps hof1 (.inr ⟨rfl, hk, by rw [Micro.dest, hmask]; rfl⟩)
  rw [if_pos rfl] at hstep
  refine ⟨_, exec_microStep .., jobAt_microAt_retire hof hend hlive hu hstep ?_ ?_ ?_ hl hr⟩
  · rw [microOf_modMicro, microOf_quietStep 5 hof1, hnow]
    rfl
  · rw [hasJob_modMicro, hasJob_quietStep, State.hasJob, hjob]
    exact hj
  · rw [cx_modMicro, cx_quietStep, jobAt_of_job hjob]

end

/-! ### The loader (R290) -/

/-- The loader places the first absent page, which it can read; the slots after it are left for later fetches. -/
theorem pageFetch_places {c n : Nat} {ns : List Nat} {s s1 : State} {j : Job} {x : Ctx} {bs : List Byte} (hj : (s.core c).job = some j)
    (hx : s.ctx? j.ctx = some x) (hnow : Config.freeBit s.free = false) (habs : s.absentSlots c = n :: ns)
    (hread : { s with free := s.free + 1 }.readHome c j.ctx (x.slotVa n) 8192 = (s1, .ok bs)) :
    exec (.pageFetch c) s = .next ((s1.putPage c j.ctx n (pageWords bs) false).kickLoader c) := by
  have habs' : { s with free := s.free + 1 }.absentSlots c = n :: ns := habs
  show Host.Outcome.next (s.fetchPage c) = _
  unfold State.fetchPage
  simp only [hj, hx, State.drawBit, hnow, Bool.false_eq_true, if_false, habs', List.foldl_cons, hread]
  rw [List.foldl_fixed']
  · rfl
  · exact fun _ => rfl

/-- Settles O34: a custom opcode by its binding entry, a micro step by the only field of its word that is not 0, and the loader by the first
slot that it lacks. -/
theorem customOpcodes : Obligations.CustomOpcodes := by
  refine ⟨?_, ?_, ?_⟩
  · intro o s u e hr h2 he
    exact ⟨customOpcode_starts hr he h2, customOpcode_illegal hr he, customOpcode_unbound hr he⟩
  · intro c s s1 m p u hj hmicro hend hlive hc hsample hpc hsteps hd hu hp
    constructor
    · intro hw hnext hslot
      exact microStep_goesOn hmicro hend hlive hc hsample hpc hsteps hd hu hp (by rw [hw]; exact quiet_zero) ⟨hnext, hslot⟩
    · intro hw hk hmask hl hr
      exact microStep_retires hmicro hend hlive hc hsample hpc hsteps hd hu hp hj (by rw [hw]; exact quiet_retire) hk hmask hl hr
  · intro c n ns s s1 j x bs hj hx hnow habs hread
    exact pageFetch_places hj hx hnow habs hread

end Sys2Proof.Machine
end

section
/-!
PROOFS. The canonical form of HBM through state functions, bodies and outcomes (O54).
-/

set_option Elab.async false

namespace Sys2Proof.Machine

/-! ### State functions, bodies and outcomes that keep the form of HBM -/

/-- A record update of a state in form that leaves HBM as it was is in form. -/
theorem memOk_upd {s t : State} (hs : s.memOk) (h : t.hbm = s.hbm := by rfl) : t.memOk := memOk_of_hbm h hs

/-- The state that stands first in a pair, where an equation names the pair's parts. -/
theorem memOk_fst {α : Type} {p : State × α} {s : State} {a : α} (h : p.1.memOk) (e : p = (s, a) := by with_reducible assumption) : s.memOk := by
  rw [e] at h; exact h

/-- The state that stands second in a pair, where an equation names the pair's parts. -/
theorem memOk_snd {α : Type} {p : α × State} {s : State} {a : α} (h : p.2.memOk) (e : p = (a, s) := by with_reducible assumption) : s.memOk := by
  rw [e] at h; exact h

theorem memOk_ite {c : Prop} [Decidable c] {s t : State} (hs : s.memOk) (ht : t.memOk) : (if c then s else t).memOk := by
  split
  · exact hs
  · exact ht

/-- A fold whose state stands second keeps the form where its steps do. -/
theorem memOk_foldl_snd {α β : Type} {f : β × State → α → β × State} (hf : ∀ r a, r.2.memOk → (f r a).2.memOk) (l : List α)
    {r : β × State} (hr : r.2.memOk) : (l.foldl f r).2.memOk := by
  induction l generalizing r with
  | nil => exact hr
  | cons a l ih => exact ih (hf r a hr)

/-- A body keeps the form of HBM, however it ends. -/
def M.KeepsMem {α : Type} (m : M α) : Prop :=
  ∀ s : State, s.memOk → match m s with
    | .ok _ t => t.memOk
    | .error _ t => t.memOk

section
variable {α β : Type}

theorem M.KeepsMem.ok {m : M α} (hm : m.KeepsMem) {s t : State} {a : α} (hs : s.memOk)
    (e : m s = .ok a t := by with_reducible assumption) : t.memOk := by
  have h := hm s hs
  rw [e] at h
  exact h

theorem M.KeepsMem.error {m : M α} (hm : m.KeepsMem) {s t : State} {x : Stop} (hs : s.memOk)
    (e : m s = .error x t := by with_reducible assumption) : t.memOk := by
  have h := hm s hs
  rw [e] at h
  exact h

theorem keepsMem_pure {a : α} : M.KeepsMem (pure a : M α) := fun _ hs => hs

theorem keepsMem_throw {x : Stop} : M.KeepsMem (throw x : M α) := fun _ hs => hs

theorem keepsMem_get : M.KeepsMem (get : M State) := fun _ hs => hs

theorem keepsMem_set {s : State} (hs : s.memOk) : M.KeepsMem (set s : M PUnit) := fun _ _ => hs

theorem keepsMem_modify {f : State → State} (hf : ∀ s, s.memOk → (f s).memOk) : M.KeepsMem (modify f : M PUnit) := fun s hs => hf s hs

theorem M.KeepsMem.bind {m : M α} {k : α → M β} (hm : m.KeepsMem) (hk : ∀ a, (k a).KeepsMem) : M.KeepsMem (m >>= k) := by
  intro s hs
  show match EStateM.bind m k s with
    | .ok _ t => t.memOk
    | .error _ t => t.memOk
  unfold EStateM.bind
  have h := hm s hs
  cases e : m s with
  | ok a t => rw [e] at h; exact hk a t h
  | error x t => rw [e] at h; exact h

/-- What reads the state may rest on its form. -/
theorem keepsMem_get_bind {k : State → M β} (hk : ∀ s : State, s.memOk → (k s).KeepsMem) : M.KeepsMem ((get : M State) >>= k) :=
  fun s hs => hk s hs s hs

theorem keepsMem_map {m : M α} {f : α → β} (hm : m.KeepsMem) : M.KeepsMem (f <$> m) := by
  intro s hs
  show match EStateM.map f m s with
    | .ok _ t => t.memOk
    | .error _ t => t.memOk
  unfold EStateM.map
  have h := hm s hs
  cases e : m s with
  | ok a t => rw [e] at h; exact h
  | error x t => rw [e] at h; exact h

theorem keepsMem_ite {c : Prop} [Decidable c] {m n : M α} (hm : m.KeepsMem) (hn : n.KeepsMem) : M.KeepsMem (if c then m else n) := by
  split
  · exact hm
  · exact hn

/-- A statement that only some cases make, and then what follows it. -/
theorem keepsMem_when {c : Prop} [Decidable c] {m : M Unit} {k : Unit → M β} (hm : m.KeepsMem) (hk : ∀ r, (k r).KeepsMem) :
    M.KeepsMem (if c then m >>= k else k ()) :=
  keepsMem_ite (.bind hm hk) (hk ())

/-- A loop over a list keeps the form where its body does. -/
theorem keepsMem_forIn {l : List α} {b : β} {f : α → β → M (ForInStep β)} (hf : ∀ a b, (f a b).KeepsMem) : M.KeepsMem (forIn l b f) := by
  induction l generalizing b with
  | nil => exact keepsMem_pure
  | cons a l ih =>
    rw [List.forIn_cons]
    refine .bind (hf a b) fun r => ?_
    cases r with
    | done b => exact keepsMem_pure
    | yield b => exact ih

theorem keepsMem_mapM {l : List α} {f : α → M β} (hf : ∀ a, (f a).KeepsMem) : M.KeepsMem (l.mapM f) := by
  induction l with
  | nil => rw [List.mapM_nil]; exact keepsMem_pure
  | cons a l ih =>
    rw [List.mapM_cons]
    exact .bind (hf a) fun _ => .bind ih fun _ => keepsMem_pure

end

/-- If an outcome is a next state, its HBM is in form. -/
def NextOk (o : Host.Outcome State Fault Refusal) : Prop := ∀ t, o = .next t → t.memOk

theorem nextOk_next {s : State} (hs : s.memOk) : NextOk (.next s) := by
  intro t h; cases h; exact hs

theorem nextOk_fault {r : Fault} : NextOk (.fault r) := fun _ h => nomatch h

theorem nextOk_refused {r : Refusal} : NextOk (.refused r) := fun _ h => nomatch h

theorem nextOk_ite {c : Prop} [Decidable c] {a b : Host.Outcome State Fault Refusal} (ha : NextOk a) (hb : NextOk b) :
    NextOk (if c then a else b) := by
  split
  · exact ha
  · exact hb

end Sys2Proof.Machine
end

section
/-!
PROOFS. The canonical form of HBM through accesses to the state (O54).
-/

set_option Elab.async false

namespace Sys2Proof.Machine

theorem memOk_setCore {s : State} {c : ℕ} {k : Core} (h : s.memOk) : (s.setCore c k).memOk := memOk_of_hbm (setCore_hbm ..) h

theorem memOk_modCore {s : State} {c : ℕ} {f : Core → Core} (h : s.memOk) : (s.modCore c f).memOk := memOk_of_hbm (modCore_hbm ..) h

theorem memOk_modJob {s : State} {c : ℕ} {f : Job → Job} (h : s.memOk) : (s.modJob c f).memOk := memOk_of_hbm (modJob_hbm ..) h

theorem memOk_modStrm {s : State} {c : ℕ} {x : Strm} {f : Stream → Stream} (h : s.memOk) : (s.modStrm c x f).memOk := memOk_of_hbm (modStrm_hbm ..) h

theorem memOk_modBay {s : State} {b : ℕ} {f : Bay → Bay} (h : s.memOk) : (s.modBay b f).memOk := memOk_of_hbm (modBay_hbm ..) h

theorem memOk_modDie {s : State} {d : ℕ} {f : Die → Die} (h : s.memOk) : (s.modDie d f).memOk := memOk_of_hbm (modDie_hbm ..) h

theorem memOk_modBase {s : State} {b : ℕ} {f : Base → Base} (h : s.memOk) : (s.modBase b f).memOk := memOk_of_hbm (modBase_hbm ..) h

theorem memOk_modCtx {s : State} {n : ℕ} {f : Ctx → Ctx} (h : s.memOk) : (s.modCtx n f).memOk := memOk_of_hbm (modCtx_hbm ..) h

theorem memOk_modQueue {s : State} {n : ℕ} {f : Queue → Queue} (h : s.memOk) : (s.modQueue n f).memOk := memOk_of_hbm (modQueue_hbm ..) h

theorem memOk_modRec {s : State} {n : ℕ} {f : Rec → Rec} (h : s.memOk) : (s.modRec n f).memOk := memOk_of_hbm (modRec_hbm ..) h

theorem memOk_modFn {s : State} {n : ℕ} {f : Fn → Fn} (h : s.memOk) : (s.modFn n f).memOk := memOk_of_hbm (modFn_hbm ..) h

theorem memOk_modPool {s : State} {p : ℕ} {f : Pool → Pool} (h : s.memOk) : (s.modPool p f).memOk := memOk_of_hbm (modPool_hbm ..) h

theorem memOk_modLanding {s : State} {n : ℕ} {f : Landing → Landing} (h : s.memOk) : (s.modLanding n f).memOk := memOk_of_hbm (modLanding_hbm ..) h

theorem memOk_modChan {s : State} {n ch : ℕ} {f : Chan → Chan} (h : s.memOk) : (s.modChan n ch f).memOk := memOk_of_hbm (modChan_hbm ..) h

theorem memOk_modTag {s : State} {n ix : ℕ} {f : TagSt → TagSt} (h : s.memOk) : (s.modTag n ix f).memOk := memOk_of_hbm (modTag_hbm ..) h

theorem memOk_drawBit {s : State} (h : s.memOk) : s.drawBit.2.memOk := memOk_of_hbm (drawBit_hbm ..) h

theorem memOk_drawNat {s : State} (h : s.memOk) : s.drawNat.2.memOk := memOk_of_hbm (drawNat_hbm ..) h

theorem memOk_drawWord {s : State} (h : s.memOk) : s.drawWord.2.memOk := memOk_of_hbm (drawWord_hbm ..) h

theorem memOk_newId {s : State} (h : s.memOk) : s.newId.2.memOk := memOk_of_hbm (newId_hbm ..) h

theorem memOk_post {s : State} {t : ℕ} {i : Instr} (h : s.memOk) : (s.post t i).memOk := memOk_of_hbm (post_hbm ..) h

theorem memOk_postEarly {s : State} {t : ℕ} {i : Instr} (h : s.memOk) : (s.postEarly t i).memOk := memOk_of_hbm (postEarly_hbm ..) h

theorem memOk_postNow {s : State} {i : Instr} (h : s.memOk) : (s.postNow i).memOk :=
  memOk_post h

theorem memOk_postOnce {s : State} {t : ℕ} {i : Instr} (h : s.memOk) : (s.postOnce t i).memOk := memOk_of_hbm (postOnce_hbm ..) h

theorem memOk_raise {s : State} {fn vec : ℕ} (h : s.memOk) : (s.raise fn vec).memOk := memOk_of_hbm (raise_hbm ..) h

theorem memOk_raiseN {s : State} {fn vec a1 : ℕ} (h : s.memOk) : (s.raiseN fn vec a1).memOk := memOk_of_hbm (raiseN_hbm ..) h

theorem memOk_countCore {s : State} {c code : ℕ} {qual : ℕ → ℕ} (h : s.memOk) : (s.countCore c code qual).memOk := memOk_of_hbm (countCore_hbm ..) h

theorem memOk_countDie {s : State} {d ctx code : ℕ} {qual : ℕ → ℕ} (h : s.memOk) :
    (s.countDie d ctx code qual).memOk := memOk_of_hbm (countDie_hbm ..) h

theorem memOk_countMod {s : State} {code : ℕ} {qual : ℕ → ℕ} (h : s.memOk) : (s.countMod code qual).memOk := memOk_of_hbm (countMod_hbm ..) h

end Sys2Proof.Machine
end

section
/-!
PROOFS. The canonical form of HBM through memory, translation and error records (O54).
-/

set_option Elab.async false

namespace Sys2Proof.Machine

theorem memOk_watchHome {s : State} {key l n : ℕ} {wr : Bool} {asid : ℕ} (h : s.memOk) :
    (s.watchHome key l n wr asid).memOk := memOk_of_hbm (watchHome_hbm ..) h

theorem memOk_mscTouch {s : State} {key l ctx : ℕ} (h : s.memOk) : (s.mscTouch key l ctx).memOk := memOk_of_hbm (mscTouch_hbm ..) h

theorem memOk_joinLine {s : State} {l : ℕ} {clk : Tbl ℕ} (h : s.memOk) : (s.joinLine l clk).memOk := memOk_of_hbm (joinLine_hbm ..) h

theorem memOk_addUnacked {s : State} {c : ℕ} {u : SendUnit} {id : ℕ} (h : s.memOk) : (s.addUnacked c u id).memOk := memOk_of_hbm (addUnacked_hbm ..) h

theorem memOk_sendOut {s : State} {c ctx pa : ℕ} {op : RemoteOp} (h : s.memOk) : (s.sendOut c ctx pa op).2.memOk := memOk_of_hbm (sendOut_hbm ..) h

theorem memOk_closeEpoch {s : State} {d : ℕ} (h : s.memOk) : (s.closeEpoch d).memOk := memOk_of_hbm (closeEpoch_hbm ..) h

theorem memOk_tlbLook {s : State} {c ctx va : ℕ} {x : Ctx} (h : s.memOk) : (s.tlbLook c ctx va x).1.memOk := memOk_of_hbm (tlbLook_hbm ..) h

theorem memOk_tlbFill {s : State} {c ctx va : ℕ} {f : Leaf} (h : s.memOk) : (s.tlbFill c ctx va f).memOk := memOk_of_hbm (tlbFill_hbm ..) h

theorem memOk_remoteFault {s : State} {va : ℕ} (h : s.memOk) : (s.remoteFault va).1.memOk := memOk_of_hbm (remoteFault_hbm ..) h

theorem memOk_l1Acquire {s : State} {c : ℕ} {scope : Scope} {full : Bool} (h : s.memOk) :
    (s.l1Acquire c scope full).memOk := memOk_of_hbm (l1Acquire_hbm ..) h

theorem memOk_acquire {s : State} {c : ℕ} {x : Strm} {scope : Scope} {full : Bool} (h : s.memOk) :
    (s.acquire c x scope full).memOk := memOk_of_hbm (acquire_hbm ..) h

theorem memOk_spadWrite {s : State} {c off : ℕ} {bs : List (Byte × Byte)} {full : Bool} (h : s.memOk) :
    (s.spadWrite c off bs full).memOk := memOk_of_hbm (spadWrite_hbm ..) h

theorem memOk_clusterWrite {s : State} {c off : ℕ} {bs : List (Byte × Byte)} (h : s.memOk) :
    (s.clusterWrite c off bs).memOk := memOk_of_hbm (clusterWrite_hbm ..) h

end Sys2Proof.Machine
end

section
/-!
PROOFS. The canonical form of HBM through the front end, traps and teardown (O54).
-/

set_option Elab.async false

namespace Sys2Proof.Machine

theorem memOk_wakeRecs {s : State} {q : ℕ} (h : s.memOk) : (s.wakeRecs q).memOk :=
  memOk_foldl (fun _ _ hs => memOk_ite (memOk_postOnce hs) hs) _ h

theorem memOk_putTrap {s : State} {ctx : ℕ} {r : TrapRec} (h : s.memOk) : (s.putTrap ctx r).1.memOk := by
  unfold State.putTrap
  split
  · exact h
  · dsimp only
    split
    · dsimp only
      exact memOk_frontReadAs _ _ _ _ h
    · split
      · split
        · dsimp only
          exact memOk_frontWrite _ _ _ (memOk_frontReadAs _ _ _ _ h)
        · dsimp only
          exact memOk_raise (memOk_frontWrite _ _ _ (memOk_frontReadAs _ _ _ _ h))
      · split
        · dsimp only
          exact memOk_frontWrite _ _ _ (memOk_frontReadAs _ _ _ _ h)
        · split
          · dsimp only
            exact memOk_frontWrite _ _ _ (memOk_frontWrite _ _ _ (memOk_frontReadAs _ _ _ _ h))
          · dsimp only
            exact memOk_raise (memOk_frontWrite _ _ _ (memOk_frontWrite _ _ _ (memOk_frontReadAs _ _ _ _ h)))

theorem memOk_endGrant {s : State} {c : ℕ} (h : s.memOk) : (s.endGrant c).memOk :=
  memOk_modBay h

theorem memOk_dropRequests {s : State} {c : ℕ} (h : s.memOk) : (s.dropRequests c).memOk :=
  memOk_modBay (memOk_modDie h)

theorem memOk_clearJob {s : State} {c : ℕ} (h : s.memOk) : (s.clearJob c).memOk := by
  unfold State.clearJob
  dsimp only
  exact memOk_modCore (memOk_dropRequests (memOk_endGrant h))

theorem memOk_leaveGang {s : State} {c rid : ℕ} (h : s.memOk) : (s.leaveGang c rid).memOk := by
  unfold State.leaveGang
  dsimp only
  exact memOk_foldl (fun _ _ hs => memOk_foldl (fun _ _ hs1 => memOk_modCore hs1) _ hs) _ (memOk_modDie h)

theorem memOk_putCompletion {s : State} {rid status info : ℕ} (h : s.memOk) : (s.putCompletion rid status info).1.memOk := by
  unfold State.putCompletion
  split
  · exact h
  · split
    · exact h
    · dsimp only
      split
      · dsimp only
        exact memOk_frontWrite _ _ _ (memOk_flushHomes h)
      · dsimp only
        exact memOk_ite (memOk_raise (memOk_modQueue (memOk_frontWrite _ _ _ (memOk_flushHomes h)))) (memOk_modQueue (memOk_frontWrite _ _ _
            (memOk_flushHomes h)))

theorem memOk_dropRec {s : State} {rid status : ℕ} (h : s.memOk) : (s.dropRec rid status).memOk := by
  unfold State.dropRec
  split
  · exact h
  · dsimp only
    exact memOk_wakeRecs (memOk_foldl (fun _ _ hs => memOk_ite (memOk_postOnce (memOk_modRec hs)) hs) _ (memOk_ite (memOk_upd h) (memOk_modQueue
        (memOk_upd h))))

theorem memOk_teardown {s : State} {ctx source : Nat} {error : Word} {core : Nat} (h : s.memOk) : (s.teardown ctx source error core).memOk := by
  unfold State.teardown
  split
  · exact h
  · extract_lets s1 s2 s3 rids status s4 s5 s6 s7 s8
    have h1 : s1.memOk := memOk_upd h
    have h2 : s2.memOk := memOk_foldl (fun _ _ hs => memOk_modCore (memOk_ite (memOk_clearJob hs) hs)) _ h1
    clear_value s1 s2
    have h3 : s3.memOk := memOk_upd h2
    have h4 : s4.memOk := memOk_foldl (fun t r ht => by
      split
      · exact memOk_putCompletion ht
      · exact ht) _ h3
    have h5 : s5.memOk := memOk_putTrap h4
    have h6 : s6.memOk := memOk_foldl (fun _ _ hs => memOk_dropRec hs) _ h5
    have h8 : s8.memOk := memOk_upd h6
    clear_value s3 s4 s5 s6 s8
    split
    · exact memOk_ite (memOk_modPool h8) h8
    · exact h8

theorem memOk_areaLost {s : State} {ctx va : ℕ} (h : s.memOk) : (s.areaLost ctx va).memOk := by
  unfold State.areaLost
  dsimp only
  exact memOk_teardown (memOk_error _ _ _ _ _ _ _ (memOk_drawWord h))

theorem memOk_finishStop {s : State} {ctx : ℕ} (h : s.memOk) : (s.finishStop ctx).memOk := by
  unfold State.finishStop
  split
  · split
    · dsimp only
      exact memOk_foldl (fun _ _ hs => memOk_postOnce (memOk_modRec hs)) _ h
    · exact h
  · exact h

theorem memOk_askStop {s : State} {ctx : ℕ} {kind : StopKind} (h : s.memOk) : (s.askStop ctx kind).memOk :=
  memOk_foldl (fun _ _ hs => memOk_ite (memOk_modCore hs) hs) _ h

theorem memOk_haltCtx {s : State} {ctx : ℕ} {hold : Bool} (h : s.memOk) : (s.haltCtx ctx hold).memOk := by
  unfold State.haltCtx
  dsimp only
  exact memOk_finishStop (memOk_askStop (memOk_modCtx h))

theorem memOk_frontTrap {s : State} {ctx queue : ℕ} {e : AccFault} (h : s.memOk) : (s.frontTrap ctx queue e).1.memOk := by
  unfold State.frontTrap
  dsimp only
  split
  · dsimp only
    exact memOk_areaLost (memOk_putTrap h)
  · dsimp only
    exact memOk_ite (memOk_putTrap h) (memOk_haltCtx (memOk_putTrap h))

theorem memOk_finishRec {s : State} {rid status info : ℕ} (h : s.memOk) : (s.finishRec rid status info).memOk := by
  unfold State.finishRec
  split
  · exact h
  · dsimp only
    split
    · exact memOk_dropRec (memOk_putCompletion h)
    · exact memOk_ite (memOk_modRec (memOk_frontTrap (memOk_putCompletion h))) (memOk_dropRec (memOk_frontTrap (memOk_putCompletion h)))

end Sys2Proof.Machine
end

section
/-!
PROOFS. The canonical form of HBM through waits, draws and the issue of an instruction (O54).
-/

set_option Elab.async false

namespace Sys2Proof.Machine

theorem keepsMem_raiseTrap {α : Type} {t : Trap} : M.KeepsMem (raiseTrap t : M α) := keepsMem_throw

theorem keepsMem_holdFor {α : Type} {w : Wait} : M.KeepsMem (holdFor w : M α) := keepsMem_throw

theorem keepsMem_askFor {α : Type} {a : Ask} {w : Wait} : M.KeepsMem (askFor a w : M α) := keepsMem_throw

theorem keepsMem_keepFor {α : Type} {w : Wait} : M.KeepsMem (keepFor w : M α) := keepsMem_throw

theorem keepsMem_trapIf {c : Bool} {t : Trap} : (trapIf c t).KeepsMem :=
  keepsMem_ite keepsMem_raiseTrap keepsMem_pure

theorem keepsMem_holdIf {c : Bool} {w : Wait} : (holdIf c w).KeepsMem :=
  keepsMem_ite keepsMem_holdFor keepsMem_pure

theorem keepsMem_liftS {f : State → State} (hf : ∀ s, s.memOk → (f s).memOk) : (liftS f).KeepsMem := keepsMem_modify hf

theorem keepsMem_liftF {α : Type} {f : State → State × Except AccFault α} (hf : ∀ s, s.memOk → (f s).1.memOk) : (liftF f).KeepsMem := by
  refine keepsMem_get_bind fun s hs => ?_
  refine .bind (keepsMem_set (hf s hs)) fun _ => ?_
  split
  · exact keepsMem_pure
  · exact keepsMem_raiseTrap

theorem keepsMem_getJob {u : Cur} : (getJob u).KeepsMem :=
  keepsMem_get_bind fun _ hs => keepsMem_pure

theorem keepsMem_getStrm {u : Cur} : (getStrm u).KeepsMem :=
  keepsMem_get_bind fun _ hs => keepsMem_pure

theorem keepsMem_modJob {u : Cur} {f : Job → Job} : (modJob u f).KeepsMem :=
  keepsMem_modify fun _ hs => memOk_modJob hs

theorem keepsMem_modStrm {u : Cur} {f : Stream → Stream} : (modStrm u f).KeepsMem :=
  keepsMem_modify fun _ hs => memOk_modStrm hs

theorem keepsMem_getCtx {u : Cur} : (getCtx u).KeepsMem :=
  keepsMem_get_bind fun _ hs => keepsMem_pure

theorem memOk_countHead {s : State} {c : ℕ} {x : Strm} {h : HeadCls} (hs : s.memOk) : (s.countHead c x h).memOk := by
  unfold State.countHead
  split <;> exact memOk_countCore hs

theorem memOk_holdAt {s : State} {u : Cur} {w : Wait} (h : s.memOk) : (s.holdAt u w).memOk := by
  unfold State.holdAt
  dsimp only
  split
  · exact memOk_ite (memOk_postOnce (memOk_ite (memOk_countDie (memOk_ite (memOk_modStrm h) (memOk_countHead (memOk_modStrm h)))) (memOk_ite
      (memOk_modStrm h) (memOk_countHead (memOk_modStrm h))))) (memOk_ite (memOk_countDie (memOk_ite (memOk_modStrm h) (memOk_countHead
      (memOk_modStrm h)))) (memOk_ite (memOk_modStrm h) (memOk_countHead (memOk_modStrm h))))
  · exact memOk_ite (memOk_countDie (memOk_ite (memOk_modStrm h) (memOk_countHead (memOk_modStrm h)))) (memOk_ite (memOk_modStrm h)
      (memOk_countHead (memOk_modStrm h)))

theorem memOk_joinGroup {s : State} {u : Cur} (h : s.memOk) : (s.joinGroup u).memOk := by
  unfold State.joinGroup
  split
  · exact h
  · dsimp only
    refine memOk_countCore ?_
    split
    · exact memOk_modJob h
    · dsimp only [State.memOk]
      exact memOk_modJob h

theorem memOk_retire {s : State} {u : Cur} {f : Flow} (h : s.memOk) : (s.retire u f).memOk := by
  unfold State.retire
  dsimp only
  exact memOk_ite (memOk_countCore (memOk_joinGroup (memOk_modJob h))) (memOk_countHead (memOk_countCore (memOk_joinGroup (memOk_modJob h))))

theorem keepsMem_traceRec {u : Cur} {kind : ℕ} {data : Word} : (traceRec u kind data).KeepsMem := by
  unfold traceRec
  refine keepsMem_get_bind fun _ hs => ?_
  dsimp only
  split
  · exact keepsMem_pure
  · exact .bind keepsMem_holdIf fun _ => .bind keepsMem_getCtx fun _ => .bind (keepsMem_liftF fun _ hs1 => memOk_translate _ _ _ _ hs1) fun _ =>
      keepsMem_get_bind fun _ hs1 => keepsMem_modify fun _ hs2 => memOk_postOnce (memOk_modCore hs2)

theorem keepsMem_preIssue {u : Cur} {runs : Bool} : (preIssue u runs).KeepsMem := by
  unfold preIssue
  refine .bind keepsMem_getStrm fun _ => ?_
  split
  · exact keepsMem_pure
  · refine keepsMem_get_bind fun _ hs => ?_
    dsimp only
    exact keepsMem_ite (.bind keepsMem_traceRec fun _ => .bind keepsMem_modStrm fun _ => keepsMem_trapIf) keepsMem_trapIf

theorem memOk_haltUnit {s : State} {c : ℕ} {u : TrapUnit} {sus : Option Susp} (h : s.memOk) : (s.haltUnit c u sus).memOk := by
  unfold State.haltUnit
  split
  · exact memOk_modJob h
  · exact h
  · exact h
  · exact memOk_modStrm h

theorem memOk_trapFirst {s : State} {c ctx prio : ℕ} {r : TrapRec} (h : s.memOk) : (s.trapFirst c ctx prio r).memOk := by
  unfold State.trapFirst
  dsimp only
  split
  · exact memOk_areaLost (memOk_putTrap h)
  · exact memOk_haltCtx (memOk_modCore (memOk_putTrap h))

theorem memOk_trapAgain {s : State} {c ctx prio : ℕ} {l : LastTrap} {r : TrapRec} (h : s.memOk) : (s.trapAgain c ctx prio l r).memOk := by
  unfold State.trapAgain
  dsimp only
  split
  · dsimp only [State.memOk]
    refine memOk_modCtx ?_
    refine memOk_modCore ?_
    split
    · exact memOk_frontWrite _ _ _ h
    · exact h
  · split
    · exact h
    · refine memOk_modCore ?_
      split
      · exact h
      · split
        · exact memOk_frontRead _ _ _ h
        · exact memOk_frontWrite _ _ _ (memOk_frontWrite _ _ _ (memOk_frontRead _ _ _ h))

theorem memOk_takeTrapOf {s : State} {c : ℕ} {u : TrapUnit} {t : Trap} {cur : Option Cur} (h : s.memOk) : (s.takeTrapOf c u t cur).memOk := by
  unfold State.takeTrapOf
  dsimp only
  split
  · split
    · exact memOk_areaLost (memOk_putTrap h)
    · exact memOk_haltUnit (memOk_putTrap h)
  · split
    · exact memOk_ite (memOk_trapAgain (memOk_haltUnit h)) (memOk_trapFirst (memOk_haltUnit h))
    · exact memOk_trapFirst (memOk_haltUnit h)

theorem memOk_holdRow {s : State} {u : Cur} (h : s.memOk) : (s.holdRow u).memOk := by
  unfold State.holdRow
  split
  · split
    · dsimp only
      exact memOk_modStrm (memOk_newId h)
    · exact h
  · exact h

theorem memOk_takeTrap {s : State} {u : Cur} {t : Trap} (h : s.memOk) : (s.takeTrap u t).memOk := by
  unfold State.takeTrap
  dsimp only
  exact memOk_ite (memOk_takeTrapOf (memOk_ite (memOk_modJob h) (memOk_modStrm h))) (memOk_holdRow (memOk_takeTrapOf (memOk_ite (memOk_modJob h)
      (memOk_modStrm h))))

theorem memOk_askSlot {s : State} {ctx ch : ℕ} {who : Option ℕ × Option ℕ} (h : s.memOk) : (s.askSlot ctx ch who).memOk := by
  unfold State.askSlot
  dsimp only
  exact memOk_post (memOk_modChan (memOk_drawNat (memOk_drawBit h)))

theorem memOk_sourceDraws {s : State} {b n by_ : ℕ} (h : s.memOk) : (s.sourceDraws b n by_).1.memOk := by
  unfold State.sourceDraws
  dsimp only
  exact memOk_modBay h

theorem memOk_askNoise {s : State} {u : Cur} (h : s.memOk) : (s.askNoise u).memOk := by
  unfold State.askNoise
  dsimp only
  exact memOk_postOnce (memOk_modBay h)

theorem memOk_askAt {s : State} {u : Cur} {a : Ask} (h : s.memOk) : (s.askAt u a).memOk := by
  unfold State.askAt
  split
  · exact memOk_askNoise h
  · dsimp only
    exact memOk_askNoise (memOk_modStrm (memOk_sourceDraws (memOk_modBay h)))
  · exact memOk_modDie h
  · exact memOk_postOnce h
  · exact memOk_askSlot h
  · exact memOk_modCore h

theorem memOk_stopAt {s : State} {u : Cur} {x : Stop} {s' : State} (hs : s.memOk) (hs' : s'.memOk) : (s.stopAt u x s').memOk := by
  unfold State.stopAt
  split
  · exact memOk_holdAt hs
  · exact memOk_holdAt (memOk_askAt hs)
  · exact memOk_holdAt hs'
  · exact hs'
  · exact memOk_ite (memOk_holdAt hs) (memOk_ite (memOk_takeTrap hs) (memOk_takeTrap hs'))

/-- An instruction whose body keeps the form keeps it: where it retires, waits, enters a routine or traps. -/
theorem nextOk_issue {g : Guard} {body : Cur → M Flow} {s : State} (hb : ∀ u, (body u).KeepsMem) (h : s.memOk) : NextOk (issue g body s) := by
  unfold issue
  split
  · exact nextOk_fault
  · split
    · exact nextOk_fault
    · have hm : ∀ u : Cur, ∀ b : Bool, M.KeepsMem (do preIssue u b; if b then body u else pure .next : M Flow) := fun u b =>
        .bind keepsMem_preIssue fun _ => keepsMem_ite (hb u) keepsMem_pure
      dsimp only
      split
      · exact nextOk_next (memOk_retire ((hm _ _).ok h))
      · exact nextOk_next (memOk_ite h (memOk_stopAt h ((hm _ _).error h)))

theorem nextOk_issueNext {g : Guard} {body : Cur → M Unit} {s : State} (hb : ∀ u, (body u).KeepsMem) (h : s.memOk) : NextOk (issueNext g body s) :=
  nextOk_issue (fun u => .bind (hb u) fun _ => keepsMem_pure) h

theorem nextOk_event {f : State → State} {s : State} (hf : ∀ s, s.memOk → (f s).memOk) (h : s.memOk) : NextOk (event f s) := nextOk_next (hf s h)

theorem keepsMem_setFlags {u : Cur} {f : Flg} : (setFlags u f).KeepsMem :=
  keepsMem_modStrm

theorem memOk_orAsrAt {s : State} {c : ℕ} {x : Strm} {f : Flg} (h : s.memOk) : (s.orAsrAt c x f).memOk :=
  memOk_ite h (memOk_modStrm h)

end Sys2Proof.Machine
end

section
/-!
PROOFS. The canonical form of HBM through areas of memory (O54).
-/

set_option Elab.async false

namespace Sys2Proof.Machine

theorem keepsMem_areaOf {u : Cur} {a : ℤ} {n al : ℕ} {fe : Bool} : (areaOf u a n al fe).KeepsMem := by
  unfold areaOf
  refine keepsMem_get_bind fun _ hs => ?_
  split
  · exact keepsMem_pure
  · exact keepsMem_raiseTrap

theorem keepsMem_watch {u : Cur} {va n : ℕ} {rd wr : Bool} : (watch u va n rd wr).KeepsMem := by
  unfold watch
  refine keepsMem_get_bind fun _ hs => ?_
  dsimp only
  split
  · exact keepsMem_pure
  · split
    · exact keepsMem_pure
    · split
      · exact keepsMem_raiseTrap
      · exact keepsMem_pure

theorem memOk_noteSeen {s : State} {c : ℕ} {x : Strm} {clk : Tbl ℕ} (h : s.memOk) : (s.noteSeen c x clk).memOk :=
  memOk_ite h (memOk_modStrm h)

theorem memOk_loadPieces {s : State} {c : ℕ} {x : Strm} {ctx : ℕ} {scope : Scope} {ps : List (ℕ × ℕ)} (h : s.memOk) :
    (s.loadPieces c x ctx scope ps).1.memOk := by
  unfold State.loadPieces
  refine memOk_foldl_fst (fun _ _ hs => ?_) _ h
  refine memOk_foldl_fst (fun _ _ hs1 => ?_) _ hs
  dsimp only
  exact memOk_noteSeen (memOk_l1Load _ _ _ _ _ hs1)

theorem memOk_storePieces {s : State} {c : ℕ} {un : SendUnit} {ctx : ℕ} {scope : Scope} {ps : List (ℕ × ℕ)} {bs : List (Byte × Byte)} (h : s.memOk) :
    (s.storePieces c un ctx scope ps bs).memOk := by
  unfold State.storePieces
  refine memOk_foldl_fst (fun _ _ hs => ?_) _ h
  dsimp only
  exact memOk_foldl (fun _ _ hs1 => memOk_l1Store _ _ _ _ _ _ hs1) _ hs

theorem memOk_loadArea {s : State} {c : ℕ} {x : Strm} {a : Area} {n : ℕ} {scope : Scope} (h : s.memOk) : (s.loadArea c x a n scope).1.memOk := by
  unfold State.loadArea
  split
  · exact h
  · exact h
  · dsimp only
    split
    · dsimp only
      exact memOk_translateRange _ _ _ _ _ h
    · dsimp only
      exact memOk_loadPieces (memOk_translateRange _ _ _ _ _ h)

theorem memOk_places {s : State} {c : ℕ} {a : Area} {n : ℕ} {need : Need} (h : s.memOk) : (s.places c a n need).1.memOk := by
  unfold State.places
  split
  · exact memOk_translateRange _ _ _ _ _ h
  · exact h

theorem memOk_putArea {s : State} {c : ℕ} {un : SendUnit} {a : Area} {ps : List (ℕ × ℕ)} {bs : List (Byte × Byte)} {scope : Scope} {full : Bool}
    (h : s.memOk) :
    (s.putArea c un a ps bs scope full).memOk := by
  unfold State.putArea
  split
  · exact memOk_spadWrite h
  · exact memOk_clusterWrite h
  · exact memOk_storePieces h

theorem memOk_storeArea {s : State} {c : ℕ} {un : SendUnit} {a : Area} {bs : List (Byte × Byte)} {scope : Scope} {full : Bool} (h : s.memOk) :
    (s.storeArea c un a bs scope full).1.memOk := by
  unfold State.storeArea
  split
  · dsimp only
    exact memOk_fst (memOk_places h)
  · dsimp only
    exact memOk_putArea (memOk_fst (memOk_places h))

theorem memOk_placesAll {c : Nat} {need : Need} (l : List (Area × Nat)) {s : State} (h : s.memOk) : (State.placesAll c need l s).1.memOk := by
  induction l generalizing s with
  | nil => exact h
  | cons a l ih =>
    unfold State.placesAll
    split
    · exact memOk_fst (memOk_places h)
    · have h1 := ih (memOk_fst (memOk_places h))
      split <;> (rename_i e; rw [e] at h1; exact h1)

theorem memOk_storeAll {s : State} {c : ℕ} {un : SendUnit} {scope : Scope} {l : List (Area × List (Byte × Byte))} (h : s.memOk) :
    (s.storeAll c un scope l).1.memOk := by
  unfold State.storeAll
  split
  · dsimp only
    exact memOk_fst (memOk_placesAll _ h)
  · dsimp only
    exact memOk_foldl (fun _ _ hs => memOk_putArea hs) _ (memOk_fst (memOk_placesAll _ h))

theorem memOk_poisonError {s : State} {c ctx va type : ℕ} (h : s.memOk) : (s.poisonError c ctx va type).memOk := by
  unfold State.poisonError
  split
  · dsimp only
    exact memOk_error _ _ _ _ _ _ _ (memOk_drawNat h)
  · dsimp only
    split
    · exact memOk_lineError _ _ _ _ (memOk_translate _ _ _ _ h)
    · exact memOk_translate _ _ _ _ h

theorem keepsMem_raisePoison {α : Type} {u : Cur} {va : Nat} : M.KeepsMem (raisePoison u va : M α) :=
  .bind keepsMem_getCtx fun _ => .bind (keepsMem_modify fun _ hs => memOk_poisonError hs) fun _ => keepsMem_raiseTrap

theorem keepsMem_localRead {u : Cur} {ar : Area} {n : ℕ} : (localRead u ar n).KeepsMem := by
  unfold localRead
  refine keepsMem_get_bind fun _ hs => ?_
  split
  · exact keepsMem_raisePoison
  · exact keepsMem_pure

end Sys2Proof.Machine
end

section
/-!
PROOFS. The canonical form of HBM through the operands of instructions (O54).
-/

set_option Elab.async false

namespace Sys2Proof.Machine

theorem keepsMem_needSpace {u : Cur} {d : Dest} : (needSpace u d).KeepsMem := by
  unfold needSpace
  refine .bind keepsMem_getJob fun _ => ?_
  split
  · exact keepsMem_holdFor
  · exact keepsMem_pure

theorem keepsMem_ensure {u : Cur} {rs : List Rd} : (ensure u rs).KeepsMem := by
  unfold ensure
  refine keepsMem_get_bind fun _ hs => ?_
  dsimp only
  split
  · exact keepsMem_throw
  · split
    · exact keepsMem_throw
    · exact keepsMem_pure

theorem keepsMem_notePop {w : Word} : (notePop w).KeepsMem :=
  keepsMem_modify fun _ hs => memOk_upd hs

theorem keepsMem_popQueue {u : Cur} {y : Strm} : (popQueue u y).KeepsMem := by
  unfold popQueue
  refine .bind keepsMem_getJob fun _ => ?_
  dsimp only
  exact .bind keepsMem_modJob fun _ => .bind keepsMem_notePop fun _ => keepsMem_pure

theorem keepsMem_popBlock {u : Cur} {n : BitVec 3} : (popBlock u n).KeepsMem := by
  unfold popBlock
  refine .bind keepsMem_getStrm fun _ => ?_
  split
  · exact keepsMem_pure
  · exact .bind keepsMem_modStrm fun _ => keepsMem_pure

theorem keepsMem_blockAgain {u : Cur} {r : MReg} {n al : ℕ} : (blockAgain u r n al).KeepsMem :=
  .bind keepsMem_areaOf fun _ => keepsMem_liftF fun _ hs => memOk_loadArea hs

theorem keepsMem_readScalar {u : Cur} {x : Src} : (readScalar u x).KeepsMem := by
  unfold readScalar
  split
  · exact .bind keepsMem_getStrm fun _ => keepsMem_pure
  · exact .bind keepsMem_getStrm fun _ => keepsMem_pure
  · exact keepsMem_popQueue
  · exact .bind keepsMem_getJob fun _ => keepsMem_pure
  · refine .bind keepsMem_popBlock fun _ => ?_
    split
    · exact keepsMem_pure
    · split
      · dsimp only
        exact .bind keepsMem_notePop fun _ => keepsMem_pure
      · dsimp only
        split
        · refine .bind keepsMem_pure fun _ => ?_
          split
          · exact keepsMem_raisePoison
          · exact .bind keepsMem_notePop fun _ => keepsMem_pure
        · refine .bind keepsMem_blockAgain fun _ => ?_
          split
          · exact keepsMem_raisePoison
          · exact .bind keepsMem_notePop fun _ => keepsMem_pure
  · exact keepsMem_pure
  · exact keepsMem_pure
  · exact keepsMem_pure
  · exact keepsMem_pure
  · exact .bind keepsMem_getJob fun _ => keepsMem_pure

theorem keepsMem_readFloat {u : Cur} {x : Src} : (readFloat u x).KeepsMem := by
  have hsc : ∀ y, M.KeepsMem (do return w36 (← readScalar u y)) := fun _ => .bind keepsMem_readScalar fun _ => keepsMem_pure
  have hjob : ∀ y, M.KeepsMem (do return w36OfInt (specialVal (← getJob u) u.core y).toNat) := fun _ => .bind keepsMem_getJob fun _ => keepsMem_pure
  cases x
  case const | imm | lit | zero | one => exact keepsMem_pure
  case coordCore | coordDie | stage | jobIdx | iter => exact hjob _
  all_goals exact hsc _

theorem keepsMem_popRow {u : Cur} {from_ : Strm} : (popRow u from_).KeepsMem := by
  unfold popRow
  refine .bind keepsMem_getJob fun _ => ?_
  dsimp only
  exact .bind keepsMem_modJob fun _ => .bind (keepsMem_modify fun _ hs => memOk_upd hs) fun _ => keepsMem_pure

theorem keepsMem_readVec {u : Cur} {lw int : Bool} {x : Src} : (readVec u lw int x).KeepsMem := by
  unfold readVec
  split
  · exact .bind keepsMem_getJob fun _ => keepsMem_pure
  · exact keepsMem_popRow
  · exact .bind keepsMem_getJob fun _ => keepsMem_pure
  · exact keepsMem_pure
  · split
    · refine .bind keepsMem_readScalar fun _ => ?_
      dsimp only
      exact keepsMem_pure
    · split
      · exact keepsMem_pure
      · exact keepsMem_pure
      · exact keepsMem_pure
      · refine .bind keepsMem_getStrm fun _ => ?_
        dsimp only
        exact keepsMem_pure
      · refine .bind keepsMem_getStrm fun _ => ?_
        dsimp only
        exact keepsMem_pure
      · exact keepsMem_pure
      · refine .bind keepsMem_getJob fun _ => ?_
        dsimp only
        exact keepsMem_pure

theorem keepsMem_writeReg {u : Cur} {r : Reg} {w : Word} {lat : ℕ} : (writeReg u r w lat).KeepsMem := by
  unfold writeReg
  refine keepsMem_get_bind fun _ hs => ?_
  dsimp only
  split
  · exact keepsMem_modJob
  · exact keepsMem_modJob
  · exact keepsMem_modStrm
  · exact keepsMem_pure

theorem keepsMem_deliver {u : Cur} {d : Dest} {w : Word} : (deliver u d w).KeepsMem := by
  unfold deliver
  dsimp only
  split
  · exact .bind keepsMem_writeReg fun _ => keepsMem_modJob
  · exact keepsMem_modJob

theorem keepsMem_deliverBool {u : Cur} {d : Dest} {b : Bool} : (deliverBool u d b).KeepsMem :=
  keepsMem_deliver

theorem keepsMem_deliverRow {u : Cur} {d : Dest} {r : Row} {lat : ℕ} {keep : Bool} : (deliverRow u d r lat keep).KeepsMem := by
  unfold deliverRow
  refine keepsMem_get_bind fun _ hs => ?_
  dsimp only
  split
  · exact .bind keepsMem_modJob fun _ => keepsMem_ite keepsMem_modJob (keepsMem_ite (keepsMem_get_bind fun _ hs1 => .bind (keepsMem_set
      (memOk_newId hs1)) fun _ => .bind keepsMem_modJob fun _ => .bind keepsMem_modStrm fun _ => keepsMem_modify fun _ hs2 => memOk_postEarly hs2)
      keepsMem_pure)
  · exact keepsMem_ite keepsMem_modJob (keepsMem_ite (keepsMem_get_bind fun _ hs1 => .bind (keepsMem_set (memOk_newId hs1)) fun _ => .bind
      keepsMem_modJob fun _ => .bind keepsMem_modStrm fun _ => keepsMem_modify fun _ hs2 => memOk_postEarly hs2) keepsMem_pure)

theorem keepsMem_deliverMask {u : Cur} {d : Dest} {m : Mask} : (deliverMask u d m).KeepsMem := by
  unfold deliverMask
  split
  · exact keepsMem_modJob
  · exact keepsMem_pure

theorem keepsMem_readDst {u : Cur} {d : Dest} : (readDst u d).KeepsMem := by
  unfold readDst
  refine .bind keepsMem_getStrm fun _ => ?_
  split <;> exact keepsMem_pure

theorem keepsMem_needRowWrite {u : Cur} {d : Dest} : (needRowWrite u d).KeepsMem := by
  unfold needRowWrite
  split
  · exact .bind keepsMem_getJob fun _ => keepsMem_get_bind fun _ hs => keepsMem_holdIf
  · exact keepsMem_pure

theorem keepsMem_readPred {u : Cur} {n : BitVec 3} : (readPred u n).KeepsMem :=
  .bind keepsMem_getStrm fun _ => keepsMem_pure

end Sys2Proof.Machine
end

section
/-!
PROOFS. The canonical form of HBM through the accesses of loads and stores (O54).
-/

set_option Elab.async false

namespace Sys2Proof.Machine

theorem keepsMem_needLogEntry {u : Cur} {store : Bool} : (needLogEntry u store).KeepsMem :=
  .bind keepsMem_getStrm fun _ => keepsMem_holdIf

theorem keepsMem_needOrder {u : Cur} {va n : ℕ} : (needOrder u va n).KeepsMem :=
  .bind keepsMem_getStrm fun _ => keepsMem_holdIf

theorem keepsMem_needLogEmpty {u : Cur} : (needLogEmpty u).KeepsMem :=
  .bind keepsMem_getStrm fun _ => keepsMem_holdIf

theorem keepsMem_needLoads {u : Cur} : (needLoads u).KeepsMem :=
  .bind keepsMem_getStrm fun _ => keepsMem_holdIf

theorem keepsMem_newEntry {u : Cur} {scope : Scope} {op : LogOp} : (newEntry u scope op).KeepsMem := by
  unfold newEntry
  refine keepsMem_get_bind fun _ hs => ?_
  dsimp only
  exact .bind (keepsMem_set (memOk_newId hs)) fun _ => keepsMem_pure

theorem keepsMem_appendLog {u : Cur} {e : LogEnt} : (appendLog u e).KeepsMem :=
  keepsMem_modStrm

theorem keepsMem_putLog {u : Cur} {e : LogEnt} : (putLog u e).KeepsMem :=
  .bind keepsMem_appendLog fun _ => keepsMem_modify fun _ hs => memOk_postOnce hs

theorem keepsMem_putLate {u : Cur} {e : LogEnt} : (putLate u e).KeepsMem :=
  .bind keepsMem_appendLog fun _ => keepsMem_modify fun _ hs => memOk_postOnce hs

theorem keepsMem_orLate {α : Type} {f : State → State × Except AccFault α} {late : M Unit} {go : α → M Unit}
    (hf : ∀ s, s.memOk → (f s).1.memOk) (hl : late.KeepsMem) (hg : ∀ a, (go a).KeepsMem) : (orLate f late go).KeepsMem := by
  refine keepsMem_get_bind fun s hs => ?_
  split
  · exact .bind (keepsMem_set (memOk_fst (hf s hs))) fun _ => hg _
  · exact hl

theorem keepsMem_reserveScalar {u : Cur} {d : Dest} {e : LogEnt} : (reserveScalar u d e).KeepsMem :=
  .bind keepsMem_modJob fun _ => keepsMem_pure

theorem keepsMem_reserveRow {u : Cur} {push : Bool} {e : LogEnt} : (reserveRow u push e).KeepsMem :=
  .bind keepsMem_modJob fun _ => keepsMem_pure

theorem keepsMem_chooseDefer : (chooseDefer).KeepsMem := by
  unfold chooseDefer
  refine keepsMem_get_bind fun _ hs => ?_
  dsimp only
  exact .bind (keepsMem_set (memOk_drawBit hs)) fun _ => keepsMem_pure

theorem memOk_goodLoad {s : State} {c : ℕ} {x : Strm} {a : Area} {n : ℕ} {scope : Scope} {zf : Bool} (h : s.memOk) :
    (s.goodLoad c x a n scope zf).1.memOk := by
  unfold State.goodLoad
  split
  · dsimp only
    exact memOk_fst (memOk_loadArea h)
  · split
    · split
      · dsimp only
        exact memOk_fst (memOk_loadArea h)
      · dsimp only
        exact memOk_poisonError (memOk_fst (memOk_loadArea h))
    · dsimp only
      exact memOk_fst (memOk_loadArea h)

theorem memOk_goodLoads {c : Nat} {x : Strm} {n : Nat} {scope : Scope} {zf : Bool} (l : List Area) {s : State} (h : s.memOk) :
    (State.goodLoads c x n scope zf l s).1.memOk := by
  induction l generalizing s with
  | nil => exact h
  | cons a l ih =>
    unfold State.goodLoads
    split
    · exact memOk_fst (memOk_goodLoad h)
    · have h1 := ih (memOk_fst (memOk_goodLoad h))
      split <;> (rename_i e; rw [e] at h1; exact h1)

theorem memOk_noteZero {s : State} {c : ℕ} {x : Strm} {va : ℕ} {bs : List (Byte × Bool)} (h : s.memOk) : (s.noteZero c x va bs).memOk := by
  unfold State.noteZero
  split
  · exact memOk_poisonError (memOk_modStrm h)
  · exact h

theorem memOk_l1Flush {s : State} {c : ℕ} {un : SendUnit} {pa n : ℕ} (h : s.memOk) : (s.l1Flush c un pa n).memOk := by
  unfold State.l1Flush
  split
  · exact h
  · dsimp only
    exact memOk_ite (memOk_modCore h) (memOk_countCore (memOk_sendLine _ _ _ _ _ (memOk_modCore h)))

theorem memOk_atomicHome {s : State} {c : ℕ} {x : Strm} {va pa n : ℕ} {f : AtomicFn} (h : s.memOk) : (s.atomicHome c x va pa n f).1.memOk := by
  unfold State.atomicHome
  dsimp only
  split
  · dsimp only
    exact memOk_lineError _ _ _ _ (memOk_homeRead _ _ _ _ _ _ _ (memOk_l1Flush h))
  · dsimp only
    exact memOk_noteSeen (memOk_joinLine (memOk_homeWriteLine _ _ _ _ _ (memOk_homeRead _ _ _ _ _ _ _ (memOk_l1Flush h))))

theorem memOk_logDone {s : State} {c : ℕ} {x : Strm} {e : LogEnt} {r : Option (Word ⊕ Row)} (h : s.memOk) : (s.logDone c x e r).memOk := by
  unfold State.logDone
  dsimp only
  split
  · refine memOk_acquire ?_
    refine memOk_modStrm ?_
    split
    · exact memOk_modStrm h
    · exact memOk_modStrm h
    · exact h
  · refine memOk_modStrm ?_
    split
    · exact memOk_modStrm h
    · exact memOk_modStrm h
    · exact h

theorem memOk_atomicRemote {s : State} {c : ℕ} {x : Strm} {e : LogEnt} {pa n sub fmt : ℕ} {rnd : Rnd} {d cmp : Word} {draw : ℕ} (h : s.memOk) :
    (s.atomicRemote c x e pa n sub fmt rnd d cmp draw).memOk := by
  unfold State.atomicRemote
  split
  · dsimp only
    exact memOk_modStrm (memOk_sendOut (memOk_l1Flush h))
  · split
    · exact h
    · dsimp only
      exact memOk_logDone (memOk_orAsrAt (memOk_upd h))

theorem memOk_performLog {s : State} {c : ℕ} {x : Strm} {e : LogEnt} (h : s.memOk) : (s.performLog c x e).1.memOk := by
  unfold State.performLog
  split
  · split
    · dsimp only
      exact memOk_fst (memOk_goodLoad h)
    · dsimp only
      exact memOk_logDone (memOk_noteZero (memOk_fst (memOk_goodLoad h)))
  · dsimp only
    split
    · dsimp only
      exact memOk_fst (memOk_goodLoads _ h)
    · dsimp only
      exact memOk_logDone (memOk_foldl (fun _ _ hs => memOk_noteZero hs) _ (memOk_fst (memOk_goodLoads _ h)))
  · split
    · dsimp only
      exact memOk_fst (memOk_storeAll h)
    · dsimp only
      exact memOk_logDone (memOk_fst (memOk_storeAll h))
  · split
    · dsimp only
      exact memOk_atomicRemote h
    · split
      · dsimp only
        exact memOk_fst (memOk_translateRange _ _ _ _ _ h)
      · dsimp only
        split
        · split
          · dsimp only
            exact memOk_fst (memOk_atomicHome (memOk_fst (memOk_translateRange _ _ _ _ _ h)))
          · dsimp only
            exact memOk_logDone (memOk_orAsrAt (memOk_fst (memOk_atomicHome (memOk_fst (memOk_translateRange _ _ _ _ _ h)))))
        · dsimp only
          exact memOk_atomicRemote (memOk_fst (memOk_translateRange _ _ _ _ _ h))
  · exact h
  · exact h

theorem keepsMem_grantDraws {u : Cur} {n by_ : ℕ} : (grantDraws u n by_).KeepsMem := by
  unfold grantDraws
  refine keepsMem_get_bind fun _ hs => ?_
  dsimp only
  exact keepsMem_ite (keepsMem_ite keepsMem_askFor (.bind (keepsMem_set (memOk_modStrm (memOk_sourceDraws (memOk_modBay hs)))) fun _ =>
      keepsMem_pure)) keepsMem_askFor

theorem keepsMem_takeDraws {u : Cur} {n by_ : ℕ} : (takeDraws u n by_).KeepsMem := by
  unfold takeDraws
  refine .bind keepsMem_getStrm fun _ => ?_
  dsimp only
  split
  · exact keepsMem_pure
  · split
    · exact keepsMem_grantDraws
    · refine .bind keepsMem_trapIf fun _ => ?_
      refine .bind (keepsMem_forIn fun _ _ => .bind keepsMem_needOrder fun _ => keepsMem_pure) fun _ => ?_
      split
      · exact .bind (keepsMem_liftF fun _ hs => memOk_placesAll _ hs) fun _ => .bind keepsMem_grantDraws fun _ => .bind keepsMem_getCtx fun _ =>
          .bind (keepsMem_modify fun _ hs => memOk_storePieces hs) fun _ => .bind keepsMem_modStrm fun _ => keepsMem_pure
      · refine .bind ?_ fun _ => .bind keepsMem_modStrm fun _ => keepsMem_pure
        refine keepsMem_liftF fun _ hs => ?_
        refine memOk_foldl_fst (fun _ _ hs1 => ?_) _ hs
        split
        · exact hs1
        · split
          · dsimp only
            exact memOk_fst (memOk_goodLoad hs1)
          · dsimp only
            exact memOk_fst (memOk_goodLoad hs1)

end Sys2Proof.Machine
end

section
/-!
PROOFS. The canonical form of HBM through scalar instructions (O54).
-/

set_option Elab.async false

namespace Sys2Proof.Machine

theorem keepsMem_intBody {o : ROps} {f : Word → Word → Except Trap Word} {u : Cur} : (intBody o f u).KeepsMem := by
  unfold intBody
  refine .bind keepsMem_needSpace fun _ => ?_
  refine .bind keepsMem_ensure fun _ => ?_
  refine .bind keepsMem_readScalar fun _ => ?_
  refine .bind keepsMem_readScalar fun _ => ?_
  split
  · exact keepsMem_raiseTrap
  · exact keepsMem_deliver

theorem nextOk_intOp {o : ROps} {f : Word → Word → Word} {s : State} (h : s.memOk) : NextOk (intOp o f s) :=
  nextOk_issueNext (fun _ => keepsMem_intBody) h

theorem nextOk_divOp {o : ROps} {f : Word → Word → Word} {s : State} (h : s.memOk) : NextOk (divOp o f s) :=
  nextOk_issueNext (fun _ => keepsMem_intBody) h

theorem keepsMem_intDstBody {o : ROps} {f : Word → Word → Word → Word} {u : Cur} : (intDstBody o f u).KeepsMem :=
  .bind keepsMem_needSpace fun _ => .bind keepsMem_ensure fun _ => .bind keepsMem_readScalar fun _ => .bind keepsMem_readScalar fun _ => .bind
      keepsMem_readDst fun _ => keepsMem_deliver

theorem keepsMem_oneBody {o : ROps1} {f : Word → Word} {u : Cur} : (oneBody o f u).KeepsMem :=
  .bind keepsMem_needSpace fun _ => .bind keepsMem_ensure fun _ => .bind keepsMem_readScalar fun _ => keepsMem_deliver

theorem nextOk_execAdd {o : ROps} {s : State} (h : s.memOk) : NextOk (execAdd o s) :=
  nextOk_intOp h

theorem nextOk_execSub {o : ROps} {s : State} (h : s.memOk) : NextOk (execSub o s) :=
  nextOk_intOp h

theorem nextOk_execMul {o : ROps} {s : State} (h : s.memOk) : NextOk (execMul o s) :=
  nextOk_intOp h

theorem nextOk_execMulh {o : ROps} {s : State} (h : s.memOk) : NextOk (execMulh o s) :=
  nextOk_intOp h

theorem nextOk_execMulhu {o : ROps} {s : State} (h : s.memOk) : NextOk (execMulhu o s) :=
  nextOk_intOp h

theorem nextOk_execDiv {o : ROps} {s : State} (h : s.memOk) : NextOk (execDiv o s) :=
  nextOk_divOp h

theorem nextOk_execDivu {o : ROps} {s : State} (h : s.memOk) : NextOk (execDivu o s) :=
  nextOk_divOp h

theorem nextOk_execRem {o : ROps} {s : State} (h : s.memOk) : NextOk (execRem o s) :=
  nextOk_divOp h

theorem nextOk_execRemu {o : ROps} {s : State} (h : s.memOk) : NextOk (execRemu o s) :=
  nextOk_divOp h

theorem nextOk_execMadd {o : ROps} {s : State} (h : s.memOk) : NextOk (execMadd o s) :=
  nextOk_issueNext (fun _ => keepsMem_intDstBody) h

theorem nextOk_execLea {o : ROps} {sh : BitVec 4} {s : State} (h : s.memOk) : NextOk (execLea o sh s) :=
  nextOk_intOp h

theorem nextOk_execAnd {o : ROps} {s : State} (h : s.memOk) : NextOk (execAnd o s) :=
  nextOk_intOp h

theorem nextOk_execOr {o : ROps} {s : State} (h : s.memOk) : NextOk (execOr o s) :=
  nextOk_intOp h

theorem nextOk_execXor {o : ROps} {s : State} (h : s.memOk) : NextOk (execXor o s) :=
  nextOk_intOp h

theorem nextOk_execAndn {o : ROps} {s : State} (h : s.memOk) : NextOk (execAndn o s) :=
  nextOk_intOp h

theorem nextOk_execShl {o : ROps} {s : State} (h : s.memOk) : NextOk (execShl o s) :=
  nextOk_intOp h

theorem nextOk_execShr {o : ROps} {s : State} (h : s.memOk) : NextOk (execShr o s) :=
  nextOk_intOp h

theorem nextOk_execSra {o : ROps} {s : State} (h : s.memOk) : NextOk (execSra o s) :=
  nextOk_intOp h

theorem nextOk_execRot {o : ROps} {s : State} (h : s.memOk) : NextOk (execRot o s) :=
  nextOk_intOp h

theorem nextOk_execClz {o : ROps1} {s : State} (h : s.memOk) : NextOk (execClz o s) :=
  nextOk_issueNext (fun _ => keepsMem_oneBody) h

theorem nextOk_execPopc {o : ROps1} {s : State} (h : s.memOk) : NextOk (execPopc o s) :=
  nextOk_issueNext (fun _ => keepsMem_oneBody) h

theorem nextOk_execBext {o : ROps} {len : BitVec 7} {s : State} (h : s.memOk) : NextOk (execBext o len s) :=
  nextOk_intOp h

theorem nextOk_execBins {o : ROps} {len : BitVec 7} {s : State} (h : s.memOk) : NextOk (execBins o len s) :=
  nextOk_issueNext (fun _ => keepsMem_intDstBody) h

theorem nextOk_execMin {o : ROps} {s : State} (h : s.memOk) : NextOk (execMin o s) :=
  nextOk_intOp h

theorem nextOk_execMax {o : ROps} {s : State} (h : s.memOk) : NextOk (execMax o s) :=
  nextOk_intOp h

theorem nextOk_execMinu {o : ROps} {s : State} (h : s.memOk) : NextOk (execMinu o s) :=
  nextOk_intOp h

theorem nextOk_execMaxu {o : ROps} {s : State} (h : s.memOk) : NextOk (execMaxu o s) :=
  nextOk_intOp h

theorem nextOk_execSel {o : ROps} {neg : Bool} {p : BitVec 3} {s : State} (h : s.memOk) : NextOk (execSel o neg p s) :=
  nextOk_issueNext (fun _ => .bind keepsMem_readPred fun _ => keepsMem_intBody) h

theorem nextOk_execMov {g : Guard} {d : Dest} {b : Src} {s : State} (h : s.memOk) : NextOk (execMov g d b s) :=
  nextOk_issueNext (fun _ => keepsMem_oneBody) h

theorem nextOk_execCmp {o : ROps} {c : Cond} {s : State} (h : s.memOk) : NextOk (execCmp o c s) :=
  nextOk_intOp h

theorem keepsMem_fltBody {o : ROps} {f : ℕ → ℕ → ℕ × Flg} {u : Cur} : (fltBody o f u).KeepsMem := by
  unfold fltBody
  refine .bind keepsMem_needSpace fun _ => ?_
  refine .bind keepsMem_ensure fun _ => ?_
  refine .bind keepsMem_readFloat fun _ => ?_
  refine .bind keepsMem_readFloat fun _ => ?_
  dsimp only
  exact .bind keepsMem_setFlags fun _ => keepsMem_deliver

theorem nextOk_fltOp {o : ROps} {f : ℕ → ℕ → ℕ × Flg} {s : State} (h : s.memOk) : NextOk (fltOp o f s) :=
  nextOk_issueNext (fun _ => keepsMem_fltBody) h

theorem nextOk_execFadd {o : ROps} {s : State} (h : s.memOk) : NextOk (execFadd o s) :=
  nextOk_fltOp h

theorem nextOk_execFsub {o : ROps} {s : State} (h : s.memOk) : NextOk (execFsub o s) :=
  nextOk_fltOp h

theorem nextOk_execFmul {o : ROps} {s : State} (h : s.memOk) : NextOk (execFmul o s) :=
  nextOk_fltOp h

theorem nextOk_execFfma {o : ROps} {s : State} (h : s.memOk) : NextOk (execFfma o s) := by
  unfold execFfma
  refine nextOk_issueNext (fun _ => ?_) h
  refine .bind keepsMem_needSpace fun _ => ?_
  refine .bind keepsMem_ensure fun _ => ?_
  refine .bind keepsMem_readFloat fun _ => ?_
  refine .bind keepsMem_readFloat fun _ => ?_
  refine .bind keepsMem_readDst fun _ => ?_
  dsimp only
  exact .bind keepsMem_setFlags fun _ => keepsMem_deliver

theorem nextOk_execFmin {o : ROps} {s : State} (h : s.memOk) : NextOk (execFmin o s) :=
  nextOk_fltOp h

theorem nextOk_execFmax {o : ROps} {s : State} (h : s.memOk) : NextOk (execFmax o s) :=
  nextOk_fltOp h

theorem nextOk_execFcmp {o : ROps} {c : Cond} {x : Bool} {s : State} (h : s.memOk) : NextOk (execFcmp o c x s) :=
  nextOk_issueNext (fun _ => .bind keepsMem_needSpace fun _ => .bind keepsMem_ensure fun _ => .bind keepsMem_readFloat fun _ => .bind
      keepsMem_readFloat fun _ => keepsMem_deliverBool) h

theorem keepsMem_getFmt {u : Cur} {code : ℕ} : (getFmt u code).KeepsMem := by
  unfold getFmt
  refine .bind keepsMem_getJob fun _ => ?_
  split
  · exact keepsMem_pure
  · exact keepsMem_raiseTrap

theorem keepsMem_needPrec {lw : Bool} {f : MFmt} {code : ℕ} : (needPrec lw f code).KeepsMem :=
  keepsMem_trapIf

theorem keepsMem_drawFor {u : Cur} {r : Rnd} : (drawFor u r).KeepsMem :=
  keepsMem_ite (.bind keepsMem_takeDraws fun _ => keepsMem_pure) keepsMem_pure

theorem nextOk_execFcvt {o : ROps1} {k : CvtKind} {s : State} (h : s.memOk) : NextOk (execFcvt o k s) := by
  unfold execFcvt
  refine nextOk_issueNext (fun _ => ?_) h
  refine .bind keepsMem_needSpace fun _ => ?_
  split
  · exact .bind keepsMem_ensure fun _ => .bind keepsMem_readScalar fun _ => keepsMem_deliver
  · exact .bind keepsMem_ensure fun _ => .bind keepsMem_readScalar fun _ => keepsMem_deliver
  · refine .bind keepsMem_ensure fun _ => ?_
    refine .bind keepsMem_drawFor fun _ => ?_
    refine .bind keepsMem_readFloat fun _ => ?_
    dsimp only
    exact .bind keepsMem_setFlags fun _ => keepsMem_deliver
  · refine .bind keepsMem_ensure fun _ => ?_
    refine .bind keepsMem_drawFor fun _ => ?_
    refine .bind keepsMem_readFloat fun _ => ?_
    dsimp only
    exact .bind keepsMem_setFlags fun _ => keepsMem_deliver
  · refine .bind keepsMem_getFmt fun _ => ?_
    refine .bind keepsMem_needPrec fun _ => ?_
    refine .bind keepsMem_ensure fun _ => ?_
    refine .bind keepsMem_drawFor fun _ => ?_
    refine .bind keepsMem_readFloat fun _ => ?_
    dsimp only
    exact .bind keepsMem_setFlags fun _ => keepsMem_deliver
  · refine .bind keepsMem_getFmt fun _ => ?_
    refine .bind keepsMem_ensure fun _ => ?_
    refine .bind keepsMem_readScalar fun _ => ?_
    dsimp only
    exact keepsMem_deliver

theorem nextOk_execFrnd {o : ROps1} {r : Rnd} {s : State} (h : s.memOk) : NextOk (execFrnd o r s) :=
  nextOk_issueNext (fun _ => .bind keepsMem_needSpace fun _ => .bind keepsMem_ensure fun _ => .bind keepsMem_drawFor fun _ => .bind
      keepsMem_readFloat fun _ => keepsMem_deliver) h

end Sys2Proof.Machine
end

section
/-!
PROOFS. The canonical form of HBM through control instructions (O54).
-/

set_option Elab.async false

namespace Sys2Proof.Machine

theorem nextOk_execNop {g : Guard} {s : State} (h : s.memOk) : NextOk (execNop g s) :=
  nextOk_issueNext (fun _ => keepsMem_pure) h

theorem nextOk_execTrap {g : Guard} {b : Src} {s : State} (h : s.memOk) : NextOk (execTrap g b s) :=
  nextOk_issueNext (fun _ => .bind keepsMem_ensure fun _ => .bind keepsMem_readScalar fun _ => keepsMem_raiseTrap) h

theorem nextOk_execBkpt {g : Guard} {s : State} (h : s.memOk) : NextOk (execBkpt g s) :=
  nextOk_issueNext (fun _ => keepsMem_raiseTrap) h

theorem nextOk_execYield {g : Guard} {n : BitVec 3} {s : State} (h : s.memOk) : NextOk (execYield g n s) := by
  unfold execYield
  refine nextOk_issue (fun _ => ?_) h
  refine keepsMem_get_bind fun _ hs => ?_
  dsimp only
  split
  · split
    · exact keepsMem_pure
    · refine .bind keepsMem_getStrm fun _ => ?_
      refine .bind keepsMem_areaOf fun _ => ?_
      refine .bind (keepsMem_liftF fun _ hs1 => memOk_loadArea hs1) fun _ => ?_
      split
      · exact keepsMem_raisePoison
      · exact .bind keepsMem_trapIf fun _ => .bind keepsMem_modStrm fun _ => keepsMem_pure
  · split
    · exact keepsMem_pure
    · refine .bind keepsMem_getStrm fun _ => ?_
      refine .bind keepsMem_areaOf fun _ => ?_
      refine .bind (keepsMem_liftF fun _ hs1 => memOk_loadArea hs1) fun _ => ?_
      split
      · exact keepsMem_raisePoison
      · exact .bind keepsMem_trapIf fun _ => .bind keepsMem_modStrm fun _ => keepsMem_pure

theorem memOk_returnChunk {s : State} {rid : ℕ} {l : Launch} (h : s.memOk) : (s.returnChunk rid l).memOk :=
  memOk_modRec h

theorem memOk_settleYield {s : State} {ctx : ℕ} (h : s.memOk) : (s.settleYield ctx).memOk :=
  memOk_ite h (memOk_modCtx h)

theorem memOk_yieldStop {s : State} {c : ℕ} (h : s.memOk) : (s.yieldStop c).memOk := by
  unfold State.yieldStop
  dsimp only
  exact memOk_settleYield (memOk_clearJob (memOk_leaveGang (memOk_returnChunk h)))

theorem memOk_lastExit {s : State} {c : ℕ} (h : s.memOk) : (s.lastExit c).memOk := by
  unfold State.lastExit
  dsimp only
  exact memOk_ite h (memOk_ite (memOk_yieldStop h) (memOk_ite (memOk_modCore h) h))

theorem memOk_checkRdv {s : State} {c : ℕ} (h : s.memOk) : (s.checkRdv c).memOk := by
  unfold State.checkRdv
  dsimp only
  exact memOk_ite (memOk_postOnce h) h

theorem nextOk_execExit {g : Guard} {s : State} (h : s.memOk) : NextOk (execExit g s) :=
  nextOk_issue (fun _ => .bind keepsMem_modJob fun _ => .bind (keepsMem_modify fun _ hs => memOk_lastExit (memOk_checkRdv hs)) fun _ =>
      keepsMem_pure) h

theorem nextOk_execRdv {g : Guard} {s : State} (h : s.memOk) : NextOk (execRdv g s) :=
  nextOk_issueNext (fun _ => .bind keepsMem_getStrm fun _ => keepsMem_ite keepsMem_keepFor (.bind keepsMem_needLogEmpty fun _ => .bind
      (keepsMem_modify fun _ hs => memOk_release _ _ _ hs) fun _ => .bind keepsMem_modStrm fun _ => .bind (keepsMem_modify fun _ hs =>
      memOk_checkRdv hs) fun _ => keepsMem_keepFor)) h

theorem memOk_rdvRelease {s : State} {c : ℕ} (h : s.memOk) : (s.rdvRelease c).memOk := by
  unfold State.rdvRelease
  split
  · exact h
  · split
    · refine memOk_foldl (fun _ _ hs => ?_) _ h
      split
      · dsimp only
        exact memOk_retire (memOk_modStrm (memOk_acquire hs))
      · exact hs
    · exact h

theorem nextOk_execRendezvousRelease {core : ℕ} {s : State} (h : s.memOk) : NextOk (execRendezvousRelease core s) :=
  nextOk_event (fun _ hs => memOk_rdvRelease hs) h

theorem nextOk_execPmark {g : Guard} {b : Src} {s : State} (h : s.memOk) : NextOk (execPmark g b s) := by
  unfold execPmark
  refine nextOk_issueNext (fun _ => ?_) h
  refine .bind keepsMem_ensure fun _ => ?_
  refine keepsMem_get_bind fun _ hs => ?_
  dsimp only
  exact keepsMem_ite (keepsMem_get_bind fun _ hs1 => .bind keepsMem_holdIf fun _ => .bind keepsMem_readScalar fun _ => keepsMem_traceRec) (.bind
      keepsMem_readScalar fun _ => keepsMem_pure)

theorem nextOk_execSysrd {g : Guard} {d : Dest} {srn : BitVec 7} {s : State} (h : s.memOk) : NextOk (execSysrd g d srn s) :=
  nextOk_issueNext (fun _ => .bind keepsMem_needSpace fun _ => keepsMem_get_bind fun _ hs => keepsMem_deliver) h

theorem memOk_setSysReg {s : State} {c : ℕ} {x : Strm} {n : ℕ} {w : Word} (h : s.memOk) : (s.setSysReg c x n w).memOk := by
  unfold State.setSysReg
  dsimp only
  exact memOk_ite (memOk_modStrm h) (memOk_ite (memOk_modJob h) (memOk_ite (memOk_modStrm h) (memOk_ite (memOk_modStrm h) (memOk_ite (memOk_modJob
      h) (memOk_ite (memOk_modJob h) (memOk_ite (memOk_modCore h) (memOk_ite (memOk_modCore h) (memOk_ite (memOk_modCore h) (memOk_ite
      (memOk_modCore h) (memOk_modCore h))))))))))

theorem nextOk_execSyswr {g : Guard} {srn : BitVec 7} {b : Src} {s : State} (h : s.memOk) : NextOk (execSyswr g srn b s) :=
  nextOk_issueNext (fun _ => .bind keepsMem_ensure fun _ => .bind keepsMem_readScalar fun _ => keepsMem_modify fun _ hs => memOk_setSysReg hs) h

theorem nextOk_execCntrd {o : ROps1} {die : Bool} {s : State} (h : s.memOk) : NextOk (execCntrd o die s) :=
  nextOk_issueNext (fun _ => .bind keepsMem_needSpace fun _ => .bind keepsMem_ensure fun _ => .bind keepsMem_readScalar fun _ => .bind
      keepsMem_trapIf fun _ => keepsMem_get_bind fun _ hs => keepsMem_deliver) h

theorem keepsMem_takeBranch {u : Cur} {t : ℤ} {link : Option Dest} : (takeBranch u t link).KeepsMem := by
  unfold takeBranch
  refine .bind keepsMem_getStrm fun _ => ?_
  refine .bind keepsMem_trapIf fun _ => ?_
  dsimp only
  split
  · exact .bind keepsMem_deliver fun _ => .bind keepsMem_trapIf fun _ => .bind keepsMem_trapIf fun _ => keepsMem_pure
  · exact .bind keepsMem_trapIf fun _ => .bind keepsMem_trapIf fun _ => keepsMem_pure

theorem nextOk_execBr {o : BOps} {s : State} (h : s.memOk) : NextOk (execBr o s) :=
  nextOk_issue (fun _ => keepsMem_takeBranch) h

theorem nextOk_execBrl {o : BOps} {s : State} (h : s.memOk) : NextOk (execBrl o s) :=
  nextOk_issue (fun _ => .bind keepsMem_needSpace fun _ => keepsMem_takeBranch) h

theorem nextOk_execBri {g : Guard} {a b : Src} {s : State} (h : s.memOk) : NextOk (execBri g a b s) :=
  nextOk_issue (fun _ => .bind keepsMem_ensure fun _ => .bind keepsMem_readScalar fun _ => .bind keepsMem_readScalar fun _ => keepsMem_takeBranch) h

theorem nextOk_execBril {o : ROps} {s : State} (h : s.memOk) : NextOk (execBril o s) :=
  nextOk_issue (fun _ => .bind keepsMem_needSpace fun _ => .bind keepsMem_ensure fun _ => .bind keepsMem_readScalar fun _ => .bind
      keepsMem_readScalar fun _ => keepsMem_takeBranch) h

theorem keepsMem_loopHead {u : Cur} {l : BitVec 2} {n : Src} {len : BitVec 16} : (loopHead u l n len).KeepsMem := by
  unfold loopHead
  refine .bind keepsMem_ensure fun _ => ?_
  refine .bind keepsMem_readScalar fun _ => ?_
  refine .bind keepsMem_getJob fun _ => ?_
  dsimp only
  exact .bind keepsMem_trapIf fun _ => .bind keepsMem_trapIf fun _ => .bind keepsMem_trapIf fun _ => keepsMem_pure

theorem nextOk_execLoop {g : Guard} {l : BitVec 2} {n : Src} {len : BitVec 16} {s : State} (h : s.memOk) : NextOk (execLoop g l n len s) := by
  unfold execLoop
  refine nextOk_issue (fun _ => ?_) h
  refine .bind keepsMem_loopHead fun _ => ?_
  dsimp only
  exact keepsMem_ite (.bind keepsMem_modJob fun _ => keepsMem_pure) (.bind keepsMem_modJob fun _ => keepsMem_pure)

theorem nextOk_execMloop {g : Guard} {l : BitVec 2} {n : Src} {stg : BitVec 3} {rv : BitVec 5} {len : BitVec 16} {s : State} (h : s.memOk) :
    NextOk (execMloop g l n stg rv len s) := by
  unfold execMloop
  refine nextOk_issue (fun _ => ?_) h
  refine .bind keepsMem_loopHead fun _ => ?_
  dsimp only
  exact keepsMem_ite (.bind keepsMem_modJob fun _ => keepsMem_pure) (.bind keepsMem_modJob fun _ => keepsMem_pure)

theorem nextOk_execLbrk {g : Guard} {l : BitVec 2} {s : State} (h : s.memOk) : NextOk (execLbrk g l s) := by
  unfold execLbrk
  refine nextOk_issue (fun _ => ?_) h
  refine .bind keepsMem_getJob fun _ => ?_
  dsimp only
  split
  · exact keepsMem_raiseTrap
  · exact .bind keepsMem_modJob fun _ => keepsMem_pure

theorem nextOk_execRep {g : Guard} {n : BitVec 16} {sd sa sb : Bool} {stride : BitVec 2} {s : State} (h : s.memOk) :
    NextOk (execRep g n sd sa sb stride s) :=
  nextOk_issue (fun _ => keepsMem_pure) h

theorem nextOk_predOp {o : POps} {f : Bool → Bool → Bool} {s : State} (h : s.memOk) : NextOk (predOp o f s) :=
  nextOk_issueNext (fun _ => .bind keepsMem_needSpace fun _ => .bind keepsMem_readPred fun _ => .bind keepsMem_readPred fun _ =>
      keepsMem_deliverBool) h

theorem nextOk_execPand {o : POps} {s : State} (h : s.memOk) : NextOk (execPand o s) :=
  nextOk_predOp h

theorem nextOk_execPor {o : POps} {s : State} (h : s.memOk) : NextOk (execPor o s) :=
  nextOk_predOp h

theorem nextOk_execPxor {o : POps} {s : State} (h : s.memOk) : NextOk (execPxor o s) :=
  nextOk_predOp h

theorem nextOk_execPandn {o : POps} {s : State} (h : s.memOk) : NextOk (execPandn o s) :=
  nextOk_predOp h

theorem nextOk_execPmov {g : Guard} {d : Dest} {na : Bool} {pa : BitVec 3} {s : State} (h : s.memOk) : NextOk (execPmov g d na pa s) :=
  nextOk_issueNext (fun _ => .bind keepsMem_needSpace fun _ => .bind keepsMem_readPred fun _ => keepsMem_deliverBool) h

theorem nextOk_execQtest {g : Guard} {d : Dest} {t : QTest} {s : State} (h : s.memOk) : NextOk (execQtest g d t s) :=
  nextOk_issueNext (fun _ => .bind keepsMem_needSpace fun _ => .bind keepsMem_getJob fun _ => keepsMem_deliverBool) h

end Sys2Proof.Machine
end

section
/-!
PROOFS. The canonical form of HBM through loads and stores (O54).
-/

set_option Elab.async false

namespace Sys2Proof.Machine

theorem keepsMem_readAddr {u : Cur} {m : MAddr} : (readAddr u m).KeepsMem :=
  .bind keepsMem_readScalar fun _ => .bind keepsMem_readScalar fun _ => keepsMem_pure

theorem keepsMem_waitFull {u : Cur} {ar : Area} {n : ℕ} {q : Fe} : (waitFull u ar n q).KeepsMem := by
  unfold waitFull
  split
  · refine keepsMem_get_bind fun _ hs => ?_
    dsimp only
    exact keepsMem_holdIf
  · exact keepsMem_pure

theorem keepsMem_emptyAfter {u : Cur} {ar : Area} {n : ℕ} {q : Fe} : (emptyAfter u ar n q).KeepsMem := by
  unfold emptyAfter
  split
  · exact keepsMem_modify fun _ hs => memOk_modCore hs
  · exact keepsMem_pure

theorem keepsMem_orderAt {u : Cur} {ar : Area} {n : ℕ} : (orderAt u ar n).KeepsMem := by
  unfold orderAt
  split
  · exact keepsMem_needOrder
  · refine keepsMem_get_bind fun _ hs => ?_
    dsimp only
    exact keepsMem_holdIf
  · exact keepsMem_pure

theorem keepsMem_ldBody {later : Bool} {acq : Option Scope} {o : LdOps} {u : Cur} : (ldBody later acq o u).KeepsMem := by
  unfold ldBody
  refine .bind keepsMem_needSpace fun _ => ?_
  refine .bind keepsMem_ensure fun _ => ?_
  refine .bind keepsMem_needLogEntry fun _ => ?_
  refine .bind keepsMem_readAddr fun _ => ?_
  dsimp only
  refine .bind keepsMem_areaOf fun _ => ?_
  refine .bind keepsMem_waitFull fun _ => ?_
  refine .bind keepsMem_orderAt fun _ => ?_
  refine .bind keepsMem_watch fun _ => ?_
  split
  · refine .bind keepsMem_chooseDefer fun _ => ?_
    split
    · exact .bind (.bind keepsMem_newEntry fun _ => keepsMem_reserveScalar) fun _ => keepsMem_putLog
    · refine keepsMem_orLate (fun _ hs => memOk_goodLoad hs) (.bind (.bind keepsMem_newEntry fun _ => keepsMem_reserveScalar) fun _ =>
        keepsMem_putLate) fun _ => ?_
      refine .bind keepsMem_emptyAfter fun _ => ?_
      refine .bind (keepsMem_modify fun _ hs => memOk_noteZero hs) fun _ => ?_
      refine .bind keepsMem_deliver fun _ => ?_
      split
      · exact keepsMem_modify fun _ hs => memOk_acquire hs
      · exact keepsMem_pure
  · refine .bind keepsMem_pure fun _ => ?_
    split
    · exact .bind (.bind keepsMem_newEntry fun _ => keepsMem_reserveScalar) fun _ => keepsMem_putLog
    · refine keepsMem_orLate (fun _ hs => memOk_goodLoad hs) (.bind (.bind keepsMem_newEntry fun _ => keepsMem_reserveScalar) fun _ =>
        keepsMem_putLate) fun _ => ?_
      refine .bind keepsMem_emptyAfter fun _ => ?_
      refine .bind (keepsMem_modify fun _ hs => memOk_noteZero hs) fun _ => ?_
      refine .bind keepsMem_deliver fun _ => ?_
      split
      · exact keepsMem_modify fun _ hs => memOk_acquire hs
      · exact keepsMem_pure

theorem nextOk_execLd {o : LdOps} {s : State} (h : s.memOk) : NextOk (execLd o s) :=
  nextOk_issueNext (fun _ => keepsMem_ldBody) h

theorem keepsMem_peekScalar {u : Cur} {x : Src} : (peekScalar u x).KeepsMem := by
  unfold peekScalar
  split
  · exact keepsMem_readScalar
  · refine .bind keepsMem_getStrm fun _ => ?_
    split
    · exact keepsMem_pure
    · exact keepsMem_ite keepsMem_pure keepsMem_pure
  · exact keepsMem_readScalar

theorem keepsMem_vldAgain {u : Cur} {o : VldOps} {f : MFmt} {desc : BitVec 32} {a : ℤ} {n : ℕ} : (vldAgain u o f desc a n).KeepsMem :=
  .bind keepsMem_areaOf fun _ => keepsMem_orLate (fun _ hs => memOk_goodLoad hs) (.bind keepsMem_newEntry fun _ => .bind keepsMem_reserveRow fun _
      => keepsMem_putLate) fun _ => .bind (keepsMem_modify fun _ hs => memOk_noteZero hs) fun _ => keepsMem_deliverRow

theorem keepsMem_vldBlock {u : Cur} {o : VldOps} {f : MFmt} {desc : BitVec 32} {m : BitVec 3} {r : MReg} :
    (vldBlock u o f desc m r).KeepsMem := by
  unfold vldBlock
  dsimp only
  refine .bind keepsMem_trapIf fun _ => ?_
  refine .bind keepsMem_ensure fun _ => ?_
  refine .bind keepsMem_needLogEntry fun _ => ?_
  refine .bind keepsMem_peekScalar fun _ => ?_
  refine .bind keepsMem_trapIf fun _ => ?_
  refine .bind keepsMem_holdIf fun _ => ?_
  refine .bind keepsMem_popBlock fun _ => ?_
  refine .bind keepsMem_readScalar fun _ => ?_
  split
  · exact keepsMem_deliverRow
  · exact keepsMem_vldAgain

theorem nextOk_execVld {o : VldOps} {s : State} (h : s.memOk) : NextOk (execVld o s) := by
  unfold execVld
  refine nextOk_issueNext (fun _ => ?_) h
  refine .bind keepsMem_getFmt fun _ => ?_
  refine .bind keepsMem_needSpace fun _ => ?_
  refine .bind keepsMem_getStrm fun _ => ?_
  refine .bind keepsMem_getJob fun _ => ?_
  dsimp only
  split
  · exact keepsMem_vldBlock
  · exact .bind keepsMem_ensure fun _ => .bind keepsMem_needLogEntry fun _ => .bind keepsMem_readAddr fun _ => .bind keepsMem_areaOf fun _ => .bind
      keepsMem_waitFull fun _ => .bind keepsMem_orderAt fun _ => .bind keepsMem_watch fun _ => keepsMem_ite (.bind keepsMem_chooseDefer fun _ =>
      keepsMem_ite (.bind (.bind keepsMem_newEntry fun _ => keepsMem_reserveRow) fun _ => keepsMem_putLog) (keepsMem_orLate (fun _ hs =>
      memOk_goodLoad hs) (.bind (.bind keepsMem_newEntry fun _ => keepsMem_reserveRow) fun _ => keepsMem_putLate) fun _ => .bind
      keepsMem_emptyAfter fun _ => .bind (keepsMem_modify fun _ hs => memOk_noteZero hs) fun _ => keepsMem_deliverRow)) (.bind keepsMem_pure fun _
      => keepsMem_ite (.bind (.bind keepsMem_newEntry fun _ => keepsMem_reserveRow) fun _ => keepsMem_putLog) (keepsMem_orLate (fun _ hs =>
      memOk_goodLoad hs) (.bind (.bind keepsMem_newEntry fun _ => keepsMem_reserveRow) fun _ => keepsMem_putLate) fun _ => .bind
      keepsMem_emptyAfter fun _ => .bind (keepsMem_modify fun _ hs => memOk_noteZero hs) fun _ => keepsMem_deliverRow))

theorem keepsMem_readOffsets {u : Cur} {i : ℤ} {n : ℕ} : (readOffsets u i n).KeepsMem := by
  unfold readOffsets
  refine keepsMem_get_bind fun _ hs => ?_
  dsimp only
  exact .bind keepsMem_trapIf fun _ => .bind keepsMem_watch fun _ => keepsMem_pure

theorem keepsMem_laneAreas {u : Cur} {f : MFmt} {base : ℤ} {offs : List ℤ} : (laneAreas u f base offs).KeepsMem :=
  keepsMem_mapM fun _ => keepsMem_areaOf

theorem nextOk_execVldx {o : VldOps} {s : State} (h : s.memOk) : NextOk (execVldx o s) := by
  unfold execVldx
  refine nextOk_issueNext (fun _ => ?_) h
  refine .bind keepsMem_getFmt fun _ => ?_
  refine .bind keepsMem_trapIf fun _ => ?_
  refine .bind keepsMem_needSpace fun _ => ?_
  refine .bind keepsMem_ensure fun _ => ?_
  refine .bind keepsMem_needLogEntry fun _ => ?_
  refine .bind keepsMem_readScalar fun _ => ?_
  refine .bind keepsMem_readScalar fun _ => ?_
  refine .bind keepsMem_readOffsets fun _ => ?_
  dsimp only
  exact .bind keepsMem_laneAreas fun _ => .bind (keepsMem_forIn fun _ _ => .bind keepsMem_orderAt fun _ => keepsMem_pure) fun _ => .bind
      (keepsMem_forIn fun _ _ => .bind keepsMem_watch fun _ => keepsMem_pure) fun _ => .bind keepsMem_getJob fun _ => keepsMem_ite (.bind
      keepsMem_chooseDefer fun _ => keepsMem_ite (.bind (.bind keepsMem_newEntry fun _ => keepsMem_reserveRow) fun _ => keepsMem_putLog)
      (keepsMem_orLate (fun _ hs => memOk_goodLoads _ hs) (.bind (.bind keepsMem_newEntry fun _ => keepsMem_reserveRow) fun _ => keepsMem_putLate)
      fun _ => .bind (keepsMem_modify fun _ hs => memOk_foldl (fun _ _ hs1 => memOk_noteZero hs1) _ hs) fun _ => keepsMem_deliverRow)) (.bind
      keepsMem_pure fun _ => keepsMem_ite (.bind (.bind keepsMem_newEntry fun _ => keepsMem_reserveRow) fun _ => keepsMem_putLog) (keepsMem_orLate
      (fun _ hs => memOk_goodLoads _ hs) (.bind (.bind keepsMem_newEntry fun _ => keepsMem_reserveRow) fun _ => keepsMem_putLate) fun _ => .bind
      (keepsMem_modify fun _ hs => memOk_foldl (fun _ _ hs1 => memOk_noteZero hs1) _ hs) fun _ => keepsMem_deliverRow))

theorem memOk_prefetch {s : State} {c va : ℕ} {scope : Scope} {mc : Bool} (h : s.memOk) : (s.prefetch c va scope mc).memOk := by
  unfold State.prefetch
  dsimp only
  split
  · exact memOk_translate _ _ _ _ h
  · split
    · split
      · dsimp only
        exact memOk_translate _ _ _ _ h
      · split
        · refine memOk_mscTouch ?_
          dsimp only
          exact memOk_translate _ _ _ _ h
        · split
          · refine memOk_l1Put _ _ ?_
            dsimp only
            exact memOk_translate _ _ _ _ h
          · refine memOk_l1Put _ _ ?_
            refine memOk_l1Fill _ _ _ ?_
            dsimp only
            exact memOk_translate _ _ _ _ h
    · exact memOk_ite (memOk_remoteFault (memOk_translate _ _ _ _ h)) (memOk_ite (memOk_remoteFault (memOk_translate _ _ _ _ h)) (memOk_ite
        (memOk_l1Put _ _ (memOk_remoteFault (memOk_translate _ _ _ _ h))) (memOk_l1Put _ _ (memOk_l1Fill _ _ _ (memOk_remoteFault (memOk_translate
        _ _ _ _ h))))))

theorem nextOk_execPref {g : Guard} {at_ : MAddr} {scope : Scope} {mc : Bool} {s : State} (h : s.memOk) : NextOk (execPref g at_ scope mc s) :=
  nextOk_issueNext (fun _ => .bind keepsMem_ensure fun _ => .bind keepsMem_readAddr fun _ => .bind keepsMem_trapIf fun _ => keepsMem_ite
      keepsMem_pure (keepsMem_modify fun _ hs => memOk_prefetch hs)) h

theorem keepsMem_storeBytes {u : Cur} {later : Bool} {ar : Area} {bs : List (Byte × Byte)} {scope : Scope} {full : Bool} :
    (storeBytes u later ar bs scope full).KeepsMem := by
  unfold storeBytes
  dsimp only
  exact keepsMem_ite (.bind keepsMem_chooseDefer fun _ => keepsMem_ite (.bind keepsMem_newEntry fun _ => keepsMem_putLog) (keepsMem_orLate (fun _
      hs => memOk_storeArea hs) (.bind keepsMem_newEntry fun _ => keepsMem_putLate) fun _ => keepsMem_pure)) (.bind keepsMem_pure fun _ =>
      keepsMem_ite (.bind keepsMem_newEntry fun _ => keepsMem_putLog) (keepsMem_orLate (fun _ hs => memOk_storeArea hs) (.bind keepsMem_newEntry
      fun _ => keepsMem_putLate) fun _ => keepsMem_pure))

theorem keepsMem_stBody {later : Bool} {o : StOps} {u : Cur} : (stBody later o u).KeepsMem := by
  unfold stBody
  refine .bind keepsMem_ensure fun _ => ?_
  refine .bind keepsMem_needLogEntry fun _ => ?_
  refine .bind keepsMem_readAddr fun _ => ?_
  refine .bind keepsMem_readScalar fun _ => ?_
  dsimp only
  exact .bind keepsMem_areaOf fun _ => .bind keepsMem_orderAt fun _ => .bind keepsMem_watch fun _ => keepsMem_storeBytes

theorem nextOk_execSt {o : StOps} {s : State} (h : s.memOk) : NextOk (execSt o s) :=
  nextOk_issueNext (fun _ => keepsMem_stBody) h

theorem keepsMem_rowDraws {u : Cur} {lw : Bool} {r : Rnd} : (rowDraws u lw r).KeepsMem :=
  keepsMem_ite keepsMem_takeDraws keepsMem_pure

theorem keepsMem_rowFmt {u : Cur} {code : ℕ} {lw : Bool} : (rowFmt u code lw).KeepsMem :=
  .bind keepsMem_getFmt fun _ => .bind keepsMem_needPrec fun _ => keepsMem_pure

theorem nextOk_execVst {o : VstOps} {s : State} (h : s.memOk) : NextOk (execVst o s) := by
  unfold execVst
  refine nextOk_issueNext (fun _ => ?_) h
  refine .bind keepsMem_rowFmt fun _ => ?_
  refine .bind keepsMem_ensure fun _ => ?_
  refine .bind keepsMem_needLogEntry fun _ => ?_
  refine .bind keepsMem_readAddr fun _ => ?_
  refine .bind keepsMem_popRow fun _ => ?_
  dsimp only
  exact .bind keepsMem_areaOf fun _ => .bind keepsMem_orderAt fun _ => .bind keepsMem_watch fun _ => .bind keepsMem_rowDraws fun _ => .bind
      keepsMem_setFlags fun _ => keepsMem_storeBytes

theorem nextOk_execVstx {o : VstOps} {s : State} (h : s.memOk) : NextOk (execVstx o s) := by
  unfold execVstx
  refine nextOk_issueNext (fun _ => ?_) h
  refine .bind keepsMem_rowFmt fun _ => ?_
  refine .bind keepsMem_trapIf fun _ => ?_
  refine .bind keepsMem_ensure fun _ => ?_
  refine .bind keepsMem_needLogEntry fun _ => ?_
  refine .bind keepsMem_readScalar fun _ => ?_
  refine .bind keepsMem_readScalar fun _ => ?_
  refine .bind keepsMem_popRow fun _ => ?_
  refine .bind keepsMem_readOffsets fun _ => ?_
  dsimp only
  exact .bind keepsMem_laneAreas fun _ => .bind (keepsMem_forIn fun _ _ => .bind keepsMem_orderAt fun _ => keepsMem_pure) fun _ => .bind
      (keepsMem_forIn fun _ _ => .bind keepsMem_watch fun _ => keepsMem_pure) fun _ => .bind keepsMem_rowDraws fun _ => .bind keepsMem_setFlags fun
      _ => keepsMem_ite (.bind keepsMem_chooseDefer fun _ => keepsMem_ite (.bind keepsMem_newEntry fun _ => keepsMem_putLog) (keepsMem_orLate (fun
      _ hs => memOk_storeAll hs) (.bind keepsMem_newEntry fun _ => keepsMem_putLate) fun _ => keepsMem_pure)) (.bind keepsMem_pure fun _ =>
      keepsMem_ite (.bind keepsMem_newEntry fun _ => keepsMem_putLog) (keepsMem_orLate (fun _ hs => memOk_storeAll hs) (.bind keepsMem_newEntry fun
      _ => keepsMem_putLate) fun _ => keepsMem_pure))

theorem memOk_galleryStore {s : State} {c : ℕ} {row : Bool} {members : List ℕ} {a : ℕ} {bs : List (Byte × Byte)} (h : s.memOk) :
    (s.galleryStore c row members a bs).2.memOk := by
  unfold State.galleryStore
  dsimp only
  refine memOk_post ?_
  dsimp only [State.memOk]
  exact memOk_modDie (memOk_newId h)

theorem keepsMem_sendGallery {u : Cur} {row : Bool} {members : List ℕ} {a : ℕ} {bs : List (Byte × Byte)} :
    (sendGallery u row members a bs).KeepsMem := by
  unfold sendGallery
  refine keepsMem_get_bind fun _ hs => ?_
  dsimp only
  exact .bind (keepsMem_set (memOk_galleryStore hs)) fun _ => .bind keepsMem_newEntry fun _ => keepsMem_appendLog

theorem keepsMem_gstAddr {u : Cur} {a : ℤ} {n al : ℕ} : (gstAddr u a n al).KeepsMem := by
  unfold gstAddr
  refine .bind keepsMem_trapIf fun _ => ?_
  refine .bind keepsMem_trapIf fun _ => ?_
  refine .bind keepsMem_getJob fun _ => ?_
  split
  · exact keepsMem_pure
  · exact keepsMem_raiseTrap

theorem keepsMem_needGallery {u : Cur} {row : Bool} : (needGallery u row).KeepsMem :=
  keepsMem_get_bind fun _ hs => keepsMem_ite keepsMem_pure keepsMem_askFor

theorem nextOk_execGst {o : GstOps} {s : State} (h : s.memOk) : NextOk (execGst o s) := by
  unfold execGst
  split
  · refine nextOk_issueNext (fun _ => ?_) h
    refine .bind keepsMem_ensure fun _ => ?_
    refine .bind keepsMem_needLogEntry fun _ => ?_
    refine .bind keepsMem_readAddr fun _ => ?_
    refine .bind keepsMem_readScalar fun _ => ?_
    dsimp only
    exact .bind keepsMem_gstAddr fun _ => .bind keepsMem_watch fun _ => .bind keepsMem_needGallery fun _ => keepsMem_sendGallery
  · refine nextOk_issueNext (fun _ => ?_) h
    refine .bind keepsMem_rowFmt fun _ => ?_
    refine .bind keepsMem_ensure fun _ => ?_
    refine .bind keepsMem_needLogEntry fun _ => ?_
    refine .bind keepsMem_readAddr fun _ => ?_
    refine .bind keepsMem_popRow fun _ => ?_
    dsimp only
    exact .bind keepsMem_gstAddr fun _ => .bind keepsMem_watch fun _ => .bind keepsMem_needGallery fun _ => .bind keepsMem_rowDraws fun _ => .bind
        keepsMem_setFlags fun _ => keepsMem_sendGallery

theorem memOk_galleryLand {s : State} {id : ℕ} (h : s.memOk) : (s.galleryLand id).memOk := by
  unfold State.galleryLand
  split
  · exact h
  · dsimp only
    exact memOk_modJob (memOk_foldl (fun _ _ hs => memOk_foldl (fun _ _ hs1 => memOk_spadWrite hs1) _ hs) _ (memOk_upd h))

theorem nextOk_execGalleryArrival {id : ℕ} {s : State} (h : s.memOk) : NextOk (execGalleryArrival id s) :=
  nextOk_event (fun _ hs => memOk_galleryLand hs) h

theorem memOk_kickFetch {s : State} {c : ℕ} {x : Strm} {m : BitVec 3} (h : s.memOk) : (s.kickFetch c x m).memOk :=
  memOk_postOnce h

theorem nextOk_execSbind {g : Guard} {m : BitVec 3} {b : Src} {data : Bool} {s : State} (h : s.memOk) : NextOk (execSbind g m b data s) := by
  unfold execSbind
  refine nextOk_issueNext (fun _ => ?_) h
  refine .bind keepsMem_ensure fun _ => ?_
  refine .bind keepsMem_readScalar fun _ => ?_
  refine .bind keepsMem_areaOf fun _ => ?_
  refine .bind keepsMem_orderAt fun _ => ?_
  refine .bind keepsMem_watch fun _ => ?_
  refine .bind (keepsMem_liftF fun _ hs => memOk_loadArea hs) fun _ => ?_
  split
  · exact keepsMem_raisePoison
  · split
    · exact keepsMem_raiseTrap
    · exact .bind keepsMem_modStrm fun _ => keepsMem_ite (keepsMem_modify fun _ hs => memOk_kickFetch hs) keepsMem_pure

theorem memOk_blockFetch {s : State} {c : ℕ} {x : Strm} {m : BitVec 3} (h : s.memOk) : (s.blockFetch c x m).memOk := by
  unfold State.blockFetch
  split
  · exact h
  · split
    · exact h
    · split
      · dsimp only
        split
        · exact memOk_kickFetch (memOk_modStrm h)
        · split
          · exact memOk_kickFetch (memOk_modStrm h)
          · exact memOk_kickFetch (memOk_modStrm (memOk_loadArea h))
      · exact h

theorem nextOk_execStreamBlockFetch {core : ℕ} {str : Strm} {m : BitVec 3} {s : State} (h : s.memOk) :
    NextOk (execStreamBlockFetch core str m s) :=
  nextOk_event (fun _ hs => memOk_blockFetch hs) h

theorem nextOk_execSnext {g : Guard} {m : BitVec 3} {b : Src} {s : State} (h : s.memOk) : NextOk (execSnext g m b s) := by
  unfold execSnext
  refine nextOk_issueNext (fun _ => ?_) h
  refine .bind keepsMem_getStrm fun _ => ?_
  split
  · exact keepsMem_raiseTrap
  · refine .bind keepsMem_ensure fun _ => ?_
    refine .bind keepsMem_readScalar fun _ => ?_
    refine .bind keepsMem_getStrm fun _ => ?_
    dsimp only
    exact .bind keepsMem_modStrm fun _ => keepsMem_ite (keepsMem_modify fun _ hs => memOk_kickFetch hs) keepsMem_pure

theorem nextOk_execStest {g : Guard} {d : Dest} {m : BitVec 3} {c : STest} {s : State} (h : s.memOk) : NextOk (execStest g d m c s) :=
  nextOk_issueNext (fun _ => .bind keepsMem_needSpace fun _ => .bind keepsMem_getStrm fun _ => keepsMem_deliverBool) h

theorem nextOk_execSdrop {g : Guard} {m : BitVec 3} {s : State} (h : s.memOk) : NextOk (execSdrop g m s) :=
  nextOk_issueNext (fun _ => keepsMem_modStrm) h

theorem nextOk_execTlook {g : Guard} {d : Dest} {b : Src} {s : State} (h : s.memOk) : NextOk (execTlook g d b s) := by
  unfold execTlook
  refine nextOk_issueNext (fun _ => ?_) h
  refine .bind keepsMem_needSpace fun _ => ?_
  refine .bind keepsMem_ensure fun _ => ?_
  refine .bind keepsMem_readScalar fun _ => ?_
  dsimp only
  exact keepsMem_get_bind fun _ hs => keepsMem_deliver

theorem keepsMem_needSlot {w : Word} : (needSlot w).KeepsMem :=
  keepsMem_trapIf

theorem nextOk_execTset {g : Guard} {a b : Src} {s : State} (h : s.memOk) : NextOk (execTset g a b s) := by
  unfold execTset
  refine nextOk_issueNext (fun _ => ?_) h
  refine .bind keepsMem_ensure fun _ => ?_
  refine .bind keepsMem_readScalar fun _ => ?_
  refine .bind keepsMem_readScalar fun _ => ?_
  dsimp only
  exact .bind keepsMem_needSlot fun _ => keepsMem_modify fun _ hs => memOk_modCore hs

theorem nextOk_execTinv {g : Guard} {all : Bool} {a : Src} {s : State} (h : s.memOk) : NextOk (execTinv g all a s) :=
  nextOk_issueNext (fun _ => keepsMem_ite (keepsMem_modify fun _ hs => memOk_modCore hs) (.bind keepsMem_ensure fun _ => .bind keepsMem_readScalar
      fun _ => .bind keepsMem_needSlot fun _ => keepsMem_modify fun _ hs => memOk_modCore hs)) h

theorem keepsMem_feBody {v : Bool} {o : FeOps} {u : Cur} : (feBody v o u).KeepsMem := by
  unfold feBody
  refine .bind keepsMem_ensure fun _ => ?_
  refine .bind keepsMem_readAddr fun _ => ?_
  refine .bind keepsMem_readScalar fun _ => ?_
  dsimp only
  split
  · exact keepsMem_pure
  · refine .bind keepsMem_areaOf fun _ => ?_
    split
    · exact keepsMem_modify fun _ hs => memOk_modCore hs
    · exact keepsMem_pure

theorem nextOk_execFeset {o : FeOps} {s : State} (h : s.memOk) : NextOk (execFeset o s) :=
  nextOk_issueNext (fun _ => keepsMem_feBody) h

theorem nextOk_execFeclr {o : FeOps} {s : State} (h : s.memOk) : NextOk (execFeclr o s) :=
  nextOk_issueNext (fun _ => keepsMem_feBody) h

theorem nextOk_execFetest {g : Guard} {d : Dest} {at_ : MAddr} {s : State} (h : s.memOk) : NextOk (execFetest g d at_ s) := by
  unfold execFetest
  refine nextOk_issueNext (fun _ => ?_) h
  refine .bind keepsMem_needSpace fun _ => ?_
  refine .bind keepsMem_ensure fun _ => ?_
  refine .bind keepsMem_readAddr fun _ => ?_
  refine .bind keepsMem_areaOf fun _ => ?_
  split
  · exact keepsMem_get_bind fun _ hs => keepsMem_deliverBool
  · exact keepsMem_pure

theorem memOk_l1Clean {s : State} {c : ℕ} {un : SendUnit} {p : L1Line → Bool} {inv : Bool} (h : s.memOk) : (s.l1Clean c un p inv).memOk := by
  unfold State.l1Clean
  dsimp only
  exact memOk_modCore (memOk_foldl (fun _ _ hs => memOk_writeBack _ _ _ hs) _ h)

theorem keepsMem_l1Body {inv : Bool} {o : L1Ops} {u : Cur} : (l1Body inv o u).KeepsMem := by
  unfold l1Body
  refine .bind keepsMem_needLogEmpty fun _ => ?_
  split
  · exact keepsMem_modify fun _ hs => memOk_l1Clean hs
  · refine .bind keepsMem_ensure fun _ => ?_
    refine .bind keepsMem_readAddr fun _ => ?_
    split
    · exact keepsMem_pure
    · refine .bind keepsMem_areaOf fun _ => ?_
      split
      · exact .bind keepsMem_getCtx fun _ => .bind (keepsMem_liftF fun _ hs => memOk_translate _ _ _ _ hs) fun _ => keepsMem_modify fun _ hs =>
          memOk_l1Clean hs
      · exact keepsMem_pure

theorem nextOk_execL1wb {o : L1Ops} {s : State} (h : s.memOk) : NextOk (execL1wb o s) :=
  nextOk_issueNext (fun _ => keepsMem_l1Body) h

theorem nextOk_execL1inv {o : L1Ops} {s : State} (h : s.memOk) : NextOk (execL1inv o s) :=
  nextOk_issueNext (fun _ => keepsMem_l1Body) h

end Sys2Proof.Machine
end

section
/-!
PROOFS. The canonical form of HBM through fences, atomics and timelines (O54).
-/

set_option Elab.async false

namespace Sys2Proof.Machine

theorem keepsMem_releaseWait {u : Cur} {scope : Scope} {acks : Bool} : (releaseWait u scope acks).KeepsMem := by
  unfold releaseWait
  refine .bind keepsMem_getStrm fun _ => ?_
  dsimp only
  exact keepsMem_ite (.bind keepsMem_needLogEmpty fun _ => keepsMem_get_bind fun _ hs => .bind (keepsMem_modify fun _ hs1 => memOk_release _ _ _
      hs1) fun _ => keepsMem_ite (keepsMem_get_bind fun _ hs1 => .bind keepsMem_modStrm fun _ => keepsMem_ite (.bind keepsMem_modStrm fun _ =>
      .bind keepsMem_getStrm fun _ => keepsMem_ite keepsMem_pure keepsMem_keepFor) keepsMem_pure) (keepsMem_ite (.bind keepsMem_modStrm fun _ =>
      .bind keepsMem_getStrm fun _ => keepsMem_ite keepsMem_pure keepsMem_keepFor) keepsMem_pure)) (keepsMem_ite (.bind keepsMem_modStrm fun _ =>
      .bind keepsMem_getStrm fun _ => keepsMem_ite keepsMem_pure keepsMem_keepFor) keepsMem_pure)

theorem nextOk_execFence {g : Guard} {k : FenceKind} {scope : Scope} {s : State} (h : s.memOk) : NextOk (execFence g k scope s) := by
  unfold execFence
  refine nextOk_issueNext (fun _ => ?_) h
  split
  · exact .bind keepsMem_needLoads fun _ => keepsMem_modify fun _ hs => memOk_acquire hs
  · split
    · exact keepsMem_releaseWait
    · refine keepsMem_get_bind fun _ hs => ?_
      dsimp only
      exact keepsMem_modStrm
  · exact .bind keepsMem_releaseWait fun _ => keepsMem_modify fun _ hs => memOk_acquire hs

theorem nextOk_execLda {o : LdOps} {s : State} (h : s.memOk) : NextOk (execLda o s) :=
  nextOk_issueNext (fun _ => .bind keepsMem_needLogEmpty fun _ => keepsMem_ldBody) h

theorem nextOk_execStl {o : StOps} {s : State} (h : s.memOk) : NextOk (execStl o s) :=
  nextOk_issueNext (fun _ => .bind keepsMem_ensure fun _ => .bind keepsMem_releaseWait fun _ => keepsMem_stBody) h

theorem keepsMem_atomicAddr {u : Cur} {d : Dest} {at_ : MAddr} {n : ℕ} : (atomicAddr u d at_ n).KeepsMem := by
  unfold atomicAddr
  refine .bind keepsMem_needSpace fun _ => ?_
  refine .bind keepsMem_ensure fun _ => ?_
  refine .bind keepsMem_needLogEntry fun _ => ?_
  refine .bind keepsMem_readAddr fun _ => ?_
  refine .bind keepsMem_areaOf fun _ => ?_
  dsimp only
  split
  · exact .bind keepsMem_getJob fun _ => .bind keepsMem_trapIf fun _ => .bind keepsMem_orderAt fun _ => .bind keepsMem_watch fun _ => keepsMem_pure
  · exact .bind keepsMem_orderAt fun _ => .bind keepsMem_watch fun _ => keepsMem_pure

theorem keepsMem_atomicEnd {u : Cur} {d : Dest} {p : AtomicOp} {m : ℕ} : (atomicEnd u d p m).KeepsMem :=
  .bind keepsMem_setFlags fun _ => keepsMem_deliver

theorem keepsMem_atomicAt {u : Cur} {ar : Area} {d : Dest} {p : AtomicOp} : (atomicAt u ar d p).KeepsMem := by
  unfold atomicAt
  split
  · refine .bind keepsMem_localRead fun _ => ?_
    dsimp only
    exact .bind (keepsMem_modify fun _ hs => memOk_spadWrite hs) fun _ => keepsMem_atomicEnd
  · refine .bind keepsMem_localRead fun _ => ?_
    dsimp only
    exact .bind (keepsMem_modify fun _ hs => memOk_clusterWrite hs) fun _ => keepsMem_atomicEnd
  · refine .bind keepsMem_getCtx fun _ => ?_
    dsimp only
    refine keepsMem_get_bind fun _ hs => ?_
    split
    · split
      · refine keepsMem_orLate (fun _ hs1 => ?_) (.bind (.bind keepsMem_newEntry fun _ => keepsMem_reserveScalar) fun _ => keepsMem_putLate) fun _
          => keepsMem_atomicEnd
        split
        · dsimp only
          exact memOk_fst (memOk_translateRange _ _ _ _ _ hs1)
        · exact memOk_atomicHome (memOk_fst (memOk_translateRange _ _ _ _ _ hs1))
      · exact .bind (.bind keepsMem_newEntry fun _ => keepsMem_reserveScalar) fun _ => .bind keepsMem_appendLog fun _ => keepsMem_modStrm
    · split
      · refine keepsMem_orLate (fun _ hs1 => ?_) (.bind (.bind keepsMem_newEntry fun _ => keepsMem_reserveScalar) fun _ => keepsMem_putLate) fun _
          => keepsMem_atomicEnd
        split
        · dsimp only
          exact memOk_fst (memOk_translateRange _ _ _ _ _ hs1)
        · exact memOk_atomicHome (memOk_fst (memOk_translateRange _ _ _ _ _ hs1))
      · exact .bind (.bind keepsMem_newEntry fun _ => keepsMem_reserveScalar) fun _ => .bind keepsMem_appendLog fun _ => keepsMem_modStrm

theorem nextOk_atomicOp {o : AOps} {sub : ℕ} {s : State} (h : s.memOk) : NextOk (atomicOp o sub s) := by
  unfold atomicOp
  refine nextOk_issueNext (fun _ => ?_) h
  dsimp only
  exact .bind keepsMem_atomicAddr fun _ => .bind keepsMem_readDst fun _ => keepsMem_atomicAt

theorem nextOk_execAadd {o : AOps} {s : State} (h : s.memOk) : NextOk (execAadd o s) :=
  nextOk_atomicOp h

theorem nextOk_execAmin {o : AOps} {s : State} (h : s.memOk) : NextOk (execAmin o s) :=
  nextOk_atomicOp h

theorem nextOk_execAmax {o : AOps} {s : State} (h : s.memOk) : NextOk (execAmax o s) :=
  nextOk_atomicOp h

theorem nextOk_execAand {o : AOps} {s : State} (h : s.memOk) : NextOk (execAand o s) :=
  nextOk_atomicOp h

theorem nextOk_execAor {o : AOps} {s : State} (h : s.memOk) : NextOk (execAor o s) :=
  nextOk_atomicOp h

theorem nextOk_execAxor {o : AOps} {s : State} (h : s.memOk) : NextOk (execAxor o s) :=
  nextOk_atomicOp h

theorem nextOk_execAxch {o : AOps} {s : State} (h : s.memOk) : NextOk (execAxch o s) :=
  nextOk_atomicOp h

theorem nextOk_execAcas {o : AOps} {s : State} (h : s.memOk) : NextOk (execAcas o s) := by
  unfold execAcas
  refine nextOk_issueNext (fun _ => ?_) h
  dsimp only
  exact .bind keepsMem_atomicAddr fun _ => .bind keepsMem_readDst fun _ => .bind keepsMem_getStrm fun _ => keepsMem_atomicAt

theorem nextOk_execAfadd {o : AfOps} {s : State} (h : s.memOk) : NextOk (execAfadd o s) := by
  unfold execAfadd
  refine nextOk_issueNext (fun _ => ?_) h
  dsimp only
  exact .bind keepsMem_atomicAddr fun _ => .bind keepsMem_drawFor fun _ => .bind keepsMem_readDst fun _ => keepsMem_atomicAt

theorem memOk_completeNum {s : State} {c ctr num : ℕ} {scope : Scope} {err : Bool} (h : s.memOk) : (s.completeNum c ctr num scope err).memOk :=
  memOk_modJob h

theorem keepsMem_acquireAt {u : Cur} {scope : Scope} : (acquireAt u scope).KeepsMem := by
  unfold acquireAt
  refine keepsMem_get_bind fun _ hs => ?_
  dsimp only
  exact .bind (keepsMem_modify fun _ hs1 => memOk_acquire hs1) fun _ => keepsMem_modStrm

theorem nextOk_execWaitt {o : CtrOps} {s : State} (h : s.memOk) : NextOk (execWaitt o s) := by
  unfold execWaitt
  refine nextOk_issueNext (fun _ => ?_) h
  refine .bind keepsMem_ensure fun _ => ?_
  refine .bind keepsMem_readScalar fun _ => ?_
  refine .bind keepsMem_readScalar fun _ => ?_
  dsimp only
  refine .bind keepsMem_getJob fun _ => ?_
  split
  · exact keepsMem_ite keepsMem_acquireAt keepsMem_holdFor
  · exact keepsMem_ite (.bind keepsMem_acquireAt fun _ => keepsMem_modStrm) keepsMem_modStrm

theorem nextOk_execTlrd {g : Guard} {d : Dest} {ctr : BitVec 4} {sel : TlSel} {s : State} (h : s.memOk) : NextOk (execTlrd g d ctr sel s) := by
  unfold execTlrd
  refine nextOk_issueNext (fun _ => ?_) h
  refine .bind keepsMem_needSpace fun _ => ?_
  refine .bind keepsMem_getJob fun _ => ?_
  dsimp only
  exact keepsMem_deliver

theorem memOk_advRelease {s : State} {c : ℕ} {x : Strm} {scope : Scope} (h : s.memOk) : (s.advRelease c x scope).1.memOk := by
  unfold State.advRelease
  dsimp only
  exact memOk_release _ _ _ h

theorem memOk_stepAdv {s : State} {c : ℕ} {a : Adv} (h : s.memOk) : (s.stepAdv c a).1.memOk := by
  unfold State.stepAdv
  dsimp only
  split
  · exact h
  · split
    · split
      · dsimp only
        exact memOk_modJob h
      · exact h
    · split
      · dsimp only
        exact memOk_modJob (memOk_advRelease h)
      · dsimp only
        exact memOk_advRelease h

theorem memOk_progressAdv {s : State} {c : ℕ} (h : s.memOk) : (s.progressAdv c).memOk := by
  unfold State.progressAdv
  dsimp only
  refine memOk_modJob ?_
  refine memOk_foldl_fst (fun _ _ hs => ?_) _ h
  dsimp only
  exact memOk_stepAdv hs

theorem nextOk_execTladv {g : Guard} {d : Dest} {ctr : BitVec 4} {b : Src} {scope : Scope} {s : State} (h : s.memOk) :
    NextOk (execTladv g d ctr b scope s) := by
  unfold execTladv
  refine nextOk_issueNext (fun _ => ?_) h
  refine .bind keepsMem_needSpace fun _ => ?_
  refine .bind keepsMem_ensure fun _ => ?_
  dsimp only
  split
  · refine .bind keepsMem_needLogEmpty fun _ => ?_
    refine .bind keepsMem_readScalar fun _ => ?_
    refine .bind keepsMem_trapIf fun _ => ?_
    refine .bind keepsMem_getJob fun _ => ?_
    refine .bind keepsMem_trapIf fun _ => ?_
    refine .bind keepsMem_getStrm fun _ => ?_
    refine keepsMem_get_bind fun _ hs => ?_
    refine .bind ?_ fun _ => .bind keepsMem_modJob fun _ => .bind (keepsMem_modify fun _ hs1 => memOk_progressAdv hs1) fun _ => keepsMem_deliver
    refine keepsMem_set ?_
    split
    · exact memOk_advRelease hs
    · exact hs
  · refine .bind keepsMem_readScalar fun _ => ?_
    refine .bind keepsMem_trapIf fun _ => ?_
    refine .bind keepsMem_getJob fun _ => ?_
    refine .bind keepsMem_trapIf fun _ => ?_
    refine .bind keepsMem_getStrm fun _ => ?_
    refine keepsMem_get_bind fun _ hs => ?_
    refine .bind ?_ fun _ => .bind keepsMem_modJob fun _ => .bind (keepsMem_modify fun _ hs1 => memOk_progressAdv hs1) fun _ => keepsMem_deliver
    refine keepsMem_set ?_
    split
    · exact memOk_advRelease hs
    · exact hs

end Sys2Proof.Machine
end

section
/-!
PROOFS. The canonical form of HBM through the events of memory (O54).
-/

set_option Elab.async false

namespace Sys2Proof.Machine

theorem memOk_codeBytes {s : State} {c pc n : ℕ} (h : s.memOk) : (s.codeBytes c pc n).1.memOk := by
  unfold State.codeBytes
  split
  · exact h
  · exact h
  · exact h
  · dsimp only
    split
    · dsimp only
      exact memOk_translateRange _ _ _ _ _ h
    · refine memOk_foldl_fst (fun _ _ hs => ?_) _ ?_
      · refine memOk_foldl_fst (fun _ _ hs1 => ?_) _ hs
        split
        · exact hs1
        · split
          · split
            · dsimp only
              exact memOk_lineError _ _ _ _ (memOk_homeRead _ _ _ _ _ _ _ hs1)
            · dsimp only
              exact memOk_homeRead _ _ _ _ _ _ _ hs1
          · dsimp only
            exact memOk_upd hs1
      · dsimp only
        exact memOk_translateRange _ _ _ _ _ h

theorem memOk_codeWord {s : State} {c : ℕ} {pc : VAddr} (h : s.memOk) : (s.codeWord c pc).1.memOk := by
  unfold State.codeWord
  dsimp only
  split
  · dsimp only
    exact memOk_codeBytes h
  · split
    · split
      · dsimp only
        exact memOk_codeBytes (memOk_codeBytes h)
      · dsimp only
        exact memOk_codeBytes (memOk_codeBytes h)
    · dsimp only
      exact memOk_codeBytes h

theorem memOk_fetchAt {s : State} {c : ℕ} {x : Strm} (h : s.memOk) : (s.fetchAt c x).memOk := by
  unfold State.fetchAt
  split
  · exact h
  · dsimp only
    split
    · split
      · exact memOk_modStrm (memOk_codeWord h)
      · split
        · refine memOk_takeTrap ?_
          dsimp only [State.memOk]
          exact memOk_codeWord h
        · exact h
    · exact h

theorem nextOk_execInstructionFetch {core : ℕ} {str : Strm} {s : State} (h : s.memOk) : NextOk (execInstructionFetch core str s) :=
  nextOk_event (fun _ hs => memOk_fetchAt hs) h

theorem memOk_performUpTo {c : Nat} {x : Strm} (l : List LogEnt) {s : State} (h : s.memOk) : (State.performUpTo c x l s).memOk := by
  induction l generalizing s with
  | nil => exact h
  | cons e l ih =>
    have h1 := memOk_performLog (c := c) (x := x) (e := e) h
    unfold State.performUpTo
    generalize s.performLog c x e = p at h1
    obtain ⟨t, r⟩ := p
    cases r with
    | ok => exact ih h1
    | error => exact memOk_modStrm (memOk_takeTrapOf h1)

theorem memOk_lateFaultAt {s : State} {c : ℕ} {x : Strm} (h : s.memOk) : (s.lateFaultAt c x).memOk := by
  unfold State.lateFaultAt
  split
  · exact h
  · exact memOk_ite (memOk_performUpTo _ h) h

theorem nextOk_execLateFault {core : ℕ} {str : Strm} {s : State} (h : s.memOk) : NextOk (execLateFault core str s) :=
  nextOk_event (fun _ hs => memOk_lateFaultAt hs) h

theorem memOk_performOne {s : State} {c : ℕ} {x : Strm} (h : s.memOk) : (s.performOne c x).memOk := by
  unfold State.performOne
  split
  · exact h
  · dsimp only
    split
    · exact h
    · split
      · refine memOk_modStrm ?_
        split
        · exact h
        · exact memOk_drawNat (memOk_drawBit h)
      · split
        · split
          · exact memOk_ite (memOk_postOnce h) h
          · split
            · exact memOk_postOnce h
            · exact memOk_ite (memOk_postOnce (memOk_postOnce (memOk_progressAdv (memOk_modStrm (memOk_performLog h))))) (memOk_postOnce
                (memOk_progressAdv (memOk_modStrm (memOk_performLog h))))
        · split
          · exact memOk_ite (memOk_postOnce (memOk_drawNat (memOk_drawBit h))) (memOk_drawNat (memOk_drawBit h))
          · split
            · exact memOk_postOnce (memOk_drawNat (memOk_drawBit h))
            · exact memOk_ite (memOk_postOnce (memOk_postOnce (memOk_progressAdv (memOk_modStrm (memOk_performLog (memOk_drawNat (memOk_drawBit
                h))))))) (memOk_postOnce (memOk_progressAdv (memOk_modStrm (memOk_performLog (memOk_drawNat (memOk_drawBit h))))))

theorem nextOk_execMemoryAccessPerformed {core : ℕ} {str : Strm} {s : State} (h : s.memOk) : NextOk (execMemoryAccessPerformed core str s) :=
  nextOk_event (fun _ hs => memOk_performOne hs) h

theorem memOk_deliverResults {s : State} {c : ℕ} {x : Strm} (h : s.memOk) : (s.deliverResults c x).memOk := by
  unfold State.deliverResults
  dsimp only
  exact memOk_modStrm (memOk_modJob h)

theorem nextOk_execResultDelivery {core : ℕ} {str : Strm} {s : State} (h : s.memOk) : NextOk (execResultDelivery core str s) :=
  nextOk_event (fun _ hs => memOk_deliverResults hs) h

theorem memOk_ack {s : State} {id : ℕ} (h : s.memOk) : (s.ack id).memOk := by
  unfold State.ack
  dsimp only
  refine memOk_foldl (fun _ _ hs => ?_) _ (memOk_foldl (fun _ _ hs => memOk_ite hs (memOk_progressAdv hs)) _ (memOk_upd h))
  split
  · exact memOk_foldl (fun _ _ hs1 => memOk_ite (memOk_postOnce hs1) hs1) _ hs
  · exact hs

theorem nextOk_execStoreAck {_core id : ℕ} {s : State} (h : s.memOk) : NextOk (execStoreAck _core id s) :=
  nextOk_event (fun _ hs => memOk_ack hs) h

theorem memOk_homeApply {s : State} {b : ℕ} (h : s.memOk) : (s.homeApply b).memOk := by
  unfold State.homeApply
  dsimp only
  split
  · exact memOk_drawNat (memOk_drawBit h)
  · exact memOk_ite (memOk_ite (memOk_drawNat (memOk_drawBit h)) (memOk_postOnce (memOk_drawNat (memOk_drawBit h)))) (memOk_ite (memOk_applyReq _
      (memOk_modBase (memOk_drawNat (memOk_drawBit h)))) (memOk_postOnce (memOk_applyReq _ (memOk_modBase (memOk_drawNat (memOk_drawBit h))))))

theorem nextOk_execHomeRequestApply {base : ℕ} {s : State} (h : s.memOk) : NextOk (execHomeRequestApply base s) :=
  nextOk_event (fun _ hs => memOk_homeApply hs) h

theorem memOk_serveRemote {s : State} {pa : ℕ} {op : RemoteOp} (h : s.memOk) : (s.serveRemote pa op).memOk := by
  unfold State.serveRemote
  dsimp only
  split
  · exact h
  · split
    · exact memOk_foldl (fun _ _ hs => memOk_watchHome (memOk_mscTouch hs)) _ h
    · exact memOk_foldl (fun _ _ hs => memOk_homeWriteLine _ _ _ _ _ hs) _ h
    · exact memOk_ite (memOk_lineError _ _ _ _ h) (memOk_homeWriteLine _ _ _ _ _ (memOk_drawNat h))

theorem nextOk_execRemoteRequest {pa : Word} {op : RemoteOp} {s : State} (h : s.memOk) : NextOk (execRemoteRequest pa op s) :=
  nextOk_event (fun _ hs => memOk_serveRemote hs) h

theorem memOk_expireNow {s : State} {c : ℕ} {x : Strm} {t : Trap} (h : s.memOk) : (s.expireNow c x t).memOk := by
  unfold State.expireNow
  dsimp only
  split <;> exact memOk_takeTrapOf (memOk_modStrm h)

theorem memOk_expire {s : State} {c : ℕ} {x : Strm} {f : Wait → Option Trap} (h : s.memOk) : (s.expire c x f).memOk := by
  unfold State.expire
  split
  · exact h
  · dsimp only
    split
    · split
      · split
        · exact memOk_ite (memOk_expireNow h) (memOk_ite (memOk_expireNow (memOk_lateFaultAt h)) (memOk_lateFaultAt h))
        · exact h
      · exact h
    · exact h

theorem nextOk_execQueueDeadlock {core : ℕ} {str : Strm} {s : State} (h : s.memOk) : NextOk (execQueueDeadlock core str s) :=
  nextOk_event (fun _ hs => memOk_expire hs) h

theorem nextOk_execTimelineWaitTimeout {core : ℕ} {str : Strm} {s : State} (h : s.memOk) : NextOk (execTimelineWaitTimeout core str s) :=
  nextOk_event (fun _ hs => memOk_expire hs) h

theorem nextOk_execFullEmptyTimeout {core : ℕ} {str : Strm} {s : State} (h : s.memOk) : NextOk (execFullEmptyTimeout core str s) :=
  nextOk_event (fun _ hs => memOk_expire hs) h

theorem nextOk_execDrawWaitTimeout {core : ℕ} {str : Strm} {s : State} (h : s.memOk) : NextOk (execDrawWaitTimeout core str s) :=
  nextOk_event (fun _ hs => memOk_expire hs) h

theorem nextOk_execWcsldWaitTimeout {core : ℕ} {s : State} (h : s.memOk) : NextOk (execWcsldWaitTimeout core s) :=
  nextOk_event (fun _ hs => memOk_expire hs) h

theorem nextOk_execLandingCreditTimeout {core : ℕ} {s : State} (h : s.memOk) : NextOk (execLandingCreditTimeout core s) :=
  nextOk_event (fun _ hs => memOk_expire hs) h

end Sys2Proof.Machine
end

section
/-!
PROOFS. The canonical form of HBM through vector instructions (O54).
-/

set_option Elab.async false

namespace Sys2Proof.Machine

theorem keepsMem_getMask {u : Cur} {k : BitVec 4} : (getMask u k).KeepsMem :=
  .bind keepsMem_getJob fun _ => keepsMem_pure

theorem keepsMem_oldRow {u : Cur} {d : Dest} : (oldRow u d).KeepsMem := by
  unfold oldRow
  split
  · exact .bind keepsMem_getJob fun _ => keepsMem_pure
  · exact keepsMem_pure

theorem keepsMem_putLanes {u : Cur} {d : Dest} {lw : Bool} {k : BitVec 4} {lat : ℕ} {f : ℕ → ℕ × Flg} : (putLanes u d lw k lat f).KeepsMem := by
  unfold putLanes
  refine .bind keepsMem_getMask fun _ => ?_
  refine .bind keepsMem_oldRow fun _ => ?_
  dsimp only
  exact .bind keepsMem_setFlags fun _ => keepsMem_deliverRow

theorem nextOk_vecOp {o : VOps} {int rd : Bool} {lat : ℕ} {op : ℕ → ℕ → ℕ → ℕ × Flg} {s : State} (h : s.memOk) :
    NextOk (vecOp o int rd lat op s) := by
  unfold vecOp
  refine nextOk_issueNext (fun _ => ?_) h
  refine .bind keepsMem_needSpace fun _ => ?_
  refine .bind keepsMem_needRowWrite fun _ => ?_
  refine .bind keepsMem_ensure fun _ => ?_
  refine .bind keepsMem_readVec fun _ => ?_
  dsimp only
  exact .bind keepsMem_readVec fun _ => .bind keepsMem_oldRow fun _ => keepsMem_putLanes

theorem nextOk_vecOp1 {o : VOps1} {int : Bool} {lat : ℕ} {op : ℕ → ℕ} {s : State} (h : s.memOk) : NextOk (vecOp1 o int lat op s) := by
  unfold vecOp1
  refine nextOk_issueNext (fun _ => ?_) h
  refine .bind keepsMem_needSpace fun _ => ?_
  refine .bind keepsMem_needRowWrite fun _ => ?_
  refine .bind keepsMem_ensure fun _ => ?_
  refine .bind keepsMem_readVec fun _ => ?_
  dsimp only
  exact keepsMem_putLanes

theorem nextOk_execVadd {o : VOps} {s : State} (h : s.memOk) : NextOk (execVadd o s) :=
  nextOk_vecOp h

theorem nextOk_execVsub {o : VOps} {s : State} (h : s.memOk) : NextOk (execVsub o s) :=
  nextOk_vecOp h

theorem nextOk_execVmul {o : VOps} {s : State} (h : s.memOk) : NextOk (execVmul o s) :=
  nextOk_vecOp h

theorem nextOk_execVfma {o : VOps} {s : State} (h : s.memOk) : NextOk (execVfma o s) :=
  nextOk_vecOp h

theorem nextOk_execVmin {o : VOps} {int : Bool} {s : State} (h : s.memOk) : NextOk (execVmin o int s) :=
  nextOk_vecOp h

theorem nextOk_execVmax {o : VOps} {int : Bool} {s : State} (h : s.memOk) : NextOk (execVmax o int s) :=
  nextOk_vecOp h

theorem nextOk_execVabs {o : VOps1} {int : Bool} {s : State} (h : s.memOk) : NextOk (execVabs o int s) :=
  nextOk_vecOp1 h

theorem nextOk_execVneg {o : VOps1} {int : Bool} {s : State} (h : s.memOk) : NextOk (execVneg o int s) :=
  nextOk_vecOp1 h

theorem nextOk_execVand {o : VOps} {s : State} (h : s.memOk) : NextOk (execVand o s) :=
  nextOk_vecOp h

theorem nextOk_execVor {o : VOps} {s : State} (h : s.memOk) : NextOk (execVor o s) :=
  nextOk_vecOp h

theorem nextOk_execVxor {o : VOps} {s : State} (h : s.memOk) : NextOk (execVxor o s) :=
  nextOk_vecOp h

theorem nextOk_execVshl {o : VOps} {s : State} (h : s.memOk) : NextOk (execVshl o s) :=
  nextOk_vecOp h

theorem nextOk_execVshr {o : VOps} {sra : Bool} {s : State} (h : s.memOk) : NextOk (execVshr o sra s) :=
  nextOk_vecOp h

theorem nextOk_execViadd {o : VOps} {s : State} (h : s.memOk) : NextOk (execViadd o s) :=
  nextOk_vecOp h

theorem nextOk_execVimul {o : VOps} {s : State} (h : s.memOk) : NextOk (execVimul o s) :=
  nextOk_vecOp h

theorem nextOk_execVmov {o : VOps1} {int : Bool} {s : State} (h : s.memOk) : NextOk (execVmov o int s) :=
  nextOk_vecOp1 h

theorem nextOk_moveScalar {o : VOps} {f : Word → List ℕ → ℕ → ℕ} {s : State} (h : s.memOk) : NextOk (moveScalar o f s) := by
  unfold moveScalar
  refine nextOk_issueNext (fun _ => ?_) h
  refine .bind keepsMem_needSpace fun _ => ?_
  refine .bind keepsMem_needRowWrite fun _ => ?_
  refine .bind keepsMem_ensure fun _ => ?_
  refine .bind keepsMem_readVec fun _ => ?_
  dsimp only
  exact .bind keepsMem_readScalar fun _ => keepsMem_putLanes

theorem nextOk_execVbcst {o : VOps} {s : State} (h : s.memOk) : NextOk (execVbcst o s) :=
  nextOk_moveScalar h

theorem nextOk_execVsel {o : VOps} {int : Bool} {s : State} (h : s.memOk) : NextOk (execVsel o int s) := by
  unfold execVsel
  refine nextOk_issueNext (fun _ => ?_) h
  refine .bind keepsMem_needSpace fun _ => ?_
  refine .bind keepsMem_needRowWrite fun _ => ?_
  refine .bind keepsMem_ensure fun _ => ?_
  refine .bind keepsMem_readVec fun _ => ?_
  dsimp only
  exact .bind keepsMem_readVec fun _ => .bind keepsMem_getMask fun _ => keepsMem_deliverRow

theorem nextOk_execVshuf {o : VOps} {s : State} (h : s.memOk) : NextOk (execVshuf o s) := by
  unfold execVshuf
  refine nextOk_issueNext (fun _ => ?_) h
  refine .bind keepsMem_needSpace fun _ => ?_
  refine .bind keepsMem_needRowWrite fun _ => ?_
  refine .bind keepsMem_ensure fun _ => ?_
  refine .bind keepsMem_readVec fun _ => ?_
  dsimp only
  exact .bind keepsMem_readVec fun _ => keepsMem_putLanes

theorem nextOk_execVrot {o : VOps} {dir : RotDir} {s : State} (h : s.memOk) : NextOk (execVrot o dir s) :=
  nextOk_moveScalar h

theorem nextOk_execVext {o : VOps} {sel : LaneSel} {s : State} (h : s.memOk) : NextOk (execVext o sel s) := by
  unfold execVext
  refine nextOk_issueNext (fun _ => ?_) h
  refine .bind keepsMem_needSpace fun _ => ?_
  refine .bind keepsMem_ensure fun _ => ?_
  refine .bind keepsMem_readVec fun _ => ?_
  dsimp only
  exact .bind keepsMem_readScalar fun _ => keepsMem_deliver

theorem nextOk_execVins {o : VOps} {sel : LaneSel} {s : State} (h : s.memOk) : NextOk (execVins o sel s) := by
  unfold execVins
  refine nextOk_issueNext (fun _ => ?_) h
  refine .bind keepsMem_needSpace fun _ => ?_
  refine .bind keepsMem_needRowWrite fun _ => ?_
  refine .bind keepsMem_ensure fun _ => ?_
  dsimp only
  split
  · exact .bind keepsMem_readFloat fun _ => .bind keepsMem_pure fun _ => .bind keepsMem_readScalar fun _ => .bind keepsMem_oldRow fun _ =>
      keepsMem_deliverRow
  · exact .bind keepsMem_readScalar fun _ => .bind keepsMem_pure fun _ => .bind keepsMem_readScalar fun _ => .bind keepsMem_oldRow fun _ =>
      keepsMem_deliverRow
  · exact .bind keepsMem_readScalar fun _ => .bind keepsMem_pure fun _ => .bind keepsMem_readScalar fun _ => .bind keepsMem_oldRow fun _ =>
      keepsMem_deliverRow

theorem nextOk_execVcmp {o : VOps} {c : Cond} {int x : Bool} {s : State} (h : s.memOk) : NextOk (execVcmp o c int x s) := by
  unfold execVcmp
  refine nextOk_issueNext (fun _ => ?_) h
  refine .bind keepsMem_ensure fun _ => ?_
  refine .bind keepsMem_readVec fun _ => ?_
  dsimp only
  exact .bind keepsMem_readVec fun _ => .bind keepsMem_getMask fun _ => keepsMem_deliverMask

theorem nextOk_execKand {g : Guard} {d : Dest} {ka kb : BitVec 4} {s : State} (h : s.memOk) : NextOk (execKand g d ka kb s) :=
  nextOk_issueNext (fun _ => .bind keepsMem_getMask fun _ => .bind keepsMem_getMask fun _ => keepsMem_deliverMask) h

theorem nextOk_execKor {g : Guard} {d : Dest} {ka kb : BitVec 4} {s : State} (h : s.memOk) : NextOk (execKor g d ka kb s) :=
  nextOk_issueNext (fun _ => .bind keepsMem_getMask fun _ => .bind keepsMem_getMask fun _ => keepsMem_deliverMask) h

theorem nextOk_execKnot {g : Guard} {d : Dest} {ka : BitVec 4} {s : State} (h : s.memOk) : NextOk (execKnot g d ka s) :=
  nextOk_issueNext (fun _ => .bind keepsMem_getMask fun _ => keepsMem_deliverMask) h

theorem nextOk_execKpopc {g : Guard} {d : Dest} {ka : BitVec 4} {lw : Bool} {k : BitVec 4} {s : State} (h : s.memOk) :
    NextOk (execKpopc g d ka lw k s) :=
  nextOk_issueNext (fun _ => .bind keepsMem_needSpace fun _ => .bind keepsMem_getMask fun _ => .bind keepsMem_getMask fun _ => keepsMem_deliver) h

theorem keepsMem_laneDraws {u : Cur} {r : Rnd} {inc : List Bool} : (laneDraws u r inc).KeepsMem :=
  keepsMem_ite (.bind keepsMem_takeDraws fun _ => keepsMem_pure) keepsMem_pure

theorem nextOk_execVcvt {o : ROps1} {k : BitVec 4} {c : VCvtKind} {s : State} (h : s.memOk) : NextOk (execVcvt o k c s) := by
  unfold execVcvt
  refine nextOk_issueNext (fun _ => ?_) h
  dsimp only
  exact .bind keepsMem_needSpace fun _ => .bind keepsMem_needRowWrite fun _ => .bind keepsMem_ensure fun _ => .bind keepsMem_getMask fun _ => .bind
      keepsMem_laneDraws fun _ => .bind keepsMem_readVec fun _ => .bind keepsMem_oldRow fun _ => .bind keepsMem_setFlags fun _ => keepsMem_deliverRow

theorem nextOk_execVqnt {o : ROps} {k : BitVec 4} {f : QFmt} {r : Rnd} {s : State} (h : s.memOk) : NextOk (execVqnt o k f r s) := by
  unfold execVqnt
  refine nextOk_issueNext (fun _ => ?_) h
  dsimp only
  exact .bind keepsMem_getFmt fun _ => .bind keepsMem_needPrec fun _ => .bind keepsMem_needSpace fun _ => .bind keepsMem_needRowWrite fun _ =>
      .bind keepsMem_ensure fun _ => .bind keepsMem_getMask fun _ => .bind keepsMem_laneDraws fun _ => .bind keepsMem_readVec fun _ => .bind
      keepsMem_readVec fun _ => .bind keepsMem_oldRow fun _ => .bind keepsMem_setFlags fun _ => keepsMem_deliverRow

theorem nextOk_execVdq {o : ROps} {k : BitVec 4} {f : QFmt} {s : State} (h : s.memOk) : NextOk (execVdq o k f s) := by
  unfold execVdq
  refine nextOk_issueNext (fun _ => ?_) h
  refine .bind keepsMem_getFmt fun _ => ?_
  refine .bind keepsMem_needSpace fun _ => ?_
  refine .bind keepsMem_needRowWrite fun _ => ?_
  refine .bind keepsMem_ensure fun _ => ?_
  refine .bind keepsMem_readVec fun _ => ?_
  refine .bind keepsMem_readVec fun _ => ?_
  dsimp only
  exact keepsMem_putLanes

theorem nextOk_execVbmax {o : ROps1} {k : BitVec 4} {f : QFmt} {s : State} (h : s.memOk) : NextOk (execVbmax o k f s) := by
  unfold execVbmax
  refine nextOk_issueNext (fun _ => ?_) h
  refine .bind keepsMem_getFmt fun _ => ?_
  refine .bind keepsMem_needSpace fun _ => ?_
  refine .bind keepsMem_needRowWrite fun _ => ?_
  refine .bind keepsMem_ensure fun _ => ?_
  refine .bind keepsMem_getMask fun _ => ?_
  refine .bind keepsMem_readVec fun _ => ?_
  dsimp only
  exact .bind keepsMem_setFlags fun _ => keepsMem_deliverRow

theorem memOk_startRed {s : State} {c : ℕ} {rl : BitVec 2} {op : RedOp} {int lw : Bool} {ls : List (Option ℕ)} (h : s.memOk) :
    (s.startRed c rl op int lw ls).memOk := by
  unfold State.startRed
  dsimp only
  exact memOk_postEarly (memOk_modJob h)

theorem nextOk_execVred {g : Guard} {a : Src} {lw : Bool} {k : BitVec 4} {rl : BitVec 2} {op : RedOp} {int : Bool} {s : State} (h : s.memOk) :
    NextOk (execVred g a lw k rl op int s) :=
  nextOk_issueNext (fun _ => .bind keepsMem_ensure fun _ => .bind keepsMem_getMask fun _ => .bind keepsMem_readVec fun _ => keepsMem_modify fun _
      hs => memOk_startRed hs) h

theorem memOk_landReds {s : State} {c : ℕ} (h : s.memOk) : (s.landReds c).memOk := by
  unfold State.landReds
  split
  · exact h
  · dsimp only
    exact memOk_foldl (fun _ _ hs => memOk_orAsrAt (memOk_modJob hs)) _ (memOk_modJob h)

theorem nextOk_execVredLanding {core : ℕ} {s : State} (h : s.memOk) : NextOk (execVredLanding core s) :=
  nextOk_event (fun _ hs => memOk_landReds hs) h

theorem nextOk_execVrmov {g : Guard} {d : Dest} {rl : BitVec 2} {clr : Option ClrVal} {s : State} (h : s.memOk) :
    NextOk (execVrmov g d rl clr s) := by
  unfold execVrmov
  refine nextOk_issueNext (fun _ => ?_) h
  refine .bind keepsMem_needSpace fun _ => ?_
  refine .bind keepsMem_getJob fun _ => ?_
  refine .bind keepsMem_deliver fun _ => ?_
  split
  · exact keepsMem_modJob
  · exact keepsMem_pure

theorem nextOk_execVscan {o : VOps1} {op : RedOp} {int excl : Bool} {s : State} (h : s.memOk) : NextOk (execVscan o op int excl s) := by
  unfold execVscan
  refine nextOk_issueNext (fun _ => ?_) h
  refine .bind keepsMem_needSpace fun _ => ?_
  refine .bind keepsMem_needRowWrite fun _ => ?_
  refine .bind keepsMem_ensure fun _ => ?_
  refine .bind keepsMem_getMask fun _ => ?_
  refine .bind keepsMem_readVec fun _ => ?_
  dsimp only
  exact keepsMem_ite (keepsMem_get_bind fun _ hs => .bind (keepsMem_set (memOk_drawNat hs)) fun _ => keepsMem_putLanes) (.bind keepsMem_setFlags
      fun _ => keepsMem_putLanes)

theorem keepsMem_takeSfu {u : Cur} {n : ℕ} : (takeSfu u n).KeepsMem :=
  keepsMem_get_bind fun _ hs => .bind keepsMem_holdIf fun _ => keepsMem_set (memOk_modCore hs)

theorem nextOk_execVsfu {o : VOps1} {f : SfuFn} {s : State} (h : s.memOk) : NextOk (execVsfu o f s) := by
  unfold execVsfu
  refine nextOk_issueNext (fun _ => ?_) h
  refine .bind keepsMem_needSpace fun _ => ?_
  refine .bind keepsMem_needRowWrite fun _ => ?_
  refine .bind keepsMem_ensure fun _ => ?_
  refine .bind keepsMem_takeSfu fun _ => ?_
  refine .bind keepsMem_readVec fun _ => ?_
  dsimp only
  exact keepsMem_putLanes

theorem nextOk_execVsmax {o : VOps1} {s : State} (h : s.memOk) : NextOk (execVsmax o s) := by
  unfold execVsmax
  refine nextOk_issueNext (fun _ => ?_) h
  refine .bind keepsMem_needSpace fun _ => ?_
  refine .bind keepsMem_needRowWrite fun _ => ?_
  refine .bind keepsMem_ensure fun _ => ?_
  refine .bind keepsMem_takeSfu fun _ => ?_
  refine .bind keepsMem_getMask fun _ => ?_
  refine .bind keepsMem_readVec fun _ => ?_
  dsimp only
  exact .bind keepsMem_setFlags fun _ => keepsMem_deliverRow

theorem nextOk_execVrng {g : Guard} {d : Dest} {unif lw : Bool} {k : BitVec 4} {s : State} (h : s.memOk) : NextOk (execVrng g d unif lw k s) :=
  nextOk_issueNext (fun _ => .bind keepsMem_needSpace fun _ => .bind keepsMem_needRowWrite fun _ => .bind keepsMem_ensure fun _ => .bind
      keepsMem_takeDraws fun _ => keepsMem_putLanes) h

theorem memOk_noiseServe {s : State} {b : ℕ} (h : s.memOk) : (s.noiseServe b).memOk := by
  unfold State.noiseServe
  dsimp only
  split
  · exact h
  · split
    · exact memOk_modBay (memOk_postOnce h)
    · split
      · exact memOk_postOnce h
      · exact memOk_modBay (memOk_postOnce h)

theorem nextOk_execNoiseGrant {bay : ℕ} {s : State} (h : s.memOk) : NextOk (execNoiseGrant bay s) :=
  nextOk_event (fun _ hs => memOk_noiseServe hs) h

end Sys2Proof.Machine
end

section
/-!
PROOFS. The canonical form of HBM through matrix instructions (O54).
-/

set_option Elab.async false

namespace Sys2Proof.Machine

theorem memOk_leaseAsk {s : State} {c : ℕ} {r : LeaseReq} (h : s.memOk) : (s.leaseAsk c r).memOk :=
  memOk_postOnce (memOk_modBay h)

theorem nextOk_execLease {g : Guard} {nb : Option (BitVec 3)} {s : State} (h : s.memOk) : NextOk (execLease g nb s) := by
  unfold execLease
  refine nextOk_issueNext (fun _ => ?_) h
  dsimp only
  refine keepsMem_get_bind fun _ hs => ?_
  split
  · refine .bind (keepsMem_modify fun _ hs1 => memOk_modBay hs1) fun _ => ?_
    split
    · exact keepsMem_modStrm
    · exact keepsMem_pure
  · refine .bind (keepsMem_modify fun _ hs1 => memOk_modBay hs1) fun _ => ?_
    split
    · exact keepsMem_modStrm
    · exact keepsMem_pure
  · exact keepsMem_keepFor
  · exact keepsMem_keepFor
  · exact .bind keepsMem_trapIf fun _ => .bind keepsMem_getJob fun _ => .bind keepsMem_trapIf fun _ => .bind (keepsMem_modify fun _ hs1 =>
      memOk_leaseAsk hs1) fun _ => keepsMem_keepFor

theorem memOk_leaseServe {s : State} {b : ℕ} (h : s.memOk) : (s.leaseServe b).memOk := by
  unfold State.leaseServe
  dsimp only
  split
  · exact h
  · split
    · exact memOk_ite (memOk_postOnce (memOk_modBay h)) (memOk_modBay h)
    · split
      · exact memOk_ite (memOk_postOnce h) h
      · exact memOk_ite (memOk_postOnce (memOk_modBay h)) (memOk_modBay h)

theorem nextOk_execLeaseGrant {bay : ℕ} {s : State} (h : s.memOk) : NextOk (execLeaseGrant bay s) :=
  nextOk_event (fun _ hs => memOk_leaseServe hs) h

theorem nextOk_execLrel {g : Guard} {s : State} (h : s.memOk) : NextOk (execLrel g s) :=
  nextOk_issueNext (fun _ => keepsMem_modify fun _ hs => memOk_endGrant hs) h

theorem keepsMem_checkOperand {u : Cur} {x : Src} {acc : Bool} {w : ℕ} {e : Extent} : (checkOperand u x acc w e).KeepsMem := by
  unfold checkOperand
  split
  · dsimp only
    exact .bind keepsMem_trapIf fun _ => keepsMem_pure
  · refine .bind keepsMem_getStrm fun _ => ?_
    dsimp only
    refine .bind keepsMem_trapIf fun _ => ?_
    refine .bind keepsMem_trapIf fun _ => ?_
    refine .bind keepsMem_trapIf fun _ => ?_
    refine keepsMem_get_bind fun _ hs => ?_
    split
    · exact keepsMem_raiseTrap
    · exact keepsMem_pure
  · exact keepsMem_pure

theorem keepsMem_checkBlock {u : Cur} {mode : ℕ} {g : Word} {k lines : ℕ} : (checkBlock u mode g k lines).KeepsMem := by
  unfold checkBlock
  split
  · refine .bind keepsMem_trapIf fun _ => ?_
    dsimp only
    refine .bind keepsMem_trapIf fun _ => ?_
    refine keepsMem_get_bind fun _ hs => ?_
    split
    · exact keepsMem_raiseTrap
    · exact keepsMem_pure
  · exact keepsMem_pure

theorem keepsMem_needLease {u : Cur} : (needLease u).KeepsMem := by
  unfold needLease
  refine keepsMem_get_bind fun _ hs => ?_
  dsimp only
  exact keepsMem_trapIf

theorem keepsMem_needDepth {u : Cur} {n : ℕ} : (needDepth u n).KeepsMem :=
  .bind keepsMem_getJob fun _ => keepsMem_trapIf

theorem keepsMem_needArrSlot {u : Cur} : (needArrSlot u).KeepsMem :=
  keepsMem_get_bind fun _ hs => keepsMem_holdIf

theorem memOk_kickArray {s : State} {b : ℕ} (h : s.memOk) : (s.kickArray b).memOk :=
  memOk_ite h (memOk_postEarly h)

theorem memOk_pushArr {s : State} {c : ℕ} {a : ArrCmd} (h : s.memOk) : (s.pushArr c a).memOk := by
  unfold State.pushArr
  dsimp only
  exact memOk_kickArray (memOk_modCore (memOk_newId h))

theorem memOk_issueArr {s : State} {c : ℕ} {a : ArrCmd} (h : s.memOk) : (s.issueArr c a).memOk := by
  unfold State.issueArr
  dsimp only
  exact memOk_pushArr (memOk_modJob (memOk_ite (memOk_endGrant (memOk_modBay h)) (memOk_modBay h)))

theorem keepsMem_mmaBody {u : Cur} {sel : FtSel} {acc : Bool} {a b : Src} {ta tb : Bool} {n ks : ℕ} :
    (mmaBody u sel acc a b ta tb n ks).KeepsMem := by
  unfold mmaBody
  refine .bind keepsMem_ensure fun _ => ?_
  refine .bind keepsMem_needLease fun _ => ?_
  refine .bind keepsMem_getJob fun _ => ?_
  dsimp only
  split
  · exact keepsMem_raiseTrap
  · exact .bind keepsMem_needDepth fun _ => .bind keepsMem_checkOperand fun _ => .bind keepsMem_checkOperand fun _ => .bind keepsMem_checkBlock fun
      _ => .bind keepsMem_checkBlock fun _ => .bind keepsMem_needArrSlot fun _ => keepsMem_get_bind fun _ hs => keepsMem_modify fun _ hs1 =>
      memOk_issueArr hs1

theorem nextOk_execMma {o : MmaOps} {s : State} (h : s.memOk) : NextOk (execMma o s) :=
  nextOk_issueNext (fun _ => keepsMem_mmaBody) h

theorem nextOk_execMmas {o : MmasOps} {s : State} (h : s.memOk) : NextOk (execMmas o s) :=
  nextOk_issueNext (fun _ => keepsMem_mmaBody) h

theorem nextOk_execMzero {g : Guard} {acc : Bool} {s : State} (h : s.memOk) : NextOk (execMzero g acc s) := by
  unfold execMzero
  refine nextOk_issueNext (fun _ => ?_) h
  refine .bind keepsMem_needLease fun _ => ?_
  refine .bind keepsMem_needDepth fun _ => ?_
  refine .bind keepsMem_needArrSlot fun _ => ?_
  refine keepsMem_get_bind fun _ hs => ?_
  dsimp only
  exact keepsMem_modify fun _ hs1 => memOk_issueArr hs1

theorem memOk_kStep {s : State} {c : ℕ} {a : ArrCmd} {n : ℕ} {masks : BitVec 512} (h : s.memOk) : (s.kStep c a n masks).1.memOk := by
  unfold State.kStep
  dsimp only
  exact memOk_modJob h

theorem memOk_modArr {s : State} {c id : ℕ} {f : ArrCmd → ArrCmd} (h : s.memOk) : (s.modArr c id f).memOk :=
  memOk_modCore h

theorem memOk_arrLeave {s : State} {b c id lat : ℕ} (h : s.memOk) : (s.arrLeave b c id lat).memOk := by
  unfold State.arrLeave
  dsimp only
  exact memOk_postEarly (memOk_modBay (memOk_modArr h))

theorem memOk_countStep {s : State} {c : ℕ} (h : s.memOk) : (s.countStep c).memOk :=
  memOk_countCore h

theorem memOk_kickRetire {s : State} {c : ℕ} (h : s.memOk) : (s.kickRetire c).memOk := by
  unfold State.kickRetire
  split
  · exact memOk_ite (memOk_postOnce h) h
  · exact h

theorem memOk_stopGroup {s : State} {b c : ℕ} {a : ArrCmd} {detail : Word} (h : s.memOk) : (s.stopGroup b c a detail).memOk := by
  unfold State.stopGroup
  dsimp only
  exact memOk_takeTrapOf (memOk_kickRetire (memOk_modBay (memOk_modCore h)))

theorem memOk_badMask {s : State} {b c : ℕ} {a : ArrCmd} (h : s.memOk) : (s.badMask b c a).memOk :=
  memOk_stopGroup h

theorem memOk_enterOne {s : State} {b c : ℕ} {a : ArrCmd} (h : s.memOk) : (s.enterOne b c a).1.memOk := by
  unfold State.enterOne
  split
  · dsimp only
    exact memOk_arrLeave (memOk_modJob h)
  · dsimp only
    split
    · split
      · dsimp only
        exact memOk_ite (memOk_postOnce (memOk_modBay h)) (memOk_modBay h)
      · split
        · dsimp only
          exact memOk_badMask h
        · split
          · dsimp only
            exact memOk_arrLeave (memOk_countStep (memOk_modArr (memOk_modBay (memOk_kStep h))))
          · dsimp only
            exact memOk_countStep (memOk_modArr (memOk_modBay (memOk_kStep h)))
    · split
      · dsimp only
        exact memOk_ite (memOk_postOnce (memOk_modBay h)) (memOk_modBay h)
      · split
        · dsimp only
          exact memOk_badMask (memOk_modJob h)
        · split
          · dsimp only
            exact memOk_arrLeave (memOk_countStep (memOk_modArr (memOk_modBay (memOk_kStep (memOk_modJob h)))))
          · dsimp only
            exact memOk_countStep (memOk_modArr (memOk_modBay (memOk_kStep (memOk_modJob h))))
  · exact h

theorem memOk_enterUpTo {b c : Nat} (n : Nat) {a : ArrCmd} {s : State} (h : s.memOk) : (State.enterUpTo b c n a s).memOk := by
  induction n generalizing a s with
  | zero => exact h
  | succ n ih =>
    unfold State.enterUpTo
    split
    · exact ih (memOk_fst (memOk_enterOne h))
    · exact memOk_fst (memOk_enterOne h)

theorem memOk_arrayCycle {s : State} {b : ℕ} (h : s.memOk) : (s.arrayCycle b).memOk := by
  unfold State.arrayCycle
  dsimp only
  split
  · exact h
  · split
    · split
      · exact memOk_drawBit (memOk_postEarly h)
      · split
        · exact memOk_drawBit (memOk_postEarly h)
        · exact memOk_ite (memOk_ite (memOk_countDie (memOk_enterUpTo _ (memOk_drawBit (memOk_postEarly h)))) (memOk_enterUpTo _ (memOk_drawBit
            (memOk_postEarly h)))) (memOk_drawBit (memOk_postEarly h))
    · split
      · dsimp only
        exact memOk_postEarly h
      · split
        · dsimp only
          exact memOk_postEarly h
        · split
          · split
            · refine memOk_countDie ?_
              refine memOk_enterUpTo _ ?_
              dsimp only
              exact memOk_postEarly h
            · refine memOk_enterUpTo _ ?_
              dsimp only
              exact memOk_postEarly h
          · dsimp only
            exact memOk_postEarly h

theorem nextOk_execKStepEntry {bay : ℕ} {s : State} (h : s.memOk) : NextOk (execKStepEntry bay s) :=
  nextOk_event (fun _ hs => memOk_arrayCycle hs) h

theorem memOk_sparsityExpire {s : State} {b : ℕ} (h : s.memOk) : (s.sparsityExpire b).memOk := by
  unfold State.sparsityExpire
  split
  · exact h
  · split
    · exact h
    · exact memOk_stopGroup h

theorem nextOk_execSparsityStallTimeout {bay : ℕ} {s : State} (h : s.memOk) : NextOk (execSparsityStallTimeout bay s) :=
  nextOk_event (fun _ hs => memOk_sparsityExpire hs) h

theorem memOk_arrDone {s : State} {c : ℕ} (h : s.memOk) : (s.arrDone c).memOk := by
  unfold State.arrDone
  dsimp only
  exact memOk_kickRetire (memOk_orAsrAt (memOk_modCore h))

theorem nextOk_execArrayCommandComplete {core : ℕ} {s : State} (h : s.memOk) : NextOk (execArrayCommandComplete core s) :=
  nextOk_event (fun _ hs => memOk_arrDone hs) h

theorem nextOk_execMfmt {g : Guard} {n : BitVec 4} {b : Src} {s : State} (h : s.memOk) : NextOk (execMfmt g n b s) :=
  nextOk_issueNext (fun _ => .bind keepsMem_ensure fun _ => .bind keepsMem_readScalar fun _ => keepsMem_modJob) h

theorem nextOk_execMscl {g : Guard} {n : BitVec 3} {flt : Bool} {b : Src} {s : State} (h : s.memOk) : NextOk (execMscl g n flt b s) := by
  unfold execMscl
  refine nextOk_issueNext (fun _ => ?_) h
  refine .bind keepsMem_ensure fun _ => ?_
  dsimp only
  exact keepsMem_ite (.bind keepsMem_readFloat fun _ => .bind keepsMem_pure fun _ => keepsMem_modJob) (.bind keepsMem_readScalar fun _ =>
      keepsMem_modJob)

theorem keepsMem_localArea {u : Cur} {a : ℤ} {n al : ℕ} : (localArea u a n al).KeepsMem := by
  unfold localArea
  refine .bind keepsMem_areaOf fun _ => ?_
  split
  · exact keepsMem_raiseTrap
  · exact keepsMem_pure

theorem nextOk_execMsq {g : Guard} {n : BitVec 2} {a b : Src} {s : State} (h : s.memOk) : NextOk (execMsq g n a b s) := by
  unfold execMsq
  refine nextOk_issueNext (fun _ => ?_) h
  refine .bind keepsMem_ensure fun _ => ?_
  refine .bind keepsMem_readScalar fun _ => ?_
  dsimp only
  exact .bind keepsMem_readScalar fun _ => .bind keepsMem_trapIf fun _ => .bind keepsMem_localArea fun _ => .bind keepsMem_watch fun _ =>
      keepsMem_get_bind fun _ hs => keepsMem_ite (.bind keepsMem_trapIf fun _ => keepsMem_holdFor) (.bind keepsMem_orderAt fun _ => .bind
      keepsMem_localRead fun _ => keepsMem_modJob)

theorem keepsMem_mretRow {u : Cur} {a : ℤ} {n al : ℕ} : (mretRow u a n al).KeepsMem := by
  unfold mretRow
  refine .bind keepsMem_areaOf fun _ => ?_
  split
  · exact keepsMem_pure
  · exact keepsMem_pure
  · exact .bind keepsMem_getCtx fun _ => .bind (keepsMem_liftF fun _ hs => memOk_translateRange _ _ _ _ _ hs) fun _ => keepsMem_pure

theorem keepsMem_handOver {u : Cur} : (handOver u).KeepsMem :=
  .bind keepsMem_needLogEmpty fun _ => keepsMem_modify fun _ hs => memOk_release _ _ _ hs

theorem keepsMem_takeNumber {u : Cur} {ctr : BitVec 4} : (takeNumber u ctr).KeepsMem := by
  unfold takeNumber
  refine .bind keepsMem_getJob fun _ => ?_
  dsimp only
  exact .bind keepsMem_trapIf fun _ => .bind keepsMem_modJob fun _ => keepsMem_pure

theorem nextOk_execMret {g : Guard} {d : Dest} {ctr : BitVec 4} {acc : Bool} {a b : Src} {s : State} (h : s.memOk) :
    NextOk (execMret g d ctr acc a b s) := by
  unfold execMret
  refine nextOk_issueNext (fun _ => ?_) h
  refine .bind keepsMem_needSpace fun _ => ?_
  refine .bind keepsMem_ensure fun _ => ?_
  refine .bind keepsMem_readScalar fun _ => ?_
  dsimp only
  refine .bind keepsMem_readScalar fun _ => ?_
  refine .bind keepsMem_localArea fun _ => ?_
  refine .bind keepsMem_orderAt fun _ => ?_
  refine .bind keepsMem_watch fun _ => ?_
  refine .bind keepsMem_localRead fun _ => ?_
  refine .bind keepsMem_trapIf fun _ => ?_
  refine .bind keepsMem_getJob fun _ => ?_
  split
  · exact keepsMem_raiseTrap
  · exact .bind keepsMem_trapIf fun _ => keepsMem_ite (.bind keepsMem_localArea fun _ => keepsMem_ite (.bind keepsMem_pure fun _ => .bind
      keepsMem_needArrSlot fun _ => keepsMem_ite (.bind keepsMem_takeDraws fun _ => .bind keepsMem_handOver fun _ => .bind keepsMem_takeNumber fun
      _ => .bind keepsMem_deliver fun _ => keepsMem_get_bind fun _ hs => .bind (keepsMem_modify fun _ hs1 => memOk_pushArr (memOk_endGrant hs1))
      fun _ => .bind keepsMem_modJob fun _ => keepsMem_modify fun _ hs1 => memOk_kickRetire hs1) (.bind keepsMem_pure fun _ => .bind
      keepsMem_handOver fun _ => .bind keepsMem_takeNumber fun _ => .bind keepsMem_deliver fun _ => keepsMem_get_bind fun _ hs => .bind
      (keepsMem_modify fun _ hs1 => memOk_pushArr (memOk_endGrant hs1)) fun _ => .bind keepsMem_modJob fun _ => keepsMem_modify fun _ hs1 =>
      memOk_kickRetire hs1)) (.bind (keepsMem_mapM fun _ => keepsMem_mretRow) fun _ => .bind keepsMem_needArrSlot fun _ => keepsMem_ite (.bind
      keepsMem_takeDraws fun _ => .bind keepsMem_handOver fun _ => .bind keepsMem_takeNumber fun _ => .bind keepsMem_deliver fun _ =>
      keepsMem_get_bind fun _ hs => .bind (keepsMem_modify fun _ hs1 => memOk_pushArr (memOk_endGrant hs1)) fun _ => .bind keepsMem_modJob fun _ =>
      keepsMem_modify fun _ hs1 => memOk_kickRetire hs1) (.bind keepsMem_pure fun _ => .bind keepsMem_handOver fun _ => .bind keepsMem_takeNumber
      fun _ => .bind keepsMem_deliver fun _ => keepsMem_get_bind fun _ hs => .bind (keepsMem_modify fun _ hs1 => memOk_pushArr (memOk_endGrant
      hs1)) fun _ => .bind keepsMem_modJob fun _ => keepsMem_modify fun _ hs1 => memOk_kickRetire hs1))) (keepsMem_ite (.bind keepsMem_pure fun _
      => .bind keepsMem_needArrSlot fun _ => keepsMem_ite (.bind keepsMem_takeDraws fun _ => .bind keepsMem_handOver fun _ => .bind
      keepsMem_takeNumber fun _ => .bind keepsMem_deliver fun _ => keepsMem_get_bind fun _ hs => .bind (keepsMem_modify fun _ hs1 => memOk_pushArr
      (memOk_endGrant hs1)) fun _ => .bind keepsMem_modJob fun _ => keepsMem_modify fun _ hs1 => memOk_kickRetire hs1) (.bind keepsMem_pure fun _
      => .bind keepsMem_handOver fun _ => .bind keepsMem_takeNumber fun _ => .bind keepsMem_deliver fun _ => keepsMem_get_bind fun _ hs => .bind
      (keepsMem_modify fun _ hs1 => memOk_pushArr (memOk_endGrant hs1)) fun _ => .bind keepsMem_modJob fun _ => keepsMem_modify fun _ hs1 =>
      memOk_kickRetire hs1)) (.bind (keepsMem_mapM fun _ => keepsMem_mretRow) fun _ => .bind keepsMem_needArrSlot fun _ => keepsMem_ite (.bind
      keepsMem_takeDraws fun _ => .bind keepsMem_handOver fun _ => .bind keepsMem_takeNumber fun _ => .bind keepsMem_deliver fun _ =>
      keepsMem_get_bind fun _ hs => .bind (keepsMem_modify fun _ hs1 => memOk_pushArr (memOk_endGrant hs1)) fun _ => .bind keepsMem_modJob fun _ =>
      keepsMem_modify fun _ hs1 => memOk_kickRetire hs1) (.bind keepsMem_pure fun _ => .bind keepsMem_handOver fun _ => .bind keepsMem_takeNumber
      fun _ => .bind keepsMem_deliver fun _ => keepsMem_get_bind fun _ hs => .bind (keepsMem_modify fun _ hs1 => memOk_pushArr (memOk_endGrant
      hs1)) fun _ => .bind keepsMem_modJob fun _ => keepsMem_modify fun _ hs1 => memOk_kickRetire hs1)))

theorem memOk_putRow {s : State} {c ctx : ℕ} {d : RowDst} {bs : List (Byte × Byte)} (h : s.memOk) : (s.putRow c ctx d bs).memOk := by
  unfold State.putRow
  split
  · exact memOk_spadWrite h
  · exact memOk_clusterWrite h
  · refine memOk_foldl_fst (fun _ _ hs => ?_) _ h
    dsimp only
    exact memOk_sendBytes _ _ _ _ _ hs

theorem memOk_retireStart {s : State} {c : ℕ} (h : s.memOk) : (s.retireStart c).memOk := by
  unfold State.retireStart
  split
  · split
    · exact h
    · split
      · dsimp only
        refine memOk_post ?_
        refine memOk_modArr ?_
        refine memOk_foldl_fst (fun _ _ hs => ?_) _ ?_
        · split
          · dsimp only
            exact memOk_modJob hs
          · dsimp only
            exact memOk_putRow hs
        · dsimp only
          split
          · exact memOk_takeTrapOf (memOk_poisonError h)
          · exact h
      · exact h
  · exact h

theorem nextOk_execRetirementStart {core : ℕ} {s : State} (h : s.memOk) : NextOk (execRetirementStart core s) :=
  nextOk_event (fun _ hs => memOk_retireStart hs) h

theorem memOk_retireDone {s : State} {c : ℕ} (h : s.memOk) : (s.retireDone c).memOk := by
  unfold State.retireDone
  split
  · split
    · split
      · exact h
      · split
        · exact memOk_postOnce h
        · dsimp only
          exact memOk_kickRetire (memOk_completeNum (memOk_orAsrAt (memOk_modCore h)))
    · exact h
  · exact h

theorem nextOk_execRetirementComplete {core : ℕ} {s : State} (h : s.memOk) : NextOk (execRetirementComplete core s) :=
  nextOk_event (fun _ hs => memOk_retireDone hs) h

end Sys2Proof.Machine
end

section
/-!
PROOFS. The canonical form of HBM through landings (O54).
-/

set_option Elab.async false

namespace Sys2Proof.Machine

theorem nextOk_execLtag {o : COps} {s : State} (h : s.memOk) : NextOk (execLtag o s) := by
  unfold execLtag
  refine nextOk_issueNext (fun _ => ?_) h
  refine .bind keepsMem_needSpace fun _ => ?_
  refine .bind keepsMem_ensure fun _ => ?_
  refine .bind keepsMem_readScalar fun _ => ?_
  refine .bind keepsMem_getCtx fun _ => ?_
  refine keepsMem_get_bind fun _ hs => ?_
  split
  · exact keepsMem_pure
  · split
    · split
      · exact keepsMem_raiseTrap
      · exact .bind keepsMem_modStrm fun _ => keepsMem_deliver
    · dsimp only
      refine .bind (keepsMem_modify fun _ hs1 => memOk_modTag hs1) fun _ => ?_
      split
      · exact keepsMem_deliver
      · exact .bind keepsMem_modStrm fun _ => keepsMem_deliver

theorem nextOk_execLfree {g : Guard} {a : Src} {s : State} (h : s.memOk) : NextOk (execLfree g a s) := by
  unfold execLfree
  refine nextOk_issueNext (fun _ => ?_) h
  refine .bind keepsMem_ensure fun _ => ?_
  refine .bind keepsMem_readScalar fun _ => ?_
  dsimp only
  exact .bind keepsMem_getCtx fun _ => keepsMem_get_bind fun _ hs => .bind keepsMem_trapIf fun _ => .bind keepsMem_holdIf fun _ => keepsMem_modify
      fun _ hs1 => memOk_modTag hs1

theorem nextOk_execLstat {g : Guard} {d : Dest} {a : Src} {s : State} (h : s.memOk) : NextOk (execLstat g d a s) := by
  unfold execLstat
  refine nextOk_issueNext (fun _ => ?_) h
  refine .bind keepsMem_needSpace fun _ => ?_
  refine .bind keepsMem_ensure fun _ => ?_
  refine .bind keepsMem_readScalar fun _ => ?_
  dsimp only
  refine .bind keepsMem_getCtx fun _ => ?_
  refine keepsMem_get_bind fun _ hs => ?_
  split
  · exact keepsMem_pure
  · exact .bind keepsMem_trapIf fun _ => keepsMem_deliver

theorem nextOk_execLdesc {g : Guard} {a b : Src} {s : State} (h : s.memOk) : NextOk (execLdesc g a b s) := by
  unfold execLdesc
  refine nextOk_issueNext (fun _ => ?_) h
  refine .bind keepsMem_ensure fun _ => ?_
  refine .bind keepsMem_readScalar fun _ => ?_
  dsimp only
  refine .bind keepsMem_readScalar fun _ => ?_
  refine .bind keepsMem_localArea fun _ => ?_
  refine .bind keepsMem_orderAt fun _ => ?_
  refine .bind keepsMem_watch fun _ => ?_
  refine .bind keepsMem_localRead fun _ => ?_
  refine .bind keepsMem_getCtx fun _ => ?_
  refine keepsMem_get_bind fun _ hs => ?_
  split
  · exact keepsMem_pure
  · exact .bind keepsMem_trapIf fun _ => .bind keepsMem_trapIf fun _ => .bind keepsMem_trapIf fun _ => .bind keepsMem_trapIf fun _ => .bind
      keepsMem_handOver fun _ => .bind (keepsMem_liftF fun _ hs1 => memOk_frontWrite _ _ _ hs1) fun _ => keepsMem_modify fun _ hs1 => memOk_modTag hs1

theorem memOk_sendFrag {s : State} {c : ℕ} {p : Parcel} {nb : Bool} (h : s.memOk) : (s.sendFrag c p nb).memOk := by
  unfold State.sendFrag
  dsimp only
  exact memOk_post (memOk_modCore (memOk_newId h))

theorem nextOk_execLsend {g : Guard} {row : BitVec 7} {b : Src} {nb : Option (BitVec 3)} {s : State} (h : s.memOk) :
    NextOk (execLsend g row b nb s) := by
  unfold execLsend
  refine nextOk_issueNext (fun u => .bind keepsMem_getStrm fun v => ?_) h
  split
  · exact keepsMem_modStrm
  · refine keepsMem_get_bind fun s _ => ?_
    extract_lets isLit rows unsent
    have hunsent : ∀ r, (unsent r).KeepsMem := fun _ => by
      refine .bind keepsMem_ensure fun _ => .bind keepsMem_readScalar fun w => ?_
      extract_lets t fi
      refine keepsMem_get_bind fun s _ => ?_
      extract_lets described
      have hdescribed : ∀ r, (described r).KeepsMem := fun _ => by
        refine .bind keepsMem_getCtx fun ctx => ?_
        split
        · exact keepsMem_pure
        refine .bind keepsMem_trapIf fun _ => .bind keepsMem_trapIf fun _ => ?_
        split
        · exact keepsMem_raiseTrap
        rename_i d _
        extract_lets f
        refine .bind keepsMem_trapIf fun _ => .bind keepsMem_getJob fun j => ?_
        extract_lets p checked
        have hchecked : ∀ r, (checked r).KeepsMem := fun _ => by
          refine .bind keepsMem_holdIf fun _ => ?_
          split
          · exact .bind keepsMem_holdIf fun _ => .bind keepsMem_handOver fun _ => keepsMem_modify fun _ hs => memOk_sendFrag hs
          · exact keepsMem_ite keepsMem_modStrm (.bind keepsMem_handOver fun _ => .bind (keepsMem_modify fun _ hs => memOk_sendFrag hs)
              fun _ => keepsMem_keepFor)
        refine keepsMem_ite ?_ (hchecked ())
        split
        · exact .bind keepsMem_raiseTrap hchecked
        · exact .bind keepsMem_trapIf hchecked
      exact keepsMem_when keepsMem_askFor hdescribed
    exact keepsMem_when keepsMem_keepFor hunsent

theorem memOk_putEntry {s : State} {p : Parcel} {land e : Nat} (h : s.memOk) : (s.putEntry p land e).1.memOk := by
  obtain ⟨bs, hbs⟩ : ∃ bs, orphBytes p 0 land ++ leBytes p.rows.toNat 4608 = bs := ⟨_, rfl⟩
  unfold State.putEntry
  rw [hbs]
  split
  · exact h
  · rename_i x _
    have h1 := memOk_frontWrite p.ctx (x.ovfAddr e) bs h
    dsimp only
    split
    · exact h1
    · exact memOk_modCtx h1

theorem memOk_entryRows {s : State} {ctx e : Nat} (h : s.memOk) : (s.entryRows ctx e).1.memOk := by
  obtain ⟨n, hn⟩ : ∃ n, 4608 = n := ⟨_, rfl⟩
  unfold State.entryRows
  rw [hn]
  split
  · exact h
  · rename_i x _
    have h1 := memOk_frontRead ctx (x.ovfAddr e + 32) n h
    dsimp only
    split <;> exact h1

theorem memOk_landFault {s : State} {ctx : ℕ} {e : AccFault} (h : s.memOk) : (s.landFault ctx e).1.memOk := by
  unfold State.landFault
  dsimp only
  exact memOk_frontTrap h

theorem memOk_placeOp {s : State} {n : ℕ} {p : Parcel} (h : s.memOk) : (s.placeOp n p).1.memOk := by
  unfold State.placeOp
  split
  · exact h
  · dsimp only
    split
    · exact h
    · split
      · dsimp only
        exact memOk_putEntry h
      · dsimp only
        exact memOk_countDie (memOk_modLanding (memOk_putEntry h))

theorem memOk_partNumber {s : State} {ctx : ℕ} {d : LandDesc} {part q : ℕ} {clk : Tbl ℕ} {err : Bool} (h : s.memOk) :
    (s.partNumber ctx d part q clk err).memOk := by
  unfold State.partNumber
  split
  · dsimp only
    exact memOk_modDie (memOk_modJob (memOk_ite h (memOk_takeTrapOf h)))
  · split
    · exact memOk_modCtx h
    · exact h

theorem memOk_partLost {s : State} {n : ℕ} {p : Parcel} {d : LandDesc} {part q : ℕ} (h : s.memOk) : (s.partLost n p d part q).memOk := by
  unfold State.partLost
  dsimp only
  exact memOk_error _ _ _ _ _ _ _ (memOk_modTag h)

theorem memOk_orphanMark {s : State} {p : Parcel} (h : s.memOk) : (s.orphanMark p).memOk := by
  unfold State.orphanMark
  split
  · exact h
  · dsimp only
    split
    · exact memOk_modTag h
    · exact memOk_foldl (fun _ _ hs => memOk_partNumber hs) _ (memOk_modTag h)

theorem memOk_queueOrphan {s : State} {n : ℕ} {p : Parcel} {place : Option (OpPlace × ℕ)} {why : ℕ} (h : s.memOk) :
    (s.queueOrphan n p place why).1.memOk := by
  unfold State.queueOrphan
  split
  · exact h
  · dsimp only
    split
    · dsimp only
      exact memOk_modTag h
    · split
      · exact h
      · split
        · dsimp only
          exact memOk_frontWrite _ _ _ h
        · split
          · dsimp only
            split
            · exact memOk_putEntry (memOk_frontWrite _ _ _ h)
            · dsimp only
              exact memOk_frontWrite _ _ _ h
          · dsimp only
            refine memOk_modCtx ?_
            split
            · exact memOk_putEntry (memOk_frontWrite _ _ _ h)
            · dsimp only
              exact memOk_frontWrite _ _ _ h

theorem memOk_setOp {s : State} {n id : ℕ} {f : Operand → Option Operand} (h : s.memOk) : (s.setOp n id f).memOk :=
  memOk_modLanding h

theorem memOk_moveOrphan {s : State} {o : Operand} (h : s.memOk) : (s.moveOrphan o).1.memOk := by
  unfold State.moveOrphan
  split
  · exact h
  · dsimp only
    split
    · dsimp only
      exact memOk_putEntry h
    · dsimp only
      exact memOk_modCtx (memOk_putEntry h)

theorem memOk_retryOrphan {s : State} {o : Operand} (h : s.memOk) : (s.retryOrphan o).memOk := by
  unfold State.retryOrphan
  split
  · exact h
  · split
    · exact h
    · dsimp only
      split
      · refine memOk_setOp ?_
        split
        · exact memOk_moveOrphan h
        · exact memOk_queueOrphan h
      · refine memOk_setOp ?_
        split
        · exact memOk_moveOrphan h
        · exact memOk_queueOrphan h
      · split
        · exact memOk_moveOrphan h
        · exact memOk_queueOrphan h
      · exact memOk_setOp (memOk_landFault h)

theorem memOk_moveHeld {s : State} {d : Delivery} (h : s.memOk) : (s.moveHeld d).memOk := by
  unfold State.moveHeld
  split
  · split
    · exact h
    · dsimp only
      split
      · dsimp only [State.memOk]
        exact memOk_putEntry h
      · dsimp only [State.memOk]
        exact memOk_landFault h
  · exact h

theorem memOk_settleLand {s : State} {ctx : ℕ} (h : s.memOk) : (s.settleLand ctx).memOk := by
  unfold State.settleLand
  dsimp only
  exact memOk_foldl (fun _ _ hs => memOk_moveHeld hs) _ (memOk_foldl (fun _ _ hs => memOk_retryOrphan hs) _ h)

theorem memOk_freeEntryAt {s : State} {ctx e : ℕ} (h : s.memOk) : (s.freeEntryAt ctx e).memOk :=
  memOk_modCtx h

theorem memOk_expireOp {s : State} {id : ℕ} (h : s.memOk) : (s.expireOp id).memOk := by
  unfold State.expireOp
  split
  · exact h
  · split
    · exact h
    · dsimp only
      exact memOk_foldl (fun _ _ hs => memOk_orphanMark (memOk_retryOrphan (memOk_setOp hs))) _ h

theorem nextOk_execOrphanTimeout {id : ℕ} {s : State} (h : s.memOk) : NextOk (execOrphanTimeout id s) :=
  nextOk_event (fun _ hs => memOk_expireOp hs) h

theorem memOk_combineNow {s : State} {del : Delivery} {a b : Parcel} (h : s.memOk) : (s.combineNow del a b).memOk := by
  unfold State.combineNow
  split
  · exact memOk_upd h
  · dsimp only
    refine memOk_post ?_
    dsimp only [State.memOk]
    exact memOk_modTag h

theorem memOk_arrive {s : State} {n : ℕ} {p : Parcel} (h : s.memOk) : (s.arrive n p).1.memOk := by
  unfold State.arrive
  split
  · exact h
  · dsimp only
    split
    · split
      · dsimp only
        exact memOk_queueOrphan (memOk_countDie h)
      · dsimp only
        exact memOk_orphanMark (memOk_queueOrphan (memOk_countDie h))
      · split
        · dsimp only
          exact memOk_placeOp (memOk_queueOrphan (memOk_countDie h))
        · dsimp only
          exact memOk_placeOp (memOk_queueOrphan (memOk_countDie h))
        · dsimp only
          exact memOk_orphanMark (memOk_retryOrphan (memOk_modLanding (memOk_newId (memOk_placeOp (memOk_queueOrphan (memOk_countDie h))))))
    · split
      · split
        · dsimp only
          exact memOk_combineNow (memOk_newId (memOk_modLanding (memOk_countDie h)))
        · dsimp only
          refine memOk_post ?_
          dsimp only [State.memOk]
          exact memOk_newId (memOk_modLanding (memOk_countDie h))
      · split
        · dsimp only
          exact memOk_placeOp (memOk_countDie h)
        · dsimp only
          exact memOk_placeOp (memOk_countDie h)
        · dsimp only
          exact memOk_postEarly (memOk_modLanding (memOk_newId (memOk_placeOp (memOk_countDie h))))

theorem memOk_setFrag {s : State} {c id : ℕ} {f : Frag → Frag} (h : s.memOk) : (s.setFrag c id f).memOk :=
  memOk_modCore h

theorem memOk_handleArrival {s : State} {n c : ℕ} {f : Frag} (h : s.memOk) : (s.handleArrival n c f).memOk := by
  unfold State.handleArrival
  dsimp only
  split
  · exact memOk_setFrag (memOk_landFault h)
  · exact memOk_post (memOk_ite (memOk_modCore (memOk_setFrag (memOk_modLanding (memOk_arrive h)))) (memOk_setFrag (memOk_modLanding (memOk_arrive
      h))))

theorem memOk_fragArrive {s : State} {id : ℕ} (h : s.memOk) : (s.fragArrive id).memOk := by
  unfold State.fragArrive
  split
  · exact h
  · split
    · exact h
    · split
      · exact h
      · dsimp only
        split
        · exact memOk_ite (memOk_post (memOk_drawBit h)) (memOk_ite (memOk_post (memOk_modLanding (memOk_drawBit h))) (memOk_ite (memOk_post
            (memOk_drawBit h)) (memOk_handleArrival (memOk_drawBit h))))
        · exact memOk_ite (memOk_post h) (memOk_ite (memOk_post (memOk_modLanding h)) (memOk_ite (memOk_post h) (memOk_handleArrival h)))

theorem nextOk_execFragmentArrival {id : ℕ} {s : State} (h : s.memOk) : NextOk (execFragmentArrival id s) :=
  nextOk_event (fun _ hs => memOk_fragArrive hs) h

theorem memOk_fragAnswer {s : State} {id : ℕ} (h : s.memOk) : (s.fragAnswer id).memOk := by
  unfold State.fragAnswer
  split
  · exact h
  · split
    · exact h
    · split
      · exact memOk_post h
      · dsimp only
        exact memOk_ite (memOk_modStrm (memOk_modCore h)) (memOk_modCore h)

theorem nextOk_execFragmentAnswer {id : ℕ} {s : State} (h : s.memOk) : NextOk (execFragmentAnswer id s) :=
  nextOk_event (fun _ hs => memOk_fragAnswer hs) h

theorem memOk_fragResend {s : State} {id : ℕ} (h : s.memOk) : (s.fragResend id).memOk := by
  unfold State.fragResend
  split
  · exact h
  · exact memOk_ite (memOk_post (memOk_setFrag h)) h

theorem nextOk_execFragmentResend {id : ℕ} {s : State} (h : s.memOk) : NextOk (execFragmentResend id s) :=
  nextOk_event (fun _ hs => memOk_fragResend hs) h

theorem memOk_setDel {s : State} {id : ℕ} {f : Delivery → Delivery} (h : s.memOk) : (s.setDel id f).memOk :=
  memOk_upd h

theorem memOk_readback {s : State} {id : ℕ} (h : s.memOk) : (s.readback id).memOk := by
  unfold State.readback
  split
  · exact h
  · split
    · exact h
    · split
      · exact h
      · dsimp only
        split
        · exact memOk_post (memOk_drawBit h)
        · split
          · exact memOk_setDel (memOk_landFault (memOk_drawBit h))
          · exact memOk_ite (memOk_combineNow (memOk_entryRows (memOk_drawBit h))) (memOk_settleLand (memOk_combineNow (memOk_freeEntryAt
              (memOk_entryRows (memOk_drawBit h)))))

theorem nextOk_execOverflowReadback {id : ℕ} {s : State} (h : s.memOk) : NextOk (execOverflowReadback id s) :=
  nextOk_event (fun _ hs => memOk_readback hs) h

theorem memOk_heldRows {s : State} {d : Delivery} (h : s.memOk) : (s.heldRows d).1.memOk := by
  unfold State.heldRows
  split
  · exact memOk_entryRows h
  · exact h

theorem memOk_freeHeld {s : State} {d : Delivery} (h : s.memOk) : (s.freeHeld d).memOk := by
  unfold State.freeHeld
  split
  · exact memOk_settleLand (memOk_freeEntryAt h)
  · exact h

theorem memOk_restDelivery {s : State} {id : ℕ} (h : s.memOk) : (s.restDelivery id).memOk := by
  unfold State.restDelivery
  split
  · exact h
  · dsimp only
    split
    · split
      · refine memOk_settleLand ?_
        refine memOk_freeHeld ?_
        dsimp only [State.memOk]
        split
        · exact memOk_setDel (memOk_freeEntryAt h)
        · exact h
      · refine memOk_freeHeld ?_
        dsimp only [State.memOk]
        split
        · exact memOk_setDel (memOk_freeEntryAt h)
        · exact h
    · split
      · split
        · exact memOk_setDel (memOk_freeEntryAt h)
        · exact h
      · split
        · refine memOk_setDel ?_
          split
          · exact memOk_setDel (memOk_freeEntryAt h)
          · exact h
        · split
          · refine memOk_setDel ?_
            refine memOk_putEntry ?_
            split
            · exact memOk_setDel (memOk_freeEntryAt h)
            · exact h
          · refine memOk_setDel ?_
            refine memOk_landFault ?_
            split
            · exact memOk_setDel (memOk_freeEntryAt h)
            · exact h

theorem memOk_sortParts {s : State} {dl : Delivery} {d : LandDesc} {part : ℕ} (h : s.memOk) : (s.sortParts dl d part).1.memOk := by
  unfold State.sortParts
  dsimp only
  refine memOk_foldl_fst (fun _ _ hs => ?_) _ h
  split
  · split
    · exact hs
    · dsimp only
      exact memOk_partNumber (memOk_partLost hs)
  · split
    · exact hs
    · dsimp only
      exact memOk_partLost hs

theorem memOk_landWrite {s : State} {c off : ℕ} {bs : List Byte} (h : s.memOk) : (s.landWrite c off bs).memOk := by
  unfold State.landWrite
  dsimp only
  split
  · exact memOk_spadWrite h
  · split
    · exact memOk_takeTrapOf (memOk_spadWrite h)
    · exact memOk_spadWrite h

theorem memOk_deliveryCycle {s : State} {id : Nat} (h : s.memOk) : (s.deliveryCycle id).memOk := by
  unfold State.deliveryCycle
  split
  · exact h
  rename_i dl _
  split
  · exact h
  split
  · exact h
  extract_lets d
  refine memOk_ite h ?_
  split
  rename_i s1 dl1 e1
  have h1 : s1.memOk := memOk_fst (by split <;> exact h) e1
  extract_lets start
  split
  rename_i s2 r e2
  have h2 : s2.memOk := by
    refine memOk_fst ?_ e2
    split
    · split
      rename_i s3 go keep e3
      have h3 : s3.memOk := memOk_fst (memOk_sortParts h1) e3
      split
      · exact h3
      · split
        rename_i s4 rows e4
        have h4 : s4.memOk := memOk_fst (memOk_heldRows h3) e4
        split
        · exact h4
        · split
          rename_i s5 ds e5
          exact memOk_modTag (memOk_fst (memOk_sourceDraws h4) e5)
    · exact h1
  clear e1 e2
  split
  · split
    rename_i e3
    exact memOk_setDel (memOk_fst (memOk_landFault h2) e3)
  · refine memOk_ite (memOk_restDelivery (memOk_setDel h2)) (memOk_ite (memOk_restDelivery (memOk_setDel ?_)) (memOk_postOnce ?_))
    · exact memOk_foldl (fun _ _ hs => memOk_partNumber hs) _ h2
    · refine memOk_foldl (fun s q hs => ?_) _ (memOk_setDel h2)
      split
      · exact memOk_foldl (fun _ _ hs => memOk_landWrite hs) _ hs
      · exact hs

theorem nextOk_execLandingDelivery {id : ℕ} {s : State} (h : s.memOk) : NextOk (execLandingDelivery id s) :=
  nextOk_event (fun _ hs => memOk_deliveryCycle hs) h

theorem memOk_kickHeld {s : State} {ctx : ℕ} (h : s.memOk) : (s.kickHeld ctx).memOk :=
  memOk_foldl (fun _ _ hs => memOk_postOnce hs) _ h

theorem nextOk_execLorph {g : Guard} {d : Dest} {a : Src} {s : State} (h : s.memOk) : NextOk (execLorph g d a s) := by
  obtain ⟨n, hn⟩ : ∃ n, 4608 = n := ⟨_, rfl⟩
  unfold execLorph
  rw [hn]
  refine nextOk_issueNext (fun u => ?_) h
  refine .bind keepsMem_needSpace fun _ => .bind keepsMem_ensure fun _ => .bind keepsMem_readScalar fun w => ?_
  refine .bind keepsMem_getCtx fun ctx => keepsMem_get_bind fun s _ => ?_
  split
  · exact keepsMem_pure
  · split
    · exact keepsMem_deliver
    · refine .bind keepsMem_areaOf fun ar => ?_
      split
      · refine .bind keepsMem_watch fun _ => .bind (keepsMem_liftF fun _ hs => memOk_frontRead _ _ _ hs) fun b => ?_
        extract_lets jp
        have hjp : ∀ r, (jp r).KeepsMem := fun r => by
          refine .bind (keepsMem_modify fun _ hs => memOk_spadWrite hs) fun _ => .bind (keepsMem_modify fun s hs => memOk_settleLand ?_) fun _ =>
            keepsMem_deliver
          split
          · exact memOk_freeEntryAt (memOk_modCtx hs)
          · exact memOk_foldl (fun _ _ hs => memOk_setOp hs) _ (memOk_modCtx hs)
        clear_value jp
        split
        · exact .bind (keepsMem_liftF fun _ hs => memOk_frontRead _ _ _ hs) fun _ => hjp _
        · exact keepsMem_get_bind fun _ _ => hjp _
      · exact keepsMem_raiseTrap

end Sys2Proof.Machine
end

section
/-!
PROOFS. The canonical form of HBM through copy engines (O54).
-/

set_option Elab.async false

namespace Sys2Proof.Machine

theorem memOk_modCe {s : State} {c : ℕ} {f : CopyEng → CopyEng} (h : s.memOk) : (s.modCe c f).memOk :=
  memOk_modJob h

theorem memOk_ceTrap {s : State} {c : ℕ} {t : Trap} (h : s.memOk) : (s.ceTrap c t).memOk :=
  memOk_takeTrapOf h

theorem memOk_ceFault {s : State} {c : ℕ} {e : AccFault} (h : s.memOk) : (s.ceFault c e).memOk := by
  unfold State.ceFault
  dsimp only
  exact memOk_ceTrap (memOk_ite (memOk_poisonError h) h)

theorem memOk_ceReach {s : State} {c : ℕ} (h : s.memOk) : (s.ceReach c).memOk := by
  unfold State.ceReach
  split
  · exact h
  · dsimp only
    split
    · exact memOk_ceTrap h
    · split
      · exact memOk_ceFault h
      · exact memOk_ite (memOk_ceTrap h) (memOk_postOnce (memOk_modCe h))

theorem memOk_ceGoto {s : State} {c i : ℕ} (h : s.memOk) : (s.ceGoto c i).memOk :=
  memOk_ceReach (memOk_modCe h)

theorem memOk_ceAct {s : State} {c k : Nat} {f : BitVec 256 → State → State} (hf : ∀ raw s, s.memOk → (f raw s).memOk) (h : s.memOk) :
    (s.ceAct c k f).memOk := by
  unfold State.ceAct
  split
  · exact h
  · split
    · exact memOk_ite (hf _ _ h) h
    · exact h

theorem memOk_ceOrdered {s : State} {c k : Nat} {f : BitVec 256 → State → State} (hf : ∀ raw s, s.memOk → (f raw s).memOk) (h : s.memOk) :
    (s.ceOrdered c k f).memOk :=
  memOk_ceAct (fun _ _ hs => memOk_ite hs (memOk_ite (hf _ _ hs) (memOk_postOnce hs))) h

theorem memOk_ceReadMem {s : State} {c va : ℕ} {ps : List (ℕ × ℕ)} (h : s.memOk) : (s.ceReadMem c va ps).1.memOk := by
  unfold State.ceReadMem
  dsimp only
  refine memOk_foldl_fst (fun _ _ hs => ?_) _ h
  refine memOk_foldl_fst (fun _ _ hs1 => ?_) _ hs
  split
  · exact hs1
  · split
    · split
      · dsimp only
        exact memOk_lineError _ _ _ _ (memOk_homeRead _ _ _ _ _ _ _ hs1)
      · dsimp only
        exact memOk_modCe (memOk_homeRead _ _ _ _ _ _ _ hs1)
    · dsimp only
      exact memOk_upd hs1

theorem memOk_ceRead {s : State} {c : ℕ} {a : ℤ} {n al : ℕ} (h : s.memOk) : (s.ceRead c a n al).1.memOk := by
  unfold State.ceRead
  split
  · exact h
  · dsimp only
    split
    · dsimp only
      exact memOk_translateRange _ _ _ _ _ h
    · split
      · dsimp only
        exact memOk_ceReadMem (memOk_translateRange _ _ _ _ _ h)
      · dsimp only
        exact memOk_ceReadMem (memOk_translateRange _ _ _ _ _ h)
  · split
    · dsimp only
      exact memOk_poisonError h
    · exact h

theorem memOk_ceDst {s : State} {c : ℕ} {a : ℤ} {n al : ℕ} (h : s.memOk) : (s.ceDst c a n al).1.memOk := by
  unfold State.ceDst
  split
  · exact h
  · exact h
  · exact h
  · dsimp only
    split
    · dsimp only
      exact memOk_translateRange _ _ _ _ _ h
    · dsimp only
      exact memOk_translateRange _ _ _ _ _ h

theorem memOk_cePut {s : State} {c : ℕ} {d : RowDst} {bs : List Byte} (h : s.memOk) : (s.cePut c d bs).memOk := by
  unfold State.cePut
  split
  · dsimp only
    split
    · exact memOk_ceTrap (memOk_spadWrite h)
    · exact memOk_spadWrite h
  · exact memOk_clusterWrite h
  · refine memOk_foldl_fst (fun _ _ hs => ?_) _ h
    dsimp only
    exact memOk_sendBytes _ _ _ _ _ hs

theorem memOk_ceRelease {s : State} {c : ℕ} {scope : Scope} (h : s.memOk) : (s.ceRelease c scope).memOk :=
  memOk_release _ _ _ h

theorem memOk_ceAcquire {s : State} {c : ℕ} {scope : Scope} (h : s.memOk) : (s.ceAcquire c scope).memOk := by
  unfold State.ceAcquire
  split
  · dsimp only
    exact memOk_modCe (memOk_modDie h)
  · exact h

theorem memOk_copyCycle {s : State} {c : ℕ} (h : s.memOk) : (s.copyCycle c).memOk := by
  unfold State.copyCycle
  refine memOk_ceAct (fun _ _ hs => ?_) h
  dsimp only
  split
  · exact memOk_postOnce (memOk_modCe (memOk_cePut hs))
  · split
    · exact hs
    · split
      · exact memOk_ceFault hs
      · exact memOk_ceTrap hs
      · split
        · exact memOk_ceGoto (memOk_modCe hs)
        · split
          · exact memOk_ceTrap (memOk_ceRead (memOk_modCe hs))
          · split
            · exact memOk_ceTrap (memOk_ceDst (memOk_ceRead (memOk_modCe hs)))
            · exact memOk_postOnce (memOk_modCe (memOk_cePut (memOk_ceDst (memOk_ceRead (memOk_modCe hs)))))

theorem nextOk_execChainCopy {core : ℕ} {s : State} (h : s.memOk) : NextOk (execChainCopy core s) :=
  nextOk_event (fun _ hs => memOk_copyCycle hs) h

theorem memOk_loopEntry {s : State} {c : ℕ} (h : s.memOk) : (s.loopEntry c).memOk := by
  unfold State.loopEntry
  refine memOk_ceAct (fun _ _ hs => ?_) h
  split
  · exact hs
  · dsimp only
    exact memOk_ite (memOk_ceTrap hs) (memOk_ite (memOk_ceGoto (memOk_modCe hs)) (memOk_ceGoto (memOk_modCe hs)))

theorem nextOk_execChainLoop {core : ℕ} {s : State} (h : s.memOk) : NextOk (execChainLoop core s) :=
  nextOk_event (fun _ hs => memOk_loopEntry hs) h

theorem memOk_ifEntry {s : State} {c : ℕ} (h : s.memOk) : (s.ifEntry c).memOk := by
  unfold State.ifEntry
  refine memOk_ceOrdered (fun _ _ hs => ?_) h
  dsimp only
  split
  · exact memOk_ceGoto hs
  · split
    · exact memOk_ceTrap (memOk_ceRead hs)
    · exact memOk_ceGoto (memOk_ceRead hs)

theorem nextOk_execChainIf {core : ℕ} {s : State} (h : s.memOk) : NextOk (execChainIf core s) :=
  nextOk_event (fun _ hs => memOk_ifEntry hs) h

theorem memOk_ceWait {s : State} {c : ℕ} {w : Wait} (h : s.memOk) : (s.ceWait c w).memOk := by
  unfold State.ceWait
  dsimp only
  split
  · split
    · exact memOk_ceTrap (memOk_modCe h)
    · exact memOk_ceTrap (memOk_modCe h)
    · exact memOk_postOnce (memOk_modCe h)
  · exact memOk_postOnce (memOk_modCe h)

theorem memOk_waitEntry {s : State} {c : ℕ} (h : s.memOk) : (s.waitEntry c).memOk := by
  unfold State.waitEntry
  refine memOk_ceOrdered (fun _ _ hs => ?_) h
  dsimp only
  split
  · split
    · exact memOk_ceTrap hs
    · exact memOk_ite (memOk_ceGoto (memOk_ite (memOk_modCore hs) hs)) (memOk_ceWait hs)
  · exact memOk_ite (memOk_ceGoto (memOk_ceAcquire hs)) (memOk_ceWait hs)

theorem nextOk_execChainWait {core : ℕ} {s : State} (h : s.memOk) : NextOk (execChainWait core s) :=
  nextOk_event (fun _ hs => memOk_waitEntry hs) h

theorem memOk_ceReleaseAll {s : State} {c : ℕ} {scope : Scope} (h : s.memOk) : (s.ceReleaseAll c scope).memOk := by
  unfold State.ceReleaseAll
  dsimp only
  exact memOk_ite (memOk_modCe (memOk_ceRelease h)) (memOk_ceRelease h)

theorem memOk_ceReleased {s : State} {c k : Nat} {scope : Scope} {f : State → State} (hf : ∀ s, s.memOk → (f s).memOk) (h : s.memOk) :
    (s.ceReleased c k scope f).memOk := by
  unfold State.ceReleased
  extract_lets t
  have ht : t.memOk := memOk_ite h (memOk_modCe (memOk_ceReleaseAll h))
  exact memOk_ite (memOk_postOnce ht) (hf _ ht)

theorem memOk_signalCtr {s : State} {c n : ℕ} {scope : Scope} (h : s.memOk) : (s.signalCtr c n scope).memOk := by
  unfold State.signalCtr
  dsimp only
  split
  · exact memOk_ceReleased (fun _ hs => memOk_ceGoto (memOk_completeNum hs)) h
  · exact memOk_ite (memOk_ceTrap h) (memOk_ceReleased (fun _ hs => memOk_ceGoto (memOk_completeNum hs)) (memOk_modCe (memOk_modJob h)))

theorem memOk_signalEntry {s : State} {c : ℕ} (h : s.memOk) : (s.signalEntry c).memOk := by
  unfold State.signalEntry
  refine memOk_ceAct (fun _ _ hs => ?_) h
  split
  · exact hs
  · split
    · exact memOk_postOnce hs
    · dsimp only
      split
      · split
        · exact memOk_ceTrap (memOk_ceDst hs)
        · exact memOk_ceReleased (fun _ hs1 => memOk_ceGoto (memOk_cePut hs1)) (memOk_ceDst hs)
      · exact memOk_signalCtr hs

theorem nextOk_execChainSignal {core : ℕ} {s : State} (h : s.memOk) : NextOk (execChainSignal core s) :=
  nextOk_event (fun _ hs => memOk_signalEntry hs) h

theorem memOk_notifyEntry {s : State} {c : ℕ} (h : s.memOk) : (s.notifyEntry c).memOk := by
  unfold State.notifyEntry
  refine memOk_ceAct (fun _ _ hs => ?_) h
  split
  · exact hs
  · split
    · exact memOk_postOnce hs
    · dsimp only
      split
      · exact memOk_ceTrap hs
      · split
        · exact memOk_ceTrap hs
        · refine memOk_ceReleased (fun _ hs1 => ?_) hs
          split
          · exact memOk_ceGoto (memOk_modCe (memOk_ite hs1 (memOk_completeNum hs1)))
          · exact hs1

theorem nextOk_execChainNotify {core : ℕ} {s : State} (h : s.memOk) : NextOk (execChainNotify core s) :=
  nextOk_event (fun _ hs => memOk_notifyEntry hs) h

theorem memOk_endEntry {s : State} {c : ℕ} (h : s.memOk) : (s.endEntry c).memOk := by
  unfold State.endEntry
  refine memOk_ceOrdered (fun _ _ hs => ?_) h
  dsimp only
  exact memOk_ite (memOk_ceTrap hs) (memOk_ceGoto (memOk_modCe hs))

theorem nextOk_execChainEnd {core : ℕ} {s : State} (h : s.memOk) : NextOk (execChainEnd core s) :=
  nextOk_event (fun _ hs => memOk_endEntry hs) h

theorem memOk_ceResume {s : State} {c : ℕ} (h : s.memOk) : (s.ceResume c).memOk := by
  unfold State.ceResume
  dsimp only
  split
  · exact memOk_ite (memOk_postOnce (memOk_modCe h)) (memOk_modCe h)
  · exact memOk_ceReach (memOk_modCe h)

theorem nextOk_execCego {o : CtrOps} {s : State} (h : s.memOk) : NextOk (execCego o s) := by
  unfold execCego
  refine nextOk_issueNext (fun _ => ?_) h
  refine .bind keepsMem_needSpace fun _ => ?_
  refine .bind keepsMem_ensure fun _ => ?_
  refine .bind keepsMem_readScalar fun _ => ?_
  refine .bind keepsMem_readScalar fun _ => ?_
  dsimp only
  refine .bind keepsMem_areaOf fun _ => ?_
  split
  · refine .bind keepsMem_getJob fun _ => ?_
    split
    · split
      · exact keepsMem_holdFor
      · exact .bind keepsMem_modStrm fun _ => keepsMem_deliver
    · refine .bind keepsMem_handOver fun _ => ?_
      refine .bind keepsMem_takeNumber fun _ => ?_
      refine .bind (keepsMem_modify fun _ hs => memOk_modCe hs) fun _ => ?_
      split
      · refine .bind (keepsMem_modify fun _ hs => memOk_ceGoto hs) fun _ => ?_
        split
        · exact keepsMem_deliver
        · exact .bind keepsMem_modStrm fun _ => keepsMem_deliver
      · split
        · exact keepsMem_deliver
        · exact .bind keepsMem_modStrm fun _ => keepsMem_deliver
  · exact keepsMem_raiseTrap

theorem nextOk_execCestop {g : Guard} {s : State} (h : s.memOk) : NextOk (execCestop g s) := by
  unfold execCestop
  refine nextOk_issueNext (fun _ => ?_) h
  refine .bind keepsMem_getJob fun _ => ?_
  dsimp only
  exact keepsMem_ite (keepsMem_ite (.bind keepsMem_modJob fun _ => .bind keepsMem_keepFor fun _ => keepsMem_ite (.bind (keepsMem_modify fun _ hs =>
      memOk_modCe (memOk_ceReleaseAll hs)) fun _ => .bind keepsMem_getJob fun _ => keepsMem_ite (.bind keepsMem_keepFor fun _ => .bind
      (keepsMem_forIn fun _ _ => keepsMem_ite (.bind (keepsMem_modify fun _ hs => memOk_completeNum hs) fun _ => keepsMem_pure) keepsMem_pure) fun
      _ => keepsMem_modJob) (.bind (keepsMem_forIn fun _ _ => keepsMem_ite (.bind (keepsMem_modify fun _ hs => memOk_completeNum hs) fun _ =>
      keepsMem_pure) keepsMem_pure) fun _ => keepsMem_modJob)) (.bind keepsMem_getJob fun _ => keepsMem_ite (.bind keepsMem_keepFor fun _ => .bind
      (keepsMem_forIn fun _ _ => keepsMem_ite (.bind (keepsMem_modify fun _ hs => memOk_completeNum hs) fun _ => keepsMem_pure) keepsMem_pure) fun
      _ => keepsMem_modJob) (.bind (keepsMem_forIn fun _ _ => keepsMem_ite (.bind (keepsMem_modify fun _ hs => memOk_completeNum hs) fun _ =>
      keepsMem_pure) keepsMem_pure) fun _ => keepsMem_modJob))) (keepsMem_ite (.bind (keepsMem_modify fun _ hs => memOk_modCe (memOk_ceReleaseAll
      hs)) fun _ => .bind keepsMem_getJob fun _ => keepsMem_ite (.bind keepsMem_keepFor fun _ => .bind (keepsMem_forIn fun _ _ => keepsMem_ite
      (.bind (keepsMem_modify fun _ hs => memOk_completeNum hs) fun _ => keepsMem_pure) keepsMem_pure) fun _ => keepsMem_modJob) (.bind
      (keepsMem_forIn fun _ _ => keepsMem_ite (.bind (keepsMem_modify fun _ hs => memOk_completeNum hs) fun _ => keepsMem_pure) keepsMem_pure) fun
      _ => keepsMem_modJob)) (.bind keepsMem_getJob fun _ => keepsMem_ite (.bind keepsMem_keepFor fun _ => .bind (keepsMem_forIn fun _ _ =>
      keepsMem_ite (.bind (keepsMem_modify fun _ hs => memOk_completeNum hs) fun _ => keepsMem_pure) keepsMem_pure) fun _ => keepsMem_modJob)
      (.bind (keepsMem_forIn fun _ _ => keepsMem_ite (.bind (keepsMem_modify fun _ hs => memOk_completeNum hs) fun _ => keepsMem_pure)
      keepsMem_pure) fun _ => keepsMem_modJob)))) keepsMem_pure

theorem nextOk_execCestat {g : Guard} {d : Dest} {s : State} (h : s.memOk) : NextOk (execCestat g d s) := by
  unfold execCestat
  refine nextOk_issueNext (fun _ => ?_) h
  refine .bind keepsMem_needSpace fun _ => ?_
  refine .bind keepsMem_getJob fun _ => ?_
  dsimp only
  exact keepsMem_deliver

end Sys2Proof.Machine
end

section
/-!
PROOFS. The canonical form of HBM through the fabric (O54).
-/

set_option Elab.async false

namespace Sys2Proof.Machine

theorem memOk_readHomes {s : State} {c va : ℕ} {ps : List (ℕ × ℕ)} (h : s.memOk) : (s.readHomes c va ps).1.memOk := by
  unfold State.readHomes
  dsimp only
  refine memOk_foldl_fst (fun _ _ hs => ?_) _ h
  refine memOk_foldl_fst (fun _ _ hs1 => ?_) _ hs
  split
  · exact hs1
  · split
    · split
      · dsimp only
        exact memOk_homeRead _ _ _ _ _ _ _ hs1
      · dsimp only
        exact memOk_homeRead _ _ _ _ _ _ _ hs1
    · dsimp only
      exact memOk_upd hs1

theorem keepsMem_homeBytes {u : Cur} {a : ℤ} {n al : ℕ} : (homeBytes u a n al).KeepsMem := by
  unfold homeBytes
  refine .bind keepsMem_areaOf fun _ => ?_
  refine .bind keepsMem_orderAt fun _ => ?_
  refine .bind keepsMem_watch fun _ => ?_
  split
  · refine .bind keepsMem_handOver fun _ => ?_
    refine .bind (keepsMem_liftF fun _ hs => memOk_translateRange _ _ _ _ _ hs) fun _ => ?_
    refine keepsMem_get_bind fun _ hs => ?_
    dsimp only
    refine .bind (keepsMem_set (memOk_readHomes hs)) fun _ => ?_
    split
    · exact keepsMem_pure
    · exact keepsMem_raisePoison
  · exact keepsMem_localRead

theorem memOk_somePort {s : State} {part : ℕ} (h : s.memOk) : (s.somePort part).2.memOk := by
  unfold State.somePort
  dsimp only
  exact memOk_drawNat h

theorem memOk_toPort {s : State} {c ctx sender pa : ℕ} {line : List Byte} (h : s.memOk) : (s.toPort c ctx sender pa line).memOk := by
  unfold State.toPort
  dsimp only
  dsimp only [State.memOk]
  exact memOk_newId (memOk_somePort h)

theorem memOk_sendFabric {s : State} {c ctx sender pa : ℕ} {line : List Byte} (h : s.memOk) : (s.sendFabric c ctx sender pa line).memOk :=
  memOk_ite (memOk_sendLine _ _ _ _ _ h) (memOk_toPort h)

theorem memOk_lineLeaves {s : State} {l : PortLine} (h : s.memOk) : (s.lineLeaves l).memOk := by
  unfold State.lineLeaves
  dsimp only
  exact memOk_countMod (memOk_postOnce (memOk_modCtx (memOk_upd h)))

theorem memOk_servePort {s : State} {p : ℕ} (h : s.memOk) : (s.servePort p).memOk := by
  unfold State.servePort
  split
  · exact h
  · dsimp only
    split
    · exact memOk_drawBit h
    · refine memOk_lineLeaves ?_
      dsimp only [State.memOk]
      exact memOk_drawBit h

theorem memOk_servePorts {s : State} (h : s.memOk) : s.servePorts.memOk :=
  memOk_foldl (fun _ _ hs => memOk_servePort hs) _ h

theorem memOk_lineArrive {s : State} {pa : ℕ} {line : BitVec 1024} (h : s.memOk) : (s.lineArrive pa line).memOk := by
  unfold State.lineArrive
  dsimp only
  exact memOk_ite h (memOk_countMod (memOk_homeWriteLine _ _ _ _ _ (memOk_somePort h)))

theorem nextOk_execFabricLineArrival {pa : Word} {line : BitVec 1024} {s : State} (h : s.memOk) : NextOk (execFabricLineArrival pa line s) :=
  nextOk_event (fun _ hs => memOk_lineArrive hs) h

theorem memOk_setTiles {s : State} {ctx base count : ℕ} (h : s.memOk) : (s.setTiles ctx base count).memOk :=
  memOk_modCtx h

theorem nextOk_execCtab {g : Guard} {a b : Src} {s : State} (h : s.memOk) : NextOk (execCtab g a b s) :=
  nextOk_issueNext (fun _ => .bind keepsMem_ensure fun _ => .bind keepsMem_readScalar fun _ => .bind keepsMem_readScalar fun _ => .bind
      keepsMem_trapIf fun _ => .bind keepsMem_trapIf fun _ => .bind keepsMem_getCtx fun _ => keepsMem_get_bind fun _ hs => .bind keepsMem_holdIf
      fun _ => keepsMem_modify fun _ hs1 => memOk_setTiles hs1) h

theorem memOk_fireTo {s : State} {c tile : ℕ} {d : RowDst} {lines : List (List Byte)} (h : s.memOk) : (s.fireTo c tile d lines).memOk := by
  unfold State.fireTo
  split
  · exact memOk_spadWrite h
  · exact memOk_clusterWrite h
  · refine memOk_foldl_fst (fun _ _ hs => ?_) _ h
    dsimp only
    exact memOk_foldl (fun _ _ hs1 => memOk_sendFabric hs1) _ hs

theorem nextOk_execCtile {g : Guard} {d : Dest} {ctr : BitVec 4} {a b : Src} {s : State} (h : s.memOk) : NextOk (execCtile g d ctr a b s) := by
  unfold execCtile
  refine nextOk_issueNext (fun _ => ?_) h
  refine .bind keepsMem_needSpace fun _ => ?_
  refine .bind keepsMem_ensure fun _ => ?_
  refine .bind keepsMem_readScalar fun _ => ?_
  refine .bind keepsMem_readScalar fun _ => ?_
  refine .bind keepsMem_getCtx fun _ => ?_
  refine keepsMem_get_bind fun _ hs => ?_
  split
  · exact keepsMem_pure
  · dsimp only
    refine .bind keepsMem_trapIf fun _ => ?_
    refine .bind keepsMem_homeBytes fun _ => ?_
    split
    · exact keepsMem_raiseTrap
    · refine .bind keepsMem_holdIf fun _ => ?_
      refine .bind keepsMem_getJob fun _ => ?_
      refine .bind keepsMem_trapIf fun _ => ?_
      refine .bind keepsMem_homeBytes fun _ => ?_
      refine .bind ?_ fun _ => keepsMem_get_bind fun _ hs1 => .bind keepsMem_handOver fun _ => .bind keepsMem_takeNumber fun _ => .bind
          (keepsMem_modify fun _ hs2 => memOk_ite (memOk_post (memOk_modCtx (memOk_foldl (fun _ _ hs3 => memOk_fireTo hs3) _ (memOk_modCtx hs2))))
          (memOk_post (memOk_modCtx (memOk_foldl (fun _ _ hs3 => memOk_fireTo hs3) _ (memOk_modCtx hs2))))) fun _ => keepsMem_deliver
      refine keepsMem_mapM fun _ => ?_
      refine .bind keepsMem_areaOf fun _ => ?_
      split
      · exact keepsMem_pure
      · exact keepsMem_pure
      · exact .bind (keepsMem_liftF fun _ hs1 => memOk_translateRange _ _ _ _ _ hs1) fun _ => keepsMem_pure

theorem memOk_fireDone {s : State} {ctx tile : ℕ} (h : s.memOk) : (s.fireDone ctx tile).memOk := by
  unfold State.fireDone
  split
  · exact h
  · split
    · exact h
    · dsimp only
      dsimp only [State.memOk]
      exact memOk_modCtx h

theorem nextOk_execTileFireComplete {ctx tile : ℕ} {s : State} (h : s.memOk) : NextOk (execTileFireComplete ctx tile s) :=
  nextOk_event (fun _ hs => memOk_fireDone hs) h

theorem keepsMem_readChan {u : Cur} {a : Src} : (readChan u a).KeepsMem :=
  .bind keepsMem_readScalar fun _ => .bind keepsMem_trapIf fun _ => keepsMem_pure

theorem memOk_clearRing {s : State} {ctx rbase n : ℕ} (h : s.memOk) : (s.clearRing ctx rbase n).1.memOk := by
  unfold State.clearRing
  refine memOk_foldl_fst (fun _ _ hs => ?_) _ h
  split
  · exact hs
  · exact memOk_unitWrite _ _ _ hs

theorem nextOk_execCringSet {g : Guard} {a b : Src} {s : State} (h : s.memOk) : NextOk (execCringSet g a b s) := by
  unfold execCringSet
  refine nextOk_issueNext (fun _ => ?_) h
  refine .bind keepsMem_ensure fun _ => ?_
  refine .bind keepsMem_readChan fun _ => ?_
  refine .bind keepsMem_readScalar fun _ => ?_
  refine .bind keepsMem_getCtx fun _ => ?_
  refine keepsMem_get_bind fun _ hs => ?_
  refine .bind keepsMem_holdIf fun _ => ?_
  refine .bind keepsMem_homeBytes fun _ => ?_
  split
  · exact keepsMem_raiseTrap
  · refine .bind keepsMem_homeBytes fun _ => ?_
    split
    · exact keepsMem_raiseTrap
    · exact .bind (keepsMem_liftF fun _ hs1 => memOk_clearRing hs1) fun _ => keepsMem_modify fun _ hs1 => memOk_modChan hs1

theorem nextOk_execCringDone {g : Guard} {d : Dest} {a : Src} {s : State} (h : s.memOk) : NextOk (execCringDone g d a s) :=
  nextOk_issueNext (fun _ => .bind keepsMem_needSpace fun _ => .bind keepsMem_ensure fun _ => .bind keepsMem_readChan fun _ => .bind
      keepsMem_getCtx fun _ => keepsMem_get_bind fun _ hs => keepsMem_deliver) h

theorem nextOk_execCringStat {g : Guard} {d : Dest} {a : Src} {s : State} (h : s.memOk) : NextOk (execCringStat g d a s) :=
  nextOk_issueNext (fun _ => .bind keepsMem_needSpace fun _ => .bind keepsMem_ensure fun _ => .bind keepsMem_readChan fun _ => .bind
      keepsMem_getCtx fun _ => keepsMem_get_bind fun _ hs => keepsMem_deliver) h

theorem nextOk_execRslotReq {g : Guard} {d : Dest} {a b : Src} {s : State} (h : s.memOk) : NextOk (execRslotReq g d a b s) := by
  unfold execRslotReq
  refine nextOk_issueNext (fun _ => ?_) h
  refine .bind keepsMem_needSpace fun _ => ?_
  refine .bind keepsMem_ensure fun _ => ?_
  refine .bind keepsMem_readChan fun _ => ?_
  refine .bind keepsMem_readScalar fun _ => ?_
  refine .bind keepsMem_trapIf fun _ => ?_
  refine .bind keepsMem_getCtx fun _ => ?_
  refine keepsMem_get_bind fun _ hs => ?_
  split
  · exact keepsMem_pure
  · refine .bind keepsMem_getStrm fun _ => ?_
    split
    · exact keepsMem_deliver
    · exact keepsMem_deliver
    · exact keepsMem_ite keepsMem_holdFor keepsMem_askFor

theorem memOk_releaseSlot {s : State} {ctx ch : ℕ} (h : s.memOk) : (s.releaseSlot ctx ch).memOk :=
  memOk_modChan h

theorem nextOk_execRslotRel {g : Guard} {a : Src} {s : State} (h : s.memOk) : NextOk (execRslotRel g a s) :=
  nextOk_issueNext (fun _ => .bind keepsMem_ensure fun _ => .bind keepsMem_readChan fun _ => .bind keepsMem_getCtx fun _ => keepsMem_modify fun _
      hs => memOk_releaseSlot hs) h

theorem memOk_recDone {s : State} {rid : ℕ} {info : Word} (h : s.memOk) : (s.recDone rid info).memOk :=
  memOk_postOnce (memOk_modRec h)

theorem memOk_slotAnswer {s : State} {ctx ch : ℕ} {slot : Option (BitVec 16)} (h : s.memOk) : (s.slotAnswer ctx ch slot).memOk := by
  unfold State.slotAnswer
  split
  · exact h
  · dsimp only
    split
    · exact memOk_post (memOk_drawBit h)
    · split
      · refine memOk_recDone ?_
        split
        · exact memOk_ite (memOk_modStrm (memOk_modChan (memOk_drawBit h))) (memOk_modChan (memOk_drawBit h))
        · exact memOk_modChan (memOk_drawBit h)
      · split
        · exact memOk_ite (memOk_modStrm (memOk_modChan (memOk_drawBit h))) (memOk_modChan (memOk_drawBit h))
        · exact memOk_modChan (memOk_drawBit h)

theorem nextOk_execRslotAnswer {ctx ch : ℕ} {slot : Option (BitVec 16)} {s : State} (h : s.memOk) : NextOk (execRslotAnswer ctx ch slot s) :=
  nextOk_event (fun _ hs => memOk_slotAnswer hs) h

theorem memOk_modColl {s : State} {ctx ch : ℕ} {f : Coll → Coll} (h : s.memOk) : (s.modColl ctx ch f).memOk :=
  memOk_modChan h

theorem memOk_chanFault {s : State} {ctx ch : ℕ} {e : AccFault} (h : s.memOk) : (s.chanFault ctx ch e).memOk := by
  unfold State.chanFault
  split
  · exact h
  · dsimp only
    exact memOk_ite (memOk_modColl (memOk_frontTrap h)) (memOk_modChan (memOk_frontTrap h))

theorem memOk_chanTrap {s : State} {ctx ch detail : ℕ} (h : s.memOk) : (s.chanTrap ctx ch detail).memOk :=
  memOk_chanFault h

theorem memOk_noNumber {s : State} {ctx ch : ℕ} {c : Coll} (h : s.memOk) : (s.noNumber ctx ch c).memOk := by
  unfold State.noNumber
  dsimp only
  split
  · exact memOk_areaLost (memOk_putTrap h)
  · exact memOk_haltCtx (memOk_modChan (memOk_putTrap h))

theorem memOk_kickStep {s : State} {ctx ch : Nat} (h : s.memOk) : (s.kickStep ctx ch).memOk := by
  unfold State.kickStep
  cases s.collAt ctx ch with
  | none => exact h
  | some p =>
    obtain ⟨k, c⟩ := p
    dsimp -zeta only
    extract_lets first main prog len
    clear_value first main prog len
    refine memOk_ite (memOk_modChan h) (memOk_ite h (memOk_ite (memOk_chanTrap h) (memOk_ite (memOk_noNumber h) (memOk_ite (memOk_chanTrap h) ?_))))
    have h1 := memOk_frontRead ctx (prog + 8 * c.step) 8 h
    generalize s.frontRead ctx (prog + 8 * c.step) 8 = p at h1
    obtain ⟨s, r⟩ := p
    cases r with
    | error => exact memOk_chanFault h1
    | ok bs =>
      dsimp -zeta only
      extract_lets w t
      have ht : t.memOk := memOk_modChan h1
      clear_value t
      exact memOk_ite (memOk_chanTrap ht) (memOk_ite (memOk_chanTrap ht) (memOk_postOnce ht))

theorem memOk_stepAct {s : State} {ctx ch op : Nat} {f : Chan → Coll → Word → State → State} (hf : ∀ k c w s, s.memOk → (f k c w s).memOk)
    (h : s.memOk) : (s.stepAct ctx ch op f).memOk := by
  unfold State.stepAct
  split
  · exact h
  · split
    · exact memOk_modChan h
    · split
      · exact h
      · split
        · exact memOk_ite (hf _ _ _ _ h) h
        · exact h

theorem memOk_stepDone {s : State} {ctx ch : ℕ} (h : s.memOk) : (s.stepDone ctx ch).memOk :=
  memOk_kickStep (memOk_modColl h)

theorem memOk_lineAddrs {s : State} {ctx va n : ℕ} (h : s.memOk) : (s.lineAddrs ctx va n).1.memOk := by
  unfold State.lineAddrs
  refine memOk_foldl_fst (fun _ _ hs => ?_) _ h
  split
  · exact hs
  · dsimp only
    split
    · dsimp only
      exact memOk_frontReach _ _ _ hs
    · dsimp only
      exact memOk_frontReach _ _ _ hs

theorem memOk_sendEnds {s : State} {ctx ch : ℕ} (h : s.memOk) : (s.sendEnds ctx ch).memOk :=
  memOk_ite (memOk_postOnce h) (memOk_stepDone h)

theorem memOk_sendStep {s : State} {ctx ch : ℕ} (h : s.memOk) : (s.sendStep ctx ch).memOk := by
  unfold State.sendStep
  refine memOk_stepAct (fun _ _ _ _ hs => ?_) h
  split
  · exact memOk_sendEnds hs
  · dsimp only
    split
    · exact memOk_chanFault (memOk_frontRead _ _ _ hs)
    · split
      · split
        · exact memOk_chanTrap hs
        · exact memOk_sendEnds (memOk_postOnce (memOk_modColl (memOk_foldl (fun _ _ hs1 => memOk_toPort hs1) _ (memOk_frontRead _ _ _ hs))))
      · split
        · exact memOk_chanFault (memOk_lineAddrs (memOk_frontRead _ _ _ hs))
        · exact memOk_sendEnds (memOk_postOnce (memOk_modColl (memOk_foldl (fun _ _ hs1 => memOk_sendFabric hs1) _ (memOk_lineAddrs
            (memOk_frontRead _ _ _ hs)))))

theorem nextOk_execStepSend {ctx ch : ℕ} {s : State} (h : s.memOk) : NextOk (execStepSend ctx ch s) :=
  nextOk_event (fun _ hs => memOk_sendStep hs) h

theorem memOk_stepWait {s : State} {ctx ch op : ℕ} (h : s.memOk) : (s.stepWait ctx ch op).memOk := by
  unfold State.stepWait
  split
  · exact h
  · dsimp only
    exact memOk_ite (memOk_postOnce (memOk_modColl h)) (memOk_postOnce (memOk_modColl h))

theorem memOk_stepMet {s : State} {ctx ch : Nat} {body : State → State} (hb : ∀ s, s.memOk → (body s).memOk) (h : s.memOk) :
    (s.stepMet ctx ch body).memOk := by
  unfold State.stepMet
  split
  · exact h
  · split
    · exact hb _ h
    · split
      · exact memOk_ite (hb _ (memOk_modChan h)) (memOk_post (memOk_modColl h))
      · exact memOk_ite (hb _ (memOk_modChan h)) h

theorem memOk_slotData {s : State} {ctx va n flag : ℕ} (h : s.memOk) : (s.slotData ctx va n flag).1.memOk := by
  unfold State.slotData
  dsimp only
  split
  · dsimp only
    exact memOk_frontRead _ _ _ h
  · dsimp only
    exact memOk_frontRead _ _ _ h

theorem memOk_takeStep {s : State} {ctx ch op : Nat} {f : Coll → List Byte → List Byte → State → State × List Byte × Flg}
    (hf : ∀ c old pay s, s.memOk → (f c old pay s).1.memOk) (h : s.memOk) : (s.takeStep ctx ch op f).memOk := by
  unfold State.takeStep
  refine memOk_stepAct (fun k c w s hs => ?_) h
  dsimp only
  split
  · exact memOk_chanFault (memOk_slotData hs)
  · exact memOk_stepWait hs
  · rename_i pay _
    refine memOk_stepMet (fun s hs => ?_) hs
    have h1 : (if op = 1 then (s, .ok []) else s.frontRead ctx (chunkAt k c w).1 (chunkAt k c w).2 : State × Except AccFault (List Byte)).1.memOk
        := by
      split
      · exact hs
      · exact memOk_frontRead _ _ _ hs
    generalize (if op = 1 then (s, .ok []) else s.frontRead ctx (chunkAt k c w).1 (chunkAt k c w).2 : State × Except AccFault (List Byte)) = p at h1
    obtain ⟨t, r⟩ := p
    cases r with
    | error => exact memOk_chanFault h1
    | ok old =>
      have h2 := memOk_unitWrite ctx (chunkAt k c w).1 (f c old pay t).2.1 (hf c old pay t h1)
      dsimp only
      generalize (f c old pay t).1.unitWrite ctx (chunkAt k c w).1 (f c old pay t).2.1 = p at h2
      obtain ⟨t', r⟩ := p
      cases r with
      | error => exact memOk_chanFault h2
      | ok => exact memOk_stepDone (memOk_modChan h2)

theorem memOk_recvStep {s : State} {ctx ch : ℕ} (h : s.memOk) : (s.recvStep ctx ch).memOk :=
  memOk_takeStep (fun _ _ _ _ hs => hs) h

theorem nextOk_execStepRecv {ctx ch : ℕ} {s : State} (h : s.memOk) : NextOk (execStepRecv ctx ch s) :=
  nextOk_event (fun _ hs => memOk_recvStep hs) h

theorem memOk_reduceChunk {c : Coll} {old pay : List Byte} {s : State} (h : s.memOk) : (reduceChunk c old pay s).1.memOk := by
  unfold reduceChunk
  dsimp only
  exact memOk_upd h

theorem nextOk_execStepReduce {ctx ch : ℕ} {s : State} (h : s.memOk) : NextOk (execStepReduce ctx ch s) :=
  nextOk_event (fun _ hs => memOk_takeStep (fun _ _ _ _ hs1 => memOk_reduceChunk hs1) hs) h

theorem memOk_frontAcquire {s : State} {ctx : ℕ} (h : s.memOk) : (s.frontAcquire ctx).memOk := by
  unfold State.frontAcquire
  dsimp only
  exact memOk_modDie h

theorem memOk_waitfStep {s : State} {ctx ch : ℕ} (h : s.memOk) : (s.waitfStep ctx ch).memOk := by
  unfold State.waitfStep
  refine memOk_stepAct (fun _ _ _ _ hs => ?_) h
  split
  · exact hs
  · dsimp only
    exact memOk_ite (memOk_stepMet (fun _ hs1 => memOk_stepDone (memOk_frontAcquire hs1)) hs) (memOk_stepWait hs)

theorem nextOk_execStepWaitf {ctx ch : ℕ} {s : State} (h : s.memOk) : NextOk (execStepWaitf ctx ch s) :=
  nextOk_event (fun _ hs => memOk_waitfStep hs) h

theorem memOk_nextStep {s : State} {ctx ch : ℕ} (h : s.memOk) : (s.nextStep ctx ch).memOk := by
  unfold State.nextStep
  refine memOk_stepAct (fun _ _ _ _ hs => ?_) h
  split
  · refine memOk_stepMet (fun _ hs1 => ?_) hs
    dsimp only
    exact memOk_recDone (memOk_modChan (memOk_closeEpoch hs1))
  · exact memOk_stepWait hs

theorem nextOk_execStepNext {ctx ch : ℕ} {s : State} (h : s.memOk) : NextOk (execStepNext ctx ch s) :=
  nextOk_event (fun _ hs => memOk_nextStep hs) h

theorem memOk_ackTimeout {s : State} {ctx ch : ℕ} (h : s.memOk) : (s.ackTimeout ctx ch).memOk := by
  unfold State.ackTimeout
  split
  · exact h
  · dsimp only
    split
    · exact memOk_chanTrap h
    · split
      · exact memOk_frontTrap h
      · exact h

theorem nextOk_execFabricAckTimeout {ctx ch : ℕ} {s : State} (h : s.memOk) : NextOk (execFabricAckTimeout ctx ch s) :=
  nextOk_event (fun _ hs => memOk_ackTimeout hs) h

theorem memOk_waitTimeout {s : State} {ctx ch : ℕ} (h : s.memOk) : (s.waitTimeout ctx ch).memOk := by
  unfold State.waitTimeout
  split
  · exact h
  · exact memOk_ite (memOk_chanTrap h) h

theorem nextOk_execStepWaitTimeout {ctx ch : ℕ} {s : State} (h : s.memOk) : NextOk (execStepWaitTimeout ctx ch s) :=
  nextOk_event (fun _ hs => memOk_waitTimeout hs) h

theorem memOk_staggerEnd {s : State} {ctx ch : ℕ} (h : s.memOk) : (s.staggerEnd ctx ch).memOk := by
  unfold State.staggerEnd
  split
  · exact h
  · split
    · exact memOk_ite (memOk_postOnce h) h
    · exact h

theorem nextOk_execStaggerRelease {ctx ch : ℕ} {s : State} (h : s.memOk) : NextOk (execStaggerRelease ctx ch s) :=
  nextOk_event (fun _ hs => memOk_staggerEnd hs) h

theorem memOk_armChan {s : State} {ctx ch d : ℕ} (h : s.memOk) : (s.armChan ctx ch d).memOk := by
  unfold State.armChan
  dsimp only
  exact memOk_ite (memOk_post (memOk_modChan h)) (memOk_modChan h)

theorem memOk_stagger {s : State} {group : BitVec 16} {nslot step : ℕ} (h : s.memOk) : (s.stagger group nslot step).memOk := by
  unfold State.stagger
  split
  · dsimp only
    exact memOk_foldl (fun _ _ hs => memOk_foldl (fun _ _ hs1 => memOk_armChan hs1) _ hs) _ h
  · exact h

theorem nextOk_execStaggerMessage {group : BitVec 16} {nslot step : ℕ} {s : State} (h : s.memOk) :
    NextOk (execStaggerMessage group nslot step s) :=
  nextOk_event (fun _ hs => memOk_stagger hs) h

theorem memOk_linkFail {s : State} {port : ℕ} (h : s.memOk) : (s.linkFail port).memOk := by
  unfold State.linkFail
  dsimp only
  refine memOk_foldl (fun _ _ hs => memOk_frontTrap hs) _ ?_
  refine memOk_foldl (fun _ _ hs => memOk_ite (memOk_ite (memOk_chanTrap (memOk_modChan (memOk_drawBit hs))) (memOk_frontTrap (memOk_modChan
      (memOk_drawBit hs)))) (memOk_drawBit hs)) _ ?_
  dsimp only [State.memOk]
  exact memOk_error _ _ _ _ _ _ _ h

theorem nextOk_execFabricLinkFailure {port : ℕ} {s : State} (h : s.memOk) : NextOk (execFabricLinkFailure port s) :=
  nextOk_event (fun _ hs => memOk_linkFail hs) h

end Sys2Proof.Machine
end

section
/-!
PROOFS. The canonical form of HBM through micro programs (O54).
-/

set_option Elab.async false

namespace Sys2Proof.Machine

theorem memOk_readHome {s : State} {c ctx va n : ℕ} (h : s.memOk) : (s.readHome c ctx va n).1.memOk := by
  unfold State.readHome
  dsimp only
  split
  · dsimp only
    exact memOk_translateRange _ _ _ _ _ h
  · refine memOk_foldl_fst (fun _ _ hs => ?_) _ ?_
    · refine memOk_foldl_fst (fun _ _ hs1 => ?_) _ hs
      split
      · exact hs1
      · split
        · split
          · dsimp only
            exact memOk_lineError _ _ _ _ (memOk_homeRead _ _ _ _ _ _ _ hs1)
          · dsimp only
            exact memOk_homeRead _ _ _ _ _ _ _ hs1
        · dsimp only
          exact memOk_upd hs1
    · dsimp only
      exact memOk_translateRange _ _ _ _ _ h

theorem memOk_putPage {s : State} {c ctx slot : ℕ} {words : Tbl (BitVec 128)} {loading : Bool} (h : s.memOk) :
    (s.putPage c ctx slot words loading).memOk := by
  unfold State.putPage
  dsimp only
  exact memOk_modCore h

theorem memOk_kickLoader {s : State} {c : ℕ} (h : s.memOk) : (s.kickLoader c).memOk :=
  memOk_ite h (memOk_postOnce h)

theorem memOk_fetchPage {s : State} {c : ℕ} (h : s.memOk) : (s.fetchPage c).memOk := by
  unfold State.fetchPage
  split
  · exact h
  · split
    · exact h
    · dsimp only
      split
      · exact memOk_postOnce (memOk_drawBit h)
      · split
        · refine memOk_kickLoader ?_
          refine memOk_foldl_fst (fun _ _ hs => ?_) _ ?_
          · split
            · exact hs
            · split
              · dsimp only
                exact memOk_putPage (memOk_readHome hs)
              · dsimp only
                exact memOk_readHome hs
          · dsimp only
            exact memOk_drawBit h
        · refine memOk_foldl_fst (fun _ _ hs => ?_) _ ?_
          · split
            · exact hs
            · split
              · dsimp only
                exact memOk_putPage (memOk_readHome hs)
              · dsimp only
                exact memOk_readHome hs
          · dsimp only
            exact memOk_drawBit h

theorem nextOk_execPageFetch {core : ℕ} {s : State} (h : s.memOk) : NextOk (execPageFetch core s) :=
  nextOk_event (fun _ hs => memOk_fetchPage hs) h

theorem keepsMem_needPage {u : Cur} {slot : ℕ} : (needPage u slot).KeepsMem := by
  unfold needPage
  refine keepsMem_get_bind fun _ hs => ?_
  refine .bind keepsMem_getCtx fun _ => ?_
  split
  · exact keepsMem_raiseTrap
  · refine .bind keepsMem_trapIf fun _ => ?_
    split
    · refine .bind keepsMem_holdIf fun _ => ?_
      dsimp only
      exact .bind (keepsMem_modify fun _ hs1 => memOk_modCore hs1) fun _ => keepsMem_pure
    · exact .bind (keepsMem_liftF fun _ hs1 => memOk_readHome hs1) fun _ => keepsMem_askFor

theorem memOk_pinPage {s : State} {c slot : ℕ} (h : s.memOk) : (s.pinPage c slot).memOk := by
  unfold State.pinPage
  dsimp only
  exact memOk_modCore h

theorem keepsMem_modMicro {u : Cur} {f : Micro → Micro} : (modMicro u f).KeepsMem :=
  keepsMem_modJob

theorem keepsMem_getMicro {u : Cur} {m : Micro} : (getMicro u m).KeepsMem :=
  .bind keepsMem_getJob fun _ => keepsMem_pure

theorem keepsMem_microChecks {u : Cur} {m : Micro} {w : MicroWord} {addr : ℤ} : (microChecks u m w addr).KeepsMem := by
  unfold microChecks
  refine .bind keepsMem_getJob fun _ => ?_
  refine .bind keepsMem_trapIf fun _ => ?_
  refine .bind keepsMem_trapIf fun _ => ?_
  refine .bind keepsMem_trapIf fun _ => ?_
  dsimp only
  exact .bind keepsMem_trapIf fun _ => .bind keepsMem_trapIf fun _ => keepsMem_ite (.bind keepsMem_trapIf fun _ => .bind keepsMem_areaOf fun _ =>
      .bind keepsMem_trapIf fun _ => keepsMem_ite (.bind keepsMem_getFmt fun _ => keepsMem_ite (.bind keepsMem_rowFmt fun _ => keepsMem_pure)
      keepsMem_pure) (keepsMem_ite (.bind keepsMem_rowFmt fun _ => keepsMem_pure) keepsMem_pure)) keepsMem_pure

theorem keepsMem_microReady {u : Cur} {m : Micro} {w : MicroWord} {addr : ℤ} : (microReady u m w addr).KeepsMem := by
  unfold microReady
  refine keepsMem_get_bind fun _ hs => ?_
  dsimp only
  refine .bind ?_ fun _ => ?_
  · refine keepsMem_forIn fun _ _ => ?_
    split <;> exact .bind keepsMem_holdIf fun _ => keepsMem_pure
  · split <;> exact .bind keepsMem_holdIf fun _ => keepsMem_ite (.bind keepsMem_holdIf fun _ => .bind keepsMem_holdIf fun _ => keepsMem_ite (.bind
      keepsMem_areaOf fun _ => keepsMem_ite (.bind keepsMem_chooseDefer fun _ => keepsMem_ite keepsMem_keepFor keepsMem_pure) keepsMem_pure)
      keepsMem_pure) (.bind keepsMem_holdIf fun _ => keepsMem_ite (.bind keepsMem_areaOf fun _ => keepsMem_ite (.bind keepsMem_chooseDefer fun _ =>
      keepsMem_ite keepsMem_keepFor keepsMem_pure) keepsMem_pure) keepsMem_pure)

theorem keepsMem_microSample {u : Cur} {m : Micro} {w : MicroWord} : (microSample u m w).KeepsMem := by
  unfold microSample
  refine keepsMem_get_bind fun _ hs => ?_
  dsimp only
  exact keepsMem_ite (.bind keepsMem_modJob fun _ => .bind keepsMem_modMicro fun _ => keepsMem_pure) (.bind keepsMem_modMicro fun _ => keepsMem_pure)

theorem keepsMem_microReserve {u : Cur} {w : MicroWord} {d : Dest} : (microReserve u w d).KeepsMem := by
  unfold microReserve
  refine keepsMem_get_bind fun _ hs => ?_
  dsimp only
  exact .bind keepsMem_holdIf fun _ => .bind (keepsMem_set (memOk_upd hs)) fun _ => keepsMem_modJob

theorem keepsMem_microWaits {u : Cur} {m : Micro} {w : MicroWord} {addr : Int} {d : Dest} : (microWaits u m w addr d).KeepsMem := by
  unfold microWaits
  refine keepsMem_get_bind fun s _ => ?_
  extract_lets j k draws bank pops rows t5 t4 held seq5 counted
  have hdraws : ∀ r, (draws r).KeepsMem := fun _ => keepsMem_ite keepsMem_rowDraws keepsMem_pure
  have hbank : ∀ r, (bank r).KeepsMem := fun _ => keepsMem_ite (.bind keepsMem_areaOf fun _ =>
    keepsMem_when keepsMem_waitFull fun _ => .bind keepsMem_orderAt fun _ => .bind keepsMem_watch hdraws) (hdraws ())
  have hpops : ∀ r, (pops r).KeepsMem := fun _ => .bind keepsMem_ensure fun _ => by
    split
    · exact .bind keepsMem_ensure hbank
    · exact hbank ()
  have hrows : ∀ r, (rows r).KeepsMem := fun _ => by
    dsimp only [rows]
    split
    · exact .bind keepsMem_holdIf hpops
    · exact hpops ()
  have ht5 : ∀ r, (t5 r).KeepsMem := fun _ => keepsMem_when keepsMem_needArrSlot hrows
  have ht4 : ∀ r, (t4 r).KeepsMem := fun _ => keepsMem_when keepsMem_holdIf ht5
  have hheld : ∀ r, (held r).KeepsMem := fun _ => .bind keepsMem_holdIf fun _ => .bind keepsMem_holdIf fun _ =>
    keepsMem_when keepsMem_holdIf ht4
  have hseq5 : ∀ r, (seq5 r).KeepsMem := fun _ => keepsMem_when keepsMem_needSpace hheld
  have hcounted : ∀ r, (counted r).KeepsMem := fun _ => .bind keepsMem_keepFor hseq5
  exact keepsMem_ite (keepsMem_when keepsMem_modMicro hcounted) (hseq5 ())

theorem keepsMem_microLanes {u : Cur} {m : Micro} {lw int : Bool} {c : ℕ} {bd pd : Row} : (microLanes u m lw int c bd pd).KeepsMem := by
  unfold microLanes
  refine .bind keepsMem_getJob fun _ => ?_
  split
  · exact keepsMem_pure
  · split
    · exact keepsMem_pure
    · split
      · dsimp only
        exact keepsMem_pure
      · exact keepsMem_ite keepsMem_pure (keepsMem_ite keepsMem_pure (keepsMem_ite (.bind keepsMem_popRow fun _ => keepsMem_pure) (keepsMem_ite
          (.bind keepsMem_readVec fun _ => keepsMem_pure) (keepsMem_ite (.bind keepsMem_readVec fun _ => keepsMem_pure) (keepsMem_ite (.bind
          keepsMem_readVec fun _ => keepsMem_pure) (keepsMem_ite (.bind keepsMem_readVec fun _ => keepsMem_pure) (.bind keepsMem_readVec fun _ =>
          keepsMem_pure)))))))

theorem keepsMem_microLoad {u : Cur} {ar : Area} {n : ℕ} : (microLoad u ar n).KeepsMem := by
  unfold microLoad
  refine .bind (keepsMem_liftF fun _ hs => memOk_loadArea hs) fun _ => ?_
  split
  · exact keepsMem_raiseTrap
  · exact keepsMem_pure

theorem keepsMem_microFire {u : Cur} {m : Micro} {w : MicroWord} : (microFire u m w).KeepsMem := by
  unfold microFire
  refine .bind keepsMem_needLease fun _ => ?_
  refine .bind keepsMem_getJob fun _ => ?_
  dsimp only
  split
  · exact keepsMem_raiseTrap
  · exact .bind keepsMem_needDepth fun _ => .bind keepsMem_trapIf fun _ => .bind keepsMem_checkBlock fun _ => .bind keepsMem_checkBlock fun _ =>
      keepsMem_get_bind fun _ hs => .bind (keepsMem_modify fun _ hs1 => memOk_issueArr hs1) fun _ => keepsMem_modMicro

theorem keepsMem_microMto {u : Cur} {m : Micro} {w : MicroWord} {row : Row} : (microMto u m w row).KeepsMem := by
  unfold microMto
  refine keepsMem_get_bind fun _ hs => ?_
  dsimp only
  refine .bind keepsMem_getMicro fun _ => ?_
  split
  · exact keepsMem_modMicro
  · exact keepsMem_modMicro
  · split
    · exact .bind keepsMem_readScalar fun _ => keepsMem_modMicro
    · exact .bind keepsMem_pure fun _ => keepsMem_modMicro
  · exact keepsMem_modMicro
  · exact keepsMem_modMicro
  · exact keepsMem_modMicro
  · exact keepsMem_pure

theorem keepsMem_microLane {u : Cur} {m : Micro} {w : MicroWord} {bd pd : Row} : (microLane u m w bd pd).KeepsMem := by
  unfold microLane
  split
  · exact keepsMem_pure
  · dsimp only
    exact .bind keepsMem_microLanes fun _ => keepsMem_ite (.bind keepsMem_pure fun _ => .bind keepsMem_getJob fun _ => .bind keepsMem_setFlags fun
        _ => keepsMem_ite (.bind (keepsMem_modify fun _ hs => memOk_startRed hs) fun _ => keepsMem_ite (.bind (keepsMem_modify fun _ hs =>
        memOk_modCore hs) fun _ => keepsMem_pure) keepsMem_pure) (keepsMem_ite (.bind (keepsMem_modify fun _ hs => memOk_modCore hs) fun _ =>
        keepsMem_pure) keepsMem_pure)) (.bind keepsMem_microLanes fun _ => .bind keepsMem_getJob fun _ => .bind keepsMem_setFlags fun _ =>
        keepsMem_ite (.bind (keepsMem_modify fun _ hs => memOk_startRed hs) fun _ => keepsMem_ite (.bind (keepsMem_modify fun _ hs => memOk_modCore
        hs) fun _ => keepsMem_pure) keepsMem_pure) (keepsMem_ite (.bind (keepsMem_modify fun _ hs => memOk_modCore hs) fun _ => keepsMem_pure)
        keepsMem_pure))

theorem keepsMem_microPush {u : Cur} {row : Row} {lat : ℕ} : (microPush u row lat).KeepsMem := by
  unfold microPush
  refine keepsMem_get_bind fun _ hs => ?_
  dsimp only
  refine .bind keepsMem_getJob fun _ => ?_
  split
  · exact keepsMem_pure
  · exact .bind keepsMem_modMicro fun _ => keepsMem_ite keepsMem_modJob (.bind keepsMem_modStrm fun _ => keepsMem_modify fun _ hs1 =>
      memOk_postEarly hs1)

theorem keepsMem_microPutLd {u : Cur} {m : Micro} {w : MicroWord} {row : Row} : (microPutLd u m w row).KeepsMem := by
  unfold microPutLd
  split
  · exact keepsMem_pure
  · refine keepsMem_get_bind fun _ hs => ?_
    dsimp only
    split
    · exact keepsMem_modJob
    · exact keepsMem_ite keepsMem_modMicro (keepsMem_ite keepsMem_microPush keepsMem_pure)

theorem keepsMem_microStep {u : Cur} {m : Micro} : (microStep u m).KeepsMem := by
  unfold microStep
  refine .bind keepsMem_trapIf fun _ => .bind keepsMem_trapIf fun _ => .bind keepsMem_needPage fun page => ?_
  extract_lets raw
  split
  · exact keepsMem_raiseTrap
  · rename_i w addr d rnd sampled _ _
    have hsampled : ∀ p, (sampled p).KeepsMem := fun p => by
      dsimp -zeta only [sampled]
      extract_lets reserved
      have hreserved : ∀ r, (reserved r).KeepsMem := fun _ => by
        refine .bind keepsMem_microWaits fun ds => keepsMem_get_bind fun s _ => ?_
        extract_lets now latched
        have hlatched : ∀ r, (latched r).KeepsMem := fun _ => by
          refine .bind keepsMem_getMicro fun m => .bind keepsMem_getJob fun j => ?_
          obtain ⟨n, al⟩ := w.span j
          dsimp -zeta only
          extract_lets pd x loaded
          have hloaded : ∀ b, (loaded b).KeepsMem := fun bytes => by
            dsimp -zeta only [loaded]
            extract_lets bd put sawn
            have hput : put.KeepsMem := keepsMem_modMicro
            have hsawn : ∀ b, (sawn b).KeepsMem := fun seen => by
              dsimp -zeta only [sawn]
              extract_lets fields
              have hfields : ∀ r, (fields r).KeepsMem := fun _ => by
                refine .bind keepsMem_getMicro fun _ => .bind keepsMem_microLane fun row => ?_
                extract_lets ended ported storedReg storedRow
                have hended : ∀ r, (ended r).KeepsMem := fun _ => by
                  refine .bind keepsMem_microMto fun _ => .bind keepsMem_modMicro fun _ => .bind keepsMem_getMicro fun m' => ?_
                  extract_lets steps lat retired pushed delivered went
                  have hretired : ∀ r, (retired r).KeepsMem := fun _ => .bind keepsMem_modMicro fun _ => keepsMem_pure
                  have hpushed : ∀ r, (pushed r).KeepsMem := fun _ => keepsMem_when keepsMem_microPush hretired
                  have hdelivered : ∀ r, (delivered r).KeepsMem := fun _ => by
                    refine keepsMem_ite ?_ (hretired ())
                    split
                    · exact .bind keepsMem_modJob hpushed
                    · exact hpushed ()
                  have hwent : ∀ r, (went r).KeepsMem := fun _ => .bind keepsMem_modMicro fun _ => keepsMem_pure
                  exact keepsMem_ite (keepsMem_when keepsMem_deliver hdelivered) (keepsMem_when keepsMem_trapIf hwent)
                have hported : ∀ r, (ported r).KeepsMem := fun _ => by
                  dsimp -zeta only [ported]
                  split
                  · exact .bind keepsMem_modMicro hended
                  · exact .bind keepsMem_modMicro hended
                  · exact .bind keepsMem_modJob hended
                  · exact .bind keepsMem_getMicro fun _ => .bind keepsMem_microFire hended
                  · exact hended ()
                have hreg : ∀ r, (storedReg r).KeepsMem := fun _ => keepsMem_ite (.bind keepsMem_areaOf fun _ => .bind keepsMem_getMicro fun _ =>
                  .bind (keepsMem_liftF fun _ hs => memOk_storeArea hs) hported) (hported ())
                have hrow : ∀ r, (storedRow r).KeepsMem := fun _ => .bind keepsMem_microPutLd fun _ => keepsMem_ite
                  (.bind keepsMem_rowFmt fun _ => .bind keepsMem_setFlags fun _ => .bind keepsMem_areaOf fun _ =>
                    .bind (keepsMem_liftF fun _ hs => memOk_storeArea hs) hreg) (hreg ())
                exact keepsMem_when hput hrow
              exact keepsMem_when hput hfields
            exact keepsMem_ite (.bind keepsMem_chooseDefer hsawn) (.bind keepsMem_pure hsawn)
          exact keepsMem_ite (.bind keepsMem_areaOf fun _ => .bind keepsMem_microLoad hloaded) (.bind keepsMem_pure hloaded)
        exact keepsMem_when keepsMem_modMicro hlatched
      exact keepsMem_when keepsMem_microReserve hreserved
    split
    · exact .bind keepsMem_pure hsampled
    · exact .bind keepsMem_microChecks fun _ => .bind keepsMem_microReady fun _ => .bind keepsMem_microSample hsampled

theorem memOk_endMicro {s : State} {u : Cur} (h : s.memOk) : (s.endMicro u).memOk := by
  unfold State.endMicro
  dsimp only
  exact memOk_retire (memOk_modCore (memOk_modJob h))

theorem memOk_keepSample {s s' : State} {c : ℕ} (hs : s.memOk) (hs' : s'.memOk) : (s.keepSample s' c).memOk := by
  unfold State.keepSample
  dsimp only
  exact memOk_modJob (memOk_upd hs)

theorem memOk_microTrap {s : State} {u : Cur} {m : Micro} {t : Trap} (h : s.memOk) : (s.microTrap u m t).memOk := by
  unfold State.microTrap
  dsimp only
  exact memOk_takeTrapOf (memOk_modStrm (memOk_modJob (memOk_ite (memOk_poisonError h) h)))

theorem memOk_microAt {s : State} {c : ℕ} (h : s.memOk) : (s.microAt c).memOk := by
  unfold State.microAt
  split
  · exact h
  · split
    · exact h
    · dsimp only
      split
      · exact memOk_ite (memOk_endMicro h) (memOk_countHead h)
      · split
        · exact h
        · split
          · exact memOk_ite (memOk_endMicro (memOk_modStrm (M.KeepsMem.ok keepsMem_microStep h))) (memOk_postEarly (memOk_countHead (memOk_pinPage
              (memOk_modStrm (M.KeepsMem.ok keepsMem_microStep h)))))
          · exact memOk_ite (memOk_takeTrapOf (memOk_countHead (memOk_pinPage (memOk_modStrm (M.KeepsMem.ok keepsMem_microStep h)))))
              (memOk_countHead (memOk_pinPage (memOk_modStrm (M.KeepsMem.ok keepsMem_microStep h))))
          · exact memOk_holdAt (memOk_ite (memOk_keepSample h (M.KeepsMem.error keepsMem_microStep h)) (memOk_pinPage (memOk_keepSample h
              (M.KeepsMem.error keepsMem_microStep h))))
          · exact memOk_holdAt (memOk_askAt (memOk_ite (memOk_keepSample h (M.KeepsMem.error keepsMem_microStep h)) (memOk_pinPage
              (memOk_keepSample h (M.KeepsMem.error keepsMem_microStep h)))))
          · exact memOk_holdAt (memOk_pinPage (M.KeepsMem.error keepsMem_microStep h))
          · exact M.KeepsMem.error keepsMem_microStep h
          · exact memOk_microTrap h

theorem nextOk_execMicroStep {core : ℕ} {s : State} (h : s.memOk) : NextOk (execMicroStep core s) :=
  nextOk_event (fun _ hs => memOk_microAt hs) h

theorem nextOk_execCustomOpcode {o : CustomOps} {s : State} (h : s.memOk) : NextOk (execCustomOpcode o s) := by
  unfold execCustomOpcode
  cases s.cur with
  | none => exact nextOk_fault
  | some u =>
    dsimp only
    cases (s.core u.core).job with
    | none => exact nextOk_fault
    | some j =>
      dsimp only
      generalize tget 0 (((s.ctx? j.ctx).map (·.bind)).getD []) (o.major.toNat - 0xC0) = e
      have hi : NextOk (issue o.g (fun u => do
          trapIf (!bindV e) { cause := 0x02, detail := o.major.setWidth 64 }
          modJob u (fun j => { j with micro := some (startMicro o e u), cxFirst := none })
          throw .enter) s) :=
        nextOk_issue (fun _ => .bind keepsMem_trapIf fun _ => .bind keepsMem_modJob fun _ => keepsMem_throw) h
      refine nextOk_ite (nextOk_next (memOk_takeTrap h)) ?_
      generalize issue o.g _ s = r at hi
      cases r with
      | next t => exact nextOk_next (memOk_microAt (hi t rfl))
      | fault => exact hi
      | refused => exact hi

theorem keepsMem_csArea {u : Cur} {a : ℤ} {n : ℕ} : (csArea u a n).KeepsMem := by
  unfold csArea
  refine .bind keepsMem_areaOf fun _ => ?_
  split
  · exact keepsMem_pure
  · exact keepsMem_raiseTrap

theorem memOk_endWcsld {s : State} {c : ℕ} {slots : List ℕ} (h : s.memOk) : (s.endWcsld c slots).memOk := by
  unfold State.endWcsld
  dsimp only
  exact memOk_modCore (memOk_upd h)

theorem keepsMem_wcsldLoad {u : Cur} {x : Ctx} {off : ℕ} {ws : List (BitVec 128)} : (wcsldLoad u x off ws).KeepsMem := by
  unfold wcsldLoad
  refine .bind keepsMem_getCtx fun _ => ?_
  dsimp only
  refine .bind (keepsMem_liftF fun _ hs => memOk_translateRange _ _ _ _ _ hs) fun _ => ?_
  refine keepsMem_get_bind fun _ hs => ?_
  refine .bind (keepsMem_forIn fun _ _ => .bind (keepsMem_liftF fun _ hs1 => memOk_readHome hs1) fun _ => .bind (keepsMem_modify fun _ hs1 =>
      memOk_putPage hs1) fun _ => keepsMem_pure) fun _ => ?_
  refine keepsMem_get_bind fun _ hs1 => ?_
  refine .bind ?_ fun _ => keepsMem_get_bind fun _ hs2 => keepsMem_modify fun _ hs3 => memOk_modCore hs3
  refine keepsMem_modify fun _ hs2 => ?_
  refine memOk_foldl_fst (fun _ _ hs3 => ?_) _ ?_
  · dsimp only
    exact memOk_sendBytes _ _ _ _ _ hs3
  · dsimp only
    exact memOk_modCtx (memOk_modCore hs2)

theorem nextOk_execWcsld {o : COps} {n : BitVec 8} {s : State} (h : s.memOk) : NextOk (execWcsld o n s) := by
  unfold execWcsld
  refine nextOk_issueNext (fun _ => ?_) h
  refine .bind keepsMem_needSpace fun _ => ?_
  dsimp only
  refine keepsMem_get_bind fun _ hs => ?_
  split
  · split
    · refine .bind keepsMem_keepFor fun _ => ?_
      refine .bind (keepsMem_modify fun _ hs1 => memOk_endWcsld hs1) fun _ => ?_
      refine .bind ?_ fun _ => keepsMem_deliver
      split
      · exact keepsMem_modStrm
      · exact keepsMem_pure
    · refine .bind (keepsMem_modify fun _ hs1 => memOk_endWcsld hs1) fun _ => ?_
      refine .bind ?_ fun _ => keepsMem_deliver
      split
      · exact keepsMem_modStrm
      · exact keepsMem_pure
  · refine .bind keepsMem_ensure fun _ => ?_
    refine .bind keepsMem_readScalar fun _ => ?_
    refine .bind keepsMem_readScalar fun _ => ?_
    refine .bind keepsMem_getCtx fun _ => ?_
    split
    · exact keepsMem_raiseTrap
    · refine .bind keepsMem_trapIf fun _ => ?_
      refine .bind keepsMem_csArea fun _ => ?_
      refine .bind keepsMem_watch fun _ => ?_
      split
      · split
        · refine .bind ?_ fun _ => keepsMem_deliver
          split
          · exact keepsMem_modStrm
          · exact keepsMem_pure
        · exact keepsMem_holdFor
      · refine .bind keepsMem_localRead fun _ => ?_
        split
        · refine .bind ?_ fun _ => keepsMem_deliver
          split
          · exact keepsMem_modStrm
          · exact keepsMem_pure
        · exact .bind keepsMem_wcsldLoad fun _ => keepsMem_keepFor

theorem memOk_setBind {s : State} {ctx n : ℕ} {e : Word} (h : s.memOk) : (s.setBind ctx n e).memOk :=
  memOk_modCtx h

theorem nextOk_execWbind {g : Guard} {a b : Src} {s : State} (h : s.memOk) : NextOk (execWbind g a b s) :=
  nextOk_issueNext (fun _ => .bind keepsMem_ensure fun _ => .bind keepsMem_readScalar fun _ => .bind keepsMem_readScalar fun _ => .bind
      keepsMem_trapIf fun _ => .bind keepsMem_getCtx fun _ => keepsMem_modify fun _ hs => memOk_setBind hs) h

theorem nextOk_execWunb {g : Guard} {all : Bool} {a : Src} {s : State} (h : s.memOk) : NextOk (execWunb g all a s) :=
  nextOk_issueNext (fun _ => .bind keepsMem_getCtx fun _ => keepsMem_ite (keepsMem_modify fun _ hs => memOk_modCtx hs) (.bind keepsMem_ensure fun _
      => .bind keepsMem_readScalar fun _ => .bind keepsMem_trapIf fun _ => keepsMem_modify fun _ hs => memOk_setBind hs)) h

theorem nextOk_execWcsrd {g : Guard} {a b : Src} {n : BitVec 8} {s : State} (h : s.memOk) : NextOk (execWcsrd g a b n s) := by
  unfold execWcsrd
  refine nextOk_issueNext (fun _ => ?_) h
  refine .bind keepsMem_ensure fun _ => ?_
  refine .bind keepsMem_readScalar fun _ => ?_
  refine .bind keepsMem_readScalar fun _ => ?_
  dsimp only
  exact .bind keepsMem_csArea fun _ => keepsMem_ite (.bind keepsMem_pure fun _ => .bind keepsMem_watch fun _ => keepsMem_modify fun _ hs =>
      memOk_spadWrite hs) (.bind keepsMem_trapIf fun _ => .bind keepsMem_getCtx fun _ => keepsMem_get_bind fun _ hs => .bind keepsMem_trapIf fun _
      => .bind (keepsMem_mapM fun _ => keepsMem_needPage) fun _ => .bind keepsMem_pure fun _ => .bind keepsMem_watch fun _ => keepsMem_modify fun _
      hs1 => memOk_spadWrite hs1)

theorem nextOk_execWstat {g : Guard} {d : Dest} {b : Src} {sel : BitVec 2} {s : State} (h : s.memOk) : NextOk (execWstat g d b sel s) := by
  unfold execWstat
  refine nextOk_issueNext (fun _ => ?_) h
  refine .bind keepsMem_needSpace fun _ => ?_
  dsimp only
  exact keepsMem_ite (.bind keepsMem_ensure fun _ => .bind keepsMem_readScalar fun _ => .bind keepsMem_trapIf fun _ => keepsMem_get_bind fun _ hs
      => keepsMem_deliver) (.bind keepsMem_pure fun _ => .bind keepsMem_trapIf fun _ => keepsMem_get_bind fun _ hs => keepsMem_deliver)

end Sys2Proof.Machine
end

section
/-!
PROOFS. The canonical form of HBM through launches (O54).
-/

set_option Elab.async false

namespace Sys2Proof.Machine

theorem memOk_queueFault {s : State} {qi : ℕ} {e : AccFault} (h : s.memOk) : (s.queueFault qi e).memOk := by
  unfold State.queueFault
  split
  · exact h
  · dsimp only
    exact memOk_ite (memOk_modQueue (memOk_frontTrap h)) (memOk_frontTrap h)

theorem memOk_readNext {s : State} {qi : ℕ} (h : s.memOk) : (s.readNext qi).memOk := by
  unfold State.readNext
  split
  · exact h
  · split
    · exact h
    · dsimp only
      split
      · exact memOk_queueFault (memOk_frontRead _ _ _ h)
      · exact memOk_postOnce (memOk_frontRead _ _ _ h)

theorem memOk_enterRec {s : State} {qi : ℕ} {r : Rec} {status : ℕ} (h : s.memOk) : (s.enterRec qi r status).memOk := by
  unfold State.enterRec
  dsimp only
  exact memOk_readNext (memOk_ite (memOk_wakeRecs (memOk_modQueue (memOk_upd h))) (memOk_postOnce (memOk_modQueue (memOk_upd h))))

theorem memOk_checkFault {s : State} {qi : ℕ} {r : Rec} {e : AccFault} (h : s.memOk) : (s.checkFault qi r e).memOk := by
  unfold State.checkFault
  dsimp only
  exact memOk_ite (memOk_queueFault h) (memOk_enterRec (memOk_queueFault h))

theorem memOk_readRec {s : State} {qi type : Nat} {body : Queue → Rec → State → State} (hb : ∀ q r s, s.memOk → (body q r s).memOk)
    (h : s.memOk) : (s.readRec qi type body).memOk := by
  unfold State.readRec
  split
  · exact h
  · split
    · exact h
    · split
      have h1 := memOk_fst (memOk_frontRead _ _ _ h)
      split
      · exact memOk_queueFault h1
      · exact memOk_ite (hb _ _ _ h1) (memOk_ite (memOk_enterRec h1) (memOk_postOnce h1))

theorem memOk_readOperator {s : State} {qi : ℕ} (h : s.memOk) : (s.readOperator qi).memOk := by
  unfold State.readOperator
  refine memOk_readRec (fun _ _ _ hs => ?_) h
  dsimp only
  split
  · exact memOk_enterRec hs
  · split
    · exact memOk_checkFault (memOk_frontRead _ _ _ hs)
    · split
      · exact memOk_enterRec (memOk_frontRead _ _ _ hs)
      · split
        · refine memOk_checkFault ?_
          split
          · dsimp only
            exact memOk_frontRead _ _ _ hs
          · exact memOk_frontRead _ _ _ (memOk_frontRead _ _ _ hs)
        · refine memOk_enterRec ?_
          split
          · dsimp only
            exact memOk_frontRead _ _ _ hs
          · exact memOk_frontRead _ _ _ (memOk_frontRead _ _ _ hs)

theorem nextOk_execOperatorRecord {q : ℕ} {s : State} (h : s.memOk) : NextOk (execOperatorRecord q s) :=
  nextOk_event (fun _ hs => memOk_readOperator hs) h

theorem memOk_readPlain {s : State} {qi type : ℕ} {chk : Rec → Bool} (h : s.memOk) : (s.readPlain qi type chk).memOk :=
  memOk_readRec (fun _ _ _ hs => memOk_enterRec hs) h

theorem nextOk_execCollectiveRecord {q : ℕ} {s : State} (h : s.memOk) : NextOk (execCollectiveRecord q s) :=
  nextOk_event (fun _ hs => memOk_readPlain hs) h

theorem nextOk_execWaitRecord {q : ℕ} {s : State} (h : s.memOk) : NextOk (execWaitRecord q s) :=
  nextOk_event (fun _ hs => memOk_readPlain hs) h

theorem nextOk_execSignalRecord {q : ℕ} {s : State} (h : s.memOk) : NextOk (execSignalRecord q s) :=
  nextOk_event (fun _ hs => memOk_readPlain hs) h

theorem nextOk_execTiletabRecord {q : ℕ} {s : State} (h : s.memOk) : NextOk (execTiletabRecord q s) :=
  nextOk_event (fun _ hs => memOk_readPlain hs) h

theorem nextOk_execRslotRecord {q : ℕ} {s : State} (h : s.memOk) : NextOk (execRslotRecord q s) :=
  nextOk_event (fun _ hs => memOk_readPlain hs) h

theorem memOk_readCsimage {s : State} {qi : ℕ} (h : s.memOk) : (s.readCsimage qi).memOk := by
  unfold State.readCsimage
  refine memOk_readRec (fun _ _ _ hs => ?_) h
  split
  · exact memOk_enterRec hs
  · dsimp only
    split
    · exact memOk_checkFault (memOk_frontRead _ _ _ hs)
    · exact memOk_ite (memOk_enterRec (memOk_frontRead _ _ _ hs)) (memOk_enterRec (memOk_frontRead _ _ _ hs))

theorem nextOk_execCsimageRecord {q : ℕ} {s : State} (h : s.memOk) : NextOk (execCsimageRecord q s) :=
  nextOk_event (fun _ hs => memOk_readCsimage hs) h

theorem memOk_kickAt {s : State} {fn q : ℕ} {tail : BitVec 16} (h : s.memOk) : (s.kickAt fn q tail).memOk := by
  unfold State.kickAt
  split
  · exact memOk_readNext (memOk_modQueue h)
  · exact h

theorem nextOk_execKick {fn q : ℕ} {tail : BitVec 16} {s : State} (h : s.memOk) : NextOk (execKick fn q tail s) :=
  nextOk_event (fun _ hs => memOk_kickAt hs) h

theorem memOk_recReady {s : State} {rid : ℕ} (h : s.memOk) : (s.recReady rid).memOk := by
  unfold State.recReady
  split
  · exact h
  · split
    · dsimp only
      exact memOk_postOnce (memOk_modRec (memOk_newId h))
    · exact h

theorem nextOk_execRecordReady {rec : ℕ} {s : State} (h : s.memOk) : NextOk (execRecordReady rec s) :=
  nextOk_event (fun _ hs => memOk_recReady hs) h

theorem memOk_allotRegion {s : State} {bay rid ctx n : ℕ} (h : s.memOk) : (s.allotRegion bay rid ctx n).memOk := by
  unfold State.allotRegion
  split
  · exact h
  · split
    · exact h
    · exact memOk_modBay h

theorem memOk_placeAt {s : State} {rid : ℕ} {r : Rec} {c : ℕ} {l : Launch} (h : s.memOk) : (s.placeAt rid r c l).memOk := by
  unfold State.placeAt
  dsimp only
  exact memOk_postOnce (memOk_modRec (memOk_modCore (memOk_allotRegion h)))

theorem memOk_recFault {s : State} {rid : ℕ} {e : AccFault} (h : s.memOk) : (s.recFault rid e).memOk := by
  unfold State.recFault
  split
  · exact h
  · dsimp only
    exact memOk_ite (memOk_modRec (memOk_frontTrap (memOk_ite h (memOk_modRec h)))) (memOk_frontTrap (memOk_ite h (memOk_modRec h)))

theorem memOk_readArgs {s : State} {r : Rec} (h : s.memOk) : (s.readArgs r).1.memOk := by
  unfold State.readArgs
  dsimp only
  exact memOk_frontRead _ _ _ h

theorem memOk_handChunk {s t : State} {rid : Nat} {r : Rec} (h : s.memOk) (e : s.handChunk rid r = some t) : t.memOk := by
  unfold State.handChunk at e
  obtain ⟨⟨l, cs, old⟩, -, rfl⟩ := Option.map_eq_some_iff.1 e
  dsimp only
  have h1 : ∀ x : State, x.hbm = s.hbm → (x.readArgs r).1.memOk := fun x hx => memOk_readArgs (memOk_upd h hx)
  split
  · exact memOk_recFault (h1 _ rfl)
  · exact memOk_placeAt (memOk_modRec (h1 _ rfl))

theorem memOk_handGang {s t : State} {rid : Nat} {r : Rec} {d : Nat} (h : s.memOk) (e : s.handGang rid r d = some t) : t.memOk := by
  have h1 := memOk_readArgs (r := r) h
  unfold State.handGang at e
  extract_lets ms w g own loose fresh at e
  split at e
  · nomatch e
  · generalize s.readArgs r = p at h1 e
    obtain ⟨s, w⟩ := p
    cases w with
    | error => cases e; exact memOk_recFault h1
    | ok =>
      cases e
      exact memOk_foldl (fun _ _ hs => memOk_placeAt hs) _ (memOk_modRec (memOk_foldl (fun _ _ hs => memOk_modCore hs) _ (memOk_modDie
        (memOk_foldl (fun _ _ hs => memOk_allotRegion hs) _ h1))))

theorem memOk_handOperator {s t : State} {rid : Nat} {r : Rec} (h : s.memOk) (e : s.handOperator rid r = some t) : t.memOk := by
  unfold State.handOperator at e
  split at e
  · cases e
    exact memOk_recDone h
  · split at e
    · exact memOk_handChunk h e
    · obtain ⟨d, -, hd⟩ := List.exists_of_findSome?_eq_some e
      split at hd
      · cases hd
      · exact memOk_handGang h hd

theorem memOk_startColl {s t : State} {rid : Nat} {r : Rec} (h : s.memOk) (e : s.startColl rid r = some t) : t.memOk := by
  unfold State.startColl at e
  dsimp only at e
  split at e
  · cases e
  · split at e
    · cases e
    · cases e
      exact memOk_kickStep (memOk_modRec (memOk_modChan h))

theorem memOk_pollWait {s : State} {rid : ℕ} (h : s.memOk) : (s.pollWait rid).memOk := by
  unfold State.pollWait
  split
  · exact h
  · split
    · dsimp only
      split
      · exact memOk_recFault (memOk_frontRead _ _ _ h)
      · exact memOk_ite (memOk_recDone (memOk_frontRead _ _ _ h)) (memOk_postOnce (memOk_frontRead _ _ _ h))
    · exact h

theorem nextOk_execWaitRecordPoll {rec : ℕ} {s : State} (h : s.memOk) : NextOk (execWaitRecordPoll rec s) :=
  nextOk_event (fun _ hs => memOk_pollWait hs) h

theorem memOk_doSignal {s : State} {rid : ℕ} {r : Rec} (h : s.memOk) : (s.doSignal rid r).memOk := by
  unfold State.doSignal
  dsimp only
  split
  · exact memOk_recFault (memOk_frontWrite _ _ _ (memOk_flushHomes h))
  · exact memOk_recDone (memOk_frontWrite _ _ _ (memOk_flushHomes h))

theorem memOk_doCsimage {s : State} {rid : ℕ} {r : Rec} (h : s.memOk) : (s.doCsimage rid r).memOk := by
  unfold State.doCsimage
  dsimp only
  refine memOk_recDone ?_
  refine memOk_foldl (fun _ _ hs => memOk_ite (memOk_kickLoader hs) hs) _ ?_
  dsimp only [State.memOk]
  exact memOk_modCtx h

theorem memOk_doRslot {s t : State} {rid : Nat} {r : Rec} (h : s.memOk) (e : s.doRslot rid r = some t) : t.memOk := by
  unfold State.doRslot at e
  dsimp only at e
  split at e
  · cases e
  · split at e
    · cases e
      exact memOk_recDone (memOk_releaseSlot h)
    · split at e
      · cases e
        exact memOk_recDone h
      · split at e
        · cases e
        · cases e
          exact memOk_modRec (memOk_askSlot h)

theorem memOk_startOther {s t : State} {rid : Nat} {r : Rec} (h : s.memOk) (e : s.startOther rid r = some t) : t.memOk := by
  unfold State.startOther at e
  split at e
  · split at e
    · exact memOk_startColl h e
    · cases e
      exact memOk_postOnce (memOk_modRec h)
    · cases e
      exact memOk_doSignal h
    · dsimp only at e
      split at e
      · cases e
      · cases e
        exact memOk_recDone (memOk_setTiles h)
    · cases e
      exact memOk_doCsimage h
    · exact memOk_doRslot h e
    · cases e
  · cases e

theorem memOk_handFrom {s t : State} {rid : Nat} {r : Rec} (h : s.memOk) (e : s.handFrom rid r = some t) : t.memOk := by
  unfold State.handFrom at e
  split at e
  · exact memOk_handOperator h e
  · exact memOk_startOther h e

theorem memOk_handOut {s : State} {part : Nat} (h : s.memOk) : (s.handOut part).memOk := by
  unfold State.handOut
  split
  · exact h
  · dsimp only
    split
    · rename_i e
      obtain ⟨a, -, ha⟩ := List.exists_of_findSome?_eq_some e
      obtain ⟨t, ht, he⟩ := Option.map_eq_some_iff.1 ha
      cases he
      exact memOk_postOnce (memOk_ite (memOk_modPool (memOk_handFrom h ht)) (memOk_handFrom h ht))
    · exact memOk_foldl (fun _ _ hs => memOk_foldl (fun _ _ hs => memOk_postOnce hs) _ hs) _ h

theorem nextOk_execChunkHandout {part : ℕ} {s : State} (h : s.memOk) : NextOk (execChunkHandout part s) :=
  nextOk_event (fun _ hs => memOk_handOut hs) h

theorem memOk_preemptCore {s : State} {c : ℕ} (h : s.memOk) : (s.preemptCore c).memOk := by
  unfold State.preemptCore
  split
  · exact h
  · dsimp only
    exact memOk_foldl (fun _ _ hs => memOk_modCore hs) _ h

theorem memOk_sliceOver {s : State} {c : ℕ} (h : s.memOk) : (s.sliceOver c).memOk := by
  unfold State.sliceOver
  split
  · exact h
  · dsimp only
    exact memOk_ite (memOk_preemptCore h) h

theorem nextOk_execTimeSliceExpiry {core : ℕ} {s : State} (h : s.memOk) : NextOk (execTimeSliceExpiry core s) :=
  nextOk_event (fun _ hs => memOk_sliceOver hs) h

theorem memOk_prepCore {s : State} {c ctx ways : ℕ} (h : s.memOk) : (s.prepCore c ctx ways).1.memOk := by
  unfold State.prepCore
  dsimp only
  exact memOk_modCore (memOk_ite (memOk_modCore (memOk_foldl (fun _ _ hs => memOk_ite (memOk_writeBack _ _ _ hs) hs) _ h)) (memOk_ite
      (memOk_modCore (memOk_foldl (fun _ _ hs => memOk_ite (memOk_writeBack _ _ _ hs) hs) _ h)) h))

theorem memOk_obsFor {s : State} {c ctx : ℕ} (h : s.memOk) : (s.obsFor c ctx).memOk := by
  unfold State.obsFor
  dsimp only
  exact memOk_ite h (memOk_modCore (memOk_modCtx (memOk_modCtx h)))

theorem memOk_seeCompleted {s : State} {c : ℕ} {after : Bool} (h : s.memOk) : (s.seeCompleted c after).memOk := by
  unfold State.seeCompleted
  dsimp only
  exact memOk_ite (memOk_l1Acquire (memOk_modDie h)) (memOk_modDie h)

theorem memOk_runJob {s : State} {c : ℕ} {j : Job} (h : s.memOk) : (s.runJob c j).memOk := by
  unfold State.runJob
  dsimp only
  split
  · exact memOk_ite (memOk_modCore (memOk_modCtx (memOk_postOnce (memOk_kickLoader (memOk_modCore (memOk_seeCompleted (memOk_obsFor h)))))))
      (memOk_postOnce (memOk_kickLoader (memOk_modCore (memOk_seeCompleted (memOk_obsFor h)))))
  · exact memOk_postOnce (memOk_kickLoader (memOk_modCore (memOk_seeCompleted (memOk_obsFor h))))

theorem memOk_fillRegion {s : State} {bay rid ctx : ℕ} (h : s.memOk) : (s.fillRegion bay rid ctx).1.memOk := by
  unfold State.fillRegion
  split
  · exact h
  · split
    · exact h
    · dsimp only
      exact memOk_modCtx (memOk_modBay h)

theorem memOk_prepGroup {s : State} {r : Rec} {rid : ℕ} {cs : List ℕ} (h : s.memOk) : (s.prepGroup r rid cs).memOk := by
  unfold State.prepGroup
  dsimp only
  refine memOk_foldl (fun _ _ hs => memOk_modCore hs) _ ?_
  refine memOk_foldl_fst (fun _ _ hs => ?_) _ h
  dsimp only
  exact memOk_fillRegion (memOk_prepCore hs)

theorem memOk_startAt {s : State} {c : ℕ} (h : s.memOk) : (s.startAt c).memOk := by
  unfold State.startAt
  split
  · exact h
  · dsimp only
    split
    · exact h
    · split
      · exact memOk_postOnce (memOk_prepGroup h)
      · split
        · refine memOk_foldl (fun _ _ hs => ?_) _ h
          split
          · exact memOk_runJob hs
          · exact memOk_modCore hs
        · exact memOk_postOnce h

theorem nextOk_execJobStart {core : ℕ} {s : State} (h : s.memOk) : NextOk (execJobStart core s) :=
  nextOk_event (fun _ hs => memOk_startAt hs) h

theorem memOk_settleRec {s : State} {rid : ℕ} (h : s.memOk) : (s.settleRec rid).memOk := by
  unfold State.settleRec
  split
  · exact h
  · exact memOk_ite (memOk_postOnce (memOk_modRec h)) h

theorem memOk_completeJob {s : State} {c : ℕ} (h : s.memOk) : (s.completeJob c).memOk := by
  unfold State.completeJob
  split
  · exact h
  · split
    · exact h
    · dsimp only
      exact memOk_postOnce (memOk_finishStop (memOk_settleYield (memOk_settleRec (memOk_modRec (memOk_clearJob (memOk_leaveGang (memOk_release _ _
          _ h)))))))

theorem nextOk_execJobCompletion {core : ℕ} {s : State} (h : s.memOk) : NextOk (execJobCompletion core s) :=
  nextOk_event (fun _ hs => memOk_completeJob hs) h

theorem memOk_completeRec {s : State} {rid : ℕ} (h : s.memOk) : (s.completeRec rid).memOk := by
  unfold State.completeRec
  split
  · exact h
  · split
    · exact memOk_ite h (memOk_ite (memOk_postOnce h) (memOk_finishRec h))
    · exact h

theorem nextOk_execRecordCompletion {rec : ℕ} {s : State} (h : s.memOk) : NextOk (execRecordCompletion rec s) :=
  nextOk_event (fun _ hs => memOk_completeRec hs) h

end Sys2Proof.Machine
end

section
/-!
PROOFS. The canonical form of HBM through contexts (O54).
-/

set_option Elab.async false

namespace Sys2Proof.Machine

theorem memOk_flushCtx {s : State} {c ctx : ℕ} (h : s.memOk) : (s.flushCtx c ctx).memOk := by
  unfold State.flushCtx
  dsimp only
  exact memOk_modCore (memOk_foldl (fun _ _ hs => memOk_writeBack _ _ _ hs) _ h)

theorem memOk_writeImage {s : State} {ctx : Nat} (h : s.memOk) : (s.writeImage ctx).memOk := by
  unfold State.writeImage
  split
  · exact h
  · rename_i x _
    split
    rename_i n0 s1 e1
    have h1 : s1.memOk := memOk_snd (memOk_drawNat h)
    split
    rename_i n s2 e2
    have h2 : s2.memOk := by
      refine memOk_snd (memOk_foldl_snd (fun r a hr => ?_) x.saved h1) e2
      exact memOk_drawNat hr
    extract_lets regs y
    clear_value y
    refine memOk_ite (memOk_teardown (memOk_drawWord h2)) ?_
    have h3 := memOk_frontWrite ctx x.savea (y.imgBytes ctx) h2
    dsimp only
    split
    · exact memOk_modCtx h3
    · exact memOk_ite (memOk_modCtx (memOk_frontTrap h3)) (memOk_areaLost h3)

theorem memOk_saveRegion {s : State} {bay rid : ℕ} (h : s.memOk) : (s.saveRegion bay rid).memOk := by
  unfold State.saveRegion
  split
  · exact h
  · split
    · exact h
    · dsimp only
      exact memOk_modCtx (memOk_modBay h)

theorem memOk_saveJob {s : State} {c : ℕ} {j : Job} (h : s.memOk) : (s.saveJob c j).memOk := by
  unfold State.saveJob
  dsimp only
  exact memOk_saveRegion (memOk_clearJob (memOk_leaveGang (memOk_returnChunk (memOk_modCore (memOk_modCtx (memOk_flushCtx h))))))

theorem memOk_stopComplete {s : State} {c : ℕ} (h : s.memOk) : (s.stopComplete c).memOk := by
  unfold State.stopComplete
  split
  · exact h
  · split
    · exact memOk_completeJob h
    · split
      · exact h
      · dsimp only
        exact memOk_postOnce (memOk_settleYield (memOk_finishStop (memOk_ite (memOk_saveJob h) (memOk_writeImage (memOk_saveJob h)))))

theorem nextOk_execPreemptionStopComplete {core : ℕ} {s : State} (h : s.memOk) : NextOk (execPreemptionStopComplete core s) :=
  nextOk_event (fun _ hs => memOk_stopComplete hs) h

theorem memOk_imageRefused {s : State} {ctx : ℕ} (h : s.memOk) : (s.imageRefused ctx).memOk := by
  unfold State.imageRefused
  dsimp only
  exact memOk_teardown (memOk_error _ _ _ _ _ _ _ (memOk_drawWord h))

theorem memOk_kickLog {s : State} {c : ℕ} {x : Strm} (h : s.memOk) : (s.kickLog c x).memOk := by
  unfold State.kickLog
  dsimp only
  exact memOk_ite (memOk_postOnce h) h

theorem memOk_resumeStrm {s : State} {c : ℕ} {x : Strm} {refuse : Bool} (h : s.memOk) : (s.resumeStrm c x refuse).memOk := by
  unfold State.resumeStrm
  dsimp only
  split
  · exact h
  · split
    · exact memOk_kickLog (memOk_modStrm h)
    · split <;> exact memOk_takeTrapOf (memOk_modStrm h)

theorem memOk_resumeCopy {s : State} {c : ℕ} {refuse : Bool} (h : s.memOk) : (s.resumeCopy c refuse).memOk := by
  unfold State.resumeCopy
  split
  · exact h
  · dsimp only
    exact memOk_ite (memOk_takeTrapOf (memOk_modCe h)) (memOk_ceResume (memOk_modCe h))

theorem memOk_loadJob {s : State} {c : ℕ} {v : Saved} (h : s.memOk) : (s.loadJob c v).memOk := by
  unfold State.loadJob
  dsimp only
  refine memOk_resumeCopy ?_
  refine memOk_foldl (fun _ _ hs => memOk_kickLog hs) _ ?_
  refine memOk_foldl (fun _ _ hs => memOk_resumeStrm hs) _ ?_
  refine memOk_foldl (fun _ _ hs => ?_) _ (memOk_ceResume (memOk_progressAdv (memOk_kickHeld (memOk_foldl (fun _ _ hs => memOk_post hs) _
      (memOk_modCore (memOk_runJob (memOk_modCtx h)))))))
  refine memOk_foldl (fun _ _ hs1 => ?_) _ hs
  split
  · exact memOk_ite (memOk_kickFetch hs1) hs1
  · exact hs1

theorem memOk_checkImage {s : State} {ctx : ℕ} (h : s.memOk) : (s.checkImage ctx).1.memOk := by
  unfold State.checkImage
  split
  · exact h
  · dsimp only
    split
    · split
      · dsimp only
        exact memOk_frontRead _ _ _ h
      · dsimp only
        exact memOk_imageRefused (memOk_frontRead _ _ _ h)
    · split
      · dsimp only
        exact memOk_modCtx (memOk_frontTrap (memOk_frontRead _ _ _ h))
      · dsimp only
        exact memOk_imageRefused (memOk_frontRead _ _ _ h)

theorem memOk_restoreAt {s : State} {c : ℕ} (h : s.memOk) : (s.restoreAt c).memOk := by
  unfold State.restoreAt
  split
  · exact h
  · dsimp only
    split
    · exact h
    · split
      · exact memOk_postOnce h
      · split
        · exact memOk_postOnce (memOk_prepGroup h)
        · split
          · split
            · exact memOk_checkImage h
            · refine memOk_foldl (fun _ _ hs => ?_) _ (memOk_checkImage h)
              split
              · split
                · exact memOk_loadJob hs
                · exact memOk_runJob hs
              · exact memOk_modCore hs
          · exact memOk_postOnce h

theorem nextOk_execContextRestore {core : ℕ} {s : State} (h : s.memOk) : NextOk (execContextRestore core s) :=
  nextOk_event (fun _ hs => memOk_restoreAt hs) h

theorem memOk_deadline {s : State} {ctx : ℕ} (h : s.memOk) : (s.deadline ctx).memOk := by
  unfold State.deadline
  split
  · exact h
  · split
    · exact memOk_ite (memOk_askStop h) h
    · exact h

theorem nextOk_execYieldDeadline {ctx : ℕ} {s : State} (h : s.memOk) : NextOk (execYieldDeadline ctx s) :=
  nextOk_event (fun _ hs => memOk_deadline hs) h

theorem memOk_setSusp {s : State} {ctx : ℕ} {l : SuspAt} {v : Option Susp} (h : s.memOk) : (s.setSusp ctx l v).memOk := by
  unfold State.setSusp
  split
  · exact memOk_modStrm h
  · exact memOk_modCe h
  · exact memOk_modCtx h
  · exact memOk_setFrag h
  · exact memOk_setOp h
  · exact memOk_setDel h
  · exact memOk_modColl h
  · exact memOk_modRec h
  · exact memOk_modQueue h
  · exact memOk_modCtx h

theorem memOk_refuseHead {s : State} {qi va : ℕ} (h : s.memOk) : (s.refuseHead qi va).memOk := by
  unfold State.refuseHead
  split
  · exact h
  · split
    · exact h
    · dsimp only
      split
      · exact memOk_frontRead _ _ _ h
      · exact memOk_enterRec (memOk_frontRead _ _ _ h)

theorem memOk_replyTo {s : State} {ctx : ℕ} {l : SuspAt} {v : Susp} {refuse : Bool} (h : s.memOk) : (s.replyTo ctx l v refuse).memOk := by
  unfold State.replyTo
  dsimp only
  split
  · exact memOk_resumeStrm h
  · exact memOk_resumeCopy h
  · exact memOk_setSusp h
  · exact memOk_ite (memOk_frontTrap h) (memOk_post (memOk_setFrag h))
  · exact memOk_ite (memOk_frontTrap h) (memOk_settleLand (memOk_setSusp h))
  · split
    · exact memOk_frontTrap h
    · split
      · exact memOk_ite (memOk_post (memOk_setSusp h)) (memOk_ite (memOk_postOnce (memOk_settleLand (memOk_setSusp h))) (memOk_postOnce
          (memOk_setSusp h)))
      · exact memOk_setSusp h
  · split
    · exact memOk_chanFault (memOk_setSusp h)
    · split
      · split
        · exact memOk_postOnce (memOk_setSusp h)
        · exact memOk_kickStep (memOk_setSusp h)
      · exact memOk_setSusp h
  · split
    · exact memOk_recFault (memOk_setSusp h)
    · split
      · split
        · exact memOk_postOnce (memOk_setSusp h)
        · exact memOk_postOnce (memOk_postOnce (memOk_setSusp h))
      · exact memOk_setSusp h
  · exact memOk_ite (memOk_refuseHead (memOk_queueFault (memOk_setSusp h))) (memOk_readNext (memOk_setSusp h))
  · exact memOk_ite (memOk_ite (memOk_areaLost (memOk_setSusp h)) (memOk_imageRefused (memOk_setSusp h))) (memOk_ite (memOk_writeImage
      (memOk_setSusp h)) (memOk_postOnce (memOk_setSusp h)))

theorem memOk_faultReplyOf {s : State} {fn : ℕ} (h : s.memOk) : (s.faultReplyOf fn).memOk := by
  unfold State.faultReplyOf
  dsimp only
  split
  · exact memOk_modFn h
  · split
    · exact memOk_modFn h
    · split
      · exact memOk_replyTo (memOk_modFn h)
      · exact memOk_setSusp (memOk_modFn h)
      · exact memOk_modFn h

theorem nextOk_execFaultReply {fn : ℕ} {s : State} (h : s.memOk) : NextOk (execFaultReply fn s) :=
  nextOk_event (fun _ hs => memOk_faultReplyOf hs) h

theorem memOk_resumeCtx {s : State} {ctx : ℕ} (h : s.memOk) : (s.resumeCtx ctx).memOk := by
  unfold State.resumeCtx
  dsimp only
  refine memOk_postOnce ?_
  refine memOk_foldl (fun _ _ hs => ?_) _ (memOk_modCtx h)
  split
  · exact hs
  · exact memOk_replyTo hs
  · exact hs

theorem memOk_loseChunk {s : State} {rid chunk : ℕ} (h : s.memOk) : (s.loseChunk rid chunk).memOk := by
  unfold State.loseChunk
  split
  · exact h
  · dsimp only
    exact memOk_settleRec (memOk_modCtx (memOk_modRec h))

theorem memOk_callElection {s : State} {part : Nat} (h : s.memOk) : (s.callElection part).memOk := by
  unfold State.callElection
  extract_lets live
  clear_value live
  refine memOk_ite h (memOk_post (memOk_modPool (memOk_drawNat ?_)))
  refine memOk_foldl_snd (fun r a hr => ?_) live ?_
  · exact memOk_drawBit hr
  · exact memOk_drawNat h

theorem memOk_fenceDie {s : State} {d : Nat} (h : s.memOk) : (s.fenceDie d).memOk := by
  unfold State.fenceDie
  generalize List.range 16 = cores
  refine memOk_ite h ?_
  extract_lets part lost ctxs s1 s2 s3 s4 s5 s6
  have h1 : s1.memOk := memOk_foldl (fun _ _ hs => memOk_modCore (memOk_clearJob hs)) _ h
  have h2 : s2.memOk := memOk_modDie h1
  have h3 : s3.memOk := memOk_upd h2
  clear_value s1 s2 s3
  have h4 : s4.memOk := memOk_foldl (fun _ _ hs => memOk_loseChunk hs) _ h3
  have h5 : s5.memOk := memOk_foldl (fun _ _ hs => memOk_finishStop (memOk_settleYield hs)) _ h4
  clear_value s4 s5
  exact memOk_postOnce (memOk_ite (memOk_callElection h5) h5)

theorem nextOk_execDieFence {die : ℕ} {s : State} (h : s.memOk) : NextOk (execDieFence die s) :=
  nextOk_event (fun _ hs => memOk_fenceDie hs) h

theorem memOk_boundaryFail {s : State} {x y : ℕ} (h : s.memOk) : (s.boundaryFail x y).memOk := by
  unfold State.boundaryFail
  dsimp only
  split
  · exact h
  · refine memOk_foldl (fun _ _ hs => memOk_fenceDie hs) _ ?_
    refine memOk_error _ _ _ _ _ _ _ ?_
    dsimp only [State.memOk]
    exact memOk_drawNat h

theorem nextOk_execBoundaryFailure {dieA dieB : ℕ} {s : State} (h : s.memOk) : NextOk (execBoundaryFailure dieA dieB s) :=
  nextOk_event (fun _ hs => memOk_boundaryFail hs) h

theorem memOk_elect {s : State} {part : ℕ} (h : s.memOk) : (s.elect part).memOk := by
  unfold State.elect
  dsimp only
  split
  · exact memOk_ite h (memOk_ite (memOk_callElection (memOk_modPool h)) (memOk_postOnce (memOk_modPool h)))
  · exact h

theorem nextOk_execNewelElection {part : ℕ} {s : State} (h : s.memOk) : NextOk (execNewelElection part s) :=
  nextOk_event (fun _ hs => memOk_elect hs) h

theorem memOk_archError {s : State} {c : ℕ} {detail : Word} (h : s.memOk) : (s.archError c detail).memOk := by
  unfold State.archError
  split
  · exact h
  · dsimp only
    exact memOk_teardown (memOk_error _ _ _ _ _ _ _ (memOk_drawNat (memOk_drawNat h)))

theorem nextOk_execArchStateError {core : ℕ} {detail : Word} {s : State} (h : s.memOk) : NextOk (execArchStateError core detail s) :=
  nextOk_event (fun _ hs => memOk_archError hs) h

theorem memOk_poisonLine {s : State} {at_ : ErrAt} (h : s.memOk) : (s.poisonLine at_).memOk := by
  unfold State.poisonLine
  split
  · exact memOk_ite (memOk_upd h) h
  · exact memOk_ite (memOk_upd h) h
  · exact memOk_ite (memOk_modCore h) h
  · exact memOk_ite (memOk_modBay h) h

theorem nextOk_execHbmUncorrectable {loc : ErrAt} {s : State} (h : s.memOk) : NextOk (execHbmUncorrectable loc s) :=
  nextOk_event (fun _ hs => memOk_poisonLine hs) h

theorem memOk_correctable {s : State} {unit die loc addr : ℕ} (h : s.memOk) : (s.correctable unit die loc addr).memOk := by
  unfold State.correctable
  dsimp only
  exact memOk_ite (memOk_error _ _ _ _ _ _ _ (memOk_error _ _ _ _ _ _ _ (memOk_modBase h))) (memOk_error _ _ _ _ _ _ _ (memOk_modBase h))

theorem nextOk_execCorrectableError {unit : BitVec 8} {die : BitVec 16} {loc : BitVec 32} {addr : Word} {s : State} (h : s.memOk) :
    NextOk (execCorrectableError unit die loc addr s) :=
  nextOk_event (fun _ hs => memOk_correctable hs) h

end Sys2Proof.Machine
end

section
/-!
PROOFS. The canonical form of HBM through main memory (O54).
-/

set_option Elab.async false

namespace Sys2Proof.Machine

theorem memOk_shotLines {s : State} {asids : List ℕ} {page : Option (ℕ × ℕ)} {c : ℕ} (h : s.memOk) : (s.shotLines asids page c).1.memOk := by
  unfold State.shotLines
  dsimp only
  refine memOk_foldl_fst (fun _ _ hs => ?_) _ h
  split
  · exact hs
  · split
    · exact hs
    · dsimp only
      exact memOk_drawBit hs

theorem memOk_dropTlbs {s : State} {asids : List ℕ} {page : Option (ℕ × ℕ)} (h : s.memOk) : (s.dropTlbs asids page).memOk := by
  unfold State.dropTlbs
  dsimp only
  dsimp only [State.memOk]
  exact memOk_foldl (fun _ _ hs => memOk_modCore (memOk_foldl (fun _ _ hs1 => memOk_writeBack _ _ _ hs1) _ (memOk_shotLines hs))) _ h

theorem memOk_tsdStart {s : State} {fn : ℕ} (h : s.memOk) : (s.tsdStart fn).memOk := by
  unfold State.tsdStart
  dsimp only
  exact memOk_ite h (memOk_ite (memOk_modFn h) (memOk_postOnce (memOk_modFn (memOk_dropTlbs (memOk_modFn h)))))

theorem nextOk_execTsdGo {fn : ℕ} {s : State} (h : s.memOk) : NextOk (execTsdGo fn s) :=
  nextOk_event (fun _ hs => memOk_tsdStart hs) h

theorem memOk_tsdEnd {s : State} {fn : ℕ} (h : s.memOk) : (s.tsdEnd fn).memOk := by
  unfold State.tsdEnd
  split
  · exact h
  · exact memOk_ite (memOk_postOnce h) (memOk_modFn h)

theorem memOk_destroyEnd {s : State} {fn : ℕ} (h : s.memOk) : (s.destroyEnd fn).memOk := by
  unfold State.destroyEnd
  split
  · exact h
  · exact memOk_ite (memOk_postOnce h) (memOk_modFn h)

theorem nextOk_execShootdownComplete {fn : ℕ} {s : State} (h : s.memOk) : NextOk (execShootdownComplete fn s) :=
  nextOk_event (fun _ hs => memOk_destroyEnd (memOk_tsdEnd hs)) h

theorem memOk_migRes {s : State} {fn res : ℕ} (h : s.memOk) : (s.migRes fn res).memOk :=
  memOk_modFn h

theorem memOk_migBegin {s : State} {fn : ℕ} (h : s.memOk) : (s.migBegin fn).memOk := by
  unfold State.migBegin
  dsimp only
  exact memOk_ite (memOk_migRes h) (memOk_ite (memOk_migRes h) (memOk_ite (memOk_migRes h) (memOk_postOnce (memOk_modFn (memOk_migRes h)))))

theorem nextOk_execMigStart {fn : ℕ} {s : State} (h : s.memOk) : NextOk (execMigStart fn s) :=
  nextOk_event (fun _ hs => memOk_migBegin hs) h

theorem memOk_migLine {s : State} {fn : ℕ} (h : s.memOk) : (s.migLine fn).memOk := by
  unfold State.migLine
  split
  · exact h
  · split
    · exact h
    · dsimp only
      split
      · refine memOk_modFn ?_
        split
        · refine memOk_lineError _ _ _ _ ?_
          dsimp only [State.memOk]
          exact memOk_homePut _ _ _ (memOk_watchHome (memOk_watchHome h))
        · dsimp only [State.memOk]
          exact memOk_homePut _ _ _ (memOk_watchHome (memOk_watchHome h))
      · refine memOk_postOnce ?_
        refine memOk_modFn ?_
        split
        · refine memOk_lineError _ _ _ _ ?_
          dsimp only [State.memOk]
          exact memOk_homePut _ _ _ (memOk_watchHome (memOk_watchHome h))
        · dsimp only [State.memOk]
          exact memOk_homePut _ _ _ (memOk_watchHome (memOk_watchHome h))

theorem nextOk_execMigrationCopy {fn : ℕ} {s : State} (h : s.memOk) : NextOk (execMigrationCopy fn s) :=
  nextOk_event (fun _ hs => memOk_migLine hs) h

theorem memOk_migFinish {s : State} {fn : ℕ} (h : s.memOk) : (s.migFinish fn).memOk := by
  unfold State.migFinish
  split
  · exact memOk_migRes h
  · exact memOk_ite (memOk_migRes h) (memOk_ite (memOk_migRes h) (memOk_modFn (memOk_migRes h)))

theorem nextOk_execMigEnd {fn : ℕ} {s : State} (h : s.memOk) : NextOk (execMigEnd fn s) :=
  nextOk_event (fun _ hs => memOk_migFinish hs) h

theorem memOk_migStop {s : State} {fn : ℕ} (h : s.memOk) : (s.migStop fn).memOk := by
  unfold State.migStop
  split
  · exact memOk_migRes h
  · exact memOk_ite (memOk_modFn (memOk_migRes h)) (memOk_migRes h)

theorem nextOk_execMigAbort {fn : ℕ} {s : State} (h : s.memOk) : NextOk (execMigAbort fn s) :=
  nextOk_event (fun _ hs => memOk_migStop hs) h

theorem memOk_activate {s : State} {base bank row key : ℕ} (h : s.memOk) : (s.activate base bank row key).memOk := by
  unfold State.activate
  dsimp only
  split
  · exact memOk_ite (memOk_countMod h) (memOk_modBase h)
  · exact memOk_modBase h

theorem nextOk_execRowActivation {base bank row : ℕ} {key : BitVec 4} {s : State} (h : s.memOk) :
    NextOk (execRowActivation base bank row key s) :=
  nextOk_event (fun _ hs => memOk_ite (memOk_activate hs) hs) h

theorem memOk_windowEnd {s : State} {base : ℕ} (h : s.memOk) : (s.windowEnd base).memOk :=
  memOk_modBase h

theorem nextOk_execRefreshWindowEnd {base : ℕ} {s : State} (h : s.memOk) : NextOk (execRefreshWindowEnd base s) :=
  nextOk_event (fun _ hs => memOk_windowEnd hs) h

end Sys2Proof.Machine
end

section
/-!
PROOFS. The canonical form of HBM through the observation units (O54).
-/

set_option Elab.async false

namespace Sys2Proof.Machine

theorem memOk_beginExclusive {s : State} {part fn : ℕ} (h : s.memOk) : (s.beginExclusive part fn).memOk := by
  unfold State.beginExclusive
  refine memOk_foldl (fun _ _ hs => ?_) _ h
  split
  · exact memOk_ite (memOk_preemptCore hs) hs
  · exact hs

theorem memOk_endLease {s : State} {part : ℕ} (h : s.memOk) : (s.endLease part).memOk := by
  unfold State.endLease
  dsimp only
  exact memOk_postOnce (memOk_foldl (fun _ _ hs => memOk_modDie hs) _ (memOk_modPool h))

theorem memOk_leaseReq {s : State} {fn : ℕ} (h : s.memOk) : (s.leaseReq fn).memOk := by
  unfold State.leaseReq
  dsimp only
  split
  · exact memOk_modFn h
  · split
    · exact memOk_modFn h
    · split
      · exact memOk_modFn h
      · exact memOk_post (memOk_beginExclusive (memOk_foldl (fun _ _ hs => memOk_modDie hs) _ (memOk_modPool (memOk_modFn h))))

theorem nextOk_execPrfReq {fn : ℕ} {s : State} (h : s.memOk) : NextOk (execPrfReq fn s) :=
  nextOk_event (fun _ hs => memOk_leaseReq hs) h

theorem memOk_leaseRel {s : State} {fn : ℕ} (h : s.memOk) : (s.leaseRel fn).memOk := by
  unfold State.leaseRel
  refine memOk_foldl (fun _ _ hs => ?_) _ h
  split
  · exact memOk_ite (memOk_endLease hs) hs
  · exact hs

theorem nextOk_execPrfRel {fn : ℕ} {s : State} (h : s.memOk) : NextOk (execPrfRel fn s) :=
  nextOk_event (fun _ hs => memOk_leaseRel hs) h

theorem memOk_sliceSwap {s : State} {part : ℕ} (h : s.memOk) : (s.sliceSwap part).memOk := by
  unfold State.sliceSwap
  split
  · exact h
  · split
    · exact h
    · dsimp only
      exact memOk_postOnce (memOk_ite (memOk_post (memOk_modPool h)) (memOk_beginExclusive (memOk_post (memOk_modPool h))))

theorem nextOk_execProfilingSliceEnd {part : ℕ} {s : State} (h : s.memOk) : NextOk (execProfilingSliceEnd part s) :=
  nextOk_event (fun _ hs => memOk_sliceSwap hs) h

theorem nextOk_execFunctionReset {fn : ℕ} {s : State} (h : s.memOk) : NextOk (execFunctionReset fn s) :=
  nextOk_event (fun _ hs => memOk_leaseRel hs) h

theorem memOk_debugStop {s : State} {fn : ℕ} (h : s.memOk) : (s.debugStop fn).memOk := by
  unfold State.debugStop
  split
  · exact h
  · exact memOk_ite h (memOk_ite (memOk_haltCtx (memOk_modCtx h)) (memOk_modCtx h))

theorem nextOk_execDbgStop {fn : ℕ} {s : State} (h : s.memOk) : NextOk (execDbgStop fn s) :=
  nextOk_event (fun _ hs => memOk_debugStop hs) h

theorem memOk_debugResume {s : State} {fn : ℕ} (h : s.memOk) : (s.debugResume fn).memOk := by
  unfold State.debugResume
  split
  · exact h
  · split
    · exact h
    · exact memOk_ite (memOk_resumeCtx h) (memOk_modCtx h)

theorem nextOk_execDbgResume {fn : ℕ} {s : State} (h : s.memOk) : NextOk (execDbgResume fn s) :=
  nextOk_event (fun _ hs => memOk_debugResume hs) h

theorem memOk_traceOut {s : State} {c : ℕ} (h : s.memOk) : (s.traceOut c).memOk := by
  unfold State.traceOut
  dsimp only
  split
  · exact h
  · split
    · exact memOk_postOnce (memOk_drawBit h)
    · split
      · exact memOk_modCore (memOk_postOnce (memOk_drawBit h))
      · exact memOk_modCore (memOk_frontWrite _ _ _ (memOk_postOnce (memOk_drawBit h)))

theorem nextOk_execTraceRecordWrite {core : ℕ} {s : State} (h : s.memOk) : NextOk (execTraceRecordWrite core s) :=
  nextOk_event (fun _ hs => memOk_traceOut hs) h

theorem memOk_govern {s : State} (h : s.memOk) : s.govern.memOk := by
  unfold State.govern
  dsimp only
  exact memOk_ite (memOk_upd h) (memOk_ite (memOk_ite (memOk_countMod (memOk_upd h)) (memOk_upd h)) (memOk_upd h))

theorem nextOk_execGovernorInterval {s : State} (h : s.memOk) : NextOk (execGovernorInterval s) :=
  nextOk_event (fun _ hs => memOk_govern hs) h

theorem nextOk_execNoiseHealthFail {bay : ℕ} {s : State} (h : s.memOk) : NextOk (execNoiseHealthFail bay s) :=
  nextOk_event (fun _ hs => memOk_ite hs (memOk_error _ _ _ _ _ _ _ (memOk_modBay hs))) h

theorem nextOk_execNoiseHealthRecover {bay : ℕ} {s : State} (h : s.memOk) : NextOk (execNoiseHealthRecover bay s) :=
  nextOk_event (fun _ hs => memOk_ite hs (memOk_modBay hs)) h

end Sys2Proof.Machine
end

section
/-!
PROOFS. The canonical form of HBM through the host (O54).
-/

set_option Elab.async false

namespace Sys2Proof.Machine

theorem memOk_pickFree {s : State} {n : ℕ} {used : List ℕ} (h : s.memOk) : (s.pickFree n used).2.memOk := by
  unfold State.pickFree
  dsimp only
  exact memOk_drawNat h

theorem memOk_refuseCmd {s : State} {status : ℕ} (h : s.memOk) : (refuseCmd s status).1.memOk :=
  h

theorem memOk_ctxCreate {s : State} {fn : ℕ} {c : BitVec 512} (h : s.memOk) : (s.ctxCreate fn c).1.memOk := by
  unfold State.ctxCreate
  dsimp only
  split
  · exact memOk_refuseCmd h
  · split
    · exact memOk_refuseCmd h
    · split
      · split
        · exact memOk_refuseCmd h
        · dsimp only
          dsimp only [State.memOk]
          exact memOk_pickFree (memOk_pickFree h)
      · exact memOk_refuseCmd h

theorem memOk_ctxDestroy {s : State} {fn : ℕ} {c : BitVec 512} (h : s.memOk) : (s.ctxDestroy fn c).1.memOk := by
  unfold State.ctxDestroy
  dsimp only
  split
  · exact memOk_refuseCmd h
  · split
    · exact memOk_refuseCmd h
    · split
      · exact memOk_refuseCmd h
      · dsimp only
        exact memOk_ite (memOk_postOnce (memOk_modFn (memOk_ite (memOk_modFn (memOk_teardown (memOk_drawWord h))) (memOk_teardown (memOk_drawWord
            h))))) (memOk_ite (memOk_modFn (memOk_teardown (memOk_drawWord h))) (memOk_teardown (memOk_drawWord h)))

theorem memOk_qCreate {s : State} {fn : ℕ} {c : BitVec 512} (h : s.memOk) : (s.qCreate fn c).1.memOk := by
  unfold State.qCreate
  dsimp only
  split
  · exact memOk_refuseCmd h
  · split
    · exact memOk_refuseCmd h
    · split
      · exact memOk_refuseCmd h
      · split
        · exact memOk_refuseCmd h
        · split
          · exact memOk_refuseCmd h
          · split
            · exact memOk_refuseCmd h
            · split
              · dsimp only
                dsimp only [State.memOk]
                exact memOk_pickFree (memOk_pickFree h)
              · exact memOk_refuseCmd (memOk_pickFree (memOk_pickFree h))

theorem memOk_qDestroy {s : State} {fn : ℕ} {c : BitVec 512} (h : s.memOk) : (s.qDestroy fn c).1.memOk := by
  unfold State.qDestroy
  split
  · exact memOk_refuseCmd h
  · split
    · exact memOk_refuseCmd h
    · split
      · exact memOk_refuseCmd h
      · split
        · exact memOk_refuseCmd h
        · dsimp only
          exact memOk_upd h

theorem memOk_qPolicy {s : State} {fn : ℕ} {c : BitVec 512} (h : s.memOk) : (s.qPolicy fn c).1.memOk := by
  unfold State.qPolicy
  dsimp only
  split
  · exact memOk_refuseCmd h
  · split
    · exact memOk_refuseCmd h
    · split
      · exact memOk_refuseCmd h
      · split
        · exact memOk_refuseCmd h
        · dsimp only
          exact memOk_modQueue h

theorem memOk_ctxPolicy {s : State} {fn : ℕ} {c : BitVec 512} (h : s.memOk) : (s.ctxPolicy fn c).1.memOk := by
  unfold State.ctxPolicy
  dsimp only
  split
  · exact memOk_refuseCmd h
  · split
    · exact memOk_refuseCmd h
    · dsimp only
      exact memOk_modCtx h

theorem memOk_preemptCmd {s : State} {fn : ℕ} {c : BitVec 512} (h : s.memOk) : (s.preemptCmd fn c).1.memOk := by
  unfold State.preemptCmd
  dsimp only
  split
  · exact memOk_refuseCmd h
  · split
    · exact memOk_refuseCmd h
    · split
      · exact memOk_refuseCmd h
      · split
        · exact h
        · split
          · dsimp only
            exact memOk_post (memOk_modCtx h)
          · dsimp only
            exact memOk_askStop h

theorem memOk_resumeCmd {s : State} {fn : ℕ} {c : BitVec 512} (h : s.memOk) : (s.resumeCmd fn c).1.memOk := by
  unfold State.resumeCmd
  dsimp only
  split
  · exact memOk_refuseCmd h
  · split
    · exact memOk_refuseCmd h
    · split
      · exact memOk_refuseCmd h
      · dsimp only
        exact memOk_resumeCtx h

theorem memOk_vfAssign {s : State} {fn : ℕ} {c : BitVec 512} (h : s.memOk) : (s.vfAssign fn c).1.memOk := by
  unfold State.vfAssign
  dsimp only
  split
  · exact memOk_refuseCmd h
  · split
    · exact memOk_refuseCmd h
    · split
      · exact memOk_refuseCmd h
      · split
        · exact memOk_refuseCmd h
        · dsimp only
          exact memOk_modFn h

theorem memOk_modnumCmd {s : State} {fn : ℕ} {c : BitVec 512} (h : s.memOk) : (s.modnumCmd fn c).1.memOk := by
  unfold State.modnumCmd
  dsimp only
  split
  · exact memOk_refuseCmd h
  · split
    · exact memOk_refuseCmd h
    · dsimp only
      exact memOk_upd h

theorem memOk_writeStag {s t : State} {v : Nat} (h : s.memOk) (e : s.writeStag v = some t) : t.memOk := by
  unfold State.writeStag at e
  split at e
  dsimp only at e
  split at e
  · split at e
    · cases e
    · cases e
      exact memOk_stagger (memOk_upd h)
  · cases e
    exact memOk_upd h

theorem memOk_fwWrite {s t : State} {r v : Nat} (h : s.memOk) (e : s.fwWrite r v = some t) : t.memOk := by
  have hset : ∀ (p : Prop) [Decidable p] (x : State), (if p then some x else none) = some t → x.hbm = s.hbm → t.memOk := by
    intro p _ x he hx
    split at he
    · cases he
      exact memOk_of_hbm hx h
    · nomatch he
  unfold State.fwWrite at e
  split at e
  · exact hset _ _ e rfl
  · exact hset _ _ e rfl
  · exact hset _ _ e rfl
  · exact hset _ _ e rfl
  · cases e
    exact memOk_upd h
  · exact memOk_writeStag h e
  · nomatch e

theorem memOk_fwregCmd {s : State} {fn : Nat} {c : BitVec 512} (h : s.memOk) : (s.fwregCmd fn c).1.memOk := by
  unfold State.fwregCmd
  dsimp only
  split
  · exact memOk_refuseCmd h
  · split
    · exact memOk_refuseCmd h
    · split
      · exact h
      · split
        · rename_i e
          exact memOk_fwWrite h e
        · exact memOk_refuseCmd h

theorem memOk_cxlwinCmd {s : State} {fn : ℕ} {c : BitVec 512} (h : s.memOk) : (s.cxlwinCmd fn c).1.memOk := by
  unfold State.cxlwinCmd
  dsimp only
  split
  · exact memOk_refuseCmd h
  · split
    · exact memOk_refuseCmd h
    · split
      · exact memOk_refuseCmd h
      · dsimp only
        exact memOk_modFn h

theorem memOk_eraseKey {s : State} {key : ℕ} (h : s.memOk) : (s.eraseKey key).memOk :=
  memOk_upd h

theorem memOk_keyidCmd {s : State} {fn : ℕ} {c : BitVec 512} (h : s.memOk) : (s.keyidCmd fn c).1.memOk := by
  unfold State.keyidCmd
  dsimp only
  split
  · exact memOk_refuseCmd h
  · split
    · exact memOk_refuseCmd h
    · split
      · split
        · exact h
        · split
          · exact memOk_refuseCmd h
          · split
            · exact memOk_refuseCmd h
            · dsimp only
              exact memOk_modPool h
      · split
        · dsimp only
          exact memOk_eraseKey (memOk_modPool h)
        · exact memOk_refuseCmd h

theorem memOk_runCmd {s : State} {fn : ℕ} {c : BitVec 512} (h : s.memOk) : (s.runCmd fn c).1.memOk := by
  unfold State.runCmd
  split
  · exact memOk_ctxCreate h
  · exact memOk_ctxDestroy h
  · exact memOk_qCreate h
  · exact memOk_qDestroy h
  · exact memOk_qPolicy h
  · exact memOk_ctxPolicy h
  · exact memOk_preemptCmd h
  · exact memOk_resumeCmd h
  · exact memOk_vfAssign h
  · exact memOk_modnumCmd h
  · exact memOk_fwregCmd h
  · exact memOk_cxlwinCmd h
  · exact memOk_keyidCmd h
  · exact memOk_refuseCmd h

theorem memOk_answer {s : State} {fn : Nat} {r : State → CmdRes} (hr : ∀ s, s.memOk → (r s).1.memOk) (h : s.memOk) : (s.answer fn r).memOk := by
  unfold State.answer
  split
  · exact h
  · exact memOk_modFn (hr _ h)

theorem memOk_command {s : State} {fn : Nat} {c : BitVec 512} {code : Nat} {r : State → CmdRes} (hr : ∀ s, s.memOk → (r s).1.memOk)
    (h : s.memOk) : (s.command fn c code r).memOk :=
  memOk_ite (memOk_answer hr h) h

theorem nextOk_execCtxCreate {fn : ℕ} {cmd : BitVec 512} {s : State} (h : s.memOk) : NextOk (execCtxCreate fn cmd s) :=
  nextOk_event (fun _ hs => memOk_command (fun _ hs1 => memOk_ctxCreate hs1) hs) h

theorem nextOk_execCtxDestroy {fn : ℕ} {cmd : BitVec 512} {s : State} (h : s.memOk) : NextOk (execCtxDestroy fn cmd s) :=
  nextOk_event (fun _ hs => memOk_command (fun _ hs1 => memOk_ctxDestroy hs1) hs) h

theorem nextOk_execQCreate {fn : ℕ} {cmd : BitVec 512} {s : State} (h : s.memOk) : NextOk (execQCreate fn cmd s) :=
  nextOk_event (fun _ hs => memOk_command (fun _ hs1 => memOk_qCreate hs1) hs) h

theorem nextOk_execQDestroy {fn : ℕ} {cmd : BitVec 512} {s : State} (h : s.memOk) : NextOk (execQDestroy fn cmd s) :=
  nextOk_event (fun _ hs => memOk_command (fun _ hs1 => memOk_qDestroy hs1) hs) h

theorem nextOk_execQPolicy {fn : ℕ} {cmd : BitVec 512} {s : State} (h : s.memOk) : NextOk (execQPolicy fn cmd s) :=
  nextOk_event (fun _ hs => memOk_command (fun _ hs1 => memOk_qPolicy hs1) hs) h

theorem nextOk_execCtxPolicy {fn : ℕ} {cmd : BitVec 512} {s : State} (h : s.memOk) : NextOk (execCtxPolicy fn cmd s) :=
  nextOk_event (fun _ hs => memOk_command (fun _ hs1 => memOk_ctxPolicy hs1) hs) h

theorem nextOk_execPreempt {fn : ℕ} {cmd : BitVec 512} {s : State} (h : s.memOk) : NextOk (execPreempt fn cmd s) :=
  nextOk_event (fun _ hs => memOk_command (fun _ hs1 => memOk_preemptCmd hs1) hs) h

theorem nextOk_execCtxResume {fn : ℕ} {cmd : BitVec 512} {s : State} (h : s.memOk) : NextOk (execCtxResume fn cmd s) :=
  nextOk_event (fun _ hs => memOk_command (fun _ hs1 => memOk_resumeCmd hs1) hs) h

theorem nextOk_execVfAssign {fn : ℕ} {cmd : BitVec 512} {s : State} (h : s.memOk) : NextOk (execVfAssign fn cmd s) :=
  nextOk_event (fun _ hs => memOk_command (fun _ hs1 => memOk_vfAssign hs1) hs) h

theorem nextOk_execModnum {fn : ℕ} {cmd : BitVec 512} {s : State} (h : s.memOk) : NextOk (execModnum fn cmd s) :=
  nextOk_event (fun _ hs => memOk_command (fun _ hs1 => memOk_modnumCmd hs1) hs) h

theorem nextOk_execFwreg {fn : ℕ} {cmd : BitVec 512} {s : State} (h : s.memOk) : NextOk (execFwreg fn cmd s) :=
  nextOk_event (fun _ hs => memOk_command (fun _ hs1 => memOk_fwregCmd hs1) hs) h

theorem nextOk_execPwrstagSend {fn : ℕ} {cmd : BitVec 512} {s : State} (h : s.memOk) : NextOk (execPwrstagSend fn cmd s) :=
  nextOk_event (fun _ hs => memOk_ite (memOk_command (fun _ hs1 => memOk_fwregCmd hs1) hs) hs) h

theorem nextOk_execCxlwin {fn : ℕ} {cmd : BitVec 512} {s : State} (h : s.memOk) : NextOk (execCxlwin fn cmd s) :=
  nextOk_event (fun _ hs => memOk_command (fun _ hs1 => memOk_cxlwinCmd hs1) hs) h

theorem nextOk_execKeyid {fn : ℕ} {cmd : BitVec 512} {s : State} (h : s.memOk) : NextOk (execKeyid fn cmd s) :=
  nextOk_event (fun _ hs => memOk_command (fun _ hs1 => memOk_keyidCmd hs1) hs) h

theorem memOk_cxlRead {s : State} {fn off n : ℕ} (h : s.memOk) : (s.cxlRead fn off n).memOk := by
  unfold State.cxlRead
  dsimp only
  dsimp only [State.memOk]
  refine memOk_foldl_fst (fun _ _ hs => ?_) _ h
  split
  · exact hs
  · dsimp only
    exact memOk_watchHome (memOk_mscTouch hs)

theorem nextOk_execCxlMemRead {fn off n : ℕ} {s : State} (h : s.memOk) : NextOk (execCxlMemRead fn off n s) :=
  nextOk_event (fun _ hs => memOk_cxlRead hs) h

theorem memOk_cxlWrite {s : State} {fn off : ℕ} {bs : List Byte} (h : s.memOk) : (s.cxlWrite fn off bs).memOk := by
  unfold State.cxlWrite
  refine memOk_foldl (fun _ _ hs => ?_) _ h
  split
  · exact hs
  · exact memOk_homeWriteLine _ _ _ _ _ hs

theorem nextOk_execCxlMemWrite {fn off : ℕ} {bytes : List Byte} {s : State} (h : s.memOk) : NextOk (execCxlMemWrite fn off bytes s) :=
  nextOk_event (fun _ hs => memOk_cxlWrite hs) h

theorem memOk_lockNow {s : State} {fn : ℕ} (h : s.memOk) : (s.lockNow fn).memOk :=
  memOk_modFn h

theorem memOk_answerLocks {s : State} (h : s.memOk) : s.answerLocks.memOk :=
  memOk_foldl (fun _ _ hs => memOk_ite (memOk_lockNow hs) hs) _ h

theorem memOk_pcfgRefuse {s : State} {st : ℕ} (h : s.memOk) : (s.pcfgRefuse st).memOk := by
  unfold State.pcfgRefuse
  dsimp only
  exact memOk_foldl (fun _ _ hs => memOk_readNext hs) _ (memOk_answerLocks (memOk_upd h))

theorem memOk_pcfgClear {s : State} {new : ℕ} (h : s.memOk) : (s.pcfgClear new).memOk := by
  unfold State.pcfgClear
  dsimp only
  refine memOk_post ?_
  dsimp only [State.memOk]
  exact memOk_foldl (fun _ _ hs => memOk_modPool hs) _ (memOk_foldl (fun _ _ hs => memOk_eraseKey hs) _ (memOk_foldl (fun _ _ hs => memOk_teardown
      hs) _ (memOk_flushHomes (memOk_drawNat h))))

theorem memOk_pcfgCheck {s : State} {new : ℕ} (h : s.memOk) : (s.pcfgCheck new).memOk := by
  unfold State.pcfgCheck
  dsimp only
  exact memOk_ite (memOk_pcfgRefuse h) (memOk_ite (memOk_pcfgRefuse h) (memOk_pcfgClear h))

theorem memOk_pcfgStart {s : State} {new : Nat} (h : s.memOk) : (s.pcfgStart new).memOk := by
  unfold State.pcfgStart
  generalize usCycles 1000 = n
  extract_lets cur stay
  cases s.repart with
  | some => exact h
  | none => exact memOk_ite (memOk_upd h) (memOk_ite (memOk_upd h) (memOk_post (memOk_upd (memOk_drawNat h))))

theorem nextOk_execPcfgGo {new : BitVec 3} {s : State} (h : s.memOk) : NextOk (execPcfgGo new s) :=
  nextOk_event (fun _ hs => memOk_ite (memOk_pcfgStart hs) hs) h

theorem memOk_pcfgEnd {s : State} (h : s.memOk) : s.pcfgEnd.memOk := by
  unfold State.pcfgEnd
  split
  · exact h
  · exact memOk_ite h (memOk_pcfgCheck h)
  · split
    · exact h
    · split
      · exact memOk_post h
      · exact memOk_raise (memOk_answerLocks (wf_filter _ h))

theorem nextOk_execRepartitionDone {s : State} (h : s.memOk) : NextOk (execRepartitionDone s) :=
  nextOk_event (fun _ hs => memOk_pcfgEnd hs) h

theorem memOk_tdispLock {s : State} {fn : ℕ} (h : s.memOk) : (s.tdispLock fn).memOk := by
  unfold State.tdispLock
  split
  · exact h
  · split
    · exact memOk_ite (memOk_modFn h) (memOk_lockNow h)
    · exact memOk_lockNow h

theorem nextOk_execTdispLockInterface {fn : ℕ} {s : State} (h : s.memOk) : NextOk (execTdispLockInterface fn s) :=
  nextOk_event (fun _ hs => memOk_tdispLock hs) h

theorem nextOk_execTdispStartInterface {fn : ℕ} {s : State} (h : s.memOk) : NextOk (execTdispStartInterface fn s) :=
  nextOk_event (fun _ hs => memOk_ite (memOk_modFn hs) hs) h

theorem nextOk_execTdispStopInterface {fn : ℕ} {s : State} (h : s.memOk) : NextOk (execTdispStopInterface fn s) :=
  nextOk_event (fun _ hs => memOk_modFn hs) h

theorem memOk_spdm {s : State} {op : SpdmOp} (h : s.memOk) : (s.spdm op).memOk := by
  unfold State.spdm
  split
  · dsimp only
    exact memOk_upd h
  · exact memOk_upd h
  · exact memOk_ite (memOk_upd h) h
  · exact memOk_ite (memOk_eraseKey h) h

theorem nextOk_execSpdmRequest {op : SpdmOp} {s : State} (h : s.memOk) : NextOk (execSpdmRequest op s) :=
  nextOk_event (fun _ hs => memOk_spdm hs) h

theorem memOk_resetModule {s : State} {code : ℕ} (h : s.memOk) : (s.resetModule code).memOk := by
  unfold State.resetModule
  dsimp only
  exact memOk_upd h

theorem nextOk_execModuleReset {code : BitVec 8} {s : State} (h : s.memOk) : NextOk (execModuleReset code s) :=
  nextOk_event (fun _ hs => memOk_ite (memOk_resetModule hs) hs) h

theorem memOk_trainLink {s : State} {lanes rate : ℕ} (h : s.memOk) : (s.trainLink lanes rate).memOk := by
  unfold State.trainLink
  split
  · dsimp only
    exact memOk_ite (memOk_upd h) (memOk_error _ _ _ _ _ _ _ (memOk_drawNat (memOk_upd h)))
  · exact h

theorem nextOk_execHostLinkTraining {lanes rate : ℕ} {s : State} (h : s.memOk) : NextOk (execHostLinkTraining lanes rate s) :=
  nextOk_event (fun _ hs => memOk_trainLink hs) h

theorem memOk_modDcnt {s : State} {fn : ℕ} {f : DCnt → DCnt} (h : s.memOk) : (s.modDcnt fn f).memOk := by
  unfold State.modDcnt
  dsimp only
  split
  · exact memOk_modDie h
  · exact memOk_modDie h
  · exact h

theorem memOk_doorbell {s : State} {fn : ℕ} (h : s.memOk) : (s.doorbell fn).memOk :=
  memOk_ite h (memOk_answer (fun _ hs => memOk_runCmd hs) h)

theorem memOk_migCmd {s : State} {fn cmd : ℕ} (h : s.memOk) : (s.migCmd fn cmd).memOk := by
  unfold State.migCmd
  split
  · exact memOk_migBegin h
  · exact memOk_migFinish h
  · exact memOk_migStop h
  · exact h

theorem memOk_writeLow {s : State} {fn off : Nat} {val : Word} (h : s.memOk) : (s.writeLow fn off val).memOk :=
  memOk_ite (memOk_kickAt h) <| memOk_ite (memOk_modFn h) <|
  memOk_ite (memOk_ite (memOk_tsdStart (memOk_modFn h)) (memOk_modFn h)) <|
  memOk_ite (memOk_modFn h) <| memOk_ite (memOk_modFn h) <| memOk_ite (memOk_migCmd (memOk_modFn h)) <|
  memOk_ite (memOk_ite h (memOk_ite (memOk_pcfgStart (memOk_upd h)) (memOk_upd h))) <|
  memOk_ite (memOk_modFn h) <| memOk_ite (memOk_ite (memOk_doorbell h) h) h

theorem memOk_writeHigh {s : State} {fn off : ℕ} {val : Word} (h : s.memOk) : (s.writeHigh fn off val).memOk := by
  unfold State.writeHigh
  dsimp only
  exact memOk_ite (memOk_modFn h) (memOk_ite (memOk_ite (memOk_faultReplyOf (memOk_modFn h)) (memOk_modFn h)) (memOk_ite (memOk_modFn h) (memOk_ite
      (memOk_modFn h) (memOk_ite (memOk_modFn h) (memOk_ite (memOk_modDcnt h) (memOk_ite (memOk_modDcnt h) (memOk_ite (memOk_ite (memOk_upd h) h)
      (memOk_ite (memOk_ite (memOk_upd h) h) (memOk_ite (memOk_ite (memOk_leaseReq (memOk_ite (memOk_leaseRel (memOk_modFn h)) (memOk_modFn h)))
      (memOk_ite (memOk_leaseRel (memOk_modFn h)) (memOk_modFn h))) (memOk_ite (memOk_ite (memOk_debugResume (memOk_ite (memOk_debugStop
      (memOk_modFn h)) (memOk_modFn h))) (memOk_ite (memOk_debugStop (memOk_modFn h)) (memOk_modFn h))) (memOk_ite (memOk_modBase h) h)))))))))))

theorem nextOk_execRegisterWrite {fn off : ℕ} {val : Word} {s : State} (h : s.memOk) : NextOk (execRegisterWrite fn off val s) :=
  nextOk_event (fun _ hs => memOk_ite hs (memOk_ite (memOk_writeLow hs) (memOk_writeHigh hs))) h

end Sys2Proof.Machine
end

section
/-!
PROOFS. The canonical form of HBM through the cycle (O54).
-/

set_option Elab.async false

namespace Sys2Proof.Machine

theorem memOk_dropLease {s : State} {c : ℕ} (h : s.memOk) : (s.dropLease c).memOk := by
  unfold State.dropLease
  dsimp only
  exact memOk_modBay (memOk_ite (memOk_endGrant h) h)

theorem memOk_stopStrm {s : State} {c : ℕ} {x : Strm} {j : Job} (h : s.memOk) : (s.stopStrm c x j).memOk := by
  unfold State.stopStrm
  dsimp only
  split
  · split
    · exact memOk_modStrm (memOk_ite (memOk_dropLease (M.KeepsMem.ok keepsMem_traceRec h)) (M.KeepsMem.ok keepsMem_traceRec h))
    · exact memOk_takeTrap (memOk_upd h)
    · exact memOk_countHead h
  · exact memOk_countHead (memOk_modStrm (memOk_ite (memOk_dropLease h) h))

theorem memOk_issueWords {s : State} {c : ℕ} {x : Strm} {j : Job} {w : Fetched} (h : s.memOk) : (s.issueWords c x j w).1.memOk := by
  unfold State.issueWords
  dsimp only
  split
  · dsimp only
    exact memOk_stopAt (memOk_upd h) (memOk_upd h)
  · split
    · split
      · dsimp only
        exact memOk_holdAt (memOk_drawBit (memOk_upd h))
      · dsimp only
        exact memOk_drawBit (memOk_upd h)
    · split
      · dsimp only
        exact memOk_holdAt (memOk_upd h)
      · dsimp only
        exact memOk_upd h

theorem memOk_tryIssue {s : State} {c : ℕ} {x : Strm} {j : Job} (h : s.memOk) : (s.tryIssue c x j).1.memOk := by
  unfold State.tryIssue
  split
  · split
    · exact memOk_issueWords h
    · dsimp only
      split
      · exact memOk_issueWords (memOk_fetchAt h)
      · dsimp only
        exact memOk_countHead (memOk_fetchAt h)
  · dsimp only
    split
    · exact memOk_issueWords (memOk_fetchAt h)
    · dsimp only
      exact memOk_countHead (memOk_fetchAt h)

theorem memOk_trySecond {s : State} {c : ℕ} {j : Job} {a : CxUse} (h : s.memOk) : (s.trySecond c j a).1.memOk := by
  unfold State.trySecond
  dsimp only
  split
  · exact h
  · split
    · exact h
    · split
      · exact h
      · split
        · dsimp only
          dsimp only [State.memOk]
          split
          · split <;> exact h
          · split
            · dsimp only
              exact memOk_modStrm (memOk_fst (memOk_codeWord h))
            · exact h
        · exact h

theorem memOk_visitLive {s : State} {c : ℕ} {x : Strm} (h : s.memOk) : (s.visitLive c x).1.memOk := by
  unfold State.visitLive
  dsimp only
  split
  · exact h
  · split
    · dsimp only
      exact memOk_countHead h
    · split
      · dsimp only
        exact memOk_countHead h
      · split
        · exact h
        · exact memOk_tryIssue h

theorem memOk_visit {s : State} {c : ℕ} {x : Strm} (h : s.memOk) : (s.visit c x).1.memOk := by
  unfold State.visit
  split
  · exact h
  · dsimp only
    split
    · exact memOk_trySecond h
    · split
      · dsimp only
        exact memOk_countHead h
      · split
        · dsimp only
          exact memOk_stopStrm h
        · split
          · split
            · exact memOk_visitLive (memOk_modJob (memOk_modBay h))
            · dsimp only
              exact memOk_countHead (memOk_ite (memOk_leaseAsk h) h)
          · exact memOk_visitLive h

theorem memOk_settleCores {s : State} (h : s.memOk) : s.settleCores.memOk :=
  memOk_foldl (fun _ _ hs => memOk_ite (memOk_postOnce hs) (memOk_ite (memOk_yieldStop hs) (memOk_ite (memOk_postOnce hs) hs))) _ h

theorem memOk_countLate {s : State} (h : s.memOk) : s.countLate.memOk := by
  unfold State.countLate
  refine memOk_foldl (fun _ _ hs => ?_) _ h
  split
  · exact hs
  · refine memOk_foldl (fun _ _ hs1 => ?_) _ hs
    dsimp only
    split
    · exact hs1
    · split
      · exact memOk_countHead hs1
      · split
        · exact memOk_countHead hs1
        · exact hs1

theorem memOk_beginCore {s : State} {c : ℕ} (h : s.memOk) : (s.beginCore c).memOk := by
  unfold State.beginCore
  split
  · exact memOk_foldl (fun _ _ hs => memOk_ite (memOk_postEarly hs) hs) _ h
  · split
    · exact memOk_postOnce h
    · exact h

theorem memOk_tick {s : State} (h : s.memOk) : s.tick.memOk := by
  unfold State.tick
  dsimp only
  exact memOk_ite (memOk_foldl (fun _ _ hs => memOk_ite hs (memOk_post hs)) _ (memOk_ite (memOk_post (memOk_foldl (fun _ _ hs => memOk_ite hs
      (memOk_postOnce hs)) _ (memOk_ite (memOk_foldl (fun _ _ hs => memOk_beginCore hs) _ (memOk_upd h)) (memOk_servePorts (memOk_foldl (fun _ _ hs
      => memOk_beginCore hs) _ (memOk_upd h)))))) (memOk_foldl (fun _ _ hs => memOk_ite hs (memOk_postOnce hs)) _ (memOk_ite (memOk_foldl (fun _ _
      hs => memOk_beginCore hs) _ (memOk_upd h)) (memOk_servePorts (memOk_foldl (fun _ _ hs => memOk_beginCore hs) _ (memOk_upd h))))))) (memOk_ite
      (memOk_post (memOk_foldl (fun _ _ hs => memOk_ite hs (memOk_postOnce hs)) _ (memOk_ite (memOk_foldl (fun _ _ hs => memOk_beginCore hs) _
      (memOk_upd h)) (memOk_servePorts (memOk_foldl (fun _ _ hs => memOk_beginCore hs) _ (memOk_upd h)))))) (memOk_foldl (fun _ _ hs => memOk_ite
      hs (memOk_postOnce hs)) _ (memOk_ite (memOk_foldl (fun _ _ hs => memOk_beginCore hs) _ (memOk_upd h)) (memOk_servePorts (memOk_foldl (fun _ _
      hs => memOk_beginCore hs) _ (memOk_upd h))))))

theorem memOk_finishCycle {s : State} (h : s.memOk) : s.finishCycle.memOk := by
  unfold State.finishCycle
  split
  · exact memOk_upd h
  · dsimp only
    exact memOk_ite (memOk_settleCores h) (memOk_tick (memOk_countLate (memOk_settleCores h)))

theorem memOk_rest {s : State} (h : s.memOk) : s.rest.1.memOk := by
  unfold State.rest
  split
  · split
    · dsimp only
      exact memOk_upd h
    · dsimp only
      exact memOk_finishCycle h
  · dsimp only
    exact memOk_finishCycle h

theorem memOk_nextTurn {s : State} (h : s.memOk) : s.nextTurn.1.memOk := by
  unfold State.nextTurn
  split
  · exact memOk_visit (memOk_upd h)
  · exact memOk_rest h

theorem memOk_next {s0 : State} (h : s0.memOk) : s0.next.1.memOk := by
  unfold State.next
  dsimp only
  split
  · dsimp only
    exact memOk_upd h
  · split
    · split
      · dsimp only
        exact memOk_upd h
      · exact memOk_nextTurn (memOk_upd h)
    · exact memOk_nextTurn (memOk_upd h)

end Sys2Proof.Machine
end

section
/-!
PROOFS. The canonical form of HBM through the dispatch of instructions and events (O54).
-/

set_option Elab.async false

namespace Sys2Proof.Machine

theorem nextOk_exec {i : Instr} {s : State} (h : s.memOk) : NextOk (exec i s) := by
  unfold exec
  split
  · exact nextOk_execNop h
  · exact nextOk_execTrap h
  · exact nextOk_execBkpt h
  · exact nextOk_execYield h
  · exact nextOk_execExit h
  · exact nextOk_execRdv h
  · exact nextOk_execRendezvousRelease h
  · exact nextOk_execPmark h
  · exact nextOk_execSysrd h
  · exact nextOk_execSyswr h
  · exact nextOk_execCntrd h
  · exact nextOk_execBr h
  · exact nextOk_execBrl h
  · exact nextOk_execBri h
  · exact nextOk_execBril h
  · exact nextOk_execLoop h
  · exact nextOk_execMloop h
  · exact nextOk_execLbrk h
  · exact nextOk_execRep h
  · exact nextOk_execPand h
  · exact nextOk_execPor h
  · exact nextOk_execPxor h
  · exact nextOk_execPandn h
  · exact nextOk_execPmov h
  · exact nextOk_execQtest h
  · exact nextOk_execAdd h
  · exact nextOk_execSub h
  · exact nextOk_execMul h
  · exact nextOk_execMulh h
  · exact nextOk_execMulhu h
  · exact nextOk_execDiv h
  · exact nextOk_execDivu h
  · exact nextOk_execRem h
  · exact nextOk_execRemu h
  · exact nextOk_execMadd h
  · exact nextOk_execLea h
  · exact nextOk_execAnd h
  · exact nextOk_execOr h
  · exact nextOk_execXor h
  · exact nextOk_execAndn h
  · exact nextOk_execShl h
  · exact nextOk_execShr h
  · exact nextOk_execSra h
  · exact nextOk_execRot h
  · exact nextOk_execClz h
  · exact nextOk_execPopc h
  · exact nextOk_execBext h
  · exact nextOk_execBins h
  · exact nextOk_execMin h
  · exact nextOk_execMax h
  · exact nextOk_execMinu h
  · exact nextOk_execMaxu h
  · exact nextOk_execSel h
  · exact nextOk_execMov h
  · exact nextOk_execCmp h
  · exact nextOk_execFadd h
  · exact nextOk_execFsub h
  · exact nextOk_execFmul h
  · exact nextOk_execFfma h
  · exact nextOk_execFmin h
  · exact nextOk_execFmax h
  · exact nextOk_execFcmp h
  · exact nextOk_execFcvt h
  · exact nextOk_execFrnd h
  · exact nextOk_execLd h
  · exact nextOk_execVld h
  · exact nextOk_execVldx h
  · exact nextOk_execPref h
  · exact nextOk_execSt h
  · exact nextOk_execVst h
  · exact nextOk_execVstx h
  · exact nextOk_execGst h
  · exact nextOk_execGalleryArrival h
  · exact nextOk_execSbind h
  · exact nextOk_execStreamBlockFetch h
  · exact nextOk_execSnext h
  · exact nextOk_execStest h
  · exact nextOk_execSdrop h
  · exact nextOk_execTlook h
  · exact nextOk_execTset h
  · exact nextOk_execTinv h
  · exact nextOk_execFeset h
  · exact nextOk_execFeclr h
  · exact nextOk_execFetest h
  · exact nextOk_execL1wb h
  · exact nextOk_execL1inv h
  · exact nextOk_execFence h
  · exact nextOk_execAadd h
  · exact nextOk_execAmin h
  · exact nextOk_execAmax h
  · exact nextOk_execAand h
  · exact nextOk_execAor h
  · exact nextOk_execAxor h
  · exact nextOk_execAxch h
  · exact nextOk_execAcas h
  · exact nextOk_execAfadd h
  · exact nextOk_execLda h
  · exact nextOk_execStl h
  · exact nextOk_execWaitt h
  · exact nextOk_execTlrd h
  · exact nextOk_execTladv h
  · exact nextOk_execVadd h
  · exact nextOk_execVsub h
  · exact nextOk_execVmul h
  · exact nextOk_execVfma h
  · exact nextOk_execVmin h
  · exact nextOk_execVmax h
  · exact nextOk_execVabs h
  · exact nextOk_execVneg h
  · exact nextOk_execVand h
  · exact nextOk_execVor h
  · exact nextOk_execVxor h
  · exact nextOk_execVshl h
  · exact nextOk_execVshr h
  · exact nextOk_execViadd h
  · exact nextOk_execVimul h
  · exact nextOk_execVmov h
  · exact nextOk_execVbcst h
  · exact nextOk_execVsel h
  · exact nextOk_execVshuf h
  · exact nextOk_execVrot h
  · exact nextOk_execVext h
  · exact nextOk_execVins h
  · exact nextOk_execVcmp h
  · exact nextOk_execKand h
  · exact nextOk_execKor h
  · exact nextOk_execKnot h
  · exact nextOk_execKpopc h
  · exact nextOk_execVcvt h
  · exact nextOk_execVqnt h
  · exact nextOk_execVdq h
  · exact nextOk_execVbmax h
  · exact nextOk_execVred h
  · exact nextOk_execVredLanding h
  · exact nextOk_execVrmov h
  · exact nextOk_execVscan h
  · exact nextOk_execVsfu h
  · exact nextOk_execVsmax h
  · exact nextOk_execVrng h
  · exact nextOk_execNoiseGrant h
  · exact nextOk_execResultDelivery h
  · exact nextOk_execLease h
  · exact nextOk_execLeaseGrant h
  · exact nextOk_execLrel h
  · exact nextOk_execMma h
  · exact nextOk_execMmas h
  · exact nextOk_execMzero h
  · exact nextOk_execKStepEntry h
  · exact nextOk_execSparsityStallTimeout h
  · exact nextOk_execArrayCommandComplete h
  · exact nextOk_execMfmt h
  · exact nextOk_execMscl h
  · exact nextOk_execMsq h
  · exact nextOk_execMret h
  · exact nextOk_execRetirementStart h
  · exact nextOk_execRetirementComplete h
  · exact nextOk_execWcsld h
  · exact nextOk_execWbind h
  · exact nextOk_execWunb h
  · exact nextOk_execWcsrd h
  · exact nextOk_execWstat h
  · exact nextOk_execCustomOpcode h
  · exact nextOk_execMicroStep h
  · exact nextOk_execPageFetch h
  · exact nextOk_execLtag h
  · exact nextOk_execLfree h
  · exact nextOk_execLdesc h
  · exact nextOk_execLsend h
  · exact nextOk_execLstat h
  · exact nextOk_execLorph h
  · exact nextOk_execFragmentArrival h
  · exact nextOk_execFragmentAnswer h
  · exact nextOk_execFragmentResend h
  · exact nextOk_execOverflowReadback h
  · exact nextOk_execLandingDelivery h
  · exact nextOk_execOrphanTimeout h
  · exact nextOk_execCego h
  · exact nextOk_execCestop h
  · exact nextOk_execCestat h
  · exact nextOk_execChainCopy h
  · exact nextOk_execChainLoop h
  · exact nextOk_execChainIf h
  · exact nextOk_execChainWait h
  · exact nextOk_execChainSignal h
  · exact nextOk_execChainNotify h
  · exact nextOk_execChainEnd h
  · exact nextOk_execCtab h
  · exact nextOk_execCtile h
  · exact nextOk_execTileFireComplete h
  · exact nextOk_execCringSet h
  · exact nextOk_execCringDone h
  · exact nextOk_execCringStat h
  · exact nextOk_execRslotReq h
  · exact nextOk_execRslotRel h
  · exact nextOk_execRslotAnswer h
  · exact nextOk_execStepSend h
  · exact nextOk_execStepRecv h
  · exact nextOk_execStepReduce h
  · exact nextOk_execStepWaitf h
  · exact nextOk_execStepNext h
  · exact nextOk_execFabricAckTimeout h
  · exact nextOk_execStepWaitTimeout h
  · exact nextOk_execStaggerRelease h
  · exact nextOk_execInstructionFetch h
  · exact nextOk_execMemoryAccessPerformed h
  · exact nextOk_execLateFault h
  · exact nextOk_execStoreAck h
  · exact nextOk_execHomeRequestApply h
  · exact nextOk_execQueueDeadlock h
  · exact nextOk_execTimelineWaitTimeout h
  · exact nextOk_execFullEmptyTimeout h
  · exact nextOk_execDrawWaitTimeout h
  · exact nextOk_execWcsldWaitTimeout h
  · exact nextOk_execLandingCreditTimeout h
  · exact nextOk_execJobStart h
  · exact nextOk_execJobCompletion h
  · exact nextOk_execOperatorRecord h
  · exact nextOk_execCollectiveRecord h
  · exact nextOk_execWaitRecord h
  · exact nextOk_execWaitRecordPoll h
  · exact nextOk_execSignalRecord h
  · exact nextOk_execTiletabRecord h
  · exact nextOk_execCsimageRecord h
  · exact nextOk_execRslotRecord h
  · exact nextOk_execRecordReady h
  · exact nextOk_execChunkHandout h
  · exact nextOk_execRecordCompletion h
  · exact nextOk_execTimeSliceExpiry h
  · exact nextOk_execNewelElection h
  · exact nextOk_execPreemptionStopComplete h
  · exact nextOk_execContextRestore h
  · exact nextOk_execYieldDeadline h
  · exact nextOk_execRefreshWindowEnd h
  · exact nextOk_execShootdownComplete h
  · exact nextOk_execMigrationCopy h
  · exact nextOk_execRepartitionDone h
  · exact nextOk_execGovernorInterval h
  · exact nextOk_execProfilingSliceEnd h
  · exact nextOk_execTraceRecordWrite h
  · exact nextOk_execFabricLineArrival h
  · exact nextOk_execFabricLinkFailure h
  · exact nextOk_execStaggerMessage h
  · exact nextOk_execRemoteRequest h
  · exact nextOk_execNoiseHealthFail h
  · exact nextOk_execKick h
  · exact nextOk_execDieFence h
  · exact nextOk_execBoundaryFailure h
  · exact nextOk_execFaultReply h
  · exact nextOk_execArchStateError h
  · exact nextOk_execHbmUncorrectable h
  · exact nextOk_execCorrectableError h
  · exact nextOk_execRowActivation h
  · exact nextOk_execTsdGo h
  · exact nextOk_execMigStart h
  · exact nextOk_execMigEnd h
  · exact nextOk_execMigAbort h
  · exact nextOk_execCxlMemRead h
  · exact nextOk_execCxlMemWrite h
  · exact nextOk_execPcfgGo h
  · exact nextOk_execCtxCreate h
  · exact nextOk_execCtxDestroy h
  · exact nextOk_execQCreate h
  · exact nextOk_execQDestroy h
  · exact nextOk_execQPolicy h
  · exact nextOk_execCtxPolicy h
  · exact nextOk_execPreempt h
  · exact nextOk_execCtxResume h
  · exact nextOk_execVfAssign h
  · exact nextOk_execModnum h
  · exact nextOk_execFwreg h
  · exact nextOk_execPwrstagSend h
  · exact nextOk_execCxlwin h
  · exact nextOk_execKeyid h
  · exact nextOk_execTdispLockInterface h
  · exact nextOk_execSpdmRequest h
  · exact nextOk_execModuleReset h
  · exact nextOk_execHostLinkTraining h
  · exact nextOk_execPrfReq h
  · exact nextOk_execPrfRel h
  · exact nextOk_execDbgStop h
  · exact nextOk_execDbgResume h
  · exact nextOk_execRegisterWrite h
  · exact nextOk_execNoiseHealthRecover h
  · exact nextOk_execFunctionReset h
  · exact nextOk_execTdispStartInterface h
  · exact nextOk_execTdispStopInterface h

end Sys2Proof.Machine
end

section
/-!
PROOFS. Every step keeps the canonical form of HBM (O54).
-/

namespace Sys2Proof.Machine

/-- A step is what comes next and, where an instruction or event runs, its execution; both keep the form. -/
theorem nextOk_step {s : State} (h : s.memOk) : NextOk (step s) := by
  unfold step
  split
  · rename_i e
    exact nextOk_next (memOk_fst (memOk_next h) e)
  · rename_i e
    exact nextOk_exec (memOk_fst (memOk_next h) e)

/-- Settles O54: each operation of the machine leaves HBM as it was, or writes it by the bytes of a line, by a filter or by a reset, which the
laws of memory show to keep the form. -/
theorem memoryForm : Obligations.MemoryForm := fun _ _ hs h => nextOk_step hs _ h

end Sys2Proof.Machine
end

section
/-!
PROOFS. The instructions of the fabric: CTAB, CTILE, CRING and RSLOT, and the switch's answer (O39).
-/

namespace Sys2Proof.Machine

/-! ### Channels of a context -/

/-- A context that a change names reads as the change makes it. -/
theorem ctx_modCtx_same {s : State} {n : Nat} {x : Ctx} (f : Ctx → Ctx) (hx : s.ctx? n = some x) : (s.modCtx n f).ctx? n = some (f x) := by
  rw [ctx_modCtx, if_pos rfl, hx]
  rfl

theorem chanOf_some {s : State} {ctx ch : Nat} {k : Chan} : s.chanOf ctx ch = some k ↔ ∃ x, s.ctx? ctx = some x ∧ x.chan ch = k :=
  Option.map_eq_some_iff

/-- A channel that a change names reads as the change makes it. -/
theorem chanOf_modChan {s : State} {ctx ch : Nat} {k : Chan} (f : Chan → Chan) (hk : s.chanOf ctx ch = some k) :
    (s.modChan ctx ch f).chanOf ctx ch = some (f k) := by
  obtain ⟨x, hx, rfl⟩ := chanOf_some.1 hk
  refine chanOf_some.2 ⟨_, ctx_modCtx_same _ hx, ?_⟩
  simp [Ctx.chan]

section
variable {g : Guard} {d : Dest} {a b : Src} {s s1 : State} {u : Cur} {v : Word}

/-- A channel operand in range. -/
theorem readChan_run (hv : readScalar u a s = .ok v s1) (h : v.toNat ≤ 63) : readChan u a s = .ok v.toNat s1 :=
  M.bind_run hv (M.bind_run (trapIf_run (decide_eq_false (by omega))) rfl)

theorem ctab_completes {base n : Word} {x : Ctx} (hr : Runs s u g) (hs : source2 u a b s = .ok (base, n) s1) (hn : n.toNat ≤ 65536)
    (hb : base.toNat % 64 = 0) (hx : s1.ctx? (s1.jobAt u.core).ctx = some x) (hf : x.fires = []) :
    Completes (.ctab g a b) s u .next (s1.setTiles (s1.jobAt u.core).ctx base.toNat n.toNat) := by
  obtain ⟨he, _, hx1, hx2⟩ := source2_ok.1 hs
  refine issueNext_ok hr (M.bind_run (ensure_run he) (M.bind_run hx1 (M.bind_run hx2 ?_)))
  refine M.bind_run (trapIf_run (decide_eq_false (by omega))) (M.bind_run (trapIf_run (by simp [hb])) (M.bind_run getCtx_run
    (M.bind_run M.get_run (M.bind_run (holdIf_run ?_) modify_run))))
  rw [hx, Option.map_some, Option.getD_some, hf]
  rfl

theorem cringRead_completes {i : Instr} {f : Chan → Word} {k : Chan} (hr : Runs s u g)
    (hi : exec i s = issueNext g (fun u => do
      needSpace u d
      ensure u [.scalar a]
      let ch ← readChan u a
      let ctx ← getCtx u
      deliver u d ((((← get).ctx? ctx).map (fun x => f (x.chan ch))).getD 0)) s)
    (hs : operand1 u d a s = .ok v s1) (hv : v.toNat ≤ 63) (hk : s1.chanOf (s1.jobAt u.core).ctx v.toNat = some k) :
    Completes i s u .next (s1.delivered u d (f k)) := by
  obtain ⟨hd, he, hx⟩ := operand1_ok.1 hs
  obtain ⟨x, hc, rfl⟩ := chanOf_some.1 hk
  refine hi.trans (issueNext_ok hr (M.bind_run (needSpace_run hd) (M.bind_run (ensure_run he) (M.bind_run (readChan_run hx hv)
    (M.bind_run getCtx_run (M.bind_run M.get_run ?_))))))
  rw [hc]
  exact deliver_run

theorem rslotRel_completes (hr : Runs s u g) (hs : source1 u a s = .ok v s1) (hv : v.toNat ≤ 63) :
    Completes (.rslotRel g a) s u .next (s1.releaseSlot (s1.jobAt u.core).ctx v.toNat) := by
  obtain ⟨he, hx⟩ := source1_ok.1 hs
  exact issueNext_ok hr (M.bind_run (ensure_run he) (M.bind_run (readChan_run hx hv) (M.bind_run getCtx_run modify_run)))

/-- A CRING.set that may install its descriptor does. -/
theorem cringSet_completes {ctx ch : Nat} {k : Chan} {peers : List (Nat × Nat)} (hr : Runs s u g)
    (h : ringReady u a b s = .ok (ctx, ch, k, peers) s1) : Completes (.cringSet g a b) s u .next (s1.modChan ctx ch (fun y =>
      { y with set := true, rbase := k.rbase, nslot := k.nslot, slog := k.slog, peers := peers, flg := 0 })) := by
  refine issueNext_ok hr ?_
  obtain ⟨_, _, he, h⟩ := M.bind_ok.1 h
  obtain ⟨c, _, hc, h⟩ := M.bind_ok.1 h
  obtain ⟨at_, _, ha, h⟩ := M.bind_ok.1 h
  obtain ⟨n, _, hn, h⟩ := M.bind_ok.1 h
  obtain ⟨_, _, hg, h⟩ := M.bind_ok.1 h
  obtain ⟨_, _, hw, h⟩ := M.bind_ok.1 h
  obtain ⟨bs, _, hb, h⟩ := M.bind_ok.1 h
  refine M.bind_run he (M.bind_run hc (M.bind_run ha (M.bind_run hn (M.bind_run hg (M.bind_run hw (M.bind_run hb ?_))))))
  cases hd : chanDesc bs with
  | none => rw [hd] at h; exact (M.throw_ok.1 h).elim
  | some q =>
    obtain ⟨k', ptab, np⟩ := q
    rw [hd] at h
    obtain ⟨ps, _, hps, h⟩ := M.bind_ok.1 h
    refine M.bind_run hps ?_
    cases hp : peerTable ps np with
    | none => rw [hp] at h; exact (M.throw_ok.1 h).elim
    | some peers' =>
      rw [hp] at h
      obtain ⟨_, _, hcl, h⟩ := M.bind_ok.1 h
      obtain ⟨h, rfl⟩ := M.pure_ok.1 h
      cases h
      exact M.bind_run hcl modify_run


/-- A CTILE that may fire takes its number and fires. -/
theorem ctile_completes {ctr : BitVec 4} {ctx i : Nat} {t : TileEnt} {stamp : Word} {lines : List (List Byte)} {dsts : List RowDst} (hr : Runs s u g)
    (h : tileReady u d ctr a b s = .ok (ctx, i, t, stamp, lines, dsts) s1) (hl : (s1.strmAt u.core u.strm).log = [])
    (hc : (((s1.handed u).jobAt u.core).ctr ctr.toNat).canTake 1 = true) :
    Completes (.ctile g d ctr a b) s u .next ((((s1.handed u).numbered u.core ctr).fired u ctx i t ctr
      ((s1.handed u).nextNum u.core ctr) stamp lines dsts (s1.die (coreDie u.core)).clock).delivered u d ((s1.handed u).nextNum u.core ctr)) := by
  refine issueNext_ok hr ?_
  obtain ⟨⟨x, y⟩, s2, hxy, h⟩ := M.bind_ok.1 h
  obtain ⟨hd, he, s3, hx, hy⟩ := operand2_ok.1 hxy
  refine M.bind_run (needSpace_run hd) (M.bind_run (ensure_run he) (M.bind_run hx (M.bind_run hy ?_)))
  obtain ⟨n, _, hn, h⟩ := M.bind_ok.1 h
  obtain ⟨n', _, hg, h⟩ := M.bind_ok.1 h
  refine M.bind_run hn (M.bind_run hg ?_)
  cases hcx : n'.ctx? n with
  | none => rw [hcx] at h; exact (M.throw_ok.1 h).elim
  | some cx =>
    rw [hcx] at h
    obtain ⟨_, _, hbound, h⟩ := M.bind_ok.1 h
    obtain ⟨e, _, hentry, h⟩ := M.bind_ok.1 h
    refine M.bind_run hbound (M.bind_run hentry ?_)
    cases ht : tileEnt e with
    | none => rw [ht] at h; exact (M.throw_ok.1 h).elim
    | some t' =>
      rw [ht] at h
      obtain ⟨_, _, hfree, h⟩ := M.bind_ok.1 h
      obtain ⟨j, _, hj, h⟩ := M.bind_ok.1 h
      obtain ⟨_, _, hnum, h⟩ := M.bind_ok.1 h
      obtain ⟨bs, _, hbs, h⟩ := M.bind_ok.1 h
      obtain ⟨ws, _, hws, h⟩ := M.bind_ok.1 h
      obtain ⟨h, rfl⟩ := M.pure_ok.1 h
      cases h
      exact M.bind_run hfree (M.bind_run hj (M.bind_run hnum (M.bind_run hbs (M.bind_run hws (M.bind_run M.get_run
        (M.bind_run (handOver_run hl) (M.bind_run (takeNumber_run hc) (M.bind_run modify_run deliver_run))))))))

/-- The word of a grant: bit 63 and the slot. -/
theorem slotWord_eq (n : BitVec 16) : slotWord n = BitVec.ofNat 64 (2 ^ 63 + n.toNat) := by
  apply BitVec.eq_of_toNat_eq
  have h := n.isLt
  have hor := Nat.two_pow_add_eq_or_of_lt (i := 63) (b := n.toNat) (by omega) 1
  simp only [slotWord, BitVec.toNat_or, BitVec.toNat_setWidth, BitVec.toNat_ofNat]
  rw [Nat.mod_eq_of_lt (show n.toNat < 2 ^ 64 by omega), Nat.mod_eq_of_lt (show 2 ^ 63 + n.toNat < 2 ^ 64 by omega)]
  exact hor.symm

/-- What an RSLOT.req does with the channel it names, once it has read its operands. -/
def slotBody (u : Cur) (d : Dest) (ch : Nat) (k : Chan) : M Unit := do
  let v ← getStrm u
  match k.slot, v.answer with
  | some v, _ => deliver u d (slotWord v)
  | none, some w => deliver u d w
  | none, none => if k.asking.isSome then holdFor .busy else askFor (.slot ch) .busy

section
variable {n : Word} {k : Chan} (hr : Runs s u g) (hs : operand2 u d a b s = .ok (v, n) s1) (hv : v.toNat ≤ 63) (hlo : 2 ≤ n.toNat)
  (hhi : n.toNat ≤ 4096) (hk : s1.chanOf (s1.jobAt u.core).ctx v.toNat = some k)
include hr hs hv hlo hhi hk

theorem rslotReq_completes {t : State} (h : slotBody u d v.toNat k s1 = .ok () t) : Completes (.rslotReq g d a b) s u .next t := by
  obtain ⟨hd, he, s2, hx, hy⟩ := operand2_ok.1 hs
  obtain ⟨x, hc, rfl⟩ := chanOf_some.1 hk
  refine issueNext_ok hr (M.bind_run (needSpace_run hd) (M.bind_run (ensure_run he) (M.bind_run (readChan_run hx hv) (M.bind_run hy
    (M.bind_run (trapIf_run (decide_eq_false (by omega))) (M.bind_run getCtx_run (M.bind_run M.get_run ?_)))))))
  rw [hc]
  exact h

theorem rslotReq_stops {x : Stop} {t : State} (h : slotBody u d v.toNat k s1 = .error x t) (h2 : u.second = false) :
    exec (.rslotReq g d a b) s = .next (s.stopAt u x t) := by
  obtain ⟨hd, he, s2, hx, hy⟩ := operand2_ok.1 hs
  obtain ⟨c, hc, rfl⟩ := chanOf_some.1 hk
  refine (issue_stop (x := x) (t := t) hr (M.bind_stop (M.bind_error (needSpace_run hd) (M.bind_error (ensure_run he)
    (M.bind_error (readChan_run hx hv) (M.bind_error hy (M.bind_error (trapIf_run (decide_eq_false (by omega))) (M.bind_error getCtx_run
      (M.bind_error M.get_run ?_))))))))).trans (by rw [h2]; rfl)
  rw [hc]
  exact h

end

end

/-! ### The switch's answer (R342) -/

theorem rslotAnswer_arrives {ctx ch c : Nat} {slot : Option (BitVec 16)} {s : State} {k : Chan} (hk : s.chanOf ctx ch = some k)
    (hask : k.asking = some (some c, none)) (hnow : Config.freeBit s.free = false) (hj : (s.core c).job.isSome = true)
    (hc : (s.jobAt c).ctx = ctx) : ∃ t y, exec (.rslotAnswer ctx ch slot) s = .next t ∧ t.chanOf ctx ch = some y ∧ y.slot = slot
      ∧ y.asking = none ∧ (slot = none → (t.strmAt c .sc).answer = some 0) := by
  obtain ⟨x, hx, rfl⟩ := chanOf_some.1 hk
  have hk' : ({ s with free := s.free + 1 } : State).chanOf ctx ch = some (x.chan ch) := hk
  have h1 := chanOf_modChan (fun k => { k with asking := none, slot := slot }) hk'
  have hexec : exec (.rslotAnswer ctx ch slot) s = .next (s.slotAnswer ctx ch slot) := rfl
  rw [hexec]
  unfold State.slotAnswer State.drawBit
  simp only [hx, Option.bind_some, hask, hnow, Bool.false_eq_true, if_false]
  cases slot with
  | some m => exact ⟨_, _, rfl, h1, rfl, rfl, fun h => nomatch h⟩
  | none =>
    have hcore : ∀ f, (({ s with free := s.free + 1 } : State).modChan ctx ch f).core c = s.core c := fun _ => core_modCtx ..
    refine ⟨_, _, congrArg Host.Outcome.next (if_pos ?_), h1, rfl, rfl, fun _ => ?_⟩
    · rw [State.jobAt, hcore]
      exact hc
    · rw [strmAt_modStrm_same]
      rw [hcore]
      exact hj

/-- Settles O39: each instruction is its checks and then its effect on the context, the channel or the tile; the switch's answer stands in its
channel. -/
theorem fabricInstructions : Obligations.FabricInstructions := by
  refine ⟨fun g a b s s1 u base n x hr hs hn hb hx hf => ctab_completes hr hs hn hb hx hf,
    fun g d ctr a b s s1 u ctx i t stamp lines dsts hr h hl hc => ctile_completes hr h hl hc,
    fun g a b s s1 u ctx ch k peers hr h => cringSet_completes hr h,
    fun g d a s s1 u v k hr hs hv hk => ⟨cringRead_completes (f := fun k => k.ctr.done) hr rfl hs hv hk,
      cringRead_completes (f := Chan.status) hr rfl hs hv hk⟩, ?_,
    fun g a s s1 u v hr hs hv => rslotRel_completes hr hs hv,
    fun ctx ch c slot s k hk hask hnow hj hc => rslotAnswer_arrives hk hask hnow hj hc⟩
  intro g d a b s s1 u v n k hr hs hv hlo hhi hk
  refine ⟨fun m hm => ?_, fun w hm hw => ?_, fun hm hw hask h2 => ?_⟩
  · rw [← slotWord_eq]
    refine rslotReq_completes hr hs hv hlo hhi hk (M.bind_run getStrm_run ?_)
    rw [hm]
    exact deliver_run
  · refine rslotReq_completes hr hs hv hlo hhi hk (M.bind_run getStrm_run ?_)
    rw [hm, hw]
    exact deliver_run
  · refine rslotReq_stops (x := .ask (.slot v.toNat) .busy) (t := s1) hr hs hv hlo hhi hk (M.bind_error getStrm_run ?_) h2
    rw [hm, hw, hask]
    rfl

end Sys2Proof.Machine
end

section
/-!
PROOFS. The lines of a payload and the steps of a collective program (O40).
-/

namespace Sys2Proof.Machine

/-! ### Lines (R334) -/

/-- Line j of a payload. -/
def flaggedLine (flag : Nat) (bs : List Byte) (j : Nat) : List Byte :=
  (bs.drop (120 * j)).take 120 ++ List.replicate (120 - ((bs.drop (120 * j)).take 120).length) 0 ++ leBytes flag 8

theorem flaggedLines_eq (flag : Nat) (bs : List Byte) :
    flaggedLines flag bs = (List.range ((bs.length + 119) / 120)).map (flaggedLine flag bs) := rfl

theorem length_flaggedLines (flag : Nat) (bs : List Byte) : (flaggedLines flag bs).length = (bs.length + 119) / 120 := by
  rw [flaggedLines_eq, List.length_map, List.length_range]

/-- The 120 bytes before the flag word. -/
theorem length_paddedPiece (bs : List Byte) (j : Nat) :
    ((bs.drop (120 * j)).take 120 ++ List.replicate (120 - ((bs.drop (120 * j)).take 120).length) (0 : Byte)).length = 120 := by
  have h : ((bs.drop (120 * j)).take 120).length ≤ 120 := List.length_take_le ..
  rw [List.length_append, List.length_replicate]
  omega

theorem length_flaggedLine (flag : Nat) (bs : List Byte) (j : Nat) : (flaggedLine flag bs j).length = 128 := by
  rw [flaggedLine, List.length_append, length_paddedPiece, length_leBytes]

theorem flag_flaggedLine (flag : Nat) (bs : List Byte) (j : Nat) : leNat ((flaggedLine flag bs j).drop 120) = flag % 2 ^ 64 := by
  rw [flaggedLine, List.drop_left' (length_paddedPiece bs j), leNat_leBytes]
  norm_num

/-- A byte of the payload stands at its place in its line. -/
theorem flaggedLine_getD (flag : Nat) {bs : List Byte} {j : Nat} (h : j < bs.length) :
    (flaggedLine flag bs (j / 120)).getD (j % 120) 0 = bs.getD j 0 := by
  have hlen : j % 120 < ((bs.drop (120 * (j / 120))).take 120).length := by
    rw [List.length_take, List.length_drop]
    omega
  rw [flaggedLine, List.append_assoc, List.getD_append _ _ _ _ hlen]
  rw [List.getD_eq_getElem?_getD, List.getElem?_take_of_lt (by omega), List.getElem?_drop, Nat.div_add_mod, ← List.getD_eq_getElem?_getD]

theorem flaggedLines_getD (flag : Nat) {bs : List Byte} {j : Nat} (h : j < bs.length) :
    ((flaggedLines flag bs).getD (j / 120) []).getD (j % 120) 0 = bs.getD j 0 := by
  have hj : j / 120 < (bs.length + 119) / 120 := by omega
  have hline : (flaggedLines flag bs).getD (j / 120) [] = flaggedLine flag bs (j / 120) := by
    rw [flaggedLines_eq, List.getD_eq_getElem?_getD, List.getElem?_map, List.getElem?_range hj]
    rfl
  rw [hline, flaggedLine_getD flag h]

/-! ### The step a channel is at -/

theorem chanOf_of_collAt {ctx ch : Nat} {s : State} {k : Chan} {c : Coll} (h : s.collAt ctx ch = some (k, c)) : s.chanOf ctx ch = some k := by
  unfold State.collAt at h
  cases hx : s.ctx? ctx with
  | none => rw [hx] at h; nomatch h
  | some x =>
    rw [hx] at h
    obtain ⟨c', -, hc⟩ := Option.map_eq_some_iff.1 h
    cases hc
    exact chanOf_some.2 ⟨x, hx, rfl⟩

/-- A channel whose collective has ended with NEXT: its number is complete, and a slot that is to be released is. -/
def Chan.nextDone (k : Chan) (num : Nat) : Chan :=
  { k with ctr := k.ctr.complete num 1 .dom false, coll := none, slot := if k.slotRel then none else k.slot, slotRel := false }

section
variable {ctx ch op : Nat} {s s1 s2 : State} {k : Chan} {c : Coll} {w : Word} (h : s.stepAt ctx ch k c w)
include h

/-- A channel at a step of this OP takes it. -/
theorem stepAct_of_stepAt (f : Chan → Coll → Word → State → State) (hop : stepOp w = op) : s.stepAct ctx ch op f = f k c w s := by
  obtain ⟨hc, hrec, hsusp, hw⟩ := h
  unfold State.stepAct
  simp only [hc, Option.isNone_eq_false_iff.2 hrec, hsusp, hw, Option.isSome_none, Bool.false_eq_true, if_false, hop, if_true]

/-- Where no stagger message has armed the channel, a wait that is met ends at once. -/
theorem stepMet_of_unarmed (body : State → State) (ha : k.armed = none) : s.stepMet ctx ch body = body s := by
  obtain ⟨hc, -, -, -⟩ := h
  unfold State.stepMet
  simp only [hc, ha]

/-! ### SEND, RECV and REDUCE (R338) -/

theorem stepSend_ends (hop : stepOp w = 0) (hs : c.sending = true) : exec (.stepSend ctx ch) s = .next (s.sendEnds ctx ch) := by
  refine congrArg Host.Outcome.next ((stepAct_of_stepAt h _ hop).trans ?_)
  rw [hs]
  rfl

section
variable {bs : List Byte} (hop : stepOp w = 0) (hs : c.sending = false)
  (hread : s.frontRead ctx (chunkAt k c w).1 (chunkAt k c w).2 = (s1, .ok bs))
include hop hs hread

theorem stepSend_toPeer {p r : Nat} {pas : List Nat} {ls : List (List Byte)} (hp : stepPeer w ≠ 255) (hk : k.peers[stepPeer w]? = some (p, r))
    (hls : ls = flaggedLines (flagWord (stepMatch w) r (c.num.getD 0).toNat) bs)
    (hl : s1.lineAddrs ctx (p + stepSlot w * 2 ^ k.slog) ls.length = (s2, .ok pas)) :
    exec (.stepSend ctx ch) s
      = .next (((pas.zip ls).foldl (fun t p => t.sendFabric (s1.frontCore ctx) ctx ch p.1 p.2) s2).stepSent s2 ctx ch) := by
  have hpeer : k.peers.getD (stepPeer w) (0, 0) = (p, r) := by rw [List.getD_eq_getElem?_getD, hk]; rfl
  refine congrArg Host.Outcome.next ((stepAct_of_stepAt h _ hop).trans ?_)
  simp only [hs, Bool.false_eq_true, if_false, hread, if_neg hp, hpeer, ← hls, hl]
  rfl

theorem stepSend_toSwitch {v : BitVec 16} (hp : stepPeer w = 255) (hv : k.slot = some v) : exec (.stepSend ctx ch) s
    = .next (((flaggedLines (flagWord (stepMatch w) ch (c.num.getD 0).toNat) bs).foldl
        (fun t l => t.toPort (s1.frontCore ctx) ctx ch (2 ^ 64 + v.toNat) l) s1).stepSent s1 ctx ch) := by
  refine congrArg Host.Outcome.next ((stepAct_of_stepAt h _ hop).trans ?_)
  simp only [hs, Bool.false_eq_true, if_false, hread, if_pos hp, hv]
  rfl

end

section
variable {pay : List Byte} (ha : k.armed = none)
  (hpay : (s.slotData ctx (k.rbase + stepSlot w * 2 ^ k.slog) (chunkAt k c w).2
    (flagWord (stepMatch w) ch (c.num.getD 0).toNat)).2 = .ok (some pay))
include ha hpay

/-- The slot's lines are there: what `f` makes of them and of the chunk's old bytes is written, and the next step begins. -/
theorem takeStep_takes {f : Coll → List Byte → List Byte → State → State × List Byte × Flg} {old : List Byte} (hop : stepOp w = op)
    (hold : (if op = 1 then (s, .ok []) else s.frontRead ctx (chunkAt k c w).1 (chunkAt k c w).2 : State × Except AccFault (List Byte))
      = (s1, .ok old))
    (hw : (f c old pay s1).1.unitWrite ctx (chunkAt k c w).1 (f c old pay s1).2.1 = (s2, .ok ())) :
    s.takeStep ctx ch op f = (s2.modChan ctx ch (fun k => { k with flg := k.flg ||| (f c old pay s1).2.2 })).stepDone ctx ch := by
  refine (stepAct_of_stepAt h _ hop).trans ?_
  simp only [hpay]
  rw [stepMet_of_unarmed h _ ha]
  simp only [hold, hw]

theorem stepRecv_takes (hop : stepOp w = 1) (hw : s.unitWrite ctx (chunkAt k c w).1 pay = (s2, .ok ())) :
    exec (.stepRecv ctx ch) s = .next ((s2.modChan ctx ch (fun k => { k with flg := k.flg ||| 0 })).stepDone ctx ch) :=
  congrArg Host.Outcome.next (takeStep_takes (f := fun _ _ pay s => (s, pay, 0)) h ha hpay hop rfl hw)

theorem stepReduce_takes {old : List Byte} (hop : stepOp w = 2)
    (hold : s.frontRead ctx (chunkAt k c w).1 (chunkAt k c w).2 = (s1, .ok old))
    (hw : (reduceChunk c old pay s1).1.unitWrite ctx (chunkAt k c w).1 (reduceChunk c old pay s1).2.1 = (s2, .ok ())) :
    exec (.stepReduce ctx ch) s
      = .next ((s2.modChan ctx ch (fun k => { k with flg := k.flg ||| (reduceChunk c old pay s1).2.2 })).stepDone ctx ch) :=
  congrArg Host.Outcome.next (takeStep_takes h ha hpay hop hold hw)

end

/-! ### WAITF and NEXT (R338, R341) -/

section
variable (ha : k.armed = none)
include ha

theorem stepWaitf_acquires {x : Ctx} (hx : s.ctx? ctx = some x) (hop : stepOp w = 3) (hstamp : tget 0 x.stamps (stepChunk w) ≠ 0)
    (hseq : (tget 0 x.stamps (stepChunk w)).toNat % 2 ^ 32 = (c.num.getD 0).toNat % 2 ^ 32) (hfires : ∀ f ∈ x.fires, f.tile ≠ stepChunk w) :
    exec (.stepWaitf ctx ch) s = .next ((s.frontAcquire ctx).stepDone ctx ch) := by
  have hany : x.fires.any (fun f => f.tile == stepChunk w) = false :=
    List.any_eq_false.2 fun f hf => by simpa using hfires f hf
  refine congrArg Host.Outcome.next ((stepAct_of_stepAt h _ hop).trans ?_)
  simp only [hx, hany, hseq, decide_eq_true hstamp, beq_self_eq_true, Bool.and_self, Bool.not_false, if_true]
  exact stepMet_of_unarmed h _ ha

theorem stepNext_completes (hop : stepOp w = 4) (hlines : c.lines = []) : ∃ t y, exec (.stepNext ctx ch) s = .next t
    ∧ t.chanOf ctx ch = some y ∧ y.coll = none ∧ y.ctr = k.ctr.complete (c.num.getD 0).toNat 1 .dom false
    ∧ (t.rec? c.rid).map (·.state) = some (.done 0) := by
  have hmet := stepMet_of_unarmed h (fun s => ((s.closeEpoch (((s.ctx? ctx).map (·.part)).getD 0)).modChan ctx ch
    (·.nextDone (c.num.getD 0).toNat)).recDone c.rid 0) ha
  have hchan : (s.closeEpoch (((s.ctx? ctx).map (·.part)).getD 0)).chanOf ctx ch = some k := by
    obtain ⟨hc, -, -, -⟩ := h
    exact chanOf_of_collAt hc
  obtain ⟨r, hr⟩ := Option.isSome_iff_exists.1 h.2.1
  refine ⟨_, k.nextDone (c.num.getD 0).toNat,
    congrArg Host.Outcome.next ((stepAct_of_stepAt h _ hop).trans ((if_pos (by rw [hlines]; rfl)).trans hmet)), ?_, rfl, rfl, ?_⟩
  · rw [State.recDone, State.chanOf, State.ctx?, postOnce_ctxs, modRec_ctxs]
    exact chanOf_modChan _ hchan
  · rw [State.recDone, rec_postOnce, rec_modRec, if_pos rfl, State.modChan, rec_modCtx]
    exact congrArg (Option.map _) (congrArg (Option.map _) hr)

end

end

/-- Settles O40: a line is 120 bytes of the payload and the flag word; each step runs on what it has read, in the case that the clause's premises
name. -/
theorem fabricSteps : Obligations.FabricSteps := by
  refine ⟨?_, fun flag j bs h => ⟨flaggedLines_getD flag h, length_flaggedLines flag bs⟩, ?_, ?_, ?_⟩
  · intro flag bs l hl
    obtain ⟨j, -, rfl⟩ := List.mem_map.1 hl
    exact ⟨length_flaggedLine flag bs j, flag_flaggedLine flag bs j⟩
  · intro ctx ch s s1 s2 k c w bs h hop
    exact ⟨stepSend_ends h hop, fun hs hread => ⟨fun p r pas ls hp hk hls hl => stepSend_toPeer h hop hs hread hp hk hls hl,
      fun v hp hv => stepSend_toSwitch h hop hs hread hp hv⟩⟩
  · intro ctx ch s s1 s2 k c w pay old h ha hpay
    exact ⟨fun hop hw => stepRecv_takes h ha hpay hop hw, fun hop hold hw => stepReduce_takes h ha hpay hop hold hw⟩
  · intro ctx ch s k c w x h ha hx
    exact ⟨fun hop hstamp hseq hf => stepWaitf_acquires h ha hx hop hstamp hseq hf, fun hop hl => stepNext_completes h ha hop hl⟩

end Sys2Proof.Machine
end

section
/-!
PROOFS. The fabric's own events: arriving lines, fires, stagger messages, watchdogs and failed links (O41).
-/

namespace Sys2Proof.Machine

/-! ### A line arrives at its home (R334, R388) -/

theorem raiseN_fns (s : State) (fn vec k : Nat) : (s.raiseN fn vec k).fns = s.fns := by
  induction k generalizing s with
  | zero => rfl
  | succ k ih => exact ih _

/-- Raising a vector adds messages and does nothing else. -/
theorem raiseN_shape (s : State) (fn vec k : Nat) : ∃ m, s.raiseN fn vec k = { s with msix := m } := by
  induction k generalizing s with
  | zero => exact ⟨_, rfl⟩
  | succ k ih => exact (ih (s.raise fn vec)).imp fun m h => h

theorem countDie_fns (s : State) (d ctx code : Nat) (q : Nat → Nat) : (s.countDie d ctx code q).fns = s.fns := by
  unfold State.countDie
  dsimp only
  repeat' split
  all_goals simp [raiseN_fns]

theorem mscTouch_fns (s : State) (key l ctx : Nat) : (s.mscTouch key l ctx).fns = s.fns := by
  unfold State.mscTouch
  simp [countDie_fns]

theorem watchHome_fns (s : State) (key l n : Nat) (wr : Bool) (asid : Nat) : (s.watchHome key l n wr asid).fns = s.fns := by
  unfold State.watchHome
  dsimp only
  split
  · rfl
  · refine foldl_field State.fns (fun s i => ?_) _ _
    repeat' split
    all_goals rfl

/-- Counting a module event changes the fabric counters and raises vectors. -/
theorem countMod_shape (s : State) (code : Nat) (q : Nat → Nat) :
    ∃ a b m, s.countMod code q = { s with fsel := a, fcnt := b, msix := m } := by
  unfold State.countMod
  split
  · exact ⟨_, _, _, rfl⟩
  · exact ⟨_, _, raiseN_shape _ _ _ _⟩

theorem rekeyBlock_lineKey (s : State) (key b : Nat) : (s.rekeyBlock key b).lineKey = tput 0 s.lineKey b (s.keyTag key) := by
  unfold State.rekeyBlock
  dsimp only
  split <;> rfl

theorem rekeyBlock_fns (s : State) (key b : Nat) : (s.rekeyBlock key b).fns = s.fns := by
  unfold State.rekeyBlock
  dsimp only
  split <;> rfl

theorem rekeyBlock_keyTag (s : State) (key b : Nat) : (s.rekeyBlock key b).keyTag key = s.keyTag key := by
  unfold State.rekeyBlock
  dsimp only
  split <;> rfl

/-- Blocks brought under a key id one after the other. -/
theorem foldl_rekeyBlock_lineKey (key : Nat) (l : List Nat) (s : State) :
    (l.foldl (fun s b => s.rekeyBlock key b) s).lineKey = l.foldl (fun t b => tput 0 t b (s.keyTag key)) s.lineKey := by
  induction l generalizing s with
  | nil => rfl
  | cons b l ih => rw [List.foldl_cons, ih, rekeyBlock_keyTag, rekeyBlock_lineKey, List.foldl_cons]

theorem homePut_fns (s : State) (key l : Nat) (bs : List (Byte × Byte)) : (s.homePut key l bs).fns = s.fns :=
  foldl_field State.fns (fun s b => rekeyBlock_fns s key b) _ _

theorem homePut_keyTag (s : State) (key l : Nat) (bs : List (Byte × Byte)) : (s.homePut key l bs).keyTag key = s.keyTag key :=
  foldl_field (fun s => s.keyTag key) (fun s b => rekeyBlock_keyTag s key b) _ _

/-- A byte that a write within a line covers lies in one of its blocks. -/
theorem mem_blocksOf {l i : Nat} {bs : List (Byte × Byte)} (hl : l % 128 + bs.length ≤ 128) (hi : i < bs.length) (hm : bs[i].2 ≠ 0) :
    (l + i) / 16 ∈ blocksOf l bs := by
  refine List.mem_filter.2 ⟨List.mem_map.2 ⟨(l + i) / 16 - l / 128 * 8, List.mem_range.2 (by omega), by omega⟩, List.any_eq_true.2 ?_⟩
  exact ⟨(bs[i], i), List.mem_iff_getElem?.2 ⟨i, by simp [hi]⟩, by simpa using hm⟩

/-- What is written whole within a line at its home is read back under the same key. -/
theorem homeByte_homePut {s : State} {key l i : Nat} {bs : List (Byte × Byte)} (hl : l % 128 + bs.length ≤ 128)
    (hm : ∀ b ∈ bs, b.2 = 0xFF) (hi : i < bs.length) :
    (s.homePut key l bs).homeByte key (l + i) = readByte (s.homePut key l bs).hbm (l + i) := by
  have hb : (l + i) / 16 ∈ blocksOf l bs := mem_blocksOf hl hi (by rw [hm _ (List.getElem_mem hi)]; decide)
  have hk : tget 0 (s.homePut key l bs).lineKey ((l + i) / 16) = (s.homePut key l bs).keyTag key := by
    rw [homePut_keyTag]
    show tget 0 ((blocksOf l bs).foldl (fun s b => s.rekeyBlock key b) s).lineKey _ = _
    rw [foldl_rekeyBlock_lineKey, tget_foldl_tput 0 (fun _ => s.keyTag key), if_pos hb]
  exact if_pos (.inr hk)

/-- Where no migration forwards a line, writing it whole writes it at its home and clears its poison. -/
theorem homeWriteLine_whole {s : State} {key l ctx asid : Nat} {bs : List (Byte × Byte)} (hlen : bs.length = 128) (hm : ∀ b ∈ bs, b.2 = 0xFF)
    (hmig : s.migForward l = []) : ∃ (s' : State) (p : Tbl Nat), s.homeWriteLine key l bs ctx asid = { s'.homePut key l bs with poison := p } := by
  obtain ⟨t, ht⟩ : ∃ t, (s.mscTouch key l ctx).watchHome key l bs.length true asid = t := ⟨_, rfl⟩
  have h1 : t.migForward l = [] := by rw [← hmig, ← ht, State.migForward, State.migForward, watchHome_fns, mscTouch_fns]
  have h2 : (t.homePut key l bs).migForward l = [] := by rw [← h1, State.migForward, State.migForward, homePut_fns]
  have hput : t.homePutAll key l bs = t.homePut key l bs := by rw [State.homePutAll, h1]; rfl
  have hfull : (bs.length == 128 && bs.all (fun b => b.2 == 0xFF)) = true := by
    rw [hlen, List.all_eq_true.2 fun b hb => beq_iff_eq.2 (hm b hb)]
    rfl
  refine ⟨t, ?_⟩
  unfold State.homeWriteLine
  dsimp only
  rw [ht, hfull, hput, if_pos rfl, h2, List.foldl_nil]
  unfold State.clearPoison
  generalize t.homePut key l bs = x
  split
  · exact ⟨x.poison, rfl⟩
  · exact ⟨_, if_pos rfl⟩

theorem bytes_fullMask (bs : List Byte) : (fullMask bs).map (·.1) = bs := by
  rw [fullMask, List.map_map]
  exact List.map_id bs

theorem full_fullMask (bs : List Byte) : ∀ b ∈ fullMask bs, b.2 = 0xFF := by simp [fullMask]

/-- A byte at its home depends on the memory, on the keys of its blocks and on the tags of the keys. -/
theorem homeByte_of_same {s t : State} {key a : Nat} (hb : t.hbm = s.hbm) (hl : t.lineKey = s.lineKey) (hk : ∀ k, t.keyTag k = s.keyTag k) :
    t.homeByte key a = s.homeByte key a := by
  unfold State.homeByte
  rw [hb, hl, hk]

/-- What is written whole to a line is what the line holds. -/
theorem homeBytes_homePut (s : State) (key : Nat) {l n : Nat} {bs : List Byte} (hm : (fullMask bs).length = n) (hl : l % 128 = 0) (hn : n ≤ 128) :
    (List.range n).map (fun i => (s.homePut key l (fullMask bs)).homeByte key (l + i)) = bs := by
  have hread := readBytes_writeMasked ((blocksOf l (fullMask bs)).foldl (fun s b => s.rekeyBlock key b) s).hbm l (full_fullMask bs)
  rw [bytes_fullMask, hm] at hread
  have hwhole : l % 128 + (fullMask bs).length ≤ 128 := by omega
  refine Eq.trans (List.map_congr_left (g := fun i => readByte (s.homePut key l (fullMask bs)).hbm (l + i)) fun i hi => ?_) hread
  exact homeByte_homePut hwhole (full_fullMask _) (hm.symm ▸ List.mem_range.1 hi)

theorem fabricLineArrival_writes {pa : Word} {line : BitVec 1024} {s : State} {l : Nat} (hl : l = paLocal pa.toNat) (ha : pa.toNat % 128 = 0)
    (hmod : s.modnum.isSome = true) (hshut : s.portsShut (s.partOfLocal l).1 = false) (hok : s.physOk (s.partOfLocal l).1 pa.toNat = true)
    (hmig : s.migForward l = []) : ∃ t, exec (.fabricLineArrival pa line) s = .next t
      ∧ (List.range 128).map (fun i => t.homeByte (paKey pa.toNat) (l + i)) = leBytes line.toNat 128 := by
  subst hl
  have hcond : ¬ (pa.toNat % 128 ≠ 0 ∨ s.modnum.isNone = true ∨ s.portsShut (s.partOfLocal (paLocal pa.toNat)).1 = true
      ∨ (!s.physOk (s.partOfLocal (paLocal pa.toNat)).1 pa.toNat) = true) := by
    rw [ha, Option.isNone_eq_false_iff.2 hmod, hshut, hok]
    simp
  have hlen : (fullMask (leBytes line.toNat 128)).length = 128 := by rw [fullMask, List.length_map, length_leBytes]
  have hl : paLocal pa.toNat % 128 = 0 := by unfold paLocal; omega
  obtain ⟨s', p, hw⟩ := homeWriteLine_whole (s := (s.somePort (s.partOfLocal (paLocal pa.toNat)).1).2) (key := paKey pa.toNat) (ctx := 0)
    (asid := 0) hlen (full_fullMask _) (l := paLocal pa.toNat) hmig
  obtain ⟨a, b, m, hcount⟩ := countMod_shape ({ s'.homePut (paKey pa.toNat) (paLocal pa.toNat) (fullMask (leBytes line.toNat 128)) with
    poison := p }) 0x0201 (fun q => if q = (s.somePort (s.partOfLocal (paLocal pa.toNat)).1).1 then 1 else 0)
  refine ⟨_, congrArg Host.Outcome.next ((if_neg hcond).trans ((congrArg (State.countMod · 0x0201 _) hw).trans hcount)), ?_⟩
  have hput := homeBytes_homePut s' (paKey pa.toNat) hlen hl (Nat.le_refl 128)
  generalize s'.homePut (paKey pa.toNat) (paLocal pa.toNat) (fullMask (leBytes line.toNat 128)) = t at hput ⊢
  exact (List.map_congr_left fun i _ => homeByte_of_same rfl rfl fun _ => rfl).trans hput

theorem fabricLineArrival_refused {pa : Word} {line : BitVec 1024} {s : State} {l : Nat} (hl : l = paLocal pa.toNat)
    (h : s.modnum = none ∨ s.portsShut (s.partOfLocal l).1 = true ∨ s.physOk (s.partOfLocal l).1 pa.toNat = false) :
    exec (.fabricLineArrival pa line) s = .next s := by
  subst hl
  refine congrArg Host.Outcome.next (if_pos ?_)
  rcases h with h | h | h
  · exact .inr (.inl (by rw [h]; rfl))
  · exact .inr (.inr (.inl h))
  · exact .inr (.inr (.inr (by rw [h]; rfl)))

/-! ### A fire completes (R341) -/

/-- A job after a fire of its own has completed; any other job is as it was. -/
def Fire.completeIn (f : Fire) (ctx : Nat) (j : Job) : Job :=
  if j.ctx == ctx && j.rid == f.rid && j.chunk == f.chunk then j.modCtr f.ctr.toNat (fun t => t.complete f.num.toNat 1 .dom false) else j

/-- A fire whose lines are acknowledged leaves those of its context, and completes its number in its job. -/
theorem fireDone_spec {ctx tile : Nat} {s : State} {x : Ctx} {f : Fire} {rest : List Fire} (hx : s.ctx? ctx = some x)
    (hf : takeFirstBy (fun (f : Fire) => f.tile == tile && f.lines.isEmpty) x.fires = some (f, rest)) :
    (∃ y, (s.fireDone ctx tile).ctx? ctx = some y ∧ y.fires = rest)
      ∧ ∀ c, ((s.fireDone ctx tile).core c).job = (s.core c).job.map (f.completeIn ctx) := by
  unfold State.fireDone
  simp only [hx, hf]
  refine ⟨⟨_, ctx_modCtx_same _ hx, rfl⟩, fun c => ?_⟩
  rw [← core_modCtx s ctx _ c]
  exact congrArg Core.job (tget_map (d := {}) (f := fun k : Core => { k with job := k.job.map (f.completeIn ctx) }) rfl _ c)

theorem tileFireComplete_completes {ctx tile c : Nat} {s : State} {x : Ctx} {f : Fire} {rest : List Fire} (hx : s.ctx? ctx = some x)
    (hf : takeFirstBy (fun (f : Fire) => f.tile == tile && f.lines.isEmpty) x.fires = some (f, rest)) (hj : (s.core c).job.isSome = true)
    (hc : (s.jobAt c).ctx = ctx) (hr : (s.jobAt c).rid = f.rid) (hk : (s.jobAt c).chunk = f.chunk) :
    ∃ t y, exec (.tileFireComplete ctx tile) s = .next t ∧ t.ctx? ctx = some y ∧ y.fires = rest
      ∧ (t.jobAt c).ctr f.ctr.toNat = ((s.jobAt c).ctr f.ctr.toNat).complete f.num.toNat 1 .dom false := by
  obtain ⟨⟨y, hy, hrest⟩, hjobs⟩ := fireDone_spec hx hf
  refine ⟨_, y, rfl, hy, hrest, ?_⟩
  rw [jobAt_of_job_map hj (hjobs c)]
  simp [Fire.completeIn, hc, hr, hk, Job.ctr, Job.modCtr]

/-! ### Watchdogs (R339, R344) -/

theorem coll_of_collAt {ctx ch : Nat} {s : State} {k : Chan} {c : Coll} (h : s.collAt ctx ch = some (k, c)) : k.coll = some c := by
  unfold State.collAt at h
  cases hx : s.ctx? ctx with
  | none => rw [hx] at h; nomatch h
  | some x =>
    rw [hx] at h
    obtain ⟨c', h1, hc⟩ := Option.map_eq_some_iff.1 h
    cases hc
    exact h1

section
variable {ctx ch : Nat} {s : State} {k : Chan} {c : Coll} {w : Word} (h : s.stepAt ctx ch k c w)
include h

theorem staggerRelease_ends {d : Nat} (hd : c.release = some d) (hn : d ≤ s.now) :
    exec (.staggerRelease ctx ch) s = .next (s.postOnce s.now (stepEvent (stepOp w) ctx ch)) := by
  obtain ⟨hc, -, -, hw⟩ := h
  refine congrArg Host.Outcome.next ?_
  unfold State.staggerEnd
  simp only [hc, hd, hw, if_pos hn]

theorem stepWaitTimeout_eq : exec (.stepWaitTimeout ctx ch) s = .next (if 2 ^ 26 ≤ c.waited then s.chanTrap ctx ch 3 else s) := by
  obtain ⟨hc, -, -, -⟩ := h
  refine congrArg Host.Outcome.next ?_
  unfold State.waitTimeout
  simp only [hc]

theorem fabricAckTimeout_waits (hl : ∀ l ∈ c.lines, s.now < l.2 + 2 ^ 26)
    (hf : ∀ x f, s.ctx? ctx = some x → f ∈ x.fires → f.ch = ch → f.lines = [] ∨ s.now < f.sent + 2 ^ 26) :
    exec (.fabricAckTimeout ctx ch) s = .next s := by
  obtain ⟨hc, -, -, -⟩ := h
  obtain ⟨x, hx, hk⟩ := chanOf_some.1 (chanOf_of_collAt hc)
  have hold : c.lines.any (fun l => decide (l.2 + 2 ^ 26 ≤ s.now)) = false :=
    List.any_eq_false.2 fun l hm => by have := hl l hm; simp; omega
  have hfire : x.fires.find? (fun f => f.ch == ch && decide (f.sent + 2 ^ 26 ≤ s.now) && !f.lines.isEmpty) = none := by
    refine List.find?_eq_none.2 fun f hm => ?_
    by_cases hch : f.ch = ch
    · rcases hf x f hx hm hch with h0 | h0
      · simp [h0]
      · rw [decide_eq_false (Nat.not_le.2 h0)]
        simp
    · simp [hch]
  refine congrArg Host.Outcome.next ?_
  unfold State.ackTimeout
  simp only [hx, hk, coll_of_collAt hc, Option.map_some, Option.getD_some, hold, Bool.false_eq_true, if_false, hfire]

theorem fabricAckTimeout_traps {l : Nat × Nat} (hl : l ∈ c.lines) (hd : l.2 + 2 ^ 26 ≤ s.now) :
    exec (.fabricAckTimeout ctx ch) s = .next (s.chanTrap ctx ch 1) := by
  obtain ⟨hc, -, -, -⟩ := h
  obtain ⟨x, hx, hk⟩ := chanOf_some.1 (chanOf_of_collAt hc)
  have hold : c.lines.any (fun l => decide (l.2 + 2 ^ 26 ≤ s.now)) = true := List.any_eq_true.2 ⟨l, hl, decide_eq_true hd⟩
  refine congrArg Host.Outcome.next ?_
  unfold State.ackTimeout
  simp only [hx, hk, coll_of_collAt hc, Option.map_some, Option.getD_some, hold, if_true]

end

/-! ### Stagger messages (R344) -/

/-- A changed channel, read at any place. -/
theorem chanOf_modChan_at (s : State) (n c ctx ch : Nat) (f : Chan → Chan) :
    (s.modChan n c f).chanOf ctx ch = if ctx = n ∧ ch = c then (s.chanOf n c).map f else s.chanOf ctx ch := by
  unfold State.modChan State.chanOf
  rw [ctx_modCtx]
  by_cases hn : ctx = n
  · subst hn
    rw [if_pos rfl, Option.map_map, Option.map_map]
    by_cases hc : ch = c
    · subst hc
      rw [if_pos ⟨rfl, rfl⟩]
      exact Option.map_congr fun x _ => by simp [Ctx.chan]
    · rw [if_neg fun h => hc h.2]
      exact Option.map_congr fun x _ => by simp [Ctx.chan, tget_tput, hc]
  · rw [if_neg hn, if_neg fun h => hn h.1]

/-- A channel as arming leaves it at a time. -/
def Chan.arm (d now : Nat) (k : Chan) : Chan :=
  { k with armed := some d, coll := k.coll.map (fun c => if c.release.isSome then { c with release := some (now + d) } else c) }

/-- Arming a channel is a change of that channel. -/
theorem chanOf_armChan (s : State) (n c d ctx ch : Nat) :
    (s.armChan n c d).chanOf ctx ch = if ctx = n ∧ ch = c then (s.chanOf n c).map (Chan.arm d s.now) else s.chanOf ctx ch := by
  refine Eq.trans ?_ (chanOf_modChan_at s n c ctx ch (Chan.arm d s.now))
  unfold State.armChan
  dsimp only
  split <;> rfl

/-- A channel that is armed with d where its context is. -/
def State.armedWith (s : State) (ctx ch d : Nat) : Prop := ∀ k, s.chanOf ctx ch = some k → k.armed = some d

theorem armedWith_armChan_same (s : State) (ctx ch d : Nat) : (s.armChan ctx ch d).armedWith ctx ch d := by
  intro k hk
  rw [chanOf_armChan, if_pos ⟨rfl, rfl⟩] at hk
  obtain ⟨k', -, rfl⟩ := Option.map_eq_some_iff.1 hk
  rfl

theorem armedWith_armChan {s : State} {ctx ch d : Nat} (n c : Nat) (hs : s.armedWith ctx ch d) : (s.armChan n c d).armedWith ctx ch d := by
  by_cases h : ctx = n ∧ ch = c
  · obtain ⟨rfl, rfl⟩ := h
    exact armedWith_armChan_same s ctx ch d
  · intro k hk
    rw [chanOf_armChan, if_neg h] at hk
    exact hs k hk

/-- Channels of one context are armed, one after the other. -/
def State.armAll (s : State) (ctx d : Nat) (cs : List Nat) : State := cs.foldl (fun s ch => s.armChan ctx ch d) s

theorem armedWith_armAll_same (s : State) {ctx ch d : Nat} {cs : List Nat} (hch : ch ∈ cs) : (s.armAll ctx d cs).armedWith ctx ch d :=
  foldl_establishes (f := fun (s : State) c => s.armChan ctx c d) (P := fun s => s.armedWith ctx ch d) (fun s => armedWith_armChan_same s ctx ch d)
    (fun _ c hs => armedWith_armChan ctx c hs) hch s

theorem armedWith_armAll {s : State} {ctx ch d : Nat} (n : Nat) (cs : List Nat) (hs : s.armedWith ctx ch d) :
    (s.armAll n d cs).armedWith ctx ch d :=
  List.foldlRecOn (motive := fun s : State => s.armedWith ctx ch d) _ _ hs fun _ h c _ => armedWith_armChan n c h

/-- A context that is not there has no channel, and arming makes none. -/
theorem chanOf_armAll_none {s : State} {ctx ch : Nat} (n d : Nat) (cs : List Nat) (hs : s.chanOf ctx ch = none) :
    (s.armAll n d cs).chanOf ctx ch = none := by
  refine List.foldlRecOn (motive := fun s : State => s.chanOf ctx ch = none) _ _ hs fun s' h c _ => ?_
  rw [chanOf_armChan]
  split
  case isTrue he => rw [← he.1, ← he.2, h]; rfl
  case isFalse => exact h

/-- Where every context's channels are armed, each of them is. -/
theorem armedWith_armEach (s : State) {ctx ch d : Nat} {cs : List Nat} (hch : ch ∈ cs) :
    (s.ctxs.foldl (fun s' e => s'.armAll e.1 d cs) s).armedWith ctx ch d := by
  intro k hk
  cases hs : s.chanOf ctx ch with
  | none =>
    rw [List.foldlRecOn (motive := fun s : State => s.chanOf ctx ch = none) _ _ hs fun _ h e _ => chanOf_armAll_none e.1 d cs h] at hk
    cases hk
  | some k0 =>
    obtain ⟨x, hx, -⟩ := chanOf_some.1 hs
    have hmem : (ctx, some x) ∈ s.ctxs := hx ▸ mem_of_tget_ne (d := none) (t := s.ctxs) (i := ctx) (by rw [← State.ctx?, hx]; simp)
    exact foldl_establishes (f := fun s (e : Nat × Option Ctx) => s.armAll e.1 d cs) (P := fun s => s.armedWith ctx ch d)
      (fun s => armedWith_armAll_same s hch) (fun _ e hs => armedWith_armAll e.1 cs hs) hmem s k hk

theorem staggerMessage_arms {group : BitVec 16} {nslot step : Nat} {s : State} (hm : s.modnum.isSome = true) (hg : s.pwrgrp.getLsbD 16 = true)
    (he : s.pwrgrp.setWidth 16 = group) (h1 : 1 ≤ nslot) (h2 : nslot ≤ 256) (h3 : 1 ≤ step) (h4 : step ≤ 1000) :
    ∃ t, exec (.staggerMessage group nslot step) s = .next t
      ∧ ∀ ctx ch k, ch < 64 → t.chanOf ctx ch = some k → k.armed = some (1600 * (s.ownMod % nslot * step)) := by
  have hd : usCycles (s.ownMod % nslot * step) = 1600 * (s.ownMod % nslot * step) := Nat.mul_comm _ _
  refine ⟨s.ctxs.foldl (fun s' e => s'.armAll e.1 (1600 * (s.ownMod % nslot * step)) (List.range 64)) s, ?_, fun ctx ch k hch hk => ?_⟩
  · refine congrArg Host.Outcome.next ?_
    unfold State.stagger
    simp only [hm, hg, he, h1, h2, h3, h4, hd, beq_self_eq_true, and_self, decide_true, Bool.and_self, if_true]
    rfl
  · exact armedWith_armEach s (List.mem_range.2 hch) k hk

/-! ### A failed link (R342, R407) -/

/-- The channels of a partition that hold a slot or wait for lines, in the order of their contexts. -/
def State.openChans (s : State) (part : Nat) : List (Nat × Nat) :=
  s.ctxs.flatMap (fun e => match e.2 with
    | some x => if x.part ≠ part then [] else x.chans.filterMap (fun h =>
        if h.2.slot.isSome || ((h.2.coll.map (fun c => !c.lines.isEmpty)).getD false) then some (e.1, h.1) else none)
    | none => [])

/-- What a failed link with no line at its port does to an open channel: a free bit says whether it is hit. -/
def State.linkHit (s : State) (p : Nat × Nat) : State :=
  let (hit, s) := s.drawBit
  if hit then
    let s := s.modChan p.1 p.2 (fun k => { k with slot := none, slotRel := false })
    if (s.collAt p.1 p.2).isSome then s.chanTrap p.1 p.2 1 else (s.frontTrap p.1 0 { cause := 0x15, detail := 1, va := 0 }).1
  else s

/-- A link that fails with no line at its port hits such open channels of the partition that owns it as the free bits say. -/
theorem linkFail_eq {port : Nat} {s s1 : State} (h1 : s1 = s.error 7 7 (port / 2) port 0 0 0) (hp : ∀ l ∈ s1.ports, l.port ≠ port) :
    s.linkFail port = (s1.openChans (s1.partOf (port / 2 * 2)).1).foldl State.linkHit s1 := by
  subst h1
  have hlost : (s.error 7 7 (port / 2) port 0 0 0).ports.filter (fun l => l.port == port) = [] :=
    List.filter_eq_nil_iff.2 fun l hl => by simpa using hp l hl
  have hkept : (s.error 7 7 (port / 2) port 0 0 0).ports.filter (fun l => l.port != port) = (s.error 7 7 (port / 2) port 0 0 0).ports :=
    List.filter_eq_self.2 fun l hl => by simpa using hp l hl
  unfold State.linkFail
  dsimp only
  rw [hlost, hkept]
  generalize s.error 7 7 (port / 2) port 0 0 0 = s1
  simp only [List.any_nil, Bool.or_false, List.filter_nil, List.map_nil, List.eraseDups_nil, List.foldl_nil]
  rfl

theorem linkFail_empty {port : Nat} {s s1 : State} (h1 : s1 = s.error 7 7 (port / 2) port 0 0 0) (hp : ∀ l ∈ s1.ports, l.port ≠ port)
    (hs : s1.ctxs = []) : s.linkFail port = s1 := by
  rw [linkFail_eq h1 hp, State.openChans, hs]
  rfl

theorem collAt_none {ctx ch : Nat} {s : State} {k : Chan} (hk : s.chanOf ctx ch = some k) (hc : k.coll = none) : s.collAt ctx ch = none := by
  obtain ⟨x, hx, rfl⟩ := chanOf_some.1 hk
  unfold State.collAt
  rw [hx]
  exact congrArg (Option.map _) hc

/-- What a failed link does to one channel with a slot and no running collective. -/
theorem linkFail_one {port n ch : Nat} {s s1 : State} {x : Ctx} {k : Chan} (h1 : s1 = s.error 7 7 (port / 2) port 0 0 0)
    (hp : ∀ l ∈ s1.ports, l.port ≠ port) (hs : s1.ctxs = [(n, some x)]) (hx : x.chans = [(ch, k)]) (hslot : k.slot.isSome = true)
    (hcoll : k.coll = none) :
    (x.part ≠ (s1.partOf (port / 2 * 2)).1 → s.linkFail port = s1)
    ∧ (x.part = (s1.partOf (port / 2 * 2)).1 →
      (Config.freeBit s1.free = false → s.linkFail port = { s1 with free := s1.free + 1 })
      ∧ (Config.freeBit s1.free = true → s.linkFail port =
          (({ s1 with free := s1.free + 1 }.modChan n ch (fun k => { k with slot := none, slotRel := false })).frontTrap n 0
            { cause := 0x15, detail := 1, va := 0 }).1)) := by
  have hopen : s1.openChans (s1.partOf (port / 2 * 2)).1 = if x.part ≠ (s1.partOf (port / 2 * 2)).1 then [] else [(n, ch)] := by
    simp [State.openChans, hs, hx, hslot]
  rw [linkFail_eq h1 hp, hopen]
  refine ⟨fun h => by rw [if_pos h]; rfl, fun h => ?_⟩
  rw [if_neg (not_not.2 h)]
  refine ⟨fun hf => ?_, fun hf => ?_⟩
  · show s1.linkHit (n, ch) = _
    simp only [State.linkHit, State.drawBit, hf, Bool.false_eq_true, if_false]
  · have hchan : s1.chanOf n ch = some k := chanOf_some.2 ⟨x, by simp [State.ctx?, hs, tget], by simp [Ctx.chan, hx, tget]⟩
    have hnone : (({ s1 with free := s1.free + 1 } : State).modChan n ch (fun k => { k with slot := none, slotRel := false })).collAt n ch = none :=
      collAt_none (chanOf_modChan _ hchan) hcoll
    show s1.linkHit (n, ch) = _
    simp only [State.linkHit, State.drawBit, hf, if_true, hnone, Option.isSome_none, Bool.false_eq_true, if_false]

/-- Settles O41: each event is its own state function, taken in the case that the clause's premises name. -/
theorem fabricEvents : Obligations.FabricEvents := by
  refine ⟨fun pa line s l hl ha => ⟨fun hm hs hp hf => fabricLineArrival_writes hl ha hm hs hp hf, fun h => fabricLineArrival_refused hl h⟩,
    fun ctx tile c s x f rest hx hf hj hc hr hk => tileFireComplete_completes hx hf hj hc hr hk,
    fun group nslot step s hm hg he h1 h2 h3 h4 => staggerMessage_arms hm hg he h1 h2 h3 h4, ?_, ?_⟩
  · intro ctx ch s k c w h
    refine ⟨fun d hd hn => staggerRelease_ends h hd hn, fun hw => ?_, fun hw => ?_, fun hl hf => fabricAckTimeout_waits h hl hf,
      fun l hl hd => fabricAckTimeout_traps h hl hd⟩
    · exact (stepWaitTimeout_eq h).trans (by rw [if_neg (Nat.not_le.2 hw)])
    · exact (stepWaitTimeout_eq h).trans (by rw [if_pos hw])
  · intro port s s1 h1 hp
    refine ⟨fun hs => congrArg Host.Outcome.next (linkFail_empty h1 hp hs), fun n x ch k hs hx hslot hcoll => ?_⟩
    obtain ⟨hother, hsame⟩ := linkFail_one h1 hp hs hx hslot hcoll
    exact ⟨fun h => congrArg _ (hother h), fun h => ⟨fun hf => congrArg _ ((hsame h).1 hf), fun hf => congrArg _ ((hsame h).2 hf)⟩⟩

end Sys2Proof.Machine
end

section
/-!
PROOFS. Physical addresses, their homes, and trap 0x06 (O51).
-/

namespace Sys2Proof.Machine

/-- The parts of a layout are a whole module, halves or quarters (R405). -/
theorem layoutParts_shape : ∀ code < 5, ∀ q ∈ layoutParts code,
    (q.2 = 64 ∧ q.1 = 0) ∨ (q.2 = 32 ∧ ∃ h < 2, q.1 = 32 * h) ∨ (q.2 = 16 ∧ ∃ h < 4, q.1 = 16 * h) := by decide

/-- The part of a layout that holds the quarter i of the dies, where one does. -/
theorem find_layoutParts_quarter : ∀ code < 5, ∀ q ∈ layoutParts code, ∀ i < 4, q.1 / 16 ≤ i → i < q.1 / 16 + q.2 / 16 →
    (layoutParts code).find? (fun p => p.1 ≤ i * 16 && i * 16 < p.1 + p.2) = some q := by decide

theorem layout_shape {s : State} {p n : Nat} (hc : s.pcfg.toNat % 8 ≤ 4) (h : (p, n) ∈ s.layout) :
    (n = 64 ∧ p = 0) ∨ (n = 32 ∧ ∃ h < 2, p = 32 * h) ∨ (n = 16 ∧ ∃ h < 4, p = 16 * h) :=
  layoutParts_shape _ (Nat.lt_succ_of_le hc) _ h

theorem partOfLocal_of_mem {s : State} {p n l : Nat} (hc : s.pcfg.toNat % 8 ≤ 4) (h : (p, n) ∈ s.layout) (hl : l < 2 ^ 41)
    (h1 : partBase p ≤ l) (h2 : l < partBase p + partSize n) : s.partOfLocal l = (p, n) := by
  unfold partBase partSize at *
  have hlow : (p, n).1 / 16 ≤ l / 2 ^ 39 := by dsimp only; omega
  have hhigh : l / 2 ^ 39 < (p, n).1 / 16 + (p, n).2 / 16 := by dsimp only; omega
  exact congrArg (Option.getD · (0, 64)) (find_layoutParts_quarter _ (Nat.lt_succ_of_le hc) (p, n) h (l / 2 ^ 39) (by omega) hlow hhigh)

/-- A byte of a partition of k stacks lies on one of them, within its 2^36 bytes. -/
theorem home_bounds {p n k l : Nat} (hk : n = 2 * k) (hp : p / 2 + k ≤ 32) (hpos : 0 < k) (hl : l < k * 2 ^ 36) :
    p / 2 + l / 2 ^ 12 % (n / 2) < 32 ∧ ∀ r < 2 ^ 12, l / 2 ^ 12 / (n / 2) * 2 ^ 12 + r < 2 ^ 36 := by
  have hn : n / 2 = k := by omega
  rw [hn]
  have hmod := Nat.mod_lt (l / 2 ^ 12) hpos
  have hdiv : l / 2 ^ 12 / k < 2 ^ 24 := Nat.div_lt_of_lt_mul (by omega)
  exact ⟨by omega, fun r hr => by omega⟩

theorem leafPa_of_ownMod {s : State} {part : Nat} {f : Leaf} {need : Need} {va : Nat} (ha : f.allows need = true) (hm : paMod (f.pa va) = s.ownMod) :
    s.leafPa part f need va
      = if f.pa va / 2 ^ 41 % 64 ≠ 0 ∨ paLocal (f.pa va) < partBase part ∨ partBase part + partSize (s.partDies part) ≤ paLocal (f.pa va)
          ∨ paKey (f.pa va) ∉ (s.pool part).keys
        then .error { cause := 0x06, detail := va, va := va } else .ok (f.pa va) := by
  have hok : s.physOk part (f.pa va) = true ↔ ¬ (f.pa va / 2 ^ 41 % 64 ≠ 0 ∨ paLocal (f.pa va) < partBase part
      ∨ partBase part + partSize (s.partDies part) ≤ paLocal (f.pa va) ∨ paKey (f.pa va) ∉ (s.pool part).keys) := by
    simp [State.physOk, State.keyOk, and_assoc]
  unfold State.leafPa
  simp only [ha, hm, Bool.not_true, Bool.false_eq_true, if_false, if_true]
  by_cases h : s.physOk part (f.pa va) = true
  · rw [if_pos h, if_neg (hok.1 h)]
  · rw [if_neg h, if_pos (not_not.1 fun hn => h (hok.2 hn))]

/-- Settles O51: arithmetic on the fields, and the parts of the five layouts taken one by one. -/
theorem physicalAddresses : Obligations.PhysicalAddresses := by
  refine ⟨?_, ?_, ?_, fun s part f need va ha hm => leafPa_of_ownMod ha hm⟩
  · rintro key mod res loc hk hm hr hl pa rfl
    unfold paKey paMod paLocal
    omega
  · rintro s l p n g hc hl h h1 h2 rfl
    have hpart := partOfLocal_of_mem hc h hl h1 h2
    have hhome : s.homeOf l = (p / 2 + (l - partBase p) / 2 ^ 12 % (n / 2), (l - partBase p) / 2 ^ 12 / (n / 2) * 2 ^ 12 + l % 2 ^ 12) := by
      unfold State.homeOf
      rw [hpart]
      rfl
    obtain ⟨k, hk, hp, hpos, hsize⟩ : ∃ k, n = 2 * k ∧ p / 2 + k ≤ 32 ∧ 0 < k ∧ partSize n = k * 2 ^ 36 := by
      unfold partSize
      obtain ⟨rfl, rfl⟩ | ⟨rfl, i, hi, rfl⟩ | ⟨rfl, i, hi, rfl⟩ := layout_shape hc h
      · exact ⟨32, by decide⟩
      · exact ⟨16, by omega⟩
      · exact ⟨8, by omega⟩
    obtain ⟨hstack, hbyte⟩ := home_bounds hk hp hpos (l := l - partBase p) (by omega)
    rw [hhome]
    exact ⟨hpart, rfl, hstack, hbyte _ (Nat.mod_lt _ (by decide))⟩
  · intro s p n hc h
    unfold partBase partSize
    obtain ⟨rfl, rfl⟩ | ⟨rfl, i, hi, rfl⟩ | ⟨rfl, i, hi, rfl⟩ := layout_shape hc h
    · exact .inl ⟨rfl, rfl, rfl⟩
    · exact .inr (.inl ⟨rfl, i, hi, rfl, by omega, rfl⟩)
    · exact .inr (.inr ⟨rfl, i, hi, rfl, by omega, by omega⟩)

end Sys2Proof.Machine
end

section
/-!
PROOFS. The instructions of the copy engine: CEGO, CESTOP and CESTAT (O37).
-/

namespace Sys2Proof.Machine

section
variable {g : Guard} {s s1 : State} {u : Cur}

/-- A CEGO that finds room hands over, takes its number and puts its chain behind the others. -/
theorem cego_completes {o : CtrOps} {x y : Word} {off : Nat} (hr : Runs s u o.g) (hs : operand2 u o.d o.a o.b s = .ok (x, y) s1)
    (ha : areaOf u (x.toInt + y.toInt) 32 32 false s1 = .ok (.spad off) s1) (hn : (s1.ceAt u.core).chains.length < 4)
    (hl : (s1.strmAt u.core u.strm).log = []) (hc : (((s1.handed u).jobAt u.core).ctr o.ctr.toNat).canTake 1 = true) :
    Completes (.cego o) s u .next (((((s1.handed u).numbered u.core o.ctr).chainAdded u.core off o.ctr ((s1.handed u).nextNum u.core o.ctr)
      (s1.ceAt u.core).chains.isEmpty).answered u o.nb true).delivered u o.d ((s1.handed u).nextNum u.core o.ctr)) := by
  obtain ⟨hd, he, s2, hx, hy⟩ := operand2_ok.1 hs
  refine issueNext_ok hr (M.bind_run (needSpace_run hd) (M.bind_run (ensure_run he) (M.bind_run hx (M.bind_run hy (M.bind_run ha
    (M.bind_run getJob_run ?_))))))
  have hsome : ¬ 4 ≤ (s1.jobAt u.core).ce.chains.length := Nat.not_le.2 hn
  rw [if_neg hsome]
  refine M.bind_run (handOver_run hl) (M.bind_run (takeNumber_run hc) (M.bind_run modify_run ?_))
  unfold State.chainAdded State.ceAt
  cases o.nb with
  | none =>
    by_cases hidle : (s1.jobAt u.core).ce.chains.isEmpty = true
    · rw [if_pos hidle, if_pos hidle]
      exact M.bind_run modify_run deliver_run
    · rw [if_neg hidle, if_neg hidle]
      exact deliver_run
  | some p =>
    by_cases hidle : (s1.jobAt u.core).ce.chains.isEmpty = true
    · rw [if_pos hidle, if_pos hidle]
      exact M.bind_run modify_run (M.bind_run modStrm_run deliver_run)
    · rw [if_neg hidle, if_neg hidle]
      exact M.bind_run modStrm_run deliver_run

theorem cego_refused {o : CtrOps} {x y : Word} {off : Nat} {p : BitVec 3} (hr : Runs s u o.g) (hs : operand2 u o.d o.a o.b s = .ok (x, y) s1)
    (ha : areaOf u (x.toInt + y.toInt) 32 32 false s1 = .ok (.spad off) s1) (hn : (s1.ceAt u.core).chains.length = 4) (hp : o.nb = some p) :
    Completes (.cego o) s u .next ((s1.answered u o.nb false).delivered u o.d 0) := by
  obtain ⟨hd, he, s2, hx, hy⟩ := operand2_ok.1 hs
  refine issueNext_ok hr (M.bind_run (needSpace_run hd) (M.bind_run (ensure_run he) (M.bind_run hx (M.bind_run hy (M.bind_run ha
    (M.bind_run getJob_run ?_))))))
  have hfull : 4 ≤ (s1.jobAt u.core).ce.chains.length := hn.ge
  rw [if_pos hfull, hp]
  exact M.bind_run modStrm_run deliver_run

/-- A loop that changes the state for each element of a list. -/
theorem M.forIn_modify {α : Type} {f : State → α → State} {body : α → M (ForInStep PUnit)}
    (hb : ∀ a s, body a s = .ok (.yield ⟨⟩) (f s a)) (l : List α) (s : State) : forIn l (⟨⟩ : PUnit) (fun a _ => body a) s = .ok ⟨⟩ (l.foldl f s) := by
  induction l generalizing s with
  | nil => rfl
  | cons a l ih =>
    rw [List.forIn_cons]
    exact M.bind_run (hb a s) (ih _)

/-- A CESTOP once its release is made: it waits for the stores, completes the chains' numbers with an error, and empties the engine. -/
def cestopEnd (u : Cur) (chains : List Chain) : M Unit := do
  if !(← getJob u).ce.unacked.isEmpty then keepFor .busy
  for h in chains do
    if !h.notified then modify (fun s => s.completeNum u.core h.ctr.toNat h.num.toNat .dom true)
  modJob u (fun j => { j with ce := { j.ce with
    chains := [], entry := 0, block := 0, cur := none, pats := none, wait := none, stopReq := false, stopRel := false } })

theorem cestop_idle (hr : Runs s u g) (h : (s.ceAt u.core).chains = []) : Completes (.cestop g) s u .next s := by
  refine issueNext_ok hr (M.bind_run getJob_run ?_)
  have he : (!(s.jobAt u.core).ce.chains.isEmpty) = false := by rw [show (s.jobAt u.core).ce.chains = [] from h]; rfl
  rw [he]
  rfl

theorem cestop_ends (hr : Runs s u g) (h : (s.ceAt u.core).chains ≠ []) (hf : (s.ceAt u.core).flight = none)
    (hrel : (s.ceAt u.core).relDone = false) (hu : ((s.ceStopped u.core).ceAt u.core).unacked = []) :
    Completes (.cestop g) s u .next (((s.ceAt u.core).chains.foldl
      (fun s h => if h.notified then s else s.completeNum u.core h.ctr.toNat h.num.toNat .dom true) (s.ceStopped u.core)).modCe u.core
        CopyEng.emptied) := by
  refine issueNext_ok hr (M.bind_run getJob_run ?_)
  have he : (!(s.jobAt u.core).ce.chains.isEmpty) = true := by simpa [State.ceAt] using h
  have hw : ¬ ((s.jobAt u.core).ce.flight.isSome || (s.jobAt u.core).ce.relDone) = true := by
    rw [show (s.jobAt u.core).ce.flight = none from hf, show (s.jobAt u.core).ce.relDone = false from hrel]
    decide
  have hend : ∀ t, ((t.ceAt u.core).unacked = []) → cestopEnd u (s.jobAt u.core).ce.chains t = .ok () (((s.ceAt u.core).chains.foldl
      (fun s h => if h.notified then s else s.completeNum u.core h.ctr.toNat h.num.toNat .dom true) t).modCe u.core CopyEng.emptied) := by
    intro t ht
    refine M.bind_run getJob_run ?_
    have hacked : ¬ (!(t.jobAt u.core).ce.unacked.isEmpty) = true := by rw [show (t.jobAt u.core).ce.unacked = [] from ht]; decide
    rw [if_neg hacked]
    refine M.bind_run (M.forIn_modify (fun h t => ?_) _ _) modJob_run
    cases h.notified <;> rfl
  rw [if_pos he, if_neg hw]
  unfold State.ceStopped at hu ⊢
  unfold State.ceAt at hu ⊢
  cases hstop : (s.jobAt u.core).ce.stopRel with
  | true =>
    rw [hstop, if_pos rfl] at hu
    exact hend s hu
  | false =>
    rw [hstop, if_neg Bool.false_ne_true] at hu
    exact M.bind_run modify_run (hend _ hu)

theorem cestat_completes {d : Dest} (hr : Runs s u g) (hd : (s.jobAt u.core).noRoom u.strm d = none) :
    Completes (.cestat g d) s u .next (s.delivered u d
      (BitVec.ofNat 64 ((if (s.ceAt u.core).chains = [] then 0 else 2 ^ 63) + (s.ceAt u.core).chains.length * 2 ^ 48
        + (s.ceAt u.core).entry % 65536 * 2 ^ 32 + (s.ceAt u.core).block % 2 ^ 32))) := by
  refine issueNext_ok hr (M.bind_run (needSpace_run hd) (M.bind_run getJob_run ?_))
  have hbit : (!(s.ceAt u.core).chains.isEmpty).toNat * 2 ^ 63 = if (s.ceAt u.core).chains = [] then 0 else 2 ^ 63 := by
    cases (s.ceAt u.core).chains <;> simp
  rw [← hbit]
  exact deliver_run

end

/-- Settles O37: each instruction's body run to its end in the case that the clause's premises name. -/
theorem copyEngineInstructions : Obligations.CopyEngineInstructions := by
  refine ⟨fun o s s1 u x y off hr hs ha => ⟨?_, fun hn p hp => cego_refused hr hs ha hn hp⟩, fun g s u hr => ⟨cestop_idle hr, cestop_ends hr,
    fun d hd => cestat_completes hr hd⟩⟩
  rintro hn hl hc s2 n rfl rfl
  exact cego_completes hr hs ha hn hl hc

end Sys2Proof.Machine
end

section
/-!
PROOFS. The copy engine runs the entries of its chain (O38).
-/

namespace Sys2Proof.Machine

section
variable {s : State} {c : Nat} {raw : BitVec 256} {k : Nat} {f : BitVec 256 → State → State}

/-! ### An engine at an entry -/

theorem ceAct_run (h : s.engineAt c raw) (hk : ceKind raw = k) : s.ceAct c k f = f raw s := by
  obtain ⟨hlive, -, hcur⟩ := h
  unfold State.ceAct
  simp only [hlive, hcur, hk, Bool.not_true, Bool.false_eq_true, if_false, if_true]

theorem ceOrdered_run (h : s.engineAt c raw) (hk : ceKind raw = k) (hu : (s.ceAt c).unacked = []) : s.ceOrdered c k f = f raw s := by
  refine (ceAct_run h hk).trans ?_
  obtain ⟨-, hgo, -⟩ := h
  simp only [hgo, hu, List.isEmpty_nil, Bool.false_eq_true, if_false, if_true]

theorem hasJob_of_engineAt (h : s.engineAt c raw) : (s.core c).job.isSome = true := by
  have hlive := h.1
  unfold State.ceLive at hlive
  simp only [Bool.and_eq_true] at hlive
  exact hlive.1.1.1.1

/-- A release at an entry that no store holds back goes on in the state with the release made. -/
theorem ceReleased_run {scope : Scope} {g : State → State} (h : scope ≠ .dom ∨ ((s.ceFlushed c scope).ceAt c).unacked = []) :
    s.ceReleased c k scope g = g (s.ceFlushed c scope) := by
  refine if_neg ?_
  show ¬ (scope = .dom && !((s.ceFlushed c scope).ceAt c).unacked.isEmpty) = true
  rcases h with h | h <;> simp [h]

theorem ceAt_modCe (hj : (s.core c).job.isSome = true) (g : CopyEng → CopyEng) : (s.modCe c g).ceAt c = g (s.ceAt c) :=
  congrArg Job.ce (jobAt_modJob _ hj)

/-! ### COPY -/

theorem cePats_of_pats {p : Pattern × Pattern} (h : (s.ceAt c).pats = some p) : s.cePats c raw = some p := by
  unfold State.cePats
  rw [h]

/-- The patterns of the COPY can be read: they are held, or their bytes are good. -/
def State.patsGood (s : State) (c : Nat) (raw : BitVec 256) : Prop :=
  (s.ceAt c).pats ≠ none ∨ (s.spadBadAt c (ceField raw 4 4) 64 = none ∧ s.spadBadAt c (ceField raw 8 4) 64 = none)

/-- Up to 128 bytes of a block written at its destination (R327). -/
def State.copyPiece (s : State) (c : Nat) (d : RowDst) (bs : List Byte) : State :=
  let s := (s.cePut c d (bs.take 128)).modCe c (fun e => if (bs.drop 128).isEmpty then { e with flight := none, block := e.block + 1 }
    else { e with flight := some (d.advance 128, bs.drop 128) })
  s.postOnce (s.now + 1) (.chainCopy c)

/-- A COPY that holds its patterns goes on to the next entry, or reads its next block and writes its first piece (R327). -/
def State.copyNext (s : State) (c : Nat) (p q : Pattern) : State :=
  let n := (s.ceAt c).block
  if p.total ≤ n then s.ceGoto c ((s.ceAt c).entry + 1)
  else
    let (s', r) := s.ceRead c (p.addr n) p.blk.toNat 8
    match r with
    | .error t => s'.ceTrap c t
    | .ok bs =>
      let (s', d) := s'.ceDst c (q.addr n) p.blk.toNat 8
      match d with
      | .error t => s'.ceTrap c t
      | .ok d => s'.copyPiece c d bs

theorem copyCycle_eq (h : s.engineAt c raw) (hk : ceKind raw = 1) (hf : (s.ceAt c).flight = none) (hg : s.patsGood c raw) :
    s.copyCycle c = match s.cePats c raw with
      | none => s.ceTrap c (chainTrap (s.ceAt c).entry 2)
      | some (p, q) => (s.modCe c (fun e => { e with pats := some (p, q) })).copyNext c p q := by
  refine (ceAct_run h hk).trans ?_
  have hgo := h.2.1
  have hgood : (if (s.ceAt c).pats.isSome then none
      else (s.spadBadAt c (ceField raw 4 4) 64).orElse (fun _ => s.spadBadAt c (ceField raw 8 4) 64)) = none := by
    rcases hg with hp | ⟨h1, h2⟩
    · rw [if_pos (Option.isSome_iff_ne_none.2 hp)]
    · rw [h1, h2]
      split <;> rfl
  simp only [hf, hgo, hgood, Bool.false_eq_true, if_false]
  cases s.cePats c raw with
  | none => rfl
  | some p => rfl

theorem checkAddr_modCe (g : CopyEng → CopyEng) (a : Int) (n al : Nat) (fe : Bool) :
    checkAddr (s.modCe c g) c a n al fe = checkAddr s c a n al fe := by
  have hregion : (s.modCe c g).regionSize c = s.regionSize c := by
    unfold State.regionSize State.modCe
    rw [core_modJob_same]
    cases (s.core c).job <;> rfl
  have hsize : ((s.modCe c g).core c).spadSize = (s.core c).spadSize :=
    (congrArg Core.spadSize (core_modJob_same s c _)).trans rfl
  unfold checkAddr
  rw [hregion, hsize]

theorem ceRead_spad {a : Int} {n al o : Nat} (ha : checkAddr s c a n al false = .ok (.spad o)) (hb : s.spadBadAt c o n = none) :
    s.ceRead c a n al = (s, .ok (readBytes (s.core c).spad o n)) := by
  unfold State.ceRead
  rw [ha]
  simp only [State.localBad, hb, State.localBytes]

theorem ceDst_spad {a : Int} {n al o : Nat} (ha : checkAddr s c a n al false = .ok (.spad o)) : s.ceDst c a n al = (s, .ok (.spad o)) := by
  unfold State.ceDst
  rw [ha]

theorem wpMatch_nil (a n : Nat) (rd wr : Bool) : wpMatch [] a n rd wr = none := by
  simp [wpMatch, tget]

/-- Without watchpoints the engine's write to the scratchpad is the write alone. -/
theorem cePut_spad {o : Nat} {bs : List Byte} (hw : (s.core c).obs.wp = []) : s.cePut c (.spad o) bs = s.spadWrite c o (fullMask bs) true := by
  have hwp : ((s.spadWrite c o (fullMask bs) true).core c).obs.wp = [] := by rw [State.spadWrite, core_modCore_same]; exact hw
  unfold State.cePut
  dsimp only
  rw [hwp, wpMatch_nil]

/-- A whole block written to the scratchpad ends the block. -/
theorem copyPiece_spad {o : Nat} {bs : List Byte} (hj : (s.core c).job.isSome = true) (hw : (s.core c).obs.wp = []) (hl : bs.length ≤ 128) :
    ((s.copyPiece c (.spad o) bs).ceAt c).block = (s.ceAt c).block + 1 ∧ ((s.copyPiece c (.spad o) bs).core c).holds o (fullMask bs) := by
  have hcore : (s.copyPiece c (.spad o) bs).core c = ((s.spadWrite c o (fullMask bs) true).modCe c
      (fun e => { e with flight := none, block := e.block + 1 })).core c := by
    unfold State.copyPiece
    dsimp only
    rw [core_postOnce, List.take_of_length_le hl, List.drop_of_length_le hl, cePut_spad hw]
    rfl
  have hjob : ((s.spadWrite c o (fullMask bs) true).core c).job = (s.core c).job := by rw [State.spadWrite, core_modCore_same]
  constructor
  · have hce := ceAt_modCe (s := s.spadWrite c o (fullMask bs) true) (by rw [hjob]; exact hj)
      (fun e => { e with flight := none, block := e.block + 1 })
    have hat : (s.copyPiece c (.spad o) bs).ceAt c = _ := (congrArg Job.ce (jobAt_of_job (congrArg Core.job hcore))).trans hce
    rw [hat, State.ceAt, jobAt_of_job hjob]
    rfl
  · rw [hcore, State.modCe, core_modJob_same]
    exact holds_spadWrite_same (full_fullMask bs) s c

theorem chainCopy_moves {p q : Pattern} {a b : Nat} (h : s.engineAt c raw) (hk : ceKind raw = 1) (hf : (s.ceAt c).flight = none)
    (hg : s.patsGood c raw) (hpq : s.cePats c raw = some (p, q)) (hn : (s.ceAt c).block < p.total) (hblk : p.blk.toNat ≤ 128)
    (ha : checkAddr s c (p.addr (s.ceAt c).block) p.blk.toNat 8 false = .ok (.spad a))
    (hb : checkAddr s c (q.addr (s.ceAt c).block) p.blk.toNat 8 false = .ok (.spad b)) (hw : (s.core c).obs.wp = [])
    (hbad : s.spadBadAt c a p.blk.toNat = none) :
    ∃ t, exec (.chainCopy c) s = .next t ∧ (t.ceAt c).block = (s.ceAt c).block + 1
      ∧ readBytes (t.core c).spad b p.blk.toNat = readBytes (s.core c).spad a p.blk.toNat ∧ emptyGranule (t.core c).fe b p.blk.toNat = none := by
  have hj := hasJob_of_engineAt h
  obtain ⟨s1, hs1⟩ : ∃ s1, s.modCe c (fun e => { e with pats := some (p, q) }) = s1 := ⟨_, rfl⟩
  have hce : s1.ceAt c = { s.ceAt c with pats := some (p, q) } := by rw [← hs1, ceAt_modCe hj]
  have hcore : s1.core c = { s.core c with job := s1.core c |>.job } := by rw [← hs1, State.modCe, core_modJob_same]
  have hblock : (s1.ceAt c).block = (s.ceAt c).block := by rw [hce]
  have hspad : (s1.core c).spad = (s.core c).spad := by rw [hcore]
  have hnext : s.copyCycle c = s1.copyPiece c (.spad b) (readBytes (s.core c).spad a p.blk.toNat) := by
    rw [copyCycle_eq h hk hf hg, hpq]
    dsimp only
    rw [hs1]
    unfold State.copyNext
    have hsrc : checkAddr s1 c (p.addr (s.ceAt c).block) p.blk.toNat 8 false = .ok (.spad a) := by rw [← hs1, checkAddr_modCe, ha]
    have hdst : checkAddr s1 c (q.addr (s.ceAt c).block) p.blk.toNat 8 false = .ok (.spad b) := by rw [← hs1, checkAddr_modCe, hb]
    have hgood : s1.spadBadAt c a p.blk.toNat = none := by
      rw [← hbad, ← hs1, State.spadBadAt, State.spadBadAt, State.spadRead, State.spadRead, State.modCe, core_modJob_same]
    rw [hblock]
    dsimp only
    rw [if_neg (Nat.not_le.2 hn), ceRead_spad hsrc hgood]
    dsimp only
    rw [ceDst_spad hdst, hspad]
  have hlen : (readBytes (s.core c).spad a p.blk.toNat).length = p.blk.toNat := by simp [readBytes]
  obtain ⟨h1, h2, h3⟩ := copyPiece_spad (s := s1) (o := b) (bs := readBytes (s.core c).spad a p.blk.toNat)
    (by rw [← hs1, State.modCe, core_modJob_same, Option.isSome_map]; exact hj) (by rw [hcore]; exact hw) (by rw [hlen]; exact hblk)
  rw [bytes_fullMask] at h2
  rw [fullMask, List.length_map, hlen] at h2 h3
  rw [hblock] at h1
  exact ⟨_, congrArg Host.Outcome.next hnext, h1, h2, h3⟩

theorem chainCopy_ends {p q : Pattern} (h : s.engineAt c raw) (hk : ceKind raw = 1) (hf : (s.ceAt c).flight = none)
    (hg : s.patsGood c raw) (hpq : s.cePats c raw = some (p, q)) (hn : p.total ≤ (s.ceAt c).block) :
    exec (.chainCopy c) s = .next ((s.modCe c (fun e => { e with pats := some (p, q) })).ceGoto c ((s.ceAt c).entry + 1)) := by
  have hce := ceAt_modCe (hasJob_of_engineAt h) (fun e => { e with pats := some (p, q) })
  refine congrArg Host.Outcome.next ((copyCycle_eq h hk hf hg).trans ?_)
  rw [hpq]
  dsimp only
  unfold State.copyNext
  rw [hce]
  exact if_pos hn

theorem chainCopy_traps (h : s.engineAt c raw) (hk : ceKind raw = 1) (hf : (s.ceAt c).flight = none) (hg : s.patsGood c raw)
    (hpq : s.cePats c raw = none) : exec (.chainCopy c) s = .next (s.ceTrap c (chainTrap (s.ceAt c).entry 2)) := by
  refine congrArg Host.Outcome.next ((copyCycle_eq h hk hf hg).trans ?_)
  rw [hpq]

/-! ### LOOP, IF and WAIT -/

theorem chainLoop_eq (h : s.engineAt c raw) (hk : ceKind raw = 2) (ht : ceField raw 2 2 < (s.ceAt c).entry) {v : Nat}
    (hv : v = (if (s.ceAt c).lca.getLsbD (ceField raw 1 1 % 4) then tget 0 (s.ceAt c).lc (ceField raw 1 1 % 4) else ceField raw 4 4 - 1)) :
    exec (.chainLoop c) s = .next (if v = 0 then (s.modCe c (fun e =>
        { e with lca := e.lca &&& ~~~(1#4 <<< (ceField raw 1 1 % 4)), lc := tput 0 e.lc (ceField raw 1 1 % 4) 0 })).ceGoto c ((s.ceAt c).entry + 1)
      else (s.modCe c (fun e => { e with lca := e.lca ||| (1#4 <<< (ceField raw 1 1 % 4)), lc := tput 0 e.lc (ceField raw 1 1 % 4) (v - 1) })).ceGoto
        c (ceField raw 2 2)) := by
  subst hv
  refine congrArg Host.Outcome.next ((ceAct_run h hk).trans ?_)
  dsimp only
  rw [h.2.1, if_neg Bool.false_ne_true, if_neg (Nat.not_le.2 ht)]

theorem chainIf_counter (h : s.engineAt c raw) (hk : ceKind raw = 3) (hu : (s.ceAt c).unacked = []) (hc : ceField raw 1 1 % 16 = 4) :
    exec (.chainIf c) s = .next (s.ceGoto c
      (if ceField raw 16 8 ≤ ((s.jobAt c).ctr (ceField raw 1 1 / 16)).done.toNat then (s.ceAt c).entry + 1 else ceField raw 2 2)) := by
  refine congrArg Host.Outcome.next ((ceOrdered_run h hk hu).trans ?_)
  simp only [hc, if_true, decide_eq_true_eq]

theorem chainIf_word {s1 : State} {bs : List Byte} (h : s.engineAt c raw) (hk : ceKind raw = 3) (hu : (s.ceAt c).unacked = [])
    (hc : ceField raw 1 1 % 16 < 4) (hr : s.ceRead c (BitVec.ofNat 64 (ceField raw 8 8)).toInt 8 8 = (s1, .ok bs)) :
    exec (.chainIf c) s = .next (s1.ceGoto c
      (if ceTest (ceField raw 1 1 % 16) (leNat bs) (ceField raw 16 8) then (s.ceAt c).entry + 1 else ceField raw 2 2)) := by
  refine congrArg Host.Outcome.next ((ceOrdered_run h hk hu).trans ?_)
  dsimp only
  rw [if_neg (Nat.ne_of_lt hc), hr]

theorem chainWait_counter (h : s.engineAt c raw) (hk : ceKind raw = 4) (hu : (s.ceAt c).unacked = []) (hb : (ceField raw 1 1).testBit 0 = false)
    (hv : ceField raw 8 8 ≤ ((s.jobAt c).ctr (ceField raw 1 1 / 16)).done.toNat) :
    exec (.chainWait c) s = .next ((s.ceAcquire c ((s.jobAt c).ctr (ceField raw 1 1 / 16)).acqs).ceGoto c ((s.ceAt c).entry + 1)) := by
  refine congrArg Host.Outcome.next ((ceOrdered_run h hk hu).trans ?_)
  dsimp only
  rw [hb, if_neg Bool.false_ne_true, if_pos hv]

theorem chainWait_granule {ar : Area} (h : s.engineAt c raw) (hk : ceKind raw = 4) (hu : (s.ceAt c).unacked = [])
    (hb : (ceField raw 1 1).testBit 0 = true) (ha : checkAddr s c (ceField raw 4 4) 16 16 true = .ok ar)
    (hfe : tget false (s.core c).fe (ceField raw 4 4 / 16) = true) :
    exec (.chainWait c) s = .next ((if (ceField raw 1 1).testBit 1 then
      s.modCore c (fun k => { k with fe := tput false k.fe (ceField raw 4 4 / 16) false }) else s).ceGoto c ((s.ceAt c).entry + 1)) := by
  refine congrArg Host.Outcome.next ((ceOrdered_run h hk hu).trans ?_)
  dsimp only
  rw [hb, if_pos rfl, ha]
  exact if_pos hfe

/-! ### SIGNAL, NOTIFY and END -/

/-- A SIGNAL with WORD 1: its address is checked and translated, then it releases and writes its word (R327, R328). -/
def State.signalWord (s : State) (c : Nat) (raw : BitVec 256) (scope : Scope) : State :=
  let i := (s.ceAt c).entry
  let (s, d) := s.ceDst c (BitVec.ofNat 64 (ceField raw 8 8)).toInt 8 8
  match d with
  | .error t => s.ceTrap c t
  | .ok d => s.ceReleased c 5 scope (fun s => (s.cePut c d (leBytes (ceField raw 16 8) 8)).ceGoto c (i + 1))

/-- A SIGNAL that no earlier store and no stop holds back. -/
theorem signalEntry_run (h : s.engineAt c raw) (hk : ceKind raw = 5) (hu : (s.ceAt c).unacked = [] ∨ (s.ceAt c).relDone = true) :
    s.signalEntry c = if (ceField raw 1 1).testBit 0 then
s.signalWord c raw (scopeOfNum (ceField raw 1 1 / 2 % 8))
      else s.signalCtr c (ceField raw 1 1 / 16) (scopeOfNum (ceField raw 1 1 / 2 % 8)) := by
  refine (ceAct_run h hk).trans ?_
  have hgo := h.2.1
  have hfree : (!(s.ceAt c).relDone && !(s.ceAt c).unacked.isEmpty) = false := by
    rcases hu with hu | hu <;> simp [hu]
  simp only [hgo, hfree, Bool.false_and, Bool.false_eq_true, if_false]
  rfl

theorem chainSignal_counter {m n : Nat} {scope : Scope} {s1 : State} (h : s.engineAt c raw) (hk : ceKind raw = 5)
    (hu : (s.ceAt c).unacked = [] ∨ (s.ceAt c).relDone = true) (hn : n = ceField raw 1 1 / 16) (hs : scope = scopeOfNum (ceField raw 1 1 / 2 % 8))
    (hb : (ceField raw 1 1).testBit 0 = false) (ht : ((s.jobAt c).ctr n).canTake 1 = true) (hnum : (s.ceAt c).sigNum = none)
    (hm : m = ((s.jobAt c).ctr n).iss.toNat + 1)
    (h1 : s1 = (s.modJob c (fun j => j.modCtr n (fun t => { t with iss := t.iss + 1 }))).modCe c (fun e => { e with sigNum := some m }))
    (hr : scope ≠ .dom ∨ ((s1.ceFlushed c scope).ceAt c).unacked = []) :
    exec (.chainSignal c) s = .next (((s1.ceFlushed c scope).completeNum c n m scope false).ceGoto c ((s.ceAt c).entry + 1)) := by
  subst hn hs hm h1
  refine congrArg Host.Outcome.next ((signalEntry_run h hk hu).trans ?_)
  rw [hb, if_neg Bool.false_ne_true]
  unfold State.signalCtr
  rw [hnum]
  dsimp only
  rw [ht, if_neg (by decide)]
  exact ceReleased_run hr

theorem chainSignal_taken {m n : Nat} {scope : Scope} (h : s.engineAt c raw) (hk : ceKind raw = 5)
    (hu : (s.ceAt c).unacked = [] ∨ (s.ceAt c).relDone = true) (hn : n = ceField raw 1 1 / 16) (hs : scope = scopeOfNum (ceField raw 1 1 / 2 % 8))
    (hb : (ceField raw 1 1).testBit 0 = false) (hnum : (s.ceAt c).sigNum = some m) (hr : ((s.ceFlushed c scope).ceAt c).unacked = []) :
    exec (.chainSignal c) s = .next (((s.ceFlushed c scope).completeNum c n m scope false).ceGoto c ((s.ceAt c).entry + 1)) := by
  subst hn hs
  refine congrArg Host.Outcome.next ((signalEntry_run h hk hu).trans ?_)
  rw [hb, if_neg Bool.false_ne_true]
  unfold State.signalCtr
  rw [hnum]
  exact ceReleased_run (.inr hr)

theorem chainSignal_word {scope : Scope} {s1 : State} {d : RowDst} (h : s.engineAt c raw) (hk : ceKind raw = 5)
    (hu : (s.ceAt c).unacked = [] ∨ (s.ceAt c).relDone = true) (hs : scope = scopeOfNum (ceField raw 1 1 / 2 % 8))
    (hb : (ceField raw 1 1).testBit 0 = true) (hd : s.ceDst c (BitVec.ofNat 64 (ceField raw 8 8)).toInt 8 8 = (s1, .ok d))
    (hr : scope ≠ .dom ∨ ((s1.ceFlushed c scope).ceAt c).unacked = []) :
    exec (.chainSignal c) s = .next (((s1.ceFlushed c scope).cePut c d (leBytes (ceField raw 16 8) 8)).ceGoto c ((s.ceAt c).entry + 1)) := by
  subst hs
  refine congrArg Host.Outcome.next ((signalEntry_run h hk hu).trans ?_)
  rw [hb, if_pos rfl]
  unfold State.signalWord
  rw [hd]
  exact ceReleased_run hr

theorem chainNotify_completes {h0 : Chain} {rest : List Chain} (h : s.engineAt c raw) (hk : ceKind raw = 6)
    (hu : (s.ceAt c).unacked = [] ∨ (s.ceAt c).relDone = true) (he : s.ceEntry c ((s.ceAt c).entry + 1) = some 0)
    (hr : ((s.ceFlushed c .dom).ceAt c).unacked = []) (hc : ((s.ceFlushed c .dom).ceAt c).chains = h0 :: rest) (hn : h0.notified = false) :
    exec (.chainNotify c) s = .next ((((s.ceFlushed c .dom).completeNum c h0.ctr.toNat h0.num.toNat .dom false).modCe c (fun e =>
      { e with chains := { h0 with notified := true } :: rest })).ceGoto c ((s.ceAt c).entry + 1)) := by
  refine congrArg Host.Outcome.next ((ceAct_run h hk).trans ?_)
  have hgo := h.2.1
  have hfree : (!(s.ceAt c).relDone && !(s.ceAt c).unacked.isEmpty) = false := by
    rcases hu with hu | hu <;> simp [hu]
  simp only [hgo, hfree, he, Bool.false_and, Bool.false_eq_true, if_false, ne_eq, not_true_eq_false]
  refine (ceReleased_run (.inr hr)).trans ?_
  simp only [hc, hn, Bool.false_eq_true, if_false]

theorem chainEnd_next (h : s.engineAt c raw) (hk : ceKind raw = 0) (hu : (s.ceAt c).unacked = []) (hi : 0 < (s.ceAt c).entry)
    (he : (s.ceEntry c ((s.ceAt c).entry - 1)).map ceKind = some 6) :
    exec (.chainEnd c) s = .next ((s.modCe c (fun e => { e with chains := e.chains.drop 1 })).ceGoto c 0) := by
  refine congrArg Host.Outcome.next ((ceOrdered_run h hk hu).trans (if_neg ?_))
  rw [he]
  simp only [ne_eq, not_true_eq_false, or_false]
  omega

end

/-- Settles O38: the engine runs the entry it is at, in the case that the clause's premises name. -/
theorem chainEntries : Obligations.ChainEntries := by
  intro c s raw h
  refine ⟨fun hk hf hg => ⟨fun p q hpq hn => chainCopy_ends h hk hf hg hpq hn, fun p q a b hpq hn hblk ha hb hw hbad =>
      chainCopy_moves h hk hf hg hpq hn hblk ha hb hw hbad, chainCopy_traps h hk hf hg⟩,
    ?_, fun hk hu => ⟨chainIf_counter h hk hu, fun s1 bs hc hr => chainIf_word h hk hu hc hr⟩,
    fun hk hu => ⟨chainWait_counter h hk hu, fun ar hb ha hfe => chainWait_granule h hk hu hb ha hfe⟩,
    fun hk hu n scope hn hs => ⟨fun hb ht hnum m s1 hm h1 hr => chainSignal_counter h hk hu hn hs hb ht hnum hm h1 hr,
      fun m hb hnum hr => chainSignal_taken h hk hu hn hs hb hnum hr, fun s1 d hb hd hr => chainSignal_word h hk hu hs hb hd hr⟩,
    fun hk hu he hr h0 rest hc hn => chainNotify_completes h hk hu he hr hc hn, chainEnd_next h⟩
  rintro hk ht k v rfl hv
  have hloop := chainLoop_eq h hk ht hv
  exact ⟨fun h0 => hloop.trans (by rw [if_pos h0]), fun h0 => hloop.trans (by rw [if_neg h0])⟩

end Sys2Proof.Machine
end

section
/-!
PROOFS. The landing instructions: LTAG, LFREE, LSTAT, LDESC, LSEND and LORPH (O35).
-/

namespace Sys2Proof.Machine

theorem liftF_run {α : Type} {f : State → State × Except AccFault α} {s t : State} {a : α} (h : f s = (t, .ok a)) : liftF f s = .ok a t :=
  liftF_ok.2 h

section
variable {g : Guard} {d : Dest} {a b : Src} {s s1 : State} {u : Cur} {v : Word} {t : BitVec 32} {x : Ctx}

/-! ### LTAG -/

theorem ltag_takes {o : COps} {i : Nat} (hr : Runs s u o.g) (hs : operand1 u o.d o.b s = .ok v s1) (hx : s1.ctx? (s1.jobAt u.core).ctx = some x)
    (hi : x.freeTag (v.toNat % 4096) = some i) : Completes (.ltag o) s u .next
      (((s1.tagTaken (s1.jobAt u.core).ctx i u.core (x.tag i).gen).answered u o.nb true).delivered u o.d
        (BitVec.ofNat 64 (x.pool * 65536 + (x.tag i).gen.toNat * 4096 + i))) := by
  obtain ⟨hd, he, hv⟩ := operand1_ok.1 hs
  refine issueNext_ok hr (M.bind_run (needSpace_run hd) (M.bind_run (ensure_run he) (M.bind_run hv (M.bind_run getCtx_run
    (M.bind_run M.get_run ?_)))))
  simp only [hx, hi]
  refine M.bind_run modify_run ?_
  cases o.nb with
  | none => exact deliver_run
  | some p => exact M.bind_run modStrm_run deliver_run

theorem ltag_refused {o : COps} {p : BitVec 3} (hr : Runs s u o.g) (hs : operand1 u o.d o.b s = .ok v s1)
    (hx : s1.ctx? (s1.jobAt u.core).ctx = some x) (hi : x.freeTag (v.toNat % 4096) = none) (hp : o.nb = some p) :
    Completes (.ltag o) s u .next ((s1.answered u o.nb false).delivered u o.d 0) := by
  obtain ⟨hd, he, hv⟩ := operand1_ok.1 hs
  refine issueNext_ok hr (M.bind_run (needSpace_run hd) (M.bind_run (ensure_run he) (M.bind_run hv (M.bind_run getCtx_run
    (M.bind_run M.get_run ?_)))))
  simp only [hx, hi, hp]
  exact M.bind_run modStrm_run deliver_run

theorem ltag_traps {o : COps} (hr : Runs s u o.g) (hs : operand1 u o.d o.b s = .ok v s1) (hx : s1.ctx? (s1.jobAt u.core).ctx = some x)
    (hi : x.freeTag (v.toNat % 4096) = none) (hp : o.nb = none) (hn : s.trapsNow u) : exec (.ltag o) s = .next (s1.takeTrap u (landTrap 1)) := by
  obtain ⟨hd, he, hv⟩ := operand1_ok.1 hs
  refine (issue_trap (t := s1) (x := landTrap 1) hr hn (M.bind_stop (M.bind_error (needSpace_run hd) (M.bind_error (ensure_run he) (M.bind_error hv
    (M.bind_error getCtx_run (M.bind_error M.get_run ?_))))))).trans (by rw [if_neg (by decide)])
  simp only [hx, hi, hp]
  rfl

/-! ### LFREE and LSTAT -/

theorem lfree_frees (hr : Runs s u g) (hs : source1 u a s = .ok v s1) (ht : t = v.setWidth 32) (hx : s1.ctx? (s1.jobAt u.core).ctx = some x)
    (hc : x.current t = true) (hl : s1.tagLive (s1.jobAt u.core).ctx t = false) : Completes (.lfree g a) s u .next
      (s1.modTag (s1.jobAt u.core).ctx (tagIdx t) (fun y => { y with alloc := false, gen := y.gen + 1 })) := by
  subst ht
  obtain ⟨he, hv⟩ := source1_ok.1 hs
  refine issueNext_ok hr (M.bind_run (ensure_run he) (M.bind_run hv (M.bind_run getCtx_run (M.bind_run M.get_run
    (M.bind_run (trapIf_run ?_) (M.bind_run (holdIf_run hl) modify_run))))))
  rw [hx, Option.map_some, Option.getD_some, hc]
  rfl

theorem lstat_reads (hr : Runs s u g) (ht : t = v.setWidth 32) (hs : operand1 u d a s = .ok v s1) (hx : s1.ctx? (s1.jobAt u.core).ctx = some x)
    (hp : tagPool t = x.pool) : Completes (.lstat g d a) s u .next (s1.delivered u d ((x.tag (tagIdx t)).status t)) := by
  subst ht
  obtain ⟨hd, he, hv⟩ := operand1_ok.1 hs
  refine issueNext_ok hr (M.bind_run (needSpace_run hd) (M.bind_run (ensure_run he) (M.bind_run hv (M.bind_run getCtx_run
    (M.bind_run M.get_run ?_)))))
  simp only [hx]
  exact M.bind_run (trapIf_run (by simp [hp])) deliver_run

/-! ### LDESC -/

theorem ldesc_sets {s2 : State} {w : Word} {ar : Area} {raw : BitVec 256} (hr : Runs s u g) (hs : source2 u a b s = .ok (v, w) s1)
    (ht : t = v.setWidth 32) (ha : localArea u w.toInt 32 32 s1 = .ok ar s1) (ho : orderAt u ar 32 s1 = .ok () s1)
    (hw : watch u w.toInt.toNat 32 true false s1 = .ok () s1) (hb : s1.localBad u.core ar 32 = none)
    (hraw : raw = BitVec.ofNat 256 (leNat (s1.localBytes u.core ar 32))) (hx : s1.ctx? (s1.jobAt u.core).ctx = some x) (hc : x.current t = true)
    (horph : (x.tag (tagIdx t)).orphaned = false) (hd : (x.tag (tagIdx t)).desc = none) (hbad : landBad raw (s1.partDies x.part) = false)
    (hl : (s1.strmAt u.core u.strm).log = [])
    (hf : (s1.handed u).frontWrite (s1.jobAt u.core).ctx (x.landa + 32 * tagIdx t) (leBytes raw.toNat 32) = (s2, .ok ())) :
    Completes (.ldesc g a b) s u .next (s2.modTag (s1.jobAt u.core).ctx (tagIdx t) (fun y => { y with desc := some raw })) := by
  subst ht hraw
  obtain ⟨he, _, hv, hw'⟩ := source2_ok.1 hs
  refine issueNext_ok hr (M.bind_run (ensure_run he) (M.bind_run hv (M.bind_run hw' (M.bind_run ha (M.bind_run ho (M.bind_run hw
    (M.bind_run (localRead_run hb) (M.bind_run getCtx_run (M.bind_run M.get_run ?_)))))))))
  simp only [hx]
  exact M.bind_run (trapIf_run (by rw [hc]; rfl)) (M.bind_run (trapIf_run horph) (M.bind_run (trapIf_run (by rw [hd]; rfl)) (M.bind_run
    (trapIf_run hbad) (M.bind_run (handOver_run hl) (M.bind_run (liftF_run hf) modify_run)))))

/-! ### LSEND -/

theorem lsend_answered {row : BitVec 7} {w : Word} {p : BitVec 3} (hr : Runs s u g) (hw : (s.strmAt u.core u.strm).answer = some w) :
    Completes (.lsend g row b (some p)) s u .next (s.modStrm u.core u.strm (fun x => x.setPred p (w != 0))) := by
  refine issueNext_ok hr (M.bind_run getStrm_run ?_)
  rw [hw]
  exact modStrm_run

/-- What an LSEND whose tag and descriptor are in order does: it sends, or answers that it has no credit. -/
def lsendEnd (u : Cur) (s1 : State) (t : BitVec 32) (fi fmt row : Nat) (nb : Option (BitVec 3)) : M Unit :=
  match nb with
  | none => do
    holdIf (decide ((s1.core u.core).credits = 0)) .credit
    handOver u
    modify (fun s => s.sendFrag u.core (s.parcel u (s1.jobAt u.core) t fi fmt row) false)
  | some pd =>
    if (s1.core u.core).credits = 0 then modStrm u (fun v => v.setPred pd false)
    else do
      handOver u
      modify (fun s => s.sendFrag u.core (s.parcel u (s1.jobAt u.core) t fi fmt row) true)
      keepFor .landing

/-- The fragment index that an LSEND names: a literal names none (R321). -/
def sentIndex (b : Src) (v : Word) : Nat := if b matches .lit _ then 0 else v.toNat / 2 ^ 32 % 65536

theorem lsend_ends {row : BitVec 7} {nb : Option (BitVec 3)} {fi : Nat} {raw : BitVec 256} {r : State} (hr : Runs s u g)
    (hans : (s.strmAt u.core u.strm).answer = none) (hfr : ∀ f ∈ (s.core u.core).frags, f.nb = false) (hs : source1 u b s = .ok v s1)
    (ht : t = v.setWidth 32) (hfi : fi = sentIndex b v)
    (hdc : (s1.core u.core).dcache.contains t = true) (hx : s1.ctx? (s1.jobAt u.core).ctx = some x) (hc : x.current t = true)
    (horph : (x.tag (tagIdx t)).orphaned = false) (hd : (x.tag (tagIdx t)).desc = some raw) (hn : fi < (landDesc raw).nf)
    (hfmt : (landDesc raw).dtype = 2 → ∃ mf, fmtOf (fun i => tget 0 (s1.jobAt u.core).fd i) (landDesc raw).fmt = some mf
      ∧ ((landDesc raw).isInt || precisionOk (landDesc raw).lw mf) = true)
    (hrows : s1.rowsReady u.core row.toNat)
    (hend : lsendEnd u s1 t fi (landDesc raw).fmt row.toNat nb s1 = .ok () r) :
    Completes (.lsend g row b nb) s u .next r := by
  subst ht hfi
  obtain ⟨he, hv⟩ := source1_ok.1 hs
  refine issueNext_ok hr (M.bind_run getStrm_run ?_)
  simp only [hans]
  refine M.bind_run M.get_run ?_
  have hnone : ¬ (s.core u.core).frags.any (fun f => f.nb) = true := by
    rw [List.any_eq_true]
    rintro ⟨f, hf, hnb⟩
    rw [hfr f hf] at hnb
    cases hnb
  have hmiss : ¬ (!(s1.core u.core).dcache.contains (v.setWidth 32)) = true := by rw [hdc]; decide
  have hready : (((List.range 8).map (fun i => row.toNat + i)).any (fun r =>
      (s1.core u.core).rowHeld r || !(s1.jobAt u.core).isReady s1.now (readyKeyRow r))) = false := by
    rw [List.any_eq_false]
    rintro _ hm
    obtain ⟨i, hi, rfl⟩ := List.mem_map.1 hm
    obtain ⟨h1, h2⟩ := hrows i (List.mem_range.1 hi)
    rw [h1, h2]
    decide
  rw [if_neg hnone]
  refine M.bind_run (ensure_run he) (M.bind_run hv (M.bind_run M.get_run ?_))
  rw [if_neg hmiss]
  refine M.bind_run getCtx_run ?_
  simp only [hx]
  refine M.bind_run (trapIf_run (by rw [hc]; rfl)) (M.bind_run (trapIf_run horph) ?_)
  simp only [hd]
  refine M.bind_run (trapIf_run (decide_eq_false (Nat.not_le.2 hn))) (M.bind_run getJob_run ?_)
  by_cases hdt : (landDesc raw).dtype = 2
  · obtain ⟨mf, hmf, hok⟩ := hfmt hdt
    rw [if_pos hdt, hmf]
    refine M.bind_run (trapIf_run ?_) (M.bind_run (holdIf_run hready) hend)
    rw [← Bool.not_or, hok]
    rfl
  · rw [if_neg hdt]
    exact M.bind_run (holdIf_run hready) hend

theorem lsendEnd_sends {fi fmt row : Nat} (hc : (s1.core u.core).credits ≠ 0) (hl : (s1.strmAt u.core u.strm).log = []) :
    lsendEnd u s1 t fi fmt row none s1
      = .ok () ((s1.handed u).sendFrag u.core ((s1.handed u).parcel u (s1.jobAt u.core) t fi fmt row) false) :=
  M.bind_run (holdIf_run (decide_eq_false hc)) (M.bind_run (handOver_run hl) modify_run)

theorem lsendEnd_refused {fi fmt row : Nat} {p : BitVec 3} (hc : (s1.core u.core).credits = 0) :
    lsendEnd u s1 t fi fmt row (some p) s1 = .ok () (s1.modStrm u.core u.strm (fun x => x.setPred p false)) :=
  (congrFun (if_pos hc) s1).trans modStrm_run

/-! ### LORPH -/

theorem lorph_none (hr : Runs s u g) (hs : operand1 u d a s = .ok v s1) (hx : s1.ctx? (s1.jobAt u.core).ctx = some x)
    (ho : takeFirstBy (fun (o : Orphan) => o.owner == u.core) x.orphans = none) : Completes (.lorph g d a) s u .next (s1.delivered u d 0) := by
  obtain ⟨hd, he, hv⟩ := operand1_ok.1 hs
  refine issueNext_ok hr (M.bind_run (needSpace_run hd) (M.bind_run (ensure_run he) (M.bind_run hv (M.bind_run getCtx_run
    (M.bind_run M.get_run ?_)))))
  simp only [hx, ho]
  exact deliver_run

/-- Where the rows of an orphan stand: in its overflow entry, or in the operand that waits for it (R313). -/
def orphanRows (ctx : Nat) (x : Ctx) (o : Orphan) : M (List Byte) :=
  match o.entry with
  | some e => liftF (fun s => s.frontRead ctx (x.ovfAddr e + 32) 4608)
  | none => do
    let rows := ((← get).allOps.find? (fun y => y.id == o.op)).map (·.p.rows)
    pure (leBytes (rows.getD 0).toNat 4608)

theorem lorph_takes {o : Orphan} {rest : List Orphan} {off : Nat} {s2 s3 : State} {h r : List Byte} (hr : Runs s u g)
    (hs : operand1 u d a s = .ok v s1) (hx : s1.ctx? (s1.jobAt u.core).ctx = some x)
    (ho : takeFirstBy (fun (o : Orphan) => o.owner == u.core) x.orphans = some (o, rest))
    (ha : areaOf u v.toInt 4640 16 false s1 = .ok (.spad off) s1) (hw : watch u v.toInt.toNat 4640 false true s1 = .ok () s1)
    (hh : s1.frontRead (s1.jobAt u.core).ctx (x.orphAddr o.owner o.slot) 32 = (s2, .ok h))
    (hrows : orphanRows (s1.jobAt u.core).ctx x o s2 = .ok r s3) : Completes (.lorph g d a) s u .next
      (((s3.spadWrite u.core off (fullMask (h ++ r)) false).orphanTaken (s1.jobAt u.core).ctx o rest).delivered u d 1) := by
  obtain ⟨hd, he, hv⟩ := operand1_ok.1 hs
  refine issueNext_ok hr (M.bind_run (needSpace_run hd) (M.bind_run (ensure_run he) (M.bind_run hv (M.bind_run getCtx_run
    (M.bind_run M.get_run ?_)))))
  simp only [hx, ho]
  refine M.bind_run ha (M.bind_run hw (M.bind_run (liftF_run hh) ?_))
  obtain ⟨owner, slot, entry, op, tag⟩ := o
  cases entry with
  | none =>
    cases hrows
    exact M.bind_run M.get_run (M.bind_run rfl (M.bind_run modify_run (M.bind_run modify_run deliver_run)))
  | some e => exact M.bind_run hrows (M.bind_run modify_run (M.bind_run modify_run deliver_run))

theorem orphanRows_entry {ctx e : Nat} {o : Orphan} {s2 s3 : State} {r : List Byte} (he : o.entry = some e)
    (hr : s2.frontRead ctx (x.ovfAddr e + 32) 4608 = (s3, .ok r)) : orphanRows ctx x o s2 = .ok r s3 := by
  unfold orphanRows
  rw [he]
  exact liftF_run hr

theorem orphanRows_operand {ctx : Nat} {o : Orphan} {y : Operand} {s2 : State} (he : o.entry = none)
    (hy : s2.allOps.find? (fun y => y.id == o.op) = some y) : orphanRows ctx x o s2 = .ok (leBytes y.p.rows.toNat 4608) s2 := by
  unfold orphanRows
  rw [he]
  refine M.bind_run M.get_run ?_
  rw [hy]
  rfl

end

/-- Settles O35: each instruction's body run to its end in the case that the clause's premises name. -/
theorem landingInstructions : Obligations.LandingInstructions := by
  refine ⟨fun o s s1 u b x hr hs hx => ⟨fun i hi => ltag_takes hr hs hx hi, fun hi => ⟨fun p hp => ltag_refused hr hs hx hi hp,
      fun hp hn => ltag_traps hr hs hx hi hp hn⟩⟩,
    fun g a s s1 u v t x hr ht => ⟨fun hs hx hc hl => lfree_frees hr hs ht hx hc hl, fun d hs hx hp => lstat_reads hr ht hs hx hp⟩,
    fun g a b s s1 s2 u v w t ar raw x hr hs ht ha ho hw hb hraw hx hc horph hd hbad hl hf =>
      ldesc_sets hr hs ht ha ho hw hb hraw hx hc horph hd hbad hl hf, ?_, ?_⟩
  · intro g row b nb s s1 u hr
    refine ⟨fun w p hw hp => hp ▸ lsend_answered hr hw, fun v t fi x raw hans hfr hs ht hfi hdc hx hc horph hd hn hfmt hrows => ⟨?_, ?_⟩⟩
    · rintro hcr rfl hl
      exact lsend_ends hr hans hfr hs ht hfi hdc hx hc horph hd hn hfmt hrows (lsendEnd_sends hcr hl)
    · rintro hcr p rfl
      exact lsend_ends hr hans hfr hs ht hfi hdc hx hc horph hd hn hfmt hrows (lsendEnd_refused hcr)
  · intro g d a s s1 u v x hr hs hx
    refine ⟨lorph_none hr hs hx, fun o rest off s2 h ho ha hw hh => ⟨fun e s3 r he hrd => ?_, fun y he hy => ?_⟩⟩
    · exact lorph_takes hr hs hx ho ha hw hh (orphanRows_entry he hrd)
    · exact lorph_takes hr hs hx ho ha hw hh (orphanRows_operand he hy)

end Sys2Proof.Machine
end

section
/-!
PROOFS. KICK and the records that the front end reads (O42).
-/

namespace Sys2Proof.Machine

/-! ### Kicks and the next record (R350) -/

theorem kick_publishes {fn q qi : Nat} {tail : BitVec 16} {s : State} {x : Queue}
    (hf : s.queues.find? (fun e => (e.2.map (fun x => x.fn == fn && x.q == q)).getD false) = some (qi, some x)) :
    exec (.kick fn q tail) s = .next ((s.modQueue qi (fun x => { x with tail := BitVec.ofNat 16 (tail.toNat % 2 ^ x.k) })).readNext qi) := by
  refine congrArg Host.Outcome.next (a₁ := s.kickAt fn q tail) ?_
  unfold State.kickAt
  rw [hf]

section
variable {qi : Nat} {s s1 : State} {q : Queue} {bs : List Byte}

theorem readNext_idle (hq : s.queue? qi = some q) (h : s.queueReady q = false) : s.readNext qi = s := by
  unfold State.readNext
  simp only [hq, h, Bool.not_false, if_true]

theorem readNext_reads (hq : s.queue? qi = some q) (h : s.queueReady q = true) (hr : s.frontRead q.ctx q.slotAddr 1 = (s1, .ok bs)) :
    s.readNext qi = s1.postOnce (s1.now + 1) (recordEvent (leNat bs) qi) := by
  unfold State.readNext
  simp only [hq, h, hr, Bool.not_true, Bool.false_eq_true, if_false]

/-! ### A record at the head of an open ring (R352 to R356) -/

/-- The record at the head of an open ring, read by the event of its TYPE. -/
theorem readRec_run {r : Rec} {body : Queue → Rec → State → State} {type : Nat} (hq : s.queue? qi = some q) (h : s.queueReady q = true)
    (hr : s.frontRead q.ctx q.slotAddr 128 = (s1, .ok bs)) (he : r = q.headRec qi bs) (ht : r.type = type) :
    s.readRec qi type body = body q r s1 := by
  subst he
  unfold State.readRec
  simp only [hq, h, hr, ht, Bool.not_true, Bool.false_eq_true, if_false, if_true]

theorem readPlain_run {r : Rec} {chk : Rec → Bool} {type : Nat} (hq : s.queue? qi = some q) (h : s.queueReady q = true)
    (hr : s.frontRead q.ctx q.slotAddr 128 = (s1, .ok bs)) (he : r = q.headRec qi bs) (ht : r.type = type) :
    s.readPlain qi type chk = s1.enterRec qi r (if chk r then 0x01 else 0) := readRec_run hq h hr he ht

theorem readOperator_reserved {r : Rec} (hq : s.queue? qi = some q) (h : s.queueReady q = true)
    (hr : s.frontRead q.ctx q.slotAddr 128 = (s1, .ok bs)) (he : r = q.headRec qi bs) (ht : r.type = 0 ∨ 7 < r.type) :
    s.readOperator qi = s1.enterRec qi r 0x01 := by
  subst he
  have h1 : (q.headRec qi bs).type ≠ 1 := by omega
  unfold State.readOperator State.readRec
  simp only [hq, h, hr, h1, ht, Bool.not_true, Bool.false_eq_true, if_false, if_true]

theorem leNat_replicate_zero (n : Nat) : leNat (List.replicate n 0) = 0 := by
  induction n with
  | zero => rfl
  | succ n ih => rw [List.replicate_succ, leNat, ih]; rfl

section
variable {r : Rec} {n : Nat} (hq : s.queue? qi = some q) (h : s.queueReady q = true)
  (hr : s.frontRead q.ctx q.slotAddr 128 = (s1, .ok bs)) (he : r = q.headRec qi bs)
include hq h hr he

section
variable (ht : r.type = 1) (hn : n = s1.partDies (((s1.ctx? q.ctx).map (·.part)).getD 0))
include ht hn

theorem readOperator_fails (hs : lowest (r.operatorChecks n) ≠ 0) : s.readOperator qi = s1.enterRec qi r (lowest (r.operatorChecks n)) := by
  subst hn
  exact (readRec_run hq h hr he ht).trans (if_pos hs)

variable {s2 : State} {ds : List Byte} (hs : lowest (r.operatorChecks n) = 0) (hd : s1.frontRead q.ctx r.tdp (16 * r.ntd) = (s2, .ok ds))
include hs hd

theorem readOperator_badDecls (hl : declsOf ds r.ntd = none) : s.readOperator qi = s2.enterRec qi r 0x26 := by
  subst hn
  refine (readRec_run hq h hr he ht).trans ((if_neg (not_not.2 hs)).trans ?_)
  simp only [hd, hl]

variable {l : List (Nat × Nat × Bool)} (hl : declsOf ds r.ntd = some l)
include hl

theorem readOperator_noFsb (hf : r.fsbAddr = 0) : s.readOperator qi = s2.enterRec qi { r with decls := l, fsb := 0 } 0 := by
  subst hn
  refine (readRec_run hq h hr he ht).trans ((if_neg (not_not.2 hs)).trans ?_)
  simp only [hd, hl, hf, if_true, leNat_replicate_zero]
  rfl

theorem readOperator_fsb {s3 : State} {fs : List Byte} (hf : r.fsbAddr ≠ 0) (hfs : s2.frontRead q.ctx r.fsbAddr 96 = (s3, .ok fs)) :
    s.readOperator qi = s3.enterRec qi { r with decls := l, fsb := BitVec.ofNat 768 (leNat fs) } 0 := by
  subst hn
  refine (readRec_run hq h hr he ht).trans ((if_neg (not_not.2 hs)).trans ?_)
  simp only [hd, hl, hf, if_false, hfs]

end

section
variable (ht : r.type = 6)
include ht

theorem readCsimage_fails (hb : r.csimageBad = true) : s.readCsimage qi = s1.enterRec qi r 0x01 :=
  (readRec_run hq h hr he ht).trans (if_pos hb)

theorem readCsimage_entries {s2 : State} {es : List Byte} {ws : List Word} (hb : r.csimageBad = false)
    (hd : s1.frontRead q.ctx (r.field 16 8) (8 * r.field 24 8) = (s2, .ok es))
    (hw : ws = (List.range (r.field 24 8)).map (fun i => BitVec.ofNat 64 (byteField es (8 * i) 8))) :
    s.readCsimage qi = if ws.all bindOk then s2.enterRec qi { r with bind := ws } 0 else s2.enterRec qi r 0x01 := by
  subst hw
  refine (readRec_run hq h hr he ht).trans ((if_neg (by rw [hb]; decide)).trans ?_)
  simp only [hd]
  generalize (List.range (r.field 24 8)).map (fun i => BitVec.ofNat 64 (byteField es (8 * i) 8)) = ws
  have hany : ws.any (fun e => !bindOk e) = !ws.all bindOk := by rw [List.not_all_eq_any_not]
  rw [hany]
  cases ws.all bindOk <;> rfl

end

end

end

/-! ### A record is entered (R351, R356, R360) -/

/-- Waking the records of a queue posts events and does nothing else. -/
theorem wakeRecs_field {β : Type} (π : State → β) (h : ∀ s t i, π (State.post s t i) = π s) (s : State) (q : Nat) :
    π (s.wakeRecs q) = π s := by
  have honce : ∀ s t i, π (State.postOnce s t i) = π s := fun s t i => by
    unfold State.postOnce
    split
    · rfl
    · exact h s t i
  refine foldl_field π (fun s' e => ?_) _ s
  split
  · exact honce ..
  · rfl

/-- A queue whose record at the head has been entered (R351). -/
def Queue.advanced (q : Queue) : Queue := { q with head := BitVec.ofNat 16 ((q.head.toNat + 1) % 2 ^ q.k), bad := q.badNext }

theorem advanced_head {q : Queue} (hlast : (q.head.toNat + 1) % 2 ^ q.k = q.tail.toNat) : q.advanced.head = q.tail := by
  unfold Queue.advanced
  rw [hlast]
  simp

/-- A record that is entered: its state, and the failed predecessors that it has (R356, R360). -/
def Rec.entered (r : Rec) (status : Nat) (after : Bool) : Rec :=
  { r with state := if status = 0 then r.state else .done (BitVec.ofNat 8 status), after := after }

/-- A record put under the next number. -/
def State.withRec (s : State) (r : Rec) : State := { s with recs := tput none s.recs s.nextRec (some r), nextRec := s.nextRec + 1 }

/-- Entering the last record of a ring leaves it idle: the record stands under its number, and HEAD has reached TAIL. -/
theorem enterRec_last {qi st u : Nat} {s : State} {q : Queue} {r : Rec} (hq : s.queue? qi = some q)
    (hlast : (q.head.toNat + 1) % 2 ^ q.k = q.tail.toNat) (hu : u = if st = 0 ∧ q.badPred r = true then 0x31 else st) :
    (s.enterRec qi r st).queue? qi = some q.advanced ∧ (s.enterRec qi r st).rec? s.nextRec = some (r.entered u (s.hasPred s.nextRec r))
      ∧ (s.enterRec qi r st).nextRec = s.nextRec + 1 := by
  obtain ⟨s2, hs2⟩ : ∃ s2, (s.withRec (r.entered u (s.hasPred s.nextRec r))).modQueue qi Queue.advanced = s2 := ⟨_, rfl⟩
  obtain ⟨s3, hs3⟩ : ∃ s3, (if u = 0 then s2.wakeRecs qi else s2.postOnce (s2.now + 1) (.recordCompletion s.nextRec)) = s3 := ⟨_, rfl⟩
  have henter : s.enterRec qi r st = s3.readNext qi := by
    have hstat : (if (decide (st = 0) && ((s.queue? qi).map (fun x => x.badPred r)).getD false) = true then 0x31 else st) = u := by
      rw [hu, hq, Option.map_some, Option.getD_some]
      simp
    unfold State.enterRec
    dsimp only
    rw [hstat]
    rw [← hs3, ← hs2]
    rfl
  have hkept : ∀ {β : Type} (π : State → β), (∀ s t i, π (State.post s t i) = π s) → π s3 = π s2 := fun π h => by
    rw [← hs3]
    split
    · exact wakeRecs_field π h s2 qi
    · unfold State.postOnce
      split
      · rfl
      · exact h ..
  have hq2 : s2.queue? qi = some q.advanced := by
    rw [← hs2, queue_modQueue, if_pos rfl]
    exact congrArg (Option.map Queue.advanced) hq
  have hq3 : s3.queue? qi = some q.advanced := (congrArg (tget none · qi) (hkept State.queues fun _ _ _ => rfl)).trans hq2
  have hr2 : s2.recs = tput none s.recs s.nextRec (some (r.entered u (s.hasPred s.nextRec r))) := by rw [← hs2, modQueue_recs]; rfl
  have hn2 : s2.nextRec = s.nextRec + 1 := by rw [← hs2, modQueue_nextRec]; rfl
  have hidle : s3.queueReady q.advanced = false := by
    unfold State.queueReady
    rw [advanced_head hlast, show q.advanced.tail = q.tail from rfl, bne_self_eq_false]
    rfl
  rw [henter, readNext_idle hq3 hidle]
  refine ⟨hq3, ?_, (hkept State.nextRec fun _ _ _ => rfl).trans hn2⟩
  rw [State.rec?, hkept State.recs fun _ _ _ => rfl, hr2, tget_tput_same]

/-! ### The lowest failing check (R356) -/

theorem lowest_eq_zero {l : List Nat} (h : ∀ x ∈ l, x ≠ 0) : lowest l = 0 ↔ l = [] := by
  induction l with
  | nil => simp [lowest]
  | cons a l ih =>
    have ha : a ≠ 0 := h a (by simp)
    rw [lowest]
    split
    · simp [ha]
    · simp only [reduceCtorEq, iff_false]
      omega

theorem lowest_spec {l : List Nat} (hl : l ≠ []) (h : ∀ x ∈ l, x ≠ 0) : lowest l ∈ l ∧ ∀ x ∈ l, lowest l ≤ x := by
  induction l with
  | nil => exact absurd rfl hl
  | cons a l ih =>
    have htail : ∀ x ∈ l, x ≠ 0 := fun x hx => h x (List.mem_cons_of_mem _ hx)
    rw [lowest]
    by_cases h0 : lowest l = 0
    · rw [if_pos h0, (lowest_eq_zero htail).1 h0]
      simp
    · obtain ⟨hmem, hle⟩ := ih (fun he => h0 ((lowest_eq_zero htail).2 he)) htail
      rw [if_neg h0]
      refine ⟨?_, fun x hx => ?_⟩
      · rcases Nat.le_total a (lowest l) with hm | hm
        · rw [Nat.min_eq_left hm]; exact List.mem_cons_self
        · rw [Nat.min_eq_right hm]; exact List.mem_cons_of_mem _ hmem
      · rcases List.mem_cons.1 hx with rfl | hx
        · exact Nat.min_le_left ..
        · exact (Nat.min_le_right ..).trans (hle x hx)

/-- Settles O42: a record is read by the event of its TYPE and entered in the case that the clause's premises name. -/
theorem recordReading : Obligations.RecordReading := by
  refine ⟨fun fn q qi tail s x hf _ => kick_publishes hf, fun qi s s1 q bs hq => ⟨readNext_idle hq, readNext_reads hq⟩, ?_, ?_,
    fun q r => List.any_eq_true, rfl, fun l hl h => lowest_spec hl h⟩
  · intro qi s s1 q bs r hq h hr he
    refine ⟨fun ht n hn => ⟨fun hs => congrArg Host.Outcome.next (readOperator_fails hq h hr he ht hn hs),
        fun s2 ds hs hd => ⟨fun hl => ?_, fun l hl hf => ?_, fun l s3 fs hl hf hfs => ?_⟩⟩,
      fun ht => congrArg Host.Outcome.next (readPlain_run hq h hr he ht), fun ht => congrArg Host.Outcome.next (readPlain_run hq h hr he ht),
      fun ht => congrArg Host.Outcome.next (readPlain_run hq h hr he ht), fun ht => congrArg Host.Outcome.next (readPlain_run hq h hr he ht),
      fun ht => congrArg Host.Outcome.next (readPlain_run hq h hr he ht),
      fun ht => ⟨fun hb => congrArg Host.Outcome.next (readCsimage_fails hq h hr he ht hb),
        fun s2 es ws hb hd hw => congrArg Host.Outcome.next (readCsimage_entries hq h hr he ht hb hd hw)⟩,
      fun ht => congrArg Host.Outcome.next (readOperator_reserved hq h hr he ht)⟩
    · exact congrArg Host.Outcome.next (readOperator_badDecls hq h hr he ht hn hs hd hl)
    · exact congrArg Host.Outcome.next (readOperator_noFsb hq h hr he ht hn hs hd hl hf)
    · exact congrArg Host.Outcome.next (readOperator_fsb hq h hr he ht hn hs hd hl hf hfs)
  · intro qi s q r st hq hlast _ u hu
    obtain ⟨h1, h2, h3⟩ := enterRec_last (r := r) hq hlast hu
    exact ⟨q.advanced, h1, advanced_head hlast, rfl, h2, h3⟩

end Sys2Proof.Machine
end

section
/-!
PROOFS. Shoot-downs, migrations, hot rows, memory errors and CXL.mem (O46).
-/

namespace Sys2Proof.Machine

/-! ### What writes at the homes and error records leave unchanged -/

section
variable {β : Type} {π : State → β}

theorem homePut_field (h : ∀ s m k, π { s with hbm := m, lineKey := k } = π s) (s : State) (key l : Nat) (bs : List (Byte × Byte)) :
    π (s.homePut key l bs) = π s := by
  refine (h _ _ _).trans (foldl_field π (fun s b => ?_) (blocksOf l bs) s)
  unfold State.rekeyBlock
  dsimp only
  split
  · exact h s s.hbm _
  · exact h ..

theorem windowPut_field (h : ∀ s m k, π { s with hbm := m, lineKey := k } = π s) (s : State) (fn off : Nat) (bs : List Byte) :
    π (s.windowPut fn off bs) = π s := by
  refine foldl_field π (fun s p => ?_) _ s
  split
  · refine Eq.trans (foldl_field π (fun s f => homePut_field h s _ _ _) _ _) (homePut_field h ..)
  · rfl

/-- An error record changes memory, the key tags of its blocks, the registers of functions and the messages sent. -/
theorem errorTo_field (h : ∀ s m k f x, π { s with hbm := m, lineKey := k, fns := f, msix := x } = π s)
    (s : State) (fn type unit die wher addr ctx count : Nat) : π (s.errorTo fn type unit die wher addr ctx count) = π s := by
  have hraise : ∀ w i g j k, π ((State.modFn w i g).raise j k) = π w := fun w i g j k => h w w.hbm w.lineKey _ _
  unfold State.errorTo
  dsimp only
  split
  · exact (hraise ..).trans (windowPut_field (fun s m k => h s m k s.fns s.msix) ..)
  · exact h s s.hbm s.lineKey _ s.msix

theorem error_field (h : ∀ s m k f x, π { s with hbm := m, lineKey := k, fns := f, msix := x } = π s)
    (s : State) (type unit die wher addr ctx count : Nat) : π (s.error type unit die wher addr ctx count) = π s := errorTo_field h ..

end

/-- Watching an access at a home changes the base die's records and the messages sent. -/
theorem watchHome_shape (s : State) (key l n : Nat) (wr : Bool) (asid : Nat) :
    ∃ b m, s.watchHome key l n wr asid = { s with bases := b, msix := m } := by
  unfold State.watchHome
  dsimp only
  split
  · exact ⟨s.bases, s.msix, rfl⟩
  · refine List.foldlRecOn (motive := fun t : State => ∃ b m, t = { s with bases := b, msix := m }) _ _ ⟨s.bases, s.msix, rfl⟩ ?_
    rintro _ ⟨b, m, rfl⟩ i -
    repeat' split
    all_goals exact ⟨_, _, rfl⟩

theorem raiseN_field {β : Type} {π : State → β} (h : ∀ s m, π { s with msix := m } = π s) (s : State) (fn vec k : Nat) :
    π (s.raiseN fn vec k) = π s := by
  obtain ⟨m, hm⟩ := raiseN_shape s fn vec k
  rw [hm]
  exact h s m

theorem countDie_cxlOut (s : State) (d ctx code : Nat) (q : Nat → Nat) : (s.countDie d ctx code q).cxlOut = s.cxlOut := by
  unfold State.countDie
  dsimp only
  repeat' split
  all_goals simp [raiseN_field (π := State.cxlOut) fun _ _ => rfl]

theorem mscTouch_cxlOut (s : State) (key l ctx : Nat) : (s.mscTouch key l ctx).cxlOut = s.cxlOut := by
  unfold State.mscTouch
  simp [countDie_cxlOut]

/-! ### TSDCTL through the writes that a shoot-down makes -/

/-- TSDCTL of a function. -/
def State.tsdctl (s : State) (i : Nat) : Word := (s.fn i).tsdctl

theorem tsdctl_of_fns {s t : State} (h : t.fns = s.fns) (i : Nat) : t.tsdctl i = s.tsdctl i := by rw [State.tsdctl, State.fn, h]; rfl

theorem tsdctl_modFn {s : State} {n : Nat} {f : Fn → Fn} (h : ∀ x, (f x).tsdctl = x.tsdctl) (i : Nat) : (s.modFn n f).tsdctl i = s.tsdctl i := by
  unfold State.tsdctl
  by_cases hi : i = n
  · rw [hi, fn_modFn_same, h]
  · rw [fn_modFn_other s f hi]

theorem windowPut_fns (s : State) (fn off : Nat) (bs : List Byte) : (s.windowPut fn off bs).fns = s.fns := windowPut_field (fun _ _ _ => rfl) ..

theorem errorTo_tsdctl (s : State) (fn type unit die wher addr ctx count i : Nat) :
    (s.errorTo fn type unit die wher addr ctx count).tsdctl i = s.tsdctl i := by
  have hraise : ∀ w g j k, (∀ x, (g x).tsdctl = x.tsdctl) → ((State.modFn w fn g).raise j k).tsdctl i = w.tsdctl i :=
    fun w g j k h => tsdctl_modFn h i
  unfold State.errorTo
  dsimp only
  split
  · refine (hraise _ _ _ _ ?_).trans (tsdctl_of_fns (windowPut_fns ..) i)
    exact fun _ => rfl
  · refine tsdctl_modFn ?_ i
    exact fun _ => rfl

theorem clearPoison_tsdctl (s : State) (l : Nat) (full : Bool) (ctx i : Nat) : (s.clearPoison l full ctx).tsdctl i = s.tsdctl i := by
  unfold State.clearPoison
  split
  · rfl
  · split
    · rfl
    · exact errorTo_tsdctl ..

theorem homePutAll_fns (s : State) (key l : Nat) (bs : List (Byte × Byte)) : (s.homePutAll key l bs).fns = s.fns :=
  (foldl_field State.fns (fun s (f : Nat × Nat) => homePut_fns s f.1 f.2 bs) _ _).trans (homePut_fns ..)

theorem homeWriteLine_tsdctl (s : State) (key l : Nat) (bs : List (Byte × Byte)) (ctx asid i : Nat) :
    (s.homeWriteLine key l bs ctx asid).tsdctl i = s.tsdctl i := by
  have hfold : ∀ (t : State) (b : Bool), (if b = true then (t.migForward l).foldl
      (fun (s : State) f => { s with poison := tput 0 s.poison (f.2 / 128) 0 }) t else t).fns = t.fns := fun t b => by
    split
    · refine foldl_field State.fns ?_ _ _
      exact fun _ _ => rfl
    · rfl
  unfold State.homeWriteLine
  refine (clearPoison_tsdctl ..).trans ((tsdctl_of_fns (hfold ..) i).trans ?_)
  exact (tsdctl_of_fns (homePutAll_fns ..) i).trans ((tsdctl_of_fns (watchHome_fns ..) i).trans (tsdctl_of_fns (mscTouch_fns ..) i))

theorem joinLine_fns (s : State) (l : Nat) (clk : Tbl Nat) : (s.joinLine l clk).fns = s.fns := by
  refine foldl_field State.fns ?_ _ _
  exact fun _ _ => rfl

theorem applyReq_tsdctl (s : State) (r : HomeReq) (i : Nat) : (s.applyReq r).tsdctl i = s.tsdctl i := by
  unfold State.applyReq
  refine (tsdctl_of_fns (post_fns ..) i).trans ((tsdctl_of_fns (joinLine_fns ..) i).trans ?_)
  exact homeWriteLine_tsdctl ..

theorem reqRoom_tsdctl (s : State) (b i : Nat) : (s.reqRoom b).tsdctl i = s.tsdctl i := by
  unfold State.reqRoom
  split
  · rfl
  · split
    · exact applyReq_tsdctl ..
    · rfl

theorem sendLine_tsdctl (s : State) (c : Nat) (u : SendUnit) (pa : Nat) (bs : List (Byte × Byte)) (ctx i : Nat) :
    (s.sendLine c u pa bs ctx).tsdctl i = s.tsdctl i := by
  have hadd : ∀ (s : State) id, (s.addUnacked c u id).fns = s.fns := fun s id => by
    unfold State.addUnacked
    split <;> rfl
  unfold State.sendLine
  split
  · refine (tsdctl_of_fns (postOnce_fns ..) i).trans ((reqRoom_tsdctl _ _ i).trans (tsdctl_of_fns (hadd ..) i))
  · exact tsdctl_of_fns (hadd ..) i

theorem countCore_fns (s : State) (c code : Nat) (q : Nat → Nat) : (s.countCore c code q).fns = s.fns := by
  unfold State.countCore
  dsimp only
  repeat' split
  all_goals simp [raiseN_fns]

theorem writeBack_tsdctl (s : State) (c : Nat) (u : SendUnit) (l : L1Line) (i : Nat) : (s.writeBack c u l).tsdctl i = s.tsdctl i := by
  unfold State.writeBack
  split
  · rfl
  · exact (tsdctl_of_fns (countCore_fns ..) i).trans (sendLine_tsdctl ..)

theorem shotLines_fns (s : State) (asids : List Nat) (page : Option (Nat × Nat)) (c : Nat) : (s.shotLines asids page c).1.fns = s.fns := by
  unfold State.shotLines
  refine foldl_fst_field State.fns (fun r l => ?_) _ (s, [])
  split
  · rfl
  · split
    · rfl
    · rfl

theorem dropTlbs_tsdctl (s : State) (asids : List Nat) (page : Option (Nat × Nat)) (i : Nat) : (s.dropTlbs asids page).tsdctl i = s.tsdctl i := by
  refine foldl_field (State.tsdctl · i) (fun s e => ?_) s.cores s
  refine (tsdctl_of_fns (modCore_fns ..) i).trans ?_
  exact (foldl_field (State.tsdctl · i) (fun s l => writeBack_tsdctl ..) _ _).trans (tsdctl_of_fns (shotLines_fns ..) i)

/-! ### Shoot-downs (R399, R400) -/

section
variable {fn kind sz asid : Nat} {s : State} {own : List Nat}

theorem tsdGo_busy (h : (s.fn fn).tsd.isSome = true) : exec (.tsdGo fn) s = .next s := by
  refine congrArg Host.Outcome.next (a₁ := s.tsdStart fn) ?_
  exact if_pos h

/-- TSDCTL with ERR set or cleared. -/
def State.tsdErr (s : State) (fn : Nat) (b : Bool) : State :=
  s.modFn fn (fun f => { f with tsdctl := (f.tsdctl &&& ~~~(1#64 <<< 62)) ||| (if b then 1#64 <<< 62 else 0) })

theorem tsdGo_refused (hk : kind = (s.fn fn).tsdctl.toNat % 4) (hz : sz = (s.fn fn).tsdctl.toNat / 16 % 16)
    (ha : asid = (s.fn fn).tsdctl.toNat / 2 ^ 32 % 4096) (ho : own = (s.ctxsOf fn).map (fun e => e.2.asid)) (h : (s.fn fn).tsd = none)
    (hbad : kind = 3 ∨ 12 ≤ sz ∨ (kind < 2 ∧ asid ∉ own)) : exec (.tsdGo fn) s = .next (s.tsdErr fn true) := by
  subst hk hz ha ho
  refine congrArg Host.Outcome.next (a₁ := s.tsdStart fn) ?_
  have hidle : ¬ (s.fn fn).tsd.isSome = true := by rw [h]; decide
  refine (if_neg hidle).trans (if_pos ?_)
  simpa using hbad

theorem tsdErr_clears (s : State) (fn : Nat) : ((s.tsdErr fn false).tsdctl fn).getLsbD 62 = false := by
  rw [State.tsdctl, State.tsdErr, fn_modFn_same]
  simp

theorem tsdGo_starts (hk : kind = (s.fn fn).tsdctl.toNat % 4) (hz : sz = (s.fn fn).tsdctl.toNat / 16 % 16)
    (ha : asid = (s.fn fn).tsdctl.toNat / 2 ^ 32 % 4096) (ho : own = (s.ctxsOf fn).map (fun e => e.2.asid)) (h : (s.fn fn).tsd = none)
    (h3 : kind ≠ 3) (h12 : sz < 12) (hown : kind = 2 ∨ asid ∈ own) : ∃ t, exec (.tsdGo fn) s = .next t
      ∧ (t.fn fn).tsd = some (if kind = 2 then own else [asid]) ∧ (t.fn fn).tsdctl.getLsbD 62 = false ∧ t.posted (.shootdownComplete fn) = true := by
  subst hk hz ha ho
  have hidle : ¬ (s.fn fn).tsd.isSome = true := by rw [h]; decide
  have hgood : ¬ ((s.fn fn).tsdctl.toNat % 4 = 3 ∨ 12 ≤ (s.fn fn).tsdctl.toNat / 16 % 16
      ∨ ((s.fn fn).tsdctl.toNat % 4 < 2 ∧ !((s.ctxsOf fn).map (fun e => e.2.asid)).contains ((s.fn fn).tsdctl.toNat / 2 ^ 32 % 4096))) := by
    rcases hown with h2 | hm
    · omega
    · rw [List.contains_iff_mem.2 hm]
      simp
      omega
  refine ⟨_, congrArg Host.Outcome.next (a₁ := s.tsdStart fn) ((if_neg hidle).trans (if_neg hgood)), ?_, ?_, posted_postOnce ..⟩
  · rw [State.fn, postOnce_fns]
    exact congrArg Fn.tsd (fn_modFn_same ..)
  · rw [State.fn, postOnce_fns]
    refine (congrArg (BitVec.getLsbD · 62) ?_).trans (tsdErr_clears s fn)
    refine (tsdctl_modFn ?_ fn).trans (dropTlbs_tsdctl ..)
    exact fun _ => rfl

end

/-- No cached entry that a shoot-down names is left. -/
theorem dropTlbs_drops (s : State) (asids : List Nat) (page : Option (Nat × Nat)) :
    (∀ d ∈ (s.dropTlbs asids page).dies, ∀ e ∈ d.2.tlb, e.hit asids page = false)
      ∧ ∀ c, ∀ e ∈ ((s.dropTlbs asids page).core c).tlb, e.hit asids page = false := by
  have hkept : ∀ (l : List TlbEnt), ∀ e ∈ l.filter (fun t => !t.hit asids page), e.hit asids page = false := fun l e he => by
    simpa using (List.mem_filter.1 he).2
  constructor
  · intro d hd e he
    obtain ⟨d', -, rfl⟩ := List.mem_map.1 hd
    exact hkept _ e he
  · intro c e he
    obtain ⟨l, hl⟩ : ∃ l : Tbl Core, (s.dropTlbs asids page).cores
        = l.map (fun e => (e.1, { e.2 with tlb := e.2.tlb.filter (fun t => !t.hit asids page) })) := ⟨_, rfl⟩
    have hcore : (s.dropTlbs asids page).core c = tget {} (s.dropTlbs asids page).cores c := rfl
    rw [hcore, hl, tget_map (f := fun k : Core => { k with tlb := k.tlb.filter (fun t => !t.hit asids page) }) rfl] at he
    exact hkept _ e he

section
variable {fn ctx asid : Nat} {s : State} {asids : List Nat}

theorem tsdEnd_idle (h : (s.fn fn).tsd = none) : s.tsdEnd fn = s := by
  unfold State.tsdEnd
  rw [h]

theorem tsdEnd_busy (h : (s.fn fn).tsd = some asids) (hb : s.shotBusy asids = true) :
    s.tsdEnd fn = s.postOnce (s.now + 1) (.shootdownComplete fn) := by
  unfold State.tsdEnd
  simp only [h, hb, if_true]

theorem tsdEnd_done (h : (s.fn fn).tsd = some asids) (hb : s.shotBusy asids = false) :
    ((s.tsdEnd fn).fn fn).tsd = none ∧ ((s.tsdEnd fn).fn fn).ending = (s.fn fn).ending := by
  unfold State.tsdEnd
  simp only [h, hb, Bool.false_eq_true, if_false, fn_modFn_same, and_self]

theorem destroyEnd_idle (h : (s.fn fn).ending = none) : s.destroyEnd fn = s := by
  unfold State.destroyEnd
  rw [h]

theorem endingBusy_iff : s.endingBusy ctx asid = true ↔ (∃ o ∈ s.remote, o.ctx = ctx) ∨ s.shotBusy [asid] = true := by
  simp [State.endingBusy, or_comm]

theorem destroyEnd_busy (h : (s.fn fn).ending = some (ctx, asid)) (hb : (∃ o ∈ s.remote, o.ctx = ctx) ∨ s.shotBusy [asid] = true) :
    s.destroyEnd fn = s.postOnce (s.now + 1) (.shootdownComplete fn) := by
  unfold State.destroyEnd
  simp only [h, endingBusy_iff.2 hb, if_true]

theorem destroyEnd_done (h : (s.fn fn).ending = some (ctx, asid)) (ho : ∀ o ∈ s.remote, o.ctx ≠ ctx) (hb : s.shotBusy [asid] = false) :
    s.destroyEnd fn = s.modFn fn (fun f => { f with ending := none, mres := 0 }) := by
  have hquiet : ¬ s.endingBusy ctx asid = true := fun he => by
    rcases endingBusy_iff.1 he with ⟨o, hm, hc⟩ | h1
    · exact ho o hm hc
    · rw [hb] at h1
      cases h1
  unfold State.destroyEnd
  simp only [h, if_neg hquiet]

end

/-! ### Migrations (R401 to R404) -/

section
variable {fn p n : Nat} {s : State} {f : Fn}

theorem migStart_running (hf : f = s.fn fn) (h : f.mig.isSome = true) : exec (.migStart fn) s = .next (s.migRes fn 4) := by
  subst hf
  refine congrArg Host.Outcome.next (a₁ := s.migBegin fn) ?_
  exact if_pos h

theorem migStart_badSize (hf : f = s.fn fn) (h : f.mig = none) (hz : 9 < f.migctl.toNat % 16) : exec (.migStart fn) s = .next (s.migRes fn 2) := by
  subst hf
  have hidle : ¬ (s.fn fn).mig.isSome = true := by rw [h]; decide
  refine congrArg Host.Outcome.next (a₁ := s.migBegin fn) ((if_neg hidle).trans (if_pos (.inl hz)))

/-- The migration that a function's registers ask for, with no line copied (R401, R402). -/
def Fn.migStarted (f : Fn) : Mig :=
  { src := f.migsrc.toNat, srcKey := paKey f.migsrc.toNat, dst := f.migdst.toNat, dstKey := paKey f.migdst.toNat
    size := 2 ^ szLog (f.migctl.toNat % 16), copied := 0, asked := false, shot := false }

theorem migStart_starts (hf : f = s.fn fn) (hn : n = 2 ^ szLog (f.migctl.toNat % 16)) (h : f.mig = none) (hz : f.migctl.toNat % 16 ≤ 9)
    (hp : s.migPart fn f.migsrc.toNat = some p) (hr : s.fns.filterMap (fun e => e.2.mig) = []) (ha : paMod f.migsrc.toNat = s.ownMod)
    (hb : paMod f.migdst.toNat = s.ownMod) (han : f.migsrc.toNat % n = 0) (hbn : f.migdst.toNat % n = 0) (ha1 : s.physOk p f.migsrc.toNat = true)
    (ha2 : s.physOk p (f.migsrc.toNat + n - 1) = true) (hb1 : s.physOk p f.migdst.toNat = true) (hb2 : s.physOk p (f.migdst.toNat + n - 1) = true)
    (hm : rangesMeet (paLocal f.migsrc.toNat) n (paLocal f.migdst.toNat) n = false) :
    ∃ t m, exec (.migStart fn) s = .next t ∧ (t.fn fn).mig = some m ∧ m.src = f.migsrc.toNat ∧ m.dst = f.migdst.toNat ∧ m.size = n
      ∧ m.copied = 0 ∧ (t.fn fn).migctl = f.migctl &&& 0xF#64 ∧ t.posted (.migrationCopy fn) = true := by
  subst hf hn
  have hidle : ¬ (s.fn fn).mig.isSome = true := by rw [h]; decide
  have hz' : ¬ 9 < (s.fn fn).migctl.toNat % 16 := Nat.not_lt.2 hz
  refine ⟨_, (s.fn fn).migStarted, congrArg Host.Outcome.next (a₁ := s.migBegin fn) ((if_neg hidle).trans ((if_neg ?_).trans (if_neg ?_))),
    ?_, rfl, rfl, rfl, rfl, ?_, posted_postOnce ..⟩
  · simp only [hz', hp, hr, ha, hb, han, hbn, ha1, ha2, hb1, hb2, hm, beq_self_eq_true, Bool.and_self, Bool.not_true, Bool.false_eq_true,
      List.any_nil, or_self, not_false_eq_true]
  · rw [hr]
    decide
  · rw [State.fn, postOnce_fns]
    exact congrArg Fn.mig (fn_modFn_same ..)
  · rw [State.fn, postOnce_fns]
    refine (congrArg Fn.migctl (fn_modFn_same ..)).trans ?_
    refine (congrArg Fn.migctl (fn_modFn_same ..)).trans ?_
    exact BitVec.or_zero

theorem migEnd_idle (h : (s.fn fn).mig = none) : exec (.migEnd fn) s = .next (s.migRes fn 4) ∧ exec (.migAbort fn) s = .next (s.migRes fn 4) := by
  refine ⟨congrArg Host.Outcome.next (a₁ := s.migFinish fn) ?_, congrArg Host.Outcome.next (a₁ := s.migStop fn) ?_⟩
  · unfold State.migFinish
    rw [h]
  · unfold State.migStop
    rw [h]

theorem migEnd_copying {m : Mig} (h : (s.fn fn).mig = some m) (hc : 128 * m.copied < m.size) : exec (.migEnd fn) s = .next (s.migRes fn 4)
    ∧ exec (.migAbort fn) s = .next ((s.migRes fn 0).modFn fn (fun f => { f with mig := none })) := by
  refine ⟨congrArg Host.Outcome.next (a₁ := s.migFinish fn) ?_, congrArg Host.Outcome.next (a₁ := s.migStop fn) ?_⟩
  · unfold State.migFinish
    simp only [h, if_pos hc]
  · unfold State.migStop
    simp only [h, if_pos hc]

theorem migEnd_copied {m : Mig} (h : (s.fn fn).mig = some m) (hc : m.size ≤ 128 * m.copied) : exec (.migAbort fn) s = .next (s.migRes fn 4)
    ∧ (m.shot = false → exec (.migEnd fn) s = .next (s.migRes fn 3))
    ∧ (m.shot = true → exec (.migEnd fn) s = .next ((s.migRes fn 0).modFn fn (fun f => { f with mig := none }))) := by
  have hc' := Nat.not_lt.2 hc
  refine ⟨congrArg Host.Outcome.next (a₁ := s.migStop fn) ?_, fun hs => congrArg Host.Outcome.next (a₁ := s.migFinish fn) ?_,
    fun hs => congrArg Host.Outcome.next (a₁ := s.migFinish fn) ?_⟩
  · unfold State.migStop
    simp only [h, if_neg hc']
  · unfold State.migFinish
    simp only [h, if_neg hc', hs, Bool.not_false, if_true]
  · unfold State.migFinish
    simp only [h, if_neg hc', hs, Bool.not_true, Bool.false_eq_true, if_false]

end

/-- The state after the next line of a migration has gone to the new frame, its poison and its clock with it (R403). -/
def State.lineMoved (s : State) (m : Mig) : State :=
  let lo := paLocal m.src + 128 * m.copied
  let ln := paLocal m.dst + 128 * m.copied
  let s := s.watchHome m.srcKey lo 128 false 0
  let x := (List.range 128).map (fun i => s.homeByte m.srcKey (lo + i))
  let s := s.watchHome m.dstKey ln 128 true 0
  let s := s.homePut m.dstKey ln (fullMask x)
  { s with
    poison := tput 0 s.poison (ln / 128) (tget 0 s.poison (lo / 128))
    lineClk := tput [] s.lineClk (ln / 128) (clkJoin (tget [] s.lineClk (ln / 128)) (tget [] s.lineClk (lo / 128))) }

theorem lineMoved_poison (s : State) (m : Mig) : tget 0 (s.lineMoved m).poison ((paLocal m.dst + 128 * m.copied) / 128)
    = tget 0 s.poison ((paLocal m.src + 128 * m.copied) / 128) := by
  obtain ⟨b1, m1, h1⟩ := watchHome_shape s m.srcKey (paLocal m.src + 128 * m.copied) 128 false 0
  obtain ⟨b2, m2, h2⟩ := watchHome_shape ({ s with bases := b1, msix := m1 } : State) m.dstKey (paLocal m.dst + 128 * m.copied) 128 true 0
  unfold State.lineMoved
  dsimp only
  rw [h1, h2, tget_tput_same, homePut_field (π := State.poison) fun _ _ _ => rfl]

/-- Bytes given by their places, written whole within a line, are read back place by place. -/
theorem homeByte_homePut_map (s : State) (key : Nat) {l n i : Nat} {f : Nat → Byte} (hl : l % 128 = 0) (hn : n ≤ 128) (hi : i < n) :
    (s.homePut key l (fullMask ((List.range n).map f))).homeByte key (l + i) = f i :=
  List.map_inj_left.1 (homeBytes_homePut s key (by simp [fullMask]) hl hn) i (List.mem_range.2 hi)

theorem lineMoved_homeByte (s : State) (m : Mig) (hl : (paLocal m.dst + 128 * m.copied) % 128 = 0) {i : Nat} (hi : i < 128) :
    (s.lineMoved m).homeByte m.dstKey (paLocal m.dst + 128 * m.copied + i) = s.homeByte m.srcKey (paLocal m.src + 128 * m.copied + i) := by
  obtain ⟨b1, m1, h1⟩ := watchHome_shape s m.srcKey (paLocal m.src + 128 * m.copied) 128 false 0
  obtain ⟨b2, m2, h2⟩ := watchHome_shape ({ s with bases := b1, msix := m1 } : State) m.dstKey (paLocal m.dst + 128 * m.copied) 128 true 0
  have hclk : ∀ (t : State) p c k a, ({ t with poison := p, lineClk := c } : State).homeByte k a = t.homeByte k a :=
    fun t p c k a => homeByte_of_same rfl rfl fun _ => rfl
  have hwatch : ∀ (t : State) b x k a, ({ t with bases := b, msix := x } : State).homeByte k a = t.homeByte k a :=
    fun t b x k a => homeByte_of_same rfl rfl fun _ => rfl
  unfold State.lineMoved
  dsimp only
  rw [h1, h2, hclk, homeByte_homePut_map _ _ hl (Nat.le_refl 128) hi, hwatch]

/-- The state after a line of a migration: a poisoned one leaves an error record, and the migration counts it (R403). -/
def State.lineNoted (s : State) (fn : Nat) (m : Mig) : State :=
  let lo := paLocal m.src + 128 * m.copied
  let t := if s.isBad lo then (s.lineMoved m).lineError 2 lo lo 0 else s.lineMoved m
  t.modFn fn (fun f => { f with mig := some { m with copied := m.copied + 1 } })

theorem migLine_eq {fn : Nat} {s : State} {m : Mig} (h : (s.fn fn).mig = some m) (hc : 128 * m.copied < m.size) :
    s.migLine fn = if m.size ≤ 128 * (m.copied + 1) then s.lineNoted fn m
      else (s.lineNoted fn m).postOnce ((s.lineNoted fn m).now + 1) (.migrationCopy fn) := by
  obtain ⟨b1, m1, h1⟩ := watchHome_shape s m.srcKey (paLocal m.src + 128 * m.copied) 128 false 0
  have hbad : (s.watchHome m.srcKey (paLocal m.src + 128 * m.copied) 128 false 0).isBad (paLocal m.src + 128 * m.copied)
      = s.isBad (paLocal m.src + 128 * m.copied) := by rw [h1]; rfl
  unfold State.migLine
  rw [h]
  dsimp only
  rw [if_neg (Nat.not_le.2 hc), hbad]
  rfl

theorem lineNoted_mig (s : State) (fn : Nat) (m : Mig) : ((s.lineNoted fn m).fn fn).mig = some { m with copied := m.copied + 1 } :=
  congrArg Fn.mig (fn_modFn_same ..)

theorem lineNoted_poison (s : State) (fn : Nat) (m : Mig) : (s.lineNoted fn m).poison = (s.lineMoved m).poison := by
  unfold State.lineNoted
  rw [modFn_poison]
  split
  · exact error_field (fun _ _ _ _ _ => rfl) ..
  · rfl

theorem lineNoted_homeByte {s : State} {fn : Nat} {m : Mig} (hgood : tget 0 s.poison ((paLocal m.src + 128 * m.copied) / 128) = 0)
    (key a : Nat) : (s.lineNoted fn m).homeByte key a = (s.lineMoved m).homeByte key a := by
  have hok : s.isBad (paLocal m.src + 128 * m.copied) = false := by rw [State.isBad, hgood]; rfl
  have hfn : ∀ (w : State) g, (w.modFn fn g).homeByte key a = w.homeByte key a := fun w g => homeByte_of_same rfl rfl fun _ => rfl
  unfold State.lineNoted
  rw [hfn, hok]
  rfl

theorem postOnce_shape (s : State) (t : Nat) (i : Instr) : ∃ d, s.postOnce t i = { s with due := d } := by
  unfold State.postOnce
  split
  · exact ⟨_, rfl⟩
  · exact ⟨_, rfl⟩

theorem migrationCopy_copies {fn lo ln : Nat} {s : State} {m : Mig} (h : (s.fn fn).mig = some m) (hc : 128 * m.copied < m.size)
    (hlo : lo = paLocal m.src + 128 * m.copied) (hln : ln = paLocal m.dst + 128 * m.copied) (hl : ln % 128 = 0) :
    ∃ t, exec (.migrationCopy fn) s = .next t
      ∧ (t.fn fn).mig = some { m with copied := m.copied + 1 } ∧ tget 0 t.poison (ln / 128) = tget 0 s.poison (lo / 128)
      ∧ (tget 0 s.poison (lo / 128) = 0 → ∀ i, i < 128 → t.homeByte m.dstKey (ln + i) = s.homeByte m.srcKey (lo + i)) := by
  subst hlo hln
  have hstep : ∃ d, s.migLine fn = { s.lineNoted fn m with due := d } := by
    rw [migLine_eq h hc]
    split
    · exact ⟨_, rfl⟩
    · exact postOnce_shape ..
  obtain ⟨d, hd⟩ := hstep
  refine ⟨_, congrArg Host.Outcome.next hd, lineNoted_mig s fn m, ?_, fun hgood i hi => ?_⟩
  · exact (congrArg (tget 0 · _) (lineNoted_poison s fn m)).trans (lineMoved_poison s m)
  · have hdue : ∀ (w : State) k a, ({ w with due := d } : State).homeByte k a = w.homeByte k a := fun w k a => homeByte_of_same rfl rfl fun _ => rfl
    rw [hdue, lineNoted_homeByte hgood, lineMoved_homeByte s m hl hi]

/-! ### Hot rows (R405) -/

/-- A row's count goes up by one, and it is the first entry of that row. -/
theorem find_bump (l : List (Nat × Nat × Nat)) (bank row : Nat) :
    (State.activate.bump l bank row).find? (fun a => a.1 == bank && a.2.1 == row)
      = some (bank, row, ((l.find? (fun a => a.1 == bank && a.2.1 == row)).map (·.2.2)).getD 0 + 1) := by
  induction l with
  | nil => simp [State.activate.bump]
  | cons x l ih =>
    rw [State.activate.bump]
    by_cases hx : x.1 = bank ∧ x.2.1 = row
    · rw [if_pos hx]
      simp [hx.1, hx.2]
    · rw [if_neg hx]
      have hx' : (x.1 == bank && x.2.1 == row) = false := by simpa using hx
      rw [List.find?_cons_of_neg (by rw [hx']; decide), List.find?_cons_of_neg (by rw [hx']; decide), ih]

/-- A throttled key whose time is set anew on its bank. -/
theorem throttle_map {b : Base} {bank key a now : Nat} {acts : List (Nat × Nat × Nat)} (h : b.throttle? bank key = some a) :
    ({ b with acts := acts, throttled := b.throttled.map (fun v => if v.1 = bank ∧ v.2.1 = key then (bank, key, now) else v) } : Base).throttle?
      bank key = some now := by
  unfold Base.throttle? at h ⊢
  dsimp only
  generalize b.throttled = l at h
  induction l with
  | nil => cases h
  | cons v l ih =>
    by_cases hv : v.1 = bank ∧ v.2.1 = key
    · simp [hv]
    · have hv' : (v.1 == bank && v.2.1 == key) = false := by simpa using hv
      rw [List.find?_cons_of_neg (by rw [hv']; decide)] at h
      rw [List.map_cons, if_neg hv, List.find?_cons_of_neg (by rw [hv']; decide)]
      exact ih h

section
variable {base bank row : Nat} {key : BitVec 4} {s : State} (hb : base < 32)
include hb

theorem rowActivation_eq : exec (.rowActivation base bank row key) s = .next (s.activate base bank row key.toNat) :=
  congrArg Host.Outcome.next (if_pos hb)

theorem rowActivation_counts (h : (s.base base).throttle? bank key.toNat = none) : ∃ t n, exec (.rowActivation base bank row key) s = .next t
      ∧ (t.base base).acts = State.activate.bump (s.base base).acts bank row
      ∧ (State.activate.bump (s.base base).acts bank row).find? (fun a => a.1 == bank && a.2.1 == row) = some (bank, row, n)
      ∧ n = (((s.base base).acts.find? (fun a => a.1 == bank && a.2.1 == row)).map (·.2.2)).getD 0 + 1
      ∧ (t.base base).throttled = (if n = s.hrthr then (s.base base).throttled ++ [(bank, key.toNat, s.now)] else (s.base base).throttled) := by
  refine ⟨_, _, (rowActivation_eq hb), ?_, find_bump .., rfl, ?_⟩
  all_goals
    unfold State.activate
    simp only [h, base_modBase_same, find_bump, Option.map_some, Option.getD_some]

theorem rowActivation_held {a : Nat} (h : (s.base base).throttle? bank key.toNat = some a) (hn : s.now < a + usCycles 2) :
    exec (.rowActivation base bank row key) s = .next (s.countMod 0x0203 (fun q => if q % 16 = key.toNat then 1 else 0)) := by
  refine (rowActivation_eq hb).trans (congrArg Host.Outcome.next ?_)
  unfold State.activate
  simp only [h, if_pos hn]

theorem rowActivation_throttled {a : Nat} (h : (s.base base).throttle? bank key.toNat = some a) (hn : a + usCycles 2 ≤ s.now) :
    ∃ t, exec (.rowActivation base bank row key) s = .next t ∧ (t.base base).acts = State.activate.bump (s.base base).acts bank row
      ∧ (t.base base).throttle? bank key.toNat = some s.now := by
  have hlate := Nat.not_lt.2 hn
  refine ⟨_, rowActivation_eq hb, ?_, ?_⟩
  · unfold State.activate
    simp only [h, if_neg hlate, base_modBase_same]
  · unfold State.activate
    simp only [h, if_neg hlate, base_modBase_same]
    exact throttle_map h

end

theorem refreshWindowEnd_clears (base : Nat) (s : State) :
    ∃ t, exec (.refreshWindowEnd base) s = .next t ∧ (t.base base).acts = [] ∧ (t.base base).throttled = [] := by
  refine ⟨_, rfl, ?_⟩
  unfold State.windowEnd
  rw [base_modBase_same]
  exact ⟨rfl, rfl⟩

/-! ### Errors of the hardware (R383, R385, R386, R393) -/

theorem hbmUncorrectable_line {e : ErrAt} {loc u : Nat} (s : State) (h : (e = .hbm loc ∧ u = 0) ∨ (e = .cache loc ∧ u = 1)) :
    exec (.hbmUncorrectable e) s = .next (if loc < 2 ^ 41 then { s with poison := tput 0 s.poison (loc / 128) (u + 1) } else s) := by
  rcases h with ⟨rfl, rfl⟩ | ⟨rfl, rfl⟩ <;> rfl

theorem hbmUncorrectable_poisons {e : ErrAt} {loc u : Nat} (s : State) (h : (e = .hbm loc ∧ u = 0) ∨ (e = .cache loc ∧ u = 1)) (hl : loc < 2 ^ 41) :
    ∃ t, exec (.hbmUncorrectable e) s = .next t ∧ t.hbm = s.hbm
      ∧ ∀ i, tget 0 t.poison i = if i = loc / 128 then u + 1 else tget 0 s.poison i := by
  refine ⟨_, (hbmUncorrectable_line s h).trans (congrArg Host.Outcome.next (if_pos hl)), rfl, fun i => ?_⟩
  show tget 0 (tput 0 s.poison (loc / 128) (u + 1)) i = _
  exact tget_tput ..

/-- A mark set in a table of marks. -/
theorem tget_mark (t : Tbl Bool) (i j : Nat) : tget false (tput false t i true) j = (decide (j = i) || tget false t j) := by
  rw [tget_tput]
  by_cases h : j = i <;> simp [h]

theorem hbmUncorrectable_spad (c off : Nat) (s : State) :
    ((c < 1024 ∧ off < (s.core c).spadSize) → ∃ t, exec (.hbmUncorrectable (.spad c off)) s = .next t
      ∧ ∀ i, tget false (t.core c).spadBad i = (decide (i = off / 16) || tget false (s.core c).spadBad i))
    ∧ (¬ (c < 1024 ∧ off < (s.core c).spadSize) → exec (.hbmUncorrectable (.spad c off)) s = .next s) := by
  refine ⟨fun h => ⟨_, congrArg Host.Outcome.next (if_pos h), fun i => ?_⟩, fun h => congrArg Host.Outcome.next (if_neg h)⟩
  rw [core_modCore_same]
  exact tget_mark ..

theorem hbmUncorrectable_cluster (b off : Nat) (s : State) :
    ((b < 256 ∧ off < 32 * cluStep) → ∃ t, exec (.hbmUncorrectable (.cluster b off)) s = .next t
      ∧ ∀ i, tget false (t.bay b).memBad i = (decide (i = off / 16) || tget false (s.bay b).memBad i))
    ∧ (¬ (b < 256 ∧ off < 32 * cluStep) → exec (.hbmUncorrectable (.cluster b off)) s = .next s) := by
  refine ⟨fun h => ⟨_, congrArg Host.Outcome.next (if_pos h), fun i => ?_⟩, fun h => congrArg Host.Outcome.next (if_neg h)⟩
  rw [bay_modBay_same]
  exact tget_mark ..

theorem archStateError_none {core : Nat} {detail : Word} {s : State} (h : (s.core core).job = none) :
    exec (.archStateError core detail) s = .next s := by
  refine congrArg Host.Outcome.next (a₁ := s.archError core detail) ?_
  unfold State.archError
  rw [h]

theorem archStateError_tears {core : Nat} {detail : Word} {s : State} {j : Job} (h : (s.core core).job = some j) :
    ∃ u w, exec (.archStateError core detail) s
      = .next ((({ s with free := s.free + 2 } : State).error 2 (u % 12) (coreDie core) w 0 j.ctx 0).teardown j.ctx 0 detail core) := by
  refine ⟨Config.freeNat s.free, Config.freeNat (s.free + 1), congrArg Host.Outcome.next (a₁ := s.archError core detail) ?_⟩
  unfold State.archError
  rw [h]
  rfl

section
variable {unit : BitVec 8} {die : BitVec 16} {loc : BitVec 32} {addr : Word} {s : State} {b key : Nat}

/-- The state with the times of an error location counted anew, at the front of its base die's list (R386). -/
def State.errCounted (s : State) (b : Nat) (e : Nat × Nat × List Nat × Bool × Bool) : State :=
  s.modBase b (fun x => { x with errs := (e :: (s.base b).errs.filter (fun o => !(o.1 == e.1 && o.2.1 == e.2.1))).take 4096 })

theorem base_errCounted (s : State) (b : Nat) (e : Nat × Nat × List Nat × Bool × Bool) :
    ((s.errCounted b e).base b).errs = (e :: (s.base b).errs.filter (fun o => !(o.1 == e.1 && o.2.1 == e.2.1))).take 4096 := by
  rw [State.errCounted, base_modBase_same]

theorem correctable_known {n : Nat} {ts : List Nat} {rep took : Bool} (hb : b = trackBase unit.toNat die.toNat)
    (hk : key = loc.toNat + die.toNat * 2 ^ 32)
    (hf : (s.base b).errs.find? (fun e => e.1 == unit.toNat && e.2.1 == key) = some (unit.toNat, key, ts, rep, took))
    (hn : n = (ts.filter (fun t => decide (s.now < t + s.ecwin * 1600000000))).length + 1) :
    exec (.correctableError unit die loc addr) s = .next (
      let done := rep && !decide (n ≤ s.ecthr + 1)
      let tell := decide (s.ecthr < n) && !done
      let t := (s.errCounted b (unit.toNat, key, ts.filter (fun t => decide (s.now < t + s.ecwin * 1600000000)) ++ [s.now],
        done || decide (s.ecthr < n), took && !tell)).error 3 unit.toNat die.toNat loc.toNat addr.toNat 0 n
      if tell then t.error 6 unit.toNat die.toNat loc.toNat addr.toNat 0 (n % 2 ^ 31 + took.toNat * 2 ^ 31) else t) := by
  subst hb hk hn
  refine congrArg Host.Outcome.next (a₁ := s.correctable unit.toNat die.toNat loc.toNat addr.toNat) ?_
  unfold State.correctable
  simp only [hf, Option.map_some, Option.getD_some, Nat.add_le_add_iff_right]
  rfl

end

theorem error_errs (s : State) (type unit die wher addr ctx count b : Nat) :
    ((s.error type unit die wher addr ctx count).base b).errs = (s.base b).errs :=
  error_field (π := fun s => (s.base b).errs) (fun _ _ _ _ _ => rfl) ..

section
variable {unit : BitVec 8} {die : BitVec 16} {loc : BitVec 32} {addr : Word} {s : State} {b key : Nat}
  (hb : b = trackBase unit.toNat die.toNat) (hk : key = loc.toNat + die.toNat * 2 ^ 32)
include hb hk

section
variable {n : Nat} {ts : List Nat} {rep took : Bool}
  (hf : (s.base b).errs.find? (fun e => e.1 == unit.toNat && e.2.1 == key) = some (unit.toNat, key, ts, rep, took))
  (hn : n = (ts.filter (fun t => decide (s.now < t + s.ecwin * 1600000000))).length + 1)
include hf hn

theorem correctableError_few (h : n ≤ s.ecthr) : ∃ t : State,
    exec (.correctableError unit die loc addr) s = .next (t.error 3 unit.toNat die.toNat loc.toNat addr.toNat 0 n)
      ∧ (∀ o, o ≠ b → t.base o = s.base o) ∧ (t.base b).errs.head? = some (unit.toNat, key, ts.filter (fun t =>
        decide (s.now < t + s.ecwin * 1600000000)) ++ [s.now], false, took) := by
  have hfell : decide (n ≤ s.ecthr + 1) = true := decide_eq_true (by omega)
  have hpast : decide (s.ecthr < n) = false := decide_eq_false (by omega)
  have hrun := correctable_known (addr := addr) hb hk hf hn
  simp only [hfell, hpast, Bool.not_true, Bool.and_false, Bool.or_self, Bool.not_false, Bool.and_true, Bool.false_eq_true,
    if_false] at hrun
  refine ⟨_, hrun, fun o ho => tget_tput_other _ _ _ ho, ?_⟩
  rw [base_errCounted]
  rfl

theorem correctableError_over (h : n = s.ecthr + 1) : ∃ t : State, exec (.correctableError unit die loc addr) s
      = .next (t.error 6 unit.toNat die.toNat loc.toNat addr.toNat 0 (n % 2 ^ 31 + took.toNat * 2 ^ 31))
      ∧ (t.base b).errs.head? = some (unit.toNat, key, ts.filter (fun t => decide (s.now < t + s.ecwin * 1600000000)) ++ [s.now], true, false) := by
  have hfell : decide (n ≤ s.ecthr + 1) = true := decide_eq_true (by omega)
  have hpast : decide (s.ecthr < n) = true := decide_eq_true (by omega)
  have hrun := correctable_known (addr := addr) hb hk hf hn
  simp only [hfell, hpast, Bool.not_true, Bool.and_false, Bool.false_or, Bool.not_false, Bool.and_true, if_true] at hrun
  refine ⟨_, hrun, ?_⟩
  rw [error_errs, base_errCounted]
  rfl

end

theorem correctableError_first (h1 : 1 ≤ s.ecthr) (hno : ∀ e ∈ (s.base b).errs, ¬ (e.1 = unit.toNat ∧ e.2.1 = key)) : ∃ t : State,
      exec (.correctableError unit die loc addr) s = .next (t.error 3 unit.toNat die.toNat loc.toNat addr.toNat 0 1)
      ∧ (t.base b).errs = ((unit.toNat, key, [s.now], false, decide (4096 ≤ (s.base b).errs.length)) :: (s.base b).errs).take 4096 := by
  subst hb hk
  have hmiss : ∀ e ∈ (s.base (trackBase unit.toNat die.toNat)).errs,
      (e.1 == unit.toNat && e.2.1 == loc.toNat + die.toNat * 2 ^ 32) = false := fun e he => by simpa using hno e he
  have hnone : (s.base (trackBase unit.toNat die.toNat)).errs.find? (fun e => e.1 == unit.toNat && e.2.1 == loc.toNat + die.toNat * 2 ^ 32) = none :=
    List.find?_eq_none.2 fun e he => by rw [hmiss e he]; decide
  have hrest : (s.base (trackBase unit.toNat die.toNat)).errs.filter (fun e => !(e.1 == unit.toNat && e.2.1 == loc.toNat + die.toNat * 2 ^ 32))
      = (s.base (trackBase unit.toNat die.toNat)).errs := List.filter_eq_self.2 fun e he => by rw [hmiss e he]; rfl
  have hpast : decide (s.ecthr < 1) = false := decide_eq_false (by omega)
  refine ⟨s.modBase (trackBase unit.toNat die.toNat) (fun x => { x with errs := ((unit.toNat, loc.toNat + die.toNat * 2 ^ 32, [s.now], false,
    decide (4096 ≤ (s.base (trackBase unit.toNat die.toNat)).errs.length)) :: (s.base (trackBase unit.toNat die.toNat)).errs).take 4096 }),
    congrArg Host.Outcome.next (a₁ := s.correctable unit.toNat die.toNat loc.toNat addr.toNat) ?_, by rw [base_modBase_same]⟩
  unfold State.correctable
  simp only [hnone, hrest, Option.map_none, Option.getD_none, List.filter_nil, List.length_nil, Nat.zero_add, hpast, Bool.false_and, Bool.or_self,
    Bool.not_false, Bool.and_true, Bool.false_eq_true, if_false, List.nil_append]

end

/-! ### CXL.mem (R412) -/

/-- Bytes that stay within a line are one piece. -/
theorem splitLines_one {α : Type} {off : Nat} {bs : List α} (h0 : bs ≠ []) (h : off % 128 + bs.length ≤ 128) : splitLines off bs = [(off, bs)] := by
  obtain ⟨b, l, rfl⟩ := List.exists_cons_of_ne_nil h0
  have hlen : (b :: l).length ≤ 2 ^ 7 - off % 2 ^ 7 := by omega
  rw [splitLines, splitAt2, List.take_of_length_le hlen, List.drop_of_length_le hlen]
  · rfl
  · exact fun h => h0 h

section
variable {fn off n : Nat} {s : State} {bs : List Byte} (hn : 0 < n) (hl : off % 128 + n ≤ 128)
include hn hl

theorem cxlMemRead_closed (h : s.openWindow fn off = none) :
    exec (.cxlMemRead fn off n) s = .next { s with cxlOut := s.cxlOut ++ [List.replicate n none] } := by
  refine congrArg Host.Outcome.next (a₁ := s.cxlRead fn off n) ?_
  unfold State.cxlRead
  rw [splitLines_one (by simp; omega) (by simpa using hl)]
  simp only [List.foldl_cons, List.foldl_nil, h, List.length_replicate, List.nil_append]

theorem cxlMemRead_open {key l : Nat} (h : s.openWindow fn off = some (key, l)) : ∃ t, exec (.cxlMemRead fn off n) s = .next t
    ∧ t.cxlOut = s.cxlOut ++ [(List.range n).map (fun i => if tget 0 s.poison (l / 128) ≠ 0 then none else some (s.homeByte key (l + i)))] := by
  refine ⟨s.cxlRead fn off n, rfl, ?_⟩
  obtain ⟨b, m, hw⟩ := watchHome_shape (s.mscTouch key l 0) key l n false 0
  unfold State.cxlRead
  rw [splitLines_one (by simp; omega) (by simpa using hl)]
  simp only [List.foldl_cons, List.foldl_nil, h, List.length_replicate, List.nil_append, hw, mscTouch_cxlOut]
  simp only [State.isBad, bne_iff_ne]

end

section
variable {fn off n : Nat} {s : State} {bs : List Byte} (hn : 0 < n) (hb : bs.length = n) (hl : off % 128 + n ≤ 128)
include hn hb hl

theorem cxlMemWrite_closed (h : s.openWindow fn off = none) : exec (.cxlMemWrite fn off bs) s = .next s := by
  refine congrArg Host.Outcome.next (a₁ := s.cxlWrite fn off bs) ?_
  unfold State.cxlWrite
  rw [splitLines_one (by rintro rfl; simp at hb; omega) (by omega)]
  simp only [List.foldl_cons, List.foldl_nil, h]

theorem cxlMemWrite_open {key l : Nat} (h : s.openWindow fn off = some (key, l)) :
    exec (.cxlMemWrite fn off bs) s = .next (s.homeWriteLine key l (fullMask bs) 0 0) := by
  refine congrArg Host.Outcome.next (a₁ := s.cxlWrite fn off bs) ?_
  unfold State.cxlWrite
  rw [splitLines_one (by rintro rfl; simp at hb; omega) (by omega)]
  simp only [List.foldl_cons, List.foldl_nil, h]

end

/-- Settles O46: each event is its own state function, taken in the case that the clause's premises name. -/
theorem mainMemory : Obligations.MainMemory := by
  refine ⟨fun fn kind sz asid s own hk hz ha ho => ⟨tsdGo_busy, fun h hbad => tsdGo_refused hk hz ha ho h hbad,
      fun h h3 h12 hown => tsdGo_starts hk hz ha ho h h3 h12 hown⟩,
    fun asids page s => dropTlbs_drops s asids page,
    fun fn s => ⟨rfl, tsdEnd_idle, fun asids => tsdEnd_busy, fun asids => tsdEnd_done, destroyEnd_idle, fun ctx asid => destroyEnd_busy,
      fun ctx asid => destroyEnd_done⟩,
    fun fn p n s f hf hn => ⟨migStart_running hf, migStart_badSize hf, migStart_starts hf hn⟩,
    fun fn lo ln s m h hc hlo hln _ hl => migrationCopy_copies h hc hlo hln hl,
    fun fn s => ⟨migEnd_idle, fun m => migEnd_copying, fun m => migEnd_copied⟩, ?_, refreshWindowEnd_clears, ?_, hbmUncorrectable_spad,
    hbmUncorrectable_cluster, fun core detail s => ⟨archStateError_none, fun j => archStateError_tears⟩,
    fun unit die loc addr s b key n ts rep took hb hk hf hn => ⟨correctableError_few hb hk hf hn, correctableError_over hb hk hf hn⟩,
    fun unit die loc addr s b key hb hk h1 hno => correctableError_first hb hk h1 hno, ?_⟩
  · rintro base bank row key s acts hb rfl
    exact ⟨rowActivation_counts hb, fun a h => ⟨rowActivation_held hb h, rowActivation_throttled hb h⟩⟩
  · intro e loc u s h
    exact ⟨fun hl => (hbmUncorrectable_line s h).trans (congrArg Host.Outcome.next (if_neg (Nat.not_lt.2 hl))), hbmUncorrectable_poisons s h⟩
  · intro fn off n s bs hn hb hl
    exact ⟨fun h => ⟨cxlMemRead_closed hn hl h, cxlMemWrite_closed hn hb hl h⟩,
      fun key l h => ⟨cxlMemRead_open hn hl h, cxlMemWrite_open hn hb hl h⟩⟩

end Sys2Proof.Machine
end

section
/-!
PROOFS. An operand's timer expires where the destination part's counter is spent and its context's trap area has no translation (O36).
-/

namespace Sys2Proof.Machine

/-- An operand of context 1 in its slot, its timer due at cycle 0. -/
def dueOperand : Operand where
  id := 0
  landing := 0
  p := { ctx := 1, tag := 0, fi := 0, src := 0, fd := 0, clk := [], rows := 0 }
  place := .slot
  expire := 0

/-- A descriptor whose one destination part is core 0, with counter 0. -/
def coreZeroDesc : BitVec 256 := 1#256 <<< 48

/-- A context with nothing mapped, so that its trap area cannot be read, whose tag 0 has a full orphan queue. -/
def unmappedCtx : Ctx where
  fn := 0
  asid := 0
  root := 0
  part := 0
  pool := 0
  trapa := 0
  landa := 0
  ovfn := 0
  savea := 0
  savesz := 0
  kslot := 0
  tags := [(0, { alloc := true, desc := some coreZeroDesc })]
  orphans := List.replicate 64 { owner := 0, slot := 0, entry := none, op := 0, tag := 0 }

/-- The job on core 0 has issued the last number of its counter 0, so that the error completion of R312 traps (R188). -/
def spentCounterState : State := { State.reset with
  ctxs := [(1, some unmappedCtx)]
  landings := [(0, { ops := [dueOperand] })]
  cores := [(0, { State.reset.core 0 with job := some { emptyJob with ctx := 1, t := [(0, { iss := -1 })] } })] }

/-- An operand that waits at its landing alone is marked, offered to the orphan queue, and counted as an orphan when its timer expires. -/
theorem expireOp_of_alone {s : State} {o : Operand} (hall : s.allOps = [o]) (hland : (s.landing o.landing).ops = [o])
    (hstuck : o.stuck = none) (hdue : o.expire ≤ s.now) :
    s.expireOp o.id = ((s.setOp o.landing o.id (fun y => some { y with stuck := some 1 })).retryOrphan { o with stuck := some 1 }).orphanMark
      o.p := by
  simp [State.expireOp, hall, hland, hstuck, hdue]

/-- The trap of the spent counter finds no trap area, and the context is torn down (R369, R383). -/
theorem ctx_expireOp_spentCounterState : (spentCounterState.expireOp dueOperand.id).ctx? 1 = none := by
  rw [expireOp_of_alone (o := dueOperand) rfl rfl rfl le_rfl, ← Option.isNone_iff_eq_none]
  decide +kernel

/-- Refutes O36: the expiry of an operand tears its own context down where the destination part's counter is spent and the trap area
is not mapped, so that no tag is left to be marked. -/
theorem not_landingEvents : ¬ Obligations.LandingEvents := by
  unfold Obligations.LandingEvents
  rintro ⟨-, -, -, -, horphan⟩
  have hfull : (unmappedCtx.orphans.filter (fun y => y.owner == (unmappedCtx.tag (tagIdx dueOperand.p.tag)).owner)).length = 64 := by
    decide +kernel
  obtain ⟨t, y, hexec, hctx, -⟩ :=
    horphan 0 spentCounterState dueOperand unmappedCtx coreZeroDesc rfl rfl rfl rfl rfl le_rfl rfl rfl rfl rfl hfull
  have ht : spentCounterState.expireOp 0 = t := by
    injection hexec
  rw [← ht] at hctx
  exact absurd (ctx_expireOp_spentCounterState.symm.trans hctx) (by simp)

end Sys2Proof.Machine
end
